-- ==== Sys2Proof/Word.lean ====
section
/-! DEFINITION. The word types of the machine (R4, R45, R46, R68 of spec/02_encoding.md and spec/04_registers.md). -/

namespace Sys2Proof

/-- A 64-bit scalar register value (R68). -/
abbrev Word := BitVec 64

/-- One byte. -/
abbrev Byte := BitVec 8

/-- A 512-bit vector register value (R68). -/
abbrev VWord := BitVec 512

/-- A sparse table: entries in strictly rising key order; a key that is not listed holds the table's
default value. -/
abbrev FMap (α : Type) := List (Nat × α)

end Sys2Proof
end

