-- ==== Sys2Proof/Machine/Maps.lean ====
section
/-! DEFINITION. Reading and writing the sparse tables that hold registers, memory and unit records. -/

namespace Sys2Proof

/-- The value at key `i`; `d` where the table lists nothing. -/
def FMap.get {α : Type} (d : α) : FMap α → Nat → α
  | [], _ => d
  | (k, v) :: m, i => if i = k then v else FMap.get d m i

/-- The entry at key `i`, if the table lists one. -/
def FMap.find {α : Type} : FMap α → Nat → Option α
  | [], _ => none
  | (k, v) :: m, i => if i = k then some v else FMap.find m i

/-- The table without key `i`. -/
def FMap.erase {α : Type} : FMap α → Nat → FMap α
  | [], _ => []
  | (k, v) :: m, i => if i = k then FMap.erase m i else (k, v) :: FMap.erase m i

/-- The table with `(i, x)` put in front of the first larger key. -/
def FMap.insert {α : Type} : FMap α → Nat → α → FMap α
  | [], i, x => [(i, x)]
  | (k, v) :: m, i, x => if i < k then (i, x) :: (k, v) :: m else (k, v) :: FMap.insert m i x

/-- Write a record at key `i`. -/
def FMap.set {α : Type} (m : FMap α) (i : Nat) (x : α) : FMap α :=
  FMap.insert (FMap.erase m i) i x

/-- Write a value at key `i`; writing the default removes the entry, so that equal tables are equal lists. -/
def FMap.put {α : Type} [DecidableEq α] (d : α) (m : FMap α) (i : Nat) (x : α) : FMap α :=
  if x = d then FMap.erase m i else FMap.insert (FMap.erase m i) i x

/-- Keys strictly rising. -/
def FMap.sorted {α : Type} : FMap α → Bool
  | [] => true
  | [_] => true
  | (k, _) :: (l, w) :: m => decide (k < l) && FMap.sorted ((l, w) :: m)

/-- The canonical form: keys strictly rising and no entry equal to the default. -/
def FMap.canon {α : Type} [DecidableEq α] (d : α) (m : FMap α) : Bool :=
  FMap.sorted m && m.all (fun p => decide (p.2 ≠ d))

/-- Apply `f` to every listed record. -/
def FMap.mapVal {α : Type} (f : Nat → α → α) (m : FMap α) : FMap α :=
  m.map (fun p => (p.1, f p.1 p.2))

/-- Bits `[lo + w - 1 : lo]` of a natural number. -/
def bits (x lo w : Nat) : Nat := (x >>> lo) % 2 ^ w

/-- Bit `i` of a natural number. -/
def bit (x i : Nat) : Bool := (x >>> i) % 2 = 1

/-- A natural number read as a signed integer of `w` bits. -/
def signed (w x : Nat) : Int :=
  let y := x % 2 ^ w
  if y < 2 ^ (w - 1) then (y : Int) else (y : Int) - 2 ^ w

/-- The `w`-bit code of an integer, modulo 2^w. -/
def wrap (w : Nat) (x : Int) : Nat := (x % 2 ^ w).toNat

/-- Little-endian value of a list of bytes (R4). -/
def leNat : List Byte → Nat
  | [] => 0
  | b :: bs => b.toNat + 256 * leNat bs

/-- The `n` little-endian bytes of a value (R4). -/
def leBytes : Nat → Nat → List Byte
  | 0, _ => []
  | n + 1, x => BitVec.ofNat 8 x :: leBytes n (x / 256)

/-- The `k`-th element of a list of numbers, 0 beyond its end. -/
def nth (l : List Nat) (k : Nat) : Nat := l.getD k 0

/-- Round up to a multiple of `k`. -/
def roundUp (x k : Nat) : Nat := (x + k - 1) / k * k

/-- Quotient rounded up. -/
def ceilDiv (x k : Nat) : Nat := (x + k - 1) / k

/-- Replace the bits `[lo + w - 1 : lo]` of `x` by the low bits of `v`. -/
def setBits (x lo w v : Nat) : Nat :=
  x - (bits x lo w) * 2 ^ lo + (v % 2 ^ w) * 2 ^ lo

end Sys2Proof
end

