-- ==== Sys2Proof/Syntax.lean ====
section
/-! DEFINITION. The instructions and events of the opcode table (spec/opcode_table.json; operand codes of
spec/02_encoding.md R45 to R49), one constructor of `Instr` per row. -/

namespace Sys2Proof

/-- Element types (R48 Table 2.6, R83 Table 5.1). -/
inductive Ty where
  | i8 | i16 | i32 | i64 | ui8 | ui16 | ui32 | ui64
  | f64 | f32 | bf16 | f16 | f8w | f8n | kf8 | kf6 | kf4
  | i4 | ui4 | i2 | b1
deriving DecidableEq, Repr

/-- Types of the scalar floating-point forms (R49). -/
inductive FTy where
  | f64 | f32 | bf16 | f16
deriving DecidableEq, Repr

/-- A scalar source operand (OC7, R45). `imm v` is the small immediate -16 to 15. -/
inductive Src where
  | s (n : Fin 64) | o (n : Fin 8) | z (n : Fin 4) | imm (v : BitVec 5)
deriving DecidableEq, Repr

/-- A scalar destination operand (OC7, R45): z0 pushes, `discard` drops the result. -/
inductive Dst where
  | s (n : Fin 64) | o (n : Fin 8) | z0 | discard
deriving DecidableEq, Repr

/-- A vector source operand (VC7, R46). `bc n` broadcasts s*n*. -/
inductive VSrc where
  | v (n : Fin 32) | p (n : Fin 8) | y (n : Fin 2) | bc (n : Fin 64)
deriving DecidableEq, Repr

/-- A vector destination operand (VC7, R46): y0 pushes. -/
inductive VDst where
  | v (n : Fin 32) | p (n : Fin 8) | y0
deriving DecidableEq, Repr

/-- A mask register m0 to m7 (R47). -/
abbrev MReg := Fin 8

/-- A bit-address register b0 to b3 (R47). -/
abbrev BReg := Fin 4

/-- An even register pair s*2n*, s*2n*+1 with 2n below 63 (R195, R328, R357). -/
abbrev SPair := Fin 32

/-- Spaces of a memory operand that a core-path access can name (Table 2.7). -/
inductive MSpace where
  | l | g | a
deriving DecidableEq, Repr

/-- Spaces of an engine operand (Table 2.7, R280). -/
inductive ESpace where
  | l | g | a | x
deriving DecidableEq, Repr

/-- Scopes (Table 2.7). -/
inductive Scope where
  | ctx | core | clu | stk | pod
deriving DecidableEq, Repr

/-- Scopes of a typed cell (R331). -/
inductive CScope where
  | core | clu | stk | pod
deriving DecidableEq, Repr

/-- Cache policies (Table 2.7). -/
inductive Policy where
  | dflt | keep | strm | nol1
deriving DecidableEq, Repr

/-- Integer conditions (Table 2.7). -/
inductive ICond where
  | eq | ne | lt | le | gt | ge | ltN | leN | gtN | geN | any | none
deriving DecidableEq, Repr

/-- Floating-point conditions (Table 6.7). -/
inductive FCond where
  | eq | ne | lt | le | gt | ge | un | or
deriving DecidableEq, Repr

/-- Rounding modes (R92). -/
inductive RM where
  | rne | rtz | rup | rdn | rna
deriving DecidableEq, Repr

/-- Epilogue activations (Table 8.2). -/
inductive Act where
  | none | relu | silu | gelu
deriving DecidableEq, Repr

/-- Kinds of an MEPI (R157). -/
inductive MKind where
  | f32 | i32 | f64
deriving DecidableEq, Repr

/-- Types of a direct tile access (R157). -/
inductive TTy where
  | f32 | i32
deriving DecidableEq, Repr

/-- AMO operations (R53). -/
inductive AmoOp where
  | add | and | or | xor | min | max | swap
deriving DecidableEq, Repr

/-- Types of AMO and ACAS (R201). -/
inductive AmoTy where
  | i32 | i64 | ui32 | ui64
deriving DecidableEq, Repr

/-- Sizes of RST (R202). -/
inductive RstSize where
  | i8 | i16 | i32 | i64
deriving DecidableEq, Repr

/-- Kinds of FENCE (Table 11.2). -/
inductive FenceKind where
  | full | st | ld
deriving DecidableEq, Repr

/-- Access paths named by FENCEX (R221). -/
inductive Path where
  | core | copy | tile | sel | tree | msg | host
deriving DecidableEq, Repr

/-- Cell types, tags 1 to 5 (Table 17.2). -/
inductive CellKind where
  | cnt | bar | lck | q | cnd
deriving DecidableEq, Repr

/-- Conditions of CNT.WAIT (Table 18.1). -/
inductive CntCond where
  | ge | le | eq
deriving DecidableEq, Repr

/-- How a waiting cell form waits (R54, R352): park, `.try`, or `.msg` with its wake mailbox. -/
inductive WMode where
  | park | try_ | msg (mb : Fin 4)
deriving DecidableEq, Repr

/-- Operand of BMOV (R200): into the b-register or out of it. -/
inductive BMovArg where
  | toB (a : Src) | fromB (d : Dst)
deriving DecidableEq, Repr

/-- What MPEEK reads (R247). -/
inductive Peek where
  | cnt | hdr | arg0 | arg1
deriving DecidableEq, Repr

/-- Completion actions of a copy command with their register pair (R277, R279). -/
inductive CopyAct where
  | none | qpub (n : SPair) | cntadd (n : SPair) | bytes (n : SPair)
deriving DecidableEq, Repr

/-- Special registers (R73 Table 4.2). -/
inductive Spr where
  | ctx | core | clu | stk | pkg | part | aid | slot | rule | mwin | state | nmsg | gidx
  | fcsr | oc | yreq | cyc | fcst | lmask
  | bfmt (k : Fin 16)
  | fsyn | fva | fpc | fmsg | sctl
  | bud (k : Fin 4)
deriving DecidableEq, Repr

/-- Team scopes of ADMIT (R311). -/
inductive TeamScope where
  | clu | stk | pod
deriving DecidableEq, Repr

/-- A segment of a host frame (R396 Table 21.2). `rsvOk` is false when a reserved field is not zero. -/
structure Seg where
  stype  : Nat
  tag    : BitVec 32
  rsvOk  : Bool
  length : Nat
  addr   : Word
  body   : List Byte
deriving DecidableEq, Repr

/-- What a frame at the host port says (R395, R396 Table 21.1): its Ethernet header, its flow header, and its segments. `size` counts the
bytes of the frame with its check sequence; `ok` is false when a reserved field is not zero, when the number of segments does not fit the
type, or when a segment crosses the end of the frame. -/
structure Frame where
  dstMac    : BitVec 48
  srcMac    : BitVec 48
  vlan      : Option (BitVec 16)
  etherType : BitVec 16
  size      : Nat
  type      : Nat
  flow      : Nat
  seq       : BitVec 32
  ack       : BitVec 32
  window    : Nat
  ok        : Bool
  segs      : List Seg
deriving DecidableEq, Repr

/-- A signed image (R405). -/
structure SignedImage where
  body : List Byte
  sig  : List Byte
deriving DecidableEq, Repr

/-- The words of a Partition Table entry with the translation root that Patrol writes beside it (R307, R313). -/
structure PartEntry where
  valid  : Bool
  aptsz  : Nat
  apt    : Nat
  pool   : Nat
  groups : BitVec 64
  ranges : List (Nat × Nat × Bool)
  root   : Nat
deriving DecidableEq, Repr

/-- A Tree Group Table entry (R308): members are core numbers within the module. -/
structure TreeGroup where
  en      : Bool
  allRed  : Bool
  root    : Nat
  members : List Nat
deriving DecidableEq, Repr

/-- A supervisor image with the place it is loaded at and the ACTIVATE arguments of its partition (R405). -/
structure Kernel where
  part  : Nat
  image : SignedImage
  base  : Nat
  pc    : Word
  arg1  : Word
deriving DecidableEq, Repr

/-- A flow that Patrol opens: its id, its partition, the host's address, and the timeout if it is not the default (R397). -/
structure FlowRec where
  flow    : Nat
  part    : Nat
  mac     : BitVec 48
  timeout : Option Nat
deriving DecidableEq, Repr

/-- What the boot sequence of R405 reads: Patrol's image, the signed configuration record with what it holds (module number, MAC address,
disabled cores, HBM training values, serial number, helper data), and what Patrol writes: the Partition Table with the translation
roots, the core map, the flows, the routes (R403), and the images. -/
structure BootRec where
  patrol   : SignedImage
  version  : Nat
  config   : SignedImage
  number   : Nat
  mac      : BitVec 48
  disabled : List Nat
  training : List Byte
  serial   : Nat
  helper   : List Byte
  parts    : List (Nat × PartEntry)
  owners   : List (Nat × Nat)
  flows    : List FlowRec
  routes   : List (Nat × Nat)
  kernels  : List Kernel
deriving DecidableEq, Repr

/-- Where an ECC or parity error is detected (R392 Table 20.3, rows 0 to 6). -/
inductive EccSite where
  | file (w reg : Nat)
  | tile (cluster item : Nat)
  | special (w reg : Nat)
  | scratchCore (w addr : Nat)
  | scratchEngine (w pa : Nat)
  | logOrSend (w : Nat)
  | l1 (core line : Nat)
  | tlb (core idx : Nat)
  | tlb2 (cluster set idx : Nat)
  | placement (core handle : Nat)
  | pool (core entry : Nat)
  | slice (pa : Nat)
  | cellMeta (pa : Nat)
  | lift (cluster stamp : Nat)
  | landing (slice : Bool) (unit idx : Nat)
deriving DecidableEq, Repr

/-- Writes to a slice control block that have no row of their own (R187). -/
structure CtlWrite where
  cluster : Nat
  offset  : Nat
  value   : Word
deriving DecidableEq, Repr

/-- The operations and events of the machine: one constructor per row of spec/opcode_table.json. An event that
concerns one unit or one item takes its number from `State.sel`, which the turn of the schedule sets. -/
inductive Instr where
  | moduleReset (m : Nat) (b : BootRec)
  | l1Invalidate (core line : Nat)
  | loadReturn (w uid : Nat)
  | walk (cluster uid : Nat)
  | treeCombine (m group : Nat) (seq : BitVec 32)
  | spillRefill (cluster part : Nat)
  | landingAction (slice : Bool) (unit idx : Nat)
  | landingDeadline (slice : Bool) (unit idx : Nat)
  | evictSave (core slot : Nat)
  | backingQueueDrain (core slot : Nat)
  | dataFrame (m : Nat) (b : List Byte)
  | ackFrame (m : Nat) (b : List Byte)
  | nakFrame (m : Nat) (b : List Byte)
  | retransmitTimeout (m flow : Nat)
  | ackTimer (m flow : Nat)
  | flowOpen (m flow part : Nat) (mac : BitVec 48) (timeout : Option Nat)
  | flowClose (m flow : Nat)
  | flitReceive (m port : Nat) (flit : List Byte)
  | linkRetrain (m port : Nat)
  | linkDown (m port : Nat)
  | treeGroupDisable (m group : Nat)
  | leaseQuotaWrite (cluster : Nat) (value : Word)
  | coreConfigWrite (core : Nat) (value : Word)
  | liftQuotaWrite (cluster part : Nat) (value : Word)
  | spillDescWrite (cluster part word : Nat) (value : Word)
  | controlRegisterWrite (c : CtlWrite)
  | eccError (site : EccSite) (double : Bool)
  | addT1 (d : Dst) (a : Src) (b : Src) (n sat : Bool)
  | addT2I (d : Dst) (a : Src) (imm : BitVec 16) (n sat : Bool)
  | addT4 (d : Dst) (a : Src) (imm : BitVec 32) (n sat : Bool)
  | subT1 (d : Dst) (a : Src) (b : Src) (n sat : Bool)
  | subT2I (d : Dst) (a : Src) (imm : BitVec 16) (n sat : Bool)
  | subT4 (d : Dst) (a : Src) (imm : BitVec 32) (n sat : Bool)
  | mulT1 (d : Dst) (a : Src) (b : Src) (n sat : Bool)
  | mulT2I (d : Dst) (a : Src) (imm : BitVec 16) (n sat : Bool)
  | mulT4 (d : Dst) (a : Src) (imm : BitVec 32) (n sat : Bool)
  | mulhT1 (d : Dst) (a : Src) (b : Src) (n : Bool)
  | mulhT2I (d : Dst) (a : Src) (imm : BitVec 16) (n : Bool)
  | mulhT4 (d : Dst) (a : Src) (imm : BitVec 32) (n : Bool)
  | divT1 (d : Dst) (a : Src) (b : Src) (n : Bool)
  | divT2I (d : Dst) (a : Src) (imm : BitVec 16) (n : Bool)
  | divT4 (d : Dst) (a : Src) (imm : BitVec 32) (n : Bool)
  | remT1 (d : Dst) (a : Src) (b : Src) (n : Bool)
  | remT2I (d : Dst) (a : Src) (imm : BitVec 16) (n : Bool)
  | remT4 (d : Dst) (a : Src) (imm : BitVec 32) (n : Bool)
  | andT1 (d : Dst) (a : Src) (b : Src)
  | andT2I (d : Dst) (a : Src) (imm : BitVec 16)
  | andT4 (d : Dst) (a : Src) (imm : BitVec 32)
  | orT1 (d : Dst) (a : Src) (b : Src)
  | orT2I (d : Dst) (a : Src) (imm : BitVec 16)
  | orT4 (d : Dst) (a : Src) (imm : BitVec 32)
  | xorT1 (d : Dst) (a : Src) (b : Src)
  | xorT2I (d : Dst) (a : Src) (imm : BitVec 16)
  | xorT4 (d : Dst) (a : Src) (imm : BitVec 32)
  | andnT1 (d : Dst) (a : Src) (b : Src)
  | andnT2I (d : Dst) (a : Src) (imm : BitVec 16)
  | andnT4 (d : Dst) (a : Src) (imm : BitVec 32)
  | shlT1 (d : Dst) (a : Src) (b : Src)
  | shlT2I (d : Dst) (a : Src) (imm : BitVec 16)
  | shlT4 (d : Dst) (a : Src) (imm : BitVec 32)
  | shrT1 (d : Dst) (a : Src) (b : Src)
  | shrT2I (d : Dst) (a : Src) (imm : BitVec 16)
  | shrT4 (d : Dst) (a : Src) (imm : BitVec 32)
  | shaT1 (d : Dst) (a : Src) (b : Src)
  | shaT2I (d : Dst) (a : Src) (imm : BitVec 16)
  | shaT4 (d : Dst) (a : Src) (imm : BitVec 32)
  | rolT1 (d : Dst) (a : Src) (b : Src)
  | rolT2I (d : Dst) (a : Src) (imm : BitVec 16)
  | rolT4 (d : Dst) (a : Src) (imm : BitVec 32)
  | clz (d : Dst) (a : Src)
  | ctz (d : Dst) (a : Src)
  | popc (d : Dst) (a : Src)
  | minT1 (d : Dst) (a : Src) (b : Src) (n : Bool)
  | minT2I (d : Dst) (a : Src) (imm : BitVec 16) (n : Bool)
  | minT4 (d : Dst) (a : Src) (imm : BitVec 32) (n : Bool)
  | maxT1 (d : Dst) (a : Src) (b : Src) (n : Bool)
  | maxT2I (d : Dst) (a : Src) (imm : BitVec 16) (n : Bool)
  | maxT4 (d : Dst) (a : Src) (imm : BitVec 32) (n : Bool)
  | sel (d : Dst) (a b c : Src)
  | setc (cc : ICond) (d : Dst) (a b : Src)
  | mov (d : Dst) (a : Src)
  | liT2I (d : Dst) (imm : BitVec 16)
  | liT4L (d : Dst) (imm : BitVec 64)
  | ext (d : Dst) (a : Src) (pos len1 : Fin 64) (n : Bool)
  | ins (d : Dst) (a : Src) (pos len1 : Fin 64)
  | fadd (t : FTy) (d : Dst) (a b : Src)
  | fsub (t : FTy) (d : Dst) (a b : Src)
  | fmul (t : FTy) (d : Dst) (a b : Src)
  | fma (t : FTy) (d : Dst) (a b c : Src)
  | fdiv (t : FTy) (d : Dst) (a b : Src)
  | fsqrt (t : FTy) (d : Dst) (a : Src)
  | fmin (t : FTy) (d : Dst) (a b : Src)
  | fmax (t : FTy) (d : Dst) (a b : Src)
  | fsetc (t : FTy) (cc : FCond) (d : Dst) (a b : Src)
  | fcvt (dt st : Ty) (d : Dst) (a : Src)
  | fclass (t : FTy) (d : Dst) (a : Src)
  | brT2I (disp : BitVec 16) (idx : Fin 32)
  | brT4 (disp : BitVec 32) (idx : Fin 32)
  | bc (cc : ICond) (a b : Src) (disp : BitVec 32) (idx : Fin 32)
  | callT2I (d : Dst) (disp : BitVec 16) (idx : Fin 32)
  | callT4 (d : Dst) (disp : BitVec 32) (idx : Fin 32)
  | ret (a : Src)
  | jmp (a : Src)
  | loop (d : Dst) (disp : BitVec 16) (idx : Fin 32)
  | vmov (d : VDst) (a : VSrc) (t : Ty) (m : MReg)
  | vbcast (d : VDst) (a : VSrc) (b : Src) (t : Ty) (m : MReg)
  | vstep (d : VDst) (a b : Src) (t : Ty) (sat : Bool) (m : MReg)
  | vadd (d : VDst) (a b : VSrc) (t : Ty) (sat : Bool) (m : MReg)
  | vsub (d : VDst) (a b : VSrc) (t : Ty) (sat : Bool) (m : MReg)
  | vmul (d : VDst) (a b : VSrc) (t : Ty) (sat : Bool) (m : MReg)
  | vfma (d : VDst) (a b c : VSrc) (t : Ty) (sat : Bool) (m : MReg)
  | vmin (d : VDst) (a b : VSrc) (t : Ty) (m : MReg)
  | vmax (d : VDst) (a b : VSrc) (t : Ty) (m : MReg)
  | vabs (d : VDst) (a : VSrc) (t : Ty) (sat : Bool) (m : MReg)
  | vand (d : VDst) (a b : VSrc) (t : Ty) (m : MReg)
  | vor (d : VDst) (a b : VSrc) (t : Ty) (m : MReg)
  | vxor (d : VDst) (a b : VSrc) (t : Ty) (m : MReg)
  | vshl (d : VDst) (a b : VSrc) (t : Ty) (m : MReg)
  | vshr (d : VDst) (a b : VSrc) (t : Ty) (m : MReg)
  | vsha (d : VDst) (a b : VSrc) (t : Ty) (m : MReg)
  | vsetc (cc : Fin 16) (d : MReg) (a b : VSrc) (t : Ty) (m : MReg)
  | vsel (d : VDst) (a b : VSrc) (t : Ty) (m : MReg)
  | vcvt (d : VDst) (a : VSrc) (dt st : Ty) (part : Fin 8) (m : MReg)
  | vpack (d : VDst) (a : VSrc) (t : Ty) (part : Fin 8) (m : MReg)
  | vunpack (d : VDst) (a : VSrc) (t : Ty) (part : Fin 8) (m : MReg)
  | vperm (d : VDst) (a b : VSrc) (t : Ty) (m : MReg)
  | vslide (d : VDst) (a b : VSrc) (c : Src) (t : Ty) (m : MReg)
  | vextr (d : Dst) (a : VSrc) (b : Src) (t : Ty)
  | vinsr (d : VDst) (a b : Src) (t : Ty)
  | vrcp (d : VDst) (a : VSrc) (t : Ty) (m : MReg)
  | vrsq (d : VDst) (a : VSrc) (t : Ty) (m : MReg)
  | vexp2 (d : VDst) (a : VSrc) (t : Ty) (m : MReg)
  | vlog2 (d : VDst) (a : VSrc) (t : Ty) (m : MReg)
  | vtanh (d : VDst) (a : VSrc) (t : Ty) (m : MReg)
  | vdot (d : VDst) (a b : VSrc) (t : Ty) (sat : Bool) (m : MReg)
  | vsum (d : VDst) (a : VSrc) (t : Ty) (sat : Bool) (m : MReg)
  | vrmax (d : VDst) (a : VSrc) (t : Ty) (m : MReg)
  | vrmin (d : VDst) (a : VSrc) (t : Ty) (m : MReg)
  | vargmax (d : VDst) (ix : Fin 64) (a : VSrc) (t : Ty) (m : MReg)
  | vargmin (d : VDst) (ix : Fin 64) (a : VSrc) (t : Ty) (m : MReg)
  | vtopk (d : Fin 16) (a : VSrc) (b : Src) (k1 : Fin 16) (t : Ty) (min : Bool) (m : MReg)
  | vxrd (d : VDst) (a : VSrc) (b : Src) (t : Ty) (m : MReg)
  | mand (a b c : MReg)
  | mor (a b c : MReg)
  | mxor (a b c : MReg)
  | mnot (a b : MReg)
  | mcnt (d : Dst) (b : MReg) (t : Ty)
  | mfirst (d : Dst) (b : MReg) (t : Ty)
  | mlease (d : Dst) (a b : Src) (clr : Bool)
  | mfree (a b : Src)
  | mcfg (a b : Src) (dfmt : Ty) (rm : RM) (act : Act) (sen ben : Bool) (dshift : BitVec 8)
  | mloadw (p : Fin 4) (a b : Src)
  | mswap (p : Fin 4)
  | mstream (t : Fin 16) (p : Fin 4) (a b : Src) (row0 n1 : Fin 128) (sat : Bool)
  | mepi (k : MKind) (g : Bool) (t : Fin 16) (a b : Src) (row0 n1 ncol1 : Fin 128)
  | mzero (t : Fin 16)
  | maccrd (k : TTy) (d : VDst) (b : Src) (t : Fin 16) (m : MReg)
  | maccwr (k : TTy) (a : VSrc) (b : Src) (t : Fin 16) (m : MReg)
  | ldT2 (d : Dst) (a : Src) (c : Option Src) (sc : Fin 4) (t : Option Ty) (sp : MSpace) (pol : Policy)
  | ldT4 (d : Dst) (a : Src) (c : Option Src) (sc : Fin 4) (t : Option Ty) (sp : MSpace) (pol : Policy) (disp : BitVec 32)
  | stT2 (b : Src) (a : Src) (c : Option Src) (sc : Fin 4) (t : Option Ty) (sp : MSpace) (pol : Policy)
  | stT4 (b : Src) (a : Src) (c : Option Src) (sc : Fin 4) (t : Option Ty) (sp : MSpace) (pol : Policy) (disp : BitVec 32)
  | ldvT2 (d : VDst) (a : Src) (c : Option Src) (sc : Fin 4) (t : Option Ty) (sp : MSpace) (pol : Policy) (m : MReg)
  | ldvT4 (d : VDst) (a : Src) (c : Option Src) (sc : Fin 4) (t : Option Ty) (sp : MSpace) (pol : Policy) (m : MReg) (disp : BitVec 32)
  | stvT2 (b : VSrc) (a : Src) (c : Option Src) (sc : Fin 4) (t : Option Ty) (sp : MSpace) (pol : Policy)
  | stvT4 (b : VSrc) (a : Src) (c : Option Src) (sc : Fin 4) (t : Option Ty) (sp : MSpace) (pol : Policy) (disp : BitVec 32)
  | ldx (d : VDst) (b : Src) (c : VSrc) (sc : Fin 4) (t : Ty) (sp : MSpace) (pol : Policy) (m : MReg)
  | stx (a : VSrc) (b : Src) (c : VSrc) (sc : Fin 4) (t : Ty) (sp : MSpace) (pol : Policy) (m : MReg)
  | bld (d : Dst) (k : BReg) (w1 : Fin 64) (inc : Bool)
  | bst (a : Src) (k : BReg) (w1 : Fin 64) (inc : Bool)
  | bmov (k : BReg) (x : BMovArg)
  | amo (op : AmoOp) (t : AmoTy) (sp : MSpace) (sc : Scope) (a : Dst) (b c : Src) (disp : BitVec 32)
  | acas (t : AmoTy) (sp : MSpace) (sc : Scope) (a : Dst) (b c : Src) (disp : BitVec 32)
  | pref (l : Option Src) (a : Src) (pol : Policy)
  | cinv (a b : Src)
  | rst (sz : RstSize) (a b c : Src) (disp : BitVec 32)
  | spalloc (guard : Bool) (d : Dst) (b : Src) (c : Fin 64) (bank g1 : Fin 16) (ctxOwner : Bool)
  | spfree (a : Src)
  | bfset (a b : Src)
  | fence (k : FenceKind) (sc : Scope)
  | fencex (sc : Scope) (src dst : Path)
  | oinit (k : CellKind) (sc : CScope) (st : Dst) (a w0 w1 : Src)
  | ofree (st : Dst) (a : Src)
  | oread (sc : Option CScope) (n : SPair) (b : Src) (mt : Option (Fin 64))
  | cntAdd (sc : Option CScope) (a : Dst) (b c : Src)
  | cntWait (cc : CntCond) (sc : Option CScope) (wm : WMode) (a : Dst) (b c : Src)
  | barArv (sc : Option CScope) (a : Dst) (b c : Src)
  | barExp (sc : Option CScope) (a : Dst) (b c : Src)
  | barWait (sc : Option CScope) (wm : WMode) (a : Dst) (b c : Src)
  | lckTake (sc : Option CScope) (wm : WMode) (a : Dst) (b : Src)
  | lckGive (sc : Option CScope) (a : Dst) (b : Src)
  | qRes (sc : Option CScope) (wm : WMode) (a : Dst) (b : Src)
  | qPub (sc : Option CScope) (tr : Bool) (a : Dst) (b c : Src)
  | qAwait (sc : Option CScope) (wm : WMode) (a : Dst) (b : Src)
  | qRel (sc : Option CScope) (a : Dst) (b c : Src)
  | cndWait (sc : Option CScope) (a : Dst) (b c : Src)
  | cndSig (sc : Option CScope) (a : Dst) (b : Src)
  | cndAll (sc : Option CScope) (a : Dst) (b : Src)
  | landArm (st : Dst) (b : Src) (idx : Option Src)
  | landOff (a : Src) (rel : Bool)
  | landRd (n : SPair) (b : Src)
  | waitc (ld st cp tl : BitVec 8)
  | send (a b : Src) (len1 nsucc : Fin 16)
  | sendv (a b c : Src) (vp : Option VSrc)
  | sendp (a b : Src) (len1 nsucc : Fin 16)
  | reply (a b : Src) (len1 nsucc : Fin 16) (rv : Bool) (rmb : Fin 4)
  | mpeek (what : Peek) (d : Dst) (b c : Src)
  | activate (a b c e : Src)
  | cpy (s : Bool) (a b c : Src) (o : Bool) (dsp ssp : ESpace) (act : CopyAct) (pol : Policy) (fmt : Option Ty)
  | cpy2 (a b c : Src) (o : Bool) (dsp ssp : ESpace) (act : CopyAct) (pol : Policy) (fmt : Option Ty) (stride : Src)
  | cpyx (a b c : Src) (o : Bool) (dsp ssp : ESpace) (act : CopyAct) (pol : Policy) (fmt : Option Ty) (list : Src)
  | fill (a b c : Src) (o : Bool) (dsp : ESpace) (act : CopyAct) (pol : Policy)
  | bsel (a : Src) (o : Bool)
  | tinj (a : Src)
  | text (d : Dst) (a : Src) (tr : Bool)
  | trap (imm : BitVec 16) (a : Src)
  | srd (d : Dst) (n : Spr)
  | swr (n : Spr) (a : Src)
  | tlbinv (x : Option (Src × Src))
  | tlbreplay (x : Option Src)
  | fltpop (n : SPair)
  | plinv (x : Option Src)
  | admitTeam (d : Dst) (b c : Src) (sc : TeamScope)
  | evict (d : Dst) (b : Src)
  | linkRetrained (m port : Nat)
  | coreMapWrite (core part : Nat)
  | partitionTableWrite (m p : Nat) (e : PartEntry)
  | treeGroupEnable (m group : Nat) (g : TreeGroup)
  | instructionFetch
  | firingChoice
  | activateArrival
  | packetArrival
  | noticeArrival
  | refusalResponse
  | retryTimer
  | acceptanceResponse
  | packetInject
  | homeWrite
  | stealSweep
  | stealAnswer
  | stealReply
  | yieldTimer
  | killTimer
  | fenceTimer
  | forecastUpdate
  | impreciseFaultTaken
  | leaseGrant
  | leaveGrant
  | leaveRelease
  | overheatReport
  | rampWindow
  | powerForecastRead
  | mloadwRun
  | mswapRun
  | mstreamRun
  | mepiRun
  | arrayCommandComplete
  | epilogueStallFence
  | engineCommandDelivery
  | engineRetryTimer
  | engineCommandStart
  | engineCommandComplete
  | completionAction
  | treeFetchBack
  | hsuOperation
  | spillLineReturn
  | withdrawal
  | cellResult
  | landingPoolRetry
  | admitRestore
  | gangEnter
  | gangExit
  | perfCounterRead
  | perfCounterWrite
  | quote
  | fenceCore
  | fin
  | commit
  | yield
  | nop
  | brk
  | halt
  | overheatClear
deriving DecidableEq, Repr

end Sys2Proof
end

