-- ==== Sys2Proof/Machine/Types.lean ====
section
/-! DEFINITION. Facts about the element types, and the checks a decoded instruction still has to pass
(R48, R56 of spec/02_encoding.md; the field rules of chapters 06 to 20). -/

namespace Sys2Proof

/-- Width of a type in bits (Table 5.1). -/
def Ty.width : Ty → Nat
  | .i8 | .ui8 | .f8w | .f8n | .kf8 => 8
  | .i16 | .ui16 | .bf16 | .f16 => 16
  | .i32 | .ui32 | .f32 => 32
  | .i64 | .ui64 | .f64 => 64
  | .kf6 => 6
  | .kf4 | .i4 | .ui4 => 4
  | .i2 => 2
  | .b1 => 1

/-- Type code of R48 Table 2.6. -/
def Ty.code : Ty → Nat
  | .i8 => 0 | .i16 => 1 | .i32 => 2 | .i64 => 3
  | .ui8 => 4 | .ui16 => 5 | .ui32 => 6 | .ui64 => 7
  | .f64 => 8 | .f32 => 9 | .bf16 => 10 | .f16 => 11
  | .f8w => 12 | .f8n => 13 | .kf8 => 14 | .kf6 => 15 | .kf4 => 16
  | .i4 => 17 | .ui4 => 18 | .i2 => 19 | .b1 => 20

/-- The type of a code of R48; codes 21 to 31 name none. -/
def tyOf : Nat → Option Ty
  | 0 => some .i8 | 1 => some .i16 | 2 => some .i32 | 3 => some .i64
  | 4 => some .ui8 | 5 => some .ui16 | 6 => some .ui32 | 7 => some .ui64
  | 8 => some .f64 | 9 => some .f32 | 10 => some .bf16 | 11 => some .f16
  | 12 => some .f8w | 13 => some .f8n | 14 => some .kf8 | 15 => some .kf6 | 16 => some .kf4
  | 17 => some .i4 | 18 => some .ui4 | 19 => some .i2 | 20 => some .b1
  | _ => none

/-- Class INT of Table 7.1. -/
def Ty.isInt (t : Ty) : Bool := decide (t.code ≤ 7)

/-- Class FLT of Table 7.1. -/
def Ty.isFlt (t : Ty) : Bool := decide (8 ≤ t.code) && decide (t.code ≤ 11)

/-- Class NAR of Table 7.1. -/
def Ty.isNar (t : Ty) : Bool := decide (12 ≤ t.code) && decide (t.code ≤ 14)

/-- Class SUB of Table 7.1. -/
def Ty.isSub (t : Ty) : Bool := decide (15 ≤ t.code)

/-- Class ANY of Table 7.1. -/
def Ty.isAny (t : Ty) : Bool := decide (t.code ≤ 14)

/-- Signed integer types of R104. -/
def Ty.isSigned : Ty → Bool
  | .i8 | .i16 | .i32 | .i64 | .i4 | .i2 => true
  | _ => false

/-- Integer types of Table 5.1: signed, unsigned and B1. -/
def Ty.isInteger : Ty → Bool
  | .i8 | .i16 | .i32 | .i64 | .ui8 | .ui16 | .ui32 | .ui64 | .i4 | .ui4 | .i2 | .b1 => true
  | _ => false

/-- The scalar floating-point types as element types (R49). -/
def FTy.ty : FTy → Ty
  | .f64 => .f64 | .f32 => .f32 | .bf16 => .bf16 | .f16 => .f16

/-- Element type of an atomic type (R201). -/
def AmoTy.ty : AmoTy → Ty
  | .i32 => .i32 | .i64 => .i64 | .ui32 => .ui32 | .ui64 => .ui64

/-- Width of an atomic type. -/
def AmoTy.width (t : AmoTy) : Nat := t.ty.width

/-- Bytes of an RST size (R202). -/
def RstSize.bytes : RstSize → Nat
  | .i8 => 1 | .i16 => 2 | .i32 => 4 | .i64 => 8

/-- Why an encoding is illegal (R44 to R49, R56). -/
inductive Reject where
  | opcode        -- a reserved major opcode
  | function      -- a function code not listed for its opcode
  | form          -- a tail length that selects no form
  | unusedField   -- an unused field or destination that is not zero
  | operand       -- a reserved or forbidden operand code
  | modifier      -- a reserved type, scope, space, condition or operation code
  | typeClass     -- a type the form does not accept
  | variant       -- a variant bit set with a type outside its class
  | rawPair       -- a `.raw` LD or ST whose register is not an even s register
  | broadcast     -- a broadcast code where the form forbids it
  | discard       -- a discarded destination where the form reads it
  | policySpace   -- a cache policy with a space other than `.g`
  | partRange     -- a part number beyond the limit of the conversion
  | rowRange      -- row0 + n beyond 128, or ncol beyond 64 for `.f64`
  | packetLength  -- a length or successor count outside R239
  | granules      -- a guard size in wrap mode
  | path          -- a FENCEX whose paths are equal or not allowed
  | condition     -- a condition code reserved for the type
  | sourceSpace   -- `.s` with a source that is not global
  | event         -- an event of the table, which has no encoding
deriving DecidableEq, Repr

/-- The first of a list of named checks that fails. -/
def firstFail : List (Bool × Reject) → Option Reject
  | [] => none
  | (ok, r) :: l => if ok then firstFail l else some r

/-- A vector source that is not a broadcast. -/
def VSrc.noBc : VSrc → Bool
  | .bc _ => false
  | _ => true

/-- INT or FLT (Table 7.2). -/
def Ty.intFlt (t : Ty) : Bool := t.isInt || t.isFlt

/-- `.sat` stands with INT types only (Table 7.2). -/
def satOk (sat : Bool) (t : Ty) : Bool := !sat || t.isInt

/-- Types of VDOT: INT of 8 and 16 bits, FLT and NAR (Table 7.2). -/
def dotOk (t : Ty) : Bool := (t.isInt && decide (t.width ≤ 16)) || t.isFlt || t.isNar

/-- Types of VSFU (R136). -/
def sfuOk : Ty → Bool
  | .f32 | .bf16 | .f16 => true
  | _ => false

/-- Number of parts of a packing (Table 7.3). -/
def packParts : Ty → Nat
  | .b1 => 8 | .i2 => 4 | .i4 | .ui4 | .kf4 => 2 | .kf6 => 1
  | _ => 0

/-- Number of parts of a VCVT: the ratio of the widths (R134). -/
def cvtParts (d s : Ty) : Nat := max d.width s.width / min d.width s.width

/-- Condition codes of VSETC by type class (R130). -/
def vcondOk (t : Ty) (c : Fin 16) : Bool :=
  if t.isInt then decide (c.val ≤ 11) else decide (c.val ≤ 7)

/-- Checks of a memory operand: type, policy (R194, R195). A policy code other than 0 outside `.g` is an illegal encoding for LDX and STX
too, of which R198 does not speak (DESIGN CHOICE, log entry 74). -/
def memChecks (t : Option Ty) (sp : MSpace) (pol : Policy) : List (Bool × Reject) :=
  [(match t with | none => true | some t => t.isAny, .typeClass),
   (decide (pol = .dflt) || decide (sp = .g), .policySpace)]

/-- The register of a `.raw` LD: an even s register (R195). -/
def rawDst (t : Option Ty) (d : Dst) : Bool :=
  match t, d with
  | some _, _ => true
  | none, .s n => decide (n.val % 2 = 0)
  | none, _ => false

/-- The register of a `.raw` ST: an even s register (R195). -/
def rawSrc (t : Option Ty) (b : Src) : Bool :=
  match t, b with
  | some _, _ => true
  | none, .s n => decide (n.val % 2 = 0)
  | none, _ => false

/-- Length and successor limits of R239. `len1` is len - 1. -/
def lenOk (len1 nsucc : Fin 16) : Bool :=
  decide (1 ≤ len1.val) && decide (nsucc.val ≤ 8) && decide (8 * nsucc.val ≤ 16 * (len1.val - 1))

/-- Checks of a three-register vector form over INT and FLT with `.sat`. -/
def arithChecks (t : Ty) (sat : Bool) : List (Bool × Reject) :=
  [(t.intFlt, .typeClass), (satOk sat t, .variant)]

/-- Not a discarded destination. -/
def Dst.kept : Dst → Bool
  | .discard => false
  | _ => true

end Sys2Proof
end

