-- ==== Sys2Proof/WellFormed.lean ====
section
/-! DEFINITION. Which terms of `Instr` are instructions that the encodings of the spec can name
(R56 of spec/02_encoding.md and the field rules of chapters 06 to 20). The operand types of Sys2Proof/Syntax.lean
already exclude most bad values; what is left is checked here, by name. -/

namespace Sys2Proof

/-- The checks an instruction must pass, each with the name of its refusal. -/
def Instr.checks : Instr → List (Bool × Reject)
  | .ins d _ _ _ | .loop d _ _ => [(d.kept, .discard)]
  | .vmov _ _ t _ | .vbcast _ _ _ t _ | .vsel _ _ _ t _ | .vperm _ _ _ t _ | .vslide _ _ _ _ t _
  | .vextr _ _ _ t | .vinsr _ _ _ t | .vrmax _ _ t _ | .vrmin _ _ t _ | .vargmax _ _ _ t _ | .vargmin _ _ _ t _
  | .mcnt _ _ t | .mfirst _ _ t => [(t.isAny, .typeClass)]
  | .vstep _ _ _ t sat _ | .vadd _ _ _ t sat _ | .vsub _ _ _ t sat _ | .vmul _ _ _ t sat _ | .vfma _ _ _ _ t sat _
  | .vsum _ _ t sat _ => arithChecks t sat
  | .vmin _ _ _ t _ | .vmax _ _ _ t _ => [(t.intFlt, .typeClass)]
  | .vabs _ _ t sat _ => [(t.intFlt, .typeClass), (!sat || (t.isInt && t.isSigned), .variant)]
  | .vand _ _ _ t _ | .vor _ _ _ t _ | .vxor _ _ _ t _ | .vshl _ _ _ t _ | .vshr _ _ _ t _ | .vsha _ _ _ t _ => [(t.isInt, .typeClass)]
  | .vsetc cc _ _ _ t _ => [(t.isAny, .typeClass), (vcondOk t cc, .condition)]
  | .vcvt _ _ dt st part _ => [(dt.isAny && st.isAny, .typeClass), (decide (part.val < cvtParts dt st), .partRange)]
  | .vpack _ _ t part _ | .vunpack _ _ t part _ => [(t.isSub, .typeClass), (decide (part.val < packParts t), .partRange)]
  | .vrcp _ _ t _ | .vrsq _ _ t _ | .vexp2 _ _ t _ | .vlog2 _ _ t _ | .vtanh _ _ t _ => [(sfuOk t, .typeClass)]
  | .vdot _ _ _ t sat _ => [(dotOk t, .typeClass), (satOk sat t, .variant)]
  | .vtopk _ _ _ _ t _ _ => [(t.isAny && decide (t.width ≤ 32), .typeClass)]
  | .vxrd _ a _ t _ => [(t.isAny, .typeClass), (a.noBc, .broadcast)]
  | .mstream _ _ _ _ row0 n1 _ => [(decide (row0.val + n1.val + 1 ≤ 128), .rowRange)]
  | .mepi k _ _ _ _ row0 n1 ncol1 => [(decide (row0.val + n1.val + 1 ≤ 128), .rowRange),
      (decide (k ≠ .f64) || decide (ncol1.val + 1 ≤ 64), .rowRange)]
  | .maccwr _ a _ _ _ => [(a.noBc, .broadcast)]
  | .ldT2 d _ _ _ t sp pol | .ldT4 d _ _ _ t sp pol _ => memChecks t sp pol ++ [(rawDst t d, .rawPair)]
  | .stT2 b _ _ _ t sp pol | .stT4 b _ _ _ t sp pol _ => memChecks t sp pol ++ [(rawSrc t b, .rawPair)]
  | .ldvT2 _ _ _ _ t sp pol _ | .ldvT4 _ _ _ _ t sp pol _ _ | .stvT2 _ _ _ _ t sp pol | .stvT4 _ _ _ _ t sp pol _ => memChecks t sp pol
  | .ldx _ _ c _ t sp pol _ | .stx _ _ c _ t sp pol _ => memChecks (some t) sp pol ++ [(c.noBc, .broadcast)]
  | .acas _ _ _ a _ _ _ => [(a.kept, .discard)]
  | .spalloc guard _ _ _ _ g1 _ => [(guard || decide (g1.val = 0), .granules)]
  | .fencex _ src dst => [(decide (src ≠ dst), .path), (decide (src ≠ .msg) && decide (src ≠ .host), .path)]
  | .send _ _ len1 nsucc | .sendp _ _ len1 nsucc | .reply _ _ len1 nsucc _ _ => [(lenOk len1 nsucc, .packetLength)]
  | .sendv _ _ _ vp => [(match vp with | none => true | some v => v.noBc, .broadcast)]
  | .cpy s _ _ _ _ _ ssp _ _ _ => [(!s || decide (ssp = .g), .sourceSpace)]
  | .addT1 .. | .addT2I .. | .addT4 .. | .subT1 .. | .subT2I .. | .subT4 .. | .mulT1 .. | .mulT2I ..
  | .mulT4 .. | .mulhT1 .. | .mulhT2I .. | .mulhT4 .. | .divT1 .. | .divT2I .. | .divT4 .. | .remT1 ..
  | .remT2I .. | .remT4 .. | .andT1 .. | .andT2I .. | .andT4 .. | .orT1 .. | .orT2I .. | .orT4 .. | .xorT1 ..
  | .xorT2I .. | .xorT4 .. | .andnT1 .. | .andnT2I .. | .andnT4 .. | .shlT1 .. | .shlT2I .. | .shlT4 ..
  | .shrT1 .. | .shrT2I .. | .shrT4 .. | .shaT1 .. | .shaT2I .. | .shaT4 .. | .rolT1 .. | .rolT2I ..
  | .rolT4 .. | .clz .. | .ctz .. | .popc .. | .minT1 .. | .minT2I .. | .minT4 .. | .maxT1 .. | .maxT2I ..
  | .maxT4 .. | .sel .. | .setc .. | .mov .. | .liT2I .. | .liT4L .. | .ext .. | .fadd .. | .fsub .. | .fmul ..
  | .fma .. | .fdiv .. | .fsqrt .. | .fmin .. | .fmax .. | .fsetc .. | .fcvt .. | .fclass .. | .brT2I ..
  | .brT4 .. | .bc .. | .callT2I .. | .callT4 .. | .ret .. | .jmp .. | .mand .. | .mor .. | .mxor .. | .mnot ..
  | .mlease .. | .mfree .. | .mcfg .. | .mloadw .. | .mswap .. | .mzero .. | .maccrd .. | .bld .. | .bst ..
  | .bmov .. | .amo .. | .pref .. | .cinv .. | .rst .. | .spfree .. | .bfset .. | .fence .. | .oinit ..
  | .ofree .. | .oread .. | .cntAdd .. | .cntWait .. | .barArv .. | .barExp .. | .barWait .. | .lckTake ..
  | .lckGive .. | .qRes .. | .qPub .. | .qAwait .. | .qRel .. | .cndWait .. | .cndSig .. | .cndAll ..
  | .landArm .. | .landOff .. | .landRd .. | .waitc .. | .fin .. | .commit .. | .yield .. | .mpeek ..
  | .activate .. | .cpy2 .. | .cpyx .. | .fill .. | .bsel .. | .tinj .. | .text .. | .nop .. | .trap ..
  | .brk .. | .srd .. | .swr .. | .tlbinv .. | .tlbreplay .. | .fltpop .. | .plinv .. | .admitTeam .. | .evict ..
  | .halt .. => []
  | .moduleReset .. | .instructionFetch .. | .firingChoice .. | .activateArrival .. | .packetArrival ..
  | .noticeArrival .. | .refusalResponse .. | .retryTimer .. | .acceptanceResponse .. | .packetInject ..
  | .homeWrite .. | .l1Invalidate .. | .loadReturn .. | .walk .. | .stealSweep .. | .stealAnswer ..
  | .stealReply .. | .yieldTimer .. | .killTimer .. | .fenceTimer .. | .forecastUpdate ..
  | .impreciseFaultTaken .. | .leaseGrant .. | .leaveGrant .. | .leaveRelease .. | .overheatReport ..
  | .rampWindow .. | .powerForecastRead .. | .mloadwRun .. | .mswapRun .. | .mstreamRun .. | .mepiRun ..
  | .arrayCommandComplete .. | .epilogueStallFence .. | .engineCommandDelivery .. | .engineRetryTimer ..
  | .engineCommandStart .. | .engineCommandComplete .. | .completionAction .. | .treeCombine ..
  | .treeFetchBack .. | .hsuOperation .. | .spillLineReturn .. | .spillRefill .. | .withdrawal ..
  | .cellResult .. | .landingAction .. | .landingDeadline .. | .landingPoolRetry .. | .evictSave ..
  | .admitRestore .. | .backingQueueDrain .. | .gangEnter .. | .gangExit .. | .dataFrame .. | .ackFrame ..
  | .nakFrame .. | .retransmitTimeout .. | .ackTimer .. | .flowOpen .. | .flowClose .. | .flitReceive ..
  | .linkRetrain .. | .linkDown .. | .perfCounterRead .. | .perfCounterWrite .. | .quote .. | .fenceCore ..
  | .treeGroupDisable .. | .leaseQuotaWrite .. | .coreConfigWrite .. | .liftQuotaWrite .. | .spillDescWrite ..
  | .controlRegisterWrite .. | .eccError .. | .overheatClear .. | .linkRetrained .. | .coreMapWrite ..
  | .partitionTableWrite .. | .treeGroupEnable .. => [(false, .event)]

/-- The first check that fails. -/
def Instr.check (i : Instr) : Option Reject := firstFail i.checks

/-- An instruction that some encoding names. -/
def Instr.wellFormed (i : Instr) : Bool := decide (i.check = none)

end Sys2Proof
end

