-- ==== Sys2Proof/Decode.lean ====
section
/-! DEFINITION. From halfwords to instructions and back (chapter 02_encoding of the spec; the field tables of the
instruction chapters). A halfword is a natural number below 65,536; an instruction is its head followed by its tail. -/

namespace Sys2Proof

/-! ### Codes of the operands (R45 to R49, R53, R54) -/

/-- OC7 code of a source (R45). -/
def Src.code : Src → Nat
  | .s n => n.val
  | .o n => 64 + n.val
  | .z n => 72 + n.val
  | .imm v => 96 + v.toNat

/-- The source an OC7 code names (R45). -/
def srcOf (n : Nat) : Option Src :=
  if n < 64 then some (.s (Fin.ofNat 64 n))
  else if n < 72 then some (.o (Fin.ofNat 8 (n - 64)))
  else if n < 76 then some (.z (Fin.ofNat 4 (n - 72)))
  else if n < 96 then none
  else if n < 128 then some (.imm (BitVec.ofNat 5 (n - 96)))
  else none

/-- OC7 code of a destination (R45). -/
def Dst.code : Dst → Nat
  | .s n => n.val
  | .o n => 64 + n.val
  | .z0 => 72
  | .discard => 76

/-- The destination an OC7 code names (R45). -/
def dstOf (n : Nat) : Option Dst :=
  if n < 64 then some (.s (Fin.ofNat 64 n))
  else if n < 72 then some (.o (Fin.ofNat 8 (n - 64)))
  else if n = 72 then some .z0
  else if n = 76 then some .discard
  else none

/-- VC7 code of a source (R46). -/
def VSrc.code : VSrc → Nat
  | .v n => n.val
  | .p n => 32 + n.val
  | .y n => 40 + n.val
  | .bc n => 64 + n.val

/-- The vector source a VC7 code names (R46). -/
def vsrcOf (n : Nat) : Option VSrc :=
  if n < 32 then some (.v (Fin.ofNat 32 n))
  else if n < 40 then some (.p (Fin.ofNat 8 (n - 32)))
  else if n < 42 then some (.y (Fin.ofNat 2 (n - 40)))
  else if n < 64 then none
  else if n < 128 then some (.bc (Fin.ofNat 64 (n - 64)))
  else none

/-- VC7 code of a destination (R46). -/
def VDst.code : VDst → Nat
  | .v n => n.val
  | .p n => 32 + n.val
  | .y0 => 40

/-- The vector destination a VC7 code names (R46). -/
def vdstOf (n : Nat) : Option VDst :=
  if n < 32 then some (.v (Fin.ofNat 32 n))
  else if n < 40 then some (.p (Fin.ofNat 8 (n - 32)))
  else if n = 40 then some .y0
  else none

/-- f2 code of a scalar floating-point type (R49). -/
def FTy.code : FTy → Nat
  | .f64 => 0 | .f32 => 1 | .bf16 => 2 | .f16 => 3

/-- The scalar floating-point type of an f2 code (R49). -/
def ftyOf : Nat → Option FTy
  | 0 => some .f64 | 1 => some .f32 | 2 => some .bf16 | 3 => some .f16 | _ => none

/-- Code of a type field that may be raw, code 31 (R48). -/
def rawCode : Option Ty → Nat
  | some t => t.code
  | none => 31

/-- The type of a field that may be raw (R48). -/
def rawTyOf (n : Nat) : Option (Option Ty) :=
  if n = 31 then some none else (tyOf n).map some

/-- Code of a memory space (Table 2.7). -/
def MSpace.code : MSpace → Nat
  | .l => 0 | .g => 1 | .a => 2

/-- The memory space of a code; `.x` is refused (R194). -/
def mspaceOf : Nat → Option MSpace
  | 0 => some .l | 1 => some .g | 2 => some .a | _ => none

/-- Code of an engine space (Table 2.7). -/
def ESpace.code : ESpace → Nat
  | .l => 0 | .g => 1 | .a => 2 | .x => 3

/-- The engine space of a code (Table 2.7). -/
def espaceOf : Nat → Option ESpace
  | 0 => some .l | 1 => some .g | 2 => some .a | 3 => some .x | _ => none

/-- Code of a scope (Table 2.7). -/
def Scope.code : Scope → Nat
  | .ctx => 0 | .core => 1 | .clu => 2 | .stk => 3 | .pod => 4

/-- The scope of a code (Table 2.7). -/
def scopeOf : Nat → Option Scope
  | 0 => some .ctx | 1 => some .core | 2 => some .clu | 3 => some .stk | 4 => some .pod | _ => none

/-- Code of a cell scope (R331). -/
def CScope.code : CScope → Nat
  | .core => 1 | .clu => 2 | .stk => 3 | .pod => 4

/-- The cell scope of a code (R348). -/
def cscopeOf : Nat → Option CScope
  | 1 => some .core | 2 => some .clu | 3 => some .stk | 4 => some .pod | _ => none

/-- Scope field of a cell form: 0 is the cell's own scope (R350). -/
def ownScopeCode : Option CScope → Nat
  | none => 0
  | some s => s.code

/-- The scope field of a cell form (R350). -/
def ownScopeOf (n : Nat) : Option (Option CScope) :=
  if n = 0 then some none else (cscopeOf n).map some

/-- Code of a cache policy (Table 2.7). -/
def Policy.code : Policy → Nat
  | .dflt => 0 | .keep => 1 | .strm => 2 | .nol1 => 3

/-- The cache policy of a code (Table 2.7). -/
def policyOf : Nat → Option Policy
  | 0 => some .dflt | 1 => some .keep | 2 => some .strm | 3 => some .nol1 | _ => none

/-- Code of an integer condition (Table 2.7). -/
def ICond.code : ICond → Nat
  | .eq => 0 | .ne => 1 | .lt => 2 | .le => 3 | .gt => 4 | .ge => 5
  | .ltN => 6 | .leN => 7 | .gtN => 8 | .geN => 9 | .any => 10 | .none => 11

/-- The integer condition of a code (Table 2.7). -/
def icondOf : Nat → Option ICond
  | 0 => some .eq | 1 => some .ne | 2 => some .lt | 3 => some .le | 4 => some .gt | 5 => some .ge
  | 6 => some .ltN | 7 => some .leN | 8 => some .gtN | 9 => some .geN | 10 => some .any | 11 => some .none
  | _ => Option.none

/-- Code of a floating-point condition (Table 6.7). -/
def FCond.code : FCond → Nat
  | .eq => 0 | .ne => 1 | .lt => 2 | .le => 3 | .gt => 4 | .ge => 5 | .un => 6 | .or => 7

/-- The floating-point condition of a code (Table 6.7). -/
def fcondOf : Nat → Option FCond
  | 0 => some .eq | 1 => some .ne | 2 => some .lt | 3 => some .le
  | 4 => some .gt | 5 => some .ge | 6 => some .un | 7 => some .or | _ => none

/-- Code of a rounding mode (Table 4.5). -/
def RM.code : RM → Nat
  | .rne => 0 | .rtz => 1 | .rup => 2 | .rdn => 3 | .rna => 4

/-- The rounding mode of a code (Table 4.5). -/
def rmOf : Nat → Option RM
  | 0 => some .rne | 1 => some .rtz | 2 => some .rup | 3 => some .rdn | 4 => some .rna | _ => none

/-- Code of an epilogue activation (Table 8.2). -/
def Act.code : Act → Nat
  | .none => 0 | .relu => 1 | .silu => 2 | .gelu => 3

/-- The epilogue activation of a code (Table 8.2). -/
def actOf : Nat → Option Act
  | 0 => some .none | 1 => some .relu | 2 => some .silu | 3 => some .gelu | _ => Option.none

/-- Code of an MEPI kind (R157). -/
def MKind.code : MKind → Nat
  | .f32 => 0 | .i32 => 1 | .f64 => 2

/-- The MEPI kind of a code (R157). -/
def mkindOf : Nat → Option MKind
  | 0 => some .f32 | 1 => some .i32 | 2 => some .f64 | _ => none

/-- Type code of a direct tile access (R157). -/
def TTy.code : TTy → Nat
  | .f32 => 9 | .i32 => 2

/-- The type of a direct tile access (R157). -/
def ttyOf : Nat → Option TTy
  | 9 => some .f32 | 2 => some .i32 | _ => none

/-- Code of an AMO operation (R53). -/
def AmoOp.code : AmoOp → Nat
  | .add => 0 | .and => 1 | .or => 2 | .xor => 3 | .min => 4 | .max => 5 | .swap => 6

/-- The AMO operation of a code (R53). -/
def amoOpOf : Nat → Option AmoOp
  | 0 => some .add | 1 => some .and | 2 => some .or | 3 => some .xor
  | 4 => some .min | 5 => some .max | 6 => some .swap | _ => none

/-- Code of an AMO type (R201). -/
def AmoTy.code : AmoTy → Nat
  | .i32 => 0 | .i64 => 1 | .ui32 => 2 | .ui64 => 3

/-- The AMO type of a code (R201). -/
def amoTyOf : Nat → Option AmoTy
  | 0 => some .i32 | 1 => some .i64 | 2 => some .ui32 | 3 => some .ui64 | _ => none

/-- Code of an RST size (R202). -/
def RstSize.code : RstSize → Nat
  | .i8 => 0 | .i16 => 1 | .i32 => 2 | .i64 => 3

/-- The RST size of a code (R202). -/
def rstSizeOf : Nat → Option RstSize
  | 0 => some .i8 | 1 => some .i16 | 2 => some .i32 | 3 => some .i64 | _ => none

/-- Code of a FENCE kind (Table 11.2). -/
def FenceKind.code : FenceKind → Nat
  | .full => 0 | .st => 1 | .ld => 2

/-- The FENCE kind of a code (Table 11.2). -/
def fenceKindOf : Nat → Option FenceKind
  | 0 => some .full | 1 => some .st | 2 => some .ld | _ => none

/-- Code of a FENCEX path (R221). -/
def Path.code : Path → Nat
  | .core => 0 | .copy => 1 | .tile => 2 | .sel => 3 | .tree => 4 | .msg => 5 | .host => 6

/-- The FENCEX path of a code (R221). -/
def pathOf : Nat → Option Path
  | 0 => some .core | 1 => some .copy | 2 => some .tile | 3 => some .sel
  | 4 => some .tree | 5 => some .msg | 6 => some .host | _ => none

/-- Tag of a cell type (Table 17.2). -/
def CellKind.code : CellKind → Nat
  | .cnt => 1 | .bar => 2 | .lck => 3 | .q => 4 | .cnd => 5

/-- The cell type of a tag (Table 17.2). -/
def cellKindOf : Nat → Option CellKind
  | 1 => some .cnt | 2 => some .bar | 3 => some .lck | 4 => some .q | 5 => some .cnd | _ => none

/-- Code of a CNT.WAIT condition (Table 18.1). -/
def CntCond.code : CntCond → Nat
  | .ge => 0 | .le => 1 | .eq => 2

/-- The CNT.WAIT condition of a code (Table 18.1). -/
def cntCondOf : Nat → Option CntCond
  | 0 => some .ge | 1 => some .le | 2 => some .eq | _ => none

/-- Bits `[5:0]` of f9 for a waiting form (R54). -/
def WMode.code : WMode → Nat
  | .park => 0
  | .try_ => 32
  | .msg mb => 16 + mb.val

/-- The waiting mode of bits `[5:0]` of f9 (R54); `.try` with `.msg`, reserved bits and a mailbox without `.msg` are refused. -/
def wmodeOf (n : Nat) : Option WMode :=
  if n = 0 then some .park
  else if n = 32 then some .try_
  else if 16 ≤ n ∧ n < 20 then some (.msg (Fin.ofNat 4 (n - 16)))
  else none

/-- Code of MPEEK's selection (R247). -/
def Peek.code : Peek → Nat
  | .cnt => 0 | .hdr => 1 | .arg0 => 2 | .arg1 => 3

/-- MPEEK's selection of a code (R247). -/
def peekOf : Nat → Option Peek
  | 0 => some .cnt | 1 => some .hdr | 2 => some .arg0 | 3 => some .arg1 | _ => none

/-- Action kind of a copy command (Table 14.2). -/
def CopyAct.kind : CopyAct → Nat
  | .none => 0 | .qpub _ => 1 | .cntadd _ => 2 | .bytes _ => 3

/-- Action register of a copy command: s*n* with n even, 0 without an action (R279). -/
def CopyAct.reg : CopyAct → Nat
  | .none => 0 | .qpub n => 2 * n.val | .cntadd n => 2 * n.val | .bytes n => 2 * n.val

/-- The action of a copy command (R279). -/
def copyActOf (kind reg : Nat) : Option CopyAct :=
  if kind = 0 then (if reg = 0 then some .none else none)
  else if reg % 2 = 0 ∧ reg < 64 then
    match kind with
    | 1 => some (.qpub (Fin.ofNat 32 (reg / 2)))
    | 2 => some (.cntadd (Fin.ofNat 32 (reg / 2)))
    | 3 => some (.bytes (Fin.ofNat 32 (reg / 2)))
    | _ => none
  else none

/-- Number of a special register (Table 4.2). -/
def Spr.code : Spr → Nat
  | .ctx => 0 | .core => 1 | .clu => 2 | .stk => 3 | .pkg => 4 | .part => 5 | .aid => 6 | .slot => 7
  | .rule => 8 | .mwin => 9 | .state => 10 | .nmsg => 11 | .gidx => 12 | .fcsr => 13 | .oc => 14
  | .yreq => 15 | .cyc => 16 | .fcst => 17 | .lmask => 18
  | .bfmt k => 32 + k.val
  | .fsyn => 64 | .fva => 65 | .fpc => 66 | .fmsg => 67 | .sctl => 68
  | .bud k => 72 + k.val

/-- The special register of a number (Table 4.2). -/
def sprOf (n : Nat) : Option Spr :=
  match n with
  | 0 => some .ctx | 1 => some .core | 2 => some .clu | 3 => some .stk | 4 => some .pkg | 5 => some .part
  | 6 => some .aid | 7 => some .slot | 8 => some .rule | 9 => some .mwin | 10 => some .state | 11 => some .nmsg
  | 12 => some .gidx | 13 => some .fcsr | 14 => some .oc | 15 => some .yreq | 16 => some .cyc | 17 => some .fcst
  | 18 => some .lmask | 64 => some .fsyn | 65 => some .fva | 66 => some .fpc | 67 => some .fmsg | 68 => some .sctl
  | _ =>
    if 32 ≤ n ∧ n < 48 then some (.bfmt (Fin.ofNat 16 (n - 32)))
    else if 72 ≤ n ∧ n < 76 then some (.bud (Fin.ofNat 4 (n - 72)))
    else none

/-- Scope code of ADMIT (R311). -/
def TeamScope.code : TeamScope → Nat
  | .clu => 2 | .stk => 3 | .pod => 4

/-- The team scope of a code (R311). -/
def teamScopeOf : Nat → Option TeamScope
  | 2 => some .clu | 3 => some .stk | 4 => some .pod | _ => none

/-! ### Fields of a head and its tail (R42, R43) -/

/-- The raw fields of one instruction. -/
structure Fields where
  op : Nat
  tl : Nat
  d  : Nat
  h0 : Nat
  h1 : Nat
  h2 : Nat
  h3 : Nat
deriving DecidableEq, Repr

/-- Tail length in halfwords that a head asks for (R42). -/
def tailLen (head : Nat) : Nat :=
  match head / 128 % 4 with
  | 0 => 0 | 1 => 1 | 2 => 2 | _ => 4

/-- Split a head and its tail (R42, R43). -/
def fieldsOf (head : Nat) (tail : List Nat) : Fields :=
  { op := head / 512 % 128, tl := head / 128 % 4, d := head % 128,
    h0 := nth tail 0, h1 := nth tail 1, h2 := nth tail 2, h3 := nth tail 3 }

/-- Field a: hw0 [15:9]. -/
def Fields.a (f : Fields) : Nat := f.h0 / 512 % 128
/-- Field b: hw0 [8:2]. -/
def Fields.b (f : Fields) : Nat := f.h0 / 4 % 128
/-- Field f2: hw0 [1:0]. -/
def Fields.f2 (f : Fields) : Nat := f.h0 % 4
/-- Field c: hw1 [15:9]. -/
def Fields.c (f : Fields) : Nat := f.h1 / 512 % 128
/-- Field f9 of T2 and T4: hw1 [8:0]. -/
def Fields.f9 (f : Fields) : Nat := f.h1 % 512
/-- Field f9 of T2I: hw0 [8:0]. -/
def Fields.f9i (f : Fields) : Nat := f.h0 % 512
/-- imm32 of T4: hw2 low, hw3 high. -/
def Fields.imm32 (f : Fields) : Nat := f.h2 % 65536 + 65536 * (f.h3 % 65536)
/-- imm64 of T4L. -/
def Fields.imm64 (f : Fields) : Nat :=
  f.h0 % 65536 + 65536 * (f.h1 % 65536 + 65536 * (f.h2 % 65536 + 65536 * (f.h3 % 65536)))

/-- Result of decoding: an instruction or the name of the refusal. -/
abbrev Dec (α : Type) := Except Reject α

/-- Refuse unless the check holds. -/
def need (ok : Bool) (r : Reject) : Dec Unit := if ok then .ok () else .error r

/-- A value a table lists, or the refusal. -/
def given {α : Type} (r : Reject) : Option α → Dec α
  | some x => .ok x
  | none => .error r

/-- A field that must be zero (R44). -/
def zero (x : Nat) : Dec Unit := need (decide (x = 0)) .unusedField

/-- The tail length of a single form (R44). -/
def form (f : Fields) (tl : Nat) : Dec Unit := need (decide (f.tl = tl)) .form

def src (n : Nat) : Dec Src := given .operand (srcOf n)
def dst (n : Nat) : Dec Dst := given .operand (dstOf n)
def vsrc (n : Nat) : Dec VSrc := given .operand (vsrcOf n)
def vdst (n : Nat) : Dec VDst := given .operand (vdstOf n)
def ty (n : Nat) : Dec Ty := given .modifier (tyOf n)

/-- A mask field (R47). -/
def mreg (n : Nat) : Dec MReg := if n < 8 then .ok (Fin.ofNat 8 n) else .error .operand

/-- An even pair s*n* with n below 63 (R195, R328, R357). -/
def pair (n : Nat) : Dec SPair :=
  if n % 2 = 0 ∧ n < 64 then .ok (Fin.ofNat 32 (n / 2)) else .error .operand

/-- An index operand, or 0b1001100 for no index (R53). -/
def index (n : Nat) : Dec (Option Src) :=
  if n = 76 then .ok none else (src n).map some

/-- Code of an index operand (R53). -/
def indexCode : Option Src → Nat
  | none => 76
  | some c => c.code

/-! ### The opcode map (R50, R51) -/

/-- A binary integer form in its three tail lengths (Table 6.1). `vmax` is the largest variant value of Table 6.2:
3 where `.n` and `.sat` stand, 1 where only `.n` stands, 0 where neither does. -/
def decInt (f : Fields) (vmax : Nat) (t1 : Dst → Src → Src → Nat → Instr)
    (t2i : Dst → Src → BitVec 16 → Nat → Instr) (t4 : Dst → Src → BitVec 32 → Nat → Instr) : Dec Instr := do
  let d ← dst f.d
  let a ← src f.a
  need (decide (f.f2 ≤ vmax)) .unusedField
  if f.tl = 1 then
    let b ← src f.b
    return t1 d a b f.f2
  else if f.tl = 2 then
    zero f.b
    return t2i d a (BitVec.ofNat 16 f.h1) f.f2
  else if f.tl = 3 then
    zero f.b
    zero f.h1
    return t4 d a (BitVec.ofNat 32 f.imm32) f.f2
  else throw .form

/-- Bit 0 of a variant: `.n` (R105). -/
def vn (v : Nat) : Bool := decide (v % 2 = 1)
/-- Bit 1 of a variant: `.sat` (R105). -/
def vs (v : Nat) : Bool := decide (v / 2 % 2 = 1)

/-- A T1 form with one source (R108, R109, R117). -/
def decT1a (f : Fields) (mk : Dst → Src → Instr) : Dec Instr := do
  form f 1
  let d ← dst f.d
  let a ← src f.a
  zero f.b
  zero f.f2
  return mk d a

/-- A T1 floating-point form with two sources (R112). -/
def decF2 (f : Fields) (mk : FTy → Dst → Src → Src → Instr) : Dec Instr := do
  form f 1
  let t ← given .modifier (ftyOf f.f2)
  let d ← dst f.d
  let a ← src f.a
  let b ← src f.b
  return mk t d a b

/-- A T1 floating-point form with one source (R112, R117). -/
def decF1 (f : Fields) (mk : FTy → Dst → Src → Instr) : Dec Instr := do
  form f 1
  let t ← given .modifier (ftyOf f.f2)
  let d ← dst f.d
  let a ← src f.a
  zero f.b
  return mk t d a

/-- Integer opcodes 0x01 to 0x19 (Table 2.8, chapter 06). -/
def decScalar (f : Fields) : Dec Instr :=
  match f.op with
  | 0x01 => decInt f 3 (fun d a b v => .addT1 d a b (vn v) (vs v)) (fun d a i v => .addT2I d a i (vn v) (vs v))
      (fun d a i v => .addT4 d a i (vn v) (vs v))
  | 0x02 => decInt f 3 (fun d a b v => .subT1 d a b (vn v) (vs v)) (fun d a i v => .subT2I d a i (vn v) (vs v))
      (fun d a i v => .subT4 d a i (vn v) (vs v))
  | 0x03 => decInt f 3 (fun d a b v => .mulT1 d a b (vn v) (vs v)) (fun d a i v => .mulT2I d a i (vn v) (vs v))
      (fun d a i v => .mulT4 d a i (vn v) (vs v))
  | 0x04 => decInt f 1 (fun d a b v => .mulhT1 d a b (vn v)) (fun d a i v => .mulhT2I d a i (vn v))
      (fun d a i v => .mulhT4 d a i (vn v))
  | 0x05 => decInt f 1 (fun d a b v => .divT1 d a b (vn v)) (fun d a i v => .divT2I d a i (vn v))
      (fun d a i v => .divT4 d a i (vn v))
  | 0x06 => decInt f 1 (fun d a b v => .remT1 d a b (vn v)) (fun d a i v => .remT2I d a i (vn v))
      (fun d a i v => .remT4 d a i (vn v))
  | 0x07 => decInt f 0 (fun d a b _ => .andT1 d a b) (fun d a i _ => .andT2I d a i) (fun d a i _ => .andT4 d a i)
  | 0x08 => decInt f 0 (fun d a b _ => .orT1 d a b) (fun d a i _ => .orT2I d a i) (fun d a i _ => .orT4 d a i)
  | 0x09 => decInt f 0 (fun d a b _ => .xorT1 d a b) (fun d a i _ => .xorT2I d a i) (fun d a i _ => .xorT4 d a i)
  | 0x0A => decInt f 0 (fun d a b _ => .andnT1 d a b) (fun d a i _ => .andnT2I d a i)
      (fun d a i _ => .andnT4 d a i)
  | 0x0B => decInt f 0 (fun d a b _ => .shlT1 d a b) (fun d a i _ => .shlT2I d a i) (fun d a i _ => .shlT4 d a i)
  | 0x0C => decInt f 0 (fun d a b _ => .shrT1 d a b) (fun d a i _ => .shrT2I d a i) (fun d a i _ => .shrT4 d a i)
  | 0x0D => decInt f 0 (fun d a b _ => .shaT1 d a b) (fun d a i _ => .shaT2I d a i) (fun d a i _ => .shaT4 d a i)
  | 0x0E => decInt f 0 (fun d a b _ => .rolT1 d a b) (fun d a i _ => .rolT2I d a i) (fun d a i _ => .rolT4 d a i)
  | 0x0F => decT1a f .clz
  | 0x10 => decT1a f .ctz
  | 0x11 => decT1a f .popc
  | 0x12 => decInt f 1 (fun d a b v => .minT1 d a b (vn v)) (fun d a i v => .minT2I d a i (vn v))
      (fun d a i v => .minT4 d a i (vn v))
  | 0x13 => decInt f 1 (fun d a b v => .maxT1 d a b (vn v)) (fun d a i v => .maxT2I d a i (vn v))
      (fun d a i v => .maxT4 d a i (vn v))
  | 0x14 => do
      form f 2
      let d ← dst f.d
      let a ← src f.a
      let b ← src f.b
      let c ← src f.c
      zero f.f2
      zero f.f9
      return .sel d a b c
  | 0x15 => do
      form f 2
      let d ← dst f.d
      let a ← src f.a
      let b ← src f.b
      zero f.f2
      zero f.c
      zero (f.f9 / 16)
      let cc ← given .modifier (icondOf (f.f9 % 16))
      return .setc cc d a b
  | 0x16 => decT1a f .mov
  | 0x17 => do
      let d ← dst f.d
      if f.tl = 2 then
        zero f.h0
        return .liT2I d (BitVec.ofNat 16 f.h1)
      else if f.tl = 3 then return .liT4L d (BitVec.ofNat 64 f.imm64)
      else throw .form
  | 0x18 => do
      form f 2
      let d ← dst f.d
      let a ← src f.a
      zero f.b
      zero f.f2
      zero (f.f9 / 128)
      zero (f.c / 64)
      return .ext d a (Fin.ofNat 64 (f.f9 % 64)) (Fin.ofNat 64 (f.c % 64)) (decide (f.f9 / 64 % 2 = 1))
  | 0x19 => do
      form f 2
      let d ← dst f.d
      let a ← src f.a
      zero f.b
      zero f.f2
      zero (f.f9 / 64)
      zero (f.c / 64)
      return .ins d a (Fin.ofNat 64 (f.f9 % 64)) (Fin.ofNat 64 (f.c % 64))
  | _ => throw .opcode

/-- Floating-point opcodes 0x20 to 0x2A (Table 2.8, chapter 06). -/
def decFloat (f : Fields) : Dec Instr :=
  match f.op with
  | 0x20 => decF2 f .fadd
  | 0x21 => decF2 f .fsub
  | 0x22 => decF2 f .fmul
  | 0x23 => do
      form f 2
      let t ← given .modifier (ftyOf f.f2)
      let d ← dst f.d
      let a ← src f.a
      let b ← src f.b
      let c ← src f.c
      zero f.f9
      return .fma t d a b c
  | 0x24 => decF2 f .fdiv
  | 0x25 => decF1 f .fsqrt
  | 0x26 => decF2 f .fmin
  | 0x27 => decF2 f .fmax
  | 0x28 => do
      form f 2
      let t ← given .modifier (ftyOf f.f2)
      let d ← dst f.d
      let a ← src f.a
      let b ← src f.b
      zero f.c
      zero (f.f9 / 16)
      let cc ← given .modifier (fcondOf (f.f9 % 16))
      return .fsetc t cc d a b
  | 0x29 => do
      form f 2
      let d ← dst f.d
      let a ← src f.a
      zero f.b
      zero f.f2
      zero (f.c / 32)
      zero (f.f9 / 32)
      let st ← ty (f.c % 32)
      let dt ← ty (f.f9 % 32)
      return .fcvt dt st d a
  | 0x2A => decF1 f .fclass
  | _ => throw .opcode

/-- Target fields of a T2I branch: displacement and index (R39). -/
def decTarget16 (f : Fields) : Dec (BitVec 16 × Fin 32) := do
  zero f.a
  zero (f.f9i / 32)
  return (BitVec.ofNat 16 f.h1, Fin.ofNat 32 (f.f9i % 32))

/-- Target fields of a T4 branch: displacement and index (R39). -/
def decTarget32 (f : Fields) : Dec (BitVec 32 × Fin 32) := do
  zero (f.f9 / 32)
  return (BitVec.ofNat 32 f.imm32, Fin.ofNat 32 (f.f9 % 32))

/-- Control opcodes 0x30 to 0x35 (Table 6.10). -/
def decControl (f : Fields) : Dec Instr :=
  match f.op with
  | 0x30 => do
      zero f.d
      if f.tl = 2 then
        let (disp, idx) ← decTarget16 f
        return .brT2I disp idx
      else if f.tl = 3 then
        zero f.h0
        zero f.c
        let (disp, idx) ← decTarget32 f
        return .brT4 disp idx
      else throw .form
  | 0x31 => do
      form f 3
      zero f.d
      let a ← src f.a
      let b ← src f.b
      zero f.f2
      zero (f.c / 16)
      let cc ← given .modifier (icondOf (f.c % 16))
      let (disp, idx) ← decTarget32 f
      return .bc cc a b disp idx
  | 0x32 => do
      let d ← dst f.d
      if f.tl = 2 then
        let (disp, idx) ← decTarget16 f
        return .callT2I d disp idx
      else if f.tl = 3 then
        zero f.h0
        zero f.c
        let (disp, idx) ← decTarget32 f
        return .callT4 d disp idx
      else throw .form
  | 0x33 => do
      form f 1
      zero f.d
      let a ← src f.a
      zero f.b
      zero f.f2
      return .ret a
  | 0x34 => do
      form f 1
      zero f.d
      let a ← src f.a
      zero f.b
      zero f.f2
      return .jmp a
  | 0x35 => do
      form f 2
      let d ← dst f.d
      let (disp, idx) ← decTarget16 f
      return .loop d disp idx
  | _ => throw .opcode

/-- Mask, type and variant of a vector form (R52). -/
structure VMods where
  m : MReg
  t : Ty
  v : Bool
deriving DecidableEq, Repr

/-- The modifiers of R52; f2 is 0 in every vector form (R124). -/
def decVMods (f : Fields) : Dec VMods := do
  form f 2
  zero f.f2
  let t ← ty (f.f9 / 2 % 32)
  return { m := Fin.ofNat 8 (f.f9 / 64), t := t, v := decide (f.f9 % 2 = 1) }

/-- A form without a variant bit (R52). -/
def noVar (q : VMods) : Dec Unit := need (!q.v) .unusedField

/-- A vector form with one vector source and no variant. -/
def decV1 (f : Fields) (mk : VDst → VSrc → Ty → MReg → Instr) : Dec Instr := do
  let q ← decVMods f
  noVar q
  let d ← vdst f.d
  let a ← vsrc f.a
  zero f.b
  zero f.c
  return mk d a q.t q.m

/-- A vector form with two vector sources and no variant. -/
def decV2 (f : Fields) (mk : VDst → VSrc → VSrc → Ty → MReg → Instr) : Dec Instr := do
  let q ← decVMods f
  noVar q
  let d ← vdst f.d
  let a ← vsrc f.a
  let b ← vsrc f.b
  zero f.c
  return mk d a b q.t q.m

/-- A vector form with two vector sources and `.sat`. -/
def decV2s (f : Fields) (mk : VDst → VSrc → VSrc → Ty → Bool → MReg → Instr) : Dec Instr := do
  let q ← decVMods f
  let d ← vdst f.d
  let a ← vsrc f.a
  let b ← vsrc f.b
  zero f.c
  return mk d a b q.t q.v q.m

/-- A vector form with one vector source and `.sat`. -/
def decV1s (f : Fields) (mk : VDst → VSrc → Ty → Bool → MReg → Instr) : Dec Instr := do
  let q ← decVMods f
  let d ← vdst f.d
  let a ← vsrc f.a
  zero f.b
  zero f.c
  return mk d a q.t q.v q.m

/-- A vector form with its function in c[2:0] (R50). -/
def decV1c (f : Fields) (mk : VDst → VSrc → Ty → MReg → Instr) : Dec Instr := do
  let q ← decVMods f
  noVar q
  let d ← vdst f.d
  let a ← vsrc f.a
  zero f.b
  return mk d a q.t q.m

/-- VPACK and VUNPACK: part in c[2:0] (Table 7.2). -/
def decVPart (f : Fields) (mk : VDst → VSrc → Ty → Fin 8 → MReg → Instr) : Dec Instr := do
  let q ← decVMods f
  noVar q
  let d ← vdst f.d
  let a ← vsrc f.a
  zero f.b
  zero (f.c / 8)
  return mk d a q.t (Fin.ofNat 8 (f.c % 8)) q.m

/-- VARGMAX and VARGMIN: b names the S register of the index (R140). -/
def decVArg (f : Fields) (mk : VDst → Fin 64 → VSrc → Ty → MReg → Instr) : Dec Instr := do
  let q ← decVMods f
  noVar q
  let d ← vdst f.d
  let a ← vsrc f.a
  need (decide (f.b < 64)) .operand
  return mk d (Fin.ofNat 64 f.b) a q.t q.m

/-- A three-mask form of MASK (Table 7.6). -/
def decMask3 (f : Fields) (mk : MReg → MReg → MReg → Instr) : Dec Instr := do
  let a ← mreg f.a
  let b ← mreg f.b
  let c ← mreg f.c
  zero f.f9
  return mk a b c

/-- MCNT and MFIRST (Table 7.6). -/
def decMaskD (f : Fields) (mk : Dst → MReg → Ty → Instr) : Dec Instr := do
  let a ← dst f.a
  let b ← mreg f.b
  zero f.c
  zero (f.f9 / 64)
  zero (f.f9 % 2)
  let t ← ty (f.f9 / 2 % 32)
  return mk a b t

/-- Vector opcodes 0x38 to 0x58 (Tables 2.9, 7.2, 7.6). -/
def decVector (f : Fields) : Dec Instr :=
  match f.op with
  | 0x38 => decV1 f .vmov
  | 0x39 => do
      let q ← decVMods f
      noVar q
      let d ← vdst f.d
      let a ← vsrc f.a
      let b ← src f.b
      zero f.c
      return .vbcast d a b q.t q.m
  | 0x3A => do
      let q ← decVMods f
      let d ← vdst f.d
      let a ← src f.a
      let b ← src f.b
      zero f.c
      return .vstep d a b q.t q.v q.m
  | 0x3B => decV2s f .vadd
  | 0x3C => decV2s f .vsub
  | 0x3D => decV2s f .vmul
  | 0x3E => do
      let q ← decVMods f
      let d ← vdst f.d
      let a ← vsrc f.a
      let b ← vsrc f.b
      let c ← vsrc f.c
      return .vfma d a b c q.t q.v q.m
  | 0x3F => decV2 f .vmin
  | 0x40 => decV2 f .vmax
  | 0x41 => decV1s f .vabs
  | 0x42 => decV2 f .vand
  | 0x43 => decV2 f .vor
  | 0x44 => decV2 f .vxor
  | 0x45 => decV2 f .vshl
  | 0x46 => decV2 f .vshr
  | 0x47 => decV2 f .vsha
  | 0x48 => do
      let q ← decVMods f
      noVar q
      let d ← mreg f.d
      let a ← vsrc f.a
      let b ← vsrc f.b
      zero (f.c / 16)
      return .vsetc (Fin.ofNat 16 (f.c % 16)) d a b q.t q.m
  | 0x49 => decV2 f .vsel
  | 0x4A => do
      let q ← decVMods f
      let d ← vdst f.d
      let a ← vsrc f.a
      zero f.b
      let st ← ty (f.c % 32)
      return .vcvt d a q.t st (Fin.ofNat 8 ((if q.v then 4 else 0) + f.c / 32)) q.m
  | 0x4B => decVPart f .vpack
  | 0x4C => decVPart f .vunpack
  | 0x4D => decV2 f .vperm
  | 0x4E => do
      let q ← decVMods f
      noVar q
      let d ← vdst f.d
      let a ← vsrc f.a
      let b ← vsrc f.b
      let c ← src f.c
      return .vslide d a b c q.t q.m
  | 0x4F => do
      let q ← decVMods f
      noVar q
      zero q.m.val
      let d ← dst f.d
      let a ← vsrc f.a
      let b ← src f.b
      zero f.c
      return .vextr d a b q.t
  | 0x50 => do
      let q ← decVMods f
      noVar q
      zero q.m.val
      let d ← vdst f.d
      let a ← src f.a
      let b ← src f.b
      zero f.c
      return .vinsr d a b q.t
  | 0x51 =>
      match f.c with
      | 0 => decV1c f .vrcp
      | 1 => decV1c f .vrsq
      | 2 => decV1c f .vexp2
      | 3 => decV1c f .vlog2
      | 4 => decV1c f .vtanh
      | _ => throw .function
  | 0x52 => decV2s f .vdot
  | 0x53 => decV1s f .vsum
  | 0x54 =>
      match f.c with
      | 0 => decV1c f .vrmax
      | 1 => decV1c f .vrmin
      | _ => throw .function
  | 0x55 =>
      match f.c with
      | 0 => decVArg f .vargmax
      | 1 => decVArg f .vargmin
      | _ => throw .function
  | 0x56 => do
      let q ← decVMods f
      need (decide (f.d < 32) && decide (f.d % 2 = 0)) .operand
      let a ← vsrc f.a
      let b ← src f.b
      zero (f.c / 16)
      return .vtopk (Fin.ofNat 16 (f.d / 2)) a b (Fin.ofNat 16 (f.c % 16)) q.t q.v q.m
  | 0x57 => do
      let q ← decVMods f
      noVar q
      let d ← vdst f.d
      let a ← vsrc f.a
      let b ← src f.b
      zero f.c
      return .vxrd d a b q.t q.m
  | 0x58 => do
      form f 2
      zero f.f2
      match f.d with
      | 0 => decMask3 f .mand
      | 1 => decMask3 f .mor
      | 2 => decMask3 f .mxor
      | 3 => do
          let a ← mreg f.a
          let b ← mreg f.b
          zero f.c
          zero f.f9
          return .mnot a b
      | 4 => decMaskD f .mcnt
      | 5 => decMaskD f .mfirst
      | _ => throw .function
  | _ => throw .opcode

/-- Matrix opcodes 0x60 to 0x67 (Tables 2.10, 8.5). -/
def decMatrix (f : Fields) : Dec Instr :=
  match f.op with
  | 0x60 => do
      form f 2
      let d ← dst f.d
      let a ← src f.a
      let b ← src f.b
      zero (f.f2 / 2)
      zero f.h1
      return .mlease d a b (decide (f.f2 % 2 = 1))
  | 0x61 => do
      form f 1
      zero f.d
      let a ← src f.a
      let b ← src f.b
      zero f.f2
      return .mfree a b
  | 0x62 => do
      form f 3
      zero f.d
      let a ← src f.a
      let b ← src f.b
      zero f.f2
      zero f.h1
      zero (f.imm32 / 2 ^ 20)
      let dfmt ← ty (f.imm32 % 32)
      let rm ← given .modifier (rmOf (f.imm32 / 32 % 8))
      let act ← given .modifier (actOf (f.imm32 / 256 % 4))
      return .mcfg a b dfmt rm act (decide (f.imm32 / 1024 % 2 = 1)) (decide (f.imm32 / 2048 % 2 = 1))
        (BitVec.ofNat 8 (f.imm32 / 4096 % 256))
  | 0x63 => do
      form f 2
      zero f.d
      let a ← src f.a
      let b ← src f.b
      zero f.f2
      zero (f.c / 4)
      zero f.f9
      return .mloadw (Fin.ofNat 4 (f.c % 4)) a b
  | 0x64 => do
      form f 1
      zero f.d
      zero f.a
      zero f.b
      return .mswap (Fin.ofNat 4 f.f2)
  | 0x65 => do
      form f 3
      zero f.d
      let a ← src f.a
      let b ← src f.b
      zero f.f2
      zero (f.h1 / 2)
      zero (f.imm32 / 2 ^ 20)
      return .mstream (Fin.ofNat 16 (f.imm32 % 16)) (Fin.ofNat 4 (f.imm32 / 16 % 4)) a b
        (Fin.ofNat 128 (f.imm32 / 64 % 128)) (Fin.ofNat 128 (f.imm32 / 8192 % 128)) (decide (f.h1 % 2 = 1))
  | 0x66 => do
      form f 3
      zero f.d
      let a ← src f.a
      let b ← src f.b
      zero f.f2
      zero (f.f9 / 4 % 32)
      need (decide (f.f9 / 128 ≤ 1)) .modifier
      let k ← given .modifier (mkindOf (f.f9 % 4))
      zero (f.imm32 / 2 ^ 18)
      return .mepi k (decide (f.f9 / 128 = 1)) (Fin.ofNat 16 (f.imm32 % 16)) a b
        (Fin.ofNat 128 (f.imm32 / 16 % 128)) (Fin.ofNat 128 (f.imm32 / 2048 % 128)) (Fin.ofNat 128 f.c)
  | 0x67 =>
      match f.d with
      | 0 => do
          form f 1
          zero (f.a / 16)
          zero f.b
          zero f.f2
          return .mzero (Fin.ofNat 16 (f.a % 16))
      | 1 => do
          form f 2
          let d ← vdst f.a
          let b ← src f.b
          zero f.f2
          zero (f.c / 16)
          zero (f.f9 % 2)
          let k ← given .modifier (ttyOf (f.f9 / 2 % 32))
          return .maccrd k d b (Fin.ofNat 16 (f.c % 16)) (Fin.ofNat 8 (f.f9 / 64))
      | 2 => do
          form f 2
          let a ← vsrc f.a
          let b ← src f.b
          zero f.f2
          zero (f.c / 16)
          zero (f.f9 % 2)
          let k ← given .modifier (ttyOf (f.f9 / 2 % 32))
          return .maccwr k a b (Fin.ofNat 16 (f.c % 16)) (Fin.ofNat 8 (f.f9 / 64))
      | _ => throw .function
  | _ => throw .opcode

/-- The operand of a memory form: base, index, scale, type, space and policy (Table 10.1). -/
structure MemOp where
  a   : Src
  c   : Option Src
  sc  : Fin 4
  t   : Option Ty
  sp  : MSpace
  pol : Policy
deriving DecidableEq, Repr

/-- The shared fields of 0x68 to 0x6B (Table 10.1). -/
def decMemOp (f : Fields) : Dec MemOp := do
  let a ← src f.a
  let c ← index f.c
  let t ← given .modifier (rawTyOf (f.f9 / 16))
  let sp ← given .modifier (mspaceOf (f.f9 / 4 % 4))
  let pol ← given .modifier (policyOf (f.f9 % 4))
  return { a := a, c := c, sc := Fin.ofNat 4 f.f2, t := t, sp := sp, pol := pol }

/-- LDX and STX (R198). -/
def decIndexed (f : Fields) : Dec (Src × VSrc × Ty × MSpace × Policy × MReg) := do
  form f 3
  let b ← src f.b
  let c ← vsrc f.c
  let t ← ty (f.f9 / 16)
  let sp ← given .modifier (mspaceOf (f.f9 / 4 % 4))
  let pol ← given .modifier (policyOf (f.f9 % 4))
  let m ← mreg f.imm32
  return (b, c, t, sp, pol, m)

/-- AMO and ACAS fields (R201). -/
def decAtomic (f : Fields) : Dec (AmoTy × MSpace × Scope × Dst × Src × Src) := do
  form f 3
  let a ← dst f.a
  let b ← src f.b
  let c ← src f.c
  let sp ← given .modifier (mspaceOf f.f2)
  let t ← given .modifier (amoTyOf (f.f9 / 16 % 4))
  let sc ← given .modifier (scopeOf (f.f9 / 2 % 8))
  zero (f.f9 % 2)
  return (t, sp, sc, a, b, c)

/-- Memory opcodes 0x68 to 0x6F (Tables 2.11, 10.1, 10.2, 11.2, 11.3; R198 to R202). -/
def decMemory (f : Fields) : Dec Instr :=
  match f.op with
  | 0x68 => do
      let d ← dst f.d
      let o ← decMemOp f
      zero f.b
      if f.tl = 2 then return .ldT2 d o.a o.c o.sc o.t o.sp o.pol
      else if f.tl = 3 then return .ldT4 d o.a o.c o.sc o.t o.sp o.pol (BitVec.ofNat 32 f.imm32)
      else throw .form
  | 0x69 => do
      zero f.d
      let o ← decMemOp f
      let b ← src f.b
      if f.tl = 2 then return .stT2 b o.a o.c o.sc o.t o.sp o.pol
      else if f.tl = 3 then return .stT4 b o.a o.c o.sc o.t o.sp o.pol (BitVec.ofNat 32 f.imm32)
      else throw .form
  | 0x6A => do
      let d ← vdst f.d
      let o ← decMemOp f
      let m ← mreg f.b
      if f.tl = 2 then return .ldvT2 d o.a o.c o.sc o.t o.sp o.pol m
      else if f.tl = 3 then return .ldvT4 d o.a o.c o.sc o.t o.sp o.pol m (BitVec.ofNat 32 f.imm32)
      else throw .form
  | 0x6B => do
      zero f.d
      let o ← decMemOp f
      let b ← vsrc f.b
      if f.tl = 2 then return .stvT2 b o.a o.c o.sc o.t o.sp o.pol
      else if f.tl = 3 then return .stvT4 b o.a o.c o.sc o.t o.sp o.pol (BitVec.ofNat 32 f.imm32)
      else throw .form
  | 0x6C =>
      match f.d with
      | 0 => do
          let (b, c, t, sp, pol, m) ← decIndexed f
          let d ← vdst f.a
          return .ldx d b c (Fin.ofNat 4 f.f2) t sp pol m
      | 1 => do
          let (b, c, t, sp, pol, m) ← decIndexed f
          let a ← vsrc f.a
          return .stx a b c (Fin.ofNat 4 f.f2) t sp pol m
      | _ => throw .function
  | 0x6D =>
      match f.d with
      | 0 => do
          form f 1
          let d ← dst f.a
          return .bld d (Fin.ofNat 4 f.f2) (Fin.ofNat 64 (f.b % 64)) (decide (f.b / 64 = 1))
      | 1 => do
          form f 1
          let a ← src f.a
          return .bst a (Fin.ofNat 4 f.f2) (Fin.ofNat 64 (f.b % 64)) (decide (f.b / 64 = 1))
      | 2 => do
          form f 1
          zero (f.b / 2)
          if f.b % 2 = 0 then
            let a ← src f.a
            return .bmov (Fin.ofNat 4 f.f2) (.toB a)
          else
            let d ← dst f.a
            return .bmov (Fin.ofNat 4 f.f2) (.fromB d)
      | _ => throw .function
  | 0x6E =>
      match f.d with
      | 0 => do
          let (t, sp, sc, a, b, c) ← decAtomic f
          let op ← given .modifier (amoOpOf (f.f9 / 64))
          return .amo op t sp sc a b c (BitVec.ofNat 32 f.imm32)
      | 1 => do
          let (t, sp, sc, a, b, c) ← decAtomic f
          zero (f.f9 / 64)
          return .acas t sp sc a b c (BitVec.ofNat 32 f.imm32)
      | _ => throw .function
  | 0x6F =>
      match f.d with
      | 0 => do
          form f 2
          let a ← src f.a
          zero f.f2
          zero f.c
          zero (f.f9 / 4 % 64)
          let pol ← given .modifier (policyOf (f.f9 % 4))
          if f.f9 / 256 = 1 then
            let b ← src f.b
            return .pref (some b) a pol
          else
            zero f.b
            return .pref none a pol
      | 1 => do
          form f 2
          let a ← src f.a
          let b ← src f.b
          zero f.f2
          zero f.h1
          return .cinv a b
      | 2 => do
          form f 3
          let sz ← given .modifier (rstSizeOf f.f2)
          let a ← src f.a
          let b ← src f.b
          let c ← src f.c
          zero f.f9
          return .rst sz a b c (BitVec.ofNat 32 f.imm32)
      | 3 => do
          form f 2
          let d ← dst f.a
          let b ← src f.b
          need (decide (f.c < 64)) .operand
          zero (f.f2 / 2)
          return .spalloc (decide (f.f9 / 256 = 1)) d b (Fin.ofNat 64 f.c) (Fin.ofNat 16 (f.f9 % 16))
            (Fin.ofNat 16 (f.f9 / 16 % 16)) (decide (f.f2 % 2 = 1))
      | 4 => do
          form f 1
          let a ← src f.a
          zero f.b
          zero f.f2
          return .spfree a
      | 5 => do
          form f 2
          let a ← src f.a
          let b ← src f.b
          zero f.f2
          zero f.h1
          return .bfset a b
      | 6 => do
          form f 1
          zero f.f2
          zero (f.a / 8)
          zero (f.b / 4)
          let sc ← given .modifier (scopeOf (f.a % 8))
          let k ← given .modifier (fenceKindOf (f.b % 4))
          return .fence k sc
      | 7 => do
          form f 1
          zero f.f2
          zero (f.a / 8 % 2)
          zero (f.b / 8)
          let sc ← given .modifier (scopeOf (f.a / 16))
          let p ← given .path (pathOf (f.a % 8))
          let q ← given .path (pathOf (f.b % 8))
          return .fencex sc p q
      | _ => throw .function
  | _ => throw .opcode

/-- Destination, cell address and scope of a T2 cell form (Table 18.1). -/
def decCell (f : Fields) : Dec (Dst × Src × Option CScope) := do
  form f 2
  let a ← dst f.a
  let b ← src f.b
  let sc ← given .modifier (ownScopeOf (f.f9 / 64))
  return (a, b, sc)

/-- A cell form with an operand source and no waiting variant. -/
def decCellC (f : Fields) (mk : Option CScope → Dst → Src → Src → Instr) : Dec Instr := do
  let (a, b, sc) ← decCell f
  zero f.f2
  zero (f.f9 % 64)
  let c ← src f.c
  return mk sc a b c

/-- A cell form with neither operand source nor waiting variant. -/
def decCell0 (f : Fields) (mk : Option CScope → Dst → Src → Instr) : Dec Instr := do
  let (a, b, sc) ← decCell f
  zero f.f2
  zero (f.f9 % 64)
  zero f.c
  return mk sc a b

/-- A waiting cell form without operand source. -/
def decCellW (f : Fields) (mk : Option CScope → WMode → Dst → Src → Instr) : Dec Instr := do
  let (a, b, sc) ← decCell f
  zero f.f2
  zero f.c
  let wm ← given .modifier (wmodeOf (f.f9 % 64))
  return mk sc wm a b

/-- A waiting cell form with an operand source. -/
def decCellWC (f : Fields) (mk : Option CScope → WMode → Dst → Src → Src → Instr) : Dec Instr := do
  let (a, b, sc) ← decCell f
  let wm ← given .modifier (wmodeOf (f.f9 % 64))
  let c ← src f.c
  return mk sc wm a b c

/-- Typed-cell and landing opcodes 0x70 to 0x77 (Tables 2.12, 18.1, 18.2, 19.4; R54). -/
def decCells (f : Fields) : Dec Instr :=
  match f.op with
  | 0x70 =>
      match f.d with
      | 0 => do
          form f 3
          let a ← src f.a
          let b ← src f.b
          let c ← src f.c
          zero f.f2
          zero (f.f9 % 64)
          let sc ← given .modifier (cscopeOf (f.f9 / 64))
          zero (f.imm32 / 1024)
          let k ← given .modifier (cellKindOf (f.imm32 % 8))
          let st ← dst (f.imm32 / 8 % 128)
          return .oinit k sc st a b c
      | 1 => do
          form f 1
          let a ← src f.a
          let st ← dst f.b
          zero f.f2
          return .ofree st a
      | 2 => do
          form f 2
          let n ← pair f.a
          let b ← src f.b
          zero f.f2
          let sc ← given .modifier (ownScopeOf (f.f9 / 64))
          zero (f.f9 % 64)
          if f.c = 76 then return .oread sc n b none
          else
            need (decide (f.c < 64)) .operand
            return .oread sc n b (some (Fin.ofNat 64 f.c))
      | _ => throw .function
  | 0x71 =>
      match f.d with
      | 0 => decCellC f .cntAdd
      | 1 => do
          let cc ← given .modifier (cntCondOf f.f2)
          decCellWC f (.cntWait cc)
      | _ => throw .function
  | 0x72 =>
      match f.d with
      | 0 => decCellC f .barArv
      | 1 => decCellC f .barExp
      | 2 => do
          zero f.f2
          decCellWC f .barWait
      | _ => throw .function
  | 0x73 =>
      match f.d with
      | 0 => decCellW f .lckTake
      | 1 => decCell0 f .lckGive
      | _ => throw .function
  | 0x74 =>
      match f.d with
      | 0 => decCellW f .qRes
      | 1 => do
          let (a, b, sc) ← decCell f
          zero f.f2
          zero (f.f9 % 32)
          let c ← src f.c
          return .qPub sc (decide (f.f9 / 32 % 2 = 1)) a b c
      | 2 => decCellW f .qAwait
      | 3 => decCellC f .qRel
      | _ => throw .function
  | 0x75 =>
      match f.d with
      | 0 => decCellC f .cndWait
      | 1 => decCell0 f .cndSig
      | 2 => decCell0 f .cndAll
      | _ => throw .function
  | 0x76 =>
      match f.d with
      | 0 => do
          form f 3
          let a ← dst f.a
          let b ← src f.b
          zero f.f2
          zero f.f9
          if f.imm32 = 0 then
            let c ← src f.c
            return .landArm a b (some c)
          else
            need (decide (f.imm32 / 4 = 0)) .unusedField
            need (decide (f.imm32 = 1)) .modifier
            zero f.c
            return .landArm a b none
      | 1 => do
          form f 1
          let a ← src f.a
          zero (f.b / 2)
          zero f.f2
          return .landOff a (decide (f.b % 2 = 1))
      | 2 => do
          form f 2
          let n ← pair f.a
          let b ← src f.b
          zero f.f2
          zero f.h1
          return .landRd n b
      | _ => throw .function
  | 0x77 => do
      form f 3
      zero f.d
      zero f.h0
      zero f.h1
      return .waitc (BitVec.ofNat 8 (f.imm32 % 256)) (BitVec.ofNat 8 (f.imm32 / 256 % 256))
        (BitVec.ofNat 8 (f.imm32 / 65536 % 256)) (BitVec.ofNat 8 (f.imm32 / 16777216))
  | _ => throw .opcode

/-- SEND, SENDP and REPLY share their fields (Table 12.8). -/
def decSend (f : Fields) : Dec (Src × Src × Fin 16 × Fin 16) := do
  form f 2
  let a ← src f.a
  let b ← src f.b
  zero f.f2
  zero (f.c / 16)
  return (a, b, Fin.ofNat 16 (f.f9 / 32), Fin.ofNat 16 (f.c % 16))

/-- Message opcodes 0x78 to 0x7A (Tables 2.12, 12.8; R243 to R247). -/
def decMsg (f : Fields) : Dec Instr :=
  match f.op with
  | 0x78 =>
      match f.d with
      | 0 => do
          let (a, b, len1, nsucc) ← decSend f
          zero (f.f9 % 32)
          return .send a b len1 nsucc
      | 1 => do
          form f 2
          let a ← src f.a
          let b ← src f.b
          let c ← src f.c
          zero f.f2
          zero (f.f9 / 128 % 2)
          if f.f9 / 256 = 1 then
            let v ← vsrc (f.f9 % 128)
            return .sendv a b c (some v)
          else
            zero (f.f9 % 128)
            return .sendv a b c none
      | 2 => do
          let (a, b, len1, nsucc) ← decSend f
          zero (f.f9 % 32)
          return .sendp a b len1 nsucc
      | 3 => do
          let (a, b, len1, nsucc) ← decSend f
          zero (f.f9 % 4)
          return .reply a b len1 nsucc (decide (f.f9 / 16 % 2 = 1)) (Fin.ofNat 4 (f.f9 / 4 % 4))
      | _ => throw .function
  | 0x79 =>
      match f.d with
      | 0 => do
          form f 0
          return .fin
      | 1 => do
          form f 0
          return .commit
      | 2 => do
          form f 0
          return .yield
      | 3 => do
          form f 2
          let a ← dst f.a
          let b ← src f.b
          let c ← src f.c
          zero f.f2
          zero (f.f9 / 4)
          let what ← given .modifier (peekOf (f.f9 % 4))
          return .mpeek what a b c
      | _ => throw .function
  | 0x7A => do
      form f 2
      zero f.d
      let a ← src f.a
      let b ← src f.b
      let c ← src f.c
      zero f.f2
      zero (f.f9 / 128)
      let e ← src (f.f9 % 128)
      return .activate a b c e
  | _ => throw .opcode

/-- The shared fields of the copy forms (Table 14.3). -/
structure CopyFields where
  a   : Src
  b   : Src
  c   : Src
  o   : Bool
  dsp : ESpace
  ssp : ESpace
  act : CopyAct
  pol : Policy
  fmt : Option Ty
deriving DecidableEq, Repr

/-- Decode the shared fields of Table 14.3. -/
def decCopy (f : Fields) : Dec CopyFields := do
  form f 3
  let a ← src f.a
  let b ← src f.b
  let c ← src f.c
  let dsp ← given .modifier (espaceOf (f.f9 / 64 % 4))
  let ssp ← given .modifier (espaceOf (f.f9 / 16 % 4))
  let act ← given .operand (copyActOf (f.f9 / 4 % 4) (f.imm32 / 32 % 128))
  let pol ← given .modifier (policyOf (f.f9 % 4))
  let fmt ← given .modifier (rawTyOf (f.imm32 % 32))
  return { a := a, b := b, c := c, o := decide (f.f9 / 256 = 1), dsp := dsp, ssp := ssp, act := act,
           pol := pol, fmt := fmt }

/-- Engine opcodes 0x7C and 0x7D (Tables 2.13, 14.3; R286, R293, R296). -/
def decEngine (f : Fields) : Dec Instr :=
  match f.op with
  | 0x7C =>
      match f.d with
      | 0 => do
          let q ← decCopy f
          need (decide (f.f2 ≤ 1)) .modifier
          zero (f.imm32 / 4096)
          return .cpy (decide (f.f2 = 1)) q.a q.b q.c q.o q.dsp q.ssp q.act q.pol q.fmt
      | 1 => do
          let q ← decCopy f
          zero f.f2
          zero (f.imm32 / 2 ^ 19)
          let r ← src (f.imm32 / 4096 % 128)
          return .cpy2 q.a q.b q.c q.o q.dsp q.ssp q.act q.pol q.fmt r
      | 2 => do
          let q ← decCopy f
          zero f.f2
          zero (f.imm32 / 2 ^ 19)
          let r ← src (f.imm32 / 4096 % 128)
          return .cpyx q.a q.b q.c q.o q.dsp q.ssp q.act q.pol q.fmt r
      | 3 => do
          let q ← decCopy f
          zero f.f2
          zero (f.f9 / 16 % 4)
          zero (f.imm32 % 32)
          zero (f.imm32 / 4096)
          return .fill q.a q.b q.c q.o q.dsp q.act q.pol
      | _ => throw .function
  | 0x7D =>
      match f.d with
      | 0 => do
          form f 1
          let a ← src f.a
          zero f.b
          zero (f.f2 / 2)
          return .bsel a (decide (f.f2 % 2 = 1))
      | 1 => do
          form f 1
          let a ← src f.a
          zero f.b
          zero f.f2
          return .tinj a
      | 2 => do
          form f 1
          let a ← src f.a
          let d ← dst f.b
          zero (f.f2 / 2)
          return .text d a (decide (f.f2 % 2 = 1))
      | _ => throw .function
  | _ => throw .opcode

/-- System opcode 0x7E (Table 2.13; R310 to R312, R327, R328, R387). -/
def decSys (f : Fields) : Dec Instr :=
  match f.d with
  | 0 => do
      form f 0
      return .nop
  | 1 => do
      form f 2
      let a ← src f.a
      zero f.f9i
      return .trap (BitVec.ofNat 16 f.h1) a
  | 2 => do
      form f 0
      return .brk
  | 3 => do
      form f 1
      let d ← dst f.a
      let n ← given .modifier (sprOf f.b)
      zero f.f2
      return .srd d n
  | 4 => do
      form f 1
      let a ← src f.a
      let n ← given .modifier (sprOf f.b)
      zero f.f2
      return .swr n a
  | 5 => do
      form f 2
      zero f.f2
      zero (f.h1 / 2)
      if f.h1 % 2 = 1 then
        zero f.a
        zero f.b
        return .tlbinv none
      else
        let a ← src f.a
        let b ← src f.b
        return .tlbinv (some (a, b))
  | 6 => do
      form f 2
      zero f.b
      zero f.f2
      zero (f.h1 / 2)
      if f.h1 % 2 = 1 then
        zero f.a
        return .tlbreplay none
      else
        let a ← src f.a
        return .tlbreplay (some a)
  | 7 => do
      form f 1
      let n ← pair f.a
      zero f.b
      zero f.f2
      return .fltpop n
  | 8 => do
      form f 1
      zero f.b
      zero (f.f2 / 2)
      if f.f2 % 2 = 1 then
        zero f.a
        return .plinv none
      else
        let a ← src f.a
        return .plinv (some a)
  | 9 => do
      form f 2
      let d ← dst f.a
      let b ← src f.b
      let c ← src f.c
      zero f.f2
      zero (f.f9 / 8)
      let sc ← given .modifier (teamScopeOf (f.f9 % 8))
      return .admitTeam d b c sc
  | 10 => do
      form f 1
      let d ← dst f.a
      let b ← src f.b
      zero f.f2
      return .evict d b
  | 11 => do
      form f 0
      return .halt
  | _ => throw .function

/-- The opcode map of R51, before the checks of `Instr.checks`. -/
def decodeFields (f : Fields) : Dec Instr :=
  if f.op ≤ 0x1F then decScalar f
  else if f.op ≤ 0x2F then decFloat f
  else if f.op ≤ 0x37 then decControl f
  else if f.op ≤ 0x5F then decVector f
  else if f.op ≤ 0x67 then decMatrix f
  else if f.op ≤ 0x6F then decMemory f
  else if f.op ≤ 0x77 then decCells f
  else if f.op ≤ 0x7A then decMsg f
  else if f.op ≤ 0x7D then decEngine f
  else if f.op = 0x7E then decSys f
  else throw .opcode

/-- Decode a head with its tail: an instruction that passes its checks, or the name of the refusal (R56). -/
def decodeInstr (head : Nat) (tail : List Nat) : Dec Instr := do
  let i ← decodeFields (fieldsOf head tail)
  match i.check with
  | none => return i
  | some r => throw r

/-! ### The instruction line (R36 to R38) -/

/-- The 32 little-endian halfword slots of a line of bytes (R36). -/
def slotsOf : List Byte → List Nat
  | lo :: hi :: bs => (lo.toNat + 256 * hi.toNat) :: slotsOf bs
  | _ => []

/-- Number of instructions in the descriptor (Table 2.1). -/
def lineCount (slots : List Nat) : Nat := nth slots 0 % 32

/-- The heads of a line (R36). -/
def lineHeads (slots : List Nat) : List Nat := (slots.drop 1).take (lineCount slots)

/-- Sum of the tail lengths of some heads. -/
def tailSum (heads : List Nat) : Nat := (heads.map tailLen).sum

/-- A valid line (R37). -/
def lineValid (slots : List Nat) : Bool :=
  let desc := nth slots 0
  let n := lineCount slots
  let tails := tailSum (lineHeads slots)
  decide (desc / 4096 = 10) && decide (desc / 32 % 128 = 0) && decide (1 ≤ n ∧ n ≤ 31)
    && decide (1 + n + tails ≤ 32)
    && ((slots.drop (n + 1)).take (31 - tails - n)).all (fun x => decide (x = 0))

/-- The head and the tail of instruction `idx` of a line (R36). -/
def lineInstr (slots : List Nat) (idx : Nat) : Nat × List Nat :=
  let head := nth slots (1 + idx)
  let tl := tailLen head
  let e := 31 - tailSum ((lineHeads slots).take idx)
  (head, (slots.drop (e + 1 - tl)).take tl)

/-- A line that holds one instruction: descriptor, head, zeros, tail (R36). -/
def lineOfOne (head : Nat) (tail : List Nat) : List Nat :=
  0xA001 :: head :: (List.replicate (30 - tail.length) 0 ++ tail)

/-! ### The encoder -/

/-- A head (R42). -/
def headOf (op tl d : Nat) : Nat := op * 512 + tl * 128 + d
/-- An instruction without tail. -/
def enc0 (op d : Nat) : List Nat := [headOf op 0 d]
/-- A T1 instruction (R43). -/
def enc1 (op d a b f2 : Nat) : List Nat := [headOf op 1 d, a * 512 + b * 4 + f2]
/-- A T2 instruction (R43). -/
def enc2 (op d a b f2 c f9 : Nat) : List Nat := [headOf op 2 d, a * 512 + b * 4 + f2, c * 512 + f9]
/-- A T2I instruction (R43). -/
def enc2I (op d a f9 imm : Nat) : List Nat := [headOf op 2 d, a * 512 + f9, imm]
/-- A T4 instruction (R43). -/
def enc4 (op d a b f2 c f9 imm : Nat) : List Nat :=
  [headOf op 3 d, a * 512 + b * 4 + f2, c * 512 + f9, imm % 65536, imm / 65536]
/-- A T4L instruction (R43). -/
def enc4L (op d imm : Nat) : List Nat :=
  [headOf op 3 d, imm % 65536, imm / 65536 % 65536, imm / 4294967296 % 65536, imm / 281474976710656]
/-- f9 of a vector form (R52). -/
def vf9 (m : MReg) (t : Ty) (v : Bool) : Nat := m.val * 64 + t.code * 2 + v.toNat
/-- A vector instruction (R52, R124). -/
def encV (op d a b c : Nat) (t : Ty) (v : Bool) (m : MReg) : List Nat := enc2 op d a b 0 c (vf9 m t v)
/-- Variant bits of a binary integer form (R105). -/
def vbits (n sat : Bool) : Nat := n.toNat + 2 * sat.toNat
/-- f9 of a memory form (Table 10.1). -/
def memF9 (t : Option Ty) (sp : MSpace) (pol : Policy) : Nat := rawCode t * 16 + sp.code * 4 + pol.code
/-- A cell instruction (Table 18.1). -/
def encCell (op fn : Nat) (sc : Option CScope) (mods : Nat) (a : Dst) (b : Src) (f2 c : Nat) : List Nat :=
  enc2 op fn a.code b.code f2 c (ownScopeCode sc * 64 + mods)
/-- A copy instruction (Table 14.3). -/
def encCopy (fn f2 : Nat) (a b c : Src) (o : Bool) (dsp : ESpace) (ssp : Nat) (act : CopyAct) (pol : Policy)
    (fmt reg : Nat) : List Nat :=
  enc4 0x7C fn a.code b.code f2 c.code
    (o.toNat * 256 + dsp.code * 64 + ssp * 16 + act.kind * 4 + pol.code) (fmt + act.reg * 32 + reg * 4096)

/-- The halfwords of an instruction, head first; an event has none. -/
def encode : Instr → List Nat
  | .addT1 d a b n sat => enc1 0x01 d.code a.code b.code (vbits n sat)
  | .addT2I d a imm n sat => enc2I 0x01 d.code a.code (vbits n sat) imm.toNat
  | .addT4 d a imm n sat => enc4 0x01 d.code a.code 0 (vbits n sat) 0 0 imm.toNat
  | .subT1 d a b n sat => enc1 0x02 d.code a.code b.code (vbits n sat)
  | .subT2I d a imm n sat => enc2I 0x02 d.code a.code (vbits n sat) imm.toNat
  | .subT4 d a imm n sat => enc4 0x02 d.code a.code 0 (vbits n sat) 0 0 imm.toNat
  | .mulT1 d a b n sat => enc1 0x03 d.code a.code b.code (vbits n sat)
  | .mulT2I d a imm n sat => enc2I 0x03 d.code a.code (vbits n sat) imm.toNat
  | .mulT4 d a imm n sat => enc4 0x03 d.code a.code 0 (vbits n sat) 0 0 imm.toNat
  | .mulhT1 d a b n => enc1 0x04 d.code a.code b.code n.toNat
  | .mulhT2I d a imm n => enc2I 0x04 d.code a.code n.toNat imm.toNat
  | .mulhT4 d a imm n => enc4 0x04 d.code a.code 0 n.toNat 0 0 imm.toNat
  | .divT1 d a b n => enc1 0x05 d.code a.code b.code n.toNat
  | .divT2I d a imm n => enc2I 0x05 d.code a.code n.toNat imm.toNat
  | .divT4 d a imm n => enc4 0x05 d.code a.code 0 n.toNat 0 0 imm.toNat
  | .remT1 d a b n => enc1 0x06 d.code a.code b.code n.toNat
  | .remT2I d a imm n => enc2I 0x06 d.code a.code n.toNat imm.toNat
  | .remT4 d a imm n => enc4 0x06 d.code a.code 0 n.toNat 0 0 imm.toNat
  | .andT1 d a b => enc1 0x07 d.code a.code b.code 0
  | .andT2I d a imm => enc2I 0x07 d.code a.code 0 imm.toNat
  | .andT4 d a imm => enc4 0x07 d.code a.code 0 0 0 0 imm.toNat
  | .orT1 d a b => enc1 0x08 d.code a.code b.code 0
  | .orT2I d a imm => enc2I 0x08 d.code a.code 0 imm.toNat
  | .orT4 d a imm => enc4 0x08 d.code a.code 0 0 0 0 imm.toNat
  | .xorT1 d a b => enc1 0x09 d.code a.code b.code 0
  | .xorT2I d a imm => enc2I 0x09 d.code a.code 0 imm.toNat
  | .xorT4 d a imm => enc4 0x09 d.code a.code 0 0 0 0 imm.toNat
  | .andnT1 d a b => enc1 0x0A d.code a.code b.code 0
  | .andnT2I d a imm => enc2I 0x0A d.code a.code 0 imm.toNat
  | .andnT4 d a imm => enc4 0x0A d.code a.code 0 0 0 0 imm.toNat
  | .shlT1 d a b => enc1 0x0B d.code a.code b.code 0
  | .shlT2I d a imm => enc2I 0x0B d.code a.code 0 imm.toNat
  | .shlT4 d a imm => enc4 0x0B d.code a.code 0 0 0 0 imm.toNat
  | .shrT1 d a b => enc1 0x0C d.code a.code b.code 0
  | .shrT2I d a imm => enc2I 0x0C d.code a.code 0 imm.toNat
  | .shrT4 d a imm => enc4 0x0C d.code a.code 0 0 0 0 imm.toNat
  | .shaT1 d a b => enc1 0x0D d.code a.code b.code 0
  | .shaT2I d a imm => enc2I 0x0D d.code a.code 0 imm.toNat
  | .shaT4 d a imm => enc4 0x0D d.code a.code 0 0 0 0 imm.toNat
  | .rolT1 d a b => enc1 0x0E d.code a.code b.code 0
  | .rolT2I d a imm => enc2I 0x0E d.code a.code 0 imm.toNat
  | .rolT4 d a imm => enc4 0x0E d.code a.code 0 0 0 0 imm.toNat
  | .minT1 d a b n => enc1 0x12 d.code a.code b.code n.toNat
  | .minT2I d a imm n => enc2I 0x12 d.code a.code n.toNat imm.toNat
  | .minT4 d a imm n => enc4 0x12 d.code a.code 0 n.toNat 0 0 imm.toNat
  | .maxT1 d a b n => enc1 0x13 d.code a.code b.code n.toNat
  | .maxT2I d a imm n => enc2I 0x13 d.code a.code n.toNat imm.toNat
  | .maxT4 d a imm n => enc4 0x13 d.code a.code 0 n.toNat 0 0 imm.toNat
  | .clz d a => enc1 0x0F d.code a.code 0 0
  | .ctz d a => enc1 0x10 d.code a.code 0 0
  | .popc d a => enc1 0x11 d.code a.code 0 0
  | .sel d a b c => enc2 0x14 d.code a.code b.code 0 c.code 0
  | .setc cc d a b => enc2 0x15 d.code a.code b.code 0 0 cc.code
  | .mov d a => enc1 0x16 d.code a.code 0 0
  | .liT2I d imm => enc2I 0x17 d.code 0 0 imm.toNat
  | .liT4L d imm => enc4L 0x17 d.code imm.toNat
  | .ext d a pos len1 n => enc2 0x18 d.code a.code 0 0 len1.val (pos.val + 64 * n.toNat)
  | .ins d a pos len1 => enc2 0x19 d.code a.code 0 0 len1.val pos.val
  | .fadd t d a b => enc1 0x20 d.code a.code b.code t.code
  | .fsub t d a b => enc1 0x21 d.code a.code b.code t.code
  | .fmul t d a b => enc1 0x22 d.code a.code b.code t.code
  | .fdiv t d a b => enc1 0x24 d.code a.code b.code t.code
  | .fmin t d a b => enc1 0x26 d.code a.code b.code t.code
  | .fmax t d a b => enc1 0x27 d.code a.code b.code t.code
  | .fma t d a b c => enc2 0x23 d.code a.code b.code t.code c.code 0
  | .fsqrt t d a => enc1 0x25 d.code a.code 0 t.code
  | .fclass t d a => enc1 0x2A d.code a.code 0 t.code
  | .fsetc t cc d a b => enc2 0x28 d.code a.code b.code t.code 0 cc.code
  | .fcvt dt st d a => enc2 0x29 d.code a.code 0 0 st.code dt.code
  | .brT2I disp idx => enc2I 0x30 0 0 idx.val disp.toNat
  | .brT4 disp idx => enc4 0x30 0 0 0 0 0 idx.val disp.toNat
  | .bc cc a b disp idx => enc4 0x31 0 a.code b.code 0 cc.code idx.val disp.toNat
  | .callT2I d disp idx => enc2I 0x32 d.code 0 idx.val disp.toNat
  | .callT4 d disp idx => enc4 0x32 d.code 0 0 0 0 idx.val disp.toNat
  | .ret a => enc1 0x33 0 a.code 0 0
  | .jmp a => enc1 0x34 0 a.code 0 0
  | .loop d disp idx => enc2I 0x35 d.code 0 idx.val disp.toNat
  | .vmov d a t m => encV 0x38 d.code a.code 0 0 t false m
  | .vbcast d a b t m => encV 0x39 d.code a.code b.code 0 t false m
  | .vstep d a b t sat m => encV 0x3A d.code a.code b.code 0 t sat m
  | .vadd d a b t sat m => encV 0x3B d.code a.code b.code 0 t sat m
  | .vsub d a b t sat m => encV 0x3C d.code a.code b.code 0 t sat m
  | .vmul d a b t sat m => encV 0x3D d.code a.code b.code 0 t sat m
  | .vdot d a b t sat m => encV 0x52 d.code a.code b.code 0 t sat m
  | .vfma d a b c t sat m => encV 0x3E d.code a.code b.code c.code t sat m
  | .vmin d a b t m => encV 0x3F d.code a.code b.code 0 t false m
  | .vmax d a b t m => encV 0x40 d.code a.code b.code 0 t false m
  | .vand d a b t m => encV 0x42 d.code a.code b.code 0 t false m
  | .vor d a b t m => encV 0x43 d.code a.code b.code 0 t false m
  | .vxor d a b t m => encV 0x44 d.code a.code b.code 0 t false m
  | .vshl d a b t m => encV 0x45 d.code a.code b.code 0 t false m
  | .vshr d a b t m => encV 0x46 d.code a.code b.code 0 t false m
  | .vsha d a b t m => encV 0x47 d.code a.code b.code 0 t false m
  | .vsel d a b t m => encV 0x49 d.code a.code b.code 0 t false m
  | .vperm d a b t m => encV 0x4D d.code a.code b.code 0 t false m
  | .vxrd d a b t m => encV 0x57 d.code a.code b.code 0 t false m
  | .vabs d a t sat m => encV 0x41 d.code a.code 0 0 t sat m
  | .vsum d a t sat m => encV 0x53 d.code a.code 0 0 t sat m
  | .vsetc cc d a b t m => encV 0x48 d.val a.code b.code cc.val t false m
  | .vcvt d a dt st part m => encV 0x4A d.code a.code 0 (st.code + 32 * (part.val % 4)) dt (decide (4 ≤ part.val)) m
  | .vpack d a t part m => encV 0x4B d.code a.code 0 part.val t false m
  | .vunpack d a t part m => encV 0x4C d.code a.code 0 part.val t false m
  | .vslide d a b c t m => encV 0x4E d.code a.code b.code c.code t false m
  | .vextr d a b t => encV 0x4F d.code a.code b.code 0 t false 0
  | .vinsr d a b t => encV 0x50 d.code a.code b.code 0 t false 0
  | .vrcp d a t m => encV 0x51 d.code a.code 0 0 t false m
  | .vrsq d a t m => encV 0x51 d.code a.code 0 1 t false m
  | .vexp2 d a t m => encV 0x51 d.code a.code 0 2 t false m
  | .vlog2 d a t m => encV 0x51 d.code a.code 0 3 t false m
  | .vtanh d a t m => encV 0x51 d.code a.code 0 4 t false m
  | .vrmax d a t m => encV 0x54 d.code a.code 0 0 t false m
  | .vrmin d a t m => encV 0x54 d.code a.code 0 1 t false m
  | .vargmax d ix a t m => encV 0x55 d.code a.code ix.val 0 t false m
  | .vargmin d ix a t m => encV 0x55 d.code a.code ix.val 1 t false m
  | .vtopk d a b k1 t min m => encV 0x56 (2 * d.val) a.code b.code k1.val t min m
  | .mand a b c => enc2 0x58 0 a.val b.val 0 c.val 0
  | .mor a b c => enc2 0x58 1 a.val b.val 0 c.val 0
  | .mxor a b c => enc2 0x58 2 a.val b.val 0 c.val 0
  | .mnot a b => enc2 0x58 3 a.val b.val 0 0 0
  | .mcnt d b t => enc2 0x58 4 d.code b.val 0 0 (2 * t.code)
  | .mfirst d b t => enc2 0x58 5 d.code b.val 0 0 (2 * t.code)
  | .mlease d a b clr => enc2 0x60 d.code a.code b.code clr.toNat 0 0
  | .mfree a b => enc1 0x61 0 a.code b.code 0
  | .mcfg a b dfmt rm act sen ben dshift => enc4 0x62 0 a.code b.code 0 0 0
      (dfmt.code + rm.code * 32 + act.code * 256 + sen.toNat * 1024 + ben.toNat * 2048 + dshift.toNat * 4096)
  | .mloadw p a b => enc2 0x63 0 a.code b.code 0 p.val 0
  | .mswap p => enc1 0x64 0 0 0 p.val
  | .mstream t p a b row0 n1 sat => enc4 0x65 0 a.code b.code 0 0 sat.toNat
      (t.val + p.val * 16 + row0.val * 64 + n1.val * 8192)
  | .mepi k g t a b row0 n1 ncol1 => enc4 0x66 0 a.code b.code 0 ncol1.val (g.toNat * 128 + k.code)
      (t.val + row0.val * 16 + n1.val * 2048)
  | .mzero t => enc1 0x67 0 t.val 0 0
  | .maccrd k d b t m => enc2 0x67 1 d.code b.code 0 t.val (m.val * 64 + k.code * 2)
  | .maccwr k a b t m => enc2 0x67 2 a.code b.code 0 t.val (m.val * 64 + k.code * 2)
  | .ldT2 d a c sc t sp pol => enc2 0x68 d.code a.code 0 sc.val (indexCode c) (memF9 t sp pol)
  | .ldT4 d a c sc t sp pol disp => enc4 0x68 d.code a.code 0 sc.val (indexCode c) (memF9 t sp pol) disp.toNat
  | .stT2 b a c sc t sp pol => enc2 0x69 0 a.code b.code sc.val (indexCode c) (memF9 t sp pol)
  | .stT4 b a c sc t sp pol disp => enc4 0x69 0 a.code b.code sc.val (indexCode c) (memF9 t sp pol) disp.toNat
  | .ldvT2 d a c sc t sp pol m => enc2 0x6A d.code a.code m.val sc.val (indexCode c) (memF9 t sp pol)
  | .ldvT4 d a c sc t sp pol m disp => enc4 0x6A d.code a.code m.val sc.val (indexCode c) (memF9 t sp pol) disp.toNat
  | .stvT2 b a c sc t sp pol => enc2 0x6B 0 a.code b.code sc.val (indexCode c) (memF9 t sp pol)
  | .stvT4 b a c sc t sp pol disp => enc4 0x6B 0 a.code b.code sc.val (indexCode c) (memF9 t sp pol) disp.toNat
  | .ldx d b c sc t sp pol m => enc4 0x6C 0 d.code b.code sc.val c.code (memF9 (some t) sp pol) m.val
  | .stx a b c sc t sp pol m => enc4 0x6C 1 a.code b.code sc.val c.code (memF9 (some t) sp pol) m.val
  | .bld d k w1 inc => enc1 0x6D 0 d.code (w1.val + 64 * inc.toNat) k.val
  | .bst a k w1 inc => enc1 0x6D 1 a.code (w1.val + 64 * inc.toNat) k.val
  | .bmov k (.toB a) => enc1 0x6D 2 a.code 0 k.val
  | .bmov k (.fromB d) => enc1 0x6D 2 d.code 1 k.val
  | .amo op t sp sc a b c disp => enc4 0x6E 0 a.code b.code sp.code c.code
      (op.code * 64 + t.code * 16 + sc.code * 2) disp.toNat
  | .acas t sp sc a b c disp => enc4 0x6E 1 a.code b.code sp.code c.code (t.code * 16 + sc.code * 2) disp.toNat
  | .pref none a pol => enc2 0x6F 0 a.code 0 0 0 pol.code
  | .pref (some l) a pol => enc2 0x6F 0 a.code l.code 0 0 (256 + pol.code)
  | .cinv a b => enc2 0x6F 1 a.code b.code 0 0 0
  | .rst sz a b c disp => enc4 0x6F 2 a.code b.code sz.code c.code 0 disp.toNat
  | .spalloc guard d b c bank g1 ctxOwner => enc2 0x6F 3 d.code b.code ctxOwner.toNat c.val
      (guard.toNat * 256 + g1.val * 16 + bank.val)
  | .spfree a => enc1 0x6F 4 a.code 0 0
  | .bfset a b => enc2 0x6F 5 a.code b.code 0 0 0
  | .fence k sc => enc1 0x6F 6 sc.code k.code 0
  | .fencex sc p q => enc1 0x6F 7 (sc.code * 16 + p.code) q.code 0
  | .oinit k sc st a w0 w1 => enc4 0x70 0 a.code w0.code 0 w1.code (sc.code * 64) (k.code + 8 * st.code)
  | .ofree st a => enc1 0x70 1 a.code st.code 0
  | .oread sc n b mt => enc2 0x70 2 (2 * n.val) b.code 0
      (match mt with | none => 76 | some r => r.val) (ownScopeCode sc * 64)
  | .cntAdd sc a b c => encCell 0x71 0 sc 0 a b 0 c.code
  | .cntWait cc sc wm a b c => encCell 0x71 1 sc wm.code a b cc.code c.code
  | .barArv sc a b c => encCell 0x72 0 sc 0 a b 0 c.code
  | .barExp sc a b c => encCell 0x72 1 sc 0 a b 0 c.code
  | .barWait sc wm a b c => encCell 0x72 2 sc wm.code a b 0 c.code
  | .lckTake sc wm a b => encCell 0x73 0 sc wm.code a b 0 0
  | .lckGive sc a b => encCell 0x73 1 sc 0 a b 0 0
  | .qRes sc wm a b => encCell 0x74 0 sc wm.code a b 0 0
  | .qPub sc tr a b c => encCell 0x74 1 sc (32 * tr.toNat) a b 0 c.code
  | .qAwait sc wm a b => encCell 0x74 2 sc wm.code a b 0 0
  | .qRel sc a b c => encCell 0x74 3 sc 0 a b 0 c.code
  | .cndWait sc a b c => encCell 0x75 0 sc 0 a b 0 c.code
  | .cndSig sc a b => encCell 0x75 1 sc 0 a b 0 0
  | .cndAll sc a b => encCell 0x75 2 sc 0 a b 0 0
  | .landArm st b (some idx) => enc4 0x76 0 st.code b.code 0 idx.code 0 0
  | .landArm st b none => enc4 0x76 0 st.code b.code 0 0 0 1
  | .landOff a rel => enc1 0x76 1 a.code rel.toNat 0
  | .landRd n b => enc2 0x76 2 (2 * n.val) b.code 0 0 0
  | .waitc ld st cp tl => enc4 0x77 0 0 0 0 0 0
      (ld.toNat + st.toNat * 256 + cp.toNat * 65536 + tl.toNat * 16777216)
  | .send a b len1 nsucc => enc2 0x78 0 a.code b.code 0 nsucc.val (len1.val * 32)
  | .sendv a b c none => enc2 0x78 1 a.code b.code 0 c.code 0
  | .sendv a b c (some v) => enc2 0x78 1 a.code b.code 0 c.code (256 + v.code)
  | .sendp a b len1 nsucc => enc2 0x78 2 a.code b.code 0 nsucc.val (len1.val * 32)
  | .reply a b len1 nsucc rv rmb => enc2 0x78 3 a.code b.code 0 nsucc.val
      (len1.val * 32 + rv.toNat * 16 + rmb.val * 4)
  | .fin => enc0 0x79 0
  | .commit => enc0 0x79 1
  | .yield => enc0 0x79 2
  | .mpeek what d b c => enc2 0x79 3 d.code b.code 0 c.code what.code
  | .activate a b c e => enc2 0x7A 0 a.code b.code 0 c.code e.code
  | .cpy s a b c o dsp ssp act pol fmt => encCopy 0 s.toNat a b c o dsp ssp.code act pol (rawCode fmt) 0
  | .cpy2 a b c o dsp ssp act pol fmt r => encCopy 1 0 a b c o dsp ssp.code act pol (rawCode fmt) r.code
  | .cpyx a b c o dsp ssp act pol fmt r => encCopy 2 0 a b c o dsp ssp.code act pol (rawCode fmt) r.code
  | .fill a b c o dsp act pol => encCopy 3 0 a b c o dsp 0 act pol 0 0
  | .bsel a o => enc1 0x7D 0 a.code 0 o.toNat
  | .tinj a => enc1 0x7D 1 a.code 0 0
  | .text d a tr => enc1 0x7D 2 a.code d.code tr.toNat
  | .nop => enc0 0x7E 0
  | .trap imm a => enc2I 0x7E 1 a.code 0 imm.toNat
  | .brk => enc0 0x7E 2
  | .srd d n => enc1 0x7E 3 d.code n.code 0
  | .swr n a => enc1 0x7E 4 a.code n.code 0
  | .tlbinv none => enc2 0x7E 5 0 0 0 0 1
  | .tlbinv (some (a, b)) => enc2 0x7E 5 a.code b.code 0 0 0
  | .tlbreplay none => enc2 0x7E 6 0 0 0 0 1
  | .tlbreplay (some a) => enc2 0x7E 6 a.code 0 0 0 0
  | .fltpop n => enc1 0x7E 7 (2 * n.val) 0 0
  | .plinv none => enc1 0x7E 8 0 0 1
  | .plinv (some a) => enc1 0x7E 8 a.code 0 0
  | .admitTeam d b c sc => enc2 0x7E 9 d.code b.code 0 c.code sc.code
  | .evict d b => enc1 0x7E 10 d.code b.code 0
  | .halt => enc0 0x7E 11
  | .moduleReset .. | .instructionFetch .. | .firingChoice .. | .activateArrival .. | .packetArrival ..
  | .noticeArrival .. | .refusalResponse .. | .retryTimer .. | .acceptanceResponse .. | .packetInject ..
  | .homeWrite .. | .l1Invalidate .. | .loadReturn .. | .walk .. | .stealSweep .. | .stealAnswer ..
  | .stealReply .. | .yieldTimer .. | .killTimer .. | .fenceTimer .. | .forecastUpdate ..
  | .impreciseFaultTaken .. | .leaseGrant .. | .leaveGrant .. | .leaveRelease .. | .overheatReport ..
  | .rampWindow .. | .powerForecastRead .. | .mloadwRun .. | .mswapRun .. | .mstreamRun .. | .mepiRun ..
  | .arrayCommandComplete .. | .epilogueStallFence .. | .engineCommandDelivery .. | .engineRetryTimer ..
  | .engineCommandStart .. | .engineCommandComplete .. | .completionAction .. | .treeCombine ..
  | .treeFetchBack .. | .hsuOperation .. | .spillLineReturn .. | .spillRefill .. | .withdrawal ..
  | .cellResult .. | .landingAction .. | .landingDeadline .. | .landingPoolRetry .. | .evictSave ..
  | .admitRestore .. | .backingQueueDrain .. | .gangEnter .. | .gangExit .. | .dataFrame .. | .ackFrame ..
  | .nakFrame .. | .retransmitTimeout .. | .ackTimer .. | .flowOpen .. | .flowClose .. | .flitReceive ..
  | .linkRetrain .. | .linkDown .. | .perfCounterRead .. | .perfCounterWrite .. | .quote .. | .fenceCore ..
  | .treeGroupDisable .. | .leaseQuotaWrite .. | .coreConfigWrite .. | .liftQuotaWrite .. | .spillDescWrite ..
  | .controlRegisterWrite .. | .eccError .. | .overheatClear .. | .linkRetrained .. | .coreMapWrite ..
  | .partitionTableWrite .. | .treeGroupEnable .. => []

/-! ### The host's entry -/

/-- The halfwords above the first of an instruction numbered as spec/opcode_table.json numbers it: the head is the
first halfword of the line, and in the table it stands in the highest halfword of the row. -/
def tableHalfwords : Nat → Nat → List Nat
  | 0, _ => []
  | k + 1, w => w / 65536 ^ k % 65536 :: tableHalfwords k w

/-- The instruction the decoder reads from a row's bits: the head in the top halfword, then hw0, hw1 and so on;
halfwords of the tail that the row gives no bits are zero. -/
def decodeTableWord (nbits w : Nat) : Option Instr :=
  match tableHalfwords (nbits / 16) w with
  | [] => none
  | head :: tail => (decodeInstr head (tail ++ List.replicate (tailLen head - tail.length) 0)).toOption

end Sys2Proof
end

