-- ==== Sys2Proof/Config.lean ====
section
/-! DEFINITION. What the spec leaves to the part: functions it names without giving them, and the values it leaves open.
None of them has a body that a proof can see. -/

namespace Sys2Proof

/-- The CRC-32 of a flit (R402 names a CRC-32 and gives no polynomial). DESIGN CHOICE, log entry 8. -/
opaque Config.crc32 : List Byte → BitVec 32

/-- The SHA-512 digest of an image (R405). DESIGN CHOICE, log entry 8. -/
opaque Config.sha512 : List Byte → List Byte

/-- Ed25519 verification of an image with a signature under the fused root key (R405). DESIGN CHOICE, log entry 8. -/
opaque Config.ed25519Ok : List Byte → List Byte → Bool

/-- The Ed25519 signature of a quote under an identity key (R406). DESIGN CHOICE, log entry 8. -/
opaque Config.ed25519Sign : List Byte → List Byte → List Byte

/-- The identity key that the physically unclonable function of a module gives with its helper data (R405). DESIGN CHOICE, log entry 8. -/
opaque Config.identityKey : Nat → List Byte → List Byte

/-- The module and the port at the other end of a Flahan port of a module (the spec does not give the cabling of a pod). DESIGN CHOICE,
log entry 31. -/
opaque Config.wire : Nat → Nat → Nat × Nat

/-- The counter or enable that a selection number of the management path names (R379, R406 give no numbering): 0 for a core and
1 for a slice, the unit within its module, and the counter 0 to 15, or 16 for the enable. DESIGN CHOICE, log entry 32. -/
opaque Config.perfPlace : Nat → Nat × Nat × Nat

/-- Address of the place of a partition's quotes (R406: Patrol records it in the boot-information block). DESIGN CHOICE, log entry 32. -/
opaque Config.quotePlace : Nat → Nat

/-- On-chip slots of the reduction tree of a module (R295 gives no number). DESIGN CHOICE, log entry 10. -/
opaque Config.treeSlots : Nat

/-- Slots of the tree spill area of a module (R295: set by Patrol). DESIGN CHOICE, log entry 10. -/
opaque Config.treeSpillSlots : Nat

/-- Physical address of the tree spill area of a module (R172, R295: set by Patrol). DESIGN CHOICE, log entry 10. -/
opaque Config.treeArea : Nat → Nat

/-- Entries of the overflow directory of a stack domain (R182, R309: set by Patrol). DESIGN CHOICE, log entry 53. -/
opaque Config.ovfEntries : Nat

/-- A byte the spec leaves open, numbered by the free counter of the state. DESIGN CHOICE, log entry 3. -/
opaque Config.freeByte : Nat → Byte

end Sys2Proof
end

