-- ==== Sys2Proof/Machine/State.lean ====
section
/-! DEFINITION. The state of the pod as plain data, and the state after reset. Flat numbers name the units: core
`module * 2048 + core`, context `core * 4 + ctx`, cluster `core / 8`, stack domain `core / 128`, die `core / 256`,
edge engine `die * 8 + e`. Tables are sparse: a unit that a table does not list is in its reset condition. -/

namespace Sys2Proof.Machine

/-- Why the machine stops. -/
inductive Fault where
  /-- A turn of the schedule asks for an event that cannot happen in this state (no such item, or its condition does not
  hold). Raised by `exec` on an event and by `step` on a turn. Safe: the run ends where the machine would wait. -/
  | notEnabled
deriving DecidableEq, Repr

/-- Why an instruction has no meaning. -/
inductive Refusal where
  /-- The instruction has no meaning in this model yet. Raised by the arms of `exec` that name it. Safe. -/
  | notModelled (mnemonic : String)
deriving DecidableEq, Repr

/-- A packet: its 64-bit words, header first (R226). -/
abbrev Pkt := List Word

/-! ### Contexts -/

/-- What holds a context (R10, R21, R23). -/
inductive Kind where
  | none | actor | pool | activate
deriving DecidableEq, Repr

/-- Where a context stands (R257 Table 13.3, R149 Table 8.1). Waiting phases end by an event. -/
inductive Phase where
  | free
  | starting     -- chosen; its first instruction issues in a later cycle (R249, R257)
  | running
  | waitWalk     -- a translation is being walked (R318)
  | waitCell     -- a typed-cell result is awaited (R351)
  | lifted       -- parked on a lift line (R257)
  | lease        -- the array's lease is requested (R149)
  | parked       -- parked in place (R269)
  | killing      -- killed, waiting for what must drain (R265)
deriving DecidableEq, Repr

/-- The instruction that an item in flight comes from: context, firing, actor handle, partition, PC, how many instructions of the
firing came before it (R382), and what a notice says of the firing: its slot, its core in a gang, and whether it is a gang's or a
supervisor's (R383 to R385). -/
structure Origin where
  w    : Nat
  fid  : Nat
  aid  : Nat
  part : Nat
  pc   : Word
  icnt : Nat
  slot : Nat
  gidx : Nat
  gang : Bool
  supv : Bool
deriving DecidableEq, Repr

/-- One item of a firing log (R18, R216): a store has its address as the program gave it, the homing block and the cache class of its page, and its policy. -/
inductive LogItem where
  | store (org : Origin) (va pa hb cls : Nat) (pol : Policy) (bytes : List Byte)
  | mark (sc : Scope)
deriving DecidableEq, Repr

/-- A slot of a send buffer (R225, R238). -/
inductive Slot where
  | free
  | filled (uid : Nat) (p : Pkt)     -- not published; uid gives the order of issue
  | sent (uid : Nat)                 -- published, awaiting acceptance or a bounce
deriving DecidableEq, Repr

/-- Where a load delivers (R195, R197, R198, R204). -/
inductive LoadDst where
  | scalar (d : Dst) (t : Ty)
  | pair (n : Nat)
  | vec (d : VDst) (w : Nat) (active : List Bool) (old : VWord)
  | local_ (pa : Nat)
deriving DecidableEq, Repr

/-- An outstanding load (R213): the bytes it reads, in order, each with the homing block and the cache class of its page, and
the values of those that have been read. -/
structure Load where
  uid   : Nat
  dst   : LoadDst
  addrs : List (Nat × Nat × Nat)
  got   : List Byte
  pol   : Policy
  org   : Origin
  va    : Word
deriving DecidableEq, Repr

/-- A translation leaf as a TLB holds it (R314, R315). `bad` is not 0 in a result that the instruction in progress holds (5 malformed,
6 walk denied, 7 walk poison, 8 not present, for a PREF or a CINV; R204, R205, R318, R319); no TLB holds one. -/
structure Leaf where
  bad  : Nat
  part : Nat
  va   : Nat
  size : Nat
  pa   : Nat
  hb   : Nat
  cls  : Nat
  x    : Bool
  w    : Bool
  r    : Bool
  u    : Bool
deriving DecidableEq, Repr

/-- An imprecise fault that has been recorded and not yet taken (R382); `icnt` is the place of the causing instruction. -/
structure Imprecise where
  code   : Nat
  detail : Nat
  va     : Word
  pc     : Word
  icnt   : Nat
  order  : Nat := 0      -- place among the faults recorded against the firing
deriving DecidableEq, Repr

/-- Where a cell result goes (R349, R351, R357, R373). -/
inductive CellDst where
  | none
  | word (d : Dst) (addr : Word)
  | read (n : Nat) (mt : Option Nat) (addr : Word)
deriving DecidableEq, Repr

/-- One context (R68, R257). -/
structure Ctx where
  sregs  : FMap Word := []
  vregs  : FMap VWord := []
  mregs  : FMap Word := []
  bregs  : FMap Word := []
  pc     : Word := 0
  npc    : Word := 0
  part   : Nat := 0
  aid    : Nat := 0
  slot   : Nat := 0
  rule   : Nat := 0
  nmsg   : Nat := 0
  gidx   : Nat := 0
  sbase  : Nat := 0
  ssize  : Nat := 0
  fcsr   : BitVec 32 := 0
  ocLd   : Nat := 0
  ocSt   : Nat := 0
  ocCp   : Nat := 0
  ocTl   : Nat := 0
  yreq   : Bool := false
  lmask  : Word := 0
  fsyn   : Word := 0
  fva    : Word := 0
  fpc    : Word := 0
  fmsg   : Word := 0
  kind   : Kind := .none
  pool   : Nat := 0
  budget : Nat := 0
  tYield : Nat := 0
  tKill  : Nat := 0
  tFence : Nat := 0
  cycles : Nat := 0
  pktB   : Nat := 0
  deqB   : Nat := 0
  done1  : Bool := false
  phase  : Phase := .free
  gang   : Bool := false
  fid    : Nat := 0
  icnt   : Nat := 0
  parkP  : Nat := 0
  parkV  : Nat := 0
  log    : List LogItem := []
  slots  : List Slot := List.replicate 8 .free
  written : List (Nat × Nat × Pkt) := []
  msgs   : List Pkt := []
  retEnt : Bool := false
  loads  : List Load := []
  xlate  : List Leaf := []
  imprec : List Imprecise := []
  pub    : Bool := false
  pubLo  : Nat := 0
  /-- Published stores named below it are performed before any that is published from now on (R216). -/
  mark   : Nat := 0
  cellDst : CellDst := .none
  /-- While free: the first cycle in which it may take a firing (R254, R257). -/
  from_  : Nat := 0
  roomAt : Nat := 8         -- free send-buffer slots when the cycle began (R254)
  /-- A FIN has issued, and these completion notices are not handed over yet (R244). -/
  owed   : Option (List Pkt) := none
deriving DecidableEq, Repr

/-! ### Cores -/

/-- An entry of the Scratchpad Allocation Table (R306). -/
structure Alloc where
  guard : Bool
  g     : Nat
  ctx   : Option Nat      -- owned by this context, when a context owns it
  slot  : Nat
  size  : Nat             -- user size in bytes
  base  : Nat             -- local address of the reserved range
deriving DecidableEq, Repr

/-- Scheduler state of an actor slot (R250 Table 13.1). -/
inductive ActorSt where
  | absent | admitting | idle | eligible | firing | heldReplay | heldFault | leaving | moving
deriving DecidableEq, Repr

/-- What the scheduler keeps for an actor slot (R250, R251, R255, R325). -/
structure Sched where
  st    : ActorSt := .absent
  ready : Nat := 0
  holdP : Nat := 0
  holdV : Nat := 0
  /-- The cycle of the last event of the actor, and the place of that event in the order of R255. -/
  event : Nat × Nat := (0, 0)
deriving DecidableEq, Repr

/-- What a packet or a task waits for: the published stores of its sender named below `before` (R19, R217). The sender is the
actor `aid` of a partition or a firing; with its stores go those of every context of its core, or of its quad for a gang, which it may
have acquired before they were performed (R217). -/
structure Gate where
  fid    : Nat := 0
  aid    : Nat := 0
  part   : Nat := 0
  core   : Nat := 0
  gang   : Bool := false
  before : Nat := 0
deriving DecidableEq, Repr

/-- A queued entry of the deque (R258), top first in its list; `from_` is the first cycle in which it may be chosen (R254). -/
structure Task where
  p     : Pkt
  idx   : Nat
  push  : Nat
  held  : Option (Nat × Nat)
  gate  : Gate := {}
  from_ : Nat := 0
deriving DecidableEq, Repr

/-- An ACTIVATE that a core has accepted, with the core or the host flow it came from and the first cycle in which it may start (R24, R254). A flow is `module * 4096 + flow`; flow 0 of a
module is Patrol's management path (R406). -/
structure ActEnt where
  core  : Nat
  part  : Nat
  host  : Option Nat
  p     : Pkt
  from_ : Nat := 0
deriving DecidableEq, Repr

/-- A landing counter (R367 Table 19.2). `dlAt` is the cycle its deadline passes, `pend` the actions not yet taken, `late` the timeout
notices not yet sent, `next` the cycle after it last fired, `from_` the cycle after LAND.ARM armed it, `offAt` the cycle in which
LAND.OFF disarmed it, and `last` the cycle after its last count (R366, R368, R373). -/
structure LandRec where
  arm    : Bool := false
  fired  : Bool := false
  ovr    : Bool := false
  tout   : Bool := false
  re     : Bool := false
  action : Nat := 0
  total  : Nat := 1
  gen    : Nat := 0
  count  : Nat := 0
  base   : Nat := 0
  length : Nat := 0
  deadline : Nat := 0
  dlAt   : Option Nat := none
  cell   : Nat := 0
  cellHb : Nat := 0
  pool   : Bool := false
  imod   : Nat := 0
  icore  : Nat := 0
  len1   : Nat := 0
  image  : Nat := 0
  oper   : Word := 0
  notify : Nat := 0
  amod   : Nat := 0
  acore  : Nat := 0
  part   : Nat := 0
  owner  : Nat := 0
  pend   : Nat := 0
  sl     : Bool := false
  next   : Nat := 0
  offAt  : Option Nat := none
  last   : Nat := 0
  late   : Nat := 0
  from_  : Nat := 0
deriving DecidableEq, Repr

/-- A packet in an actor's backing queue (R35), with the core it came from, its partition, its host flow and its pair; a redirected
notice goes to mailbox 3 (R230). -/
structure BqEnt where
  core  : Nat
  part  : Nat
  host  : Option Nat
  pair  : Option (Nat × Nat)
  p     : Pkt
  redir : Bool := false
deriving DecidableEq, Repr

/-- One core (R68, R172, R225, R299, R330). -/
structure Core where
  fcst    : Nat := 0
  bfmt    : FMap (BitVec 32) := []
  sctl    : Word := 0
  bud     : FMap Word := []
  sat     : FMap Alloc := []
  sbfloor : Nat := 14
  rrA     : Nat := 3
  rrB     : Nat := 3
  issued  : List Nat := []
  usedA   : Bool := false
  usedB   : Bool := false
  ibuf    : FMap (List Byte) := []
  l1      : FMap (List (Nat × Nat)) := []
  tlb     : List Leaf := []
  plc     : FMap Word := []
  plcPool : FMap (Nat × Nat) := []
  actq    : List ActEnt := []
  notq    : Nat := 0
  deque   : List Task := []
  sched   : FMap Sched := []
  stealBusy : Option Nat := none
  stealIdx  : Nat := 0
  stealPkt  : Option (Option Task) := none
  idleAt  : Nat := 0
  fenced  : Bool := false
  halted  : Bool := false
  land    : FMap LandRec := []
  rpred   : List Word := []
  raceSeq : Nat := 0
  raceW   : FMap (List (Nat × Nat × Bool)) := []
  injq    : List (List Word) := []
  extq    : List (List Word) := []
  poolSeq : Nat := 0
  poolRetry : List (Nat × Nat × Nat × Option LandRec × Pkt) := []
  started : Bool := false
  deqAt   : Nat := 256            -- free deque entries when the cycle began (R254)
  poolsAt : List Nat := []        -- pools with a firing in progress when the cycle began (R254)
  fcstAt  : Nat := 0
  pselect : FMap Nat := []
  pcount  : FMap Nat := []
  /-- Round-robin pointer of each sub-bank of the scratchpad (R173). -/
  subPtr  : FMap Nat := []
  /-- The cycle of the last packet enqueued in a mailbox of the core, and its mailbox's priority (R232). -/
  arrived : Nat × Nat := (0, 3)
deriving DecidableEq, Repr

/-! ### Clusters -/

/-- What a cell operation does at the home (R355 to R362). -/
inductive CellAct where
  | init (k : CellKind) (sc : CScope) (w0 w1 : Word)
  | free
  | read
  | cntAdd (n : Int)
  | cntWait (cc : CntCond) (t : Int)
  | barArv (n : Int)
  | barExp (n : Int)
  | barDec (n : Nat)
  | barWait (p : Nat)
  | lckTake
  | lckGive
  | qRes
  | qPub (i : Nat)
  | qAwait
  | qRel (n : Int)
  | cndWait (lock : Nat) (lockHome : Nat)
  | cndSig
  | cndAll
deriving DecidableEq, Repr

/-- A request on its way to a home's HSU (R340, R351). -/
structure CellOp where
  uid   : Nat
  act   : CellAct
  pa    : Nat
  sc    : Option CScope
  mode  : WMode
  org   : Origin
  va    : Word
deriving DecidableEq, Repr

/-- A lift-line entry (R342 Table 17.7). -/
structure LiftEnt where
  stamp : Nat
  oper  : Word
  msg   : Option Nat      -- the waiting entry's destination word, for a `.msg` waiter
  w     : Nat
  fid   : Nat
  code  : Nat
  part  : Nat
  cell  : Nat
  aid   : Nat
  lock  : Nat             -- the lock cell of a CND.WAIT
  eng   : Option Nat      -- the engine command of a completion action that waits
  org   : Origin          -- the instruction that waits, or that issued the command
  chosen : Bool           -- chosen by CND.SIG or CND.ALL
  freed : Bool            -- its cell was freed
  spill : Option Nat      -- entry of the spill ring, when it is spilled
deriving DecidableEq, Repr

/-- A lift-line spill description (R344). -/
structure SpillDesc where
  v    : Bool := false
  base : Nat := 0
  lsz  : Nat := 0
  head : Nat := 0
  tail : Nat := 0
  live : Nat := 0
deriving DecidableEq, Repr

/-- The configuration record of an actor on an array (R151). -/
structure MRec where
  dfmt  : Ty := .f32
  rm    : RM := .rne
  act   : Act := .none
  sen   : Bool := false
  ben   : Bool := false
  dshift : Int := 0
  scale : Nat := 0
  bias  : Nat := 0
  flags : Nat := 0
deriving DecidableEq, Repr

/-- A format snapshot of a bank (R152). -/
structure BankFmt where
  fmt   : Option Ty
  shift : Int
  rm    : RM
  order : Nat
deriving DecidableEq, Repr

/-- A run of bytes of a range, with the address the program gave it, and the homing block and the cache class of its page. -/
structure Span where
  va    : Nat
  pa    : Nat
  hb    : Nat
  len   : Nat
  /-- Cache class of the page (R425). -/
  cls   : Nat := 0
  /-- Block of the leaf that translated it; of size 0 for a run that none did. -/
  lva   : Nat := 0
  lsz   : Nat := 0
deriving DecidableEq, Repr

/-- What a queued array command does (R154). -/
inductive MOp where
  | loadw (p : Nat) (src stride : Nat) (bank : BankFmt)
  | swap (p : Nat)
  | stream (t p : Nat) (src stride : Nat) (row0 n : Nat) (sat : Bool) (bank : BankFmt)
  | epi (k : MKind) (g : Bool) (t : Nat) (dst stride : Nat) (row0 n ncol : Nat) (cfg : MRec)
      (bank : Option BankFmt) (rows : List (List Span))
deriving DecidableEq, Repr

/-- A queued array command (R154). -/
structure MCmd where
  uid   : Nat
  tag   : Nat
  op    : MOp
  org   : Origin
  ran   : Bool
  flags : Nat
  tFence : Nat
deriving DecidableEq, Repr

/-- An entry of the fault buffer (R323). -/
structure FltEnt where
  order : Nat
  part  : Nat
  vpn   : Nat
  lvl   : Nat
  wr    : Bool
  fx    : Bool
  count : Nat
  aid   : Nat
  core  : Nat
  ctx   : Nat
deriving DecidableEq, Repr

/-- Result of a walk (R318, R319). -/
inductive WalkRes where
  | leaf (l : Leaf)
  | notPresent (lvl : Nat)
  | bad (k : Nat)      -- 5 malformed, 6 walk denied, 7 walk poison
deriving DecidableEq, Repr

/-- A walk in flight with its requesters (R318, R320): the context, kind of access, address and firing of each. It reads the table
at `base` for level `lvl` next, or it has its result. -/
structure WalkReq where
  uid  : Nat
  part : Nat
  gran : Nat
  reqs : List (Nat × Nat × Nat × Nat)
  lvl  : Nat := 1
  base : Nat := 0
  res  : Option WalkRes := none
deriving DecidableEq, Repr

/-- A directory entry (R309): up to four sharers, or the index of an overflow entry that holds them. -/
structure DirEnt where
  ptrs : List Nat := []
  ovf  : Option Nat := none
deriving DecidableEq, Repr

/-- An entry of the overflow directory of a stack domain (R309): the line, its sharers in the home's module, and the other modules
that share it. -/
structure OvfEnt where
  line  : Nat
  cores : List Nat
  mods  : List Nat
deriving DecidableEq, Repr

/-- One cluster: slice, HSU, lift line, array, L2 TLB (R172, R330, R146). -/
structure Cluster where
  slice   : FMap (List (Nat × Nat)) := []
  dir     : FMap DirEnt := []
  hsu     : List CellOp := []
  wakes   : List Nat := []
  withdraw : List (Nat × Nat) := []
  lift    : List LiftEnt := []
  stamp   : Nat := 0
  quota   : FMap Nat := []
  spill   : FMap SpillDesc := []
  land    : FMap LandRec := []
  leaseQ  : Nat := 64
  holder  : Option Nat := none
  leaseLeft : Nat := 0
  leaseReq : List (Nat × Nat) := []
  inbox   : List MCmd := []
  mtag    : Nat := 0
  tiles   : FMap (FMap Nat) := []
  planes  : FMap (FMap Nat) := []
  psel    : FMap Bool := []
  ptag    : FMap (Ty × Int) := []
  zeroT   : List Nat := []
  tileOwn : FMap Nat := []
  pairOwn : FMap Nat := []
  mrecs   : FMap MRec := []
  stallT  : Nat := 0
  leave   : Nat := 0
  leaveIdle : Nat := 0
  tlb     : FMap (List Leaf) := []
  walks   : List WalkReq := []
  fbuf    : FMap FltEnt := []
  farr    : Nat := 0
  popAt   : Option Nat := none
  insAt   : Option Nat := none
  drop    : List Nat := []
  pselect : FMap Nat := []
  pcount  : FMap Nat := []
  penable : Bool := false
deriving DecidableEq, Repr

/-! ### Packets, stores and results in flight -/

/-- What a store on its way is: a published global store (R214), one to a state segment behind a mark (R216), a plain local store
(R215), the bytes of a PREF.l (R204), or an RST (R202). -/
inductive Via where
  | home | seg | port | pref | rst
deriving DecidableEq, Repr

/-- A store that is not yet performed (R212, R214, R215). It waits for the stores named `after` up to `grp`; `pa` and `bytes` are what
is left of it, `at_` is where it began, `full` says that it covers a line, and `typed` that it met a typed cell. -/
structure Pending where
  uid   : Nat
  org   : Origin
  via   : Via
  pa    : Nat
  hb    : Nat
  cls   : Nat
  pol   : Policy
  bytes : List Byte
  at_   : Nat
  full  : Bool
  typed : Bool
  after : Nat
  grp   : Nat
deriving DecidableEq, Repr

/-- Progress of a packet at its sender's network interface (R234, R235). -/
inductive NetSt where
  | ready
  | flying
  | accepted
  | refused (hint : Nat)
  | bounced (reason : Nat)
  | backoff (till : Nat)
deriving DecidableEq, Repr

/-- A packet that its network interface has not finished with (R233 to R238). It is injected once its gate is open (R19, R217). -/
structure NetPkt where
  uid   : Nat
  core  : Nat
  part  : Nat
  w     : Option Nat
  pair  : Option (Nat × Nat)
  p     : Pkt
  tries : Nat
  st    : NetSt
  redir : Bool
  gate  : Gate
  nq    : Bool
  host  : Option Nat
  /-- The landing counter that sent it, as it stood then (R369). -/
  rec_  : Option LandRec := none
deriving DecidableEq, Repr

/-- A result on its way to a context (R341, R351). -/
structure CellRes where
  uid   : Nat
  w     : Nat
  fid   : Nat
  res   : Word
  w0    : Word
  w1    : Word
  poison : Bool
deriving DecidableEq, Repr

/-! ### Engines, tree, host and links -/

/-- A Block Selector command as its descriptor gives it (R286 Table 14.4), with its ranges translated, and what its run
found: the selected blocks with their scores, and the flags. -/
structure BselCmd where
  rpl   : Bool
  land  : Option Nat
  trail : Nat
  kvfmt : Ty
  ben   : Bool
  sfmt  : Ty
  qfmt  : Ty
  dim   : Nat
  k     : Nat
  query : List Byte
  L     : Nat
  N     : Nat
  kstride : Nat
  vstride : Nat
  slot  : Nat
  vdst  : Nat
  kdst  : Nat
  list  : Nat
  force : Nat
  reply : Nat
  sums  : List Span
  ks    : List Span
  vs    : List Span
  sel   : List (Nat × Nat)
  flags : Nat
deriving DecidableEq, Repr

/-- Where an engine command stands (R273, R274). -/
inductive EngSt where
  | sending      -- on its way to the inbox
  | backoff      -- refused, until its retry
  | inbox
  | active       -- started
  | acting       -- every byte is written and its completion action is on its way
  | waiting      -- its completion action waits on a lift line
deriving DecidableEq, Repr

/-- Some bits on their way to the destination of a row, the source bits that they stand for, and whether they come from a poisoned line
(R278). -/
structure Chunk where
  val   : Nat := 0
  width : Nat := 0
  from_ : Nat := 0
  bad   : Bool := false
deriving DecidableEq, Repr

/-- A copy, fill or selector command (R271 to R290). `eng` names its engine, `count` the units of each row (elements of
`sw` and `dw` bits when it converts, bytes otherwise), `row`, `pos` and `bytes` its progress. -/
structure EngCmd where
  uid   : Nat
  kind  : Nat
  eng   : Nat
  org   : Origin
  fmt   : Option Ty
  pol   : Policy
  o     : Bool
  conv  : Bool
  sbank : Bool
  dbank : Bool
  sw    : Nat
  dw    : Nat
  count : Nat
  dst   : List (List Span)
  src   : List (List Span)
  pat   : Word
  act   : Nat
  actPa : Nat
  actHb : Nat
  /-- Block of the leaf that translated the cell of its action. -/
  actLva : Nat := 0
  actLsz : Nat := 0
  actVa : Word
  actW  : Word
  bsel  : Option BselCmd
  big   : Bool
  granted : Bool
  tries : Nat
  till  : Nat
  phase : EngSt
  order : Nat
  row   : Nat
  pos   : Nat
  /-- Source bits that the row has taken, and what of them is not written yet (R278). -/
  sbit  : Nat := 0
  carry : Chunk := {}
  bytes : Nat
  err   : Bool
deriving DecidableEq, Repr

/-- A chunk waiting in the reduction tree (R294). -/
structure TreeChunk where
  core  : Nat
  group : Nat
  seq   : Nat
  /-- Place in the order the tree took its chunks. -/
  stamp : Nat := 0
  words : List Word
  /-- Its place in the spill area, in 64-byte units, when it is spilled. -/
  at_   : Nat := 0
deriving DecidableEq, Repr

/-- A result waiting for room in an extract queue (R294, R295). -/
structure TreeOut where
  core  : Nat
  words : List Word
  /-- It lies in the spill area. -/
  away  : Bool := false
  /-- Its place there, in 64-byte units. -/
  at_   : Nat := 0
deriving DecidableEq, Repr

/-- A host flow (R397, R398). -/
structure Flow where
  open_ : Bool := false
  part  : Nat := 0
  mac   : BitVec 48 := 0
  timeout : Nat := 40000
  rxNext : Nat := 0
  txNext : Nat := 0
  unack : List (Nat × List Seg) := []
  window : Nat := 0
  sentAt : Nat := 0
  pseq   : Nat := 0
  ackDue : Option Nat := none
  tries : Nat := 0
  pend  : List Seg := []
deriving DecidableEq, Repr

/-- A Flahan link (R402, R403): the sequence numbers it expects and sends next, and the flits it keeps for replay, oldest first. -/
structure Link where
  lseq  : Nat := 0
  txSeq : Nat := 0
  sent  : List (List Byte) := []
  fails : Nat := 0
  replay : Bool := false
  trainAt : Option Nat := none
  down  : Bool := false
deriving DecidableEq, Repr

/-- A die's power manager (R407 to R409). -/
structure Die where
  leave : Nat := 0
  fifo  : List (Nat × Nat) := []
  work  : Nat := 0
  last  : Nat := 0
  dummy : Nat := 0
  fcast : Nat := 0
  winAt : Nat := 0
  fcAt  : Nat := 0
deriving DecidableEq, Repr

/-- A packet that has reached Patrol, with the core and the partition it came from, and its host flow (R406). -/
structure PatEnt where
  core  : Nat
  part  : Nat
  host  : Option Nat
  p     : Pkt
deriving DecidableEq, Repr

/-- What a module holds once (R172, R299, R395, R405). -/
structure Module where
  booted : Bool := false
  recovery : Bool := false
  measured : List (List Byte) := []
  mac    : BitVec 48 := 0
  serial : Nat := 0
  /-- HBM training values of the configuration record (R405). -/
  training : List Byte := []
  /-- The identity key (R405). -/
  key    : List Byte := []
  version : Nat := 0
  parts  : FMap PartEntry := []
  owner  : FMap Nat := []
  /-- Cores that the signed configuration record disables (R405). -/
  disabled : List Nat := []
  groups : FMap TreeGroup := []
  chunks : List TreeChunk := []
  spillT : List TreeChunk := []
  treeOut : List TreeOut := []
  flows  : FMap Flow := []
  links  : FMap Link := []
  /-- The port for each destination module (R403). -/
  routes : FMap Nat := []
  flits  : List (Nat × List Byte) := []
  rxPart : FMap (List Byte) := []
  rxDone : List (Nat × List Byte) := []
  hot    : Bool := false
  frames : List (List Byte) := []
  mgmt   : List Pkt := []
  patrol : List PatEnt := []
  bootAt : Nat := 0
  portStat : Nat := 0
deriving DecidableEq, Repr

/-- An admission (R311): the ADMIT of context `w` in firing `fid`, its team (handle, core, slot), and the status once it is known,
with the index of the failing member. -/
structure Admission where
  uid   : Nat
  w     : Nat
  fid   : Nat
  part  : Nat
  team  : List (Nat × Nat × Nat)
  res   : Option (Nat × Nat)
deriving DecidableEq, Repr

/-- What the schedule says comes next (DESIGN CHOICE, log entry 1). -/
inductive Turn where
  | issue (w : Nat)
  | event (e : Instr) (sel : Nat)
  | manage (m : Nat) (p : Pkt)   -- the host's packet to Patrol on the management path (R406)
  | tick
deriving DecidableEq, Repr

/-- The pod. -/
structure State where
  mem     : List Host.Cell := []
  poison  : List Nat := []
  badWords : List Nat := []
  tags    : FMap (Nat × Nat) := []
  ahead   : FMap (BitVec 64) := []
  ctxs    : FMap Ctx := []
  cores   : FMap Core := []
  clus    : FMap Cluster := []
  dies    : FMap Die := []
  mods    : FMap Module := []
  ovf     : FMap (FMap OvfEnt) := []
  present : List Nat := [0]
  wq      : List Pending := []
  net     : List NetPkt := []
  results : List CellRes := []
  engines : List EngCmd := []
  pbounce : List (Nat × Nat) := []
  admits  : List Admission := []
  now     : Nat := 0
  freeCtr : Nat := 0
  uid     : Nat := 0
  cur     : Nat := 0
  sel     : Nat := 0
  agenda  : List Turn := []
deriving DecidableEq, Repr

/-- The machine right after reset, before Patrol boots it (R405): every table in its reset condition. -/
def State.reset : State := {}

end Sys2Proof.Machine
end

