-- ==== Sys2Proof/Machine/Units.lean ====
section
/-! DEFINITION. Access to the units of the pod by number, and the numbers themselves (R9 of spec/01_machine.md, R68 of
spec/04_registers.md). Context `w` is context `w % 4` of core `w / 4`; core `gc` is core `gc % 2048` of module
`gc / 2048`. -/

namespace Sys2Proof.Machine

/-- The context number `w` names. -/
def State.ctx (s : State) (w : Nat) : Ctx := FMap.get {} s.ctxs w
/-- Replace context `w`. -/
def State.setCtx (s : State) (w : Nat) (c : Ctx) : State := { s with ctxs := FMap.set s.ctxs w c }
/-- The core number `gc` names. -/
def State.core (s : State) (gc : Nat) : Core := FMap.get {} s.cores gc
/-- Replace core `gc`. -/
def State.setCore (s : State) (gc : Nat) (c : Core) : State := { s with cores := FMap.set s.cores gc c }
/-- Cluster `cl` of the pod. -/
def State.clu (s : State) (cl : Nat) : Cluster := FMap.get {} s.clus cl
/-- Replace cluster `cl`. -/
def State.setClu (s : State) (cl : Nat) (c : Cluster) : State := { s with clus := FMap.set s.clus cl c }
/-- Die `d` of the pod. -/
def State.die (s : State) (d : Nat) : Die := FMap.get {} s.dies d
/-- Replace die `d`. -/
def State.setDie (s : State) (d : Nat) (x : Die) : State := { s with dies := FMap.set s.dies d x }
/-- Module `m`. -/
def State.mod (s : State) (m : Nat) : Module := FMap.get {} s.mods m
/-- Replace module `m`. -/
def State.setMod (s : State) (m : Nat) (x : Module) : State := { s with mods := FMap.set s.mods m x }

/-- Change context `w`. -/
def State.onCtx (s : State) (w : Nat) (f : Ctx → Ctx) : State := s.setCtx w (f (s.ctx w))
/-- Change core `gc`. -/
def State.onCore (s : State) (gc : Nat) (f : Core → Core) : State := s.setCore gc (f (s.core gc))
/-- Change cluster `cl`. -/
def State.onClu (s : State) (cl : Nat) (f : Cluster → Cluster) : State := s.setClu cl (f (s.clu cl))
/-- Change die `d`. -/
def State.onDie (s : State) (d : Nat) (f : Die → Die) : State := s.setDie d (f (s.die d))
/-- Change module `m`. -/
def State.onMod (s : State) (m : Nat) (f : Module → Module) : State := s.setMod m (f (s.mod m))

/-- Core of a context. -/
def coreOf (w : Nat) : Nat := w / 4
/-- Module of a core. -/
def modOf (gc : Nat) : Nat := gc / 2048
/-- Cluster of a core, numbered over the pod. -/
def cluOf (gc : Nat) : Nat := gc / 8
/-- Stack domain of a core, numbered over the pod. -/
def stkOf (gc : Nat) : Nat := gc / 128
/-- Die of a core, numbered over the pod. -/
def dieOf (gc : Nat) : Nat := gc / 256
/-- Lead core of a core's quad (R27). -/
def leadOf (gc : Nat) : Nat := gc / 4 * 4
/-- Position of a core within its quad. -/
def quadPos (gc : Nat) : Nat := gc % 4

/-- A fresh name for an item in flight. -/
def State.fresh (s : State) : State := { s with uid := s.uid + 1 }

/-- The value `%cyc` of a core: cycles since it left reset (Table 4.2). -/
def State.cyc (s : State) (gc : Nat) : Nat := s.now - (s.mod (modOf gc)).bootAt

/-- Slot number a pool firing reads in `%slot` (Table 4.2). -/
def poolSlot : Nat := 64

/-- The contexts that execute the instruction of context `w`: itself, or context 3 of the four cores of its quad in a
gang firing (R28). The lead's context names the gang. -/
def State.members (s : State) (w : Nat) : List Nat :=
  if (s.ctx w).gang then [w, w + 4, w + 8, w + 12] else [w]

/-- Supervisor mode: a firing of slot 0 or an ACTIVATE run (R73, R380). -/
def Ctx.supv (c : Ctx) : Bool :=
  decide (c.kind = .activate) || (decide (c.kind = .actor) && decide (c.slot = 0))

/-- Local address of descriptor `slot` (Table 9.2). -/
def descLocal (slot : Nat) : Nat := 0xE0000 + 256 * slot
/-- Local address of the message window of context `c` (R174). -/
def winLocal (c : Nat) : Nat := 0xE4000 + 0x400 * c
/-- Local address of the send buffer of context `c` (Table 9.2). -/
def sendLocal (c : Nat) : Nat := 0xE5000 + 0x800 * c
/-- Local address of deque entry `i` (Table 9.2). -/
def deqLocal (i : Nat) : Nat := 0xF0000 + 256 * i

/-- Two ranges have a byte in common. -/
def rangesMeet (a n b m : Nat) : Bool := decide (max a b < min (a + n) (b + m))

/-! ### Performance counters (R379) -/

/-- Count one event in every counter of 16 that selects it. -/
def bump (select count : FMap Nat) (code : Nat) : FMap Nat :=
  (List.range 16).foldl (fun m i =>
    if FMap.get 0 select i = code then FMap.put 0 m i ((FMap.get 0 m i + 1) % 2 ^ 48) else m) count

/-- Count an event of a core while its PFEN is 1. -/
def State.bumpCore (s : State) (gc code : Nat) : State :=
  if bit (s.core gc).sctl.toNat 3 then s.onCore gc (fun c => { c with pcount := bump c.pselect c.pcount code }) else s

/-- Count an event of a slice while its counters are enabled. -/
def State.bumpSlice (s : State) (cl code : Nat) : State :=
  if (s.clu cl).penable then s.onClu cl (fun c => { c with pcount := bump c.pselect c.pcount code }) else s

end Sys2Proof.Machine
end

