-- ==== Sys2Proof/Machine/Memory.lean ====
section
/-! DEFINITION. Physical memory: bytes and words, the local physical map and who may reach it, homes, caches and the
directory, landing counters and the race trace (chapters 09, 11 and 19). -/

namespace Sys2Proof.Machine

/-- The form of memory: addresses strictly rising and no listed byte equal to 0, which an unlisted byte reads as. -/
def Memory.wf (m : List Host.Cell) : Bool := FMap.canon 0 m

/-! ### Bytes and words -/

/-- The byte at a physical address (boot scrub leaves 0, R172). -/
def State.rdByte (s : State) (pa : Nat) : Byte := FMap.get 0 s.mem pa
/-- Write one byte. -/
def State.wrByte (s : State) (pa : Nat) (b : Byte) : State := { s with mem := FMap.put 0 s.mem pa b }
/-- `n` bytes from an address upward. -/
def State.rdBytes (s : State) (pa n : Nat) : List Byte := (List.range n).map (fun i => s.rdByte (pa + i))
/-- Write bytes from an address upward. -/
def State.wrBytes (s : State) (pa : Nat) : List Byte → State
  | [] => s
  | b :: bs => (s.wrByte pa b).wrBytes (pa + 1) bs
/-- The little-endian number in `n` bytes (R4). -/
def State.rdNat (s : State) (pa n : Nat) : Nat := leNat (s.rdBytes pa n)
/-- The little-endian 64-bit word at an address. -/
def State.rd64 (s : State) (pa : Nat) : Nat := s.rdNat pa 8
/-- Write a little-endian number into `n` bytes. -/
def State.wrNat (s : State) (pa n v : Nat) : State := s.wrBytes pa (leBytes n v)
/-- Write a little-endian 64-bit word. -/
def State.wr64 (s : State) (pa v : Nat) : State := s.wrNat pa 8 v

/-- The listed bytes of a run that starts at an address. -/
def cellsFrom (pa : Nat) : List Byte → List Host.Cell
  | [] => []
  | b :: bs => if b = 0 then cellsFrom (pa + 1) bs else (pa, b) :: cellsFrom (pa + 1) bs
/-- Replace a whole range of bytes at once. -/
def State.putRange (s : State) (pa : Nat) (bs : List Byte) : State :=
  { s with mem := s.mem.filter (fun c => decide (c.1 < pa)) ++ cellsFrom pa bs ++
                  s.mem.filter (fun c => decide (pa + bs.length ≤ c.1)) }
/-- Leave `n` bytes open: each takes a free value (DESIGN CHOICE, log entry 6). -/
def State.openBytes (s : State) (pa n : Nat) : State :=
  { s.putRange pa ((List.range n).map (fun i => Config.freeByte (s.freeCtr + i))) with freeCtr := s.freeCtr + n }

/-! ### The physical map (R186 Table 9.6) -/

/-- Physical address of local address `a` of core `gc`. -/
def localPA (gc a : Nat) : Nat := gc / 2048 * 2 ^ 44 + 0x80000000000 + gc % 2048 * 2 ^ 20 + a

/-- What a physical address reaches. -/
inductive Region where
  | hbm
  | scratch (gc addr : Nat)
  | ctl (cluster off : Nat)
  | unmapped
deriving DecidableEq, Repr

/-- The region of a physical address (Table 9.6); a module that is not in the pod is unmapped (R188). -/
def State.region (s : State) (pa : Nat) : Region :=
  let m := pa / 2 ^ 44
  let o := pa % 2 ^ 44
  if !s.present.contains m then .unmapped
  else if o < 0x10000000000 then .hbm
  else if 0x80000000000 ≤ o ∧ o < 0x80080000000 then
    .scratch (m * 2048 + (o - 0x80000000000) / 2 ^ 20) (o % 2 ^ 20)
  else if 0x90000000000 ≤ o ∧ o < 0x90100000000 then
    .ctl (m * 256 + (o - 0x90000000000) / 2 ^ 24) (o % 2 ^ 24)
  else .unmapped

/-- A core that was disabled at test: every access to it is denied (R405). -/
def State.coreOff (s : State) (gc : Nat) : Bool := (s.mod (modOf gc)).disabled.contains (gc % 2048)

/-- Partition that the core map gives a core to; 0xFF is unowned (R299), as a disabled core is for every partition (R405). -/
def State.ownerOf (s : State) (gc : Nat) : Nat :=
  if s.coreOff gc then 0xFF else FMap.get 0xFF (s.mod (modOf gc)).owner (gc % 2048)

/-- The Partition Table entry of a partition at a module. -/
def State.partEntry (s : State) (m part : Nat) : PartEntry :=
  FMap.get ⟨false, 0, 0, 0, 0, [], 0⟩ (s.mod m).parts part

/-- A link of a module is down, at one of its ends (R403). -/
def State.linkDown (s : State) (m port : Nat) : Bool :=
  (FMap.get {} (s.mod m).links port).down || (FMap.get {} (s.mod (Config.wire m port).1).links (Config.wire m port).2).down

/-- The routing tables lead from module `m` to module `d` over links that are up, in `n` crossings or fewer (R403). -/
def State.routed (s : State) : Nat → Nat → Nat → Bool
  | 0, m, d => decide (d = m)
  | n + 1, m, d => decide (d = m) || match FMap.find (s.mod m).routes d with
    | none => false
    | some port => !s.linkDown m port && s.routed n (Config.wire m port).1 d

/-- Module `m` still has a route to module `d` (R403). -/
def State.reach (s : State) (m d : Nat) : Bool := decide (d = m) || s.routed 256 m d

/-- An HBM address lies within the partition (R189, R307). Ranges are (first granule, last granule, W). -/
def State.hbmOk (s : State) (m part : Nat) (write : Bool) (pa : Nat) : Bool :=
  let e := s.partEntry m part
  e.valid && e.ranges.any (fun r => decide (r.1 ≤ pa / 2 ^ 16) && decide (pa / 2 ^ 16 ≤ r.2.1) && (!write || r.2.2))

/-- A physical access of partition `part`, issued at module `m`, that is no core-path access (R189). -/
def State.physOk (s : State) (m part : Nat) (write : Bool) (pa : Nat) : Bool :=
  s.reach m (pa / 2 ^ 44) && match s.region pa with
  | .hbm => s.hbmOk m part write pa
  | .scratch gc _ => decide (s.ownerOf gc = part)
  | .ctl _ _ => false
  | .unmapped => false

/-- The offset lies in a core configuration word of the control block. -/
def inCfgWords (off : Nat) : Bool := decide (0x40 ≤ off) && decide (off < 0x80)

/-- A core-path access of context `w` to a physical address (R186, R189): a scratchpad window is never reached by a
core-path global access, and a control block only by the supervisor of its owner; a core configuration word is written by the supervisor
of that core's owner alone (R187). -/
def State.corePhysOk (s : State) (w : Nat) (write : Bool) (pa : Nat) : Bool :=
  let c := s.ctx w
  s.reach (modOf (coreOf w)) (pa / 2 ^ 44) && match s.region pa with
  | .hbm => s.hbmOk (modOf (coreOf w)) c.part write pa
  | .scratch _ _ => false
  | .ctl cl off => c.supv &&
      ((decide (s.ownerOf (8 * cl) = c.part) && !(write && inCfgWords off)) ||
       (inCfgWords off && decide (s.ownerOf (8 * cl + (off - 0x40) / 8) = c.part)))
  | .unmapped => false

/-! ### Homes (R183) -/

/-- Exclusive or of the 4-bit groups of a number. -/
def fold4 : Nat → Nat → Nat
  | 0, _ => 0
  | n + 1, x => x % 16 ^^^ fold4 n (x / 16)

/-- The cluster whose slice is the home of an HBM address under a homing block of 2^(12 + hb) bytes. -/
def homeOf (pa hb : Nat) : Nat :=
  let b := 12 + hb
  pa / 2 ^ 44 * 256 + 16 * bits pa 36 4 + fold4 6 (bits pa b (36 - b))

/-- Homing block code of an access by physical address alone: B = 16. -/
def hbPhys : Nat := 4

/-! ### Poison and cell tags -/

/-- The 8-byte scratchpad word of an address holds an uncorrectable error (R392 Table 20.3 row 2). -/
def State.badWord (s : State) (pa : Nat) : Bool := s.badWords.contains (pa / 8)
/-- The 64-byte line of an address is poisoned (R184), or its scratchpad word is (R392). -/
def State.poisoned (s : State) (pa : Nat) : Bool := s.poison.contains (pa / 64) || s.badWord pa
/-- The bad words that a write of `n` bytes covers whole are good again (R392). -/
def State.heal (s : State) (pa n : Nat) : State :=
  { s with badWords := s.badWords.filter (fun k => !(decide (pa ≤ 8 * k) && decide (8 * k + 8 ≤ pa + n))) }
/-- Poison the line of an address. -/
def State.setPoison (s : State) (pa : Nat) : State :=
  if s.poison.contains (pa / 64) then s else { s with poison := pa / 64 :: s.poison }
/-- Clear the poison of a line. -/
def State.clearPoison (s : State) (pa : Nat) : State := { s with poison := s.poison.filter (fun l => l ≠ pa / 64) }
/-- Tag and scope of the 16-byte cell that holds an address; tag 0 is plain memory (R331). -/
def State.cellTag (s : State) (pa : Nat) : Nat × Nat := FMap.get (0, 0) s.tags (pa / 16)

/-- Write bytes at a home, leaving out the bytes of typed cells (R195, R331); whether a byte was left out. -/
def State.wrPlain (s : State) (pa : Nat) : List Byte → State × Bool
  | [] => (s, false)
  | b :: bs =>
    let typed := (s.cellTag pa).1 ≠ 0
    let s' := if typed then s else s.wrByte pa b
    let r := s'.wrPlain (pa + 1) bs
    (r.1, decide typed || r.2)

/-! ### Caches and the directory (R181, R182, R425) -/

/-- A set of a cache: the valid lines, each with its way, most recent first. -/
abbrev CacheSet := List (Nat × Nat)

/-- The set holds a line. -/
def CacheSet.has (set : CacheSet) (line : Nat) : Bool := set.any (fun x => decide (x.1 = line))

/-- The way that a fill takes: the lowest-numbered invalid one, else the least recently used. -/
def CacheSet.wayFor (set : CacheSet) (ways : Nat) : Nat :=
  match (List.range ways).find? (fun i => !set.any (fun x => decide (x.2 = i))) with
  | some i => i
  | none => (set.getLast?.getD (0, 0)).2

/-- Place a line that is not present into a set of `ways` ways; `mid` lines stay below the middle. -/
def fillSet (ways mid : Nat) (pol : Policy) (set : CacheSet) (line : Nat) : CacheSet :=
  let x := (line, set.wayFor ways)
  let set := if set.length < ways then set else set.dropLast
  match pol with
  | .keep => x :: set
  | .strm => set ++ [x]
  | .dflt | .nol1 =>
    if set.length < mid then x :: set
    else set.take (set.length - mid) ++ x :: set.drop (set.length - mid)

/-- Access a line in a set (Table 9.9). -/
def touchSet (ways mid : Nat) (pol : Policy) (set : CacheSet) (line : Nat) : CacheSet :=
  match set.find? (fun x => decide (x.1 = line)) with
  | some x => if pol = .strm then set else x :: set.filter (fun y => decide (y.1 ≠ line))
  | none => fillSet ways mid pol set line

/-- Drop a line from the L1 of a core. -/
def Core.dropL1 (c : Core) (line : Nat) : Core :=
  { c with l1 := FMap.mapVal (fun _ l => l.filter (fun x => decide (x.1 ≠ line))) c.l1 }

/-- A core's L1 holds a line. -/
def Core.inL1 (c : Core) (line : Nat) : Bool := (FMap.get [] c.l1 (line % 256)).any (fun x => decide (x.1 = line))

/-- Drop a line from the L1s of a list of cores. -/
def State.dropL1s (s : State) (line : Nat) : List Nat → State
  | [] => s
  | gc :: l => (s.onCore gc (fun c => c.dropL1 line)).dropL1s line l

/-- Entry `i` of the overflow directory of the stack domain of a home (R309). -/
def State.ovfEnt (s : State) (home i : Nat) : OvfEnt := FMap.get ⟨0, [], []⟩ (FMap.get [] s.ovf (home / 16)) i
/-- Set or free an entry of the overflow directory. -/
def State.setOvf (s : State) (home i : Nat) (e : Option OvfEnt) : State :=
  let d := FMap.get [] s.ovf (home / 16)
  { s with ovf := FMap.put [] s.ovf (home / 16) (match e with | some e => FMap.set d i e | none => FMap.erase d i) }
/-- Directory entry of a line. -/
def State.dirEnt (s : State) (home line : Nat) : DirEnt := FMap.get {} (s.clu home).dir line
/-- Set a directory entry. -/
def State.setDir (s : State) (home line : Nat) (e : DirEnt) : State :=
  s.onClu home (fun k => { k with dir := FMap.put {} k.dir line e })

/-- Cores that an invalidation of a line goes to: those of its pointers or its overflow entry; a module bit stands for every core
of that module, of which those without the line have nothing to invalidate (R309). -/
def State.sharers (s : State) (home line : Nat) : List Nat :=
  let e := s.dirEnt home line
  match e.ovf with
  | none => e.ptrs
  | some i =>
    let o := s.ovfEnt home i
    o.cores ++ (s.cores.filter (fun x => o.mods.contains (modOf x.1) && x.2.inL1 line)).map (fun x => x.1)

/-- Add a sharer to an overflow entry. -/
def OvfEnt.add (o : OvfEnt) (home gc : Nat) : OvfEnt :=
  if modOf gc = home / 256 then { o with cores := if o.cores.contains gc then o.cores else o.cores ++ [gc] }
  else { o with mods := if o.mods.contains (modOf gc) then o.mods else o.mods ++ [modOf gc] }

/-- Record a sharer of a line; none when it is a fifth one and the overflow directory is full (R182, R309). -/
def State.addSharer (s : State) (home line gc : Nat) : Option State :=
  let e := s.dirEnt home line
  match e.ovf with
  | some i => some (s.setOvf home i (some ((s.ovfEnt home i).add home gc)))
  | none =>
    if e.ptrs.contains gc then some s
    else if e.ptrs.length < 4 then some (s.setDir home line { e with ptrs := e.ptrs ++ [gc] })
    else match (List.range Config.ovfEntries).find? (fun i => (FMap.find (FMap.get [] s.ovf (home / 16)) i).isNone) with
      | some i =>
        some ((s.setOvf home i (some ((e.ptrs ++ [gc]).foldl (fun o g => o.add home g) ⟨line, [], []⟩))).setDir home line
          { ptrs := [], ovf := some i })
      | none => none

/-- Remove the sharers `p` of a line. A set that is empty then returns to pointer form and frees its overflow entry (R182); a module
bit goes once no core of the module holds the line. -/
def State.dropSharers (s : State) (home line : Nat) (p : Nat → Bool) : State :=
  let e := s.dirEnt home line
  match e.ovf with
  | none => s.setDir home line { e with ptrs := e.ptrs.filter (fun g => !p g) }
  | some i =>
    let o := s.ovfEnt home i
    let o := { o with cores := o.cores.filter (fun g => !p g)
                      mods := o.mods.filter (fun m => s.cores.any (fun x => decide (modOf x.1 = m) && x.2.inL1 line && !p x.1)) }
    if o.cores = [] ∧ o.mods = [] then (s.setOvf home i none).setDir home line {} else s.setOvf home i (some o)

/-- Invalidate every L1 copy of a line other than the writer's; an overflow entry that is empty then is freed (R182). -/
def State.invalidate (s : State) (home line : Nat) (except_ : Option Nat) : State :=
  let gone := (s.sharers home line).filter (fun g => some g ≠ except_)
  if gone = [] ∧ (s.dirEnt home line).ovf = none then s
  else (s.dropL1s line gone).dropSharers home line (fun g => decide (some g ≠ except_))

/-- An access at a home slice under a policy: fill or recency; a replaced line loses its sharers (R182, R425). -/
def State.touchSlice (s : State) (home line : Nat) (pol : Policy) : State :=
  let k := s.clu home
  let set := FMap.get [] k.slice (line % 8192)
  let set' := touchSet 16 8 pol set line
  let s := s.setClu home { k with slice := FMap.put [] k.slice (line % 8192) set' }
  let s := if CacheSet.has set line then s else s.bumpSlice home 0x24
  match set.filter (fun x => !CacheSet.has set' x.1) with
  | v :: _ => s.invalidate home v.1 none
  | [] => s

/-- A line leaves a slice. -/
def State.dropSlice (s : State) (home line : Nat) : State :=
  let set := (FMap.get [] (s.clu home).slice (line % 8192)).filter (fun x => decide (x.1 ≠ line))
  s.onClu home (fun k => { k with slice := FMap.put [] k.slice (line % 8192) set })

/-- Effective cache class, 0 L, 1 S, 2 U (Table 9.5). -/
def effClass (cls : Nat) (pol : Policy) : Nat := if pol = .nol1 then max cls 1 else cls

/-- An access at a home under an effective class: class U allocates nowhere, and a write of it invalidates every cached copy, the
writer's own among them (R182, R185). -/
def State.atHome (s : State) (home line cls : Nat) (pol : Policy) (write : Bool) : State :=
  if cls ≤ 1 then s.touchSlice home line pol else if write then (s.invalidate home line none).dropSlice home line else s

/-- The fills of a load of effective class `cls` by core `gc` (R181, R185). A hit in the L1 goes no further; a fifth sharer that the
directory cannot hold is served as class S (R309). -/
def State.loadFill (s : State) (gc pa hb cls : Nat) (pol : Policy) : State :=
  let line := pa / 64
  let home := homeOf pa hb
  let l1 := fun (s : State) =>
    s.onCore gc (fun c => { c with l1 := FMap.put [] c.l1 (line % 256) (touchSet 4 2 pol (FMap.get [] c.l1 (line % 256)) line) })
  if cls = 0 ∧ (s.core gc).inL1 line = true then l1 s
  else
    let s := s.atHome home line cls pol false
    if cls = 0 then
      let s := s.bumpCore gc 0x07
      match s.addSharer home line gc with
      | some s => l1 s
      | none => s
    else s

/-! ### Notices on their way (R229) -/

/-- Handle of the supervisor actor of a core (slot 0's descriptor, R10). -/
def State.supHandle (s : State) (gc : Nat) : Nat := s.rdNat (localPA gc (descLocal 0)) 3

/-- Hand a packet to the network interface of core `gc`. `sup` addresses mb3 of that core's supervisor actor. -/
def State.emit (s : State) (gc part : Nat) (sup : Bool) (p : Pkt) : State :=
  { s with
    net := s.net ++ [{ uid := s.uid, core := gc, part := part, w := none, pair := none, p := p, tries := 0,
                       st := .ready, redir := sup, host := none, gate := {}, nq := false }]
    uid := s.uid + 1 }

/-- Word 0 of a packet header (Table 12.2). -/
def headWord (kind len mb dest : Nat) (eng sup rv : Bool) : Word :=
  BitVec.ofNat 64 (len % 16 + kind * 16 + mb * 2 ^ 8 + dest * 2 ^ 16 +
    (if rv then 2 ^ 56 else 0) + (if sup then 2 ^ 58 else 0) + (if eng then 2 ^ 59 else 0))

/-! ### Landing counters (R365, R366, R368) -/

/-- Bytes of a write that fall inside a region. -/
def overlap (base length a n : Nat) : Nat := min (a + n) (base + length) - max a base

/-- The tests of Table 19.3 after a count or a new total, at cycle `now`; whether the counter overran for the first time. -/
def LandRec.test (r : LandRec) (now : Nat) : LandRec × Bool :=
  if r.re then
    if r.count < r.total ∨ now < r.next then (r, false)
    else ({ r with count := r.count - r.total, gen := (r.gen + 1) % 2 ^ 16, pend := r.pend + 1, next := now + 1,
                   dlAt := if r.deadline = 0 then none else some (now + r.deadline) }, false)
  else
    let r := if !r.fired && decide (r.total ≤ r.count) then
        { r with fired := true, gen := 1, pend := r.pend + 1, next := now + 1 } else r
    let over_ := r.fired && decide (r.total < r.count) && !r.ovr
    (if over_ then { r with ovr := true } else r, over_)

/-- The counter counts in cycle `now`: it is armed, since an earlier cycle, or LAND.OFF disarms it in this cycle, after its writes
(R368, R373, R374). -/
def LandRec.counts (r : LandRec) (now : Nat) : Bool := (r.arm || decide (r.offAt = some now)) && decide (r.from_ ≤ now)

/-- Count `n` bytes at cycle `now` (Table 19.3); whether the counter overran for the first time. -/
def LandRec.add (r : LandRec) (n now : Nat) : LandRec × Bool :=
  if !r.counts now || n == 0 then (r, false)
  else ({ r with count := min (r.count + n) (2 ^ 48 - 1), last := now + 1 } : LandRec).test now

/-- The deadline test of cycle `now`: TOUT is set and a timeout notice is due (Table 19.3). -/
def LandRec.expire (r : LandRec) (now : Nat) : LandRec :=
  match r.dlAt with
  | some t => if (r.arm || decide (r.offAt = some now)) && !r.fired && decide (t ≤ now) then
      { r with tout := true, late := r.late + 1, dlAt := none } else r
  | none => r

/-- The end of cycle `now` for a counter: the deadline test comes behind the counted writes, and an auto-rearm counter whose count still
reaches its total fires again in the next cycle (R368). -/
def LandRec.tick (r : LandRec) (now : Nat) : LandRec :=
  let r := r.expire now
  if r.arm && r.re then (r.test (now + 1)).1 else r

/-- An action that may be taken in cycle `now`: the action of a firing takes effect in the next cycle (R366). -/
def LandRec.due (r : LandRec) (now : Nat) : Bool := decide ((if now < r.next then 1 else 0) < r.pend)

/-- The counter owes an action or a notice. -/
def LandRec.owes (r : LandRec) : Bool := decide (r.pend ≠ 0) || decide (r.late ≠ 0)

/-- A landing notice (R370): kind 6 with an event code. `unit` is the core or the cluster of the counter. -/
def State.landNotice (s : State) (r : LandRec) (slice : Bool) (unit_ idx event : Nat) : State :=
  let a0 := idx + (if slice then 2 ^ 9 + (unit_ % 256) * 2 ^ 12 + (unit_ / 256) * 2 ^ 20 else 0) + event * 2 ^ 10
  let gc := r.amod * 2048 + r.acore
  let h := r.notify % 2 ^ 24
  let sup := decide (h = 0)
  let dest := if sup then s.supHandle gc else h
  let mb := if sup then 3 else r.notify / 2 ^ 24
  s.emit gc r.part sup [headWord 6 2 mb dest true false false, BitVec.ofNat 64 r.owner, BitVec.ofNat 64 a0,
    BitVec.ofNat 64 (r.count + r.gen * 2 ^ 48)]

/-- Count a write in every counter of a table whose region it touches; the indices that overran. -/
def countAll (now a n : Nat) : FMap LandRec → FMap LandRec × List Nat
  | [] => ([], [])
  | (i, r) :: m =>
    let x := r.add (if r.counts now then overlap r.base r.length a n else 0) now
    let y := countAll now a n m
    ((i, x.1) :: y.1, if x.2 then i :: y.2 else y.2)

/-- Send the overrun notices of core counters. -/
def State.coreOverruns (s : State) (gc : Nat) : List Nat → State
  | [] => s
  | i :: l => (s.landNotice (FMap.get {} (s.core gc).land i) false gc i 2).coreOverruns gc l

/-- Send the overrun notices of slice counters. -/
def State.sliceOverruns (s : State) (cl : Nat) : List Nat → State
  | [] => s
  | i :: l => (s.landNotice (FMap.get {} (s.clu cl).land i) true cl i 2).sliceOverruns cl l

/-- Count `n` written bytes at local address `a` of core `gc` (R365). -/
def State.countPort (s : State) (gc a n : Nat) : State :=
  let x := countAll s.now a n (s.core gc).land
  (s.onCore gc (fun c => { c with land := x.1 })).coreOverruns gc x.2

/-- Count `n` written bytes at a physical address at its home (R365). -/
def State.countHome (s : State) (home pa n : Nat) : State :=
  let x := countAll s.now pa n (s.clu home).land
  (s.onClu home (fun k => { k with land := x.1 })).sliceOverruns home x.2

/-! ### The race trace (R224) -/

/-- Reserved size of an allocation (R178, R179): the least power of two for wrap mode, the guards added for guard mode. -/
def Alloc.reserved (a : Alloc) : Nat :=
  if a.guard then a.size + 128 * a.g
  else if a.size ≤ 64 then 64 else 2 ^ (Nat.log2 (a.size - 1) + 1)

/-- The supervisor actor of a core holds an allocation over the whole trace ring, and the floor is 14. -/
def Core.ringOk (c : Core) : Bool :=
  decide (c.sbfloor = 14) && c.sat.any (fun x =>
    let a := x.2
    decide (a.ctx = none) && decide (a.slot = 0) && decide (a.base ≤ 0xDC000) &&
      decide (0xE0000 ≤ a.base + a.reserved))

/-- Race-trace window in cycles (Table 4.9). -/
def Core.rwin (c : Core) : Nat := let v := bits c.sctl.toNat 16 16; if v = 0 then 256 else v

/-- A write at the port of core `gc` to the granule of local address `a`, from core `src` (`eng`: for an engine). -/
def State.traceOne (s : State) (gc a src : Nat) (eng : Bool) : State :=
  let c := s.core gc
  if !bit c.sctl.toNat 2 then s
  else
    let g := a / 64
    let seen := (FMap.get [] c.raceW g).filter (fun e => decide (s.now ≤ e.1 + c.rwin))
    let c' := { c with raceW := FMap.put [] c.raceW g ((s.now, src, eng) :: seen) }
    match seen.find? (fun e => decide (e.2.1 ≠ src)) with
    | none => s.setCore gc c'
    | some e =>
      if c.ringOk then
        let v := g * 64 + (src % 2048) * 2 ^ 63 + (src / 2048) * 2 ^ 74 + (if eng then 2 ^ 82 else 0) +
          (if e.2.2 then 2 ^ 83 else 0) + (c.raceSeq % 4096) * 2 ^ 84 + (s.cyc gc % 2 ^ 32) * 2 ^ 96
        (s.setCore gc { c' with raceSeq := c.raceSeq + 1 }).wrNat
          (localPA gc (0xDC000 + 16 * (c.raceSeq % 1024))) 16 v
      else s.setCore gc c'

/-- Trace a write of `n` bytes, granule by granule. -/
def State.trace (s : State) (gc a n src : Nat) (eng : Bool) : State :=
  if n = 0 then s
  else
    let s' := s.traceOne gc a src eng
    if a / 64 = (a + n - 1) / 64 then s' else s'.traceOne gc (a + n - 1) src eng

/-! ### Writes at a scratchpad port -/

/-- Bits of descriptor word `k` that the supervisor writes: the RW fields of Tables 15.3, 12.4 and 4.8. -/
def descRW (k : Nat) : Nat :=
  if k = 0 then 2 ^ 63 + 2 ^ 62 + 2 ^ 61 + (2 ^ 54 - 2 ^ 27) + (2 ^ 24 - 1)
  else if k = 1 then 2 ^ 12 - 2 ^ 4
  else if 2 ≤ k ∧ k ≤ 5 then (2 ^ 64 - 2 ^ 48) + (2 ^ 40 - 2 ^ 16) + 0xF00 + 0x30 + 1
  else if 6 ≤ k ∧ k ≤ 9 then 0
  else if k = 19 then 2 ^ 52 - 2 ^ 12
  else if k = 20 then (2 ^ 52 - 2 ^ 12) + (2 ^ 5 - 1)
  else if 21 ≤ k ∧ k ≤ 27 then 0x00FF03FF * (2 ^ 32 + 1)
  else if k = 28 then 2 ^ 14 - 1
  else if 29 ≤ k then 0
  else 2 ^ 64 - 1

/-- What a core-path store of the byte `b` leaves at a local address that holds `old`: the read-only bits of a descriptor are kept, and
all of the descriptor of a resident actor (R7, R302). -/
def State.portByte (s : State) (gc a : Nat) (old b : Byte) : Byte :=
  if 0xE0000 ≤ a ∧ a < 0xE4000 then
    if (FMap.get {} (s.core gc).sched ((a - 0xE0000) / 256)).st ≠ .absent then old
    else
      let m := bits (descRW (a % 256 / 8)) (8 * (a % 8)) 8
      (b &&& BitVec.ofNat 8 m) ||| (old &&& ~~~ BitVec.ofNat 8 m)
  else b

/-- A byte stored by a core path at a local address. -/
def State.storeByte (s : State) (gc a : Nat) (b : Byte) : State :=
  s.wrByte (localPA gc a) (s.portByte gc a (s.rdByte (localPA gc a)) b)

/-- Bytes stored by a core path at the port. -/
def State.storeBytes (s : State) (gc a : Nat) : List Byte → State
  | [] => s
  | b :: bs => (s.storeByte gc a b).storeBytes gc (a + 1) bs

/-- What a requester of a scratchpad port is (R173): a context, by its number, or one of those below. -/
abbrev PortReq := Nat
/-- The message path. -/
def reqMsg : PortReq := 4
/-- The tile path. -/
def reqTile : PortReq := 5
/-- The copy path. -/
def reqCopy : PortReq := 6
/-- The selector path. -/
def reqSel : PortReq := 7
/-- The host path. -/
def reqHost : PortReq := 8
/-- RST arrivals. -/
def reqRst : PortReq := 9

/-- The port of core `gc` grants requester `r` the 16-byte words of `n` bytes at `a`: the pointer of each sub-bank, numbered
`4 * bank + sub-bank`, then names the next requester (R173). -/
def State.grant (s : State) (gc a n : Nat) (r : PortReq) : State :=
  s.onCore gc (fun c =>
    { c with subPtr := ((List.range (ceilDiv (a % 16 + n) 16)).map (fun i => a / 16 + i)).foldl (fun m k =>
        FMap.put 0 m (k / 4096 * 4 + k % 4) ((r + 1) % 10)) c.subPtr })

/-- A store of context `w` at the port of core `gc` (R215); no landing counter counts it. -/
def State.portStore (s : State) (w gc a : Nat) (bs : List Byte) : State :=
  (((s.storeBytes gc a bs).heal (localPA gc a) bs.length).grant gc a bs.length (w % 4)).trace gc a bs.length (w / 4) false

/-- A write by an RST or an engine of core `src` at the port, counted by the core's landing counters (R365). -/
def State.portWrite (s : State) (r : PortReq) (src gc a : Nat) (bs : List Byte) (eng : Bool) : State :=
  ((((s.wrBytes (localPA gc a) bs).heal (localPA gc a) bs.length).grant gc a bs.length r).trace gc a bs.length src eng).countPort gc a bs.length

/-- First local address of the system banks of a core (R174). -/
def Core.sysBase (c : Core) : Nat := c.sbfloor * 0x10000

end Sys2Proof.Machine
end

