-- ==== Sys2Proof/Machine/Control.lean ====
section
/-! DEFINITION. The slice control block (R187 Table 9.7) and the words it shows: lease quota (R150), core configuration
(Table 9.8), lift-line quotas (R343), landing records (R367) and spill descriptions (R344). -/

namespace Sys2Proof.Machine

/-- Word `k` of a landing counter record (Table 19.2). -/
def LandRec.word (r : LandRec) (k : Nat) : Nat :=
  let f := fun (b : Bool) (i : Nat) => if b then 2 ^ i else 0
  match k with
  | 0 => f r.arm 63 + f r.fired 62 + f r.ovr 61 + f r.tout 60 + f r.sl 59 + f r.re 58 + r.action % 8 * 2 ^ 55 +
      (r.total - 1) % 2 ^ 40
  | 1 => r.gen % 2 ^ 16 * 2 ^ 48 + r.count % 2 ^ 48
  | 2 => r.base % 2 ^ 52
  | 3 => r.deadline % 2 ^ 32 * 2 ^ 32 + r.length % 2 ^ 22
  | 4 =>
    if r.action = 3 then
      f r.pool 43 + r.imod % 2 ^ 8 * 2 ^ 35 + r.icore % 2 ^ 11 * 2 ^ 24 + r.len1 % 16 * 2 ^ 20 + r.image % 2 ^ 20
    else r.cell / 16 % 2 ^ 48 * 16
  | 5 => r.oper.toNat
  | 6 => r.notify % 2 ^ 26
  | 7 => r.amod % 2 ^ 8 * 2 ^ 41 + r.acore % 2 ^ 11 * 2 ^ 30 + r.part % 64 * 2 ^ 24 + r.owner % 2 ^ 24
  | _ => 0

/-- Word `k` of a spill description (Table 17.9). -/
def SpillDesc.word (d : SpillDesc) (k : Nat) : Nat :=
  match k with
  | 0 => (if d.v then 2 ^ 63 else 0) + d.base / 64 * 64
  | 1 => d.lsz
  | 2 => d.tail % 2 ^ 32 * 2 ^ 32 + d.head % 2 ^ 32
  | 3 => d.live % 2 ^ 32
  | _ => 0

/-- Entries that a partition holds on-chip at a slice (R343). -/
def Cluster.usedBy (k : Cluster) (p : Nat) : Nat :=
  (k.lift.filter (fun e => decide (e.part = p) && e.spill.isNone)).length

/-- The word at a multiple of 8 within the control block of a cluster; reserved offsets read 0. -/
def State.ctlWord (s : State) (cl off : Nat) : Nat :=
  let k := s.clu cl
  if off = 0 then k.leaseQ
  else if 0x40 ≤ off ∧ off < 0x80 then (s.core (8 * cl + (off - 0x40) / 8)).sbfloor
  else if 0x1000 ≤ off ∧ off < 0x1200 then
    let p := (off - 0x1000) / 8
    k.usedBy p * 2 ^ 16 + FMap.get 2 k.quota p
  else if 0x10000 ≤ off ∧ off < 0x18000 then
    (FMap.get {} k.land ((off - 0x10000) / 64)).word ((off - 0x10000) % 64 / 8)
  else if 0x20000 ≤ off ∧ off < 0x20800 then
    (FMap.get {} k.spill ((off - 0x20000) / 32)).word ((off - 0x20000) % 32 / 8)
  else 0

/-- Write the lease quota register (R150). -/
def State.writeLeaseQ (s : State) (cl v : Nat) : State := s.onClu cl (fun k => { k with leaseQ := v % 1024 })

/-- A user actor is resident on the core (Table 9.8). -/
def Core.userResident (c : Core) : Bool := c.sched.any (fun x => decide (x.1 ≠ 0) && decide (x.2.st ≠ .absent))

/-- Write a core configuration word: another floor than 8 to 14, or a resident user actor, makes it ignored (Table 9.8). -/
def State.writeCfg (s : State) (gc v : Nat) : State :=
  let f := v % 16
  if 8 ≤ f ∧ f ≤ 14 ∧ (s.core gc).userResident = false then s.onCore gc (fun c => { c with sbfloor := f }) else s

/-- Sum of the 64 quotas of a slice (R343). -/
def Cluster.quotaSum (k : Cluster) : Nat := (List.range 64).foldl (fun a p => a + FMap.get 2 k.quota p) 0

/-- Write a lift-line quota (R343): at least 2, and ignored when the sum would exceed 4,096. -/
def State.writeQuota (s : State) (cl p v : Nat) : State :=
  s.onClu cl (fun k =>
    let q := max 2 (v % 8192)
    let k' := { k with quota := FMap.put 2 k.quota p q }
    if k'.quotaSum ≤ 4096 then k' else k)

/-- Write word `j` of a spill description (R344). -/
def State.writeSpill (s : State) (cl p j v : Nat) : State :=
  s.onClu cl (fun k =>
    let d := FMap.get {} k.spill p
    let d' := match j with
      | 0 => { d with v := bit v 63, base := if d.live = 0 then bits v 6 46 * 64 else d.base }
      | 1 => if d.live = 0 ∧ 4 ≤ v % 32 ∧ v % 32 ≤ 20 then { d with lsz := v % 32 } else d
      | _ => d
    { k with spill := FMap.set k.spill p d' })

/-- Write the word at a multiple of 8 within the control block; landing records and reserved offsets ignore it. -/
def State.writeCtl (s : State) (cl off v : Nat) : State :=
  if off = 0 then s.writeLeaseQ cl v
  else if 0x40 ≤ off ∧ off < 0x80 then s.writeCfg (8 * cl + (off - 0x40) / 8) v
  else if 0x1000 ≤ off ∧ off < 0x1200 then s.writeQuota cl ((off - 0x1000) / 8) v
  else if 0x20000 ≤ off ∧ off < 0x20800 then s.writeSpill cl ((off - 0x20000) / 32) ((off - 0x20000) % 32 / 8) v
  else s

/-- A byte read at a physical address by a core path: memory, or a field of a control block. -/
def State.rdAny (s : State) (pa : Nat) : Byte :=
  match s.region pa with
  | .ctl cl off => BitVec.ofNat 8 (bits (s.ctlWord cl (off / 8 * 8)) (8 * (off % 8)) 8)
  | _ => s.rdByte pa

/-- A byte sequence put into the word `old` from byte `o` upward, and the bytes left for the next word. -/
def mergeWord (old o : Nat) : List Byte → Nat × List Byte
  | [] => (old, [])
  | b :: bs => if o = 8 then (old, b :: bs) else mergeWord (setBits old (8 * o) 8 b.toNat) (o + 1) bs

/-- Store bytes into a control block, word by word. -/
def State.storeCtl (s : State) (cl off : Nat) : Nat → List Byte → State
  | 0, _ => s
  | _, [] => s
  | n + 1, bs =>
    let o := off % 8
    let r := mergeWord (s.ctlWord cl (off - o)) o bs
    (s.writeCtl cl (off - o) r.1).storeCtl cl (off - o + 8) n r.2

end Sys2Proof.Machine
end

