-- ==== Sys2Proof/Machine/Numbers.lean ====
section
/-! DEFINITION. Number formats and arithmetic (chapter 05_numbers of the spec): exact values, ToFormat and FromFormat,
the arithmetic of R112 to R117, anchored sums, ranking and the special functions of R136 and R163. -/

namespace Sys2Proof

/-! ### Flags (R93), in the bit order of `%fcsr` [13:8] -/

/-- Invalid operation. -/
def fNV : Nat := 1
/-- Division by zero. -/
def fDZ : Nat := 2
/-- Overflow. -/
def fOF : Nat := 4
/-- Underflow. -/
def fUF : Nat := 8
/-- Inexact. -/
def fNX : Nat := 16
/-- Integer clip. -/
def fSAT : Nat := 32

/-- A flag that stands when the condition holds. -/
def flagIf (c : Bool) (f : Nat) : Nat := if c then f else 0

/-! ### Exact values -/

/-- An exact value: a NaN, an infinity, or (-1)^neg * m * 2^e. A result that is not a dyadic number (a quotient, a root, a
special function) is held by a number with many more bits than any destination, whose last bit is 1: it then lies
strictly between the same two neighbours as the exact result and is never a tie. -/
inductive FV where
  | nan (sig : Bool)
  | inf (neg : Bool)
  | num (neg : Bool) (m : Nat) (e : Int)
deriving DecidableEq, Repr

/-- +0. -/
def FV.zero : FV := .num false 0 0

/-- An integer as an exact value. -/
def FV.ofInt (x : Int) : FV := .num (decide (x < 0)) x.natAbs 0

/-- A NaN. -/
def FV.isNaN : FV → Bool
  | .nan _ => true
  | _ => false

/-- A signalling NaN. -/
def FV.isSig : FV → Bool
  | .nan s => s
  | _ => false

/-- ±0. -/
def FV.isZero : FV → Bool
  | .num _ m _ => decide (m = 0)
  | _ => false

/-- An infinity. -/
def FV.isInf : FV → Bool
  | .inf _ => true
  | _ => false

/-- The sign of a number or an infinity. -/
def FV.sign : FV → Bool
  | .nan _ => false
  | .inf s => s
  | .num s _ _ => s

/-- Change the sign. -/
def FV.negate : FV → FV
  | .nan s => .nan s
  | .inf s => .inf (!s)
  | .num s m e => .num (!s) m e

/-- Multiply by 2^k, exactly (R98). -/
def FV.scale (v : FV) (k : Int) : FV :=
  match v with
  | .num s m e => .num s m (e + k)
  | v => v

/-- 2^k for a non-negative integer exponent. -/
def pow2 (k : Int) : Nat := 2 ^ k.toNat

/-- Compare m1 * 2^e1 with m2 * 2^e2. -/
def cmpMag (m1 : Nat) (e1 : Int) (m2 : Nat) (e2 : Int) : Ordering :=
  let q := min e1 e2
  compare (m1 * pow2 (e1 - q)) (m2 * pow2 (e2 - q))

/-- The order of two values that are no NaN; -0 equals +0. -/
def cmpVal (a b : FV) : Ordering :=
  match a, b with
  | .inf s, .inf t => if s = t then .eq else if s then .lt else .gt
  | .inf s, _ => if s then .lt else .gt
  | _, .inf t => if t then .gt else .lt
  | .num s m e, .num t n k =>
    if m = 0 ∧ n = 0 then .eq
    else if m = 0 then (if t then .gt else .lt)
    else if n = 0 then (if s then .lt else .gt)
    else if s ≠ t then (if s then .lt else .gt)
    else if s then cmpMag n k m e else cmpMag m e n k
  | _, _ => .eq

/-! ### Decoding codes (R83 to R91) -/

/-- Exponent bits, fraction bits and bias of an IEEE-style type (Table 5.1). -/
structure IeeeFmt where
  ew   : Nat
  fw   : Nat
  bias : Nat
deriving DecidableEq, Repr

/-- The layout of an IEEE-style type. -/
def ieeeOf : Ty → Option IeeeFmt
  | .f64 => some ⟨11, 52, 1023⟩
  | .f32 => some ⟨8, 23, 127⟩
  | .bf16 => some ⟨8, 7, 127⟩
  | .f16 => some ⟨5, 10, 15⟩
  | .f8w => some ⟨5, 2, 15⟩
  | .f8n => some ⟨4, 3, 8⟩
  | _ => none

/-- Decode an IEEE-style code (R85). -/
def fromIeee (f : IeeeFmt) (c : Nat) : FV :=
  let s := bit c (f.ew + f.fw)
  let x := bits c f.fw f.ew
  let fr := bits c 0 f.fw
  if x = 2 ^ f.ew - 1 then
    if fr = 0 then .inf s else .nan (!(bit fr (f.fw - 1)))
  else if x = 0 then .num s fr (1 - (f.bias : Int) - f.fw)
  else .num s (2 ^ f.fw + fr) ((x : Int) - f.bias - f.fw)

/-- Number of leading bits of the low `k` bits of `body` equal to `d` (R87). -/
def leadRun (body : Nat) (d : Bool) : Nat → Nat
  | 0 => 0
  | k + 1 => if bit body k = d then leadRun body d k + 1 else 0

/-- Magnitude m * 2^e of a KF body of `b` bits (R87); body 0 is zero. -/
def kfMag (b body : Nat) : Nat × Int :=
  if body = 0 then (0, 0)
  else
    let d := bit body (b - 1)
    let run := leadRun body d b
    if run = b then (1, 2 * (b : Int) - 2)
    else
      let n := b - 1 - run
      let k : Int := if d then (run : Int) - 1 else -(run : Int)
      if n = 0 then (1, 2 * k)
      else
        let e : Int := if bit body (n - 1) then 1 else 0
        let fw := n - 1
        (2 ^ fw + bits body 0 fw, 2 * k + e - fw)

/-- Decode a KF code of width `w` (R87, R88). -/
def fromKF (w c : Nat) : FV :=
  let s := bit c (w - 1)
  let body := bits c 0 (w - 1)
  if body = 0 then (if s then .nan false else .zero)
  else let p := kfMag (w - 1) body
       .num s p.1 p.2

/-- The value of an integer code (Table 5.1); B1 holds -1 or +1. -/
def fromInt (t : Ty) (c : Nat) : Int :=
  match t with
  | .b1 => if c % 2 = 1 then 1 else -1
  | t => if t.isSigned then signed t.width c else ((c % 2 ^ t.width : Nat) : Int)

/-- FromFormat(c, t, shift) of R58: the exact value of code `c` of type `t`, times 2^shift. -/
def fromFormat (c : Nat) (t : Ty) (shift : Int) : FV :=
  (match ieeeOf t with
   | some f => fromIeee f c
   | none => if t.isInteger then .ofInt (fromInt t c) else fromKF t.width c).scale shift

/-! ### Rounding (R92 to R95, R97) -/

/-- m / 2^sh rounded to an integer under the mode; whether it changed (R92). -/
def roundShift (rm : RM) (neg : Bool) (m sh : Nat) : Nat × Bool :=
  let q := m >>> sh
  let r := m - (q <<< sh)
  if r = 0 then (q, false)
  else
    let half := 2 ^ (sh - 1)
    let up : Bool := match rm with
      | .rne => decide (r > half) || (decide (r = half) && decide (q % 2 = 1))
      | .rtz => false
      | .rup => !neg
      | .rdn => neg
      | .rna => decide (r ≥ half)
    (if up then q + 1 else q, true)

/-- m * 2^e in units of 2^q, rounded to an integer. A shift beyond all bits of m is cut to one that still leaves
less than a quarter of a unit. -/
def roundAt (rm : RM) (neg : Bool) (m : Nat) (e q : Int) : Nat × Bool :=
  if e ≥ q then (m * pow2 (e - q), false)
  else roundShift rm neg m (min (q - e).toNat (Nat.log2 m + 3))

/-- The canonical NaN code (R86). -/
def canonNaN (t : Ty) : Nat :=
  match ieeeOf t with
  | some f => (2 ^ (f.ew + 1) - 1) * 2 ^ (f.fw - 1)
  | none => 2 ^ (t.width - 1)

/-- ToFormat into an IEEE-style type (R95); the code and the flags. -/
def toIeee (f : IeeeFmt) (rm : RM) (v : FV) : Nat × Nat :=
  let sbit (s : Bool) := if s then 2 ^ (f.ew + f.fw) else 0
  let infc := (2 ^ f.ew - 1) * 2 ^ f.fw
  match v with
  | .nan sig => ((2 ^ (f.ew + 1) - 1) * 2 ^ (f.fw - 1), flagIf sig fNV)
  | .inf s => (sbit s + infc, 0)
  | .num s m e =>
    if m = 0 then (sbit s, 0)
    else
      let top : Int := e + (Nat.log2 m : Int)
      let fw : Int := f.fw
      let free := roundAt rm s m e (top - fw)
      let top' : Int := if free.1 = 2 ^ (f.fw + 1) then top + 1 else top
      let emin : Int := 1 - (f.bias : Int)
      let emax : Int := 2 ^ f.ew - 2 - (f.bias : Int)
      if top' > emax then
        let toInf : Bool := match rm with
          | .rne | .rna => true
          | .rtz => false
          | .rup => !s
          | .rdn => s
        (sbit s + (if toInf then infc else infc - 1), fOF ||| fNX)
      else
        let q := max (top - fw) (emin - fw)
        let r := roundAt rm s m e q
        (sbit s + (q - (emin - fw)).toNat * 2 ^ f.fw + r.1,
          flagIf r.2 fNX ||| flagIf (r.2 && decide (top' < emin)) fUF)

/-- The largest KF body whose magnitude is at most m * 2^e, bit by bit from the top (R88). -/
def kfFloor (b : Nat) (m : Nat) (e : Int) : Nat → Nat → Nat
  | 0, body => body
  | i + 1, body =>
    let p := kfMag b (body + 2 ^ i)
    kfFloor b m e i (if cmpMag p.1 p.2 m e = .gt then body else body + 2 ^ i)

/-- ToFormat into a KF type of width `w` (R94); the code and the flags. -/
def toKF (w : Nat) (rm : RM) (v : FV) : Nat × Nat :=
  let b := w - 1
  let mk (s : Bool) (body : Nat) := if body = 0 then 0 else (if s then 2 ^ b else 0) + body
  match v with
  | .nan sig => (2 ^ b, flagIf sig fNV)
  | .inf s => (mk s (2 ^ b - 1), fOF ||| fNX)
  | .num s m e =>
    if m = 0 then (0, 0)
    else
      let mx := kfMag b (2 ^ b - 1)
      if cmpMag m e mx.1 mx.2 = .gt then (mk s (2 ^ b - 1), fOF ||| fNX)
      else
        let lo := kfFloor b m e b 0
        let pl := kfMag b lo
        if cmpMag pl.1 pl.2 m e = .eq then (mk s lo, 0)
        else
          let ph := kfMag b (lo + 1)
          -- twice the value against the sum of the neighbours, in units of 2^q
          let q := min (e + 1) (min pl.2 ph.2)
          let mid := pl.1 * pow2 (pl.2 - q) + ph.1 * pow2 (ph.2 - q)
          let side := compare (m * pow2 (e + 1 - q)) mid
          let up : Bool := match rm with
            | .rne => decide (side = .gt) || (decide (side = .eq) && decide (lo % 2 = 1))
            | .rtz => false
            | .rup => !s
            | .rdn => s
            | .rna => decide (side ≠ .lt)
          (mk s (if up then lo + 1 else lo), fNX ||| flagIf (decide (lo = 0)) fUF)

/-- Least and greatest value of an integer type. -/
def intRange (t : Ty) : Int × Int :=
  match t with
  | .b1 => (-1, 1)
  | t => if t.isSigned then (-(2 ^ (t.width - 1) : Int), 2 ^ (t.width - 1) - 1) else (0, 2 ^ t.width - 1)

/-- Round a finite value to an integer; whether it changed. -/
def roundInt (rm : RM) (s : Bool) (m : Nat) (e : Int) : Int × Bool :=
  let r := roundAt rm s m e 0
  (if s then -(r.1 : Int) else (r.1 : Int), r.2)

/-- ToFormat into an integer type (Table 5.5). `srcInt` says that the source is an integer type, so that the
narrowing row applies in place of the floating-to-integer row. -/
def toInt (srcInt : Bool) (t : Ty) (rm : RM) (v : FV) : Nat × Nat :=
  match t with
  | .b1 =>
    match v with
    | .nan _ => (1, fNV)
    | .inf s => (if s then 0 else 1, fNX)
    | .num s m e => (if s && decide (m ≠ 0) then 0 else 1, flagIf (decide (cmpMag m e 1 0 ≠ .eq)) fNX)
  | t =>
    let r := intRange t
    match v with
    | .nan _ => (0, fNV)
    | .inf s => (wrap t.width (if s then r.1 else r.2), fNV)
    | .num s m e =>
      let x := roundInt rm s m e
      if srcInt then
        if x.1 < r.1 then (wrap t.width r.1, flagIf x.2 fNX ||| fSAT)
        else if x.1 > r.2 then (wrap t.width r.2, flagIf x.2 fNX ||| fSAT)
        else (wrap t.width x.1, flagIf x.2 fNX)
      else
        if x.1 < r.1 then (wrap t.width r.1, fNV)
        else if x.1 > r.2 then (wrap t.width r.2, fNV)
        else (wrap t.width x.1, flagIf x.2 fNX)

/-- ToFormat(x, t, shift, rm) of R58, by the rows of Table 5.5: the code of `t` nearest to x * 2^-shift, and the flags. -/
def toFormat (srcInt : Bool) (v : FV) (t : Ty) (shift : Int) (rm : RM) : Nat × Nat :=
  let x := v.scale (-shift)
  match ieeeOf t with
  | some f => toIeee f rm x
  | none => if t.isInteger then toInt srcInt t rm x else toKF t.width rm x

/-- Conversion of a code between two types (R97). -/
def convert (c : Nat) (st : Ty) (sshift : Int) (dt : Ty) (dshift : Int) (rm : RM) : Nat × Nat :=
  toFormat st.isInteger (fromFormat c st sshift) dt dshift rm

/-- An inexact value: one more bit, which is 1. -/
def sticky (s : Bool) (m : Nat) (e : Int) : FV := .num s (2 * m + 1) (e - 1)

/-! ### Arithmetic on exact values (R112, R113) -/

/-- An exact value with the flags raised on the way. -/
abbrev FR := FV × Nat

/-- The sign of an exact zero sum (Table 6.6). -/
def zeroSum (rm : RM) (s t : Bool) : FV :=
  if s = t then .num s 0 0 else .num (decide (rm = .rdn)) 0 0

/-- Sum of two finite values, exact (Table 6.6). -/
def addNum (rm : RM) (s : Bool) (m : Nat) (e : Int) (t : Bool) (n : Nat) (k : Int) : FV :=
  if m = 0 ∧ n = 0 then zeroSum rm s t
  else
    let q := min e k
    let x : Int := (m * pow2 (e - q) : Nat)
    let y : Int := (n * pow2 (k - q) : Nat)
    let z := (if s then -x else x) + (if t then -y else y)
    if z = 0 then .num (decide (rm = .rdn)) 0 0 else .num (decide (z < 0)) z.natAbs q

/-- a + b (Table 6.6). -/
def fAddV (rm : RM) (a b : FV) : FR :=
  if a.isNaN || b.isNaN then (.nan false, flagIf (a.isSig || b.isSig) fNV)
  else match a, b with
    | .inf s, .inf t => if s = t then (.inf s, 0) else (.nan false, fNV)
    | .inf s, _ => (.inf s, 0)
    | _, .inf t => (.inf t, 0)
    | .num s m e, .num t n k => (addNum rm s m e t n k, 0)
    | _, _ => (.nan false, 0)

/-- a * b, exact (Table 6.6). -/
def fMulV (a b : FV) : FR :=
  if a.isNaN || b.isNaN then (.nan false, flagIf (a.isSig || b.isSig) fNV)
  else if (a.isInf && b.isZero) || (a.isZero && b.isInf) then (.nan false, fNV)
  else match a, b with
    | .num s m e, .num t n k => (.num (s != t) (m * n) (e + k), 0)
    | a, b => (.inf (a.sign != b.sign), 0)

/-- a * b + c with one rounding to come (Table 6.6). -/
def fFmaV (rm : RM) (a b c : FV) : FR :=
  let sig := flagIf (a.isSig || b.isSig || c.isSig) fNV
  let p := fMulV a b
  let r := fAddV rm p.1 c
  if p.1.isNaN || c.isNaN then (.nan false, p.2 ||| sig) else (r.1, r.2 ||| sig)

/-- Quotient bits kept below the leading one. -/
def divBits : Nat := 140

/-- m / n in a number with a sticky last bit; the exponent is relative. -/
def divNum (m n : Nat) : Nat × Int :=
  let k := divBits + Nat.log2 n
  let x := m <<< k
  let q := x / n
  if x % n = 0 then (q, -(k : Int)) else (2 * q + 1, -(k : Int) - 1)

/-- a / b (Table 6.6). -/
def fDivV (a b : FV) : FR :=
  if a.isNaN || b.isNaN then (.nan false, flagIf (a.isSig || b.isSig) fNV)
  else match a, b with
    | .inf _, .inf _ => (.nan false, fNV)
    | .inf s, b => (.inf (s != b.sign), 0)
    | .num s _ _, .inf t => (.num (s != t) 0 0, 0)
    | .num s m e, .num t n k =>
      if n = 0 then (if m = 0 then (.nan false, fNV) else (.inf (s != t), fDZ))
      else if m = 0 then (.num (s != t) 0 0, 0)
      else let p := divNum m n
           (.num (s != t) p.1 (p.2 + e - k), 0)
    | _, _ => (.nan false, 0)

/-- floor(sqrt n) by bits from bit `i - 1` downward. -/
def isqrt (n : Nat) : Nat → Nat → Nat
  | 0, r => r
  | i + 1, r => isqrt n i (if (r + 2 ^ i) * (r + 2 ^ i) ≤ n then r + 2 ^ i else r)

/-- The root of m * 2^e cut below its last kept bit, its exponent, and whether it was cut. -/
def sqrtNum (m : Nat) (e : Int) : Nat × Int × Bool :=
  let k : Nat := 2 * divBits
  let x := if e % 2 = 0 then m <<< k else m <<< (k + 1)
  let e' : Int := if e % 2 = 0 then e - k else e - k - 1
  let r := isqrt x (Nat.log2 x / 2 + 1) 0
  (r, e' / 2, decide (r * r ≠ x))

/-- sqrt a (Table 6.6). -/
def fSqrtV (a : FV) : FR :=
  match a with
  | .nan s => (.nan false, flagIf s fNV)
  | .inf s => if s then (.nan false, fNV) else (.inf false, 0)
  | .num s m e =>
    if m = 0 then (.num s 0 0, 0)
    else if s then (.nan false, fNV)
    else let p := sqrtNum m e
         (if p.2.2 then sticky false p.1 p.2.1 else .num false p.1 p.2.1, 0)

/-- Round an arithmetic result into a floating type (R112). -/
def finishF (t : Ty) (rm : RM) (r : FR) : Nat × Nat :=
  let c := toFormat false r.1 t 0 rm
  (c.1, c.2 ||| r.2)

/-- FADD on codes. -/
def fAdd (t : Ty) (rm : RM) (a b : Nat) : Nat × Nat :=
  finishF t rm (fAddV rm (fromFormat a t 0) (fromFormat b t 0))
/-- FSUB on codes. -/
def fSub (t : Ty) (rm : RM) (a b : Nat) : Nat × Nat :=
  finishF t rm (fAddV rm (fromFormat a t 0) (fromFormat b t 0).negate)
/-- FMUL on codes. -/
def fMul (t : Ty) (rm : RM) (a b : Nat) : Nat × Nat :=
  finishF t rm (fMulV (fromFormat a t 0) (fromFormat b t 0))
/-- FMA on codes. -/
def fFma (t : Ty) (rm : RM) (a b c : Nat) : Nat × Nat :=
  finishF t rm (fFmaV rm (fromFormat a t 0) (fromFormat b t 0) (fromFormat c t 0))
/-- FDIV on codes. -/
def fDiv (t : Ty) (rm : RM) (a b : Nat) : Nat × Nat :=
  finishF t rm (fDivV (fromFormat a t 0) (fromFormat b t 0))
/-- FSQRT on a code. -/
def fSqrt (t : Ty) (rm : RM) (a : Nat) : Nat × Nat :=
  finishF t rm (fSqrtV (fromFormat a t 0))

/-- The order of FMIN and FMAX: -0 counts as less than +0 (R114). -/
def lessF (a b : FV) : Bool :=
  match cmpVal a b with
  | .lt => true
  | .gt => false
  | .eq => a.isZero && b.isZero && a.sign && !b.sign

/-- FMIN and FMAX on codes (R114). -/
def fMinMax (t : Ty) (isMax : Bool) (a b : Nat) : Nat × Nat :=
  let x := fromFormat a t 0
  let y := fromFormat b t 0
  let fl := flagIf (x.isSig || y.isSig) fNV
  if x.isNaN && y.isNaN then (canonNaN t, fl)
  else if x.isNaN then (b % 2 ^ t.width, fl)
  else if y.isNaN then (a % 2 ^ t.width, fl)
  else if isMax then ((if lessF x y then b else a) % 2 ^ t.width, 0)
  else ((if lessF y x then b else a) % 2 ^ t.width, 0)

/-- The outcome and the flags of a floating-point condition (Table 6.7). -/
def fCompare (cc : FCond) (x y : FV) : Bool × Nat :=
  let un := x.isNaN || y.isNaN
  let sig := flagIf (x.isSig || y.isSig) fNV
  let o := cmpVal x y
  match cc with
  | .eq => (!un && decide (o = .eq), sig)
  | .ne => (un || decide (o ≠ .eq), sig)
  | .lt => (!un && decide (o = .lt), flagIf un fNV)
  | .le => (!un && decide (o ≠ .gt), flagIf un fNV)
  | .gt => (!un && decide (o = .gt), flagIf un fNV)
  | .ge => (!un && decide (o ≠ .lt), flagIf un fNV)
  | .un => (un, sig)
  | .or => (!un, sig)

/-- FCLASS of a code (Table 6.9). -/
def fClass (t : Ty) (c : Nat) : Nat :=
  match ieeeOf t with
  | none => 0
  | some f =>
    match fromIeee f c with
    | .nan sig => if sig then 2 ^ 8 else 2 ^ 9
    | .inf s => if s then 2 ^ 0 else 2 ^ 7
    | .num s m _ =>
      if m = 0 then (if s then 2 ^ 3 else 2 ^ 4)
      else if bits c f.fw f.ew = 0 then (if s then 2 ^ 2 else 2 ^ 5)
      else if s then 2 ^ 1 else 2 ^ 6

/-! ### Anchored sums (R99, R100) -/

/-- The exact product of two operands as a term; a signalling NaN operand or 0 * inf makes a NaN that sets NV (R93). -/
def termMul (a b : FV) : FV :=
  let p := fMulV a b
  if p.1.isNaN then .nan (decide (p.2 ≠ 0)) else p.1

/-- floor(log2 |t|) of a non-zero finite term. -/
def termTop : FV → Option Int
  | .num _ m e => if m = 0 then none else some (e + (Nat.log2 m : Int))
  | _ => none

/-- The greatest of the tops of the non-zero terms. -/
def maxTop : List FV → Option Int
  | [] => none
  | t :: ts =>
    match termTop t, maxTop ts with
    | none, r => r
    | r, none => r
    | some x, some y => some (max x y)

/-- A term in units of 2^q, truncated toward zero; whether it was cut. -/
def truncTerm (q : Int) : FV → Int × Bool
  | .num s m e =>
    if e ≥ q then
      let x : Int := (m * pow2 (e - q) : Nat)
      (if s then -x else x, false)
    else
      let sh := min (q - e).toNat (Nat.log2 m + 1)
      let x := m >>> sh
      (if s then -(x : Int) else (x : Int), decide (x <<< sh ≠ m))
  | _ => (0, false)

/-- Anchored(terms, fmt) of R99 with window `w` in bits. -/
def anchored (terms : List FV) (w : Nat) (t : Ty) : Nat × Nat :=
  let sig := flagIf (terms.any FV.isSig) fNV
  let posInf := terms.any (fun v => decide (v = .inf false))
  let negInf := terms.any (fun v => decide (v = .inf true))
  if terms.any FV.isNaN then (canonNaN t, sig)
  else if posInf && negInf then (canonNaN t, fNV)
  else if posInf then toFormat false (.inf false) t 0 .rne
  else if negInf then toFormat false (.inf true) t 0 .rne
  else match maxTop terms with
    | none =>
      if terms.all (fun v => v.sign) && !terms.isEmpty then toFormat false (.num true 0 0) t 0 .rne
      else toFormat false .zero t 0 .rne
    | some top =>
      let q := top - w
      let parts := terms.map (truncTerm q)
      let s := (parts.map (fun p => p.1)).sum
      let cut := flagIf (parts.any (fun p => p.2)) fNX
      if s = 0 then ((toFormat false .zero t 0 .rne).1, cut)
      else
        let r := toFormat false (.num (decide (s < 0)) s.natAbs q) t 0 .rne
        (r.1, r.2 ||| cut)

/-- The window of a sum by its operand types (R100). -/
def windowOf (a b : Ty) : Nat :=
  if a = .f64 ∨ b = .f64 then 160
  else if a = .f32 ∨ b = .f32 then 96
  else 80

/-! ### Ranking (R102) -/

/-- Rank(x, i, y, j, dir): key x at index i ranks above key y at index j. -/
def rank (isMax : Bool) (x : FV) (i : Nat) (y : FV) (j : Nat) : Bool :=
  if x.isNaN && y.isNaN then decide (i < j)
  else if x.isNaN then false
  else if y.isNaN then true
  else match cmpVal x y with
    | .eq => decide (i < j)
    | .gt => isMax
    | .lt => !isMax

/-! ### Special functions (R136, R137, R163) -/

/-- Fraction bits of the fixed-point evaluation. -/
def fxBits : Nat := 400

/-- 1 in fixed point. -/
def fxOne : Nat := 2 ^ fxBits

/-- Sum of the odd powers of z: z + z^3/3 + z^5/5 + ..., `k` terms, in fixed point. -/
def atanhSum (z2 : Nat) : Nat → Nat → Nat → Nat
  | 0, _, _ => 0
  | k + 1, n, p => p / n + atanhSum z2 k (n + 2) ((p * z2) >>> fxBits)

/-- ln 2 in fixed point: 2 * atanh(1/3). -/
def fxLn2 : Nat := 2 * atanhSum (fxOne / 9) 140 1 (fxOne / 3)

/-- Sum of the exponential series, `k` terms, in fixed point. -/
def expSum (y : Nat) : Nat → Nat → Nat → Nat
  | 0, _, _ => 0
  | k + 1, n, p => p + expSum y k (n + 1) (((p * y) >>> fxBits) / n)

/-- e^y for a fixed-point y in [0, 1). -/
def fxExp (y : Nat) : Nat := expSum y 100 1 fxOne

/-- m * 2^e in fixed point, cut below the last bit. -/
def toFx (m : Nat) (e : Int) : Nat :=
  let k := e + fxBits
  if k ≥ 0 then m * pow2 k else m >>> (-k).toNat

/-- A value just below (-1)^s * m * 2^e in magnitude. -/
def justBelow (s : Bool) (m : Nat) (e : Int) : FV := .num s (m <<< 100 - 1) (e - 100)

/-- 1/x (Table 7.5). -/
def sRcp (v : FV) : FR :=
  match v with
  | .nan s => (.nan false, flagIf s fNV)
  | .inf s => (.num s 0 0, 0)
  | .num s m e =>
    if m = 0 then (.inf s, fDZ)
    else let p := divNum 1 m
         (.num s p.1 (p.2 - e), 0)

/-- 1/sqrt x (Table 7.5). -/
def sRsq (v : FV) : FR :=
  match v with
  | .nan s => (.nan false, flagIf s fNV)
  | .inf s => if s then (.nan false, fNV) else (.zero, 0)
  | .num s m e =>
    if m = 0 then (.inf s, fDZ)
    else if s then (.nan false, fNV)
    else
      let r := sqrtNum m e
      if r.2.2 then
        -- 1/sqrt x = sqrt x / x, and the root is no dyadic number
        let p := divNum r.1 m
        (sticky false p.1 (p.2 + r.2.1 - e), 0)
      else
        let p := divNum 1 r.1
        (.num false p.1 (p.2 - r.2.1), 0)

/-- 2^x for a finite x (R136). -/
def exp2Num (s : Bool) (m : Nat) (e : Int) : FV :=
  if cmpMag m e 1000 0 = .gt then (if s then sticky false 1 (-1000) else .num false 1 1000)
  else
    let x := roundInt .rdn s m e
    if !x.2 then .num false 1 x.1
    else
      let y := toFx m e
      let f := if s then (x.1.natAbs * fxOne) - y else y - x.1.natAbs * fxOne
      sticky false (fxExp ((f * fxLn2) >>> fxBits)) (x.1 - fxBits)

/-- 2^x (Table 7.5). -/
def sExp2 (v : FV) : FR :=
  match v with
  | .nan s => (.nan false, flagIf s fNV)
  | .inf s => (if s then .zero else .inf false, 0)
  | .num s m e => if m = 0 then (.num false 1 0, 0) else (exp2Num s m e, 0)

/-- log2 x (Table 7.5). -/
def sLog2 (v : FV) : FR :=
  match v with
  | .nan s => (.nan false, flagIf s fNV)
  | .inf s => if s then (.nan false, fNV) else (.inf false, 0)
  | .num s m e =>
    if m = 0 then (.inf true, fDZ)
    else if s then (.nan false, fNV)
    else
      let l := Nat.log2 m
      let whole : Int := e + l
      if m = 2 ^ l then (.ofInt whole, 0)
      else
        -- log2 of z = m / 2^l in (1, 2): 2 atanh((z - 1)/(z + 1)) / ln 2
        let z := ((m - 2 ^ l) * fxOne) / (m + 2 ^ l)
        let ln := 2 * atanhSum ((z * z) >>> fxBits) 140 1 z
        let r : Int := whole * fxOne + ((ln * fxOne / fxLn2 : Nat) : Int)
        (sticky (decide (r < 0)) r.natAbs (-(fxBits : Int)), 0)

/-- e^-y for a fixed-point y: a mantissa in [1, 2] with `fxBits` fraction bits, and n with e^-y = mantissa * 2^-n. -/
def expNeg (y : Nat) : Nat × Nat :=
  let n := y / fxLn2 + 1
  (fxExp (n * fxLn2 - y), n)

/-- tanh x (Table 7.5). -/
def sTanh (v : FV) : FR :=
  match v with
  | .nan s => (.nan false, flagIf s fNV)
  | .inf s => (.num s 1 0, 0)
  | .num s m e =>
    if m = 0 then (.num s 0 0, 0)
    else if cmpMag m e 40 0 = .gt then (justBelow s 1 0, 0)
    else if cmpMag m e 1 (-60) = .lt then (justBelow s m e, 0)
    else
      -- (1 - a)/(1 + a) with a = e^(-2|x|) = mant * 2^-n
      let p := expNeg (toFx m (e + 1))
      let one := fxOne <<< p.2
      let q := divNum (one - p.1) (one + p.1)
      (sticky s q.1 q.2, 0)

/-- v / (1 + e^-w) for a finite non-zero v, where |w| is in fixed point and w has the sign of v. -/
def timesSigmoid (s : Bool) (m : Nat) (e : Int) (w : Nat) : FV :=
  let p := expNeg w
  let one := fxOne <<< p.2
  let q := divNum (m * (if s then p.1 else one)) (one + p.1)
  sticky s q.1 (q.2 + e)

/-- silu of an FP32 value (R163). -/
def sSilu (v : FV) : FV :=
  match v with
  | .nan s => .nan s
  | .inf s => if s then .num true 0 0 else .inf false
  | .num s m e =>
    if m = 0 then .num s 0 0
    else if cmpMag m e 300 0 = .gt then (if s then sticky true 1 (-400) else justBelow s m e)
    else timesSigmoid s m e (toFx m e)

/-- gelu-tanh of an FP32 value: 0.5 v (1 + tanh u) = v / (1 + e^(-2u)) with u = 0.797885 (v + 0.044715 v^3) (R163). -/
def sGelu (v : FV) : FV :=
  match v with
  | .nan s => .nan s
  | .inf s => if s then .num true 0 0 else .inf false
  | .num s m e =>
    if m = 0 then .num s 0 0
    else if cmpMag m e 30 0 = .gt then (if s then sticky true 1 (-400) else justBelow s m e)
    else
      let x := toFx m e
      let cube := (((x * x) >>> fxBits) * x) >>> fxBits
      let w := 2 * 797885 * (1000000 * x + 44715 * cube) / (1000000 * 1000000)
      timesSigmoid s m e w

/-! ### Lanes of a register (R123) -/

/-- Lane `i` of width `w` of a register's bits. -/
def lane (w i v : Nat) : Nat := (v >>> (w * i)) % 2 ^ w

/-- A register's bits from its lanes, lane 0 first. -/
def ofLanes (w : Nat) : List Nat → Nat
  | [] => 0
  | x :: xs => x % 2 ^ w + 2 ^ w * ofLanes w xs

/-- The first `n` lanes of width `w`. -/
def lanes (w n v : Nat) : List Nat := (List.range n).map (fun i => lane w i v)

/-- The 64-bit register value of a code of type `t` (R104). -/
def extend (t : Ty) (c : Nat) : Word :=
  if t.isSigned then BitVec.ofInt 64 (signed t.width c) else BitVec.ofNat 64 (c % 2 ^ t.width)

end Sys2Proof
end

