-- ==== Sys2Proof/Machine/Translate.lean ====
section
/-! DEFINITION. Address translation: page tables, the walk, the TLBs and the permission rules (chapter 16). -/

namespace Sys2Proof.Machine

/-- Kinds of access a leaf must allow (Table 16.2); a PREF or a CINV asks for none and never faults (R204, R205). -/
inductive Access where
  | read | write | fetch | rw | quiet
deriving DecidableEq, Repr

/-- Code of an access kind in a walk's requester list. -/
def Access.code : Access → Nat
  | .read => 0 | .write => 1 | .fetch => 2 | .rw => 3 | .quiet => 4

/-- The access needs W. -/
def Access.writes : Access → Bool
  | .write | .rw => true
  | _ => false

/-- An entry with V = 1 is malformed at a level (R316). -/
def pteBad (e lvl : Nat) : Bool :=
  let reserved := bits e 60 4 ≠ 0 ∨ bits e 52 5 ≠ 0 ∨ bits e 2 4 ≠ 0
  let t := bit e 1
  let span := bits e 57 3
  let hb := bits e 12 4
  let cls := bits e 10 2
  decide reserved || (!t && decide (lvl = 1)) || (t && decide (lvl = 3)) ||
  (t && (decide (span ≠ 0) || decide (hb ≠ 0) || decide (cls ≠ 0) || decide (bits e 6 4 ≠ 0))) ||
  (!t && (decide (9 < hb) || decide (cls = 3))) ||
  (!t && decide (lvl = 2) && (decide (span ≠ 0) || decide (bits e 16 13 ≠ 0))) ||
  (!t && decide (lvl = 3) && (decide (5 < span) || decide (bits e 16 span ≠ 0)))

/-- The leaf that an entry gives for an address: size and physical base of its block (R315). -/
def leafOf (part va e size : Nat) : Leaf :=
  { bad := 0, part := part, va := va / size * size, size := size, pa := bits e 16 36 * 2 ^ 16,
    hb := bits e 12 4, cls := bits e 10 2, x := bit e 9, w := bit e 8, r := bit e 7, u := bit e 6 }

/-- A page-table read may not be made: denied or poisoned (R319). -/
def State.ptFail (s : State) (m part pa : Nat) : Option Nat :=
  if !s.physOk m part false pa then some 6 else if s.poisoned pa then some 7 else none

/-- Address of the entry that a walk reads at a level, of the root table or of the table at `base` (R318). -/
def State.ptAddr (s : State) (m part va lvl base : Nat) : Nat :=
  if lvl = 1 then (s.partEntry m part).root + 8 * bits va 42 13
  else if lvl = 2 then base + 8 * bits va 29 13
  else base + 8 * bits va 16 13

/-- One ReadPT of a walk for partition `part` at module `m` (R318): its result, or the table of the next level. -/
def State.walkStep (s : State) (m part va lvl base : Nat) : WalkRes ⊕ Nat :=
  let a := s.ptAddr m part va lvl base
  match s.ptFail m part a with
  | some k => .inl (.bad k)
  | none =>
    let e := s.rd64 a
    if !bit e 0 then .inl (.notPresent lvl)
    else if pteBad e lvl then .inl (.bad 5)
    else if bit e 1 then .inr (bits e 16 36 * 2 ^ 16)
    else .inl (.leaf (leafOf part va e (if lvl = 2 then 2 ^ 29 else 2 ^ 16 * 2 ^ bits e 57 3)))

/-- The levels of a walk from one on, at one moment. -/
def State.walkFrom (s : State) (m part va : Nat) : Nat → Nat → Nat → WalkRes
  | 0, _, _ => .bad 5
  | n + 1, lvl, base =>
    match s.walkStep m part va lvl base with
    | .inl r => r
    | .inr b => s.walkFrom m part va n (lvl + 1) b

/-- The whole walk of R318, at one moment. -/
def State.walk (s : State) (m part va : Nat) : WalkRes := s.walkFrom m part va 3 1 0

/-- A leaf covers an address of its partition. -/
def Leaf.covers (l : Leaf) (part va : Nat) : Bool :=
  decide (l.part = part) && decide (l.va ≤ va) && decide (va < l.va + l.size)

/-- Physical address of an address in the leaf's block (R315). -/
def Leaf.phys (l : Leaf) (va : Nat) : Nat := l.pa + (va - l.va)

/-- A leaf moved to the front of a recency list (R425). -/
def toFront (l : Leaf) (ls : List Leaf) : List Leaf := l :: ls.filter (fun x => decide (x ≠ l))

/-- Install a leaf in the L1 TLB of a core: 64 entries, least recently used replaced (R320, R425). -/
def Core.tlbAdd (c : Core) (l : Leaf) : Core := { c with tlb := (toFront l c.tlb).take 64 }

/-- Install a leaf in the L2 TLB of a cluster, in the set of the granule that missed (R425). -/
def Cluster.tlbAdd (k : Cluster) (va : Nat) (l : Leaf) : Cluster :=
  let i := bits va 16 8
  { k with tlb := FMap.put [] k.tlb i ((toFront l (FMap.get [] k.tlb i)).take 8) }

/-- Look an address up for context `w`: the leaves its instruction holds, the L1 TLB, then the L2 TLB (R318). The state
returned has the recency and the L1 fill of a hit. -/
def State.lookup (s : State) (w va : Nat) : State × Option Leaf :=
  let c := s.ctx w
  match c.xlate.find? (fun l => l.covers c.part va) with
  | some l => (s, some l)
  | none =>
    let gc := coreOf w
    match (s.core gc).tlb.find? (fun l => l.covers c.part va) with
    | some l => (s.onCore gc (fun k => k.tlbAdd l), some l)
    | none =>
      match (FMap.get [] (s.clu (cluOf gc)).tlb (bits va 16 8)).find? (fun l => l.covers c.part va) with
      | some l => ((s.onClu (cluOf gc) (fun k => k.tlbAdd va l)).onCore gc (fun k => k.tlbAdd l), some l)
      | none => (s, none)

/-- First permission that a leaf lacks, as the cause of R322: malformed or walk failure, then user, fetch, read, write. -/
def Leaf.lacks (l : Leaf) (a : Access) (supv : Bool) : Option Nat :=
  if l.bad ≠ 0 then some (min l.bad 6)
  else if !supv && !l.u then some 4
  else if decide (a = .fetch) && !l.x then some 3
  else if (decide (a = .read) || decide (a = .rw)) && !l.r then some 1
  else if a.writes && !l.w then some 2
  else none

/-- Start or join a walk for context `w` (R320). -/
def State.startWalk (s : State) (w va : Nat) (a : Access) : State :=
  let c := s.ctx w
  let g := va / 2 ^ 16
  let s1 := s.onCtx w (fun c => { c with phase := .waitWalk })
  let k := s1.clu (cluOf (coreOf w))
  let req := (w, a.code, va, c.fid)
  if k.walks.any (fun x => decide (x.part = c.part) && decide (x.gran = g)) then
    let ws := k.walks.map (fun x => if x.part = c.part ∧ x.gran = g then { x with reqs := x.reqs ++ [req] } else x)
    s1.setClu (cluOf (coreOf w)) { k with walks := ws }
  else
    let x : WalkReq := { uid := s.uid, part := c.part, gran := g, reqs := [req] }
    (s1.setClu (cluOf (coreOf w)) { k with walks := k.walks ++ [x] }).fresh

/-- Fault-buffer entry in numeric order of the slots 0 to 7: the first free one. -/
def freeEntry (b : FMap FltEnt) : Nat → Nat → Option Nat
  | 0, _ => none
  | n + 1, i => if (FMap.find b i).isNone then some i else freeEntry b n (i + 1)

/-- Insert a not-present result for one requester (R324). -/
def State.faultInsert (s : State) (w va lvl : Nat) (a : Nat) : State :=
  let gc := coreOf w
  let c := s.ctx w
  let cl := cluOf gc
  let k := { s.clu cl with insAt := some s.now }
  let wr := decide (a = 1) || decide (a = 3)
  let fx := decide (a = 2)
  let vpn := va / 2 ^ 16
  match k.fbuf.find? (fun e => decide (e.2.part = c.part) && decide (e.2.vpn = vpn)) with
  | some (i, e) =>
    let e' := { e with count := min (e.count + 1) 65535, wr := e.wr || wr, fx := e.fx || fx }
    s.setClu cl { k with fbuf := FMap.set k.fbuf i e' }
  | none =>
    match freeEntry k.fbuf 8 0 with
    | some i =>
      let e : FltEnt := { order := k.farr, part := c.part, vpn := vpn, lvl := lvl, wr := wr, fx := fx,
                          count := 1, aid := c.aid, core := gc % 8, ctx := w % 4 }
      s.setClu cl { k with fbuf := FMap.set k.fbuf i e, farr := k.farr + 1 }
    | none => s.setClu cl { k with drop := if k.drop.contains c.part then k.drop else c.part :: k.drop }

end Sys2Proof.Machine
end

