-- ==== Sys2Proof/Machine/Packets.lean ====
section
/-! DEFINITION. Packets, mailboxes and placement: the header (R226), the ring of a mailbox (R231, R232), the Actor Placement
Table and its caches (R300, R301), and the Pool Table (R305). -/

namespace Sys2Proof.Machine

/-! ### Header fields (Table 12.2) -/

/-- Word `k` of a packet as a number. -/
def Pkt.word (p : Pkt) (k : Nat) : Nat := (p.getD k 0).toNat
/-- Kind (Table 12.3). -/
def Pkt.kind (p : Pkt) : Nat := bits (Pkt.word p 0) 4 4
/-- Destination mailbox. -/
def Pkt.mb (p : Pkt) : Nat := bits (Pkt.word p 0) 8 2
/-- Successor entries. -/
def Pkt.nsucc (p : Pkt) : Nat := bits (Pkt.word p 0) 12 4
/-- Destination handle. -/
def Pkt.dest (p : Pkt) : Nat := bits (Pkt.word p 0) 16 24
/-- Pool id. -/
def Pkt.pool (p : Pkt) : Nat := bits (Pkt.word p 0) 40 16
/-- The packet names a reply mailbox. -/
def Pkt.rv (p : Pkt) : Bool := bit (Pkt.word p 0) 56
/-- Sent by a supervisor firing, an ACTIVATE run or Patrol. -/
def Pkt.sup (p : Pkt) : Bool := bit (Pkt.word p 0) 58
/-- Sender handle. -/
def Pkt.sender (p : Pkt) : Nat := bits (Pkt.word p 1) 0 24
/-- Reply mailbox. -/
def Pkt.rmb (p : Pkt) : Nat := bits (Pkt.word p 1) 24 2
/-- Sender sequence. -/
def Pkt.seq (p : Pkt) : Nat := bits (Pkt.word p 1) 32 32
/-- Message id (R227). -/
def Pkt.msgId (p : Pkt) : Nat := Pkt.sender p * 2 ^ 32 + Pkt.seq p
/-- A length code as 16-byte units: 0 gives 16 (R226). -/
def unitsOf (code : Nat) : Nat := if code = 0 then 16 else code
/-- Length in 16-byte units. -/
def Pkt.units (p : Pkt) : Nat := unitsOf (bits (Pkt.word p 0) 0 4)
/-- The packet with its sequence filled in at publication (R227), NEWSEQ as given (R235). -/
def Pkt.withSeq (p : Pkt) (seq : Nat) (newSeq : Bool) : Pkt :=
  match p with
  | w0 :: w1 :: r =>
    (if newSeq then w0 ||| BitVec.ofNat 64 (2 ^ 57) else w0) :: BitVec.ofNat 64 (setBits w1.toNat 32 32 seq) :: r
  | _ => p
/-- The packet with NEWSEQ set (R235). -/
def Pkt.withNew (p : Pkt) : Pkt :=
  match p with
  | w0 :: r => (w0 ||| BitVec.ofNat 64 (2 ^ 57)) :: r
  | _ => p
/-- A packet as `n` words, padded with zeros (R229). -/
def Pkt.pad (p : Pkt) (n : Nat) : Pkt := p ++ List.replicate (n - p.length) 0
/-- The bytes of a packet. -/
def Pkt.bytes (p : Pkt) : List Byte := p.flatMap (fun w => leBytes 8 w.toNat)
/-- Words of a byte list. -/
def wordsOf : Nat → List Byte → Pkt
  | 0, _ => []
  | n + 1, bs => BitVec.ofNat 64 (leNat (bs.take 8)) :: wordsOf n (bs.drop 8)
/-- `n` words of memory as packet words. -/
def State.rdWords (s : State) (pa n : Nat) : Pkt := (List.range n).map (fun i => BitVec.ofNat 64 (s.rd64 (pa + 8 * i)))
/-- Write packet words to memory. -/
def State.wrWords (s : State) (pa : Nat) : Pkt → State
  | [] => s
  | w :: ws => ((s.wr64 pa w.toNat).heal pa 8).wrWords (pa + 8) ws

/-- The message path writes a packet at a local address (R173). -/
def State.putPkt (s : State) (gc a : Nat) (p : Pkt) : State := (s.wrWords (localPA gc a) p).grant gc a (8 * p.length) reqMsg

/-! ### Descriptors and mailboxes -/

/-- Physical address of word `k` of a descriptor (R302). -/
def descPA (gc slot k : Nat) : Nat := localPA gc (descLocal slot + 8 * k)
/-- Word `k` of a descriptor. -/
def State.desc (s : State) (gc slot k : Nat) : Nat := s.rd64 (descPA gc slot k)
/-- Write word `k` of a descriptor. -/
def State.setDesc (s : State) (gc slot k v : Nat) : State := s.wr64 (descPA gc slot k) v
/-- Handle of the actor of a slot. -/
def State.handleOf (s : State) (gc slot : Nat) : Nat := bits (s.desc gc slot 0) 0 24
/-- Scheduler record of a slot. -/
def State.sched (s : State) (gc slot : Nat) : Sched := FMap.get {} (s.core gc).sched slot
/-- Write the scheduler record of a slot. -/
def State.setSched (s : State) (gc slot : Nat) (x : Sched) : State :=
  s.onCore gc (fun c => { c with sched := FMap.set c.sched slot x })

/-- Places in the order of R255 of the events of one actor in one cycle, with the choice after all of them (R254). -/
def evFence : Nat := 1
/-- EVICT. -/
def evEvict : Nat := 2
/-- The release of a hold. -/
def evRelease : Nat := 3
/-- The arrival of a packet. -/
def evArrival : Nat := 4
/-- The end of a firing. -/
def evEnd : Nat := 5
/-- The choice of its next firing. -/
def evChoice : Nat := 6

/-- An event of place `n` would come behind a later one of this cycle (R255). -/
def State.late (s : State) (gc slot n : Nat) : Bool :=
  let x := (s.sched gc slot).event
  decide (x.1 = s.now) && decide (n < x.2)

/-- Record an event of an actor. -/
def State.happens (s : State) (gc slot n : Nat) : State := s.setSched gc slot { s.sched gc slot with event := (s.now, n) }

/-- A mailbox: its configuration and state words (Tables 12.4 and 12.5). -/
structure MBox where
  en    : Bool
  prio  : Nat
  units : Nat
  depth : Nat
  base  : Nat
  hint  : Nat
  head  : Nat
  count : Nat
  rsv   : Nat
deriving DecidableEq, Repr

/-- Mailbox `m` of the actor in a slot. -/
def State.mbox (s : State) (gc slot m : Nat) : MBox :=
  let c := s.desc gc slot (2 + m)
  let t := s.desc gc slot (6 + m)
  { en := bit c 0, prio := bits c 4 2, units := unitsOf (bits c 8 4), depth := bits c 16 8 + 1,
    base := bits c 24 16 * 16, hint := bits c 48 16, head := bits t 0 8, count := bits t 9 9, rsv := bits t 18 3 }

/-- Write the state word of a mailbox. -/
def State.setMbox (s : State) (gc slot m : Nat) (b : MBox) : State :=
  s.setDesc gc slot (6 + m) (b.head % 256 + b.count % 512 * 2 ^ 9 + b.rsv % 8 * 2 ^ 18)

/-- Local address of entry `i` of a mailbox. -/
def MBox.entry (b : MBox) (i : Nat) : Nat := b.base + 16 * b.units * (i % b.depth)

/-- The mailbox is full (R232). -/
def MBox.full (b : MBox) : Bool := decide (b.depth ≤ b.count + b.rsv)

/-- Accept a packet into a mailbox (R232), padded to the mailbox's length. The entry is the one after the newest packet: the oldest
entry, reserved ones included, plus count and rsv; head itself has moved past the reserved entries (DEDUCED, log entry 57). -/
def State.mbPut (s : State) (gc slot m : Nat) (p : Pkt) : State :=
  let b := s.mbox gc slot m
  (s.putPkt gc (b.entry (b.head + b.count)) (Pkt.pad p (2 * b.units))).setMbox gc slot m
    { b with count := b.count + 1 }

/-- Remove `n` packets from the head of a mailbox and keep their entries reserved (R232). -/
def State.mbTake (s : State) (gc slot m n : Nat) : State × List Pkt :=
  let b := s.mbox gc slot m
  let ps := (List.range n).map (fun i => s.rdWords (localPA gc (b.entry (b.head + i))) (2 * b.units))
  (s.setMbox gc slot m { b with head := (b.head + n) % b.depth, count := b.count - n, rsv := b.rsv + n }, ps)

/-- Change every mailbox of an actor by `f`. -/
def State.onMboxes (s : State) (gc slot : Nat) (f : MBox → MBox) : State :=
  [0, 1, 2, 3].foldl (fun s m =>
    let b := s.mbox gc slot m
    if b.en then s.setMbox gc slot m (f b) else s) s

/-- Free the reserved entries of an actor's mailboxes (first commit point, R232). -/
def State.mbRelease (s : State) (gc slot : Nat) : State := s.onMboxes gc slot (fun b => { b with rsv := 0 })

/-- Return the reserved entries to the heads of their mailboxes (abort, R232). -/
def State.mbReturn (s : State) (gc slot : Nat) : State :=
  s.onMboxes gc slot (fun b =>
    { b with head := (b.head + b.depth - b.rsv) % b.depth, count := b.count + b.rsv, rsv := 0 })

/-! ### Placement (R300, R301) -/

/-- Address of a handle's entry, for a handle within the table. -/
def State.aptPA (s : State) (m part h : Nat) : Option Nat :=
  let e := s.partEntry m part
  if e.valid ∧ h ≠ 0 ∧ h < 2 ^ e.aptsz then some (e.apt + 8 * h) else none

/-- A valid entry word: st not 0, reserved bits clear, and st = 1 for a host entry (Table 15.2). -/
def aptValid (e : Nat) : Bool :=
  decide (bits e 62 2 ≠ 0) && decide (bits e 44 17 = 0) &&
  (if bit e 61 then decide (bits e 62 2 = 1) else decide (bits e 25 19 = 0))

/-- The entry word of a handle as the table holds it; 0 for none. -/
def State.aptRead (s : State) (m part h : Nat) : Nat :=
  match s.aptPA m part h with
  | some a => let e := s.rd64 a; if aptValid e then e else 0
  | none => 0

/-- A read of a table word by physical address enters the slice of its home (R183, R425). -/
def State.tableTouch (s : State) (pa : Nat) : State := s.touchSlice (homeOf pa hbPhys) (pa / 64) .dflt

/-- A read of a handle's entry at its home. -/
def State.aptTouch (s : State) (m part h : Nat) : State :=
  match s.aptPA m part h with
  | some a => s.tableTouch a
  | none => s

/-- Look a handle up for the network interface of a core: its cache, then the table, filling the cache when st is 1. -/
def State.place (s : State) (gc part h : Nat) : State × Nat :=
  match FMap.find (s.core gc).plc h with
  | some e => (s, e.toNat)
  | none =>
    let e := s.aptRead (modOf gc) part h
    let s := s.aptTouch (modOf gc) part h
    if bits e 62 2 = 1 then
      (s.onCore gc (fun c =>
        let t := if c.plc.length < 256 then c.plc else c.plc.drop 1
        { c with plc := FMap.set t h (BitVec.ofNat 64 e) }), e)
    else (s, e)

/-- Global core number of an entry. -/
def aptCore (e : Nat) : Nat := bits e 17 8 * 2048 + bits e 6 11
/-- Slot of an entry. -/
def aptSlot (e : Nat) : Nat := bits e 0 6
/-- State of an entry: 1 resident, 2 moving, 3 absent. -/
def aptSt (e : Nat) : Nat := bits e 62 2

/-- Cores of a partition in the pod that hold any state. -/
def State.partCores (s : State) (part : Nat) : List Nat :=
  (s.cores.map (fun x => x.1)).filter (fun gc => decide (s.ownerOf gc = part))

/-- Drop a handle from every placement cache of a partition's cores (R301, R310). -/
def State.dropPlace (s : State) (part h : Nat) : State :=
  (s.partCores part).foldl (fun s gc => s.onCore gc (fun c => { c with plc := FMap.erase c.plc h })) s

/-- Write the state of a handle's entry at its home, unless the word lies in a typed cell, and invalidate the cached copies (R301, R331). -/
def State.setPlace (s : State) (m part h st : Nat) : State :=
  match s.aptPA m part h with
  | some a =>
    let home := homeOf a hbPhys
    (((s.invalidate home (a / 64) none).touchSlice home (a / 64) .dflt).wrPlain a (leBytes 8 (setBits (s.rd64 a) 62 2 st))).1.dropPlace part h
  | none => s

/-! ### Pools (R305) -/

/-- A usable Pool Table entry. Its PC is word 0 whole; a PC that cannot be fetched faults at the fetch (R38, R305). -/
structure PoolEnt where
  pc     : Nat
  reent  : Bool
  prio   : Nat
  budget : Nat
  deq    : Nat
  pkts   : Nat
deriving DecidableEq, Repr

/-- The words of a Pool Table entry as an entry; none when it is not usable. -/
def poolOf (w0 w1 : Nat) : Option PoolEnt :=
  if !bit w1 63 ∨ 16 < bits w1 53 5 ∨ 8 < bits w1 49 4 ∨ bits w1 0 49 ≠ 0 then none
  else some { pc := w0, reent := bit w1 62, prio := bits w1 60 2, budget := bits w1 58 2,
              deq := bits w1 53 5, pkts := bits w1 49 4 }

/-- The words of a pool id as core `gc` sees them: the copy its network interface holds, else the table (R301, R305). -/
def State.poolWords (s : State) (gc part id : Nat) : Nat × Nat :=
  match FMap.find (s.core gc).plcPool id with
  | some x => x
  | none => let b := (s.partEntry (modOf gc) part).pool + 16 * id; (s.rd64 b, s.rd64 (b + 8))

/-- Pool Table entry of a pool id as core `gc` sees it; entry 0 is never read. -/
def State.poolEnt (s : State) (gc part id : Nat) : Option PoolEnt :=
  if id = 0 then none else poolOf (s.poolWords gc part id).1 (s.poolWords gc part id).2

/-- Keep a copy of a usable entry that core `gc` has read, at its home where it held none. -/
def State.poolKeep (s : State) (gc part id : Nat) : State :=
  if (s.poolEnt gc part id).isSome then
    let x := s.poolWords gc part id
    let s := if (FMap.find (s.core gc).plcPool id).isSome then s
      else s.tableTouch ((s.partEntry (modOf gc) part).pool + 16 * id)
    s.onCore gc (fun c =>
      let t := if c.plcPool.length < 256 then c.plcPool else c.plcPool.drop 1
      { c with plcPool := FMap.set t id x })
  else s

end Sys2Proof.Machine
end

