-- ==== Sys2Proof/Machine/Ops.lean ====
section
/-! DEFINITION. What every instruction shares: how it ends (R57, R382), the firing log and its publication (R18, R19, R196,
R214), the end of a firing, and the taking of a fault (R20, R267, R269, R382 to R385). There is no return from a trap:
a held firing starts again from its packets and a parked one from its instruction (R268, R269). -/

namespace Sys2Proof.Machine

/-- A fault of the instruction in progress (Table 20.1). -/
structure Trap where
  code   : Nat
  cls    : Nat
  detail : Nat := 0
  cause  : Nat := 0
  lvl    : Nat := 0
  va     : Word := 0
  mult   : Bool := false
  /-- PC of the causing instruction, for an imprecise fault. -/
  pc     : Option Word := none
  /-- Position of the faulting core in its gang. -/
  gcore  : Nat := 0
deriving DecidableEq, Repr

/-- Why an instruction does not complete now: a fault, or a wait that leaves it to be issued again from `s`. -/
inductive Stop where
  | trap (t : Trap)
  | wait (s : State)
deriving DecidableEq, Repr

/-- The permission fault with a subcause (Table 20.1). -/
def permTrap (sub : Nat) (va : Word) : Trap := { code := 2, cls := 1, detail := sub, va := va }
/-- The permission fault of a translation, with its cause. -/
def xlTrap (cause : Nat) (poison : Bool) (va : Word) : Trap :=
  { code := 2, cls := 1, detail := if poison then 2 ^ 8 else 0, cause := cause, va := va }
/-- The misalignment fault. -/
def alignTrap (va : Word) : Trap := { code := 7, cls := 1, va := va }
/-- The privilege fault of an instruction with this head. -/
def privTrap (head : Nat) (pc : Word) : Trap := { code := 6, cls := 1, detail := head, va := pc }

/-- Slot that a notice of a firing gives: 64 for a pool task (R384). -/
def Ctx.noticeSlot (c : Ctx) : Nat := if c.kind = .pool then poolSlot else c.slot

/-- The instruction in progress of a context, as the origin of what it starts. -/
def State.origin (s : State) (w : Nat) : Origin :=
  let c := s.ctx w
  { w := w, fid := c.fid, aid := c.aid, part := c.part, pc := c.pc, icnt := c.icnt, slot := c.noticeSlot, gidx := c.gidx, gang := c.gang,
    supv := c.supv }

/-! ### Outbound stores -/

/-- The store was published by a commit point (R214): it is no plain local store and no RST. -/
def Pending.published (e : Pending) : Bool := decide (e.via = .home) || decide (e.via = .seg)
/-- The store counts in `st` (R376). -/
def Pending.counted (e : Pending) : Bool := decide (e.via = .home) || decide (e.via = .rst)

/-- Some published store of context `w` named in [lo, hi) is not performed. -/
def State.outstanding (s : State) (w lo hi : Nat) : Bool :=
  s.wq.any (fun e => e.published && decide (e.org.w = w) && decide (lo ≤ e.uid) && decide (e.uid < hi))

/-- Some store of context `w` is not performed. -/
def State.storesOut (s : State) (w : Nat) : Bool := s.wq.any (fun e => decide (e.org.w = w))

/-- Stores of the firing on context `w` that `st` counts, and those that wait to enter it (R210, R376). -/
def State.stOut (s : State) (w : Nat) : Nat :=
  (s.wq.filter (fun e => e.counted && decide (e.org.w = w) && decide (e.org.fid = (s.ctx w).fid))).length

/-- Bring the `st` counter of a context up to date: it never passes 255 (R210). -/
def State.countSt (s : State) (w : Nat) : State := s.onCtx w (fun c => { c with ocSt := min 255 (s.stOut w) })

/-- A store on its way begins: it is named, and queued. -/
def State.sendStore (s : State) (e : Pending) : State := ({ s with wq := s.wq ++ [{ e with uid := s.uid }] }.countSt e.org.w).fresh

/-- A store on its way from the bytes of a log entry or an instruction. -/
def pendingOf (org : Origin) (via : Via) (pa hb cls : Nat) (pol : Policy) (bs : List Byte) (lo grp : Nat) : Pending :=
  { uid := 0, org := org, via := via, pa := pa, hb := hb, cls := cls, pol := pol, bytes := bs, at_ := pa
    full := decide (bs.length = 64), typed := false, after := lo, grp := grp }

/-- Two stores on their way touch a common byte. -/
def Pending.meets (a b : Pending) : Bool := rangesMeet a.pa a.bytes.length b.pa b.bytes.length

/-- Store `x` goes before `e`: to common bytes those of one context keep program order (R213), the published ones of one core the
order of its queue (R212), and those of a gang the order of R193; the plain local stores of a context keep program order (R215). -/
def Pending.ahead (x e : Pending) : Bool :=
  decide (x.uid < e.uid) &&
  ((x.meets e && (decide (x.org.w = e.org.w) ||
      (x.published && e.published && (decide (coreOf x.org.w = coreOf e.org.w) || decide (x.org.fid = e.org.fid))))) ||
   (decide (x.via = .port) && decide (e.via = .port) && decide (x.org.w = e.org.w)))

/-- A published store leaves: a copy of its line in the L1 of its core is updated, and so is a hit of its set (R181, R425). -/
def State.l1Store (s : State) (gc pa : Nat) (pol : Policy) : State :=
  s.onCore gc (fun c => if c.inL1 (pa / 64) then
    { c with l1 := FMap.put [] c.l1 (pa / 64 % 256) (touchSet 4 2 pol (FMap.get [] c.l1 (pa / 64 % 256)) (pa / 64)) } else c)

/-- Publish one logged store of context `w`; `grp` is the mark before it. A store to a state segment is performed at the port in this
cycle (R256), unless it stands behind a mark whose stores are on their way (R216; DEDUCED, log entry 16) or an earlier store to its
bytes is (R213, R214). -/
def State.pubStore (s : State) (w grp : Nat) (org : Origin) (pa hb cls : Nat) (pol : Policy) (bs : List Byte) : State :=
  match s.region pa with
  | .scratch gc a =>
    let e := { pendingOf org .seg pa hb cls pol bs 0 grp with uid := s.uid }
    if s.outstanding w 0 grp || s.wq.any (fun x => x.ahead e) then s.sendStore e else s.portStore w gc a bs
  | _ => (s.l1Store (coreOf w) pa pol).sendStore (pendingOf org .home pa hb cls pol bs 0 grp)

/-- Scope of a mark that orders performed stores (Table 11.1). -/
def scopeShared : Scope → Bool
  | .ctx | .core => false
  | _ => true

/-- Publish a log in order; a mark holds back what comes after it, also in later publications (R214, R216). -/
def State.pubLog (s : State) (w : Nat) : List LogItem → State
  | [] => s
  | .store org _ pa hb cls pol bs :: l => (s.pubStore w (s.ctx w).mark org pa hb cls pol bs).pubLog w l
  | .mark sc :: l => (if scopeShared sc then s.onCtx w (fun c => { c with mark := s.uid }) else s).pubLog w l

/-- Publish the log of one context and empty it. -/
def State.pubCtx (s : State) (w : Nat) : State := (s.pubLog w (s.ctx w).log).onCtx w (fun c => { c with log := [] })

/-! ### Sends -/

/-- Name of the sender of a pair at a core (R235): the actor, or the core for pool firings. -/
def Ctx.pairKey (c : Ctx) (gc sender : Nat) : Nat :=
  if c.kind = .pool then 2 ^ 60 + gc else gc * 2 ^ 24 + sender

/-- Next sequence number of the firing's sender, counted (R227). -/
def State.nextSeq (s : State) (w : Nat) : State × Nat :=
  let c := s.ctx w
  let gc := coreOf w
  if c.kind = .pool then
    let k := s.core gc
    (s.setCore gc { k with poolSeq := (k.poolSeq + 1) % 2 ^ 32 }, k.poolSeq)
  else
    let d := s.desc gc c.slot 1
    (s.setDesc gc c.slot 1 (setBits d 32 32 (bits d 32 32 + 1)), bits d 32 32)

/-- The gate of what the firing on context `w` publishes now: every store its sender has published (R19, R217). -/
def State.gateNow (s : State) (w : Nat) : Gate :=
  let c := s.ctx w
  { fid := c.fid, aid := c.aid, part := c.part, core := coreOf w, gang := c.gang, before := s.uid }

/-- A gate waits for a store: one that was published or sent to its port before the gate, by its sender or by a context whose stores
the sender may have acquired while they were on their way, which are those of its core (R19, R212, R215, R217). -/
def Gate.waitsFor (g : Gate) (x : Pending) : Bool :=
  (x.published || decide (x.via = .port)) && decide (x.uid < g.before) &&
  (decide (x.org.fid = g.fid) || (decide (g.aid ≠ 0) && decide (x.org.aid = g.aid) && decide (x.org.part = g.part)) ||
    decide (coreOf x.org.w = g.core) || (g.gang && decide (leadOf (coreOf x.org.w) = leadOf g.core)))

/-- The stores that a gate waits for are performed. -/
def State.gateClear (s : State) (g : Gate) : Bool := !s.wq.any (fun x => g.waitsFor x)

/-- Publish one filled slot of the send buffer (R227, R235). The packet keeps the name of its slot. -/
def State.pubSend (s : State) (w uid : Nat) (p : Pkt) : State :=
  let c := s.ctx w
  let gc := coreOf w
  let x := s.nextSeq w
  let key := c.pairKey gc (Pkt.sender p)
  let box := Pkt.dest p * 4 + Pkt.mb p
  let isMsg := decide (Pkt.kind p = 0)
  let fresh := isMsg && x.1.pbounce.contains (key, box)
  let p := Pkt.withSeq p x.2 fresh
  let e : NetPkt := { uid := uid, core := gc, part := c.part, w := some w,
                      pair := if isMsg then some (key, box) else none, p := p, tries := 0, st := .ready, redir := false,
                      gate := x.1.gateNow w, nq := false, host := none }
  { x.1 with net := x.1.net ++ [e]
             pbounce := if fresh then x.1.pbounce.filter (fun y => y ≠ (key, box)) else x.1.pbounce }

/-- Publish one written deque entry: it is queued at the bottom, to be delivered once its gate is open, or bounced when its pool has
no entry (R214, R240). -/
def State.pubTask (s : State) (w idx : Nat) (p : Pkt) : State :=
  let c := s.ctx w
  let gc := coreOf w
  let x := s.nextSeq w
  let p := Pkt.withSeq p x.2 false
  match x.1.poolEnt gc c.part (Pkt.pool p) with
  | some _ =>
    ((x.1.poolKeep gc c.part (Pkt.pool p)).putPkt gc (deqLocal idx) p).onCore gc (fun k =>
      { k with deque := k.deque ++ [{ p := p, idx := idx, push := x.1.now, held := none, gate := x.1.gateNow w, from_ := x.1.now + 1 }] })
  | none =>
    let e : NetPkt := { uid := x.1.uid, core := gc, part := c.part, w := none, pair := none, p := p, tries := 0,
                        st := .bounced 7, redir := false, gate := {}, nq := false, host := none }
    { x.1 with net := x.1.net ++ [e], uid := x.1.uid + 1 }

/-- Send-buffer slots of a context, each published one marked (R225). -/
def Slot.sent? : Slot → Slot
  | .filled u _ => .sent u
  | x => x

/-- Insert by name. -/
def insertNamed {α : Type} (x : Nat × α) : List (Nat × α) → List (Nat × α)
  | [] => [x]
  | y :: l => if x.1 ≤ y.1 then x :: y :: l else y :: insertNamed x l

/-- Sort by name. -/
def sortNamed {α : Type} : List (Nat × α) → List (Nat × α)
  | [] => []
  | x :: l => insertNamed x (sortNamed l)

/-- The unpublished packets and tasks of a context in order of issue: name, deque entry of a task, packet. -/
def Ctx.unpublished (c : Ctx) : List (Nat × Option Nat × Pkt) :=
  let a := c.slots.filterMap (fun x => match x with | .filled u p => some (u, none, p) | _ => none)
  let b := c.written.map (fun x => (x.1, some x.2.1, x.2.2))
  sortNamed (a ++ b)

/-- Publish the sends of a context in order of issue. -/
def State.pubSends (s : State) (w : Nat) : List (Nat × Option Nat × Pkt) → State
  | [] => s
  | (u, none, p) :: l => (s.pubSend w u p).pubSends w l
  | (_, some i, p) :: l => (s.pubTask w i p).pubSends w l

/-- The first commit point of a firing: reservations of its mailboxes end, and so does its Return-reserved deque entry
(R20, R232, R258). -/
def State.firstCommit (s : State) (w : Nat) : State :=
  let c := s.ctx w
  if c.done1 then s
  else
    let s := if c.kind = .actor then s.mbRelease (coreOf w) c.slot else s
    s.onCtx w (fun c => { c with done1 := true, retEnt := false })

/-- Publication: the logs of the firing's contexts, then the sends (R19, R193). -/
def State.publish (s : State) (w : Nat) : State :=
  let s := if (s.ctx w).pub then s else s.onCtx w (fun c => { c with pubLo := s.uid })
  let s := (s.members w).foldl (fun s m => s.pubCtx m) s
  let s := s.pubSends w (s.ctx w).unpublished
  let s := if (s.ctx w).pub then s else s.bumpCore (coreOf w) 0x04
  (s.onCtx w (fun c => { c with slots := c.slots.map Slot.sent?, written := [], pub := true })).firstCommit w

/-- The oldest imprecise fault pending on a firing, as the trap that reports it (R382). -/
def State.pendingFault (s : State) (w : Nat) : Option Trap :=
  let l := (s.members w).flatMap (fun m => (s.ctx m).imprec.map (fun f => (m, f)))
  match l.find? (fun x => l.all (fun y => decide (x.2.order ≤ y.2.order))) with
  | none => none
  | some (m, f) => some { code := f.code, cls := 2, detail := f.detail, va := f.va, mult := decide (1 < l.length),
                          pc := some f.pc, gcore := (m - w) / 4 }

/-- A commit point (R19): the publication, or the imprecise fault that takes its place (R382). An instruction that has committed
and waits to be issued again does not commit again. -/
def State.commit (s : State) (w : Nat) : Except Stop State :=
  if (s.ctx w).pub then .ok s
  else match s.pendingFault w with
  | some t => .error (.trap t)
  | none => .ok (s.publish w)

/-- Record an imprecise fault against context `w`, behind those of its firing. -/
def State.record (s : State) (w : Nat) (f : Imprecise) : State :=
  let n := ((s.members (w - 4 * (s.ctx w).gidx)).map (fun m => (s.ctx m).imprec.length)).sum
  s.onCtx w (fun c => { c with imprec := c.imprec ++ [{ f with order := n }] })

/-- Record an imprecise fault against the firing of its causing instruction; false when that firing has ended (R382). -/
def State.imprecise (s : State) (o : Origin) (code detail : Nat) (va : Word) : State × Bool :=
  let c := s.ctx o.w
  let f : Imprecise := { code := code, detail := detail, va := va, pc := o.pc, icnt := o.icnt }
  if c.fid = o.fid ∧ c.kind ≠ .none then (s.record o.w f, true)
  else (s, false)

/-! ### Fault notices (R383 to R385) -/

/-- `%fsyn` of Table 20.2. -/
def fsynOf (t : Trap) (part gang : Bool) (ctx : Nat) (supv held : Bool) : Nat :=
  t.detail % 2 ^ 32 * 2 ^ 32 + (if t.mult then 2 ^ 27 else 0) + t.cause % 8 * 2 ^ 24 + t.lvl % 4 * 2 ^ 22 +
  (if part then 2 ^ 21 else 0) + (if gang then 2 ^ 20 else 0) + t.gcore % 4 * 2 ^ 18 + ctx % 4 * 2 ^ 16 +
  (if supv then 2 ^ 11 else 0) + (if held then 2 ^ 10 else 0) + t.cls % 4 * 2 ^ 8 + t.code % 2 ^ 8

/-- Send a fault notice to the supervisor of a core, or to Patrol (R385). Word 0 names the supervisor's handle. -/
def State.faultNotice (s : State) (gc part : Nat) (patrol eng : Bool) (aid : Nat) (fsyn va pc fmsg w6 w7 : Nat) : State :=
  let p : Pkt := [headWord 7 4 3 (s.supHandle gc) eng false false, BitVec.ofNat 64 aid, BitVec.ofNat 64 fsyn,
    BitVec.ofNat 64 va, BitVec.ofNat 64 pc, BitVec.ofNat 64 fmsg, BitVec.ofNat 64 w6, BitVec.ofNat 64 w7]
  if patrol then s.onMod (modOf gc) (fun m => { m with patrol := m.patrol ++ [{ core := gc, part := part, host := none, p := p }] })
  else s.emit gc part true p

/-- Word 6 of a fault notice. -/
def notice6 (gc slot wslot nmsg : Nat) : Nat :=
  gc % 2048 + gc / 2048 * 2 ^ 11 + slot * 2 ^ 21 + wslot * 2 ^ 28 + nmsg * 2 ^ 31

/-- Message id of the packet in a window slot, 0 when none was consumed. -/
def Ctx.msgIdAt (c : Ctx) (k : Nat) : Nat :=
  match c.msgs[k]? with
  | some p => Pkt.msgId p
  | none => 0

/-! ### The end of a firing -/

/-- Withdraw the lease request of a context, or end its lease (Table 8.1). -/
def State.dropLease (s : State) (w : Nat) : State :=
  s.onClu (cluOf (coreOf w)) (fun k =>
    { k with leaseReq := k.leaseReq.filter (fun x => x.1 ≠ w)
             holder := if k.holder = some w then none else k.holder
             leaseLeft := if k.holder = some w then 0 else k.leaseLeft })

/-- The load copies a line to local memory (R204). -/
def Load.copies (l : Load) : Bool := match l.dst with | .local_ _ => true | _ => false

/-- A copy of a line by the context is not written at the port yet (R204, R206). -/
def State.copying (s : State) (w : Nat) : Bool :=
  (s.ctx w).loads.any Load.copies || s.wq.any (fun e => decide (e.org.w = w) && decide (e.via = .pref))

/-- Free the scratch allocations of a context; one with a local load in flight waits for it, owned by nobody (R206). -/
def State.freeScratch (s : State) (w : Nat) : State :=
  s.onCore (coreOf w) (fun c =>
    { c with sat := if s.copying w then c.sat.map (fun x => if x.2.ctx = some (w % 4) then (x.1, { x.2 with ctx := some (w % 4 + 4) }) else x)
                    else c.sat.filter (fun x => x.2.ctx ≠ some (w % 4)) })

/-- Leave a context free from the next cycle on (R254, R257): what it logged, wrote and filled without publishing is discarded (R267). -/
def State.freeCtx (s : State) (w : Nat) : State :=
  let s := s.freeScratch w
  s.onCtx w (fun c =>
    { c with
      phase := .free, kind := .none, gang := false, log := [], written := [], imprec := [], xlate := [], pub := false
      slots := c.slots.map (fun x => match x with | .filled _ _ => .free | x => x)
      pktB := 0, deqB := 0, retEnt := false, cellDst := .none, from_ := s.now + 1, owed := none
      loads := c.loads.filter Load.copies, mark := 0 })

/-- End a firing on all its contexts (R17). -/
def State.endFiring (s : State) (w : Nat) : State :=
  let c := s.ctx w
  let s := if c.kind = .actor then s.happens (coreOf w) c.slot evEnd else s
  (s.members w).foldl (fun s m => s.freeCtx m) (s.dropLease w)

/-- Number of a deque entry that holds neither a queued nor a written task: the lowest one, for a returned task as well (DESIGN CHOICE, log
entry 77). -/
def State.deqIndex (s : State) (gc : Nat) : Nat :=
  let used := (s.core gc).deque.map (fun t => t.idx) ++
    [0, 1, 2, 3].flatMap (fun x => (s.ctx (4 * gc + x)).written.map (fun e => e.2.1))
  ((List.range 256).find? (fun i => !used.contains i)).getD 0

/-- Put a task on the top of a deque, in a free entry; it may be chosen from cycle `from_` on. -/
def State.pushTop (s : State) (gc : Nat) (p : Pkt) (push from_ : Nat) (held : Option (Nat × Nat)) : State :=
  let i := s.deqIndex gc
  (s.putPkt gc (deqLocal i) p).onCore gc (fun k =>
    { k with deque := { p := p, idx := i, push := push, held := held, from_ := from_ } :: k.deque })

/-- Put the packet of a pool firing back on the top of its core's deque (R261). -/
def State.returnTask (s : State) (w : Nat) (held : Option (Nat × Nat)) : State :=
  match (s.ctx w).msgs with
  | [] => s
  | p :: _ => s.pushTop (coreOf w) p s.now (s.now + 1) held

/-- Why a firing is held after an abort (Table 13.1, R261, R382). -/
inductive Hold where
  | replay (part vpn : Nat)
  | fault
  | none
deriving DecidableEq, Repr

/-- Abort a firing before its first commit point (R267): its packets return, its actor is held as `h` says. -/
def State.abort (s : State) (w : Nat) (h : Hold) : State :=
  let c := s.ctx w
  let gc := coreOf w
  let s := match c.kind with
    | .actor =>
      let s := s.mbReturn gc c.slot
      let x := s.sched gc c.slot
      let leaving := decide (x.st = ActorSt.leaving)
      match h with
      | .replay p v =>
        (s.setSched gc c.slot { x with st := if leaving then ActorSt.leaving else .heldReplay, holdP := p, holdV := v }).setDesc gc c.slot 0
          (setBits (s.desc gc c.slot 0) 59 1 1)
      | .fault =>
        (s.setSched gc c.slot { x with st := if leaving then ActorSt.leaving else .heldFault }).setDesc gc c.slot 0
          (setBits (s.desc gc c.slot 0) 60 1 1)
      | .none => s.setSched gc c.slot { x with st := if leaving then ActorSt.leaving else .idle }
    | .pool =>
      (match h with
      | .replay p v => s.returnTask w (some (p, v))
      | .none => s.returnTask w none
      | .fault => s)
    | _ => s
  (s.bumpCore gc 0x03).endFiring w

/-- End a firing at or after its first commit point: the actor is Idle and what was not published is discarded (R20). -/
def State.cutShort (s : State) (w : Nat) : State :=
  let c := s.ctx w
  let gc := coreOf w
  let s := if c.kind = .actor then
      let x := s.sched gc c.slot
      s.setSched gc c.slot { x with st := if x.st = ActorSt.leaving then ActorSt.leaving else .idle }
    else s
  s.endFiring w

/-- Park a firing in place (R269): every context of it waits for the replay of the page. -/
def State.park (s : State) (w part vpn : Nat) : State :=
  (s.members w).foldl (fun s m => s.onCtx m (fun c =>
    { c with phase := .parked, parkP := part, parkV := vpn, xlate := [] })) (s.dropLease w)

/-- The fault is an uncorrectable error of a register, a tile or a plane, the firing log or a send buffer, after which the firing runs
again; an error that a core reads from its scratchpad (row 2 of Table 20.3) is none of them (R261, R382). -/
def Trap.soft (t : Trap) : Bool := decide (t.code = 0x10) && decide (t.detail % 256 ≠ 2)

/-- The actor or task is held after this fault. -/
def Trap.holds (t : Trap) (c : Ctx) : Bool :=
  if c.done1 then false
  else match c.kind with
    | .actor => !t.soft
    | .pool => decide (t.cls = 0)
    | _ => false

/-- Take a fault of the firing that context `w` leads (R20, R267, R269, R382 to R385). -/
def State.takeTrap (s : State) (w : Nat) (t : Trap) : State :=
  let c := s.ctx w
  let gc := coreOf w
  let fsyn := fsynOf t c.done1 c.gang (w % 4) c.supv (t.holds c)
  let pc := (t.pc.getD c.pc).toNat
  let w7 := if t.cls = 2 then c.pc.toNat else 0
  let s' := if t.cls = 0 then
      (if c.done1 then s.park w c.part (bits t.va.toNat 16 39) else s.abort w (.replay c.part (bits t.va.toNat 16 39)))
    else if c.done1 then s.cutShort w
    else s.abort w (if t.soft then .none else .fault)
  s'.faultNotice gc c.part c.supv false c.aid fsyn t.va.toNat pc (c.msgIdAt 0) (notice6 (gc + t.gcore) c.noticeSlot 0 c.nmsg) w7

/-- Take a precise fault, unless an imprecise one is pending, which then comes first (R386). -/
def State.fault (s : State) (w : Nat) (t : Trap) : State := s.takeTrap w ((s.pendingFault w).getD t)

/-! ### How an instruction ends -/

/-- The context may issue: it is Running, or Starting since an earlier cycle (R249, R257). -/
def Ctx.mayIssue (c : Ctx) : Bool := decide (c.phase = .running) || (decide (c.phase = .starting) && decide (c.cycles ≠ 0))

/-- Complete the instruction of context `w`: each of its contexts moves to its next PC (R38), the translations it held
are let go, and the instructions of the firing are counted (R382). -/
def State.retire (s : State) (w : Nat) : State :=
  (s.members w).foldl (fun s m => s.onCtx m (fun c =>
    { c with pc := c.npc, xlate := [], icnt := c.icnt + 1, pub := false })) s

/-- The step of an instruction of the current context, from what it computed. -/
def finish (s : State) (r : Except Stop State) : Host.Outcome State Fault Refusal :=
  match r with
  | .ok t => .next (t.retire s.cur)
  | .error (.trap t) => .next (s.fault s.cur t)
  | .error (.wait t) => .next t

/-- Run `f` for each context of the current firing in order of `%gidx`; a fault names its core (R29). -/
def eachFrom (f : Nat → State → Except Stop State) : List Nat → Nat → State → Except Stop State
  | [], _, s => .ok s
  | m :: l, i, s =>
    match f m s with
    | .ok t => eachFrom f l (i + 1) t
    | .error (.trap t) => .error (.trap { t with gcore := i })
    | .error (.wait t) => .error (.wait t)

/-- The first of several contexts that has to wait, tried from one state: nothing of the others has then happened. -/
def firstWait (f : Nat → State → Except Stop State) (s : State) : List Nat → Option State
  | [] => none
  | m :: l =>
    match f m s with
    | .error (.wait t) => some t
    | _ => firstWait f s l

/-- An instruction that every context of the firing executes with its own registers (R28); in a gang none of them starts before all can go.
Where several members stop, a member that has to wait comes first, and then the fault of the lowest `%gidx`, R192 ordering the faults of
one core only (DESIGN CHOICE, log entry 76). -/
def each (s : State) (f : Nat → State → Except Stop State) : Host.Outcome State Fault Refusal :=
  match s.members s.cur with
  | [m] => finish s (f m s)
  | ms =>
    match firstWait f s ms with
    | some t => .next t
    | none => finish s (eachFrom f ms 0 s)

/-- An instruction that changes registers only, and completes whatever they hold. -/
def eachCtx (s : State) (f : Ctx → Ctx) : Host.Outcome State Fault Refusal :=
  finish s (.ok ((s.members s.cur).foldl (fun s m => s.onCtx m f) s))

/-- An instruction that issues once, from the lead core (R248). -/
def once (s : State) (f : Nat → State → Except Stop State) : Host.Outcome State Fault Refusal :=
  finish s (f s.cur s)

/-- A privileged instruction (R55): in user mode it raises the privilege fault. -/
def privileged (head : Nat) (f : Nat → State → Except Stop State) (w : Nat) (s : State) : Except Stop State :=
  if (s.ctx w).supv then f w s else .error (.trap (privTrap head (s.ctx w).pc))

end Sys2Proof.Machine
end

