-- ==== Sys2Proof/Machine/Operands.lean ====
section
/-! DEFINITION. Operand forms: ReadOp and WriteOp over the register files (R45 to R47, R58, R68 to R71), and the addresses of
memory operands with their checks (R175, R177 to R179, R190 to R193, R322). -/

namespace Sys2Proof.Machine

/-! ### Scalar registers. The table of a context is keyed by the OC7 code of the register. -/

/-- Scalar register with OC7 code `k`. -/
def Ctx.sreg (c : Ctx) (k : Nat) : Word := FMap.get 0 c.sregs k
/-- Write the scalar register with OC7 code `k`. -/
def Ctx.setSreg (c : Ctx) (k : Nat) (v : Word) : Ctx := { c with sregs := FMap.put 0 c.sregs k v }
/-- Push on the scalar last-result file (PushZ, R69). -/
def Ctx.pushZ (c : Ctx) (v : Word) : Ctx :=
  (((c.setSreg 75 (c.sreg 74)).setSreg 74 (c.sreg 73)).setSreg 73 (c.sreg 72)).setSreg 72 v

/-- ReadOp of a scalar source (R58). -/
def Ctx.src (c : Ctx) : Src → Word
  | .s n => c.sreg n.val
  | .o n => c.sreg (64 + n.val)
  | .z n => c.sreg (72 + n.val)
  | .imm v => v.signExtend 64

/-- WriteOp of a scalar destination (R58). -/
def Ctx.dst (c : Ctx) (d : Dst) (v : Word) : Ctx :=
  match d with
  | .s n => c.setSreg n.val v
  | .o n => c.setSreg (64 + n.val) v
  | .z0 => c.pushZ v
  | .discard => c

/-- ReadOp of an optional index operand: 0 when it is absent. -/
def Ctx.srcOr0 (c : Ctx) : Option Src → Word
  | some x => c.src x
  | none => 0

/-- The old value of a destination that the form also reads; z0 reads the old z0 (R201). -/
def Ctx.dstVal (c : Ctx) : Dst → Word
  | .s n => c.sreg n.val
  | .o n => c.sreg (64 + n.val)
  | .z0 => c.sreg 72
  | .discard => 0

/-! ### Vector registers, keyed by VC7 code -/

/-- Vector register with VC7 code `k`. -/
def Ctx.vreg (c : Ctx) (k : Nat) : VWord := FMap.get 0 c.vregs k
/-- Write the vector register with VC7 code `k`. -/
def Ctx.setVreg (c : Ctx) (k : Nat) (v : VWord) : Ctx := { c with vregs := FMap.put 0 c.vregs k v }

/-- A scalar replicated to every lane of `w` bits (R46, R58). -/
def broadcast (w : Nat) (v : Word) : VWord :=
  BitVec.ofNat 512 (ofLanes w (List.replicate (512 / w) (v.toNat % 2 ^ w)))

/-- ReadOp of a vector source in lanes of `w` bits (R58). -/
def Ctx.vsrc (c : Ctx) (w : Nat) : VSrc → VWord
  | .v n => c.vreg n.val
  | .p n => c.vreg (32 + n.val)
  | .y n => c.vreg (40 + n.val)
  | .bc n => broadcast w (c.sreg n.val)

/-- WriteOp of a vector destination; y0 pushes (R58). -/
def Ctx.vdst (c : Ctx) (d : VDst) (v : VWord) : Ctx :=
  match d with
  | .v n => c.setVreg n.val v
  | .p n => c.setVreg (32 + n.val) v
  | .y0 => (c.setVreg 41 (c.vreg 40)).setVreg 40 v

/-- The value a vector destination holds before the instruction; y0 stands for the newest result (R69). -/
def Ctx.vold (c : Ctx) : VDst → VWord
  | .v n => c.vreg n.val
  | .p n => c.vreg (32 + n.val)
  | .y0 => c.vreg 40

/-! ### Masks and bit addresses -/

/-- Mask register; m0 is all ones (R47). -/
def Ctx.mask (c : Ctx) (m : MReg) : Word := if m.val = 0 then BitVec.allOnes 64 else FMap.get 0 c.mregs m.val
/-- Write a mask register; m0 discards (R47). -/
def Ctx.setMask (c : Ctx) (m : MReg) (v : Word) : Ctx :=
  if m.val = 0 then c else { c with mregs := FMap.put 0 c.mregs m.val v }
/-- Element `i` of `w`-bit elements is active (R71); sub-byte types use 8-bit containers. -/
def active (mask : Word) (w i : Nat) : Bool := bit mask.toNat (max 1 (w / 8) * i)
/-- Mask bits of an element result for `w`-bit elements (R71). -/
def maskBits (w i : Nat) (b : Bool) : Nat :=
  if b then (2 ^ max 1 (w / 8) - 1) * 2 ^ (max 1 (w / 8) * i) else 0
/-- Bit-address register. -/
def Ctx.breg (c : Ctx) (k : BReg) : Word := FMap.get 0 c.bregs k.val
/-- Write a bit-address register. -/
def Ctx.setBreg (c : Ctx) (k : BReg) (v : Word) : Ctx := { c with bregs := FMap.put 0 c.bregs k.val v }

/-! ### Resolved bytes -/

/-- Where one byte of an access lies: memory, with the homing block and cache class of its page, or a guard granule. -/
inductive RByte where
  | mem (pa hb cls : Nat)
  | guard (bank off : Nat)
deriving DecidableEq, Repr

/-- Physical address of a resolved byte. -/
def RByte.pa? : RByte → Option Nat
  | .mem pa _ _ => some pa
  | .guard _ _ => none

/-- The byte is in global memory. -/
def State.isGlobal (s : State) (pa : Nat) : Bool :=
  match s.region pa with
  | .scratch _ _ => false
  | _ => true

/-! ### Local addresses (R175, R193) -/

/-- User region of an allocation: the bytes that its owner may reach by local address. A wrap allocation is whole. -/
def Alloc.userBase (a : Alloc) : Nat := if a.guard then a.base + 64 * a.g else a.base
/-- Length of the user region. -/
def Alloc.userLen (a : Alloc) : Nat := if a.guard then a.size else a.reserved

/-- The allocation is owned by the firing's actor or by its context `x` (R177, R190). An entry names its actor by slot number alone, also
where a gang's member meets the entries of its own core (DESIGN CHOICE, log entry 73). -/
def Alloc.ownedBy (a : Alloc) (c : Ctx) (x : Nat) : Bool :=
  match a.ctx with
  | some k => decide (k = x)
  | none => decide (c.kind = .actor) && decide (a.slot = c.slot)

/-- Local rights of a firing at one address (Table 9.3). The state segment of a gang's actor lies in the lead core's scratchpad, below
the system banks of that core (R193). -/
def localOk (c : Ctx) (k : Core) (x : Nat) (write : Bool) (a : Nat) : Bool :=
  c.supv || (decide (c.kind = .actor) && decide (c.sbase ≤ a) && decide (a < c.sbase + c.ssize)) ||
  (if k.sysBase ≤ a then !write && decide (winLocal x ≤ a) && decide (a < winLocal x + 0x400)
   else k.sat.any (fun e => e.2.ownedBy c x && decide (e.2.userBase ≤ a) && decide (a < e.2.userBase + e.2.userLen)))

/-- The core whose scratchpad serves a local address of context `w`: the lead core for the state segment of a gang
actor, otherwise the context's own core (R193). -/
def State.localCore (s : State) (w a : Nat) : Nat :=
  let c := s.ctx w
  let gc := coreOf w
  if c.gang && decide (c.sbase ≤ a) && decide (a < c.sbase + c.ssize) then leadOf gc else gc

/-- A PREF.l of the context has still to write one of these bytes: a later access to it waits (R204, R213). -/
def Ctx.prefOver (c : Ctx) (l : List RByte) : Bool :=
  c.loads.any (fun x => match x.dst with
    | .local_ a => l.any (fun b => match b with | .mem pa _ _ => decide (a ≤ pa) && decide (pa < a + 64) | .guard _ _ => false)
    | _ => false)

/-- The bytes of a local access, once no copy of the context is on its way to one of them. -/
def State.whenCopied (s : State) (w : Nat) (l : List RByte) : Except Stop (List RByte) :=
  if (s.ctx w).prefOver l then .error (.wait s) else .ok l

/-- Resolve `n` bytes at a local address (R190, R191, R175). -/
def State.resolveL (s : State) (w a n align : Nat) (write : Bool) : Except Stop (List RByte) :=
  let va := BitVec.ofNat 64 a
  if a % align ≠ 0 then .error (.trap (alignTrap va))
  else if 0x100000 < a + n then .error (.trap (permTrap 3 va))
  else
    match (List.range n).find? (fun i => !localOk (s.ctx w) (s.core (coreOf w)) (w % 4) write (a + i)) with
    | some _ => .error (.trap (permTrap 1 va))
    | none => s.whenCopied w ((List.range n).map (fun i => .mem (localPA (s.localCore w (a + i)) (a + i)) 0 0))

/-! ### Allocations (R177 to R179) -/

/-- Byte at signed offset `o` of an allocation on core `gc` (R178, R179); none beyond the guards. -/
def Alloc.byteAt (al : Alloc) (gc : Nat) (o : Int) : Option RByte :=
  if al.guard then
    if 0 ≤ o ∧ o < al.size then some (.mem (localPA gc (al.base + 64 * al.g + o.toNat)) 0 0)
    else if -((64 * al.g : Nat) : Int) ≤ o ∧ o < (al.size + 64 * al.g : Nat) then
      some (.guard (al.base / 0x10000) ((al.base + 64 * al.g + o).toNat % 0x10000))
    else none
  else some (.mem (localPA gc (al.base + (o % (al.reserved : Nat)).toNat)) 0 0)

/-- The allocation that an `.a` base names, when the firing may use it (R190). -/
def State.allocOf (s : State) (w : Nat) (base : Word) : Option Alloc :=
  match FMap.find (s.core (coreOf w)).sat (bits base.toNat 59 5) with
  | some al => if (s.ctx w).supv || al.ownedBy (s.ctx w) (w % 4) then some al else none
  | none => none

/-- Resolve `n` bytes at offset `o` of the allocation that `base` names (R190, R191). -/
def State.resolveA (s : State) (w : Nat) (base : Word) (o : Int) (n align : Nat) : Except Stop (List RByte) :=
  if o % (align : Int) ≠ 0 then .error (.trap (alignTrap (BitVec.ofInt 64 o)))
  else match s.allocOf w base with
    | none => .error (.trap (permTrap 2 base))
    | some al =>
      match (List.range n).mapM (fun (i : Nat) => al.byteAt (coreOf w) (o + i)) with
      | some l => s.whenCopied w l
      | none => .error (.trap (permTrap 2 (BitVec.ofInt 64 o)))

/-! ### Global addresses (R313, R317, R318, R322) -/

/-- The granules that `n` bytes from `va` touch. -/
def granules (va n : Nat) : List Nat :=
  (List.range ((va + n - 1) / 2 ^ 16 + 1 - va / 2 ^ 16)).map (fun i => (va / 2 ^ 16 + i) * 2 ^ 16)

/-- Find the leaves of a list of granules of an access at `va`, each held for the instruction; the first miss starts a
walk (R318). -/
def State.leaves (s : State) (w : Nat) (a : Access) (va : Nat) : List Nat → Except Stop (State × List Leaf)
  | [] => .ok (s, [])
  | g :: gs =>
    match s.lookup w g with
    | (s1, some l) =>
      let s2 := s1.onCtx w (fun c => { c with xlate := if c.xlate.contains l then c.xlate else l :: c.xlate })
      match s2.leaves w a va gs with
      | .ok (s3, ls) => .ok (s3, l :: ls)
      | .error e => .error e
    | (s1, none) => .error (.wait (s1.startWalk w (max va g) a))

/-- First address of an access that lies in the granule `g`. -/
def firstIn (va g : Nat) : Nat := max va g

/-- The first of `n` bytes from a physical address that a core-path access may not reach. Outside a control block a granule is
reached whole or not at all (R189). -/
def State.deniedAt (s : State) (w : Nat) (write : Bool) (pa n : Nat) : Option Nat :=
  match s.region pa with
  | .ctl _ _ => (List.range n).find? (fun i => !s.corePhysOk w write (pa + i))
  | _ => if s.corePhysOk w write pa then none else some 0

/-- Permission of each granule's leaf, then of its physical addresses, for the `n` bytes from `va` (R317, R189). -/
def State.leafFault (s : State) (w va n : Nat) (a : Access) : List (Nat × Leaf) → Option Trap
  | [] => none
  | (g, l) :: r =>
    let v := firstIn va g
    match l.lacks a (s.ctx w).supv with
    | some cause => some (xlTrap cause (decide (l.bad = 7)) (BitVec.ofNat 64 v))
    | none =>
      match s.deniedAt w a.writes (l.phys v) (min (va + n) (g + 2 ^ 16) - v) with
      | none => s.leafFault w va n a r
      | some i => some (permTrap 8 (BitVec.ofNat 64 (v + i)))

/-- Translate `n` bytes at a global address without alignment (R313, R317, R322): a leaf is found for every granule below 2^55 before
any permission is judged, since a page that is not present comes first (R192); bytes from 2^55 on are out of range. -/
def State.translate (s : State) (w : Nat) (va n : Nat) (a : Access) : Except Stop (State × List RByte) :=
  if 2 ^ 55 ≤ va then .error (.trap (xlTrap 7 false (BitVec.ofNat 64 va)))
  else
    let gs := granules va (min n (2 ^ 55 - va))
    match s.leaves w a va gs with
    | .error e => .error e
    | .ok (s1, ls) =>
      match s1.leafFault w va n a (gs.zip ls) with
      | some t => .error (.trap t)
      | none =>
        if 2 ^ 55 < va + n then .error (.trap (xlTrap 7 false (BitVec.ofNat 64 (2 ^ 55))))
        else .ok (s1, (List.range n).map (fun i =>
          match ls.find? (fun l => l.covers (s1.ctx w).part (va + i)) with
          | some l => .mem (l.phys (va + i)) l.hb l.cls
          | none => .mem 0 0 0))

/-- Resolve `n` bytes at a global address (R190, R191). -/
def State.resolveG (s : State) (w : Nat) (va n align : Nat) (a : Access) : Except Stop (State × List RByte) :=
  if va % align ≠ 0 then .error (.trap (alignTrap (BitVec.ofNat 64 va))) else s.translate w va n a

/-- Resolve `n` bytes of a memory operand of any space (R190): base register value and index plus displacement. -/
def State.resolve (s : State) (w : Nat) (sp : MSpace) (base : Word) (off : Int) (n align : Nat) (a : Access) :
    Except Stop (State × List RByte) :=
  match sp with
  | .l => match s.resolveL w (wrap 64 (base.toNat + off)) n align a.writes with
    | .ok l => .ok (s, l)
    | .error e => .error e
  | .a => match s.resolveA w base (signed 59 base.toNat + off) n align with
    | .ok l => .ok (s, l)
    | .error e => .error e
  | .g => s.resolveG w (wrap 64 (base.toNat + off)) n align a

/-! ### What a read records (R184, R382, R392) -/

/-- Record an imprecise fault against the instruction in progress of context `w` (R382). -/
def State.note (s : State) (w code detail : Nat) (va : Word) : State :=
  (s.imprecise (s.origin w) code detail va).1

/-- Record consumed poison when a resolved byte lies in a poisoned line (R184), or the uncorrectable error
of a scratchpad word (R392 Table 20.3 row 2). -/
def State.touchPoison (s : State) (w : Nat) (va : Word) (l : List RByte) : State :=
  if l.any (fun b => match b with | .mem pa _ _ => s.badWord pa | .guard _ _ => false) then s.note w 0x10 2 va
  else if l.any (fun b => match b with | .mem pa _ _ => s.poisoned pa | .guard _ _ => false) then s.note w 0x11 0 va else s

/-- A core has read a word of its scratchpad: one with an uncorrectable error is a fault of the reading context (R392 Table 20.3 row 2). -/
def State.readWord (s : State) (w : Nat) (at_ : Option Nat) : State :=
  match at_ with
  | some a => if s.badWord (localPA (coreOf w) a) then s.note w 0x10 2 (BitVec.ofNat 64 a) else s
  | none => s

end Sys2Proof.Machine
end

