-- ==== Sys2Proof/Machine/Regs.lean ====
section
/-! DEFINITION. The registers an instruction names, for the scoreboard (R26, R70), and its issue class (R25). Scalar registers
have their OC7 code, vector registers 128 plus their VC7 code, mask registers 256 plus their number. -/

namespace Sys2Proof.Machine

/-- Registers of an optional operand. -/
def optReg {α : Type} (f : α → List Nat) : Option α → List Nat
  | some x => f x
  | none => []
/-- Register of a scalar source; a last-result position stands for its whole file (R70). -/
def srcReg : Src → List Nat
  | .s n => [n.val] | .o n => [64 + n.val] | .z _ => [72] | .imm _ => []
/-- Register of a scalar destination. -/
def dstReg : Dst → List Nat
  | .s n => [n.val] | .o n => [64 + n.val] | .z0 => [72] | .discard => []
/-- Register of a vector source. -/
def vsrcReg : VSrc → List Nat
  | .v n => [128 + n.val] | .p n => [160 + n.val] | .y _ => [168] | .bc n => [n.val]
/-- Register of a vector destination. -/
def vdstReg : VDst → List Nat
  | .v n => [128 + n.val] | .p n => [160 + n.val] | .y0 => [168]
/-- Registers of a `.raw` operand: the pair from an even register (R195). -/
def rawReg (t : Option Ty) (r : List Nat) : List Nat :=
  match t, r with
  | none, [k] => [k, k + 1]
  | _, r => r
/-- Register pair of a completion action (R277). -/
def actReg : CopyAct → List Nat
  | .none => []
  | .qpub n | .cntadd n | .bytes n => [2 * n.val, 2 * n.val + 1]
/-- Register of a BMOV operand. -/
def bmovReg : BMovArg → List Nat
  | .toB a => srcReg a | .fromB d => dstReg d

/-- The registers an instruction reads or writes. -/
def regsOf : Instr → List Nat
  | .addT1 d a b _ _ => dstReg d ++ srcReg a ++ srcReg b
  | .addT2I d a _ _ _ => dstReg d ++ srcReg a
  | .addT4 d a _ _ _ => dstReg d ++ srcReg a
  | .subT1 d a b _ _ => dstReg d ++ srcReg a ++ srcReg b
  | .subT2I d a _ _ _ => dstReg d ++ srcReg a
  | .subT4 d a _ _ _ => dstReg d ++ srcReg a
  | .mulT1 d a b _ _ => dstReg d ++ srcReg a ++ srcReg b
  | .mulT2I d a _ _ _ => dstReg d ++ srcReg a
  | .mulT4 d a _ _ _ => dstReg d ++ srcReg a
  | .mulhT1 d a b _ => dstReg d ++ srcReg a ++ srcReg b
  | .mulhT2I d a _ _ => dstReg d ++ srcReg a
  | .mulhT4 d a _ _ => dstReg d ++ srcReg a
  | .divT1 d a b _ => dstReg d ++ srcReg a ++ srcReg b
  | .divT2I d a _ _ => dstReg d ++ srcReg a
  | .divT4 d a _ _ => dstReg d ++ srcReg a
  | .remT1 d a b _ => dstReg d ++ srcReg a ++ srcReg b
  | .remT2I d a _ _ => dstReg d ++ srcReg a
  | .remT4 d a _ _ => dstReg d ++ srcReg a
  | .andT1 d a b => dstReg d ++ srcReg a ++ srcReg b
  | .andT2I d a _ => dstReg d ++ srcReg a
  | .andT4 d a _ => dstReg d ++ srcReg a
  | .orT1 d a b => dstReg d ++ srcReg a ++ srcReg b
  | .orT2I d a _ => dstReg d ++ srcReg a
  | .orT4 d a _ => dstReg d ++ srcReg a
  | .xorT1 d a b => dstReg d ++ srcReg a ++ srcReg b
  | .xorT2I d a _ => dstReg d ++ srcReg a
  | .xorT4 d a _ => dstReg d ++ srcReg a
  | .andnT1 d a b => dstReg d ++ srcReg a ++ srcReg b
  | .andnT2I d a _ => dstReg d ++ srcReg a
  | .andnT4 d a _ => dstReg d ++ srcReg a
  | .shlT1 d a b => dstReg d ++ srcReg a ++ srcReg b
  | .shlT2I d a _ => dstReg d ++ srcReg a
  | .shlT4 d a _ => dstReg d ++ srcReg a
  | .shrT1 d a b => dstReg d ++ srcReg a ++ srcReg b
  | .shrT2I d a _ => dstReg d ++ srcReg a
  | .shrT4 d a _ => dstReg d ++ srcReg a
  | .shaT1 d a b => dstReg d ++ srcReg a ++ srcReg b
  | .shaT2I d a _ => dstReg d ++ srcReg a
  | .shaT4 d a _ => dstReg d ++ srcReg a
  | .rolT1 d a b => dstReg d ++ srcReg a ++ srcReg b
  | .rolT2I d a _ => dstReg d ++ srcReg a
  | .rolT4 d a _ => dstReg d ++ srcReg a
  | .clz d a => dstReg d ++ srcReg a
  | .ctz d a => dstReg d ++ srcReg a
  | .popc d a => dstReg d ++ srcReg a
  | .minT1 d a b _ => dstReg d ++ srcReg a ++ srcReg b
  | .minT2I d a _ _ => dstReg d ++ srcReg a
  | .minT4 d a _ _ => dstReg d ++ srcReg a
  | .maxT1 d a b _ => dstReg d ++ srcReg a ++ srcReg b
  | .maxT2I d a _ _ => dstReg d ++ srcReg a
  | .maxT4 d a _ _ => dstReg d ++ srcReg a
  | .sel d a b c => dstReg d ++ srcReg a ++ srcReg b ++ srcReg c
  | .setc _ d a b => dstReg d ++ srcReg a ++ srcReg b
  | .mov d a => dstReg d ++ srcReg a
  | .liT2I d _ => dstReg d
  | .liT4L d _ => dstReg d
  | .ext d a _ _ _ => dstReg d ++ srcReg a
  | .ins d a _ _ => dstReg d ++ srcReg a
  | .fadd _ d a b => dstReg d ++ srcReg a ++ srcReg b
  | .fsub _ d a b => dstReg d ++ srcReg a ++ srcReg b
  | .fmul _ d a b => dstReg d ++ srcReg a ++ srcReg b
  | .fma _ d a b c => dstReg d ++ srcReg a ++ srcReg b ++ srcReg c
  | .fdiv _ d a b => dstReg d ++ srcReg a ++ srcReg b
  | .fsqrt _ d a => dstReg d ++ srcReg a
  | .fmin _ d a b => dstReg d ++ srcReg a ++ srcReg b
  | .fmax _ d a b => dstReg d ++ srcReg a ++ srcReg b
  | .fsetc _ _ d a b => dstReg d ++ srcReg a ++ srcReg b
  | .fcvt _ _ d a => dstReg d ++ srcReg a
  | .fclass _ d a => dstReg d ++ srcReg a
  | .bc _ a b _ _ => srcReg a ++ srcReg b
  | .callT2I d _ _ => dstReg d
  | .callT4 d _ _ => dstReg d
  | .ret a => srcReg a
  | .jmp a => srcReg a
  | .loop d _ _ => dstReg d
  | .vmov d a _ m => vdstReg d ++ vsrcReg a ++ [256 + m.val]
  | .vbcast d a b _ m => vdstReg d ++ vsrcReg a ++ srcReg b ++ [256 + m.val]
  | .vstep d a b _ _ m => vdstReg d ++ srcReg a ++ srcReg b ++ [256 + m.val]
  | .vadd d a b _ _ m => vdstReg d ++ vsrcReg a ++ vsrcReg b ++ [256 + m.val]
  | .vsub d a b _ _ m => vdstReg d ++ vsrcReg a ++ vsrcReg b ++ [256 + m.val]
  | .vmul d a b _ _ m => vdstReg d ++ vsrcReg a ++ vsrcReg b ++ [256 + m.val]
  | .vfma d a b c _ _ m => vdstReg d ++ vsrcReg a ++ vsrcReg b ++ vsrcReg c ++ [256 + m.val]
  | .vmin d a b _ m => vdstReg d ++ vsrcReg a ++ vsrcReg b ++ [256 + m.val]
  | .vmax d a b _ m => vdstReg d ++ vsrcReg a ++ vsrcReg b ++ [256 + m.val]
  | .vabs d a _ _ m => vdstReg d ++ vsrcReg a ++ [256 + m.val]
  | .vand d a b _ m => vdstReg d ++ vsrcReg a ++ vsrcReg b ++ [256 + m.val]
  | .vor d a b _ m => vdstReg d ++ vsrcReg a ++ vsrcReg b ++ [256 + m.val]
  | .vxor d a b _ m => vdstReg d ++ vsrcReg a ++ vsrcReg b ++ [256 + m.val]
  | .vshl d a b _ m => vdstReg d ++ vsrcReg a ++ vsrcReg b ++ [256 + m.val]
  | .vshr d a b _ m => vdstReg d ++ vsrcReg a ++ vsrcReg b ++ [256 + m.val]
  | .vsha d a b _ m => vdstReg d ++ vsrcReg a ++ vsrcReg b ++ [256 + m.val]
  | .vsetc _ d a b _ m => [256 + d.val] ++ vsrcReg a ++ vsrcReg b ++ [256 + m.val]
  | .vsel d a b _ m => vdstReg d ++ vsrcReg a ++ vsrcReg b ++ [256 + m.val]
  | .vcvt d a _ _ _ m => vdstReg d ++ vsrcReg a ++ [256 + m.val]
  | .vpack d a _ _ m => vdstReg d ++ vsrcReg a ++ [256 + m.val]
  | .vunpack d a _ _ m => vdstReg d ++ vsrcReg a ++ [256 + m.val]
  | .vperm d a b _ m => vdstReg d ++ vsrcReg a ++ vsrcReg b ++ [256 + m.val]
  | .vslide d a b c _ m => vdstReg d ++ vsrcReg a ++ vsrcReg b ++ srcReg c ++ [256 + m.val]
  | .vextr d a b _ => dstReg d ++ vsrcReg a ++ srcReg b
  | .vinsr d a b _ => vdstReg d ++ srcReg a ++ srcReg b
  | .vrcp d a _ m => vdstReg d ++ vsrcReg a ++ [256 + m.val]
  | .vrsq d a _ m => vdstReg d ++ vsrcReg a ++ [256 + m.val]
  | .vexp2 d a _ m => vdstReg d ++ vsrcReg a ++ [256 + m.val]
  | .vlog2 d a _ m => vdstReg d ++ vsrcReg a ++ [256 + m.val]
  | .vtanh d a _ m => vdstReg d ++ vsrcReg a ++ [256 + m.val]
  | .vdot d a b _ _ m => vdstReg d ++ vsrcReg a ++ vsrcReg b ++ [256 + m.val]
  | .vsum d a _ _ m => vdstReg d ++ vsrcReg a ++ [256 + m.val]
  | .vrmax d a _ m => vdstReg d ++ vsrcReg a ++ [256 + m.val]
  | .vrmin d a _ m => vdstReg d ++ vsrcReg a ++ [256 + m.val]
  | .vargmax d ix a _ m => vdstReg d ++ [ix.val] ++ vsrcReg a ++ [256 + m.val]
  | .vargmin d ix a _ m => vdstReg d ++ [ix.val] ++ vsrcReg a ++ [256 + m.val]
  | .vtopk d a b _ _ _ m => [128 + 2 * d.val, 129 + 2 * d.val] ++ vsrcReg a ++ srcReg b ++ [256 + m.val]
  | .vxrd d a b _ m => vdstReg d ++ vsrcReg a ++ srcReg b ++ [256 + m.val]
  | .mand a b c => [256 + a.val] ++ [256 + b.val] ++ [256 + c.val]
  | .mor a b c => [256 + a.val] ++ [256 + b.val] ++ [256 + c.val]
  | .mxor a b c => [256 + a.val] ++ [256 + b.val] ++ [256 + c.val]
  | .mnot a b => [256 + a.val] ++ [256 + b.val]
  | .mcnt d b _ => dstReg d ++ [256 + b.val]
  | .mfirst d b _ => dstReg d ++ [256 + b.val]
  | .mlease d a b _ => dstReg d ++ srcReg a ++ srcReg b
  | .mfree a b => srcReg a ++ srcReg b
  | .mcfg a b _ _ _ _ _ _ => srcReg a ++ srcReg b
  | .mloadw _ a b => srcReg a ++ srcReg b
  | .mstream _ _ a b _ _ _ => srcReg a ++ srcReg b
  | .mepi _ _ _ a b _ _ _ => srcReg a ++ srcReg b
  | .maccrd _ d b _ m => vdstReg d ++ srcReg b ++ [256 + m.val]
  | .maccwr _ a b _ m => vsrcReg a ++ srcReg b ++ [256 + m.val]
  | .ldT2 d a c _ t _ _ => rawReg t (dstReg d) ++ srcReg a ++ optReg srcReg c
  | .ldT4 d a c _ t _ _ _ => rawReg t (dstReg d) ++ srcReg a ++ optReg srcReg c
  | .stT2 b a c _ t _ _ => rawReg t (srcReg b) ++ srcReg a ++ optReg srcReg c
  | .stT4 b a c _ t _ _ _ => rawReg t (srcReg b) ++ srcReg a ++ optReg srcReg c
  | .ldvT2 d a c _ _ _ _ m => vdstReg d ++ srcReg a ++ optReg srcReg c ++ [256 + m.val]
  | .ldvT4 d a c _ _ _ _ m _ => vdstReg d ++ srcReg a ++ optReg srcReg c ++ [256 + m.val]
  | .stvT2 b a c _ _ _ _ => vsrcReg b ++ srcReg a ++ optReg srcReg c
  | .stvT4 b a c _ _ _ _ _ => vsrcReg b ++ srcReg a ++ optReg srcReg c
  | .ldx d b c _ _ _ _ m => vdstReg d ++ srcReg b ++ vsrcReg c ++ [256 + m.val]
  | .stx a b c _ _ _ _ m => vsrcReg a ++ srcReg b ++ vsrcReg c ++ [256 + m.val]
  | .bld d _ _ _ => dstReg d
  | .bst a _ _ _ => srcReg a
  | .bmov _ x => bmovReg x
  | .amo _ _ _ _ a b c _ => dstReg a ++ srcReg b ++ srcReg c
  | .acas _ _ _ a b c _ => dstReg a ++ srcReg b ++ srcReg c
  | .pref l a _ => optReg srcReg l ++ srcReg a
  | .cinv a b => srcReg a ++ srcReg b
  | .rst _ a b c _ => srcReg a ++ srcReg b ++ srcReg c
  | .spalloc _ d b c _ _ _ => dstReg d ++ srcReg b ++ [c.val]
  | .spfree a => srcReg a
  | .bfset a b => srcReg a ++ srcReg b
  | .oinit _ _ st a w0 w1 => dstReg st ++ srcReg a ++ srcReg w0 ++ srcReg w1
  | .ofree st a => dstReg st ++ srcReg a
  | .oread _ n b mt => [2 * n.val, 2 * n.val + 1] ++ srcReg b ++ optReg (fun y => [y.val]) mt
  | .cntAdd _ a b c => dstReg a ++ srcReg b ++ srcReg c
  | .cntWait _ _ _ a b c => dstReg a ++ srcReg b ++ srcReg c
  | .barArv _ a b c => dstReg a ++ srcReg b ++ srcReg c
  | .barExp _ a b c => dstReg a ++ srcReg b ++ srcReg c
  | .barWait _ _ a b c => dstReg a ++ srcReg b ++ srcReg c
  | .lckTake _ _ a b => dstReg a ++ srcReg b
  | .lckGive _ a b => dstReg a ++ srcReg b
  | .qRes _ _ a b => dstReg a ++ srcReg b
  | .qPub _ _ a b c => dstReg a ++ srcReg b ++ srcReg c
  | .qAwait _ _ a b => dstReg a ++ srcReg b
  | .qRel _ a b c => dstReg a ++ srcReg b ++ srcReg c
  | .cndWait _ a b c => dstReg a ++ srcReg b ++ srcReg c
  | .cndSig _ a b => dstReg a ++ srcReg b
  | .cndAll _ a b => dstReg a ++ srcReg b
  | .landArm st b idx => dstReg st ++ srcReg b ++ optReg srcReg idx
  | .landOff a _ => srcReg a
  | .landRd n b => [2 * n.val, 2 * n.val + 1] ++ srcReg b
  | .send a b _ _ => srcReg a ++ srcReg b
  | .sendv a b c vp => srcReg a ++ srcReg b ++ srcReg c ++ optReg vsrcReg vp
  | .sendp a b _ _ => srcReg a ++ srcReg b
  | .reply a b _ _ _ _ => srcReg a ++ srcReg b
  | .mpeek _ d b c => dstReg d ++ srcReg b ++ srcReg c
  | .activate a b c e => srcReg a ++ srcReg b ++ srcReg c ++ srcReg e
  | .cpy _ a b c _ _ _ act _ _ => srcReg a ++ srcReg b ++ srcReg c ++ actReg act
  | .cpy2 a b c _ _ _ act _ _ stride => srcReg a ++ srcReg b ++ srcReg c ++ actReg act ++ srcReg stride
  | .cpyx a b c _ _ _ act _ _ list => srcReg a ++ srcReg b ++ srcReg c ++ actReg act ++ srcReg list
  | .fill a b c _ _ act _ => srcReg a ++ srcReg b ++ srcReg c ++ actReg act
  | .bsel a _ => srcReg a
  | .tinj a => srcReg a
  | .text d a _ => dstReg d ++ srcReg a
  | .trap _ a => srcReg a
  | .srd d _ => dstReg d
  | .swr _ a => srcReg a
  | .tlbinv x => optReg (fun y => srcReg y.1 ++ srcReg y.2) x
  | .tlbreplay x => optReg srcReg x
  | .fltpop n => [2 * n.val, 2 * n.val + 1]
  | .plinv x => optReg srcReg x
  | .admitTeam d b c _ => dstReg d ++ srcReg b ++ srcReg c
  | .evict d b => dstReg d ++ srcReg b
  | .moduleReset .. | .l1Invalidate .. | .loadReturn .. | .walk .. | .treeCombine .. | .spillRefill ..
  | .landingAction .. | .landingDeadline .. | .evictSave .. | .backingQueueDrain .. | .dataFrame .. | .ackFrame ..
  | .nakFrame .. | .retransmitTimeout .. | .ackTimer .. | .flowOpen .. | .flowClose .. | .flitReceive ..
  | .linkRetrain .. | .linkDown .. | .treeGroupDisable .. | .leaseQuotaWrite .. | .coreConfigWrite ..
  | .liftQuotaWrite .. | .spillDescWrite .. | .controlRegisterWrite .. | .eccError .. | .brT2I .. | .brT4 ..
  | .mswap .. | .mzero .. | .fence .. | .fencex .. | .waitc .. | .linkRetrained .. | .coreMapWrite ..
  | .partitionTableWrite .. | .treeGroupEnable .. | .instructionFetch | .firingChoice | .activateArrival
  | .packetArrival | .noticeArrival | .refusalResponse | .retryTimer | .acceptanceResponse | .packetInject
  | .homeWrite | .stealSweep | .stealAnswer | .stealReply | .yieldTimer | .killTimer | .fenceTimer
  | .forecastUpdate | .impreciseFaultTaken | .leaseGrant | .leaveGrant | .leaveRelease | .overheatReport
  | .rampWindow | .powerForecastRead | .mloadwRun | .mswapRun | .mstreamRun | .mepiRun | .arrayCommandComplete
  | .epilogueStallFence | .engineCommandDelivery | .engineRetryTimer | .engineCommandStart | .engineCommandComplete
  | .completionAction | .treeFetchBack | .hsuOperation | .spillLineReturn | .withdrawal | .cellResult
  | .landingPoolRetry | .admitRestore | .gangEnter | .gangExit | .perfCounterRead | .perfCounterWrite | .quote
  | .fenceCore | .fin | .commit | .yield | .nop | .brk | .halt | .overheatClear => []

/-- Issue class B of Table 1.3, by major opcode; every other opcode is class A. -/
def classB (head : Nat) : Bool :=
  let op := head / 512
  decide (0x38 ≤ op) && decide (op ≤ 0x7D)

end Sys2Proof.Machine
end

