-- ==== Sys2Proof/Machine/Fetch.lean ====
section
/-! DEFINITION. Instruction fetch (R36 to R41, R57), the scoreboard (R26, R70) and the placing of a first instruction. -/

namespace Sys2Proof.Machine

/-- Addresses and bytes of stores that are not performed, in order. -/
abbrev Stores := List (Nat × List Byte)

/-- A byte as it will stand once some stores have been performed in order: a read-only field keeps what it holds (R7). -/
def State.byteWith (s : State) (q : Stores) (pa : Nat) : Byte :=
  match s.region pa with
  | .ctl _ _ =>
    (q.foldl (fun s x => match s.region x.1 with | .ctl cl off => s.storeCtl cl off 9 x.2 | _ => s) s).rdAny pa
  | .scratch gc a =>
    q.foldl (fun b x => if x.1 ≤ pa ∧ pa < x.1 + x.2.length then s.portByte gc a b (x.2.getD (pa - x.1) 0) else b) (s.rdByte pa)
  | _ => q.foldl (fun b x => if x.1 ≤ pa ∧ pa < x.1 + x.2.length then x.2.getD (pa - x.1) 0 else b) (s.rdByte pa)

/-- The stores on their way that satisfy `p`. -/
def State.storesOf (s : State) (p : Pending → Bool) : Stores := (s.wq.filter p).map (fun e => (e.pa, e.bytes))

/-- The store has entered its core's outbound queue: no more than 254 counted stores of its firing stand before it (R210). -/
def State.entered (s : State) (e : Pending) : Bool :=
  decide ((s.wq.filter (fun x => x.counted && decide (x.org.w = e.org.w) && decide (x.org.fid = e.org.fid) &&
    decide (x.uid < e.uid))).length < 255)

/-- The core's own outbound queue (R212). -/
def State.coreStores (s : State) (gc : Nat) : Stores :=
  s.storesOf (fun e => decide (coreOf e.org.w = gc) && decide (e.via = .home) && s.entered e)

/-- A byte as a core reads it: the newest store in the core's own outbound queue, else what the home holds (R212). -/
def State.coreByte (s : State) (gc pa : Nat) : Byte := s.byteWith (s.coreStores gc) pa

/-- Physical address of the first of some resolved bytes. -/
def firstPa (l : List RByte) : Nat := ((l.head?.bind RByte.pa?).getD 0)

/-- The access of an instruction fetch at the home of its line (R172, R185). -/
def State.fetchHome (s : State) : List RByte → State
  | .mem pa hb cls :: _ => (match s.region pa with | .hbm => s.atHome (homeOf pa hb) (pa / 64) cls .dflt false | _ => s)
  | _ => s

/-- The 64 bytes of the line at `va`, from the fetch buffer, which holds physical lines, or from memory, which fills the buffer and its
slice (R41, R172); a poisoned line that is read is consumed (R184). -/
def State.fetchLine (s : State) (w : Nat) (va : Nat) : Except Stop (State × List Byte) :=
  match s.translate w va 64 .fetch with
  | .error e => .error e
  | .ok (s, bytes) =>
    let gc := coreOf w
    let line := firstPa bytes / 64
    match FMap.find (s.core gc).ibuf line with
    | some bs => .ok (s, bs)
    | none =>
      let bs := bytes.map (fun b => match b with | .mem pa _ _ => s.coreByte gc pa | .guard _ _ => 0)
      .ok (((s.fetchHome bytes).onCore gc (fun c => { c with ibuf := FMap.set c.ibuf line bs })).touchPoison w (BitVec.ofNat 64 va) bytes, bs)

/-- Fetch and split the instruction of context `w`, with the faults of R57 before its own: one of translation names the line (R322),
a denied one the PC (R189). The state returned has the next PC of R38. -/
def State.fetch (s : State) (w : Nat) : Except Stop (State × Nat × Instr) :=
  let pc := (s.ctx w).pc.toNat
  let line := pc / 64 * 64
  let idx := pc % 64
  match s.fetchLine w line with
    | .error (.trap t) => .error (.trap (if t.detail = 8 then { t with va := (s.ctx w).pc } else t))
    | .error (.wait t) => .error (.wait t)
    | .ok (s1, bs) =>
      let slots := slotsOf bs
      if !lineValid slots then
        .error (.trap { code := 4, cls := 1, detail := nth slots 0, va := (s.ctx w).pc })
      else if lineCount slots ≤ idx then .error (.trap { code := 5, cls := 1, va := (s.ctx w).pc })
      else
        let x := lineInstr slots idx
        match decodeInstr x.1 x.2 with
        | .error _ => .error (.trap { code := 3, cls := 1, detail := x.1, va := (s.ctx w).pc })
        | .ok i =>
          let npc := if idx + 1 < lineCount slots then pc + 1 else line + 64
          .ok ((s1.members w).foldl (fun s m => s.onCtx m (fun c => { c with npc := BitVec.ofNat 64 npc })) s1, x.1, i)

/-- Registers that an outstanding load will write (R26, R70). -/
def LoadDst.regs : LoadDst → List Nat
  | .scalar d _ => dstReg d
  | .pair n => [n, n + 1]
  | .vec d _ _ _ => vdstReg d
  | .local_ _ => []

/-- Some context of the firing waits for a load whose register the instruction names. -/
def State.hazard (s : State) (w : Nat) (i : Instr) : Bool :=
  (s.members w).any (fun m => (s.ctx m).loads.any (fun l => l.dst.regs.any (fun r => (regsOf i).contains r)))

/-- Some context of the firing has published stores that have not entered its counter (R210). -/
def State.stFull (s : State) (w : Nat) : Bool := (s.members w).any (fun m => decide (255 < s.stOut m))

/-- An imprecise fault of the firing has reached its 48th later instruction (R382). -/
def State.faultDue (s : State) (w : Nat) : Bool :=
  (s.members w).any (fun m => (s.ctx m).imprec.any (fun f => decide (f.icnt + 48 ≤ (s.ctx m).icnt)))

/-- Physical and virtual address at which a first instruction is placed (DESIGN CHOICE, log entry 1). -/
def firstLine : Nat := 0x10000

/-- Context 0 of core 0 running an ACTIVATE at `firstLine` under the reset budgets, with the line of one instruction there, its page mapped
by a leaf of 512 MiB, and the core owned by partition 0 (DESIGN CHOICE, log entry 1). -/
def State.withLine (s : State) (slots : List Nat) : State :=
  let bs := slots.flatMap (fun x => [BitVec.ofNat 8 x, BitVec.ofNat 8 (x / 256)])
  let leaf : Leaf := { bad := 0, part := 0, va := 0, size := 2 ^ 29, pa := 0, hb := 4, cls := 0, x := true, w := true,
                       r := true, u := true }
  let s := s.wrBytes firstLine bs
  let s := s.onMod 0 (fun m => { m with
    owner := FMap.set m.owner 0 0
    parts := FMap.set m.parts 0 ⟨true, 4, 0x200000, 0x300000, BitVec.allOnes 64, [(0, 0xFFFF, true)], 0x400000⟩ })
  let s := s.onCore 0 (fun c => { c with
    ibuf := FMap.erase c.ibuf (firstLine / 64), tlb := [leaf], usedA := false, usedB := false, issued := [] })
  let s := s.onCtx 0 (fun c => { c with
    pc := BitVec.ofNat 64 firstLine, kind := .activate, phase := .running, part := 0, gang := false, done1 := false,
    imprec := [], icnt := 0, loads := [], ocSt := 0, xlate := [], log := [], slots := List.replicate 8 .free, written := [],
    pktB := 8, deqB := 16, slot := 0, aid := 0, cycles := 0, tYield := 40000, tKill := 400000, tFence := 4000000 })
  { s with agenda := [.issue 0] }

end Sys2Proof.Machine
end

