-- ==== Sys2Proof/Machine/Flags.lean ====
section
/-! DEFINITION. `%fcsr`: the rounding mode and the sticky flags (R75 Table 4.5, R93). The numbers of chapter 05 give flags as a
sum of `fNV` to `fSAT`, which stand in bits 8 to 13 of the register. -/

namespace Sys2Proof.Machine

/-- Rounding mode of a code; 5 to 7 never stand in the register (R75). -/
def rmOf : Nat → RM
  | 1 => .rtz | 2 => .rup | 3 => .rdn | 4 => .rna | _ => .rne

/-- Rounding mode of the context (R75). -/
def Ctx.rm (c : Ctx) : RM := rmOf (bits c.fcsr.toNat 0 3)

/-- OR flags into `%fcsr` (R75). -/
def Ctx.raise (c : Ctx) (flags : Nat) : Ctx := { c with fcsr := c.fcsr ||| BitVec.ofNat 32 (flags % 64 * 2 ^ 8) }

/-- Write a scalar result and its flags. -/
def Ctx.result (c : Ctx) (d : Dst) (v : Word) (flags : Nat) : Ctx := (c.dst d v).raise flags

/-- Union of two sets of flags. -/
def orFlags (a b : Nat) : Nat := a ||| b

/-- The value SWR leaves in `%fcsr`: the flags as written, and the mode unless it is reserved (R75). -/
def fcsrWrite (old : BitVec 32) (v : Word) : BitVec 32 :=
  let m := if bits v.toNat 0 3 ≤ 4 then bits v.toNat 0 3 else bits old.toNat 0 3
  BitVec.ofNat 32 (bits v.toNat 8 6 * 2 ^ 8 + m)

end Sys2Proof.Machine
end

