-- ==== Sys2Proof/Machine/Access.lean ====
section
/-! DEFINITION. What the memory instructions share: reading and storing resolved bytes, the firing log's entries, bank formats
and conversion, and asynchronous loads (R176, R178, R179, R194 to R199, R213, R215). -/

namespace Sys2Proof.Machine

/-! ### Reading -/

/-- The stores of a log, in order (R18). -/
def logStores (l : List LogItem) : Stores :=
  l.filterMap (fun x => match x with | .store _ _ a _ _ _ bs => some (a, bs) | .mark _ => none)

/-- A byte as a context's core path reads it: its log, its own stores on their way, the core's outbound queue, the ordering point
(R213, R212). -/
def State.ownByte (s : State) (w pa : Nat) : Byte :=
  s.byteWith (s.coreStores (coreOf w) ++ s.storesOf (fun e => decide (e.org.w = w) && decide (e.via ≠ .rst)) ++
    logStores (s.ctx w).log) pa

/-- Values of resolved bytes; a guard byte reads 0 (R179). -/
def State.readBytes (s : State) (w : Nat) (l : List RByte) : List Byte :=
  l.map (fun b => match b with | .mem pa _ _ => s.ownByte w pa | .guard _ _ => 0)

/-- Offset in its bank of the lowest guard byte touched, with the bank and the place in the access (R179). -/
def firstGuard : List RByte → Nat → Option (Nat × Nat × Nat)
  | [], _ => none
  | .guard b o :: _, i => some (b, o, i)
  | _ :: l, i => firstGuard l (i + 1)

/-- Record the guard touch of an access at offset `o`, if it made one (R179). -/
def State.touchGuard (s : State) (w : Nat) (o : Int) (l : List RByte) : State :=
  match firstGuard l 0 with
  | some (b, off, i) => s.note w 0x12 (b * 2 ^ 16 + off) (BitVec.ofInt 64 (o + i))
  | none => s

/-- The ports grant a local read its words (R173). -/
def State.grantRead (s : State) (w : Nat) : List RByte → Option Nat → State
  | [], _ => s
  | .guard _ _ :: l, p => s.grantRead w l p
  | .mem pa _ _ :: l, p =>
    if p = some (pa / 16) then s.grantRead w l p
    else match s.region pa with
      | .scratch gc a => (s.grant gc a 1 (w % 4)).grantRead w l (some (pa / 16))
      | _ => s.grantRead w l p

/-- What a local read of resolved bytes records besides its value: a guard touch, the error of a scratchpad word, and the grants
of the port (R173, R179, R392). -/
def State.touchLocal (s : State) (w : Nat) (o : Int) (l : List RByte) : State :=
  ((s.touchGuard w o l).touchPoison w (BitVec.ofInt 64 o) l).grantRead w l none

/-! ### Storing -/

/-- One run of bytes of a store: address as the program gave it, physical address, homing block and cache class of its page, bytes. -/
structure Run where
  va    : Nat
  pa    : Nat
  hb    : Nat
  cls   : Nat
  bytes : List Byte
deriving DecidableEq, Repr

/-- Group the resolved bytes of an access at `va` with their values into runs within 64-byte granules (R196); guard bytes are dropped. -/
def runsOf (va : Nat) : List (RByte × Byte) → List Run
  | [] => []
  | (.guard _ _, _) :: l => runsOf (va + 1) l
  | (.mem pa hb cls, b) :: l =>
    match runsOf (va + 1) l with
    | x :: r => if x.pa = pa + 1 ∧ x.pa / 64 = pa / 64 then ⟨va, pa, hb, cls, b :: x.bytes⟩ :: r else ⟨va, pa, hb, cls, [b]⟩ :: x :: r
    | [] => [⟨va, pa, hb, cls, [b]⟩]

/-- Local address `a` of core `gc` lies in the state segment of the firing that executes on context `w` (R18, R193). -/
def Ctx.inState (c : Ctx) (w gc a : Nat) : Bool :=
  decide (c.kind = .actor) && decide (gc = coreOf w - c.gidx) && decide (c.sbase ≤ a) && decide (a < c.sbase + c.ssize)

/-- Stores held in a log; a mark takes no entry (R216). -/
def logCount (l : List LogItem) : Nat := (l.filter (fun x => match x with | .store .. => true | .mark _ => false)).length

/-- Log one entry; the one that fills the log is a commit point (R19). -/
def State.logStore (s : State) (w : Nat) (pol : Policy) (r : Run) : Except Stop State :=
  let s := s.onCtx w (fun c => { c with log := c.log ++ [.store (s.origin w) r.va r.pa r.hb r.cls pol r.bytes] })
  if logCount (s.ctx w).log < 256 then .ok s else s.commit s.cur

/-- Store runs of bytes: global and state-segment bytes are logged, others are sent to the port (R195, R215). -/
def State.storeRuns (s : State) (w : Nat) (pol : Policy) : List Run → Except Stop State
  | [] => .ok s
  | r :: l =>
    match s.region r.pa with
    | .scratch gc a =>
      if (s.ctx w).inState w gc a then
        match s.logStore w pol r with
        | .ok s => s.storeRuns w pol l
        | .error e => .error e
      else (s.sendStore (pendingOf (s.origin w) .port r.pa r.hb r.cls pol r.bytes 0 0)).storeRuns w pol l
    | _ =>
      match s.logStore w pol r with
      | .ok s => s.storeRuns w pol l
      | .error e => .error e

/-- An outstanding load of the context reads one of these bytes: a later store to it waits (R213). -/
def Ctx.loadOverlaps (c : Ctx) (l : List RByte) : Bool :=
  c.loads.any (fun x => x.addrs.any (fun p => l.any (fun b => decide (b.pa? = some p.1))))

/-- Store values at resolved bytes under a policy; `o` is the offset of the access, for a guard touch. -/
def State.storeAt (s : State) (w : Nat) (o : Int) (l : List RByte) (pol : Policy) (bs : List Byte) : Except Stop State :=
  if (s.ctx w).loadOverlaps l then .error (.wait s)
  else (s.touchGuard w o l).storeRuns w pol (runsOf (wrap 64 o) (l.zip bs))

/-! ### Operands -/

/-- Index and displacement of a memory operand (R190). -/
def Ctx.offset (c : Ctx) (idx : Option Src) (scale : Nat) (disp : Int) : Int :=
  (c.srcOr0 idx).toInt * scale + disp

/-- Scales of LD and ST (R194). -/
def scaleS (sc : Fin 4) : Nat := 2 ^ sc.val
/-- Scales of LDV and STV (R194). -/
def scaleV (sc : Fin 4) : Nat := if sc.val = 0 then 1 else 8 * 2 ^ sc.val
/-- Signed offset of an access in its space, for reports: the `.a` offset or the displaced base. -/
def opOffset (sp : MSpace) (base : Word) (off : Int) : Int :=
  match sp with
  | .a => signed 59 base.toNat + off
  | _ => base.toNat + off

/-- An access of global memory is asynchronous: the load is outstanding until LOAD_RETURN (R26, R213). -/
def State.addLoad (s : State) (w : Nat) (dst : LoadDst) (l : List RByte) (pol : Policy) (va : Word) : State :=
  let ps := l.filterMap (fun b => match b with | .mem pa hb cls => some (pa, hb, effClass cls pol) | .guard _ _ => none)
  let ld : Load := { uid := s.uid, dst := dst, addrs := ps, got := [], pol := pol, org := s.origin w, va := va }
  (s.onCtx w (fun c => { c with loads := c.loads ++ [ld] })).fresh

/-! ### Bank formats (R78, R176, R197) -/

/-- Bank format register `k` of a core; reset raw (R68). -/
def Core.bank (c : Core) (k : Nat) : Nat := (FMap.get 0x1F c.bfmt k).toNat
/-- Element type of a bank format; none for raw. -/
def bankTy (v : Nat) : Option Ty := tyOf (v % 32)
/-- Shift of a bank format. -/
def bankShift (v : Nat) : Int := signed 8 (bits v 16 8)
/-- Rounding of a bank format. -/
def bankRm (v : Nat) : RM := rmOf (bits v 5 3)

/-- Core and bank that an access of context `w` reaches; none in global memory. -/
def State.bankOf (s : State) (w : Nat) (sp : MSpace) (base : Word) (off : Int) : Option (Nat × Nat) :=
  match sp with
  | .g => none
  | .l =>
    let a := wrap 64 (base.toNat + off)
    if a < 0x100000 then some (s.localCore w a, a / 0x10000) else none
  | .a =>
    match s.allocOf w base with
    | some al => some (coreOf w, al.base / 0x10000)
    | none => none

/-- The format value of the bank an access reaches, when it converts: a typed register and a typed bank (R197). Elements of one access
that lie in another bank take the format of the bank of its base too (DESIGN CHOICE, log entry 58). -/
def State.bankFmt (s : State) (w : Nat) (t : Option Ty) (sp : MSpace) (base : Word) (off : Int) : Option Nat :=
  match t, s.bankOf w sp base off with
  | some _, some (gc, k) =>
    let v := (s.core gc).bank k
    if (bankTy v).isSome then some v else none
  | _, _ => none

/-- Width in bits of an element of a bank format. -/
def bankWidth (v : Nat) : Nat := match bankTy v with | some t => t.width | none => 8

/-- Bank element to register lane, and flags (R97, R197). -/
def fromBank (v : Nat) (t : Ty) (rm : RM) (c : Nat) : Nat × Nat :=
  match bankTy v with
  | some b => convert c b (bankShift v) t 0 rm
  | none => (c, 0)

/-- Register lane to bank element, and flags (R97, R197). -/
def toBank (v : Nat) (t : Ty) (c : Nat) : Nat × Nat :=
  match bankTy v with
  | some b => convert c t 0 b (bankShift v) (bankRm v)
  | none => (c, 0)

/-- The largest power of two that divides `b`, at most 16 (R197). -/
def alignOf (b : Nat) : Nat := if b % 16 = 0 then 16 else if b % 8 = 0 then 8 else if b % 4 = 0 then 4 else if b % 2 = 0 then 2 else 1

/-- Elements a converting access moves (R197). -/
def convCount (t : Ty) (v : Nat) : Nat := min (512 / t.width) (512 / bankWidth v)

/-- Width of the register type of LDV and STV: raw moves bytes, and a broadcast scalar that STV.raw stores is repeated byte by byte
(R197; DESIGN CHOICE, log entry 70). -/
def rawWidth (t : Option Ty) : Nat := match t with | some t => t.width | none => 8

end Sys2Proof.Machine
end

