-- ==== Sys2Proof/Machine/LoadStore.lean ====
section
/-! DEFINITION. LD, ST, LDV, STV, LDX, STX, BLD, BST and BMOV (R194 to R200 of spec/10_memory_instr.md). -/

namespace Sys2Proof.Machine

/-! ### LD and ST -/

/-- Bytes and alignment of an LD or ST type; `.raw` moves 16 bytes at 8 (R195). -/
def ldSize (t : Option Ty) : Nat × Nat :=
  match t with
  | some t => (t.width / 8, t.width / 8)
  | none => (16, 8)

/-- Write the value of an LD: extended under R104, or a register pair for `.raw` (R195). -/
def Ctx.ldResult (c : Ctx) (d : Dst) (t : Option Ty) (bs : List Byte) : Ctx :=
  match t with
  | some t => c.dst d (extend t (leNat bs))
  | none =>
    match d with
    | .s n => (c.setSreg n.val (BitVec.ofNat 64 (leNat (bs.take 8)))).setSreg (n.val + 1)
        (BitVec.ofNat 64 (leNat (bs.drop 8)))
    | _ => c

/-- Destination of an outstanding LD. -/
def ldDst (d : Dst) (t : Option Ty) : LoadDst :=
  match t, d with
  | some t, d => .scalar d t
  | none, .s n => .pair n.val
  | none, d => .scalar d .i64

/-- LD (R195): local bytes are bound now, global ones by LOAD_RETURN. -/
def ldOp (d : Dst) (a : Src) (idx : Option Src) (sc : Fin 4) (t : Option Ty) (sp : MSpace) (pol : Policy) (disp : Int)
    (w : Nat) (s : State) : Except Stop State :=
  let c := s.ctx w
  let base := c.src a
  let off := c.offset idx (scaleS sc) disp
  match s.resolve w sp base off (ldSize t).1 (ldSize t).2 .read with
  | .error e => .error e
  | .ok (s, l) =>
    if sp = .g then .ok (s.addLoad w (ldDst d t) l pol (BitVec.ofInt 64 (opOffset sp base off)))
    else
      let bs := s.readBytes w l
      .ok ((s.touchLocal w (opOffset sp base off) l).onCtx w (fun c => c.ldResult d t bs))

/-- ST (R195). -/
def stOp (b a : Src) (idx : Option Src) (sc : Fin 4) (t : Option Ty) (sp : MSpace) (pol : Policy) (disp : Int)
    (w : Nat) (s : State) : Except Stop State :=
  let c := s.ctx w
  let base := c.src a
  let off := c.offset idx (scaleS sc) disp
  match s.resolve w sp base off (ldSize t).1 (ldSize t).2 .write with
  | .error e => .error e
  | .ok (s, l) =>
    let bs := match t, b with
      | none, .s n => leBytes 8 (c.sreg n.val).toNat ++ leBytes 8 (c.sreg (n.val + 1)).toNat
      | _, _ => leBytes (ldSize t).1 (c.src b).toNat
    s.storeAt w (opOffset sp base off) l pol bs

/-- LD without a displacement (R195). -/
def execLdT2 (d : Dst) (a : Src) (idx : Option Src) (sc : Fin 4) (t : Option Ty) (sp : MSpace) (pol : Policy) (s : State) :
    Host.Outcome State Fault Refusal :=
  each s (ldOp d a idx sc t sp pol 0)

/-- LD with a 32-bit displacement (R195). -/
def execLdT4 (d : Dst) (a : Src) (idx : Option Src) (sc : Fin 4) (t : Option Ty) (sp : MSpace) (pol : Policy)
    (disp : BitVec 32) (s : State) : Host.Outcome State Fault Refusal :=
  each s (ldOp d a idx sc t sp pol disp.toInt)

/-- ST without a displacement (R195). -/
def execStT2 (b : Src) (a : Src) (idx : Option Src) (sc : Fin 4) (t : Option Ty) (sp : MSpace) (pol : Policy) (s : State) :
    Host.Outcome State Fault Refusal :=
  each s (stOp b a idx sc t sp pol 0)

/-- ST with a 32-bit displacement (R195). -/
def execStT4 (b : Src) (a : Src) (idx : Option Src) (sc : Fin 4) (t : Option Ty) (sp : MSpace) (pol : Policy)
    (disp : BitVec 32) (s : State) : Host.Outcome State Fault Refusal :=
  each s (stOp b a idx sc t sp pol disp.toInt)

/-! ### LDV and STV -/

/-- Bytes an LDV or STV moves (R197). -/
def vecSize (t : Option Ty) (fmt : Option Nat) : Nat :=
  match t, fmt with
  | some t, some v => ceilDiv (convCount t v * bankWidth v) 8
  | _, _ => 64

/-- The register of an LDV from its bytes: converted or raw, inactive lanes and lanes beyond M kept (R197). -/
def ldvMerge (t : Option Ty) (fmt : Option Nat) (rm : RM) (mask : Word) (old : VWord) (bs : List Byte) : VWord × Nat :=
  let x := leNat bs
  match t, fmt with
  | some t, some v =>
    mergeLanesTo (convCount t v) t.width mask old (fun i => fromBank v t rm (bits x (bankWidth v * i) (bankWidth v)))
  | _, _ => mergeLanesTo (512 / rawWidth t) (rawWidth t) mask old (fun i => (lane (rawWidth t) i x, 0))
where
  /-- Lanes below `n` that are active take `f`; the others keep the old value. -/
  mergeLanesTo (n w : Nat) (mask : Word) (old : VWord) (f : Nat → Nat × Nat) : VWord × Nat :=
    let r := (List.range (512 / w)).map (fun i =>
      if decide (i < n) && active mask w i then f i else (lane w i old.toNat, 0))
    (BitVec.ofNat 512 (ofLanes w (r.map (fun x => x.1))), r.foldl (fun a x => orFlags a x.2) 0)

/-- The bytes of the active lanes of a global LDV, which moves its lanes unchanged (R197). -/
def activeBytes (w : Nat) (mask : Word) (l : List RByte) : List RByte :=
  (List.range l.length).filterMap (fun i => if active mask w (i / (w / 8)) then l[i]? else none)

/-- LDV (R197). -/
def ldvOp (d : VDst) (a : Src) (idx : Option Src) (sc : Fin 4) (t : Option Ty) (sp : MSpace) (pol : Policy) (m : MReg)
    (disp : Int) (w : Nat) (s : State) : Except Stop State :=
  let c := s.ctx w
  let base := c.src a
  let off := c.offset idx (scaleV sc) disp
  let fmt := s.bankFmt w t sp base off
  let n := vecSize t fmt
  match s.resolve w sp base off n (alignOf n) .read with
  | .error e => .error e
  | .ok (s, l) =>
    if sp = .g then
      let rw := rawWidth t
      let act := (List.range (512 / rw)).map (fun i => active (c.mask m) rw i)
      .ok (s.addLoad w (.vec d rw act (c.vold d)) (activeBytes rw (c.mask m) l) pol (BitVec.ofInt 64 (opOffset sp base off)))
    else
      let bs := s.readBytes w l
      .ok ((s.touchLocal w (opOffset sp base off) l).onCtx w (fun c =>
        let r := ldvMerge t fmt c.rm (c.mask m) (c.vold d) bs
        (c.vdst d r.1).raise r.2))

/-- The bytes of an STV and its flags (R197). -/
def stvBytes (t : Option Ty) (fmt : Option Nat) (v : VWord) : List Byte × Nat :=
  match t, fmt with
  | some t, some f =>
    let r := (List.range (convCount t f)).map (fun i => toBank f t (lane t.width i v.toNat))
    (leBytes (vecSize (some t) (some f)) (ofLanes (bankWidth f) (r.map (fun x => x.1))),
      r.foldl (fun a x => orFlags a x.2) 0)
  | _, _ => (leBytes 64 v.toNat, 0)

/-- STV (R197). The access reaches its bank's port at issue, and takes the bank's format there (R18, R79; DEDUCED, log entry 58). -/
def stvOp (b : VSrc) (a : Src) (idx : Option Src) (sc : Fin 4) (t : Option Ty) (sp : MSpace) (pol : Policy) (disp : Int)
    (w : Nat) (s : State) : Except Stop State :=
  let c := s.ctx w
  let base := c.src a
  let off := c.offset idx (scaleV sc) disp
  let fmt := s.bankFmt w t sp base off
  let n := vecSize t fmt
  match s.resolve w sp base off n (alignOf n) .write with
  | .error e => .error e
  | .ok (s, l) =>
    let r := stvBytes t fmt (c.vsrc (rawWidth t) b)
    match s.storeAt w (opOffset sp base off) l pol r.1 with
    | .error e => .error e
    | .ok s => .ok (s.onCtx w (fun c => c.raise r.2))

/-- LDV without a displacement (R197). -/
def execLdvT2 (d : VDst) (a : Src) (idx : Option Src) (sc : Fin 4) (t : Option Ty) (sp : MSpace) (pol : Policy) (m : MReg)
    (s : State) : Host.Outcome State Fault Refusal :=
  each s (ldvOp d a idx sc t sp pol m 0)

/-- LDV with a 32-bit displacement (R197). -/
def execLdvT4 (d : VDst) (a : Src) (idx : Option Src) (sc : Fin 4) (t : Option Ty) (sp : MSpace) (pol : Policy) (m : MReg)
    (disp : BitVec 32) (s : State) : Host.Outcome State Fault Refusal :=
  each s (ldvOp d a idx sc t sp pol m disp.toInt)

/-- STV without a displacement (R197). -/
def execStvT2 (b : VSrc) (a : Src) (idx : Option Src) (sc : Fin 4) (t : Option Ty) (sp : MSpace) (pol : Policy)
    (s : State) : Host.Outcome State Fault Refusal :=
  each s (stvOp b a idx sc t sp pol 0)

/-- STV with a 32-bit displacement (R197). -/
def execStvT4 (b : VSrc) (a : Src) (idx : Option Src) (sc : Fin 4) (t : Option Ty) (sp : MSpace) (pol : Policy)
    (disp : BitVec 32) (s : State) : Host.Outcome State Fault Refusal :=
  each s (stvOp b a idx sc t sp pol disp.toInt)

/-! ### LDX and STX (R198, R199) -/

/-- One element of a gather or scatter: lane, byte offset from the base, first bit in that byte, bank format in effect. -/
structure Elem where
  lane : Nat
  off  : Int
  bit  : Nat
  fmt  : Option Nat
deriving DecidableEq, Repr

/-- Width in bits of an element where it lies. -/
def Elem.width (e : Elem) (t : Ty) : Nat := match e.fmt with | some v => bankWidth v | none => t.width
/-- Bytes an element touches. -/
def Elem.size (e : Elem) (t : Ty) : Nat := ceilDiv (e.bit + e.width t) 8
/-- Alignment of an element: its byte width, 1 for sub-byte formats (R198). -/
def Elem.align (e : Elem) (t : Ty) : Nat := if e.width t % 8 = 0 then e.width t / 8 else 1

/-- The active elements of a gather or scatter: the first 16 lanes (R198). -/
def State.elems (s : State) (w : Nat) (t : Ty) (sp : MSpace) (base : Word) (ix : VWord) (sc : Fin 4) (mask : Word) : List Elem :=
  (List.range (min (512 / t.width) 16)).filterMap (fun i =>
    if active mask t.width i then
      let k := signed 32 (lane 32 i ix.toNat)
      if sc.val = 1 then
        let fmt := s.bankFmt w (some t) sp base 0
        let wb : Nat := match fmt with | some v => bankWidth v | none => t.width
        some ⟨i, (k * wb).fdiv 8, ((k * wb) % 8).toNat, fmt⟩
      else
        let off : Int := k * (if sc.val = 0 then 1 else if sc.val = 2 then 16 else 64)
        some ⟨i, off, 0, s.bankFmt w (some t) sp base off⟩
    else none)

/-- Some element is misaligned: the fault of the lowest such lane (R191, R192). -/
def elemMisaligned (t : Ty) (sp : MSpace) (base : Word) (es : List Elem) : Option Trap :=
  match es.find? (fun e => decide (opOffset sp base e.off % (e.align t : Int) ≠ 0)) with
  | some e => some (alignTrap (BitVec.ofInt 64 (opOffset sp base e.off)))
  | none => none

/-- Leaves for every element of a global access, so that a page that is not present comes before a permission (R192). -/
def State.elemLeaves (s : State) (w : Nat) (t : Ty) (base : Word) (acc : Access) : List Elem → Except Stop State
  | [] => .ok s
  | e :: es =>
    let va := wrap 64 (base.toNat + e.off)
    if va < 2 ^ 55 then
      match s.leaves w acc va (granules va (min (e.size t) (2 ^ 55 - va))) with
      | .ok (s, _) => s.elemLeaves w t base acc es
      | .error x => .error x
    else s.elemLeaves w t base acc es

/-- Resolve every element in lane order. -/
def State.elemBytes (s : State) (w : Nat) (t : Ty) (sp : MSpace) (base : Word) (acc : Access) :
    List Elem → Except Stop (State × List (List RByte))
  | [] => .ok (s, [])
  | e :: es =>
    match s.resolve w sp base e.off (e.size t) 1 acc with
    | .error x => .error x
    | .ok (s, l) =>
      match s.elemBytes w t sp base acc es with
      | .error x => .error x
      | .ok (s, ls) => .ok (s, l :: ls)

/-- Every active element of a gather or scatter resolved, with the faults in the order of R192. -/
def State.resolveX (s : State) (w : Nat) (t : Ty) (sp : MSpace) (base : Word) (acc : Access) (es : List Elem) :
    Except Stop (State × List (List RByte)) :=
  match elemMisaligned t sp base es with
  | some x => .error (.trap x)
  | none =>
    if sp = .g then
      match s.elemLeaves w t base acc es with
      | .error x => .error x
      | .ok s => s.elemBytes w t sp base acc es
    else s.elemBytes w t sp base acc es

/-- The lane results of a gather from local memory. -/
def State.gatherLanes (s : State) (w : Nat) (t : Ty) (rm : RM) : List (Elem × List RByte) → List (Nat × Nat × Nat)
  | [] => []
  | (e, l) :: r =>
    let x := bits (leNat (s.readBytes w l)) e.bit (e.width t)
    let y := match e.fmt with | some v => fromBank v t rm x | none => (x, 0)
    (e.lane, y) :: s.gatherLanes w t rm r

/-- What the reads of every element record. -/
def State.touchElems (s : State) (w : Nat) (sp : MSpace) (base : Word) : List (Elem × List RByte) → State
  | [] => s
  | (e, l) :: r => (s.touchLocal w (opOffset sp base e.off) l).touchElems w sp base r

/-- LDX (R198). -/
def ldxOp (d : VDst) (b : Src) (ix : VSrc) (sc : Fin 4) (t : Ty) (sp : MSpace) (pol : Policy) (m : MReg)
    (w : Nat) (s : State) : Except Stop State :=
  let c := s.ctx w
  let base := c.src b
  let es := s.elems w t sp base (c.vsrc 32 ix) sc (c.mask m)
  match s.resolveX w t sp base .read es with
  | .error x => .error x
  | .ok (s, ls) =>
    if sp = .g then
      let act := (List.range (512 / t.width)).map (fun i => decide (i < 16) && active (c.mask m) t.width i)
      .ok (s.addLoad w (.vec d t.width act (c.vold d)) ls.flatten pol base)
    else
      let rs := s.gatherLanes w t c.rm (es.zip ls)
      .ok ((s.touchElems w sp base (es.zip ls)).onCtx w (fun c =>
        let v := rs.foldl (fun x r => setBits x (t.width * r.1) t.width r.2.1) (c.vold d).toNat
        (c.vdst d (BitVec.ofNat 512 v)).raise (rs.foldl (fun a r => orFlags a r.2.2) 0)))

/-- The value of one scattered element put into the bytes it lies in (R84, R199). -/
def State.scatterOne (s : State) (w : Nat) (t : Ty) (sp : MSpace) (pol : Policy) (base : Word) (v : VWord) (e : Elem) (l : List RByte) :
    Except Stop (State × Nat) :=
  let x := lane t.width e.lane v.toNat
  let y := match e.fmt with | some f => toBank f t x | none => (x, 0)
  let old := leNat (s.readBytes w l)
  let s := if e.width t % 8 = 0 then s else s.touchPoison w (BitVec.ofInt 64 (opOffset sp base e.off)) l
  match s.storeAt w (opOffset sp base e.off) l pol (leBytes (e.size t) (setBits old e.bit (e.width t) y.1)) with
  | .error x => .error x
  | .ok s => .ok (s, y.2)

/-- Scatter elements in lane order (R199). -/
def State.scatter (s : State) (w : Nat) (t : Ty) (sp : MSpace) (pol : Policy) (base : Word) (v : VWord) :
    List (Elem × List RByte) → Nat → Except Stop (State × Nat)
  | [], fl => .ok (s, fl)
  | (e, l) :: r, fl =>
    match s.scatterOne w t sp pol base v e l with
    | .error x => .error x
    | .ok (s, f) => s.scatter w t sp pol base v r (orFlags fl f)

/-- STX (R199). -/
def stxOp (a : VSrc) (b : Src) (ix : VSrc) (sc : Fin 4) (t : Ty) (sp : MSpace) (pol : Policy) (m : MReg)
    (w : Nat) (s : State) : Except Stop State :=
  let c := s.ctx w
  let base := c.src b
  let es := s.elems w t sp base (c.vsrc 32 ix) sc (c.mask m)
  match s.resolveX w t sp base .write es with
  | .error x => .error x
  | .ok (s, ls) =>
    if ls.any (fun l => (s.ctx w).loadOverlaps l) then .error (.wait s)
    else
      match s.scatter w t sp pol base (c.vsrc t.width a) (es.zip ls) 0 with
      | .error x => .error x
      | .ok (s, fl) => .ok (s.onCtx w (fun c => c.raise fl))

/-- LDX (R198). -/
def execLdx (d : VDst) (b : Src) (ix : VSrc) (sc : Fin 4) (t : Ty) (sp : MSpace) (pol : Policy) (m : MReg) (s : State) :
    Host.Outcome State Fault Refusal :=
  each s (ldxOp d b ix sc t sp pol m)

/-- STX (R199). -/
def execStx (a : VSrc) (b : Src) (ix : VSrc) (sc : Fin 4) (t : Ty) (sp : MSpace) (pol : Policy) (m : MReg) (s : State) :
    Host.Outcome State Fault Refusal :=
  each s (stxOp a b ix sc t sp pol m)

/-! ### Bit fields (R72, R180, R200) -/

/-- A bit-address register that BLD and BST may use: space `.l` or `.a`, reserved bits 0 (R72). -/
def bitRegOk (r : Word) : Bool := decide (bits r.toNat 62 2 ≤ 1) && decide (bits r.toNat 23 34 = 0)

/-- Byte address or offset of a bit address (R72). -/
def bitByte (r : Word) : Nat := bits r.toNat 3 20
/-- Bit within that byte. -/
def bitBit (r : Word) : Nat := bits r.toNat 0 3

/-- Resolve the bytes of a field of `n` bits (R180). -/
def State.resolveBits (s : State) (w : Nat) (r : Word) (n : Nat) (acc : Access) : Except Stop (List RByte) :=
  if !bitRegOk r then .error (.trap (permTrap 3 r))
  else
    let k := ceilDiv (bitBit r + n) 8
    if bits r.toNat 62 2 = 0 then s.resolveL w (bitByte r) k 1 acc.writes
    else s.resolveA w (BitVec.ofNat 64 (bits r.toNat 57 5 * 2 ^ 59)) (bitByte r) k 1

/-- Advance the bit address by a field width (R72). -/
def bitStep (r : Word) (n : Nat) : Word :=
  BitVec.ofNat 64 (setBits r.toNat 0 23 (bits r.toNat 0 23 + n))

/-- Post-increment of a bit-address register. -/
def Ctx.bitInc (c : Ctx) (k : BReg) (n : Nat) (inc : Bool) : Ctx :=
  if inc then c.setBreg k (bitStep (c.breg k) n) else c

/-- BLD (R200). -/
def execBld (d : Dst) (k : BReg) (w1 : Fin 64) (inc : Bool) (s : State) : Host.Outcome State Fault Refusal :=
  each s fun w s =>
    let r := (s.ctx w).breg k
    let n := w1.val + 1
    match s.resolveBits w r n .read with
    | .error e => .error e
    | .ok l =>
      let x := bits (leNat (s.readBytes w l)) (bitBit r) n
      .ok ((s.touchLocal w (bitByte r) l).onCtx w (fun c => (c.dst d (BitVec.ofNat 64 x)).bitInc k n inc))

/-- BST: the bytes are read and merged now, and the merged bytes are sent to the port or logged, so that a remote write to them in
between is lost (R200). -/
def execBst (a : Src) (k : BReg) (w1 : Fin 64) (inc : Bool) (s : State) : Host.Outcome State Fault Refusal :=
  each s fun w s =>
    let r := (s.ctx w).breg k
    let n := w1.val + 1
    match s.resolveBits w r n .write with
    | .error e => .error e
    | .ok l =>
      let x := setBits (leNat (s.readBytes w l)) (bitBit r) n ((s.ctx w).src a).toNat
      if (s.ctx w).loadOverlaps l then .error (.wait s)
      else
        match (s.touchPoison w (BitVec.ofNat 64 (bitByte r)) l).storeAt w (bitByte r) l .dflt (leBytes l.length x) with
        | .error e => .error e
        | .ok s => .ok (s.onCtx w (fun c => c.bitInc k n inc))

/-- BMOV copies all 64 bits without checks (R200). -/
def execBmov (k : BReg) (x : BMovArg) (s : State) : Host.Outcome State Fault Refusal :=
  eachCtx s fun c =>
    match x with
    | .toB a => c.setBreg k (c.src a)
    | .fromB d => c.dst d (c.breg k)

end Sys2Proof.Machine
end

