-- ==== Sys2Proof/Machine/Atomic.lean ====
section
/-! DEFINITION. AMO, ACAS, RST, FENCE and FENCEX (R201, R202 of spec/10_memory_instr.md; R216, R218, R221 of
spec/11_consistency.md). -/

namespace Sys2Proof.Machine

/-- A store on its way is not performed at a scope (Table 11.1): at the core's own a published global store has been performed once
it has left its context, and an RST reaches the core only when it is its target. -/
def State.unperformed (s : State) (sc : Scope) (e : Pending) : Bool :=
  match sc with
  | .ctx => false
  | .core =>
    (match e.via with
     | .home => false
     | .rst => (match s.region e.pa with | .scratch gc _ => decide (gc = coreOf e.org.w) | _ => false)
     | _ => true)
  | _ => true

/-- Every store that context `w` has sent or published is performed at a scope. -/
def State.stored (s : State) (w : Nat) (sc : Scope) : Bool :=
  !s.wq.any (fun e => decide (e.org.w = w) && s.unperformed sc e)

/-- Every earlier core-path access of context `w` is performed at a scope: its loads are bound and its stores performed. -/
def State.settled (s : State) (w : Nat) (sc : Scope) : Bool := (s.ctx w).loads.isEmpty && s.stored w sc

/-- What a release of context `w` waits for at a scope: its earlier accesses, and every published store of its core, or of its four cores
in a gang. Releases are cumulative, and a store that another context of the core published may have been acquired before it is performed
(R217, R218). -/
def State.mayRelease (s : State) (w : Nat) (sc : Scope) : Bool :=
  s.settled w sc &&
  !s.wq.any (fun e => e.published && (s.members s.cur).any (fun m => decide (coreOf m = coreOf e.org.w)) && s.unperformed sc e)

/-! ### AMO and ACAS (R201) -/

/-- The new value of an AMO (R201). -/
def amoNew (op : AmoOp) (t : AmoTy) (old x : Nat) : Nat :=
  match op with
  | .add => (old + x) % 2 ^ t.width
  | .and => old &&& x
  | .or => old ||| x
  | .xor => old ^^^ x
  | .min => if fromInt t.ty old ≤ fromInt t.ty x then old else x
  | .max => if fromInt t.ty x ≤ fromInt t.ty old then old else x
  | .swap => x

/-- The address of an atomic or RST operand resolved (R190, R201). -/
def State.amoAddr (s : State) (w : Nat) (t : AmoTy) (sp : MSpace) (c : Src) (disp : BitVec 32) :
    Except Stop (State × List RByte) :=
  s.resolve w sp ((s.ctx w).src c) disp.toInt (t.width / 8) (t.width / 8) .rw

/-- Some store of context `w` to one of these bytes, or one that its core has published, is not performed: a later access to the
location keeps program order (R213, R212). -/
def State.storeAhead (s : State) (w : Nat) (l : List RByte) : Bool :=
  s.wq.any (fun e => (decide (e.org.w = w) || (e.published && decide (coreOf e.org.w = coreOf w))) && l.any (fun b => match b with
    | .mem pa _ _ => decide (e.pa ≤ pa) && decide (pa < e.pa + e.bytes.length)
    | .guard _ _ => false))

/-- Bytes as the ordering point of each location holds them (R211); a guard byte reads 0 (R179). -/
def State.homeBytes (s : State) (l : List RByte) : List Byte :=
  l.map (fun b => match b with | .mem pa _ _ => s.rdAny pa | .guard _ _ => 0)

/-- The part of an atomic that comes before its read and write: the address, the commit point, and the wait until it may
act as a release at its scope and follows its context's stores to the location (R201, R213, R218). -/
def amoPrep (t : AmoTy) (sp : MSpace) (sc : Scope) (c : Src) (disp : BitVec 32) (w : Nat) (s : State) :
    Except Stop (State × List RByte) :=
  match s.amoAddr w t sp c disp with
  | .error e => .error e
  | .ok (s, l) =>
    match s.commit s.cur with
    | .error e => .error e
    | .ok s => if s.mayRelease w sc && !s.storeAhead w l then .ok (s, l) else .error (.wait s)

/-- Perform runs of bytes now: at the port, in a control block, or at the home after the other L1 copies are gone (R182). -/
def State.performRuns (s : State) (w : Nat) : List Run → State
  | [] => s
  | r :: l =>
    (match s.region r.pa with
    | .scratch gc a => s.portStore w gc a r.bytes
    | .ctl cl off => s.storeCtl cl off 9 r.bytes
    | _ =>
      let home := homeOf r.pa r.hb
      ((s.invalidate home (r.pa / 64) (some (coreOf w))).atHome home (r.pa / 64) r.cls .dflt true).wrBytes r.pa r.bytes).performRuns w l

/-- The accesses of an atomic at the homes of its bytes, whether or not it writes (R201, R425). -/
def State.touchRuns (s : State) : List Run → State
  | [] => s
  | r :: l => (match s.region r.pa with
    | .hbm => s.atHome (homeOf r.pa r.hb) (r.pa / 64) r.cls .dflt false
    | _ => s).touchRuns l

/-- A resolved byte lies in a typed cell. -/
def State.typedAt (s : State) (l : List RByte) : Bool :=
  l.any (fun b => match b with | .mem pa _ _ => decide ((s.cellTag pa).1 ≠ 0) | .guard _ _ => false)

/-- The indivisible read and write of an atomic with new value `f old` (none writes nothing), and the old value to `a`.
A typed cell is left as it is, no register is written and the imprecise fault is raised (R201). -/
def amoDo (t : AmoTy) (a : Dst) (va : Word) (o : Int) (f : Nat → Option Nat) (w : Nat) (s : State) (l : List RByte) : State :=
  if s.typedAt l then s.note w 0x13 0 va
  else
    let old := leNat (s.homeBytes l)
    let s := (s.touchGuard w o l).touchPoison w va l
    let runs := fun (x : Nat) => runsOf va.toNat (l.zip (leBytes (t.width / 8) x))
    let s := s.touchRuns (runs old)
    let s := match f old with
      | some x => s.performRuns w (runs x)
      | none => s
    s.onCtx w (fun c => c.dst a (extend t.ty old))

/-- An atomic of one context (R201). -/
def amoOp (t : AmoTy) (sp : MSpace) (sc : Scope) (a : Dst) (c : Src) (disp : BitVec 32) (f : Ctx → Nat → Option Nat)
    (w : Nat) (s : State) : Except Stop State :=
  let base := (s.ctx w).src c
  match amoPrep t sp sc c disp w s with
  | .error e => .error e
  | .ok (s, l) =>
    let o := opOffset sp base disp.toInt
    .ok (amoDo t a (BitVec.ofInt 64 o) o (f (s.ctx w)) w s l)

/-- AMO (R201). -/
def execAmo (op : AmoOp) (t : AmoTy) (sp : MSpace) (sc : Scope) (a : Dst) (b c : Src) (disp : BitVec 32) (s : State) :
    Host.Outcome State Fault Refusal :=
  each s (amoOp t sp sc a c disp (fun k old => some (amoNew op t old ((k.src b).toNat % 2 ^ t.width))))

/-- ACAS: a comparison that fails writes nothing (R201). -/
def execAcas (t : AmoTy) (sp : MSpace) (sc : Scope) (a : Dst) (b c : Src) (disp : BitVec 32) (s : State) :
    Host.Outcome State Fault Refusal :=
  each s (amoOp t sp sc a c disp (fun k old =>
    if old = (k.dstVal a).toNat % 2 ^ t.width then some ((k.src b).toNat % 2 ^ t.width) else none))

/-! ### RST (R202) -/

/-- RST: a commit point, then a store on its way to the target port, behind every store that this commit point published; it waits while
`st` is 255 (R376). -/
def rstOp (sz : RstSize) (a b c : Src) (disp : BitVec 32) (w : Nat) (s : State) : Except Stop State :=
  let k := s.ctx w
  let target := k.src a
  let ea := wrap 64 ((k.src c).toNat + disp.toInt)
  if ea % sz.bytes ≠ 0 then .error (.trap (alignTrap (BitVec.ofNat 64 ea)))
  else if target.toNat / 2 ^ 19 ≠ 0 then .error (.trap (permTrap 3 target))
  else if 0x100000 ≤ ea then .error (.trap (permTrap 3 (BitVec.ofNat 64 ea)))
  else
    match s.commit s.cur with
    | .error e => .error e
    | .ok s =>
      if 255 ≤ s.stOut w then .error (.wait s)
      else
        let gc := bits target.toNat 11 8 * 2048 + bits target.toNat 0 11
        .ok (s.sendStore (pendingOf (s.origin w) .rst (localPA gc ea) 0 0 .dflt (leBytes sz.bytes (k.src b).toNat) (s.ctx s.cur).pubLo s.uid))

/-- RST (R202). -/
def execRst (sz : RstSize) (a b c : Src) (disp : BitVec 32) (s : State) : Host.Outcome State Fault Refusal :=
  each s (rstOp sz a b c disp)

/-! ### FENCE and FENCEX (R216, R221) -/

/-- FENCE: the waits of its kind, and the mark in the log (Table 11.2). -/
def execFence (k : FenceKind) (sc : Scope) (s : State) : Host.Outcome State Fault Refusal :=
  each s fun w s =>
    let waitLd := decide (k ≠ .st) && decide (sc ≠ .ctx) && !(s.ctx w).loads.isEmpty
    let waitSt := decide (k ≠ .ld) && !s.stored w sc
    if waitLd || waitSt then .error (.wait s)
    else if k = .ld ∨ sc = .ctx then .ok s
    else .ok (s.onCtx w (fun c => { c with log := c.log ++ [.mark sc] }))

/-- Opcode numbers of the engine commands of a path: copies and fills, or BSEL (R275). -/
def enginePath (p : Path) (e : EngCmd) : Bool :=
  match p with
  | .copy => decide (e.kind ≠ 4)
  | .sel => decide (e.kind = 4)
  | _ => false

/-- Every command that the context issued on a path has completed, with its writes performed at a scope (R221). A tree command completes
at its issue, but for the bytes that a TEXT has on their way to the port. -/
def State.pathDone (s : State) (w : Nat) (sc : Scope) (p : Path) : Bool :=
  match p with
  | .tree => !(s.wq.any (fun e => decide (e.org.w = w) && decide (e.via = .port) && s.unperformed sc e))
  | .tile => !((s.clu (cluOf (coreOf w))).inbox.any (fun x => decide (x.org.w = w)))
  | p => !(s.engines.any (fun e => decide (e.org.w = w) && enginePath p e))

/-- FENCEX (R221). Of the waiting side only the first path matters: what is performed at a scope is performed toward every
path of it. -/
def execFencex (sc : Scope) (src _dst : Path) (s : State) : Host.Outcome State Fault Refusal :=
  each s fun w s =>
    if (if src = .core then s.settled w sc else s.pathDone w sc src) then .ok s else .error (.wait s)

end Sys2Proof.Machine
end

