-- ==== Sys2Proof/Machine/House.lean ====
section
/-! DEFINITION. PREF, CINV, SPALLOC, SPFREE and BFSET (R203 to R208 of spec/10_memory_instr.md). -/

namespace Sys2Proof.Machine

/-- Translate an address for a request that never faults: its leaf, held for the instruction, or none when it has no page. A miss
starts or joins a walk (R204, R205, R318, R320). -/
def State.peek (s : State) (w va : Nat) : Except Stop (State × Option Leaf) :=
  if 2 ^ 55 ≤ va then .ok (s, none)
  else match s.leaves w .quiet va [va / 2 ^ 16 * 2 ^ 16] with
    | .ok (s, l :: _) => .ok (s, if l.bad = 0 then some l else none)
    | .ok (s, []) => .ok (s, none)
    | .error e => .error e

/-! ### PREF (R204) -/

/-- PREF without `.l`: fills the levels the class allows; whatever stands against it drops it. -/
def prefLine (pol : Policy) (va : Nat) (w : Nat) (s : State) : Except Stop State :=
  match s.peek w va with
  | .error e => .error e
  | .ok (s, none) => .ok s
  | .ok (s, some l) =>
    let pa := l.phys va
    if (l.lacks .read (s.ctx w).supv).isSome || !s.corePhysOk w false pa then .ok s
    else .ok (s.loadFill (coreOf w) pa l.hb (effClass l.cls pol) pol)

/-- PREF.l: an asynchronous copy of a published line to local memory, its line filled under the policy. Of two faults of one class that of
`a` comes first (DESIGN CHOICE, log entry 71). -/
def prefLocal (b a : Src) (pol : Policy) (w : Nat) (s : State) : Except Stop State :=
  let c := s.ctx w
  let va := (c.src a).toNat
  let la := c.src b
  if va % 64 ≠ 0 then .error (.trap (alignTrap (c.src a)))
  else if la.toNat % 64 ≠ 0 then .error (.trap (alignTrap la))
  else
    match s.translate w va 64 .read with
    | .error e => .error e
    | .ok (s, l) =>
      match s.resolveL w la.toNat 64 64 true with
      | .error e => .error e
      | .ok m =>
        if 255 ≤ (s.ctx w).ocLd then .error (.wait s)
        else
          let pa := match m with | .mem pa _ _ :: _ => pa | _ => 0
          .ok ((s.addLoad w (.local_ pa) l pol (c.src a)).onCtx w (fun c => { c with ocLd := c.ocLd + 1 }))

/-- PREF (R204). -/
def execPref (l : Option Src) (a : Src) (pol : Policy) (s : State) : Host.Outcome State Fault Refusal :=
  each s fun w s =>
    match l with
    | none => prefLine pol ((s.ctx w).src a).toNat w s
    | some b => prefLocal b a pol w s

/-! ### CINV (R205) -/

/-- Invalidate one line in the L1 and in the fetch buffer, unless its page is not present, its address is out of range
or its physical address lies outside the partition; its home drops the sharer (R205, Table 15.1). -/
def cinvLine (w : Nat) (s : State) (va : Nat) : Except Stop State :=
  match s.peek w va with
  | .error e => .error e
  | .ok (s, none) => .ok s
  | .ok (s, some l) =>
    let pa := l.phys va
    let gc := coreOf w
    if s.corePhysOk w false pa then
      .ok ((s.onCore gc (fun c => { c.dropL1 (pa / 64) with ibuf := FMap.erase c.ibuf (pa / 64) })).dropSharers (homeOf pa l.hb) (pa / 64)
        (fun g => decide (g = gc)))
    else .ok s

/-- Invalidate lines in order. -/
def cinvLines (w : Nat) : List Nat → State → Except Stop State
  | [], s => .ok s
  | va :: l, s =>
    match cinvLine w s va with
    | .ok s => cinvLines w l s
    | .error e => .error e

/-- CINV (R205). -/
def execCinv (a b : Src) (s : State) : Host.Outcome State Fault Refusal :=
  each s fun w s =>
    let va := ((s.ctx w).src a).toNat / 64 * 64
    let n := min ((s.ctx w).src b).toNat 4096
    cinvLines w ((List.range n).map (fun (i : Nat) => wrap 64 (va + 64 * i))) s

/-! ### SPALLOC and SPFREE (R206, R207) -/

/-- Local ranges that an allocation may not overlap: allocations, state segments and mailboxes of resident actors. -/
def State.taken (s : State) (gc : Nat) : List (Nat × Nat) :=
  let k := s.core gc
  let al := k.sat.map (fun x => (x.2.base, x.2.reserved))
  let actors := k.sched.flatMap (fun x =>
    if x.2.st = .absent then []
    else
      let d := s.desc gc x.1 0
      (bits d 27 14 * 64, bits d 41 13 * 64) :: [0, 1, 2, 3].map (fun m =>
        let b := s.mbox gc x.1 m
        (b.base, if b.en then b.depth * b.units * 16 else 0)))
  al ++ actors

/-- The lowest free 64-byte-aligned base for `n` bytes in a bank (R206). -/
def State.findBase (s : State) (gc bank n : Nat) : Option Nat :=
  let tk := s.taken gc
  (List.range ((0x10000 - n) / 64 + 1)).map (fun i => bank * 0x10000 + 64 * i) |>.find? (fun b =>
    !tk.any (fun r => rangesMeet b n r.1 r.2))

/-- The lowest-numbered bank of a list that has room. -/
def State.findBank (s : State) (gc n : Nat) : List Nat → Option Nat
  | [] => none
  | k :: l =>
    match s.findBase gc k n with
    | some b => some b
    | none => s.findBank gc n l

/-- Index of the lowest invalid table entry. -/
def Core.freeAlloc (c : Core) : Option Nat := (List.range 32).find? (fun i => (FMap.find c.sat i).isNone)

/-- The allocation asked for, its contents left open (Table 9.1), with its status: 3 for bad arguments, 4 for an owner that is not there, then 1 and 2
(R206; the order among several statuses is DEDUCED, log entry 20). -/
def State.spallocDo (s : State) (w : Nat) (guard : Bool) (size bank g : Nat) (ctxOwner : Bool) : State × Nat × Option (Nat × Nat) :=
  let gc := coreOf w
  let c := s.ctx w
  let k := s.core gc
  let z := roundUp size 64
  let al : Alloc := { guard := guard, g := if guard then g else 0, ctx := if ctxOwner then some (w % 4) else none,
                      slot := if ctxOwner then 0 else c.slot, size := z, base := 0 }
  if z < 64 ∨ 65536 < z ∨ 65536 < al.reserved ∨ (bank ≠ 15 ∧ k.sbfloor ≤ bank) then (s, 3, none)
  else if !ctxOwner && decide (c.kind ≠ .actor) then (s, 4, none)
  else match k.freeAlloc with
    | none => (s, 1, none)
    | some i =>
      match s.findBank gc al.reserved (if bank = 15 then List.range k.sbfloor else [bank]) with
      | none => (s, 2, none)
      | some b =>
        let al := { al with base := b }
        ((s.setCore gc { k with sat := FMap.set k.sat i al }).openBytes (localPA gc al.userBase) al.userLen, 0, some (i, al.userBase))

/-- SPALLOC (R206). Where the handle's destination and `c` are one register, the local address remains (DESIGN CHOICE, log entry 72). -/
def execSpalloc (guard : Bool) (d : Dst) (b : Src) (c : Fin 64) (bank g1 : Fin 16) (ctxOwner : Bool) (s : State) :
    Host.Outcome State Fault Refusal :=
  each s fun w s =>
    let r := s.spallocDo w guard ((s.ctx w).src b).toNat bank.val (g1.val + 1) ctxOwner
    .ok (r.1.onCtx w (fun k =>
      match r.2.2 with
      | some (i, a) => (k.dst d (BitVec.ofNat 64 (i * 2 ^ 59))).setSreg c.val (BitVec.ofNat 64 a)
      | none => (k.dst d (BitVec.ofNat 64 r.2.1)).setSreg c.val 0))

/-- A local load of the context still writes into an allocation (R207). -/
def State.loadInto (s : State) (w : Nat) (al : Alloc) : Bool :=
  (s.ctx w).loads.any (fun l => match l.dst with
    | .local_ pa => rangesMeet pa 64 (localPA (coreOf w) al.base) al.reserved
    | _ => false) ||
  s.wq.any (fun e => decide (e.org.w = w) && decide (e.via = .pref) &&
    rangesMeet e.pa e.bytes.length (localPA (coreOf w) al.base) al.reserved)

/-- SPFREE (R207). -/
def execSpfree (a : Src) (s : State) : Host.Outcome State Fault Refusal :=
  each s fun w s =>
    let c := s.ctx w
    let h := c.src a
    let i := bits h.toNat 59 5
    let gc := coreOf w
    match FMap.find (s.core gc).sat i with
    | none => if c.supv then .ok s else .error (.trap (permTrap 2 h))
    | some al =>
      if !(c.supv || al.ownedBy c (w % 4)) then .error (.trap (permTrap 2 h))
      else if s.loadInto w al then .error (.wait s)
      else .ok (s.onCore gc (fun k => { k with sat := FMap.erase k.sat i }))

/-! ### BFSET (R208, R78) -/

/-- A value that a bank format register accepts (R208). -/
def bfmtOk (v : Nat) : Bool :=
  decide (bits v 24 8 = 0) && decide (bits v 10 6 = 0) && (decide (v % 32 ≤ 20) || decide (v % 32 = 31)) &&
  decide (bits v 5 3 ≤ 4) && decide (bits v 8 2 ≠ 3)

/-- The firing owns an allocation of 64 KiB at a bank (R208). -/
def State.ownsBank (s : State) (w k : Nat) : Bool :=
  (s.core (coreOf w)).sat.any (fun x =>
    x.2.ownedBy (s.ctx w) (w % 4) && decide (x.2.base = k * 0x10000) && decide (x.2.size = 0x10000))

/-- BFSET (R208): the register takes bits 31 to 0 of the value. Each of the three refused cases has BFSET's own subcause 7 (DEDUCED,
log entry 25). -/
def execBfset (a b : Src) (s : State) : Host.Outcome State Fault Refusal :=
  each s fun w s =>
    let c := s.ctx w
    let k := (c.src a).toNat
    let v := (c.src b).toNat % 2 ^ 32
    if 15 < k ∨ bfmtOk v = false ∨ (c.supv = false ∧ s.ownsBank w k = false) then .error (.trap (permTrap 7 (c.src b)))
    else .ok (s.onCore (coreOf w) (fun x => { x with bfmt := FMap.put 0x1F x.bfmt k (BitVec.ofNat 32 v) }))

end Sys2Proof.Machine
end

