-- ==== Sys2Proof/Machine/MemEvents.lean ====
section
/-! DEFINITION. The events of the memory paths: a load returns (R213), a walk ends (R318 to R324), a line is invalidated
(R182), and a published store or an RST is performed (R182, R202, R214). An event that cannot happen in the state is not
enabled, and the run ends there. -/

namespace Sys2Proof.Machine

/-- An event that cannot happen in this state. -/
def notEnabled : Host.Outcome State Fault Refusal := .fault .notEnabled

/-- A fault notice about a unit or an actor and no firing, to the supervisor of a core (R384). -/
def State.lateNotice (s : State) (gc part aid : Nat) (eng : Bool) (t : Trap) (pc fmsg : Nat) : State :=
  s.faultNotice gc part false eng aid (fsynOf t false false 0 false false) t.va.toNat pc fmsg
    (notice6 gc 0 0 0) 0

/-- The firing of an origin is still in progress. -/
def State.inProgress (s : State) (o : Origin) : Bool := decide ((s.ctx o.w).fid = o.fid) && decide ((s.ctx o.w).kind ≠ .none)

/-- The notice of a fault that no context takes: to the supervisor of the core of its firing, of the lead core for a gang's, or to Patrol
for a supervisor's; `past` says that the firing had passed its first commit point. Of a firing that is still in progress it has the
packet, the number of packets and the PC as well (R383 to R385; DEDUCED, log entry 21). -/
def State.lateFault (s : State) (o : Origin) (past : Bool) (t : Trap) (pc : Nat) : State :=
  let gc := coreOf o.w
  let c := s.ctx o.w
  let here := s.inProgress o
  s.faultNotice (gc - o.gidx) o.part o.supv true o.aid
    (fsynOf { t with gcore := o.gidx } (past || (here && c.done1)) o.gang (o.w % 4) o.supv false) t.va.toNat pc
    (if here then c.msgIdAt 0 else 0) (notice6 gc o.slot 0 (if here then c.nmsg else 0)) (if here && decide (t.cls = 2) then c.pc.toNat else 0)

/-- Record an imprecise fault against a firing, or report it by a notice when that firing has ended (R382; DEDUCED, log entry 21). A
violation at a typed cell is one of what the firing published. -/
def State.blame (s : State) (o : Origin) (code detail : Nat) (va : Word) : State :=
  let r := s.imprecise o code detail va
  if r.2 then r.1
  else s.lateFault o (decide (code = 0x13)) { code := code, cls := 2, detail := detail, va := va } o.pc.toNat

/-! ### LOAD_RETURN -/

/-- Lanes of a returned vector load: the active ones take their bytes in order, the others keep the old value. -/
def fillLanes (w : Nat) (old : Nat) : List Bool → Nat → List Byte → List Nat
  | [], _, _ => []
  | true :: l, i, bs => leNat (bs.take (w / 8)) :: fillLanes w old l (i + 1) (bs.drop (w / 8))
  | false :: l, i, bs => lane w i old :: fillLanes w old l (i + 1) bs

/-- Bind the bytes of a load to its destination (R195, R197, R198); those of a PREF.l are sent to the port (R204). -/
def State.bindLoad (s : State) (w : Nat) (l : Load) (bs : List Byte) : State :=
  match l.dst with
  | .scalar d t => s.onCtx w (fun c => c.dst d (extend t (leNat bs)))
  | .pair n => s.onCtx w (fun c => (c.setSreg n (BitVec.ofNat 64 (leNat (bs.take 8)))).setSreg (n + 1)
      (BitVec.ofNat 64 (leNat (bs.drop 8))))
  | .vec d k act old => s.onCtx w (fun c => c.vdst d (BitVec.ofNat 512 (ofLanes k (fillLanes k old.toNat act 0 bs))))
  | .local_ pa => s.sendStore (pendingOf l.org .pref pa 0 0 .dflt bs 0 0)

/-- The lines of a load, each once, with the homing block and the effective cache class of its page. -/
def loadLines : List (Nat × Nat × Nat) → List (Nat × Nat × Nat)
  | [] => []
  | (pa, x) :: l =>
    let r := loadLines l
    if r.any (fun y => decide (y.1 = pa / 64)) then r else (pa / 64, x) :: r

/-- Fill the caches with the lines of a load (R181). -/
def State.fillLines (s : State) (gc : Nat) (pol : Policy) : List (Nat × Nat × Nat) → State
  | [] => s
  | (line, hb, cls) :: l => (s.loadFill gc (line * 64) hb cls pol).fillLines gc pol l

/-- Bytes of the next piece of a load: those of one aligned 8-byte word (R211). -/
def Load.piece (l : Load) : List (Nat × Nat × Nat) :=
  match l.addrs.drop l.got.length with
  | [] => []
  | p :: r => p :: r.takeWhile (fun q => decide (q.1 / 8 = p.1 / 8))

/-- An earlier load of the context has still to read one of these bytes: accesses to a location keep program order (R213). -/
def Ctx.loadAhead (c : Ctx) (uid : Nat) (ps : List (Nat × Nat × Nat)) : Bool :=
  c.loads.any (fun x => decide (x.uid < uid) && (x.addrs.drop x.got.length).any (fun q => ps.any (fun p => decide (p.1 = q.1))))

/-- A byte as a load reads it: a PREF.l reads what is published (R204). -/
def State.loadByte (s : State) (w : Nat) (l : Load) (pa : Nat) : Byte :=
  if l.copies then s.coreByte (coreOf w) pa else s.ownByte w pa

/-- The last piece of a load has been read: its lines enter the caches and its value is bound. -/
def State.endLoad (s : State) (w : Nat) (l : Load) : State :=
  let s := if l.addrs.any (fun p => s.poisoned p.1) then s.blame l.org 0x11 0 l.va else s
  let s := s.fillLines (coreOf w) l.pol (loadLines l.addrs)
  (s.bindLoad w l l.got).onCtx w (fun c => { c with loads := c.loads.filter (fun x => x.uid ≠ l.uid) })

/-- LOAD_RETURN: the next piece of an outstanding load is read, and with the last one its value is bound (R211, R213). -/
def execLoadReturn (w uid : Nat) (s : State) : Host.Outcome State Fault Refusal :=
  match (s.ctx w).loads.find? (fun l => decide (l.uid = uid)) with
  | none => notEnabled
  | some l =>
    if (s.ctx w).loadAhead uid l.piece then notEnabled
    else
      let l' := { l with got := l.got ++ l.piece.map (fun p => s.loadByte w l p.1) }
      if l'.got.length < l'.addrs.length then
        .next (s.onCtx w (fun c => { c with loads := c.loads.map (fun x => if x.uid = uid then l' else x) }))
      else .next (s.endLoad w l')

/-! ### WALK -/

/-- A requester of a walk is still waiting for it. -/
def State.waits (s : State) (w fid : Nat) : Bool :=
  decide ((s.ctx w).phase = .waitWalk) && decide ((s.ctx w).fid = fid)

/-- Give a leaf, or a permission result, to one requester and let it issue again. -/
def State.answerWalk (s : State) (w fid : Nat) (l : Leaf) : State :=
  if s.waits w fid then
    let s := s.onCtx w (fun c => { c with xlate := l :: c.xlate, phase := .running })
    if l.bad = 0 then s.onCore (coreOf w) (fun k => k.tlbAdd l) else s
  else s

/-- What a PREF or a CINV holds of a page that is not present (R204, R205). -/
def absentLeaf (part gran : Nat) : Leaf :=
  { bad := 8, part := part, va := gran * 2 ^ 16, size := 2 ^ 16, pa := 0, hb := 0, cls := 0, x := false, w := false, r := false, u := false }

/-- Raise the not-present fault for one requester, counted in the fault buffer (R322, R324); a PREF or a CINV goes on without. -/
def State.missWalk (s : State) (part gran w fid a va lvl : Nat) : State :=
  if a = 4 then s.answerWalk w fid (absentLeaf part gran)
  else if s.waits w fid then
    let c := s.ctx w
    let s := s.faultInsert w va lvl a
    let lead := w - 4 * c.gidx
    let s := s.onCtx w (fun c => { c with phase := .running })
    s.fault lead { code := 1, cls := 0, lvl := lvl, gcore := c.gidx,
                      va := BitVec.ofNat 64 va }
  else s

/-- A walk has a walker: fewer than 128 of its die were asked for before it, and they go in the order they were asked for (R320). -/
def State.hasWalker (s : State) (cluster uid : Nat) : Bool :=
  decide (((s.clus.filter (fun k => decide (k.1 / 32 = cluster / 32))).flatMap (fun k =>
    k.2.walks.filter (fun y => decide (y.uid < uid)))).length < 128)

/-- The next ReadPT of a walk: an access of class S at the table's home (R319). -/
def State.walkRead (s : State) (cluster : Nat) (x : WalkReq) : State :=
  let m := cluster / 256
  let va := x.gran * 2 ^ 16
  let a := s.ptAddr m x.part va x.lvl x.base
  let y := match s.walkStep m x.part va x.lvl x.base with
    | .inl r => { x with res := some r }
    | .inr b => { x with lvl := x.lvl + 1, base := b }
  let s := if s.physOk m x.part false a then s.touchSlice (homeOf a hbPhys) (a / 64) .dflt else s
  s.onClu cluster (fun k => { k with walks := k.walks.map (fun z => if z.uid = x.uid then y else z) })

/-- A walk is complete for every requester that joined it (R318, R320). -/
def State.walkEnd (s : State) (cluster : Nat) (x : WalkReq) (r : WalkRes) : State :=
  let s := s.onClu cluster (fun k => { k with walks := k.walks.filter (fun y => y.uid ≠ x.uid) })
  let va := x.gran * 2 ^ 16
  match r with
  | .leaf l => x.reqs.foldl (fun s r => s.answerWalk r.1 r.2.2.2 l) (s.onClu cluster (fun k => k.tlbAdd va l))
  | .bad k => x.reqs.foldl (fun s r => s.answerWalk r.1 r.2.2.2 { absentLeaf x.part x.gran with bad := k }) s
  | .notPresent lvl => x.reqs.foldl (fun s r => s.missWalk x.part x.gran r.1 r.2.2.2 r.2.1 r.2.2.1 lvl) s

/-- WALK: the walk reads the table of its next level, or it completes. Its reads and its result are apart, so that the tables may
change in between (R326). -/
def execWalk (cluster uid : Nat) (s : State) : Host.Outcome State Fault Refusal :=
  match (s.clu cluster).walks.find? (fun x => decide (x.uid = uid)) with
  | none => notEnabled
  | some x =>
    if !s.hasWalker cluster uid then notEnabled
    else match x.res with
      | none => .next (s.walkRead cluster x)
      | some r => .next (s.walkEnd cluster x r)

/-! ### L1_INVALIDATE and published stores -/

/-- L1_INVALIDATE: an invalidation reaches a core; the home drops the sharer (R182). -/
def execL1Invalidate (core line : Nat) (s : State) : Host.Outcome State Fault Refusal :=
  .next (s.clus.foldl (fun s k => s.dropSharers k.1 line (fun g => decide (g = core))) (s.onCore core (fun c => c.dropL1 line)))

/-- Some store that an RST's commit point published is not performed (R202). -/
def State.rstWaits (s : State) (e : Pending) : Bool :=
  s.wq.any (fun x => x.published && decide (x.org.fid = e.org.fid) && decide (e.after ≤ x.uid) && decide (x.uid < e.grp))

/-- The sub-bank of the core's scratchpad that serves the next piece of a store at a port (R173). -/
def Pending.subBank (e : Pending) : Nat := e.pa / 65536 * 4 + e.pa / 16 % 4

/-- The sub-bank that a store waits for at its port grants it next: no store of another context that waits there for the same
sub-bank, and could be performed, stands earlier in the round-robin order from the sub-bank's pointer (R173). -/
def State.portTurn (s : State) (e : Pending) : Bool :=
  match s.region e.pa with
  | .scratch gc a =>
    let p := FMap.get 0 (s.core gc).subPtr (a / 65536 * 4 + a / 16 % 4)
    let dist := fun (x : Pending) => (x.org.w % 4 + 10 - p) % 10
    !s.wq.any (fun x => (decide (x.via = .port) || decide (x.via = .pref)) && decide (x.subBank = e.subBank) &&
      decide (dist x < dist e) && !s.wq.any (fun y => y.ahead x))
  | _ => true

/-- A store may be performed now: those before it and those it stands behind are performed (R214, R216, R202), it has entered the
queue (R210), and no other core holds a copy of its line (R182). -/
def State.canPerform (s : State) (e : Pending) : Bool :=
  !s.wq.any (fun x => x.ahead e) &&
  match e.via with
  | .rst => !s.rstWaits e
  | .seg => !s.outstanding e.org.w e.after e.grp
  | .home => !s.outstanding e.org.w e.after e.grp && s.entered e &&
      (s.sharers (homeOf e.pa e.hb) (e.pa / 64)).all (fun g => decide (g = coreOf e.org.w))
  | .port | .pref => s.portTurn e

/-- Report an engine error of a command of a context: of class 2 while its firing runs, and of class 3 afterwards (R276, Table 20.1). -/
def State.engineFault (s : State) (o : Origin) (op fn cause : Nat) (va : Word) : State :=
  let detail := op + fn * 2 ^ 8 + cause * 2 ^ 12
  let r := s.imprecise o 0x14 detail va
  if r.2 then r.1
  else s.lateFault o true { code := 0x14, cls := 3, detail := detail, va := va } 0

/-- Perform an RST at its target port, or deny it as an engine error (R175, R189, R202). -/
def State.performRst (s : State) (e : Pending) : State :=
  match s.region e.pa with
  | .scratch gc a =>
    if s.reach (modOf (coreOf e.org.w)) (gc / 2048) ∧ s.ownerOf gc = e.org.part ∧ a + e.bytes.length ≤ (s.core gc).sysBase then s.portWrite reqRst (coreOf e.org.w) gc a e.bytes false
    else s.engineFault e.org 0x6F 2 0 (BitVec.ofNat 64 (e.pa % 2 ^ 20))
  | _ => s.engineFault e.org 0x6F 2 0 (BitVec.ofNat 64 (e.pa % 2 ^ 20))

/-- Bytes of the next piece of a store: those up to the next multiple of 8 at a home, and of one 16-byte word at a scratchpad port, which a
sub-bank serves whole (R156, R173, R211). -/
def Pending.piece (e : Pending) : Nat :=
  let k := if e.via = .home then 8 else 16
  min e.bytes.length (k - e.pa % k)

/-- Perform bytes of a store at its home, its port or its control block; whether one of them lies in a typed cell, whose home
refuses it (R195). -/
def State.performStore (s : State) (e : Pending) (bs : List Byte) : State × Bool :=
  match s.region e.pa with
  | .scratch gc a => (s.portStore e.org.w gc a bs, false)
  | .ctl cl off => (s.storeCtl cl off 9 bs, false)
  | .hbm =>
    let s := if e.pa = e.at_ then s.atHome (homeOf e.pa e.hb) (e.pa / 64) (effClass e.cls e.pol) e.pol true else s
    s.wrPlain e.pa bs
  | .unmapped => (s, false)

/-- Free the scratch allocations that waited for the last copy of a context (R206). -/
def State.freeDrained (s : State) (w : Nat) : State :=
  if s.copying w then s
  else s.onCore (coreOf w) (fun c => { c with sat := c.sat.filter (fun x => x.2.ctx ≠ some (w % 4 + 4)) })

/-- A store is performed whole: it leaves the queue, and the counter that held it follows (R376). A whole line clears its poison (R184),
and a typed cell that refused bytes raises the imprecise fault once (R195). -/
def State.storeDone (s : State) (e : Pending) : State :=
  let s := { s with wq := s.wq.filter (fun x => x.uid ≠ e.uid) }
  let s := if e.full && decide (e.via = .home) then s.clearPoison e.at_ else s
  let s := if e.typed then s.blame e.org 0x13 0 (BitVec.ofNat 64 e.at_) else s
  match e.via with
  | .pref => (s.onCtx e.org.w (fun c => if c.fid = e.org.fid then { c with ocLd := c.ocLd - 1 } else c)).freeDrained e.org.w
  | _ => s.countSt e.org.w

/-- Perform the next piece of a store, and take the store from the queue with its last piece. A race trace sees each piece as a write of its own
(DESIGN CHOICE, log entry 80). -/
def State.storeStep (s : State) (e : Pending) : State :=
  match e.via with
  | .rst => (s.performRst e).storeDone e
  | _ =>
    let k := e.piece
    let r := s.performStore e (e.bytes.take k)
    let e' := { e with pa := e.pa + k, bytes := e.bytes.drop k, typed := e.typed || r.2 }
    if e'.bytes = [] then r.1.storeDone e'
    else { r.1 with wq := r.1.wq.map (fun x => if x.uid = e.uid then e' else x) }

/-- Perform the entries of state segments that no mark holds back any more: they take no time (R256). -/
def State.drainSegs (s : State) : List Pending → State
  | [] => s
  | e :: l => (if e.via = .seg ∧ s.canPerform e = true then (s.performStore e e.bytes).1.storeDone e else s).drainSegs l

/-- Perform the next piece of the store named `uid`, when it may be performed now (R182). -/
def State.storeNow (s : State) (uid : Nat) : Option State :=
  match s.wq.find? (fun e => decide (e.uid = uid)) with
  | none => none
  | some e => if s.canPerform e then some (let t := s.storeStep e; t.drainSegs t.wq) else none

end Sys2Proof.Machine
end

