-- ==== Sys2Proof/Machine/Path.lean ====
section
/-! DEFINITION. Accesses that are not on the core path: ranges translated at issue (R275, R280), the partition check at the
place reached (R175, R189), and writes that landing counters count and that skip typed cells (R276, R365). -/

namespace Sys2Proof.Machine

/-! ### Ranges of a command -/

/-- A range of virtual addresses: first address and length. -/
abbrev Range := Nat × Nat

/-- Hold a leaf for every granule of every range; the first miss starts a walk (R275, R318). -/
def State.leavesOf (s : State) (w : Nat) (acc : Access) : List Range → Except Stop State
  | [] => .ok s
  | (va, n) :: l =>
    if n = 0 ∨ 2 ^ 55 < va + n then s.leavesOf w acc l
    else match s.leaves w acc va (granules va n) with
      | .error e => .error e
      | .ok (s, _) => s.leavesOf w acc l

/-- Leaf bits of each granule of a range (R317), without the check of the physical address, which the agent makes (R189). -/
def State.leafPerm (s : State) (w va : Nat) (acc : Access) : List Nat → Option Trap
  | [] => none
  | g :: gs =>
    match (s.lookup w g).2 with
    | none => none
    | some l =>
      match l.lacks acc (s.ctx w).supv with
      | some cause => some (xlTrap cause (decide (l.bad = 7)) (BitVec.ofNat 64 (firstIn va g)))
      | none => s.leafPerm w va acc gs

/-- The spans of a range whose leaves are held, one for each granule. -/
def State.spanList (s : State) (w va n : Nat) : List Span :=
  (granules va n).filterMap (fun g =>
    match (s.lookup w g).2 with
    | some l =>
      let a := firstIn va g
      some { va := a, pa := l.phys a, hb := l.hb, len := min (va + n) (g + 2 ^ 16) - a, cls := l.cls, lva := l.va, lsz := l.size }
    | none => none)

/-- The spans of one range, or its permission fault. -/
def State.spansOf (s : State) (w : Nat) (acc : Access) (va n : Nat) : Except Stop (List Span) :=
  if n = 0 then .ok []
  else if 2 ^ 55 ≤ va then .error (.trap (xlTrap 7 false (BitVec.ofNat 64 va)))
  else if 2 ^ 55 < va + n then .error (.trap (xlTrap 7 false (BitVec.ofNat 64 (2 ^ 55))))
  else match s.leafPerm w va acc (granules va n) with
    | some t => .error (.trap t)
    | none => .ok (s.spanList w va n)

/-- The spans of several ranges. -/
def State.spansOfAll (s : State) (w : Nat) (acc : Access) : List Range → Except Stop (List (List Span))
  | [] => .ok []
  | (va, n) :: l =>
    match s.spansOf w acc va n with
    | .error e => .error e
    | .ok x =>
      match s.spansOfAll w acc l with
      | .error e => .error e
      | .ok xs => .ok (x :: xs)

/-- The permission fault of the first range that leaves the address space, before any walk (R168). -/
def rangesTrap (l : List Range) : Option Trap :=
  (l.find? (fun r => decide (r.2 ≠ 0) && decide (2 ^ 55 < r.1 + r.2))).map fun r => xlTrap 7 false (BitVec.ofNat 64 (max r.1 (2 ^ 55)))

/-- The part of each range in each of its pages. -/
def pagesOf (l : List Range) : List Range :=
  l.flatMap (fun r => (granules r.1 r.2).map (fun g => (firstIn r.1 g, min (r.1 + r.2) (g + 2 ^ 16) - firstIn r.1 g)))

/-- A page of context `w` is present: a TLB or the instruction holds its leaf, or its walk would end otherwise than not present. -/
def State.pagePresent (s : State) (w va : Nat) : Bool :=
  (s.lookup w va).2.isSome || (match s.walk (modOf (coreOf w)) (s.ctx w).part va with | .notPresent _ => false | _ => true)

/-- What a tile-path write to ranges with a page that is not held stops on: `e`, the walk of that page, but the pages that are present are
walked before one that is not, and what they permit comes before it (R165, R168; the order of the walks is DEDUCED, log entry 82). -/
def State.missing (s : State) (w : Nat) (l : List Range) (e : Stop) : Stop :=
  let known := (pagesOf l).filter (fun r => s.pagePresent w r.1)
  match s.leavesOf w .write known with
  | .error x => x
  | .ok u =>
    match u.spansOfAll w .write known with
    | .error x => x
    | .ok _ => e

/-- Where byte `i` of a list of spans lies: address as given, physical address, homing block, cache class. -/
def spanAt : List Span → Nat → Option (Nat × Nat × Nat × Nat)
  | [], _ => none
  | x :: l, i => if i < x.len then some (x.va + i, x.pa + i, x.hb, x.cls) else spanAt l (i - x.len)

/-- A command holds a translation of one of `n` granules from `g` on. -/
def Span.within (x : Span) (g n : Nat) : Bool := rangesMeet x.va x.len (g * 2 ^ 16) (n * 2 ^ 16)

/-! ### The check where an access arrives (R175, R189) -/

/-- An access of partition `part`, issued at module `m`, by an agent other than a core path: allowed at this byte. -/
def State.devOk (s : State) (m part : Nat) (write : Bool) (pa : Nat) : Bool :=
  s.reach m (pa / 2 ^ 44) && match s.region pa with
  | .scratch gc a => decide (s.ownerOf gc = part) && (!write || decide (a < (s.core gc).sysBase))
  | .hbm => s.hbmOk m part write pa
  | _ => false

/-! ### Writing -/

/-- Runs of bytes cut at 16-byte cells, in order. -/
def cellRuns (pa : Nat) : List Byte → List (Nat × List Byte)
  | [] => []
  | b :: bs =>
    match cellRuns (pa + 1) bs with
    | (a, l) :: r => if a / 16 = pa / 16 then (pa, b :: l) :: r else (pa, [b]) :: (a, l) :: r
    | [] => [(pa, [b])]

/-- Write runs at a home, each counted, without the typed cells; the first byte skipped. -/
def State.writeCells (s : State) (home : Nat) : List (Nat × List Byte) → State × Option Nat
  | [] => (s, none)
  | (pa, bs) :: l =>
    if (s.cellTag pa).1 ≠ 0 then ((s.writeCells home l).1, some pa)
    else ((s.wrBytes pa bs).countHome home pa bs.length).writeCells home l

/-- Write bytes of one 64-byte line at a port or a home as an agent of core `src` on the path `r` (R182, R276, R365); the first byte of
a typed cell, which is skipped. A write of the whole line clears its poison (R184). -/
def State.devWrite (s : State) (r : PortReq) (src pa hb cls : Nat) (pol : Policy) (bs : List Byte) : State × Option Nat :=
  match s.region pa with
  | .scratch gc a => (s.portWrite r src gc a bs true, none)
  | _ =>
    let home := homeOf pa hb
    let s := (s.invalidate home (pa / 64) none).atHome home (pa / 64) (effClass cls pol) pol true
    let s := if bs.length = 64 then s.clearPoison pa else s
    s.writeCells home (cellRuns pa bs)

/-- Progress of a write over spans: the state, the bytes dealt with, those of them that were written, and the addresses of the first
byte skipped in a typed cell and of the first byte denied. -/
structure Wrote where
  s      : State
  done   : Nat
  wrote  : Nat
  skip   : Option Nat
  denied : Option Nat

/-- A write to this address leaves the cell that holds it as it is (R276). -/
def State.skips (s : State) (pa : Nat) : Bool :=
  (match s.region pa with | .scratch _ _ => false | _ => true) && decide ((s.cellTag pa).1 ≠ 0)

/-- Write the bytes `bs` from offset `i` of the spans on, on the path `r`, each where it lies, and stop at the first that is denied (R276).
Runs are cut at 64-byte lines. -/
def State.writeSpans (s : State) (r : PortReq) (src part : Nat) (pol : Policy) (sp : List Span) (i : Nat) (bs : List Byte) : Wrote :=
  go s i [] bs none 0 0
where
  /-- Write a run collected last byte first, and keep the first address a skip is reported at. -/
  flush (s : State) (run : List (Nat × Nat × Nat × Nat × Byte)) (skip : Option Nat) : State × Option Nat :=
    match run.reverse with
    | [] => (s, skip)
    | (va, pa, hb, cls, b) :: l =>
      let x := s.devWrite r src pa hb cls pol (b :: l.map (fun y => y.2.2.2.2))
      (x.1, match skip, x.2 with | some k, _ => some k | none, some p => some (va + (p - pa)) | none, none => none)
  /-- Collect runs and write them: `n` bytes are dealt with and `k` of them are written. -/
  go (s : State) (i : Nat) (run : List (Nat × Nat × Nat × Nat × Byte)) (bs : List Byte) (skip : Option Nat) (n k : Nat) : Wrote :=
    match bs with
    | [] => let x := flush s run skip; ⟨x.1, n, k, x.2, none⟩
    | b :: bs =>
      match spanAt sp i with
      | none => let x := flush s run skip; ⟨x.1, n, k, x.2, none⟩
      | some (va, pa, hb, cls) =>
        if !s.devOk (modOf src) part true pa then
          let x := flush s run skip; ⟨x.1, n, k, x.2, some va⟩
        else
          let k := if s.skips pa then k else k + 1
          match run with
          | [] => go s (i + 1) [(va, pa, hb, cls, b)] bs skip (n + 1) k
          | (_, pb, _) :: _ =>
            if pa = pb + 1 ∧ pa / 64 = pb / 64 then go s (i + 1) ((va, pa, hb, cls, b) :: run) bs skip (n + 1) k
            else
              let x := flush s run skip
              go x.1 (i + 1) [(va, pa, hb, cls, b)] bs x.2 (n + 1) k

/-! ### Reading -/

/-- Bytes `i` to `i + n - 1` of a list of spans, up to the first that is denied: the bytes with their addresses. -/
def State.readSpans (s : State) (m part : Nat) (sp : List Span) (i n : Nat) : List (Byte × Nat) × Bool :=
  let ps := (List.range n).filterMap (fun k => spanAt sp (i + k))
  let ok := ps.takeWhile (fun p => s.devOk m part false p.2.1)
  (ok.map (fun p => (s.rdByte p.2.1, p.2.1)), decide (ok.length < n))

/-- Reads of global lines as accesses of their slices (R185, R425): `last` is the line before. -/
def State.touchLines (s : State) (pol : Policy) : List (Nat × Nat × Nat × Nat) → Option Nat → State
  | [], _ => s
  | (_, pa, hb, cls) :: l, last =>
    if last = some (pa / 64) then s.touchLines pol l last
    else match s.region pa with
      | .hbm => (s.atHome (homeOf pa hb) (pa / 64) (effClass cls pol) pol false).touchLines pol l (some (pa / 64))
      | _ => s.touchLines pol l last

/-- What a read of bytes `i` to `i + n - 1` of a list of spans does to the slices. -/
def State.touchRead (s : State) (pol : Policy) (sp : List Span) (i n : Nat) : State :=
  s.touchLines pol ((List.range n).filterMap (fun k => spanAt sp (i + k))) none

end Sys2Proof.Machine
end

