-- ==== Sys2Proof/Machine/Vector.lean ====
section
/-! DEFINITION. The vector and mask instructions (chapter 07). -/

namespace Sys2Proof.Machine

/-! ### Lanes -/

/-- Lanes of a type in a register (R123). -/
def laneCount (t : Ty) : Nat := 512 / t.width

/-- Lane `i` of `w` bits of a register. -/
def vlane (w i : Nat) (v : VWord) : Nat := lane w i v.toNat

/-- A register from lane results: each active lane takes `f`, the others keep the old value; the flags together (R125). -/
def mergeLanes (w : Nat) (mask : Word) (old : VWord) (f : Nat → Nat × Nat) : VWord × Nat :=
  let r := (List.range (512 / w)).map (fun i => if active mask w i then f i else (vlane w i old, 0))
  (BitVec.ofNat 512 (ofLanes w (r.map (fun x => x.1))), r.foldl (fun a x => orFlags a x.2) 0)

/-- Write a merged register and raise its flags. -/
def Ctx.vmerge (c : Ctx) (d : VDst) (w : Nat) (m : MReg) (f : Nat → Nat × Nat) : Ctx :=
  let r := mergeLanes w (c.mask m) (c.vold d) f
  (c.vdst d r.1).raise r.2

/-- Lane `i` of a vector source of type `t` (R124). -/
def Ctx.vl (c : Ctx) (t : Ty) (a : VSrc) (i : Nat) : Nat := vlane t.width i (c.vsrc t.width a)

/-- An exact integer result put into a lane: wrapped, or clipped with SAT (R127). -/
def intLane (t : Ty) (sat : Bool) (v : Int) : Nat × Nat :=
  let r := intRange t
  if sat && decide (v < r.1) then (wrap t.width r.1, fSAT)
  else if sat && decide (r.2 < v) then (wrap t.width r.2, fSAT)
  else (wrap t.width v, 0)

/-- A two-operand lane form (R127): exact on integers, the scalar result on floating types. -/
def laneBin (t : Ty) (sat : Bool) (rm : RM) (fi : Int → Int → Int) (ff : Ty → RM → Nat → Nat → Nat × Nat)
    (x y : Nat) : Nat × Nat :=
  if t.isInt then intLane t sat (fi (fromInt t x) (fromInt t y)) else ff t rm x y

/-- A two-operand merging form. -/
def Ctx.vbin (c : Ctx) (d : VDst) (a b : VSrc) (t : Ty) (m : MReg) (f : Nat → Nat → Nat × Nat) : Ctx :=
  c.vmerge d t.width m (fun i => f (c.vl t a i) (c.vl t b i))

/-- VABS of a lane (R127). -/
def laneAbs (t : Ty) (sat : Bool) (x : Nat) : Nat × Nat :=
  if t.isInt then intLane t sat (fromInt t x).natAbs
  else
    let v := fromFormat x t 0
    if v.isNaN then (canonNaN t, flagIf v.isSig fNV) else (x % 2 ^ (t.width - 1), 0)

/-- Shift of a lane; counts of the width and above empty it (R128). -/
def laneShl (w x k : Nat) : Nat := if k < w then x * 2 ^ k % 2 ^ w else 0
/-- Logical right shift of a lane (R128). -/
def laneShr (w x k : Nat) : Nat := if k < w then x / 2 ^ k else 0
/-- Arithmetic right shift of a lane (R128). -/
def laneSha (w x k : Nat) : Nat := wrap w ((signed w x).fdiv (2 ^ min k w))

/-- Integer condition of a code of VSETC (Table 2.7). -/
def icondOf : Nat → ICond
  | 0 => .eq | 1 => .ne | 2 => .lt | 3 => .le | 4 => .gt | 5 => .ge
  | 6 => .ltN | 7 => .leN | 8 => .gtN | 9 => .geN | 10 => .any | _ => .none

/-- Floating-point condition of a code (Table 6.7). -/
def fcondOf : Nat → FCond
  | 0 => .eq | 1 => .ne | 2 => .lt | 3 => .le | 4 => .gt | 5 => .ge | 6 => .un | _ => .or

/-- An integer condition on lanes of `w` bits (R130). -/
def laneCond (cc : ICond) (w x y : Nat) : Bool :=
  match cc with
  | .eq => decide (x = y)
  | .ne => decide (x ≠ y)
  | .lt => decide (signed w x < signed w y)
  | .le => decide (signed w x ≤ signed w y)
  | .gt => decide (signed w y < signed w x)
  | .ge => decide (signed w y ≤ signed w x)
  | .ltN => decide (x < y)
  | .leN => decide (x ≤ y)
  | .gtN => decide (y < x)
  | .geN => decide (y ≤ x)
  | .any => decide (x &&& y ≠ 0)
  | .none => decide (x &&& y = 0)

/-- Outcome of VSETC for one lane and its flags (R130). -/
def laneSetc (t : Ty) (cc : Fin 16) (x y : Nat) : Bool × Nat :=
  if t.isInt then (laneCond (icondOf cc.val) t.width x y, 0)
  else fCompare (fcondOf cc.val) (fromFormat x t 0) (fromFormat y t 0)

/-- VSTEP of lane `g` (R129). -/
def laneStep (t : Ty) (sat : Bool) (rm : RM) (start step g : Nat) : Nat × Nat :=
  if t.isInt then intLane t sat (fromInt t start + g * fromInt t step)
  else
    finishF t rm (fFmaV rm (.num false g 0) (fromFormat step t 0) (fromFormat start t 0))

/-- A lane of VSFU (R136). -/
def laneSfu (t : Ty) (f : FV → FV × Nat) (x : Nat) : Nat × Nat := finishF t .rne (f (fromFormat x t 0))

/-- Replace `n` elements of `w` bits from bit `lo` of a register by the active results of `f`; the flags together. -/
def putElems (w : Nat) (f : Nat → Option (Nat × Nat)) : Nat → Nat → Nat × Nat → Nat × Nat
  | 0, _, acc => acc
  | n + 1, lo, acc =>
    let acc := putElems w f n lo acc
    match f n with
    | some r => (setBits acc.1 (lo + w * n) w r.1, orFlags acc.2 r.2)
    | none => acc

/-- Write a register given as a number, with flags. -/
def Ctx.vput (c : Ctx) (d : VDst) (r : Nat × Nat) : Ctx := (c.vdst d (BitVec.ofNat 512 r.1)).raise r.2

/-- Lane type of a packing (Table 7.3). -/
def packLane : Ty → Ty
  | .ui4 => .ui8
  | .kf4 | .kf6 => .kf8
  | _ => .i8

/-- Accumulation type of VDOT (R138). -/
def dotAcc (t : Ty) : Ty := if t = .f64 then .f64 else if t.isInt then .i32 else .f32

/-- One destination lane of VDOT (R138). -/
def laneDot (t : Ty) (sat : Bool) (old : Nat) (xs : List (Nat × Nat)) : Nat × Nat :=
  if t.isInt then
    intLane .i32 sat (fromInt .i32 old + (xs.map (fun p => fromInt t p.1 * fromInt t p.2)).sum)
  else
    anchored (fromFormat old (dotAcc t) 0 :: xs.map (fun p => termMul (fromFormat p.1 t 0) (fromFormat p.2 t 0)))
      (windowOf t t) (dotAcc t)

/-- The active lanes of a source over the cores of the firing, each with its gang lane (R143). -/
def State.activeLanes (s : State) (w : Nat) (t : Ty) (a : VSrc) (m : MReg) : List (Nat × Nat) :=
  (s.members w).flatMap (fun k =>
    (List.range (laneCount t)).filterMap (fun i =>
      if active ((s.ctx k).mask m) t.width i then
        some (laneCount t * ((k - w) / 4) + i, (s.ctx k).vl t a i) else none))

/-- Result of VSUM over all active lanes (R139). -/
def sumLanes (t : Ty) (sat : Bool) (xs : List (Nat × Nat)) : Nat × Nat :=
  if t.isInt then
    let v := (xs.map (fun p => fromInt t p.2)).sum
    intLane .i64 sat v
  else anchored (xs.map (fun p => fromFormat p.2 t 0)) (windowOf t t) (if t = .f64 then .f64 else .f32)

/-- The first-ranked lane (R140). -/
def bestLane (t : Ty) (isMax : Bool) : List (Nat × Nat) → Option (Nat × Nat)
  | [] => none
  | x :: xs =>
    match bestLane t isMax xs with
    | none => some x
    | some y => if rank isMax (fromFormat y.2 t 0) y.1 (fromFormat x.2 t 0) x.1 then some y else some x

/-- A form whose result is the same on every core of the firing (R143). -/
def gangWide (s : State) (f : Ctx → Ctx) : Host.Outcome State Fault Refusal := eachCtx s f

/-- VRMAX and VRMIN (R140). -/
def rankOp (s : State) (isMax : Bool) (d : VDst) (ix : Option (Fin 64)) (a : VSrc) (t : Ty) (m : MReg) :
    Host.Outcome State Fault Refusal :=
  let best := bestLane t isMax (s.activeLanes s.cur t a m)
  let v := match best with | some x => x.2 | none => 0
  let i : Word := match best with | some x => BitVec.ofNat 64 x.1 | none => BitVec.allOnes 64
  gangWide s fun c =>
    let c := c.vdst d (BitVec.ofNat 512 v)
    match ix with
    | some n => c.setSreg n.val i
    | none => c

/-- A candidate of VTOPK: key code and index. -/
abbrev Cand := Nat × Nat

/-- Insert a new candidate behind every candidate that it does not rank above (R141). -/
def insertCand (t : Ty) (isMax : Bool) (x : Cand) : List Cand → List Cand
  | [] => [x]
  | y :: l => if rank isMax (fromFormat x.1 t 0) x.2 (fromFormat y.1 t 0) y.2 then x :: y :: l
              else y :: insertCand t isMax x l

/-- The running top-k after a merge (R141). Of two new candidates of equal key and index but different bits, which a gang can offer, the one
of the lower core comes first (DESIGN CHOICE, log entry 75). -/
def topk (t : Ty) (isMax : Bool) (k : Nat) (old new : List Cand) : List Cand :=
  ((old ++ new).foldl (fun l x => insertCand t isMax x l) []).take k

/-! ### The instructions -/

/-- VMOV (R129). -/
def execVmov (d : VDst) (a : VSrc) (t : Ty) (m : MReg) (s : State) : Host.Outcome State Fault Refusal :=
  eachCtx s fun c => c.vmerge d t.width m (fun i => (c.vl t a i, 0))

/-- VBCAST (R129). -/
def execVbcast (d : VDst) (a : VSrc) (b : Src) (t : Ty) (m : MReg) (s : State) : Host.Outcome State Fault Refusal :=
  eachCtx s fun c =>
    let v := c.vl t a ((c.src b).toNat % laneCount t)
    c.vmerge d t.width m (fun _ => (v, 0))

/-- VSTEP: lane indices continue over the cores of a gang (R129, R143). -/
def execVstep (d : VDst) (a b : Src) (t : Ty) (sat : Bool) (m : MReg) (s : State) : Host.Outcome State Fault Refusal :=
  each s fun k s => .ok (s.onCtx k fun c =>
    c.vmerge d t.width m (fun i => laneStep t sat c.rm ((c.src a).toNat % 2 ^ t.width) ((c.src b).toNat % 2 ^ t.width)
      (laneCount t * c.gidx + i)))

/-- VADD (R127). -/
def execVadd (d : VDst) (a b : VSrc) (t : Ty) (sat : Bool) (m : MReg) (s : State) : Host.Outcome State Fault Refusal :=
  eachCtx s fun c => c.vbin d a b t m (laneBin t sat c.rm (· + ·) fAdd)

/-- VSUB (R127). -/
def execVsub (d : VDst) (a b : VSrc) (t : Ty) (sat : Bool) (m : MReg) (s : State) : Host.Outcome State Fault Refusal :=
  eachCtx s fun c => c.vbin d a b t m (laneBin t sat c.rm (· - ·) fSub)

/-- VMUL (R127). -/
def execVmul (d : VDst) (a b : VSrc) (t : Ty) (sat : Bool) (m : MReg) (s : State) : Host.Outcome State Fault Refusal :=
  eachCtx s fun c => c.vbin d a b t m (laneBin t sat c.rm (· * ·) fMul)

/-- VFMA (R127). -/
def execVfma (d : VDst) (a b e : VSrc) (t : Ty) (sat : Bool) (m : MReg) (s : State) : Host.Outcome State Fault Refusal :=
  eachCtx s fun c =>
    c.vmerge d t.width m (fun i =>
      if t.isInt then intLane t sat (fromInt t (c.vl t a i) * fromInt t (c.vl t b i) + fromInt t (c.vl t e i))
      else fFma t c.rm (c.vl t a i) (c.vl t b i) (c.vl t e i))

/-- VMIN (R127). -/
def execVmin (d : VDst) (a b : VSrc) (t : Ty) (m : MReg) (s : State) : Host.Outcome State Fault Refusal :=
  eachCtx s fun c => c.vbin d a b t m (laneBin t false c.rm min (fun t _ x y => fMinMax t false x y))

/-- VMAX (R127). -/
def execVmax (d : VDst) (a b : VSrc) (t : Ty) (m : MReg) (s : State) : Host.Outcome State Fault Refusal :=
  eachCtx s fun c => c.vbin d a b t m (laneBin t false c.rm max (fun t _ x y => fMinMax t true x y))

/-- VABS (R127). -/
def execVabs (d : VDst) (a : VSrc) (t : Ty) (sat : Bool) (m : MReg) (s : State) : Host.Outcome State Fault Refusal :=
  eachCtx s fun c => c.vmerge d t.width m (fun i => laneAbs t sat (c.vl t a i))

/-- VAND (R128). -/
def execVand (d : VDst) (a b : VSrc) (t : Ty) (m : MReg) (s : State) : Host.Outcome State Fault Refusal :=
  eachCtx s fun c => c.vbin d a b t m (fun x y => (x &&& y, 0))

/-- VOR (R128). -/
def execVor (d : VDst) (a b : VSrc) (t : Ty) (m : MReg) (s : State) : Host.Outcome State Fault Refusal :=
  eachCtx s fun c => c.vbin d a b t m (fun x y => (x ||| y, 0))

/-- VXOR (R128). -/
def execVxor (d : VDst) (a b : VSrc) (t : Ty) (m : MReg) (s : State) : Host.Outcome State Fault Refusal :=
  eachCtx s fun c => c.vbin d a b t m (fun x y => (x ^^^ y, 0))

/-- VSHL (R128). -/
def execVshl (d : VDst) (a b : VSrc) (t : Ty) (m : MReg) (s : State) : Host.Outcome State Fault Refusal :=
  eachCtx s fun c => c.vbin d a b t m (fun x y => (laneShl t.width x y, 0))

/-- VSHR (R128). -/
def execVshr (d : VDst) (a b : VSrc) (t : Ty) (m : MReg) (s : State) : Host.Outcome State Fault Refusal :=
  eachCtx s fun c => c.vbin d a b t m (fun x y => (laneShr t.width x y, 0))

/-- VSHA (R128). -/
def execVsha (d : VDst) (a b : VSrc) (t : Ty) (m : MReg) (s : State) : Host.Outcome State Fault Refusal :=
  eachCtx s fun c => c.vbin d a b t m (fun x y => (laneSha t.width x y, 0))

/-- VSETC: inactive lanes give 0; m0 discards the result and the flags are still set (R130). -/
def execVsetc (cc : Fin 16) (d : MReg) (a b : VSrc) (t : Ty) (m : MReg) (s : State) : Host.Outcome State Fault Refusal :=
  eachCtx s fun c =>
    let r := (List.range (laneCount t)).map (fun i =>
      if active (c.mask m) t.width i then
        let x := laneSetc t cc (c.vl t a i) (c.vl t b i)
        (maskBits t.width i x.1, x.2)
      else (0, 0))
    (c.setMask d (BitVec.ofNat 64 ((r.map (fun x => x.1)).sum))).raise (r.foldl (fun a x => orFlags a x.2) 0)

/-- VSEL: every lane is written (R131). -/
def execVsel (d : VDst) (a b : VSrc) (t : Ty) (m : MReg) (s : State) : Host.Outcome State Fault Refusal :=
  eachCtx s fun c =>
    c.vdst d (mergeLanes t.width (c.mask m) (c.vsrc t.width b) (fun i => (c.vl t a i, 0))).1

/-- VCVT, one part at a time (R134). -/
def execVcvt (d : VDst) (a : VSrc) (dt st : Ty) (part : Fin 8) (m : MReg) (s : State) : Host.Outcome State Fault Refusal :=
  eachCtx s fun c =>
    let w := max dt.width st.width
    let n := 512 / w
    let src := c.vsrc st.width a
    let conv := fun (i : Nat) => fun (j : Nat) =>
      if active (c.mask m) w i then some (convert (vlane st.width j src) st 0 dt 0 c.rm) else none
    if st.width ≤ dt.width then
      c.vput d (putElems dt.width (fun i => conv i (part.val * n + i)) n 0 ((c.vold d).toNat, 0))
    else
      c.vput d (putElems dt.width (fun i => conv i i) n (dt.width * (part.val * n)) ((c.vold d).toNat, 0))

/-- VPACK (R135 Table 7.3). -/
def execVpack (d : VDst) (a : VSrc) (t : Ty) (part : Fin 8) (m : MReg) (s : State) : Host.Outcome State Fault Refusal :=
  eachCtx s fun c =>
    c.vput d (putElems t.width (fun i =>
      if active (c.mask m) 8 i then some (convert (vlane 8 i (c.vsrc 8 a)) (packLane t) 0 t 0 c.rm) else none)
      64 (64 * t.width * part.val) ((c.vold d).toNat, 0))

/-- VUNPACK (R135 Table 7.3). -/
def execVunpack (d : VDst) (a : VSrc) (t : Ty) (part : Fin 8) (m : MReg) (s : State) : Host.Outcome State Fault Refusal :=
  eachCtx s fun c =>
    c.vput d (putElems 8 (fun i =>
      if active (c.mask m) 8 i then
        some (convert (bits (c.vsrc 8 a).toNat (64 * t.width * part.val + t.width * i) t.width) t 0 (packLane t) 0 c.rm)
      else none) 64 0 ((c.vold d).toNat, 0))

/-- VPERM (R132). -/
def execVperm (d : VDst) (a b : VSrc) (t : Ty) (m : MReg) (s : State) : Host.Outcome State Fault Refusal :=
  eachCtx s fun c => c.vbin d a b t m (fun _ y => (c.vl t a (y % laneCount t), 0))

/-- VSLIDE (R132). -/
def execVslide (d : VDst) (a b : VSrc) (e : Src) (t : Ty) (m : MReg) (s : State) : Host.Outcome State Fault Refusal :=
  eachCtx s fun c =>
    let n := laneCount t
    c.vmerge d t.width m (fun i =>
      let j := i + (c.src e).toNat
      (if j < n then c.vl t a j else if j < 2 * n then c.vl t b (j - n) else 0, 0))

/-- VEXTR (R133). -/
def execVextr (d : Dst) (a : VSrc) (b : Src) (t : Ty) (s : State) : Host.Outcome State Fault Refusal :=
  eachCtx s fun c => c.dst d (extend t (c.vl t a ((c.src b).toNat % laneCount t)))

/-- VINSR (R133). -/
def execVinsr (d : VDst) (a b : Src) (t : Ty) (s : State) : Host.Outcome State Fault Refusal :=
  eachCtx s fun c =>
    c.vput d (setBits (c.vold d).toNat (t.width * ((c.src b).toNat % laneCount t)) t.width (c.src a).toNat, 0)

/-- VRCP (R136, R137). -/
def execVrcp (d : VDst) (a : VSrc) (t : Ty) (m : MReg) (s : State) : Host.Outcome State Fault Refusal :=
  eachCtx s fun c => c.vmerge d t.width m (fun i => laneSfu t sRcp (c.vl t a i))

/-- VRSQ (R136, R137). -/
def execVrsq (d : VDst) (a : VSrc) (t : Ty) (m : MReg) (s : State) : Host.Outcome State Fault Refusal :=
  eachCtx s fun c => c.vmerge d t.width m (fun i => laneSfu t sRsq (c.vl t a i))

/-- VEXP2 (R136, R137). -/
def execVexp2 (d : VDst) (a : VSrc) (t : Ty) (m : MReg) (s : State) : Host.Outcome State Fault Refusal :=
  eachCtx s fun c => c.vmerge d t.width m (fun i => laneSfu t sExp2 (c.vl t a i))

/-- VLOG2 (R136, R137). -/
def execVlog2 (d : VDst) (a : VSrc) (t : Ty) (m : MReg) (s : State) : Host.Outcome State Fault Refusal :=
  eachCtx s fun c => c.vmerge d t.width m (fun i => laneSfu t sLog2 (c.vl t a i))

/-- VTANH (R136, R137). -/
def execVtanh (d : VDst) (a : VSrc) (t : Ty) (m : MReg) (s : State) : Host.Outcome State Fault Refusal :=
  eachCtx s fun c => c.vmerge d t.width m (fun i => laneSfu t sTanh (c.vl t a i))

/-- VDOT (R138): the mask is read at the width of the accumulation type. -/
def execVdot (d : VDst) (a b : VSrc) (t : Ty) (sat : Bool) (m : MReg) (s : State) : Host.Outcome State Fault Refusal :=
  eachCtx s fun c =>
    let wa := (dotAcc t).width
    let r := wa / t.width
    c.vmerge d wa m (fun j =>
      laneDot t sat (vlane wa j (c.vold d)) ((List.range r).map (fun q => (c.vl t a (r * j + q), c.vl t b (r * j + q)))))

/-- VSUM over the active lanes of the firing's cores (R139, R143). -/
def execVsum (d : VDst) (a : VSrc) (t : Ty) (sat : Bool) (m : MReg) (s : State) : Host.Outcome State Fault Refusal :=
  let r := sumLanes t sat (s.activeLanes s.cur t a m)
  gangWide s fun c => c.vput d r

/-- VRMAX (R140). -/
def execVrmax (d : VDst) (a : VSrc) (t : Ty) (m : MReg) (s : State) : Host.Outcome State Fault Refusal :=
  rankOp s true d none a t m

/-- VRMIN (R140). -/
def execVrmin (d : VDst) (a : VSrc) (t : Ty) (m : MReg) (s : State) : Host.Outcome State Fault Refusal :=
  rankOp s false d none a t m

/-- VARGMAX (R140). -/
def execVargmax (d : VDst) (ix : Fin 64) (a : VSrc) (t : Ty) (m : MReg) (s : State) : Host.Outcome State Fault Refusal :=
  rankOp s true d (some ix) a t m

/-- VARGMIN (R140). -/
def execVargmin (d : VDst) (ix : Fin 64) (a : VSrc) (t : Ty) (m : MReg) (s : State) : Host.Outcome State Fault Refusal :=
  rankOp s false d (some ix) a t m

/-- VTOPK: the lead core's pair merged with lanes 0 to 15 of every core (R141, R143). -/
def execVtopk (d : Fin 16) (a : VSrc) (b : Src) (k1 : Fin 16) (t : Ty) (min : Bool) (m : MReg) (s : State) :
    Host.Outcome State Fault Refusal :=
  let k := k1.val + 1
  let keys := (s.ctx s.cur).vreg (2 * d.val)
  let idxs := (s.ctx s.cur).vreg (2 * d.val + 1)
  let old := ((List.range k).map (fun e => (vlane t.width e keys, vlane 32 e idxs))).filter (fun x => x.2 ≠ 0xFFFFFFFF)
  let new := (s.members s.cur).flatMap (fun w =>
    let c := s.ctx w
    (List.range 16).filterMap (fun i =>
      if active (c.mask m) t.width i then
        some (c.vl t a i, ((c.src b).toNat + 16 * ((w - s.cur) / 4) + i) % 2 ^ 32) else none))
  let r := topk t (!min) k old new
  let pad := List.replicate (16 - r.length) 0xFFFFFFFF
  gangWide s fun c =>
    (c.setVreg (2 * d.val) (BitVec.ofNat 512 (ofLanes t.width (r.map (fun x => x.1))))).setVreg (2 * d.val + 1)
      (BitVec.ofNat 512 (ofLanes 32 (r.map (fun x => x.2) ++ pad)))

/-- VXRD: the register of a neighbour of the gang, read before any core writes (R144). -/
def execVxrd (d : VDst) (a : VSrc) (b : Src) (t : Ty) (m : MReg) (s : State) : Host.Outcome State Fault Refusal :=
  each s fun k s' => .ok (s'.onCtx k fun c =>
    let from_ := if c.gang then s.cur + 4 * ((c.gidx + (c.src b).toNat) % 4) else k
    let v := (s.ctx from_).vsrc t.width a
    c.vmerge d t.width m (fun i => (vlane t.width i v, 0)))

/-- MAND (R142). -/
def execMand (a b e : MReg) (s : State) : Host.Outcome State Fault Refusal :=
  eachCtx s fun c => c.setMask a (c.mask b &&& c.mask e)

/-- MOR (R142). -/
def execMor (a b e : MReg) (s : State) : Host.Outcome State Fault Refusal :=
  eachCtx s fun c => c.setMask a (c.mask b ||| c.mask e)

/-- MXOR (R142). -/
def execMxor (a b e : MReg) (s : State) : Host.Outcome State Fault Refusal :=
  eachCtx s fun c => c.setMask a (c.mask b ^^^ c.mask e)

/-- MNOT (R142). -/
def execMnot (a b : MReg) (s : State) : Host.Outcome State Fault Refusal :=
  eachCtx s fun c => c.setMask a (~~~ c.mask b)

/-- MCNT (R142). -/
def execMcnt (d : Dst) (b : MReg) (t : Ty) (s : State) : Host.Outcome State Fault Refusal :=
  eachCtx s fun c =>
    c.dst d (BitVec.ofNat 64 ((List.range (laneCount t)).filter (fun i => active (c.mask b) t.width i)).length)

/-- MFIRST (R142). -/
def execMfirst (d : Dst) (b : MReg) (t : Ty) (s : State) : Host.Outcome State Fault Refusal :=
  eachCtx s fun c =>
    c.dst d (BitVec.ofNat 64 (((List.range (laneCount t)).find? (fun i => active (c.mask b) t.width i)).getD (laneCount t)))

end Sys2Proof.Machine
end

