-- ==== Sys2Proof/Machine/Array.lean ====
section
/-! DEFINITION. The matrix array: what an actor holds on it, the lease, and the ten matrix instructions (R146 to R171 of
spec/08_matrix.md). -/

namespace Sys2Proof.Machine

/-! ### Items and their owners (R147, R148) -/

/-- Name of an actor among the owners of array items. -/
def actorKey (part aid : Nat) : Nat := part * 2 ^ 24 + aid
/-- Name of the actor of a firing. -/
def Ctx.key (c : Ctx) : Nat := actorKey c.part c.aid
/-- Numbers of the set bits of a mask below `n`. -/
def maskList (n m : Nat) : List Nat := (List.range n).filter (fun i => bit m i)
/-- Mask of a list of numbers. -/
def listMask (l : List Nat) : Nat := l.foldl (fun a i => a + 2 ^ i) 0
/-- Items of an ownership table that an actor holds. -/
def heldBy (own : FMap Nat) (key : Nat) : List Nat := (own.filter (fun x => x.2 = key)).map (fun x => x.1)
/-- Tiles that an actor holds. -/
def Cluster.tilesOf (k : Cluster) (key : Nat) : List Nat := heldBy k.tileOwn key
/-- Pairs that an actor holds. -/
def Cluster.pairsOf (k : Cluster) (key : Nat) : List Nat := heldBy k.pairOwn key

/-- Record in the descriptor of a firing's actor which items it holds (R302). -/
def State.noteItems (s : State) (gc slot cl key : Nat) : State :=
  let k := s.clu cl
  s.setDesc gc slot 1 (setBits (setBits (s.desc gc slot 1) 16 16 (listMask (k.tilesOf key))) 12 4 (listMask (k.pairsOf key)))

/-- Give a tile to an actor, cleared (R158). -/
def Cluster.giveTile (k : Cluster) (key t : Nat) : Cluster :=
  { k with tileOwn := FMap.set k.tileOwn t key, tiles := FMap.erase k.tiles t }

/-- Give a pair to an actor: both planes cleared and tagged I8 with shift 0, the even one active (R158). -/
def Cluster.givePair (k : Cluster) (key p : Nat) : Cluster :=
  { k with
    pairOwn := FMap.set k.pairOwn p key
    planes := FMap.erase (FMap.erase k.planes (2 * p)) (2 * p + 1)
    ptag := FMap.set (FMap.set k.ptag (2 * p) (Ty.i8, 0)) (2 * p + 1) (Ty.i8, 0)
    psel := FMap.erase k.psel p }

/-- Release a tile; freed items are unreadable until they are allocated (R159). -/
def Cluster.dropTile (k : Cluster) (t : Nat) : Cluster :=
  { k with tileOwn := FMap.erase k.tileOwn t, tiles := FMap.erase k.tiles t }

/-- Release a pair. -/
def Cluster.dropPair (k : Cluster) (p : Nat) : Cluster :=
  { k with
    pairOwn := FMap.erase k.pairOwn p
    planes := FMap.erase (FMap.erase k.planes (2 * p)) (2 * p + 1)
    ptag := FMap.erase (FMap.erase k.ptag (2 * p)) (2 * p + 1)
    psel := FMap.erase k.psel p }

/-- Create the configuration record of an actor with its first allocation, and delete it with the last one (R151). -/
def Cluster.tidyRec (k : Cluster) (key : Nat) : Cluster :=
  if k.tilesOf key = [] ∧ k.pairsOf key = [] then { k with mrecs := FMap.erase k.mrecs key }
  else if (FMap.find k.mrecs key).isSome then k
  else { k with mrecs := FMap.set k.mrecs key {} }

/-- The firing's actor holds a tile. -/
def State.holdsTile (s : State) (w t : Nat) : Bool :=
  let c := s.ctx w
  decide (c.kind = .actor) && decide (FMap.find (s.clu (cluOf (coreOf w))).tileOwn t = some c.key)

/-- The firing's actor holds a pair. -/
def State.holdsPair (s : State) (w p : Nat) : Bool :=
  let c := s.ctx w
  decide (c.kind = .actor) && decide (FMap.find (s.clu (cluOf (coreOf w))).pairOwn p = some c.key)

/-- Tile that a queued command names. -/
def MOp.tile? : MOp → Option Nat
  | .stream t .. => some t
  | .epi _ _ t .. => some t
  | _ => none

/-- Pair that a queued command names. -/
def MOp.pair? : MOp → Option Nat
  | .loadw p .. => some p
  | .swap p => some p
  | .stream _ p .. => some p
  | _ => none

/-- A queued command names one of these items. -/
def MCmd.names (m : MCmd) (tiles pairs : List Nat) : Bool :=
  (match m.op.tile? with | some t => tiles.contains t | none => false) ||
  (match m.op.pair? with | some p => pairs.contains p | none => false)

/-- Owner key of a queued command. -/
def MCmd.key (m : MCmd) : Nat := actorKey m.org.part m.org.aid

/-! ### MLEASE, MFREE, MCFG -/

/-- The status and the new array of an MLEASE of tiles `t` and pairs `p` (R158). -/
def Cluster.lease (k : Cluster) (key tq pq : Nat) (t p : List Nat) : Nat × Cluster :=
  let mine := fun (own : FMap Nat) (i : Nat) => decide (FMap.find own i = some key)
  let other := fun (own : FMap Nat) (i : Nat) => (FMap.find own i).isSome && !mine own i
  let newT := t.filter (fun i => !mine k.tileOwn i)
  let newP := p.filter (fun i => !mine k.pairOwn i)
  if t.any (other k.tileOwn) || p.any (other k.pairOwn) then (1, k)
  else if tq < (k.tilesOf key).length + newT.length ∨ pq < (k.pairsOf key).length + newP.length then (2, k)
  else
    let k := newT.foldl (fun k i => k.giveTile key i) k
    let k := newP.foldl (fun k i => k.givePair key i) k
    (0, k.tidyRec key)

/-- Flag word of an actor on an array. -/
def Cluster.flagWord (k : Cluster) (key : Nat) : Nat := (FMap.get {} k.mrecs key).flags

/-- Clear the flag word of an actor, if it has a record. -/
def Cluster.clearFlags (k : Cluster) (key : Nat) : Cluster :=
  match FMap.find k.mrecs key with
  | some r => { k with mrecs := FMap.set k.mrecs key { r with flags := 0 } }
  | none => k

/-- MLEASE at the direct port: the status word and the state. -/
def State.mleaseDo (s : State) (w : Nat) (a b : Word) (clr : Bool) : Nat × State :=
  let c := s.ctx w
  let gc := coreOf w
  if c.kind ≠ .actor then (3, s)
  else
    let d := s.desc gc c.slot 1
    let r := (s.clu (cluOf gc)).lease c.key (bits d 4 5) (bits d 9 3) (maskList 16 a.toNat) (maskList 4 b.toNat)
    let k := r.2
    let v := r.1 + k.flagWord c.key * 2 ^ 8 + listMask (k.tilesOf c.key) * 2 ^ 16 + listMask (k.pairsOf c.key) * 2 ^ 32
    (v, (s.setClu (cluOf gc) (if clr then k.clearFlags c.key else k)).noteItems gc c.slot (cluOf gc) c.key)

/-- Write one value to a destination on every context of the current firing (R171, R363, R298). -/
def State.toAll (s : State) (w : Nat) (f : Ctx → Ctx) : State := (s.members w).foldl (fun s m => s.onCtx m f) s

/-- MLEASE (R158). -/
def execMlease (d : Dst) (a b : Src) (clr : Bool) (s : State) : Host.Outcome State Fault Refusal :=
  once s fun w s =>
    match s.commit w with
    | .error e => .error e
    | .ok s =>
      let r := s.mleaseDo w ((s.ctx w).src a) ((s.ctx w).src b) clr
      .ok (r.2.toAll w (fun c => c.dst d (BitVec.ofNat 64 r.1)))

/-- The fault for an array item that is not held (R147): the number of the tile or pair. -/
def itemTrap (i : Nat) : Trap := permTrap 5 (BitVec.ofNat 64 i)

/-- MFREE (R159). -/
def execMfree (a b : Src) (s : State) : Host.Outcome State Fault Refusal :=
  once s fun w s =>
    let c := s.ctx w
    let t := maskList 16 (c.src a).toNat
    let p := maskList 4 (c.src b).toNat
    if c.kind ≠ .actor ∧ (t ≠ [] ∨ p ≠ []) then .error (.trap (itemTrap ((t ++ p).headD 0)))
    else match s.commit w with
      | .error e => .error e
      | .ok s =>
        let cl := cluOf (coreOf w)
        let k := s.clu cl
        let t := t.filter (fun i => s.holdsTile w i)
        let p := p.filter (fun i => s.holdsPair w i)
        if k.inbox.any (fun m => decide (m.key = c.key) && m.names t p) then .error (.wait s)
        else if t = [] ∧ p = [] then .ok s
        else
          let k := t.foldl (fun k i => k.dropTile i) k
          let k := p.foldl (fun k i => k.dropPair i) k
          .ok ((s.setClu cl (k.tidyRec c.key)).noteItems (coreOf w) c.slot cl c.key)

/-- MCFG (R151, R159, R164). -/
def execMcfg (a b : Src) (dfmt : Ty) (rm : RM) (act : Act) (sen ben : Bool) (dshift : BitVec 8) (s : State) :
    Host.Outcome State Fault Refusal :=
  once s fun w s =>
    let c := s.ctx w
    let cl := cluOf (coreOf w)
    match (if c.kind = .actor then FMap.find (s.clu cl).mrecs c.key else none) with
    | none => .error (.trap (permTrap 5 0))
    | some _ =>
      if 0x100000 ≤ (c.src a).toNat then .error (.trap (permTrap 3 (c.src a)))
      else if 0x100000 ≤ (c.src b).toNat then .error (.trap (permTrap 3 (c.src b)))
      else match s.commit w with
        | .error e => .error e
        | .ok s => .ok (s.onClu cl (fun k =>
            let r := FMap.get {} k.mrecs c.key
            let r' : MRec := { dfmt := dfmt, rm := rm, act := act, sen := sen, ben := ben, dshift := dshift.toInt,
                               scale := (c.src a).toNat, bias := (c.src b).toNat, flags := r.flags }
            { k with mrecs := FMap.set k.mrecs c.key r' }))

/-! ### Queued commands: snapshot, lease and inbox (R149, R152, R154) -/

/-- Charge of a power class by the width of the wider operand (Table 8.3, R407). -/
def wattsOf (t : Ty) : Nat :=
  if t.width ≤ 4 then 32 else if t.width ≤ 8 then 16 else if t.width ≤ 16 then 8 else if t.width ≤ 32 then 4 else 2

/-- Type and shift of the active plane of a pair. -/
def Cluster.activePlane (k : Cluster) (p : Nat) : Nat := if FMap.get false k.psel p then 2 * p + 1 else 2 * p
/-- The shadow plane of a pair. -/
def Cluster.shadowPlane (k : Cluster) (p : Nat) : Nat := if FMap.get false k.psel p then 2 * p else 2 * p + 1
/-- Format tag of a plane (R146). -/
def Cluster.tagOf (k : Cluster) (pl : Nat) : Ty × Int := FMap.get (Ty.i8, 0) k.ptag pl

/-- Charge of the power class a command runs in. MSWAP and MEPI take the lowest class (DEDUCED, log entry 22). -/
def Cluster.cmdWatts (k : Cluster) (op : MOp) : Nat :=
  match op with
  | .loadw _ _ _ b => wattsOf (b.fmt.getD .f64)
  | .stream _ p _ _ _ _ _ b => min (wattsOf (b.fmt.getD .f64)) (wattsOf (k.tagOf (k.activePlane p)).1)
  | .swap _ => 2
  | .epi .. => 2

/-- Snapshot of a bank format register (R152). -/
def Core.snap (c : Core) (bank : Nat) : BankFmt :=
  let v := c.bank bank
  { fmt := bankTy v, shift := bankShift v, rm := bankRm v, order := bits v 8 2 }

/-- The format is one of the sixteen matrix operand formats (R83). -/
def matrixTy : Option Ty → Bool
  | none => false
  | some .i32 => false | some .i64 => false
  | some .ui16 => false | some .ui32 => false | some .ui64 => false
  | some _ => true

/-- Put a queued command into the inbox of the firing's array: request the lease and wait for it, wait while the inbox or
the tl counter is full, then publish and enter (Table 8.1, R154, R155). -/
def State.enqueue (s : State) (w : Nat) (op : MOp) : Except Stop State :=
  let cl := cluOf (coreOf w)
  let k := s.clu cl
  if k.holder ≠ some w then
    .error (.wait ((s.setClu cl { k with leaseReq := k.leaseReq ++ [(w, k.cmdWatts op)] }).onCtx w (fun c => { c with phase := .lease })))
  else if 64 ≤ k.inbox.length ∨ 255 ≤ (s.ctx w).ocTl then .error (.wait s)
  else match s.commit w with
    | .error e => .error e
    | .ok s =>
      let m : MCmd := { uid := s.uid, tag := k.mtag, op := op, org := s.origin w, ran := false, flags := 0,
                        tFence := (s.ctx w).tFence }
      let k := s.clu cl
      let left := k.leaseLeft - 1
      let k := { k with inbox := k.inbox ++ [m], mtag := (k.mtag + 1) % 65536, leaseLeft := left,
                        holder := if left = 0 then none else k.holder }
      .ok ((s.setClu cl k).onCtx w (fun c => { c with ocTl := c.ocTl + 1 })).fresh

/-- Some row of `n` bytes starts or ends outside the bank of the first byte, or in memory the firing may not use. -/
def State.rowsBad (s : State) (w base : Nat) (write : Bool) (rows : List Range) : Option Trap :=
  let bank := base / 0x10000
  match rows.find? (fun r => decide (0x100000 < r.1 + r.2) || decide (r.1 / 0x10000 ≠ bank) ||
      decide (r.2 ≠ 0 ∧ (r.1 + r.2 - 1) / 0x10000 ≠ bank)) with
  | some r => some (permTrap 3 (BitVec.ofNat 64 r.1))
  | none =>
    match rows.find? (fun r => (List.range r.2).any (fun i => !localOk (s.ctx w) (s.core (coreOf w)) (w % 4) write (r.1 + i))) with
    | some r => some (permTrap 1 (BitVec.ofNat 64 r.1))
    | none => none

/-- Rows of a command: `n` rows of `len` bytes, `stride` apart. -/
def rowsAt (base stride len n : Nat) : List Range := (List.range n).map (fun q => (base + q * stride, len))

/-- Bytes of `n` elements of `w` bits (R160). -/
def rowBytes (w n : Nat) : Nat := ceilDiv (w * n) 8

/-- Packed stride of R160 where the operand is 0. -/
def strideOr (v bytes : Nat) : Nat := if v = 0 then roundUp bytes 16 else v

/-- Output columns by weight type (Table 8.3). -/
def colsOf (t : Ty) : Nat := if t.width ≤ 16 then 128 else if t.width = 32 then 64 else 32

/-- The rows that an MLOADW reads, by the order of its bank (R160, R161): their number, the bytes of each, the stride. -/
def loadwRows (t : Ty) (order stride : Nat) : Nat × Nat × Nat :=
  let c := colsOf t
  let bytes := match order with
    | 0 => rowBytes t.width c
    | 1 => rowBytes t.width 128
    | _ => rowBytes t.width (16 * c)
  (match order with | 0 => 128 | 1 => c | _ => 8, bytes, strideOr stride bytes)

/-- A source address and stride that are multiples of 16. -/
def strideTrap (a stride : Word) : Option Trap :=
  if a.toNat % 16 ≠ 0 then some (alignTrap a) else if stride.toNat % 16 ≠ 0 then some (alignTrap stride) else none

/-- The bank of a matrix source, its snapshot, or the fault of its range or format (R153, R160). -/
def State.sourceBank (s : State) (w : Nat) (a : Word) : Except Stop BankFmt :=
  if 0x100000 ≤ a.toNat then .error (.trap (permTrap 3 a))
  else
    let b := (s.core (coreOf w)).snap (a.toNat / 0x10000)
    if matrixTy b.fmt then .ok b else .error (.trap (permTrap 6 (BitVec.ofNat 64 (a.toNat / 0x10000))))

/-- MLOADW (R161). -/
def execMloadw (p : Fin 4) (a b : Src) (s : State) : Host.Outcome State Fault Refusal :=
  once s fun w s =>
    let c := s.ctx w
    if !s.holdsPair w p.val then .error (.trap (itemTrap p.val))
    else match strideTrap (c.src a) (c.src b) with
      | some t => .error (.trap t)
      | none =>
        match s.sourceBank w (c.src a) with
        | .error e => .error e
        | .ok bf =>
          let r := loadwRows (bf.fmt.getD .i8) bf.order (c.src b).toNat
          match s.rowsBad w (c.src a).toNat false (rowsAt (c.src a).toNat r.2.2 r.2.1 r.1) with
          | some t => .error (.trap t)
          | none => s.enqueue w (.loadw p.val (c.src a).toNat r.2.2 bf)

/-- MSWAP (R161). -/
def execMswap (p : Fin 4) (s : State) : Host.Outcome State Fault Refusal :=
  once s fun w s =>
    if !s.holdsPair w p.val then .error (.trap (itemTrap p.val)) else s.enqueue w (.swap p.val)

/-- MSTREAM (R162). -/
def execMstream (t : Fin 16) (p : Fin 4) (a b : Src) (row0 n1 : Fin 128) (sat : Bool) (s : State) :
    Host.Outcome State Fault Refusal :=
  once s fun w s =>
    let c := s.ctx w
    if !s.holdsTile w t.val then .error (.trap (itemTrap t.val))
    else if !s.holdsPair w p.val then .error (.trap (itemTrap p.val))
    else match strideTrap (c.src a) (c.src b) with
      | some x => .error (.trap x)
      | none =>
        match s.sourceBank w (c.src a) with
        | .error e => .error e
        | .ok bf =>
          let bytes := rowBytes (bf.fmt.getD .i8).width 128
          let st := strideOr (c.src b).toNat bytes
          match s.rowsBad w (c.src a).toNat false (rowsAt (c.src a).toNat st bytes (n1.val + 1)) with
          | some x => .error (.trap x)
          | none => s.enqueue w (.stream t.val p.val (c.src a).toNat st row0.val (n1.val + 1) sat bf)

/-- Bytes of a scale or bias element of an MEPI kind (R164). -/
def vecBytes : MKind → Nat
  | .f64 => 8
  | _ => 4

/-- Enabled scale and bias vectors of a record: their base addresses (R164). -/
def MRec.vectors (r : MRec) : List Nat := (if r.sen then [r.scale] else []) ++ (if r.ben then [r.bias] else [])

/-- Destination of an MEPI in the issuing core's scratchpad: the snapshot of its bank, or its faults (R160, R163). -/
def State.epiLocal (s : State) (w : Nat) (cfg : MRec) (a : Nat) (stride n ncol : Nat) : Except Stop (Option BankFmt × Nat) :=
  if 0x100000 ≤ a then .error (.trap (permTrap 3 (BitVec.ofNat 64 a)))
  else
    let bf := (s.core (coreOf w)).snap (a / 0x10000)
    let bytes := rowBytes (bf.fmt.getD cfg.dfmt).width ncol
    let st := strideOr stride bytes
    match s.rowsBad w a true (rowsAt a st bytes n) with
    | some t => .error (.trap t)
    | none => .ok (some bf, st)

/-- MEPI (R163 to R165, R168). -/
def execMepi (k : MKind) (g : Bool) (t : Fin 16) (a b : Src) (row0 n1 ncol1 : Fin 128) (s : State) :
    Host.Outcome State Fault Refusal :=
  once s fun w s =>
    let c := s.ctx w
    let n := n1.val + 1
    let ncol := ncol1.val + 1
    let av := (c.src a).toNat
    let bv := (c.src b).toNat
    if !s.holdsTile w t.val then .error (.trap (itemTrap t.val))
    else
      let cfg := FMap.get {} (s.clu (cluOf (coreOf w))).mrecs c.key
      match strideTrap (c.src a) (c.src b), cfg.vectors.find? (fun v => decide (v % 16 ≠ 0)) with
      | some x, _ => .error (.trap x)
      | none, some v => .error (.trap (alignTrap (BitVec.ofNat 64 v)))
      | none, none =>
        let vecs := cfg.vectors.map (fun v => (v, s.rowsBad w v false [(v, ncol * vecBytes k)]))
        match (if g then .ok (none, strideOr bv (rowBytes cfg.dfmt.width ncol)) else s.epiLocal w cfg av bv n ncol) with
        | .error e => .error e
        | .ok (bank, st) =>
          match vecs.filterMap (fun v => v.2) with
          | x :: _ => .error (.trap x)
          | [] =>
            if g then
              let rows := rowsAt av st (rowBytes cfg.dfmt.width ncol) n
              match rangesTrap rows, s.leavesOf w .write rows with
              | some x, _ => .error (.trap x)
              | none, .error e => .error (s.missing w rows e)
              | none, .ok s =>
                match s.spansOfAll w .write rows with
                | .error e => .error e
                | .ok sp => s.enqueue w (.epi k true t.val av st row0.val n ncol cfg none sp)
            else s.enqueue w (.epi k false t.val av st row0.val n ncol cfg bank [])

/-! ### Direct tile access (R166, R167) -/

/-- The accumulator-busy trap: the oldest incomplete command of the same actor that names the tile (R167). -/
def State.tileBusy (s : State) (w t : Nat) : Option Trap :=
  match (s.clu (cluOf (coreOf w))).inbox.find? (fun m => decide (m.key = (s.ctx w).key) && decide (m.op.tile? = some t)) with
  | some m => some { code := 8, cls := 1, detail := t + m.tag * 2 ^ 16 }
  | none => none

/-- Faults of a direct tile access. -/
def State.tileTrap (s : State) (w t : Nat) : Option Trap := if s.holdsTile w t then s.tileBusy w t else some (itemTrap t)

/-- A write of a tile at the direct port: a commit point, behind the fault of a tile not held; a busy tile traps after the commit, so the
firing has passed its replay boundary (R155, R167). -/
def directTile (t : Nat) (f : Nat → State → State) (s : State) : Host.Outcome State Fault Refusal :=
  let w := s.cur
  if !s.holdsTile w t then finish s (.error (.trap (itemTrap t)))
  else match s.commit w with
  | .error e => finish s (.error e)
  | .ok s =>
    match s.tileBusy w t with
    | some x => finish s (.error (.trap x))
    | none => finish s (.ok (f w s))

/-- MZERO (R166). -/
def execMzero (t : Fin 16) (s : State) : Host.Outcome State Fault Refusal :=
  directTile t.val (s := s) fun w s => s.onClu (cluOf (coreOf w)) (fun k => { k with tiles := FMap.erase k.tiles t.val })

/-- First element of the group of 16 that context `m` of the firing moves (R166, R171). -/
def groupBase (pos : Word) (gidx : Nat) : Nat := bits pos.toNat 0 7 * 128 + 16 * ((bits pos.toNat 7 3 + gidx) % 8)

/-- Element of a tile. -/
def Cluster.tileAt (k : Cluster) (t i : Nat) : Nat := FMap.get 0 (FMap.get [] k.tiles t) i
/-- Write an element of a tile. -/
def Cluster.setTile (k : Cluster) (t i v : Nat) : Cluster :=
  { k with tiles := FMap.put [] k.tiles t (FMap.put 0 (FMap.get [] k.tiles t) i (v % 2 ^ 32)) }

/-- MACCRD: 16 elements into the lanes of a register, merged under the mask (R166). -/
def execMaccrd (_k : TTy) (d : VDst) (b : Src) (t : Fin 16) (m : MReg) (s : State) : Host.Outcome State Fault Refusal :=
  match s.tileTrap s.cur t.val with
  | some x => finish s (.error (.trap x))
  | none =>
    let k := s.clu (cluOf (coreOf s.cur))
    eachCtx s fun c => c.vmerge d 32 m (fun i => (k.tileAt t.val (groupBase (c.src b) c.gidx + i), 0))

/-- Elements of a MACCWR of one context. -/
def Cluster.putGroup (k : Cluster) (c : Ctx) (t base : Nat) (m : MReg) (v : VWord) : List Nat → Cluster
  | [] => k
  | i :: l => (if active (c.mask m) 32 i then k.setTile t (base + i) (lane 32 i v.toNat) else k).putGroup c t base m v l

/-- MACCWR (R166). -/
def execMaccwr (_k : TTy) (a : VSrc) (b : Src) (t : Fin 16) (m : MReg) (s : State) : Host.Outcome State Fault Refusal :=
  directTile t.val (s := s) fun w s =>
    (s.members w).foldl (fun s x =>
      let c := s.ctx x
      s.onClu (cluOf (coreOf w)) (fun k =>
        k.putGroup c t.val (groupBase (c.src b) c.gidx) m (c.vsrc 32 a) (List.range 16))) s

end Sys2Proof.Machine
end

