-- ==== Sys2Proof/Machine/ArrayRun.lean ====
section
/-! DEFINITION. What the array and the power manager do by themselves: leases, leave, the ramp limiter, and the running and
completion of queued commands (R149, R154 to R165 of spec/08_matrix.md; R407 to R409 of spec/21_outside.md). -/

namespace Sys2Proof.Machine

/-! ### Leave (R407) -/

/-- Name of an array among the requests for leave. -/
def arrayName (cl : Nat) : Nat := cl
/-- Name of an engine command among the requests for leave. -/
def cmdName (uid : Nat) : Nat := 2 ^ 32 + uid
/-- Charge of an edge-engine command of more than 1 MiB, and of a BSEL (R407). -/
def engineWatts (e : EngCmd) : Nat := if e.kind = 4 then 12 else 8
/-- Die of a cluster. -/
def dieOfClu (cl : Nat) : Nat := cl / 32
/-- Module of a die. -/
def modOfDie (d : Nat) : Nat := d / 8

/-- A request of this charge or more stands in the queue of a die already. -/
def State.asked (s : State) (d name watts : Nat) : Bool :=
  (s.die d).fifo.any (fun x => decide (x.1 = name) && decide (watts ≤ x.2))

/-- Put a request for leave behind the others of its die, unless it stands there already. -/
def State.askLeave (s : State) (d name watts : Nat) : State :=
  if s.asked d name watts then s
  else s.onDie d (fun x => { x with fifo := x.fifo ++ [(name, watts)] })

/-- Leave that the holder of a request has already. -/
def State.leaveOf (s : State) (name : Nat) : Nat := if name < 2 ^ 32 then (s.clu name).leave else 0

/-- LEAVE_GRANT: the power manager of die `State.sel` grants its oldest request when the charge fits in 600 W and the cold
plate does not report overheating; an array is charged the difference (R407). -/
def execLeaveGrant (s : State) : Host.Outcome State Fault Refusal :=
  let d := s.sel
  match (s.die d).fifo with
  | [] => notEnabled
  | (name, watts) :: r =>
    let more := watts - s.leaveOf name
    if (s.mod (modOfDie d)).hot ∨ 600 < (s.die d).leave + more then notEnabled
    else
      let s := s.onDie d (fun x => { x with fifo := r, leave := x.leave + more })
      if name < 2 ^ 32 then
        .next (s.onClu name (fun k => { k with leave := max k.leave watts, leaveIdle := s.now }))
      else .next { s with engines := s.engines.map (fun e => if cmdName e.uid = name then { e with granted := true } else e) }

/-- LEAVE_RELEASE: the array of cluster `State.sel` has had no queued command for 4,000 cycles (R407). -/
def execLeaveRelease (s : State) : Host.Outcome State Fault Refusal :=
  let k := s.clu s.sel
  if k.leave = 0 ∨ k.inbox ≠ [] ∨ s.now < k.leaveIdle + 4000 then notEnabled
  else .next ((s.setClu s.sel { k with leave := 0 }).onDie (dieOfClu s.sel) (fun x => { x with leave := x.leave - k.leave }))

/-- OVERHEAT_REPORT: the cold plate of module `State.sel` reports overheating (R407). -/
def execOverheatReport (s : State) : Host.Outcome State Fault Refusal :=
  .next (s.onMod s.sel (fun m => { m with hot := true }))

/-- OVERHEAT_CLEAR: it stops reporting (R407). -/
def execOverheatClear (s : State) : Host.Outcome State Fault Refusal :=
  .next (s.onMod s.sel (fun m => { m with hot := false }))

/-- Multiply-accumulates of a die in a window at its peak: 32 arrays of 32,768 per clock (R408, Table 8.3). -/
def windowPeak : Nat := 32 * 32768 * 4000

/-- RAMP_WINDOW: a window of die `State.sel` ends. When its activity fell by more than P / 8 the limiter has run dummies, for
at most two windows in a row (R408). -/
def execRampWindow (s : State) : Host.Outcome State Fault Refusal :=
  let x := s.die s.sel
  if s.now < x.winAt + 4000 then notEnabled
  else
    let low := x.last - windowPeak / 8
    let dummy := decide (x.work < low) && decide (x.dummy < 2)
    let last := if dummy then low else x.work
    .next (s.setDie s.sel { x with last := last, work := 0, dummy := if dummy then x.dummy + 1 else 0, winAt := s.now })

/-- POWER_FORECAST_READ: the power manager of die `State.sel` reads `%fcst` of its cores (R409). Nothing visible changes. -/
def execPowerForecastRead (s : State) : Host.Outcome State Fault Refusal :=
  let x := s.die s.sel
  if s.now < x.fcAt + 256 then notEnabled
  else .next (s.setDie s.sel { x with fcAt := s.now,
                                      fcast := (List.range 256).foldl (fun a i => a + (s.core (s.sel * 256 + i)).fcst) 0 })

/-! ### Leases (R149, R150) -/

/-- LEASE_GRANT: the arbiter of cluster `State.sel` grants its oldest request once leave is held for the array's class, and
asks for that leave until then. -/
def execLeaseGrant (s : State) : Host.Outcome State Fault Refusal :=
  let cl := s.sel
  let k := s.clu cl
  match k.holder, k.leaseReq with
  | none, (w, watts) :: r =>
    if k.leave < watts then
      if s.asked (dieOfClu cl) (arrayName cl) watts then notEnabled
      else .next (s.askLeave (dieOfClu cl) (arrayName cl) watts)
    else
      let q := if k.leaseQ = 0 then 1024 else k.leaseQ
      .next ((s.setClu cl { k with leaseReq := r, holder := some w, leaseLeft := q }).onCtx w (fun c =>
        { c with phase := if c.phase = .lease then Phase.running else c.phase }))
  | _, _ => notEnabled

/-! ### Starting a queued command (R154 Table 8.4) -/

/-- The first command of an inbox that has not run, with those before it. -/
def nextCmd : List MCmd → List MCmd → Option (List MCmd × MCmd)
  | _, [] => none
  | before, m :: l => if m.ran then nextCmd (before ++ [m]) l else some (before, m)

/-- An earlier incomplete command that the command waits for (Table 8.4). -/
def MOp.waitsFor (op e : MOp) : Bool :=
  match op, e with
  | .loadw p .., .swap q => decide (p = q)
  | .swap p, .loadw q .. => decide (p = q)
  | .swap p, .stream _ q .. => decide (p = q)
  | .stream _ p .., .swap q => decide (p = q)
  | .stream t .., .epi _ _ u .. => decide (t = u)
  | .epi _ _ t .., .stream u .. => decide (t = u)
  | _, _ => false

/-- Earlier stores of the issuing context to its core's scratchpad are performed (R156). -/
def State.scratchDone (s : State) (m : MCmd) : Bool :=
  !(s.wq.any (fun e => decide (e.org.w = m.org.w) && decide (e.uid < m.uid) &&
    (match s.region e.pa with | .scratch _ _ => true | _ => false)))

/-- The command that the array of a cluster can run next, its waits met. -/
def State.readyCmd (s : State) (cl : Nat) : Option MCmd :=
  match nextCmd [] (s.clu cl).inbox with
  | some (before, m) => if before.any (fun e => m.op.waitsFor e.op) || !s.scratchDone m then none else some m
  | none => none

/-- Mark a command as run, with the flags it raised. -/
def Cluster.ranCmd (k : Cluster) (uid flags : Nat) : Cluster :=
  { k with inbox := k.inbox.map (fun m => if m.uid = uid then { m with ran := true, flags := flags } else m) }

/-- Run the next command of cluster `cl` when `f` gives its effect, once leave for its class is held: the state and its
flags (R407). -/
def State.runCmd (s : State) (cl : Nat) (f : MCmd → Option (State × Nat)) : Host.Outcome State Fault Refusal :=
  match s.readyCmd cl with
  | none => notEnabled
  | some m =>
    match f m with
    | none => notEnabled
    | some r =>
      let watts := (s.clu cl).cmdWatts m.op
      if (s.clu cl).leave < watts then
        if s.asked (dieOfClu cl) (arrayName cl) watts then notEnabled
        else .next (s.askLeave (dieOfClu cl) (arrayName cl) watts)
      else .next (r.1.onClu cl (fun k => k.ranCmd m.uid r.2))

/-! ### MLOADW and MSWAP (R161) -/

/-- Bit offset of element (k, j) of a weight block (R161). -/
def loadwBit (t : Ty) (order stride k j : Nat) : Nat :=
  match order with
  | 0 => 8 * (k * stride) + t.width * j
  | 1 => 8 * (j * stride) + t.width * k
  | _ => 8 * (k / 16 * stride) + t.width * (16 * j + k % 16)

/-- Element of `w` bits at a bit offset from a local address of a core. -/
def State.bitsAt (s : State) (gc base off w : Nat) : Nat :=
  bits (s.rdNat (localPA gc (base + off / 8)) (ceilDiv (off % 8 + w) 8)) (off % 8) w

/-- The block an MLOADW decodes: element (k, j) at index 128 k + j. -/
def State.weightBlock (s : State) (gc src stride : Nat) (t : Ty) (order : Nat) : FMap Nat :=
  (List.range (128 * 128)).filterMap (fun i =>
    let c := s.bitsAt gc src (loadwBit t order stride (i / 128) (i % 128)) t.width
    if i % 128 < colsOf t ∧ c ≠ 0 then some (i, c) else none)

/-- MLOADW_RUN: the shadow plane takes the block and the bank's format (R161). -/
def execMloadwRun (s : State) : Host.Outcome State Fault Refusal :=
  s.runCmd s.sel fun m =>
    match m.op with
    | .loadw p src stride b =>
      let t := b.fmt.getD .i8
      let blk := s.weightBlock (coreOf m.org.w) src stride t b.order
      some (s.onClu s.sel (fun k =>
        let pl := k.shadowPlane p
        { k with planes := FMap.put [] k.planes pl blk, ptag := FMap.set k.ptag pl (t, b.shift) }), 0)
    | _ => none

/-- MSWAP_RUN: the active selector is inverted (R161). -/
def execMswapRun (s : State) : Host.Outcome State Fault Refusal :=
  s.runCmd s.sel fun m =>
    match m.op with
    | .swap p => some (s.onClu s.sel (fun k => { k with psel := FMap.put false k.psel p (!FMap.get false k.psel p) }), 0)
    | _ => none

/-! ### MSTREAM (R153, R162) -/

/-- How a tile accumulates (Table 8.3). -/
inductive AccKind where
  | f64 | i32 | f32 (window : Nat)
deriving DecidableEq, Repr

/-- An integer format: shift 0 and an integer type. -/
def isIntFmt (t : Ty) (shift : Int) : Bool := t.isInteger && decide (shift = 0)

/-- Accumulation kind of a format pair. -/
def accKind (a : Ty) (sa : Int) (b : Ty) (sb : Int) : AccKind :=
  if a = .f64 ∧ b = .f64 then .f64
  else if isIntFmt a sa && isIntFmt b sb then .i32
  else .f32 (windowOf a b)

/-- One activation row as exact values. -/
def State.actRow (s : State) (gc addr : Nat) (t : Ty) (shift : Int) : List FV :=
  (List.range 128).map (fun k => fromFormat (s.bitsAt gc addr (t.width * k) t.width) t shift)

/-- Column `j` of a plane as exact values. -/
def Cluster.weightCol (k : Cluster) (pl j : Nat) : List FV :=
  let tag := k.tagOf pl
  let m := FMap.get [] k.planes pl
  (List.range 128).map (fun i => fromFormat (FMap.get 0 m (128 * i + j)) tag.1 tag.2)

/-- Exact integer value of a product term of two integer operands. -/
def termInt : FV → Int
  | .num s m e => let x : Int := (m * pow2 e : Nat); if s then -x else x
  | _ => 0

/-- One element of an MSTREAM: the old element and the products, rounded once; and its flags (R162). -/
def accumulate (k : AccKind) (sat : Bool) (old : Nat) (terms : List FV) : Nat × Nat :=
  match k with
  | .f64 => anchored (fromFormat old .f64 0 :: terms) 160 .f64
  | .f32 win => anchored (fromFormat old .f32 0 :: terms) win .f32
  | .i32 => intLane .i32 sat (signed 32 old + (terms.map termInt).sum)

/-- Put one accumulated element into the tile. -/
def Cluster.accOne (c : Cluster) (k : AccKind) (sat : Bool) (t row j : Nat) (xs ws : List FV) : Cluster × Nat :=
  let terms := List.zipWith termMul xs ws
  match k with
  | .f64 =>
    let i := 128 * row + 2 * j
    let r := accumulate k sat (c.tileAt t i + c.tileAt t (i + 1) * 2 ^ 32) terms
    ((c.setTile t i r.1).setTile t (i + 1) (r.1 / 2 ^ 32), r.2)
  | _ =>
    let i := 128 * row + j
    let r := accumulate k sat (c.tileAt t i) terms
    (c.setTile t i r.1, r.2)

/-- Columns of one row. -/
def Cluster.accRow (c : Cluster) (k : AccKind) (sat : Bool) (t row : Nat) (xs : List FV) :
    List (Nat × List FV) → Nat → Cluster × Nat
  | [], fl => (c, fl)
  | (j, ws) :: l, fl =>
    let r := c.accOne k sat t row j xs ws
    r.1.accRow k sat t row xs l (orFlags fl r.2)

/-- Every row of an MSTREAM. -/
def Cluster.accRows (c : Cluster) (k : AccKind) (sat : Bool) (t : Nat) (cols : List (Nat × List FV)) :
    List (Nat × List FV) → Nat → Cluster × Nat
  | [], fl => (c, fl)
  | (row, xs) :: l, fl =>
    let r := c.accRow k sat t row xs cols fl
    r.1.accRows k sat t cols l r.2

/-- Multiply-accumulates of an MSTREAM, for the ramp limiter (R408). -/
def streamMacs (k : AccKind) (n cols : Nat) : Nat := match k with | .f64 => n * 128 * cols | _ => n * 128 * cols

/-- MSTREAM_RUN: the tile rows take the anchored sums (R162), as far as the ramp limiter allows its start (R408). -/
def execMstreamRun (s : State) : Host.Outcome State Fault Refusal :=
  s.runCmd s.sel fun m =>
    match m.op with
    | .stream t p src stride row0 n sat b =>
      let c := s.clu s.sel
      let pl := c.activePlane p
      let tag := c.tagOf pl
      let ta := b.fmt.getD .i8
      let kind := accKind ta b.shift tag.1 tag.2
      let d := dieOfClu s.sel
      let macs := streamMacs kind n (colsOf tag.1)
      if (s.die d).last + windowPeak / 8 < (s.die d).work + macs then none
      else
        let cols := (List.range (colsOf tag.1)).map (fun j => (j, c.weightCol pl j))
        let rows := (List.range n).map (fun q => (row0 + q, s.actRow (coreOf m.org.w) (src + q * stride) ta b.shift))
        let r := c.accRows kind sat t cols rows 0
        some ((s.setClu s.sel r.1).onDie d (fun x => { x with work := x.work + macs }), r.2)
    | _ => none

/-! ### MEPI (R163 to R165) -/

/-- Element type of an MEPI kind. -/
def mkindTy : MKind → Ty
  | .f32 => .f32 | .i32 => .i32 | .f64 => .f64

/-- Tile element (row, j) as exact value of a kind. -/
def Cluster.epiElem (c : Cluster) (k : MKind) (t row j : Nat) : FV :=
  match k with
  | .f64 => fromFormat (c.tileAt t (128 * row + 2 * j) + c.tileAt t (128 * row + 2 * j + 1) * 2 ^ 32) .f64 0
  | k => fromFormat (c.tileAt t (128 * row + j)) (mkindTy k) 0

/-- Element `j` of a scale or bias vector (R164). -/
def State.epiVec (s : State) (gc base : Nat) (k : MKind) (j : Nat) : FV :=
  let n := vecBytes k
  fromFormat (s.rdNat (localPA gc (base + n * j)) n) (if n = 8 then .f64 else .f32) 0

/-- A NaN made quiet, with NV when it signalled. -/
def quiet (v : FV) (fl : Nat) : FV × Nat :=
  match v with
  | .nan s => (.nan false, fl ||| flagIf s fNV)
  | v => (v, fl)

/-- The activation step: relu, or F at its FP32 argument, rounded into FP32 (R163). -/
def epiAct (act : Act) (v : FV) (fl : Nat) : FV × Nat :=
  let viaF := fun (f : FV → FV) =>
    let x := toFormat false v .f32 0 .rne
    let y := toFormat false (f (fromFormat x.1 .f32 0)) .f32 0 .rne
    (fromFormat y.1 .f32 0, fl ||| x.2 ||| y.2)
  match v, act with
  | .nan s, _ => (.nan s, fl)
  | v, .none => (v, fl)
  | v, .relu => (if v.sign || v.isZero then .num false 0 0 else v, fl)
  | _, .silu => viaF sSilu
  | _, .gelu => viaF sGelu

/-- The bias step: an exact zero is +0, or -0 under RDN, and a sum of two -0 is -0 (R163). -/
def biasStep (rm : RM) (v b : FV) : FR :=
  let x := fAddV rm v b
  if x.1.isZero then (.num (decide (rm = .rdn) || (v.sign && b.sign)) 0 0, x.2) else x

/-- The exact value of an element after scale, bias and activation, and the flags so far (R163). -/
def epiValue (cfg : MRec) (v : FV) (scale bias : FV) : FV × Nat :=
  let a := quiet v 0
  let a := if cfg.sen then let x := fMulV a.1 scale; quiet x.1 (a.2 ||| x.2) else a
  let a := if cfg.ben then let x := biasStep cfg.rm a.1 bias; quiet x.1 (a.2 ||| x.2) else a
  epiAct cfg.act a.1 a.2

/-- The conversion of an MEPI takes the integer row: an I32 tile with no step but relu (R163). -/
def epiIsInt (k : MKind) (cfg : MRec) : Bool :=
  decide (k = .i32) && !cfg.sen && !cfg.ben && (decide (cfg.act = .none) || decide (cfg.act = .relu))

/-- Destination type, shift and rounding of an MEPI: the bank's, or the record's (R163). -/
def epiDest (cfg : MRec) (bank : Option BankFmt) : Ty × Int × RM :=
  match bank with
  | some b => match b.fmt with | some t => (t, b.shift, b.rm) | none => (cfg.dfmt, cfg.dshift, cfg.rm)
  | none => (cfg.dfmt, cfg.dshift, cfg.rm)

/-- One row of an MEPI as bytes, with its flags. -/
def State.epiRow (s : State) (cl gc : Nat) (k : MKind) (t row ncol : Nat) (cfg : MRec) (bank : Option BankFmt) :
    List Byte × Nat :=
  let dst := epiDest cfg bank
  let r := (List.range ncol).map (fun j =>
    let sc := if cfg.sen then s.epiVec gc cfg.scale k j else .zero
    let bi := if cfg.ben then s.epiVec gc cfg.bias k j else .zero
    let v := epiValue cfg ((s.clu cl).epiElem k t row j) sc bi
    let x := toFormat (epiIsInt k cfg) v.1 dst.1 dst.2.1 dst.2.2
    (x.1, v.2 ||| x.2))
  (leBytes (rowBytes dst.1.width ncol) (ofLanes dst.1.width (r.map (fun x => x.1))),
    r.foldl (fun a x => orFlags a x.2) 0)

/-- Write the rows of an MEPI in order, up to a denied byte; a typed cell and a denial are reported (R165). -/
def State.epiWrite (s : State) (m : MCmd) : List (List Span × List Byte) → State
  | [] => s
  | (sp, bs) :: l =>
    let r := s.writeSpans reqTile (coreOf m.org.w) m.org.part .dflt sp 0 bs
    let s := match r.skip with
      | some va => r.s.blame m.org 0x13 0 (BitVec.ofNat 64 va)
      | none => r.s
    match r.denied with
    | some va => s.engineFault m.org 0x66 0 0 (BitVec.ofNat 64 va)
    | none => s.epiWrite m l

/-- Where the rows of an MEPI go: translated pages, or runs of the issuing core's scratchpad. -/
def MOp.epiRows (gc : Nat) : MOp → List (List Span)
  | .epi _ true _ _ _ _ _ _ _ _ rows => rows
  | .epi _ false _ dst stride _ n ncol cfg bank _ =>
    (rowsAt dst stride (rowBytes (epiDest cfg bank).1.width ncol) n).map (fun r =>
      [{ va := r.1, pa := localPA gc r.1, hb := 0, len := r.2 }])
  | _ => []

/-- MEPI_RUN: the tile's rows are converted and written at their destination (R163, R165). -/
def execMepiRun (s : State) : Host.Outcome State Fault Refusal :=
  s.runCmd s.sel fun m =>
    match m.op with
    | .epi k _ t _ _ row0 n ncol cfg bank _ =>
      let gc := coreOf m.org.w
      let rows := (List.range n).map (fun q => s.epiRow s.sel gc k t (row0 + q) ncol cfg bank)
      some ((s.epiWrite m ((m.op.epiRows gc).zip (rows.map (fun r => r.1)))).onClu s.sel (fun c => { c with stallT := 0 }),
        rows.foldl (fun a r => orFlags a r.2) 0)
    | _ => none

/-- ARRAY_COMMAND_COMPLETE: the oldest command of the array of cluster `State.sel` has run, and completes: its flags join
its actor's flag word and the tl counter of its firing falls (R154, R158). -/
def execArrayCommandComplete (s : State) : Host.Outcome State Fault Refusal :=
  let k := s.clu s.sel
  match k.inbox with
  | [] => notEnabled
  | m :: r =>
    if !m.ran then notEnabled
    else
      let recs := match FMap.find k.mrecs m.key with
        | some x => FMap.set k.mrecs m.key { x with flags := orFlags x.flags m.flags }
        | none => k.mrecs
      let idle := if r = [] then s.now else k.leaveIdle
      let s := s.setClu s.sel { k with inbox := r, mrecs := recs, leaveIdle := idle }
      .next (s.onCtx m.org.w (fun c => if c.fid = m.org.fid ∧ c.kind ≠ .none then { c with ocTl := c.ocTl - 1 } else c))

end Sys2Proof.Machine
end

