-- ==== Sys2Proof/Machine/Backing.lean ====
section
/-! DEFINITION. What the hardware reads and writes by physical address for an actor that is away: its backing area (R304) and its
backing queue (R35), line by line at their homes (R183, R184, R189). -/

namespace Sys2Proof.Machine

/-! ### Accesses -/

/-- Addresses of the lines of `n` bytes of a backing area. -/
def backLines (pa n : Nat) : List Nat := (List.range (ceilDiv (pa % 64 + n) 64)).map (fun i => (pa / 64 + i) * 64)

/-- The first of some lines that an access does not perform, with its cause: 0 denied, 1 poison that is read (R184, R189). -/
def State.backBad (s : State) (m part : Nat) (write : Bool) (l : List Nat) : Option (Nat × Nat) :=
  l.findSome? (fun a => if !s.physOk m part write a then some (a, 0) else if !write && s.poisoned a then some (a, 1) else none)

/-- Report an access to a backing area of an actor of core `gc` that was denied or met poison as an engine error: of EVICT (SYS function
10) or ADMIT (SYS function 9) (R189; how such an error is reported is DEDUCED, log entry 63). -/
def State.backErr (s : State) (gc fn : Nat) : Option (Nat × Nat) → State
  | some (a, c) => s.lateNotice gc (s.ownerOf gc) 0 true { code := 0x14, cls := 3, detail := 0x7E + fn * 2 ^ 8 + c * 2 ^ 12, va := BitVec.ofNat 64 a } 0 0
  | none => s

/-- Write bytes of a backing area at their homes, line by line; a line outside the partition is left, and a full one loses its poison
(R183, R184, R189). -/
def State.backWrite (s : State) (m part pa : Nat) : Nat → List Byte → State
  | 0, _ => s
  | _, [] => s
  | n + 1, bs =>
    let k := 64 - pa % 64
    let home := homeOf pa hbPhys
    let s := if s.physOk m part true pa then
        let s := (((s.invalidate home (pa / 64) none).touchSlice home (pa / 64) .dflt).wrPlain pa (bs.take k)).1
        if k = 64 ∧ 64 ≤ bs.length then s.clearPoison pa else s
      else s
    s.backWrite m part (pa + k) n (bs.drop k)

/-- Write bytes of the backing area of an actor of core `gc`. -/
def State.backPut (s : State) (gc pa : Nat) (bs : List Byte) : State :=
  let m := modOf gc
  let part := s.ownerOf gc
  (s.backWrite m part pa (bs.length + 1) bs).backErr gc 10 (s.backBad m part true (backLines pa bs.length))

/-- Bytes of a backing area; those that a read does not deliver, denied or poisoned, are 0 (DESIGN CHOICE, log entry 63). -/
def State.backGet (s : State) (m part pa n : Nat) : List Byte :=
  (List.range n).map (fun i => if s.physOk m part false (pa + i) && !s.poisoned (pa + i) then s.rdByte (pa + i) else 0)

/-- What reading `n` bytes of a backing area does besides: its lines enter the slices of their homes, and an error is reported (R183,
R184, R189). -/
def State.backRead (s : State) (gc pa n : Nat) : State :=
  let m := modOf gc
  let part := s.ownerOf gc
  let s1 := (backLines pa n).foldl (fun s a =>
    if s.physOk m part false a then s.touchSlice (homeOf a hbPhys) (a / 64) .dflt else s) s
  s1.backErr gc 9 (s.backBad m part false (backLines pa n))

/-! ### Backing queues (R35, R225) -/

/-- Capacity of an actor's backing queue (Table 15.3). -/
def State.bqSize (s : State) (gc slot : Nat) : Nat := 2 ^ bits (s.desc gc slot 20) 0 5
/-- Address of entry `i` of an actor's backing queue: 512 bytes each (the layout of an entry is a DESIGN CHOICE, log entry 18). -/
def State.bqPA (s : State) (gc slot i : Nat) : Nat := bits (s.desc gc slot 20) 12 40 * 2 ^ 12 + 512 * i

/-- An entry as words: the packet in 32, then V, the redirection and the place in arrival order, then the sending core and the partition,
the host flow plus 1, and the pair plus 1 (DESIGN CHOICE, log entry 18). -/
def BqEnt.words (b : BqEnt) (order : Nat) : Pkt :=
  Pkt.pad b.p 32 ++
    [BitVec.ofNat 64 (2 ^ 63 + (if b.redir then 2 ^ 62 else 0) + order % 2 ^ 48), BitVec.ofNat 64 (b.core % 2 ^ 32 + b.part * 2 ^ 32),
     BitVec.ofNat 64 (match b.host with | some f => f + 1 | none => 0), BitVec.ofNat 64 (match b.pair with | some k => k.1 + 1 | none => 0),
     BitVec.ofNat 64 (match b.pair with | some k => k.2 | none => 0)]

/-- Bytes of an entry that are in use. -/
def bqLen : Nat := 296

/-- The entry that its words hold, with its place in arrival order; none when it is free. -/
def bqOf (ws : Pkt) : Option (Nat × BqEnt) :=
  let v := Pkt.word ws 32
  if !bit v 63 then none
  else some (bits v 0 48,
    { core := bits (Pkt.word ws 33) 0 32, part := bits (Pkt.word ws 33) 32 32, redir := bit v 62
      host := if Pkt.word ws 34 = 0 then none else some (Pkt.word ws 34 - 1)
      pair := if Pkt.word ws 35 = 0 then none else some (Pkt.word ws 35 - 1, Pkt.word ws 36)
      p := ws.take (2 * Pkt.units ws) })

/-- Insert an entry by its place in arrival order. -/
def byOrder (x : Nat × Nat × BqEnt) : List (Nat × Nat × BqEnt) → List (Nat × Nat × BqEnt)
  | [] => [x]
  | y :: l => if x.2.1 ≤ y.2.1 then x :: y :: l else y :: byOrder x l

/-- The entries in use of an actor's backing queue, as index, place and entry, in arrival order. -/
def State.bqHeld (s : State) (gc slot : Nat) : List (Nat × Nat × BqEnt) :=
  ((List.range (s.bqSize gc slot)).filterMap (fun i =>
    let a := s.bqPA gc slot i
    if leNat (s.backGet (modOf gc) (s.ownerOf gc) (a + 256) 8) < 2 ^ 63 then none
    else (bqOf (wordsOf 37 (s.backGet (modOf gc) (s.ownerOf gc) a bqLen))).map (fun x => (i, x)))).foldr byOrder []

/-- Packets in an actor's backing queue, in arrival order. -/
def State.backing (s : State) (gc slot : Nat) : List BqEnt := (s.bqHeld gc slot).map (fun x => x.2.2)

/-- An entry of a backing queue may be written: it lies within the partition (R189). -/
def State.bqOpen (s : State) (gc slot i : Nat) : Bool :=
  (s.backBad (modOf gc) (s.ownerOf gc) true (backLines (s.bqPA gc slot i) bqLen)).isNone

/-- Put a packet behind those of a backing queue, in the lowest free entry; false where none is free or the write of it is denied, which
is reported as an engine error (R35, R189). -/
def State.bqPush (s : State) (gc slot : Nat) (b : BqEnt) : State × Bool :=
  let l := s.bqHeld gc slot
  match (List.range (s.bqSize gc slot)).find? (fun i => !l.any (fun x => decide (x.1 = i))) with
  | none => (s, false)
  | some i => (s.backPut gc (s.bqPA gc slot i) (Pkt.bytes (b.words (((l.map (fun x => x.2.1)).foldl max 0) + 1))), s.bqOpen gc slot i)

/-- Read entry `i` of a backing queue and free it. -/
def State.bqTake (s : State) (gc slot i : Nat) : State :=
  let a := s.bqPA gc slot i
  (s.backRead gc a bqLen).backPut gc (a + 256) (leBytes 8 0)

end Sys2Proof.Machine
end

