-- ==== Sys2Proof/Machine/Cells.lean ====
section
/-! DEFINITION. The typed-cell instructions as a context issues them (R348 to R363 of spec/18_object_instr.md). The home does
the operation at an HSU_OPERATION, and CELL_RESULT ends the instruction. -/

namespace Sys2Proof.Machine

/-- Code of a cell scope (Table 2.7). -/
def cscopeCode : CScope → Nat
  | .core => 1 | .clu => 2 | .stk => 3 | .pod => 4

/-- A cell scope as a scope. -/
def cscopeScope : CScope → Scope
  | .core => .core | .clu => .clu | .stk => .stk | .pod => .pod

/-- Scope of an operation: the one it names, or the cell's (R332). -/
def State.cellScope (s : State) (sc : Option CScope) (pa : Nat) : Scope :=
  match sc with
  | some x => cscopeScope x
  | none => if (s.cellTag pa).2 = 1 then .core else .pod

/-- Send a request to the home of its cell, and stall the firing until the result returns (R351). -/
def State.askCell (s : State) (w home : Nat) (dst : CellDst) (op : CellOp) : State :=
  let s := (s.onClu home (fun k => { k with hsu := k.hsu ++ [op] })).fresh
  let s := s.onCtx w (fun c => { c with cellDst := dst })
  (s.members w).foldl (fun s m => s.onCtx m (fun c => { c with phase := .waitCell })) s

/-- Translate the address of a cell: aligned to 16, with R and W, in HBM (R351). -/
def State.cellAddr (s : State) (w : Nat) (va : Word) : Except Stop (State × Nat × Nat) :=
  match s.resolveG w va.toNat 16 16 .rw with
  | .error e => .error e
  | .ok (s, .mem pa hb _ :: _) =>
    if s.region pa = .hbm then .ok (s, pa, hb) else .error (.trap (permTrap 3 va))
  | .ok (_, _) => .error (.trap (permTrap 3 va))

/-- A `.msg` form of a firing without an actor (R351). -/
def msgBad (m : WMode) (aid : Nat) : Bool :=
  match m with
  | .msg _ => decide (aid = 0)
  | _ => false

/-- A cell instruction on the cell at `va` (R351). `rel`: the form releases. `act` may need the cell's home. -/
def cellForm (rel : Bool) (sc : Option CScope) (mode : WMode) (dst : CellDst) (va : Word) (act : CellAct) (w : Nat)
    (s : State) : Except Stop State :=
  match s.cellAddr w va with
  | .error e => .error e
  | .ok (s, pa, hb) =>
    if msgBad mode (s.ctx w).aid then .error (.trap (permTrap 3 va))
    else
      let send := fun (s : State) =>
        let op : CellOp := { uid := s.uid, act := act, pa := pa, sc := sc, mode := mode, org := s.origin w, va := va }
        s.askCell w (homeOf pa hb) dst op
      if rel then
        match s.commit s.cur with
        | .error e => .error e
        | .ok s => .error (.wait (if s.mayRelease w (s.cellScope sc pa) then send s else s))
      else .error (.wait (send s))

/-- Destination of a result word, with the cell's address for the wait-refused fault. -/
def wordDst (c : Ctx) (d : Dst) (b : Src) : CellDst := .word d (c.src b)

/-- A cell form with one result word, an operand that fixes what is done, and the cell named by `b`. -/
def cellOp1 (rel : Bool) (sc : Option CScope) (mode : WMode) (a : Dst) (b : Src) (act : Ctx → CellAct) (s : State) :
    Host.Outcome State Fault Refusal :=
  once s fun w s => cellForm rel sc mode (wordDst (s.ctx w) a b) ((s.ctx w).src b) (act (s.ctx w)) w s

/-- OINIT (R355). -/
def execOinit (k : CellKind) (sc : CScope) (st : Dst) (a w0 w1 : Src) (s : State) : Host.Outcome State Fault Refusal :=
  cellOp1 true (some sc) .park st a (fun c => .init k sc (c.src w0) (c.src w1)) s

/-- OFREE (R356). -/
def execOfree (st : Dst) (a : Src) (s : State) : Host.Outcome State Fault Refusal :=
  cellOp1 true none .park st a (fun _ => .free) s

/-- OREAD (R357): an acquire and no commit point. -/
def execOread (sc : Option CScope) (n : SPair) (b : Src) (mt : Option (Fin 64)) (s : State) :
    Host.Outcome State Fault Refusal :=
  once s fun w s => cellForm false sc .park (.read (2 * n.val) (mt.map (fun m => m.val)) ((s.ctx w).src b)) ((s.ctx w).src b) .read w s

/-- CNT.ADD (R358). -/
def execCntAdd (sc : Option CScope) (a : Dst) (b c : Src) (s : State) : Host.Outcome State Fault Refusal :=
  cellOp1 true sc .park a b (fun k => .cntAdd (k.src c).toInt) s

/-- CNT.WAIT (R358). -/
def execCntWait (cc : CntCond) (sc : Option CScope) (wm : WMode) (a : Dst) (b c : Src) (s : State) :
    Host.Outcome State Fault Refusal :=
  cellOp1 false sc wm a b (fun k => .cntWait cc (k.src c).toInt) s

/-- BAR.ARV (R359). -/
def execBarArv (sc : Option CScope) (a : Dst) (b c : Src) (s : State) : Host.Outcome State Fault Refusal :=
  cellOp1 true sc .park a b (fun k => .barArv (k.src c).toInt) s

/-- BAR.EXP (R359). -/
def execBarExp (sc : Option CScope) (a : Dst) (b c : Src) (s : State) : Host.Outcome State Fault Refusal :=
  cellOp1 true sc .park a b (fun k => .barExp (k.src c).toInt) s

/-- BAR.WAIT (R359). -/
def execBarWait (sc : Option CScope) (wm : WMode) (a : Dst) (b c : Src) (s : State) :
    Host.Outcome State Fault Refusal :=
  cellOp1 false sc wm a b (fun k => .barWait ((k.src c).toNat % 2 ^ 32)) s

/-- LCK.TAKE (R360). -/
def execLckTake (sc : Option CScope) (wm : WMode) (a : Dst) (b : Src) (s : State) : Host.Outcome State Fault Refusal :=
  cellOp1 false sc wm a b (fun _ => .lckTake) s

/-- LCK.GIVE (R360). -/
def execLckGive (sc : Option CScope) (a : Dst) (b : Src) (s : State) : Host.Outcome State Fault Refusal :=
  cellOp1 true sc .park a b (fun _ => .lckGive) s

/-- Q.RES (R361). -/
def execQRes (sc : Option CScope) (wm : WMode) (a : Dst) (b : Src) (s : State) : Host.Outcome State Fault Refusal :=
  cellOp1 false sc wm a b (fun _ => .qRes) s

/-- Q.PUB (R361). -/
def execQPub (sc : Option CScope) (tr : Bool) (a : Dst) (b c : Src) (s : State) : Host.Outcome State Fault Refusal :=
  cellOp1 true sc (if tr then .try_ else .park) a b (fun k => .qPub ((k.src c).toNat % 2 ^ 24)) s

/-- Q.AWAIT (R361). -/
def execQAwait (sc : Option CScope) (wm : WMode) (a : Dst) (b : Src) (s : State) : Host.Outcome State Fault Refusal :=
  cellOp1 false sc wm a b (fun _ => .qAwait) s

/-- Q.REL (R361). -/
def execQRel (sc : Option CScope) (a : Dst) (b c : Src) (s : State) : Host.Outcome State Fault Refusal :=
  cellOp1 true sc .park a b (fun k => .qRel (k.src c).toInt) s

/-- CND.WAIT (R362): the condition cell and then the lock cell are translated and checked (R351). -/
def cndWaitOp (sc : Option CScope) (a : Dst) (b c : Src) (w : Nat) (s : State) : Except Stop State :=
  match s.cellAddr w ((s.ctx w).src b) with
  | .error e => .error e
  | .ok (s, _, _) =>
    match s.cellAddr w ((s.ctx w).src c) with
    | .error e => .error e
    | .ok (s, lpa, lhb) =>
      cellForm true sc .park (wordDst (s.ctx w) a b) ((s.ctx w).src b) (.cndWait lpa (homeOf lpa lhb)) w s

/-- CND.WAIT (R362). -/
def execCndWait (sc : Option CScope) (a : Dst) (b c : Src) (s : State) : Host.Outcome State Fault Refusal :=
  once s (cndWaitOp sc a b c)

/-- CND.SIG (R362). -/
def execCndSig (sc : Option CScope) (a : Dst) (b : Src) (s : State) : Host.Outcome State Fault Refusal :=
  cellOp1 true sc .park a b (fun _ => .cndSig) s

/-- CND.ALL (R362). -/
def execCndAll (sc : Option CScope) (a : Dst) (b : Src) (s : State) : Host.Outcome State Fault Refusal :=
  cellOp1 true sc .park a b (fun _ => .cndAll) s

end Sys2Proof.Machine
end

