-- ==== Sys2Proof/Machine/Hsu.lean ====
section
/-! DEFINITION. The home of a typed cell: its operations in home order, lift lines and their spill, wakes, withdrawals and
results (R331 to R347 of spec/17_objects.md; R349 to R362 of spec/18_object_instr.md). -/

namespace Sys2Proof.Machine

/-! ### Cell contents (Tables 17.3 to 17.6) -/

/-- Word `k` of a cell. -/
def State.cellW (s : State) (pa k : Nat) : Nat := s.rd64 (pa + 8 * k)
/-- Write both words of a cell. -/
def State.setCell (s : State) (pa w0 w1 : Nat) : State := (s.wr64 pa w0).wr64 (pa + 8) w1
/-- Set the tag and the scope of a cell; tag 0 leaves plain memory (R331). -/
def State.setTag (s : State) (pa tag sc : Nat) : State :=
  { s with tags := FMap.put (0, 0) s.tags (pa / 16) (if tag = 0 then (0, 0) else (tag, sc)) }
/-- Ahead window of a queue cell (R338). -/
def State.window (s : State) (pa : Nat) : Nat := (FMap.get 0 s.ahead (pa / 16)).toNat
/-- Write an ahead window. -/
def State.setWindow (s : State) (pa v : Nat) : State := { s with ahead := FMap.put 0 s.ahead (pa / 16) (BitVec.ofNat 64 v) }

/-- Tag of a cell type (Table 17.2). -/
def kindTag : CellKind → Nat
  | .cnt => 1 | .bar => 2 | .lck => 3 | .q => 4 | .cnd => 5

/-- Waiters of a cell. -/
def Cluster.waiters (k : Cluster) (pa : Nat) : List LiftEnt := k.lift.filter (fun e => decide (e.cell = pa))

/-- The HSU accesses the line of a cell that it changes: L1 copies go, and the slice's set is touched under the page default (R182,
R425). -/
def State.hsuLine (s : State) (cl pa : Nat) : State := (s.invalidate cl (pa / 64) none).touchSlice cl (pa / 64) .dflt

/-- Keep the waiters count and the SPL bit of a counter cell (Table 17.3). -/
def State.countWaiters (s : State) (cl pa : Nat) : State :=
  if (s.cellTag pa).1 = 1 then
    let s := s.invalidate cl (pa / 64) none
    let ws := (s.clu cl).waiters pa
    let w1 := setBits (setBits (s.cellW pa 1) 16 32 ws.length) 9 1 (if ws.any (fun e => e.spill.isSome) then 1 else 0)
    s.wr64 (pa + 8) w1
  else s

/-! ### What an operation does to a cell, by type -/

/-- Result of an operation on a cell: done with a status, value and index, or a condition that does not hold, with the wait
code and the operand of its entry (Table 18.5). -/
inductive CellOut where
  | done (status value index : Nat)
  | wait (code : Nat) (operand : Nat)
deriving DecidableEq, Repr

/-- Result word of Table 18.3. -/
def resultWord (status value index : Nat) : Word :=
  BitVec.ofNat 64 (value % 2 ^ 32 * 2 ^ 32 + index % 2 ^ 24 * 2 ^ 8 + status % 16)

/-- Saturate an integer to `w` bits; whether it was cut. -/
def satInt (w : Nat) (x : Int) : Int × Bool :=
  if x < -2 ^ (w - 1) then (-2 ^ (w - 1), true) else if x ≥ 2 ^ (w - 1) then (2 ^ (w - 1) - 1, true) else (x, false)

/-- CNT.ADD and its action (R333, R358). -/
def State.cntAdd (s : State) (pa : Nat) (n : Int) : State :=
  let r := satInt 64 (signed 64 (s.cellW pa 0) + n)
  let w1 := s.cellW pa 1
  s.setCell pa (wrap 64 r.1) (if r.2 then setBits w1 8 1 1 else w1)

/-- The test of R335: a phase whose arrivals and bytes are not above 0 completes, once. -/
def State.barTest (s : State) (pa : Nat) : State :=
  let w0 := s.cellW pa 0
  let w1 := s.cellW pa 1
  let arr := signed 32 (bits w0 32 32)
  let bytes := signed 32 (bits w1 0 32)
  if arr ≤ 0 ∧ bytes ≤ 0 then
    let w1 := if bytes < 0 then setBits w1 56 1 1 else w1
    s.setCell pa (bits w1 32 24 * 2 ^ 32 + (bits w0 0 32 + 1) % 2 ^ 32) w1
  else s

/-- Add to the remaining bytes of a barrier, saturated, and test it (R334, R335). -/
def State.barBytes (s : State) (pa : Nat) (n : Int) : State :=
  let w1 := s.cellW pa 1
  let r := satInt 32 (signed 32 (bits w1 0 32) + n)
  let w1 := setBits w1 0 32 (wrap 32 r.1)
  (s.setCell pa (s.cellW pa 0) (if r.2 then setBits w1 57 1 1 else w1)).barTest pa

/-- Count arrivals at a barrier and test it (R335, R359). -/
def State.barArrive (s : State) (pa : Nat) (n : Int) : State :=
  let w0 := s.cellW pa 0
  let a := max (signed 32 (bits w0 32 32) - n) (-2 ^ 31)
  (s.setCell pa (setBits w0 32 32 (wrap 32 a)) (s.cellW pa 1)).barTest pa

/-- Identity of a lock's taker as the holder fields hold it (Table 17.5). -/
def holderWord (aid gc : Nat) : Nat := gc / 2048 % 256 * 2 ^ 35 + gc % 2048 * 2 ^ 24 + aid % 2 ^ 24

/-- The issuer matches the recorded holder (R360). -/
def holderIs (w1 aid gc : Nat) : Bool :=
  if aid ≠ 0 then decide (bits w1 0 24 = aid) else decide (bits w1 24 11 = gc % 2048) && decide (bits w1 35 8 = gc / 2048 % 256)

/-- Give a lock: the next ticket is served and the holder fields are cleared (R360). -/
def State.lckServe (s : State) (pa : Nat) : State :=
  let w0 := s.cellW pa 0
  s.setCell pa (setBits w0 32 32 (bits w0 32 32 + 1)) (setBits (s.cellW pa 1) 0 43 0)

/-- Take the next ticket of a lock; it is returned (R360). -/
def State.lckTicket (s : State) (pa : Nat) : State × Nat :=
  let w0 := s.cellW pa 0
  (s.wr64 pa (setBits w0 0 32 (bits w0 0 32 + 1)), bits w0 0 32)

/-- Record a holder. -/
def State.lckHold (s : State) (pa aid gc : Nat) : State :=
  s.wr64 (pa + 8) (setBits (s.cellW pa 1) 0 43 (holderWord aid gc))

/-- Fields of a queue cell: capacity, rsv, pub, clm, rel (Table 17.6). -/
structure Que where
  cap : Nat
  rsv : Nat
  pub : Nat
  clm : Nat
  rel : Nat
deriving DecidableEq, Repr

/-- The queue at an address. -/
def State.que (s : State) (pa : Nat) : Que :=
  let w0 := s.cellW pa 0
  let w1 := s.cellW pa 1
  { cap := 2 ^ bits w0 48 5, rsv := bits w0 0 24, pub := bits w0 24 24, clm := bits w1 0 24, rel := bits w1 24 24 }

/-- Difference of indices modulo 2^24 (R337). -/
def idxSub (a b : Nat) : Nat := (a + 2 ^ 24 - b % 2 ^ 24) % 2 ^ 24

/-- Shift the ahead window while its bit 0 is set, adding to pub (R338). -/
def advance : Nat → Nat → Nat → Nat × Nat
  | 0, win, pub => (win, pub)
  | n + 1, win, pub => if bit win 0 then advance n (win / 2) ((pub + 1) % 2 ^ 24) else (win, pub)

/-- Q.PUB of index `i` (R338, R361). -/
def State.qPub (s : State) (pa i : Nat) : State × CellOut :=
  let q := s.que pa
  let d := idxSub i q.pub
  if idxSub q.rsv q.pub ≤ d then (s, .done 6 0 0)
  else if 64 ≤ d then (s, .wait 7 i)
  else if bit (s.window pa) d then (s, .done 6 0 0)
  else
    let r := advance 65 (s.window pa + 2 ^ d) q.pub
    (((s.setWindow pa r.1).wr64 pa (setBits (s.cellW pa 0) 24 24 r.2)), .done 0 0 0)

/-- Q.RES (R361). -/
def State.qRes (s : State) (pa : Nat) : State × CellOut :=
  let q := s.que pa
  if idxSub q.rsv q.rel < q.cap then (s.wr64 pa (setBits (s.cellW pa 0) 0 24 (q.rsv + 1)), .done 0 0 q.rsv)
  else (s, .wait 5 0)

/-- Q.AWAIT (R361). -/
def State.qAwait (s : State) (pa : Nat) : State × CellOut :=
  let q := s.que pa
  if q.clm ≠ q.pub then (s.wr64 (pa + 8) (setBits (s.cellW pa 1) 0 24 (q.clm + 1)), .done 0 0 q.clm)
  else (s, .wait 6 0)

/-- Q.REL (R361). -/
def State.qRel (s : State) (pa : Nat) (n : Int) : State × CellOut :=
  let q := s.que pa
  if n < 1 ∨ (q.cap : Int) < n ∨ ((idxSub q.clm q.rel : Nat) : Int) < n then (s, .done 6 0 0)
  else (s.wr64 (pa + 8) (setBits (s.cellW pa 1) 24 24 (q.rel + n.toNat)), .done 0 0 0)

/-- Contents of OINIT, none when a value is out of range or an unnamed bit is set (Table 18.6). -/
def initWords (k : CellKind) (sc w0 w1 : Nat) : Option (Nat × Nat) :=
  match k with
  | .cnt => if w1 = 0 then some (w0, sc) else none
  | .bar =>
    if bits w0 32 32 = 0 ∨ 2 ^ 31 ≤ bits w0 32 32 ∨ 2 ^ 31 ≤ bits w1 0 32 ∨ bits w1 32 24 = 0 ∨ 2 ^ 56 ≤ w1 then none
    else some (w0, w1)
  | .lck => if w0 < 2 ^ 32 ∧ w1 = 0 then some (w0 * 2 ^ 32 + w0, 0) else none
  | .q => if 1 ≤ w0 ∧ w0 ≤ 16 ∧ w1 = 0 then some (w0 * 2 ^ 48, 0) else none
  | .cnd => if w0 < 2 ^ 32 ∧ w1 = 0 then some (w0, 0) else none

/-- OINIT (R332, R355). -/
def State.cellInit (s : State) (cl pa : Nat) (k : CellKind) (sc : CScope) (w0 w1 : Word) : State × CellOut :=
  match initWords k (cscopeCode sc) w0.toNat w1.toNat with
  | none => (s, .done 6 0 0)
  | some (a, b) =>
    if (s.clu cl).waiters pa ≠ [] ∨ ((s.cellTag pa).1 = 4 ∧ s.window pa ≠ 0) then (s, .done 6 0 0)
    else (((s.setTag pa (kindTag k) (cscopeCode sc)).setWindow pa 0).setCell pa a b, .done 0 0 0)

/-- Tag that an operation asks for; none accepts every tag. -/
def CellAct.tag : CellAct → Option Nat
  | .init .. => none | .free => none | .read => none
  | .cntAdd _ | .cntWait .. => some 1
  | .barArv _ | .barExp _ | .barDec _ | .barWait _ => some 2
  | .lckTake | .lckGive => some 3
  | .qRes | .qPub _ | .qAwait | .qRel _ => some 4
  | .cndWait .. | .cndSig | .cndAll => some 5

/-- Change every waiter of a cell. -/
def Cluster.onWaiters (k : Cluster) (pa : Nat) (f : LiftEnt → LiftEnt) : Cluster :=
  { k with lift := k.lift.map (fun e => if e.cell = pa then f e else e) }

/-- The waiter of code 8 with the lowest stamp, not chosen yet (entries stand in stamp order). -/
def Cluster.oldest8 (k : Cluster) (pa : Nat) : Option LiftEnt :=
  k.lift.find? (fun e => decide (e.cell = pa) && decide (e.code = 8) && !e.chosen)

/-- Operations on a condition cell but CND.WAIT: seq counts, and waiters are chosen (R339, R362). -/
def State.cndChoose (s : State) (cl pa : Nat) (all : Bool) : State × CellOut :=
  let s := s.wr64 pa (setBits (s.cellW pa 0) 0 32 (bits (s.cellW pa 0) 0 32 + 1))
  let k := s.clu cl
  let names := (k.waiters pa).filter (fun e => decide (e.code = 8) && !e.chosen)
  let chosen := if all then names.map (fun e => e.stamp) else (match k.oldest8 pa with | some e => [e.stamp] | none => [])
  (s.setClu cl (k.onWaiters pa (fun e => if chosen.contains e.stamp then { e with chosen := true } else e)),
    .done 0 chosen.length 0)

/-- One operation of an issuer (`aid`, core `gc`) on the cell at `pa`, homed at cluster `cl` (R355 to R362). -/
def State.cellDo (s : State) (cl pa : Nat) (act : CellAct) (tr : Bool) (aid gc : Nat) : State × CellOut :=
  if act.tag.isSome ∧ act.tag ≠ some (s.cellTag pa).1 then (s, .done 4 0 0)
  else match act with
    | .init k sc w0 w1 => s.cellInit cl pa k sc w0 w1
    | .free =>
      if (s.cellTag pa).1 = 0 then (s, .done 4 0 0)
      else ((s.setTag pa 0 0).onClu cl (fun k => k.onWaiters pa (fun e => { e with freed := true })), .done 0 0 0)
    | .read => (s, .done 0 0 0)
    | .cntAdd n => (s.cntAdd pa n, .done 0 0 0)
    | .cntWait cc t =>
      let v := signed 64 (s.cellW pa 0)
      let ok : Bool := match cc with | .ge => decide (v ≥ t) | .le => decide (v ≤ t) | .eq => decide (v = t)
      if ok then (s, .done 0 0 0) else (s, .wait (match cc with | .ge => 0 | .le => 1 | .eq => 2) (wrap 64 t))
    | .barArv n =>
      if n < 1 ∨ 2 ^ 24 - 1 < n then (s, .done 6 0 0) else (s.barArrive pa n, .done 0 (bits (s.cellW pa 0) 0 32) 0)
    | .barExp n =>
      if n < 0 ∨ 2 ^ 31 - 1 < n then (s, .done 6 0 0) else (s.barBytes pa n, .done 0 (bits (s.cellW pa 0) 0 32) 0)
    | .barDec n => (s.barBytes pa (-(n : Int)), .done 0 0 0)
    | .barWait p =>
      let ph := bits (s.cellW pa 0) 0 32
      if ph ≠ p then (s, .done 0 ph 0) else (s, .wait 3 p)
    | .lckTake =>
      let w0 := s.cellW pa 0
      let tk := bits w0 0 32
      if bits w0 32 32 = tk then (((s.lckTicket pa).1).lckHold pa aid gc, .done 0 tk 0) else (s, .wait 4 tk)
    | .lckGive =>
      let w0 := s.cellW pa 0
      if bits w0 32 32 = bits w0 0 32 ∨ holderIs (s.cellW pa 1) aid gc = false then (s, .done 6 0 0)
      else (s.lckServe pa, .done 0 0 0)
    | .qRes => s.qRes pa
    | .qPub i => s.qPub pa i
    | .qAwait => s.qAwait pa
    | .qRel n => s.qRel pa n
    | .cndWait lock home =>
      if (s.cellTag lock).1 ≠ 3 then (s, .done 4 0 0)
      else if home ≠ cl then (s, .done 6 0 0)
      else if bits (s.cellW lock 0) 32 32 = bits (s.cellW lock 0) 0 32 ∨ holderIs (s.cellW lock 1) aid gc = false then
        (s, .done 6 0 0)
      else (s, .wait 8 (bits (s.cellW pa 0) 0 32))
    | .cndSig => s.cndChoose cl pa tr
    | .cndAll => s.cndChoose cl pa true

/-! ### Lift line (R342 to R345) -/

/-- Words of an entry as it stands in a spill ring (Table 17.7). -/
def LiftEnt.words (e : LiftEnt) (v : Bool) : Pkt :=
  let waiter := match e.msg with
    | some d => d % 2 ^ 26
    | none => e.w % 4 + e.w / 4 % 2048 * 2 ^ 2 + e.w / 8192 % 256 * 2 ^ 13
  [BitVec.ofNat 64 ((if v then 2 ^ 63 else 0) + (if e.msg.isSome then 2 ^ 62 else 0) + e.code % 16 * 2 ^ 58 +
      e.part % 64 * 2 ^ 52 + e.cell / 16 % 2 ^ 48 * 16),
    BitVec.ofNat 64 waiter, e.oper, BitVec.ofNat 64 (e.stamp % 2 ^ 48)]

/-- Address of entry `n` of a partition's ring. -/
def SpillDesc.addr (d : SpillDesc) (n : Nat) : Nat := d.base + 32 * (n % 2 ^ d.lsz)

/-- Spill description of a partition at a slice. -/
def Cluster.ring (k : Cluster) (p : Nat) : SpillDesc := FMap.get {} k.spill p

/-- Notice of a denied spill write, to the supervisor of core 0 of the cluster (R344, Table 20.1). -/
def State.spillDenied (s : State) (cl p a : Nat) : State :=
  s.lateNotice (8 * cl) (s.ownerOf (8 * cl)) 0 true { code := 0x25, cls := 3, detail := p, va := BitVec.ofNat 64 a } 0 0

/-- The 32 bytes of a ring entry lie within its partition (R189, R344). -/
def State.ringOk (s : State) (cl p a : Nat) : Bool := s.devOk (cl / 256) p true a && s.devOk (cl / 256) p true (a + 31)

/-- Write the 32 bytes of a ring entry as a class U access at their home, unless the write is denied; typed cells are left (R189, R331,
R344). -/
def State.ringWrite (s : State) (cl p a : Nat) (ws : Pkt) : State :=
  let home := homeOf a hbPhys
  if s.ringOk cl p a then ((s.atHome home (a / 64) 2 .dflt true).wrPlain a (Pkt.bytes ws)).1 else s.spillDenied cl p a

/-- An entry with what its ring entry now says: operand, waiter, form and cell (R344 Table 17.7); none when it is not in use. What the
layout does not hold, the firing among it, stays with the entry (DESIGN CHOICE, log entry 36). -/
def LiftEnt.reread (e : LiftEnt) (ws : Pkt) : Option LiftEnt :=
  let w0 := Pkt.word ws 0
  let w1 := Pkt.word ws 1
  if !bit w0 63 then none
  else some { e with
    oper := ws.getD 2 0, code := bits w0 58 4, cell := bits w0 4 48 * 16
    msg := if bit w0 62 then some (bits w1 0 26) else none
    w := if bit w0 62 then e.w else bits w1 0 2 + bits w1 2 11 * 4 + bits w1 13 8 * 8192 }

/-- Put an entry on the lift line, on-chip or in the spill ring; none with the state of a refusal (R343 to R345). -/
def State.liftPark (s : State) (cl : Nat) (e : LiftEnt) : State × Bool :=
  let k := s.clu cl
  let e := { e with stamp := k.stamp }
  if k.usedBy e.part < FMap.get 2 k.quota e.part then
    ((s.setClu cl { k with lift := k.lift ++ [e], stamp := (k.stamp + 1) % 2 ^ 48 }).bumpSlice cl 0x22, true)
  else
    let d := k.ring e.part
    let a := d.addr d.tail
    if !d.v || decide ((d.tail + 2 ^ 32 - d.head) % 2 ^ 32 = 2 ^ d.lsz) then (s, false)
    else if !s.ringOk cl e.part a then (s.spillDenied cl e.part a, false)
    else
      let e := { e with spill := some d.tail }
      let d' := { d with tail := (d.tail + 1) % 2 ^ 32, live := d.live + 1 }
      let k' := { k with lift := k.lift ++ [e], stamp := (k.stamp + 1) % 2 ^ 48, spill := FMap.set k.spill e.part d' }
      ((((s.setClu cl k').ringWrite cl e.part a (e.words true)).bumpSlice cl 0x22).bumpSlice cl 0x23, true)

/-- Move the head of a ring past the entries that are no longer valid. -/
def headPast (live : List Nat) (tail : Nat) : Nat → Nat → Nat
  | 0, h => h
  | n + 1, h => if h = tail ∨ live.contains h then h else headPast live tail n ((h + 1) % 2 ^ 32)

/-- Clear a spilled entry in place (R344). -/
def State.ringClear (s : State) (cl : Nat) (e : LiftEnt) : State :=
  match e.spill with
  | none => s
  | some n =>
    let k := s.clu cl
    let d := k.ring e.part
    let live := (k.lift.filter (fun x => decide (x.part = e.part) && decide (x.stamp ≠ e.stamp))).filterMap (fun x => x.spill)
    let d' := { d with live := d.live - 1, head := headPast live d.tail (2 ^ d.lsz) d.head }
    (s.setClu cl { k with spill := FMap.set k.spill e.part d' }).ringWrite cl e.part (d.addr n) (e.words false)

/-- Remove an entry. -/
def State.liftDrop (s : State) (cl : Nat) (e : LiftEnt) : State :=
  ((s.ringClear cl e).onClu cl (fun k => { k with lift := k.lift.filter (fun x => x.stamp ≠ e.stamp) })).countWaiters cl e.cell

/-- Replace an entry by one with the same stamp. -/
def State.liftPut (s : State) (cl : Nat) (e : LiftEnt) : State :=
  let s := s.onClu cl (fun k => { k with lift := k.lift.map (fun x => if x.stamp = e.stamp then e else x) })
  match e.spill with
  | some n => s.ringWrite cl e.part (((s.clu cl).ring e.part).addr n) (e.words true)
  | none => s

/-! ### Results and notices (R349, R353) -/

/-- Send a result word on its way to a context. -/
def State.sendRes (s : State) (w fid : Nat) (res w0 w1 : Word) (poison : Bool) : State :=
  { s with results := s.results ++ [{ uid := s.uid, w := w, fid := fid, res := res, w0 := w0, w1 := w1, poison := poison }]
           uid := s.uid + 1 }

/-- Send a wake notice of kind 5 to a handle and mailbox; core `gc` posted the wait (R230, R353). -/
def State.wakeNotice (s : State) (gc part dest cell : Nat) (res : Word) : State :=
  s.emit gc part false [headWord 5 2 (dest / 2 ^ 24) (dest % 2 ^ 24) true false false, 0, res, BitVec.ofNat 64 cell]

/-- End a command: its cp count is returned while its firing runs, and its leave is given back (R274, R407). -/
def State.engFinish (s : State) (e : EngCmd) : State :=
  let s := { s with engines := s.engines.filter (fun x => x.uid ≠ e.uid) }
  let s := s.onCtx e.org.w (fun c => if c.fid = e.org.fid ∧ c.kind ≠ .none then { c with ocCp := c.ocCp - 1 } else c)
  if e.granted then
    s.onDie (dieOf (coreOf e.org.w)) (fun d => { d with leave := d.leave - engineWatts e })
  else { s with dies := FMap.mapVal (fun _ (d : Die) => { d with fifo := d.fifo.filter (fun x => x.1 ≠ cmdName e.uid) }) s.dies }

/-- Opcode and function that an engine error names (Table 20.1). -/
def engCode (kind : Nat) : Nat × Nat := if kind = 4 then (0x7D, 0) else (0x7C, kind)

/-- Report an engine error of a command with its cause (R276). -/
def State.engError (s : State) (e : EngCmd) (cause : Nat) (va : Nat) : State :=
  s.engineFault e.org (engCode e.kind).1 (engCode e.kind).2 cause (BitVec.ofNat 64 va)

/-- A completion action has applied or failed (R277). -/
def State.actionOver (s : State) (uid status : Nat) : State :=
  match s.engines.find? (fun e => decide (e.uid = uid)) with
  | none => s
  | some e => (if status = 0 then s else s.engineFault e.org (engCode e.kind).1 (engCode e.kind).2 3 e.actVa).engFinish e

/-- Deliver the outcome of a wait to whatever waits. -/
def State.deliver (s : State) (e : LiftEnt) (status value index : Nat) : State :=
  let res := resultWord status value index
  match e.eng, e.msg with
  | some u, _ => s.actionOver u status
  | none, some d => s.wakeNotice (coreOf e.w) e.part d e.cell res
  | none, none => s.sendRes e.w e.fid res 0 0 false

/-! ### Wakes (R341, R354) -/

/-- The waiter can be woken now. -/
def State.ready (s : State) (e : LiftEnt) : Bool :=
  e.freed ||
  (match e.code with
  | 0 => decide (signed 64 (s.cellW e.cell 0) ≥ signed 64 e.oper.toNat)
  | 1 => decide (signed 64 (s.cellW e.cell 0) ≤ signed 64 e.oper.toNat)
  | 2 => decide (signed 64 (s.cellW e.cell 0) = signed 64 e.oper.toNat)
  | 3 => decide (bits (s.cellW e.cell 0) 0 32 ≠ e.oper.toNat)
  | 4 | 9 => decide (bits (s.cellW e.cell 0) 32 32 = e.oper.toNat)
  | 5 => let q := s.que e.cell; decide (idxSub q.rsv q.rel < q.cap)
  | 6 => let q := s.que e.cell; decide (q.clm ≠ q.pub)
  | 7 => let q := s.que e.cell; let d := idxSub e.oper.toNat q.pub; decide (d < 64) || decide (idxSub q.rsv q.pub ≤ d)
  | 8 => e.chosen
  | _ => false)

/-- Result of a queue operation in a wake. -/
def CellOut.parts : CellOut → Nat × Nat × Nat
  | .done st v i => (st, v, i)
  | .wait _ _ => (0, 0, 0)

/-- Wake one waiter in its slot: the change the wake makes to the cell, and the result (R341, R353, R362). -/
def State.wakeOne (s : State) (cl : Nat) (e : LiftEnt) : State :=
  let gc := coreOf e.w
  let s := s.hsuLine cl e.cell
  if e.freed then (s.liftDrop cl e).deliver e 5 0 0
  else match e.code with
    | 3 => (s.liftDrop cl e).deliver e 0 (bits (s.cellW e.cell 0) 0 32) 0
    | 4 | 9 => ((s.liftDrop cl e).lckHold e.cell e.aid gc).deliver e 0 e.oper.toNat 0
    | 5 => let r := (s.liftDrop cl e).qRes e.cell; r.1.deliver e r.2.parts.1 0 r.2.parts.2.2
    | 6 => let r := (s.liftDrop cl e).qAwait e.cell; r.1.deliver e r.2.parts.1 0 r.2.parts.2.2
    | 7 => let r := (s.liftDrop cl e).qPub e.cell e.oper.toNat; r.1.deliver e r.2.parts.1 0 0
    | 8 =>
      let s := s.hsuLine cl e.lock
      if s.poisoned e.lock then (s.liftDrop cl e).sendRes e.w e.fid (resultWord 7 0 0) 0 0 true
      else
      let r := s.lckTicket e.lock
      if bits (r.1.cellW e.lock 0) 32 32 = r.2 then
        ((r.1.liftDrop cl e).lckHold e.lock e.aid gc).deliver e 0 r.2 0
      else r.1.liftPut cl { e with code := 9, oper := BitVec.ofNat 64 r.2, cell := e.lock, chosen := false }
    | _ => (s.liftDrop cl e).deliver e 0 0 0

/-- Ring line that holds a spilled entry. -/
def Cluster.ringLine (k : Cluster) (e : LiftEnt) : Option Nat := e.spill.map (fun n => (k.ring e.part).addr n / 64)

/-- Wake the ready waiters of a cell in stamp order; stop before a spilled one whose ring line `line` does not bring, and
keep the cell listed until that line returns (R341, R344). -/
def State.wakeAll (s : State) (cl pa : Nat) (line : Option Nat) : Nat → State
  | 0 => s
  | n + 1 =>
    match ((s.clu cl).waiters pa).find? (fun e => s.ready e) with
    | none => s.onClu cl (fun k => { k with wakes := k.wakes.filter (fun x => x ≠ pa) })
    | some e =>
      let here := (s.clu cl).ringLine e
      if here.isSome ∧ here ≠ line then
        s.onClu cl (fun k => { k with wakes := if k.wakes.contains pa then k.wakes else k.wakes ++ [pa] })
      else (s.wakeOne cl e).wakeAll cl pa line n

/-- Test the waiters of a cell after an operation. -/
def State.testWaiters (s : State) (cl pa : Nat) (line : Option Nat) : State :=
  s.wakeAll cl pa line (2 * (s.clu cl).lift.length + 1)

/-! ### HSU_OPERATION -/

/-- Entry of a waiting form of a context. -/
def CellOp.entry (op : CellOp) (code oper : Nat) : LiftEnt :=
  { stamp := 0, oper := BitVec.ofNat 64 oper
    msg := match op.mode with | .msg mb => some (op.org.aid + mb.val * 2 ^ 24) | _ => none
    w := op.org.w, fid := op.org.fid, code := code, part := op.org.part, cell := op.pa, aid := op.org.aid
    lock := match op.act with | .cndWait l _ => l | _ => 0
    org := op.org, eng := none, chosen := false, freed := false, spill := none }

/-- A form whose condition does not hold parks or posts (R352): its entry, then the change that parking makes, a ticket taken
or a lock given. A refused entry changes nothing and gives status 3 (R345). -/
def State.parkOp (s : State) (cl : Nat) (op : CellOp) (code oper : Nat) : State × Option Nat :=
  let r := s.liftPark cl (op.entry code oper)
  if !r.2 then (r.1, some 3)
  else
    let s := r.1.countWaiters cl op.pa
    let s := match code, op.act with
      | 4, _ => (s.lckTicket op.pa).1
      | 8, .cndWait l _ => ((s.hsuLine cl l).lckServe l).testWaiters cl l none
      | _, _ => s
    match op.mode with
    | .msg _ => (s, some 2)
    | _ =>
      let c := s.ctx op.org.w
      if c.fid = op.org.fid ∧ c.phase = .waitCell then
        ((s.dropLease op.org.w).toAll op.org.w (fun c => { c with phase := .lifted }), none)
      else (s, none)

/-- Cells an operation touches: none of them may have wakes pending (R341). -/
def CellOp.cells (op : CellOp) : List Nat :=
  op.pa :: (match op.act with | .cndWait l _ => [l] | _ => [])

/-- Execute one operation that has reached the HSU (R340, R352, R353). -/
def State.hsuDo (s : State) (cl : Nat) (op : CellOp) : State :=
  let w0 := BitVec.ofNat 64 (s.cellW op.pa 0)
  let w1 := BitVec.ofNat 64 (s.cellW op.pa 1)
  let tag := s.cellTag op.pa
  let answer := fun (s : State) (r : Word) => s.sendRes op.org.w op.org.fid r w0 w1 false
  let s := if op.act = CellAct.read then s.touchSlice cl (op.pa / 64) .dflt else s.hsuLine cl op.pa
  if op.cells.any s.poisoned then s.sendRes op.org.w op.org.fid (if op.act = CellAct.read then 0 else resultWord 7 0 0) 0 0 true
  else
    let r := s.cellDo cl op.pa op.act false op.org.aid (coreOf op.org.w)
    match r.2 with
    | .done st v i =>
      let s := match op.mode with
        | .msg mb =>
          if st = 0 then
            answer (r.1.wakeNotice (coreOf op.org.w) op.org.part (op.org.aid + mb.val * 2 ^ 24) op.pa (resultWord st v i)) (resultWord 2 0 0)
          else answer r.1 (resultWord st v i)
        | _ => answer r.1 (if op.act = CellAct.read then BitVec.ofNat 64 (tag.1 + tag.2 * 16) else resultWord st v i)
      s.testWaiters cl op.pa none
    | .wait code oper =>
      if op.mode = .try_ then answer s (resultWord 1 0 0)
      else
        let p := s.parkOp cl op code oper
        match p.2 with
        | some st => answer p.1 (resultWord st 0 0)
        | none => p.1

/-- Cluster whose list `f` holds an item. -/
def State.cluWith (s : State) (f : Cluster → Bool) : Option Nat := (s.clus.find? (fun x => f x.2)).map (fun x => x.1)

/-- HSU_OPERATION: the operation named `State.sel` is executed at its home, unless wakes of its cell are pending (R340). -/
def execHsuOperation (s : State) : Host.Outcome State Fault Refusal :=
  match s.cluWith (fun k => k.hsu.any (fun o => decide (o.uid = s.sel))) with
  | none => notEnabled
  | some cl =>
    match (s.clu cl).hsu.find? (fun o => decide (o.uid = s.sel)) with
    | none => notEnabled
    | some op =>
      if op.cells.any (fun a => (s.clu cl).wakes.contains a) then notEnabled
      else
        let s := s.onClu cl (fun k => { k with hsu := k.hsu.filter (fun o => o.uid ≠ op.uid) })
        .next ((s.bumpSlice cl 0x21).hsuDo cl op)

/-- What a read of a spilled waiter's ring entry gives: denied, it is an engine error and the waiter stays as it was (R189, R344). -/
def State.ringEntry (s : State) (cl : Nat) (e : LiftEnt) (n : Nat) : Option LiftEnt :=
  let a := ((s.clu cl).ring e.part).addr n
  if s.devOk (cl / 256) e.part false a && s.devOk (cl / 256) e.part false (a + 31) then e.reread (s.rdWords a 4) else some e

/-- Read the ring entries of some spilled waiters, class U accesses at their homes (R344); a denied read is reported (R189). -/
def State.rereadRing (s : State) (cl : Nat) (p : LiftEnt → Bool) : State :=
  let l := (s.clu cl).lift
  let bad := l.filterMap (fun e => match e.spill with
    | some n =>
      let a := ((s.clu cl).ring e.part).addr n
      if p e && !(s.devOk (cl / 256) e.part false a && s.devOk (cl / 256) e.part false (a + 31)) then some (e.part, a) else none
    | none => none)
  let s1 := s.onClu cl (fun k => { k with lift := k.lift.filterMap (fun e =>
    match e.spill with
    | some n => if p e then s.ringEntry cl e n else some e
    | none => some e) })
  bad.foldl (fun s x => s.spillDenied cl x.1 x.2) s1

/-- SPILL_LINE_RETURN: a ring line returns for the waiters of the cell at address `State.sel` (R344). -/
def execSpillLineReturn (s : State) : Host.Outcome State Fault Refusal :=
  match s.cluWith (fun k => k.wakes.contains s.sel) with
  | none => notEnabled
  | some cl =>
    match ((s.clu cl).waiters s.sel).find? (fun e => s.ready e) with
    | none => .next (s.testWaiters cl s.sel none)
    | some e =>
      let line := (s.clu cl).ringLine e
      .next ((s.rereadRing cl (fun x => decide ((s.clu cl).ringLine x = line))).testWaiters cl s.sel line)

/-- SPILL_REFILL: the spilled entry of a partition with the lowest stamp moves on-chip when the partition has room (R344). -/
def execSpillRefill (cluster part : Nat) (s : State) : Host.Outcome State Fault Refusal :=
  let k := s.clu cluster
  match k.lift.find? (fun e => decide (e.part = part) && e.spill.isSome) with
  | none => notEnabled
  | some e =>
    if FMap.get 2 k.quota part ≤ k.usedBy part then notEnabled
    else match (s.rereadRing cluster (fun x => decide (x.stamp = e.stamp))).clu cluster |>.lift.find? (fun x => decide (x.stamp = e.stamp)) with
    | none => .next (s.liftDrop cluster e)
    | some e => .next (((s.ringClear cluster e).liftPut cluster { e with spill := none }).countWaiters cluster e.cell)

/-! ### WITHDRAWAL (R346, R360) -/

/-- Every waiter of a lock behind a withdrawn ticket moves up one ticket (R360). -/
def LiftEnt.moveUp (tk serving : Nat) (e : LiftEnt) : LiftEnt :=
  if (e.code = 4 ∨ e.code = 9) ∧ (tk + 2 ^ 32 - serving) % 2 ^ 32 < (e.oper.toNat + 2 ^ 32 - serving) % 2 ^ 32 then
    { e with oper := BitVec.ofNat 64 ((e.oper.toNat + 2 ^ 32 - 1) % 2 ^ 32) }
  else e

/-- Remove the entry of a withdrawn waiter. -/
def State.withdrawEnt (s : State) (cl : Nat) (e : LiftEnt) : State :=
  let s := s.liftDrop cl e
  if e.code = 4 ∨ e.code = 9 then
    let s := s.hsuLine cl e.cell
    let w0 := s.cellW e.cell 0
    let s := s.wr64 e.cell (setBits w0 0 32 (bits w0 0 32 + 2 ^ 32 - 1))
    let moved := (s.clu cl).waiters e.cell
    let s := moved.foldl (fun s x => s.liftPut cl (x.moveUp e.oper.toNat (bits w0 32 32))) s
    s.testWaiters cl e.cell none
  else s

/-- A lift-line entry was withdrawn for a soft error: its waiter's supervisor is told, and a completion action that waited has failed, which
returns the cp count of its command (R277, Table 20.3 row 6). -/
def State.waiterLost (s : State) (e : LiftEnt) : State :=
  let s := s.lateFault e.org e.eng.isSome { code := 0x10, cls := 2, detail := 6, va := BitVec.ofNat 64 e.cell } e.org.pc.toNat
  match e.eng with
  | some u => s.actionOver u 0
  | none => s

/-- The line of an address becomes poisoned: the waiters that are parked on its cells are withdrawn, each with a 0x10 notice to its
supervisor, and the cells stay as they are (R340, Table 20.3 row 6). -/
def State.poisonLine (s : State) (pa : Nat) : State :=
  let s := s.setPoison pa
  let hit := s.clus.flatMap (fun x => (x.2.lift.filter (fun e => decide (e.cell / 64 = pa / 64))).map (fun e => (x.1, e)))
  hit.foldl (fun s x =>
    ((s.ringClear x.1 x.2).onClu x.1 (fun k => { k with lift := k.lift.filter (fun y => y.stamp ≠ x.2.stamp) })).waiterLost x.2) s

/-- WITHDRAWAL: the withdrawal of context `State.sel` takes its place in home order, behind that context's own operation
(R346). -/
def execWithdrawal (s : State) : Host.Outcome State Fault Refusal :=
  match s.cluWith (fun k => k.withdraw.any (fun x => decide (x.1 = s.sel))) with
  | none => notEnabled
  | some cl =>
    match (s.clu cl).withdraw.find? (fun x => decide (x.1 = s.sel)) with
    | none => notEnabled
    | some (w, fid) =>
      if (s.clu cl).hsu.any (fun o => decide (o.org.w = w) && decide (o.org.fid = fid)) then notEnabled
      else
        let s1 := s.onClu cl (fun k => { k with withdraw := k.withdraw.filter (fun x => x ≠ (w, fid)) })
        match (s.clu cl).lift.find? (fun e => decide (e.w = w) && decide (e.fid = fid) && e.msg.isNone && e.eng.isNone) with
        | some e => if (s.clu cl).wakes.contains e.cell then notEnabled else .next (s1.withdrawEnt cl e)
        | none => .next s1

/-- Ask the home where a context waits, or has a request on its way, to withdraw it (R265, R346). -/
def State.askWithdraw (s : State) (w : Nat) : State :=
  let fid := (s.ctx w).fid
  let mine := fun (k : Cluster) =>
    k.hsu.any (fun o => decide (o.org.w = w) && decide (o.org.fid = fid)) ||
    k.lift.any (fun e => decide (e.w = w) && decide (e.fid = fid) && e.msg.isNone && e.eng.isNone)
  match s.cluWith mine with
  | some cl => s.onClu cl (fun k => { k with withdraw := k.withdraw ++ [(w, fid)] })
  | none => s

/-! ### CELL_RESULT (R351) -/

/-- Write a result to its destination (R349, R357). -/
def Ctx.cellWrite (c : Ctx) (d : CellDst) (r : CellRes) : Ctx :=
  match d with
  | .none => c
  | .word d _ => c.dst d r.res
  | .read n mt _ =>
    let c := (c.setSreg n r.w0).setSreg (n + 1) r.w1
    match mt with
    | some m => c.setSreg m r.res
    | none => c

/-- The wait-refused fault of a discarded result (R351). -/
def CellDst.refused (d : CellDst) (r : CellRes) : Option Trap :=
  match d with
  | .word .discard va =>
    let st := bits r.res.toNat 0 4
    if 3 ≤ st ∧ st ≤ 6 then some { code := 0x0A, cls := 1, detail := st, va := va } else Option.none
  | _ => Option.none

/-- Address that a cell instruction named, for a consumed-poison report. -/
def CellDst.va : CellDst → Word
  | .word _ va => va
  | .read _ _ va => va
  | .none => 0

/-- CELL_RESULT: the result named `State.sel` reaches its context, which writes it and goes on; one for a firing that was
killed or has ended is discarded (R265, R351). -/
def execCellResult (s : State) : Host.Outcome State Fault Refusal :=
  match s.results.find? (fun r => decide (r.uid = s.sel)) with
  | none => notEnabled
  | some r =>
    let s := { s with results := s.results.filter (fun x => x.uid ≠ r.uid) }
    let c := s.ctx r.w
    if c.fid ≠ r.fid ∨ (c.phase ≠ .waitCell ∧ c.phase ≠ .lifted) then .next s
    else
      let d := c.cellDst
      let s := s.toAll r.w (fun c => { c with phase := .running })
      match d.refused r with
      | some t => .next (s.fault r.w t)
      | none =>
        let s := if r.poison then s.note r.w 0x11 0 d.va else s
        .next ((s.toAll r.w (fun c => c.cellWrite d r)).retire r.w)

end Sys2Proof.Machine
end

