-- ==== Sys2Proof/Machine/Messages.lean ====
section
/-! DEFINITION. SEND, SENDV, SENDP, REPLY, ACTIVATE, FIN, COMMIT, YIELD and MPEEK (R226, R227, R237 to R248 of
spec/12_messages.md). -/

namespace Sys2Proof.Machine

/-! ### Building a packet -/

/-- Word 0 of a packet that a firing sends (Table 12.2). -/
def sendWord0 (kind len nsucc mb dest pool : Nat) (rv sup : Bool) : Word :=
  headWord kind len mb dest false sup rv ||| BitVec.ofNat 64 (nsucc * 2 ^ 12 + pool * 2 ^ 40)

/-- Word 1 of a packet before its sequence is assigned: the sender and its reply mailbox. -/
def sendWord1 (sender : Nat) (rv : Bool) (rmb : Nat) : Word :=
  BitVec.ofNat 64 (sender % 2 ^ 24 + (if rv then rmb % 4 * 2 ^ 24 else 0))

/-- Sender handle of a firing's packets (R227). -/
def State.senderOf (s : State) (w : Nat) : Nat :=
  let c := s.ctx w
  match c.kind with
  | .actor => c.aid
  | .activate => s.supHandle (coreOf w)
  | _ => 0

/-- RV may not be set: in a pool firing, and in an ACTIVATE run on a core without a supervisor actor (R240). -/
def State.rvBad (s : State) (w : Nat) (rv : Bool) : Bool :=
  let c := s.ctx w
  rv && (decide (c.kind = .pool) || (decide (c.kind = .activate) && decide ((s.sched (coreOf w) 0).st = .absent)))

/-- Handle field of a destination word (R239). -/
def dwDest (x : Word) : Nat := bits x.toNat 0 24
/-- Mailbox field of a destination word. -/
def dwMb (x : Word) : Nat := bits x.toNat 24 2
/-- RV of a destination word or pool word. -/
def dwRv (x : Word) : Bool := bit x.toNat 26
/-- Reply mailbox of a destination word or pool word. -/
def dwRmb (x : Word) : Nat := bits x.toNat 27 2
/-- Pool id of a pool word. -/
def pwPool (x : Word) : Nat := bits x.toNat 0 16

/-- A destination word without set reserved bits (R239). -/
def destWordOk (x : Word) : Bool := decide (x.toNat < 2 ^ 29)
/-- A pool word that R240 accepts: bits [63:29] and [23:16] are 0, and it names a pool. -/
def poolWordOk (x : Word) : Bool := decide (x.toNat < 2 ^ 29) && decide (bits x.toNat 16 8 = 0) && decide (pwPool x ≠ 0)

/-- Read the image of a packet: `len - 1` units of 16 bytes at a local address (R240). -/
def State.image (s : State) (w : Nat) (addr : Word) (len : Nat) : Except Stop (State × Pkt) :=
  match s.resolveL w addr.toNat (16 * (len - 1)) 16 false with
  | .error e => .error e
  | .ok l => .ok (s.touchLocal w addr.toNat l, wordsOf (2 * (len - 1)) (s.readBytes w l))

/-- Index of the lowest free slot of a send buffer. -/
def freeSlot : List Slot → Nat → Option Nat
  | [], _ => none
  | .free :: _, i => some i
  | _ :: l, i => freeSlot l (i + 1)

/-- Fill a free slot of the send buffer with a packet, within the production bound (R238, R240). -/
def State.fillSlot (s : State) (w : Nat) (p : Pkt) : Except Stop State :=
  let c := s.ctx w
  match c.pktB, freeSlot c.slots 0 with
  | n + 1, some i =>
    let s := s.putPkt (coreOf w) (sendLocal (w % 4) + 256 * i) p
    .ok ((s.onCtx w (fun c => { c with pktB := n, slots := c.slots.set i (.filled s.uid p) })).fresh)
  | _, _ => .error (.trap (permTrap 4 0))

/-- Deque entries of a core that are not free: queued, written, reserved and return-reserved, one of the last for a steal
under way (R258 Table 13.4, R259). -/
def State.deqUsed (s : State) (gc : Nat) : Nat :=
  let own := [0, 1, 2, 3].foldl (fun a x =>
    let c := s.ctx (4 * gc + x)
    a + c.written.length + c.deqB + (if c.retEnt then 1 else 0)) 0
  (s.core gc).deque.length + own + (if (s.core gc).stealBusy.isSome then 1 else 0)

/-- Free deque entries of a core. -/
def State.deqFree (s : State) (gc : Nat) : Nat := 256 - s.deqUsed gc

/-- Put a task into a reserved deque entry, visible at publication (R240). -/
def State.fillTask (s : State) (w : Nat) (p : Pkt) : Except Stop State :=
  let c := s.ctx w
  match c.deqB with
  | n + 1 =>
    let i := s.deqIndex (coreOf w)
    let s := s.putPkt (coreOf w) (deqLocal i) p
    .ok ((s.onCtx w (fun c => { c with deqB := n, written := c.written ++ [(s.uid, i, p)] })).fresh)
  | 0 => .error (.trap (permTrap 4 0))

/-! ### SEND, SENDV, SENDP, REPLY -/

/-- SEND (R239, R240). -/
def execSend (a b : Src) (len1 nsucc : Fin 16) (s : State) : Host.Outcome State Fault Refusal :=
  once s fun w s =>
    let c := s.ctx w
    let dw := c.src a
    let len := len1.val + 1
    match s.image w (c.src b) len with
    | .error e => .error e
    | .ok (s, img) =>
      if !destWordOk dw || s.rvBad w (dwRv dw) then .error (.trap (permTrap 3 dw))
      else s.fillSlot w (sendWord0 0 len nsucc.val (dwMb dw) (dwDest dw) 0 (dwRv dw) c.supv ::
        sendWord1 (s.senderOf w) (dwRv dw) (dwRmb dw) :: img)

/-- SENDV (R241). -/
def execSendv (a b c : Src) (vp : Option VSrc) (s : State) : Host.Outcome State Fault Refusal :=
  once s fun w s =>
    let k := s.ctx w
    let dw := k.src a
    let payload : Pkt := match vp with | some v => wordsOf 8 (leBytes 64 (k.vsrc 8 v).toNat) | none => []
    let len := match vp with | some _ => 6 | none => 2
    if !destWordOk dw || s.rvBad w (dwRv dw) then .error (.trap (permTrap 3 dw))
    else s.fillSlot w (sendWord0 0 len 0 (dwMb dw) (dwDest dw) 0 (dwRv dw) k.supv ::
      sendWord1 (s.senderOf w) (dwRv dw) (dwRmb dw) :: k.src b :: k.src c :: payload)

/-- SENDP (R239, R240). -/
def execSendp (a b : Src) (len1 nsucc : Fin 16) (s : State) : Host.Outcome State Fault Refusal :=
  once s fun w s =>
    let c := s.ctx w
    let pw := c.src a
    let len := len1.val + 1
    match s.image w (c.src b) len with
    | .error e => .error e
    | .ok (s, img) =>
      if !poolWordOk pw || s.rvBad w (dwRv pw) then .error (.trap (permTrap 3 pw))
      else s.fillTask w (sendWord0 1 len nsucc.val 0 0 (pwPool pw) (dwRv pw) c.supv ::
        sendWord1 (s.senderOf w) (dwRv pw) (dwRmb pw) :: img)

/-- REPLY (R242). -/
def execReply (a b : Src) (len1 nsucc : Fin 16) (rv : Bool) (rmb : Fin 4) (s : State) :
    Host.Outcome State Fault Refusal :=
  once s fun w s =>
    let c := s.ctx w
    let k := c.src a
    let len := len1.val + 1
    match s.image w (c.src b) len with
    | .error e => .error e
    | .ok (s, img) =>
      let p : Pkt := if k.toNat < c.nmsg then c.msgs.getD k.toNat [] else []
      if !Pkt.rv p || decide (Pkt.sender p = 0) || s.rvBad w rv then .error (.trap (permTrap 3 k))
      else s.fillSlot w (sendWord0 0 len nsucc.val (Pkt.rmb p) (Pkt.sender p) 0 rv c.supv ::
        sendWord1 (s.senderOf w) rv rmb.val :: img)

/-! ### ACTIVATE (R243) -/

/-- ACTIVATE places a 48-byte packet of kind 2 in the send buffer. -/
def execActivate (a b c e : Src) (s : State) : Host.Outcome State Fault Refusal :=
  once s (privileged 0xF500 fun w s =>
    let k := s.ctx w
    let target := k.src a
    if 2 ^ 19 ≤ target.toNat then .error (.trap (permTrap 3 target))
    else s.fillSlot w [sendWord0 2 3 0 0 target.toNat 0 false true, sendWord1 (s.senderOf w) false 0, k.src c, k.src e,
      k.src b, 0])

/-! ### COMMIT, FIN, YIELD -/

/-- COMMIT (R245). -/
def execCommit (s : State) : Host.Outcome State Fault Refusal := once s fun w s => s.commit w

/-- The completion notices of a consumed packet, one for each successor entry, from a supervisor firing or another (R237, Table 12.2). -/
def noticesOf (aid : Nat) (sup : Bool) (p : Pkt) : List Pkt :=
  (List.range (Pkt.nsucc p)).map (fun i =>
    let e := Pkt.word p (2 * Pkt.units p - Pkt.nsucc p + i)
    [headWord 4 2 (bits e 24 2) (bits e 0 24) false sup false, BitVec.ofNat 64 aid,
      BitVec.ofNat 64 (bits e 32 32 + Pkt.seq p * 2 ^ 32), BitVec.ofNat 64 (Pkt.sender p)])

/-- Put notices in the notice queue of a core, behind what the firing has published (R237). -/
def State.queueNotices (s : State) (w : Nat) : List Pkt → State
  | [] => s
  | p :: l =>
    let gc := coreOf w
    let e : NetPkt := { uid := s.uid, core := gc, part := (s.ctx w).part, w := none, pair := none, p := p, tries := 0,
                        st := .ready, redir := false, gate := s.gateNow w, nq := true, host := none }
    let s := s.onCore gc (fun k => { k with notq := k.notq + 1 })
    ({ s with net := s.net ++ [e] }.fresh).queueNotices w l

/-- Notices of a firing that are not handed over yet: all of them at its first attempt to end. -/
def Ctx.owes (c : Ctx) : List Pkt := c.owed.getD (c.msgs.flatMap (noticesOf c.aid c.supv))

/-- FIN: publication, the completion notices one by one, and the end of the firing; it stalls while the notice queue is full
(R244). An imprecise fault that is recorded in that time is taken in the place of the end (R382). -/
def finOp (w : Nat) (s : State) : Except Stop State :=
  match (match s.pendingFault w with | some t => .error (.trap t) | none => s.commit w : Except Stop State) with
  | .error e => .error e
  | .ok s =>
    let ns := (s.ctx w).owes
    let room := 32 - (s.core (coreOf w)).notq
    let s := s.queueNotices w (ns.take room)
    if room < ns.length then .error (.wait (s.onCtx w (fun c => { c with owed := some (ns.drop room) })))
    else .ok (s.cutShort w)

/-- FIN (R244). -/
def execFin (s : State) : Host.Outcome State Fault Refusal := once s finOp

/-- YIELD: nothing while `%yreq` is 0, else FIN (R246). -/
def execYield (s : State) : Host.Outcome State Fault Refusal :=
  once s fun w s => if (s.ctx w).yreq then finOp w s else .ok s

/-! ### MPEEK (R247) -/

/-- Word of a packet that MPEEK reads. -/
def peekWord : Peek → Option Nat
  | .cnt => none
  | .hdr => some 0
  | .arg0 => some 2
  | .arg1 => some 3

/-- Place in the scratchpad of the word that MPEEK reads, if it reads one. -/
def State.peekAt (s : State) (w : Nat) (what : Peek) (m pos : Nat) : Option Nat :=
  let c := s.ctx w
  let b := s.mbox (coreOf w) c.slot m
  match peekWord what with
  | none => none
  | some k => if 3 < m ∨ c.kind ≠ .actor ∨ b.en = false ∨ b.count ≤ pos then none else some (b.entry (b.head + pos) + 8 * k)

/-- The value MPEEK reads from mailbox `m` of the firing's actor. -/
def State.peekMb (s : State) (w : Nat) (what : Peek) (m pos : Nat) : Word :=
  let c := s.ctx w
  let b := s.mbox (coreOf w) c.slot m
  match what with
  | .cnt => if 3 < m ∨ c.kind ≠ .actor ∨ b.en = false then 0 else BitVec.ofNat 64 b.count
  | _ => match s.peekAt w what m pos with
    | some a => BitVec.ofNat 64 (s.rd64 (localPA (coreOf w) a))
    | none => 0

/-- MPEEK: read by the lead core, written on every core of a gang (R247, R248). -/
def execMpeek (what : Peek) (d : Dst) (b c : Src) (s : State) : Host.Outcome State Fault Refusal :=
  let k := s.ctx s.cur
  let m := (k.src b).toNat
  let pos := (k.src c).toNat
  eachCtx (s.readWord s.cur (s.peekAt s.cur what m pos)) fun c => c.dst d (s.peekMb s.cur what m pos)

end Sys2Proof.Machine
end

