-- ==== Sys2Proof/Machine/Landing.lean ====
section
/-! DEFINITION. Landing counters and WAITC: the instructions, the actions and the deadlines (R365 to R377 of
spec/19_landing.md). -/

namespace Sys2Proof.Machine

/-! ### Counter words and ownership (R371, R372) -/

/-- A landing counter: of a core, or of a slice with the number of its cluster. -/
structure CtrId where
  slice : Bool
  unit_ : Nat
  idx   : Nat
deriving DecidableEq, Repr

/-- The counter a word names, for core `gc`; none when a bit is set that must be 0, or no such counter exists. -/
def ctrOf (gc : Nat) (x : Word) : Option CtrId :=
  let v := x.toNat
  if 2 ^ 30 ≤ v then none
  else if bit v 13 then some { slice := true, unit_ := bits v 22 8 * 256 + bits v 14 8, idx := bits v 4 9 }
  else if bits v 14 16 ≠ 0 ∨ 64 ≤ bits v 4 9 then none
  else some { slice := false, unit_ := gc, idx := bits v 4 9 }

/-- The word of a counter, without its low bits. -/
def CtrId.word (c : CtrId) : Nat :=
  if c.slice then c.idx * 2 ^ 4 + 2 ^ 13 + c.unit_ % 256 * 2 ^ 14 + c.unit_ / 256 * 2 ^ 22 else c.idx * 2 ^ 4

/-- Record of a counter. -/
def State.ctr (s : State) (c : CtrId) : LandRec :=
  if c.slice then FMap.get {} (s.clu c.unit_).land c.idx else FMap.get {} (s.core c.unit_).land c.idx

/-- Write the record of a counter. -/
def State.setCtr (s : State) (c : CtrId) (r : LandRec) : State :=
  if c.slice then s.onClu c.unit_ (fun k => { k with land := FMap.set k.land c.idx r })
  else s.onCore c.unit_ (fun k => { k with land := FMap.set k.land c.idx r })

/-- The firing's actor owns core counter `i`. -/
def Ctx.ownsCtr (c : Ctx) (i : Nat) : Bool := bit c.lmask.toNat i

/-- Some actor placed on a core owns counter `i` (lown, Table 15.3). -/
def State.ctrTaken (s : State) (gc i : Nat) : Bool :=
  (List.range 64).any (fun k => decide (s.handleOf gc k ≠ 0) && bit (s.desc gc k 18) i)

/-- Bit `i` of `%lmask` set to `b`. -/
def Ctx.setLmask (c : Ctx) (i b : Nat) : Ctx := { c with lmask := BitVec.ofNat 64 (setBits c.lmask.toNat i 1 b) }

/-- The actor of context `w` takes core counter `i`: the bit is set in lown of its descriptor and in `%lmask` of its firing, of a gang on
all four cores (R371). -/
def State.markCtr (s : State) (w i : Nat) : State :=
  let c := s.ctx w
  let home := if c.gang then leadOf (coreOf w) else coreOf w
  let ws := if c.gang then (List.range 4).map (fun k => 4 * (home + k) + w % 4) else [w]
  let s := ws.foldl (fun s m => s.onCtx m (fun c => c.setLmask i 1)) s
  if c.kind = .actor then s.setDesc home c.slot 18 (setBits (s.desc home c.slot 18) i 1 1) else s

/-- Release core counter `i` of the core of context `w`: its bit leaves lown of the actor that owns it, whichever it is, and `%lmask` of
that actor's firing (R371, R374). A firing of a gang releases what its own actor owns, and no counter of another actor of the lead core. -/
def State.releaseCtr (s : State) (w i : Nat) : State :=
  let g := s.ctx w
  let home := if g.gang then leadOf (coreOf w) else coreOf w
  let s := (List.range 64).foldl (fun s k =>
    if (!g.gang || decide (k = g.slot)) && bit (s.desc home k 18) i then s.setDesc home k 18 (setBits (s.desc home k 18) i 1 0) else s) s
  (List.range 16).foldl (fun s x =>
    let c := s.ctx (4 * home + x)
    if c.kind = .actor ∧ x / 4 = c.gidx ∧ (g.gang = false ∨ c.gang = true) then s.onCtx (4 * home + x) (fun c => c.setLmask i 0)
    else s) s

/-! ### LAND.ARM (R373) -/

/-- Bits of an arm image that may be set. -/
def armBitsOk (p : Pkt) (g : Bool) (action : Nat) : Bool :=
  decide (bits (Pkt.word p 0) 59 5 = 0) && decide (bits (Pkt.word p 0) 40 15 = 0) && decide (Pkt.word p 1 = 0) &&
  (g || decide (Pkt.word p 2 < 2 ^ 20)) && decide (bits (Pkt.word p 3) 22 10 = 0) &&
  (match action with
   | 1 | 2 => true
   | 3 => decide (bits (Pkt.word p 4) 44 20 = 0) && decide (bits (Pkt.word p 4) 24 19 = 0)
   | _ => decide (Pkt.word p 4 = 0)) &&
  decide (Pkt.word p 6 < 2 ^ 26) && decide (Pkt.word p 7 = 0)

/-- The fields of an arm image. -/
def armRec (p : Pkt) : LandRec :=
  let a := bits (Pkt.word p 0) 55 3
  { arm := true, re := bit (Pkt.word p 0) 58, action := a, total := bits (Pkt.word p 0) 0 40 + 1, base := Pkt.word p 2
    deadline := bits (Pkt.word p 3) 32 32, length := bits (Pkt.word p 3) 0 22, pool := decide (a = 3) && bit (Pkt.word p 4) 43
    len1 := if a = 3 then bits (Pkt.word p 4) 20 4 else 0, image := if a = 3 then bits (Pkt.word p 4) 0 20 else 0
    oper := p.getD 5 0, notify := bits (Pkt.word p 6) 0 26 }

/-- The second check of R373. -/
def armFieldsOk (p : Pkt) (g : Bool) : Bool :=
  let r := armRec p
  armBitsOk p g r.action && decide (r.action ≤ 4) && (decide (r.action ≠ 3) || decide (r.len1 ≠ 0)) &&
  decide (r.length ≠ 0) && decide (r.length % 16 = 0) && decide (r.base % 16 = 0)

/-- The region of a `.g` arm: within one leaf and one homing block, in HBM, with W (R373). The physical base is returned. -/
def State.armRegion (s : State) (w : Nat) (r : LandRec) : Except Stop (State × Nat × Nat) :=
  match s.translate w r.base 16 .write with
  | .error e => .error e
  | .ok (s, .mem pa hb _ :: _) =>
    match (s.lookup w r.base).2 with
    | none => .error (.trap (permTrap 3 (BitVec.ofNat 64 r.base)))
    | some l =>
      let b := 2 ^ (12 + hb)
      if s.region pa ≠ .hbm ∨ l.va + l.size < r.base + r.length ∨ pa / b ≠ (pa + r.length - 1) / b then
        .error (.trap (permTrap 3 (BitVec.ofNat 64 r.base)))
      else .ok (s, pa, hb)
  | .ok (_, _) => .error (.trap (permTrap 3 (BitVec.ofNat 64 r.base)))

/-- The action's operands (R373 step 5): the cell translated, or the packet image and its operand checked. -/
def State.armAction (s : State) (w : Nat) (p : Pkt) (r : LandRec) : Except Stop (State × LandRec) :=
  let gc := coreOf w
  if r.action = 1 ∨ r.action = 2 then
    let va := p.getD 4 0
    if va.toNat % 16 ≠ 0 then .error (.trap (permTrap 3 va))
    else match s.cellAddr w va with
      | .error e => .error e
      | .ok (s, pa, hb) => .ok (s, { r with cell := pa, cellHb := hb })
  else if r.action = 3 then
    let ok := if r.pool then poolWordOk r.oper else destWordOk r.oper
    if r.image % 16 ≠ 0 ∨ (s.core gc).sysBase < r.image + 16 * r.len1 then
      .error (.trap (permTrap 3 (BitVec.ofNat 64 r.image)))
    else if !ok then .error (.trap (permTrap 3 r.oper))
    else .ok (s, { r with imod := modOf gc, icore := gc % 2048 })
  else .ok (s, r)

/-- Fields that hardware completes: who armed the counter, and when its deadline passes. -/
def State.armOwner (s : State) (w : Nat) (r : LandRec) : LandRec :=
  let c := s.ctx w
  let gc := coreOf w
  { r with amod := modOf gc, acore := gc % 2048, part := c.part, owner := if c.kind = .actor then c.aid else 0,
           dlAt := if r.deadline = 0 then none else some (s.now + r.deadline), from_ := s.now + 1 }

/-- Lowest-numbered disarmed counter of a slice. -/
def Cluster.freeCtr (k : Cluster) : Option Nat := (List.range 512).find? (fun i => !(FMap.get {} k.land i).arm)

/-- Arm core counter `i`: the state, and the counter word with the status (R373). -/
def State.armCore (s : State) (w i : Nat) (r : LandRec) : Except Stop (State × Nat) :=
  let c := s.ctx w
  let gc := coreOf w
  let id : CtrId := { slice := false, unit_ := gc, idx := i }
  let mine := c.supv || c.ownsCtr i
  if !mine && (decide (c.kind ≠ .actor) || s.ctrTaken gc i) then .ok (s, id.word + 2)
  else
    let s1 := if mine then s else s.markCtr w i
    if (s.ctr id).arm then .ok (s1, id.word + 3)
    else if (s.ctr id).owes then .error (.wait s)
    else .ok (s1.setCtr id (s1.armOwner w r), id.word)

/-- Arm a counter of the slice that is the home of the region (R373). When none is free the spec names no counter: the index of the
word is a free value (log entry 3). -/
def State.armSlice (s : State) (w hb : Nat) (r : LandRec) : Except Stop (State × Nat) :=
  let cl := homeOf r.base hb
  match (s.clu cl).freeCtr with
  | none =>
    let i := (Config.freeByte s.freeCtr).toNat + (Config.freeByte (s.freeCtr + 1)).toNat % 2 * 2 ^ 8
    .ok ({ s with freeCtr := s.freeCtr + 2 }, (CtrId.mk true cl i).word + 1)
  | some i =>
    let id : CtrId := { slice := true, unit_ := cl, idx := i }
    if (s.ctr id).owes then .error (.wait s) else .ok (s.setCtr id { s.armOwner w r with sl := true }, id.word)

/-- LAND.ARM of one context: the checks of R373 in their order, then the arm. -/
def landArmOp (st : Dst) (b : Src) (idx : Option Src) (w : Nat) (s : State) : Except Stop State :=
  let va := (s.ctx w).src b
  match s.resolveL w va.toNat 64 64 false with
  | .error e => .error e
  | .ok l =>
    let fin := fun (x : Except Stop (State × Nat)) => match x with
      | .error e => .error e
      | .ok (s, v) => .ok ((s.touchLocal w va.toNat l).onCtx w (fun c => c.dst st (BitVec.ofNat 64 v)))
    let p := wordsOf 8 (s.readBytes w l)
    let r := armRec p
    if !armFieldsOk p idx.isNone then .error (.trap (permTrap 3 va))
    else match idx with
      | some c =>
        let i := ((s.ctx w).src c)
        if 64 ≤ i.toNat then .error (.trap (permTrap 3 i))
        else if r.base / 0x10000 ≠ (r.base + r.length - 1) / 0x10000 ∨ (s.core (coreOf w)).sysBase < r.base + r.length then
          .error (.trap (permTrap 3 (BitVec.ofNat 64 r.base)))
        else match s.armAction w p r with
          | .error e => .error e
          | .ok (s, r) => fin (s.armCore w i.toNat r)
      | none =>
        match s.armRegion w r with
        | .error e => .error e
        | .ok (s, pa, hb) =>
          match s.armAction w p { r with base := pa } with
          | .error e => .error e
          | .ok (s, r) => fin (s.armSlice w hb r)

/-- LAND.ARM (R373). -/
def execLandArm (st : Dst) (b : Src) (idx : Option Src) (s : State) : Host.Outcome State Fault Refusal :=
  each s (landArmOp st b idx)

/-! ### LAND.OFF, LAND.RD, WAITC (R374, R375, R377) -/

/-- The firing may disarm a counter (R371, R374). -/
def State.mayStop (s : State) (w : Nat) (id : CtrId) : Bool :=
  let c := s.ctx w
  let r := s.ctr id
  if id.slice then
    !r.arm || (decide (r.part = c.part) && (c.supv || decide (r.owner = 0) || (decide (c.kind = .actor) && decide (r.owner = c.aid))))
  else c.supv || c.ownsCtr id.idx

/-- LAND.OFF (R374). It comes behind the counted writes and the deadline of its cycle (R368). What each context of a gang may disarm is
decided before any of them releases a counter. -/
def execLandOff (a : Src) (rel : Bool) (s : State) : Host.Outcome State Fault Refusal :=
  each s fun w t =>
    let x := (t.ctx w).src a
    match ctrOf (coreOf w) x with
    | none => .error (.trap (permTrap 3 x))
    | some id =>
      if !s.mayStop w id then .error (.trap (permTrap 3 x))
      else
        let t := if (t.ctr id).arm then t.setCtr id { t.ctr id with arm := false, offAt := some t.now } else t
        .ok (if rel && !id.slice then t.releaseCtr w id.idx else t)

/-- LAND.RD (R375). -/
def execLandRd (n : SPair) (b : Src) (s : State) : Host.Outcome State Fault Refusal :=
  each s fun w s =>
    let x := (s.ctx w).src b
    match ctrOf (coreOf w) x with
    | none => .error (.trap (permTrap 3 x))
    | some id =>
      let r := s.ctr id
      if id.slice && decide (r.part ≠ (s.ctx w).part) then .error (.trap (permTrap 3 x))
      else .ok (s.onCtx w (fun c => (c.setSreg (2 * n.val) (BitVec.ofNat 64 (r.word 0))).setSreg (2 * n.val + 1)
        (BitVec.ofNat 64 (r.word 1))))

/-- A counter of `%oc` is at or below a limit; 255 is no limit. -/
def limitOk (n : Nat) (l : BitVec 8) : Bool := decide (l.toNat = 255) || decide (n ≤ l.toNat)

/-- WAITC (R377). -/
def execWaitc (ld st cp tl : BitVec 8) (s : State) : Host.Outcome State Fault Refusal :=
  each s fun w s =>
    let c := s.ctx w
    if limitOk c.ocLd ld && limitOk c.ocSt st && limitOk c.ocCp cp && limitOk c.ocTl tl then .ok s else .error (.wait s)

/-! ### Actions and deadlines (R366, R368 to R370) -/

/-- Report an engine error of a counter to the supervisor of the arming core (R369). -/
def State.landError (s : State) (r : LandRec) (cause va : Nat) : State :=
  let t : Trap := { code := 0x14, cls := 3, detail := 0x76 + cause * 2 ^ 12, va := BitVec.ofNat 64 va }
  s.lateNotice (r.amod * 2048 + r.acore) r.part r.owner true t 0 0

/-- A cell action of an engine or a counter at the cell's home, in its slot: the state and the status (R340). -/
def State.actCell (s : State) (home pa : Nat) (act : CellAct) : State × CellOut :=
  let s := (s.hsuLine home pa).bumpSlice home 0x21
  s.cellDo home pa act false 0 0

/-- Name of the pair of a counter and a mailbox (R369). -/
def CtrId.key (c : CtrId) : Nat := 2 ^ 61 + (if c.slice then 2 ^ 32 else 0) + c.unit_ * 512 + c.idx

/-- Name of a mailbox among pairs. -/
def boxKey (dest mb : Nat) : Nat := dest * 4 + mb

/-- Mark the first packet of a pair after a bounce of that pair (R235). -/
def State.newSeq (s : State) (pair : Nat × Nat) (p : Pkt) : State × Pkt :=
  if s.pbounce.contains pair then ({ s with pbounce := s.pbounce.filter (fun y => y ≠ pair) }, Pkt.withNew p) else (s, p)

/-- The packet of an action (R369). -/
def State.landPacket (s : State) (r : LandRec) : Pkt :=
  let gc := r.imod * 2048 + r.icore
  let img := s.rdWords (localPA gc r.image) (2 * r.len1)
  let x := r.oper
  let w0 := headWord (if r.pool then 1 else 0) (r.len1 + 1) (if r.pool then 0 else dwMb x) (if r.pool then 0 else dwDest x) true
    false (dwRv x)
  (if r.pool then w0 ||| BitVec.ofNat 64 (pwPool x * 2 ^ 40) else w0) :: sendWord1 r.owner (dwRv x) (dwRmb x) :: img

/-- Queue a task at the bottom of a deque. -/
def State.putTask (s : State) (gc : Nat) (p : Pkt) : State :=
  let i := s.deqIndex gc
  (s.putPkt gc (deqLocal i) p).onCore gc (fun k =>
    { k with deque := k.deque ++ [{ p := p, idx := i, push := s.now, held := none, from_ := s.now + 1 }] })

/-- Place an action's task on a deque, bounce it, or wait 64 cycles for room (R369). `r` is the counter that sends it. -/
def State.landTask (s : State) (gc part key : Nat) (r : Option LandRec) (p : Pkt) : State :=
  if (s.poolEnt gc part (Pkt.pool p)).isNone then
    let e : NetPkt := { uid := s.uid, core := gc, part := part, w := none, pair := some (key, 0), p := p, tries := 0, st := .bounced 7,
                        redir := false, gate := {}, nq := false, host := none, rec_ := r }
    { s with net := s.net ++ [e], uid := s.uid + 1 }
  else if s.deqFree gc = 0 then s.onCore gc (fun k => { k with poolRetry := k.poolRetry ++ [(s.now + 64, part, key, r, p)] })
  else s.putTask gc p

/-- A scratchpad word of a range holds an uncorrectable error (R392). -/
def State.badIn (s : State) (pa n : Nat) : Bool := s.badWords.any (fun k => rangesMeet (8 * k) 8 pa n)

/-- Take one action of a counter. -/
def State.landAct (s : State) (id : CtrId) (r : LandRec) : State :=
  let home := homeOf r.cell r.cellHb
  let cell := fun (act : CellAct) =>
    if !s.devOk r.amod r.part true r.cell then s.landError r 0 r.cell
    else if s.poisoned r.cell then s.landError r 1 r.cell
    else
      let x := s.actCell home r.cell act
      (if x.2.parts.1 = 0 then x.1 else x.1.landError r 3 r.cell).testWaiters home r.cell none
  let gc := r.imod * 2048 + r.icore
  match r.action with
  | 1 => cell (.barArv r.oper.toInt)
  | 2 => cell (.cntAdd r.oper.toInt)
  | 3 =>
    let p := s.landPacket r
    if s.badIn (localPA gc r.image) (16 * r.len1) then s.landError r 1 r.image
    else if r.pool then s.landTask gc r.part id.key (some r) p
    else
      let x := s.newSeq (id.key, boxKey (Pkt.dest p) (Pkt.mb p)) p
      let s := x.1
      let p := x.2
      let e : NetPkt := { uid := s.uid, core := gc, part := r.part, w := none, pair := some (id.key, boxKey (Pkt.dest p) (Pkt.mb p)),
                          p := p, tries := 0, st := .ready, redir := false, gate := {}, nq := false, host := none, rec_ := some r }
      { s with net := s.net ++ [e], uid := s.uid + 1 }
  | 4 => s.landNotice r id.slice id.unit_ id.idx 0
  | _ => s

/-- LANDING_ACTION: a counter that reached its total in an earlier cycle takes one action (R366, R369). A cell action waits while wakes of its
cell are pending at the home (R341). -/
def execLandingAction (slice : Bool) (unit idx : Nat) (s : State) : Host.Outcome State Fault Refusal :=
  let id : CtrId := { slice := slice, unit_ := unit, idx := idx }
  let r := s.ctr id
  if !r.due s.now then notEnabled
  else if (r.action = 1 ∨ r.action = 2) ∧ (s.clu (homeOf r.cell r.cellHb)).wakes.contains r.cell then notEnabled
  else
    let s := s.setCtr id { r with pend := r.pend - 1 }
    let s := if slice then s.bumpSlice unit 0x25 else s.bumpCore unit 0x09
    .next (s.landAct id r)

/-- LANDING_DEADLINE: the timeout notice of a counter whose deadline passed before it fired leaves (R368, R370). -/
def execLandingDeadline (slice : Bool) (unit idx : Nat) (s : State) : Host.Outcome State Fault Refusal :=
  let id : CtrId := { slice := slice, unit_ := unit, idx := idx }
  let r := s.ctr id
  match r.late with
  | 0 => notEnabled
  | n + 1 => .next ((s.setCtr id { r with late := n }).landNotice r slice unit idx 1)

/-- LANDING_POOL_RETRY: the oldest action task of core `State.sel` tries the deque again (R369). -/
def execLandingPoolRetry (s : State) : Host.Outcome State Fault Refusal :=
  match (s.core s.sel).poolRetry with
  | [] => notEnabled
  | (t, part, key, r, p) :: l =>
    if s.now < t then notEnabled
    else .next ((s.onCore s.sel (fun k => { k with poolRetry := l })).landTask s.sel part key r p)

end Sys2Proof.Machine
end

