-- ==== Sys2Proof/Machine/Engines.lean ====
section
/-! DEFINITION. The copy commands as a core issues them: CPY, CPY2, CPYX and FILL (R271 to R284 of spec/14_engines.md). -/

namespace Sys2Proof.Machine

/-! ### Engines by number (R271, R272) -/

/-- The streamer of a slice. -/
def streamer (cl : Nat) : Nat := cl
/-- The edge engine that serves a core. -/
def edgeOf (gc : Nat) : Nat := 2 ^ 20 + dieOf gc * 8 + cluOf gc % 8
/-- The Block Selector of a core's stack domain. -/
def selectorOf (gc : Nat) : Nat := 2 ^ 21 + stkOf gc

/-- Inbox size, active places and refusal hint of an engine (Table 14.1). -/
def engineSize (eng : Nat) : Nat × Nat × Nat :=
  if eng < 2 ^ 20 then (32, 2, 64) else if eng < 2 ^ 21 then (32, 4, 128) else (16, 1, 512)

/-! ### Operands (R278, R280) -/

/-- The operand lies in a bank by its space. -/
def inBank : ESpace → Bool
  | .g => false
  | _ => true

/-- Core and bank that the first byte of an operand reaches. -/
def State.engBank (s : State) (w : Nat) (sp : ESpace) (base : Word) : Option (Nat × Nat) :=
  match sp with
  | .g => none
  | .x => some (bits base.toNat 31 8 * 2048 + bits base.toNat 20 11, bits base.toNat 16 4)
  | .l => s.bankOf w .l base 0
  | .a => s.bankOf w .a base 0

/-- Effective format of a side (R278): the bank's when it is typed, else the command's. -/
def State.engFmt (s : State) (w : Nat) (sp : ESpace) (base : Word) (fmt : Option Ty) : Option Ty :=
  match s.engBank w sp base with
  | none => fmt
  | some (gc, k) => match bankTy ((s.core gc).bank k) with
    | some t => some t
    | none => fmt

/-- Width of the units of a row on a side and whether the copy converts (R278). -/
structure Shape where
  conv : Bool
  sw   : Nat
  dw   : Nat
deriving DecidableEq, Repr

/-- The shape of a copy from its effective formats: raw, both global, or converting. -/
def shapeOf (sf df : Option Ty) (bothGlobal : Bool) : Shape :=
  match sf, df with
  | some a, some b => if bothGlobal then { conv := false, sw := a.width, dw := a.width } else { conv := true, sw := a.width, dw := b.width }
  | _, _ => { conv := false, sw := 8, dw := 8 }

/-- Bytes of `n` units of a side. -/
def unitBytes (w n : Nat) : Nat := ceilDiv (w * n) 8

/-- One row of a `.l` operand: its rights (Table 9.3) and its span. -/
def State.rowL (s : State) (w : Nat) (write : Bool) (a : Int) (n : Nat) : Except Stop (List Span) :=
  let at_ := wrap 64 a
  match (List.range n).find? (fun i => decide (0x100000 ≤ at_ + i) ||
      !localOk (s.ctx w) (s.core (coreOf w)) (w % 4) write (at_ + i)) with
  | some i => .error (.trap (permTrap (if 0x100000 ≤ at_ + i then 3 else 1) (BitVec.ofNat 64 (at_ + i))))
  | none => .ok [{ va := at_, pa := localPA (coreOf w) at_, hb := 0, len := n }]

/-- One row of an `.a` operand: within the user region, and not across the wrap point; the fault names the local address of the first
byte outside (R280). -/
def State.rowA (s : State) (w : Nat) (base : Word) (o : Int) (n : Nat) : Except Stop (List Span) :=
  match s.allocOf w base with
  | none => .error (.trap (permTrap 2 base))
  | some al =>
    let at_ : Nat := if al.guard then o.toNat else (o % (al.reserved : Int)).toNat
    let bad := if al.guard then decide (o < 0) || decide ((al.size : Int) < o + n) else decide (al.reserved < at_ + n)
    let first : Int := if al.guard then (if o < 0 then o else max o al.size) else al.reserved
    if bad then .error (.trap (permTrap 2 (BitVec.ofInt 64 (al.userBase + first))))
    else
      let a := al.userBase + at_
      .ok [{ va := a, pa := localPA (coreOf w) a, hb := 0, len := n }]

/-- One row of a `.x` operand: the form of the word only (R280). -/
def rowX (x : Int) (n : Nat) : Except Stop (List Span) :=
  let v := wrap 64 x
  if 2 ^ 39 ≤ v then .error (.trap (permTrap 3 (BitVec.ofNat 64 v)))
  else .ok [{ va := v, pa := v / 2 ^ 31 * 2 ^ 44 + 0x80000000000 + v % 2 ^ 31, hb := 0, len := n }]

/-- One row of an operand at byte offset `o` from its base. -/
def State.engRow (s : State) (w : Nat) (sp : ESpace) (base : Word) (write : Bool) (o : Int) (n : Nat) : Except Stop (List Span) :=
  if n = 0 then .ok []
  else match sp with
  | .l => s.rowL w write (base.toNat + o) n
  | .a => s.rowA w base (signed 59 base.toNat + o) n
  | .x => rowX (base.toNat + o) n
  | .g => s.spansOf w (if write then .write else .read) (wrap 64 (base.toNat + o)) n

/-- The rows of an operand. -/
def State.engRows (s : State) (w : Nat) (sp : ESpace) (base : Word) (write : Bool) : List (Int × Nat) →
    Except Stop (List (List Span))
  | [] => .ok []
  | (o, n) :: l =>
    match s.engRow w sp base write o n with
    | .error e => .error e
    | .ok x =>
      match s.engRows w sp base write l with
      | .error e => .error e
      | .ok xs => .ok (x :: xs)

/-- The virtual ranges of an operand, for the walks that come before any permission is judged (R275). -/
def engRanges (sp : ESpace) (base : Word) (offs : List (Int × Nat)) : List Range :=
  match sp with
  | .g => offs.map (fun x => (wrap 64 (base.toNat + x.1), x.2))
  | _ => []

/-! ### Completion actions (R277) -/

/-- Code, cell address and operand word of an action. -/
def actOf (c : Ctx) : CopyAct → Nat × Word × Word
  | .none => (0, 0, 0)
  | .qpub n => (1, c.sreg (2 * n.val), c.sreg (2 * n.val + 1))
  | .cntadd n => (2, c.sreg (2 * n.val), c.sreg (2 * n.val + 1))
  | .bytes n => (3, c.sreg (2 * n.val), 0)

/-- Physical address and homing block of an action's cell. -/
def State.actAddr (s : State) (w : Nat) (act : Nat) (va : Word) : Except Stop (Nat × Nat) :=
  if act = 0 then .ok (0, 0)
  else match s.spansOf w .rw va.toNat 16 with
    | .error e => .error e
    | .ok (x :: _) => if s.region x.pa = .hbm then .ok (x.pa, x.hb) else .error (.trap (permTrap 3 va))
    | .ok [] => .error (.trap (permTrap 3 va))

/-! ### Issue (R275) -/

/-- A copy command as its instruction describes it, before its ranges are resolved. `offs` are the byte offsets of its rows
and their units, on the two sides. -/
structure CopyReq where
  kind  : Nat
  eng   : Option Nat
  fmt   : Option Ty
  pol   : Policy
  o     : Bool
  dsp   : ESpace
  ssp   : Option ESpace
  a     : Word
  b     : Word
  act   : CopyAct
  count : Nat
  shape : Shape
  drows : List (Int × Nat)
  srows : List (Int × Nat)
  /-- A permission fault of the operands themselves. -/
  pre   : Option Trap := none
deriving DecidableEq, Repr

/-- Bytes of a list of rows. -/
def rowsTotal (l : List (Int × Nat)) : Nat := (l.map (fun x => x.2)).sum

/-- Put a command into the network interface: publication, the cp count, the hand-over (R275). -/
def State.handOver (s : State) (w : Nat) (mk : State → EngCmd) : Except Stop State :=
  match s.commit w with
  | .error e => .error e
  | .ok s =>
    if 255 ≤ (s.ctx w).ocCp then .error (.wait s)
    else
      let e := mk s
      .ok (({ s with engines := s.engines ++ [e] }.onCtx w (fun c => { c with ocCp := c.ocCp + 1 })).fresh)

/-- A new command. -/
def newCmd (s : State) (w kind eng : Nat) : EngCmd :=
  { uid := s.uid, kind := kind, eng := eng, org := s.origin w, fmt := none, pol := .dflt, o := false, conv := false,
    sbank := false, dbank := false, sw := 8, dw := 8, count := 0, dst := [], src := [], pat := 0, act := 0, actPa := 0,
    actHb := 0, actVa := 0, actW := 0, bsel := none, big := false, granted := false, tries := 0, till := 0,
    phase := .sending, order := 0, row := 0, pos := 0, bytes := 0, err := false }

/-- Physical address and homing block of the first byte of a copy's source. -/
def firstSpan (src : List (List Span)) : Option Span := (src.find? (fun r => r ≠ [])).bind (fun r => r.head?)

/-- Every byte of a `.s` source lies in one homing block (R281). -/
def oneBlock (src : List (List Span)) : Bool :=
  match src.flatten with
  | [] => true
  | x :: l =>
    let blk := fun (p : Nat) => p / 2 ^ (12 + x.hb)
    (x :: l).all (fun y => decide (y.hb = x.hb) && decide (blk y.pa = blk x.pa) && decide (blk (y.pa + y.len - 1) = blk x.pa))

/-- Limits on the length of a copy (R281, R282). -/
def CopyReq.tooLong (q : CopyReq) : Bool :=
  let d := rowsTotal q.drows
  let r := rowsTotal q.srows
  decide (2 ^ 24 < d) || decide (2 ^ 24 < r) || (q.eng.isNone && (decide (4096 < d) || decide (4096 < r)))

/-- Issue a copy command (R275): misalignment, walks, permissions, publication, the cp count. `lenVa` is the operand that
gives its length. -/
def copyIssue (q : CopyReq) (lenVa : Word) (w : Nat) (s : State) : Except Stop State :=
  let c := s.ctx w
  let act := actOf c q.act
  if act.1 ≠ 0 ∧ act.2.1.toNat % 16 ≠ 0 then .error (.trap (alignTrap act.2.1))
  else
    let cells : List Range := if act.1 = 0 then [] else [(act.2.1.toNat, 16)]
    let ssp := q.ssp.getD .l
    match s.leavesOf w .write (engRanges q.dsp q.a q.drows) with
    | .error e => .error e
    | .ok s =>
    match s.leavesOf w .read (engRanges ssp q.b q.srows) with
    | .error e => .error e
    | .ok s =>
    match s.leavesOf w .rw cells with
    | .error e => .error e
    | .ok s =>
    match q.pre with
    | some t => .error (.trap t)
    | none =>
    if q.tooLong then .error (.trap (permTrap 3 lenVa))
    else match s.engRows w q.dsp q.a true q.drows with
    | .error e => .error e
    | .ok dst =>
    match (if q.ssp.isSome then s.engRows w ssp q.b false q.srows else .ok []) with
    | .error e => .error e
    | .ok src =>
    if q.eng.isNone && !oneBlock src then .error (.trap (permTrap 3 q.b))
    else match s.actAddr w act.1 act.2.1 with
    | .error e => .error e
    | .ok (apa, ahb) =>
      let eng := match q.eng, firstSpan src with
        | some n, _ => n
        | none, some x => streamer (homeOf x.pa x.hb)
        | none, none => streamer (cluOf (coreOf w))
      let blk := ((s.lookup w act.2.1.toNat).2.map (fun l => (l.va, l.size))).getD (0, 0)
      s.handOver w (fun s =>
        { newCmd s w q.kind eng with
          actLva := blk.1, actLsz := blk.2, fmt := q.fmt, pol := q.pol, o := q.o, conv := q.shape.conv, sbank := inBank ssp, dbank := inBank q.dsp
          sw := q.shape.sw, dw := q.shape.dw, count := q.count, dst := dst, src := src
          pat := if q.ssp.isNone then q.b else 0
          act := act.1, actPa := apa, actHb := ahb, actVa := act.2.1, actW := act.2.2
          big := q.eng.isSome && decide (2 ^ 20 < max (rowsTotal q.drows) (rowsTotal q.srows)) })

/-- Units that move in a row: elements when it converts, else bytes. -/
def Shape.units (h : Shape) (n : Nat) : Nat := if h.conv then n else unitBytes h.sw n

/-- The shape of a copy between two operands. -/
def State.shape (s : State) (w : Nat) (dsp ssp : ESpace) (a b : Word) (fmt : Option Ty) : Shape :=
  shapeOf (s.engFmt w ssp b fmt) (s.engFmt w dsp a fmt) (!inBank dsp && !inBank ssp)

/-- CPY (R281). -/
def execCpy (s_ : Bool) (a b c : Src) (o : Bool) (dsp ssp : ESpace) (act : CopyAct) (pol : Policy) (fmt : Option Ty)
    (s : State) : Host.Outcome State Fault Refusal :=
  once s fun w s =>
    let k := s.ctx w
    let n := (k.src c).toNat
    let h := s.shape w dsp ssp (k.src a) (k.src b) fmt
    copyIssue { kind := 0, eng := if s_ then none else some (edgeOf (coreOf w)), fmt := fmt, pol := pol, o := o, dsp := dsp,
                ssp := some ssp, a := k.src a, b := k.src b, act := act, count := h.units n, shape := h,
                drows := [(0, unitBytes h.dw n)], srows := [(0, unitBytes h.sw n)] } (k.src c) w s

/-- CPY2 (R282). -/
def execCpy2 (a b c : Src) (o : Bool) (dsp ssp : ESpace) (act : CopyAct) (pol : Policy) (fmt : Option Ty) (stride : Src)
    (s : State) : Host.Outcome State Fault Refusal :=
  once s fun w s =>
    let k := s.ctx w
    let x := (k.src c).toNat
    let n := bits x 0 24
    let rows := List.range (bits x 24 16 + 1)
    let h := s.shape w dsp ssp (k.src a) (k.src b) fmt
    let ss := signed 32 (bits (k.src stride).toNat 0 32)
    let ds := signed 32 (bits (k.src stride).toNat 32 32)
    copyIssue { kind := 1, eng := some (edgeOf (coreOf w)), fmt := fmt, pol := pol, o := o, dsp := dsp, ssp := some ssp,
                a := k.src a, b := k.src b, act := act, count := h.units n, shape := h,
                drows := rows.map (fun r => ((r : Int) * ds, unitBytes h.dw n)),
                srows := rows.map (fun r => ((r : Int) * ss, unitBytes h.sw n)),
                pre := if 2 ^ 40 ≤ x then some (permTrap 3 (k.src c)) else none } (k.src c) w s

/-- What the core's own read of a descriptor or a list records, once the command has been handed over (R392). -/
def readAtIssue (w : Nat) (va : Word) (l : List RByte) (r : Except Stop State) : Except Stop State :=
  match r with
  | .ok s => .ok (s.touchLocal w va.toNat l)
  | .error e => .error e

/-- CPYX (R283): the index list is read on the core path at issue. A list without rights is a permission fault, behind the
misalignments and the walks of the ranges that are known (R275). -/
def execCpyx (a b c : Src) (o : Bool) (dsp ssp : ESpace) (act : CopyAct) (pol : Policy) (fmt : Option Ty) (list : Src)
    (s : State) : Host.Outcome State Fault Refusal :=
  once s fun w s =>
    let k := s.ctx w
    let x := (k.src c).toNat
    let n := bits x 0 24
    let m := bits x 24 8 + 1
    let h := s.shape w dsp ssp (k.src a) (k.src b) fmt
    let bytes := unitBytes h.dw n
    let rows := List.range m
    let q : CopyReq :=
      { kind := 2, eng := some (edgeOf (coreOf w)), fmt := fmt, pol := pol, o := o, dsp := dsp, ssp := some ssp
        a := k.src a, b := k.src b, act := act, count := h.units n, shape := h
        drows := rows.map (fun r => (((r * bytes : Nat) : Int), bytes)), srows := [] }
    match s.resolveL w (k.src list).toNat (4 * m) 4 false with
    | .error (.trap t) => if t.code = 7 then .error (.trap t) else copyIssue { q with pre := some t } (k.src c) w s
    | .error e => .error e
    | .ok l =>
      let bs := s.readBytes w l
      readAtIssue w (k.src list) l <|
        copyIssue { q with srows := rows.map (fun r =>
          (((leNat ((bs.drop (4 * r)).take 4) * bits x 32 32 : Nat) : Int), unitBytes h.sw n)) } (k.src c) w s

/-- FILL (R284). -/
def execFill (a b c : Src) (o : Bool) (dsp : ESpace) (act : CopyAct) (pol : Policy) (s : State) :
    Host.Outcome State Fault Refusal :=
  once s fun w s =>
    let k := s.ctx w
    let n := (k.src c).toNat
    copyIssue { kind := 3, eng := some (edgeOf (coreOf w)), fmt := none, pol := pol, o := o, dsp := dsp, ssp := none,
                a := k.src a, b := k.src b, act := act, count := n, shape := { conv := false, sw := 8, dw := 8 },
                drows := [(0, n)], srows := [] } (k.src c) w s

end Sys2Proof.Machine
end

