-- ==== Sys2Proof/Machine/Selector.lean ====
section
/-! DEFINITION. BSEL: the descriptor, the checks at issue, and the selection (R286 to R290 of spec/14_engines.md). -/

namespace Sys2Proof.Machine

/-! ### The descriptor (Table 14.4) -/

/-- Reserved bits of the descriptor are clear. -/
def bselBitsOk (p : Pkt) : Bool :=
  let w := Pkt.word p
  decide (bits (w 0) 52 12 = 0) && decide (bits (w 0) 28 4 = 0) && decide (bits (w 0) 6 2 = 0) && decide (w 1 < 2 ^ 20) &&
  decide (bits (w 3) 41 23 = 0) && decide (bits (w 3) 21 11 = 0) && decide (bits (w 8) 60 4 = 0) && decide (w 9 < 2 ^ 20) &&
  decide (w 11 < 2 ^ 26) && decide (w 12 = 0) && decide (w 13 = 0) && decide (w 14 = 0) && decide (w 15 = 0)

/-- The fields lie in their ranges (Table 14.4). -/
def bselRangeOk (p : Pkt) : Bool :=
  let w := Pkt.word p
  let kv := tyOf (bits (w 0) 32 5)
  let dim := bits (w 0) 8 9
  let len := bits (w 3) 32 9
  let n := bits (w 3) 0 21
  decide (bits (w 0) 37 7 ≤ 64) && matrixTy kv && [10, 11, 14].contains (bits (w 0) 22 5) &&
  [9, 10, 11, 14].contains (bits (w 0) 17 5) && decide (64 ≤ dim) && decide (dim ≤ 256) && decide (dim % 16 = 0) &&
  decide (w 2 % 16 = 0) && decide (1 ≤ len) && decide (len ≤ 256) && decide (1 ≤ n) && decide (n ≤ 2 ^ 20) &&
  decide (w 9 % 8 = 0) && decide (len * dim * (kv.getD .i8).width % 8 = 0)

/-- The command of a descriptor, without its ranges. -/
def bselOf (p : Pkt) : BselCmd :=
  let w := Pkt.word p
  { rpl := bit (w 0) 51, land := if bit (w 0) 44 then some (bits (w 0) 45 6) else none, trail := bits (w 0) 37 7
    kvfmt := (tyOf (bits (w 0) 32 5)).getD .i8, ben := bit (w 0) 27, sfmt := (tyOf (bits (w 0) 22 5)).getD .i8
    qfmt := (tyOf (bits (w 0) 17 5)).getD .i8, dim := bits (w 0) 8 9, k := bits (w 0) 0 6 + 1, query := []
    L := bits (w 3) 32 9, N := bits (w 3) 0 21, kstride := w 5, vstride := w 7, slot := bits (w 8) 40 20
    vdst := bits (w 8) 20 20, kdst := bits (w 8) 0 20, list := w 9, force := w 10, reply := w 11
    sums := [], ks := [], vs := [], sel := [], flags := 0 }

/-- Bytes of one summary (R287). -/
def BselCmd.sumBytes (b : BselCmd) : Nat := 16 * ceilDiv (b.dim * b.sfmt.width / 8 + (if b.ben then 4 else 0)) 16
/-- Bytes of one block at its source. -/
def BselCmd.blockBytes (b : BselCmd) : Nat := b.L * b.dim * b.kvfmt.width / 8
/-- Block `i` is in the forced set F (R288). -/
def BselCmd.forced (b : BselCmd) (i : Nat) : Bool :=
  (decide (i < 64) && bit b.force i) || decide (b.N ≤ i + b.trail)
/-- The forced blocks. -/
def BselCmd.forcedSet (b : BselCmd) : List Nat :=
  ((List.range (min 64 b.N)).filter (fun i => decide (i + b.trail < b.N) && bit b.force i)) ++
    ((List.range (min b.trail b.N)).map (fun j => b.N - min b.trail b.N + j))

/-- Bytes of a block at a destination, by the format of its bank now (R278). -/
def State.slotBytes (s : State) (gc : Nat) (b : BselCmd) (a : Nat) : Nat :=
  unitBytes ((bankTy ((s.core gc).bank (a / 0x10000))).getD b.kvfmt).width (b.L * b.dim)

/-- A range that the selector writes: within one bank that the firing may write, below the system banks (R287). -/
def State.slotTrap (s : State) (w : Nat) (a n : Nat) : Option Trap :=
  match s.rowsBad w a true [(a, n)] with
  | some t => some t
  | none => if (s.core (coreOf w)).sysBase < a + n then some (permTrap 3 (BitVec.ofNat 64 a)) else none

/-- The destinations of a command: list entries, and K and V slots. -/
def State.bselDests (s : State) (gc : Nat) (b : BselCmd) : List (Nat × Nat) :=
  ((List.range b.k).map (fun r => (b.list + 8 * r, 8))) ++
  (List.range b.k).flatMap (fun r =>
    let ka := b.kdst + r * b.slot
    let va := b.vdst + r * b.slot
    [(ka, s.slotBytes gc b ka), (va, s.slotBytes gc b va)])

/-- The permission faults of the fields (R287). -/
def State.bselTrap (s : State) (w : Nat) (p : Pkt) (va : Word) : Option Trap :=
  let b := bselOf p
  if !bselBitsOk p || !bselRangeOk p then some (permTrap 3 va)
  else if b.k < (b.forcedSet).length then some (permTrap 3 va)
  else if (match b.land with | some i => !bit (s.ctx w).lmask.toNat i | none => false) then some (permTrap 3 va)
  else if b.rpl && decide (bits b.reply 0 24 = 0) then some (permTrap 3 va)
  else none

/-- BSEL (R286, R287). -/
def bselOp (a : Src) (o : Bool) (w : Nat) (s : State) : Except Stop State :=
  let va := (s.ctx w).src a
  match s.resolveL w va.toNat 128 64 false with
  | .error e => .error e
  | .ok l =>
    let p := wordsOf 16 (s.readBytes w l)
    if Pkt.word p 1 % 16 ≠ 0 then .error (.trap (alignTrap (p.getD 1 0)))
    else
      let b := bselOf p
      let blk := b.blockBytes
      let sr := (Pkt.word p 2, b.N * b.sumBytes)
      let kr := (Pkt.word p 4, (b.N - 1) * b.kstride + blk)
      let vr := (Pkt.word p 6, (b.N - 1) * b.vstride + blk)
      match s.leavesOf w .read [sr, kr, vr] with
      | .error e => .error e
      | .ok s =>
        match s.bselTrap w p va with
        | some t => .error (.trap t)
        | none =>
          match s.resolveL w (Pkt.word p 1) (b.dim * b.qfmt.width / 8) 16 false with
          | .error e => .error e
          | .ok ql =>
            match (s.bselDests (coreOf w) b).filterMap (fun d => s.slotTrap w d.1 d.2) with
            | t :: _ => .error (.trap t)
            | [] =>
              match s.spansOfAll w .read [sr, kr, vr] with
              | .error e => .error e
              | .ok sp =>
                let q := s.readBytes w ql
                readAtIssue w va l <| readAtIssue w (p.getD 1 0) ql <| s.handOver w (fun s =>
                  { newCmd s w 4 (selectorOf (coreOf w)) with
                    o := o, fmt := some b.kvfmt, conv := true, dbank := true, sw := b.kvfmt.width, count := b.L * b.dim
                    big := true
                    bsel := some { b with query := q, sums := sp.getD 0 [], ks := sp.getD 1 [], vs := sp.getD 2 [] } })

/-- BSEL (R286). -/
def execBsel (a : Src) (o : Bool) (s : State) : Host.Outcome State Fault Refusal := once s (bselOp a o)

/-! ### The run (R288, R289) -/

/-- A block that has been scored: its number, the code of its score and its value. -/
abbrev Scored := Nat × Nat × FV

/-- Put a block into a ranked list (R102). -/
def rankIn (x : Scored) : List Scored → List Scored
  | [] => [x]
  | y :: l => if rank true x.2.2 x.1 y.2.2 y.1 then x :: y :: l else y :: rankIn x l

/-- Rank blocks, the best first. -/
def rankAll (l : List Scored) : List Scored := l.foldl (fun a x => rankIn x a) []

/-- Bytes of a summary with a flag for each read that could not be made: denied, or poisoned. -/
def State.summary (s : State) (m part : Nat) (b : BselCmd) (i : Nat) : Except Nat (List Byte) :=
  let r := s.readSpans m part b.sums (i * b.sumBytes) b.sumBytes
  if r.2 then .error 0 else if r.1.any (fun x => s.poisoned x.2) then .error 1 else .ok (r.1.map (fun x => x.1))

/-- Elements of `n` codes of a type from bytes. -/
def elemsOf (t : Ty) (n : Nat) (bs : List Byte) : List FV :=
  (List.range n).map (fun j => fromFormat (leNat ((bs.drop (j * (t.width / 8))).take (t.width / 8))) t 0)

/-- Score of one summary: its code and its flags (R288). -/
def BselCmd.score (b : BselCmd) (q : List FV) (bs : List Byte) : Nat × Nat :=
  let terms := List.zipWith termMul q (elemsOf b.sfmt b.dim bs)
  let bias := if b.ben then [fromFormat (leNat ((bs.drop (b.dim * b.sfmt.width / 8)).take 4)) .f32 0] else []
  anchored (terms ++ bias) (if b.qfmt = .f32 then 96 else 80) .f32

/-- Score the summaries `i` on; the scored blocks and the union of the flags, or why a read failed. -/
def State.scores (s : State) (m part : Nat) (b : BselCmd) (q : List FV) : Nat → Nat → Except Nat (List Scored × Nat)
  | 0, _ => .ok ([], 0)
  | n + 1, i =>
    match s.summary m part b i with
    | .error c => .error c
    | .ok bs =>
      let x := b.score q bs
      match s.scores m part b q n (i + 1) with
      | .error c => .error c
      | .ok r => .ok ((i, x.1, fromFormat x.1 .f32 0) :: r.1, x.2 ||| r.2)

/-- The selection of R288. -/
def BselCmd.choose (b : BselCmd) (l : List Scored) : List Scored :=
  let f := rankAll (l.filter (fun x => b.forced x.1))
  let r := rankAll (l.filter (fun x => !b.forced x.1))
  f ++ r.take (min b.k b.N - f.length)

/-- Part of a list of spans: `n` bytes from offset `o`. -/
def subSpans : List Span → Nat → Nat → List Span
  | [], _, _ => []
  | x :: l, o, n =>
    if n = 0 then []
    else if x.len ≤ o then subSpans l (o - x.len) n
    else
      let k := min n (x.len - o)
      { x with va := x.va + o, pa := x.pa + o, len := k } :: subSpans l 0 (n - k)

/-- Span of `n` bytes at a local address of a core. -/
def localSpan (gc a n : Nat) : List Span := [{ va := a, pa := localPA gc a, hb := 0, len := n }]

/-- Destination rows of a run: the list, and then K and V of each selected block (R289). -/
def State.bselRows (s : State) (gc : Nat) (b : BselCmd) (sel : List Scored) : List (List Span) × List (List Span) :=
  let n := List.range sel.length
  let blk := b.blockBytes
  (localSpan gc b.list (8 * b.k) :: n.flatMap (fun r =>
      let ka := b.kdst + r * b.slot
      let va := b.vdst + r * b.slot
      [localSpan gc ka (s.slotBytes gc b ka), localSpan gc va (s.slotBytes gc b va)]),
   [] :: sel.flatMap (fun x => [subSpans b.ks (x.1 * b.kstride) blk, subSpans b.vs (x.1 * b.vstride) blk]))

/-- Bytes of the output list (R289). -/
def BselCmd.listBytes (b : BselCmd) : List Byte :=
  (List.range b.k).flatMap (fun r =>
    match b.sel[r]? with
    | some x => leBytes 4 x.1 ++ leBytes 4 x.2
    | none => leBytes 8 0xFFFFFFFF)

/-- Set the total of a landing counter to the bytes of a run that fall in its region; false when it is not armed (R289). -/
def State.setTotal (s : State) (gc idx : Nat) (rows : List (List Span)) : State × Bool :=
  let id : CtrId := { slice := false, unit_ := gc, idx := idx }
  let r := s.ctr id
  if !r.arm then (s, false)
  else
    let n := (rows.flatten.map (fun x => overlap r.base r.length x.va x.len)).sum
    if n = 0 then (s, true)
    else
      let x := ({ r with total := n } : LandRec).test s.now
      let s := s.setCtr id x.1
      (if x.2 then s.landNotice x.1 false gc idx 2 else s, true)

/-- BSEL_RUN: score, select, set the landing total, and lay out the writes; or the cause of an engine error (R288, R289). -/
def State.bselRun (s : State) (e : EngCmd) (b : BselCmd) : Except Nat (State × EngCmd) :=
  let gc := coreOf e.org.w
  match s.scores (modOf gc) e.org.part b (elemsOf b.qfmt b.dim b.query) b.N 0 with
  | .error c => .error c
  | .ok r =>
    let s := s.touchRead .dflt b.sums 0 (b.N * b.sumBytes)
    let sel := b.choose r.1
    let rows := s.bselRows gc b sel
    let e' := { e with dst := rows.1, src := rows.2, bsel := some { b with sel := sel.map (fun x => (x.1, x.2.1)), flags := r.2 } }
    match b.land with
    | none => .ok (s, e')
    | some i =>
      let t := s.setTotal gc i rows.1
      if t.2 then .ok (t.1, e') else .error 3

end Sys2Proof.Machine
end

