-- ==== Sys2Proof/Machine/EngineRun.lean ====
section
/-! DEFINITION. What the engines do by themselves: delivery and refusal of commands, their start, their writes, completion and
completion actions (R273 to R278, R288 to R290 of spec/14_engines.md), and HOME_WRITE. -/

namespace Sys2Proof.Machine

/-- The command of an engine named `uid`. -/
def State.cmd (s : State) (uid : Nat) : Option EngCmd := s.engines.find? (fun e => decide (e.uid = uid))
/-- Replace a command by one of the same name. -/
def State.setCmd (s : State) (e : EngCmd) : State :=
  { s with engines := s.engines.map (fun x => if x.uid = e.uid then e else x) }

/-! ### Delivery (R273) -/

/-- A cycle at which something refused for the `n`-th time is sent again (R234). -/
def retryAt (now hint n : Nat) : Nat := now + min (hint * 2 ^ (n - 1)) 65536

/-- Two commands go from one context to one engine. -/
def EngCmd.sameWay (a b : EngCmd) : Bool := decide (a.org.w = b.org.w) && decide (a.eng = b.eng)

/-- A command still at its network interface. -/
def EngCmd.held (e : EngCmd) : Bool := decide (e.phase = .sending) || decide (e.phase = .backoff)

/-- Address of the first destination byte of a command that has written none: a selection's is that of its output list. -/
def EngCmd.firstVa (e : EngCmd) : Nat :=
  match e.bsel with
  | some b => b.list
  | none => (firstSpan e.dst).elim 0 (fun x => x.va)

/-- Abandon a command (R273, R276). -/
def State.abandon (s : State) (e : EngCmd) : State := (s.engError e 2 e.firstVa).engFinish e

/-- ENGINE_COMMAND_DELIVERY: the command named `State.sel` reaches its inbox, or is refused; the 17th refusal abandons it and
the later ones held behind it (R273). -/
def execEngineCommandDelivery (s : State) : Host.Outcome State Fault Refusal :=
  match s.cmd s.sel with
  | none => notEnabled
  | some e =>
    let before := s.engines.any (fun x => x.sameWay e && x.held && decide (x.uid < e.uid))
    if e.phase ≠ .sending || before then notEnabled
    else
      let size := engineSize e.eng
      let inbox := s.engines.filter (fun x => decide (x.eng = e.eng) && decide (x.phase = .inbox))
      if inbox.length < size.1 then .next (s.setCmd { e with phase := .inbox, order := s.uid }).fresh
      else
        let n := e.tries + 1
        let s := s.bumpCore (coreOf e.org.w) 0x06
        if n = 17 then .next ((s.engines.filter (fun x => x.sameWay e && x.held)).foldl (fun s x => s.abandon x) s)
        else .next (s.setCmd { e with phase := .backoff, tries := n, till := retryAt s.now size.2.2 n })

/-- ENGINE_RETRY_TIMER: the command named `State.sel` is sent again (R273). -/
def execEngineRetryTimer (s : State) : Host.Outcome State Fault Refusal :=
  match s.cmd s.sel with
  | none => notEnabled
  | some e => if e.phase ≠ .backoff ∨ s.now < e.till then notEnabled else .next (s.setCmd { e with phase := .sending })

/-! ### Start (R274) -/

/-- Commands that occupy an active place of an engine. -/
def EngCmd.busy (e : EngCmd) : Bool :=
  decide (e.phase = .active) || decide (e.phase = .acting) || decide (e.phase = .waiting)

/-- The waits of `.o`: earlier core-path stores of its context, and of the other contexts of its gang firing, are performed, and earlier
commands of the path are complete (R220). -/
def State.ordered (s : State) (e : EngCmd) : Bool :=
  !e.o ||
  (!(s.wq.any (fun x => (decide (x.org.w = e.org.w) || decide (x.org.fid = e.org.fid)) && decide (x.uid < e.uid))) &&
   !(s.engines.any (fun x => decide (x.org.w = e.org.w) && decide (x.uid < e.uid) && decide ((x.kind = 4) = (e.kind = 4)))))

/-- An engine error outside a write: report it and stop (R276). -/
def State.stopCmd (s : State) (e : EngCmd) (cause va : Nat) : State := (s.setCmd { e with err := true }).engError e cause va

/-- The start itself: a copy becomes active, a selection runs (R288). -/
def State.startCmd (s : State) (e : EngCmd) : State :=
  let e := { e with phase := EngSt.active }
  match e.bsel with
  | none => s.setCmd e
  | some b =>
    match s.bselRun e b with
    | .ok (s, e) => s.setCmd e
    | .error c => s.stopCmd e c b.list

/-- ENGINE_COMMAND_START: the command named `State.sel`, at the head of its inbox, starts; one that needs leave asks for it
first (R274, R407). -/
def execEngineCommandStart (s : State) : Host.Outcome State Fault Refusal :=
  match s.cmd s.sel with
  | none => notEnabled
  | some e =>
    let mine := s.engines.filter (fun x => decide (x.eng = e.eng))
    let head := !(mine.any (fun x => decide (x.phase = .inbox) && decide (x.order < e.order)))
    let full := decide ((engineSize e.eng).2.1 ≤ (mine.filter (fun x => x.busy)).length)
    if e.phase ≠ .inbox || !head || full || !s.ordered e then notEnabled
    else if e.big && !e.granted then
      let d := dieOf (coreOf e.org.w)
      if s.asked d (cmdName e.uid) (engineWatts e) then notEnabled
      else .next (s.askLeave d (cmdName e.uid) (engineWatts e))
    else .next (s.startCmd e)

/-! ### Moving data (R276, R278, R184) -/

/-- The part of a row that moves at once: destination bytes, each with whether it was taken from a poisoned line, how far the command
moves on, and whether a source byte was denied. -/
structure Piece where
  bytes  : List (Byte × Bool)
  units  : Nat
  denied : Bool
  /-- The source bytes that it takes: the first, and how many. -/
  reads  : Nat × Nat := (0, 0)
  /-- Where the command goes on in the source of its row, and the bits it has taken and not written. -/
  sbit   : Nat := 0
  carry  : Chunk := {}
deriving DecidableEq, Repr

/-- Width of a destination element in a row: a row of a selection fetch has the width that its bank's format had at the start. -/
def EngCmd.rowDw (e : EngCmd) (d : List Span) : Nat :=
  match e.bsel with
  | some b => 8 * (d.map (fun x => x.len)).sum / (b.L * b.dim)
  | none => e.dw

/-- Row 0 of a selection is the output list. -/
def EngCmd.isList (e : EngCmd) : Bool := e.bsel.isSome && decide (e.row = 0)

/-- Elements of the current row of a converting command. -/
def EngCmd.rowElems (e : EngCmd) : Nat :=
  match e.bsel with
  | some b => b.L * b.dim
  | none => e.count

/-- Destination bytes of the current row. -/
def EngCmd.rowLen (e : EngCmd) (d : List Span) : Nat :=
  if d = [] then 0
  else if e.isList then (e.bsel.elim 0 (fun b => 8 * b.k))
  else if e.conv then unitBytes (e.rowDw d) e.rowElems
  else e.count

/-- Bytes that move unchanged, up to the end of a destination line. -/
def State.rawPiece (s : State) (e : EngCmd) (sp : List Span) (n : Nat) : Piece :=
  match e.bsel with
  | some b => { bytes := ((b.listBytes.drop e.pos).take n).map (fun x => (x, false)), units := n, denied := false }
  | none =>
    if e.kind = 3 then
      { bytes := (List.range n).map (fun i => ((leBytes 8 e.pat.toNat).getD ((e.pos + i) % 8) 0, false)), units := n,
        denied := false }
    else
      let r := s.readSpans (modOf (coreOf e.org.w)) e.org.part sp e.pos n
      { bytes := r.1.map (fun x => (x.1, s.poisoned x.2)), units := n, denied := r.2, reads := (e.pos, r.1.length) }

/-- Effective format of a side at a physical address: the type, shift and rounding of its typed bank now, else the command's format, else
raw (R278, R79). -/
def State.sideFmt (s : State) (bank : Bool) (fmt : Option Ty) (pa : Nat) : Option (Ty × Int × RM) :=
  let dflt := fmt.map (fun t => (t, (0 : Int), RM.rne))
  if !bank then dflt
  else match s.region pa with
    | .scratch gc a =>
      let v := (s.core gc).bank (a / 0x10000)
      match bankTy v with
      | some t => some (t, bankShift v, bankRm v)
      | none => dflt
    | _ => dflt

/-- Source bits that a row may take. -/
def EngCmd.sourceBits (e : EngCmd) : Nat := if e.conv then e.sw * e.rowElems else 8 * e.count

/-- The chunk at source bit `sb` for a destination of format `df`: an element under the formats of the words that it comes from and goes to, or
a byte that moves unchanged where either side is raw (R278). None at the end of the source; with a flag, none where it is denied. -/
def State.chunkAt (s : State) (e : EngCmd) (df : Option (Ty × Int × RM)) (sp : List Span) (sb : Nat) : Option Chunk × Bool :=
  let f := match s.sideFmt e.sbank e.fmt ((spanAt sp (sb / 8)).elim 0 (fun x => x.2.1)), df with
    | some a, some b => some (a, b)
    | _, _ => none
  let w := f.elim 8 (fun x => x.1.1.width)
  if e.sourceBits < sb + w then (none, false)
  else
    let r := s.readSpans (modOf (coreOf e.org.w)) e.org.part sp (sb / 8) (ceilDiv (sb % 8 + w) 8)
    if r.2 then (none, true)
    else
      let x := bits (leNat (r.1.map (fun y => y.1))) (sb % 8) w
      let bad := r.1.any (fun y => s.poisoned y.2)
      match f with
      | some (a, b) => (some ⟨(convert x a.1 a.2.1 b.1 b.2.1 b.2.2).1 % 2 ^ b.1.width, b.1.width, w, bad⟩, false)
      | none => (some ⟨x, 8, w, bad⟩, false)

/-- The chunks from source bit `sb` on that give `need` bits, and whether the source was denied behind them. -/
def State.chunks (s : State) (e : EngCmd) (df : Option (Ty × Int × RM)) (sp : List Span) : Nat → Nat → Nat → List Chunk × Bool
  | 0, _, _ => ([], false)
  | n + 1, sb, need =>
    if need = 0 then ([], false)
    else match s.chunkAt e df sp sb with
      | (none, d) => ([], d)
      | (some c, _) => let r := s.chunks e df sp n (sb + c.from_) (need - c.width); (c :: r.1, r.2)

/-- The bits of some chunks, one behind the other. -/
def chunkBits : List Chunk → Nat
  | [] => 0
  | c :: l => c.val + 2 ^ c.width * chunkBits l

/-- Bits `lo` to `hi` of some chunks meet a poisoned one. -/
def chunkBad (lo hi : Nat) : Nat → List Chunk → Bool
  | _, [] => false
  | o, c :: l => (c.bad && decide (lo < o + c.width) && decide (o < hi)) || chunkBad lo hi (o + c.width) l

/-- The next `n` bytes of a destination row that converts (R278): of one 16-byte word of a bank, whose format now they take (R79), or of one line
of global memory. An element belongs to the word where it begins; the row ends with its source, the last byte filled up with zeros. -/
def State.convPiece (s : State) (e : EngCmd) (d sp : List Span) (n : Nat) : Piece :=
  let df := s.sideFmt e.dbank e.fmt ((spanAt d e.pos).elim 0 (fun x => x.2.1))
  let r := s.chunks e df sp (8 * n) e.sbit (8 * n - e.carry.width)
  let l := e.carry :: r.1
  let got := (l.map (fun c => c.width)).sum
  let v := chunkBits l
  let more := decide (8 * n ≤ got)
  let len := if more then n else if r.2 then got / 8 else ceilDiv got 8
  let sb := e.sbit + (r.1.map (fun c => c.from_)).sum
  { bytes := (List.range len).map (fun i => (BitVec.ofNat 8 (bits v (8 * i) 8), chunkBad (8 * i) (8 * i + 8) 0 l))
    units := if more then n else e.rowLen d - e.pos, denied := !more && r.2
    reads := (e.sbit / 8, ceilDiv sb 8 - e.sbit / 8), sbit := sb
    carry := if more then ⟨v / 2 ^ (8 * n), got - 8 * n, 0, (l.getLast?).elim false (fun c => c.bad)⟩ else {} }

/-- Poison the destination lines of the bytes taken from poisoned lines (R184). -/
def State.spreadPoison (s : State) (d : List Span) : Nat → List (Byte × Bool) → State
  | _, [] => s
  | o, (_, p) :: l =>
    let s := if p then (match spanAt d o with | some x => s.poisonLine x.2.1 | none => s) else s
    s.spreadPoison d (o + 1) l

/-- Write a piece at byte `o` of its destination row, and move the command on or stop it (R276). A streamer's accesses count under the
page default (R425). Each piece that skips a typed cell reports it (DESIGN CHOICE, log entry 81). -/
def State.putPiece (s : State) (e : EngCmd) (d : List Span) (o : Nat) (p : Piece) : State :=
  let bank := match spanAt d o with
    | some x => (match s.region x.2.1 with | .scratch _ _ => true | _ => false)
    | none => false
  let poison := if bank then p.bytes.findIdx? (fun x => x.2) else none
  let bs := match poison with | some i => p.bytes.take i | none => p.bytes
  let pol := if e.eng < 2 ^ 20 then .dflt else e.pol
  let s := s.touchRead pol (e.src.getD e.row []) p.reads.1 p.reads.2
  let r := s.writeSpans (if e.kind = 4 then reqSel else reqCopy) (coreOf e.org.w) e.org.part pol d o (bs.map (fun x => x.1))
  let s := if bank then r.s else r.s.spreadPoison d o (bs.take r.done)
  let s := match r.skip with | some va => s.engError e 4 va | none => s
  let e := { e with pos := e.pos + p.units, sbit := p.sbit, carry := p.carry, bytes := e.bytes + r.wrote }
  let at_ := (spanAt d (o + r.done)).elim 0 (fun x => x.1)
  match r.denied, poison, p.denied with
  | some va, _, _ => s.stopCmd e 0 va
  | none, some _, _ => s.stopCmd e 1 at_
  | none, none, true => s.stopCmd e 0 at_
  | none, none, false => s.setCmd e

/-- The current row may convert: the command does, or it copies from bank to bank with no format of its own, and each word of the two banks
decides (R278). -/
def EngCmd.converts (e : EngCmd) : Bool :=
  !e.isList && (e.conv || (e.sbank && e.dbank && decide (e.kind < 3) && e.bsel.isNone))

/-- Move one piece of the current row, or go to the next row. -/
def State.engStep (s : State) (e : EngCmd) : Option State :=
  if e.phase ≠ .active ∨ e.err = true then none
  else match e.dst[e.row]? with
    | none => none
    | some d =>
      let n := e.rowLen d
      if n ≤ e.pos then some (s.setCmd { e with row := e.row + 1, pos := 0, sbit := 0, carry := {} })
      else
        let sp := e.src.getD e.row []
        let pa := (spanAt d e.pos).elim 0 (fun x => x.2.1)
        if e.converts then
          let k := if e.dbank then 16 - pa % 16 else 64 - pa % 64
          some (s.putPiece e d e.pos (s.convPiece e d sp (min (n - e.pos) k)))
        else some (s.putPiece e d e.pos (s.rawPiece e sp (min (n - e.pos) (64 - pa % 64))))

/-- HOME_WRITE: the published store named `State.sel` is performed, or the engine command of that name performs its next
write (R182, R211). -/
def execHomeWrite (s : State) : Host.Outcome State Fault Refusal :=
  match s.storeNow s.sel with
  | some t => .next t
  | none =>
    match (s.cmd s.sel).bind (fun e => s.engStep e) with
    | some t => .next t
    | none => notEnabled

/-! ### Completion (R274, R277, R290) -/

/-- The engine reply of a selection (R290). -/
def State.bselReply (s : State) (e : EngCmd) (b : BselCmd) : State :=
  let gc := coreOf e.org.w
  let top := match b.sel with | x :: _ => x.2 | [] => 0
  s.emit gc e.org.part false
    [headWord 8 2 (b.reply / 2 ^ 24) (b.reply % 2 ^ 24) true false false, BitVec.ofNat 64 e.org.aid,
     BitVec.ofNat 64 (b.sel.length + b.flags % 64 * 2 ^ 8 + b.N * 2 ^ 32), BitVec.ofNat 64 top]

/-- ENGINE_COMMAND_COMPLETE: every byte of the command named `State.sel` is performed, or an error stopped it. Its action goes to
the home, or its count returns (R274, R276). -/
def execEngineCommandComplete (s : State) : Host.Outcome State Fault Refusal :=
  match s.cmd s.sel with
  | none => notEnabled
  | some e =>
    if e.phase ≠ .active ∨ (e.err = false ∧ e.row < e.dst.length) then notEnabled
    else if e.err then .next (s.engFinish e)
    else if e.act ≠ 0 then .next (s.setCmd { e with phase := .acting })
    else match e.bsel with
      | some b => .next (if b.rpl then (s.engFinish e).bselReply e b else s.engFinish e)
      | none => .next (s.engFinish e)

/-- What a completion action asks of the cell (Table 14.2). -/
def EngCmd.action (e : EngCmd) : CellAct :=
  match e.act with
  | 1 => .qPub (e.actW.toNat % 2 ^ 24)
  | 2 => .cntAdd e.actW.toInt
  | _ => .barDec e.bytes

/-- COMPLETION_ACTION: the action of the command named `State.sel` is performed at the home of its cell; one beyond the ahead
window waits on the lift line (R277, R338). -/
def execCompletionAction (s : State) : Host.Outcome State Fault Refusal :=
  match s.cmd s.sel with
  | none => notEnabled
  | some e =>
    let home := homeOf e.actPa e.actHb
    if e.phase ≠ .acting ∨ (s.clu home).wakes.contains e.actPa = true then notEnabled
    else if !s.devOk (modOf (coreOf e.org.w)) e.org.part true e.actPa then
      .next ((s.engineFault e.org (engCode e.kind).1 (engCode e.kind).2 0 e.actVa).engFinish e)
    else if s.poisoned e.actPa then .next ((s.engineFault e.org (engCode e.kind).1 (engCode e.kind).2 1 e.actVa).engFinish e)
    else
      let r := s.actCell home e.actPa e.action
      match r.2 with
      | .done st _ _ => .next ((r.1.actionOver e.uid st).testWaiters home e.actPa none)
      | .wait code oper =>
        let ent : LiftEnt :=
          { stamp := 0, oper := BitVec.ofNat 64 oper, msg := none, w := e.org.w, fid := e.org.fid, code := code,
            part := e.org.part, cell := e.actPa, aid := e.org.aid, lock := 0, org := e.org, eng := some e.uid, chosen := false,
            freed := false, spill := none }
        let p := r.1.liftPark home ent
        if p.2 then .next (p.1.setCmd { e with phase := .waiting }) else .next (p.1.actionOver e.uid 3)

end Sys2Proof.Machine
end

