-- ==== Sys2Proof/Machine/Tree.lean ====
section
/-! DEFINITION. The reduction tree: TINJ and TEXT, the combination of chunks, its spill, and the groups (R291 to R298 of
spec/14_engines.md, R308 of spec/15_tables.md). -/

namespace Sys2Proof.Machine

/-! ### Chunks (R292) -/

/-- Group of a chunk. -/
def chunkGroup (p : Pkt) : Nat := bits (Pkt.word p 0) 0 6
/-- Sequence of a chunk. -/
def chunkSeq (p : Pkt) : Nat := bits (Pkt.word p 0) 32 32
/-- Operation code of a chunk. -/
def chunkOp (p : Pkt) : Nat := bits (Pkt.word p 0) 8 4
/-- Element type of a chunk. -/
def chunkTy (p : Pkt) : Option Ty := tyOf (bits (Pkt.word p 0) 12 5)

/-- The 32-bit and 64-bit integer types. -/
def treeInt : Ty → Bool
  | .i32 | .i64 | .ui32 | .ui64 => true
  | _ => false
/-- The floating-point types of an anchored add. -/
def treeFlt : Ty → Bool
  | .f64 | .f32 | .bf16 | .f16 => true
  | _ => false

/-- The type is listed for the operation (Table 14.6). -/
def treeOpOk (op : Nat) (t : Option Ty) : Bool :=
  match t with
  | none => false
  | some t =>
    match op with
    | 0 | 4 | 5 | 6 => treeInt t
    | 1 => treeFlt t
    | 2 | 3 => treeInt t || treeFlt t
    | 7 => decide (t = .f32) || decide (t = .i32) || decide (t = .ui32)
    | _ => false

/-- A group's entry at a module. -/
def State.group (s : State) (m g : Nat) : TreeGroup := FMap.get ⟨false, false, 0, []⟩ (s.mod m).groups g

/-- A chunk that TINJ accepts from core `gc` (R293). -/
def State.chunkOk (s : State) (gc : Nat) (p : Pkt) : Bool :=
  let g := s.group (modOf gc) (chunkGroup p)
  g.en && g.members.contains (gc % 2048) && treeOpOk (chunkOp p) (chunkTy p) && decide (Pkt.word p 1 = 0) &&
  decide (bits (Pkt.word p 0) 6 2 = 0) && decide (bits (Pkt.word p 0) 17 15 = 0)

/-- TINJ (R293). -/
def execTinj (a : Src) (s : State) : Host.Outcome State Fault Refusal :=
  once s fun w s =>
    let va := (s.ctx w).src a
    match s.resolveL w va.toNat 64 64 false with
    | .error e => .error e
    | .ok l =>
      let p := wordsOf 8 (s.readBytes w l)
      if !s.chunkOk (coreOf w) p then .error (.trap (permTrap 3 va))
      else match (s.touchLocal w va.toNat l).commit w with
        | .error e => .error e
        | .ok s =>
          if 16 ≤ (s.core (coreOf w)).injq.length then .error (.wait s)
          else .ok (s.onCore (coreOf w) (fun k => { k with injq := k.injq ++ [p] }))

/-- TEXT (R296). -/
def execText (d : Dst) (a : Src) (tr : Bool) (s : State) : Host.Outcome State Fault Refusal :=
  once s fun w s =>
    match s.resolveL w ((s.ctx w).src a).toNat 64 64 true with
    | .error e => .error e
    | .ok l =>
      match s.commit w with
      | .error e => .error e
      | .ok s =>
        match (s.core (coreOf w)).extq with
        | [] => if tr then .ok (s.toAll w (fun c => c.dst d 0)) else .error (.wait s)
        | p :: r =>
          match s.storeAt w 0 l .dflt (Pkt.bytes p) with
          | .error e => .error e
          | .ok s => .ok ((s.onCore (coreOf w) (fun k => { k with extq := r })).toAll w (fun c => c.dst d 1))

/-! ### Combination (R294) -/

/-- Payload of a chunk as one number of 384 bits. -/
def chunkBody (p : Pkt) : Nat := leNat (Pkt.bytes (p.drop 2))

/-- Fold a binary operation over the bodies. -/
def foldBody (f : Nat → Nat → Nat) : List (Nat × Nat) → Nat
  | [] => 0
  | (_, x) :: l => l.foldl (fun a y => f a y.2) x

/-- The first-ranked of members' codes with their indices (R102). -/
def bestOf (isMax : Bool) (v : Nat → FV) : List (Nat × Nat) → Nat × Nat
  | [] => (0, 0)
  | x :: l => l.foldl (fun a y => if rank isMax (v y.2) y.1 (v a.2) a.1 then y else a) x

/-- One element of a combination: the members' codes by core number; the code and the flags (Table 14.6). Min and max give the
first-ranked member's code bit for bit, also when every member holds a NaN: whether R86 makes that code a quiet one is not said
(DESIGN CHOICE, log entry 61). -/
def treeElem (op : Nat) (t : Ty) (xs : List (Nat × Nat)) : Nat × Nat :=
  let v := fun c => fromFormat c t 0
  match op with
  | 0 => ((xs.map (fun x => x.2)).sum % 2 ^ t.width, 0)
  | 1 => anchored (xs.map (fun x => v x.2)) (windowOf t t) t
  | 2 => ((bestOf false v xs).2, 0)
  | 3 => ((bestOf true v xs).2, 0)
  | 4 => (foldBody (fun a b => a &&& b) xs, 0)
  | 5 => (foldBody (fun a b => a ||| b) xs, 0)
  | _ => (foldBody (fun a b => a ^^^ b) xs, 0)

/-- One pair of an argmax: key and index. -/
def treePair (t : Ty) (xs : List Nat) : Nat :=
  let b := bestOf true (fun c => fromFormat c t 0) (xs.map (fun x => (x / 2 ^ 32, x % 2 ^ 32)))
  b.1 * 2 ^ 32 + b.2

/-- The payload of a combination and its flags. -/
def treeBody (op : Nat) (t : Ty) (ms : List (Nat × Nat)) : Nat × Nat :=
  if op = 7 then
    (ofLanes 64 ((List.range 6).map (fun i => treePair t (ms.map (fun m => lane 64 i m.2)))), 0)
  else
    let r := (List.range (384 / t.width)).map (fun i => treeElem op t (ms.map (fun m => (m.1, lane t.width i m.2))))
    (ofLanes t.width (r.map (fun x => x.1)), r.foldl (fun a x => orFlags a x.2) 0)

/-- Chunks of one combination. -/
def TreeChunk.is (c : TreeChunk) (g seq : Nat) : Bool := decide (c.group = g) && decide (c.seq = seq)

/-- Chunks that a module's tree holds of one combination, in the order they came. -/
def Module.combo (x : Module) (g seq : Nat) : List TreeChunk := (x.chunks ++ x.spillT).filter (fun c => c.is g seq)

/-- Address of place `i` of the spill area of module `m`. -/
def treePA (m i : Nat) : Nat := Config.treeArea m + 64 * i

/-- A place of the spill area may be accessed for partition `part` (R189). -/
def State.treeOpen (s : State) (m part : Nat) (write : Bool) (i : Nat) : Bool :=
  s.physOk m part write (treePA m i) && s.physOk m part write (treePA m i + 63)

/-- Report a denied access to the spill area as an engine error of TINJ (ENG function 1) to the supervisor of core `gc` (R189; how it is
reported is DEDUCED, log entry 10). -/
def State.treeDenied (s : State) (gc i : Nat) : State :=
  s.lateNotice gc (s.ownerOf gc) 0 true { code := 0x14, cls := 3, detail := 0x17D, va := BitVec.ofNat 64 (treePA (modOf gc) i) } 0 0

/-- Write the 64 bytes of a chunk or a result of core `gc` into the spill area as a class U access at their home; false where it is denied
(R183, R189, R295). -/
def State.treePut (s : State) (gc i : Nat) (p : Pkt) : State × Bool :=
  let m := modOf gc
  let a := treePA m i
  if s.treeOpen m (s.ownerOf gc) true i then
    (((s.atHome (homeOf a hbPhys) (a / 64) 2 .dflt true).wrPlain a (Pkt.bytes p)).1, true)
  else (s.treeDenied gc i, false)

/-- The 64 bytes at a place of the spill area, for core `gc`; zeros where the read is denied (R189, R295). -/
def State.treeGet (s : State) (gc i : Nat) : Pkt :=
  if s.treeOpen (modOf gc) (s.ownerOf gc) false i then s.rdWords (treePA (modOf gc) i) 8 else List.replicate 8 0

/-- Report the denied reads of some spilled chunks. -/
def State.treeLost (s : State) (m : Nat) (l : List TreeChunk) : State :=
  l.foldl (fun s c => if s.treeOpen m (s.ownerOf (m * 2048 + c.core)) false c.at_ then s else s.treeDenied (m * 2048 + c.core) c.at_) s

/-- A spilled chunk with what the spill area holds of it. -/
def State.fetched (s : State) (m : Nat) (c : TreeChunk) : TreeChunk := { c with words := s.treeGet (m * 2048 + c.core) c.at_ }

/-- The chunks of one combination with their contents: on-chip ones, and spilled ones as they stand in HBM. -/
def State.combo (s : State) (m g seq : Nat) : List TreeChunk :=
  ((s.mod m).chunks.filter (fun c => c.is g seq)) ++ ((s.mod m).spillT.filter (fun c => c.is g seq)).map (s.fetched m)

/-- Lowest free place of the spill area. -/
def Module.placeT (x : Module) : Nat :=
  let used := x.spillT.map (fun c => c.at_) ++ (x.treeOut.filter (fun o => o.away)).map (fun o => o.at_)
  ((List.range (used.length + 1)).find? (fun i => !used.contains i)).getD 0

/-- Insert a chunk by its member's number. -/
def byCore (c : TreeChunk) : List TreeChunk → List TreeChunk
  | [] => [c]
  | d :: l => if c.core ≤ d.core then c :: d :: l else d :: byCore c l

/-- Two chunks of a combination differ in op or type, or a member has sent two (R294). -/
def comboBad (l : List TreeChunk) : Bool :=
  match l with
  | [] => false
  | c :: r => r.any (fun d => decide (bits (Pkt.word d.words 0) 8 9 ≠ bits (Pkt.word c.words 0) 8 9)) ||
      decide ((l.map (fun x => x.core)).dedup.length ≠ l.length)

/-- The header of a result. Where the chunks differ in op or type, those fields are open (DESIGN CHOICE, log entry 3). -/
def State.resultHead (s : State) (g seq : Nat) (l : List TreeChunk) : State × Nat :=
  let h := match l with | c :: _ => bits (Pkt.word c.words 0) 8 9 | [] => 0
  let mixed := l.any (fun d => decide (bits (Pkt.word d.words 0) 8 9 ≠ h))
  let open_ := (Config.freeByte s.freeCtr).toNat + (Config.freeByte (s.freeCtr + 1)).toNat % 2 * 2 ^ 8
  let f := if mixed || decide (l = []) then open_ else h
  ({ s with freeCtr := s.freeCtr + 2 }, g + f * 2 ^ 8 + seq * 2 ^ 32)

/-- Number of combinations in a list of chunks. -/
def combos (l : List TreeChunk) : Nat := ((l.map (fun c => (c.group, c.seq))).dedup).length

/-- Number of results among those that wait, in the spill area or on-chip: one slot each, whichever queues it waits for. -/
def outs (l : List TreeOut) (away : Bool) : Nat := (((l.filter (fun o => o.away == away)).map (fun o => o.words)).dedup).length

/-- An on-chip slot is free for a combination or a waiting result (R295). -/
def Module.slotFree (x : Module) : Bool := decide (combos x.chunks + outs x.treeOut false < Config.treeSlots)
/-- The spill area has room (R295). -/
def Module.spillFree (x : Module) : Bool := decide (combos x.spillT + outs x.treeOut true < Config.treeSpillSlots)

/-- A result waits: where other queues wait for it too, else on-chip with a slot free, else in the spill area, whose write may be denied
(R189, R295). -/
def State.hold (s : State) (m core : Nat) (p : Pkt) : State :=
  let x := s.mod m
  let put := fun (s : State) (away : Bool) (i : Nat) =>
    s.onMod m (fun x => { x with treeOut := x.treeOut ++ [{ core := core, words := p, away := away, at_ := i }] })
  match x.treeOut.find? (fun o => decide (o.words = p)) with
  | some o => put s o.away o.at_
  | none =>
    if x.slotFree then put s false 0
    else
      let r := s.treePut (m * 2048 + core) x.placeT p
      if r.2 then put r.1 true x.placeT else r.1

/-- Put a result into an extract queue, behind those that wait for it (R294, R295). -/
def State.treeDeliver (s : State) (m core : Nat) (p : Pkt) : State :=
  let gc := m * 2048 + core
  if (s.core gc).extq.length < 16 ∧ (s.mod m).treeOut.any (fun x => decide (x.core = core)) = false then
    s.onCore gc (fun k => { k with extq := k.extq ++ [p] })
  else s.hold m core p

/-- Notice of a combination error to the supervisor of the root core (Table 20.1). -/
def State.treeNotice (s : State) (m g seq : Nat) : State :=
  let gc := m * 2048 + (s.group m g).root
  s.lateNotice gc (s.ownerOf gc) 0 true { code := 0x24, cls := 3, detail := g, va := BitVec.ofNat 64 seq } 0 0

/-- Complete one combination: its chunks are taken and its result delivered (R294). `err` forces an invalid result. -/
def State.combine (s : State) (m g seq : Nat) (err : Bool) : State :=
  let grp := s.group m g
  let l := (s.combo m g seq).foldr byCore []
  let bad := err || comboBad l
  let head := (s.treeLost m ((s.mod m).spillT.filter (fun c => c.is g seq))).resultHead g seq l
  let op := match l with | c :: _ => chunkOp c.words | [] => 0
  let t := match l with | c :: _ => (chunkTy c.words).getD .i32 | [] => .i32
  let body := if bad then (0, 0) else treeBody op t (l.map (fun c => (c.core, chunkBody c.words)))
  let p : Pkt := BitVec.ofNat 64 head.2 :: BitVec.ofNat 64 ((if bad then 2 ^ 15 else 0) + body.2 % 64 * 2 ^ 8) ::
    wordsOf 6 (leBytes 48 body.1)
  let s := head.1.onMod m (fun x => { x with chunks := x.chunks.filter (fun c => !c.is g seq),
                                              spillT := x.spillT.filter (fun c => !c.is g seq) })
  let s := (if grp.allRed then grp.members else [grp.root]).foldl (fun s c => s.treeDeliver m c p) s
  if bad then s.treeNotice m g seq else s

/-! ### Inject queues and spill (R295) -/

/-- Place of the next chunk in the order of the tree. -/
def Module.nextStamp (x : Module) : Nat := ((x.chunks ++ x.spillT).map (fun c => c.stamp)).foldl max 0 + 1

/-- Where the tree takes a chunk: on-chip with room (false), else into the spill area with room (true); none when both are full. -/
def Module.take (x : Module) (c : TreeChunk) : Option Bool :=
  if x.chunks.any (fun d => d.is c.group c.seq) then some false
  else if x.spillT.any (fun d => d.is c.group c.seq) then some true
  else if x.slotFree then some false
  else if x.spillFree then some true
  else none

/-- Put a chunk into the tree; one whose write into the spill area is denied is lost, and reported (R189, R295). -/
def State.putChunk (s : State) (m : Nat) (c : TreeChunk) (away : Bool) : State :=
  if away then
    let i := (s.mod m).placeT
    let r := s.treePut (m * 2048 + c.core) i c.words
    if r.2 then r.1.onMod m (fun x => { x with spillT := x.spillT ++ [{ c with at_ := i }] }) else r.1
  else s.onMod m (fun x => { x with chunks := x.chunks ++ [c] })

/-- Take the chunks at the head of a core's inject queue, as many as there is room for. -/
def State.drainInj (s : State) (m gc : Nat) : Nat → State
  | 0 => s
  | n + 1 =>
    match (s.core gc).injq with
    | [] => s
    | p :: r =>
      let c : TreeChunk := { core := gc % 2048, group := chunkGroup p, seq := chunkSeq p, stamp := (s.mod m).nextStamp, words := p }
      match (s.mod m).take c with
      | none => s
      | some away => ((s.putChunk m c away).onCore gc (fun k => { k with injq := r })).drainInj m gc n

/-- Cores of a module that hold any state. -/
def State.coresOf (s : State) (m : Nat) : List Nat := (s.cores.map (fun x => x.1)).filter (fun gc => decide (modOf gc = m))

/-- The tree drains the inject queues of its module. -/
def State.treeDrain (s : State) (m : Nat) : State := (s.coresOf m).foldl (fun s gc => s.drainInj m gc 16) s

/-- Every member of a group has a chunk of the combination in the tree. -/
def State.comboFull (s : State) (m g seq : Nat) : Bool :=
  let grp := s.group m g
  let l := (s.mod m).combo g seq
  grp.en && !grp.members.isEmpty && grp.members.all (fun c => l.any (fun d => decide (d.core = c)))

/-- Place in the tree's order of the last chunk of a combination. -/
def Module.lastStamp (x : Module) (g seq : Nat) : Nat := ((x.combo g seq).map (fun c => c.stamp)).foldl max 0

/-- Another combination of the group had all its chunks earlier, and completes first (R294). -/
def State.comboLater (s : State) (m g seq : Nat) : Bool :=
  let x := s.mod m
  (x.chunks ++ x.spillT).any (fun c => decide (c.group = g) && s.comboFull m g c.seq &&
    decide (x.lastStamp g c.seq < x.lastStamp g seq))

/-- TREE_COMBINE: the tree of module `m` drains its inject queues, and the combination (group, seq) completes when every member
has sent its chunk and none of its group is due before it (R294, R295). -/
def execTreeCombine (m group : Nat) (seq : BitVec 32) (s : State) : Host.Outcome State Fault Refusal :=
  let t := s.treeDrain m
  if t.comboFull m group seq.toNat && !t.comboLater m group seq.toNat then .next (t.combine m group seq.toNat false)
  else if (s.coresOf m).any (fun gc => decide ((s.core gc).injq.length ≠ (t.core gc).injq.length)) then .next t
  else notEnabled

/-- Deliver the results that wait and now have room. -/
def State.flushOut (s : State) (m : Nat) : List TreeOut → State
  | [] => s
  | o :: l => (s.treeDeliver m o.core o.words).flushOut m l

/-- TREE_FETCH_BACK: waiting results go to extract queues with room, and the oldest spilled result or combination moves on-chip
when a slot is free, of module `State.sel` (R295). -/
def execTreeFetchBack (s : State) : Host.Outcome State Fault Refusal :=
  let m := s.sel
  let x := s.mod m
  let can := x.treeOut.any (fun o => decide ((s.core (m * 2048 + o.core)).extq.length < 16))
  if can then .next ((s.onMod m (fun x => { x with treeOut := [] })).flushOut m x.treeOut)
  else if !x.slotFree then notEnabled
  else match x.treeOut.find? (fun o => o.away), x.spillT with
    | some o, _ =>
      let p := s.treeGet (m * 2048 + o.core) o.at_
      let t := s.onMod m (fun x => { x with treeOut := x.treeOut.map (fun q =>
        if q.words = o.words then { q with words := p, away := false, at_ := 0 } else q) })
      .next (if s.treeOpen m (s.ownerOf (m * 2048 + o.core)) false o.at_ then t else t.treeDenied (m * 2048 + o.core) o.at_)
    | none, [] => notEnabled
    | none, c :: _ =>
      let l := x.spillT.filter (fun d => d.is c.group c.seq)
      .next ((s.onMod m (fun x => { x with chunks := x.chunks ++ l.map (fun d => { s.fetched m d with at_ := 0 }),
                                            spillT := x.spillT.filter (fun d => !d.is c.group c.seq) })).treeLost m l)

/-! ### Groups (R308) -/

/-- Patrol accepts a group entry: the root is a member, and every member's partition owns the group. -/
def State.groupOk (s : State) (m g : Nat) (e : TreeGroup) : Bool :=
  e.members.contains e.root &&
  e.members.all (fun c => (s.partEntry m (s.ownerOf (m * 2048 + c))).valid &&
    bit (s.partEntry m (s.ownerOf (m * 2048 + c))).groups.toNat g)

/-- TREE_GROUP_ENABLE: Patrol writes a disabled entry; one it does not accept changes nothing (R308). -/
def execTreeGroupEnable (m group : Nat) (g : TreeGroup) (s : State) : Host.Outcome State Fault Refusal :=
  if 64 ≤ group ∨ (s.group m group).en ∨ s.groupOk m group g = false then .next s
  else .next (s.onMod m (fun x => { x with groups := FMap.set x.groups group { g with en := true } }))

/-- TREE_GROUP_DISABLE: every pending combination of the group completes with ERR = 1 (R308). -/
def execTreeGroupDisable (m group : Nat) (s : State) : Host.Outcome State Fault Refusal :=
  if !(s.group m group).en then .next s
  else
    let t := s.treeDrain m
    let x := t.mod m
    let seqs := (((x.chunks ++ x.spillT).filter (fun c => decide (c.group = group))).map (fun c => c.seq)).dedup
    let t := seqs.foldl (fun s q => s.combine m group q true) t
    .next (t.onMod m (fun x => { x with groups := FMap.set x.groups group { t.group m group with en := false } }))

end Sys2Proof.Machine
end

