-- ==== Sys2Proof/Machine/System.lean ====
section
/-! DEFINITION. The SYS instructions NOP, TRAP, BRK, SRD, SWR and HALT (R387 to R389 of spec/20_traps.md, R73 to R80 of
spec/04_registers.md), TLBINV, TLBREPLAY and FLTPOP (R327, R328 of spec/16_translation.md), and PLINV (R310 of
spec/15_tables.md). -/

namespace Sys2Proof.Machine

/-! ### NOP, TRAP, BRK -/

/-- NOP has no effect (R387). -/
def execNop (s : State) : Host.Outcome State Fault Refusal := eachCtx s fun c => c

/-- TRAP raises fault 0x0B with the code `imm` (R387). -/
def execTrap (imm : BitVec 16) (a : Src) (s : State) : Host.Outcome State Fault Refusal :=
  each s fun w s => .error (.trap { code := 0x0B, cls := 1, detail := imm.toNat, va := (s.ctx w).src a })

/-- BRK raises fault 0x0C (R387). -/
def execBrk (s : State) : Host.Outcome State Fault Refusal := each s fun _ _ => .error (.trap { code := 0x0C, cls := 1 })

/-! ### Special registers (R73 Table 4.2) -/

/-- Reset value of a `%bud` register (Table 4.7). -/
def budReset : Word := BitVec.ofNat 64 (1000000 * 2 ^ 42 + 100000 * 2 ^ 21 + 10000)
/-- Register `%bud k` of a core. -/
def Core.budReg (c : Core) (k : Nat) : Word := FMap.get budReset c.bud k
/-- Yield limit of a `%bud` value, in units of 4 cycles. -/
def budYield (v : Word) : Nat := bits v.toNat 0 21
/-- Kill limit. -/
def budKill (v : Word) : Nat := bits v.toNat 21 21
/-- Fence limit. -/
def budFence (v : Word) : Nat := bits v.toNat 42 21

/-- The register is marked supervisor-only (Table 4.2). -/
def sprSup : Spr → Bool
  | .fsyn | .fva | .fpc | .fmsg | .sctl => true
  | .bud _ => true
  | _ => false

/-- `%oc` (Table 4.6). -/
def Ctx.oc (c : Ctx) : Nat := c.ocTl * 2 ^ 24 + c.ocCp * 2 ^ 16 + c.ocSt * 2 ^ 8 + c.ocLd

/-- The value SRD reads (R73, R388). -/
def State.sprVal (s : State) (w : Nat) (n : Spr) : Nat :=
  let c := s.ctx w
  let gc := coreOf w
  let k := s.core gc
  match n with
  | .ctx => w % 4
  | .core => gc % 2048
  | .clu => gc % 2048 / 8
  | .stk => gc % 2048 / 128
  | .pkg => modOf gc
  | .part => c.part
  | .aid => c.aid
  | .slot => c.noticeSlot
  | .rule => c.rule
  | .mwin => winLocal (w % 4)
  | .state => c.sbase
  | .nmsg => c.nmsg
  | .gidx => c.gidx
  | .fcsr => c.fcsr.toNat
  | .oc => c.oc
  | .yreq => if c.yreq then 1 else 0
  | .cyc => s.cyc gc
  | .fcst => k.fcst
  | .lmask => c.lmask.toNat
  | .bfmt i => k.bank i.val
  | .fsyn => c.fsyn.toNat
  | .fva => c.fva.toNat
  | .fpc => c.fpc.toNat
  | .fmsg => c.fmsg.toNat
  | .sctl => k.sctl.toNat
  | .bud i => (k.budReg i.val).toNat

/-- SRD (R73, R388). -/
def execSrd (d : Dst) (n : Spr) (s : State) : Host.Outcome State Fault Refusal :=
  each s fun w s =>
    if sprSup n && !(s.ctx w).supv then .error (.trap (privTrap 0xFC83 (s.ctx w).pc))
    else .ok (s.onCtx w (fun c => c.dst d (BitVec.ofNat 64 (s.sprVal w n))))

/-- The value SWR leaves in `%sctl` (R80 Table 4.9). On a core that leads no quad GANG keeps its value, as a bit that is ignored there
(DESIGN CHOICE, log entry 68). -/
def sctlWrite (lead : Bool) (old v : Word) : Word :=
  BitVec.ofNat 64 (bits v.toNat 16 16 * 2 ^ 16 + bits v.toNat 2 2 * 2 ^ 2 + bits old.toNat 1 1 * 2 +
    (if lead then bits v.toNat 0 1 else bits old.toNat 0 1))

/-- Write `%sctl`; setting RTRACE restarts the sequence of the race trace (R80, R224). -/
def Core.putSctl (c : Core) (lead : Bool) (v : Word) : Core :=
  { c with sctl := sctlWrite lead c.sctl v
           raceSeq := if bit v.toNat 2 && !bit c.sctl.toNat 2 then 0 else c.raceSeq }

/-- Write `%bud k`: ignored unless yield ≤ kill ≤ fence (R77). -/
def Core.putBud (c : Core) (k : Nat) (v : Word) : Core :=
  if budYield v ≤ budKill v ∧ budKill v ≤ budFence v then
    { c with bud := FMap.put budReset c.bud k (BitVec.ofNat 64 (v.toNat % 2 ^ 63)) }
  else c

/-- Write a special register under its rule; RO registers ignore it (R388). -/
def State.sprPut (s : State) (w : Nat) (n : Spr) (v : Word) : State :=
  let gc := coreOf w
  match n with
  | .fcsr => s.onCtx w (fun c => { c with fcsr := fcsrWrite c.fcsr v })
  | .sctl => s.onCore gc (fun k => k.putSctl (decide (leadOf gc = gc)) v)
  | .bud i => s.onCore gc (fun k => k.putBud i.val v)
  | _ => s

/-- SWR (R73, R388): user mode writes `%fcsr` only. -/
def execSwr (n : Spr) (a : Src) (s : State) : Host.Outcome State Fault Refusal :=
  each s fun w s =>
    if decide (n ≠ .fcsr) && !(s.ctx w).supv then .error (.trap (privTrap 0xFC84 (s.ctx w).pc))
    else .ok (s.sprPut w n ((s.ctx w).src a))

/-! ### HALT (R389) -/

/-- HALT: the steps of FIN, then the core is halted and notice 0x22 goes to Patrol, with the context, the slot and the first packet of the
firing that halted it, which has passed its commit point (DEDUCED, log entry 43). -/
def execHalt (s : State) : Host.Outcome State Fault Refusal :=
  once s (privileged 0xFC0B fun w s =>
    let c := s.ctx w
    match finOp w s with
    | .error e => .error e
    | .ok s =>
      let gc := coreOf w
      let fsyn := fsynOf { code := 0x22, cls := 3 } true c.gang (w % 4) c.supv false
      .ok ((s.onCore gc (fun k => { k with halted := true })).faultNotice gc (s.ownerOf gc) true false c.aid fsyn 0 0 (c.msgIdAt 0)
        (notice6 gc c.noticeSlot 0 c.nmsg) 0))

/-! ### TLBINV (R321, R327) -/

/-- Granules that TLBINV names: all, or `n` consecutive ones from a first one. -/
inductive InvRange where
  | all
  | some (g n : Nat)
deriving DecidableEq, Repr

/-- A range of bytes meets the named granules. -/
def InvRange.meets (r : InvRange) (va len : Nat) : Bool :=
  match r with
  | .all => true
  | .some g n => decide (n ≠ 0) && rangesMeet va len (g * 2 ^ 16) (n * 2 ^ 16)

/-- A leaf of partition `part` whose block contains a named granule. -/
def InvRange.names (r : InvRange) (part : Nat) (l : Leaf) : Bool := decide (l.part = part) && r.meets l.va l.size

/-- Remove the named leaves from every TLB of the pod, and from what instructions of the partition hold (R321, R327). -/
def State.tlbDrop (s : State) (part : Nat) (r : InvRange) : State :=
  let keep := fun (l : Leaf) => !r.names part l
  { s with
    cores := FMap.mapVal (fun _ (c : Core) => { c with tlb := c.tlb.filter keep }) s.cores
    clus := FMap.mapVal (fun _ (k : Cluster) =>
      { k with tlb := (FMap.mapVal (fun _ l => l.filter keep) k.tlb).filter (fun x => decide (x.2 ≠ [])) }) s.clus
    ctxs := FMap.mapVal (fun _ (c : Ctx) => { c with xlate := c.xlate.filter keep }) s.ctxs }

/-- The block of a leaf that a list of spans was translated by contains a named granule. -/
def InvRange.inSpans (r : InvRange) (l : List Span) : Bool := l.any (fun x => decide (x.lsz ≠ 0) && r.meets x.lva x.lsz)

/-- An engine command holds a named translation (R274, R321). -/
def EngCmd.holds (e : EngCmd) (r : InvRange) : Bool :=
  e.dst.any r.inSpans || e.src.any r.inSpans || (decide (e.act ≠ 0) && r.meets e.actLva e.actLsz) ||
  (match e.bsel with | some b => r.inSpans b.sums || r.inSpans b.ks || r.inSpans b.vs | none => false)

/-- A queued array command holds a named translation (R165, R321). -/
def MCmd.holds (m : MCmd) (r : InvRange) : Bool :=
  match m.op with
  | .epi _ true _ _ _ _ _ _ _ _ rows => rows.any r.inSpans
  | _ => false

/-- A walk has read, or may have read entries of, a leaf whose block contains a named granule: the largest block of a leaf is 2^29 bytes
(R315, R318, R321). -/
def WalkReq.reads (x : WalkReq) (part : Nat) (r : InvRange) : Bool :=
  decide (x.part = part) && match x.res with
  | some (.leaf l) => r.names part l
  | some _ => false
  | none => r.meets (x.gran * 2 ^ 16 / 2 ^ 29 * 2 ^ 29) (2 ^ 29)

/-- A logged store was translated as the page table would translate it now. -/
def State.fresh? (s : State) (m part va pa hb cls : Nat) : Bool :=
  match s.walk m part va with
  | .leaf l => l.w && decide (l.phys va = pa) && decide (l.hb = hb) && decide (l.cls = cls)
  | _ => false

/-- The log of context `w` holds a global store of the partition that a changed leaf in the block of a named granule translated (DEDUCED,
log entry 37). -/
def State.logged (s : State) (part : Nat) (r : InvRange) (w : Nat) (c : Ctx) : Bool :=
  decide (c.part = part) && decide (c.kind ≠ .none) && c.log.any (fun x => match x with
    | .store _ va pa hb cls _ _ =>
      (match s.region pa with | .scratch _ _ => false | _ => true) && r.meets (va / 2 ^ 29 * 2 ^ 29) (2 ^ 29) &&
        !s.fresh? (modOf (coreOf w)) part va pa hb cls
    | .mark _ => false)

/-- Some access in flight of the partition, a walk of a named granule, or a command that holds a named translation, is not complete
(R321). -/
def State.invBusy (s : State) (part : Nat) (r : InvRange) : Bool :=
  s.wq.any (fun e => decide (e.org.part = part)) ||
  s.ctxs.any (fun x => x.2.loads.any (fun l => decide (l.org.part = part)) || s.logged part r x.1 x.2) ||
  s.engines.any (fun e => decide (e.org.part = part) && e.holds r) ||
  s.clus.any (fun x => x.2.inbox.any (fun m => decide (m.org.part = part) && m.holds r) ||
    x.2.hsu.any (fun o => decide (o.org.part = part)) || x.2.walks.any (fun x => x.reads part r))

/-- TLBINV (R327): the leaves go at once; the context stalls until nothing in flight uses one. -/
def execTlbinv (x : Option (Src × Src)) (s : State) : Host.Outcome State Fault Refusal :=
  each s (privileged 0xFD05 fun w s =>
    let c := s.ctx w
    let r := match x with
      | none => InvRange.all
      | some (a, b) => .some (bits (c.src a).toNat 16 39) (min (c.src b).toNat (2 ^ 20))
    if s.storesOut w then .error (.wait s)
    else
      let s := s.tlbDrop c.part r
      if s.invBusy c.part r then .error (.wait s) else .ok s)

/-! ### TLBREPLAY (R325 to R327) -/

/-- A recorded page is released: its partition, and one page or all. -/
def released (part : Nat) (vpn : Option Nat) (p v : Nat) : Bool := decide (p = part) && (match vpn with | none => true | some x => decide (v = x))

/-- Release the actors and tasks that core `gc` holds for replay. -/
def State.replayCore (s : State) (part : Nat) (vpn : Option Nat) (gc : Nat) : State :=
  let k := s.core gc
  let free := fun (x : Sched) => decide (x.st = .heldReplay) && released part vpn x.holdP x.holdV
  let slots := (k.sched.filter (fun x => free x.2)).map (fun x => x.1)
  let k' : Core :=
    { k with
      sched := FMap.mapVal (fun _ (x : Sched) => if free x then { x with st := .idle, event := (s.now, evRelease) } else x) k.sched
      deque := k.deque.map (fun t => match t.held with
        | some (p, v) => if released part vpn p v then { t with held := none, from_ := s.now + 1 } else t
        | none => t) }
  slots.foldl (fun s i => s.setDesc gc i 0 (setBits (s.desc gc i 0) 59 1 0)) (s.setCore gc k')

/-- Release the contexts of core `gc` that are parked in place (R269). -/
def State.replayCtx (s : State) (part : Nat) (vpn : Option Nat) (gc : Nat) : State :=
  [0, 1, 2, 3].foldl (fun s x =>
    let c := s.ctx (4 * gc + x)
    if c.phase = .parked ∧ released part vpn c.parkP c.parkV = true then s.setCtx (4 * gc + x) { c with phase := .running } else s) s

/-- TLBREPLAY in a cluster: holds, parked contexts, fault-buffer entries and the DROP bit (R325, R327). -/
def State.replay (s : State) (cl part : Nat) (vpn : Option Nat) : State :=
  let s := (List.range 8).foldl (fun s i => (s.replayCore part vpn (8 * cl + i)).replayCtx part vpn (8 * cl + i)) s
  s.onClu cl (fun k =>
    { k with fbuf := k.fbuf.filter (fun e => !released part vpn e.2.part e.2.vpn)
             drop := if vpn.isNone then k.drop.filter (fun p => p ≠ part) else k.drop })

/-- An insert has reached the fault buffer of a cluster in this cycle (R326). -/
def State.inserted (s : State) (cl : Nat) : Bool := decide ((s.clu cl).insAt = some s.now)
/-- A pop has. -/
def State.popped (s : State) (cl : Nat) : Bool := decide ((s.clu cl).popAt = some s.now)

/-- TLBREPLAY (R327). It comes before the pops and the inserts of a cycle (R326). -/
def execTlbreplay (x : Option Src) (s : State) : Host.Outcome State Fault Refusal :=
  each s (privileged 0xFD06 fun w s =>
    let c := s.ctx w
    if s.storesOut w || s.inserted (cluOf (coreOf w)) || s.popped (cluOf (coreOf w)) then .error (.wait s)
    else .ok (s.replay (cluOf (coreOf w)) c.part (x.map (fun a => bits (c.src a).toNat 16 39))))

/-! ### FLTPOP (R328) -/

/-- Word 0 of a fault-buffer entry, without DROP (Table 16.3). -/
def FltEnt.word0 (e : FltEnt) : Nat :=
  2 ^ 63 + (if e.wr then 2 ^ 62 else 0) + (if e.fx then 2 ^ 61 else 0) + e.part * 2 ^ 54 + e.lvl * 2 ^ 52 + e.vpn
/-- Word 1 of a fault-buffer entry (Table 16.3). -/
def FltEnt.word1 (e : FltEnt) : Nat := e.count * 2 ^ 48 + e.aid * 2 ^ 24 + e.core * 2 ^ 4 + e.ctx * 2 ^ 2

/-- The entry of a partition with the lowest arrival number. -/
def oldestFlt (part : Nat) : FMap FltEnt → Option (Nat × FltEnt)
  | [] => none
  | x :: l =>
    match oldestFlt part l with
    | some y => if x.2.part = part ∧ x.2.order < y.2.order then some x else some y
    | none => if x.2.part = part then some x else none

/-- FLTPOP (R328). It comes before the inserts of a cycle (R326). -/
def execFltpop (n : SPair) (s : State) : Host.Outcome State Fault Refusal :=
  each s (privileged 0xFC87 fun w s =>
    let cl := cluOf (coreOf w)
    let k := { s.clu cl with popAt := some s.now }
    let part := (s.ctx w).part
    let drop := if k.drop.contains part then 2 ^ 60 else 0
    let put := fun (s : State) (a b : Nat) => s.onCtx w (fun c =>
      (c.setSreg (2 * n.val) (BitVec.ofNat 64 a)).setSreg (2 * n.val + 1) (BitVec.ofNat 64 b))
    if s.inserted cl then .error (.wait s)
    else match oldestFlt part k.fbuf with
    | some (i, e) => .ok (put (s.setClu cl { k with fbuf := FMap.erase k.fbuf i }) (e.word0 + drop) e.word1)
    | none => .ok (put (s.setClu cl k) drop 0))

/-! ### PLINV (R310) -/

/-- PLINV: it waits for the published stores of the context, then drops one handle, or everything, from the placement caches of
the partition. -/
def execPlinv (x : Option Src) (s : State) : Host.Outcome State Fault Refusal :=
  each s (privileged 0xFC88 fun w s =>
    let c := s.ctx w
    if s.storesOut w then .error (.wait s)
    else match x with
      | some a => .ok (s.dropPlace c.part ((c.src a).toNat % 2 ^ 24))
      | none => .ok ((s.partCores c.part).foldl (fun s gc => s.onCore gc (fun k => { k with plc := [], plcPool := [] })) s))

end Sys2Proof.Machine
end

