-- ==== Sys2Proof/Machine/Ready.lean ====
section
/-! DEFINITION. Readiness, the choice of the next firing, and its start (R13 to R17, R21 to R24, R27, R28 of spec/01_machine.md;
R250 to R254, R258, R261 of spec/13_firing.md). -/

namespace Sys2Proof.Machine

/-! ### Rules and readiness (R13, R250, R303) -/

/-- A firing rule of an actor: its handler and its rule word (R303). -/
structure Rule where
  pc     : Nat
  en     : Bool
  budget : Nat
  prio   : Nat
  deq    : Nat
  pkts   : Nat
  counts : Nat
deriving DecidableEq, Repr

/-- A rule from its two descriptor words. -/
def ruleOf (pc v : Nat) : Rule :=
  { pc := pc, en := bit v 63, budget := bits v 27 2, prio := bits v 25 2, deq := bits v 20 5, pkts := bits v 16 4,
    counts := bits v 0 16 }

/-- Packets that a rule takes from mailbox `m`. -/
def Rule.count (r : Rule) (m : Nat) : Nat := bits r.counts (4 * m) 4

/-- Rule `k` of the actor in a slot (Table 15.3). -/
def State.rule (s : State) (gc slot k : Nat) : Rule := ruleOf (s.desc gc slot (10 + 2 * k)) (s.desc gc slot (11 + 2 * k))

/-- Free slots of the send buffer of a context. -/
def Ctx.room (c : Ctx) : Nat := (c.slots.filter (fun x => decide (x = Slot.free))).length

/-- The first of some contexts of a core with room for `n` packets; a slot that became free in this cycle does not count yet (R254). -/
def State.roomFor (s : State) (gc n : Nat) (xs : List Nat) : Option Nat :=
  xs.find? (fun x => decide (n ≤ min (s.ctx (4 * gc + x)).room (s.ctx (4 * gc + x)).roomAt))

/-- Free deque entries that a choice counts: those that became free in this cycle are no part of them (R254). -/
def State.deqRoom (s : State) (gc : Nat) : Nat := min (s.deqFree gc) (s.core gc).deqAt

/-- A rule is satisfied: its mailboxes hold enough, and its bounds can be met with one of the contexts `xs` (R13). -/
def State.ruleOk (s : State) (gc slot : Nat) (xs : List Nat) (r : Rule) : Bool :=
  r.en && [0, 1, 2, 3].all (fun m => decide (r.count m ≤ (s.mbox gc slot m).count)) && decide (r.deq ≤ s.deqRoom gc) &&
  (s.roomFor gc r.pkts xs).isSome

/-- The lowest-numbered satisfied rule of an actor. -/
def State.firstRule (s : State) (gc slot : Nat) (xs : List Nat) : Option Nat :=
  [0, 1, 2, 3].find? (fun k => s.ruleOk gc slot xs (s.rule gc slot k))

/-- Readiness of one actor in the cycle `now` (Table 13.1): Idle and Eligible. -/
def State.refresh (s : State) (now gc slot : Nat) (x : Sched) : Sched :=
  match x.st with
  | .idle => if (s.firstRule gc slot [0, 1, 2, 3]).isSome then { x with st := .eligible, ready := now } else x
  | .eligible => if (s.firstRule gc slot [0, 1, 2, 3]).isSome then x else { x with st := .idle }
  | _ => x

/-- The deque's candidate: the bottommost queued task that is not held (R258). -/
def Core.bottom (k : Core) : Option Task := k.deque.reverse.find? (fun t => t.held.isNone)

/-- A task may start now: its publication, its return or the release of its hold lies in an earlier cycle (R254), and the stores that
its sender published are performed (R19, R217). -/
def State.taskReady (s : State) (t : Task) : Bool := decide (t.from_ ≤ s.now) && s.gateClear t.gate

/-- The core has ready work: a held ACTIVATE, an eligible actor or a task, whether or not a context could start it now (R259; what counts
is a DESIGN CHOICE, log entry 78). -/
def Core.hasWork (k : Core) : Bool :=
  !k.actq.isEmpty || k.sched.any (fun x => decide (x.2.st = .eligible)) || k.bottom.isSome

/-! ### Contexts that may start (R28, R253, R254) -/

/-- The quad of a core is in gang mode. -/
def Core.gact (k : Core) : Bool := bit k.sctl.toNat 1

/-- Context 3 is free on all four cores of a quad. -/
def State.gangFree (s : State) (lead : Nat) : Bool :=
  [0, 1, 2, 3].all (fun i => decide ((s.ctx (4 * (lead + i) + 3)).phase = .free))

/-- The context is free, and was so before this cycle (R254). -/
def State.freeNow (s : State) (w : Nat) : Bool := decide ((s.ctx w).phase = .free) && decide ((s.ctx w).from_ ≤ s.now)

/-- A gang firing may start on the quad of a lead core: gang mode is on and still asked for (R80), context 3 of its four cores is free
(R28), and none of them is fenced or halted (R266, R389). -/
def State.gangReady (s : State) (lead : Nat) : Bool :=
  (s.core lead).gact && bit (s.core lead).sctl.toNat 0 &&
  [0, 1, 2, 3].all (fun i => s.freeNow (4 * (lead + i) + 3) && !(s.core (lead + i)).fenced && !(s.core (lead + i)).halted)

/-- Contexts of a core that may start a firing: context 3 serves only gang firings in gang mode. -/
def State.startable (s : State) (gc : Nat) (gang : Bool) : List Nat :=
  if gang then (if s.gangReady gc then [3] else [])
  else (if (s.core gc).gact then [0, 1, 2] else [0, 1, 2, 3]).filter (fun x => s.freeNow (4 * gc + x))

/-! ### The choice (R251 to R253) -/

/-- What the scheduler may start. -/
inductive Pick where
  | act (e : ActEnt)
  | actor (slot rule : Nat)
  | task (t : Task) (p : PoolEnt)
deriving DecidableEq, Repr

/-- A candidate with its effective priority, its age and its slot. -/
structure Ranked where
  prio  : Nat
  since : Nat
  slot  : Nat
  cand  : Pick
deriving DecidableEq, Repr

/-- Effective priority (R251). -/
def effPrio (now p since : Nat) : Nat := min 3 (p + (now - since) / 8192)

/-- `a` goes before `b`: higher priority, then older, then the lower slot (R253). -/
def Ranked.before (a b : Ranked) : Bool :=
  decide (b.prio < a.prio) || (decide (a.prio = b.prio) &&
    (decide (a.since < b.since) || (decide (a.since = b.since) && decide (a.slot < b.slot))))

/-- The best of a list of candidates. -/
def bestCand : List Ranked → Option Ranked
  | [] => none
  | x :: l =>
    match bestCand l with
    | some y => if y.before x then some y else some x
    | none => some x

/-- The actor of a slot as a candidate: its priority is that of the lowest rule satisfied with the core's contexts busy or free, and
the rule that fires is the lowest with room in a free one (R13, R251). -/
def State.actorCand (s : State) (gc slot : Nat) (x : Sched) : Option Ranked :=
  if x.st = .eligible then
    let gang := bit (s.desc gc slot 0) 62
    match s.firstRule gc slot [0, 1, 2, 3], s.firstRule gc slot (s.startable gc gang) with
    | some j, some k => some { prio := effPrio s.now (s.rule gc slot j).prio x.ready, since := x.ready, slot := slot, cand := .actor slot k }
    | _, _ => none
  else none

/-- A firing of this pool is in progress on the core, or was at the beginning of this cycle (R254). -/
def State.poolRuns (s : State) (gc id : Nat) : Bool :=
  (s.core gc).poolsAt.contains id ||
  [0, 1, 2, 3].any (fun x => decide ((s.ctx (4 * gc + x)).kind = .pool) && decide ((s.ctx (4 * gc + x)).pool = id))

/-- The bottom task of a core as a candidate (R252, R258, R305). -/
def State.taskCand (s : State) (gc : Nat) : Option Ranked :=
  match (s.core gc).bottom with
  | none => none
  | some t =>
    match s.poolEnt gc (s.ownerOf gc) (Pkt.pool t.p) with
    | none => none
    | some p =>
      if !s.taskReady t || (!p.reent && s.poolRuns gc (Pkt.pool t.p)) || decide (s.deqRoom gc < p.deq) ||
          (s.roomFor gc p.pkts (s.startable gc false)).isNone then none
      else some { prio := effPrio s.now p.prio t.push, since := t.push, slot := 64, cand := .task t p }

/-- What the scheduler of a core starts now (R253, R266, R389). -/
def State.choose (s : State) (gc : Nat) : Option Pick :=
  let k := s.core gc
  if k.halted || k.fenced || k.started then none
  else match k.actq.find? (fun e => decide (e.from_ ≤ s.now)), s.startable gc false with
    | some e, _ :: _ => some (.act e)
    | _, _ =>
      (bestCand ((k.sched.filterMap (fun x => s.actorCand gc x.1 x.2)) ++ (s.taskCand gc).toList)).map (fun r => r.cand)

/-! ### Firing start (R16, R23, Table 1.2) -/

/-- Write the message window of a context: one packet in each 256-byte slot, zeros beyond (R16). -/
def State.writeWindow (s : State) (gc x : Nat) (ps : List Pkt) : State :=
  [0, 1, 2, 3].foldl (fun s i => s.putPkt gc (winLocal x + 256 * i) (Pkt.pad (ps.getD i []) 32)) s

/-- What distinguishes one firing's start from another's. -/
structure Start where
  kind  : Kind
  aid   : Nat
  slot  : Nat
  rule  : Nat
  pc    : Nat
  s0    : Word
  s1    : Word
  s2    : Word
  s3    : Word
  sbase : Nat
  ssize : Nat
  lmask : Nat
  pool  : Nat
  budget : Nat
  pktB  : Nat
  deqB  : Nat
  msgs  : List Pkt
  gang  : Bool
  gidx  : Nat
  flt   : List Word        -- `%fsyn` `%fva` `%fpc` `%fmsg` (R74)

/-- Registers of Table 1.2. -/
def startRegs (a : Start) : FMap Word :=
  FMap.put 0 (FMap.put 0 (FMap.put 0 (FMap.put 0 [] 0 a.s0) 1 a.s1) 2 a.s2) 3 a.s3

/-- The context of a firing that starts: everything as in Table 1.2, but for what earlier firings left in the send buffer and
their local loads on the way. -/
def startCtx (old : Ctx) (a : Start) (part fid : Nat) (bud : Word) : Ctx :=
  { sregs := startRegs a, pc := BitVec.ofNat 64 a.pc, npc := BitVec.ofNat 64 a.pc, part := part, aid := a.aid, slot := a.slot
    rule := a.rule, nmsg := a.msgs.length, gidx := a.gidx, sbase := a.sbase, ssize := a.ssize
    yreq := decide (budYield bud = 0), lmask := BitVec.ofNat 64 a.lmask
    fsyn := a.flt.getD 0 0, fva := a.flt.getD 1 0, fpc := a.flt.getD 2 0, fmsg := a.flt.getD 3 0
    kind := a.kind, pool := a.pool, budget := a.budget, tYield := 4 * budYield bud, tKill := 4 * budKill bud
    tFence := 4 * budFence bud, pktB := a.pktB, deqB := a.deqB, phase := .starting, gang := a.gang, fid := fid
    slots := old.slots, msgs := a.msgs, retEnt := decide (a.kind = .pool), loads := old.loads }

/-- Start a firing on context `w`. -/
def State.startOn (s : State) (w : Nat) (a : Start) (bud : Word) : State :=
  let gc := coreOf w
  let s := s.writeWindow gc (w % 4) a.msgs
  s.setCtx w (startCtx (s.ctx w) a (s.ownerOf gc) s.uid bud)

/-- The fault registers of a supervisor firing whose first packet is a fault notice (R74). -/
def fltWords (slot : Nat) (ps : List Pkt) : List Word :=
  match ps with
  | p :: _ => if slot = 0 ∧ Pkt.kind p = 7 then [p.getD 2 0, p.getD 3 0, p.getD 4 0, p.getD 5 0] else []
  | [] => []

/-- Consume the packets of a rule: mailbox order, and arrival order within a mailbox (R16). -/
def State.consume (s : State) (gc slot : Nat) (r : Rule) : State × List Pkt :=
  [0, 1, 2, 3].foldl (fun x m =>
    if r.count m = 0 then x
    else let y := x.1.mbTake gc slot m (r.count m); (y.1, x.2 ++ y.2)) (s, [])

/-- The first word with an uncorrectable error among the packets that a rule consumes, as an offset in the scratchpad (R392 Table 20.3 row 2). -/
def State.badPacket (s : State) (gc slot : Nat) (r : Rule) : Option Nat :=
  ([0, 1, 2, 3].flatMap (fun m =>
    let b := s.mbox gc slot m
    (List.range (r.count m)).flatMap (fun i => (List.range (2 * b.units)).map (fun k => b.entry (b.head + i) + 8 * k)))).find?
      (fun a => s.badWord (localPA gc a))

/-- Word `k` of the first packet. -/
def firstWord (ps : List Pkt) (k : Nat) : Word := (ps.headD []).getD k 0

/-- Start an actor's firing by rule `k` on context `x`, or the gang's on context 3 of its quad. A packet with an uncorrectable error is a fault
of the firing that consumes it (R392). -/
def State.startActor (s : State) (gc slot k x : Nat) : State :=
  let r := s.rule gc slot k
  let d0 := s.desc gc slot 0
  let gang := bit d0 62
  let c := s.consume gc slot r
  let bad := s.badPacket gc slot r
  let base := bits d0 27 14 * 64
  let a : Start :=
    { kind := .actor, aid := bits d0 0 24, slot := slot, rule := k, pc := r.pc, s0 := firstWord c.2 2, s1 := firstWord c.2 3
      s2 := BitVec.ofNat 64 (winLocal x), s3 := BitVec.ofNat 64 base, sbase := base, ssize := bits d0 41 13 * 64
      lmask := s.desc gc slot 18, pool := 0, budget := r.budget, pktB := r.pkts, deqB := r.deq, msgs := c.2, gang := gang
      gidx := 0, flt := fltWords slot c.2 }
  let bud := (s.core gc).budReg r.budget
  let y := c.1.sched gc slot
  let s := c.1.setSched gc slot { y with st := .firing, event := (s.now, evChoice) }
  let w := 4 * gc + x
  let s := if gang then
      [1, 2, 3].foldl (fun s i => s.startOn (w + 4 * i) { a with gidx := i, pktB := 0, deqB := 0 } bud) (s.startOn w a bud)
    else s.startOn w a bud
  (s.readWord w bad).fresh

/-- Start a pool task on context `x`: its packet leaves the deque (R21, R258). -/
def State.startTask (s : State) (gc : Nat) (t : Task) (p : PoolEnt) (x : Nat) : State :=
  let a : Start :=
    { kind := .pool, aid := 0, slot := 0, rule := 0, pc := p.pc, s0 := t.p.getD 2 0, s1 := t.p.getD 3 0
      s2 := BitVec.ofNat 64 (winLocal x), s3 := 0, sbase := 0, ssize := 0, lmask := 0, pool := Pkt.pool t.p, budget := p.budget
      pktB := p.pkts, deqB := p.deq, msgs := [t.p], gang := false, gidx := 0, flt := [] }
  let s := s.poolKeep gc (s.ownerOf gc) (Pkt.pool t.p)
  let s := s.onCore gc (fun k => { k with deque := k.deque.filter (fun y => decide (y.idx ≠ t.idx)) })
  (s.startOn (4 * gc + x) a ((s.core gc).budReg p.budget)).fresh

/-- Start an ACTIVATE on context `x` (R23). -/
def State.startAct (s : State) (gc : Nat) (p : Pkt) (x : Nat) : State :=
  let w := 4 * gc + x
  let a : Start :=
    { kind := .activate, aid := 0, slot := 0, rule := 0, pc := Pkt.word p 4, s0 := p.getD 2 0, s1 := p.getD 3 0, s2 := 0, s3 := 0
      sbase := 0, ssize := 0, lmask := 0, pool := 0, budget := 0, pktB := (s.ctx w).room, deqB := min 16 (s.deqFree gc)
      msgs := [], gang := false, gidx := 0, flt := [] }
  (s.startOn w a ((s.core gc).budReg 0)).fresh

/-- Start what was chosen (R254): the lowest-numbered free context with room. -/
def State.startCand (s : State) (gc : Nat) (c : Pick) : State :=
  let s := (s.onCore gc (fun k => { k with started := true })).bumpCore gc 0x02
  match c with
  | .act e =>
    match s.startable gc false with
    | x :: _ => (s.onCore gc (fun k => { k with actq := k.actq.erase e })).startAct gc e.p x
    | [] => s
  | .actor slot k =>
    match s.roomFor gc (s.rule gc slot k).pkts (s.startable gc (bit (s.desc gc slot 0) 62)) with
    | some x => s.startActor gc slot k x
    | none => s
  | .task t p =>
    match s.roomFor gc p.pkts (s.startable gc false) with
    | some x => s.startTask gc t p x
    | none => s

end Sys2Proof.Machine
end

