-- ==== Sys2Proof/Machine/Firing.lean ====
section
/-! DEFINITION. What a core's scheduler does by itself: choice, steals, forecast, yield timer, gang mode, the fetch of a line and
the taking of a due imprecise fault (R36 to R41; R80; R253 to R264 of spec/13_firing.md; R382 of spec/20_traps.md). -/

namespace Sys2Proof.Machine

/-- FIRING_CHOICE: core `State.sel` starts the firing that R253 chooses. -/
def execFiringChoice (s : State) : Host.Outcome State Fault Refusal :=
  match s.choose s.sel with
  | some c => .next (s.startCand s.sel c)
  | none => notEnabled

/-! ### Steals (R21, R259, R260) -/

/-- Victim `i` of a sweep of core `gc` (R259): 7 cores of its cluster, then 120 of its stack domain. -/
def victim (gc i : Nat) : Nat :=
  if i < 7 then gc / 8 * 8 + (gc % 8 + 1 + i) % 8
  else gc / 128 * 128 + (gc % 128 / 8 + 1 + (i - 7) / 8) % 16 * 8 + (i - 7) % 8

/-- STEAL_SWEEP: core `State.sel`, idle for 64 cycles, asks its first victim (R259). -/
def execStealSweep (s : State) : Host.Outcome State Fault Refusal :=
  let gc := s.sel
  let k := s.core gc
  if k.halted || k.fenced || k.stealBusy.isSome || (s.startable gc false).isEmpty || k.hasWork ||
      decide (s.now < k.idleAt + 64) || decide (s.deqFree gc = 0) then notEnabled
  else .next (s.setCore gc { k with stealBusy := some (victim gc 0), stealIdx := 0, stealPkt := none })

/-- The scheduler of a core takes a task in this cycle. -/
def State.popping (s : State) (gc : Nat) (t : Task) : Bool :=
  match s.choose gc with
  | some (.task t' _) => decide (t'.idx = t.idx)
  | _ => false

/-- STEAL_ANSWER: the victim of core `State.sel` answers with its topmost queued task that is not held, or with empty. A core of
another partition answers empty, and so does one whose topmost task may not start yet (R217). A task that the victim's scheduler takes
in the same cycle goes to it (R260): the answer then comes after that choice. -/
def execStealAnswer (s : State) : Host.Outcome State Fault Refusal :=
  let gc := s.sel
  let k := s.core gc
  match k.stealBusy, k.stealPkt with
  | some v, none =>
    let t := if s.ownerOf v = s.ownerOf gc then ((s.core v).deque.find? (fun t => t.held.isNone)).filter s.taskReady else none
    if t.any (fun t => s.popping v t) then notEnabled
    else
    let s := match t with
      | some t => s.onCore v (fun c => { c with deque := c.deque.filter (fun y => decide (y.idx ≠ t.idx)) })
      | none => s
    .next (s.onCore gc (fun c => { c with stealPkt := some t }))
  | _, _ => notEnabled

/-- STEAL_REPLY: the answer reaches core `State.sel`. A task goes on top of its deque and is chosen at once where R253 allows it;
an empty answer moves the sweep on, and a sweep without a task starts the 64 cycles again. -/
def execStealReply (s : State) : Host.Outcome State Fault Refusal :=
  let gc := s.sel
  let k := s.core gc
  match k.stealBusy, k.stealPkt with
  | some _, some (some t) =>
    let s := s.setCore gc { k with stealBusy := none, stealPkt := none }
    let s := (s.bumpCore gc 0x05).pushTop gc t.p t.push s.now none
    .next (match s.choose gc with
      | some c => s.startCand gc c
      | none => s)
  | some _, some none =>
    if k.stealIdx + 1 < 127 then
      .next (s.setCore gc { k with stealBusy := some (victim gc (k.stealIdx + 1)), stealIdx := k.stealIdx + 1, stealPkt := none })
    else .next (s.setCore gc { k with stealBusy := none, stealPkt := none, idleAt := s.now })
  | _, _ => notEnabled

/-! ### Forecast (R262) -/

/-- The forecast of a core now. -/
def State.forecast (s : State) (gc : Nat) : Nat :=
  let k := s.core gc
  let b := ([0, 1, 2, 3].filter (fun x => decide ((s.ctx (4 * gc + x)).kind ≠ .none))).length
  let e := (k.sched.filter (fun x => decide (x.2.st = .eligible))).length
  let d := (k.deque.filter (fun t => t.held.isNone)).length
  min 255 (48 * b + 16 * e + d / 4)

/-- FORECAST_UPDATE: `%fcst` of core `State.sel` is written, every 256 cycles (R262). -/
def execForecastUpdate (s : State) : Host.Outcome State Fault Refusal :=
  let gc := s.sel
  let k := s.core gc
  if s.now < k.fcstAt + 256 then notEnabled
  else .next (s.setCore gc { k with fcst := s.forecast gc, fcstAt := s.now })

/-! ### Timers of a firing (R264) -/

/-- A firing leads at context `w`. -/
def State.leads (s : State) (w : Nat) : Bool := decide ((s.ctx w).kind ≠ .none) && decide ((s.ctx w).gidx = 0)

/-- The firing that leads at a context reached T_yield in an earlier cycle and does not see it yet: an instruction of the cycle in which
it does still reads 0 (R264). -/
def State.yieldDue (s : State) (w : Nat) : Bool :=
  s.leads w && !(s.ctx w).yreq && decide ((s.ctx w).tYield < (s.ctx w).cycles)

/-- The firing that leads at a context reached T_kill in an earlier cycle: what issued in the cycle in which it did goes first, and a FIN
that has issued ends it normally (R265). A parked firing has its counter stopped. -/
def State.killDue (s : State) (w : Nat) : Bool :=
  let c := s.ctx w
  s.leads w && decide (c.phase ≠ .parked) && decide (c.phase ≠ .killing) && c.owed.isNone && decide (c.tKill < c.cycles)

/-- The firing that leads at a context has reached T_fence (R266). -/
def State.fenceDue (s : State) (w : Nat) : Bool :=
  s.leads w && decide ((s.ctx w).phase ≠ .parked) && decide ((s.ctx w).tFence ≤ (s.ctx w).cycles)

/-- YIELD_TIMER: the firing that leads at context `State.sel` has reached T_yield (R264). In that cycle it issues nothing any more. -/
def execYieldTimer (s : State) : Host.Outcome State Fault Refusal :=
  let w := s.sel
  let c := s.ctx w
  if !s.leads w || c.yreq || decide (c.cycles < c.tYield) then notEnabled
  else
    let s := if c.cycles = c.tYield then s.onCore (coreOf w) (fun k => { k with issued := w % 4 :: k.issued }) else s
    .next ((s.members w).foldl (fun s m => s.onCtx m (fun c => { c with yreq := true })) s)

/-! ### Gang mode (R27, R80) -/

/-- Set or clear GACT on the four cores of a quad. -/
def State.setGact (s : State) (lead : Nat) (on : Bool) : State :=
  [0, 1, 2, 3].foldl (fun s i => s.onCore (lead + i) (fun k =>
    { k with sctl := BitVec.ofNat 64 (setBits k.sctl.toNat 1 1 (if on then 1 else 0)) })) s

/-- GANG_ENTER: the quad led by core `State.sel` enters gang mode (R80). -/
def execGangEnter (s : State) : Host.Outcome State Fault Refusal :=
  let gc := s.sel
  let v := (s.core gc).sctl.toNat
  if leadOf gc ≠ gc ∨ bit v 0 = false ∨ bit v 1 = true ∨ s.gangFree gc = false then notEnabled
  else .next (s.setGact gc true)

/-- GANG_EXIT: the quad led by core `State.sel` leaves gang mode (R80). -/
def execGangExit (s : State) : Host.Outcome State Fault Refusal :=
  let gc := s.sel
  let v := (s.core gc).sctl.toNat
  if leadOf gc ≠ gc ∨ bit v 0 = true ∨ bit v 1 = false ∨ s.gangFree gc = false then notEnabled
  else .next (s.setGact gc false)

/-! ### Fetch and imprecise faults -/

/-- INSTRUCTION_FETCH: the firing that leads at context `State.sel` fetches the line of its PC: the line enters the core's
buffer, or the fault of R57 is taken. -/
def execInstructionFetch (s : State) : Host.Outcome State Fault Refusal :=
  if !s.leads s.sel || !(s.ctx s.sel).mayIssue then notEnabled
  else match s.fetch s.sel with
    | .ok (s, _, _) => .next s
    | .error (.trap t) => .next (s.fault s.sel t)
    | .error (.wait s) => .next s

/-- IMPRECISE_FAULT_TAKEN: a pending imprecise fault of the firing that leads at context `State.sel` is due (R382). -/
def execImpreciseFaultTaken (s : State) : Host.Outcome State Fault Refusal :=
  if !s.leads s.sel || decide ((s.ctx s.sel).phase ≠ .running) || !s.faultDue s.sel then notEnabled
  else match s.pendingFault s.sel with
    | some t => .next (s.takeTrap s.sel t)
    | none => notEnabled

end Sys2Proof.Machine
end

