-- ==== Sys2Proof/Machine/Flows.lean ====
section
/-! DEFINITION. The sending side of host flows and the management path to Patrol (R396 to R401, R406 of spec/21_outside.md, R300 of
spec/15_tables.md), and the frames of the host port as bytes. Flow `f` of module `m` is named `4096 m + f`; flow 0 is Patrol's management path. -/

namespace Sys2Proof.Machine

/-- A host flow of a module. -/
def State.flow (s : State) (m f : Nat) : Flow := FMap.get {} (s.mod m).flows f
/-- Replace a host flow. -/
def State.setFlow (s : State) (m f : Nat) (x : Flow) : State := s.onMod m (fun k => { k with flows := FMap.set k.flows f x })

/-- Numbers that a flow may have: not flow 0, a partition, and a timeout of 4,000 to 2^24 cycles (R397). -/
def flowRecOk (f : FlowRec) : Bool :=
  decide (f.flow ≠ 0) && decide (f.flow < 4096) && decide (f.part < 64) && decide (4000 ≤ f.timeout.getD 40000) &&
  decide (f.timeout.getD 40000 ≤ 2 ^ 24)
/-- A flow that has just been opened; its timeout is 40,000 cycles unless Patrol says otherwise (R397). -/
def flowOpened (f : FlowRec) : Flow :=
  { open_ := true, part := f.part, mac := f.mac, timeout := f.timeout.getD 40000, window := 65536 }

/-! ### Frames as bytes (R395, R396) -/

/-- A number of `n` bytes, the most significant first, as an Ethernet header writes it (PRESUMED, log entry 48). -/
def beBytes (n v : Nat) : List Byte := (leBytes n v).reverse
/-- The number of some bytes, the most significant first. -/
def beNat (l : List Byte) : Nat := leNat l.reverse

/-- Bytes of a segment in a frame: its header and its padded body. -/
def segBytes (g : Seg) : Nat := 16 + roundUp g.body.length 16

/-- A segment as the bytes of Table 21.2, padded. -/
def segOut (g : Seg) : List Byte :=
  leBytes 8 (g.stype + g.length * 2 ^ 4 + g.tag.toNat * 2 ^ 32) ++ leBytes 8 g.addr.toNat ++ g.body ++
  List.replicate (roundUp g.body.length 16 - g.body.length) 0

/-- Flow header and segments of a frame (Table 21.1). -/
def framePayload (f : Frame) : List Byte :=
  leBytes 8 (f.flow + f.type * 2 ^ 16 + f.segs.length * 2 ^ 20 + f.seq.toNat * 2 ^ 32) ++
  leBytes 8 (f.ack.toNat + f.window * 2 ^ 32) ++ f.segs.flatMap segOut

/-- A frame as the bytes that the MAC takes, without the check sequence: the Ethernet header, and the payload, which the MAC fills up to 46
bytes (PRESUMED of IEEE 802.3, log entry 48). -/
def frameBytes (f : Frame) : List Byte :=
  beBytes 6 f.dstMac.toNat ++ beBytes 6 f.srcMac.toNat ++
  (match f.vlan with | some t => beBytes 2 0x8100 ++ beBytes 2 t.toNat | none => []) ++ beBytes 2 f.etherType.toNat ++ framePayload f ++
  List.replicate (46 - (framePayload f).length) 0

/-- The segments of a payload: `n` of them, none of which may cross its end. A read request and an error segment have no body. -/
def readSegs : Nat → List Byte → Option (List Seg)
  | 0, _ => some []
  | n + 1, l =>
    let w0 := leNat (l.take 8)
    let t := bits w0 0 4
    let len := bits w0 4 14
    let body := if t = 3 ∨ t = 5 then 0 else len
    if l.length < 16 + roundUp body 16 then none
    else
      (readSegs n (l.drop (16 + roundUp body 16))).map (fun r =>
        { stype := t, tag := BitVec.ofNat 32 (bits w0 32 32), rsvOk := decide (bits w0 18 14 = 0), length := len
          addr := BitVec.ofNat 64 (leNat ((l.drop 8).take 8)), body := (l.drop 16).take body } :: r)

/-- What the bytes of a frame say (R395 to R397, Tables 21.1 and 21.2). One 802.1Q tag is passed over. -/
def readFrame (b : List Byte) : Frame :=
  let tagged := decide (beNat ((b.drop 12).take 2) = 0x8100)
  let l := if tagged then b.drop 16 else b.drop 12
  let p := l.drop 2
  let w0 := leNat (p.take 8)
  let w1 := leNat ((p.drop 8).take 8)
  let n := bits w0 20 4
  let t := bits w0 16 4
  let r := readSegs n (p.drop 16)
  { dstMac := BitVec.ofNat 48 (beNat (b.take 6)), srcMac := BitVec.ofNat 48 (beNat ((b.drop 6).take 6))
    vlan := if tagged then some (BitVec.ofNat 16 (beNat ((b.drop 14).take 2))) else none
    etherType := BitVec.ofNat 16 (beNat (l.take 2)), size := b.length + 4, type := t, flow := bits w0 0 12
    seq := BitVec.ofNat 32 (bits w0 32 32), ack := BitVec.ofNat 32 (bits w1 0 32), window := bits w1 32 17
    ok := decide (16 ≤ p.length) && decide (bits w0 24 8 = 0) && decide (bits w0 12 4 = 0) && decide (bits w1 49 15 = 0) &&
      decide (t ≤ 2) && decide ((t = 0) = (n ≠ 0)) && decide (bits w1 32 17 ≤ 65536) && r.isSome
    segs := r.getD [] }

/-- A frame of a flow of a type (0 data, 1 ack, 2 nak), with `segs` in a data frame; it carries the next number expected. -/
def State.frameOf (s : State) (m f type seq : Nat) (segs : List Seg) : Frame :=
  let x := s.flow m f
  { dstMac := x.mac, srcMac := (s.mod m).mac, vlan := none, etherType := 0x88B5, size := 34 + (segs.map segBytes).sum, type := type, flow := f
    seq := BitVec.ofNat 32 seq, ack := BitVec.ofNat 32 x.rxNext, window := 65536, ok := true, segs := segs }

/-- Put a frame of a type on the wire. Every frame carries the acknowledgement that was due. -/
def State.pushFrame (s : State) (m f type seq : Nat) (segs : List Seg) : State :=
  (s.onMod m (fun k => { k with frames := k.frames ++ [frameBytes (s.frameOf m f type seq segs)] })).setFlow m f
    { s.flow m f with ackDue := none }

/-! ### Segments that leave (R398) -/

/-- Segments that the peer has not acknowledged. -/
def Flow.outstanding (x : Flow) : Nat := (x.unack.map (fun e => e.2.length)).sum

/-- The window has room for one more segment. -/
def Flow.room (x : Flow) : Bool := decide (x.outstanding < x.window)

/-- Send one segment in a frame of its own and keep it until it is acknowledged. -/
def State.sendSeg (s : State) (m f : Nat) (g : Seg) : State :=
  let x := s.flow m f
  let s := s.pushFrame m f 0 x.txNext [g]
  let y := s.flow m f
  s.setFlow m f { y with txNext := (x.txNext + 1) % 2 ^ 32, unack := y.unack ++ [(x.txNext, [g])],
                         sentAt := if x.unack = [] then s.now else y.sentAt }

/-- Send waiting segments while the window has room. -/
def State.flushPend (s : State) (m f : Nat) : List Seg → State
  | [] => s.setFlow m f { s.flow m f with pend := [] }
  | g :: l =>
    if (s.flow m f).room then (s.sendSeg m f g).flushPend m f l
    else s.setFlow m f { s.flow m f with pend := g :: l }

/-- Send a segment of the port itself (a response, an error, a bounce) as soon as the window has room. -/
def State.queueSeg (s : State) (m f : Nat) (g : Seg) : State :=
  let x := s.flow m f
  if x.open_ then s.flushPend m f (x.pend ++ [g]) else s

/-- A packet as a segment with a host queue tag (Table 21.2). -/
def packetSeg (tag : Nat) (p : Pkt) : Seg :=
  { stype := 0, tag := BitVec.ofNat 32 tag, rsvOk := true, length := 8 * p.length, addr := 0, body := Pkt.bytes p }

/-- Host queue tag of a host-kind entry (R300 Table 15.2). -/
def hostTag (e : Nat) : Nat := bits e 25 19 * 2 ^ 13 + bits e 17 8 * 2 ^ 5 + bits e 12 5
/-- Flow id of a host-kind entry. -/
def hostFlow (e : Nat) : Nat := bits e 0 12
/-- A host-kind entry. -/
def aptHost (e : Nat) : Bool := bit e 61

/-- What the port says to a device packet for a flow (R401). -/
inductive FlowRes where
  | closed
  | full
  | sent (s : State)

/-- Hand a device packet to a flow. -/
def State.flowSend (s : State) (m f tag : Nat) (p : Pkt) : FlowRes :=
  let x := s.flow m f
  if !x.open_ then .closed
  else if !x.room || !x.pend.isEmpty then .full
  else .sent (s.sendSeg m f (packetSeg tag p))

/-! ### Patrol (R406) -/

/-- Patrol's reply to a request: to the sender's reply mailbox, or to the host on the management path. -/
def State.patrolReply (s : State) (m : Nat) (e : PatEnt) (status : Nat) (v : Word) : State :=
  let p : Pkt := [headWord 0 2 (Pkt.rmb e.p) (Pkt.sender e.p) false true false, 0, BitVec.ofNat 64 status, v]
  if e.host.isSome then s.onMod m (fun k => { k with mgmt := k.mgmt ++ [p] })
  else if Pkt.rv e.p then s.emit e.core e.part false p
  else s

/-- Request code of a packet to Patrol. -/
def PatEnt.code (e : PatEnt) : Nat := bits (Pkt.word e.p 2) 0 8
/-- A packet that asks something of Patrol: a message or host data. -/
def PatEnt.asks (e : PatEnt) : Bool := decide (Pkt.kind e.p = 0) || decide (Pkt.kind e.p = 9)

/-- A packet reaches Patrol: one that is neither from a supervisor nor from the host on flow 0 is not acted on, and an unknown
code is answered. -/
def State.patrolArrive (s : State) (m : Nat) (e : PatEnt) : State :=
  if e.asks && !(Pkt.sup e.p || e.host.isSome) then s
  else if e.asks && !(decide (1 ≤ e.code) && decide (e.code ≤ 4)) then s.patrolReply m e 2 0
  else s.onMod m (fun k => { k with patrol := k.patrol ++ [e] })

end Sys2Proof.Machine
end

