-- ==== Sys2Proof/Machine/Fabric.lean ====
section
/-! DEFINITION. The pod fabric: flits, the transfers they carry, the buffers and sequence numbers of links, replay, retraining and routes
(R402, R403 of spec/21_outside.md). -/

namespace Sys2Proof.Machine

/-- State of a port's link. -/
def State.link (s : State) (m port : Nat) : Link := FMap.get {} (s.mod m).links port
/-- Replace a port's link. -/
def State.setLink (s : State) (m port : Nat) (x : Link) : State := s.onMod m (fun k => { k with links := FMap.set k.links port x })

/-! ### Flits (R402) -/

/-- Header of a flit (Table 21.4). -/
def flitHead (b : List Byte) : Nat := leNat (b.take 8)
/-- A flit of 64 bytes whose CRC agrees. -/
def flitOk (b : List Byte) : Bool :=
  decide (b.length = 64) && decide (bits (flitHead b) 32 32 = (Config.crc32 (b.take 4 ++ b.drop 8)).toNat)

/-- The flit of some bits [31:0] of a header and 56 bytes of a transfer. -/
def flitOf (head : Nat) (body : List Byte) : List Byte :=
  leBytes 4 head ++ leBytes 4 (Config.crc32 (leBytes 4 head ++ body)).toNat ++ body

/-- Bits [31:0] of a flit's header. -/
def flitWord (vc dst src lseq : Nat) (last : Bool) : Nat := vc + dst * 2 ^ 3 + src * 2 ^ 11 + lseq * 2 ^ 19 + (if last then 2 ^ 31 else 0)

/-- The bytes of a transfer as the bodies of `n` flits at most, the last one filled up with zeros. -/
def flitBodies : Nat → List Byte → List (List Byte)
  | 0, _ => []
  | n + 1, l =>
    if l.length ≤ 56 then [l ++ List.replicate (56 - l.length) 0] else l.take 56 :: flitBodies n (l.drop 56)

/-- Send a flit on a port, with the sequence number of the link, and keep it: the last 4,096 are kept for replay (R403). -/
def State.putFlit (s : State) (m port vc dst src : Nat) (last : Bool) (body : List Byte) : State :=
  let x := s.link m port
  let b := flitOf (flitWord vc dst src x.txSeq last) body
  let kept := x.sent ++ [b]
  (s.setLink m port { x with txSeq := (x.txSeq + 1) % 4096, sent := kept.drop (kept.length - 4096) }).onMod m
    (fun k => { k with flits := k.flits ++ [(port, b)] })

/-- Send the flits of a transfer on a port, in order; the last one says so. -/
def State.putFlits (s : State) (m port vc dst : Nat) : List (List Byte) → State
  | [] => s
  | b :: l => (s.putFlit m port vc dst m l.isEmpty b).putFlits m port vc dst l

/-- The port of a module for a destination module, if the routing table has one (R403). -/
def State.port (s : State) (m d : Nat) : Option Nat := FMap.find (s.mod m).routes d

/-- A packet that leaves its module goes as the flits of one transfer on one route, as a message, or as management if it is Patrol's. -/
def State.sendFlits (s : State) (m d : Nat) (patrol : Bool) (p : Pkt) : State :=
  if m = d then s
  else match s.port m d with
    | none => s
    | some port => s.putFlits m port (if patrol then 3 else 2) d (flitBodies 5 (Pkt.bytes p))

/-! ### Receipt, replay and routes (R403) -/

/-- A good flit in sequence: sent on towards its module, or put to the transfer of its source and channel. One of a reserved
virtual channel, 4 to 7, is dropped, its sequence number taken (DESIGN CHOICE, log entry 66), and so is one whose module has no route
any more (log entry 51). -/
def State.flitTake (s : State) (m : Nat) (b : List Byte) : State :=
  let h := flitHead b
  let dst := bits h 3 8
  let vc := bits h 0 3
  let key := bits h 11 8 * 8 + vc
  if 4 ≤ vc then s
  else if dst ≠ m then match s.port m dst with
    | none => s
    | some port => if s.linkDown m port then s else s.putFlit m port vc dst (bits h 11 8) (bit h 31) (b.drop 8)
  else s.onMod m (fun k =>
    let d := FMap.get [] k.rxPart key ++ b.drop 8
    if bit h 31 then { k with rxPart := FMap.erase k.rxPart key, rxDone := k.rxDone ++ [(key, d)] }
    else { k with rxPart := FMap.set k.rxPart key d })

/-- The kept flits of a link from a sequence number on. -/
def Link.from_ (x : Link) (n : Nat) : List (List Byte) := x.sent.dropWhile (fun b => decide (bits (flitHead b) 19 12 ≠ n))

/-- The sender at the other end of a port sends the flits from a sequence number on again. -/
def State.resendFlits (s : State) (m port n : Nat) : State :=
  let p := Config.wire m port
  s.onMod p.1 (fun k => { k with flits := k.flits ++ ((s.link p.1 p.2).from_ n).map (fun b => (p.2, b)) })

/-- FLIT_RECEIVE: a flit reaches a port. One that fails its CRC is dropped, and its sender replays from the number that the port expects; one
out of sequence is dropped. -/
def execFlitReceive (m port : Nat) (flit : List Byte) (s : State) : Host.Outcome State Fault Refusal :=
  let x := s.link m port
  if 32 ≤ port ∨ x.trainAt.isSome = true ∨ x.down = true then notEnabled
  else if !flitOk flit then
    .next ((s.setLink m port { x with replay := true, fails := if x.replay then x.fails + 1 else x.fails }).resendFlits m port x.lseq)
  else if bits (flitHead flit) 19 12 ≠ x.lseq then .next s
  else .next ((s.setLink m port { x with lseq := (x.lseq + 1) % 4096, replay := false, fails := 0 }).flitTake m flit)

/-- LINK_RETRAIN: eight replays in a row have failed (R403). -/
def execLinkRetrain (m port : Nat) (s : State) : Host.Outcome State Fault Refusal :=
  let x := s.link m port
  if x.fails < 8 ∨ x.trainAt.isSome = true ∨ x.down = true then notEnabled
  else .next (s.setLink m port { x with trainAt := some s.now })

/-- LINK_DOWN: the link has not come back within 1 ms, 4,000,000 cycles (R403, R1). -/
def execLinkDown (m port : Nat) (s : State) : Host.Outcome State Fault Refusal :=
  let x := s.link m port
  match x.trainAt with
  | none => notEnabled
  | some t => if s.now < t + 4000000 then notEnabled else .next (s.setLink m port { x with trainAt := none, down := true })

/-- LINK_RETRAINED: a link that was training comes back within 1 ms (R403). -/
def execLinkRetrained (m port : Nat) (s : State) : Host.Outcome State Fault Refusal :=
  let x := s.link m port
  match x.trainAt with
  | none => notEnabled
  | some t =>
    if t + 4000000 < s.now then notEnabled
    else .next (s.setLink m port { x with trainAt := none, fails := 0, replay := false })

end Sys2Proof.Machine
end

