-- ==== Sys2Proof/Machine/Net.lean ====
section
/-! DEFINITION. The network interface: injection, arrival, refusal, acceptance and bounces of packets (R228 to R237 of
spec/12_messages.md; R22 to R24, R35 of spec/01_machine.md; R389 of spec/20_traps.md; R400, R401 of spec/21_outside.md). -/

namespace Sys2Proof.Machine

/-! ### Packets at their sender -/

/-- The packet named `uid`. -/
def State.pkt (s : State) (uid : Nat) : Option NetPkt := s.net.find? (fun e => decide (e.uid = uid))
/-- Replace a packet by one of the same name. -/
def State.setPkt (s : State) (e : NetPkt) : State :=
  { s with net := s.net.map (fun x => if x.uid = e.uid then e else x) }

/-- Free the send-buffer slot of a packet that its sender has finished with (R238). -/
def State.freeSent (s : State) (e : NetPkt) : State :=
  match e.w with
  | some w => s.onCtx w (fun c => { c with slots := c.slots.map (fun x => if x = Slot.sent e.uid then .free else x) })
  | none => s

/-- The sender has finished with a packet. -/
def State.dropPkt (s : State) (e : NetPkt) : State :=
  { s with net := s.net.filter (fun x => decide (x.uid ≠ e.uid)) }.freeSent e

/-- Module whose tables a packet's sender uses. -/
def NetPkt.home (e : NetPkt) : Nat := modOf e.core
/-- The packet is a notice (R229). -/
def NetPkt.notice (e : NetPkt) : Bool := decide (3 ≤ Pkt.kind e.p) && decide (Pkt.kind e.p ≤ 8)
/-- The packet comes from Patrol: on flow 0 of a module. -/
def NetPkt.patrol (e : NetPkt) : Bool := match e.host with | some f => decide (f % 4096 = 0) | none => false
/-- The packet comes from a landing counter: its unit is named by its pair (R369). -/
def NetPkt.counter (e : NetPkt) : Option CtrId :=
  match e.pair with
  | some (k, _) =>
    if 2 ^ 61 ≤ k ∧ k < 2 ^ 62 then some { slice := bit k 32, unit_ := k % 2 ^ 32 / 512, idx := k % 512 } else none
  | none => none

/-! ### Bounces (R235, R236) -/

/-- The bounce packet (Table 12.7) to a mailbox. -/
def bouncePkt (p : Pkt) (reason dest mb : Nat) : Pkt :=
  [headWord 3 2 mb dest true false false, BitVec.ofNat 64 (Pkt.dest p),
   BitVec.ofNat 64 (Pkt.dest p + Pkt.mb p * 2 ^ 24 + reason * 2 ^ 28 + Pkt.pool p * 2 ^ 32 + Pkt.kind p * 2 ^ 48),
   BitVec.ofNat 64 (Pkt.seq p + Pkt.word p 2 % 2 ^ 32 * 2 ^ 32)]

/-- Send the bounce of a packet: back on its host flow, to its sender's reply mailbox, or to the sending core's supervisor. -/
def State.sendBounce (s : State) (e : NetPkt) (reason : Nat) : State :=
  match e.host with
  | some f =>
    let b := bouncePkt e.p reason (Pkt.sender e.p) (Pkt.rmb e.p)
    if f % 4096 = 0 then s.onMod (f / 4096) (fun k => { k with mgmt := k.mgmt ++ [b] })
    else s.queueSeg (f / 4096) (f % 4096) (packetSeg (hostTag (s.aptRead e.home e.part (Pkt.sender e.p))) b)
  | none =>
    if Pkt.rv e.p && e.counter.isNone then s.emit e.core e.part false (bouncePkt e.p reason (Pkt.sender e.p) (Pkt.rmb e.p))
    else s.emit e.core e.part true (bouncePkt e.p reason (s.supHandle e.core) 3)

/-- A packet bounces: its slot is freed, and a refused send of a landing counter is an engine error of it (R369). -/
def State.bounceOne (s : State) (e : NetPkt) (reason : Nat) : State :=
  let s := (s.dropPkt e).sendBounce e reason
  match e.rec_ with
  | some r => s.landError r 3 r.image
  | none => s

/-- A packet bounces, and with it the packets of its pair that are published and not accepted, with reason 5, in publication order
(R235). -/
def State.bounce (s : State) (e : NetPkt) (reason : Nat) : State :=
  let s1 := s.bounceOne e reason
  match e.pair with
  | none => s1
  | some k =>
    let tail := s1.net.filter (fun x => decide (x.pair = some k) && decide (Pkt.kind x.p ≠ 1) && decide (x.st ≠ .accepted))
    let s2 := tail.foldl (fun s x => s.bounceOne x 5) s1
    { s2 with pbounce := if s2.pbounce.contains k then s2.pbounce else k :: s2.pbounce }

/-! ### On the way (R233, R401) -/

/-- The entry of the destination of a packet, as its sender's network interface sees it. -/
def State.findDest (s : State) (e : NetPkt) : State × Nat :=
  if e.host.isSome then (s.aptTouch e.home e.part (Pkt.dest e.p), s.aptRead e.home e.part (Pkt.dest e.p)) else s.place e.core e.part (Pkt.dest e.p)

/-- A module that is in the pod and that module `m` has a route to (R188, R403). -/
def State.there (s : State) (m d : Nat) : Bool := s.present.contains d && s.reach m d

/-- A notice goes to the supervisor of its generating core (R230). -/
def NetPkt.redirected (e : NetPkt) : NetPkt := { e with redir := true, st := .flying }

/-- The packet is accepted, and the acceptance is on its way back. -/
def NetPkt.taken (e : NetPkt) : NetPkt := { e with st := .accepted }

/-- A packet for a host-kind entry: to Patrol on flow 0, else on its flow. -/
def State.toHost (s : State) (e : NetPkt) (ent : Nat) : State :=
  if hostFlow ent = 0 then (s.setPkt e.taken).patrolArrive e.home { core := e.core, part := e.part, host := none, p := e.p }
  else match s.flowSend e.home (hostFlow ent) (hostTag ent) e.p with
    | .closed => if e.notice then s.setPkt e.redirected else s.bounce e 1
    | .full => s.setPkt { e with st := .refused 256 }
    | .sent s => s.setPkt e.taken

/-- Core that an ACTIVATE names. -/
def actTarget (p : Pkt) : Nat := bits (Pkt.dest p) 11 8 * 2048 + bits (Pkt.dest p) 0 11

/-- A packet is on its way to a core of module `d`; one for another module leaves in flits (R402). -/
def State.fly (s : State) (e : NetPkt) (d : Nat) : State := (s.sendFlits e.home d e.patrol e.p).setPkt { e with st := .flying }

/-- Send a packet into the network, or bounce it at its sender (R233). -/
def State.netSend (s : State) (e : NetPkt) : State :=
  if e.redir then s.setPkt { e with st := .flying }
  else if Pkt.kind e.p = 2 then
    if s.there e.home (actTarget e.p / 2048) then s.fly e (actTarget e.p / 2048) else s.bounce e 1
  else
    let x := s.findDest e
    let s := x.1
    let ent := x.2
    let no := fun (r : Nat) => if e.notice then s.setPkt e.redirected else s.bounce e r
    if aptSt ent = 0 then no 1
    else if aptHost ent then s.toHost e ent
    else if !s.there e.home (aptCore ent / 2048) then no 1
    else if s.ownerOf (aptCore ent) ≠ e.part then no 6
    else s.fly e (aptCore ent / 2048)

/-- The stores that a packet's publication covers are performed (R19, R217). -/
def State.gateOpen (s : State) (e : NetPkt) : Bool := s.gateClear e.gate

/-- Packets published before this one. -/
def State.netBefore (s : State) (uid : Nat) : List NetPkt := s.net.takeWhile (fun x => decide (x.uid ≠ uid))

/-- No earlier packet of the same pair is unfinished (R235). -/
def State.pairFree (s : State) (e : NetPkt) : Bool :=
  e.pair.isNone || !((s.netBefore e.uid).any (fun x => decide (x.pair = e.pair)))

/-- The network interface of a core may inject this packet of its firings now. -/
def State.injectable (s : State) (e : NetPkt) : Bool := decide (e.st = .ready) && s.gateOpen e && s.pairFree e

/-- A packet that a firing of a core published, or a completion notice of one. -/
def NetPkt.published (e : NetPkt) : Bool := e.w.isSome || e.nq

/-- Injection keeps the publication order of a core among the packets that could go now (R235). -/
def State.turnOf (s : State) (e : NetPkt) : Bool :=
  !e.published || !((s.netBefore e.uid).any (fun x => x.published && decide (x.core = e.core) && s.injectable x))

/-- PACKET_INJECT: the network interface injects the packet named `State.sel`, or bounces a task without a pool (R233, R235,
R240, R256). -/
def execPacketInject (s : State) : Host.Outcome State Fault Refusal :=
  match s.pkt s.sel with
  | none => notEnabled
  | some e =>
    match e.st with
    | .bounced r => .next (s.bounce e r)
    | .ready =>
      if !s.injectable e || !s.turnOf e then notEnabled
      else
        let s := if e.nq then s.onCore e.core (fun k => { k with notq := k.notq - 1 }) else s
        .next (s.netSend { e with nq := false })
    | _ => notEnabled

/-! ### Arrival (Table 12.6, R35, R230) -/

/-- Append a packet to a backing queue; one that cannot take it refuses it. -/
def State.append (s : State) (e : NetPkt) (gc slot : Nat) (p : Pkt) : State :=
  let x := s.bqPush gc slot { core := e.core, part := e.part, host := e.host, pair := e.pair, p := p, redir := e.redir }
  if x.2 then x.1.setPkt e.taken else x.1.setPkt { e with st := .refused 1024 }

/-- The mailbox that a packet of a backing queue goes to: a redirected notice goes to mb3 (R230). -/
def BqEnt.mb (b : BqEnt) : Nat := if b.redir then 3 else Pkt.mb b.p

/-- The backing queue of an actor holds a packet for mailbox `m` (R35). -/
def State.backed (s : State) (gc slot m : Nat) : Bool := (s.backing gc slot).any (fun b => decide (b.mb = m))

/-- A packet may be enqueued in a mailbox of this priority now: none of a lower priority came before it in this cycle, and no later
event of the actor (R232, R255). -/
def State.mayEnqueue (s : State) (gc slot prio : Nat) : Bool :=
  !(decide ((s.core gc).arrived.1 = s.now) && decide ((s.core gc).arrived.2 < prio)) && !s.late gc slot evArrival

/-- A packet is enqueued in a mailbox, as an event of its cycle. -/
def State.enqueuePkt (s : State) (gc slot m : Nat) (p : Pkt) : State :=
  let prio := (s.mbox gc slot m).prio
  ((s.mbPut gc slot m p).happens gc slot evArrival).onCore gc (fun c => { c with arrived := (s.now, prio) })

/-- PACKET_ARRIVAL: the message or host data named `State.sel` reaches its core (Table 12.6). -/
def execPacketArrival (s : State) : Host.Outcome State Fault Refusal :=
  match s.pkt s.sel with
  | none => notEnabled
  | some e =>
    if e.st ≠ .flying ∨ (Pkt.kind e.p ≠ 0 ∧ Pkt.kind e.p ≠ 9) then notEnabled
    else
      let ent := s.aptRead e.home e.part (Pkt.dest e.p)
      let gc := aptCore ent
      let slot := aptSlot ent
      let m := Pkt.mb e.p
      let b := s.mbox gc slot m
      if aptSt ent = 0 then .next (s.bounce e 1)
      else if aptHost ent then .next (s.toHost e ent)
      else if aptSt ent = 2 then .next (s.setPkt { e with st := .refused 256 })
      else if aptSt ent = 3 || s.backed gc slot m then .next (s.append e gc slot e.p)
      else if !b.en then .next (s.bounce e 2)
      else if Pkt.units e.p ≠ b.units then .next (s.bounce e 3)
      else if b.full then .next (s.setPkt { e with st := .refused b.hint })
      else if !s.mayEnqueue gc slot b.prio then notEnabled
      else .next ((s.setPkt e.taken).enqueuePkt gc slot m e.p)

/-- Where a notice that goes to a supervisor arrives: slot 0 of its generating core, mailbox 3. -/
def State.noticeToSup (s : State) (e : NetPkt) : Host.Outcome State Fault Refusal :=
  let gc := e.core
  let ent := s.aptRead (modOf gc) (s.ownerOf gc) (s.supHandle gc)
  let b := s.mbox gc 0 3
  if aptSt ent = 3 || (decide (aptSt ent = 1) && s.backed gc 0 3) then .next (s.append e gc 0 e.p)
  else if aptSt ent ≠ 1 ∨ b.en = false ∨ b.units < Pkt.units e.p then .next (s.setPkt { e with st := .refused 256 })
  else if b.full then .next (s.setPkt { e with st := .refused b.hint })
  else if !s.mayEnqueue gc 0 b.prio then notEnabled
  else .next ((s.setPkt e.taken).enqueuePkt gc 0 3 e.p)

/-- NOTICE_ARRIVAL: the notice named `State.sel` reaches its core (R229, R230). One whose target cannot take it is redirected. -/
def execNoticeArrival (s : State) : Host.Outcome State Fault Refusal :=
  match s.pkt s.sel with
  | none => notEnabled
  | some e =>
    if e.st ≠ .flying ∨ e.notice = false then notEnabled
    else if e.redir then s.noticeToSup e
    else
      let ent := s.aptRead e.home e.part (Pkt.dest e.p)
      let gc := aptCore ent
      let slot := aptSlot ent
      let m := Pkt.mb e.p
      let b := s.mbox gc slot m
      if aptSt ent = 0 then .next (s.setPkt e.redirected)
      else if aptHost ent then .next (s.toHost e ent)
      else if aptSt ent = 2 then .next (s.setPkt { e with st := .refused 256 })
      else if aptSt ent = 3 || s.backed gc slot m then .next (s.append e gc slot e.p)
      else if !b.en || decide (b.units < Pkt.units e.p) then .next (s.setPkt e.redirected)
      else if b.full then .next (s.setPkt { e with st := .refused b.hint })
      else if !s.mayEnqueue gc slot b.prio then notEnabled
      else .next ((s.setPkt e.taken).enqueuePkt gc slot m e.p)

/-! ### ACTIVATE (R22 to R24, R389) -/

/-- The source of an ACTIVATE may start work on a core: Patrol, the host (whose flow the port has checked), or a supervisor of
the core's partition. -/
def State.mayActivate (s : State) (e : NetPkt) (gc : Nat) : Bool :=
  e.host.isSome || (Pkt.sup e.p && decide (s.ownerOf gc = e.part))

/-- Contexts of a core that an ACTIVATE may start on: context 3 is not one in gang mode (R23, R27). -/
def State.actRoom (s : State) (gc : Nat) : Nat :=
  ((if bit (s.core gc).sctl.toNat 1 then [0, 1, 2] else [0, 1, 2, 3]).filter (fun x => decide ((s.ctx (4 * gc + x)).phase = .free))).length

/-- ACTIVATE_ARRIVAL: the ACTIVATE named `State.sel` reaches its core. One for each free context starts in a later cycle, and four
more are held in the activation queue, in arrival order (R23, R24, R225, R254); Patrol's to a halted core starts before any other
(R389). On a fenced core, whose contexts start nothing until Patrol's comes (R266), the queue holds four from other sources (DESIGN CHOICE, log entry 79). -/
def execActivateArrival (s : State) : Host.Outcome State Fault Refusal :=
  match s.pkt s.sel with
  | none => notEnabled
  | some e =>
    if e.st ≠ .flying ∨ Pkt.kind e.p ≠ 2 then notEnabled
    else
      let gc := actTarget e.p
      let k := s.core gc
      if !s.mayActivate e gc then
        let t : Trap := { code := 0x23, cls := 3, detail := e.core % 2048 + e.core / 2048 * 2 ^ 11, va := e.p.getD 4 0 }
        .next ((s.setPkt e.taken).lateNotice gc (s.ownerOf gc) 0 false t (Pkt.word e.p 4) 0)
      else if k.halted && !e.patrol then .next (s.bounce e 8)
      else
        let ent : ActEnt := { core := e.core, part := e.part, host := e.host, p := e.p, from_ := s.now + 1 }
        let k' := if e.patrol then { k with halted := false, fenced := false } else k
        let first := e.patrol && k.halted
        let room := if k'.fenced then 0 else s.actRoom gc
        if 4 + room ≤ k.actq.length then .next (s.setPkt { e with st := .refused 64 })
        else
          let q := if first then ent :: k.actq else k.actq ++ [ent]
          .next ((s.setCore gc { k' with actq := q }).setPkt e.taken)

/-! ### Responses and retries (R234) -/

/-- A notice that goes to a supervisor, whose attempts are not limited (R229). -/
def State.toSup (s : State) (e : NetPkt) : Bool :=
  e.notice && (e.redir || (let ent := s.aptRead e.home e.part (Pkt.dest e.p)
                           decide (aptSlot ent = 0) && !aptHost ent && decide (Pkt.mb e.p = 3)))

/-- REFUSAL_RESPONSE: a refusal of the packet named `State.sel` reaches its sender: it is sent again after its back-off, or the
17th refusal ends it (R229, R234). -/
def execRefusalResponse (s : State) : Host.Outcome State Fault Refusal :=
  match s.pkt s.sel with
  | none => notEnabled
  | some e =>
    match e.st with
    | .refused h =>
      let s := if e.host.isSome then s else s.bumpCore e.core 0x06
      let n := e.tries + 1
      if n ≤ 16 || s.toSup e then .next (s.setPkt { e with tries := n, st := .backoff (retryAt s.now h n) })
      else if e.notice then .next (s.setPkt { e.redirected with tries := 0 })
      else .next (s.bounce e (if Pkt.kind e.p = 2 then 8 else 4))
    | _ => notEnabled

/-- RETRY_TIMER: the packet named `State.sel` is sent again (R234). -/
def execRetryTimer (s : State) : Host.Outcome State Fault Refusal :=
  match s.pkt s.sel with
  | none => notEnabled
  | some e =>
    match e.st with
    | .backoff t => if s.now < t then notEnabled else .next (s.netSend e)
    | _ => notEnabled

/-- ACCEPTANCE_RESPONSE: the acceptance of the packet named `State.sel` reaches its sender, which has finished with it (R233,
R238). -/
def execAcceptanceResponse (s : State) : Host.Outcome State Fault Refusal :=
  match s.pkt s.sel with
  | none => notEnabled
  | some e => if e.st = .accepted then .next (s.dropPkt e) else notEnabled

end Sys2Proof.Machine
end

