-- ==== Sys2Proof/Machine/Actors.lean ====
section
/-! DEFINITION. Actors that move: ADMIT, EVICT, the save and the restore, and the drain of backing queues (R35 of
spec/01_machine.md; R169 of spec/08_matrix.md; R268, R270 of spec/13_firing.md; R302 to R304, R311, R312 of spec/15_tables.md). -/

namespace Sys2Proof.Machine

/-! ### The backing area (R304 Table 15.4) -/

/-- Bytes of a mailbox's storage. -/
def MBox.size (b : MBox) : Nat := if b.en then b.depth * b.units * 16 else 0
/-- Physical address of an actor's backing area. -/
def State.backPA (s : State) (gc slot : Nat) : Nat := bits (s.desc gc slot 19) 12 40 * 2 ^ 12
/-- Bytes of an actor's state segment. -/
def State.segSize (s : State) (gc slot : Nat) : Nat := bits (s.desc gc slot 0) 41 13 * 64
/-- Local address of an actor's state segment. -/
def State.segBase (s : State) (gc slot : Nat) : Nat := bits (s.desc gc slot 0) 27 14 * 64
/-- Offset of the image of mailbox `m`. -/
def State.backMb (s : State) (gc slot m : Nat) : Nat :=
  0x1000 + ((List.range m).map (fun i => (s.mbox gc slot i).size)).sum
/-- Offset of the state segment. -/
def State.backSeg (s : State) (gc slot : Nat) : Nat := roundUp (s.backMb gc slot 4) 0x1000
/-- Offset of the array image. -/
def State.backArr (s : State) (gc slot : Nat) : Nat := roundUp (s.backSeg gc slot + s.segSize gc slot) 0x10000

/-! ### Allocation records (R304, R306) -/

/-- A table entry as a word (R306). -/
def Alloc.word (a : Alloc) : Nat :=
  2 ^ 63 + (if a.guard then 2 ^ 62 + (a.g - 1) * 2 ^ 58 else 0) + a.slot * 2 ^ 51 + (a.size / 64 - 1) * 2 ^ 24 + a.base / 64 * 2 ^ 6

/-- The allocation that a record asks for, without its place; the owner is the actor of the slot. Reserved bits of a record, [48:34] and
[23:20], are ignored: no fate is stated for a record with one set (DESIGN CHOICE, log entry 65). -/
def recAlloc (slot v : Nat) : Alloc :=
  { guard := bit v 62, g := if bit v 62 then bits v 58 4 + 1 else 0, ctx := none, slot := slot, size := (bits v 24 10 + 1) * 64, base := 0 }

/-- Records of a backing area: those that its header counts and that are valid. -/
def State.records (s : State) (gc slot : Nat) : List Nat :=
  let part := s.ownerOf gc
  let pa := s.backPA gc slot
  let n := bits (leNat (s.backGet (modOf gc) part pa 8)) 1 6
  ((List.range (min n 32)).map (fun i => leNat (s.backGet (modOf gc) part (pa + 0x40 + 8 * i) 8))).filter (fun v => bit v 63)

/-- Bank of a record. -/
def recBank (v : Nat) : Nat := bits v 16 4

/-! ### The array image (R169, R304; its inner layout is a DESIGN CHOICE, log entry 9) -/

/-- Elements of `n` bytes cut from a byte list, those not 0 with their numbers. -/
def cutElems (n : Nat) : Nat → Nat → List Byte → FMap Nat
  | 0, _, _ => []
  | k + 1, i, bs =>
    let v := leNat (bs.take n)
    let r := cutElems n k (i + 1) (bs.drop n)
    if v = 0 then r else (i, v) :: r

/-- Bytes of a tile. -/
def tileBytes (m : FMap Nat) : List Byte := (List.range 16384).flatMap (fun i => leBytes 4 (FMap.get 0 m i))
/-- Bytes of one element of a plane. -/
def planeElem (t : Ty) : Nat := max 2 (t.width / 8)
/-- Bytes of a plane with elements of type `t`. -/
def planeBytes (t : Ty) (m : FMap Nat) : List Byte :=
  (List.range (32768 / planeElem t)).flatMap (fun i =>
    leBytes (planeElem t) (FMap.get 0 m (128 * (i / colsOf t) + i % colsOf t)))
/-- A plane from its bytes. -/
def planeOf (t : Ty) (bs : List Byte) : FMap Nat :=
  (cutElems (planeElem t) (32768 / planeElem t) 0 bs).map (fun x => (128 * (x.1 / colsOf t) + x.1 % colsOf t, x.2))
/-- Tags and selector of a pair as a word. -/
def Cluster.pairWord (k : Cluster) (p : Nat) : Nat :=
  let a := k.tagOf (2 * p)
  let b := k.tagOf (2 * p + 1)
  a.1.code + wrap 16 a.2 * 2 ^ 8 + b.1.code * 2 ^ 24 + wrap 16 b.2 * 2 ^ 32 + (if FMap.get false k.psel p then 2 ^ 48 else 0)
/-- A configuration record as two words. -/
def MRec.words (r : MRec) : List Nat :=
  [r.dfmt.code + r.rm.code * 2 ^ 5 + r.act.code * 2 ^ 8 + (if r.sen then 2 ^ 10 else 0) + (if r.ben then 2 ^ 11 else 0) +
     wrap 16 r.dshift * 2 ^ 16 + r.flags % 2 ^ 16 * 2 ^ 32, r.scale % 2 ^ 32 + r.bias % 2 ^ 32 * 2 ^ 32]
/-- A configuration record from its two words. -/
def mrecOf (v w : Nat) : MRec :=
  { dfmt := (tyOf (bits v 0 5)).getD .f32, rm := (Sys2Proof.rmOf (bits v 5 3)).getD .rne, act := (Sys2Proof.actOf (bits v 8 2)).getD .none
    sen := bit v 10, ben := bit v 11, dshift := signed 16 (bits v 16 16), flags := bits v 32 16, scale := bits w 0 32, bias := bits w 32 32 }

/-- The array image of an actor: its tiles, its planes, their tags and selectors, its record. -/
def Cluster.image (k : Cluster) (key : Nat) : List Byte :=
  (k.tilesOf key).flatMap (fun t => tileBytes (FMap.get [] k.tiles t)) ++
  (k.pairsOf key).flatMap (fun p => [2 * p, 2 * p + 1].flatMap (fun q => planeBytes (k.tagOf q).1 (FMap.get [] k.planes q))) ++
  (k.pairsOf key).flatMap (fun p => leBytes 8 (k.pairWord p)) ++
  (match FMap.find k.mrecs key with | some r => r.words.flatMap (leBytes 8) | none => [])

/-- Bytes of an array image of `t` tiles and `p` pairs. -/
def imageSize (t p : Nat) : Nat := t * 65536 + p * 65536 + p * 8 + 16

/-- Put a tile back. -/
def Cluster.loadTile (k : Cluster) (key t : Nat) (bs : List Byte) : Cluster :=
  { k with tileOwn := FMap.set k.tileOwn t key, tiles := FMap.put [] k.tiles t (cutElems 4 16384 0 bs) }

/-- Put a pair back: its word and its planes. -/
def Cluster.loadPair (k : Cluster) (key p v : Nat) (a b : List Byte) : Cluster :=
  let ta := (tyOf (bits v 0 5)).getD .i8
  let tb := (tyOf (bits v 24 5)).getD .i8
  { k with
    pairOwn := FMap.set k.pairOwn p key
    ptag := FMap.set (FMap.set k.ptag (2 * p) (ta, signed 16 (bits v 8 16))) (2 * p + 1) (tb, signed 16 (bits v 32 16))
    planes := FMap.put [] (FMap.put [] k.planes (2 * p) (planeOf ta a)) (2 * p + 1) (planeOf tb b)
    psel := FMap.put false k.psel p (bit v 48) }

/-- Put the tiles of an image back from offset `o` on. -/
def Cluster.loadTiles (k : Cluster) (key : Nat) (img : Nat → Nat → List Byte) : Nat → List Nat → Cluster
  | _, [] => k
  | o, t :: l => (k.loadTile key t (img o 65536)).loadTiles key img (o + 65536) l

/-- Put the pairs of an image back: planes from offset `o`, words from offset `v`. -/
def Cluster.loadPairs (k : Cluster) (key : Nat) (img : Nat → Nat → List Byte) : Nat → Nat → List Nat → Cluster
  | _, _, [] => k
  | o, v, p :: l =>
    (k.loadPair key p (leNat (img v 8)) (img o 32768) (img (o + 32768) 32768)).loadPairs key img (o + 65536) (v + 8) l

/-- Put an array image back: `img o n` are its `n` bytes from offset `o` (R169). -/
def Cluster.loadImage (k : Cluster) (key : Nat) (tiles pairs : List Nat) (img : Nat → Nat → List Byte) : Cluster :=
  let o := 65536 * tiles.length
  let v := o + 65536 * pairs.length
  let k := (k.loadTiles key img 0 tiles).loadPairs key img o v pairs
  if tiles = [] ∧ pairs = [] then k
  else { k with mrecs := FMap.set k.mrecs key (mrecOf (leNat (img (v + 8 * pairs.length) 8)) (leNat (img (v + 8 * pairs.length + 8) 8))) }

/-! ### Saving (R169, R270 Table 13.5) -/

/-- Name among the owners of array items of the actor in a slot. -/
def State.slotKey (s : State) (gc slot : Nat) : Nat := actorKey (s.ownerOf gc) (s.handleOf gc slot)

/-- Allocations of the actor in a slot, in index order. -/
def Core.allocsOf (k : Core) (slot : Nat) : List Alloc :=
  (k.sat.filter (fun x => decide (x.2.ctx = none) && decide (x.2.slot = slot))).map (fun x => x.2)

/-- Write every part of an actor's backing area and set SAVED (R304). -/
def State.saveArea (s : State) (gc slot : Nat) : State :=
  let pa := s.backPA gc slot
  let al := (s.core gc).allocsOf slot
  let s1 := s.backPut gc pa (leBytes 8 (1 + al.length * 2))
  let s2 := s1.backPut gc (pa + 0x40) (al.flatMap (fun a => leBytes 8 a.word))
  let s3 := [0, 1, 2, 3].foldl (fun t i =>
    let b := s.mbox gc slot i
    t.backPut gc (pa + s.backMb gc slot i) (s.rdBytes (localPA gc b.base) b.size)) s2
  let s4 := s3.backPut gc (pa + s.backSeg gc slot) (s.rdBytes (localPA gc (s.segBase gc slot)) (s.segSize gc slot))
  s4.backPut gc (pa + s.backArr gc slot) ((s.clu (cluOf gc)).image (s.slotKey gc slot))

/-- Release what an actor holds on its core and its array; its descriptor keeps the numbers of its items (R169, R302). -/
def State.release (s : State) (gc slot : Nat) : State :=
  let key := s.slotKey gc slot
  let s := s.onClu (cluOf gc) (fun k =>
    let k' := (k.tilesOf key).foldl (fun k t => k.dropTile t) k
    let k' := (k.pairsOf key).foldl (fun k p => k.dropPair p) k'
    k'.tidyRec key)
  s.onCore gc (fun c => { c with sat := c.sat.filter (fun x => !(decide (x.2.ctx = none) && decide (x.2.slot = slot))) })

/-- The tiles of an actor that a fence of a stalled epilogue has marked are zero now, whatever its later commands did to them (R170). -/
def State.zeroTiles (s : State) (gc slot : Nat) : State :=
  let key := s.slotKey gc slot
  s.onClu (cluOf gc) (fun k =>
    let l := (k.tilesOf key).filter (fun t => k.zeroT.contains t)
    { k with tiles := l.foldl (fun m t => FMap.erase m t) k.tiles, zeroT := k.zeroT.filter (fun t => !l.contains t) })

/-- Save an actor and make it absent: its hold for replay is dropped and its hold for fault stays (R250). -/
def State.saveActor (s : State) (gc slot : Nat) : State :=
  let s := ((s.zeroTiles gc slot).saveArea gc slot).release gc slot
  let s := s.onMboxes gc slot (fun b => { b with rsv := 0 })
  let s := s.setDesc gc slot 0 (setBits (s.desc gc slot 0) 59 1 0)
  (s.setSched gc slot {}).setPlace (modOf gc) (s.ownerOf gc) (s.handleOf gc slot) 3

/-- A firing of the actor in a slot is in progress. -/
def State.slotRuns (s : State) (gc slot : Nat) : Bool :=
  [0, 1, 2, 3].any (fun x => let c := s.ctx (4 * gc + x); decide (c.kind = .actor) && decide (c.gidx = 0) && decide (c.slot = slot))

/-- The array still has a command of the actor in a slot (R169). -/
def State.slotQueued (s : State) (gc slot : Nat) : Bool :=
  (s.clu (cluOf gc)).inbox.any (fun m => decide (m.key = s.slotKey gc slot))

/-- A published store of the core's contexts to its scratchpad is still on its way. -/
def State.segBusy (s : State) (gc : Nat) : Bool :=
  s.wq.any (fun e => decide (coreOf e.org.w / 4 = gc / 4) && (match s.region e.pa with | .scratch g _ => decide (g = gc) | _ => false))

/-- An engine command that a firing of the actor in a slot issued is not complete (R274). -/
def State.slotEngaged (s : State) (gc slot : Nat) : Bool :=
  s.engines.any (fun e => decide (e.org.part = s.ownerOf gc) && decide (e.org.aid = s.handleOf gc slot) && decide (e.org.aid ≠ 0))

/-- The save of an actor waits for its array and engine commands and for the stores of its core (R169, R274). -/
def State.saveWaits (s : State) (gc slot : Nat) : Bool := s.slotQueued gc slot || s.slotEngaged gc slot || s.segBusy gc

/-- EVICT_SAVE: an actor that is leaving and has no firing becomes moving; a moving one whose commands are complete is
saved and becomes absent (R169, R270, R274). -/
def execEvictSave (core slot : Nat) (s : State) : Host.Outcome State Fault Refusal :=
  match (s.sched core slot).st with
  | .leaving =>
    if s.slotRuns core slot then notEnabled
    else .next ((s.setSched core slot { s.sched core slot with st := .moving }).setPlace (modOf core) (s.ownerOf core) (s.handleOf core slot) 2)
  | .moving => if s.saveWaits core slot then notEnabled else .next (s.saveActor core slot)
  | _ => notEnabled

/-! ### The team of an ADMIT (R311) -/

/-- Why a descriptor cannot be admitted: its words (R12, R14, R228, R303, Table 12.4). -/
def mbWordOk (floor v : Nat) : Bool :=
  let base := bits v 24 16 * 16
  let top := base + (bits v 16 8 + 1) * unitsOf (bits v 8 4) * 16
  decide (bits v 40 8 = 0) && decide (bits v 12 4 = 0) && decide (bits v 6 2 = 0) && decide (bits v 1 3 = 0) &&
  decide (bits v 8 4 ≠ 1) &&
  (!bit v 0 || (decide (bits v 48 16 ≠ 0) &&
    ((decide (0xE7000 ≤ base) && decide (top ≤ 0xF0000)) || (decide (floor * 0x10000 ≤ base) && decide (top ≤ 0xE0000)))))

/-- A rule's two words are within R12 and R303. -/
def State.ruleWordOk (s : State) (gc slot k : Nat) : Bool :=
  let pc := s.desc gc slot (10 + 2 * k)
  let v := s.desc gc slot (11 + 2 * k)
  let r := ruleOf pc v
  let n := [0, 1, 2, 3].map (fun m => r.count m)
  decide (bits v 29 34 = 0) &&
  (!r.en || (decide (pc < 2 ^ 55) && decide (1 ≤ n.sum) && decide (n.sum ≤ 4) && decide (r.pkts ≤ 8) && decide (r.deq ≤ 16) &&
    [0, 1, 2, 3].all (fun m => decide (r.count m = 0) ||
      ((s.mbox gc slot m).en && decide (r.count m ≤ (s.mbox gc slot m).depth)))))

/-- State and mailbox areas of the actor in a slot. -/
def State.areas (s : State) (gc slot : Nat) : List (Nat × Nat) :=
  (s.segBase gc slot, s.segSize gc slot) :: [0, 1, 2, 3].map (fun m => ((s.mbox gc slot m).base, (s.mbox gc slot m).size))

/-- Two areas of a list meet. -/
def someMeet : List (Nat × Nat) → Bool
  | [] => false
  | x :: l => l.any (fun y => decide (x.2 ≠ 0) && decide (y.2 ≠ 0) && rangesMeet x.1 x.2 y.1 y.2) || someMeet l

/-- An area of one list meets an area of another. -/
def areasMeet (a b : List (Nat × Nat)) : Bool :=
  a.any (fun x => b.any (fun y => decide (x.2 ≠ 0) && decide (y.2 ≠ 0) && rangesMeet x.1 x.2 y.1 y.2))

/-- Slots whose areas an absent member may not meet: resident actors of the core and earlier absent members of the team. -/
def State.neighbours (s : State) (gc slot : Nat) (earlier : List (Nat × Nat × Nat)) : List Nat :=
  (((s.core gc).sched.filter (fun x => decide (x.2.st ≠ .absent))).map (fun x => x.1) ++
    (earlier.filter (fun e => decide (e.2.1 = gc))).map (fun e => e.2.2)).filter (fun x => decide (x ≠ slot))

/-- The descriptor of a member can be admitted (status 1 otherwise). -/
def State.descOk (s : State) (gc slot : Nat) (absent : Bool) (earlier : List (Nat × Nat × Nat)) : Bool :=
  let d0 := s.desc gc slot 0
  let d1 := s.desc gc slot 1
  bit d0 63 && !bit d0 61 && decide (bits d0 41 13 ≤ 4096) && decide (bits d1 4 5 ≤ 16) && decide (bits d1 9 3 ≤ 4) &&
  [0, 1, 2, 3].all (fun k => s.ruleWordOk gc slot k) &&
  [0, 1, 2, 3].all (fun m => mbWordOk (s.core gc).sbfloor (s.desc gc slot (2 + m))) &&
  (decide (slot ≠ 0) || ((s.mbox gc 0 3).en && decide (4 ≤ (s.mbox gc 0 3).units))) &&
  !someMeet (s.areas gc slot) &&
  (!absent || !(s.neighbours gc slot earlier).any (fun x => areasMeet (s.areas gc slot) (s.areas gc x))) &&
  (!bit d0 62 || (decide (leadOf gc = gc) && bit (s.core gc).sctl.toNat 0)) &&
  (!absent || !(s.records gc slot).any (fun v => decide ((s.core gc).sbfloor ≤ recBank v)))

/-- Cores in one group of a team scope. -/
def teamSize : TeamScope → Nat
  | .clu => 8 | .stk => 128 | .pod => 2 ^ 19

/-- The first failure of one member: 3, 2, 4, then 1. -/
def State.memberFail (s : State) (w : Nat) (sc : TeamScope) (first h : Nat) (earlier : List (Nat × Nat × Nat)) : Option Nat :=
  let m := modOf (coreOf w)
  let part := (s.ctx w).part
  let ent := s.aptRead m part h
  let gc := aptCore ent
  let slot := aptSlot ent
  if aptSt ent = 0 || aptHost ent || !s.there m (gc / 2048) || decide (s.ownerOf gc ≠ part) then some 3
  else if gc / teamSize sc ≠ (if earlier = [] then gc else first) / teamSize sc then some 2
  else if aptSt ent = 2 ∨ (s.sched gc slot).st = .leaving ∨ (s.sched gc slot).st = .moving ∨ (s.sched gc slot).st = .admitting then some 4
  else if s.descOk gc slot (decide (aptSt ent = 3)) earlier then none else some 1

/-- The members in list order, or the first failure with its index. -/
def State.teamOf (s : State) (w : Nat) (sc : TeamScope) : List Nat → List (Nat × Nat × Nat) → Except (Nat × Nat) (List (Nat × Nat × Nat))
  | [], done => .ok done
  | h :: l, done =>
    match s.memberFail w sc ((done.headD (0, 0, 0)).2.1) h done with
    | some st => .error (st, done.length)
    | none =>
      let ent := s.aptRead (modOf (coreOf w)) (s.ctx w).part h
      s.teamOf w sc l (done ++ [(h, aptCore ent, aptSlot ent)])

/-- Clear the hold for fault of a resident member (R268). A firing that ended in this cycle ends after the release, and its hold stays
(R255). -/
def State.clearHold (s : State) (gc slot : Nat) : State :=
  if s.late gc slot evArrival then s
  else
    let x := s.sched gc slot
    let s := s.setDesc gc slot 0 (setBits (s.desc gc slot 0) 60 1 0)
    if x.st = .heldFault then s.setSched gc slot { x with st := .idle, event := (s.now, evRelease) } else s

/-- Start an admission: absent members become moving, and the status stands when there is none. Members already resident lose
their hold for fault when the team is complete. -/
def State.admitStart (s : State) (w : Nat) (team : List (Nat × Nat × Nat)) : State :=
  let c := s.ctx w
  let s := team.foldl (fun s x =>
    if (s.sched x.2.1 x.2.2).st = .absent then
      (s.setSched x.2.1 x.2.2 { st := .admitting }).setPlace (modOf x.2.1) c.part x.1 2
    else s) s
  let a : Admission := { uid := s.uid, w := w, fid := c.fid, part := c.part, team := team, res := none }
  { s with admits := s.admits ++ [a] }.fresh

/-- The list of an ADMIT: its handles, or the fault of R311. -/
def State.teamList (s : State) (w : Nat) (b c : Src) : Except Stop (State × List Nat) :=
  let va := (s.ctx w).src b
  let n := ((s.ctx w).src c)
  if va.toNat % 8 ≠ 0 then .error (.trap (alignTrap va))
  else if n.toNat = 0 ∨ 256 < n.toNat then .error (.trap (permTrap 3 n))
  else match s.resolveL w va.toNat (8 * n.toNat) 8 false with
    | .error e => .error e
    | .ok l =>
      let ws := (wordsOf n.toNat (s.readBytes w l)).map (fun x => x.toNat)
      match ws.find? (fun v => decide (2 ^ 24 ≤ v)) with
      | some v => .error (.trap (permTrap 3 (BitVec.ofNat 64 v)))
      | none => .ok (s.touchLocal w va.toNat l, ws)

/-- ADMIT (R311): the checks at once, behind the issuing context's own stores at the port; the status when every absent member is
restored. -/
def execAdmitTeam (d : Dst) (b c : Src) (sc : TeamScope) (s : State) : Host.Outcome State Fault Refusal :=
  each s (privileged 0xFD09 fun w s =>
    match s.admits.find? (fun a => decide (a.w = w) && decide (a.fid = (s.ctx w).fid)) with
    | some a =>
      (match a.res with
      | none => .error (.wait s)
      | some (st, i) =>
        .ok ({ s with admits := s.admits.filter (fun x => decide (x.uid ≠ a.uid)) }.onCtx w (fun k =>
          k.dst d (BitVec.ofNat 64 (st + i * 2 ^ 8)))))
    | none =>
      if s.wq.any (fun e => decide (e.org.w = w) && decide (e.via = .port)) then .error (.wait s)
      else match s.teamList w b c with
      | .error e => .error e
      | .ok (s, hs) =>
        match s.teamOf w sc hs [] with
        | .error (st, i) => .ok (s.onCtx w (fun k => k.dst d (BitVec.ofNat 64 (st + i * 2 ^ 8))))
        | .ok team =>
          if team.any (fun x => decide ((s.sched x.2.1 x.2.2).st = .absent)) then .error (.wait (s.admitStart w team))
          else .ok ((team.foldl (fun s x => s.clearHold x.2.1 x.2.2) s).onCtx w (fun k => k.dst d 0)))

/-! ### EVICT (R312) -/

/-- Status of an EVICT of a handle, with the core and slot of its entry. -/
def State.evictCheck (s : State) (w h : Nat) : Nat × Nat × Nat :=
  let m := modOf (coreOf w)
  let part := (s.ctx w).part
  let ent := s.aptRead m part h
  let gc := aptCore ent
  let slot := aptSlot ent
  let st := (s.sched gc slot).st
  (if aptSt ent = 0 || aptHost ent || !s.there m (gc / 2048) || decide (s.ownerOf gc ≠ part) then 3
   else if aptSt ent ≠ 1 ∨ st = .leaving ∨ st = .moving ∨ st = .absent ∨ st = .admitting then 4
   else if slot = 0 then 5
   else 0, gc, slot)

/-- An actor leaves scheduling, and a firing of it is asked to yield (R68, R270). -/
def State.leave (s : State) (gc slot : Nat) : State :=
  let s := s.setSched gc slot { s.sched gc slot with st := .leaving, event := (s.now, evEvict) }
  [0, 1, 2, 3].foldl (fun s x =>
    let c := s.ctx (4 * gc + x)
    if c.kind = .actor ∧ c.gidx = 0 ∧ c.slot = slot then s.toAll (4 * gc + x) (fun c => { c with yreq := true }) else s) s

/-- EVICT (R312). One that comes behind a later event of the actor in its cycle waits for the next (R255). -/
def execEvict (d : Dst) (b : Src) (s : State) : Host.Outcome State Fault Refusal :=
  each s (privileged 0xFC8A fun w s =>
    let r := s.evictCheck w (((s.ctx w).src b).toNat % 2 ^ 24)
    if r.1 = 0 ∧ s.late r.2.1 r.2.2 evEvict = true then .error (.wait s)
    else
    let s := if r.1 = 0 then s.leave r.2.1 r.2.2 else s
    .ok (s.onCtx w (fun k => k.dst d (BitVec.ofNat 64 r.1))))

/-! ### Backing queues (R35) -/

/-- The packet of a backing queue that may move next, with its index: the first whose mailbox has no earlier packet in the queue
and has room, or fails a check. One whose entry may not be written stays, with those behind it (R189). -/
def State.drainable (s : State) (gc slot : Nat) : List (Nat × Nat × BqEnt) → List Nat → Option (Nat × BqEnt)
  | [], _ => none
  | (i, _, b) :: l, seen =>
    let m := b.mb
    let x := s.mbox gc slot m
    if seen.contains m then s.drainable gc slot l seen
    else if (x.en && x.full) || !s.bqOpen gc slot i then s.drainable gc slot l (m :: seen)
    else some (i, b)

/-- Move one packet of a backing queue to its mailbox, or give it the fate of a failed check. -/
def State.drainOne (s : State) (gc slot i : Nat) (b : BqEnt) : State :=
  let m := b.mb
  let x := s.mbox gc slot m
  let s := s.bqTake gc slot i
  let e : NetPkt := { uid := s.uid, core := b.core, part := b.part, w := none, pair := b.pair, p := b.p, tries := 0, st := .flying,
                      redir := true, gate := {}, nq := false, host := b.host }
  if e.notice then
    if !x.en || decide (x.units < Pkt.units b.p) then { s with net := s.net ++ [e] }.fresh else s.mbPut gc slot m b.p
  else if !x.en then s.fresh.bounce e 2
  else if Pkt.units b.p ≠ x.units then s.fresh.bounce e 3
  else s.mbPut gc slot m b.p

/-- Move every packet that can move. -/
def State.drainAll (s : State) (gc slot : Nat) : Nat → State
  | 0 => s
  | n + 1 =>
    match s.drainable gc slot (s.bqHeld gc slot) [] with
    | some (i, b) => (s.drainOne gc slot i b).drainAll gc slot n
    | none => s

/-- BACKING_QUEUE_DRAIN: one packet of a resident actor's backing queue moves (R35). -/
def execBackingQueueDrain (core slot : Nat) (s : State) : Host.Outcome State Fault Refusal :=
  let st := (s.sched core slot).st
  if st = .absent ∨ st = .admitting ∨ st = .moving then notEnabled
  else match s.drainable core slot (s.bqHeld core slot) [] with
    | some (i, b) => .next (s.drainOne core slot i b)
    | none => notEnabled

/-! ### ADMIT_RESTORE (R304, R311, R169) -/

/-- Recreate the allocations of the records, each in its bank; none when one finds no room yet. -/
def State.restoreAllocs (s : State) (gc slot : Nat) : List Nat → Option State
  | [] => some s
  | v :: l =>
    let al := recAlloc slot v
    let k := s.core gc
    match k.freeAlloc, s.findBase gc (recBank v) al.reserved with
    | some i, some b =>
      let al := { al with base := b }
      ((s.setCore gc { k with sat := FMap.set k.sat i al }).openBytes (localPA gc al.userBase) al.userLen).restoreAllocs gc slot l
    | _, _ => none

/-- The array items that an actor's descriptor names are free. -/
def State.itemsFree (s : State) (gc slot : Nat) : Bool :=
  let d := s.desc gc slot 1
  let k := s.clu (cluOf gc)
  (maskList 16 (bits d 16 16)).all (fun t => (FMap.find k.tileOwn t).isNone) && (maskList 4 (bits d 12 4)).all (fun p => (FMap.find k.pairOwn p).isNone)

/-- Load the bank format registers under bmask (R302, R311). A reserved fmt, rmode or order of a descriptor's value is loaded as it
is: no fate is stated for one (DESIGN CHOICE, log entry 64). -/
def State.loadBfmt (s : State) (gc slot : Nat) : State :=
  let mask := bits (s.desc gc slot 28) 0 14
  s.onCore gc (fun c => { c with bfmt := (maskList 14 mask).foldl (fun m k =>
    FMap.put 0x1F m k (BitVec.ofNat 32 (bits (s.desc gc slot (21 + k / 2)) (32 * (k % 2)) 32 &&& 0x00FF03FF))) c.bfmt })

/-- Restore one absent member; none while an array number or room for an allocation is missing. -/
def State.restore (s : State) (gc slot : Nat) : Option State :=
  if !s.itemsFree gc slot then none
  else
    let m := modOf gc
    let part := s.ownerOf gc
    let pa := s.backPA gc slot
    let s := s.backRead gc pa (0x40 + 8 * 32)
    let saved := bit (leNat (s.backGet m part pa 1)) 0
    let d := s.desc gc slot 1
    let img := fun (o n : Nat) => s.backGet m part (pa + s.backArr gc slot + o) n
    let s := if saved then
        let n := [0, 1, 2, 3].map (fun i => (s.mbox gc slot i).size)
        ((s.backRead gc (pa + 0x1000) n.sum).backRead gc (pa + s.backSeg gc slot) (s.segSize gc slot)).backRead gc (pa + s.backArr gc slot)
          (if bits d 12 20 = 0 then 0 else imageSize (maskList 16 (bits d 16 16)).length (maskList 4 (bits d 12 4)).length)
      else s
    match s.restoreAllocs gc slot (s.records gc slot) with
    | none => none
    | some s1 =>
      let seg := if saved then s.backGet m part (pa + s.backSeg gc slot) (s.segSize gc slot) else List.replicate (s.segSize gc slot) 0
      let s1 := s1.putRange (localPA gc (s.segBase gc slot)) seg
      let s1 := if saved then
          [0, 1, 2, 3].foldl (fun t i =>
            t.putRange (localPA gc (s.mbox gc slot i).base) (s.backGet m part (pa + s.backMb gc slot i) (s.mbox gc slot i).size)) s1
        else s1.onMboxes gc slot (fun b => { b with head := 0, count := 0, rsv := 0 })
      let s1 := if saved then
          s1.onClu (cluOf gc) (fun k => k.loadImage (s.slotKey gc slot) (maskList 16 (bits d 16 16)) (maskList 4 (bits d 12 4)) img)
        else s1
      let s1 := s1.loadBfmt gc slot
      some (s1.drainAll gc slot (s1.bqHeld gc slot).length)

/-- Restore the members that are still admitting. -/
def State.restoreTeam (s : State) : List (Nat × Nat × Nat) → Option State
  | [] => some s
  | x :: l =>
    if (s.sched x.2.1 x.2.2).st = .admitting then
      match s.restore x.2.1 x.2.2 with
      | some s => s.restoreTeam l
      | none => none
    else s.restoreTeam l

/-- A member takes its place: resident, and Idle, or held for the fault that its descriptor keeps (R250, R268). -/
def State.seat (s : State) (x : Nat × Nat × Nat) : State :=
  let gc := x.2.1
  let slot := x.2.2
  if (s.sched gc slot).st = .admitting then
    let held := bit (s.desc gc slot 0) 60
    (s.setSched gc slot { st := if held then ActorSt.heldFault else .idle }).setPlace (modOf gc) (s.ownerOf gc) x.1 1
  else s.clearHold gc slot

/-- ADMIT_RESTORE: the admission named `State.sel` restores its absent members and makes the team resident together (R311). -/
def execAdmitRestore (s : State) : Host.Outcome State Fault Refusal :=
  match s.admits.find? (fun a => decide (a.uid = s.sel) && a.res.isNone) with
  | none => notEnabled
  | some a =>
    match s.restoreTeam a.team with
    | none => notEnabled
    | some s =>
      let s := a.team.foldl (fun s x => s.seat x) s
      let alive := decide ((s.ctx a.w).fid = a.fid) && decide ((s.ctx a.w).kind ≠ .none)
      let rest := s.admits.filter (fun x => decide (x.uid ≠ a.uid))
      .next { s with admits := if alive then rest ++ [{ a with res := some (0, 0) }] else rest }

end Sys2Proof.Machine
end

