-- ==== Sys2Proof/Machine/Scalar.lean ====
section
/-! DEFINITION. The scalar integer instructions (R104 to R111 of spec/06_scalar.md). -/

namespace Sys2Proof.Machine

/-! ### Shared operations -/

/-- An operand as the exact integer of the form: unsigned under `.n`, signed otherwise (R106). -/
def intVal (n : Bool) (x : Word) : Int := if n then (x.toNat : Int) else x.toInt

/-- Clip an exact result under `.sat`; the flags (R106). -/
def clipInt (n sat : Bool) (v : Int) : Int × Nat :=
  let lo : Int := if n then 0 else -2 ^ 63
  let hi : Int := if n then 2 ^ 64 - 1 else 2 ^ 63 - 1
  if sat && decide (v < lo) then (lo, fSAT)
  else if sat && decide (hi < v) then (hi, fSAT)
  else (v, 0)

/-- Write an exact result, clipped under `.sat`, modulo 2^64 (R106). -/
def Ctx.intResult (c : Ctx) (d : Dst) (n sat : Bool) (v : Int) : Ctx :=
  let r := clipInt n sat v
  c.result d (BitVec.ofInt 64 r.1) r.2

/-- ADD, SUB and MUL (Table 6.2). -/
def Ctx.arith (c : Ctx) (f : Int → Int → Int) (n sat : Bool) (d : Dst) (x y : Word) : Ctx :=
  c.intResult d n sat (f (intVal n x) (intVal n y))

/-- MULH: the high half of the 128-bit product (Table 6.2). -/
def Ctx.mulHigh (c : Ctx) (n : Bool) (d : Dst) (x y : Word) : Ctx :=
  c.dst d (BitVec.ofInt 64 ((intVal n x * intVal n y).fdiv (2 ^ 64)))

/-- DIV: truncated toward zero; all ones and DZ for a zero divisor (R107). -/
def Ctx.divide (c : Ctx) (n : Bool) (d : Dst) (x y : Word) : Ctx :=
  if y = 0 then c.result d (BitVec.allOnes 64) fDZ
  else c.dst d (BitVec.ofInt 64 ((intVal n x).tdiv (intVal n y)))

/-- REM: the remainder with the sign of the dividend; the dividend and DZ for a zero divisor (R107). -/
def Ctx.remain (c : Ctx) (n : Bool) (d : Dst) (x y : Word) : Ctx :=
  if y = 0 then c.result d x fDZ
  else c.dst d (BitVec.ofInt 64 ((intVal n x).tmod (intVal n y)))

/-- MIN and MAX (Table 6.2): the operand that is chosen. -/
def Ctx.pick (c : Ctx) (isMax n : Bool) (d : Dst) (x y : Word) : Ctx :=
  let less := decide (intVal n x < intVal n y)
  c.dst d (if less = isMax then y else x)

/-- SHL (Table 6.2). -/
def shl64 (x y : Word) : Word := if y.toNat < 64 then x <<< y.toNat else 0
/-- SHR (Table 6.2). -/
def shr64 (x y : Word) : Word := if y.toNat < 64 then x >>> y.toNat else 0
/-- SHA (Table 6.2). -/
def sha64 (x y : Word) : Word := x.sshiftRight (min y.toNat 63)
/-- ROL (Table 6.2). -/
def rol64 (x y : Word) : Word := x.rotateLeft (y.toNat % 64)
/-- ANDN (Table 6.2). -/
def andn64 (x y : Word) : Word := x &&& ~~~ y

/-- Leading zero bits among the low `k` bits of a word. -/
def leadingZeros (x : Word) : Nat → Nat
  | 0 => 0
  | k + 1 => if x.getLsbD k then 0 else 1 + leadingZeros x k
/-- Trailing zero bits from bit `i`, `k` bits to go. -/
def trailingZeros (x : Word) : Nat → Nat → Nat
  | 0, _ => 0
  | k + 1, i => if x.getLsbD i then 0 else 1 + trailingZeros x k (i + 1)
/-- One bits among the low `k` bits. -/
def oneBits (x : Word) : Nat → Nat
  | 0 => 0
  | k + 1 => (if x.getLsbD k then 1 else 0) + oneBits x k

/-- Integer conditions (Table 2.7). -/
def condHolds (cc : ICond) (x y : Word) : Bool :=
  match cc with
  | .eq => decide (x = y)
  | .ne => decide (x ≠ y)
  | .lt => decide (x.toInt < y.toInt)
  | .le => decide (x.toInt ≤ y.toInt)
  | .gt => decide (y.toInt < x.toInt)
  | .ge => decide (y.toInt ≤ x.toInt)
  | .ltN => decide (x.toNat < y.toNat)
  | .leN => decide (x.toNat ≤ y.toNat)
  | .gtN => decide (y.toNat < x.toNat)
  | .geN => decide (y.toNat ≤ x.toNat)
  | .any => decide (x &&& y ≠ 0)
  | .none => decide (x &&& y = 0)

/-- 1 or 0. -/
def boolWord (b : Bool) : Word := if b then 1 else 0

/-- The length a bit-field form uses: min(len, 64 - pos) (R111). -/
def fieldLen (pos len1 : Fin 64) : Nat := min (len1.val + 1) (64 - pos.val)

/-- The field of EXT (R111). -/
def extractField (x : Word) (pos len1 : Fin 64) (n : Bool) : Word :=
  let l := fieldLen pos len1
  let f := (x.toNat >>> pos.val) % 2 ^ l
  if n then BitVec.ofNat 64 f else BitVec.ofInt 64 (signed l f)

/-- The merged value of INS (R111). -/
def insertField (old x : Word) (pos len1 : Fin 64) : Word :=
  let m : Word := BitVec.ofNat 64 ((2 ^ fieldLen pos len1 - 1) * 2 ^ pos.val)
  (old &&& ~~~ m) ||| ((x <<< pos.val) &&& m)

/-! ### The instructions -/


/-- ADD, register form (R106). -/
def execAddT1 (d : Dst) (a b : Src) (n sat : Bool) (s : State) : Host.Outcome State Fault Refusal :=
  eachCtx s fun c => c.arith (· + ·) n sat d (c.src a) (c.src b)

/-- ADD with a 16-bit immediate (R106). -/
def execAddT2I (d : Dst) (a : Src) (imm : BitVec 16) (n sat : Bool) (s : State) : Host.Outcome State Fault Refusal :=
  eachCtx s fun c => c.arith (· + ·) n sat d (c.src a) (imm.signExtend 64)

/-- ADD with a 32-bit immediate (R106). -/
def execAddT4 (d : Dst) (a : Src) (imm : BitVec 32) (n sat : Bool) (s : State) : Host.Outcome State Fault Refusal :=
  eachCtx s fun c => c.arith (· + ·) n sat d (c.src a) (imm.signExtend 64)

/-- SUB, register form (R106). -/
def execSubT1 (d : Dst) (a b : Src) (n sat : Bool) (s : State) : Host.Outcome State Fault Refusal :=
  eachCtx s fun c => c.arith (· - ·) n sat d (c.src a) (c.src b)

/-- SUB with a 16-bit immediate (R106). -/
def execSubT2I (d : Dst) (a : Src) (imm : BitVec 16) (n sat : Bool) (s : State) : Host.Outcome State Fault Refusal :=
  eachCtx s fun c => c.arith (· - ·) n sat d (c.src a) (imm.signExtend 64)

/-- SUB with a 32-bit immediate (R106). -/
def execSubT4 (d : Dst) (a : Src) (imm : BitVec 32) (n sat : Bool) (s : State) : Host.Outcome State Fault Refusal :=
  eachCtx s fun c => c.arith (· - ·) n sat d (c.src a) (imm.signExtend 64)

/-- MUL, register form (R106). -/
def execMulT1 (d : Dst) (a b : Src) (n sat : Bool) (s : State) : Host.Outcome State Fault Refusal :=
  eachCtx s fun c => c.arith (· * ·) n sat d (c.src a) (c.src b)

/-- MUL with a 16-bit immediate (R106). -/
def execMulT2I (d : Dst) (a : Src) (imm : BitVec 16) (n sat : Bool) (s : State) : Host.Outcome State Fault Refusal :=
  eachCtx s fun c => c.arith (· * ·) n sat d (c.src a) (imm.signExtend 64)

/-- MUL with a 32-bit immediate (R106). -/
def execMulT4 (d : Dst) (a : Src) (imm : BitVec 32) (n sat : Bool) (s : State) : Host.Outcome State Fault Refusal :=
  eachCtx s fun c => c.arith (· * ·) n sat d (c.src a) (imm.signExtend 64)

/-- MULH, register form (R106). -/
def execMulhT1 (d : Dst) (a b : Src) (n : Bool) (s : State) : Host.Outcome State Fault Refusal :=
  eachCtx s fun c => c.mulHigh n d (c.src a) (c.src b)

/-- MULH with a 16-bit immediate (R106). -/
def execMulhT2I (d : Dst) (a : Src) (imm : BitVec 16) (n : Bool) (s : State) : Host.Outcome State Fault Refusal :=
  eachCtx s fun c => c.mulHigh n d (c.src a) (imm.signExtend 64)

/-- MULH with a 32-bit immediate (R106). -/
def execMulhT4 (d : Dst) (a : Src) (imm : BitVec 32) (n : Bool) (s : State) : Host.Outcome State Fault Refusal :=
  eachCtx s fun c => c.mulHigh n d (c.src a) (imm.signExtend 64)

/-- DIV, register form (R107). -/
def execDivT1 (d : Dst) (a b : Src) (n : Bool) (s : State) : Host.Outcome State Fault Refusal :=
  eachCtx s fun c => c.divide n d (c.src a) (c.src b)

/-- DIV with a 16-bit immediate (R107). -/
def execDivT2I (d : Dst) (a : Src) (imm : BitVec 16) (n : Bool) (s : State) : Host.Outcome State Fault Refusal :=
  eachCtx s fun c => c.divide n d (c.src a) (imm.signExtend 64)

/-- DIV with a 32-bit immediate (R107). -/
def execDivT4 (d : Dst) (a : Src) (imm : BitVec 32) (n : Bool) (s : State) : Host.Outcome State Fault Refusal :=
  eachCtx s fun c => c.divide n d (c.src a) (imm.signExtend 64)

/-- REM, register form (R107). -/
def execRemT1 (d : Dst) (a b : Src) (n : Bool) (s : State) : Host.Outcome State Fault Refusal :=
  eachCtx s fun c => c.remain n d (c.src a) (c.src b)

/-- REM with a 16-bit immediate (R107). -/
def execRemT2I (d : Dst) (a : Src) (imm : BitVec 16) (n : Bool) (s : State) : Host.Outcome State Fault Refusal :=
  eachCtx s fun c => c.remain n d (c.src a) (imm.signExtend 64)

/-- REM with a 32-bit immediate (R107). -/
def execRemT4 (d : Dst) (a : Src) (imm : BitVec 32) (n : Bool) (s : State) : Host.Outcome State Fault Refusal :=
  eachCtx s fun c => c.remain n d (c.src a) (imm.signExtend 64)

/-- AND, register form (R106). -/
def execAndT1 (d : Dst) (a b : Src) (s : State) : Host.Outcome State Fault Refusal :=
  eachCtx s fun c => c.dst d ((c.src a) &&& (c.src b))

/-- AND with a 16-bit immediate (R106). -/
def execAndT2I (d : Dst) (a : Src) (imm : BitVec 16) (s : State) : Host.Outcome State Fault Refusal :=
  eachCtx s fun c => c.dst d ((c.src a) &&& (imm.signExtend 64))

/-- AND with a 32-bit immediate (R106). -/
def execAndT4 (d : Dst) (a : Src) (imm : BitVec 32) (s : State) : Host.Outcome State Fault Refusal :=
  eachCtx s fun c => c.dst d ((c.src a) &&& (imm.signExtend 64))

/-- OR, register form (R106). -/
def execOrT1 (d : Dst) (a b : Src) (s : State) : Host.Outcome State Fault Refusal :=
  eachCtx s fun c => c.dst d ((c.src a) ||| (c.src b))

/-- OR with a 16-bit immediate (R106). -/
def execOrT2I (d : Dst) (a : Src) (imm : BitVec 16) (s : State) : Host.Outcome State Fault Refusal :=
  eachCtx s fun c => c.dst d ((c.src a) ||| (imm.signExtend 64))

/-- OR with a 32-bit immediate (R106). -/
def execOrT4 (d : Dst) (a : Src) (imm : BitVec 32) (s : State) : Host.Outcome State Fault Refusal :=
  eachCtx s fun c => c.dst d ((c.src a) ||| (imm.signExtend 64))

/-- XOR, register form (R106). -/
def execXorT1 (d : Dst) (a b : Src) (s : State) : Host.Outcome State Fault Refusal :=
  eachCtx s fun c => c.dst d ((c.src a) ^^^ (c.src b))

/-- XOR with a 16-bit immediate (R106). -/
def execXorT2I (d : Dst) (a : Src) (imm : BitVec 16) (s : State) : Host.Outcome State Fault Refusal :=
  eachCtx s fun c => c.dst d ((c.src a) ^^^ (imm.signExtend 64))

/-- XOR with a 32-bit immediate (R106). -/
def execXorT4 (d : Dst) (a : Src) (imm : BitVec 32) (s : State) : Host.Outcome State Fault Refusal :=
  eachCtx s fun c => c.dst d ((c.src a) ^^^ (imm.signExtend 64))

/-- ANDN, register form (R106). -/
def execAndnT1 (d : Dst) (a b : Src) (s : State) : Host.Outcome State Fault Refusal :=
  eachCtx s fun c => c.dst d (andn64 (c.src a) (c.src b))

/-- ANDN with a 16-bit immediate (R106). -/
def execAndnT2I (d : Dst) (a : Src) (imm : BitVec 16) (s : State) : Host.Outcome State Fault Refusal :=
  eachCtx s fun c => c.dst d (andn64 (c.src a) (imm.signExtend 64))

/-- ANDN with a 32-bit immediate (R106). -/
def execAndnT4 (d : Dst) (a : Src) (imm : BitVec 32) (s : State) : Host.Outcome State Fault Refusal :=
  eachCtx s fun c => c.dst d (andn64 (c.src a) (imm.signExtend 64))

/-- SHL, register form (R106). -/
def execShlT1 (d : Dst) (a b : Src) (s : State) : Host.Outcome State Fault Refusal :=
  eachCtx s fun c => c.dst d (shl64 (c.src a) (c.src b))

/-- SHL with a 16-bit immediate (R106). -/
def execShlT2I (d : Dst) (a : Src) (imm : BitVec 16) (s : State) : Host.Outcome State Fault Refusal :=
  eachCtx s fun c => c.dst d (shl64 (c.src a) (imm.signExtend 64))

/-- SHL with a 32-bit immediate (R106). -/
def execShlT4 (d : Dst) (a : Src) (imm : BitVec 32) (s : State) : Host.Outcome State Fault Refusal :=
  eachCtx s fun c => c.dst d (shl64 (c.src a) (imm.signExtend 64))

/-- SHR, register form (R106). -/
def execShrT1 (d : Dst) (a b : Src) (s : State) : Host.Outcome State Fault Refusal :=
  eachCtx s fun c => c.dst d (shr64 (c.src a) (c.src b))

/-- SHR with a 16-bit immediate (R106). -/
def execShrT2I (d : Dst) (a : Src) (imm : BitVec 16) (s : State) : Host.Outcome State Fault Refusal :=
  eachCtx s fun c => c.dst d (shr64 (c.src a) (imm.signExtend 64))

/-- SHR with a 32-bit immediate (R106). -/
def execShrT4 (d : Dst) (a : Src) (imm : BitVec 32) (s : State) : Host.Outcome State Fault Refusal :=
  eachCtx s fun c => c.dst d (shr64 (c.src a) (imm.signExtend 64))

/-- SHA, register form (R106). -/
def execShaT1 (d : Dst) (a b : Src) (s : State) : Host.Outcome State Fault Refusal :=
  eachCtx s fun c => c.dst d (sha64 (c.src a) (c.src b))

/-- SHA with a 16-bit immediate (R106). -/
def execShaT2I (d : Dst) (a : Src) (imm : BitVec 16) (s : State) : Host.Outcome State Fault Refusal :=
  eachCtx s fun c => c.dst d (sha64 (c.src a) (imm.signExtend 64))

/-- SHA with a 32-bit immediate (R106). -/
def execShaT4 (d : Dst) (a : Src) (imm : BitVec 32) (s : State) : Host.Outcome State Fault Refusal :=
  eachCtx s fun c => c.dst d (sha64 (c.src a) (imm.signExtend 64))

/-- ROL, register form (R106). -/
def execRolT1 (d : Dst) (a b : Src) (s : State) : Host.Outcome State Fault Refusal :=
  eachCtx s fun c => c.dst d (rol64 (c.src a) (c.src b))

/-- ROL with a 16-bit immediate (R106). -/
def execRolT2I (d : Dst) (a : Src) (imm : BitVec 16) (s : State) : Host.Outcome State Fault Refusal :=
  eachCtx s fun c => c.dst d (rol64 (c.src a) (imm.signExtend 64))

/-- ROL with a 32-bit immediate (R106). -/
def execRolT4 (d : Dst) (a : Src) (imm : BitVec 32) (s : State) : Host.Outcome State Fault Refusal :=
  eachCtx s fun c => c.dst d (rol64 (c.src a) (imm.signExtend 64))

/-- MIN, register form (R106). -/
def execMinT1 (d : Dst) (a b : Src) (n : Bool) (s : State) : Host.Outcome State Fault Refusal :=
  eachCtx s fun c => c.pick false n d (c.src a) (c.src b)

/-- MIN with a 16-bit immediate (R106). -/
def execMinT2I (d : Dst) (a : Src) (imm : BitVec 16) (n : Bool) (s : State) : Host.Outcome State Fault Refusal :=
  eachCtx s fun c => c.pick false n d (c.src a) (imm.signExtend 64)

/-- MIN with a 32-bit immediate (R106). -/
def execMinT4 (d : Dst) (a : Src) (imm : BitVec 32) (n : Bool) (s : State) : Host.Outcome State Fault Refusal :=
  eachCtx s fun c => c.pick false n d (c.src a) (imm.signExtend 64)

/-- MAX, register form (R106). -/
def execMaxT1 (d : Dst) (a b : Src) (n : Bool) (s : State) : Host.Outcome State Fault Refusal :=
  eachCtx s fun c => c.pick true n d (c.src a) (c.src b)

/-- MAX with a 16-bit immediate (R106). -/
def execMaxT2I (d : Dst) (a : Src) (imm : BitVec 16) (n : Bool) (s : State) : Host.Outcome State Fault Refusal :=
  eachCtx s fun c => c.pick true n d (c.src a) (imm.signExtend 64)

/-- MAX with a 32-bit immediate (R106). -/
def execMaxT4 (d : Dst) (a : Src) (imm : BitVec 32) (n : Bool) (s : State) : Host.Outcome State Fault Refusal :=
  eachCtx s fun c => c.pick true n d (c.src a) (imm.signExtend 64)

/-- CLZ (R108). -/
def execClz (d : Dst) (a : Src) (s : State) : Host.Outcome State Fault Refusal :=
  eachCtx s fun c => c.dst d (BitVec.ofNat 64 (leadingZeros (c.src a) 64))

/-- CTZ (R108). -/
def execCtz (d : Dst) (a : Src) (s : State) : Host.Outcome State Fault Refusal :=
  eachCtx s fun c => c.dst d (BitVec.ofNat 64 (trailingZeros (c.src a) 64 0))

/-- POPC (R108). -/
def execPopc (d : Dst) (a : Src) (s : State) : Host.Outcome State Fault Refusal :=
  eachCtx s fun c => c.dst d (BitVec.ofNat 64 (oneBits (c.src a) 64))

/-- SEL (R109). -/
def execSel (d : Dst) (a b e : Src) (s : State) : Host.Outcome State Fault Refusal :=
  eachCtx s fun c => c.dst d (if c.src a ≠ 0 then c.src b else c.src e)

/-- SETC (R109). -/
def execSetc (cc : ICond) (d : Dst) (a b : Src) (s : State) : Host.Outcome State Fault Refusal :=
  eachCtx s fun c => c.dst d (boolWord (condHolds cc (c.src a) (c.src b)))

/-- MOV (R109). -/
def execMov (d : Dst) (a : Src) (s : State) : Host.Outcome State Fault Refusal :=
  eachCtx s fun c => c.dst d (c.src a)

/-- LI of a 16-bit constant, sign-extended (R110). -/
def execLiT2I (d : Dst) (imm : BitVec 16) (s : State) : Host.Outcome State Fault Refusal :=
  eachCtx s fun c => c.dst d (imm.signExtend 64)

/-- LI of a 64-bit constant (R110). -/
def execLiT4L (d : Dst) (imm : BitVec 64) (s : State) : Host.Outcome State Fault Refusal :=
  eachCtx s fun c => c.dst d imm

/-- EXT (R111). -/
def execExt (d : Dst) (a : Src) (pos len1 : Fin 64) (n : Bool) (s : State) : Host.Outcome State Fault Refusal :=
  eachCtx s fun c => c.dst d (extractField (c.src a) pos len1 n)

/-- INS: the destination is read before any push (R111, R69). -/
def execIns (d : Dst) (a : Src) (pos len1 : Fin 64) (s : State) : Host.Outcome State Fault Refusal :=
  eachCtx s fun c => c.dst d (insertField (c.dstVal d) (c.src a) pos len1)

end Sys2Proof.Machine
end

