-- ==== Sys2Proof/Machine/Branch.lean ====
section
/-! DEFINITION. The control instructions (R118 to R120 of spec/06_scalar.md, R38 to R40 of spec/02_encoding.md). -/

namespace Sys2Proof.Machine

/-- Direct target of a branch at `pc` (R39). -/
def branchTarget (pc : Word) (disp : Int) (idx : Fin 32) : Word :=
  BitVec.ofInt 64 ((pc.toNat / 64 * 64 : Nat) + 64 * disp + (idx.val : Nat))

/-- The contexts of the firing do not agree on a value (R29, R120). -/
def State.diverges {α : Type} [DecidableEq α] (s : State) (w : Nat) (f : Ctx → α) : Bool :=
  (s.members w).any (fun m => decide (f (s.ctx m) ≠ f (s.ctx w)))

/-- The cores of the gang whose outcome is true, one bit each (Table 20.1). -/
def State.outcomes (s : State) (w : Nat) (f : Ctx → Bool) : Nat :=
  (s.members w).foldl (fun a m => if f (s.ctx m) then a + 2 ^ ((m - w) / 4) else a) 0

/-- The gang-divergence fault, raised on all four cores; its notice names the lead core, since the rules do not say which of the four it
names (DESIGN CHOICE, log entry 67; R29, R120). -/
def divergeTrap (detail : Nat) : Trap := { code := 9, cls := 1, detail := detail }

/-- Go to a target. -/
def Ctx.goto (c : Ctx) (t : Word) : Ctx := { c with npc := t }

/-- Remember a link in the core's return predictor, 8 entries (R119; DEDUCED, log entry 13). -/
def Core.pushRet (k : Core) (link : Word) : Core := { k with rpred := (link :: k.rpred).take 8 }

/-- CALL: the link, then the branch (R119). -/
def callOp (s : State) (d : Dst) (disp : Int) (idx : Fin 32) : Host.Outcome State Fault Refusal :=
  let link := (s.ctx s.cur).npc
  eachCtx (s.onCore (coreOf s.cur) (fun k => k.pushRet link)) fun c =>
    (c.dst d c.npc).goto (branchTarget c.pc disp idx)

/-- RET and JMP: every context of a gang must name one target (R120). The fault's detail counts no core: a target is no outcome that is
true (DESIGN CHOICE, log entry 67). -/
def jumpOp (s : State) (a : Src) : Host.Outcome State Fault Refusal :=
  if s.diverges s.cur (fun c => c.src a) then finish s (.error (.trap (divergeTrap 0)))
  else eachCtx s fun c => c.goto (c.src a)

/-- BR with a 16-bit displacement (R119). -/
def execBrT2I (disp : BitVec 16) (idx : Fin 32) (s : State) : Host.Outcome State Fault Refusal :=
  eachCtx s fun c => c.goto (branchTarget c.pc disp.toInt idx)

/-- BR with a 32-bit displacement (R119). -/
def execBrT4 (disp : BitVec 32) (idx : Fin 32) (s : State) : Host.Outcome State Fault Refusal :=
  eachCtx s fun c => c.goto (branchTarget c.pc disp.toInt idx)

/-- BC: taken when the condition holds; a gang must agree (R119, R120). -/
def execBc (cc : ICond) (a b : Src) (disp : BitVec 32) (idx : Fin 32) (s : State) : Host.Outcome State Fault Refusal :=
  let taken := fun (c : Ctx) => condHolds cc (c.src a) (c.src b)
  if s.diverges s.cur taken then finish s (.error (.trap (divergeTrap (s.outcomes s.cur taken))))
  else eachCtx s fun c => if taken c then c.goto (branchTarget c.pc disp.toInt idx) else c

/-- CALL with a 16-bit displacement (R119). -/
def execCallT2I (d : Dst) (disp : BitVec 16) (idx : Fin 32) (s : State) : Host.Outcome State Fault Refusal :=
  callOp s d disp.toInt idx

/-- CALL with a 32-bit displacement (R119). -/
def execCallT4 (d : Dst) (disp : BitVec 32) (idx : Fin 32) (s : State) : Host.Outcome State Fault Refusal :=
  callOp s d disp.toInt idx

/-- RET: as JMP, and it pops the return predictor (R119). -/
def execRet (a : Src) (s : State) : Host.Outcome State Fault Refusal :=
  jumpOp (s.onCore (coreOf s.cur) (fun k => { k with rpred := k.rpred.drop 1 })) a

/-- JMP (R119). -/
def execJmp (a : Src) (s : State) : Host.Outcome State Fault Refusal := jumpOp s a

/-- LOOP: decrement the counter, branch while it is not 0; a gang must agree, and one that does not has written its counters before the
fault (R119, R120). -/
def execLoop (d : Dst) (disp : BitVec 16) (idx : Fin 32) (s : State) : Host.Outcome State Fault Refusal :=
  let taken := fun (c : Ctx) => decide (c.dstVal d - 1 ≠ 0)
  if s.diverges s.cur taken then
    finish ((s.members s.cur).foldl (fun s m => s.onCtx m (fun c => c.dst d (c.dstVal d - 1))) s)
      (.error (.trap (divergeTrap (s.outcomes s.cur taken))))
  else eachCtx s fun c =>
    let c' := c.dst d (c.dstVal d - 1)
    if taken c then c'.goto (branchTarget c.pc disp.toInt idx) else c'

end Sys2Proof.Machine
end

