-- ==== Sys2Proof/Machine/Fence.lean ====
section
/-! DEFINITION. Kills and core fences (R263 to R266 of spec/13_firing.md; R170 of spec/08_matrix.md; R273 of spec/14_engines.md;
R346 of spec/17_objects.md; R384, R385, R391 of spec/20_traps.md). -/

namespace Sys2Proof.Machine

/-! ### Kill (R265) -/

/-- Kill or fence reports of a firing: a notice of code 0x20 for a packet in window slot `i` (R384). -/
def State.killNotice (s : State) (w i : Nat) : State :=
  let c := s.ctx w
  let gc := coreOf w
  let fsyn := fsynOf { code := 0x20, cls := 3, detail := c.cycles } c.done1 c.gang (w % 4) c.supv false
  s.faultNotice gc c.part c.supv false c.aid fsyn 0 0 (c.msgIdAt i) (notice6 gc c.noticeSlot i c.nmsg) c.budget

/-- The reports of a kill: one for each consumed packet before the first commit point, else one (R265, R384). -/
def State.killNotices (s : State) (w : Nat) : State :=
  let n := if (s.ctx w).done1 then 1 else max 1 (s.ctx w).msgs.length
  (List.range n).foldl (fun s i => s.killNotice w i) s

/-- Something a killed firing has outstanding: a load, a cell operation, a withdrawal, or an epilogue that the array cannot
write (R265, R170). -/
def State.killBusy (s : State) (w : Nat) : Bool :=
  (s.members w).any (fun m =>
    let c := s.ctx m
    c.loads.any (fun l => decide (l.org.fid = c.fid)) ||
    s.clus.any (fun x =>
      x.2.hsu.any (fun o => decide (o.org.w = m) && decide (o.org.fid = c.fid)) ||
      x.2.withdraw.any (fun y => decide (y = (m, c.fid))) ||
      x.2.lift.any (fun e => decide (e.w = m) && decide (e.fid = c.fid) && e.msg.isNone && e.eng.isNone)) ||
    (match s.readyCmd (cluOf (coreOf m)) with
     | some k => decide (k.org.w = m) && decide (k.org.fid = c.fid) && (match k.op with | .epi .. => true | _ => false)
     | none => false))

/-- Begin a kill: issue stops, the lease ends, a lift-line entry is withdrawn. -/
def State.killStart (s : State) (w : Nat) : State :=
  (s.members w).foldl (fun s m => (s.askWithdraw m).onCtx m (fun c => { c with phase := .killing, xlate := [] })) (s.dropLease w)

/-- End a killed firing: its packets are dropped, and its actor is Idle. -/
def State.killEnd (s : State) (w : Nat) : State :=
  let c := s.ctx w
  let s := s.killNotices w
  let s := if c.kind = .actor then s.mbRelease (coreOf w) c.slot else s
  (s.bumpCore (coreOf w) 0x03).cutShort w

/-- KILL_TIMER: the firing that leads at context `State.sel` has reached T_kill: the kill begins behind everything else of that cycle,
among it a trap or a FIN (R265, R386), and ends once nothing of the firing is outstanding. A parked firing has its counter stopped, and a
FIN that has issued ends it normally. -/
def execKillTimer (s : State) : Host.Outcome State Fault Refusal :=
  let w := s.sel
  let c := s.ctx w
  if !s.leads w || decide (c.phase = .parked) || c.owed.isSome || decide (c.cycles ≤ c.tKill) then notEnabled
  else if c.phase ≠ .killing then .next (s.killStart w)
  else if s.killBusy w then notEnabled
  else .next (s.killEnd w)

/-! ### Core fence (R266) -/

/-- Actors of a core that a fence evicts. -/
def State.evictees (s : State) (gc : Nat) : List Nat := ((s.core gc).sched.filter (fun x => decide (x.2.st ≠ .absent))).map (fun x => x.1)

/-- A core fence comes before every other event of its cycle on an actor or a counter: none of the core has had another yet (R255, R368). -/
def State.fenceFirst (s : State) (gc : Nat) : Bool :=
  !((s.evictees gc).any (fun slot => s.late gc slot evFence) ||
    (s.core gc).land.any (fun x => decide (x.2.last = s.now + 1) || decide (x.2.offAt = some s.now)))

/-- The fence of a gang's core `w / 4` ends the gang firing that context `lead` leads on another core: the notice names the core that
was fenced and goes to the lead core's supervisor (R29, R80; the code is DEDUCED, log entry 62). -/
def State.fenceGang (s : State) (w lead : Nat) : State :=
  let c := s.ctx lead
  let gc := coreOf lead
  let fsyn := fsynOf { code := 0x21, cls := 3, detail := (s.evictees (coreOf w)).length, gcore := (s.ctx w).gidx } c.done1 true (w % 4) c.supv false
  let n := if c.done1 then 1 else max 1 c.msgs.length
  (List.range n).foldl (fun s i =>
    s.faultNotice gc c.part c.supv false c.aid fsyn 0 0 (c.msgIdAt i) (notice6 gc c.slot i c.nmsg) 0) s

/-- Every firing of a core ends, with its unpublished effects discarded. -/
def State.fenceFirings (s : State) (gc : Nat) : State :=
  [0, 1, 2, 3].foldl (fun s x =>
    let w := 4 * gc + x
    let c := s.ctx w
    if c.kind = .none then s
    else
      let lead := w - 4 * c.gidx
      let s := (s.members lead).foldl (fun s m => s.askWithdraw m) s
      let s := if c.gidx = 0 then s else s.fenceGang w lead
      let s := if c.kind = .actor ∧ c.done1 = false then s.mbRelease (coreOf lead) c.slot else s
      s.cutShort lead) s

/-- Packets still at the core's network interface go with its send buffers; those in the network go on (R266). -/
def State.fenceNet (s : State) (gc : Nat) : State :=
  let mine := fun (e : NetPkt) => match e.w with | some w => decide (coreOf w = gc) | none => false
  let s := { s with net := (s.net.filter (fun e => !mine e || decide (e.st = .flying) || decide (e.st = .accepted))).map (fun e =>
    if mine e then { e with w := none } else e) }
  [0, 1, 2, 3].foldl (fun s x => s.onCtx (4 * gc + x) (fun c => { c with slots := List.replicate 8 .free, written := [] })) s

/-- Held ACTIVATEs bounce to their senders with reason 8. -/
def State.fenceActs (s : State) (gc : Nat) : State :=
  let q := (s.core gc).actq
  q.foldl (fun s a =>
    let e : NetPkt := { uid := s.uid, core := a.core, part := a.part, w := none, pair := none, p := a.p, tries := 0, st := .flying,
                        redir := false, gate := {}, nq := false, host := a.host }
    s.fresh.sendBounce e 8) (s.onCore gc (fun k => { k with actq := [] }))

/-- Evict one actor of a fenced core: its entry is moving until its commands are complete, then it is saved (R169). The detail of its
notice counts the evicted actors (Table 20.1); that layout has no field for the cycle counter of R378 (DEDUCED, log entry 62). -/
def State.fenceActor (s : State) (gc slot n : Nat) : State :=
  let h := s.handleOf gc slot
  let part := s.ownerOf gc
  let fsyn := fsynOf { code := 0x21, cls := 3, detail := n } false false 0 false false
  let s := s.faultNotice gc part true false h fsyn 0 0 0 (notice6 gc slot 0 0) 0
  if (s.sched gc slot).st = .admitting then (s.setSched gc slot {}).setPlace (modOf gc) part h 3
  else
    let s := (s.setSched gc slot { st := .moving }).setPlace (modOf gc) part h 2
    if s.saveWaits gc slot then s else s.saveActor gc slot

/-- Evict every actor of a fenced core, with a notice for each; a core without actors still reports (R266, R384). -/
def State.fenceActors (s : State) (gc : Nat) : State :=
  let l := s.evictees gc
  if l = [] then
    s.faultNotice gc (s.ownerOf gc) true false 0 (fsynOf { code := 0x21, cls := 3 } false false 0 false false) 0 0 0 (notice6 gc 0 0 0) 0
  else l.foldl (fun s slot => s.fenceActor gc slot l.length) s

/-- The directories drop a core from the sharers of every line (R182). -/
def State.dropCore (s : State) (gc : Nat) : State :=
  s.clus.foldl (fun s k => k.2.dir.foldl (fun s x => s.dropSharers k.1 x.1 (fun g => decide (g = gc))) s) s

/-- What a fence resets in the core and its quad and drops elsewhere on its behalf (R80, R266, R273, R368; Tables 4.1, 15.1). -/
def State.fenceReset (s : State) (gc : Nat) : State :=
  let s := s.dropCore gc
  let s := s.onCore gc (fun k =>
    { k with
      bfmt := [], sctl := 0, bud := [], l1 := [], plc := [], plcPool := [], deque := [], poolRetry := []
      sat := k.sat.filter (fun x => decide (x.2.ctx = none) && decide ((FMap.get {} k.sched x.2.slot).st = .moving))
      stealBusy := none, stealPkt := none, fenced := true
      land := FMap.mapVal (fun _ (r : LandRec) => { r with arm := false, dlAt := none, offAt := none }) k.land })
  let s := [0, 1, 2, 3].foldl (fun s i => s.onCore (leadOf gc + i) (fun k =>
    { k with sctl := BitVec.ofNat 64 (setBits k.sctl.toNat 0 2 0) })) s
  { s with engines := s.engines.filter (fun e => !(e.held && decide (coreOf e.org.w = gc))) }

/-- A core fence (R266). -/
def State.coreFence (s : State) (gc : Nat) : State :=
  ((((s.fenceFirings gc).fenceNet gc).fenceActs gc).fenceActors gc).fenceReset gc

/-- FENCE_TIMER: the firing that leads at context `State.sel` has reached T_fence before a kill was complete: its core is fenced
(R266). It comes before every other event of its cycle (R255, R386). -/
def execFenceTimer (s : State) : Host.Outcome State Fault Refusal :=
  if s.fenceDue s.sel then .next (s.coreFence (coreOf s.sel)) else notEnabled

/-! ### Stalled epilogues (R170) -/

/-- Address of the first byte of an MEPI. -/
def MOp.destVa : MOp → Nat
  | .epi _ _ _ dst .. => dst
  | _ => 0

/-- EPILOGUE_STALL_FENCE: the MEPI that the array of cluster `State.sel` cannot write has stalled for the T_fence of its budget
class: it is dropped, its tile is saved as zeros, and the core of its context is fenced (R170). An inbox that it leaves empty counts as idle
from now on (R407). -/
def execEpilogueStallFence (s : State) : Host.Outcome State Fault Refusal :=
  let cl := s.sel
  match s.readyCmd cl with
  | none => notEnabled
  | some m =>
    match m.op.tile?, (match m.op with | .epi .. => true | _ => false) with
    | some t, true =>
      if decide ((s.clu cl).stallT < m.tFence) || !s.fenceFirst (coreOf m.org.w) then notEnabled
      else
        let gc := coreOf m.org.w
        let s := s.onClu cl (fun k =>
          let r := k.inbox.filter (fun x => decide (x.uid ≠ m.uid))
          { k with inbox := r, leaveIdle := if r = [] then s.now else k.leaveIdle, tiles := FMap.erase k.tiles t, zeroT := t :: k.zeroT
                   stallT := 0 })
        let s := s.onCtx m.org.w (fun c => if c.fid = m.org.fid ∧ c.kind ≠ .none then { c with ocTl := c.ocTl - 1 } else c)
        let x : Trap := { code := 0x26, cls := 3, detail := t + m.tag * 2 ^ 16, va := BitVec.ofNat 64 m.op.destVa }
        .next ((s.coreFence gc).lateFault m.org true x 0)
    | _, _ => notEnabled

/-! ### Fences by Patrol (R391, R406) -/

/-- The oldest request of a code that module `m`'s Patrol holds, with its index. -/
def State.patrolAsk (s : State) (m code : Nat) : Option (Nat × PatEnt) :=
  match (s.mod m).patrol.findIdx? (fun e => e.asks && decide (e.code = code)) with
  | some i => ((s.mod m).patrol[i]?).map (fun e => (i, e))
  | none => none

/-- A request leaves Patrol's inbox. -/
def State.patrolDone (s : State) (m i : Nat) : State := s.onMod m (fun k => { k with patrol := k.patrol.eraseIdx i })

/-- A request may concern a core: one of the sender's partition, or any for the host on flow 0. -/
def State.patrolMay (s : State) (e : PatEnt) (gc : Nat) : Bool := e.host.isSome || decide (s.ownerOf gc = e.part)

/-- FENCE_CORE: Patrol of module `State.sel` fences the core that its oldest request of code 4 names (R391, R406). -/
def execFenceCore (s : State) : Host.Outcome State Fault Refusal :=
  let m := s.sel
  match s.patrolAsk m 4 with
  | none => notEnabled
  | some (i, e) =>
    let gc := m * 2048 + bits (Pkt.word e.p 3) 0 11
    let t := s.patrolDone m i
    if !s.patrolMay e gc then .next (t.patrolReply m e 1 0)
    else if !s.fenceFirst gc then notEnabled
    else .next ((t.coreFence gc).patrolReply m e 0 0)

end Sys2Proof.Machine
end

