-- ==== Sys2Proof/Machine/Float.lean ====
section
/-! DEFINITION. The scalar floating-point instructions (R112 to R117 of spec/06_scalar.md). -/

namespace Sys2Proof.Machine

/-- A floating-point source of a type: the low bits of the register (R104). -/
def Ctx.fsrc (c : Ctx) (t : FTy) (a : Src) : Nat := (c.src a).toNat % 2 ^ t.ty.width

/-- Write a floating-point result, zero-extended, and its flags (R104, R93). -/
def Ctx.fresult (c : Ctx) (t : FTy) (d : Dst) (r : Nat × Nat) : Ctx := c.result d (extend t.ty r.1) r.2

/-- A two-operand form under the rounding mode of the context (R112). -/
def Ctx.fbin (c : Ctx) (f : Ty → RM → Nat → Nat → Nat × Nat) (t : FTy) (d : Dst) (a b : Src) : Ctx :=
  c.fresult t d (f t.ty c.rm (c.fsrc t a) (c.fsrc t b))

/-- FADD (R112). -/
def execFadd (t : FTy) (d : Dst) (a b : Src) (s : State) : Host.Outcome State Fault Refusal :=
  eachCtx s fun c => c.fbin fAdd t d a b

/-- FSUB (R112). -/
def execFsub (t : FTy) (d : Dst) (a b : Src) (s : State) : Host.Outcome State Fault Refusal :=
  eachCtx s fun c => c.fbin fSub t d a b

/-- FMUL (R112). -/
def execFmul (t : FTy) (d : Dst) (a b : Src) (s : State) : Host.Outcome State Fault Refusal :=
  eachCtx s fun c => c.fbin fMul t d a b

/-- FMA: one rounding (R112). -/
def execFma (t : FTy) (d : Dst) (a b e : Src) (s : State) : Host.Outcome State Fault Refusal :=
  eachCtx s fun c => c.fresult t d (fFma t.ty c.rm (c.fsrc t a) (c.fsrc t b) (c.fsrc t e))

/-- FDIV (R112). -/
def execFdiv (t : FTy) (d : Dst) (a b : Src) (s : State) : Host.Outcome State Fault Refusal :=
  eachCtx s fun c => c.fbin fDiv t d a b

/-- FSQRT (R112). -/
def execFsqrt (t : FTy) (d : Dst) (a : Src) (s : State) : Host.Outcome State Fault Refusal :=
  eachCtx s fun c => c.fresult t d (fSqrt t.ty c.rm (c.fsrc t a))

/-- FMIN (R114). -/
def execFmin (t : FTy) (d : Dst) (a b : Src) (s : State) : Host.Outcome State Fault Refusal :=
  eachCtx s fun c => c.fresult t d (fMinMax t.ty false (c.fsrc t a) (c.fsrc t b))

/-- FMAX (R114). -/
def execFmax (t : FTy) (d : Dst) (a b : Src) (s : State) : Host.Outcome State Fault Refusal :=
  eachCtx s fun c => c.fresult t d (fMinMax t.ty true (c.fsrc t a) (c.fsrc t b))

/-- FSETC (R115). -/
def execFsetc (t : FTy) (cc : FCond) (d : Dst) (a b : Src) (s : State) : Host.Outcome State Fault Refusal :=
  eachCtx s fun c =>
    let r := fCompare cc (fromFormat (c.fsrc t a) t.ty 0) (fromFormat (c.fsrc t b) t.ty 0)
    c.result d (boolWord r.1) r.2

/-- FCVT between any two types (R116, R97). -/
def execFcvt (dt st : Ty) (d : Dst) (a : Src) (s : State) : Host.Outcome State Fault Refusal :=
  eachCtx s fun c =>
    let r := convert ((c.src a).toNat % 2 ^ st.width) st 0 dt 0 c.rm
    c.result d (extend dt r.1) r.2

/-- FCLASS (R117). -/
def execFclass (t : FTy) (d : Dst) (a : Src) (s : State) : Host.Outcome State Fault Refusal :=
  eachCtx s fun c => c.dst d (BitVec.ofNat 64 (fClass t.ty (c.fsrc t a)))

end Sys2Proof.Machine
end

