-- ==== Sys2Proof/Machine/Host.lean ====
section
/-! DEFINITION. The host port: frames from the host, acknowledgements and timers of flows, and the host's packets to Patrol (R395 to
R401, R406 of spec/21_outside.md). -/

namespace Sys2Proof.Machine

/-! ### Frames (R395 to R397) -/

/-- The port takes a frame at all (R395). -/
def State.frameOk (s : State) (m : Nat) (f : Frame) : Bool :=
  decide (f.dstMac = (s.mod m).mac) && decide (f.etherType = 0x88B5) && decide (f.size ≤ 9216)

/-- A frame that the port discards is counted (R395). -/
def State.frameBad (s : State) (m : Nat) : State := s.onMod m (fun k => { k with portStat := k.portStat + 1 })

/-- `a` comes before `b` modulo 2^32. -/
def seqBefore (a b : Nat) : Bool := decide (a % 2 ^ 32 ≠ b % 2 ^ 32) && decide ((b + 2 ^ 32 - a % 2 ^ 32) % 2 ^ 32 < 2 ^ 31)

/-- Acknowledge what a frame's ack field covers, and take its window (R398). -/
def State.ackTo (s : State) (m f ack window : Nat) : State :=
  let x := s.flow m f
  let left := x.unack.filter (fun e => seqBefore ack ((e.1 + e.2.length) % 2 ^ 32))
  let moved := decide (left.length < x.unack.length)
  let x := { x with unack := left, window := window, tries := if moved then 0 else x.tries, sentAt := if moved then s.now else x.sentAt }
  (s.setFlow m f x).flushPend m f x.pend

/-- Resend every unacknowledged segment, in order (R398). -/
def State.resend (s : State) (m f : Nat) : State :=
  let s := ((s.flow m f).unack).foldl (fun s e => s.pushFrame m f 0 e.1 e.2) s
  s.setFlow m f { s.flow m f with sentAt := s.now }

/-! ### Host segments (R399, R400) -/

/-- Name of the pair of a flow and a mailbox (R235). -/
def flowKey (m f : Nat) : Nat := 2 ^ 62 + m * 4096 + f

/-- Fields of a host packet's header that must be 0 (Table 12.2). -/
def hostHeadOk (p : Pkt) (length : Nat) : Bool :=
  decide (bits (Pkt.word p 0) 61 3 = 0) && decide (bits (Pkt.word p 0) 10 2 = 0) && decide (bits (Pkt.word p 1) 26 6 = 0) &&
  (decide (Pkt.kind p = 0) || decide (Pkt.kind p = 2) || decide (Pkt.kind p = 9)) &&
  decide (bits (Pkt.word p 0) 0 4 ≠ 1) && decide (16 * Pkt.units p = length) && (decide (Pkt.kind p ≠ 2) || decide (Pkt.units p = 3))

/-- The packet with HOST = 1 and without the flags that only hardware sets. -/
def Pkt.fromHost (p : Pkt) : Pkt :=
  match p with
  | w0 :: r => BitVec.ofNat 64 (setBits (setBits w0.toNat 60 1 1) 57 3 0) :: r
  | [] => []

/-- Why a device packet of a flow is not sent, if it is not (R400). -/
def State.hostPktBad (s : State) (m f part : Nat) (p : Pkt) (length : Nat) : Option Nat :=
  let ent := s.aptRead m part (Pkt.sender p)
  if !hostHeadOk p length then some 2
  else if !aptHost ent || decide (hostFlow ent ≠ f) then some 3
  else if Pkt.kind p = 2 ∧ s.ownerOf (actTarget p) ≠ part then some 8
  else none

/-- Send a packet of a flow into the module (R400). -/
def State.hostSend (s : State) (m f part : Nat) (p : Pkt) : State :=
  let x := s.flow m f
  let p := Pkt.withSeq (Pkt.fromHost p) x.pseq false
  let s := if Pkt.kind p = 9 then s else s.setFlow m f { x with pseq := (x.pseq + 1) % 2 ^ 32 }
  let pair : Option (Nat × Nat) := if Pkt.kind p = 2 then none else some (flowKey m f, boxKey (Pkt.dest p) (Pkt.mb p))
  let y := match pair with | some k => s.newSeq k p | none => (s, p)
  let e : NetPkt := { uid := y.1.uid, core := m * 2048, part := part, w := none, pair := pair, p := y.2, tries := 0, st := .ready,
                      redir := false, gate := {}, nq := false, host := some (m * 4096 + f) }
  { y.1 with net := y.1.net ++ [e], uid := y.1.uid + 1 }

/-- Write a host-data segment at a core's port; landing counters count it, and no race trace sees it (R224, R399). -/
def State.hostPort (s : State) (gc a : Nat) (bs : List Byte) : State :=
  (((s.wrBytes (localPA gc a) bs).heal (localPA gc a) bs.length).grant gc a bs.length reqHost).countPort gc a bs.length

/-- The spans of a range in a flow's partition, with the permission the access needs (R317, R399): or the reason it fails. -/
def State.hostSpans (s : State) (m part va n : Nat) (acc : Access) : Except Nat (List Span) :=
  if 2 ^ 55 < va + n then .error 5
  else go (granules va n)
where
  /-- One span for each granule. -/
  go : List Nat → Except Nat (List Span)
    | [] => .ok []
    | g :: l =>
      match s.walk m part g with
      | .notPresent _ => .error 4
      | .bad _ => .error 5
      | .leaf x =>
        if (x.lacks acc false).isSome then .error 5
        else
          let a := firstIn va g
          match go l with
          | .ok r => .ok ({ va := a, pa := x.phys a, hb := x.hb, len := min (va + n) (g + 2 ^ 16) - a, cls := x.cls } :: r)
          | .error e => .error e

/-- The table reads of a walk by the port, up to its end, as accesses of class S at their homes (R318, R319). -/
def State.walkTouch (s : State) (m part va : Nat) : Nat → Nat → Nat → State
  | 0, _, _ => s
  | n + 1, lvl, base =>
    let a := s.ptAddr m part va lvl base
    let s' := if s.physOk m part false a then s.touchSlice (homeOf a hbPhys) (a / 64) .dflt else s
    match s.walkStep m part va lvl base with
    | .inl _ => s'
    | .inr b => s'.walkTouch m part va n (lvl + 1) b

/-- The walks that the port makes for a range (R318). -/
def State.hostWalks (s : State) (m part va n : Nat) : State :=
  if 2 ^ 55 < va + n then s else (granules va n).foldl (fun s g => s.walkTouch m part g 3 1 0) s

/-- Every byte of some spans may be reached by the host path of a module. -/
def State.hostMay (s : State) (m part : Nat) (write : Bool) (l : List Span) : Bool :=
  l.all (fun x => (List.range x.len).all (fun i => s.devOk m part write (x.pa + i)))

/-- The error segment of a failing segment (Table 21.3). -/
def errorSeg (tag : BitVec 32) (seq reason : Nat) : Seg :=
  { stype := 5, tag := tag, rsvOk := true, length := 1, addr := BitVec.ofNat 64 (seq % 2 ^ 32 + reason * 2 ^ 32), body := [] }

/-- The effect of one host segment: the state, and the reason of an error (R399, R400). -/
def State.segEffect (s : State) (m f part : Nat) (g : Seg) : State × Option Nat :=
  if !g.rsvOk || decide (3 < g.stype) || decide (g.length = 0) || decide (8192 < g.length) ||
      (decide (g.stype = 0) && (decide (g.addr ≠ 0) || decide (g.length < 32) || decide (256 < g.length))) ||
      (decide (g.stype ≠ 3) && decide (g.body.length ≠ g.length)) then (s, some 1)
  else match g.stype with
    | 0 =>
      let p := wordsOf (g.length / 8) g.body
      (match s.hostPktBad m f part p g.length with
      | some r => (s, some r)
      | none => (s.hostSend m f part p, none))
    | 1 =>
      let v := g.addr.toNat
      let gc := bits v 31 8 * 2048 + bits v 20 11
      if 2 ^ 39 ≤ v then (s, some 1)
      else if !s.there m (gc / 2048) || decide (s.ownerOf gc ≠ part) || decide ((s.core gc).sysBase < v % 2 ^ 20 + g.length) then
        (s, some 5)
      else (s.hostPort gc (v % 2 ^ 20) g.body, none)
    | 2 =>
      let s := s.hostWalks m part g.addr.toNat g.length
      (match s.hostSpans m part g.addr.toNat g.length .write with
      | .error r => (s, some r)
      | .ok sp =>
        if !s.hostMay m part true sp then (s, some 5)
        else
          let r := s.writeSpans reqHost (m * 2048) part .dflt sp 0 g.body
          (r.s, if r.skip.isSome then some 6 else none))
    | _ =>
      let s := s.hostWalks m part g.addr.toNat g.length
      (match s.hostSpans m part g.addr.toNat g.length .read with
      | .error r => (s, some r)
      | .ok sp =>
        let r := s.readSpans m part sp 0 g.length
        let s := s.touchRead .dflt sp 0 g.length
        if r.2 then (s, some 5)
        else if r.1.any (fun x => s.poisoned x.2) then (s, some 7)
        else (s.queueSeg m f { stype := 4, tag := g.tag, rsvOk := true, length := g.length, addr := g.addr,
                               body := r.1.map (fun x => x.1) }, none))

/-- The segments of an accepted frame take effect in order; one that fails is answered (R399, R400). -/
def State.segsDo (s : State) (m f part : Nat) : Nat → List Seg → State
  | _, [] => s
  | seq, g :: l =>
    let r := s.segEffect m f part g
    let s := match r.2 with
      | some e => r.1.queueSeg m f (errorSeg (if g.stype = 3 then g.tag else 0) seq e)
      | none => r.1
    s.segsDo m f part ((seq + 1) % 2 ^ 32) l

/-! ### The management path: flow 0 (R397, R406) -/

/-- A packet that the host sends on the management path, which is not the wire: Patrol acts on a request, and sends an ACTIVATE as its
own. Recovery mode answers here, and starts no core. -/
def State.manage (s : State) (m : Nat) (p : Pkt) : State :=
  if p.length < 4 ∨ 32 < p.length ∨ hostHeadOk p (8 * p.length) = false then s
  else if Pkt.kind p = 2 then
    if (s.mod m).recovery || s.coreOff (actTarget p) then s
    else
      let q : Pkt := match Pkt.fromHost p with | w0 :: r => (w0 ||| BitVec.ofNat 64 (2 ^ 58)) :: r | [] => []
      let e : NetPkt := { uid := s.uid, core := m * 2048, part := s.ownerOf (actTarget p), w := none, pair := none, p := q, tries := 0,
                          st := .ready, redir := false, gate := {}, nq := false, host := some (m * 4096) }
      { s with net := s.net ++ [e], uid := s.uid + 1 }
  else s.patrolArrive m { core := m * 2048, part := 0xFF, host := some (m * 4096), p := Pkt.fromHost p }

/-! ### The frame events (R398) -/

/-- A frame that the port takes and no flow does: flow 0 is never on the wire, and neither a closed flow nor a module in recovery takes one
(R397, R405). -/
def State.noFlow (s : State) (m : Nat) (f : Frame) : Bool := decide (f.flow = 0) || (s.mod m).recovery || !(s.flow m f.flow).open_

/-- DATA_FRAME: a data frame, whose bytes are `b`, reaches the host port of module `m`; or one whose type is reserved, which is counted and
discarded (DESIGN CHOICE, log entry 48). -/
def execDataFrame (m : Nat) (b : List Byte) (s : State) : Host.Outcome State Fault Refusal :=
  let f := readFrame b
  if !s.frameOk m f then .next (s.frameBad m)
  else if f.type = 1 ∨ f.type = 2 then notEnabled
  else if s.noFlow m f then .next s
  else if !f.ok || decide (9000 < 16 + (f.segs.map segBytes).sum) then .next (s.frameBad m)
  else
    let s := s.ackTo m f.flow f.ack.toNat f.window
    let x := s.flow m f.flow
    let seq := f.seq.toNat
    if seq = x.rxNext then
      let s := s.setFlow m f.flow { x with rxNext := (seq + f.segs.length) % 2 ^ 32
                                           ackDue := if x.ackDue.isSome then x.ackDue else some (s.now + 4000) }
      .next (s.segsDo m f.flow x.part seq f.segs)
    else if seqBefore seq x.rxNext then .next (s.pushFrame m f.flow 1 x.txNext [])
    else .next (s.pushFrame m f.flow 2 x.txNext [])

/-- ACK_FRAME: an ack frame reaches the host port of module `m`. -/
def execAckFrame (m : Nat) (b : List Byte) (s : State) : Host.Outcome State Fault Refusal :=
  let f := readFrame b
  if !s.frameOk m f then .next (s.frameBad m)
  else if f.type ≠ 1 then notEnabled
  else if s.noFlow m f then .next s
  else if !f.ok then .next (s.frameBad m)
  else .next (s.ackTo m f.flow f.ack.toNat f.window)

/-- NAK_FRAME: a nak frame reaches the host port of module `m`: everything from the number it carries is sent again. -/
def execNakFrame (m : Nat) (b : List Byte) (s : State) : Host.Outcome State Fault Refusal :=
  let f := readFrame b
  if !s.frameOk m f then .next (s.frameBad m)
  else if f.type ≠ 2 then notEnabled
  else if s.noFlow m f then .next s
  else if !f.ok then .next (s.frameBad m)
  else .next ((s.ackTo m f.flow f.ack.toNat f.window).resend m f.flow)

/-- A packet waits at its network interface for a flow. -/
def State.waitsFlow (s : State) (m f : Nat) (e : NetPkt) : Bool :=
  let ent := s.aptRead e.home e.part (Pkt.dest e.p)
  decide (e.home = m) && !e.redir && decide (Pkt.kind e.p ≠ 2) && aptHost ent && decide (hostFlow ent = f) && decide (e.st ≠ .accepted)

/-- A flow fails: it closes, its segments are discarded, what waits for it bounces with reason 4, and Patrol is told (R398). -/
def State.failFlow (s : State) (m f : Nat) : State :=
  let waiting := s.net.filter (fun e => s.waitsFlow m f e)
  let s := s.setFlow m f { s.flow m f with open_ := false, unack := [], pend := [], ackDue := none, tries := 0 }
  let s := waiting.foldl (fun s e =>
    if (s.pkt e.uid).isNone then s else if e.notice then s.setPkt e.redirected else s.bounce e 4) s
  let p : Pkt := [headWord 7 4 0 0 true false false, 0, BitVec.ofNat 64 f, 0, 0, 0, 0, 0]
  s.onMod m (fun k => { k with patrol := k.patrol ++ [{ core := m * 2048, part := 0xFF, host := some (m * 4096), p := p }] })

/-- RETRANSMIT_TIMEOUT: a flow has gone its timeout without progress; the sixteenth in a row fails it (R398). -/
def execRetransmitTimeout (m flow : Nat) (s : State) : Host.Outcome State Fault Refusal :=
  let x := s.flow m flow
  if !x.open_ || x.unack.isEmpty || decide (s.now < x.sentAt + x.timeout) then notEnabled
  else if x.tries + 1 = 16 then .next (s.failFlow m flow)
  else .next ((s.setFlow m flow { x with tries := x.tries + 1 }).resend m flow)

/-- ACK_TIMER: 4,000 cycles have passed with an acknowledgement due and no data to carry it (R398). -/
def execAckTimer (m flow : Nat) (s : State) : Host.Outcome State Fault Refusal :=
  let x := s.flow m flow
  match x.ackDue with
  | none => notEnabled
  | some t => if !x.open_ || decide (s.now < t) then notEnabled else .next (s.pushFrame m flow 1 x.txNext [])

/-- FLOW_OPEN: Patrol opens a flow, with the default timeout if it gives none (R397). -/
def execFlowOpen (m flow part : Nat) (mac : BitVec 48) (timeout : Option Nat) (s : State) : Host.Outcome State Fault Refusal :=
  let f : FlowRec := { flow := flow, part := part, mac := mac, timeout := timeout }
  if (s.flow m flow).open_ || !flowRecOk f then notEnabled else .next (s.setFlow m flow (flowOpened f))

/-- FLOW_CLOSE: Patrol closes a flow (R397). -/
def execFlowClose (m flow : Nat) (s : State) : Host.Outcome State Fault Refusal :=
  if !(s.flow m flow).open_ then notEnabled
  else .next (s.setFlow m flow { s.flow m flow with open_ := false, unack := [], pend := [], ackDue := none, tries := 0 })

end Sys2Proof.Machine
end

