-- ==== Sys2Proof/Machine/Patrol.lean ====
section
/-! DEFINITION. Patrol and what it writes: boot, the core map, the Partition Table, performance counters, quotes, the control
words of slices, and detected soft errors (R82, R150, R187, R307, R320, R343, R344, R379, R392, R405, R406). -/

namespace Sys2Proof.Machine

/-! ### MODULE_RESET: the boot of a module (R405) -/

/-- The image is signed under the fused root key. -/
def imageOk (i : SignedImage) : Bool := Config.ed25519Ok i.body i.sig

/-- An address lies in module `m`. -/
def ofModule (m pa : Nat) : Bool := decide (pa / 2 ^ 44 = m)

/-- Module of the sender that a pair names: a flow, a landing counter of a slice or a core, a core's pool firings, an actor (R235). -/
def senderModule (k : Nat) : Nat :=
  if 2 ^ 62 ≤ k then (k - 2 ^ 62) / 4096
  else if 2 ^ 61 + 2 ^ 32 ≤ k then (k - (2 ^ 61 + 2 ^ 32)) / 512 / 256
  else if 2 ^ 61 ≤ k then (k - 2 ^ 61) / 512 / 2048
  else if 2 ^ 60 ≤ k then (k - 2 ^ 60) / 2048
  else k / 2 ^ 35

/-- The pod without anything that module `m` held or had in flight (R405 step 5, Table 9.1). -/
def State.wipe (s : State) (m : Nat) : State :=
  let core := fun (gc : Nat) => decide (modOf gc = m)
  { s with
    mem := s.mem.filter (fun c => !ofModule m c.1)
    poison := s.poison.filter (fun l => !ofModule m (l * 64))
    badWords := s.badWords.filter (fun k => !ofModule m (k * 8))
    tags := s.tags.filter (fun x => !ofModule m (x.1 * 16))
    ahead := s.ahead.filter (fun x => !ofModule m (x.1 * 16))
    ctxs := s.ctxs.filter (fun x => !core (x.1 / 4))
    cores := s.cores.filter (fun x => !core x.1)
    clus := s.clus.filter (fun x => decide (x.1 / 256 ≠ m))
    dies := s.dies.filter (fun x => decide (x.1 / 8 ≠ m))
    mods := FMap.erase s.mods m
    ovf := s.ovf.filter (fun x => decide (x.1 / 16 ≠ m))
    pbounce := s.pbounce.filter (fun x => decide (senderModule x.1 ≠ m))
    wq := s.wq.filter (fun e => !core (coreOf e.org.w))
    net := s.net.filter (fun e => !core e.core)
    results := s.results.filter (fun r => !core (coreOf r.w))
    engines := s.engines.filter (fun e => !core (coreOf e.org.w))
    admits := s.admits.filter (fun a => !core (coreOf a.w)) }

/-- Kernels whose images verify (R405 step 6). -/
def goodKernels (b : BootRec) : List Kernel := b.kernels.filter (fun k => imageOk k.image)

/-- What the boot leaves of the configuration record, and the tables that Patrol writes: the Partition Table with the translation roots, the core map
without the cores disabled at test, the flows and the routes; and the measurements of Patrol and of the images that are loaded. -/
def bootTables (b : BootRec) (m now version : Nat) : Module :=
  { booted := true, mac := b.mac, serial := b.serial, training := b.training, key := Config.identityKey m b.helper
    version := version, bootAt := now, disabled := b.disabled
    measured := Config.sha512 b.patrol.body :: ((goodKernels b).map (fun k => Config.sha512 k.image.body))
    flows := (b.flows.filter flowRecOk).foldl (fun t f => FMap.set t f.flow (flowOpened f)) []
    routes := b.routes.foldl (fun t x => FMap.set t x.1 x.2) []
    parts := b.parts.foldl (fun t x => FMap.set t x.1 x.2) []
    owner := (b.owners.filter (fun x => !b.disabled.contains x.1 && decide (x.1 < 2048) && decide (m < 256))).foldl
      (fun t x => FMap.put 0xFF t x.1 x.2) [] }

/-- Patrol's ACTIVATE of a core (R405 step 7). -/
def bootPacket (m core : Nat) (k : Kernel) : Pkt :=
  [headWord 2 3 0 (core + m * 2 ^ 11) false true false, 0, BitVec.ofNat 64 k.part, k.arg1, k.pc, 0]

/-- Send Patrol's ACTIVATE to one core of a kernel's partition. -/
def State.bootCore (s : State) (m : Nat) (k : Kernel) (core : Nat) : State :=
  let e : NetPkt := { uid := s.uid, core := m * 2048, part := k.part, w := none, pair := none, p := bootPacket m core k, tries := 0,
                      st := .ready, redir := false, gate := {}, nq := false, host := some (m * 4096) }
  { s with net := s.net ++ [e], uid := s.uid + 1 }

/-- Load one kernel and start the cores of its partition. -/
def State.bootKernel (s : State) (m : Nat) (k : Kernel) : State :=
  let s := s.putRange k.base k.image.body
  (((s.mod m).owner.filter (fun x => decide (x.2 = k.part))).map (fun x => x.1)).foldl (fun s c => s.bootCore m k c) s

/-- MODULE_RESET: module `m` is reset and boots from what `b` holds; a failed check leaves it in recovery mode (R405). The module is the
one whose number its configuration record gives. -/
def execModuleReset (m : Nat) (b : BootRec) (s : State) : Host.Outcome State Fault Refusal :=
  let fused := (s.mod m).version
  let s := s.wipe m
  let s := { s with present := if s.present.contains m then s.present else m :: s.present }
  if b.number ≠ m then notEnabled
  else if !imageOk b.patrol || decide (b.version < fused) || !imageOk b.config then
    .next (s.setMod m { recovery := true, version := fused, bootAt := s.now })
  else .next ((goodKernels b).foldl (fun s k => s.bootKernel m k) (s.setMod m (bootTables b m s.now fused)))

/-! ### Tables (R307, R320) -/

/-- Patrol may write the core map entry of a core: it takes a core from its partition only once it is fenced, so that every core of a
partition has been fenced when its Partition Table entry is rewritten (R307, R391; that the core map is where Patrol sees to it is DEDUCED, log entry 52). -/
def State.mayRemap (s : State) (core part : Nat) : Bool :=
  let old := FMap.get 0xFF (s.mod (modOf core)).owner (core % 2048)
  (decide (part < 64) || decide (part = 0xFF)) && (decide (old = 0xFF) || decide (old = part) || (s.core core).fenced)

/-- CORE_MAP_WRITE: Patrol gives a core to a partition, or to none; its L1 TLB is cleared (R320). -/
def execCoreMapWrite (core part : Nat) (s : State) : Host.Outcome State Fault Refusal :=
  if !s.mayRemap core part then notEnabled
  else
    let s := s.onMod (modOf core) (fun k => { k with owner := FMap.put 0xFF k.owner (core % 2048) part })
    .next (s.onCore core (fun k => { k with tlb := [] }))

/-- PARTITION_TABLE_WRITE: Patrol writes an entry of module `m` while no core of the map belongs to it (R307). -/
def execPartitionTableWrite (m p : Nat) (e : PartEntry) (s : State) : Host.Outcome State Fault Refusal :=
  if 64 ≤ p ∨ (s.mod m).owner.any (fun x => decide (x.2 = p)) = true ∨ (e.valid = true ∧ (e.aptsz < 4 ∨ 24 < e.aptsz)) then notEnabled
  else .next (s.onMod m (fun k => { k with parts := FMap.set k.parts p e }))

/-! ### Performance counters (R379, R406) -/

/-- A counter or an enable of a core or a slice. -/
structure PerfId where
  slice : Bool
  unit_ : Nat
  idx   : Nat
deriving DecidableEq, Repr

/-- What a selection number names in module `m`. -/
def perfOf (m n : Nat) : PerfId :=
  let x := Config.perfPlace n
  let sl := decide (x.1 = 1)
  { slice := sl, unit_ := if sl then m * 256 + x.2.1 % 256 else m * 2048 + x.2.1 % 2048, idx := x.2.2 }

/-- Core whose owner may ask for a counter: the core, or core 0 of the cluster. -/
def PerfId.judge (i : PerfId) : Nat := if i.slice then 8 * i.unit_ else i.unit_

/-- Value of a counter, or of an enable (index 16). -/
def State.perfVal (s : State) (i : PerfId) : Nat :=
  if i.slice then
    let k := s.clu i.unit_
    if i.idx = 16 then (if k.penable then 1 else 0) else FMap.get 0 k.pcount (i.idx % 16)
  else
    let k := s.core i.unit_
    if i.idx = 16 then (if bit k.sctl.toNat 3 then 1 else 0) else FMap.get 0 k.pcount (i.idx % 16)

/-- Write a select, or the enable of a slice. PFEN, which enables the counters of a core, is a field of `%sctl`, which only the events of
Table 4.1 write (R68). -/
def State.perfPut (s : State) (i : PerfId) (v : Nat) : State :=
  if i.slice then
    s.onClu i.unit_ (fun k => if i.idx = 16 then { k with penable := bit v 0 } else { k with pselect := FMap.put 0 k.pselect (i.idx % 16) (v % 256) })
  else
    s.onCore i.unit_ (fun k =>
      if i.idx = 16 then k
      else { k with pselect := FMap.put 0 k.pselect (i.idx % 16) (v % 256) })

/-- PERF_COUNTER_READ: Patrol of module `State.sel` answers its oldest request of code 1. -/
def execPerfCounterRead (s : State) : Host.Outcome State Fault Refusal :=
  let m := s.sel
  match s.patrolAsk m 1 with
  | none => notEnabled
  | some (i, e) =>
    let id := perfOf m (Pkt.word e.p 3)
    let s := s.patrolDone m i
    if s.patrolMay e id.judge then .next (s.patrolReply m e 0 (BitVec.ofNat 64 (s.perfVal id))) else .next (s.patrolReply m e 1 0)

/-- PERF_COUNTER_WRITE: Patrol of module `State.sel` carries out its oldest request of code 2. -/
def execPerfCounterWrite (s : State) : Host.Outcome State Fault Refusal :=
  let m := s.sel
  match s.patrolAsk m 2 with
  | none => notEnabled
  | some (i, e) =>
    let id := perfOf m (bits (Pkt.word e.p 3) 0 16)
    let s := s.patrolDone m i
    if s.patrolMay e id.judge then .next ((s.perfPut id (bits (Pkt.word e.p 3) 16 48)).patrolReply m e 0 0)
    else .next (s.patrolReply m e 1 0)

/-! ### Quotes (R406) -/

/-- The bytes that a quote of module `m` signs: nonce, module, serial number, measurements. -/
def State.quoteBody (s : State) (m : Nat) (nonce : Word) : List Byte :=
  leBytes 8 nonce.toNat ++ leBytes 8 m ++ leBytes 8 (s.mod m).serial ++ (s.mod m).measured.flatten

/-- QUOTE: Patrol of module `State.sel` writes a signed quote into the memory of the partition that asked first (code 3). -/
def execQuote (s : State) : Host.Outcome State Fault Refusal :=
  let m := s.sel
  match s.patrolAsk m 3 with
  | none => notEnabled
  | some (i, e) =>
    let body := s.quoteBody m (e.p.getD 3 0)
    let a := Config.quotePlace e.part
    let s := s.patrolDone m i
    let q := body ++ Config.ed25519Sign (s.mod m).key body
    .next ((s.backWrite m e.part a (q.length + 1) q).patrolReply m e 0 (BitVec.ofNat 64 a))

/-! ### Control words of a slice (R150, R187, R343, R344) -/

/-- LEASE_QUOTA_WRITE (R150). -/
def execLeaseQuotaWrite (cluster : Nat) (value : Word) (s : State) : Host.Outcome State Fault Refusal :=
  .next (s.writeLeaseQ cluster value.toNat)

/-- CORE_CONFIG_WRITE (Table 9.8). -/
def execCoreConfigWrite (core : Nat) (value : Word) (s : State) : Host.Outcome State Fault Refusal :=
  .next (s.writeCfg core value.toNat)

/-- LIFT_QUOTA_WRITE (R343). -/
def execLiftQuotaWrite (cluster part : Nat) (value : Word) (s : State) : Host.Outcome State Fault Refusal :=
  if 64 ≤ part then notEnabled else .next (s.writeQuota cluster part value.toNat)

/-- SPILL_DESC_WRITE (R344). -/
def execSpillDescWrite (cluster part word : Nat) (value : Word) (s : State) : Host.Outcome State Fault Refusal :=
  if 64 ≤ part then notEnabled else .next (s.writeSpill cluster part word value.toNat)

/-- CONTROL_REGISTER_WRITE: a write to any other word of a control block (R187). -/
def execControlRegisterWrite (c : CtlWrite) (s : State) : Host.Outcome State Fault Refusal :=
  .next (s.writeCtl c.cluster (c.offset / 8 * 8) c.value.toNat)

/-! ### Soft errors (R82, R392 Table 20.3) -/

/-- An uncorrectable error in what an instruction of context `w` reads: fault 0x10 of its firing, with the row of Table 20.3. -/
def State.eccFault (s : State) (w row : Nat) (va : Word) : Host.Outcome State Fault Refusal :=
  if (s.ctx w).kind = .none then notEnabled else .next (s.note w 0x10 row va)

/-- An error in a firing log or a send buffer is found at the next commit point: it is not due before (R392). -/
def State.eccLog (s : State) (w : Nat) : Host.Outcome State Fault Refusal :=
  let c := s.ctx w
  if c.kind = .none then notEnabled else .next (s.record w { code := 0x10, detail := 3, va := 0, pc := c.pc, icnt := c.icnt + 2 ^ 64 })

/-- Charge an error in a tile or a plane (numbers from 16 on) to the actor that holds it (R82): to its firing, or by a notice. -/
def State.eccItem (s : State) (cl item : Nat) : Host.Outcome State Fault Refusal :=
  let k := s.clu cl
  match (if item < 16 then FMap.find k.tileOwn item else FMap.find k.pairOwn ((item - 16) / 2)) with
  | none => notEnabled
  | some key =>
    let va := BitVec.ofNat 64 item
    match (List.range 32).find? (fun x =>
        let w := 32 * cl + x; let c := s.ctx w; decide (c.kind = .actor) && decide (c.key = key) && decide (c.gidx = 0)) with
    | some x => .next (s.note (32 * cl + x) 0x10 0 va)
    | none =>
      match (List.range 512).find? (fun x => decide (s.slotKey (8 * cl + x / 64) (x % 64) = key) &&
          decide ((s.sched (8 * cl + x / 64) (x % 64)).st ≠ .absent)) with
      | none => notEnabled
      | some x =>
        let gc := 8 * cl + x / 64
        .next (s.faultNotice gc (s.ownerOf gc) false true (s.handleOf gc (x % 64)) (fsynOf { code := 0x10, cls := 2, va := va } false false 0
          (decide (x % 64 = 0)) false) va.toNat 0 0 (notice6 gc (x % 64) 0 0) 0)

/-- A lift-line entry is withdrawn, and its waiter's supervisor told (Table 20.3 row 6). -/
def State.eccLift (s : State) (cl stamp : Nat) : Host.Outcome State Fault Refusal :=
  match (s.clu cl).lift.find? (fun e => decide (e.stamp = stamp)) with
  | none => notEnabled
  | some e =>
    .next ((s.withdrawEnt cl e).waiterLost e)

/-- A landing counter is disarmed, and the supervisor of the arming core told (Table 20.3 row 6). -/
def State.eccLanding (s : State) (id : CtrId) : State :=
  let r := s.ctr id
  (s.setCtr id { r with arm := false, dlAt := none, offAt := none }).lateNotice (r.amod * 2048 + r.acore) r.part r.owner true
    { code := 0x10, cls := 2, detail := 6, va := BitVec.ofNat 64 id.idx } 0 0

/-- Mark a scratchpad word bad until it is rewritten whole (Table 20.3 row 2). -/
def State.markBad (s : State) (pa : Nat) : State :=
  { s with badWords := if s.badWord pa then s.badWords else pa / 8 :: s.badWords }

/-- Core of a scratchpad address. -/
def State.padCore (s : State) (pa : Nat) : Option Nat :=
  match s.region pa with
  | .scratch gc _ => some gc
  | _ => none

/-- ECC_ERROR: an error is detected (Table 20.3). A structure under SEC-DED corrects a single error, which is only counted; one
under parity reports any error. A corrected error of a tile or a plane is counted by core 0 of the cluster (DESIGN CHOICE, log
entry 60). -/
def execEccError (site : EccSite) (double : Bool) (s : State) : Host.Outcome State Fault Refusal :=
  match site with
  | .file w reg => if double then s.eccFault w 0 (BitVec.ofNat 64 reg) else .next (s.bumpCore (coreOf w) 0x08)
  | .tile cl item => if double then s.eccItem cl item else .next (s.bumpCore (8 * cl) 0x08)
  | .special w reg => s.eccFault w 1 (BitVec.ofNat 64 reg)
  | .scratchCore w addr =>
    if double then (s.markBad (localPA (coreOf w) addr)).eccFault w 2 (BitVec.ofNat 64 addr) else .next (s.bumpCore (coreOf w) 0x08)
  | .scratchEngine _ pa =>
    (match s.padCore pa with
    | none => notEnabled
    | some gc => if double then .next (s.markBad pa) else .next (s.bumpCore gc 0x08))
  | .logOrSend w => if double then s.eccLog w else .next (s.bumpCore (coreOf w) 0x08)
  | .l1 core line => .next (s.onCore core (fun c => c.dropL1 line))
  | .tlb core idx => .next (s.onCore core (fun c => { c with tlb := c.tlb.eraseIdx idx }))
  | .tlb2 cl set idx => .next (s.onClu cl (fun k => { k with tlb := FMap.put [] k.tlb set ((FMap.get [] k.tlb set).eraseIdx idx) }))
  | .placement core h => .next (s.onCore core (fun c => { c with plc := FMap.erase c.plc h }))
  | .pool core id => .next (s.onCore core (fun c => { c with plcPool := FMap.erase c.plcPool id }))
  | .slice pa => if double then .next (s.poisonLine pa) else .next (s.bumpSlice (homeOf pa hbPhys) 0x26)
  | .cellMeta pa => if double then .next (s.poisonLine pa) else .next (s.bumpSlice (homeOf pa hbPhys) 0x26)
  | .lift cl stamp => if double then s.eccLift cl stamp else .next (s.bumpSlice cl 0x26)
  | .landing sl u i =>
    if double then .next (s.eccLanding { slice := sl, unit_ := u, idx := i })
    else .next (if sl then s.bumpSlice u 0x26 else s.bumpCore u 0x08)

end Sys2Proof.Machine
end

