-- ==== Sys2Proof/Machine/Dispatch.lean ====
section
/-! DEFINITION. One arm per constructor of `Instr`: the meaning it calls. -/

namespace Sys2Proof.Machine

/-- What an instruction of the current context, or an event, does. -/
def exec (i : Instr) (s : State) : Host.Outcome State Fault Refusal :=
  match i with
  | .moduleReset m b => Sys2Proof.Machine.execModuleReset m b s
  | .l1Invalidate core line => Sys2Proof.Machine.execL1Invalidate core line s
  | .loadReturn w uid => Sys2Proof.Machine.execLoadReturn w uid s
  | .walk cluster uid => Sys2Proof.Machine.execWalk cluster uid s
  | .treeCombine m group seq => Sys2Proof.Machine.execTreeCombine m group seq s
  | .spillRefill cluster part => Sys2Proof.Machine.execSpillRefill cluster part s
  | .landingAction slice unit idx => Sys2Proof.Machine.execLandingAction slice unit idx s
  | .landingDeadline slice unit idx => Sys2Proof.Machine.execLandingDeadline slice unit idx s
  | .evictSave core slot => Sys2Proof.Machine.execEvictSave core slot s
  | .backingQueueDrain core slot => Sys2Proof.Machine.execBackingQueueDrain core slot s
  | .dataFrame m b => Sys2Proof.Machine.execDataFrame m b s
  | .ackFrame m b => Sys2Proof.Machine.execAckFrame m b s
  | .nakFrame m b => Sys2Proof.Machine.execNakFrame m b s
  | .retransmitTimeout m flow => Sys2Proof.Machine.execRetransmitTimeout m flow s
  | .ackTimer m flow => Sys2Proof.Machine.execAckTimer m flow s
  | .flowOpen m flow part mac timeout => Sys2Proof.Machine.execFlowOpen m flow part mac timeout s
  | .flowClose m flow => Sys2Proof.Machine.execFlowClose m flow s
  | .flitReceive m port flit => Sys2Proof.Machine.execFlitReceive m port flit s
  | .linkRetrain m port => Sys2Proof.Machine.execLinkRetrain m port s
  | .linkDown m port => Sys2Proof.Machine.execLinkDown m port s
  | .treeGroupDisable m group => Sys2Proof.Machine.execTreeGroupDisable m group s
  | .leaseQuotaWrite cluster value => Sys2Proof.Machine.execLeaseQuotaWrite cluster value s
  | .coreConfigWrite core value => Sys2Proof.Machine.execCoreConfigWrite core value s
  | .liftQuotaWrite cluster part value => Sys2Proof.Machine.execLiftQuotaWrite cluster part value s
  | .spillDescWrite cluster part word value => Sys2Proof.Machine.execSpillDescWrite cluster part word value s
  | .controlRegisterWrite c => Sys2Proof.Machine.execControlRegisterWrite c s
  | .eccError site double => Sys2Proof.Machine.execEccError site double s
  | .addT1 d a b n sat => Sys2Proof.Machine.execAddT1 d a b n sat s
  | .addT2I d a imm n sat => Sys2Proof.Machine.execAddT2I d a imm n sat s
  | .addT4 d a imm n sat => Sys2Proof.Machine.execAddT4 d a imm n sat s
  | .subT1 d a b n sat => Sys2Proof.Machine.execSubT1 d a b n sat s
  | .subT2I d a imm n sat => Sys2Proof.Machine.execSubT2I d a imm n sat s
  | .subT4 d a imm n sat => Sys2Proof.Machine.execSubT4 d a imm n sat s
  | .mulT1 d a b n sat => Sys2Proof.Machine.execMulT1 d a b n sat s
  | .mulT2I d a imm n sat => Sys2Proof.Machine.execMulT2I d a imm n sat s
  | .mulT4 d a imm n sat => Sys2Proof.Machine.execMulT4 d a imm n sat s
  | .mulhT1 d a b n => Sys2Proof.Machine.execMulhT1 d a b n s
  | .mulhT2I d a imm n => Sys2Proof.Machine.execMulhT2I d a imm n s
  | .mulhT4 d a imm n => Sys2Proof.Machine.execMulhT4 d a imm n s
  | .divT1 d a b n => Sys2Proof.Machine.execDivT1 d a b n s
  | .divT2I d a imm n => Sys2Proof.Machine.execDivT2I d a imm n s
  | .divT4 d a imm n => Sys2Proof.Machine.execDivT4 d a imm n s
  | .remT1 d a b n => Sys2Proof.Machine.execRemT1 d a b n s
  | .remT2I d a imm n => Sys2Proof.Machine.execRemT2I d a imm n s
  | .remT4 d a imm n => Sys2Proof.Machine.execRemT4 d a imm n s
  | .andT1 d a b => Sys2Proof.Machine.execAndT1 d a b s
  | .andT2I d a imm => Sys2Proof.Machine.execAndT2I d a imm s
  | .andT4 d a imm => Sys2Proof.Machine.execAndT4 d a imm s
  | .orT1 d a b => Sys2Proof.Machine.execOrT1 d a b s
  | .orT2I d a imm => Sys2Proof.Machine.execOrT2I d a imm s
  | .orT4 d a imm => Sys2Proof.Machine.execOrT4 d a imm s
  | .xorT1 d a b => Sys2Proof.Machine.execXorT1 d a b s
  | .xorT2I d a imm => Sys2Proof.Machine.execXorT2I d a imm s
  | .xorT4 d a imm => Sys2Proof.Machine.execXorT4 d a imm s
  | .andnT1 d a b => Sys2Proof.Machine.execAndnT1 d a b s
  | .andnT2I d a imm => Sys2Proof.Machine.execAndnT2I d a imm s
  | .andnT4 d a imm => Sys2Proof.Machine.execAndnT4 d a imm s
  | .shlT1 d a b => Sys2Proof.Machine.execShlT1 d a b s
  | .shlT2I d a imm => Sys2Proof.Machine.execShlT2I d a imm s
  | .shlT4 d a imm => Sys2Proof.Machine.execShlT4 d a imm s
  | .shrT1 d a b => Sys2Proof.Machine.execShrT1 d a b s
  | .shrT2I d a imm => Sys2Proof.Machine.execShrT2I d a imm s
  | .shrT4 d a imm => Sys2Proof.Machine.execShrT4 d a imm s
  | .shaT1 d a b => Sys2Proof.Machine.execShaT1 d a b s
  | .shaT2I d a imm => Sys2Proof.Machine.execShaT2I d a imm s
  | .shaT4 d a imm => Sys2Proof.Machine.execShaT4 d a imm s
  | .rolT1 d a b => Sys2Proof.Machine.execRolT1 d a b s
  | .rolT2I d a imm => Sys2Proof.Machine.execRolT2I d a imm s
  | .rolT4 d a imm => Sys2Proof.Machine.execRolT4 d a imm s
  | .clz d a => Sys2Proof.Machine.execClz d a s
  | .ctz d a => Sys2Proof.Machine.execCtz d a s
  | .popc d a => Sys2Proof.Machine.execPopc d a s
  | .minT1 d a b n => Sys2Proof.Machine.execMinT1 d a b n s
  | .minT2I d a imm n => Sys2Proof.Machine.execMinT2I d a imm n s
  | .minT4 d a imm n => Sys2Proof.Machine.execMinT4 d a imm n s
  | .maxT1 d a b n => Sys2Proof.Machine.execMaxT1 d a b n s
  | .maxT2I d a imm n => Sys2Proof.Machine.execMaxT2I d a imm n s
  | .maxT4 d a imm n => Sys2Proof.Machine.execMaxT4 d a imm n s
  | .sel d a b c => Sys2Proof.Machine.execSel d a b c s
  | .setc cc d a b => Sys2Proof.Machine.execSetc cc d a b s
  | .mov d a => Sys2Proof.Machine.execMov d a s
  | .liT2I d imm => Sys2Proof.Machine.execLiT2I d imm s
  | .liT4L d imm => Sys2Proof.Machine.execLiT4L d imm s
  | .ext d a pos len1 n => Sys2Proof.Machine.execExt d a pos len1 n s
  | .ins d a pos len1 => Sys2Proof.Machine.execIns d a pos len1 s
  | .fadd t d a b => Sys2Proof.Machine.execFadd t d a b s
  | .fsub t d a b => Sys2Proof.Machine.execFsub t d a b s
  | .fmul t d a b => Sys2Proof.Machine.execFmul t d a b s
  | .fma t d a b c => Sys2Proof.Machine.execFma t d a b c s
  | .fdiv t d a b => Sys2Proof.Machine.execFdiv t d a b s
  | .fsqrt t d a => Sys2Proof.Machine.execFsqrt t d a s
  | .fmin t d a b => Sys2Proof.Machine.execFmin t d a b s
  | .fmax t d a b => Sys2Proof.Machine.execFmax t d a b s
  | .fsetc t cc d a b => Sys2Proof.Machine.execFsetc t cc d a b s
  | .fcvt dt st d a => Sys2Proof.Machine.execFcvt dt st d a s
  | .fclass t d a => Sys2Proof.Machine.execFclass t d a s
  | .brT2I disp idx => Sys2Proof.Machine.execBrT2I disp idx s
  | .brT4 disp idx => Sys2Proof.Machine.execBrT4 disp idx s
  | .bc cc a b disp idx => Sys2Proof.Machine.execBc cc a b disp idx s
  | .callT2I d disp idx => Sys2Proof.Machine.execCallT2I d disp idx s
  | .callT4 d disp idx => Sys2Proof.Machine.execCallT4 d disp idx s
  | .ret a => Sys2Proof.Machine.execRet a s
  | .jmp a => Sys2Proof.Machine.execJmp a s
  | .loop d disp idx => Sys2Proof.Machine.execLoop d disp idx s
  | .vmov d a t m => Sys2Proof.Machine.execVmov d a t m s
  | .vbcast d a b t m => Sys2Proof.Machine.execVbcast d a b t m s
  | .vstep d a b t sat m => Sys2Proof.Machine.execVstep d a b t sat m s
  | .vadd d a b t sat m => Sys2Proof.Machine.execVadd d a b t sat m s
  | .vsub d a b t sat m => Sys2Proof.Machine.execVsub d a b t sat m s
  | .vmul d a b t sat m => Sys2Proof.Machine.execVmul d a b t sat m s
  | .vfma d a b c t sat m => Sys2Proof.Machine.execVfma d a b c t sat m s
  | .vmin d a b t m => Sys2Proof.Machine.execVmin d a b t m s
  | .vmax d a b t m => Sys2Proof.Machine.execVmax d a b t m s
  | .vabs d a t sat m => Sys2Proof.Machine.execVabs d a t sat m s
  | .vand d a b t m => Sys2Proof.Machine.execVand d a b t m s
  | .vor d a b t m => Sys2Proof.Machine.execVor d a b t m s
  | .vxor d a b t m => Sys2Proof.Machine.execVxor d a b t m s
  | .vshl d a b t m => Sys2Proof.Machine.execVshl d a b t m s
  | .vshr d a b t m => Sys2Proof.Machine.execVshr d a b t m s
  | .vsha d a b t m => Sys2Proof.Machine.execVsha d a b t m s
  | .vsetc cc d a b t m => Sys2Proof.Machine.execVsetc cc d a b t m s
  | .vsel d a b t m => Sys2Proof.Machine.execVsel d a b t m s
  | .vcvt d a dt st part m => Sys2Proof.Machine.execVcvt d a dt st part m s
  | .vpack d a t part m => Sys2Proof.Machine.execVpack d a t part m s
  | .vunpack d a t part m => Sys2Proof.Machine.execVunpack d a t part m s
  | .vperm d a b t m => Sys2Proof.Machine.execVperm d a b t m s
  | .vslide d a b c t m => Sys2Proof.Machine.execVslide d a b c t m s
  | .vextr d a b t => Sys2Proof.Machine.execVextr d a b t s
  | .vinsr d a b t => Sys2Proof.Machine.execVinsr d a b t s
  | .vrcp d a t m => Sys2Proof.Machine.execVrcp d a t m s
  | .vrsq d a t m => Sys2Proof.Machine.execVrsq d a t m s
  | .vexp2 d a t m => Sys2Proof.Machine.execVexp2 d a t m s
  | .vlog2 d a t m => Sys2Proof.Machine.execVlog2 d a t m s
  | .vtanh d a t m => Sys2Proof.Machine.execVtanh d a t m s
  | .vdot d a b t sat m => Sys2Proof.Machine.execVdot d a b t sat m s
  | .vsum d a t sat m => Sys2Proof.Machine.execVsum d a t sat m s
  | .vrmax d a t m => Sys2Proof.Machine.execVrmax d a t m s
  | .vrmin d a t m => Sys2Proof.Machine.execVrmin d a t m s
  | .vargmax d ix a t m => Sys2Proof.Machine.execVargmax d ix a t m s
  | .vargmin d ix a t m => Sys2Proof.Machine.execVargmin d ix a t m s
  | .vtopk d a b k1 t min m => Sys2Proof.Machine.execVtopk d a b k1 t min m s
  | .vxrd d a b t m => Sys2Proof.Machine.execVxrd d a b t m s
  | .mand a b c => Sys2Proof.Machine.execMand a b c s
  | .mor a b c => Sys2Proof.Machine.execMor a b c s
  | .mxor a b c => Sys2Proof.Machine.execMxor a b c s
  | .mnot a b => Sys2Proof.Machine.execMnot a b s
  | .mcnt d b t => Sys2Proof.Machine.execMcnt d b t s
  | .mfirst d b t => Sys2Proof.Machine.execMfirst d b t s
  | .mlease d a b clr => Sys2Proof.Machine.execMlease d a b clr s
  | .mfree a b => Sys2Proof.Machine.execMfree a b s
  | .mcfg a b dfmt rm act sen ben dshift => Sys2Proof.Machine.execMcfg a b dfmt rm act sen ben dshift s
  | .mloadw p a b => Sys2Proof.Machine.execMloadw p a b s
  | .mswap p => Sys2Proof.Machine.execMswap p s
  | .mstream t p a b row0 n1 sat => Sys2Proof.Machine.execMstream t p a b row0 n1 sat s
  | .mepi k g t a b row0 n1 ncol1 => Sys2Proof.Machine.execMepi k g t a b row0 n1 ncol1 s
  | .mzero t => Sys2Proof.Machine.execMzero t s
  | .maccrd k d b t m => Sys2Proof.Machine.execMaccrd k d b t m s
  | .maccwr k a b t m => Sys2Proof.Machine.execMaccwr k a b t m s
  | .ldT2 d a c sc t sp pol => Sys2Proof.Machine.execLdT2 d a c sc t sp pol s
  | .ldT4 d a c sc t sp pol disp => Sys2Proof.Machine.execLdT4 d a c sc t sp pol disp s
  | .stT2 b a c sc t sp pol => Sys2Proof.Machine.execStT2 b a c sc t sp pol s
  | .stT4 b a c sc t sp pol disp => Sys2Proof.Machine.execStT4 b a c sc t sp pol disp s
  | .ldvT2 d a c sc t sp pol m => Sys2Proof.Machine.execLdvT2 d a c sc t sp pol m s
  | .ldvT4 d a c sc t sp pol m disp => Sys2Proof.Machine.execLdvT4 d a c sc t sp pol m disp s
  | .stvT2 b a c sc t sp pol => Sys2Proof.Machine.execStvT2 b a c sc t sp pol s
  | .stvT4 b a c sc t sp pol disp => Sys2Proof.Machine.execStvT4 b a c sc t sp pol disp s
  | .ldx d b c sc t sp pol m => Sys2Proof.Machine.execLdx d b c sc t sp pol m s
  | .stx a b c sc t sp pol m => Sys2Proof.Machine.execStx a b c sc t sp pol m s
  | .bld d k w1 inc => Sys2Proof.Machine.execBld d k w1 inc s
  | .bst a k w1 inc => Sys2Proof.Machine.execBst a k w1 inc s
  | .bmov k x => Sys2Proof.Machine.execBmov k x s
  | .amo op t sp sc a b c disp => Sys2Proof.Machine.execAmo op t sp sc a b c disp s
  | .acas t sp sc a b c disp => Sys2Proof.Machine.execAcas t sp sc a b c disp s
  | .pref l a pol => Sys2Proof.Machine.execPref l a pol s
  | .cinv a b => Sys2Proof.Machine.execCinv a b s
  | .rst sz a b c disp => Sys2Proof.Machine.execRst sz a b c disp s
  | .spalloc guard d b c bank g1 ctxOwner => Sys2Proof.Machine.execSpalloc guard d b c bank g1 ctxOwner s
  | .spfree a => Sys2Proof.Machine.execSpfree a s
  | .bfset a b => Sys2Proof.Machine.execBfset a b s
  | .fence k sc => Sys2Proof.Machine.execFence k sc s
  | .fencex sc src dst => Sys2Proof.Machine.execFencex sc src dst s
  | .oinit k sc st a w0 w1 => Sys2Proof.Machine.execOinit k sc st a w0 w1 s
  | .ofree st a => Sys2Proof.Machine.execOfree st a s
  | .oread sc n b mt => Sys2Proof.Machine.execOread sc n b mt s
  | .cntAdd sc a b c => Sys2Proof.Machine.execCntAdd sc a b c s
  | .cntWait cc sc wm a b c => Sys2Proof.Machine.execCntWait cc sc wm a b c s
  | .barArv sc a b c => Sys2Proof.Machine.execBarArv sc a b c s
  | .barExp sc a b c => Sys2Proof.Machine.execBarExp sc a b c s
  | .barWait sc wm a b c => Sys2Proof.Machine.execBarWait sc wm a b c s
  | .lckTake sc wm a b => Sys2Proof.Machine.execLckTake sc wm a b s
  | .lckGive sc a b => Sys2Proof.Machine.execLckGive sc a b s
  | .qRes sc wm a b => Sys2Proof.Machine.execQRes sc wm a b s
  | .qPub sc tr a b c => Sys2Proof.Machine.execQPub sc tr a b c s
  | .qAwait sc wm a b => Sys2Proof.Machine.execQAwait sc wm a b s
  | .qRel sc a b c => Sys2Proof.Machine.execQRel sc a b c s
  | .cndWait sc a b c => Sys2Proof.Machine.execCndWait sc a b c s
  | .cndSig sc a b => Sys2Proof.Machine.execCndSig sc a b s
  | .cndAll sc a b => Sys2Proof.Machine.execCndAll sc a b s
  | .landArm st b idx => Sys2Proof.Machine.execLandArm st b idx s
  | .landOff a rel => Sys2Proof.Machine.execLandOff a rel s
  | .landRd n b => Sys2Proof.Machine.execLandRd n b s
  | .waitc ld st cp tl => Sys2Proof.Machine.execWaitc ld st cp tl s
  | .send a b len1 nsucc => Sys2Proof.Machine.execSend a b len1 nsucc s
  | .sendv a b c vp => Sys2Proof.Machine.execSendv a b c vp s
  | .sendp a b len1 nsucc => Sys2Proof.Machine.execSendp a b len1 nsucc s
  | .reply a b len1 nsucc rv rmb => Sys2Proof.Machine.execReply a b len1 nsucc rv rmb s
  | .mpeek what d b c => Sys2Proof.Machine.execMpeek what d b c s
  | .activate a b c e => Sys2Proof.Machine.execActivate a b c e s
  | .cpy src a b c o dsp ssp act pol fmt => Sys2Proof.Machine.execCpy src a b c o dsp ssp act pol fmt s
  | .cpy2 a b c o dsp ssp act pol fmt stride => Sys2Proof.Machine.execCpy2 a b c o dsp ssp act pol fmt stride s
  | .cpyx a b c o dsp ssp act pol fmt list => Sys2Proof.Machine.execCpyx a b c o dsp ssp act pol fmt list s
  | .fill a b c o dsp act pol => Sys2Proof.Machine.execFill a b c o dsp act pol s
  | .bsel a o => Sys2Proof.Machine.execBsel a o s
  | .tinj a => Sys2Proof.Machine.execTinj a s
  | .text d a tr => Sys2Proof.Machine.execText d a tr s
  | .trap imm a => Sys2Proof.Machine.execTrap imm a s
  | .srd d n => Sys2Proof.Machine.execSrd d n s
  | .swr n a => Sys2Proof.Machine.execSwr n a s
  | .tlbinv x => Sys2Proof.Machine.execTlbinv x s
  | .tlbreplay x => Sys2Proof.Machine.execTlbreplay x s
  | .fltpop n => Sys2Proof.Machine.execFltpop n s
  | .plinv x => Sys2Proof.Machine.execPlinv x s
  | .admitTeam d b c sc => Sys2Proof.Machine.execAdmitTeam d b c sc s
  | .evict d b => Sys2Proof.Machine.execEvict d b s
  | .linkRetrained m port => Sys2Proof.Machine.execLinkRetrained m port s
  | .coreMapWrite core part => Sys2Proof.Machine.execCoreMapWrite core part s
  | .partitionTableWrite m p e => Sys2Proof.Machine.execPartitionTableWrite m p e s
  | .treeGroupEnable m group g => Sys2Proof.Machine.execTreeGroupEnable m group g s
  | .instructionFetch => Sys2Proof.Machine.execInstructionFetch s
  | .firingChoice => Sys2Proof.Machine.execFiringChoice s
  | .activateArrival => Sys2Proof.Machine.execActivateArrival s
  | .packetArrival => Sys2Proof.Machine.execPacketArrival s
  | .noticeArrival => Sys2Proof.Machine.execNoticeArrival s
  | .refusalResponse => Sys2Proof.Machine.execRefusalResponse s
  | .retryTimer => Sys2Proof.Machine.execRetryTimer s
  | .acceptanceResponse => Sys2Proof.Machine.execAcceptanceResponse s
  | .packetInject => Sys2Proof.Machine.execPacketInject s
  | .homeWrite => Sys2Proof.Machine.execHomeWrite s
  | .stealSweep => Sys2Proof.Machine.execStealSweep s
  | .stealAnswer => Sys2Proof.Machine.execStealAnswer s
  | .stealReply => Sys2Proof.Machine.execStealReply s
  | .yieldTimer => Sys2Proof.Machine.execYieldTimer s
  | .killTimer => Sys2Proof.Machine.execKillTimer s
  | .fenceTimer => Sys2Proof.Machine.execFenceTimer s
  | .forecastUpdate => Sys2Proof.Machine.execForecastUpdate s
  | .impreciseFaultTaken => Sys2Proof.Machine.execImpreciseFaultTaken s
  | .leaseGrant => Sys2Proof.Machine.execLeaseGrant s
  | .leaveGrant => Sys2Proof.Machine.execLeaveGrant s
  | .leaveRelease => Sys2Proof.Machine.execLeaveRelease s
  | .overheatReport => Sys2Proof.Machine.execOverheatReport s
  | .rampWindow => Sys2Proof.Machine.execRampWindow s
  | .powerForecastRead => Sys2Proof.Machine.execPowerForecastRead s
  | .mloadwRun => Sys2Proof.Machine.execMloadwRun s
  | .mswapRun => Sys2Proof.Machine.execMswapRun s
  | .mstreamRun => Sys2Proof.Machine.execMstreamRun s
  | .mepiRun => Sys2Proof.Machine.execMepiRun s
  | .arrayCommandComplete => Sys2Proof.Machine.execArrayCommandComplete s
  | .epilogueStallFence => Sys2Proof.Machine.execEpilogueStallFence s
  | .engineCommandDelivery => Sys2Proof.Machine.execEngineCommandDelivery s
  | .engineRetryTimer => Sys2Proof.Machine.execEngineRetryTimer s
  | .engineCommandStart => Sys2Proof.Machine.execEngineCommandStart s
  | .engineCommandComplete => Sys2Proof.Machine.execEngineCommandComplete s
  | .completionAction => Sys2Proof.Machine.execCompletionAction s
  | .treeFetchBack => Sys2Proof.Machine.execTreeFetchBack s
  | .hsuOperation => Sys2Proof.Machine.execHsuOperation s
  | .spillLineReturn => Sys2Proof.Machine.execSpillLineReturn s
  | .withdrawal => Sys2Proof.Machine.execWithdrawal s
  | .cellResult => Sys2Proof.Machine.execCellResult s
  | .landingPoolRetry => Sys2Proof.Machine.execLandingPoolRetry s
  | .admitRestore => Sys2Proof.Machine.execAdmitRestore s
  | .gangEnter => Sys2Proof.Machine.execGangEnter s
  | .gangExit => Sys2Proof.Machine.execGangExit s
  | .perfCounterRead => Sys2Proof.Machine.execPerfCounterRead s
  | .perfCounterWrite => Sys2Proof.Machine.execPerfCounterWrite s
  | .quote => Sys2Proof.Machine.execQuote s
  | .fenceCore => Sys2Proof.Machine.execFenceCore s
  | .fin => Sys2Proof.Machine.execFin s
  | .commit => Sys2Proof.Machine.execCommit s
  | .yield => Sys2Proof.Machine.execYield s
  | .nop => Sys2Proof.Machine.execNop s
  | .brk => Sys2Proof.Machine.execBrk s
  | .halt => Sys2Proof.Machine.execHalt s
  | .overheatClear => Sys2Proof.Machine.execOverheatClear s

end Sys2Proof.Machine
end

