-- ==== Sys2Proof/Machine/Turns.lean ====
section
/-! DEFINITION. What a turn of the schedule does before an instruction runs (R26, R57, R382) and the passing of a
clock (DESIGN CHOICE, log entry 1). -/

namespace Sys2Proof.Machine

/-! ### Issue -/

/-- Mark the slot of an issue used, and the context as the last one that issued there (R26). -/
def Core.took (c : Core) (b : Bool) (x : Nat) : Core :=
  if b then { c with usedB := true, rrB := x } else { c with usedA := true, rrA := x }

/-- A class of instruction has issued on a core in this clock. -/
def Core.used (c : Core) (b : Bool) : Bool := if b then c.usedB else c.usedA

/-- Mark the slots that the contexts `ms` of one instruction take: one on each core of a gang (DESIGN CHOICE, log entry 59). -/
def State.took (s : State) (b : Bool) (ms : List Nat) : State :=
  ms.foldl (fun s m => s.onCore (coreOf m) (fun k => k.took b (m % 4))) s

/-- What an issue from `s` has come to in `t`: an instruction that only has to wait has not issued, and leaves its slot empty (R26). -/
def State.settle (s : State) (w : Nat) (b : Bool) (t : State) : State :=
  let c := s.ctx w
  let d := t.ctx w
  if d.phase = c.phase ∧ d.fid = c.fid ∧ d.icnt = c.icnt ∧ d.kind = c.kind then t
  else t.took b (s.members w)

/-- Bring the next instruction of the firing that context `w` leads to execution: the state in which it executes, the instruction and
whether it is of class B; or how the turn ends without it. A context tries once per clock, each slot takes one instruction per clock
(R26), and a timer of the firing that has run out comes first (R264, R265). -/
def State.issue (s : State) (w : Nat) : Except (Host.Outcome State Fault Refusal) (State × Instr × Bool) :=
  let c := s.ctx w
  let gc := coreOf w
  let k := s.core gc
  if c.mayIssue = false ∨ c.kind = .none ∨ c.gidx ≠ 0 ∨ k.issued.contains (w % 4) = true ∨ s.yieldDue w = true ∨ s.killDue w = true then
    .error notEnabled
  else match (if s.faultDue w && !c.pub then s.pendingFault w else none) with
    | some t => .error (.next (s.takeTrap w t))
    | none =>
      match s.fetch w with
      | .error (.trap t) => .error (.next (s.fault w t))
      | .error (.wait t) => .error (.next t)
      | .ok (s1, head, i) =>
        let b := classB head
        if (s1.members w).any (fun m => (s1.core (coreOf m)).used b) then .error notEnabled
        else
          let s2 := s1.onCore gc (fun k => { k with issued := w % 4 :: k.issued })
          if s2.hazard w i || s2.stFull w then .error (.next s2)
          else .ok ({ (s2.members w).foldl (fun s m => s.onCtx m (fun c => { c with phase := .running })) s2 with cur := w }, i, b)

/-! ### The clock -/

/-- A core after a clock: its issue slots are free again (R26), the readiness of its actors is evaluated (R15, R250), the cycle
counts as one with an issue (Table 19.5), the deadlines of its counters are tested and an auto-rearm counter may fire again (R368), and the time without ready work goes on from
its last ready work, which a start in this cycle was (R259). -/
def State.tickCore (s : State) (gc : Nat) (c : Core) : Core :=
  let busy := bit c.sctl.toNat 3 && (c.usedA || c.usedB)
  let work := c.hasWork || c.started
  { c with
    usedA := false, usedB := false, issued := [], started := false
    pcount := if busy then bump c.pselect c.pcount 1 else c.pcount
    sched := FMap.mapVal (fun slot x => s.refresh (s.now + 1) gc slot x) c.sched
    land := FMap.mapVal (fun _ (r : LandRec) => r.tick s.now) c.land
    idleAt := if work then s.now + 1 else c.idleAt }

/-- A firing that is not parked in place counts a cycle (R263). -/
def Ctx.tick (c : Ctx) : Ctx :=
  { c with roomAt := c.room, cycles := if c.kind = .none ∨ c.phase = .parked then c.cycles else c.cycles + 1 }

/-- What the choices of the next cycle count as free on a core (R254). -/
def State.tickRoom (s : State) (gc : Nat) (c : Core) : Core :=
  { c with
    deqAt := s.deqFree gc
    poolsAt := ([0, 1, 2, 3].filter (fun x => decide ((s.ctx (4 * gc + x)).kind = .pool))).map (fun x => (s.ctx (4 * gc + x)).pool) }

/-- An epilogue that could run and has not stalls for a cycle (R170, R378). -/
def State.tickClu (s : State) (cl : Nat) (k : Cluster) : Cluster :=
  let k := { k with land := FMap.mapVal (fun _ (r : LandRec) => r.tick s.now) k.land }
  match s.readyCmd cl with
  | some m => (match m.op with | .epi .. => { k with stallT := k.stallT + 1 } | _ => k)
  | none => k

/-- One clock passes. -/
def State.tick (s : State) : State :=
  let s := { s with ctxs := FMap.mapVal (fun _ c => Ctx.tick c) s.ctxs, cores := FMap.mapVal (fun gc c => s.tickRoom gc c) s.cores }
  { s with
    now := s.now + 1
    cores := FMap.mapVal (fun gc c => s.tickCore gc c) s.cores
    clus := FMap.mapVal (fun cl k => s.tickClu cl k) s.clus }

end Sys2Proof.Machine
end

