-- ==== Sys2Proof/Machine/Own.lean ====
section
/-! DEFINITION. What the pod does by itself when the schedule lists no turn: the first of its pending events that can happen, then
an issue in the order of R26, then the timers, the choice of a firing and the steals (R255, R260, R264, R265), then a clock (DESIGN CHOICE, log entry 1). -/

namespace Sys2Proof.Machine

/-- A turn may come now: a fence that is due comes before everything else of its cycle, and then the beginning of a kill that came due
in the cycle before (R265, R386). -/
def State.mayTurn (s : State) (t : Turn) : Bool :=
  if s.ctxs.any (fun x => s.fenceDue x.1) then
    (match t with | .event .fenceTimer w => s.fenceDue w | _ => false)
  else if s.ctxs.any (fun x => s.killDue x.1) then
    (match t with | .event .killTimer w => s.killDue w | _ => false)
  else true

/-- What one turn does. -/
def stepTurn (s : State) (t : Turn) : Host.Outcome State Fault Refusal :=
  if !s.mayTurn t then notEnabled else match t with
  | .tick => .next s.tick
  | .event e sel => exec e { s with sel := sel }
  | .manage m p => .next (s.manage m p)
  | .issue w =>
    match s.issue w with
    | .ok (s, i, b) =>
      (match exec i s with
      | .next t => .next (s.settle w b t)
      | o => o)
    | .error o => o

/-- The same event for each of some numbers. -/
def eventsFor (e : Instr) (l : List Nat) : List Turn := l.map (fun n => .event e n)

/-- Events of published stores: invalidations they wait for, then the store (R182). -/
def State.storeTurns (s : State) : List Turn :=
  s.wq.flatMap (fun e =>
    ((s.sharers (homeOf e.pa e.hb) (e.pa / 64)).filter (fun g => decide (g ≠ coreOf e.org.w))).map (fun g =>
      .event (.l1Invalidate g (e.pa / 64)) 0) ++ [.event .homeWrite e.uid])

/-- The next event of a packet (R233 to R238). -/
def NetPkt.turn (e : NetPkt) : Turn :=
  match e.st with
  | .ready | .bounced _ => .event .packetInject e.uid
  | .flying => .event (if Pkt.kind e.p = 2 then .activateArrival else if e.notice then .noticeArrival else .packetArrival) e.uid
  | .accepted => .event .acceptanceResponse e.uid
  | .refused _ => .event .refusalResponse e.uid
  | .backoff _ => .event .retryTimer e.uid

/-- Events of a cluster. -/
def cluTurns (cl : Nat) (k : Cluster) : List Turn :=
  k.walks.map (fun x => .event (.walk cl x.uid) 0) ++ eventsFor .spillLineReturn k.wakes ++ k.hsu.map (fun o => .event .hsuOperation o.uid) ++
  k.withdraw.map (fun x => .event .withdrawal x.1) ++ k.spill.map (fun x => .event (.spillRefill cl x.1) 0) ++
  (if k.inbox.isEmpty && k.leaseReq.isEmpty then []
   else [.event .leaseGrant cl, .event .mloadwRun cl, .event .mswapRun cl, .event .mstreamRun cl, .event .mepiRun cl,
     .event .arrayCommandComplete cl, .event .epilogueStallFence cl]) ++
  (if k.leave = 0 then [] else [.event .leaveRelease cl]) ++
  k.land.flatMap (fun x => [.event (.landingAction true cl x.1) 0, .event (.landingDeadline true cl x.1) 0])

/-- Events of a core but for the choice of a firing and the steals. -/
def coreTurns (gc : Nat) (c : Core) : List Turn :=
  c.land.flatMap (fun x => [.event (.landingAction false gc x.1) 0, .event (.landingDeadline false gc x.1) 0]) ++
  (if c.poolRetry.isEmpty then [] else [.event .landingPoolRetry gc]) ++
  c.sched.map (fun x => .event (.evictSave gc x.1) 0) ++ c.sched.map (fun x => .event (.backingQueueDrain gc x.1) 0) ++
  [.event .gangEnter gc, .event .gangExit gc, .event .forecastUpdate gc]

/-- What comes after the issues of a clock: the timers of the firings (R264, R265), the choice of new ones, and the steals. -/
def State.lateTurns (s : State) : List Turn :=
  s.ctxs.flatMap (fun x => [.event .killTimer x.1, .event .yieldTimer x.1]) ++
  s.cores.flatMap (fun x => [.event .firingChoice x.1, .event .stealReply x.1, .event .stealAnswer x.1, .event .stealSweep x.1])

/-- Events of a module. -/
def modTurns (m : Nat) (x : Module) : List Turn :=
  [.event (.treeCombine m 0 0) 0, .event .treeFetchBack m] ++
  x.chunks.map (fun c => .event (.treeCombine m c.group (BitVec.ofNat 32 c.seq)) 0) ++
  (if x.patrol.isEmpty then []
   else [.event .perfCounterRead m, .event .perfCounterWrite m, .event .quote m, .event .fenceCore m]) ++
  x.flows.flatMap (fun f => [.event (.retransmitTimeout m f.1) 0, .event (.ackTimer m f.1) 0]) ++
  x.links.flatMap (fun l => [.event (.linkRetrain m l.1) 0, .event (.linkDown m l.1) 0])

/-- The pending events of the pod, in the order they are tried. -/
def State.eventTurns (s : State) : List Turn :=
  s.ctxs.flatMap (fun x =>
    .event .fenceTimer x.1 :: x.2.loads.map (fun l => .event (.loadReturn x.1 l.uid) 0)) ++
  s.results.map (fun r => .event .cellResult r.uid) ++ s.storeTurns ++ s.clus.flatMap (fun x => cluTurns x.1 x.2) ++
  s.net.map NetPkt.turn ++ s.admits.map (fun a => .event .admitRestore a.uid) ++
  s.engines.flatMap (fun e => [.event .engineCommandDelivery e.uid, .event .engineRetryTimer e.uid, .event .engineCommandStart e.uid,
    .event .homeWrite e.uid, .event .completionAction e.uid, .event .engineCommandComplete e.uid]) ++
  s.dies.flatMap (fun x => [.event .leaveGrant x.1, .event .rampWindow x.1, .event .powerForecastRead x.1]) ++
  s.mods.flatMap (fun x => modTurns x.1 x.2) ++ s.cores.flatMap (fun x => coreTurns x.1 x.2)

/-- Class of the next instruction of a context: B or A (R25); none while it must fetch first. -/
def State.nextClass (s : State) (w : Nat) : Option Bool :=
  match s.fetch w with
  | .ok (_, head, _) => some (classB head)
  | .error _ => none

/-- The contexts of a core from the one after `r`, round-robin. -/
def roundFrom (gc r : Nat) : List Nat := [1, 2, 3, 4].map (fun i => 4 * gc + (r + i) % 4)

/-- The issues that the slots of a core try, slot A before slot B, and the contexts that have to fetch (R26). -/
def State.issueTurns (s : State) (gc : Nat) (c : Core) : List Turn :=
  let a := (roundFrom gc c.rrA).filter (fun w => decide (s.nextClass w = some false))
  let b := (roundFrom gc c.rrB).filter (fun w => decide (s.nextClass w = some true))
  let f := (roundFrom gc c.rrA).filter (fun w => decide (s.nextClass w = none))
  (a ++ b ++ f).map .issue

/-- The result of the first turn that can happen. -/
def firstTurn (s : State) : List Turn → Option (Host.Outcome State Fault Refusal)
  | [] => none
  | t :: l =>
    match stepTurn s t with
    | .fault _ => firstTurn s l
    | o => some o

/-- What the pod does by itself. -/
def State.ownStep (s : State) : Host.Outcome State Fault Refusal :=
  match firstTurn s (s.eventTurns ++ s.cores.flatMap (fun x => s.issueTurns x.1 x.2) ++ s.lateTurns) with
  | some o => o
  | none => .next s.tick

end Sys2Proof.Machine
end

