-- ==== Sys2Proof/Machine/Step.lean ====
section
/-! DEFINITION. One step of the pod: the next turn of the schedule, an event, an issue or a clock, or what the pod does by itself
(DESIGN CHOICE, log entry 1). -/

namespace Sys2Proof.Machine

/-- One step: the first turn that the schedule lists, or the turn the machine takes by itself. -/
def step (s : State) : Host.Outcome State Fault Refusal :=
  match s.agenda with
  | t :: r => stepTurn { s with agenda := r } t
  | [] => s.ownStep

/-- `s` with the instruction whose table bits are `w` placed where the next step fetches it (DESIGN CHOICE, log entry 1). -/
def State.withFetchWord (s : State) (nbits w : Nat) : State :=
  match tableHalfwords (nbits / 16) w with
  | head :: tail => s.withLine (lineOfOne head (tail ++ List.replicate (tailLen head - tail.length) 0))
  | [] => s

end Sys2Proof.Machine
end

