-- ==== Sys2Proof/Safety.lean ====
section
/-! DEFINITION. What claims about runs are stated in: the states a run reaches, the form every state of a run keeps, and what
an instruction leaves in the contexts that execute it. -/

namespace Sys2Proof.Machine

/-! ### Runs -/

/-- `t` is reached from `s` in `n` steps, none of which stops. -/
def reaches : Nat → State → State → Prop
  | 0, s, t => s = t
  | n + 1, s, t => ∃ u, step s = .next u ∧ reaches n u t

/-- The form of a state: memory is canonical (R172; a byte that is not listed reads 0). -/
def State.Ok (s : State) : Prop := Memory.wf s.mem = true

/-- A run of `n` steps from `s` is safe: no step refuses, and each state it reaches has the form. -/
def SafeRun (n : Nat) (s : State) : Prop :=
  ∀ k t, k ≤ n → reaches k s t → t.Ok ∧ ∀ r, step t ≠ .refused r

/-! ### What an instruction leaves in a context -/

/-- Register writes of an instruction, each register by its code with its new value; the flags it sets in `%fcsr`; and the PC it
goes to, when it does not go to the next instruction. -/
structure Effect where
  scalars : List (Nat × Word) := []
  vectors : List (Nat × VWord) := []
  masks   : List (Nat × Word) := []
  bits    : List (Nat × Word) := []
  flags   : Nat := 0
  target  : Option Word := none

/-- `c'` is context `c` after a completed instruction with effect `e`: every register that the effect lists holds its new value and
every other register its old one; the flags are added to `%fcsr` and nothing else of it changes; the PC is the target or the next
instruction (R38); and of everything else in the context only what counts instructions changes. -/
def Effect.On (e : Effect) (c c' : Ctx) : Prop :=
  (∀ k, c'.sreg k = (e.scalars.lookup k).getD (c.sreg k)) ∧
  (∀ k, c'.vreg k = (e.vectors.lookup k).getD (c.vreg k)) ∧
  (∀ m : MReg, c'.mask m = (e.masks.lookup m.val).getD (c.mask m)) ∧
  (∀ b : BReg, c'.breg b = (e.bits.lookup b.val).getD (c.breg b)) ∧
  c'.fcsr = c.fcsr ||| BitVec.ofNat 32 (e.flags % 64 * 2 ^ 8) ∧
  c'.pc = e.target.getD c.npc ∧
  c' = { c with sregs := c'.sregs, vregs := c'.vregs, mregs := c'.mregs, bregs := c'.bregs, fcsr := c'.fcsr, pc := c'.pc,
                npc := c'.pc, xlate := [], icnt := c.icnt + 1, pub := false }

/-- A context after its instruction: it stands at the next PC (R38), holds no translation, and has counted the instruction (R382). -/
def Ctx.retired (c : Ctx) : Ctx := { c with pc := c.npc, xlate := [], icnt := c.icnt + 1, pub := false }

/-- The state after an instruction of a firing of one context, context `w`, that changes the context by `f` as it completes. -/
def State.after (s : State) (w : Nat) (f : Ctx → Ctx) : State := s.onCtx w (fun c => (f c).retired)

/-- The current firing has one context: it is no gang firing. -/
def State.single (s : State) : Prop := (s.ctx s.cur).gang = false

/-- Scalar registers that a destination writes with a value: z0 pushes on the last-result file, and `discard` writes nothing
(R45, R69). -/
def Ctx.writes (c : Ctx) (d : Dst) (v : Word) : List (Nat × Word) :=
  match d with
  | .s n => [(n.val, v)]
  | .o n => [(64 + n.val, v)]
  | .z0 => [(72, v), (73, c.sreg 72), (74, c.sreg 73), (75, c.sreg 74)]
  | .discard => []

/-- Vector registers that a destination writes with a value: y0 pushes (R46, R69). -/
def Ctx.vwrites (c : Ctx) (d : VDst) (v : VWord) : List (Nat × VWord) :=
  match d with
  | .v n => [(n.val, v)]
  | .p n => [(32 + n.val, v)]
  | .y0 => [(40, v), (41, c.vreg 40)]

/-- Mask registers that a mask destination writes: m0 discards (R47). -/
def mwrites (m : MReg) (v : Word) : List (Nat × Word) := if m.val = 0 then [] else [(m.val, v)]

/-- The instruction answers a next state in which each context of the current firing has an effect that `P` allows, every other
context is as before, and nothing outside the contexts has changed. -/
def Completes (i : Instr) (s : State) (P : Ctx → Effect → Prop) : Prop :=
  ∃ t, exec i s = .next t ∧ t = { s with ctxs := t.ctxs } ∧
    (∀ w, w ∉ s.members s.cur → t.ctx w = s.ctx w) ∧
    ∀ w ∈ s.members s.cur, ∃ e, P (s.ctx w) e ∧ e.On (s.ctx w) (t.ctx w)

/-- The instruction answers as `Completes` says, with the effects that `P` admits for each context, but that the grant pointers of the
scratchpad ports it reads may move (R173). -/
def CompletesReading (i : Instr) (s : State) (P : Nat → Effect → Prop) : Prop :=
  ∃ t, exec i s = .next t ∧ t = { s with ctxs := t.ctxs, cores := t.cores } ∧
    (∀ g, ∃ p, t.core g = { s.core g with subPtr := p }) ∧ (∀ w, w ∉ s.members s.cur → t.ctx w = s.ctx w) ∧
    ∀ w ∈ s.members s.cur, ∃ e, P w e ∧ e.On (s.ctx w) (t.ctx w)

/-! ### Scalar results, as chapter 06 words them -/

/-- An operand as an integer: unsigned under `.n`, two's complement otherwise (R106). -/
def numOf (n : Bool) (x : Word) : Int := if n then (x.toNat : Int) else x.toInt

/-- An exact integer result: modulo 2^64, or clipped to the range of the form with the SAT flag (R106). -/
def exactly (n sat : Bool) (v : Int) (r : Word) (flags : Nat) : Prop :=
  let lo : Int := if n then 0 else -2 ^ 63
  let hi : Int := if n then 2 ^ 64 - 1 else 2 ^ 63 - 1
  if sat = true ∧ v < lo then numOf n r = lo ∧ flags = 32
  else if sat = true ∧ hi < v then numOf n r = hi ∧ flags = 32
  else (r.toNat : Int) = v % 2 ^ 64 ∧ flags = 0

/-- The two-operand integer operations of Table 6.2. -/
inductive IntOp where
  | add | sub | mul | mulh | div | rem | and | or | xor | andn | shl | shr | sha | rol | min | max
deriving DecidableEq, Repr

/-- `r` with `flags` is the result of an operation on `x` and `y` (Table 6.2, R106, R107). -/
def IntOp.gives (op : IntOp) (n sat : Bool) (x y r : Word) (flags : Nat) : Prop :=
  match op with
  | .add => exactly n sat (numOf n x + numOf n y) r flags
  | .sub => exactly n sat (numOf n x - numOf n y) r flags
  | .mul => exactly n sat (numOf n x * numOf n y) r flags
  | .mulh => (r.toNat : Int) = numOf n x * numOf n y / 2 ^ 64 % 2 ^ 64 ∧ flags = 0
  | .div => if y = 0 then r = BitVec.allOnes 64 ∧ flags = 2
            else (r.toNat : Int) = (numOf n x).tdiv (numOf n y) % 2 ^ 64 ∧ flags = 0
  | .rem => if y = 0 then r = x ∧ flags = 2 else (r.toNat : Int) = (numOf n x).tmod (numOf n y) % 2 ^ 64 ∧ flags = 0
  | .and => r = x &&& y ∧ flags = 0
  | .or => r = x ||| y ∧ flags = 0
  | .xor => r = x ^^^ y ∧ flags = 0
  | .andn => r = x &&& ~~~ y ∧ flags = 0
  | .shl => r.toNat = x.toNat * 2 ^ y.toNat % 2 ^ 64 ∧ flags = 0
  | .shr => r.toNat = x.toNat / 2 ^ y.toNat ∧ flags = 0
  | .sha => r.toInt = x.toInt / 2 ^ y.toNat ∧ flags = 0
  | .rol => (∀ i < 64, r.getLsbD ((i + y.toNat) % 64) = x.getLsbD i) ∧ flags = 0
  | .min => r = (if numOf n y < numOf n x then y else x) ∧ flags = 0
  | .max => r = (if numOf n x < numOf n y then y else x) ∧ flags = 0

/-- Second operand of an integer form: a register source or the sign-extended immediate of the form. -/
inductive Second where
  | reg (b : Src) | imm (v : Int)

/-- Value of a second operand. -/
def Second.val (c : Ctx) : Second → Word
  | .reg b => c.src b
  | .imm v => BitVec.ofInt 64 v

/-- A two-operand integer form: operation, destination, operands, `.n` and `.sat`. -/
structure IntForm where
  op  : IntOp
  d   : Dst
  a   : Src
  b   : Second
  n   : Bool := false
  sat : Bool := false

/-- The two-operand integer forms (Table 6.2). -/
def intForm : Instr → Option IntForm
  | .addT1 d a b n sat => some { op := .add, d := d, a := a, b := .reg b, n := n, sat := sat }
  | .addT2I d a v n sat => some { op := .add, d := d, a := a, b := .imm v.toInt, n := n, sat := sat }
  | .addT4 d a v n sat => some { op := .add, d := d, a := a, b := .imm v.toInt, n := n, sat := sat }
  | .subT1 d a b n sat => some { op := .sub, d := d, a := a, b := .reg b, n := n, sat := sat }
  | .subT2I d a v n sat => some { op := .sub, d := d, a := a, b := .imm v.toInt, n := n, sat := sat }
  | .subT4 d a v n sat => some { op := .sub, d := d, a := a, b := .imm v.toInt, n := n, sat := sat }
  | .mulT1 d a b n sat => some { op := .mul, d := d, a := a, b := .reg b, n := n, sat := sat }
  | .mulT2I d a v n sat => some { op := .mul, d := d, a := a, b := .imm v.toInt, n := n, sat := sat }
  | .mulT4 d a v n sat => some { op := .mul, d := d, a := a, b := .imm v.toInt, n := n, sat := sat }
  | .mulhT1 d a b n => some { op := .mulh, d := d, a := a, b := .reg b, n := n }
  | .mulhT2I d a v n => some { op := .mulh, d := d, a := a, b := .imm v.toInt, n := n }
  | .mulhT4 d a v n => some { op := .mulh, d := d, a := a, b := .imm v.toInt, n := n }
  | .divT1 d a b n => some { op := .div, d := d, a := a, b := .reg b, n := n }
  | .divT2I d a v n => some { op := .div, d := d, a := a, b := .imm v.toInt, n := n }
  | .divT4 d a v n => some { op := .div, d := d, a := a, b := .imm v.toInt, n := n }
  | .remT1 d a b n => some { op := .rem, d := d, a := a, b := .reg b, n := n }
  | .remT2I d a v n => some { op := .rem, d := d, a := a, b := .imm v.toInt, n := n }
  | .remT4 d a v n => some { op := .rem, d := d, a := a, b := .imm v.toInt, n := n }
  | .andT1 d a b => some { op := .and, d := d, a := a, b := .reg b }
  | .andT2I d a v => some { op := .and, d := d, a := a, b := .imm v.toInt }
  | .andT4 d a v => some { op := .and, d := d, a := a, b := .imm v.toInt }
  | .orT1 d a b => some { op := .or, d := d, a := a, b := .reg b }
  | .orT2I d a v => some { op := .or, d := d, a := a, b := .imm v.toInt }
  | .orT4 d a v => some { op := .or, d := d, a := a, b := .imm v.toInt }
  | .xorT1 d a b => some { op := .xor, d := d, a := a, b := .reg b }
  | .xorT2I d a v => some { op := .xor, d := d, a := a, b := .imm v.toInt }
  | .xorT4 d a v => some { op := .xor, d := d, a := a, b := .imm v.toInt }
  | .andnT1 d a b => some { op := .andn, d := d, a := a, b := .reg b }
  | .andnT2I d a v => some { op := .andn, d := d, a := a, b := .imm v.toInt }
  | .andnT4 d a v => some { op := .andn, d := d, a := a, b := .imm v.toInt }
  | .shlT1 d a b => some { op := .shl, d := d, a := a, b := .reg b }
  | .shlT2I d a v => some { op := .shl, d := d, a := a, b := .imm v.toInt }
  | .shlT4 d a v => some { op := .shl, d := d, a := a, b := .imm v.toInt }
  | .shrT1 d a b => some { op := .shr, d := d, a := a, b := .reg b }
  | .shrT2I d a v => some { op := .shr, d := d, a := a, b := .imm v.toInt }
  | .shrT4 d a v => some { op := .shr, d := d, a := a, b := .imm v.toInt }
  | .shaT1 d a b => some { op := .sha, d := d, a := a, b := .reg b }
  | .shaT2I d a v => some { op := .sha, d := d, a := a, b := .imm v.toInt }
  | .shaT4 d a v => some { op := .sha, d := d, a := a, b := .imm v.toInt }
  | .rolT1 d a b => some { op := .rol, d := d, a := a, b := .reg b }
  | .rolT2I d a v => some { op := .rol, d := d, a := a, b := .imm v.toInt }
  | .rolT4 d a v => some { op := .rol, d := d, a := a, b := .imm v.toInt }
  | .minT1 d a b n => some { op := .min, d := d, a := a, b := .reg b, n := n }
  | .minT2I d a v n => some { op := .min, d := d, a := a, b := .imm v.toInt, n := n }
  | .minT4 d a v n => some { op := .min, d := d, a := a, b := .imm v.toInt, n := n }
  | .maxT1 d a b n => some { op := .max, d := d, a := a, b := .reg b, n := n }
  | .maxT2I d a v n => some { op := .max, d := d, a := a, b := .imm v.toInt, n := n }
  | .maxT4 d a v n => some { op := .max, d := d, a := a, b := .imm v.toInt, n := n }
  | _ => none

/-- An integer condition, in words (Table 2.7): signed unless `.n`; `any` and `none` test the common bits. -/
def ICond.means (cc : ICond) (x y : Word) : Prop :=
  match cc with
  | .eq => x = y
  | .ne => x ≠ y
  | .lt => x.toInt < y.toInt
  | .le => x.toInt ≤ y.toInt
  | .gt => x.toInt > y.toInt
  | .ge => x.toInt ≥ y.toInt
  | .ltN => x.toNat < y.toNat
  | .leN => x.toNat ≤ y.toNat
  | .gtN => x.toNat > y.toNat
  | .geN => x.toNat ≥ y.toNat
  | .any => ∃ k : Nat, x.getLsbD k = true ∧ y.getLsbD k = true
  | .none => ∀ k : Nat, ¬ (x.getLsbD k = true ∧ y.getLsbD k = true)

/-- `r` is the value that a bit-counting, choosing or moving form writes into `d` (R108 to R111). -/
def bitForm (c : Ctx) (r : Word) : Instr → Option (Dst × Prop)
  | .clz d a => some (d, r.toNat = if c.src a = 0 then 64 else 63 - Nat.log2 (c.src a).toNat)
  | .ctz d a => some (d, if c.src a = 0 then r.toNat = 64
      else 2 ^ r.toNat ∣ (c.src a).toNat ∧ ¬ 2 ^ (r.toNat + 1) ∣ (c.src a).toNat)
  | .popc d a => some (d, r.toNat = ((List.range 64).filter (fun k => (c.src a).getLsbD k)).length)
  | .sel d a b e => some (d, (c.src a ≠ 0 → r = c.src b) ∧ (c.src a = 0 → r = c.src e))
  | .setc cc d a b => some (d, (ICond.means cc (c.src a) (c.src b) → r = 1) ∧ (¬ ICond.means cc (c.src a) (c.src b) → r = 0))
  | .mov d a => some (d, r = c.src a)
  | .liT2I d v => some (d, r.toInt = v.toInt)
  | .liT4L d v => some (d, r = v)
  | .ext d a pos len1 n => some (d,
      if n then r.toNat = (c.src a).toNat / 2 ^ pos.val % 2 ^ min (len1.val + 1) (64 - pos.val)
      else r.toInt = Int.bmod ((c.src a).toNat / 2 ^ pos.val : Nat) (2 ^ min (len1.val + 1) (64 - pos.val)))
  | .ins d a pos len1 => some (d, ∀ k < 64, r.getLsbD k =
      if pos.val ≤ k ∧ k < pos.val + (len1.val + 1) then (c.src a).getLsbD (k - pos.val) else (c.dstVal d).getLsbD k)
  | _ => none

/-- A floating-point source of a type: the low bits of the register (R104). -/
def flow (c : Ctx) (t : FTy) (a : Src) : Nat := (c.src a).toNat % 2 ^ t.ty.width

/-- Destination, value and flags of a scalar floating-point form: the operation of chapter 05 at the type of the form and, where it
rounds, in the rounding mode of `%fcsr`, extended to 64 bits (R104, R112 to R117). -/
def floatForm (c : Ctx) : Instr → Option (Dst × Word × Nat)
  | .fadd t d a b => let r := fAdd t.ty c.rm (flow c t a) (flow c t b); some (d, extend t.ty r.1, r.2)
  | .fsub t d a b => let r := fSub t.ty c.rm (flow c t a) (flow c t b); some (d, extend t.ty r.1, r.2)
  | .fmul t d a b => let r := fMul t.ty c.rm (flow c t a) (flow c t b); some (d, extend t.ty r.1, r.2)
  | .fma t d a b e => let r := fFma t.ty c.rm (flow c t a) (flow c t b) (flow c t e); some (d, extend t.ty r.1, r.2)
  | .fdiv t d a b => let r := fDiv t.ty c.rm (flow c t a) (flow c t b); some (d, extend t.ty r.1, r.2)
  | .fsqrt t d a => let r := fSqrt t.ty c.rm (flow c t a); some (d, extend t.ty r.1, r.2)
  | .fmin t d a b => let r := fMinMax t.ty false (flow c t a) (flow c t b); some (d, extend t.ty r.1, r.2)
  | .fmax t d a b => let r := fMinMax t.ty true (flow c t a) (flow c t b); some (d, extend t.ty r.1, r.2)
  | .fsetc t cc d a b =>
    let r := fCompare cc (fromFormat (flow c t a) t.ty 0) (fromFormat (flow c t b) t.ty 0)
    some (d, if r.1 then 1 else 0, r.2)
  | .fcvt dt st d a => let r := convert ((c.src a).toNat % 2 ^ st.width) st 0 dt 0 c.rm; some (d, extend dt r.1, r.2)
  | .fclass t d a => some (d, BitVec.ofNat 64 (fClass t.ty (flow c t a)), 0)
  | _ => none

/-! ### Vector results, as chapter 07 words them -/

/-- Element `i` of `w`-bit elements is active under a mask: its first byte's bit is 1 (R71). -/
def elemOn (mask : Word) (w i : Nat) : Bool := mask.getLsbD (w / 8 * i)

/-- Lane `i` of `w` bits of a register (R123). -/
def elem (w i : Nat) (v : VWord) : Nat := v.toNat / 2 ^ (w * i) % 2 ^ w

/-- Flags raised by some active lane, one bit each (R93). -/
def flagsOf (n fl : Nat) (on : Nat → Bool) (f : Nat → Nat) : Prop :=
  ∀ k, fl.testBit k = true ↔ ∃ i < n, on i = true ∧ (f i).testBit k = true

/-- A lane-wise vector form that merges by its mask: destination, lane width, mask, and the code and flags of each lane. -/
structure LaneForm where
  d : VDst
  w : Nat
  m : MReg
  f : Nat → Nat × Nat

/-- The lane-wise forms on context `c`, context `w` of the pod: what each lane computes (R127 to R129, R132, R136, R138, R144). -/
def laneForm (s : State) (w : Nat) (c : Ctx) : Instr → Option LaneForm
  | .vmov d a t m => some ⟨d, t.width, m, fun i => (c.vl t a i, 0)⟩
  | .vbcast d a b t m => some ⟨d, t.width, m, fun _ => (c.vl t a ((c.src b).toNat % (512 / t.width)), 0)⟩
  | .vstep d a b t sat m => some ⟨d, t.width, m, fun i =>
      laneStep t sat c.rm ((c.src a).toNat % 2 ^ t.width) ((c.src b).toNat % 2 ^ t.width) (512 / t.width * c.gidx + i)⟩
  | .vadd d a b t sat m => some ⟨d, t.width, m, fun i =>
      if t.isInt then intLane t sat (fromInt t (c.vl t a i) + fromInt t (c.vl t b i)) else fAdd t c.rm (c.vl t a i) (c.vl t b i)⟩
  | .vsub d a b t sat m => some ⟨d, t.width, m, fun i =>
      if t.isInt then intLane t sat (fromInt t (c.vl t a i) - fromInt t (c.vl t b i)) else fSub t c.rm (c.vl t a i) (c.vl t b i)⟩
  | .vmul d a b t sat m => some ⟨d, t.width, m, fun i =>
      if t.isInt then intLane t sat (fromInt t (c.vl t a i) * fromInt t (c.vl t b i)) else fMul t c.rm (c.vl t a i) (c.vl t b i)⟩
  | .vfma d a b e t sat m => some ⟨d, t.width, m, fun i =>
      if t.isInt then intLane t sat (fromInt t (c.vl t a i) * fromInt t (c.vl t b i) + fromInt t (c.vl t e i))
      else fFma t c.rm (c.vl t a i) (c.vl t b i) (c.vl t e i)⟩
  | .vmin d a b t m => some ⟨d, t.width, m, fun i =>
      if t.isInt then intLane t false (min (fromInt t (c.vl t a i)) (fromInt t (c.vl t b i)))
      else fMinMax t false (c.vl t a i) (c.vl t b i)⟩
  | .vmax d a b t m => some ⟨d, t.width, m, fun i =>
      if t.isInt then intLane t false (max (fromInt t (c.vl t a i)) (fromInt t (c.vl t b i)))
      else fMinMax t true (c.vl t a i) (c.vl t b i)⟩
  | .vabs d a t sat m => some ⟨d, t.width, m, fun i => laneAbs t sat (c.vl t a i)⟩
  | .vand d a b t m => some ⟨d, t.width, m, fun i => (c.vl t a i &&& c.vl t b i, 0)⟩
  | .vor d a b t m => some ⟨d, t.width, m, fun i => (c.vl t a i ||| c.vl t b i, 0)⟩
  | .vxor d a b t m => some ⟨d, t.width, m, fun i => (c.vl t a i ^^^ c.vl t b i, 0)⟩
  | .vshl d a b t m => some ⟨d, t.width, m, fun i => (c.vl t a i * 2 ^ c.vl t b i, 0)⟩
  | .vshr d a b t m => some ⟨d, t.width, m, fun i => (c.vl t a i / 2 ^ c.vl t b i, 0)⟩
  | .vsha d a b t m => some ⟨d, t.width, m, fun i => (((signed t.width (c.vl t a i) / 2 ^ c.vl t b i) % 2 ^ t.width).toNat, 0)⟩
  | .vperm d a b t m => some ⟨d, t.width, m, fun i => (c.vl t a (c.vl t b i % (512 / t.width)), 0)⟩
  | .vslide d a b e t m => some ⟨d, t.width, m, fun i =>
      let j := i + (c.src e).toNat
      let n := 512 / t.width
      (if j < n then c.vl t a j else if j < 2 * n then c.vl t b (j - n) else 0, 0)⟩
  | .vrcp d a t m => some ⟨d, t.width, m, fun i => laneSfu t sRcp (c.vl t a i)⟩
  | .vrsq d a t m => some ⟨d, t.width, m, fun i => laneSfu t sRsq (c.vl t a i)⟩
  | .vexp2 d a t m => some ⟨d, t.width, m, fun i => laneSfu t sExp2 (c.vl t a i)⟩
  | .vlog2 d a t m => some ⟨d, t.width, m, fun i => laneSfu t sLog2 (c.vl t a i)⟩
  | .vtanh d a t m => some ⟨d, t.width, m, fun i => laneSfu t sTanh (c.vl t a i)⟩
  | .vdot d a b t sat m =>
    let wa := if t = .f64 then 64 else 32
    some ⟨d, wa, m, fun j => laneDot t sat (elem wa j (c.vold d)) ((List.range (wa / t.width)).map (fun q =>
      (c.vl t a (wa / t.width * j + q), c.vl t b (wa / t.width * j + q))))⟩
  | .vxrd d a b t m =>
    let from_ := if c.gang then s.cur + 4 * ((c.gidx + (c.src b).toNat) % 4) else w
    some ⟨d, t.width, m, fun i => ((s.ctx from_).vl t a i, 0)⟩
  | _ => none

/-- A register merged by lane: active lanes take the result, the others keep the old value; the flags of the active lanes (R125). -/
def LaneForm.gives (g : LaneForm) (c : Ctx) (v : VWord) (fl : Nat) : Prop :=
  (∀ i < 512 / g.w, elem g.w i v = if elemOn (c.mask g.m) g.w i then (g.f i).1 % 2 ^ g.w else elem g.w i (c.vold g.d)) ∧
  flagsOf (512 / g.w) fl (elemOn (c.mask g.m) g.w) (fun i => (g.f i).2)

/-- What a mask form leaves on context `c`: a mask register with its value, or a scalar (R142). -/
def maskForm (c : Ctx) : Instr → Option Effect
  | .mand a b e => some { masks := mwrites a (c.mask b &&& c.mask e) }
  | .mor a b e => some { masks := mwrites a (c.mask b ||| c.mask e) }
  | .mxor a b e => some { masks := mwrites a (c.mask b ^^^ c.mask e) }
  | .mnot a b => some { masks := mwrites a (~~~ c.mask b) }
  | .mcnt d b t => some { scalars := c.writes d (BitVec.ofNat 64
      ((List.range (512 / t.width)).filter (elemOn (c.mask b) t.width)).length) }
  | .mfirst d b t => some { scalars := c.writes d (BitVec.ofNat 64
      (((List.range (512 / t.width)).find? (elemOn (c.mask b) t.width)).getD (512 / t.width))) }
  | _ => none

/-- A conversion between elements of a register (R134, R135): `n` elements of `dw` bits from bit `lo` of the destination, the mask
read at width `mw`, and the code and flags of each. -/
structure PartForm where
  d  : VDst
  m  : MReg
  mw : Nat
  dw : Nat
  lo : Nat
  n  : Nat
  f  : Nat → Nat × Nat

/-- The converting forms: which elements they write and what each becomes (R134, R135 Table 7.3). -/
def partForm (c : Ctx) : Instr → Option PartForm
  | .vcvt d a dt st p m =>
    let w := max dt.width st.width
    let n := 512 / w
    some ⟨d, m, w, dt.width, if st.width ≤ dt.width then 0 else dt.width * (p.val * n), n, fun i =>
      convert (elem st.width (if st.width ≤ dt.width then p.val * n + i else i) (c.vsrc st.width a)) st 0 dt 0 c.rm⟩
  | .vpack d a t p m => some ⟨d, m, 8, t.width, 64 * t.width * p.val, 64, fun i =>
      convert (elem 8 i (c.vsrc 8 a)) (packLane t) 0 t 0 c.rm⟩
  | .vunpack d a t p m => some ⟨d, m, 8, 8, 0, 64, fun i =>
      convert ((c.vsrc 8 a).toNat / 2 ^ (64 * t.width * p.val + t.width * i) % 2 ^ t.width) t 0 (packLane t) 0 c.rm⟩
  | _ => none

/-- The register of a converting form: active elements take the result, the other elements of the part and every bit outside it
keep the old value. -/
def PartForm.gives (g : PartForm) (c : Ctx) (v : VWord) (fl : Nat) : Prop :=
  (∀ i < g.n, v.toNat / 2 ^ (g.lo + g.dw * i) % 2 ^ g.dw =
    if elemOn (c.mask g.m) g.mw i then (g.f i).1 % 2 ^ g.dw else (c.vold g.d).toNat / 2 ^ (g.lo + g.dw * i) % 2 ^ g.dw) ∧
  (∀ k < 512, ¬ (g.lo ≤ k ∧ k < g.lo + g.dw * g.n) → v.getLsbD k = (c.vold g.d).getLsbD k) ∧
  flagsOf g.n fl (elemOn (c.mask g.m) g.mw) (fun i => (g.f i).2)

/-- The active lanes of a source over the cores of the current firing, each as its gang lane and its code (R143). -/
def State.gangLanes (s : State) (t : Ty) (a : VSrc) (m : MReg) : List (Nat × Nat) :=
  (s.members s.cur).flatMap (fun k =>
    ((List.range (512 / t.width)).filter (elemOn ((s.ctx k).mask m) t.width)).map (fun i =>
      (512 / t.width * ((k - s.cur) / 4) + i, (s.ctx k).vl t a i)))

/-- `x` ranks first among `xs`, of type `t` (R102, R140). -/
def ranksFirst (t : Ty) (isMax : Bool) (xs : List (Nat × Nat)) (x : Nat × Nat) : Prop :=
  x ∈ xs ∧ ∀ y ∈ xs, y ≠ x → rank isMax (fromFormat x.2 t 0) x.1 (fromFormat y.2 t 0) y.1 = true

/-! ### Control and special registers -/

/-- Direct target of a branch: line of the branch, plus 64 bytes for each line of displacement, plus the index (R39). -/
def Ctx.target (c : Ctx) (disp : Int) (idx : Nat) : Word :=
  c.pc - c.pc % 64 + 64 * BitVec.ofInt 64 disp + BitVec.ofNat 64 idx

/-- Scalar writes and next PC of a control form (R119). -/
def controlForm (c : Ctx) : Instr → Option (List (Nat × Word) × Word)
  | .brT2I disp idx => some ([], c.target disp.toInt idx.val)
  | .brT4 disp idx => some ([], c.target disp.toInt idx.val)
  | .bc cc a b disp idx => some ([], if condHolds cc (c.src a) (c.src b) then c.target disp.toInt idx.val else c.npc)
  | .callT2I d disp idx => some (c.writes d c.npc, c.target disp.toInt idx.val)
  | .callT4 d disp idx => some (c.writes d c.npc, c.target disp.toInt idx.val)
  | .ret a => some ([], c.src a)
  | .jmp a => some ([], c.src a)
  | .loop d disp idx => some (c.writes d (c.dstVal d - 1), if c.dstVal d - 1 ≠ 0 then c.target disp.toInt idx.val else c.npc)
  | _ => none

/-- What the contexts of a gang must agree on: the outcome of BC and LOOP, the target of RET and JMP (R120). -/
def controlChoice (c : Ctx) : Instr → Word
  | .bc cc a b _ _ => if condHolds cc (c.src a) (c.src b) then 1 else 0
  | .loop d _ _ => if c.dstVal d - 1 ≠ 0 then 1 else 0
  | .ret a => c.src a
  | .jmp a => c.src a
  | _ => 0

/-- The value of a special register at context `w` (R73 Table 4.2, R75 to R80). -/
def specialValue (s : State) (w : Nat) (n : Spr) : Word :=
  let c := s.ctx w
  let gc := w / 4
  let k := s.core gc
  match n with
  | .ctx => BitVec.ofNat 64 (w % 4)
  | .core => BitVec.ofNat 64 (gc % 2048)
  | .clu => BitVec.ofNat 64 (gc % 2048 / 8)
  | .stk => BitVec.ofNat 64 (gc % 2048 / 128)
  | .pkg => BitVec.ofNat 64 (gc / 2048)
  | .part => BitVec.ofNat 64 c.part
  | .aid => BitVec.ofNat 64 c.aid
  | .slot => BitVec.ofNat 64 (if c.kind = .pool then 64 else c.slot)
  | .rule => BitVec.ofNat 64 c.rule
  | .mwin => BitVec.ofNat 64 (0xE4000 + 0x400 * (w % 4))
  | .state => BitVec.ofNat 64 c.sbase
  | .nmsg => BitVec.ofNat 64 c.nmsg
  | .gidx => BitVec.ofNat 64 c.gidx
  | .fcsr => c.fcsr.setWidth 64
  | .oc => BitVec.ofNat 64 (c.ocLd + 2 ^ 8 * c.ocSt + 2 ^ 16 * c.ocCp + 2 ^ 24 * c.ocTl)
  | .yreq => if c.yreq then 1 else 0
  | .cyc => BitVec.ofNat 64 (s.now - (s.mod (gc / 2048)).bootAt)
  | .fcst => BitVec.ofNat 64 k.fcst
  | .lmask => c.lmask
  | .bfmt i => (FMap.get 0x1F k.bfmt i.val).setWidth 64
  | .fsyn => c.fsyn
  | .fva => c.fva
  | .fpc => c.fpc
  | .fmsg => c.fmsg
  | .sctl => k.sctl
  | .bud i => FMap.get budReset k.bud i.val

/-- `%fcsr` after a write of `v` over `old`: flags [13:8] as written, the rounding mode [2:0] unless its code is 5 to 7, and every
other bit 0 (R75). -/
def fcsrAfter (old new : BitVec 32) (v : Word) : Prop :=
  (∀ k < 32, new.getLsbD k = if 8 ≤ k ∧ k ≤ 13 then v.getLsbD k
    else if k ≤ 2 then (if v.toNat % 8 ≤ 4 then v.getLsbD k else old.getLsbD k) else false)

/-! ### Memory operands and stored bytes -/

/-- The operand of a core-path access: space, base register value, index and displacement, bytes, alignment, policy (R190, R194, R195,
R197). -/
structure MemOperand where
  sp : MSpace
  base : Word
  off : Int
  n : Nat
  align : Nat
  pol : Policy

/-- Address of the first byte of an operand as the program gives it, modulo 2^64. -/
def MemOperand.va (o : MemOperand) : Nat := wrap 64 (opOffset o.sp o.base o.off)

/-- Bytes and alignment of an LD or ST: the width of the type; 16 bytes at 8 for `.raw` (R195). -/
def scalarSize (t : Option Ty) : Nat × Nat := match t with | some t => (t.width / 8, t.width / 8) | none => (16, 8)

/-- The memory operand of an LD, ST, LDV or STV of context `w`. An LDV or STV moves 64 bytes, or what its bank's format makes of the
register (R197). -/
def memOperand (s : State) (w : Nat) : Instr → Option MemOperand
  | .ldT2 _ a ix sc t sp pol => scalar a ix sc t sp pol 0
  | .ldT4 _ a ix sc t sp pol disp => scalar a ix sc t sp pol disp.toInt
  | .stT2 _ a ix sc t sp pol => scalar a ix sc t sp pol 0
  | .stT4 _ a ix sc t sp pol disp => scalar a ix sc t sp pol disp.toInt
  | .ldvT2 _ a ix sc t sp pol _ => vector a ix sc t sp pol 0
  | .ldvT4 _ a ix sc t sp pol _ disp => vector a ix sc t sp pol disp.toInt
  | .stvT2 _ a ix sc t sp pol => vector a ix sc t sp pol 0
  | .stvT4 _ a ix sc t sp pol disp => vector a ix sc t sp pol disp.toInt
  | _ => none
where
  /-- Operand of a scalar access. -/
  scalar (a : Src) (ix : Option Src) (sc : Fin 4) (t : Option Ty) (sp : MSpace) (pol : Policy) (disp : Int) : Option MemOperand :=
    let c := s.ctx w
    some ⟨sp, c.src a, (c.srcOr0 ix).toInt * 2 ^ sc.val + disp, (scalarSize t).1, (scalarSize t).2, pol⟩
  /-- Operand of a vector access. -/
  vector (a : Src) (ix : Option Src) (sc : Fin 4) (t : Option Ty) (sp : MSpace) (pol : Policy) (disp : Int) : Option MemOperand :=
    let c := s.ctx w
    let off := (c.srcOr0 ix).toInt * (if sc.val = 0 then 1 else 8 * 2 ^ sc.val) + disp
    let n := vecSize t (s.bankFmt w t sp (c.src a) off)
    some ⟨sp, c.src a, off, n, alignOf n, pol⟩

/-- No byte of a local access lies in a guard granule, in a poisoned line or in a scratchpad word with an error (R179, R184, R392). -/
def cleanBytes (s : State) (l : List RByte) : Prop :=
  ∀ b ∈ l, ∃ pa hb cls, b = .mem pa hb cls ∧ s.poisoned pa = false

/-- What a local load writes, from the bytes it reads and the format of its bank: the value extended to 64 bits, or a pair of registers
for `.raw` (R195); lane by lane the bytes or the converted elements, inactive lanes and lanes beyond the elements kept (R197). -/
def loadForm (s : State) (w : Nat) (bs : List Byte) : Instr → Effect → Prop
  | .ldT2 d _ _ _ t _ _, e => scalar d t e
  | .ldT4 d _ _ _ t _ _ _, e => scalar d t e
  | .ldvT2 d a ix sc t sp _ m, e => vector d t sp ((s.ctx w).src a) ((s.ctx w).offset ix (scaleV sc) 0) m e
  | .ldvT4 d a ix sc t sp _ m disp, e => vector d t sp ((s.ctx w).src a) ((s.ctx w).offset ix (scaleV sc) disp.toInt) m e
  | _, _ => False
where
  /-- Effect of LD. -/
  scalar (d : Dst) (t : Option Ty) (e : Effect) : Prop :=
    match t, d with
    | some t, _ => e = { scalars := (s.ctx w).writes d (extend t (leNat bs)) }
    | none, .s n => e = { scalars := [(n.val, BitVec.ofNat 64 (leNat (bs.take 8))), (n.val + 1, BitVec.ofNat 64 (leNat (bs.drop 8)))] }
    | none, _ => False
  /-- Effect of LDV. -/
  vector (d : VDst) (t : Option Ty) (sp : MSpace) (base : Word) (off : Int) (m : MReg) (e : Effect) : Prop :=
    let c := s.ctx w
    let rw := match t with | some t => t.width | none => 8
    ∃ (v : VWord) (fl : Nat) (n : Nat) (f : Nat → Nat × Nat),
      (match t, s.bankFmt w t sp base off with
       | some t, some k => n = min (512 / t.width) (512 / bankWidth k) ∧ f = fun i =>
          fromBank k t c.rm (leNat bs / 2 ^ (bankWidth k * i) % 2 ^ bankWidth k)
       | _, _ => n = 512 / rw ∧ f = fun i => (leNat bs / 2 ^ (rw * i) % 2 ^ rw, 0)) ∧
      (∀ i < 512 / rw, elem rw i v = if i < n ∧ elemOn (c.mask m) rw i = true then (f i).1 % 2 ^ rw else elem rw i (c.vold d)) ∧
      flagsOf (512 / rw) fl (fun i => decide (i < n) && elemOn (c.mask m) rw i) (fun i => (f i).2) ∧
      e = { vectors := c.vwrites d v, flags := fl }

/-- Bytes that an ST or STV stores, with the flags of its conversion (R195, R197). -/
def storeForm (s : State) (w : Nat) : Instr → Option (List Byte × Nat)
  | .stT2 b _ _ _ t _ _ => some (scalar b t, 0)
  | .stT4 b _ _ _ t _ _ _ => some (scalar b t, 0)
  | .stvT2 b a ix sc t sp _ => some (vector b t (s.bankFmt w t sp ((s.ctx w).src a) ((s.ctx w).offset ix (scaleV sc) 0)))
  | .stvT4 b a ix sc t sp _ disp => some (vector b t (s.bankFmt w t sp ((s.ctx w).src a) ((s.ctx w).offset ix (scaleV sc) disp.toInt)))
  | _ => none
where
  /-- Bytes of ST. -/
  scalar (b : Src) (t : Option Ty) : List Byte :=
    match t, b with
    | none, .s n => leBytes 8 ((s.ctx w).sreg n.val).toNat ++ leBytes 8 ((s.ctx w).sreg (n.val + 1)).toNat
    | _, _ => leBytes (scalarSize t).1 ((s.ctx w).src b).toNat
  /-- Bytes of STV. -/
  vector (b : VSrc) (t : Option Ty) (fmt : Option Nat) : List Byte × Nat :=
    stvBytes t fmt ((s.ctx w).vsrc (match t with | some t => t.width | none => 8) b)

/-- The lanes that an outstanding LDV writes, those that its mask has active, and the bytes that it reads, those of these lanes (R47, R197). -/
def vectorLoad (c : Ctx) (x : Load) (l : List RByte) (d : VDst) (ty : Option Ty) (m : MReg) : Prop :=
  x.dst = .vec d (rawWidth ty) ((List.range (512 / rawWidth ty)).map (fun i => active (c.mask m) (rawWidth ty) i)) (c.vold d) ∧
  x.addrs.map (fun p => p.1) = (activeBytes (rawWidth ty) (c.mask m) l).filterMap RByte.pa?

/-- An outstanding load names the destination of a global LD or LDV and the bytes that it is to read, for LDV with the lanes that it writes
(R195, R197). -/
def loadNames (c : Ctx) (i : Instr) (x : Load) (l : List RByte) : Prop :=
  match i with
  | .ldT2 d _ _ _ (some y) .. => x.dst = .scalar d y ∧ x.addrs.map (fun p => p.1) = l.filterMap RByte.pa?
  | .ldT4 d _ _ _ (some y) .. => x.dst = .scalar d y ∧ x.addrs.map (fun p => p.1) = l.filterMap RByte.pa?
  | .ldT2 (.s n) .. => x.dst = .pair n.val ∧ x.addrs.map (fun p => p.1) = l.filterMap RByte.pa?
  | .ldT4 (.s n) .. => x.dst = .pair n.val ∧ x.addrs.map (fun p => p.1) = l.filterMap RByte.pa?
  | .ldvT2 d _ _ _ ty _ _ m => vectorLoad c x l d ty m
  | .ldvT4 d _ _ _ ty _ _ m _ => vectorLoad c x l d ty m
  | _ => False

/-- From `s` to `t` each context of the current firing has got an outstanding load with what `P` says of it, and goes on; nothing else has
changed (R26, R28). -/
def loadsAdded (s t : State) (P : Nat → Load → Prop) : Prop :=
  t = { s with ctxs := t.ctxs, uid := t.uid } ∧ (∀ w, w ∉ s.members s.cur → t.ctx w = s.ctx w) ∧
  ∀ w ∈ s.members s.cur, ∃ x : Load, P w x ∧ x.org = s.origin w ∧
    t.ctx w = ({ s.ctx w with loads := (s.ctx w).loads ++ [x] } : Ctx).retired

/-- Bytes that a scattered element stores where it lies, and the flags of its conversion (R199). -/
def scattered (t : Ty) (v : VWord) (e : Elem) : List Byte × Nat :=
  let x := elem t.width e.lane v
  let y := match e.fmt with | some k => toBank k t x | none => (x, 0)
  (leBytes (e.width t / 8) y.1, y.2)

/-- A byte after the bytes `bs` are written at `l`, byte by byte, over the old value: the last that is written there. -/
def byteAfter (l : List RByte) (bs : List Byte) (pa : Nat) (old : Byte) : Byte :=
  match (l.zip bs).reverse.find? (fun x => decide (x.1.pa? = some pa)) with
  | some x => x.2
  | none => old

/-- Every byte lies in a scratchpad and can be stored there as it is: outside the state segment of the firing's actor, whose stores are
logged, and outside the descriptors, some of whose fields are read-only. -/
def portBytes (s : State) (w : Nat) (l : List RByte) : Prop :=
  ∀ pa hb cls, .mem pa hb cls ∈ l → ∃ gc a, s.region pa = .scratch gc a ∧ (s.ctx w).inState w gc a = false ∧ ¬ (0xE0000 ≤ a ∧ a < 0xE4000)

/-- The bytes of a store on its way, each with its address. -/
def Pending.cells (e : Pending) : List (Nat × Byte) := (List.range e.bytes.length).map (fun i => (e.pa + i, e.bytes.getD i 0))

/-- Resolved bytes with the values stored at them; a guard byte takes none (R179). -/
def cellsOf (l : List RByte) (bs : List Byte) : List (Nat × Byte) := (l.zip bs).filterMap (fun x => x.1.pa?.map (fun pa => (pa, x.2)))

/-- From `s` to `t` each of some contexts has sent stores of its bytes, in this order, to the ports of scratchpads: they are the last ones on
their way, and nothing but those contexts has changed with them (R215). -/
def sentToPort (s t : State) (sent : List (Nat × List (Nat × Byte))) : Prop :=
  (∃ q : List Pending, t.wq = s.wq ++ q ∧ q.map (fun e => e.uid) = (List.range q.length).map (fun k => s.uid + k) ∧
    (∀ e ∈ q, e.via = .port ∧ e.bytes ≠ []) ∧
    q.flatMap (fun e => e.cells.map (fun x => (e.org, x))) = sent.flatMap (fun y => y.2.map (fun x => (s.origin y.1, x)))) ∧
  t = { s with wq := t.wq, ctxs := t.ctxs, uid := t.uid } ∧ (∀ m, m ∉ sent.map (fun y => y.1) → t.ctx m = s.ctx m) ∧
  ∀ m ∈ sent.map (fun y => y.1), (t.ctx m).ocSt = (s.ctx m).ocSt ∨ (t.ctx m).ocSt = min 255 (s.stOut m)

/-- No store in the log of context `w` writes a byte at `pa`. -/
def notLogged (s : State) (w pa : Nat) : Prop := ∀ x ∈ logStores (s.ctx w).log, pa < x.1 ∨ x.1 + x.2.length ≤ pa

/-- Every byte of a store is logged: it is global, or in the state segment of the firing's actor (R18, R195, R196). -/
def loggedBytes (s : State) (w : Nat) (l : List RByte) : Prop :=
  ∀ b ∈ l, ∃ pa hb cls, b = .mem pa hb cls ∧ ∀ gc a, s.region pa = .scratch gc a → (s.ctx w).inState w gc a = true

/-- Address in the race-trace ring of some core (R224). -/
def inTraceRing (pa : Nat) : Prop := ∃ gc k, k < 0x4000 ∧ pa = localPA gc (0xDC000 + k)

/-- The entries that logged bytes make: one for each run of consecutive bytes of a granule (R196). -/
def logEntries (s : State) (w va : Nat) (pol : Policy) (l : List RByte) (bs : List Byte) : List LogItem :=
  (runsOf va (l.zip bs)).map (fun r => .store (s.origin w) r.va r.pa r.hb r.cls pol r.bytes)

/-- Every byte lies in HBM, or in a scratchpad outside the descriptors, in no typed cell, and holds no error. -/
def plainBytes (s : State) (l : List RByte) : Prop :=
  ∀ b ∈ l, ∃ pa hb cls, b = .mem pa hb cls ∧ s.poisoned pa = false ∧ (s.cellTag pa).1 = 0 ∧
    (s.region pa = .hbm ∨ ∃ gc a, s.region pa = .scratch gc a ∧ ¬ (0xE0000 ≤ a ∧ a < 0xE4000))

/-- A store of context `w` on its way is not yet performed at a scope: at `.core` a published global store is performed once it is
published, and an RST only concerns the core it goes to (Table 11.1). -/
def stillOut (s : State) (w : Nat) (sc : Scope) (e : Pending) : Prop :=
  e.org.w = w ∧ sc ≠ .ctx ∧ (sc = .core → e.via ≠ .home ∧ (e.via = .rst → ∃ a, s.region e.pa = .scratch (w / 4) a))

/-- A release of context `w` need not wait at a scope: its loads are bound, its stores are performed at the scope, and so is every store that a
context of its core, or in a gang of its four cores, has published (R217, R218). -/
def releasable (s : State) (w : Nat) (sc : Scope) : Prop :=
  (s.ctx w).loads = [] ∧ (∀ e ∈ s.wq, ¬ stillOut s w sc e) ∧
  ∀ e ∈ s.wq, e.via = .home ∨ e.via = .seg → (∃ m ∈ s.members w, m / 4 = e.org.w / 4) → ¬ stillOut s e.org.w sc e

/-- What FENCE, FENCEX or WAITC wait for on context `w`, and what they put into its log (R216, R221, R377). -/
def orderForm (s : State) (w : Nat) : Instr → Option (Prop × List LogItem)
  | .fence k sc => some ((k = .st ∨ sc = .ctx ∨ (s.ctx w).loads = []) ∧ (k = .ld ∨ ∀ e ∈ s.wq, ¬ stillOut s w sc e),
      if k = .ld ∨ sc = .ctx then [] else [.mark sc])
  | .fencex sc src _ => some (match src with
      | .core => (s.ctx w).loads = [] ∧ ∀ e ∈ s.wq, ¬ stillOut s w sc e
      | .tree => ∀ e ∈ s.wq, e.via = .port → ¬ stillOut s w sc e
      | .tile => ∀ m ∈ (s.clu (w / 4 / 8)).inbox, m.org.w ≠ w
      | .copy => ∀ e ∈ s.engines, e.org.w = w → e.kind = 4
      | .sel => ∀ e ∈ s.engines, e.org.w = w → e.kind ≠ 4
      | _ => True, [])
  | .waitc ld st cp tl =>
    let below := fun (n : Nat) (l : BitVec 8) => l = 255 ∨ n ≤ l.toNat
    some (below (s.ctx w).ocLd ld ∧ below (s.ctx w).ocSt st ∧ below (s.ctx w).ocCp cp ∧ below (s.ctx w).ocTl tl, [])
  | _ => none

/-- The state in which a commit point has published (R19); an instruction that has committed and waited does not publish again. -/
def State.committed (s : State) : State := if (s.ctx s.cur).pub then s else s.publish s.cur

/-- No imprecise fault takes the place of the commit point of the current instruction (R382). -/
def State.mayCommit (s : State) : Prop := (s.ctx s.cur).pub = true ∨ s.pendingFault s.cur = none

/-! ### Typed cells -/

/-- What a cell instruction asks of the home of its cell: whether it releases, the scope and waiting mode it names, where its result
goes, the address of the cell, and the operation (R348 to R362). CND.WAIT, which names two cells, is stated apart. -/
structure CellAsk where
  rel : Bool
  sc : Option CScope
  mode : WMode
  dst : CellDst
  va : Word
  act : CellAct

/-- The request of a cell instruction (R355 to R362). -/
def cellAsk (c : Ctx) : Instr → Option CellAsk
  | .oinit k sc st a w0 w1 => some ⟨true, some sc, .park, .word st (c.src a), c.src a, .init k sc (c.src w0) (c.src w1)⟩
  | .ofree st a => some ⟨true, none, .park, .word st (c.src a), c.src a, .free⟩
  | .oread sc n b mt => some ⟨false, sc, .park, .read (2 * n.val) (mt.map (fun m => m.val)) (c.src b), c.src b, .read⟩
  | .cntAdd sc a b x => some ⟨true, sc, .park, .word a (c.src b), c.src b, .cntAdd (c.src x).toInt⟩
  | .cntWait cc sc wm a b x => some ⟨false, sc, wm, .word a (c.src b), c.src b, .cntWait cc (c.src x).toInt⟩
  | .barArv sc a b x => some ⟨true, sc, .park, .word a (c.src b), c.src b, .barArv (c.src x).toInt⟩
  | .barExp sc a b x => some ⟨true, sc, .park, .word a (c.src b), c.src b, .barExp (c.src x).toInt⟩
  | .barWait sc wm a b x => some ⟨false, sc, wm, .word a (c.src b), c.src b, .barWait ((c.src x).toNat % 2 ^ 32)⟩
  | .lckTake sc wm a b => some ⟨false, sc, wm, .word a (c.src b), c.src b, .lckTake⟩
  | .lckGive sc a b => some ⟨true, sc, .park, .word a (c.src b), c.src b, .lckGive⟩
  | .qRes sc wm a b => some ⟨false, sc, wm, .word a (c.src b), c.src b, .qRes⟩
  | .qPub sc tr a b x => some ⟨true, sc, if tr then .try_ else .park, .word a (c.src b), c.src b, .qPub ((c.src x).toNat % 2 ^ 24)⟩
  | .qAwait sc wm a b => some ⟨false, sc, wm, .word a (c.src b), c.src b, .qAwait⟩
  | .qRel sc a b x => some ⟨true, sc, .park, .word a (c.src b), c.src b, .qRel (c.src x).toInt⟩
  | .cndSig sc a b => some ⟨true, sc, .park, .word a (c.src b), c.src b, .cndSig⟩
  | .cndAll sc a b => some ⟨true, sc, .park, .word a (c.src b), c.src b, .cndAll⟩
  | _ => none

/-- From state `v` the request has gone to the home and the firing stalls for its result: the state is `t` (R340, R351). -/
def requestSent (v t : State) (w pa hb : Nat) (q : CellAsk) : Prop :=
  ∃ op : CellOp, op.act = q.act ∧ op.pa = pa ∧ op.sc = q.sc ∧ op.mode = q.mode ∧ op.org = v.origin w ∧ op.va = q.va ∧
    (t.clu (homeOf pa hb)).hsu = (v.clu (homeOf pa hb)).hsu ++ [op] ∧ (∀ h, h ≠ homeOf pa hb → t.clu h = v.clu h) ∧
    t.mem = v.mem ∧ t.wq = v.wq ∧ t.net = v.net ∧ (t.ctx w).cellDst = q.dst ∧
    ∀ m, t.ctx m = if m ∈ v.members w then { v.ctx m with phase := .waitCell, cellDst := (t.ctx m).cellDst } else v.ctx m

/-- Contents that OINIT gives a cell, when its operands are in range (Table 18.6). -/
def initCell (k : CellKind) (sc : CScope) (w0 w1 : Nat) (a b : Nat) : Prop :=
  match k with
  | .cnt => w1 = 0 ∧ a = w0 ∧ b = cscopeCode sc
  | .bar => 1 ≤ w0 / 2 ^ 32 ∧ w0 / 2 ^ 32 < 2 ^ 31 ∧ w1 % 2 ^ 32 < 2 ^ 31 ∧ 1 ≤ w1 / 2 ^ 32 ∧ w1 / 2 ^ 32 < 2 ^ 24 ∧ a = w0 ∧ b = w1
  | .lck => w0 < 2 ^ 32 ∧ w1 = 0 ∧ a = w0 * 2 ^ 32 + w0 ∧ b = 0
  | .q => 1 ≤ w0 ∧ w0 ≤ 16 ∧ w1 = 0 ∧ a = w0 * 2 ^ 48 ∧ b = 0
  | .cnd => w0 < 2 ^ 32 ∧ w1 = 0 ∧ a = w0 ∧ b = 0

/-- No byte outside the 16 of a cell has changed. -/
def onlyCell (s t : State) (pa : Nat) : Prop := ∀ a, ¬ (pa ≤ a ∧ a < pa + 16) → t.rdByte a = s.rdByte a

/-- From `s` to `t` an operation has left a barrier with arrivals `arr` and bytes `n`, `sat` says whether bytes were cut, and the cell has been
tested: with neither above 0 its phase has completed (R334, R335). -/
def barTested (s t : State) (pa : Nat) (arr n : Int) (sat : Bool) : Prop :=
  let ends := arr ≤ 0 ∧ n ≤ 0
  t.cellW pa 0 % 2 ^ 32 = (s.cellW pa 0 + if ends then 1 else 0) % 2 ^ 32 ∧
  signed 32 (t.cellW pa 0 / 2 ^ 32) = (if ends then ((s.cellW pa 1 / 2 ^ 32 % 2 ^ 24 : Nat) : Int) else arr) ∧
  signed 32 (t.cellW pa 1) = n ∧ t.cellW pa 1 / 2 ^ 32 % 2 ^ 24 = s.cellW pa 1 / 2 ^ 32 % 2 ^ 24 ∧
  bit (t.cellW pa 1) 56 = (bit (s.cellW pa 1) 56 || decide (ends ∧ n < 0)) ∧ bit (t.cellW pa 1) 57 = (bit (s.cellW pa 1) 57 || sat) ∧
  onlyCell s t pa

/-- The issuer `aid` on core `gc` matches the holder fields of a lock (R360). -/
def holdsLock (w1 aid gc : Nat) : Bool :=
  if aid = 0 then decide (w1 / 2 ^ 24 % 2 ^ 11 = gc % 2 ^ 11 ∧ w1 / 2 ^ 35 % 2 ^ 8 = gc / 2 ^ 11 % 2 ^ 8) else decide (w1 % 2 ^ 24 = aid)

/-! ### Engine commands -/

/-- The copy that CPY, CPY2, CPYX or FILL asks for, and the operand that gives its length: rows as byte offsets from the operands
with the bytes of each, the units of a row, and the engine, the edge engine of the core unless `.s` (R271, R278, R281 to R284).
`bs` are the bytes of an index list. -/
def copyAsk (s : State) (w : Nat) (bs : List Byte) : Instr → Option (CopyReq × Word)
  | .cpy stream a b n o dsp ssp act pol fmt =>
    let c := s.ctx w
    let h := s.shape w dsp ssp (c.src a) (c.src b) fmt
    let x := (c.src n).toNat
    some ({ kind := 0, eng := if stream then none else some (edgeOf (w / 4)), fmt := fmt, pol := pol, o := o, dsp := dsp, ssp := some ssp
            a := c.src a, b := c.src b, act := act, count := if h.conv then x else (h.sw * x + 7) / 8, shape := h
            drows := [(0, (h.dw * x + 7) / 8)], srows := [(0, (h.sw * x + 7) / 8)] }, c.src n)
  | .cpy2 a b n o dsp ssp act pol fmt st =>
    let c := s.ctx w
    let h := s.shape w dsp ssp (c.src a) (c.src b) fmt
    let x := (c.src n).toNat % 2 ^ 24
    let rows := List.range ((c.src n).toNat / 2 ^ 24 % 2 ^ 16 + 1)
    some ({ kind := 1, eng := some (edgeOf (w / 4)), fmt := fmt, pol := pol, o := o, dsp := dsp, ssp := some ssp
            a := c.src a, b := c.src b, act := act, count := if h.conv then x else (h.sw * x + 7) / 8, shape := h
            drows := rows.map (fun r => ((r : Int) * signed 32 ((c.src st).toNat / 2 ^ 32 % 2 ^ 32), (h.dw * x + 7) / 8))
            srows := rows.map (fun r => ((r : Int) * signed 32 ((c.src st).toNat % 2 ^ 32), (h.sw * x + 7) / 8)) }, c.src n)
  | .cpyx a b n o dsp ssp act pol fmt _ =>
    let c := s.ctx w
    let h := s.shape w dsp ssp (c.src a) (c.src b) fmt
    let x := (c.src n).toNat % 2 ^ 24
    let rows := List.range ((c.src n).toNat / 2 ^ 24 % 2 ^ 8 + 1)
    let scale := (c.src n).toNat / 2 ^ 32
    some ({ kind := 2, eng := some (edgeOf (w / 4)), fmt := fmt, pol := pol, o := o, dsp := dsp, ssp := some ssp
            a := c.src a, b := c.src b, act := act, count := if h.conv then x else (h.sw * x + 7) / 8, shape := h
            drows := rows.map (fun r => (((r * ((h.dw * x + 7) / 8) : Nat) : Int), (h.dw * x + 7) / 8))
            srows := rows.map (fun r => (((leNat ((bs.drop (4 * r)).take 4) * scale : Nat) : Int), (h.sw * x + 7) / 8)) }, c.src n)
  | .fill a b n o dsp act pol =>
    let c := s.ctx w
    let x := (c.src n).toNat
    some ({ kind := 3, eng := some (edgeOf (w / 4)), fmt := none, pol := pol, o := o, dsp := dsp, ssp := none
            a := c.src a, b := c.src b, act := act, count := x, shape := { conv := false, sw := 8, dw := 8 }
            drows := [(0, x)], srows := [] }, c.src n)
  | _ => none

/-- What an instruction that issues a copy reads and asks before its ranges are resolved: a CPYX reads its index list on the core
path, and a CPY2 has no bit of its length above bit 39 (R282, R283). -/
def copyReady (s : State) (w : Nat) (bs : List Byte) : Instr → Prop
  | .cpyx _ _ n _ _ _ _ _ _ list =>
    ∃ l, s.resolveL w ((s.ctx w).src list).toNat (4 * (((s.ctx w).src n).toNat / 2 ^ 24 % 2 ^ 8 + 1)) 4 false = .ok l ∧ bs = s.readBytes w l
  | .cpy2 _ _ n _ _ _ _ _ _ _ => ((s.ctx w).src n).toNat < 2 ^ 40
  | _ => True

/-- Byte `i` of a source of a command, where its spans place it. -/
def sourceByte (s : State) (sp : List Span) (i : Nat) : Byte := (spanAt sp i).elim 0 (fun x => s.rdByte x.2.1)

/-- Byte `i` of the current row of a command that moves bytes unchanged: of its copy's source, of FILL's pattern, the low byte first (R284), or of
the output list of a selection: 8 bytes an entry, the block in [31:0] and the bits of its score in [63:32], and index 0xFFFF_FFFF with
score 0 behind the last block (R289). -/
def engByte (s : State) (e : EngCmd) (i : Nat) : Byte :=
  match e.bsel with
  | some b => (match b.sel[i / 8]? with | some x => leBytes 4 x.1 ++ leBytes 4 x.2 | none => leBytes 8 0xFFFFFFFF).getD (i % 8) 0
  | none => if e.kind = 3 then (leBytes 8 e.pat.toNat).getD (i % 8) 0 else sourceByte s (e.src.getD e.row []) i

/-- The command may write `n` bytes of a row from byte `o` on, which lie from physical address `pa` on, in no typed cell (R189, R276). -/
def rowOpen (s : State) (e : EngCmd) (d : List Span) (o n pa : Nat) : Prop :=
  ∀ i < n, (∃ va hb cls, spanAt d (o + i) = some (va, pa + i, hb, cls)) ∧ s.devOk (e.org.w / 4 / 2048) e.org.part true (pa + i) = true ∧
    s.skips (pa + i) = false ∧ ¬ inTraceRing (pa + i)

/-- The command may read `n` bytes of a source from byte `o` on, none of them poisoned (R184, R189). -/
def rowClean (s : State) (e : EngCmd) (sp : List Span) (o n : Nat) : Prop :=
  ∀ i < n, ∃ va pa hb cls, spanAt sp (o + i) = some (va, pa, hb, cls) ∧ s.devOk (e.org.w / 4 / 2048) e.org.part false pa = true ∧
    s.poisoned pa = false

/-- The bytes `f` stand at `n` addresses from `pa` on, and no other byte outside the race-trace rings has changed. -/
def wroteBytes (s t : State) (pa n : Nat) (f : Nat → Byte) : Prop :=
  ∀ a, ¬ inTraceRing a → t.rdByte a = if pa ≤ a ∧ a < pa + n then f (a - pa) else s.rdByte a

/-- Block `i` is forced (R288). -/
def forcedBlock (b : BselCmd) (i : Nat) : Prop := i < b.N ∧ (i < 64 ∧ b.force.testBit i = true ∨ b.N ≤ i + b.trail)

/-- Score of block `i`, its code and its flags: the query and the summary, element by element, with the bias that follows the elements, summed
exactly and rounded once to FP32 (R287, R288). -/
def blockScore (s : State) (b : BselCmd) (i : Nat) : Nat × Nat :=
  let ws := b.sfmt.width
  let at_ := i * (16 * ((b.dim * ws / 8 + (if b.ben then 4 else 0) + 15) / 16))
  let num := fun (t : Ty) (f : Nat → Byte) (j : Nat) =>
    fromFormat (leNat ((List.range (t.width / 8)).map (fun x => f (j * (t.width / 8) + x)))) t 0
  let terms := (List.range b.dim).map (fun j =>
    termMul (num b.qfmt (fun n => b.query.getD n 0) j) (num b.sfmt (fun n => sourceByte s b.sums (at_ + n)) j))
  let bias := if b.ben then [num .f32 (fun n => sourceByte s b.sums (at_ + b.dim * ws / 8 + n)) 0] else []
  anchored (terms ++ bias) (if b.qfmt = .f32 then 96 else 80) .f32

/-! ### Sends -/

/-- A packet that a send asks for (R239 to R243): its kind, length in units, successor entries, mailbox, destination, pool, RV and
reply mailbox; whether its operands are valid; and its words behind the header, or the local address they are read from. -/
structure SendAsk where
  kind : Nat
  len : Nat
  nsucc : Nat := 0
  mb : Nat := 0
  dest : Nat := 0
  pool : Nat := 0
  rv : Bool := false
  rmb : Nat := 0
  valid : Prop
  image : Option Word := none
  words : Pkt := []

/-- The packet of a sending instruction of context `c` (R239 to R243). -/
def sendForm (c : Ctx) : Instr → Option SendAsk
  | .send a b len1 nsucc =>
    let x := (c.src a).toNat
    some { kind := 0, len := len1.val + 1, nsucc := nsucc.val, mb := x / 2 ^ 24 % 4, dest := x % 2 ^ 24, rv := (c.src a).getLsbD 26
           rmb := x / 2 ^ 27 % 4, valid := x < 2 ^ 29, image := some (c.src b) }
  | .sendv a b e vp =>
    let x := (c.src a).toNat
    some { kind := 0, len := if vp.isSome then 6 else 2, mb := x / 2 ^ 24 % 4, dest := x % 2 ^ 24, rv := (c.src a).getLsbD 26
           rmb := x / 2 ^ 27 % 4, valid := x < 2 ^ 29
           words := c.src b :: c.src e :: (match vp with | some v => wordsOf 8 (leBytes 64 (c.vsrc 8 v).toNat) | none => []) }
  | .sendp a b len1 nsucc =>
    let x := (c.src a).toNat
    some { kind := 1, len := len1.val + 1, nsucc := nsucc.val, pool := x % 2 ^ 16, rv := (c.src a).getLsbD 26, rmb := x / 2 ^ 27 % 4
           valid := x < 2 ^ 29 ∧ x / 2 ^ 16 % 2 ^ 8 = 0 ∧ x % 2 ^ 16 ≠ 0, image := some (c.src b) }
  | .reply a b len1 nsucc rv rmb =>
    let p := c.msgs.getD (c.src a).toNat []
    some { kind := 0, len := len1.val + 1, nsucc := nsucc.val, mb := Pkt.rmb p, dest := Pkt.sender p, rv := rv, rmb := rmb.val
           valid := (c.src a).toNat < c.nmsg ∧ Pkt.rv p = true ∧ Pkt.sender p ≠ 0, image := some (c.src b) }
  | .activate a b e g =>
    some { kind := 2, len := 3, dest := (c.src a).toNat, valid := c.supv = true ∧ (c.src a).toNat < 2 ^ 19
           words := [c.src e, c.src g, c.src b, 0] }
  | _ => none

/-- Header and payload of the packet that a send places, before its sequence is known (Table 12.2, R227). -/
def SendAsk.gives (q : SendAsk) (s : State) (w : Nat) (img p : Pkt) : Prop :=
  let c := s.ctx w
  Pkt.kind p = q.kind ∧ Pkt.word p 0 % 16 = q.len % 16 ∧ Pkt.mb p = q.mb ∧ Pkt.nsucc p = q.nsucc ∧ Pkt.dest p = q.dest ∧
  Pkt.pool p = q.pool ∧ Pkt.rv p = q.rv ∧ Pkt.sup p = c.supv ∧ Pkt.rmb p = (if q.rv then q.rmb else 0) ∧
  Pkt.sender p = (match c.kind with | .actor => c.aid | .activate => s.supHandle (w / 4) | _ => 0) % 2 ^ 24 ∧
  p.drop 2 = img

/-! ### Array commands -/

/-- In state `s`, with `u` what the translation of its rows leaves, a matrix instruction of context `w` is allowed and asks its array
for the command `op` (R147, R152, R153, R160 to R165). -/
def arrayAsk (s u : State) (w : Nat) : Instr → MOp → Prop
  | .mloadw p a b, op =>
    let c := s.ctx w
    ∃ bf n len st, u = s ∧ s.holdsPair w p.val = true ∧ (c.src a).toNat % 16 = 0 ∧ (c.src b).toNat % 16 = 0 ∧
      s.sourceBank w (c.src a) = .ok bf ∧ loadwRows (bf.fmt.getD .i8) bf.order (c.src b).toNat = (n, len, st) ∧
      s.rowsBad w (c.src a).toNat false (rowsAt (c.src a).toNat st len n) = none ∧ op = .loadw p.val (c.src a).toNat st bf
  | .mswap p, op => u = s ∧ s.holdsPair w p.val = true ∧ op = .swap p.val
  | .mstream t p a b row0 n1 sat, op =>
    let c := s.ctx w
    ∃ bf, u = s ∧ s.holdsTile w t.val = true ∧ s.holdsPair w p.val = true ∧ (c.src a).toNat % 16 = 0 ∧ (c.src b).toNat % 16 = 0 ∧
      s.sourceBank w (c.src a) = .ok bf ∧
      let len := 16 * (bf.fmt.getD .i8).width
      let st := if (c.src b).toNat = 0 then len else (c.src b).toNat
      s.rowsBad w (c.src a).toNat false (rowsAt (c.src a).toNat st len (n1.val + 1)) = none ∧
      op = .stream t.val p.val (c.src a).toNat st row0.val (n1.val + 1) sat bf
  | .mepi k g t a b row0 n1 ncol1, op =>
    let c := s.ctx w
    let cfg := FMap.get {} (s.clu (w / 4 / 8)).mrecs c.key
    let av := (c.src a).toNat
    s.holdsTile w t.val = true ∧ av % 16 = 0 ∧ (c.src b).toNat % 16 = 0 ∧ (∀ v ∈ cfg.vectors, v % 16 = 0) ∧
    (∀ v ∈ cfg.vectors, s.rowsBad w v false [(v, (ncol1.val + 1) * vecBytes k)] = none) ∧
    (g = false → ∃ bf st, u = s ∧ s.epiLocal w cfg av (c.src b).toNat (n1.val + 1) (ncol1.val + 1) = .ok (some bf, st) ∧
      op = .epi k false t.val av st row0.val (n1.val + 1) (ncol1.val + 1) cfg (some bf) []) ∧
    (g = true → ∃ st sp, st = strideOr (c.src b).toNat (rowBytes cfg.dfmt.width (ncol1.val + 1)) ∧
      let rows := rowsAt av st (rowBytes cfg.dfmt.width (ncol1.val + 1)) (n1.val + 1)
      s.leavesOf w .write rows = .ok u ∧ u.spansOfAll w .write rows = .ok sp ∧
      op = .epi k true t.val av st row0.val (n1.val + 1) (ncol1.val + 1) cfg none sp)
  | _, _ => False

/-- Some bytes lie in plain HBM that the partition of a core may write (R189, R331). -/
def State.openHbm (s : State) (gc pa n : Nat) : Prop :=
  ∀ k < n, s.region (pa + k) = .hbm ∧ s.physOk (gc / 2048) (s.ownerOf gc) true (pa + k) = true ∧ (s.cellTag (pa + k)).1 = 0

/-- The backing queue of an actor can take a packet: some entry is free, and the lowest free one lies, whole, in plain HBM of the actor's
partition, unpoisoned; the packet and its fields fit an entry (R35, R189). -/
def State.bqRoom (s : State) (gc slot : Nat) (b : BqEnt) : Prop :=
  ∃ i < s.bqSize gc slot, (∀ x ∈ s.bqHeld gc slot, x.1 ≠ i ∧ x.2.1 + 1 < 2 ^ 48) ∧
    (∀ j < i, ∃ x ∈ s.bqHeld gc slot, x.1 = j) ∧
    s.openHbm gc (s.bqPA gc slot i) 320 ∧ (∀ k < 320, s.poisoned (s.bqPA gc slot i + k) = false) ∧ b.p.length = 2 * Pkt.units b.p ∧ b.core < 2 ^ 32 ∧ b.part < 2 ^ 32 ∧ (∀ f, b.host = some f → f + 1 < 2 ^ 64) ∧
    (∀ k, b.pair = some k → k.1 + 1 < 2 ^ 64 ∧ k.2 < 2 ^ 64)

/-- A context as Table 1.2 starts it: the registers, of which s0 to s3 are given, the flags and the counters (R16). A class whose T_yield is 0
asks for the yield at once (R264). -/
def Ctx.starts (k : Ctx) (s0 s1 s2 s3 : Word) : Prop :=
  (∀ n, k.sreg n = if n = 0 then s0 else if n = 1 then s1 else if n = 2 then s2 else if n = 3 then s3 else 0) ∧
  (∀ n, k.vreg n = 0) ∧ (∀ m : MReg, k.mask m = if m.val = 0 then BitVec.allOnes 64 else 0) ∧ (∀ b : BReg, k.breg b = 0) ∧
  k.fcsr = 0 ∧ k.ocLd = 0 ∧ k.ocSt = 0 ∧ k.ocCp = 0 ∧ k.ocTl = 0 ∧ k.yreq = decide (k.tYield = 0) ∧ k.phase = .starting ∧
  k.npc = k.pc ∧ k.cycles = 0 ∧ k.done1 = false ∧ k.log = [] ∧ k.nmsg = k.msgs.length

/-- The fault registers as the fault notice in window slot 0 of a supervisor firing gives them, and else 0 (R74, Table 4.3). -/
def Ctx.faultRegs (k : Ctx) (supv : Bool) : Prop :=
  (∀ p r, k.msgs = p :: r → supv = true → Pkt.kind p = 7 →
    k.fsyn = p.getD 2 0 ∧ k.fva = p.getD 3 0 ∧ k.fpc = p.getD 4 0 ∧ k.fmsg = p.getD 5 0) ∧
  (k.msgs = [] ∨ supv = false ∨ Pkt.kind (k.msgs.headD []) ≠ 7 → k.fsyn = 0 ∧ k.fva = 0 ∧ k.fpc = 0 ∧ k.fmsg = 0)

/-- The message window of a context holds its packets, each in its slot of 256 bytes, with zeros beyond (R16). -/
def State.windowHolds (s : State) (w : Nat) (ps : List Pkt) : Prop :=
  ∀ i < 4, s.rdWords (localPA (w / 4) (0xE4000 + 0x400 * (w % 4) + 256 * i)) 32 = Pkt.pad (ps.getD i []) 32

/-- What a save writes to the backing area of an actor, as offset and bytes (R304 Table 15.4): the header with SAVED and the number of records, the
records, the mailboxes, the state segment and the array image. -/
def State.savedParts (s : State) (gc slot : Nat) : List (Nat × List Byte) :=
  let al := (s.core gc).allocsOf slot
  [(0, leBytes 8 (1 + 2 * al.length)), (0x40, al.flatMap (fun a => leBytes 8 a.word))] ++
  [0, 1, 2, 3].map (fun i => let b := s.mbox gc slot i; (s.backMb gc slot i, s.rdBytes (localPA gc b.base) b.size)) ++
  [(s.backSeg gc slot, s.rdBytes (localPA gc (s.segBase gc slot)) (s.segSize gc slot)),
   (s.backArr gc slot, ((s.zeroTiles gc slot).clu (gc / 8)).image (s.slotKey gc slot))]

/-- The word of a handle's placement entry is plain memory. -/
def State.plainWord (s : State) (q : Nat) : Prop := ∀ k < 8, (s.cellTag (q + k)).1 = 0

/-- A segment that Table 21.2 can hold: a read request and an error segment have no body. -/
def segFits (g : Seg) : Prop :=
  g.stype < 16 ∧ g.length < 2 ^ 14 ∧ g.rsvOk = true ∧ g.body.length = if g.stype = 3 ∨ g.stype = 5 then 0 else g.length

/-- A frame that Table 21.1 can hold. -/
def frameFits (f : Frame) : Prop :=
  f.type ≤ 2 ∧ f.flow < 4096 ∧ f.window ≤ 65536 ∧ f.segs.length ≤ 15 ∧ (f.type = 0 ↔ f.segs ≠ []) ∧ (∀ g ∈ f.segs, segFits g) ∧
  (f.vlan = none → f.etherType ≠ 0x8100)

/-- Counter `i` of a core after an event that is counted (R379). -/
def Core.counted (c : Core) (code i : Nat) : Nat :=
  if c.sctl.getLsbD 3 = true ∧ FMap.get 0 c.pselect i = code then (FMap.get 0 c.pcount i + 1) % 2 ^ 48 else FMap.get 0 c.pcount i

/-- Counter `i` of a slice after an event that is counted (R379). -/
def Cluster.counted (c : Cluster) (code i : Nat) : Nat :=
  if c.penable = true ∧ FMap.get 0 c.pselect i = code then (FMap.get 0 c.pcount i + 1) % 2 ^ 48 else FMap.get 0 c.pcount i

end Sys2Proof.Machine
end

