-- ==== Sys2Proof/Certificates/Slice0/Obligations.lean ====
section
/-! DEFINITION. The statements about the model, one definition each. -/

open Sys2Proof Sys2Proof.Machine

/-- Every two-operand integer form (ADD, SUB, MUL, MULH, DIV, REM, AND, OR, XOR, ANDN, SHL, SHR, SHA, ROL, MIN, MAX; register, 16-bit
and 32-bit immediate) completes in every state: on every context of the firing its destination gets the result of Table 6.2,
clipped and flagged under `.sat`, all ones or the dividend with DZ for a zero divisor; and nothing else changes
(R106, R107, R104, R69). -/
def Obligations.IntegerResults : Prop :=
  ∀ (i : Instr) (f : IntForm) (s : State), intForm i = some f →
    Completes i s (fun c e => ∃ r fl, f.op.gives f.n f.sat (c.src f.a) (f.b.val c) r fl ∧
      e = { scalars := c.writes f.d r, flags := fl })

/-- CLZ, CTZ, POPC, SEL, SETC, MOV, LI, EXT and INS complete in every state with the value that chapter 06 gives, and change
nothing else (R108 to R111). -/
def Obligations.BitAndMoveResults : Prop :=
  ∀ (i : Instr) (s : State), (∀ (c : Ctx) (r : Word), (bitForm c r i).isSome) →
    Completes i s (fun c e => ∃ r d, (∃ P, bitForm c r i = some (d, P) ∧ P) ∧ e = { scalars := c.writes d r })

/-- FADD, FSUB, FMUL, FMA, FDIV, FSQRT, FMIN, FMAX, FSETC, FCVT and FCLASS complete in every state: the destination gets the result of
chapter 05 at the type of the form and in the rounding mode of `%fcsr`, extended to 64 bits; the flags are added to `%fcsr`; and
nothing else changes (R104, R112 to R117). FCLASS of any code sets exactly one of its bits 0 to 9, and no other bit. -/
def Obligations.FloatResults : Prop :=
  (∀ (i : Instr) (s : State), (∀ c, (floatForm c i).isSome) →
    Completes i s (fun c e => ∃ d r fl, floatForm c i = some (d, r, fl) ∧ e = { scalars := c.writes d r, flags := fl })) ∧
  ∀ (t : FTy) (code : Nat), ∃ k < 10, fClass t.ty code = 2 ^ k

/-- Every lane-wise vector form (VMOV, VBCAST, VSTEP, VADD, VSUB, VMUL, VFMA, VMIN, VMAX, VABS, the bitwise and shift forms, VPERM,
VSLIDE, the VSFU functions, VDOT and VXRD) completes in every state: each active lane of its destination gets the result of its
lane, every other lane keeps its value, and the flags are those of the active lanes; a destination of y0 pushes; and nothing else
changes (R125, R127 to R129, R132, R136, R138, R144). -/
def Obligations.VectorLaneResults : Prop :=
  ∀ (i : Instr) (s : State), i.wellFormed = true → (∀ w c, (laneForm s w c i).isSome) →
    ∃ t, exec i s = .next t ∧ t = { s with ctxs := t.ctxs } ∧
      (∀ w, w ∉ s.members s.cur → t.ctx w = s.ctx w) ∧
      ∀ w ∈ s.members s.cur, ∃ g v fl, laneForm s w (s.ctx w) i = some g ∧ g.gives (s.ctx w) v fl ∧
        Effect.On { vectors := (s.ctx w).vwrites g.d v, flags := fl } (s.ctx w) (t.ctx w)

/-- VSETC completes in every state: bit j of the destination mask, of the element i = j / (w/8), is the outcome of the condition on
lane i where the lane is active and 0 elsewhere; m0 discards the result; the flags are those of the active lanes (R130, R71). -/
def Obligations.VsetcResult : Prop :=
  ∀ (cc : Fin 16) (d : MReg) (a b : VSrc) (t : Ty) (m : MReg) (s : State), (Instr.vsetc cc d a b t m).wellFormed = true →
    Completes (.vsetc cc d a b t m) s (fun c e => ∃ (v : Word) (fl : Nat),
      (∀ j < 64, v.getLsbD j = (elemOn (c.mask m) t.width (j / (t.width / 8)) &&
        (laneSetc t cc (c.vl t a (j / (t.width / 8))) (c.vl t b (j / (t.width / 8)))).1)) ∧
      flagsOf (512 / t.width) fl (elemOn (c.mask m) t.width) (fun i => (laneSetc t cc (c.vl t a i) (c.vl t b i)).2) ∧
      e = { masks := mwrites d v, flags := fl })

/-- VSEL completes in every state and writes every lane: lane i of a where the mask is active, lane i of b elsewhere (R131). -/
def Obligations.VselResult : Prop :=
  ∀ (d : VDst) (a b : VSrc) (t : Ty) (m : MReg) (s : State), (Instr.vsel d a b t m).wellFormed = true →
    Completes (.vsel d a b t m) s (fun c e => ∃ v : VWord,
      (∀ i < 512 / t.width, elem t.width i v = if elemOn (c.mask m) t.width i then c.vl t a i else c.vl t b i) ∧
      e = { vectors := c.vwrites d v })

/-- MAND, MOR, MXOR and MNOT write their mask (m0 discards), MCNT the number of active lanes and MFIRST the lowest active lane, or
the number of lanes; they complete in every state and change nothing else (R142, R47). -/
def Obligations.MaskOperations : Prop :=
  ∀ (i : Instr) (s : State), i.wellFormed = true → (∀ c, (maskForm c i).isSome) →
    Completes i s (fun c e => maskForm c i = some e)

/-- VCVT, VPACK and VUNPACK complete in every state: the active elements of their part are converted in the rounding mode of `%fcsr`,
every other element and every bit outside the part keeps its value, and the flags are those of the active elements (R134, R135). -/
def Obligations.VectorConversions : Prop :=
  ∀ (i : Instr) (s : State), i.wellFormed = true → (∀ c, (partForm c i).isSome) →
    Completes i s (fun c e => ∃ g v fl, partForm c i = some g ∧ g.gives c v fl ∧ e = { vectors := c.vwrites g.d v, flags := fl })

/-- VEXTR writes the lane that the scalar operand names, extended to 64 bits; VINSR writes the low bits of a scalar into that lane
and keeps every other lane. Both complete in every state (R133). -/
def Obligations.LaneMoves : Prop :=
  (∀ (d : Dst) (a : VSrc) (b : Src) (t : Ty) (s : State), (Instr.vextr d a b t).wellFormed = true →
    Completes (.vextr d a b t) s (fun c e =>
      e = { scalars := c.writes d (extend t (elem t.width ((c.src b).toNat % (512 / t.width)) (c.vsrc t.width a))) })) ∧
  (∀ (d : VDst) (a b : Src) (t : Ty) (s : State), (Instr.vinsr d a b t).wellFormed = true →
    Completes (.vinsr d a b t) s (fun c e => ∃ v : VWord,
      (∀ i < 512 / t.width, elem t.width i v =
        if i = (c.src b).toNat % (512 / t.width) then (c.src a).toNat % 2 ^ t.width else elem t.width i (c.vold d)) ∧
      e = { vectors := c.vwrites d v }))

/-- VSUM, VRMAX, VRMIN, VARGMAX and VARGMIN complete in every state with one result over the active lanes of all cores of the firing:
lane 0 of the destination gets the sum, or the code of the first-ranked lane, and every other bit is 0; VARGMAX and VARGMIN write
the gang lane of that lane; with no active lane the value is 0 and the index all ones (R139, R140, R143). -/
def Obligations.Reductions : Prop :=
  (∀ (d : VDst) (a : VSrc) (t : Ty) (sat : Bool) (m : MReg) (s : State), (Instr.vsum d a t sat m).wellFormed = true →
    Completes (.vsum d a t sat m) s (fun c e =>
      e = { vectors := c.vwrites d (BitVec.ofNat 512 (sumLanes t sat (s.gangLanes t a m)).1),
            flags := (sumLanes t sat (s.gangLanes t a m)).2 })) ∧
  (∀ (isMax : Bool) (d : VDst) (ix : Option (Fin 64)) (a : VSrc) (t : Ty) (m : MReg) (s : State) (i : Instr),
    i = (match ix, isMax with
      | none, true => .vrmax d a t m | none, false => .vrmin d a t m
      | some n, true => .vargmax d n a t m | some n, false => .vargmin d n a t m) → i.wellFormed = true →
    Completes i s (fun c e => ∃ (v : Nat) (n : Word),
      (s.gangLanes t a m = [] → v = 0 ∧ n = BitVec.allOnes 64) ∧
      (s.gangLanes t a m ≠ [] → ∃ g, ranksFirst t isMax (s.gangLanes t a m) (g, v) ∧ n = BitVec.ofNat 64 g) ∧
      e = { vectors := c.vwrites d (BitVec.ofNat 512 v),
            scalars := (match ix with | some k => [(k.val, n)] | none => []) }))

/-- VTOPK completes in every state: the entries of the lead core's pair below k that are not empty, and lanes 0 to 15 of the source on
every core where active, are put in rank order; the first k become the entries of the pair, value lane and index lane, and every
other entry and lane is empty: value 0, index 0xFFFF_FFFF (R141, R143). -/
def Obligations.TopK : Prop :=
  ∀ (d : Fin 16) (a : VSrc) (b : Src) (k1 : Fin 16) (t : Ty) (least : Bool) (m : MReg) (s : State),
    (Instr.vtopk d a b k1 t least m).wellFormed = true →
    Completes (.vtopk d a b k1 t least m) s (fun _ e => ∃ (l : List (Nat × Nat)) (key idx : VWord),
      l.Perm (((List.range (k1.val + 1)).map (fun n => (elem t.width n ((s.ctx s.cur).vreg (2 * d.val)),
          elem 32 n ((s.ctx s.cur).vreg (2 * d.val + 1))))).filter (fun x => x.2 ≠ 0xFFFFFFFF) ++
        (s.members s.cur).flatMap (fun w => ((List.range 16).filter (elemOn ((s.ctx w).mask m) t.width)).map (fun i =>
          ((s.ctx w).vl t a i, (((s.ctx w).src b).toNat + 16 * ((w - s.cur) / 4) + i) % 2 ^ 32)))) ∧
      l.Pairwise (fun x y => rank (!least) (fromFormat y.1 t 0) y.2 (fromFormat x.1 t 0) x.2 = false) ∧
      (∀ n < 16, n < min (k1.val + 1) l.length →
        ((elem t.width n key, elem 32 n idx) : Nat × Nat) = l.getD n (0, 0)) ∧
      (∀ n, min (k1.val + 1) l.length ≤ n → n < 512 / t.width → elem t.width n key = 0) ∧
      (∀ n < 16, min (k1.val + 1) l.length ≤ n → elem 32 n idx = 0xFFFFFFFF) ∧
      e = { vectors := [(2 * d.val, key), (2 * d.val + 1, idx)] })

/-- BR, BC, CALL, RET, JMP and LOOP complete in every state in which the contexts of the firing agree on the outcome or the target:
each context goes to its target, or to the next instruction where the branch is not taken; CALL writes the next PC to its link
register and LOOP the decremented counter; and nothing else changes but the return predictor of the core (R39, R40, R119, R120). -/
def Obligations.ControlTransfers : Prop :=
  ∀ (i : Instr) (s : State), (∀ c, (controlForm c i).isSome) →
    (∀ w ∈ s.members s.cur, controlChoice (s.ctx w) i = controlChoice (s.ctx s.cur) i) →
    ∃ t, exec i s = .next t ∧ t = { s with ctxs := t.ctxs, cores := t.cores } ∧
      (∀ g, ∃ l, t.core g = { s.core g with rpred := l }) ∧
      (∀ w, w ∉ s.members s.cur → t.ctx w = s.ctx w) ∧
      ∀ w ∈ s.members s.cur, ∃ l next, controlForm (s.ctx w) i = some (l, next) ∧
        Effect.On { scalars := l, target := some next } (s.ctx w) (t.ctx w)

/-- BC, LOOP, RET and JMP in a gang whose contexts do not agree take the gang-divergence fault, code 9, instead: for BC and LOOP its
detail has bit k set when core k of the gang would take the branch; a LOOP has written its decremented counter on each core before the
fault (R29, R120). For RET and JMP the detail is 0, which is the model's choice (log entry 67). -/
def Obligations.DivergentBranchesTrap : Prop :=
  ∀ (i : Instr) (s : State), (∀ c, (controlForm c i).isSome) →
    (∃ w ∈ s.members s.cur, controlChoice (s.ctx w) i ≠ controlChoice (s.ctx s.cur) i) →
    ∃ (u : State) (detail : Nat),
      (match i with
        | .ret _ => ∃ l, u = s.onCore (s.cur / 4) (fun k => { k with rpred := l })
        | .loop d _ _ => u = { s with ctxs := u.ctxs } ∧ (∀ w, w ∉ s.members s.cur → u.ctx w = s.ctx w) ∧
            ∀ w ∈ s.members s.cur, u.ctx w = { s.ctx w with sregs := (u.ctx w).sregs } ∧
              ∀ k, (u.ctx w).sreg k = (((s.ctx w).writes d ((s.ctx w).dstVal d - 1)).lookup k).getD ((s.ctx w).sreg k)
        | _ => u = s) ∧
      exec i s = .next (u.fault s.cur { code := 9, cls := 1, detail := detail }) ∧
      ((∃ a, i = .ret a ∨ i = .jmp a) → detail = 0) ∧
      (¬ (∃ a, i = .ret a ∨ i = .jmp a) → detail < 16 ∧
        ∀ k < 4, detail.testBit k = decide (controlChoice (s.ctx (s.cur + 4 * k)) i = 1))

/-- SRD of every special register completes with the value that the spec gives the register at the context, in every mode for the
registers that user mode may read and in supervisor mode for the others; nothing else changes (R73, R388). -/
def Obligations.SpecialRegisterReads : Prop :=
  ∀ (d : Dst) (n : Spr) (s : State),
    ((n = .fsyn ∨ n = .fva ∨ n = .fpc ∨ n = .fmsg ∨ n = .sctl ∨ (∃ k, n = .bud k)) →
      ∀ w ∈ s.members s.cur, (s.ctx w).supv = true) →
    ∃ t, exec (.srd d n) s = .next t ∧ t = { s with ctxs := t.ctxs } ∧
      (∀ w, w ∉ s.members s.cur → t.ctx w = s.ctx w) ∧
      ∀ w ∈ s.members s.cur,
        Effect.On { scalars := (s.ctx w).writes d (specialValue s w n) } (s.ctx w) (t.ctx w)

/-- SWR of a firing of one context: `%fcsr` takes its flags and an unreserved rounding mode, in every mode; in supervisor mode `%sctl`
takes its writable fields, with GANG on the lead core of a quad only, and `%bud` takes a value whose limits rise; a write of any
other register, or of limits that do not rise, completes and changes nothing (R73, R75, R77, R80, R388). That GANG keeps its value on a
core that leads no quad is the model's choice (log entry 68), and so is that the sequence of a race trace starts again when RTRACE goes from
0 to 1 (log entry 44). -/
def Obligations.SpecialRegisterWrites : Prop :=
  ∀ (n : Spr) (a : Src) (s : State), s.single → (n ≠ .fcsr → (s.ctx s.cur).supv = true) →
    let v := (s.ctx s.cur).src a
    let k := s.core (s.cur / 4)
    ∃ t, exec (.swr n a) s = .next t ∧
      (n = .fcsr → ∃ x, fcsrAfter (s.ctx s.cur).fcsr x v ∧ t = s.after s.cur (fun c => { c with fcsr := x })) ∧
      (n = .sctl → ∃ (x : Word) (q : Nat),
        (∀ j < 64, x.getLsbD j = if 16 ≤ j ∧ j < 32 ∨ j = 2 ∨ j = 3 then v.getLsbD j else if j = 1 then k.sctl.getLsbD 1
          else if j = 0 then (if s.cur / 4 % 4 = 0 then v.getLsbD 0 else k.sctl.getLsbD 0) else false) ∧
        q = (if v.getLsbD 2 = true ∧ k.sctl.getLsbD 2 = false then 0 else k.raceSeq) ∧
        t = (s.onCore (s.cur / 4) (fun c => { c with sctl := x, raceSeq := q })).after s.cur id) ∧
      (∀ i, n = .bud i → t = (s.onCore (s.cur / 4) (fun c =>
        if v.toNat % 2 ^ 21 ≤ v.toNat / 2 ^ 21 % 2 ^ 21 ∧ v.toNat / 2 ^ 21 % 2 ^ 21 ≤ v.toNat / 2 ^ 42 % 2 ^ 21
        then { c with bud := FMap.put budReset c.bud i.val (BitVec.ofNat 64 (v.toNat % 2 ^ 63)) } else c)).after s.cur id) ∧
      (n ≠ .fcsr → n ≠ .sctl → (∀ i, n ≠ .bud i) → t = s.after s.cur id)

/-- In user mode SRD of a supervisor-only register, SWR of any register but `%fcsr`, HALT, TLBINV, TLBREPLAY, FLTPOP, PLINV, ADMIT,
EVICT and ACTIVATE take the privilege fault, code 6, whose detail is the head of the instruction and whose address is its PC
(R55, R73). -/
def Obligations.PrivilegedInstructionsTrap : Prop :=
  ∀ (i : Instr) (s : State) (head : Nat), (∀ w ∈ s.members s.cur, (s.ctx w).supv = false) →
    (match i with
      | .srd _ n => (n = .fsyn ∨ n = .fva ∨ n = .fpc ∨ n = .fmsg ∨ n = .sctl ∨ (∃ k, n = .bud k)) ∧ head = 0xFC83
      | .swr n _ => n ≠ .fcsr ∧ head = 0xFC84
      | .halt => head = 0xFC0B
      | .tlbinv _ => head = 0xFD05
      | .tlbreplay _ => head = 0xFD06
      | .fltpop _ => head = 0xFC87
      | .plinv _ => head = 0xFC88
      | .admitTeam .. => head = 0xFD09
      | .evict .. => head = 0xFC8A
      | .activate .. => head = 0xF500
      | _ => False) →
    exec i s = .next (s.fault s.cur { code := 6, cls := 1, detail := head, va := (s.ctx s.cur).pc })

/-- TRAP takes the fault of code 0x0B with its immediate as the detail and its operand as the address, and BRK the fault of code 0x0C,
in every state (R387). -/
def Obligations.TrapAndBreakFault : Prop :=
  (∀ (imm : BitVec 16) (a : Src) (s : State), exec (.trap imm a) s =
    .next (s.fault s.cur { code := 0x0B, cls := 1, detail := imm.toNat, va := (s.ctx s.cur).src a })) ∧
  (∀ s : State, exec .brk s = .next (s.fault s.cur { code := 0x0C, cls := 1 }))

/-- A fault of a user actor's firing before its first commit point, whether precise and taken because no imprecise one is pending, or imprecise
(of class 2): every context of the firing is left free with an empty log and nothing written or published; the actor is held for replay of
the page for a page that is not present (class 0), and else held for fault, but Idle for a register, log
or send-buffer error of code 0x10; and one notice of kind 7 goes to the supervisor, with `%fsyn` as Table 20.2 lays it out, `%fva`, the PC of
the faulting instruction, and the message id of the first consumed packet, and for class 2 the PC at which it was taken. A pool task's packet
returns to the top of its core's deque, held for a page of class 0, free after such an error of code 0x10, and is consumed after any other fault (R20,
R261, R267, R382 to R385). That a scratchpad word in error (detail 2) holds the actor is R267's reading of Table 13.1. -/
def Obligations.FaultBeforeFirstCommit : Prop :=
  (∀ (s : State) (w : Nat) (t : Trap), s.pendingFault w = none → s.fault w t = s.takeTrap w t) ∧
  (∀ (s : State) (w : Nat) (t : Trap) (p : Pkt), (s.ctx w).kind = .pool → (s.ctx w).done1 = false → (s.ctx w).gang = false →
    (s.ctx w).msgs = [p] →
    let u := s.takeTrap w t
    let q := (s.core (w / 4)).deque
    (u.ctx w).phase = .free ∧ (u.ctx w).kind = .none ∧ (u.ctx w).log = [] ∧ (u.ctx w).written = [] ∧ (∀ m, m ≠ w → u.ctx m = s.ctx m) ∧
    (t.cls = 0 → ∃ x : Task, (u.core (w / 4)).deque = x :: q ∧ x.p = p ∧ x.held = some ((s.ctx w).part, t.va.toNat / 2 ^ 16 % 2 ^ 39)) ∧
    (t.cls ≠ 0 → t.code = 0x10 → t.detail % 256 ≠ 2 → ∃ x : Task, (u.core (w / 4)).deque = x :: q ∧ x.p = p ∧ x.held = none ∧
      x.from_ = s.now + 1) ∧
    (t.cls ≠ 0 → ¬ (t.code = 0x10 ∧ t.detail % 256 ≠ 2) → (u.core (w / 4)).deque = q)) ∧
  ∀ (s : State) (w : Nat) (t : Trap), (s.ctx w).kind = .actor → (s.ctx w).slot ≠ 0 → (s.ctx w).done1 = false →
    (s.sched (w / 4) (s.ctx w).slot).st = .firing → t.cls ≤ 2 → (t.cls = 0 → t.code ≠ 0x10) →
    let c := s.ctx w
    let u := s.takeTrap w t
    let idles := t.code = 0x10 ∧ t.detail % 256 ≠ 2
    (∀ m ∈ s.members w, (u.ctx m).phase = .free ∧ (u.ctx m).kind = .none ∧ (u.ctx m).log = [] ∧ (u.ctx m).written = [] ∧
      ∀ n p, Slot.filled n p ∉ (u.ctx m).slots) ∧
    (∀ m, m ∉ s.members w → u.ctx m = s.ctx m) ∧
    u.wq = s.wq ∧ u.engines = s.engines ∧
    (u.sched (w / 4) c.slot).st = (if t.cls = 0 then .heldReplay else if idles then .idle else .heldFault) ∧
    (t.cls = 0 → (u.sched (w / 4) c.slot).holdP = c.part ∧ (u.sched (w / 4) c.slot).holdV = t.va.toNat / 2 ^ 16 % 2 ^ 39) ∧
    ∃ (e : NetPkt) (fsyn : Nat) (w0 w6 : Word), u.net = s.net ++ [e] ∧ e.core = w / 4 ∧ e.part = c.part ∧ e.redir = true ∧
      e.p = [w0, BitVec.ofNat 64 c.aid, BitVec.ofNat 64 fsyn, t.va, t.pc.getD c.pc,
        BitVec.ofNat 64 (match c.msgs with | p :: _ => Pkt.msgId p | [] => 0), w6, if t.cls = 2 then c.pc else 0] ∧
      Pkt.kind e.p = 7 ∧ Pkt.units e.p = 4 ∧ Pkt.mb e.p = 3 ∧
      bits fsyn 0 8 = t.code % 256 ∧ bits fsyn 8 2 = t.cls ∧ bit fsyn 10 = decide (¬ idles) ∧ bit fsyn 11 = false ∧
      bits fsyn 16 2 = w % 4 ∧ bits fsyn 18 2 = t.gcore % 4 ∧ bit fsyn 20 = c.gang ∧ bit fsyn 21 = false ∧
      bits fsyn 22 2 = t.lvl % 4 ∧ bits fsyn 24 3 = t.cause % 8 ∧ bit fsyn 27 = t.mult ∧ bits fsyn 32 32 = t.detail % 2 ^ 32

/-- A fault at or after the first commit point: a page that is not present parks every context of the firing in place, with its
registers, log and PC kept and the page recorded; any other precise fault ends the firing and leaves the actor Idle, not held. A
pending imprecise fault is taken in place of the precise one (R20, R269, R382, R386). -/
def Obligations.FaultAfterFirstCommit : Prop :=
  (∀ (s : State) (w : Nat) (t : Trap), (s.ctx w).done1 = true → s.pendingFault w = none → t.cls = 0 →
    ∀ m, (s.fault w t).ctx m = if m ∈ s.members w then
      { s.ctx m with phase := .parked, parkP := (s.ctx w).part, parkV := bits t.va.toNat 16 39, xlate := [] } else s.ctx m) ∧
  (∀ (s : State) (w : Nat) (t : Trap), (s.ctx w).kind = .actor → (s.ctx w).done1 = true → s.pendingFault w = none → t.cls = 1 →
    (∀ m ∈ s.members w, ((s.fault w t).ctx m).phase = .free ∧ ((s.fault w t).ctx m).kind = .none ∧ ((s.fault w t).ctx m).log = []) ∧
    ((s.fault w t).sched (w / 4) (s.ctx w).slot).st =
      if (s.sched (w / 4) (s.ctx w).slot).st = .leaving then .leaving else .idle) ∧
  (∀ (s : State) (w : Nat) (t p : Trap), s.pendingFault w = some p → s.fault w t = s.fault w p)

/-- LD and LDV from `.l` or `.a`, of one context or of a gang: where the operand resolves on every context (aligned, inside what the firing may
reach) to bytes without guard, poison or error, the instruction completes with the value of those bytes, as the context reads them, in its
destination, and nothing else changes but the grant pointers of the port, no byte of memory among it (R28, R104, R173, R190, R195, R197). The
mask of LDV.raw, one bit for a byte, is log entry 17, and the format of the first byte's bank for every element is log entry 58. -/
def Obligations.LocalLoads : Prop :=
  ∀ (i : Instr) (s : State) (o : Nat → MemOperand) (l : Nat → List RByte), i.wellFormed = true →
    (∀ w ∈ s.members s.cur, (∃ e, loadForm s w (List.replicate 64 0) i e) ∧ memOperand s w i = some (o w) ∧ (o w).sp ≠ .g ∧
      s.resolve w (o w).sp (o w).base (o w).off (o w).n (o w).align .read = .ok (s, l w) ∧ cleanBytes s (l w)) →
    CompletesReading i s (fun w e => loadForm s w (s.readBytes w (l w)) i e)

/-- LD and LDV from global memory, where the operand translates: the instruction completes and leaves an outstanding load, the newest of its
context, that names its destination and the bytes it is to read, for LDV with the lanes that its mask lets it write and only their
bytes; no register but the PC and no byte of memory changes. A gang, whose contexts hold the pages they name, leaves one on each context (R26,
R28, R47, R197, R213). -/
def Obligations.GlobalLoadsAreOutstanding : Prop :=
  (∀ (i : Instr) (s : State) (o : Nat → MemOperand) (l : Nat → List RByte), i.wellFormed = true →
    (∀ w ∈ s.members s.cur, (∃ e, loadForm s w (List.replicate 64 0) i e) ∧ memOperand s w i = some (o w) ∧ (o w).sp = .g ∧
      s.resolveG w (wrap 64 ((o w).base.toNat + (o w).off)) (o w).n (o w).align .read = .ok (s, l w)) →
    ∃ t, exec i s = .next t ∧ loadsAdded s t (fun w x => loadNames (s.ctx w) i x (l w))) ∧
  ∀ (i : Instr) (s u : State) (o : MemOperand) (l : List RByte), s.single → i.wellFormed = true →
    (∃ e, loadForm s s.cur (List.replicate 64 0) i e) → memOperand s s.cur i = some o → o.sp = .g →
    s.resolveG s.cur (wrap 64 (o.base.toNat + o.off)) o.n o.align .read = .ok (u, l) →
    ∃ (t : State) (x : Load), exec i s = .next t ∧
      (t.ctx s.cur).loads = (u.ctx s.cur).loads ++ [x] ∧ x.org = u.origin s.cur ∧
      loadNames (u.ctx s.cur) i x l ∧
      t.mem = u.mem ∧ t.wq = u.wq ∧ t.net = u.net ∧ (∀ w, w ≠ s.cur → t.ctx w = u.ctx w) ∧
      t.ctx s.cur = { u.ctx s.cur with loads := (t.ctx s.cur).loads, pc := (u.ctx s.cur).npc, xlate := [],
                                       icnt := (u.ctx s.cur).icnt + 1, pub := false }

/-- ST and STV to a scratchpad, of one context or of a gang, where the operand resolves on every context to bytes that are stored at the
port: the instruction completes, its bytes are on their way to the port behind every earlier store, and the context reads them as stored from
then on; nothing is logged, no byte of memory has changed yet, and no register changes but the PC and, for a converting STV, the flags
(R28, R190, R195, R197, R215). The format of the first byte's bank for every element is log entry 58. -/
def Obligations.ScratchpadStores : Prop :=
  ∀ (i : Instr) (s : State) (o : Nat → MemOperand) (l : Nat → List RByte) (bs : Nat → List Byte) (fl : Nat → Nat), i.wellFormed = true →
    (∀ w ∈ s.members s.cur, storeForm s w i = some (bs w, fl w) ∧ memOperand s w i = some (o w) ∧ (o w).sp ≠ .g ∧
      s.resolve w (o w).sp (o w).base (o w).off (o w).n (o w).align .write = .ok (s, l w) ∧
      portBytes s w (l w) ∧ (s.ctx w).loadOverlaps (l w) = false) →
    ∃ t, exec i s = .next t ∧ sentToPort s t ((s.members s.cur).map (fun w => (w, cellsOf (l w) (bs w)))) ∧
      ∀ w ∈ s.members s.cur, (∀ pa, notLogged s w pa → t.ownByte w pa = byteAfter (l w) (bs w) pa (s.ownByte w pa)) ∧
        ∃ f, t.ctx w = { s.ctx w with
          ocSt := (t.ctx w).ocSt, imprec := (s.ctx w).imprec ++ f, pc := (s.ctx w).npc, xlate := [], icnt := (s.ctx w).icnt + 1, pub := false,
          fcsr := (s.ctx w).fcsr ||| BitVec.ofNat 32 (fl w % 64 * 2 ^ 8) }

/-- ST and STV to global memory or to the state segment of the firing's actor, in a firing of one context, where the operand resolves and
the log has room: the instruction completes and appends to the log the entries of its bytes, one for each run within a 64-byte
granule, with the policy of the instruction; no byte of memory changes, and no register but the PC and, for a converting STV, the flags (R18,
R195 to R197). A gang's store to its state segment is so logged on every context (R193). A store whose one entry is the 256th of the log is a
commit point: the log is published and empty behind it (R19, R196). The format of the first byte's bank for every element is log entry 58. -/
def Obligations.LoggedStores : Prop :=
  (∀ (i : Instr) (s : State) (o : Nat → MemOperand) (l : Nat → List RByte) (bs : Nat → List Byte) (fl : Nat → Nat), i.wellFormed = true →
    (∀ w ∈ s.members s.cur, storeForm s w i = some (bs w, fl w) ∧ memOperand s w i = some (o w) ∧ (o w).sp ≠ .g ∧
      s.resolve w (o w).sp (o w).base (o w).off (o w).n (o w).align .write = .ok (s, l w) ∧
      loggedBytes s w (l w) ∧ (s.ctx w).loadOverlaps (l w) = false ∧
      logCount (s.ctx w).log + (logEntries s w (o w).va (o w).pol (l w) (bs w)).length < 256) →
    ∃ t, exec i s = .next t ∧ t = { s with ctxs := t.ctxs } ∧ (∀ w, w ∉ s.members s.cur → t.ctx w = s.ctx w) ∧
      ∀ w ∈ s.members s.cur, t.ctx w = { s.ctx w with
        log := (s.ctx w).log ++ logEntries s w (o w).va (o w).pol (l w) (bs w), pc := (s.ctx w).npc, xlate := [],
        icnt := (s.ctx w).icnt + 1, pub := false, fcsr := (s.ctx w).fcsr ||| BitVec.ofNat 32 (fl w % 64 * 2 ^ 8) }) ∧
  (∀ (i : Instr) (s u : State) (o : MemOperand) (l : List RByte) (bs : List Byte) (fl : Nat), s.single → i.wellFormed = true →
    storeForm s s.cur i = some (bs, fl) → memOperand s s.cur i = some o →
    s.resolve s.cur o.sp o.base o.off o.n o.align .write = .ok (u, l) → loggedBytes u s.cur l →
    (u.ctx s.cur).loadOverlaps l = false → (u.ctx s.cur).pub = false → u.pendingFault s.cur = none →
    (logEntries u s.cur o.va o.pol l bs).length = 1 → logCount (u.ctx s.cur).log = 255 →
    let v := (u.onCtx s.cur (fun c => { c with log := c.log ++ logEntries u s.cur o.va o.pol l bs })).publish s.cur
    ∃ t, exec i s = .next t ∧ t = { v with ctxs := t.ctxs } ∧ (∀ w, w ≠ s.cur → t.ctx w = v.ctx w) ∧ (t.ctx s.cur).log = [] ∧
      t.ctx s.cur = { v.ctx s.cur with pc := (u.ctx s.cur).npc, xlate := [], icnt := (u.ctx s.cur).icnt + 1, pub := false,
                                       fcsr := (u.ctx s.cur).fcsr ||| BitVec.ofNat 32 (fl % 64 * 2 ^ 8) }) ∧
  ∀ (i : Instr) (s u : State) (o : MemOperand) (l : List RByte) (bs : List Byte) (fl : Nat), s.single → i.wellFormed = true →
    storeForm s s.cur i = some (bs, fl) → memOperand s s.cur i = some o →
    s.resolve s.cur o.sp o.base o.off o.n o.align .write = .ok (u, l) → loggedBytes u s.cur l →
    (u.ctx s.cur).loadOverlaps l = false → logCount (u.ctx s.cur).log + (logEntries u s.cur o.va o.pol l bs).length < 256 →
    ∃ t, exec i s = .next t ∧ t = { u with ctxs := t.ctxs } ∧ (∀ w, w ≠ s.cur → t.ctx w = u.ctx w) ∧
      t.ctx s.cur = { u.ctx s.cur with
        log := (u.ctx s.cur).log ++ logEntries u s.cur o.va o.pol l bs, pc := (u.ctx s.cur).npc, xlate := [],
        icnt := (u.ctx s.cur).icnt + 1, pub := false,
        fcsr := (u.ctx s.cur).fcsr ||| BitVec.ofNat 32 (fl % 64 * 2 ^ 8) }

/-- LD, ST, LDV and STV with a `.l` operand, in a firing of one context: a misaligned address takes the misalignment fault; an aligned
operand that ends beyond the scratchpad takes the permission fault with detail 3; and one with a byte that the firing may not reach
takes it with detail 1; each with the address (R190, R191). Detail 3 beyond the scratchpad is log entry 14 (DEDUCED). -/
def Obligations.LocalAddressFaults : Prop :=
  ∀ (i : Instr) (s : State) (o : MemOperand), s.single → memOperand s s.cur i = some o → o.sp = .l →
    let a := wrap 64 (o.base.toNat + o.off)
    (a % o.align ≠ 0 → exec i s = .next (s.fault s.cur { code := 7, cls := 1, va := BitVec.ofNat 64 a })) ∧
    (a % o.align = 0 → 0x100000 < a + o.n →
      exec i s = .next (s.fault s.cur { code := 2, cls := 1, detail := 3, va := BitVec.ofNat 64 a })) ∧
    (a % o.align = 0 → a + o.n ≤ 0x100000 →
      (∃ k < o.n, localOk (s.ctx s.cur) (s.core (s.cur / 4)) (s.cur % 4)
        (match i with | .stT2 .. | .stT4 .. | .stvT2 .. | .stvT4 .. => true | _ => false) (a + k) = false) →
      exec i s = .next (s.fault s.cur { code := 2, cls := 1, detail := 1, va := BitVec.ofNat 64 a }))

/-- A wrap-mode allocation of z bytes, z a multiple of 64 from 64 up, reserves the least power of two P that is at least z, and byte i of
an access at any offset o of it lies at base + ((o + i) mod P): an access that its owner makes at any offset that its alignment divides
resolves, once no PREF.l of the context is on its way to its bytes, and never faults (R178, R191, R204). -/
def Obligations.WrapAllocationNeverFaults : Prop :=
  ∀ (s : State) (w : Nat) (base : Word) (o : Int) (n align : Nat) (al : Alloc), s.allocOf w base = some al → al.guard = false → 64 ≤ al.size →
    o % align = 0 →
    ∃ k : Nat, al.size ≤ 2 ^ k ∧ (∀ j, al.size ≤ 2 ^ j → k ≤ j) ∧ al.reserved = 2 ^ k ∧
      let l := (List.range n).map (fun i => RByte.mem (localPA (w / 4) (al.base + ((o + (i : Int)) % (2 ^ k : Nat)).toNat)) 0 0)
      ((s.ctx w).prefOver l = false → s.resolveA w base o n align = .ok l) ∧ ∀ t, s.resolveA w base o n align ≠ .error (.trap t)

/-- BLD, BST and BMOV in a firing of one context. BLD reads a field of 1 to 64 bits from its bit address, where the address resolves to
clean bytes, into its destination; BST reads the bytes of the field, puts the low bits of a register into it, and sends the bytes so merged,
with no other bit changed, to the port, so that a write of another agent to them in between is lost, or, in the state segment, to the log; each
adds the width
to bits 22 to 0 of the bit-address register, modulo 2^23, when it post-increments; and BMOV copies 64 bits into or out of a
bit-address register in every state (R72, R180, R200). -/
def Obligations.BitFields : Prop :=
  (∀ (d : Dst) (k : BReg) (w1 : Fin 64) (inc : Bool) (s : State) (l : List RByte), s.single →
    s.resolveBits s.cur ((s.ctx s.cur).breg k) (w1.val + 1) .read = .ok l → cleanBytes s l →
    CompletesReading (.bld d k w1 inc) s (fun _ e => ∃ r : Word, let c := s.ctx s.cur
      (inc = true → r.toNat % 2 ^ 23 = ((c.breg k).toNat + (w1.val + 1)) % 2 ^ 23 ∧ r.toNat / 2 ^ 23 = (c.breg k).toNat / 2 ^ 23) ∧
      e = { scalars := c.writes d (BitVec.ofNat 64 (leNat (s.readBytes s.cur l) / 2 ^ ((c.breg k).toNat % 8) % 2 ^ (w1.val + 1))),
            bits := if inc then [(k.val, r)] else [] })) ∧
  (∀ (a : Src) (k : BReg) (w1 : Fin 64) (inc : Bool) (s : State) (l : List RByte), s.single →
    s.resolveBits s.cur ((s.ctx s.cur).breg k) (w1.val + 1) .write = .ok l → cleanBytes s l → portBytes s s.cur l →
    (s.ctx s.cur).loadOverlaps l = false →
    ∃ (t : State) (r : Word) (x : Nat), exec (.bst a k w1 inc) s = .next t ∧
      (∀ j, x.testBit j = if (s.ctx s.cur |>.breg k).toNat % 8 ≤ j ∧ j < (s.ctx s.cur |>.breg k).toNat % 8 + (w1.val + 1)
        then ((s.ctx s.cur).src a).getLsbD (j - (s.ctx s.cur |>.breg k).toNat % 8)
        else (leNat (s.readBytes s.cur l)).testBit j) ∧
      sentToPort s t [(s.cur, cellsOf l (leBytes l.length x))] ∧
      (r.toNat % 2 ^ 23 = ((s.ctx s.cur |>.breg k).toNat + (w1.val + 1)) % 2 ^ 23 ∧
        r.toNat / 2 ^ 23 = (s.ctx s.cur |>.breg k).toNat / 2 ^ 23) ∧
      Effect.On { bits := if inc then [(k.val, r)] else [] } { s.ctx s.cur with ocSt := (t.ctx s.cur).ocSt } (t.ctx s.cur)) ∧
  (∀ (a : Src) (k : BReg) (w1 : Fin 64) (inc : Bool) (s : State) (l : List RByte), s.single →
    let c := s.ctx s.cur
    s.resolveBits s.cur (c.breg k) (w1.val + 1) .write = .ok l → cleanBytes s l → loggedBytes s s.cur l → c.loadOverlaps l = false →
    ∃ (t : State) (r : Word) (x : Nat),
      (∀ j, x.testBit j = if (c.breg k).toNat % 8 ≤ j ∧ j < (c.breg k).toNat % 8 + (w1.val + 1)
        then (c.src a).getLsbD (j - (c.breg k).toNat % 8) else (leNat (s.readBytes s.cur l)).testBit j) ∧
      r.toNat % 2 ^ 23 = ((c.breg k).toNat + (w1.val + 1)) % 2 ^ 23 ∧ r.toNat / 2 ^ 23 = (c.breg k).toNat / 2 ^ 23 ∧
      let new := logEntries s s.cur ((c.breg k).toNat / 8 % 2 ^ 20) .dflt l (leBytes l.length x)
      (logCount c.log + new.length < 256 → exec (.bst a k w1 inc) s = .next t ∧ t = { s with ctxs := t.ctxs } ∧
        (∀ w, w ≠ s.cur → t.ctx w = s.ctx w) ∧
        Effect.On { bits := if inc then [(k.val, r)] else [] } { c with log := c.log ++ new } (t.ctx s.cur))) ∧
  (∀ (k : BReg) (a : Src) (s : State), Completes (.bmov k (.toB a)) s (fun c e => e = { bits := [(k.val, c.src a)] })) ∧
  (∀ (k : BReg) (d : Dst) (s : State), Completes (.bmov k (.fromB d)) s (fun c e => e = { scalars := c.writes d (c.breg k) }))

/-- LDX and STX, of one context or of a gang whose contexts hold the pages they name, where every active element of the first 16 lanes
resolves. A local gather completes with each such lane holding its element, converted where the bank has a format, and every other lane kept; a global gather completes and
leaves an outstanding load of those lanes and their bytes; a scatter of whole bytes to a scratchpad completes and sends the elements to the
port in lane order, so that the highest lane remains; and one to global memory or to the state segment completes and appends the log entries of
each element in lane order. No other register changes but the PC and the flags of a conversion, and no byte of memory (R28, R198, R199, R213). That
a gather or scatter takes the format of the bank of its base is log entry 58. -/
def Obligations.GatherAndScatter : Prop :=
  (∀ (d : VDst) (b : Src) (ix : VSrc) (sc : Fin 4) (t : Ty) (sp : MSpace) (pol : Policy) (m : MReg) (s : State)
      (ls : Nat → List (List RByte)),
    let es := fun w => s.elems w t sp ((s.ctx w).src b) ((s.ctx w).vsrc 32 ix) sc ((s.ctx w).mask m)
    (Instr.ldx d b ix sc t sp pol m).wellFormed = true → sp ≠ .g →
    (∀ w ∈ s.members s.cur, s.resolveX w t sp ((s.ctx w).src b) .read (es w) = .ok (s, ls w) ∧ ∀ l ∈ ls w, cleanBytes s l) →
    CompletesReading (.ldx d b ix sc t sp pol m) s (fun w e => ∃ (v : VWord) (fl : Nat),
      let c := s.ctx w
      let get := fun (p : Elem × List RByte) =>
        let x := leNat (s.readBytes w p.2) / 2 ^ p.1.bit % 2 ^ p.1.width t
        match p.1.fmt with | some k => fromBank k t c.rm x | none => (x, 0)
      (∀ p ∈ (es w).zip (ls w), elem t.width p.1.lane v = (get p).1 % 2 ^ t.width) ∧
      (∀ i < 512 / t.width, (∀ x ∈ es w, x.lane ≠ i) → elem t.width i v = elem t.width i (c.vold d)) ∧
      (∀ k, fl.testBit k = true ↔ ∃ p ∈ (es w).zip (ls w), (get p).2.testBit k = true) ∧
      e = { vectors := c.vwrites d v, flags := fl })) ∧
  (∀ (d : VDst) (b : Src) (ix : VSrc) (sc : Fin 4) (t : Ty) (pol : Policy) (m : MReg) (s : State) (ls : Nat → List (List RByte)),
    (Instr.ldx d b ix sc t .g pol m).wellFormed = true →
    (∀ w ∈ s.members s.cur, s.resolveX w t .g ((s.ctx w).src b) .read
      (s.elems w t .g ((s.ctx w).src b) ((s.ctx w).vsrc 32 ix) sc ((s.ctx w).mask m)) = .ok (s, ls w)) →
    ∃ v, exec (.ldx d b ix sc t .g pol m) s = .next v ∧ loadsAdded s v (fun w x => let c := s.ctx w
      x.addrs.map (fun p => p.1) = (ls w).flatten.filterMap RByte.pa? ∧
      x.dst = .vec d t.width ((List.range (512 / t.width)).map (fun i => decide (i < 16) && active (c.mask m) t.width i)) (c.vold d))) ∧
  (∀ (d : VDst) (b : Src) (ix : VSrc) (sc : Fin 4) (t : Ty) (pol : Policy) (m : MReg) (s u : State) (ls : List (List RByte)),
    s.single → (Instr.ldx d b ix sc t .g pol m).wellFormed = true →
    let c := s.ctx s.cur
    s.resolveX s.cur t .g (c.src b) .read (s.elems s.cur t .g (c.src b) (c.vsrc 32 ix) sc (c.mask m)) = .ok (u, ls) →
    ∃ (v : State) (x : Load), exec (.ldx d b ix sc t .g pol m) s = .next v ∧ (v.ctx s.cur).loads = (u.ctx s.cur).loads ++ [x] ∧
      x.addrs.map (fun p => p.1) = ls.flatten.filterMap RByte.pa? ∧ x.org = u.origin s.cur ∧
      x.dst = .vec d t.width ((List.range (512 / t.width)).map (fun i => decide (i < 16) && active (c.mask m) t.width i)) (c.vold d) ∧
      v = { u with ctxs := v.ctxs, uid := v.uid } ∧ (∀ w, w ≠ s.cur → v.ctx w = u.ctx w) ∧
      v.ctx s.cur = ({ u.ctx s.cur with loads := (v.ctx s.cur).loads } : Ctx).retired) ∧
  (∀ (a : VSrc) (b : Src) (ix : VSrc) (sc : Fin 4) (t : Ty) (sp : MSpace) (pol : Policy) (m : MReg) (s : State)
      (ls : Nat → List (List RByte)),
    let es := fun w => s.elems w t sp ((s.ctx w).src b) ((s.ctx w).vsrc 32 ix) sc ((s.ctx w).mask m)
    let vec := fun w => (s.ctx w).vsrc t.width a
    (Instr.stx a b ix sc t sp pol m).wellFormed = true → sp ≠ .g →
    (∀ w ∈ s.members s.cur, s.resolveX w t sp ((s.ctx w).src b) .write (es w) = .ok (s, ls w) ∧
      (∀ l ∈ ls w, portBytes s w l ∧ (s.ctx w).loadOverlaps l = false) ∧ ∀ e ∈ es w, e.width t % 8 = 0) →
    ∃ v, exec (.stx a b ix sc t sp pol m) s = .next v ∧
      sentToPort s v ((s.members s.cur).map (fun w =>
        (w, cellsOf (ls w).flatten ((es w).flatMap (fun e => (scattered t (vec w) e).1))))) ∧
      ∀ w ∈ s.members s.cur, ∃ (fl : Nat) (f : List Imprecise),
        (∀ k, fl.testBit k = true ↔ ∃ e ∈ es w, (scattered t (vec w) e).2.testBit k = true) ∧
        v.ctx w = ({ s.ctx w with ocSt := (v.ctx w).ocSt, imprec := (s.ctx w).imprec ++ f,
                                  fcsr := (s.ctx w).fcsr ||| BitVec.ofNat 32 (fl % 64 * 2 ^ 8) } : Ctx).retired) ∧
  (∀ (a : VSrc) (b : Src) (ix : VSrc) (sc : Fin 4) (t : Ty) (sp : MSpace) (pol : Policy) (m : MReg) (s : State)
      (ls : Nat → List (List RByte)),
    let es := fun w => s.elems w t sp ((s.ctx w).src b) ((s.ctx w).vsrc 32 ix) sc ((s.ctx w).mask m)
    let vec := fun w => (s.ctx w).vsrc t.width a
    let new := fun w => ((es w).zip (ls w)).flatMap (fun p =>
      logEntries s w (wrap 64 (opOffset sp ((s.ctx w).src b) p.1.off)) pol p.2 (scattered t (vec w) p.1).1)
    (Instr.stx a b ix sc t sp pol m).wellFormed = true →
    (∀ w ∈ s.members s.cur, s.resolveX w t sp ((s.ctx w).src b) .write (es w) = .ok (s, ls w) ∧
      (∀ l ∈ ls w, loggedBytes s w l ∧ (s.ctx w).loadOverlaps l = false) ∧ (∀ e ∈ es w, e.width t % 8 = 0) ∧
      logCount (s.ctx w).log + (new w).length < 256) →
    ∃ v, exec (.stx a b ix sc t sp pol m) s = .next v ∧ v = { s with ctxs := v.ctxs } ∧
      (∀ w, w ∉ s.members s.cur → v.ctx w = s.ctx w) ∧
      ∀ w ∈ s.members s.cur, ∃ fl : Nat, (∀ k, fl.testBit k = true ↔ ∃ e ∈ es w, (scattered t (vec w) e).2.testBit k = true) ∧
        v.ctx w = ({ s.ctx w with log := (s.ctx w).log ++ new w,
                                  fcsr := (s.ctx w).fcsr ||| BitVec.ofNat 32 (fl % 64 * 2 ^ 8) } : Ctx).retired) ∧
  (∀ (a : VSrc) (b : Src) (ix : VSrc) (sc : Fin 4) (t : Ty) (sp : MSpace) (pol : Policy) (m : MReg) (s u : State) (ls : List (List RByte)),
    s.single → (Instr.stx a b ix sc t sp pol m).wellFormed = true →
    let c := s.ctx s.cur
    let es := s.elems s.cur t sp (c.src b) (c.vsrc 32 ix) sc (c.mask m)
    let new := (es.zip ls).flatMap (fun p =>
      logEntries u s.cur (wrap 64 (opOffset sp (c.src b) p.1.off)) pol p.2 (scattered t (c.vsrc t.width a) p.1).1)
    s.resolveX s.cur t sp (c.src b) .write es = .ok (u, ls) → (∀ l ∈ ls, loggedBytes u s.cur l ∧ (u.ctx s.cur).loadOverlaps l = false) →
    (∀ e ∈ es, e.width t % 8 = 0) → logCount (u.ctx s.cur).log + new.length < 256 →
    ∃ (v : State) (fl : Nat), exec (.stx a b ix sc t sp pol m) s = .next v ∧ v = { u with ctxs := v.ctxs } ∧
      (∀ w, w ≠ s.cur → v.ctx w = u.ctx w) ∧
      (∀ k, fl.testBit k = true ↔ ∃ e ∈ es, (scattered t (c.vsrc t.width a) e).2.testBit k = true) ∧
      v.ctx s.cur = ({ u.ctx s.cur with log := (u.ctx s.cur).log ++ new,
                                        fcsr := c.fcsr ||| BitVec.ofNat 32 (fl % 64 * 2 ^ 8) } : Ctx).retired)

/-- AMO and ACAS in a firing of one context. Where the operand resolves, no fault is pending, and after the publication of the log every
earlier access, and every store that its core has published, is performed at the scope and no such store to the bytes is on its way, an
atomic on memory or a scratchpad that holds no typed cell completes: the bytes get the new value (none for an ACAS that does not match), the
destination the old one extended under the type, and every other byte outside the race-trace rings keeps its value. On a typed cell it completes
too, writes neither memory nor a register, and adds the imprecise fault 0x13 to those of the firing; and while such an access is on its way
it waits (R190, R201, R213, R217, R218). -/
def Obligations.Atomics : Prop :=
  ∀ (i : Instr) (t : AmoTy) (sp : MSpace) (sc : Scope) (a : Dst) (b ea : Src) (disp : BitVec 32) (op : Option AmoOp)
    (s u : State) (l : List RByte), s.single →
    i = (match op with | some o => .amo o t sp sc a b ea disp | none => .acas t sp sc a b ea disp) →
    s.amoAddr s.cur t sp ea disp = .ok (u, l) → u.mayCommit →
    let v := u.committed
    let c := v.ctx s.cur
    let old := leNat (v.homeBytes l)
    let x := (c.src b).toNat % 2 ^ t.width
    (¬ releasable v s.cur sc ∨ v.storeAhead s.cur l = true → exec i s = .next v) ∧
    (releasable v s.cur sc → v.storeAhead s.cur l = false → (∃ pa hb cls, .mem pa hb cls ∈ l ∧ (v.cellTag pa).1 ≠ 0) →
      ∃ (r : State) (f : Imprecise), exec i s = .next r ∧ f.code = 0x13 ∧ r = { v with ctxs := r.ctxs } ∧ (∀ w, w ≠ s.cur → r.ctx w = v.ctx w) ∧
        r.ctx s.cur = ({ c with imprec := c.imprec ++ if c.kind = .none then [] else [f] } : Ctx).retired) ∧
    (releasable v s.cur sc → v.storeAhead s.cur l = false → plainBytes v l →
    ∃ (r : State) (new : Nat), exec i s = .next r ∧
      (match op with
        | some .add => new = (old + x) % 2 ^ t.width
        | some .and => new = old &&& x
        | some .or => new = old ||| x
        | some .xor => new = old ^^^ x
        | some .min => new = (if fromInt t.ty x < fromInt t.ty old then x else old)
        | some .max => new = (if fromInt t.ty old < fromInt t.ty x then x else old)
        | some .swap => new = x
        | none => new = if old = (c.dstVal a).toNat % 2 ^ t.width then x else old) ∧
      (∀ pa, ¬ inTraceRing pa → r.rdByte pa = byteAfter l (leBytes (t.width / 8) new) pa (v.rdByte pa)) ∧
      (∀ w, w ≠ s.cur → r.ctx w = v.ctx w) ∧
      Effect.On { scalars := c.writes a (extend t.ty old) } c (r.ctx s.cur))

/-- RST in a firing of one context, with an aligned address below 1 MiB, a target word without bits above 18 and no fault pending,
completes while fewer than 255 stores are counted after its publication: the log is published, and one store of the low bytes of the
operand, to the address in the scratchpad of the target core and module, waits behind the stores that its commit point published;
the st counter counts it, and no byte of memory changes after the publication; at 255 it waits. With other operands it takes the
misalignment fault or the permission fault (R202, R376). -/
def Obligations.RemoteStores : Prop :=
  ∀ (sz : RstSize) (a b ea : Src) (disp : BitVec 32) (s : State), s.single →
    let c := s.ctx s.cur
    let target := (c.src a).toNat
    let addr := wrap 64 ((c.src ea).toNat + disp.toInt)
    let n := (match sz with | .i8 => 1 | .i16 => 2 | .i32 => 4 | .i64 => 8)
    (addr % n ≠ 0 → exec (.rst sz a b ea disp) s = .next (s.fault s.cur { code := 7, cls := 1, va := BitVec.ofNat 64 addr })) ∧
    (addr % n = 0 → 2 ^ 19 ≤ target →
      exec (.rst sz a b ea disp) s = .next (s.fault s.cur { code := 2, cls := 1, detail := 3, va := c.src a })) ∧
    (addr % n = 0 → target < 2 ^ 19 → 0x100000 ≤ addr →
      exec (.rst sz a b ea disp) s = .next (s.fault s.cur { code := 2, cls := 1, detail := 3, va := BitVec.ofNat 64 addr })) ∧
    (addr % n = 0 → target < 2 ^ 19 → addr < 0x100000 → s.mayCommit →
      let p := s.committed
      (p.stOut s.cur < 255 → ∃ (t : State) (e : Pending), exec (.rst sz a b ea disp) s = .next t ∧ t.wq = p.wq ++ [e] ∧ e.via = .rst ∧
        e.pa = target / 2 ^ 11 * 2 ^ 44 + 0x80000000000 + target % 2 ^ 11 * 0x100000 + addr ∧
        e.bytes = leBytes n (c.src b).toNat ∧ e.after = (if c.pub then c.pubLo else s.uid) ∧ e.grp = p.uid ∧ e.uid = p.uid ∧
        t.mem = p.mem ∧ (t.ctx s.cur).ocSt = p.stOut s.cur + 1 ∧
        (t.ctx s.cur).sregs = c.sregs ∧ (t.ctx s.cur).pc = c.npc ∧ ∀ w, w ≠ s.cur → t.ctx w = p.ctx w) ∧
      (255 ≤ p.stOut s.cur → exec (.rst sz a b ea disp) s = .next p))

/-- NOP completes in every state and changes nothing but the PC. FENCE completes once, on every context of the firing, the earlier loads
are bound, where its kind orders loads and its scope is wider than the context, and the stores that are on their way are
performed at its scope, where its kind orders stores; a fence that orders stores beyond the context leaves a mark in
the log; and FENCEX and WAITC complete once, on every context, the accesses of the path they name, or the counters of `%oc`, are where they ask.
Otherwise the instruction waits: the state is as before (R28, R216, R221, R377, R387). -/
def Obligations.FencesAndWaits : Prop :=
  (∀ s : State, Completes .nop s (fun _ e => e = {})) ∧
  ∀ (i : Instr) (s : State), (∀ w, (orderForm s w i).isSome) →
    ((∀ w ∈ s.members s.cur, ∀ ready add, orderForm s w i = some (ready, add) → ready) →
      ∃ t, exec i s = .next t ∧ t = { s with ctxs := t.ctxs } ∧ (∀ w, w ∉ s.members s.cur → t.ctx w = s.ctx w) ∧
        ∀ w ∈ s.members s.cur, ∃ ready add, orderForm s w i = some (ready, add) ∧
          t.ctx w = ({ s.ctx w with log := (s.ctx w).log ++ add } : Ctx).retired) ∧
    ((∃ w ∈ s.members s.cur, ∃ ready add, orderForm s w i = some (ready, add) ∧ ¬ ready) → exec i s = .next s)

/-- PREF, CINV and BFSET in a firing of one context. PREF without `.l`, whose page a TLB or the instruction holds or whose address is out
of range, completes and changes caches, TLBs and directories only, and never faults; on a miss it waits for the walk. PREF.l with
addresses that are multiples of 64 and resolve, and fewer than 255 loads counted, completes with an outstanding copy of the line under its
policy and raises the ld counter; with another address it takes the misalignment fault, that of `a` before that of `b` (log entry 71). CINV, where the L1 TLB or the instruction holds the page of every line, completes, and no line that it names on
a present page of the partition is left in the L1 or the fetch buffer.
BFSET of a valid value by a supervisor or the owner of the whole bank completes and writes the bank's format register, and otherwise
takes the permission fault, with subcause 7 in each refused case (log entry 25). No byte of memory and no register but these changes (R204,
R205, R208). -/
def Obligations.Housekeeping : Prop :=
  (∀ (a : Src) (pol : Policy) (s : State), s.single →
    let r := s.peek s.cur ((s.ctx s.cur).src a).toNat
    (∀ x, r = .ok x →
      ∃ t, exec (.pref none a pol) s = .next t ∧ t = { s with ctxs := t.ctxs, cores := t.cores, clus := t.clus, ovf := t.ovf } ∧
        (∀ w, w ≠ s.cur → t.ctx w = s.ctx w) ∧ t.ctx s.cur = (s.ctx s.cur).retired ∧
        ∀ g, t.core g = { s.core g with tlb := (t.core g).tlb, l1 := (t.core g).l1, pcount := (t.core g).pcount }) ∧
    (∀ u, r = .error (.wait u) → exec (.pref none a pol) s = .next u ∧ (u.ctx s.cur).phase = .waitWalk) ∧
    ∀ x, r ≠ .error (.trap x)) ∧
  (∀ (b a : Src) (pol : Policy) (s u : State) (l m : List RByte) (pa : Nat), s.single →
    ((s.ctx s.cur).src a).toNat % 64 = 0 → ((s.ctx s.cur).src b).toNat % 64 = 0 →
    s.translate s.cur ((s.ctx s.cur).src a).toNat 64 .read = .ok (u, l) →
    u.resolveL s.cur ((s.ctx s.cur).src b).toNat 64 64 true = .ok (.mem pa 0 0 :: m) → (u.ctx s.cur).ocLd < 255 →
    ∃ (t : State) (x : Load), exec (.pref (some b) a pol) s = .next t ∧
      x.dst = .local_ pa ∧ x.addrs.map (fun p => p.1) = l.filterMap RByte.pa? ∧ x.pol = pol ∧ x.got = [] ∧ x.org = u.origin s.cur ∧
      t = { u with ctxs := t.ctxs, uid := u.uid + 1 } ∧ (∀ w, w ≠ s.cur → t.ctx w = u.ctx w) ∧
      t.ctx s.cur = ({ u.ctx s.cur with loads := (u.ctx s.cur).loads ++ [x], ocLd := (u.ctx s.cur).ocLd + 1 } : Ctx).retired) ∧
  (∀ (b a : Src) (pol : Policy) (s : State), s.single → ((s.ctx s.cur).src a).toNat % 64 ≠ 0 ∨ ((s.ctx s.cur).src b).toNat % 64 ≠ 0 →
    let bad := if ((s.ctx s.cur).src a).toNat % 64 ≠ 0 then (s.ctx s.cur).src a else (s.ctx s.cur).src b
    exec (.pref (some b) a pol) s = .next (s.fault s.cur { code := 7, cls := 1, va := bad })) ∧
  (∀ (a b : Src) (s : State), s.single →
    let c := s.ctx s.cur
    let k := s.core (s.cur / 4)
    let line := fun (i : Nat) => wrap 64 ((c.src a).toNat / 64 * 64 + 64 * i)
    k.tlb.length ≤ 64 →
    (∀ i < min (c.src b).toNat 4096, line i < 2 ^ 55 → ∃ x ∈ c.xlate ++ k.tlb, x.covers c.part (line i / 2 ^ 16 * 2 ^ 16) = true) →
    ∃ t, exec (.cinv a b) s = .next t ∧ t = { s with ctxs := t.ctxs, cores := t.cores, clus := t.clus, ovf := t.ovf } ∧
      (∀ w, w ≠ s.cur → t.ctx w = s.ctx w) ∧ t.ctx s.cur = c.retired ∧ (∀ g, g ≠ s.cur / 4 → t.core g = s.core g) ∧
      t.core (s.cur / 4) = { k with tlb := (t.core (s.cur / 4)).tlb, l1 := (t.core (s.cur / 4)).l1, ibuf := (t.core (s.cur / 4)).ibuf } ∧
      ∀ i < min (c.src b).toNat 4096, line i < 2 ^ 55 →
        ∃ x ∈ c.xlate ++ k.tlb, x.covers c.part (line i / 2 ^ 16 * 2 ^ 16) = true ∧
          (x.bad = 0 → s.corePhysOk s.cur false (x.phys (line i)) = true →
            FMap.find (t.core (s.cur / 4)).ibuf (x.phys (line i) / 64) = none ∧
            (t.core (s.cur / 4)).inL1 (x.phys (line i) / 64) = false)) ∧
  (∀ (a b : Src) (s : State), s.single →
    let c := s.ctx s.cur
    let k := (c.src a).toNat
    let v := (c.src b).toNat % 2 ^ 32
    let valid := k ≤ 15 ∧ v / 2 ^ 24 = 0 ∧ v / 2 ^ 10 % 2 ^ 6 = 0 ∧ (v % 32 ≤ 20 ∨ v % 32 = 31) ∧ v / 2 ^ 5 % 8 ≤ 4 ∧ v / 2 ^ 8 % 4 ≠ 3
    (valid → c.supv = true ∨ s.ownsBank s.cur k = true → exec (.bfset a b) s =
      .next ((s.onCore (s.cur / 4) (fun x => { x with bfmt := FMap.put 0x1F x.bfmt k (BitVec.ofNat 32 v) })).after s.cur id)) ∧
    (¬ valid → exec (.bfset a b) s = .next (s.fault s.cur { code := 2, cls := 1, detail := 7, va := c.src b })) ∧
    (c.supv = false → s.ownsBank s.cur k = false →
      exec (.bfset a b) s = .next (s.fault s.cur { code := 2, cls := 1, detail := 7, va := c.src b })))

/-- SPALLOC and SPFREE in a firing of one context. SPALLOC always completes: with the handle of the lowest free table entry and the
local address of a new allocation, at the lowest free 64-byte-aligned base of the bank asked for or of the lowest bank that fits, or
with a status of 1 to 4 and address 0 and nothing allocated; bytes outside the new user region keep their values. Which status
comes first when several hold is left open here (log entry 20), and where handle and address go to one register the address
remains (log entry 72). SPFREE of an entry that the firing holds, or of any entry by a supervisor, completes and removes it once no local
load writes into it; of any other entry it takes the permission fault (R206, R207). -/
def Obligations.ScratchpadAllocation : Prop :=
  (∀ (guard : Bool) (d : Dst) (b : Src) (r : Fin 64) (bank g1 : Fin 16) (ctxOwner : Bool) (s : State), s.single →
    let c := s.ctx s.cur
    let k := s.core (s.cur / 4)
    let z := ((c.src b).toNat + 63) / 64 * 64
    let al : Alloc := { guard := guard, g := if guard then g1.val + 1 else 0, ctx := if ctxOwner then some (s.cur % 4) else none,
                        slot := if ctxOwner then 0 else c.slot, size := z, base := 0 }
    let badSize := z < 64 ∨ 65536 < z ∨ 65536 < al.reserved ∨ (bank ≠ 15 ∧ k.sbfloor ≤ bank.val)
    ∃ t, exec (.spalloc guard d b r bank g1 ctxOwner) s = .next t ∧ (∀ w, w ≠ s.cur → t.ctx w = s.ctx w) ∧
      t.wq = s.wq ∧ t.net = s.net ∧
      ((∃ (e base : Nat), ¬ badSize ∧ (ctxOwner = true ∨ c.kind = .actor) ∧
          FMap.find k.sat e = none ∧ e < 32 ∧ (∀ j < e, (FMap.find k.sat j).isSome) ∧
          s.findBank (s.cur / 4) al.reserved (if bank = 15 then List.range k.sbfloor else [bank.val]) = some base ∧
          FMap.find (t.core (s.cur / 4)).sat e = some { al with base := base } ∧
          (∀ j, j ≠ e → FMap.find (t.core (s.cur / 4)).sat j = FMap.find k.sat j) ∧
          (∀ pa, ¬ (localPA (s.cur / 4) (base + (if guard then 64 * (g1.val + 1) else 0)) ≤ pa ∧
            pa < localPA (s.cur / 4) (base + (if guard then 64 * (g1.val + 1) else 0)) + al.userLen) → t.rdByte pa = s.rdByte pa) ∧
          t.ctx s.cur = ((c.dst d (BitVec.ofNat 64 (e * 2 ^ 59))).setSreg r.val
            (BitVec.ofNat 64 (base + (if guard then 64 * (g1.val + 1) else 0)))).retired) ∨
       (∃ status : Nat, t = { s with ctxs := t.ctxs } ∧ t.ctx s.cur = ((c.dst d (BitVec.ofNat 64 status)).setSreg r.val 0).retired ∧
          (status = 3 ∧ badSize ∨ status = 4 ∧ ctxOwner = false ∧ c.kind ≠ .actor ∨
           status = 1 ∧ (∀ j < 32, (FMap.find k.sat j).isSome) ∨
           status = 2 ∧ s.findBank (s.cur / 4) al.reserved (if bank = 15 then List.range k.sbfloor else [bank.val]) = none)))) ∧
  (∀ (a : Src) (s : State), s.single →
    let c := s.ctx s.cur
    let i := (c.src a).toNat / 2 ^ 59
    let k := s.core (s.cur / 4)
    (∀ al, FMap.find k.sat i = some al → c.supv = true ∨ al.ownedBy c (s.cur % 4) = true → s.loadInto s.cur al = false →
      exec (.spfree a) s = .next ((s.onCore (s.cur / 4) (fun x => { x with sat := FMap.erase x.sat i })).after s.cur id)) ∧
    (c.supv = false → (∀ al, FMap.find k.sat i = some al → al.ownedBy c (s.cur % 4) = false) →
      exec (.spfree a) s = .next (s.fault s.cur { code := 2, cls := 1, detail := 2, va := c.src a })) ∧
    (FMap.find k.sat i = none → c.supv = true → exec (.spfree a) s = .next (s.after s.cur id)) ∧
    (∀ al, FMap.find k.sat i = some al → c.supv = true ∨ al.ownedBy c (s.cur % 4) = true → s.loadInto s.cur al = true →
      exec (.spfree a) s = .next s))

/-- OINIT, OFREE, OREAD, CNT.ADD, CNT.WAIT, BAR.ARV, BAR.EXP, BAR.WAIT, LCK.TAKE, LCK.GIVE, Q.RES, Q.PUB, Q.AWAIT, Q.REL, CND.WAIT,
CND.SIG and CND.ALL, where the cell's address resolves to 16 aligned bytes of HBM: the request goes to the home of the cell and every
context of the firing stalls for the result; a releasing form first publishes the log, once, and waits until its earlier accesses and the
stores of every context of the firing that the publication let go are performed at the scope. No register and no byte of memory changes but by the publication (R340, R351, R355 to R363). -/
def Obligations.CellRequests : Prop :=
  (∀ (i : Instr) (s u : State) (q : CellAsk) (pa hb : Nat), cellAsk (s.ctx s.cur) i = some q →
    s.cellAddr s.cur q.va = .ok (u, pa, hb) → ((∃ mb, q.mode = .msg mb) → (u.ctx s.cur).aid ≠ 0) →
    (q.rel = false → ∃ t, exec i s = .next t ∧ requestSent u t s.cur pa hb q) ∧
    (q.rel = true → u.mayCommit →
      let p := u.committed
      (p.mayRelease s.cur (p.cellScope q.sc pa) = true → ∃ t, exec i s = .next t ∧ requestSent p t s.cur pa hb q) ∧
      (p.mayRelease s.cur (p.cellScope q.sc pa) = false → exec i s = .next p))) ∧
  (∀ (sc : Option CScope) (a : Dst) (b c : Src) (s u1 u2 u : State) (pa hb lpa lhb : Nat) (x y : Nat),
    let k := s.ctx s.cur
    s.cellAddr s.cur (k.src b) = .ok (u1, x, y) → u1.cellAddr s.cur ((u1.ctx s.cur).src c) = .ok (u2, lpa, lhb) →
    u2.cellAddr s.cur ((u2.ctx s.cur).src b) = .ok (u, pa, hb) → u.mayCommit →
    u.committed.mayRelease s.cur (u.committed.cellScope sc pa) = true →
    ∃ t, exec (.cndWait sc a b c) s = .next t ∧ requestSent u.committed t s.cur pa hb
      ⟨true, sc, .park, .word a ((u2.ctx s.cur).src b), (u2.ctx s.cur).src b, .cndWait lpa (homeOf lpa lhb)⟩)

/-- What an operation does to a cell at its home. An operation of another type than the cell's gives status 4 and changes nothing.
OINIT of operands in range, on a cell without waiters or ahead window, sets tag, scope and contents, and else gives status 6; OFREE of a
cell sets its tag to 0 and leaves its 16 bytes. CNT.ADD adds, saturating at 64 signed bits, and CNT.WAIT is satisfied exactly when its
condition holds. BAR.ARV takes its count from the arrivals and BAR.EXP adds its count to the bytes, each with the phase as its value, and the
phase completes when neither is above 0; BAR.WAIT of the current phase waits. LCK.TAKE of a free lock takes the next ticket and records the
holder, and of a taken one waits with that ticket; LCK.GIVE by the holder serves the next ticket. Q.RES of a queue with room gives the
index rsv and adds 1 to it; Q.PUB sets the bit of its index, and pub passes the set bits; Q.AWAIT claims an index below pub; Q.REL releases
claimed indices. CND.WAIT checks tags, homes and holder, in this order (log entry 39), and waits; CND.SIG and CND.ALL add 1 to seq
modulo 2^32 and choose the oldest waiter, or every waiter. A byte outside the cell keeps its value (R333 to R339, R349, R355, R356, R358 to
R362). -/
def Obligations.CellOperations : Prop :=
  ∀ (s : State) (cl pa : Nat) (tr : Bool) (aid gc : Nat),
    let op := fun act => s.cellDo cl pa act tr aid gc
    let w0 := s.cellW pa 0
    let w1 := s.cellW pa 1
    let q := s.que pa
    (∀ act, (∃ g, act.tag = some g ∧ g ≠ (s.cellTag pa).1) → op act = (s, .done 4 0 0)) ∧
    (∀ (k : CellKind) (sc : CScope) (x y : Word),
      let free := (∀ e ∈ (s.clu cl).lift, e.cell ≠ pa) ∧ ((s.cellTag pa).1 = 4 → s.window pa = 0)
      (∀ a b, initCell k sc x.toNat y.toNat a b → free → let r := op (.init k sc x y)
        r.2 = .done 0 0 0 ∧ r.1.cellTag pa = (kindTag k, cscopeCode sc) ∧ r.1.window pa = 0 ∧ r.1.cellW pa 0 = a ∧ r.1.cellW pa 1 = b ∧
        onlyCell s r.1 pa) ∧
      ((∀ a b, ¬ initCell k sc x.toNat y.toNat a b) ∨ ¬ free → op (.init k sc x y) = (s, .done 6 0 0))) ∧
    ((s.cellTag pa).1 = 1 → ∀ n : Int, let r := op (.cntAdd n)
      r.2 = .done 0 0 0 ∧ signed 64 (r.1.cellW pa 0) = max (-2 ^ 63) (min (2 ^ 63 - 1) (signed 64 w0 + n)) ∧ onlyCell s r.1 pa) ∧
    ((s.cellTag pa).1 = 1 → ∀ (cc : CntCond) (n : Int), let r := op (.cntWait cc n)
      r.1 = s ∧ (r.2 = .done 0 0 0 ↔ match cc with | .ge => signed 64 w0 ≥ n | .le => signed 64 w0 ≤ n | .eq => signed 64 w0 = n)) ∧
    ((s.cellTag pa).1 = 0 → op .free = (s, .done 4 0 0)) ∧
    ((s.cellTag pa).1 ≠ 0 → let r := op .free
      r.2 = .done 0 0 0 ∧ r.1.mem = s.mem ∧ (r.1.cellTag pa).1 = 0 ∧
      (∀ e ∈ (r.1.clu cl).lift, e.cell = pa → e.freed = true) ∧
      ∀ a, a / 16 ≠ pa / 16 → r.1.cellTag a = s.cellTag a) ∧
    ((s.cellTag pa).1 = 2 → ∀ n : Int,
      (n < 1 ∨ 2 ^ 24 - 1 < n → op (.barArv n) = (s, .done 6 0 0)) ∧
      (1 ≤ n → n ≤ 2 ^ 24 - 1 → (op (.barArv n)).2 = .done 0 (w0 % 2 ^ 32) 0 ∧
        barTested s (op (.barArv n)).1 pa (max (signed 32 (w0 / 2 ^ 32) - n) (-2 ^ 31)) (signed 32 w1) false) ∧
      (n < 0 ∨ 2 ^ 31 - 1 < n → op (.barExp n) = (s, .done 6 0 0)) ∧
      (0 ≤ n → n ≤ 2 ^ 31 - 1 → (op (.barExp n)).2 = .done 0 (w0 % 2 ^ 32) 0 ∧
        barTested s (op (.barExp n)).1 pa (signed 32 (w0 / 2 ^ 32)) (min (2 ^ 31 - 1) (signed 32 w1 + n))
          (decide (2 ^ 31 - 1 < signed 32 w1 + n)))) ∧
    ((s.cellTag pa).1 = 2 → ∀ p : Nat,
      op (.barWait p) = (s, if w0 % 2 ^ 32 = p then .wait 3 p else .done 0 (w0 % 2 ^ 32) 0)) ∧
    ((s.cellTag pa).1 = 3 → w0 % 2 ^ 32 = w0 / 2 ^ 32 → let r := op .lckTake
      r.2 = .done 0 (w0 % 2 ^ 32) 0 ∧ r.1.cellW pa 0 % 2 ^ 32 = (w0 + 1) % 2 ^ 32 ∧
      r.1.cellW pa 0 / 2 ^ 32 = w0 / 2 ^ 32 ∧ r.1.cellW pa 1 % 2 ^ 24 = aid % 2 ^ 24 ∧
      r.1.cellW pa 1 / 2 ^ 24 % 2 ^ 11 = gc % 2 ^ 11 ∧ r.1.cellW pa 1 / 2 ^ 35 % 2 ^ 8 = gc / 2 ^ 11 % 2 ^ 8 ∧ onlyCell s r.1 pa) ∧
    ((s.cellTag pa).1 = 3 → w0 % 2 ^ 32 ≠ w0 / 2 ^ 32 → op .lckTake = (s, .wait 4 (w0 % 2 ^ 32))) ∧
    ((s.cellTag pa).1 = 3 → let may := w0 % 2 ^ 32 ≠ w0 / 2 ^ 32 ∧ holdsLock w1 aid gc = true
      (¬ may → op .lckGive = (s, .done 6 0 0)) ∧
      (may → let r := op .lckGive
        r.2 = .done 0 0 0 ∧ r.1.cellW pa 0 % 2 ^ 32 = w0 % 2 ^ 32 ∧ r.1.cellW pa 0 / 2 ^ 32 = (w0 / 2 ^ 32 + 1) % 2 ^ 32 ∧
        r.1.cellW pa 1 % 2 ^ 43 = 0 ∧ onlyCell s r.1 pa)) ∧
    ((s.cellTag pa).1 = 4 → idxSub q.rsv q.rel < q.cap → let r := op .qRes
      r.2 = .done 0 0 q.rsv ∧ r.1.que pa = { q with rsv := (q.rsv + 1) % 2 ^ 24 } ∧ onlyCell s r.1 pa) ∧
    ((s.cellTag pa).1 = 4 → q.cap ≤ idxSub q.rsv q.rel → op .qRes = (s, .wait 5 0)) ∧
    ((s.cellTag pa).1 = 4 → ∀ i : Nat, let d := idxSub i q.pub
      (idxSub q.rsv q.pub ≤ d ∨ d < 64 ∧ (s.window pa).testBit d = true → op (.qPub i) = (s, .done 6 0 0)) ∧
      (d < idxSub q.rsv q.pub → 64 ≤ d → op (.qPub i) = (s, .wait 7 i)) ∧
      (d < idxSub q.rsv q.pub → d < 64 → (s.window pa).testBit d = false → let r := op (.qPub i)
        let set := fun j => decide (j = d) || (s.window pa).testBit j
        ∃ k, (∀ j < k, set j = true) ∧ set k = false ∧ r.2 = .done 0 0 0 ∧ r.1.que pa = { q with pub := (q.pub + k) % 2 ^ 24 } ∧
          (∀ j, (r.1.window pa).testBit j = set (j + k)) ∧ onlyCell s r.1 pa)) ∧
    ((s.cellTag pa).1 = 4 → (q.clm = q.pub → op .qAwait = (s, .wait 6 0)) ∧
      (q.clm ≠ q.pub → let r := op .qAwait
        r.2 = .done 0 0 q.clm ∧ r.1.que pa = { q with clm := (q.clm + 1) % 2 ^ 24 } ∧ onlyCell s r.1 pa)) ∧
    ((s.cellTag pa).1 = 4 → ∀ n : Int, let may := 1 ≤ n ∧ n ≤ q.cap ∧ n ≤ idxSub q.clm q.rel
      (¬ may → op (.qRel n) = (s, .done 6 0 0)) ∧
      (may → let r := op (.qRel n)
        r.2 = .done 0 0 0 ∧ r.1.que pa = { q with rel := (q.rel + n.toNat) % 2 ^ 24 } ∧ onlyCell s r.1 pa)) ∧
    ((s.cellTag pa).1 = 5 → ∀ lock home : Nat, op (.cndWait lock home) = (s,
      if (s.cellTag lock).1 ≠ 3 then .done 4 0 0
      else if home ≠ cl then .done 6 0 0
      else if s.cellW lock 0 / 2 ^ 32 ≠ s.cellW lock 0 % 2 ^ 32 ∧ holdsLock (s.cellW lock 1) aid gc = true then .wait 8 (w0 % 2 ^ 32)
      else .done 6 0 0)) ∧
    ((s.cellTag pa).1 = 5 → ((s.clu cl).lift.map (fun e => e.stamp)).Nodup → ∀ all : Bool,
      let r := s.cellDo cl pa (if all then .cndAll else .cndSig) false aid gc
      let names := (s.clu cl).lift.filter (fun e => decide (e.cell = pa ∧ e.code = 8 ∧ e.chosen = false))
      let chosen := if all then names else names.take 1
      r.2 = .done 0 chosen.length 0 ∧ r.1.cellW pa 0 % 2 ^ 32 = (w0 + 1) % 2 ^ 32 ∧ r.1.cellW pa 0 / 2 ^ 32 = w0 / 2 ^ 32 ∧
      (r.1.clu cl).lift = (s.clu cl).lift.map (fun e => if e ∈ chosen then { e with chosen := true } else e) ∧ onlyCell s r.1 pa)

/-- The events of the homes complete where they are enabled. HSU_OPERATION takes the operation it names off the list of its home and,
when the operation is done at once, sends its context the result of Table 18.3; on a poisoned line it does nothing to a cell and
sends status 7; OREAD answers with the two words of the cell, its tag and its scope; a try whose condition does not hold answers status 1
and changes no cell; a waiting form parks an entry with the next stamp, in the partition's quota, and its firing is lifted.
CELL_RESULT to a firing that waits for it writes the result to the destination of the instruction, which completes,
unless a discarded result refuses the wait; SPILL_LINE_RETURN wakes from a ring line; SPILL_REFILL moves the oldest spilled entry of a
partition on-chip, as its ring entry gives it, when its quota has room (that it is read again there, and what the ring entry does not
hold, are log entry 36); and WITHDRAWAL removes the entry of a killed firing (R340, R341, R344, R346, R349, R351). -/
def Obligations.CellEvents : Prop :=
  (∀ (s : State) (cl : Nat) (op : CellOp) (st v i : Nat), s.cluWith (fun k => k.hsu.any (fun o => decide (o.uid = s.sel))) = some cl →
    (s.clu cl).hsu.find? (fun o => decide (o.uid = s.sel)) = some op → (∀ a ∈ op.cells, a ∉ (s.clu cl).wakes) →
    let u := ((s.onClu cl (fun k => { k with hsu := k.hsu.filter (fun o => o.uid ≠ op.uid) })).bumpSlice cl 0x21).hsuLine cl op.pa
    ∃ t, exec .hsuOperation s = .next t ∧ (∀ o ∈ (t.clu cl).hsu, o.uid ≠ op.uid) ∧
      (op.act ≠ .read → (∃ a ∈ op.cells, s.poisoned a = true) → t.mem = s.mem ∧ t.tags = s.tags ∧
        ∃ r ∈ t.results, r.w = op.org.w ∧ r.fid = op.org.fid ∧ r.poison = true ∧ r.res = 7) ∧
      (op.act ≠ .read → (∀ a ∈ op.cells, s.poisoned a = false) → (∀ mb, op.mode ≠ .msg mb) →
        (u.cellDo cl op.pa op.act false op.org.aid (op.org.w / 4)).2 = .done st v i →
        ∃ r ∈ t.results, r.w = op.org.w ∧ r.fid = op.org.fid ∧ r.poison = false ∧
          r.res = BitVec.ofNat 64 (v % 2 ^ 32 * 2 ^ 32 + i % 2 ^ 24 * 2 ^ 8 + st % 16)) ∧
      (op.act = .read → op.mode = .park → s.poisoned op.pa = false → t.mem = s.mem ∧ t.tags = s.tags ∧
        ∃ r ∈ t.results, r.w = op.org.w ∧ r.fid = op.org.fid ∧ r.poison = false ∧ r.w0 = BitVec.ofNat 64 (s.cellW op.pa 0) ∧
          r.w1 = BitVec.ofNat 64 (s.cellW op.pa 1) ∧ r.res = BitVec.ofNat 64 ((s.cellTag op.pa).1 + (s.cellTag op.pa).2 * 16)) ∧
      (op.act = .read → s.poisoned op.pa = true → t.mem = s.mem ∧ t.tags = s.tags ∧
        ∃ r ∈ t.results, r.w = op.org.w ∧ r.fid = op.org.fid ∧ r.poison = true ∧ r.w0 = 0 ∧ r.w1 = 0 ∧ r.res = 0) ∧
      (op.act ≠ .read → (∀ a ∈ op.cells, s.poisoned a = false) →
        (u.cellDo cl op.pa op.act false op.org.aid (op.org.w / 4)).2 = .wait v i →
        (op.mode = .try_ → t.mem = s.mem ∧ t.tags = s.tags ∧ (t.clu cl).lift = (s.clu cl).lift ∧
          ∃ r ∈ t.results, r.w = op.org.w ∧ r.fid = op.org.fid ∧ r.poison = false ∧ r.res = 1) ∧
        (op.mode = .park → (s.clu cl).usedBy op.org.part < FMap.get 2 (s.clu cl).quota op.org.part → v ≠ 8 →
          (∃ e, (t.clu cl).lift = (s.clu cl).lift ++ [e] ∧ e.stamp = (s.clu cl).stamp ∧ e.w = op.org.w ∧ e.fid = op.org.fid ∧
            e.cell = op.pa ∧ e.code = v ∧ e.oper = BitVec.ofNat 64 i ∧ e.part = op.org.part ∧ e.msg = none ∧ e.spill = none) ∧
          (t.clu cl).stamp = ((s.clu cl).stamp + 1) % 2 ^ 48 ∧
          ((s.ctx op.org.w).gang = false → (s.ctx op.org.w).fid = op.org.fid → (s.ctx op.org.w).phase = .waitCell →
            (t.ctx op.org.w).phase = .lifted)))) ∧
  (∀ (s : State) (r : CellRes) (d : Dst) (va : Word), s.results.find? (fun x => decide (x.uid = s.sel)) = some r →
    (s.ctx r.w).fid = r.fid → (s.ctx r.w).phase = .waitCell ∨ (s.ctx r.w).phase = .lifted → (s.ctx r.w).gang = false →
    (s.ctx r.w).cellDst = .word d va → r.poison = false →
    ((d ≠ .discard ∨ ¬ (3 ≤ r.res.toNat % 16 ∧ r.res.toNat % 16 ≤ 6)) →
      exec .cellResult s = .next (({ s with results := s.results.filter (fun x => x.uid ≠ r.uid) } : State).after r.w
        (fun c => ({ c with phase := .running } : Ctx).dst d r.res))) ∧
    (d = .discard → 3 ≤ r.res.toNat % 16 → r.res.toNat % 16 ≤ 6 → ∃ u : State, u.ctx r.w = { s.ctx r.w with phase := .running } ∧
      exec .cellResult s = .next (u.fault r.w { code := 0x0A, cls := 1, detail := r.res.toNat % 16, va := va }))) ∧
  (∀ (s : State) (r : CellRes) (n : Nat) (mt : Option Nat) (va : Word), s.results.find? (fun x => decide (x.uid = s.sel)) = some r →
    (s.ctx r.w).fid = r.fid → (s.ctx r.w).phase = .waitCell → (s.ctx r.w).gang = false →
    (s.ctx r.w).cellDst = .read n mt va → r.poison = false →
    exec .cellResult s = .next (({ s with results := s.results.filter (fun x => x.uid ≠ r.uid) } : State).after r.w (fun c =>
      let k := (({ c with phase := .running } : Ctx).setSreg n r.w0).setSreg (n + 1) r.w1
      match mt with
      | some m => k.setSreg m r.res
      | none => k))) ∧
  (∀ (s : State) (cl : Nat), s.cluWith (fun k => k.wakes.contains s.sel) = some cl →
    ∃ t, exec .spillLineReturn s = .next t ∧ (t.clu cl).hsu = (s.clu cl).hsu ∧
      ((s.rereadRing cl (fun _ => true)).clu cl = s.clu cl →
        ∀ e, ((s.clu cl).waiters s.sel).find? (fun e => s.ready e) = some e → e.code ≠ 8 → ∀ x ∈ (t.clu cl).lift, x.stamp ≠ e.stamp)) ∧
  (∀ (s : State) (cl part : Nat) (e : LiftEnt), (s.clu cl).lift.find? (fun e => decide (e.part = part) && e.spill.isSome) = some e →
    (s.clu cl).usedBy part < FMap.get 2 (s.clu cl).quota part →
    ∃ t, exec (.spillRefill cl part) s = .next t ∧
      ∀ n f, e.spill = some n → (∀ x ∈ (s.clu cl).lift, x.stamp = e.stamp → x = e) →
        e.reread (s.rdWords (((s.clu cl).ring part).addr n) 4) = some f →
        { f with spill := none } ∈ (t.clu cl).lift ∧ (t.clu cl).lift.length = (s.clu cl).lift.length) ∧
  (∀ (s : State) (cl fid : Nat) (e : LiftEnt), s.cluWith (fun k => k.withdraw.any (fun x => decide (x.1 = s.sel))) = some cl →
    (s.clu cl).withdraw.find? (fun x => decide (x.1 = s.sel)) = some (s.sel, fid) →
    (∀ o ∈ (s.clu cl).hsu, ¬ (o.org.w = s.sel ∧ o.org.fid = fid)) →
    (s.clu cl).lift.find? (fun e => decide (e.w = s.sel) && decide (e.fid = fid) && e.msg.isNone && e.eng.isNone) = some e →
    e.cell ∉ (s.clu cl).wakes →
    ∃ t, exec .withdrawal s = .next t ∧ (s.sel, fid) ∉ (t.clu cl).withdraw ∧
      (e.code ≠ 4 → e.code ≠ 9 → ∀ x ∈ (t.clu cl).lift, x.stamp ≠ e.stamp))

/-- LAND.RD, LAND.OFF and LAND.ARM in a firing of one context. LAND.RD of a counter that the firing may read completes with words 0 and
1 of its record; LAND.OFF of one that it may stop completes and disarms it, which the writes of the same cycle still count, `.rel`
taking a core counter from every descriptor of the core and from `%lmask` of the firing that holds it; LAND.ARM of a valid image
whose region and action resolve completes: the free counter is armed with the image's fields, its region counted from 0, and named
in the destination, it counts from the next cycle on, or nothing is armed and the destination gets status 1, 2 or 3 with the word of the
counter asked for, of which a slice counter's index is open where none is free (log entry 3); while the counter owes an action or a notice
the arm waits. That any firing may disarm a slice counter that is disarmed, and which counter words are valid, are log entry 40 (R371, R373 to
R375). -/
def Obligations.LandingInstructions : Prop :=
  (∀ (n : SPair) (b : Src) (s : State) (id : CtrId), s.single → ctrOf (s.cur / 4) ((s.ctx s.cur).src b) = some id →
    (id.slice = true → (s.ctr id).part = (s.ctx s.cur).part) →
    Completes (.landRd n b) s (fun _ e => e = { scalars := [(2 * n.val, BitVec.ofNat 64 ((s.ctr id).word 0)),
      (2 * n.val + 1, BitVec.ofNat 64 ((s.ctr id).word 1))] })) ∧
  (∀ (a : Src) (rel : Bool) (s : State) (id : CtrId), s.single → ctrOf (s.cur / 4) ((s.ctx s.cur).src a) = some id →
    let c := s.ctx s.cur
    (id.slice = false → c.supv = true ∨ c.lmask.getLsbD id.idx = true) →
    (id.slice = true → (s.ctr id).arm = false ∨ ((s.ctr id).part = c.part ∧
      (c.supv = true ∨ (s.ctr id).owner = 0 ∨ (c.kind = .actor ∧ (s.ctr id).owner = c.aid)))) →
    let gives := rel = true ∧ id.slice = false
    ∃ t, exec (.landOff a rel) s = .next t ∧
      t.ctr id = { s.ctr id with arm := false, offAt := if (s.ctr id).arm then some s.now else (s.ctr id).offAt } ∧
      (∀ x, x ≠ id → t.ctr x = s.ctr x) ∧
      (∀ w, t.ctx w = { if w = s.cur then c.retired else s.ctx w with lmask := (t.ctx w).lmask }) ∧
      (¬ gives → ∀ w, (t.ctx w).lmask = (s.ctx w).lmask) ∧
      (gives → ∀ w, 4 * (s.cur / 4) ≤ w → w < 4 * (s.cur / 4) + 16 → (s.ctx w).kind = .actor → (w - 4 * (s.cur / 4)) / 4 = (s.ctx w).gidx →
        ∀ k, (t.ctx w).lmask.getLsbD k = (decide (k ≠ id.idx) && (s.ctx w).lmask.getLsbD k)) ∧
      (gives → ∀ k < 64, ∀ j < 64, (t.desc (s.cur / 4) k 18).testBit j = (decide (j ≠ id.idx) && (s.desc (s.cur / 4) k 18).testBit j)) ∧
      ∀ pa, ¬ (gives ∧ ∃ k < 64, descPA (s.cur / 4) k 18 ≤ pa ∧ pa < descPA (s.cur / 4) k 18 + 8) → t.rdByte pa = s.rdByte pa) ∧
  (∀ (st : Dst) (b e : Src) (s u : State) (l : List RByte) (q : LandRec), s.single →
    let c := s.ctx s.cur
    let i := (c.src e).toNat
    let id : CtrId := ⟨false, s.cur / 4, i⟩
    let p := wordsOf 8 (s.readBytes s.cur l)
    let r := armRec p
    let done := fun (v : State) (n : Nat) =>
      (v.touchLocal s.cur (c.src b).toNat l).after s.cur (fun c => c.dst st (BitVec.ofNat 64 n))
    let mine := (u.ctx s.cur).supv = true ∨ (u.ctx s.cur).lmask.getLsbD i = true
    s.resolveL s.cur (c.src b).toNat 64 64 false = .ok l → armFieldsOk p false = true → i < 64 →
    r.base / 0x10000 = (r.base + r.length - 1) / 0x10000 → r.base + r.length ≤ (s.core (s.cur / 4)).sysBase →
    s.armAction s.cur p r = .ok (u, q) →
    (mine → (u.ctr id).arm = false → (u.ctr id).owes = true → exec (.landArm st b (some e)) s = .next u) ∧
    (mine → (u.ctr id).arm = false → (u.ctr id).owes = false →
      ∃ r', exec (.landArm st b (some e)) s = .next (done (u.setCtr id r') (16 * i)) ∧ r'.arm = true ∧ r'.count = 0 ∧
        r'.base = r.base ∧ r'.length = r.length ∧ r'.total = r.total ∧ r'.action = r.action ∧ r'.amod = s.cur / 4 / 2048 ∧
        r'.acore = s.cur / 4 % 2048 ∧ r'.part = (u.ctx s.cur).part ∧
        r'.owner = (if (u.ctx s.cur).kind = .actor then (u.ctx s.cur).aid else 0) ∧
        r'.dlAt = (if r.deadline = 0 then none else some (u.now + r.deadline)) ∧ r'.from_ = u.now + 1) ∧
    (¬ mine → (u.ctx s.cur).kind = .actor → u.ctrTaken (s.cur / 4) i = false → (u.ctr id).arm = false → (u.ctr id).owes = false →
      ∃ t, exec (.landArm st b (some e)) s = .next t ∧ (t.ctr id).arm = true ∧ (t.ctr id).count = 0 ∧ (t.ctr id).base = r.base ∧
        (t.ctx s.cur).lmask.getLsbD i = true ∧ (t.desc (s.cur / 4) (u.ctx s.cur).slot 18).testBit i = true) ∧
    (mine → (u.ctr id).arm = true → exec (.landArm st b (some e)) s = .next (done u (16 * i + 3))) ∧
    (¬ mine → (u.ctx s.cur).kind ≠ .actor ∨ u.ctrTaken (s.cur / 4) i = true → exec (.landArm st b (some e)) s = .next (done u (16 * i + 2)))) ∧
  (∀ (st : Dst) (b : Src) (s v u : State) (l : List RByte) (q : LandRec) (pa hb : Nat), s.single →
    let c := s.ctx s.cur
    let p := wordsOf 8 (s.readBytes s.cur l)
    let done := fun (v : State) (n : Nat) =>
      (v.touchLocal s.cur (c.src b).toNat l).after s.cur (fun c => c.dst st (BitVec.ofNat 64 n))
    let cl := homeOf q.base hb
    s.resolveL s.cur (c.src b).toNat 64 64 false = .ok l → armFieldsOk p true = true → s.armRegion s.cur (armRec p) = .ok (v, pa, hb) →
    v.armAction s.cur p { armRec p with base := pa } = .ok (u, q) →
    ((∀ i < 512, (FMap.get {} (u.clu cl).land i).arm = true) → ∃ i < 512, exec (.landArm st b none) s =
      .next (done { u with freeCtr := u.freeCtr + 2 } (16 * i + 2 ^ 13 + cl % 256 * 2 ^ 14 + cl / 256 * 2 ^ 22 + 1))) ∧
    (∀ i < 512, (∀ j < i, (FMap.get {} (u.clu cl).land j).arm = true) → (FMap.get {} (u.clu cl).land i).arm = false →
      (FMap.get {} (u.clu cl).land i).owes = false → ∃ t, exec (.landArm st b none) s =
        .next (done t (16 * i + 2 ^ 13 + cl % 256 * 2 ^ 14 + cl / 256 * 2 ^ 22)) ∧ t = { u with clus := t.clus } ∧
        (t.ctr ⟨true, cl, i⟩).arm = true ∧ (t.ctr ⟨true, cl, i⟩).count = 0 ∧ (t.ctr ⟨true, cl, i⟩).base = q.base ∧
        (t.ctr ⟨true, cl, i⟩).length = q.length ∧ (t.ctr ⟨true, cl, i⟩).total = q.total ∧ ∀ x, x ≠ ⟨true, cl, i⟩ → t.ctr x = u.ctr x))

/-- LANDING_ACTION, LANDING_DEADLINE and LANDING_POOL_RETRY complete where they are enabled. An action of an earlier cycle's firing is taken once:
a notice goes to the notify target, a packet of the image leaves for its destination, a task goes to the deque of the core or is bounced or
waits, and a cell operation is done at the home of the cell, an engine error where its cell or image is denied or bad (log entry 40; the
home of the cell is log entry 39). The deadline test of a cycle comes behind its counted writes: TOUT is set, and stays, when the counter
has not fired, and one timeout notice is then sent; a task that waited for a deque entry tries again (R366, R368 to R370). -/
def Obligations.LandingEvents : Prop :=
  (∀ (s : State) (slice : Bool) (n i : Nat),
    let id : CtrId := ⟨slice, n, i⟩
    let r := s.ctr id
    let gc := r.imod * 2048 + r.icore
    let u := (s.setCtr id { r with pend := r.pend - 1 })
    let v := if slice then u.bumpSlice n 0x25 else u.bumpCore n 0x09
    r.due s.now = true →
    (r.action = 4 → exec (.landingAction slice n i) s = .next (v.landNotice r slice n i 0)) ∧
    (r.action = 3 → r.pool = true → s.badIn (localPA gc r.image) (16 * r.len1) = false →
      exec (.landingAction slice n i) s = .next (v.landTask gc r.part id.key (some r) (v.landPacket r))) ∧
    (r.action = 3 → r.pool = false → s.badIn (localPA gc r.image) (16 * r.len1) = false →
      ∃ (t : State) (e : NetPkt), exec (.landingAction slice n i) s = .next t ∧ t.net = s.net ++ [e] ∧ e.core = gc ∧ e.part = r.part ∧
        e.st = .ready ∧ e.rec_ = some r ∧ Pkt.kind e.p = 0 ∧ Pkt.dest e.p = r.oper.toNat % 2 ^ 24 ∧ Pkt.mb e.p = r.oper.toNat / 2 ^ 24 % 4 ∧
        e.p.drop 2 = s.rdWords (localPA gc r.image) (2 * r.len1) ∧ t.ctr id = { r with pend := r.pend - 1 } ∧ t.mem = s.mem) ∧
    (r.action = 1 ∨ r.action = 2 → r.cell ∉ (s.clu (homeOf r.cell r.cellHb)).wakes →
      (s.devOk r.amod r.part true r.cell = false → exec (.landingAction slice n i) s = .next (v.landError r 0 r.cell)) ∧
      (s.devOk r.amod r.part true r.cell = true → s.poisoned r.cell = true →
        exec (.landingAction slice n i) s = .next (v.landError r 1 r.cell)) ∧
      (s.devOk r.amod r.part true r.cell = true → s.poisoned r.cell = false →
      let x := v.actCell (homeOf r.cell r.cellHb) r.cell (if r.action = 1 then .barArv r.oper.toInt else .cntAdd r.oper.toInt)
      exec (.landingAction slice n i) s = .next ((if x.2.parts.1 = 0 then x.1 else x.1.landError r 3 r.cell).testWaiters
        (homeOf r.cell r.cellHb) r.cell none)))) ∧
  (∀ (s : State) (slice : Bool) (n i d : Nat),
    let id : CtrId := ⟨slice, n, i⟩
    let r := s.ctr id
    (r.dlAt = some d → d ≤ s.now → r.arm = true ∨ r.offAt = some s.now → r.fired = false →
      r.expire s.now = { r with tout := true, late := r.late + 1, dlAt := none }) ∧
    (r.fired = true ∨ (r.arm = false ∧ r.offAt ≠ some s.now) ∨ (∀ t, r.dlAt = some t → s.now < t) → r.expire s.now = r) ∧
    (r.late = d + 1 → exec (.landingDeadline slice n i) s = .next ((s.setCtr id { r with late := d }).landNotice r slice n i 1)) ∧
    (r.late = 0 → exec (.landingDeadline slice n i) s = notEnabled)) ∧
  (∀ (r : LandRec) (now : Nat), r.due now = true ↔ r.pend ≠ 0 ∧ (r.next ≤ now ∨ 2 ≤ r.pend)) ∧
  (∀ (s : State) (d part key : Nat) (r : Option LandRec) (p : Pkt) (l : List (Nat × Nat × Nat × Option LandRec × Pkt)),
    (s.core s.sel).poolRetry = (d, part, key, r, p) :: l →
    d ≤ s.now → (s.poolEnt s.sel part (Pkt.pool p)).isSome = true → s.deqFree s.sel ≠ 0 →
    ∃ (t : State) (k : Task), exec .landingPoolRetry s = .next t ∧ (t.core s.sel).poolRetry = l ∧
      (t.core s.sel).deque = (s.core s.sel).deque ++ [k] ∧ k.p = p ∧ k.push = s.now ∧ t.net = s.net)

/-- SEND, SENDV, SENDP, REPLY and ACTIVATE, which a gang issues once from its lead core (R248), with valid operands and a clean image, complete
while the firing has an entry left of what its rule reserved: the packet stands in the lowest free slot of the send buffer, a task in a deque entry,
with the header of Table 12.2 and its payload, not yet published, and one entry fewer is left; with none left they take the permission
fault with subcause 4 (R227, R238 to R243, R248). -/
def Obligations.Sends : Prop :=
  ∀ (i : Instr) (q : SendAsk) (s : State) (img : Pkt), sendForm (s.ctx s.cur) i = some q → q.valid →
    (match q.image with
      | some a => ∃ l, s.resolveL s.cur a.toNat (16 * (q.len - 1)) 16 false = .ok l ∧ cleanBytes s l ∧
          img = wordsOf (2 * (q.len - 1)) (s.readBytes s.cur l)
      | none => img = q.words) →
    let c := s.ctx s.cur
    ¬ (q.rv = true ∧ (c.kind = .pool ∨ (c.kind = .activate ∧ (s.sched (s.cur / 4) 0).st = .absent))) →
    (q.kind ≠ 1 → ∀ n j, c.pktB = n + 1 → freeSlot c.slots 0 = some j →
      ∃ t p, exec i s = .next t ∧ q.gives s s.cur img p ∧ (t.ctx s.cur).slots = c.slots.set j (.filled s.uid p) ∧
        (t.ctx s.cur).pktB = n ∧ t.net = s.net ∧ (t.ctx s.cur).pc = c.npc ∧ (t.ctx s.cur).sregs = c.sregs ∧
        (∀ w, w ≠ s.cur → t.ctx w = if w ∈ s.members s.cur then (s.ctx w).retired else s.ctx w) ∧ (∀ g, ∃ x, t.core g = { s.core g with subPtr := x }) ∧
        ∀ pa, ¬ (localPA (s.cur / 4) (0xE5000 + 0x800 * (s.cur % 4) + 256 * j) ≤ pa ∧
          pa < localPA (s.cur / 4) (0xE5000 + 0x800 * (s.cur % 4) + 256 * j) + 8 * p.length) → t.rdByte pa = s.rdByte pa) ∧
    (q.kind = 1 → ∀ n, c.deqB = n + 1 →
      ∃ t p, exec i s = .next t ∧ q.gives s s.cur img p ∧ (t.ctx s.cur).written = c.written ++ [(s.uid, s.deqIndex (s.cur / 4), p)] ∧
        (t.ctx s.cur).deqB = n ∧ t.net = s.net ∧ (t.ctx s.cur).pc = c.npc ∧ (t.ctx s.cur).sregs = c.sregs ∧
        (∀ w, w ≠ s.cur → t.ctx w = if w ∈ s.members s.cur then (s.ctx w).retired else s.ctx w) ∧ (∀ g, ∃ x, t.core g = { s.core g with subPtr := x }) ∧
        ∀ pa, ¬ (localPA (s.cur / 4) (0xF0000 + 256 * s.deqIndex (s.cur / 4)) ≤ pa ∧
          pa < localPA (s.cur / 4) (0xF0000 + 256 * s.deqIndex (s.cur / 4)) + 8 * p.length) → t.rdByte pa = s.rdByte pa) ∧
    ((q.kind ≠ 1 ∧ c.pktB = 0) ∨ (q.kind = 1 ∧ c.deqB = 0) →
      exec i s = .next (s.fault s.cur { code := 2, cls := 1, detail := 4, va := 0 }))

/-- MPEEK completes in every state, in a gang on every core, with the count or the word of the peeked entry, or 0 where there is none; a word with
an uncorrectable error is an imprecise fault of the reading context besides. In a firing of one context
with no fault pending, COMMIT completes and publishes: the stores of the log wait to be performed in their order and the log is
empty; FIN, where the completion notices of the consumed packets have room, completes: it publishes, queues the notices and leaves
the context free and its actor Idle; with less room it queues as many as there is room for and waits with the others (log entry 35); and YIELD
completes, as FIN does while `%yreq` is 1, and with no effect while it is 0. With an imprecise fault pending FIN takes that fault, also in
the time it waits (R19, R237, R244 to R248, R382, R392). -/
def Obligations.FiringEnds : Prop :=
  (∀ (what : Peek) (d : Dst) (b e : Src) (s : State),
    let c := s.ctx s.cur
    let m := s.mbox (s.cur / 4) c.slot (c.src b).toNat
    let pos := (c.src e).toNat
    let here := c.kind = .actor ∧ (c.src b).toNat ≤ 3 ∧ m.en = true
    let at_ := localPA (s.cur / 4) (m.entry (m.head + pos))
    let bad := ∃ a, s.peekAt s.cur what (c.src b).toNat pos = some a ∧ s.badWord (localPA (s.cur / 4) a) = true
    (bad → ∃ (t : State) (f : Imprecise), exec (.mpeek what d b e) s = .next t ∧ (t.ctx s.cur).imprec = c.imprec ++ [f] ∧ f.code = 0x10 ∧
      f.detail = 2) ∧
    (¬ bad → Completes (.mpeek what d b e) s (fun k x => ∃ v, x = { scalars := k.writes d (BitVec.ofNat 64 v) } ∧
      (¬ here → v = 0) ∧ (here → what = .cnt → v = m.count) ∧ (here → what ≠ .cnt → m.count ≤ pos → v = 0) ∧
      (here → pos < m.count → what = .hdr → v = s.rd64 at_) ∧ (here → pos < m.count → what = .arg0 → v = s.rd64 (at_ + 16)) ∧
      (here → pos < m.count → what = .arg1 → v = s.rd64 (at_ + 24))))) ∧
  (∀ s : State, s.single → s.mayCommit →
    exec .commit s = .next (s.committed.after s.cur id) ∧ ((s.publish s.cur).ctx s.cur).log = [] ∧
    (∀ k ∈ ((s.publish s.cur).ctx s.cur).slots, ∀ u p, k ≠ .filled u p)) ∧
  (∀ (s : State) (f : Trap), s.single → s.pendingFault s.cur = some f → exec .fin s = .next (s.fault s.cur f)) ∧
  (∀ s : State, s.single → s.pendingFault s.cur = none →
    let p := s.committed
    let c := p.ctx s.cur
    let ns := c.owed.getD (c.msgs.flatMap (noticesOf c.aid c.supv))
    let room := 32 - (p.core (s.cur / 4)).notq
    (ns.length ≤ room → ∀ i, i = .fin ∨ (i = .yield ∧ (s.ctx s.cur).yreq = true) →
      ∃ t, exec i s = .next t ∧ (t.ctx s.cur).phase = .free ∧ (t.ctx s.cur).kind = .none ∧ (t.ctx s.cur).log = [] ∧
        (c.kind = .actor → (p.sched (s.cur / 4) c.slot).st ≠ .leaving → (t.sched (s.cur / 4) c.slot).st = .idle) ∧
        t.net.map (fun e => e.p) = p.net.map (fun e => e.p) ++ ns ∧ t.mem = p.mem ∧ ∀ w, w ≠ s.cur → t.ctx w = p.ctx w) ∧
    (room < ns.length → ∃ t, exec .fin s = .next t ∧ t.ctx s.cur = { c with owed := some (ns.drop room) } ∧
      t.net.map (fun e => e.p) = p.net.map (fun e => e.p) ++ ns.take room ∧ t.mem = p.mem ∧ ∀ w, w ≠ s.cur → t.ctx w = p.ctx w)) ∧
  (∀ s : State, s.single → (s.ctx s.cur).yreq = false → exec .yield s = .next (s.after s.cur id))

/-- CPY, CPY2, CPYX, FILL and BSEL, which a gang issues once from its lead core (R248), where the operands are aligned, within the limits, and
resolve, and no fault is pending: the firing publishes, the command with its resolved ranges and its completion action goes to the engine of its
kind, and the cp counter rises by 1; with the counter at 255 the instruction waits. That the row lengths and the default formats of a copy are
those of the banks at issue is log entry 41 (R248, R271, R275, R281 to R284, R286, R287). -/
def Obligations.EngineCommands : Prop :=
  (∀ (i : Instr) (q : CopyReq) (len : Word) (bs : List Byte) (s u1 u2 u : State) (dst src : List (List Span)) (pa hb : Nat),
    copyAsk s s.cur bs i = some (q, len) → copyReady s s.cur bs i →
    let act := actOf (s.ctx s.cur) q.act
    let ssp := q.ssp.getD .l
    (act.1 ≠ 0 → act.2.1.toNat % 16 = 0) → q.tooLong = false →
    s.leavesOf s.cur .write (engRanges q.dsp q.a q.drows) = .ok u1 → u1.leavesOf s.cur .read (engRanges ssp q.b q.srows) = .ok u2 →
    u2.leavesOf s.cur .rw (if act.1 = 0 then [] else [(act.2.1.toNat, 16)]) = .ok u →
    u.engRows s.cur q.dsp q.a true q.drows = .ok dst →
    (if q.ssp.isSome then u.engRows s.cur ssp q.b false q.srows else .ok []) = .ok src →
    (q.eng = none → oneBlock src = true) → u.actAddr s.cur act.1 act.2.1 = .ok (pa, hb) → u.mayCommit →
    let p := u.committed
    ((p.ctx s.cur).ocCp < 255 → ∃ (t : State) (e : EngCmd), exec i s = .next t ∧ t.engines = p.engines ++ [e] ∧ e.kind = q.kind ∧
      (∀ n, q.eng = some n → e.eng = n) ∧ (∀ x, q.eng = none → firstSpan src = some x → e.eng = homeOf x.pa x.hb) ∧
      e.org = p.origin s.cur ∧ e.dst = dst ∧ e.src = src ∧ e.count = q.count ∧ e.conv = q.shape.conv ∧ e.o = q.o ∧ e.phase = .sending ∧
      e.act = act.1 ∧ e.actPa = pa ∧ e.actW = act.2.2 ∧ (q.kind = 3 → e.pat = q.b) ∧
      (t.ctx s.cur).ocCp = (p.ctx s.cur).ocCp + 1 ∧ t.mem = p.mem ∧ (t.ctx s.cur).sregs = (p.ctx s.cur).sregs ∧
      ∀ w, w ≠ s.cur → t.ctx w = if w ∈ s.members s.cur then (p.ctx w).retired else p.ctx w) ∧
    (255 ≤ (p.ctx s.cur).ocCp → exec i s = .next p)) ∧
  (∀ (a : Src) (o : Bool) (s u : State) (l ql : List RByte) (sp : List (List Span)),
    let va := (s.ctx s.cur).src a
    let d := wordsOf 16 (s.readBytes s.cur l)
    let b := bselOf d
    let ranges := [(Pkt.word d 2, b.N * b.sumBytes), (Pkt.word d 4, (b.N - 1) * b.kstride + b.blockBytes),
      (Pkt.word d 6, (b.N - 1) * b.vstride + b.blockBytes)]
    s.resolveL s.cur va.toNat 128 64 false = .ok l → Pkt.word d 1 % 16 = 0 → u.bselTrap s.cur d va = none →
    s.leavesOf s.cur .read ranges = .ok u → u.resolveL s.cur (Pkt.word d 1) (b.dim * b.qfmt.width / 8) 16 false = .ok ql →
    (∀ x ∈ u.bselDests (s.cur / 4) b, u.slotTrap s.cur x.1 x.2 = none) → u.spansOfAll s.cur .read ranges = .ok sp →
    u.mayCommit →
    let p := u.committed
    ((p.ctx s.cur).ocCp < 255 → ∃ (t : State) (e : EngCmd), exec (.bsel a o) s = .next t ∧ t.engines = p.engines ++ [e] ∧ e.kind = 4 ∧
      e.eng = selectorOf (s.cur / 4) ∧ e.org = p.origin s.cur ∧ e.o = o ∧ e.big = true ∧ e.phase = .sending ∧
      e.bsel = some { b with query := u.readBytes s.cur ql, sums := sp.getD 0 [], ks := sp.getD 1 [], vs := sp.getD 2 [] } ∧
      (t.ctx s.cur).ocCp = (p.ctx s.cur).ocCp + 1 ∧ t.mem = p.mem ∧ (t.ctx s.cur).sregs = (p.ctx s.cur).sregs ∧
      ∀ w, w ≠ s.cur → t.ctx w = if w ∈ s.members s.cur then (p.ctx w).retired else p.ctx w) ∧
    (255 ≤ (p.ctx s.cur).ocCp → exec (.bsel a o) s = .next p))

/-- The events of the engines complete where they are enabled. A command is delivered in order while the inbox of its engine has room,
and else refused and sent again after the pause of R234, the 17th refusal abandoning it and what is held behind it; the head of an
inbox starts when a place is free and its order allows, a big command only with leave; a command whose bytes are all performed, or
that an error stopped, leaves, its completion action first; and an action ends its command when its cell satisfies it, or as an engine
error when its cell is outside the partition or poisoned. A BSEL that starts selects min(k, N) blocks: every forced block, which come first, and
of the others those that rank first, each part in rank order by the scores of the summaries, ties to the lower block; its rows are the output
list and then K and V of each selected block, and the counter it names gets the bytes of them in its region as its total (R189, R273, R274, R276,
R277, R287 to R290, R407). -/
def Obligations.EngineEvents : Prop :=
  (∀ (s u : State) (e f : EngCmd) (b : BselCmd), s.bselRun e b = .ok (u, f) →
    (∃ l : List Nat, l.length ≤ b.k ∧ ∀ i, forcedBlock b i → i ∈ l) →
    let gc := e.org.w / 4
    let after := fun (i j : Nat) =>
      rank true (fromFormat (blockScore s b i).1 .f32 0) i (fromFormat (blockScore s b j).1 .f32 0) j = true
    ∃ sel : List Nat, f = { e with
        dst := f.dst, src := f.src
        bsel := some { b with sel := sel.map (fun i => (i, (blockScore s b i).1))
                              flags := (List.range b.N).foldl (fun a i => a ||| (blockScore s b i).2) 0 } } ∧
      sel.length = min b.k b.N ∧ sel.Nodup ∧ (∀ i ∈ sel, i < b.N) ∧ (∀ i, forcedBlock b i → i ∈ sel) ∧
      sel.Pairwise (fun i j => (forcedBlock b j → forcedBlock b i) ∧ ((forcedBlock b i ↔ forcedBlock b j) → ¬ after j i)) ∧
      (∀ i ∈ sel, ¬ forcedBlock b i → ∀ j < b.N, j ∉ sel → ¬ after j i) ∧
      f.dst.length = 1 + 2 * sel.length ∧ f.src.length = 1 + 2 * sel.length ∧
      (∀ n < 8 * b.k, (spanAt (f.dst.getD 0 []) n).map (fun x => x.2.1) = some (localPA gc b.list + n)) ∧
      (∀ (r i : Nat), sel[r]? = some i → ∀ v : Bool, let a := (if v then b.vdst else b.kdst) + r * b.slot
        let row := 1 + 2 * r + if v then 1 else 0
        (∀ n < s.slotBytes gc b a, (spanAt (f.dst.getD row []) n).map (fun x => x.2.1) = some (localPA gc a + n)) ∧
        ∀ n < b.L * b.dim * b.kvfmt.width / 8, spanAt (f.src.getD row []) n =
          if v then spanAt b.vs (i * b.vstride + n) else spanAt b.ks (i * b.kstride + n)) ∧
      u.mem = s.mem ∧ ∀ i, b.land = some i → let r := s.ctr ⟨false, gc, i⟩
        let n := (f.dst.flatten.map (fun x => overlap r.base r.length x.va x.len)).sum
        r.arm = true ∧ (u.ctr ⟨false, gc, i⟩).total = if n = 0 then r.total else n) ∧
  (∀ (s : State) (e : EngCmd), s.cmd s.sel = some e → e.phase = .sending →
    (∀ x ∈ s.engines, x.sameWay e = true → x.held = true → e.uid ≤ x.uid) →
    let inbox := s.engines.filter (fun x => decide (x.eng = e.eng) && decide (x.phase = .inbox))
    let size := if e.eng < 2 ^ 20 then (32, 64) else if e.eng < 2 ^ 21 then (32, 128) else (16, 512)
    (inbox.length < size.1 → ∃ t, exec .engineCommandDelivery s = .next t ∧ t.cmd s.sel = some { e with phase := .inbox, order := s.uid } ∧
      ∀ n, n ≠ s.sel → t.cmd n = s.cmd n) ∧
    (size.1 ≤ inbox.length → e.tries < 16 → ∃ t, exec .engineCommandDelivery s = .next t ∧
      t.cmd s.sel = some { e with phase := .backoff, tries := e.tries + 1, till := s.now + min (size.2 * 2 ^ e.tries) 65536 } ∧
      ∀ n, n ≠ s.sel → t.cmd n = s.cmd n) ∧
    (size.1 ≤ inbox.length → e.tries = 16 → ∃ t, exec .engineCommandDelivery s = .next t ∧
      ∀ x ∈ t.engines, x ∈ s.engines ∧ ¬ (x.sameWay e = true ∧ x.held = true))) ∧
  (∀ (s : State) (e : EngCmd), s.cmd s.sel = some e → e.phase = .backoff → e.till ≤ s.now →
    ∃ t, exec .engineRetryTimer s = .next t ∧ t = { s with engines := t.engines } ∧ t.cmd s.sel = some { e with phase := .sending } ∧
      ∀ n, n ≠ s.sel → t.cmd n = s.cmd n) ∧
  (∀ (s : State) (e : EngCmd), s.cmd s.sel = some e → e.phase = .inbox →
    (∀ x ∈ s.engines, x.eng = e.eng → x.phase = .inbox → e.order ≤ x.order) →
    (s.engines.filter (fun x => decide (x.eng = e.eng) && x.busy)).length < (engineSize e.eng).2.1 → s.ordered e = true →
    (e.big = true → e.granted = false → s.asked (dieOf (e.org.w / 4)) (cmdName e.uid) (engineWatts e) = false →
      exec .engineCommandStart s = .next (s.askLeave (dieOf (e.org.w / 4)) (cmdName e.uid) (engineWatts e))) ∧
    (e.big = false ∨ e.granted = true → e.bsel = none → ∃ t, exec .engineCommandStart s = .next t ∧ t = { s with engines := t.engines } ∧
      t.cmd s.sel = some { e with phase := .active } ∧ ∀ n, n ≠ s.sel → t.cmd n = s.cmd n) ∧
    (e.big = false ∨ e.granted = true → ∀ b, e.bsel = some b →
      (∀ u f, s.bselRun { e with phase := .active } b = .ok (u, f) → exec .engineCommandStart s = .next (u.setCmd f)) ∧
      (∀ n, s.bselRun { e with phase := .active } b = .error n → ∃ t, exec .engineCommandStart s = .next t ∧
        t.cmd s.sel = some { e with phase := .active, err := true }))) ∧
  (∀ (s : State) (e : EngCmd), s.cmd s.sel = some e → e.phase = .active → e.err = true ∨ e.dst.length ≤ e.row →
    (e.err = false → e.act ≠ 0 → ∃ t, exec .engineCommandComplete s = .next t ∧ t = { s with engines := t.engines } ∧
      t.cmd s.sel = some { e with phase := .acting } ∧ ∀ n, n ≠ s.sel → t.cmd n = s.cmd n) ∧
    (e.err = true ∨ e.act = 0 → ∃ t, exec .engineCommandComplete s = .next t ∧ t.cmd s.sel = none ∧ (∀ n, n ≠ s.sel → t.cmd n = s.cmd n) ∧
      ((s.ctx e.org.w).fid = e.org.fid → (s.ctx e.org.w).kind ≠ .none → (t.ctx e.org.w).ocCp = (s.ctx e.org.w).ocCp - 1) ∧
      (∀ b, e.err = false → e.bsel = some b → b.rpl = true → ∃ x, t.net = s.net ++ [x] ∧ Pkt.kind x.p = 8 ∧
        Pkt.dest x.p = b.reply % 2 ^ 24 ∧ Pkt.word x.p 2 % 2 ^ 8 = b.sel.length % 2 ^ 8))) ∧
  (∀ (s : State) (e : EngCmd) (v n : Nat), s.cmd s.sel = some e → e.phase = .acting →
    let home := homeOf e.actPa e.actHb
    let act := if e.act = 1 then CellAct.qPub (e.actW.toNat % 2 ^ 24) else if e.act = 2 then .cntAdd e.actW.toInt else .barDec e.bytes
    let allowed := s.devOk (e.org.w / 4 / 2048) e.org.part true e.actPa = true
    e.actPa ∉ (s.clu home).wakes → ∃ t, exec .completionAction s = .next t ∧
      (¬ allowed ∨ s.poisoned e.actPa = true → t.cmd s.sel = none ∧ t.mem = s.mem) ∧
      (allowed → s.poisoned e.actPa = false → (s.actCell home e.actPa act).2 = .done 0 v n →
        t = (((s.actCell home e.actPa act).1.engFinish e).testWaiters home e.actPa none) ∧ t.cmd s.sel = none))

/-- TINJ and TEXT in a firing of one context with no fault pending. TINJ of an accepted chunk publishes and completes with the chunk at
the end of the inject queue while that holds fewer than 16, and else waits; TEXT takes the head of the extract queue, sends it to the
local address and writes 1, and with nothing there writes 0 under `.try` and else waits. TREE_COMBINE of a full combination, none of
its group due before it, takes its chunks and delivers one result to the root, or to every member, by the table of operations;
TREE_FETCH_BACK delivers a result that waited, or brings the oldest spilled result or combination back, as the bytes of the spill area in HBM
then are; a result whose spill write is denied is lost and reported. Where the spill area lies, and its layout, are log entry 10 (R189, R292 to
R296). -/
def Obligations.TreeOperations : Prop :=
  (∀ (a : Src) (s : State) (l : List RByte), s.single →
    let va := (s.ctx s.cur).src a
    let k := wordsOf 8 (s.readBytes s.cur l)
    let v := s.touchLocal s.cur va.toNat l
    let p := v.committed
    s.resolveL s.cur va.toNat 64 64 false = .ok l → s.chunkOk (s.cur / 4) k = true → v.mayCommit →
    ((p.core (s.cur / 4)).injq.length < 16 → ∃ t, exec (.tinj a) s = .next t ∧
      (t.core (s.cur / 4)).injq = (p.core (s.cur / 4)).injq ++ [k] ∧ (∀ g, g ≠ s.cur / 4 → t.core g = p.core g) ∧
      t.mem = p.mem ∧ t.ctx s.cur = (p.ctx s.cur).retired ∧ ∀ w, w ≠ s.cur → t.ctx w = p.ctx w) ∧
    (16 ≤ (p.core (s.cur / 4)).injq.length → exec (.tinj a) s = .next p)) ∧
  (∀ (d : Dst) (a : Src) (tr : Bool) (s : State) (l : List RByte), s.single →
    let p := s.committed
    s.resolveL s.cur ((s.ctx s.cur).src a).toNat 64 64 true = .ok l → s.mayCommit →
    ((p.core (s.cur / 4)).extq = [] → tr = true → exec (.text d a tr) s = .next (p.after s.cur (fun c => c.dst d 0))) ∧
    ((p.core (s.cur / 4)).extq = [] → tr = false → exec (.text d a tr) s = .next p) ∧
    (∀ k r, (p.core (s.cur / 4)).extq = k :: r → portBytes p s.cur l → (p.ctx s.cur).loadOverlaps l = false →
      ∃ t v, exec (.text d a tr) s = .next t ∧ sentToPort p v [(s.cur, cellsOf l (Pkt.bytes k))] ∧ t.wq = v.wq ∧ t.mem = p.mem ∧
        (∀ g, t.core g = { p.core g with extq := if g = s.cur / 4 then r else (p.core g).extq }) ∧
        Effect.On { scalars := (p.ctx s.cur).writes d 1 } { p.ctx s.cur with ocSt := (t.ctx s.cur).ocSt } (t.ctx s.cur) ∧
        ∀ w, w ≠ s.cur → t.ctx w = p.ctx w)) ∧
  (∀ (s : State) (m g : Nat) (seq : BitVec 32) (c : TreeChunk) (r : List TreeChunk) (ty : Ty), g < 64 →
    let u := s.treeDrain m
    let grp := u.group m g
    let l := (u.combo m g seq.toNat).foldr byCore []
    u.comboFull m g seq.toNat = true → u.comboLater m g seq.toNat = false → comboBad l = false → l = c :: r → chunkTy c.words = some ty →
    ∃ (t : State) (p : Pkt), exec (.treeCombine m g seq) s = .next t ∧
      (∀ x ∈ (t.mod m).chunks ++ (t.mod m).spillT, x.is g seq.toNat = false) ∧
      (∀ k ∈ (if grp.allRed then grp.members else [grp.root]), p ∈ (t.core (m * 2048 + k)).extq ∨ (∃ o ∈ (t.mod m).treeOut, o.core = k ∧ o.words = p) ∨
        ∃ i, u.treeOpen m (u.ownerOf (m * 2048 + k)) true i = false) ∧
      Pkt.word p 0 % 2 ^ 6 = g ∧ Pkt.word p 0 / 2 ^ 8 % 2 ^ 9 = Pkt.word c.words 0 / 2 ^ 8 % 2 ^ 9 ∧ Pkt.word p 0 / 2 ^ 32 = seq.toNat ∧
      (Pkt.word p 1).testBit 15 = false ∧
      chunkBody p = (treeBody (chunkOp c.words) ty (l.map (fun x => (x.core, chunkBody x.words)))).1 % 2 ^ 384) ∧
  (∀ (s : State) (l1 l2 : List TreeOut) (o : TreeOut), (s.mod s.sel).treeOut = l1 ++ o :: l2 → (∀ x ∈ l1, x.core ≠ o.core) →
    (s.core (s.sel * 2048 + o.core)).extq.length < 16 →
    ∃ t, exec .treeFetchBack s = .next t ∧ o.words ∈ (t.core (s.sel * 2048 + o.core)).extq) ∧
  (∀ (s : State) (o : TreeOut), (∀ x ∈ (s.mod s.sel).treeOut, 16 ≤ (s.core (s.sel * 2048 + x.core)).extq.length) →
    (s.mod s.sel).slotFree = true → (s.mod s.sel).treeOut.find? (fun x => x.away) = some o →
    ∃ (t : State) (p : Pkt), exec .treeFetchBack s = .next t ∧
      (s.treeOpen s.sel (s.ownerOf (s.sel * 2048 + o.core)) false o.at_ = true → p = s.rdWords (Config.treeArea s.sel + 64 * o.at_) 8) ∧
      (t.mod s.sel).treeOut = (s.mod s.sel).treeOut.map (fun q => if q.words = o.words then ⟨q.core, p, false, 0⟩ else q) ∧
      (t.mod s.sel).chunks = (s.mod s.sel).chunks ∧ (t.mod s.sel).spillT = (s.mod s.sel).spillT) ∧
  (∀ (s : State) (c : TreeChunk) (l : List TreeChunk), (s.mod s.sel).treeOut = [] → (s.mod s.sel).spillT = c :: l →
    combos (s.mod s.sel).chunks < Config.treeSlots →
    ∃ (t : State) (read : TreeChunk → Pkt), exec .treeFetchBack s = .next t ∧
      (∀ x, s.treeOpen s.sel (s.ownerOf (s.sel * 2048 + x.core)) false x.at_ = true →
        read x = s.rdWords (Config.treeArea s.sel + 64 * x.at_) 8) ∧
      (t.mod s.sel).chunks = (s.mod s.sel).chunks ++
        ((c :: l).filter (fun x => x.is c.group c.seq)).map (fun x => { x with words := read x, at_ := 0 }) ∧
      (t.mod s.sel).spillT = (c :: l).filter (fun x => !x.is c.group c.seq))

/-- MLEASE, MFREE, MCFG, MZERO, MACCRD and MACCWR. In a firing of one context with no fault pending, MLEASE always completes: status 3 off
an actor, 1 when an item asked for is another's, 2 beyond the quota, and else 0 with every item asked for held, a new tile cleared
and a new plane zero of type I8; MFREE by an actor completes once no queued command of it names the items, which are then nobody's;
MCFG with operands below 1 MiB and a record completes and writes the record; MZERO of a held tile that no queued command names completes
and zeroes it; MACCWR of such a tile completes and writes the active lanes of the group it selects; either of them, where a queued
command of the actor names the tile, takes the accumulator-busy fault with the tile and the oldest tag, past the firing's replay
boundary; and MACCRD of a held tile that no queued command names completes, in a gang as well, with those elements in its active lanes
(R147, R151, R155, R158, R159, R166, R167). -/
def Obligations.MatrixDirectForms : Prop :=
  (∀ (d : Dst) (a b : Src) (clr : Bool) (s : State), s.single → s.mayCommit →
    let p := s.committed
    let c := p.ctx s.cur
    let k := p.clu (s.cur / 4 / 8)
    let q := p.desc (s.cur / 4) c.slot 1
    let askT := fun i => i < 16 ∧ (c.src a).getLsbD i = true
    let askP := fun i => i < 4 ∧ (c.src b).getLsbD i = true
    let others := (∃ i, askT i ∧ ∃ o, FMap.find k.tileOwn i = some o ∧ o ≠ c.key) ∨ (∃ i, askP i ∧ ∃ o, FMap.find k.pairOwn i = some o ∧ o ≠ c.key)
    let newT := (List.range 16).filter (fun i => (c.src a).getLsbD i && decide (FMap.find k.tileOwn i ≠ some c.key))
    let newP := (List.range 4).filter (fun i => (c.src b).getLsbD i && decide (FMap.find k.pairOwn i ≠ some c.key))
    let many := q / 2 ^ 4 % 2 ^ 5 < (k.tilesOf c.key).length + newT.length ∨ q / 2 ^ 9 % 2 ^ 3 < (k.pairsOf c.key).length + newP.length
    ∃ (t : State) (v : Nat), exec (.mlease d a b clr) s = .next t ∧
      Effect.On { scalars := c.writes d (BitVec.ofNat 64 v) } c (t.ctx s.cur) ∧ (∀ w, w ≠ s.cur → t.ctx w = p.ctx w) ∧
      (c.kind ≠ .actor → v = 3 ∧ t.clus = p.clus) ∧
      (c.kind = .actor → others → v % 2 ^ 8 = 1) ∧ (c.kind = .actor → ¬ others → many → v % 2 ^ 8 = 2) ∧
      (c.kind = .actor → others ∨ many → (t.clu (s.cur / 4 / 8)).tileOwn = k.tileOwn ∧ (t.clu (s.cur / 4 / 8)).pairOwn = k.pairOwn) ∧
      (c.kind = .actor → ¬ others → ¬ many → v % 2 ^ 8 = 0 ∧
        (∀ i, askT i → FMap.find (t.clu (s.cur / 4 / 8)).tileOwn i = some c.key) ∧
        (∀ i, askP i → FMap.find (t.clu (s.cur / 4 / 8)).pairOwn i = some c.key) ∧
        (∀ i, ¬ askT i → FMap.find (t.clu (s.cur / 4 / 8)).tileOwn i = FMap.find k.tileOwn i ∧
          ∀ n, (t.clu (s.cur / 4 / 8)).tileAt i n = k.tileAt i n) ∧
        (∀ i ∈ newT, ∀ n, (t.clu (s.cur / 4 / 8)).tileAt i n = 0) ∧
        (∀ i ∈ newP, (t.clu (s.cur / 4 / 8)).tagOf (2 * i) = (.i8, 0) ∧ (t.clu (s.cur / 4 / 8)).tagOf (2 * i + 1) = (.i8, 0)))) ∧
  (∀ (a b : Src) (s : State), s.single → s.mayCommit → (s.ctx s.cur).kind = .actor →
    let p := s.committed
    let c := s.ctx s.cur
    let ts := (List.range 16).filter (fun i => (c.src a).getLsbD i && p.holdsTile s.cur i)
    let ps := (List.range 4).filter (fun i => (c.src b).getLsbD i && p.holdsPair s.cur i)
    (∀ m ∈ (p.clu (s.cur / 4 / 8)).inbox, m.key = c.key → m.names ts ps = false) →
    ∃ t, exec (.mfree a b) s = .next t ∧ t.ctx s.cur = (p.ctx s.cur).retired ∧ (∀ w, w ≠ s.cur → t.ctx w = p.ctx w) ∧
      (∀ i, FMap.find (t.clu (s.cur / 4 / 8)).tileOwn i = if i ∈ ts then none else FMap.find (p.clu (s.cur / 4 / 8)).tileOwn i) ∧
      (∀ i, FMap.find (t.clu (s.cur / 4 / 8)).pairOwn i = if i ∈ ps then none else FMap.find (p.clu (s.cur / 4 / 8)).pairOwn i)) ∧
  (∀ (a b : Src) (ty : Ty) (rm : RM) (act : Act) (sen ben : Bool) (sh : BitVec 8) (s : State) (r : MRec), s.single →
    s.mayCommit → (s.ctx s.cur).kind = .actor →
    let p := s.committed
    let c := s.ctx s.cur
    FMap.find (s.clu (s.cur / 4 / 8)).mrecs c.key = some r → (c.src a).toNat < 0x100000 → (c.src b).toNat < 0x100000 →
    ∃ (t : State) (x : MRec), exec (.mcfg a b ty rm act sen ben sh) s = .next t ∧
      FMap.find (t.clu (s.cur / 4 / 8)).mrecs c.key = some x ∧ x.dfmt = ty ∧ x.rm = rm ∧ x.act = act ∧ x.sen = sen ∧ x.ben = ben ∧
      x.dshift = sh.toInt ∧ x.scale = (c.src a).toNat ∧ x.bias = (c.src b).toNat ∧
      x.flags = (FMap.get {} (p.clu (s.cur / 4 / 8)).mrecs c.key).flags ∧
      (∀ n, n ≠ c.key → FMap.find (t.clu (s.cur / 4 / 8)).mrecs n = FMap.find (p.clu (s.cur / 4 / 8)).mrecs n) ∧ t.mem = p.mem ∧
      t.ctx s.cur = (p.ctx s.cur).retired ∧ ∀ w, w ≠ s.cur → t.ctx w = p.ctx w) ∧
  (∀ (i : Instr) (n : Fin 16) (s : State) (m : MCmd), (i = .mzero n ∨ ∃ k a b x, i = .maccwr k a b n x) → s.mayCommit →
    s.holdsTile s.cur n.val = true →
    let p := s.committed
    (p.clu (s.cur / 4 / 8)).inbox.find? (fun m => decide (m.key = (p.ctx s.cur).key) && decide (m.op.tile? = some n.val)) = some m →
    exec i s = .next (p.fault s.cur { code := 8, cls := 1, detail := n.val + m.tag * 2 ^ 16 }) ∧
      ((s.ctx s.cur).pub = false → (p.ctx s.cur).done1 = true)) ∧
  (∀ (n : Fin 16) (s : State), s.single → s.mayCommit → s.holdsTile s.cur n.val = true →
    let p := s.committed
    p.tileBusy s.cur n.val = none → ∃ t, exec (.mzero n) s = .next t ∧ (∀ i, (t.clu (s.cur / 4 / 8)).tileAt n.val i = 0) ∧
      (∀ j, j ≠ n.val → ∀ i, (t.clu (s.cur / 4 / 8)).tileAt j i = (p.clu (s.cur / 4 / 8)).tileAt j i) ∧ t.mem = p.mem ∧
      t.ctx s.cur = (p.ctx s.cur).retired ∧ ∀ w, w ≠ s.cur → t.ctx w = p.ctx w) ∧
  (∀ (k : TTy) (a : VSrc) (b : Src) (n : Fin 16) (m : MReg) (s : State), s.single → s.mayCommit →
    s.holdsTile s.cur n.val = true →
    let p := s.committed
    let c := p.ctx s.cur
    let base := (c.src b).toNat % 128 * 128 + 16 * (((c.src b).toNat / 2 ^ 7 % 8 + c.gidx) % 8)
    p.tileBusy s.cur n.val = none → ∃ t, exec (.maccwr k a b n m) s = .next t ∧
      (∀ i < 16, (t.clu (s.cur / 4 / 8)).tileAt n.val (base + i) =
        if elemOn (c.mask m) 32 i then elem 32 i (c.vsrc 32 a) else (p.clu (s.cur / 4 / 8)).tileAt n.val (base + i)) ∧
      (∀ j i, ¬ (j = n.val ∧ base ≤ i ∧ i < base + 16) → (t.clu (s.cur / 4 / 8)).tileAt j i = (p.clu (s.cur / 4 / 8)).tileAt j i) ∧
      t.mem = p.mem ∧ t.ctx s.cur = c.retired ∧ ∀ w, w ≠ s.cur → t.ctx w = p.ctx w) ∧
  (∀ (k : TTy) (d : VDst) (b : Src) (n : Fin 16) (m : MReg) (s : State), s.tileTrap s.cur n.val = none →
    Completes (.maccrd k d b n m) s (fun c e => ∃ v : VWord, e = { vectors := c.vwrites d v } ∧ ∀ i < 16, elem 32 i v =
      if elemOn (c.mask m) 32 i then (s.clu (s.cur / 4 / 8)).tileAt n.val
        ((c.src b).toNat % 128 * 128 + 16 * (((c.src b).toNat / 2 ^ 7 % 8 + c.gidx) % 8) + i) % 2 ^ 32
      else elem 32 i (c.vold d)))

/-- MLOADW, MSWAP, MSTREAM and MEPI in a firing of one context that holds the items they name, with operands that are aligned and
readable or writable in a bank of an operand format: without the lease the firing asks for it and waits; with it, with room in the
inbox and in the tl counter and no fault pending, it publishes and the command enters the inbox of its array, with its addresses, row
strides, formats and configuration as they are at issue, and the tl counter rises by 1 (R149, R152 to R155, R160 to R163). -/
def Obligations.MatrixCommands : Prop :=
  ∀ (i : Instr) (op : MOp) (s u : State), s.single → arrayAsk s u s.cur i op →
    let k := u.clu (s.cur / 4 / 8)
    (k.holder ≠ some s.cur → ∃ t, exec i s = .next t ∧ (t.ctx s.cur) = { u.ctx s.cur with phase := .lease } ∧
      (t.clu (s.cur / 4 / 8)).leaseReq = k.leaseReq ++ [(s.cur, k.cmdWatts op)] ∧ t.mem = u.mem) ∧
    (k.holder = some s.cur → 64 ≤ k.inbox.length ∨ 255 ≤ (u.ctx s.cur).ocTl → exec i s = .next u) ∧
    (k.holder = some s.cur → k.inbox.length < 64 → (u.ctx s.cur).ocTl < 255 → u.mayCommit →
      let p := u.committed
      ∃ (t : State) (m : MCmd), exec i s = .next t ∧ (t.clu (s.cur / 4 / 8)).inbox = (p.clu (s.cur / 4 / 8)).inbox ++ [m] ∧ m.op = op ∧
        m.org = p.origin s.cur ∧ m.ran = false ∧ (t.ctx s.cur).ocTl = (p.ctx s.cur).ocTl + 1 ∧ t.mem = p.mem ∧
        (t.ctx s.cur).sregs = (p.ctx s.cur).sregs ∧ (t.ctx s.cur).pc = (p.ctx s.cur).npc ∧ ∀ w, w ≠ s.cur → t.ctx w = p.ctx w)

/-- The events of the array complete where they are enabled: LEASE_GRANT gives the lease to the oldest request once leave is held; the
next command runs when its waits are met and leave for its class is held: MLOADW_RUN loads the shadow plane and its tag, MSWAP_RUN swaps
the planes, MSTREAM_RUN accumulates each element once from its row and column, as far as the ramp limiter allows, and MEPI_RUN writes
the converted rows; ARRAY_COMMAND_COMPLETE takes the oldest command that has run off the inbox, adds its flags and lowers the tl
counter; and EPILOGUE_STALL_FENCE drops an epilogue that stalled for T_fence (R149, R154, R158, R161 to R163, R170). That one event does
all rows of a command is log entry 29, and what the stall timer counts is log entry 55. -/
def Obligations.ArrayEvents : Prop :=
  (∀ (s : State) (w watts : Nat) (r : List (Nat × Nat)),
    let k := s.clu s.sel
    k.holder = none → k.leaseReq = (w, watts) :: r → watts ≤ k.leave →
    ∃ t, exec .leaseGrant s = .next t ∧ (t.clu s.sel).holder = some w ∧ (t.clu s.sel).leaseReq = r ∧
      (t.clu s.sel).leaseLeft = (if k.leaseQ = 0 then 1024 else k.leaseQ) ∧
      ((s.ctx w).phase = .lease → t.ctx w = { s.ctx w with phase := .running }) ∧ t.mem = s.mem) ∧
  (∀ (s : State) (m : MCmd), s.readyCmd s.sel = some m → (s.clu s.sel).cmdWatts m.op ≤ (s.clu s.sel).leave →
    let k := s.clu s.sel
    let gc := m.org.w / 4
    let ran := fun (t : State) => ∀ x ∈ (t.clu s.sel).inbox, x.uid = m.uid → x.ran = true
    (∀ p src stride b, m.op = .loadw p src stride b → ∃ t, exec .mloadwRun s = .next t ∧ ran t ∧
      (t.clu s.sel).tagOf (k.shadowPlane p) = (b.fmt.getD .i8, b.shift) ∧
      (∀ x j, x < 128 → j < 128 → FMap.get 0 (FMap.get [] (t.clu s.sel).planes (k.shadowPlane p)) (128 * x + j) =
        if j < colsOf (b.fmt.getD .i8) then
          s.bitsAt gc src (loadwBit (b.fmt.getD .i8) b.order stride x j) (b.fmt.getD .i8).width else 0) ∧
      (∀ n, n ≠ k.shadowPlane p → FMap.get [] (t.clu s.sel).planes n = FMap.get [] k.planes n ∧ (t.clu s.sel).tagOf n = k.tagOf n) ∧
      (t.clu s.sel).psel = k.psel ∧ (t.clu s.sel).tiles = k.tiles ∧ t.mem = s.mem) ∧
    (∀ p, m.op = .swap p → ∃ t, exec .mswapRun s = .next t ∧ ran t ∧ (t.clu s.sel).activePlane p = k.shadowPlane p ∧
      (∀ n, n ≠ p → (t.clu s.sel).activePlane n = k.activePlane n) ∧ (t.clu s.sel).planes = k.planes ∧ t.mem = s.mem) ∧
    (∀ t p src stride row0 n sat b, m.op = .stream t p src stride row0 n sat b →
      let ta := b.fmt.getD .i8
      let pl := k.activePlane p
      let kind := accKind ta b.shift (k.tagOf pl).1 (k.tagOf pl).2
      let cols := colsOf (k.tagOf pl).1
      (s.die (s.sel / 32)).work + n * 128 * cols ≤ (s.die (s.sel / 32)).last + windowPeak / 8 →
      ∃ v, exec .mstreamRun s = .next v ∧ ran v ∧ v.mem = s.mem ∧ (v.clu s.sel).planes = k.planes ∧
        (∀ q < n, ∀ j < cols, kind ≠ .f64 → (v.clu s.sel).tileAt t (128 * (row0 + q) + j) =
          (accumulate kind sat (k.tileAt t (128 * (row0 + q) + j))
            (List.zipWith termMul (s.actRow gc (src + q * stride) ta b.shift) (k.weightCol pl j))).1 % 2 ^ 32) ∧
        (∀ x e, x ≠ t ∨ (∀ q < n, ¬ (128 * (row0 + q) ≤ e ∧ e < 128 * (row0 + q) + 128)) → (v.clu s.sel).tileAt x e = k.tileAt x e)) ∧
    (∀ kd g t dst stride row0 n nc cfg bank sp, m.op = .epi kd g t dst stride row0 n nc cfg bank sp →
      let rows := (List.range n).map (fun q => s.epiRow s.sel gc kd t (row0 + q) nc cfg bank)
      ∃ v, exec .mepiRun s = .next v ∧ ran v ∧ v.mem = (s.epiWrite m ((m.op.epiRows gc).zip (rows.map (fun r => r.1)))).mem ∧
        (v.clu s.sel).tiles = k.tiles)) ∧
  (∀ (s : State) (m : MCmd) (r : List MCmd), (s.clu s.sel).inbox = m :: r → m.ran = true →
    ∃ t, exec .arrayCommandComplete s = .next t ∧ (t.clu s.sel).inbox = r ∧ t.mem = s.mem ∧
      (∀ x, FMap.find (s.clu s.sel).mrecs m.key = some x →
        ∃ y, FMap.find (t.clu s.sel).mrecs m.key = some y ∧ y = { x with flags := y.flags } ∧ y.flags = orFlags x.flags m.flags) ∧
      ((s.ctx m.org.w).fid = m.org.fid → (s.ctx m.org.w).kind ≠ .none → (t.ctx m.org.w).ocTl = (s.ctx m.org.w).ocTl - 1) ∧
      ∀ w, w ≠ m.org.w → t.ctx w = s.ctx w) ∧
  (∀ (s : State) (m : MCmd) (kd : MKind) (g : Bool) (t dst stride row0 n nc : Nat) (cfg : MRec) (bank : Option BankFmt)
      (sp : List (List Span)), s.readyCmd s.sel = some m → m.op = .epi kd g t dst stride row0 n nc cfg bank sp →
    m.tFence ≤ (s.clu s.sel).stallT → s.fenceFirst (m.org.w / 4) = true →
    ∃ u : State, (∀ x ∈ (u.clu s.sel).inbox, x.uid ≠ m.uid) ∧ (∀ i, (u.clu s.sel).tileAt t i = 0) ∧ t ∈ (u.clu s.sel).zeroT ∧
      u.mem = s.mem ∧ u.cores = s.cores ∧
      exec .epilogueStallFence s = .next ((u.coreFence (m.org.w / 4)).lateFault m.org true
        { code := 0x26, cls := 3, detail := t + m.tag * 2 ^ 16, va := BitVec.ofNat 64 dst } 0))

/-- TLBINV, TLBREPLAY, FLTPOP, PLINV, ADMIT, EVICT and HALT in a supervisor firing of one context. TLBINV drops every leaf of its partition
that a named granule meets from every TLB, and completes once nothing in flight uses one; TLBREPLAY releases the held actors, the parked
contexts and the fault-buffer entries of the named page; FLTPOP takes the oldest entry of the partition, or reads 0; PLINV drops a
handle, or everything, from the placement caches of the partition; EVICT answers a status, 0 when the actor begins to leave; ADMIT
answers the first failure of its list, or 0 when the team is resident, and else waits for the restore; HALT publishes, ends its firing,
and halts the core. TLBINV, TLBREPLAY and PLINV wait for the published stores of the context; TLBREPLAY and FLTPOP wait for the next
cycle where an insert, or for TLBREPLAY a pop, of this one came before them, and EVICT where a later event of the actor did
(R255, R310 to R312, R326 to R328, R389). What counts as a use in flight, for which TLBINV waits, is log entry 37; the order of ADMIT's
checks is log entry 46; the fields of HALT's notice that the spec leaves open are log entry 43. -/
def Obligations.SupervisorInstructions : Prop :=
  (∀ (x : Option (Src × Src)) (s : State), s.single → (s.ctx s.cur).supv = true → s.storesOut s.cur = false →
    let c := s.ctx s.cur
    let r : InvRange := match x with
      | none => .all | some (a, b) => .some ((c.src a).toNat / 2 ^ 16 % 2 ^ 39) (min (c.src b).toNat (2 ^ 20))
    let hit := fun (l : Leaf) => l.part = c.part ∧ match x with
      | none => True
      | some (a, b) => (c.src b).toNat ≠ 0 ∧ l.va < ((c.src a).toNat / 2 ^ 16 % 2 ^ 39 + min (c.src b).toNat (2 ^ 20)) * 2 ^ 16 ∧
          (c.src a).toNat / 2 ^ 16 % 2 ^ 39 * 2 ^ 16 < l.va + l.size
    let u := s.tlbDrop c.part r
    (∀ g l, l ∈ (u.core g).tlb ↔ l ∈ (s.core g).tlb ∧ ¬ hit l) ∧
    (∀ cl n l, l ∈ FMap.get [] (u.clu cl).tlb n ↔ l ∈ FMap.get [] (s.clu cl).tlb n ∧ ¬ hit l) ∧
    (u.invBusy c.part r = false → exec (.tlbinv x) s = .next (u.after s.cur id)) ∧
    (u.invBusy c.part r = true → exec (.tlbinv x) s = .next u)) ∧
  (∀ (x : Option Src) (s : State), s.single → (s.ctx s.cur).supv = true → s.storesOut s.cur = false →
    (s.clu (s.cur / 4 / 8)).insAt ≠ some s.now → (s.clu (s.cur / 4 / 8)).popAt ≠ some s.now →
    let c := s.ctx s.cur
    let cl := s.cur / 4 / 8
    let page := fun (p v : Nat) => p = c.part ∧ ∀ a, x = some a → v = (c.src a).toNat / 2 ^ 16 % 2 ^ 39
    ∃ t, exec (.tlbreplay x) s = .next t ∧ (∀ e ∈ (t.clu cl).fbuf, e ∈ (s.clu cl).fbuf ∧ ¬ page e.2.part e.2.vpn) ∧
      (∀ g slot, g / 8 = cl → (t.sched g slot).st = if (s.sched g slot).st = .heldReplay ∧ page (s.sched g slot).holdP (s.sched g slot).holdV
        then .idle else (s.sched g slot).st) ∧
      (∀ w, w / 4 / 8 = cl → (s.ctx w).phase = .parked → page (s.ctx w).parkP (s.ctx w).parkV → (t.ctx w).phase = .running) ∧
      (∀ g, g / 8 ≠ cl → t.core g = s.core g) ∧ (∀ w, w / 4 / 8 ≠ cl → t.ctx w = s.ctx w) ∧ t.net = s.net) ∧
  (∀ (x : Option Src) (n : SPair) (s : State), s.single → (s.ctx s.cur).supv = true → (s.clu (s.cur / 4 / 8)).insAt = some s.now →
    exec (.tlbreplay x) s = .next s ∧ exec (.fltpop n) s = .next s) ∧
  (∀ (x : Option Src) (s : State), s.single → (s.ctx s.cur).supv = true → (s.clu (s.cur / 4 / 8)).popAt = some s.now →
    exec (.tlbreplay x) s = .next s) ∧
  (∀ (n : SPair) (s : State), s.single → (s.ctx s.cur).supv = true → (s.clu (s.cur / 4 / 8)).insAt ≠ some s.now →
    let k := s.clu (s.cur / 4 / 8)
    let c := s.ctx s.cur
    let drop := if c.part ∈ k.drop then 2 ^ 60 else 0
    (∀ i e, (i, e) ∈ k.fbuf → e.part = c.part → (∀ y ∈ k.fbuf, y.2.part = c.part → y = (i, e) ∨ e.order < y.2.order) →
      ∃ t, exec (.fltpop n) s = .next t ∧ FMap.find (t.clu (s.cur / 4 / 8)).fbuf i = none ∧
        (∀ j, j ≠ i → FMap.find (t.clu (s.cur / 4 / 8)).fbuf j = FMap.find k.fbuf j) ∧ (∀ w, w ≠ s.cur → t.ctx w = s.ctx w) ∧
        let w0 := 2 ^ 63 + (if e.wr then 2 ^ 62 else 0) + (if e.fx then 2 ^ 61 else 0) + drop + e.part * 2 ^ 54 + e.lvl * 2 ^ 52 + e.vpn
        let w1 := e.count * 2 ^ 48 + e.aid * 2 ^ 24 + e.core * 2 ^ 4 + e.ctx * 2 ^ 2
        Effect.On { scalars := [(2 * n.val, BitVec.ofNat 64 w0), (2 * n.val + 1, BitVec.ofNat 64 w1)] } c (t.ctx s.cur)) ∧
    ((∀ y ∈ k.fbuf, y.2.part ≠ c.part) → ∃ t, exec (.fltpop n) s = .next t ∧ t = { s with ctxs := t.ctxs, clus := t.clus } ∧
      t.clu (s.cur / 4 / 8) = { k with popAt := some s.now } ∧ (∀ j, j ≠ s.cur / 4 / 8 → t.clu j = s.clu j) ∧
      (∀ w, w ≠ s.cur → t.ctx w = s.ctx w) ∧
      Effect.On { scalars := [(2 * n.val, BitVec.ofNat 64 drop), (2 * n.val + 1, 0)] } c (t.ctx s.cur))) ∧
  (∀ (x : Option Src) (s : State), s.single → (s.ctx s.cur).supv = true → s.storesOut s.cur = false →
    ∃ t, exec (.plinv x) s = .next t ∧ (∀ g ∈ s.partCores (s.ctx s.cur).part,
      (∀ a, x = some a → FMap.find (t.core g).plc (((s.ctx s.cur).src a).toNat % 2 ^ 24) = none) ∧
      (x = none → (t.core g).plc = [] ∧ (t.core g).plcPool = [])) ∧
      t = { s with ctxs := t.ctxs, cores := t.cores } ∧ (∀ w, w ≠ s.cur → t.ctx w = s.ctx w) ∧ t.ctx s.cur = (s.ctx s.cur).retired) ∧
  (∀ (s : State) (i : Instr), (s.ctx s.cur).supv = true → s.storesOut s.cur = true → s.single →
    (∃ x, i = .tlbinv x) ∨ (∃ x, i = .tlbreplay x) ∨ (∃ x, i = .plinv x) → exec i s = .next s) ∧
  (∀ (d : Dst) (b : Src) (s : State), s.single → (s.ctx s.cur).supv = true →
    let c := s.ctx s.cur
    let ent := s.aptRead (s.cur / 4 / 2048) c.part ((c.src b).toNat % 2 ^ 24)
    let gc := aptCore ent
    let st := (s.sched gc (aptSlot ent)).st
    let off := aptSt ent = 0 ∨ aptHost ent = true ∨ s.there (s.cur / 4 / 2048) (gc / 2048) = false ∨ s.ownerOf gc ≠ c.part
    let away := aptSt ent ≠ 1 ∨ st = .leaving ∨ st = .moving ∨ st = .absent ∨ st = .admitting
    (¬ off → ¬ away → aptSlot ent ≠ 0 → s.late gc (aptSlot ent) evEvict = true → exec (.evict d b) s = .next s) ∧
    (off ∨ away ∨ aptSlot ent = 0 ∨ s.late gc (aptSlot ent) evEvict = false → ∃ t v, exec (.evict d b) s = .next t ∧ (∀ k, (t.ctx s.cur).sreg k = ((c.writes d v).lookup k).getD (c.sreg k)) ∧
      (t.ctx s.cur).pc = c.npc ∧ t.mem = s.mem ∧ (off → v = 3) ∧ (¬ off → away → v = 4) ∧ (¬ off → ¬ away → aptSlot ent = 0 → v = 5) ∧
      (¬ off → ¬ away → aptSlot ent ≠ 0 → v = 0 ∧ (t.sched gc (aptSlot ent)).st = .leaving) ∧
      (v ≠ 0 → t.cores = s.cores ∧ ∀ w, w ≠ s.cur → t.ctx w = s.ctx w))) ∧
  (∀ (d : Dst) (b c : Src) (sc : TeamScope) (s : State) (a : Admission), s.single → (s.ctx s.cur).supv = true →
    s.admits.find? (fun a => decide (a.w = s.cur) && decide (a.fid = (s.ctx s.cur).fid)) = some a →
    (a.res = none → exec (.admitTeam d b c sc) s = .next s) ∧
    (∀ st i, a.res = some (st, i) → exec (.admitTeam d b c sc) s =
      .next ({ s with admits := s.admits.filter (fun x => decide (x.uid ≠ a.uid)) }.after s.cur
        (fun k => k.dst d (BitVec.ofNat 64 (st + i * 2 ^ 8)))))) ∧
  (∀ (d : Dst) (b c : Src) (sc : TeamScope) (s u : State) (hs : List Nat), s.single → (s.ctx s.cur).supv = true →
    (∀ a ∈ s.admits, ¬ (a.w = s.cur ∧ a.fid = (s.ctx s.cur).fid)) → (∀ e ∈ s.wq, e.org.w = s.cur → e.via ≠ .port) → s.teamList s.cur b c = .ok (u, hs) →
    (∀ st i, u.teamOf s.cur sc hs [] = .error (st, i) →
      exec (.admitTeam d b c sc) s = .next (u.after s.cur (fun k => k.dst d (BitVec.ofNat 64 (st + i * 2 ^ 8))))) ∧
    (∀ team, u.teamOf s.cur sc hs [] = .ok team →
      ((∀ x ∈ team, (u.sched x.2.1 x.2.2).st ≠ .absent) → ∃ t, exec (.admitTeam d b c sc) s = .next t ∧
        (∀ x ∈ team, u.late x.2.1 x.2.2 evArrival = false → (t.sched x.2.1 x.2.2).st ≠ .heldFault) ∧
        ∀ k, (t.ctx s.cur).sreg k = (((u.ctx s.cur).writes d 0).lookup k).getD ((u.ctx s.cur).sreg k)) ∧
      ((∃ x ∈ team, (u.sched x.2.1 x.2.2).st = .absent) → ∃ (t : State) (a : Admission), exec (.admitTeam d b c sc) s = .next t ∧
        t.admits = u.admits ++ [a] ∧ a.w = s.cur ∧ a.team = team ∧ a.res = none ∧ t.ctx s.cur = u.ctx s.cur ∧
        ∀ x ∈ team, (u.sched x.2.1 x.2.2).st = .absent → (t.sched x.2.1 x.2.2).st = .admitting))) ∧
  (∀ (s : State), s.single → (s.ctx s.cur).supv = true → s.pendingFault s.cur = none →
    let p := s.committed
    let k := p.ctx s.cur
    let ns := k.owed.getD (k.msgs.flatMap (noticesOf k.aid k.supv))
    (p.core (s.cur / 4)).notq + ns.length ≤ 32 → ∃ (t : State) (e : PatEnt), exec .halt s = .next t ∧ (t.core (s.cur / 4)).halted = true ∧
      (t.ctx s.cur).phase = .free ∧ (t.ctx s.cur).kind = .none ∧ (t.mod (s.cur / 4 / 2048)).patrol = (p.mod (s.cur / 4 / 2048)).patrol ++ [e] ∧
      Pkt.kind e.p = 7 ∧ Pkt.word e.p 2 % 2 ^ 8 = 0x22 ∧ bits (Pkt.word e.p 2) 16 2 = s.cur % 4 ∧ bit (Pkt.word e.p 2) 11 = true ∧
      bit (Pkt.word e.p 2) 21 = true ∧ e.p.getD 1 0 = BitVec.ofNat 64 k.aid ∧ t.mem = p.mem ∧ ∀ w, w ≠ s.cur → t.ctx w = p.ctx w)

/-- WALK, L1_INVALIDATE, LOAD_RETURN and HOME_WRITE complete where they are enabled. A walk reads one table entry at a time, and ends for
the contexts that wait for it, with the leaf or the fault of its granule; an invalidation takes the line out of the L1 and the core out of
its sharers; a load reads its bytes in pieces of aligned 8-byte words, and with the last one the value is bound to its destination and
the load is no longer outstanding; a published store that nothing before it holds back, to a line that no other core shares, writes the
bytes of its next piece at the home, and no others, and leaves the queue with its last piece; and so does a store at a scratchpad port. HOME_WRITE
of an active engine command writes the next bytes of its row, up to the end of a 64-byte line, and no others: those of the copy's source, unchanged,
of FILL's pattern, which starts anew in each row, or of the output list of a selection; in a row that converts, the elements of a 16-byte word of a
bank, or of a line, one behind the other in the destination's format, each converted from the format of the source; and with the last byte the
command goes on to the next row (R182, R211, R213, R214, R276, R278, R281 to R284, R289, R318 to R320). That a piece is a line, or a bank's word, and
the length of a row is fixed at issue, is log entry 41. -/
def Obligations.MemoryEvents : Prop :=
  (∀ (s : State) (cl uid : Nat) (x : WalkReq), (s.clu cl).walks.find? (fun x => decide (x.uid = uid)) = some x →
    s.hasWalker cl uid = true →
    (x.res = none → ∃ t, exec (.walk cl uid) s = .next t ∧ t = { s with clus := t.clus, cores := t.cores, ovf := t.ovf } ∧
      ∃ y ∈ (t.clu cl).walks, y.uid = uid ∧ y.reqs = x.reqs ∧
        match s.walkStep (cl / 256) x.part (x.gran * 2 ^ 16) x.lvl x.base with
        | .inl r => y.res = some r
        | .inr b => y.res = none ∧ y.lvl = x.lvl + 1 ∧ y.base = b) ∧
    (∀ r, x.res = some r → ∃ t, exec (.walk cl uid) s = .next t ∧ (∀ y ∈ (t.clu cl).walks, y.uid ≠ uid) ∧
      ∀ w a va fid, x.reqs = [(w, a, va, fid)] → (s.ctx w).phase = .waitWalk → (s.ctx w).fid = fid →
        (∀ l, r = .leaf l → t.ctx w = { s.ctx w with xlate := l :: (s.ctx w).xlate, phase := .running } ∧ t.mem = s.mem ∧
          ∀ v, v ≠ w → t.ctx v = s.ctx v) ∧
        (∀ k, r = .bad k → t.mem = s.mem ∧ (t.ctx w).phase = .running ∧ ∃ l, l.bad = k ∧ (t.ctx w).xlate = l :: (s.ctx w).xlate) ∧
        (∀ lvl, r = .notPresent lvl → a = 4 → t.mem = s.mem ∧ t.net = s.net ∧ (t.ctx w).phase = .running) ∧
        (∀ lvl, r = .notPresent lvl → a ≠ 4 → ∃ u : State, u.mem = s.mem ∧ u.net = s.net ∧
          t = u.fault (w - 4 * (s.ctx w).gidx)
            { code := 1, cls := 0, lvl := lvl, gcore := (s.ctx w).gidx, va := BitVec.ofNat 64 va }))) ∧
  (∀ (s : State) (g line : Nat), ∃ t, exec (.l1Invalidate g line) s = .next t ∧ (t.core g).inL1 line = false ∧
    (∀ cl, g ∉ t.sharers cl line) ∧ (∀ cl k, k ≠ line → t.dirEnt cl k = s.dirEnt cl k) ∧
    t = { s with cores := t.cores, clus := t.clus, ovf := t.ovf }) ∧
  (∀ (s : State) (w uid : Nat) (l : Load), (s.ctx w).loads.find? (fun l => decide (l.uid = uid)) = some l →
    (s.ctx w).loadAhead uid l.piece = false →
    let bs := l.got ++ l.piece.map (fun p => s.loadByte w l p.1)
    let left := (s.ctx w).loads.filter (fun x => decide (x.uid ≠ uid))
    (bs.length < l.addrs.length → ∃ t, exec (.loadReturn w uid) s = .next t ∧ t = { s with ctxs := t.ctxs } ∧
      (∀ v, v ≠ w → t.ctx v = s.ctx v) ∧
      t.ctx w = { s.ctx w with loads := (s.ctx w).loads.map (fun x => if x.uid = uid then { l with got := bs } else x) }) ∧
    (l.addrs.length ≤ bs.length → ∃ t, exec (.loadReturn w uid) s = .next t ∧ (t.ctx w).loads = left ∧ t.mem = s.mem) ∧
    (l.addrs.length ≤ bs.length → (∀ p ∈ l.addrs, s.poisoned p.1 = false) →
      ∃ t, exec (.loadReturn w uid) s = .next t ∧ (∀ v, v ≠ w → v ≠ l.org.w → t.ctx v = s.ctx v) ∧
      (∀ d ty, l.dst = .scalar d ty → t.ctx w = { (s.ctx w).dst d (extend ty (leNat bs)) with loads := left } ∧ t.wq = s.wq) ∧
      (∀ n, l.dst = .pair n → (t.ctx w).sreg n = BitVec.ofNat 64 (leNat (bs.take 8)) ∧
        (t.ctx w).sreg (n + 1) = BitVec.ofNat 64 (leNat (bs.drop 8)) ∧ t.wq = s.wq) ∧
      (∀ d k act old, l.dst = .vec d k act old → t.wq = s.wq ∧ ∃ v, (∀ r, (t.ctx w).vreg r =
        (((s.ctx w).vwrites d v).lookup r).getD ((s.ctx w).vreg r)) ∧
        v = BitVec.ofNat 512 (ofLanes k (fillLanes k old.toNat act 0 bs))) ∧
      (∀ pa, l.dst = .local_ pa → ∃ e, t.wq = s.wq ++ [e] ∧ e.via = .pref ∧ e.org = l.org ∧ e.pa = pa ∧ e.bytes = bs))) ∧
  (∀ (s : State) (e : Pending), s.wq.find? (fun x => decide (x.uid = s.sel)) = some e → s.canPerform e = true →
    (∃ t, exec .homeWrite s = .next t) ∧
    (e.via = .home → s.region e.pa = .hbm → (∀ i < e.piece, (s.cellTag (e.pa + i)).1 = 0) → (∀ x ∈ s.wq, x.via ≠ .seg) →
      ∃ t, exec .homeWrite s = .next t ∧ (∀ i, (h : i < e.bytes.length) → i < e.piece → t.rdByte (e.pa + i) = e.bytes[i]) ∧
        (∀ x, ¬ (e.pa ≤ x ∧ x < e.pa + e.piece) → t.rdByte x = s.rdByte x) ∧
        (e.piece < e.bytes.length → t.ctxs = s.ctxs ∧ ∃ y ∈ t.wq, y.uid = s.sel ∧ y.pa = e.pa + e.piece ∧ y.bytes = e.bytes.drop e.piece) ∧
        (e.bytes.length ≤ e.piece → e.typed = false → (∀ x ∈ t.wq, x ∈ s.wq ∧ x.uid ≠ s.sel) ∧ (∀ w, w ≠ e.org.w → t.ctx w = s.ctx w) ∧
          t.ctx e.org.w = { s.ctx e.org.w with ocSt := min 255 (t.stOut e.org.w) }))) ∧
  (∀ (s : State) (e : Pending), e.via = .home → (∀ x ∈ s.wq, x.ahead e = false) → s.outstanding e.org.w e.after e.grp = false →
    s.entered e = true → (∀ g ∈ s.sharers (homeOf e.pa e.hb) (e.pa / 64), g = e.org.w / 4) → s.canPerform e = true) ∧
  (∀ (s : State) (e : Pending) (gc a : Nat), s.wq.find? (fun x => decide (x.uid = s.sel)) = some e → s.canPerform e = true →
    e.via = .port ∨ e.via = .pref → s.region e.pa = .scratch gc a → a + e.piece ≤ 0xDC000 → (∀ x ∈ s.wq, x.via ≠ .seg) →
    ∃ t, exec .homeWrite s = .next t ∧ wroteBytes s t e.pa e.piece (fun i => e.bytes.getD i 0) ∧
      (e.piece < e.bytes.length → ∃ y ∈ t.wq, y.uid = s.sel ∧ y.pa = e.pa + e.piece ∧ y.bytes = e.bytes.drop e.piece) ∧
      (e.bytes.length ≤ e.piece → ∀ x ∈ t.wq, x ∈ s.wq ∧ x.uid ≠ s.sel)) ∧
  (∀ (s : State) (e : EngCmd) (d : List Span) (va pa hb cls : Nat), (∀ x ∈ s.wq, x.uid ≠ s.sel) → s.cmd s.sel = some e →
    e.phase = .active → e.err = false → e.dst[e.row]? = some d →
    (e.rowLen d ≤ e.pos → ∃ t, exec .homeWrite s = .next t ∧ t = { s with engines := t.engines } ∧
      t.cmd s.sel = some { e with row := e.row + 1, pos := 0, sbit := 0, carry := {} } ∧ ∀ n, n ≠ s.sel → t.cmd n = s.cmd n) ∧
    (e.pos < e.rowLen d → spanAt d e.pos = some (va, pa, hb, cls) →
      let sp := e.src.getD e.row []
      (e.converts = false → e.bsel = none ∨ e.isList = true → let n := min (e.rowLen d - e.pos) (64 - pa % 64)
        rowOpen s e d e.pos n pa → (e.bsel = none → e.kind ≠ 3 → rowClean s e sp e.pos n) →
        ∃ t, exec .homeWrite s = .next t ∧ wroteBytes s t pa n (fun i => engByte s e (e.pos + i)) ∧
          t.cmd s.sel = some { e with pos := e.pos + n, sbit := 0, carry := {}, bytes := e.bytes + n }) ∧
      (∀ (k : Nat) (a b : Ty × Int × RM), e.converts = true → e.carry = {} →
        let n := min (e.rowLen d - e.pos) (if e.dbank then 16 - pa % 16 else 64 - pa % 64)
        let end_ := e.sbit + a.1.width * k
        let source := leNat ((List.range ((end_ + 7) / 8)).map (fun j => sourceByte s sp j))
        rowOpen s e d e.pos n pa → rowClean s e sp (e.sbit / 8) ((end_ + 7) / 8 - e.sbit / 8) → 8 * n = b.1.width * k →
        s.sideFmt e.dbank e.fmt pa = some b → end_ ≤ e.sourceBits →
        (∀ i < k, ∃ v q h c, spanAt sp ((e.sbit + a.1.width * i) / 8) = some (v, q, h, c) ∧ s.sideFmt e.sbank e.fmt q = some a) →
        ∃ t, exec .homeWrite s = .next t ∧
          (∃ f, wroteBytes s t pa n f ∧ ∀ i < k, leNat ((List.range n).map f) / 2 ^ (b.1.width * i) % 2 ^ b.1.width =
            (convert (source / 2 ^ (e.sbit + a.1.width * i) % 2 ^ a.1.width) a.1 a.2.1 b.1 b.2.1 b.2.2).1 % 2 ^ b.1.width) ∧
          t.cmd s.sel = some { e with pos := e.pos + n, sbit := end_, carry := {}, bytes := e.bytes + n })))

/-- The events of the packets complete where they are enabled. An injection, which keeps the publication order of its core, or a retry
sends a packet into the network where its destination is resident in its partition, bounces a task without a pool, and bounces a message
to an unknown handle with reason 1; on arrival a message enters its mailbox, is refused with the hint of a full one or with 256 at a
moving actor, waits in the backing queue of an absent one, behind the others, and else bounces; a notice enters by the same checks, or is
redirected; an ACTIVATE is held at its core, one for each free context and four more, or is refused, bounced or reported; a refusal sends the packet
again after its back-off, up to the 17th; and an acceptance frees its slot (R22 to R24, R35, R228 to R235, R238). That a held ACTIVATE starts
in a later cycle, and Patrol's first at a halted core, is log entry 47; what a fenced core holds is log entry 79; that a packet's entry of a
mailbox is the one at head + count is log entry 57; and the layout of a backing queue, and the refusal and the engine error where its
write is denied, are log entry 18. -/
def Obligations.NetworkEvents : Prop :=
  (∀ (s u : State) (e : NetPkt) (ent : Nat), s.pkt s.sel = some e → e.redir = false → Pkt.kind e.p ≠ 2 → s.findDest e = (u, ent) →
    let sent := fun (v : State) => v.pkt s.sel = some { e with st := .flying, nq := false } ∧ v.mem = s.mem ∧ v.ctxs = s.ctxs ∧
      ∀ n, n ≠ s.sel → v.pkt n = s.pkt n
    let ok := aptSt ent ≠ 0 ∧ aptHost ent = false ∧ s.there e.home (aptCore ent / 2048) = true ∧ s.ownerOf (aptCore ent) = e.part
    (e.nq = false → s.injectable e = true → s.turnOf e = true →
      (ok → ∃ v, exec .packetInject s = .next v ∧ sent v) ∧
      (aptSt ent = 0 → e.notice = false → exec .packetInject s = .next (u.bounce e 1))) ∧
    (∀ d, e.st = .backoff d → d ≤ s.now → e.nq = false → ok → ∃ v, exec .retryTimer s = .next v ∧ sent v)) ∧
  (∀ (s : State) (e : NetPkt), s.pkt s.sel = some e →
    (∀ r, e.st = .bounced r → exec .packetInject s = .next (s.bounce e r)) ∧
    (s.injectable e = true → s.turnOf e = true → ∃ t, exec .packetInject s = .next t) ∧
    (∀ d, e.st = .backoff d → d ≤ s.now → ∃ t, exec .retryTimer s = .next t)) ∧
  (∀ (s : State) (e : NetPkt), s.pkt s.sel = some e → e.st = .flying → e.redir = false →
    let ent := s.aptRead e.home e.part (Pkt.dest e.p)
    let gc := aptCore ent
    let slot := aptSlot ent
    let b := s.mbox gc slot (Pkt.mb e.p)
    let x : BqEnt := { core := e.core, part := e.part, host := e.host, pair := e.pair, p := e.p, redir := false }
    let fits := if e.notice then Pkt.units e.p ≤ b.units else Pkt.units e.p = b.units
    let ev := if e.notice then Instr.noticeArrival else .packetArrival
    let at_ := b.entry (b.head + b.count)
    Pkt.kind e.p = 0 ∨ Pkt.kind e.p = 9 ∨ e.notice = true →
    (aptSt ent = 1 → aptHost ent = false → s.backed gc slot (Pkt.mb e.p) = false → b.en = true → fits → b.count + b.rsv < b.depth →
      s.mayEnqueue gc slot b.prio = true →
      ∃ t, exec ev s = .next t ∧ t.pkt s.sel = some { e with st := .accepted } ∧
        (t.mbox gc slot (Pkt.mb e.p)).count = b.count + 1 ∧ t.ctxs = s.ctxs ∧ (∀ g, g ≠ gc → t.core g = s.core g) ∧
        (e.p.length ≤ 2 * b.units → at_ + 16 * b.units ≤ 0xE0000 ∨ 0xE4000 ≤ at_ →
          t.rdWords (localPA gc at_) (2 * b.units) = Pkt.pad e.p (2 * b.units))) ∧
    (aptSt ent = 1 → aptHost ent = false → s.backed gc slot (Pkt.mb e.p) = false → b.en = true → fits → b.depth ≤ b.count + b.rsv →
      exec ev s = .next (s.setPkt { e with st := .refused b.hint })) ∧
    (aptSt ent = 2 → aptHost ent = false → exec ev s = .next (s.setPkt { e with st := .refused 256 })) ∧
    (aptHost ent = false → aptSt ent = 3 ∨ (aptSt ent = 1 ∧ s.backed gc slot (Pkt.mb e.p) = true) →
      (s.bqRoom gc slot x → ∃ t, exec ev s = .next t ∧ t.pkt s.sel = some { e with st := .accepted } ∧
        t.backing gc slot = s.backing gc slot ++ [x] ∧ t.ctxs = s.ctxs ∧ (∀ n, n ≠ s.sel → t.pkt n = s.pkt n)) ∧
      ((∀ i < s.bqSize gc slot, ∃ y ∈ s.bqHeld gc slot, y.1 = i) → exec ev s = .next (s.setPkt { e with st := .refused 1024 })) ∧
      (∀ i < s.bqSize gc slot, (∀ y ∈ s.bqHeld gc slot, y.1 ≠ i) → (∀ j < i, ∃ y ∈ s.bqHeld gc slot, y.1 = j) →
        s.bqOpen gc slot i = false → ∃ t n, exec ev s = .next t ∧ t.pkt s.sel = some { e with st := .refused 1024 } ∧
          t.net.getLast? = some n ∧ Pkt.kind n.p = 7 ∧ Pkt.word n.p 2 % 2 ^ 8 = 0x14)) ∧
    (aptSt ent = 0 → e.notice = false → exec ev s = .next (s.bounce e 1)) ∧
    (aptSt ent = 0 → e.notice = true → exec ev s = .next (s.setPkt { e with redir := true, st := .flying })) ∧
    (aptSt ent = 1 → aptHost ent = false → s.backed gc slot (Pkt.mb e.p) = false → e.notice = false →
      (b.en = false → exec ev s = .next (s.bounce e 2)) ∧
      (b.en = true → Pkt.units e.p ≠ b.units → exec ev s = .next (s.bounce e 3)))) ∧
  (∀ (s : State) (e : NetPkt), s.pkt s.sel = some e → e.st = .flying → Pkt.kind e.p = 2 →
    let gc := Pkt.dest e.p / 2 ^ 11 % 2 ^ 8 * 2048 + Pkt.dest e.p % 2 ^ 11
    let k := s.core gc
    let may := e.host.isSome = true ∨ (Pkt.sup e.p = true ∧ s.ownerOf gc = e.part)
    let held := 4 + (if k.fenced && !e.patrol then 0 else s.actRoom gc)
    (∃ t, exec .activateArrival s = .next t) ∧
    (may → e.patrol = false → k.halted = false → k.actq.length < held → ∃ (t : State) (a : ActEnt), exec .activateArrival s = .next t ∧
      a.p = e.p ∧ a.from_ = s.now + 1 ∧ (t.core gc).actq = k.actq ++ [a] ∧ t.pkt s.sel = some { e with st := .accepted } ∧
      t.mem = s.mem ∧ t.ctxs = s.ctxs) ∧
    (may → e.patrol = true → k.actq.length < held → ∃ (t : State) (a : ActEnt), exec .activateArrival s = .next t ∧ a.p = e.p ∧
      a.from_ = s.now + 1 ∧ (t.core gc).actq = (if k.halted then a :: k.actq else k.actq ++ [a]) ∧ (t.core gc).halted = false ∧
      (t.core gc).fenced = false ∧ t.pkt s.sel = some { e with st := .accepted } ∧ t.mem = s.mem ∧ t.ctxs = s.ctxs) ∧
    (may → e.patrol = false → k.halted = true → exec .activateArrival s = .next (s.bounce e 8)) ∧
    (may → e.patrol = true ∨ k.halted = false → held ≤ k.actq.length → ∃ t, exec .activateArrival s = .next t ∧
      t.pkt s.sel = some { e with st := .refused 64 } ∧ t.core gc = k) ∧
    (¬ may → ∃ (t : State) (n : NetPkt), exec .activateArrival s = .next t ∧ t.cores = s.cores ∧ t.net.getLast? = some n ∧
      Pkt.kind n.p = 7 ∧ Pkt.word n.p 2 % 2 ^ 8 = 0x23)) ∧
  (∀ (s : State) (e : NetPkt) (h : Nat), s.pkt s.sel = some e → e.st = .refused h →
    let u := if e.host.isSome then s else s.bumpCore e.core 0x06
    (∃ t, exec .refusalResponse s = .next t) ∧
    (e.tries < 16 → ∃ t, exec .refusalResponse s = .next t ∧ t = { u with net := t.net } ∧ (∀ n, n ≠ s.sel → t.pkt n = s.pkt n) ∧
      t.pkt s.sel = some { e with tries := e.tries + 1, st := .backoff (s.now + min (h * 2 ^ e.tries) 65536) }) ∧
    (16 ≤ e.tries → e.notice = false → exec .refusalResponse s = .next (u.bounce e (if Pkt.kind e.p = 2 then 8 else 4)))) ∧
  (∀ (s : State) (e : NetPkt), s.pkt s.sel = some e → e.st = .accepted → ∃ t, exec .acceptanceResponse s = .next t ∧
    (∀ x, x ∈ t.net ↔ x ∈ s.net ∧ x.uid ≠ s.sel) ∧ (∀ w, e.w = some w → .sent s.sel ∉ (t.ctx w).slots) ∧ t.mem = s.mem ∧ t.cores = s.cores)

/-- The events of the scheduler complete where they are enabled. FIRING_CHOICE starts the firing that R253 ranks first, on one context or on
the four of a gang, with every register of Table 1.2, the fault registers of Table 4.3 and its packets in the message window; STEAL_SWEEP asks a victim for a task, STEAL_ANSWER gives the victim's topmost when it may start and the victim's own
scheduler does not take it, and STEAL_REPLY puts the task on top of the deque; FORECAST_UPDATE counts busy contexts, eligible actors and
tasks; YIELD_TIMER sets `%yreq`, KILL_TIMER begins and then ends a kill, behind everything else of the cycle in which it came due, and
FENCE_TIMER fences the core; IMPRECISE_FAULT_TAKEN takes a
due imprecise fault; INSTRUCTION_FETCH brings the line of an instruction, waits for it, or takes its fault; and GANG_ENTER and GANG_EXIT
change the mode of a quad with context 3 free (R16, R21, R23, R27, R28, R74, R80, R253, R255, R257, R259, R260, R262 to R266, R382). What
counts as ready work for a steal is log entry 78, and how the model orders what comes due in one cycle is log entries 34 and 45. -/
def Obligations.SchedulerEvents : Prop :=
  (∀ (s : State) (c : Pick), s.choose s.sel = some c → ∃ u, exec .firingChoice s = .next u) ∧
  (∀ (s : State) (c : Pick), s.choose s.sel = some c →
    let n := (s.core s.sel).deque.length
    (∀ t p x, c = .task t p → s.roomFor s.sel p.pkts (s.startable s.sel false) = some x → ∃ u, exec .firingChoice s = .next u ∧
      let k := u.ctx (4 * s.sel + x)
      k.starts (t.p.getD 2 0) (t.p.getD 3 0) (BitVec.ofNat 64 (0xE4000 + 0x400 * x)) 0 ∧ k.faultRegs false ∧
      k.kind = .pool ∧ k.pool = Pkt.pool t.p ∧ k.supv = false ∧ k.pc = BitVec.ofNat 64 p.pc ∧ k.msgs = [t.p] ∧ k.pktB = p.pkts ∧
      k.deqB = p.deq ∧ k.aid = 0 ∧ k.slot = 0 ∧ k.rule = 0 ∧ k.part = s.ownerOf s.sel ∧ k.gidx = 0 ∧ k.gang = false ∧
      (t.p.length ≤ 32 → x < 4 → u.windowHolds (4 * s.sel + x) [t.p]) ∧
      (u.core s.sel).deque.length ≤ n ∧ ∀ w, w ≠ 4 * s.sel + x → u.ctx w = s.ctx w) ∧
    (∀ slot r x, c = .actor slot r → let gang := (s.desc s.sel slot 0).testBit 62
      let ru := s.rule s.sel slot r
      let base := s.desc s.sel slot 0 / 2 ^ 27 % 2 ^ 14 * 64
      s.roomFor s.sel ru.pkts (s.startable s.sel gang) = some x → ∃ (u : State) (ps : List Pkt), exec .firingChoice s = .next u ∧
      (∀ i < (if gang then 4 else 1), let k := u.ctx (4 * (s.sel + i) + x)
        k.starts ((ps.headD []).getD 2 0) ((ps.headD []).getD 3 0) (BitVec.ofNat 64 (0xE4000 + 0x400 * x)) (BitVec.ofNat 64 base) ∧
        k.faultRegs (decide (slot = 0)) ∧ k.kind = .actor ∧ k.slot = slot ∧ k.rule = r ∧ k.pc = BitVec.ofNat 64 ru.pc ∧ k.msgs = ps ∧
        k.supv = decide (slot = 0) ∧ k.aid = s.desc s.sel slot 0 % 2 ^ 24 ∧ k.sbase = base ∧ k.gidx = i ∧ k.gang = gang ∧
        k.part = s.ownerOf (s.sel + i) ∧ k.lmask = BitVec.ofNat 64 (s.desc s.sel slot 18) ∧
        ((∀ p ∈ ps, p.length ≤ 32) → x < 4 → u.windowHolds (4 * (s.sel + i) + x) ps)) ∧
      ((∀ m < 4, ∀ i < ru.count m, let b := s.mbox s.sel slot m
          b.entry (b.head + i) + 16 * b.units ≤ 0xE0000 ∨ 0xE4000 ≤ b.entry (b.head + i)) →
        ps = [0, 1, 2, 3].flatMap (fun m => (List.range (ru.count m)).map (fun i => let b := s.mbox s.sel slot m
          s.rdWords (localPA s.sel (b.entry (b.head + i))) (2 * b.units)))) ∧
      (u.ctx (4 * s.sel + x)).pktB = ru.pkts ∧ (u.ctx (4 * s.sel + x)).deqB = ru.deq ∧ (u.sched s.sel slot).st = .firing ∧
      ∀ w, (∀ i < (if gang then 4 else 1), w ≠ 4 * (s.sel + i) + x) → u.ctx w = s.ctx w) ∧
    (∀ e x l, c = .act e → s.startable s.sel false = x :: l → ∃ u, exec .firingChoice s = .next u ∧
      let k := u.ctx (4 * s.sel + x)
      k.starts (e.p.getD 2 0) (e.p.getD 3 0) 0 0 ∧ k.faultRegs true ∧ k.msgs = [] ∧
      k.kind = .activate ∧ k.supv = true ∧ k.pc = BitVec.ofNat 64 (Pkt.word e.p 4) ∧ k.aid = 0 ∧ k.slot = 0 ∧ k.rule = 0 ∧
      k.part = s.ownerOf s.sel ∧ k.gidx = 0 ∧ k.gang = false ∧ (u.core s.sel).actq = (s.core s.sel).actq.erase e ∧
      ∀ w, w ≠ 4 * s.sel + x → u.ctx w = s.ctx w)) ∧
  (∀ (s : State), let k := s.core s.sel
    (k.halted = false → k.fenced = false → k.stealBusy = none → s.startable s.sel false ≠ [] → k.hasWork = false → k.idleAt + 64 ≤ s.now →
      s.deqFree s.sel ≠ 0 → ∃ t v, exec .stealSweep s = .next t ∧ (t.core s.sel).stealBusy = some v ∧ v / 8 = s.sel / 8 ∧ v ≠ s.sel ∧
        t.ctxs = s.ctxs ∧ t.mem = s.mem) ∧
    (∀ v, k.stealBusy = some v → k.stealPkt = none →
      let x := if s.ownerOf v = s.ownerOf s.sel then ((s.core v).deque.find? (fun x => x.held.isNone)).filter s.taskReady else none
      (∀ y, x = some y → s.popping v y = false) → ∃ t, exec .stealAnswer s = .next t ∧ (t.core s.sel).stealPkt = some x ∧
        (∀ y, x = some y → y ∉ (t.core v).deque) ∧ t.ctxs = s.ctxs ∧ t.mem = s.mem) ∧
    (∀ v x, k.stealBusy = some v → k.stealPkt = some (some x) → ∃ u : State, (u.core s.sel).stealBusy = none ∧ u.ctxs = s.ctxs ∧
      (∃ y, (u.core s.sel).deque = y :: k.deque ∧ y.p = x.p ∧ y.push = x.push ∧ y.held = none ∧ y.from_ = s.now) ∧
      exec .stealReply s = .next (match u.choose s.sel with | some c => u.startCand s.sel c | none => u)) ∧
    (∀ v, k.stealBusy = some v → k.stealPkt = some none → ∃ t, exec .stealReply s = .next t ∧ t = { s with cores := t.cores } ∧
      (k.stealIdx < 126 → (t.core s.sel).stealBusy = some (victim s.sel (k.stealIdx + 1)) ∧ (t.core s.sel).stealIdx = k.stealIdx + 1) ∧
      (126 ≤ k.stealIdx → (t.core s.sel).stealBusy = none ∧ (t.core s.sel).idleAt = s.now)) ∧
    (k.fcstAt + 256 ≤ s.now → ∃ t, exec .forecastUpdate s = .next t ∧ t = { s with cores := t.cores } ∧ (t.core s.sel).fcst =
      min 255 (48 * ([0, 1, 2, 3].filter (fun x => decide ((s.ctx (4 * s.sel + x)).kind ≠ .none))).length +
        16 * (k.sched.filter (fun x => decide (x.2.st = .eligible))).length + (k.deque.filter (fun t => t.held.isNone)).length / 4))) ∧
  (∀ (s : State), let c := s.ctx s.sel
    c.kind ≠ .none → c.gidx = 0 →
    (c.yreq = false → c.tYield ≤ c.cycles → ∃ t, exec .yieldTimer s = .next t ∧ t = { s with ctxs := t.ctxs, cores := t.cores } ∧
      (c.cycles ≠ c.tYield → t.cores = s.cores) ∧ (c.cycles = c.tYield → s.sel % 4 ∈ (t.core (s.sel / 4)).issued) ∧
      ∀ w, t.ctx w = if w ∈ s.members s.sel then { s.ctx w with yreq := true } else s.ctx w) ∧
    (c.phase ≠ .parked → c.phase ≠ .killing → c.owed = none → c.tKill < c.cycles → ∃ t, exec .killTimer s = .next t ∧
      (∀ w ∈ s.members s.sel, (t.ctx w).phase = .killing) ∧ (∀ w, w ∉ s.members s.sel → t.ctx w = s.ctx w) ∧ t.mem = s.mem) ∧
    (c.phase = .killing → c.owed = none → c.tKill < c.cycles → s.killBusy s.sel = false → ∃ t, exec .killTimer s = .next t ∧
      ∀ w ∈ s.members s.sel, (t.ctx w).phase = .free ∧ (t.ctx w).kind = .none ∧ (t.ctx w).log = []) ∧
    (c.phase ≠ .parked → c.tFence ≤ c.cycles → let u := s.coreFence (s.sel / 4)
      exec .fenceTimer s = .next u ∧ (u.core (s.sel / 4)).fenced = true ∧ (u.core (s.sel / 4)).sctl = 0 ∧
        (u.core (s.sel / 4)).deque = [] ∧ (u.core (s.sel / 4)).bfmt = [] ∧ (u.core (s.sel / 4)).l1 = []) ∧
    (∀ f, c.phase = .running → s.faultDue s.sel = true → s.pendingFault s.sel = some f →
      exec .impreciseFaultTaken s = .next (s.takeTrap s.sel f)) ∧
    (c.mayIssue = true → (∃ t, exec .instructionFetch s = .next t) ∧
      (∀ u h i, s.fetch s.sel = .ok (u, h, i) → exec .instructionFetch s = .next u) ∧
      (∀ u, s.fetch s.sel = .error (.wait u) → exec .instructionFetch s = .next u) ∧
      (∀ f, s.fetch s.sel = .error (.trap f) → exec .instructionFetch s = .next (s.fault s.sel f)))) ∧
  (∀ (s : State), s.sel % 4 = 0 → (∀ i < 4, (s.ctx (4 * (s.sel + i) + 3)).phase = .free) →
    let mode := fun (t : State) (on : Bool) => t = { s with cores := t.cores } ∧
      (∀ i < 4, (t.core (s.sel + i)).sctl.getLsbD 1 = on ∧
        ∀ j, j ≠ 1 → (t.core (s.sel + i)).sctl.getLsbD j = (s.core (s.sel + i)).sctl.getLsbD j) ∧
      ∀ g, ¬ (s.sel ≤ g ∧ g < s.sel + 4) → t.core g = s.core g
    ((s.core s.sel).sctl.getLsbD 0 = true → (s.core s.sel).sctl.getLsbD 1 = false →
      ∃ t, exec .gangEnter s = .next t ∧ mode t true) ∧
    ((s.core s.sel).sctl.getLsbD 0 = false → (s.core s.sel).sctl.getLsbD 1 = true →
      ∃ t, exec .gangExit s = .next t ∧ mode t false))

/-- EVICT_SAVE, BACKING_QUEUE_DRAIN, ADMIT_RESTORE and FENCE_CORE complete where they are enabled. A leaving actor that no firing runs
becomes moving, as its placement entry says, and a moving one whose array and engine commands and stores are complete is saved, every part of its
backing area written, and is absent with nothing left in its slot, as its placement entry says; the first packet of a backing queue whose
mailbox fits it moves there; an admission whose members can all be restored makes them resident together, Idle or held as their descriptors say,
their placement entries resident, with status 0; and Patrol fences the core that a request of its own partition or of the host names, and refuses
another (R35, R169, R255, R266, R270, R274, R301, R304, R311, R391). The layout of a backing queue is log entry 18, of an array image log entry 9. -/
def Obligations.ActorEvents : Prop :=
  (∀ (s : State) (g slot : Nat),
    ((s.sched g slot).st = .leaving → s.slotRuns g slot = false → ∃ t, exec (.evictSave g slot) s = .next t ∧
      (t.sched g slot).st = .moving ∧ t.ctxs = s.ctxs ∧ t.net = s.net ∧
      ∀ q, s.aptPA (g / 2048) (s.ownerOf g) (s.handleOf g slot) = some q → s.plainWord q → t.rd64 q / 2 ^ 62 % 4 = 2) ∧
    ((s.sched g slot).st = .moving → s.slotQueued g slot = false → s.slotEngaged g slot = false → s.segBusy g = false →
      exec (.evictSave g slot) s = .next (s.saveActor g slot) ∧ ∃ t, exec (.evictSave g slot) s = .next t ∧
      (t.sched g slot).st = .absent ∧ (t.core g).allocsOf slot = [] ∧ t.ctxs = s.ctxs ∧
      let pa := s.backPA g slot
      let n := s.backArr g slot + (((s.zeroTiles g slot).clu (g / 8)).image (s.slotKey g slot)).length
      (slot < 64 → s.openHbm g pa n → ((s.core g).allocsOf slot).length ≤ 32 →
        (∀ q, s.aptPA (g / 2048) (s.ownerOf g) (s.handleOf g slot) = some q → q + 8 ≤ pa ∨ pa + n ≤ q) →
        (∀ x ∈ s.savedParts g slot, t.rdBytes (pa + x.1) x.2.length = x.2) ∧
        ∀ q, s.aptPA (g / 2048) (s.ownerOf g) (s.handleOf g slot) = some q → s.plainWord q → t.rd64 q / 2 ^ 62 % 4 = 3))) ∧
  (∀ (s : State) (g slot : Nat), (s.sched g slot).st ≠ .absent → (s.sched g slot).st ≠ .admitting → (s.sched g slot).st ≠ .moving →
    (∀ x, s.drainable g slot (s.bqHeld g slot) [] = some x → ∃ t, exec (.backingQueueDrain g slot) s = .next t) ∧
    (∀ i o b r, s.bqHeld g slot = (i, o, b) :: r → Pkt.kind b.p = 0 →
      let m := s.mbox g slot b.mb
      m.en = true → m.count + m.rsv < m.depth → Pkt.units b.p = m.units → s.openHbm g (s.bqPA g slot i) 320 →
      (∀ k < 320, s.poisoned (s.bqPA g slot i + k) = false) → slot < 64 →
      (∀ j, m.entry j + 16 * m.units ≤ 0xE0000 ∨ 0xE4000 ≤ m.entry j ∧ m.entry j + 16 * m.units ≤ 0x100000) →
      ∃ t, exec (.backingQueueDrain g slot) s = .next t ∧ t.backing g slot = r.map (fun x => x.2.2) ∧
        (t.mbox g slot b.mb).count = m.count + 1 ∧ t.ctxs = s.ctxs ∧ t.net = s.net)) ∧
  (∀ (s : State) (a : Admission), s.admits.find? (fun a => decide (a.uid = s.sel) && a.res.isNone) = some a →
    (∀ u, s.restoreTeam a.team = some u → ∃ t, exec .admitRestore s = .next t ∧
      (∀ x ∈ a.team, (s.sched x.2.1 x.2.2).st = .admitting →
        (t.sched x.2.1 x.2.2).st = .idle ∨ (t.sched x.2.1 x.2.2).st = .heldFault) ∧
      (∀ m p, (∀ x ∈ a.team, x.2.1 / 2048 = m ∧ s.ownerOf x.2.1 = p ∧ x.2.2 < 64 ∧
          ∀ q, s.aptPA m p x.1 = some q → s.plainWord q ∧ s.region q = .hbm ∧ s.region (q + 7) = .hbm) →
        ∀ x ∈ a.team, (s.sched x.2.1 x.2.2).st = .admitting → ∀ q, s.aptPA m p x.1 = some q → t.rd64 q / 2 ^ 62 % 4 = 1) ∧
      ((s.ctx a.w).fid = a.fid → (s.ctx a.w).kind ≠ .none → { a with res := some (0, 0) } ∈ t.admits)) ∧
    (∀ h g slot, a.team = [(h, g, slot)] → s.itemsFree g slot = true → s.records g slot = [] →
      ∃ u t, s.restoreTeam a.team = some u ∧ exec .admitRestore s = .next t ∧ ((s.sched g slot).st = .admitting →
        (t.sched g slot).st = (if (u.desc g slot 0).testBit 60 then .heldFault else .idle) ∧
        ∀ q, u.aptPA (g / 2048) (u.ownerOf g) h = some q → u.plainWord q → t.rd64 q / 2 ^ 62 % 4 = 1) ∧
        ((s.ctx a.w).fid = a.fid → (s.ctx a.w).kind ≠ .none → { a with res := some (0, 0) } ∈ t.admits))) ∧
  (∀ (s : State) (i : Nat) (e : PatEnt), s.patrolAsk s.sel 4 = some (i, e) →
    let g := s.sel * 2048 + Pkt.word e.p 3 % 2 ^ 11
    let u := s.onMod s.sel (fun k => { k with patrol := k.patrol.eraseIdx i })
    (e.host.isSome = true ∨ s.ownerOf g = e.part → s.fenceFirst g = true →
      exec .fenceCore s = .next ((u.coreFence g).patrolReply s.sel e 0 0)) ∧
    (e.host.isSome = false → s.ownerOf g ≠ e.part → exec .fenceCore s = .next (u.patrolReply s.sel e 1 0)))

/-- The events of the host port complete. A frame is the bytes of Tables 21.1 and 21.2, and reading them gives back what was written. A frame for
another address, type or size, and a malformed one of an open flow, is counted and nothing else happens; one of a flow that is not open,
and of flow 0, is discarded; a data frame in sequence on an open flow has its segments take effect once each and in order, an earlier
one is acknowledged again, and a later one is answered by a nak; an ack drops what it covers; a nak or the timeout sends every unacknowledged
segment again, and the sixteenth timeout in a row closes the flow and tells Patrol; the ack timer sends an ack; and a flow opens with its
numbers at 0 and a timeout of 40,000 cycles unless Patrol says otherwise, and closes (R395 to R398). The byte order of the Ethernet
header, what counts towards the size of a frame, what is counted as discarded, and the flow in the failure notice's first argument are
log entry 48. -/
def Obligations.HostEvents : Prop :=
  (∀ f : Frame, frameFits f → readFrame (frameBytes f) = { f with size := (frameBytes f).length + 4, ok := true }) ∧
  (∀ (m : Nat) (b : List Byte) (s : State), let f := readFrame b
    (f.type ≠ 1 → f.type ≠ 2 → ∃ t, exec (.dataFrame m b) s = .next t) ∧ (f.type = 1 → ∃ t, exec (.ackFrame m b) s = .next t) ∧
    (f.type = 2 → ∃ t, exec (.nakFrame m b) s = .next t)) ∧
  (∀ (m : Nat) (b : List Byte) (s : State) (i : Instr), i = .dataFrame m b ∨ i = .ackFrame m b ∨ i = .nakFrame m b →
    let f := readFrame b
    let mine := i = (if f.type = 1 then .ackFrame m b else if f.type = 2 then .nakFrame m b else .dataFrame m b)
    let bad := ∃ t, exec i s = .next t ∧ t = { s with mods := t.mods } ∧
      (t.mod m).portStat = (s.mod m).portStat + 1 ∧ (t.mod m).flows = (s.mod m).flows ∧ ∀ k, k ≠ m → t.mod k = s.mod k
    let taken := f.dstMac = (s.mod m).mac ∧ f.etherType = 0x88B5 ∧ f.size ≤ 9216
    let closed := f.flow = 0 ∨ (s.mod m).recovery = true ∨ (s.flow m f.flow).open_ = false
    (¬ taken → bad) ∧ (taken → mine → closed → exec i s = .next s) ∧
    (taken → mine → ¬ closed → f.ok = false ∨ (f.type = 0 ∧ 9000 < 16 + (f.segs.map segBytes).sum) → bad)) ∧
  (∀ (m : Nat) (b : List Byte) (s : State), let f := readFrame b
    f.dstMac = (s.mod m).mac → f.etherType = 0x88B5 → f.size ≤ 9216 → f.flow ≠ 0 → f.ok = true →
    (s.mod m).recovery = false → (s.flow m f.flow).open_ = true →
    let u := s.ackTo m f.flow f.ack.toNat f.window
    let x := u.flow m f.flow
    (f.type = 0 → 16 + (f.segs.map segBytes).sum ≤ 9000 →
      (f.seq.toNat = x.rxNext → ∃ v : State, (v.flow m f.flow).rxNext = (f.seq.toNat + f.segs.length) % 2 ^ 32 ∧
        (v.flow m f.flow).ackDue.isSome = true ∧ v.mem = s.mem ∧ v.net = s.net ∧
        exec (.dataFrame m b) s = .next (v.segsDo m f.flow x.part f.seq.toNat f.segs)) ∧
      (f.seq.toNat ≠ x.rxNext → ∃ (t : State) (a : Frame), exec (.dataFrame m b) s = .next t ∧ t = { u with mods := t.mods } ∧
        (t.mod m).frames = (u.mod m).frames ++ [frameBytes a] ∧ a.flow = f.flow ∧ a.segs = [] ∧ a.ack = BitVec.ofNat 32 x.rxNext ∧
        a.dstMac = x.mac ∧ a.etherType = 0x88B5 ∧ a.type = if seqBefore f.seq.toNat x.rxNext then 1 else 2)) ∧
    (f.type = 1 → exec (.ackFrame m b) s = .next u) ∧ ((s.flow m f.flow).pend = [] →
      x.unack = (s.flow m f.flow).unack.filter (fun y => seqBefore f.ack.toNat ((y.1 + y.2.length) % 2 ^ 32))) ∧
    (f.type = 2 → ∃ t, exec (.nakFrame m b) s = .next t ∧ t = { s with mods := t.mods } ∧
      (t.mod m).frames = (u.mod m).frames ++ x.unack.map (fun y => frameBytes (u.frameOf m f.flow 0 y.1 y.2)))) ∧
  (∀ (m n : Nat) (s : State), let x := s.flow m n
    (x.open_ = true → x.unack ≠ [] → x.sentAt + x.timeout ≤ s.now → x.tries + 1 ≠ 16 → ∃ t, exec (.retransmitTimeout m n) s = .next t ∧
      (t.flow m n).tries = x.tries + 1 ∧ (t.flow m n).unack = x.unack ∧ (t.flow m n).sentAt = s.now ∧
      (t.mod m).frames = (s.mod m).frames ++ x.unack.map (fun y => frameBytes (s.frameOf m n 0 y.1 y.2))) ∧
    (x.open_ = true → x.unack ≠ [] → x.sentAt + x.timeout ≤ s.now → x.tries + 1 = 16 →
      exec (.retransmitTimeout m n) s = .next (s.failFlow m n) ∧ ∃ t, exec (.retransmitTimeout m n) s = .next t ∧
        (t.flow m n).open_ = false ∧ (t.flow m n).unack = [] ∧
        ∃ e, (t.mod m).patrol.getLast? = some e ∧ Pkt.kind e.p = 7 ∧ e.p.length = 8 ∧ e.p.getD 2 0 = BitVec.ofNat 64 n) ∧
    (∀ d, x.ackDue = some d → x.open_ = true → d ≤ s.now → ∃ (t : State) (a : Frame), exec (.ackTimer m n) s = .next t ∧
      (t.mod m).frames = (s.mod m).frames ++ [frameBytes a] ∧ a.type = 1 ∧ a.flow = n ∧ a.segs = [] ∧ a.ack = BitVec.ofNat 32 x.rxNext ∧
      (t.flow m n).ackDue = none) ∧
    (x.open_ = true → ∃ t, exec (.flowClose m n) s = .next t ∧ t = { s with mods := t.mods } ∧ (t.flow m n).open_ = false ∧
      (t.flow m n).unack = [] ∧ (t.flow m n).pend = [] ∧ ∀ k, k ≠ n → t.flow m k = s.flow m k) ∧
    (∀ (part : Nat) (mac : BitVec 48) (timeout : Option Nat), n ≠ 0 → n < 4096 → x.open_ = false → part < 64 →
      (∀ d, timeout = some d → 4000 ≤ d ∧ d ≤ 2 ^ 24) →
      ∃ t, exec (.flowOpen m n part mac timeout) s = .next t ∧ t = { s with mods := t.mods } ∧ (t.flow m n).open_ = true ∧
        (t.flow m n).part = part ∧ (t.flow m n).mac = mac ∧ (t.flow m n).timeout = timeout.getD 40000 ∧ (t.flow m n).rxNext = 0 ∧
        (t.flow m n).txNext = 0 ∧ (t.flow m n).unack = [] ∧ ∀ k, k ≠ n → t.flow m k = s.flow m k))

/-- The events of the links and the reset of a module complete. A flit that fails its CRC makes its sender send the flits from the number on
that the port expects, as far as it kept them, and one out of sequence is dropped; a good one in sequence moves the sequence on and goes
towards its module, as a flit of the link it leaves on, or into its transfer; eight failed replays retrain the link, which comes back
within 4,000,000 cycles or is down; MODULE_RESET leaves nothing of the module, and boots it from signed images of a version that is
not older, with its flows, its routes, its serial number and its identity key, or leaves it in recovery (R402, R403, R405). That a failure
while a replay is asked for counts towards eight, and how transfers are put together, are log entry 51; that a flit of a reserved virtual
channel takes its sequence number is log entry 66; and that memory reads 0 in recovery is log entry 56. -/
def Obligations.FabricEvents : Prop :=
  (∀ (s : State) (m port : Nat) (b : List Byte), let x := s.link m port
    let far := Config.wire m port
    port < 32 → x.trainAt = none → x.down = false → ∃ t, exec (.flitReceive m port b) s = .next t ∧ t = { s with mods := t.mods } ∧
      (flitOk b = false → t.link m port = { x with replay := true, fails := if x.replay then x.fails + 1 else x.fails } ∧
        (t.mod far.1).flits = (s.mod far.1).flits ++
          ((s.link far.1 far.2).sent.dropWhile (fun c => bits (flitHead c) 19 12 ≠ x.lseq)).map (fun c => (far.2, c)) ∧
        ∀ k, k ≠ m → k ≠ far.1 → t.mod k = s.mod k) ∧
      (flitOk b = true → bits (flitHead b) 19 12 ≠ x.lseq → t = s) ∧
      (flitOk b = true → bits (flitHead b) 19 12 = x.lseq → (∀ k, k ≠ m → t.mod k = s.mod k) ∧
        (t.link m port).lseq = (x.lseq + 1) % 4096 ∧ (t.link m port).replay = false ∧ (t.link m port).fails = 0 ∧
        (∀ p, bits (flitHead b) 0 3 < 4 → bits (flitHead b) 3 8 ≠ m → s.port m (bits (flitHead b) 3 8) = some p → s.linkDown m p = false →
            (s.link m p).txSeq < 4096 →
          ∃ c, (t.mod m).flits = (s.mod m).flits ++ [(p, c)] ∧ c.length = b.length ∧ c.drop 8 = b.drop 8 ∧ flitOk c = true ∧
            bits (flitHead c) 0 19 = bits (flitHead b) 0 19 ∧ bit (flitHead c) 31 = bit (flitHead b) 31 ∧
            bits (flitHead c) 19 12 = (s.link m p).txSeq ∧ (t.link m p).txSeq = ((s.link m p).txSeq + 1) % 4096 ∧
            (t.link m p).sent.getLast? = some c) ∧
        (bits (flitHead b) 0 3 < 4 → bits (flitHead b) 3 8 = m → bit (flitHead b) 31 = true →
          let key := bits (flitHead b) 11 8 * 8 + bits (flitHead b) 0 3
          (t.mod m).rxDone = (s.mod m).rxDone ++ [(key, FMap.get [] (s.mod m).rxPart key ++ b.drop 8)]))) ∧
  (∀ (s : State) (m port : Nat), let x := s.link m port
    (8 ≤ x.fails → x.trainAt = none → x.down = false → ∃ t, exec (.linkRetrain m port) s = .next t ∧ t = { s with mods := t.mods } ∧
      t.link m port = { x with trainAt := some s.now }) ∧
    (∀ d, x.trainAt = some d →
      (s.now ≤ d + 4000000 → ∃ t, exec (.linkRetrained m port) s = .next t ∧ t = { s with mods := t.mods } ∧
        t.link m port = { x with trainAt := none, fails := 0, replay := false }) ∧
      (d + 4000000 ≤ s.now → ∃ t, exec (.linkDown m port) s = .next t ∧ t = { s with mods := t.mods } ∧
        t.link m port = { x with trainAt := none, down := true }))) ∧
  (∀ (s : State) (m : Nat) (b : BootRec), let good := imageOk b.patrol = true ∧ (s.mod m).version ≤ b.version ∧ imageOk b.config = true
    b.number = m → ∃ t, exec (.moduleReset m b) s = .next t ∧ m ∈ t.present ∧ (t.mod m).version = (s.mod m).version ∧ (t.mod m).bootAt = s.now ∧
      (∀ g, g / 2048 = m → t.core g = {}) ∧ (∀ w, w / 4 / 2048 = m → t.ctx w = {}) ∧ (∀ k, k ≠ m → t.mod k = s.mod k) ∧
      (∀ g, g / 2048 ≠ m → t.core g = s.core g) ∧
      (¬ good → (t.mod m).recovery = true ∧ ∀ pa, pa / 2 ^ 44 = m → t.rdByte pa = 0) ∧
      (good → (t.mod m).booted = true ∧ (t.mod m).recovery = false ∧ (t.mod m).mac = b.mac ∧ (t.mod m).serial = b.serial ∧
        (t.mod m).key = Config.identityKey m b.helper ∧ (∀ f ∈ b.flows, flowRecOk f = true → (t.flow m f.flow).open_ = true) ∧
        (∀ x ∈ b.routes, (t.port m x.1).isSome = true) ∧
        ∀ c, c ∈ b.disabled → FMap.get 0xFF (t.mod m).owner c = 0xFF ∧ (c < 2048 → t.ownerOf (m * 2048 + c) = 0xFF)))

/-- What Patrol writes and answers completes. A request of the partition that owns the unit, or of the host, gets status 0 and a counter's
value, or writes a select or an enable; another's gets status 1 and changes nothing; a quote is written, signed, into the memory of
the partition that asked; a group of members whose partitions own it is enabled, and a disabled group keeps no chunk; the core map gives
a core to a partition, which it takes from another only when the core is fenced, and clears its L1 TLB; and an entry of the Partition Table is
written while no core belongs to it (R307, R308, R320, R379, R391, R406). Where Patrol sees to the fence, that the core map write
clears only the L1 TLB, and that only well-formed partition entries are written, are log entry 52; the place of a quote and of a counter
is log entry 32. -/
def Obligations.PatrolEvents : Prop :=
  (∀ (s : State) (i : Nat) (e : PatEnt), let u := s.onMod s.sel (fun k => { k with patrol := k.patrol.eraseIdx i })
    (s.patrolAsk s.sel 1 = some (i, e) → let n := perfOf s.sel (Pkt.word e.p 3)
      let mine := e.host.isSome = true ∨ s.ownerOf (if n.slice then 8 * n.unit_ else n.unit_) = e.part
      (mine → exec .perfCounterRead s = .next (u.patrolReply s.sel e 0 (BitVec.ofNat 64 (s.perfVal n)))) ∧
      (¬ mine → exec .perfCounterRead s = .next (u.patrolReply s.sel e 1 0))) ∧
    (s.patrolAsk s.sel 2 = some (i, e) → let n := perfOf s.sel (Pkt.word e.p 3 % 2 ^ 16)
      let v := Pkt.word e.p 3 / 2 ^ 16
      let mine := e.host.isSome = true ∨ s.ownerOf (if n.slice then 8 * n.unit_ else n.unit_) = e.part
      (mine → ∃ w : State, exec .perfCounterWrite s = .next (w.patrolReply s.sel e 0 0) ∧ w.mem = s.mem ∧ w.ctxs = s.ctxs ∧ w.mods = u.mods ∧
        (n.slice = false → n.idx = 16 → ∀ g, w.core g = s.core g) ∧
        (n.slice = false → n.idx < 16 → FMap.get 0 (w.core n.unit_).pselect n.idx = v % 256 ∧ (w.core n.unit_).sctl = (s.core n.unit_).sctl) ∧
        (n.slice = true → n.idx = 16 → (w.clu n.unit_).penable = v.testBit 0) ∧
        (n.slice = true → n.idx < 16 → FMap.get 0 (w.clu n.unit_).pselect n.idx = v % 256)) ∧
      (¬ mine → exec .perfCounterWrite s = .next (u.patrolReply s.sel e 1 0))) ∧
    (s.patrolAsk s.sel 3 = some (i, e) → let b := s.quoteBody s.sel (e.p.getD 3 0)
      let q := b ++ Config.ed25519Sign (s.mod s.sel).key b
      exec .quote s = .next ((u.backWrite s.sel e.part (Config.quotePlace e.part) (q.length + 1) q).patrolReply s.sel e 0
        (BitVec.ofNat 64 (Config.quotePlace e.part))))) ∧
  (∀ (s : State) (m n : Nat) (g : TreeGroup),
    (n < 64 → (s.group m n).en = false → g.root ∈ g.members → (∀ c ∈ g.members, (s.partEntry m (s.ownerOf (m * 2048 + c))).valid = true ∧
      (s.partEntry m (s.ownerOf (m * 2048 + c))).groups.getLsbD n = true) →
      ∃ t, exec (.treeGroupEnable m n g) s = .next t ∧ t.group m n = { g with en := true } ∧ ∀ k, k ≠ n → t.group m k = s.group m k) ∧
    ((s.group m n).en = true → exec (.treeGroupEnable m n g) s = .next s ∧
      ∃ t, exec (.treeGroupDisable m n) s = .next t ∧ (t.group m n).en = false ∧
        ∀ c ∈ (t.mod m).chunks ++ (t.mod m).spillT, c.group ≠ n) ∧
    ((s.group m n).en = false → exec (.treeGroupDisable m n) s = .next s)) ∧
  (∀ (s : State) (g part : Nat), let old := FMap.get 0xFF (s.mod (g / 2048)).owner (g % 2048)
    part < 64 ∨ part = 0xFF → old = 0xFF ∨ old = part ∨ (s.core g).fenced = true → ∃ t, exec (.coreMapWrite g part) s = .next t ∧
    FMap.get 0xFF (t.mod (g / 2048)).owner (g % 2048) = part ∧ t.core g = { s.core g with tlb := [] } ∧
    (∀ k, k ≠ g % 2048 → FMap.get 0xFF (t.mod (g / 2048)).owner k = FMap.get 0xFF (s.mod (g / 2048)).owner k) ∧
    (∀ k, k ≠ g → t.core k = s.core k) ∧ t = { s with mods := t.mods, cores := t.cores }) ∧
  (∀ (s : State) (m p : Nat) (e : PartEntry), p < 64 → (∀ x ∈ (s.mod m).owner, x.2 ≠ p) → (e.valid = true → 4 ≤ e.aptsz ∧ e.aptsz ≤ 24) →
    ∃ t, exec (.partitionTableWrite m p e) s = .next t ∧ t = { s with mods := t.mods } ∧ FMap.find (t.mod m).parts p = some e ∧
      (∀ k, k ≠ p → FMap.find (t.mod m).parts k = FMap.find (s.mod m).parts k) ∧ ∀ k, k ≠ m → t.mod k = s.mod k)

/-- The events of the power manager and the writes of control words and soft errors complete. Leave is granted to the oldest request that
fits 600 W while the cold plate is not hot, and given back after 4,000 idle cycles; a window closes after 4,000 cycles; the forecast sums
the cores' forecasts; a control word takes what its field admits and ignores the rest; and an error that its structure corrects is
counted or drops a cached copy, while one it does not poisons the line or marks the word, or reports fault 0x10 (R150, R187, R343,
R344, R379, R392, R407 to R409). The report of a bad scratchpad word and of other soft errors, where the spec leaves its fields open, is log
entry 54, and which core counts a corrected error of a tile is log entry 60. -/
def Obligations.PowerAndControlWords : Prop :=
  (∀ (s : State), let d := s.die s.sel
    (∀ name watts r, d.fifo = (name, watts) :: r → (s.mod (s.sel / 8)).hot = false → d.leave + (watts - s.leaveOf name) ≤ 600 →
      ∃ t, exec .leaveGrant s = .next t ∧ (t.die s.sel).fifo = r ∧ (t.die s.sel).leave = d.leave + (watts - s.leaveOf name) ∧
        (name < 2 ^ 32 → (t.clu name).leave = max (s.clu name).leave watts) ∧ (∀ e ∈ t.engines, cmdName e.uid = name → e.granted = true ∨ name < 2 ^ 32)) ∧
    ((s.clu s.sel).leave ≠ 0 → (s.clu s.sel).inbox = [] → (s.clu s.sel).leaveIdle + 4000 ≤ s.now → ∃ t, exec .leaveRelease s = .next t ∧
      (t.clu s.sel).leave = 0 ∧ (t.die (s.sel / 32)).leave = (s.die (s.sel / 32)).leave - (s.clu s.sel).leave) ∧
    (∃ t, exec .overheatReport s = .next t ∧ t = { s with mods := t.mods } ∧ (t.mod s.sel).hot = true) ∧
    (∃ t, exec .overheatClear s = .next t ∧ t = { s with mods := t.mods } ∧ (t.mod s.sel).hot = false) ∧
    (d.winAt + 4000 ≤ s.now → ∃ t, exec .rampWindow s = .next t ∧ t = { s with dies := t.dies } ∧ (t.die s.sel).work = 0 ∧
      (t.die s.sel).winAt = s.now ∧ (d.last ≤ (t.die s.sel).last + windowPeak / 8 ∨ 2 ≤ d.dummy)) ∧
    (d.fcAt + 256 ≤ s.now → ∃ t, exec .powerForecastRead s = .next t ∧ t = { s with dies := t.dies } ∧
      (t.die s.sel).fcast = ((List.range 256).map (fun i => (s.core (s.sel * 256 + i)).fcst)).sum)) ∧
  (∀ (s : State) (c p : Nat) (v : Word),
    (∃ t, exec (.leaseQuotaWrite c v) s = .next t ∧ t = { s with clus := t.clus } ∧ (t.clu c).leaseQ = v.toNat % 1024) ∧
    (∃ t, exec (.coreConfigWrite c v) s = .next t ∧ t = { s with cores := t.cores } ∧ (t.core c).sbfloor =
      if 8 ≤ v.toNat % 16 ∧ v.toNat % 16 ≤ 14 ∧ (s.core c).userResident = false then v.toNat % 16 else (s.core c).sbfloor) ∧
    (p < 64 → ∃ t, exec (.liftQuotaWrite c p v) s = .next t ∧ t = { s with clus := t.clus } ∧
      (∀ k, k ≠ p → FMap.get 2 (t.clu c).quota k = FMap.get 2 (s.clu c).quota k) ∧
      (FMap.get 2 (t.clu c).quota p = max 2 (v.toNat % 8192) ∨ FMap.get 2 (t.clu c).quota p = FMap.get 2 (s.clu c).quota p) ∧
      ((s.clu c).quotaSum + max 2 (v.toNat % 8192) ≤ 4096 → FMap.get 2 (t.clu c).quota p = max 2 (v.toNat % 8192))) ∧
    (p < 64 → ∃ t, exec (.spillDescWrite c p 0 v) s = .next t ∧ t = { s with clus := t.clus } ∧
      (FMap.get {} (t.clu c).spill p).v = v.getLsbD 63 ∧
      ((FMap.get {} (s.clu c).spill p).live = 0 → (FMap.get {} (t.clu c).spill p).base = v.toNat / 2 ^ 6 % 2 ^ 46 * 64)) ∧
    (p < 64 → ∀ j, j ≠ 0 → ∃ t, exec (.spillDescWrite c p j v) s = .next t ∧ t = { s with clus := t.clus } ∧
      (FMap.get {} (t.clu c).spill p).lsz = if j = 1 ∧ (FMap.get {} (s.clu c).spill p).live = 0 ∧ 4 ≤ v.toNat % 32 ∧ v.toNat % 32 ≤ 20
        then v.toNat % 32 else (FMap.get {} (s.clu c).spill p).lsz) ∧
    (∀ off, ∃ t, exec (.controlRegisterWrite ⟨c, off, v⟩) s = .next t ∧ t.mem = s.mem ∧ t.ctxs = s.ctxs ∧ t.net = s.net) ∧
    (exec (.controlRegisterWrite ⟨c, 0, v⟩) s = exec (.leaseQuotaWrite c v) s) ∧
    (∀ off, 0x20800 ≤ off ∨ (0x2000 ≤ off ∧ off < 0x20000) → exec (.controlRegisterWrite ⟨c, off, v⟩) s = .next s)) ∧
  (∀ (s : State) (w g a n : Nat),
    (∀ site, site = .scratchCore w a ∨ site = .file w a ∨ site = .logOrSend w ∨ (w / 4 % 8 = 0 ∧ site = .tile (w / 32) a) →
      ∃ t, exec (.eccError site false) s = .next t ∧ t = { s with cores := t.cores } ∧
        (∀ i < 16, FMap.get 0 (t.core (w / 4)).pcount i = (s.core (w / 4)).counted 0x08 i) ∧
        t.core (w / 4) = { s.core (w / 4) with pcount := (t.core (w / 4)).pcount } ∧ ∀ k, k ≠ w / 4 → t.core k = s.core k) ∧
    (∀ site, site = .slice a ∨ site = .cellMeta a → ∃ t, exec (.eccError site false) s = .next t ∧ t = { s with clus := t.clus } ∧
      ∀ i < 16, FMap.get 0 (t.clu (homeOf a hbPhys)).pcount i = (s.clu (homeOf a hbPhys)).counted 0x26 i) ∧
    (∀ d, ∃ t, exec (.eccError (.pool g n) d) s = .next t ∧ FMap.find (t.core g).plcPool n = none ∧ t = { s with cores := t.cores }) ∧
    (∀ d, ∃ t, exec (.eccError (.l1 g n) d) s = .next t ∧ t = { s with cores := t.cores } ∧ (t.core g).inL1 n = false) ∧
    (∀ d, ∃ t, exec (.eccError (.tlb2 g n a) d) s = .next t ∧ t = { s with clus := t.clus }) ∧
    (∀ d, ∃ t, exec (.eccError (.placement g n) d) s = .next t ∧ FMap.find (t.core g).plc n = none ∧ t = { s with cores := t.cores }) ∧
    (∃ t, exec (.eccError (.slice a) true) s = .next t ∧ t.poisoned a = true ∧
      ((∀ k ∈ s.clus, ∀ e ∈ k.2.lift, e.cell / 64 ≠ a / 64) → t.mem = s.mem)) ∧
    ((s.ctx w).kind ≠ .none → ∃ t, exec (.eccError (.file w n) true) s = .next t ∧ t = { s with ctxs := t.ctxs } ∧
      ∃ f, (t.ctx w).imprec = (s.ctx w).imprec ++ [f] ∧ f.code = 0x10 ∧ f.detail = 0 ∧ f.va = BitVec.ofNat 64 n) ∧
    ((s.ctx w).kind ≠ .none → ∃ t, exec (.eccError (.scratchCore w a) true) s = .next t ∧ t.badWord (localPA (w / 4) a) = true ∧
      ∃ f, (t.ctx w).imprec = (s.ctx w).imprec ++ [f] ∧ f.code = 0x10 ∧ f.detail = 2 ∧ f.va = BitVec.ofNat 64 a) ∧
    (∃ t, exec (.eccError (.landing true g n) true) s = .next t ∧ (t.ctr ⟨true, g, n⟩).arm = false ∧ t.mem = s.mem))

/-- Decoding the encoding of a well-formed instruction gives the instruction back, with every operand at every value that its encoding
admits; the encoding is a head and a tail of the length that the head asks for, each a halfword (R42 to R56). -/
def Obligations.EncodedInstructionsDecode : Prop :=
  ∀ i : Instr, i.wellFormed = true → ∃ (head : Nat) (tail : List Nat), encode i = head :: tail ∧
    decodeInstr head tail = .ok i ∧ tail.length = tailLen head ∧ ∀ x ∈ head :: tail, x < 65536

/-- What the decoder accepts is a well-formed instruction, whatever the head and the tail; so no event of the table is ever decoded, and
nothing that Table 2.14 rejects (R56). -/
def Obligations.DecodedInstructionsAreWellFormed : Prop :=
  ∀ (head : Nat) (tail : List Nat) (i : Instr), decodeInstr head tail = .ok i →
    i.wellFormed = true ∧ head / 512 % 128 ≠ 0x00 ∧ head / 512 % 128 ≠ 0x7F ∧ encode i ≠ []

/-- Words written out from the encodings of chapter 02 decode to the instructions they stand for: the three instructions of the worked
line and one of each further family; and FIN with a tail, opcodes 0x00 and 0x7F, a reserved operand code and a function that no table
lists are refused. -/
def Obligations.SampleWordsDecode : Prop :=
  decodeInstr 0x2F04 [0x0000, 0x0064] = .ok (.liT2I (.s 4) 100) ∧
  decodeInstr 0x02C8 [0x098C] = .ok (.addT1 .z0 (.s 4) (.imm 3) false false) ∧
  decodeInstr 0xF200 [] = .ok .fin ∧
  decodeInstr 0x4085 [0x0C11] = .ok (.fadd .f32 (.s 5) (.s 6) (.s 4)) ∧
  decodeInstr 0x6100 [0x0003, 0xFFFF] = .ok (.brT2I 0xFFFF 3) ∧
  decodeInstr 0x7703 [0x0A18, 0x0092] = .ok (.vadd (.v 3) (.v 5) (.v 6) .f32 false 2) ∧
  decodeInstr 0xC280 [0x0814] = .ok (.mfree (.s 4) (.s 5)) ∧
  decodeInstr 0xD107 [0x1000, 0x9830] = .ok (.ldT2 (.s 7) (.s 8) none 0 (some .i64) .l .dflt) ∧
  decodeInstr 0xE300 [0x0C10, 0x0A00] = .ok (.cntAdd none (.s 6) (.s 4) (.s 5)) ∧
  decodeInstr 0xF100 [0x0814, 0x0060] = .ok (.send (.s 4) (.s 5) 3 0) ∧
  decodeInstr 0xFA81 [0x0800] = .ok (.tinj (.s 4)) ∧
  decodeInstr 0xFC83 [0x0804] = .ok (.srd (.s 4) .core) ∧
  decodeInstr 0xF280 [0x0000] = .error .form ∧
  decodeInstr 0x0000 [] = .error .opcode ∧
  decodeInstr 0xFE00 [] = .error .opcode ∧
  decodeInstr 0x02C8 [0x9D8C] = .error .operand ∧
  decodeInstr 0xF204 [] = .error .function

/-- While no fence and no kill is due, which come first (R386): when the schedule lists an issue of a context that runs, or has started in an
earlier cycle, has no fault and no timer due and has not issued in this clock, and the line at its PC is valid and holds at the index of the PC a head and a tail that decode to instruction i,
whose issue slot is free and whose registers no outstanding load is to write, the step is exec of i on context w: nothing has changed
before it but the fetch buffer and the translation of the line, the next PC of the contexts of the firing, which is the next index of the
line or index 0 of the next line, their phase, and the list of the contexts that have tried to issue; and after it the slots of its class
are taken, unless the instruction only waits. A line that is not valid takes fault 4, an index at or beyond its count fault 5, and a head
that decodes to nothing fault 3, in that order. A listed event is exec of the event on the item that the schedule names, a listed tick
passes one clock, and a listed packet of the management path goes to Patrol. While a fence is due only a fence happens, and else while a
kill is due only its beginning (R26, R36 to R38, R57, R257, R386; the schedule is the model's, log entry 1; that an instruction that only
waits uses its try and not its slot is log entry 38, and that a gang takes the slot on all four cores log entry 59). -/
def Obligations.StepRunsTheDecodedInstruction : Prop :=
  (∀ (s s1 : State) (w : Nat) (r : List Turn) (bs : List Byte), s.agenda = .issue w :: r →
    let v : State := { s with agenda := r }
    let c := s.ctx w
    let pc := c.pc.toNat
    let k := s.core (w / 4)
    (∀ x ∈ s.ctxs, s.fenceDue x.1 = false ∧ s.killDue x.1 = false) →
    c.phase = .running ∨ (c.phase = .starting ∧ c.cycles ≠ 0) → c.kind ≠ .none → c.gidx = 0 → k.issued.contains (w % 4) = false →
    s.yieldDue w = false → s.killDue w = false → s.faultDue w = false ∨ c.pub = true → v.fetchLine w (pc / 64 * 64) = .ok (s1, bs) →
    let slots := slotsOf bs
    let x := lineInstr slots (pc % 64)
    (lineValid slots = false → step s = .next (v.fault w { code := 4, cls := 1, detail := nth slots 0, va := c.pc })) ∧
    (lineValid slots = true → lineCount slots ≤ pc % 64 → step s = .next (v.fault w { code := 5, cls := 1, va := c.pc })) ∧
    (lineValid slots = true → pc % 64 < lineCount slots → ∀ e, decodeInstr x.1 x.2 = .error e →
      step s = .next (v.fault w { code := 3, cls := 1, detail := x.1, va := c.pc })) ∧
    (lineValid slots = true → pc % 64 < lineCount slots → ∀ i, decodeInstr x.1 x.2 = .ok i →
      (∀ m ∈ s1.members w, (if classB x.1 then (s1.core (m / 4)).usedB else (s1.core (m / 4)).usedA) = false) →
      (∀ m ∈ s1.members w, s1.stOut m ≤ 255 ∧ ∀ l ∈ (s1.ctx m).loads, ∀ n ∈ l.dst.regs, n ∉ regsOf i) →
      ∃ u : State, u = { s1 with ctxs := u.ctxs, cores := u.cores, cur := w } ∧
        (∀ m, u.ctx m = if m ∈ s1.members w then
          let npc := if pc % 64 + 1 < lineCount slots then pc + 1 else pc / 64 * 64 + 64
          { s1.ctx m with npc := BitVec.ofNat 64 npc, phase := .running } else s1.ctx m) ∧
        (∀ g, g ≠ w / 4 → u.core g = s1.core g) ∧
        u.core (w / 4) = { s1.core (w / 4) with issued := w % 4 :: (s1.core (w / 4)).issued } ∧
        (∀ t, exec i u = .next t →
          let d := t.ctx w
          let b := u.ctx w
          if d.phase = b.phase ∧ d.fid = b.fid ∧ d.icnt = b.icnt ∧ d.kind = b.kind then step s = .next t
          else step s = .next (t.took (classB x.1) (u.members w))) ∧
        ∀ o, exec i u = o → (∀ t, o ≠ .next t) → step s = o)) ∧
  (∀ (s t : State) (w : Nat) (r : List Turn), s.agenda = .issue w :: r → (∀ x ∈ s.ctxs, s.fenceDue x.1 = false ∧ s.killDue x.1 = false) →
    (s.ctx w).phase = .running → (s.ctx w).kind ≠ .none →
    (s.ctx w).gidx = 0 → (s.core (w / 4)).issued.contains (w % 4) = false → s.yieldDue w = false → s.killDue w = false →
    s.faultDue w = false → ({ s with agenda := r } : State).fetchLine w ((s.ctx w).pc.toNat / 64 * 64) = .error (.wait t) →
    step s = .next t) ∧
  (∀ (s : State) (e : Instr) (n : Nat) (r : List Turn), s.agenda = .event e n :: r →
    (∀ x ∈ s.ctxs, s.fenceDue x.1 = false ∧ s.killDue x.1 = false) ∨ (e = .fenceTimer ∧ s.fenceDue n = true) ∨
      ((∀ x ∈ s.ctxs, s.fenceDue x.1 = false) ∧ e = .killTimer ∧ s.killDue n = true) →
    step s = exec e { s with agenda := r, sel := n }) ∧
  (∀ (s : State) (a : Turn) (r : List Turn), s.agenda = a :: r →
    ((∃ x ∈ s.ctxs, s.fenceDue x.1 = true) → (∀ n, a ≠ .event .fenceTimer n) → step s = .fault .notEnabled) ∧
    ((∃ x ∈ s.ctxs, s.killDue x.1 = true) → (∀ n, a ≠ .event .fenceTimer n ∧ a ≠ .event .killTimer n) → step s = .fault .notEnabled)) ∧
  (∀ (s : State) (m : Nat) (p : Pkt) (r : List Turn), s.agenda = .manage m p :: r →
    (∀ x ∈ s.ctxs, s.fenceDue x.1 = false ∧ s.killDue x.1 = false) → step s = .next (({ s with agenda := r } : State).manage m p)) ∧
  (∀ (s : State) (r : List Turn), s.agenda = .tick :: r → (∀ x ∈ s.ctxs, s.fenceDue x.1 = false ∧ s.killDue x.1 = false) → ∃ t, step s = .next t ∧ t.now = s.now + 1 ∧ t.mem = s.mem ∧
    t = { s with agenda := r, now := s.now + 1, cores := t.cores, ctxs := t.ctxs, clus := t.clus } ∧
    (∀ w, (s.ctx w).kind = .none ∨ (s.ctx w).phase = .parked → t.ctx w = { s.ctx w with roomAt := (s.ctx w).room }) ∧
    (∀ w, (s.ctx w).kind ≠ .none → (s.ctx w).phase ≠ .parked →
      t.ctx w = { s.ctx w with cycles := (s.ctx w).cycles + 1, roomAt := (s.ctx w).room }) ∧
    ∀ g, (t.core g).issued = [] ∧ (t.core g).usedA = false ∧ (t.core g).usedB = false)

/-- Every step keeps memory in its canonical form: the listed addresses strictly rise and no listed byte is 0, which is what a byte that
is not listed reads as; so equal memories are equal data (R172). -/
def Obligations.StepKeepsMemoryCanonical : Prop :=
  ∀ s t : State, s.Ok → step s = .next t → t.Ok

/-- After reset memory is in its canonical form and every byte reads 0, no context runs, no unit is owned, nothing is in flight, every
cell tag is plain, and module 0 is present and not booted; the spec's own reset values hold: budgets, bank formats, the bank floor and
the lift quotas. That module 0 alone is present is the model's choice (DESIGN CHOICE, log entry 5), and the 0 of registers without a reset value is too
(DESIGN CHOICE, log entry 2); that memory reads 0 before the boot scrub as after it is its inference (DEDUCED, log entry 56)
(R78, R80, R172, R299, R331, R343). -/
def Obligations.ResetState : Prop :=
  let s := State.reset
  s.Ok ∧ s.mem = [] ∧ (∀ pa, s.rdByte pa = 0 ∧ (s.cellTag pa).1 = 0 ∧ s.poisoned pa = false) ∧ s.present = [0] ∧
  (∀ m, (s.mod m).booted = false ∧ (s.mod m).recovery = false ∧ ∀ p, (s.partEntry m p).valid = false) ∧ (∀ g, s.ownerOf g = 0xFF) ∧
  (∀ w, (s.ctx w).phase = .free ∧ (s.ctx w).kind = .none ∧ (s.ctx w).fcsr = 0 ∧ (s.ctx w).log = [] ∧ (s.ctx w).loads = [] ∧
    (∀ k, (s.ctx w).sreg k = 0 ∧ (s.ctx w).vreg k = 0) ∧ (∀ b, (s.ctx w).breg b = 0) ∧ ∀ m, (s.ctx w).mask m = if m = 0 then BitVec.allOnes 64 else 0) ∧
  (∀ g, (s.core g).sctl = 0 ∧ (s.core g).sbfloor = 14 ∧ (∀ k, FMap.get budReset (s.core g).bud k = budReset) ∧
    (∀ k, FMap.get 0x1F (s.core g).bfmt k = 0x1F) ∧ (s.core g).sat = [] ∧ (s.core g).tlb = [] ∧ (s.core g).deque = []) ∧
  (∀ c p, FMap.get 2 (s.clu c).quota p = 2 ∧ (s.clu c).holder = none ∧ (s.clu c).lift = [] ∧ (s.clu c).inbox = []) ∧
  s.wq = [] ∧ s.net = [] ∧ s.results = [] ∧ s.engines = [] ∧ s.agenda = []
end

