-- ==== Sys2Proof/Laws/Codec.lean ====
section
/-! SUPPORT. Every code of an operand or a modifier reads back as what it was made from, and stays in its field; the fields of a head
and its tail read back as they were put in. -/

namespace Sys2Proof

/-! ### Codes and their bounds -/

@[simp] theorem srcOf_code (a : Src) : srcOf a.code = some a := by
  cases a with
  | s n => revert n; decide
  | o n => revert n; decide
  | z n => revert n; decide
  | imm v => revert v; decide

theorem Src.code_lt (a : Src) : a.code < 128 := by
  cases a <;> simp only [Src.code] <;> omega

theorem Src.code_ne_none (a : Src) : a.code ≠ 76 := by
  cases a with
  | s n => simp only [Src.code]; omega
  | o n => simp only [Src.code]; omega
  | z n => simp only [Src.code]; omega
  | imm v => simp only [Src.code]; omega

@[simp] theorem dstOf_code (d : Dst) : dstOf d.code = some d := by
  cases d with
  | s n => revert n; decide
  | o n => revert n; decide
  | z0 => rfl
  | discard => rfl

theorem Dst.code_lt (d : Dst) : d.code < 128 := by
  cases d <;> simp only [Dst.code] <;> omega

@[simp] theorem vsrcOf_code (a : VSrc) : vsrcOf a.code = some a := by
  cases a with
  | v n => revert n; decide
  | p n => revert n; decide
  | y n => revert n; decide
  | bc n => revert n; decide

theorem VSrc.code_lt (a : VSrc) : a.code < 128 := by
  cases a <;> simp only [VSrc.code] <;> omega

@[simp] theorem vdstOf_code (d : VDst) : vdstOf d.code = some d := by
  cases d with
  | v n => revert n; decide
  | p n => revert n; decide
  | y0 => rfl

theorem VDst.code_lt (d : VDst) : d.code < 128 := by
  cases d <;> simp only [VDst.code] <;> omega

@[simp] theorem tyOf_code (t : Ty) : tyOf t.code = some t := by cases t <;> rfl
theorem Ty.code_lt (t : Ty) : t.code < 21 := by cases t <;> decide
@[simp] theorem ftyOf_code (t : FTy) : ftyOf t.code = some t := by cases t <;> rfl
theorem FTy.code_lt (t : FTy) : t.code < 4 := by cases t <;> decide
@[simp] theorem rawTyOf_code (t : Option Ty) : rawTyOf (rawCode t) = some t := by
  cases t with
  | none => rfl
  | some t => cases t <;> rfl
theorem rawCode_lt (t : Option Ty) : rawCode t < 32 := by
  cases t with
  | none => decide
  | some t => cases t <;> decide
@[simp] theorem mspaceOf_code (x : MSpace) : mspaceOf x.code = some x := by cases x <;> rfl
theorem MSpace.code_lt (x : MSpace) : x.code < 3 := by cases x <;> decide
@[simp] theorem espaceOf_code (e : ESpace) : espaceOf e.code = some e := by cases e <;> rfl
theorem ESpace.code_lt (e : ESpace) : e.code < 4 := by cases e <;> decide
@[simp] theorem scopeOf_code (x : Scope) : scopeOf x.code = some x := by cases x <;> rfl
theorem Scope.code_lt (x : Scope) : x.code < 5 := by cases x <;> decide
@[simp] theorem cscopeOf_code (x : CScope) : cscopeOf x.code = some x := by cases x <;> rfl
theorem CScope.code_lt (x : CScope) : x.code < 5 := by cases x <;> decide
@[simp] theorem ownScopeOf_code (x : Option CScope) : ownScopeOf (ownScopeCode x) = some x := by
  cases x with
  | none => rfl
  | some x => cases x <;> rfl
theorem ownScopeCode_lt (x : Option CScope) : ownScopeCode x < 5 := by
  cases x with
  | none => decide
  | some x => cases x <;> decide
@[simp] theorem policyOf_code (x : Policy) : policyOf x.code = some x := by cases x <;> rfl
theorem Policy.code_lt (x : Policy) : x.code < 4 := by cases x <;> decide
@[simp] theorem icondOf_code (x : ICond) : icondOf x.code = some x := by cases x <;> rfl
theorem ICond.code_lt (x : ICond) : x.code < 12 := by cases x <;> decide
@[simp] theorem fcondOf_code (x : FCond) : fcondOf x.code = some x := by cases x <;> rfl
theorem FCond.code_lt (x : FCond) : x.code < 8 := by cases x <;> decide
@[simp] theorem rmOf_code (x : RM) : rmOf x.code = some x := by cases x <;> rfl
theorem RM.code_lt (x : RM) : x.code < 5 := by cases x <;> decide
@[simp] theorem actOf_code (x : Act) : actOf x.code = some x := by cases x <;> rfl
theorem Act.code_lt (x : Act) : x.code < 4 := by cases x <;> decide
@[simp] theorem mkindOf_code (x : MKind) : mkindOf x.code = some x := by cases x <;> rfl
theorem MKind.code_lt (x : MKind) : x.code < 3 := by cases x <;> decide
@[simp] theorem ttyOf_code (x : TTy) : ttyOf x.code = some x := by cases x <;> rfl
theorem TTy.code_lt (x : TTy) : x.code < 10 := by cases x <;> decide
@[simp] theorem amoOpOf_code (x : AmoOp) : amoOpOf x.code = some x := by cases x <;> rfl
theorem AmoOp.code_lt (x : AmoOp) : x.code < 7 := by cases x <;> decide
@[simp] theorem amoTyOf_code (x : AmoTy) : amoTyOf x.code = some x := by cases x <;> rfl
theorem AmoTy.code_lt (x : AmoTy) : x.code < 4 := by cases x <;> decide
@[simp] theorem rstSizeOf_code (x : RstSize) : rstSizeOf x.code = some x := by cases x <;> rfl
theorem RstSize.code_lt (x : RstSize) : x.code < 4 := by cases x <;> decide
@[simp] theorem fenceKindOf_code (x : FenceKind) : fenceKindOf x.code = some x := by cases x <;> rfl
theorem FenceKind.code_lt (x : FenceKind) : x.code < 3 := by cases x <;> decide
@[simp] theorem pathOf_code (x : Path) : pathOf x.code = some x := by cases x <;> rfl
theorem Path.code_lt (x : Path) : x.code < 7 := by cases x <;> decide
@[simp] theorem cellKindOf_code (x : CellKind) : cellKindOf x.code = some x := by cases x <;> rfl
theorem CellKind.code_lt (x : CellKind) : x.code < 6 := by cases x <;> decide
@[simp] theorem cntCondOf_code (x : CntCond) : cntCondOf x.code = some x := by cases x <;> rfl
theorem CntCond.code_lt (x : CntCond) : x.code < 3 := by cases x <;> decide
@[simp] theorem peekOf_code (x : Peek) : peekOf x.code = some x := by cases x <;> rfl
theorem Peek.code_lt (x : Peek) : x.code < 4 := by cases x <;> decide
@[simp] theorem teamScopeOf_code (x : TeamScope) : teamScopeOf x.code = some x := by cases x <;> rfl
theorem TeamScope.code_lt (x : TeamScope) : x.code < 5 := by cases x <;> decide

@[simp] theorem wmodeOf_code (x : WMode) : wmodeOf x.code = some x := by
  cases x with
  | park => rfl
  | try_ => rfl
  | msg mb => revert mb; decide
theorem WMode.code_lt (x : WMode) : x.code < 64 := by
  cases x <;> simp only [WMode.code] <;> omega

@[simp] theorem sprOf_code (x : Spr) : sprOf x.code = some x := by
  cases x with
  | bfmt k => revert k; decide
  | bud k => revert k; decide
  | _ => rfl
theorem Spr.code_lt (x : Spr) : x.code < 76 := by
  cases x <;> simp only [Spr.code] <;> omega

@[simp] theorem copyActOf_code (x : CopyAct) : copyActOf x.kind x.reg = some x := by
  cases x with
  | none => rfl
  | qpub n => revert n; decide
  | cntadd n => revert n; decide
  | bytes n => revert n; decide
theorem CopyAct.kind_lt (x : CopyAct) : x.kind < 4 := by cases x <;> simp [CopyAct.kind]
theorem CopyAct.reg_lt (x : CopyAct) : x.reg < 64 := by
  cases x <;> simp only [CopyAct.reg] <;> omega

theorem indexCode_lt (c : Option Src) : indexCode c < 128 := by
  cases c with
  | none => decide
  | some a => exact a.code_lt
@[simp] theorem index_code (c : Option Src) : index (indexCode c) = .ok c := by
  cases c with
  | none => rfl
  | some a => simp [index, indexCode, Src.code_ne_none a, src, given, Except.map]

/-! ### Readers on codes -/

@[simp] theorem src_code (a : Src) : src a.code = .ok a := by simp [src, given]
@[simp] theorem dst_code (d : Dst) : dst d.code = .ok d := by simp [dst, given]
@[simp] theorem vsrc_code (a : VSrc) : vsrc a.code = .ok a := by simp [vsrc, given]
@[simp] theorem vdst_code (d : VDst) : vdst d.code = .ok d := by simp [vdst, given]
@[simp] theorem ty_code (t : Ty) : ty t.code = .ok t := by simp [ty, given]
@[simp] theorem mreg_val (m : MReg) : mreg m.val = .ok m := by revert m; decide
@[simp] theorem pair_val (n : SPair) : pair (2 * n.val) = .ok n := by revert n; decide
@[simp] theorem need_true (r : Reject) : need true r = .ok () := rfl
@[simp] theorem zero_zero : zero 0 = .ok () := rfl
@[simp] theorem given_some {α : Type} (r : Reject) (x : α) : given r (some x) = .ok x := rfl

/-! ### Fields of an encoded instruction -/

@[simp] theorem fieldsOf_enc0 (op d : Nat) (ho : op < 128) (hd : d < 128) :
    fieldsOf (headOf op 0 d) [] = ⟨op, 0, d, 0, 0, 0, 0⟩ := by
  simp only [fieldsOf, headOf, nth, Fields.mk.injEq]; simp; omega

theorem fieldsOf_enc1 (op d x : Nat) (ho : op < 128) (hd : d < 128) :
    fieldsOf (headOf op 1 d) [x] = ⟨op, 1, d, x, 0, 0, 0⟩ := by
  simp only [fieldsOf, headOf, nth, Fields.mk.injEq]; simp; omega

theorem fieldsOf_enc2 (op d x y : Nat) (ho : op < 128) (hd : d < 128) :
    fieldsOf (headOf op 2 d) [x, y] = ⟨op, 2, d, x, y, 0, 0⟩ := by
  simp only [fieldsOf, headOf, nth, Fields.mk.injEq]; simp; omega

theorem fieldsOf_enc4 (op d x y z w : Nat) (ho : op < 128) (hd : d < 128) :
    fieldsOf (headOf op 3 d) [x, y, z, w] = ⟨op, 3, d, x, y, z, w⟩ := by
  simp only [fieldsOf, headOf, nth, Fields.mk.injEq]; simp; omega

theorem tailLen_head0 (op d : Nat) (hd : d < 128) : tailLen (headOf op 0 d) = 0 := by
  have h : headOf op 0 d / 128 % 4 = 0 := by simp only [headOf]; omega
  simp only [tailLen, h]
theorem tailLen_head1 (op d : Nat) (hd : d < 128) : tailLen (headOf op 1 d) = 1 := by
  have h : headOf op 1 d / 128 % 4 = 1 := by simp only [headOf]; omega
  simp only [tailLen, h]
theorem tailLen_head2 (op d : Nat) (hd : d < 128) : tailLen (headOf op 2 d) = 2 := by
  have h : headOf op 2 d / 128 % 4 = 2 := by simp only [headOf]; omega
  simp only [tailLen, h]
theorem tailLen_head3 (op d : Nat) (hd : d < 128) : tailLen (headOf op 3 d) = 4 := by
  have h : headOf op 3 d / 128 % 4 = 3 := by simp only [headOf]; omega
  simp only [tailLen, h]

/-- Fields a, b and f2 of hw0 (R43). -/
theorem hw0_fields (a b f2 : Nat) (ha : a < 128) (hb : b < 128) (hf : f2 < 4) :
    (a * 512 + b * 4 + f2) / 512 % 128 = a ∧ (a * 512 + b * 4 + f2) / 4 % 128 = b ∧ (a * 512 + b * 4 + f2) % 4 = f2 := by
  omega

/-- Fields c and f9 of hw1, and a and f9 of hw0 in T2I (R43). -/
theorem hw1_fields (c f9 : Nat) (hc : c < 128) (hf : f9 < 512) :
    (c * 512 + f9) / 512 % 128 = c ∧ (c * 512 + f9) % 512 = f9 := by
  omega

/-- The 32-bit immediate of T4 (R43). -/
theorem imm32_fields (v : Nat) (h : v < 2 ^ 32) : v % 65536 % 65536 + 65536 * (v / 65536 % 65536) = v := by omega

end Sys2Proof
end

