-- ==== Sys2Proof/Laws/Maps.lean ====
section
/-! SUPPORT. Reading a sparse table after a write, and the canonical form of tables of values. -/

namespace Sys2Proof

variable {α : Type}

/-- Insertion reads like the table it goes into, but at its key. -/
theorem FMap.get_insert (d : α) (m : FMap α) (i : Nat) (x : α) (h : FMap.find m i = none) (j : Nat) :
    FMap.get d (FMap.insert m i x) j = if j = i then x else FMap.get d m j := by
  induction m with
  | nil => simp [FMap.insert, FMap.get]
  | cons p m ih =>
    obtain ⟨k, v⟩ := p
    have hk : i ≠ k := by rintro rfl; simp [FMap.find] at h
    simp only [FMap.find, hk, if_false] at h
    simp only [FMap.insert]
    split
    · simp [FMap.get]
    · simp only [FMap.get, ih h]
      by_cases hj : j = k
      · subst hj; simp [Ne.symm hk]
      · simp [hj]

theorem FMap.find_insert (m : FMap α) (i : Nat) (x : α) (h : FMap.find m i = none) (j : Nat) :
    FMap.find (FMap.insert m i x) j = if j = i then some x else FMap.find m j := by
  induction m with
  | nil => simp [FMap.insert, FMap.find]
  | cons p m ih =>
    obtain ⟨k, v⟩ := p
    have hk : i ≠ k := by rintro rfl; simp [FMap.find] at h
    simp only [FMap.find, hk, if_false] at h
    simp only [FMap.insert]
    split
    · simp [FMap.find]
    · simp only [FMap.find, ih h]
      by_cases hj : j = k
      · subst hj; simp [Ne.symm hk]
      · simp [hj]

/-- An erased key reads as unlisted; the others are as before. -/
@[simp] theorem FMap.find_erase (m : FMap α) (i j : Nat) :
    FMap.find (FMap.erase m i) j = if j = i then none else FMap.find m j := by
  induction m with
  | nil => simp [FMap.erase, FMap.find]
  | cons p m ih =>
    obtain ⟨k, v⟩ := p
    simp only [FMap.erase]
    split
    · next h => subst h; simp only [ih, FMap.find]; split <;> simp_all
    · next h =>
      simp only [FMap.find, ih]
      by_cases hj : j = k
      · subst hj; simp [Ne.symm h]
      · simp [hj]

@[simp] theorem FMap.get_erase (d : α) (m : FMap α) (i j : Nat) :
    FMap.get d (FMap.erase m i) j = if j = i then d else FMap.get d m j := by
  induction m with
  | nil => simp [FMap.erase, FMap.get]
  | cons p m ih =>
    obtain ⟨k, v⟩ := p
    simp only [FMap.erase]
    split
    · next h => subst h; simp only [ih, FMap.get]; split <;> simp_all
    · next h =>
      simp only [FMap.get, ih]
      by_cases hj : j = k
      · subst hj; simp [Ne.symm h]
      · simp [hj]

/-- Reading a record after a write. -/
@[simp] theorem FMap.get_set (d : α) (m : FMap α) (i : Nat) (x : α) (j : Nat) :
    FMap.get d (FMap.set m i x) j = if j = i then x else FMap.get d m j := by
  rw [FMap.set, FMap.get_insert _ _ _ _ (by simp)]; by_cases h : j = i <;> simp [h]

@[simp] theorem FMap.find_set (m : FMap α) (i : Nat) (x : α) (j : Nat) :
    FMap.find (FMap.set m i x) j = if j = i then some x else FMap.find m j := by
  rw [FMap.set, FMap.find_insert _ _ _ (by simp)]; by_cases h : j = i <;> simp [h]

/-- Reading a value after a write, the default included. -/
@[simp] theorem FMap.get_put [DecidableEq α] (d : α) (m : FMap α) (i : Nat) (x : α) (j : Nat) :
    FMap.get d (FMap.put d m i x) j = if j = i then x else FMap.get d m j := by
  unfold FMap.put
  split
  · next h => subst h; simp
  · rw [FMap.get_insert _ _ _ _ (by simp)]; by_cases h : j = i <;> simp [h]

/-- What a table gives where it lists a key, and where it does not. -/
theorem FMap.get_eq_find (d : α) (m : FMap α) (i : Nat) : FMap.get d m i = (FMap.find m i).getD d := by
  induction m with
  | nil => rfl
  | cons p m ih => obtain ⟨k, v⟩ := p; simp only [FMap.get, FMap.find]; split <;> simp_all

@[simp] theorem FMap.find_mapVal (f : Nat → α → α) (m : FMap α) (i : Nat) :
    FMap.find (FMap.mapVal f m) i = (FMap.find m i).map (f i) := by
  induction m with
  | nil => rfl
  | cons p m ih =>
    obtain ⟨k, v⟩ := p
    simp only [FMap.mapVal, List.map_cons, FMap.find]
    split
    · next h => subst h; rfl
    · exact ih

/-- Reading after a function is applied to every listed record, when it fixes the default. -/
theorem FMap.get_mapVal (d : α) (f : Nat → α → α) (m : FMap α) (i : Nat) (h : f i d = d) :
    FMap.get d (FMap.mapVal f m) i = f i (FMap.get d m i) := by
  rw [FMap.get_eq_find, FMap.get_eq_find, FMap.find_mapVal]; cases FMap.find m i <;> simp [h]

/-! ### The canonical form -/

/-- Every key of a table is above a bound. -/
def FMap.above (n : Nat) (m : FMap α) : Prop := ∀ p ∈ m, n < p.1

theorem FMap.sorted_cons (p : Nat × α) (m : FMap α) :
    FMap.sorted (p :: m) = true ↔ FMap.above p.1 m ∧ FMap.sorted m = true := by
  obtain ⟨k, v⟩ := p
  induction m generalizing k v with
  | nil => simp [FMap.sorted, FMap.above]
  | cons q m ih =>
    obtain ⟨l, w⟩ := q
    simp only [FMap.sorted, Bool.and_eq_true, decide_eq_true_eq]
    constructor
    · rintro ⟨h, hs⟩
      refine ⟨?_, hs⟩
      have := (ih l w).1 hs
      intro p hp
      rcases List.mem_cons.1 hp with rfl | hp
      · exact h
      · exact lt_trans h (this.1 p hp)
    · rintro ⟨h, hs⟩
      exact ⟨h (l, w) (by simp), hs⟩

theorem FMap.mem_erase (m : FMap α) (i : Nat) (p : Nat × α) : p ∈ FMap.erase m i ↔ p ∈ m ∧ p.1 ≠ i := by
  induction m with
  | nil => simp [FMap.erase]
  | cons q m ih =>
    obtain ⟨k, v⟩ := q
    simp only [FMap.erase]
    split
    · next h => subst h; rw [ih]; simp only [List.mem_cons]; constructor
                · rintro ⟨a, b⟩; exact ⟨Or.inr a, b⟩
                · rintro ⟨rfl | a, b⟩
                  · exact absurd rfl b
                  · exact ⟨a, b⟩
    · next h => simp only [List.mem_cons, ih]; constructor
                · rintro (rfl | ⟨a, b⟩)
                  · exact ⟨Or.inl rfl, Ne.symm h⟩
                  · exact ⟨Or.inr a, b⟩
                · rintro ⟨rfl | a, b⟩
                  · exact Or.inl rfl
                  · exact Or.inr ⟨a, b⟩

theorem FMap.mem_insert (m : FMap α) (i : Nat) (x : α) (p : Nat × α) :
    p ∈ FMap.insert m i x ↔ p = (i, x) ∨ p ∈ m := by
  induction m with
  | nil => simp [FMap.insert]
  | cons q m ih =>
    obtain ⟨k, v⟩ := q
    simp only [FMap.insert]
    split
    · simp
    · simp only [List.mem_cons, ih]; tauto

theorem FMap.sorted_erase (m : FMap α) (i : Nat) (h : FMap.sorted m = true) : FMap.sorted (FMap.erase m i) = true := by
  induction m with
  | nil => rfl
  | cons p m ih =>
    rw [FMap.sorted_cons] at h
    obtain ⟨k, v⟩ := p
    simp only [FMap.erase]
    split
    · exact ih h.2
    · rw [FMap.sorted_cons]; exact ⟨fun q hq => h.1 q ((FMap.mem_erase _ _ _).1 hq).1, ih h.2⟩

theorem FMap.sorted_insert (m : FMap α) (i : Nat) (x : α) (h : FMap.sorted m = true) (hi : ∀ p ∈ m, p.1 ≠ i) :
    FMap.sorted (FMap.insert m i x) = true := by
  induction m with
  | nil => rfl
  | cons p m ih =>
    obtain ⟨k, v⟩ := p
    have hs := (FMap.sorted_cons _ _).1 h
    simp only [FMap.insert]
    split
    · next hlt =>
      rw [FMap.sorted_cons]
      refine ⟨fun q hq => ?_, h⟩
      rcases List.mem_cons.1 hq with rfl | hq
      · exact hlt
      · exact lt_trans hlt (hs.1 q hq)
    · next hlt =>
      rw [FMap.sorted_cons]
      refine ⟨fun q hq => ?_, ih hs.2 fun q hq => hi q (by simp [hq])⟩
      rcases (FMap.mem_insert _ _ _ _).1 hq with rfl | hq
      · have := hi (k, v) (by simp); simp only at this hlt ⊢; omega
      · exact hs.1 q hq

theorem FMap.sorted_set (m : FMap α) (i : Nat) (x : α) (h : FMap.sorted m = true) : FMap.sorted (FMap.set m i x) = true :=
  FMap.sorted_insert _ _ _ (FMap.sorted_erase _ _ h) fun _ hp => ((FMap.mem_erase _ _ _).1 hp).2

theorem FMap.canon_iff [DecidableEq α] (d : α) (m : FMap α) :
    FMap.canon d m = true ↔ FMap.sorted m = true ∧ ∀ p ∈ m, p.2 ≠ d := by
  simp [FMap.canon, List.all_eq_true]

/-- A write keeps the canonical form. -/
theorem FMap.canon_put [DecidableEq α] (d : α) (m : FMap α) (i : Nat) (x : α) (h : FMap.canon d m = true) :
    FMap.canon d (FMap.put d m i x) = true := by
  rw [FMap.canon_iff] at h ⊢
  unfold FMap.put
  split
  · exact ⟨FMap.sorted_erase _ _ h.1, fun p hp => h.2 p ((FMap.mem_erase _ _ _).1 hp).1⟩
  · next hx =>
    refine ⟨FMap.sorted_set _ _ _ h.1, fun p hp => ?_⟩
    rcases (FMap.mem_insert _ _ _ _).1 hp with rfl | hp
    · exact hx
    · exact h.2 p ((FMap.mem_erase _ _ _).1 hp).1

end Sys2Proof
end

