-- ==== Sys2Proof/Laws/State.lean ====
section
/-! SUPPORT. One lemma per field per update of the state, so that no proof unfolds a record update. -/

namespace Sys2Proof.Machine

/-! ### Updates of the table `ctxs` -/

@[simp] theorem State.setCtx_mem (s : State) (w : Nat) (x : Ctx) : (s.setCtx w x).mem = s.mem := rfl
@[simp] theorem State.onCtx_mem (s : State) (w : Nat) (f : Ctx → Ctx) : (s.onCtx w f).mem = s.mem := rfl
@[simp] theorem State.setCtx_poison (s : State) (w : Nat) (x : Ctx) : (s.setCtx w x).poison = s.poison := rfl
@[simp] theorem State.onCtx_poison (s : State) (w : Nat) (f : Ctx → Ctx) : (s.onCtx w f).poison = s.poison := rfl
@[simp] theorem State.setCtx_badWords (s : State) (w : Nat) (x : Ctx) : (s.setCtx w x).badWords = s.badWords := rfl
@[simp] theorem State.onCtx_badWords (s : State) (w : Nat) (f : Ctx → Ctx) : (s.onCtx w f).badWords = s.badWords := rfl
@[simp] theorem State.setCtx_tags (s : State) (w : Nat) (x : Ctx) : (s.setCtx w x).tags = s.tags := rfl
@[simp] theorem State.onCtx_tags (s : State) (w : Nat) (f : Ctx → Ctx) : (s.onCtx w f).tags = s.tags := rfl
@[simp] theorem State.setCtx_ahead (s : State) (w : Nat) (x : Ctx) : (s.setCtx w x).ahead = s.ahead := rfl
@[simp] theorem State.onCtx_ahead (s : State) (w : Nat) (f : Ctx → Ctx) : (s.onCtx w f).ahead = s.ahead := rfl
@[simp] theorem State.setCtx_cores (s : State) (w : Nat) (x : Ctx) : (s.setCtx w x).cores = s.cores := rfl
@[simp] theorem State.onCtx_cores (s : State) (w : Nat) (f : Ctx → Ctx) : (s.onCtx w f).cores = s.cores := rfl
@[simp] theorem State.setCtx_clus (s : State) (w : Nat) (x : Ctx) : (s.setCtx w x).clus = s.clus := rfl
@[simp] theorem State.onCtx_clus (s : State) (w : Nat) (f : Ctx → Ctx) : (s.onCtx w f).clus = s.clus := rfl
@[simp] theorem State.setCtx_dies (s : State) (w : Nat) (x : Ctx) : (s.setCtx w x).dies = s.dies := rfl
@[simp] theorem State.onCtx_dies (s : State) (w : Nat) (f : Ctx → Ctx) : (s.onCtx w f).dies = s.dies := rfl
@[simp] theorem State.setCtx_mods (s : State) (w : Nat) (x : Ctx) : (s.setCtx w x).mods = s.mods := rfl
@[simp] theorem State.onCtx_mods (s : State) (w : Nat) (f : Ctx → Ctx) : (s.onCtx w f).mods = s.mods := rfl
@[simp] theorem State.setCtx_ovf (s : State) (w : Nat) (x : Ctx) : (s.setCtx w x).ovf = s.ovf := rfl
@[simp] theorem State.onCtx_ovf (s : State) (w : Nat) (f : Ctx → Ctx) : (s.onCtx w f).ovf = s.ovf := rfl
@[simp] theorem State.setCtx_present (s : State) (w : Nat) (x : Ctx) : (s.setCtx w x).present = s.present := rfl
@[simp] theorem State.onCtx_present (s : State) (w : Nat) (f : Ctx → Ctx) : (s.onCtx w f).present = s.present := rfl
@[simp] theorem State.setCtx_wq (s : State) (w : Nat) (x : Ctx) : (s.setCtx w x).wq = s.wq := rfl
@[simp] theorem State.onCtx_wq (s : State) (w : Nat) (f : Ctx → Ctx) : (s.onCtx w f).wq = s.wq := rfl
@[simp] theorem State.setCtx_net (s : State) (w : Nat) (x : Ctx) : (s.setCtx w x).net = s.net := rfl
@[simp] theorem State.onCtx_net (s : State) (w : Nat) (f : Ctx → Ctx) : (s.onCtx w f).net = s.net := rfl
@[simp] theorem State.setCtx_results (s : State) (w : Nat) (x : Ctx) : (s.setCtx w x).results = s.results := rfl
@[simp] theorem State.onCtx_results (s : State) (w : Nat) (f : Ctx → Ctx) : (s.onCtx w f).results = s.results := rfl
@[simp] theorem State.setCtx_engines (s : State) (w : Nat) (x : Ctx) : (s.setCtx w x).engines = s.engines := rfl
@[simp] theorem State.onCtx_engines (s : State) (w : Nat) (f : Ctx → Ctx) : (s.onCtx w f).engines = s.engines := rfl
@[simp] theorem State.setCtx_pbounce (s : State) (w : Nat) (x : Ctx) : (s.setCtx w x).pbounce = s.pbounce := rfl
@[simp] theorem State.onCtx_pbounce (s : State) (w : Nat) (f : Ctx → Ctx) : (s.onCtx w f).pbounce = s.pbounce := rfl
@[simp] theorem State.setCtx_admits (s : State) (w : Nat) (x : Ctx) : (s.setCtx w x).admits = s.admits := rfl
@[simp] theorem State.onCtx_admits (s : State) (w : Nat) (f : Ctx → Ctx) : (s.onCtx w f).admits = s.admits := rfl
@[simp] theorem State.setCtx_now (s : State) (w : Nat) (x : Ctx) : (s.setCtx w x).now = s.now := rfl
@[simp] theorem State.onCtx_now (s : State) (w : Nat) (f : Ctx → Ctx) : (s.onCtx w f).now = s.now := rfl
@[simp] theorem State.setCtx_freeCtr (s : State) (w : Nat) (x : Ctx) : (s.setCtx w x).freeCtr = s.freeCtr := rfl
@[simp] theorem State.onCtx_freeCtr (s : State) (w : Nat) (f : Ctx → Ctx) : (s.onCtx w f).freeCtr = s.freeCtr := rfl
@[simp] theorem State.setCtx_uid (s : State) (w : Nat) (x : Ctx) : (s.setCtx w x).uid = s.uid := rfl
@[simp] theorem State.onCtx_uid (s : State) (w : Nat) (f : Ctx → Ctx) : (s.onCtx w f).uid = s.uid := rfl
@[simp] theorem State.setCtx_cur (s : State) (w : Nat) (x : Ctx) : (s.setCtx w x).cur = s.cur := rfl
@[simp] theorem State.onCtx_cur (s : State) (w : Nat) (f : Ctx → Ctx) : (s.onCtx w f).cur = s.cur := rfl
@[simp] theorem State.setCtx_sel (s : State) (w : Nat) (x : Ctx) : (s.setCtx w x).sel = s.sel := rfl
@[simp] theorem State.onCtx_sel (s : State) (w : Nat) (f : Ctx → Ctx) : (s.onCtx w f).sel = s.sel := rfl
@[simp] theorem State.setCtx_agenda (s : State) (w : Nat) (x : Ctx) : (s.setCtx w x).agenda = s.agenda := rfl
@[simp] theorem State.onCtx_agenda (s : State) (w : Nat) (f : Ctx → Ctx) : (s.onCtx w f).agenda = s.agenda := rfl
@[simp] theorem State.setCtx_core (s : State) (w : Nat) (x : Ctx) (j : Nat) : (s.setCtx w x).core j = s.core j := rfl
@[simp] theorem State.onCtx_core (s : State) (w : Nat) (f : Ctx → Ctx) (j : Nat) : (s.onCtx w f).core j = s.core j := rfl
@[simp] theorem State.setCtx_clu (s : State) (w : Nat) (x : Ctx) (j : Nat) : (s.setCtx w x).clu j = s.clu j := rfl
@[simp] theorem State.onCtx_clu (s : State) (w : Nat) (f : Ctx → Ctx) (j : Nat) : (s.onCtx w f).clu j = s.clu j := rfl
@[simp] theorem State.setCtx_die (s : State) (w : Nat) (x : Ctx) (j : Nat) : (s.setCtx w x).die j = s.die j := rfl
@[simp] theorem State.onCtx_die (s : State) (w : Nat) (f : Ctx → Ctx) (j : Nat) : (s.onCtx w f).die j = s.die j := rfl
@[simp] theorem State.setCtx_mod (s : State) (w : Nat) (x : Ctx) (j : Nat) : (s.setCtx w x).mod j = s.mod j := rfl
@[simp] theorem State.onCtx_mod (s : State) (w : Nat) (f : Ctx → Ctx) (j : Nat) : (s.onCtx w f).mod j = s.mod j := rfl
@[simp] theorem State.setCtx_ctx (s : State) (w : Nat) (x : Ctx) (j : Nat) :
    (s.setCtx w x).ctx j = if j = w then x else s.ctx j := by simp [State.setCtx, State.ctx]
@[simp] theorem State.onCtx_ctx (s : State) (w : Nat) (f : Ctx → Ctx) (j : Nat) :
    (s.onCtx w f).ctx j = if j = w then f (s.ctx w) else s.ctx j := by simp [State.onCtx]

/-! ### Updates of the table `cores` -/

@[simp] theorem State.setCore_mem (s : State) (gc : Nat) (x : Core) : (s.setCore gc x).mem = s.mem := rfl
@[simp] theorem State.onCore_mem (s : State) (gc : Nat) (f : Core → Core) : (s.onCore gc f).mem = s.mem := rfl
@[simp] theorem State.setCore_poison (s : State) (gc : Nat) (x : Core) : (s.setCore gc x).poison = s.poison := rfl
@[simp] theorem State.onCore_poison (s : State) (gc : Nat) (f : Core → Core) : (s.onCore gc f).poison = s.poison := rfl
@[simp] theorem State.setCore_badWords (s : State) (gc : Nat) (x : Core) : (s.setCore gc x).badWords = s.badWords := rfl
@[simp] theorem State.onCore_badWords (s : State) (gc : Nat) (f : Core → Core) : (s.onCore gc f).badWords = s.badWords := rfl
@[simp] theorem State.setCore_tags (s : State) (gc : Nat) (x : Core) : (s.setCore gc x).tags = s.tags := rfl
@[simp] theorem State.onCore_tags (s : State) (gc : Nat) (f : Core → Core) : (s.onCore gc f).tags = s.tags := rfl
@[simp] theorem State.setCore_ahead (s : State) (gc : Nat) (x : Core) : (s.setCore gc x).ahead = s.ahead := rfl
@[simp] theorem State.onCore_ahead (s : State) (gc : Nat) (f : Core → Core) : (s.onCore gc f).ahead = s.ahead := rfl
@[simp] theorem State.setCore_ctxs (s : State) (gc : Nat) (x : Core) : (s.setCore gc x).ctxs = s.ctxs := rfl
@[simp] theorem State.onCore_ctxs (s : State) (gc : Nat) (f : Core → Core) : (s.onCore gc f).ctxs = s.ctxs := rfl
@[simp] theorem State.setCore_clus (s : State) (gc : Nat) (x : Core) : (s.setCore gc x).clus = s.clus := rfl
@[simp] theorem State.onCore_clus (s : State) (gc : Nat) (f : Core → Core) : (s.onCore gc f).clus = s.clus := rfl
@[simp] theorem State.setCore_dies (s : State) (gc : Nat) (x : Core) : (s.setCore gc x).dies = s.dies := rfl
@[simp] theorem State.onCore_dies (s : State) (gc : Nat) (f : Core → Core) : (s.onCore gc f).dies = s.dies := rfl
@[simp] theorem State.setCore_mods (s : State) (gc : Nat) (x : Core) : (s.setCore gc x).mods = s.mods := rfl
@[simp] theorem State.onCore_mods (s : State) (gc : Nat) (f : Core → Core) : (s.onCore gc f).mods = s.mods := rfl
@[simp] theorem State.setCore_ovf (s : State) (gc : Nat) (x : Core) : (s.setCore gc x).ovf = s.ovf := rfl
@[simp] theorem State.onCore_ovf (s : State) (gc : Nat) (f : Core → Core) : (s.onCore gc f).ovf = s.ovf := rfl
@[simp] theorem State.setCore_present (s : State) (gc : Nat) (x : Core) : (s.setCore gc x).present = s.present := rfl
@[simp] theorem State.onCore_present (s : State) (gc : Nat) (f : Core → Core) : (s.onCore gc f).present = s.present := rfl
@[simp] theorem State.setCore_wq (s : State) (gc : Nat) (x : Core) : (s.setCore gc x).wq = s.wq := rfl
@[simp] theorem State.onCore_wq (s : State) (gc : Nat) (f : Core → Core) : (s.onCore gc f).wq = s.wq := rfl
@[simp] theorem State.setCore_net (s : State) (gc : Nat) (x : Core) : (s.setCore gc x).net = s.net := rfl
@[simp] theorem State.onCore_net (s : State) (gc : Nat) (f : Core → Core) : (s.onCore gc f).net = s.net := rfl
@[simp] theorem State.setCore_results (s : State) (gc : Nat) (x : Core) : (s.setCore gc x).results = s.results := rfl
@[simp] theorem State.onCore_results (s : State) (gc : Nat) (f : Core → Core) : (s.onCore gc f).results = s.results := rfl
@[simp] theorem State.setCore_engines (s : State) (gc : Nat) (x : Core) : (s.setCore gc x).engines = s.engines := rfl
@[simp] theorem State.onCore_engines (s : State) (gc : Nat) (f : Core → Core) : (s.onCore gc f).engines = s.engines := rfl
@[simp] theorem State.setCore_pbounce (s : State) (gc : Nat) (x : Core) : (s.setCore gc x).pbounce = s.pbounce := rfl
@[simp] theorem State.onCore_pbounce (s : State) (gc : Nat) (f : Core → Core) : (s.onCore gc f).pbounce = s.pbounce := rfl
@[simp] theorem State.setCore_admits (s : State) (gc : Nat) (x : Core) : (s.setCore gc x).admits = s.admits := rfl
@[simp] theorem State.onCore_admits (s : State) (gc : Nat) (f : Core → Core) : (s.onCore gc f).admits = s.admits := rfl
@[simp] theorem State.setCore_now (s : State) (gc : Nat) (x : Core) : (s.setCore gc x).now = s.now := rfl
@[simp] theorem State.onCore_now (s : State) (gc : Nat) (f : Core → Core) : (s.onCore gc f).now = s.now := rfl
@[simp] theorem State.setCore_freeCtr (s : State) (gc : Nat) (x : Core) : (s.setCore gc x).freeCtr = s.freeCtr := rfl
@[simp] theorem State.onCore_freeCtr (s : State) (gc : Nat) (f : Core → Core) : (s.onCore gc f).freeCtr = s.freeCtr := rfl
@[simp] theorem State.setCore_uid (s : State) (gc : Nat) (x : Core) : (s.setCore gc x).uid = s.uid := rfl
@[simp] theorem State.onCore_uid (s : State) (gc : Nat) (f : Core → Core) : (s.onCore gc f).uid = s.uid := rfl
@[simp] theorem State.setCore_cur (s : State) (gc : Nat) (x : Core) : (s.setCore gc x).cur = s.cur := rfl
@[simp] theorem State.onCore_cur (s : State) (gc : Nat) (f : Core → Core) : (s.onCore gc f).cur = s.cur := rfl
@[simp] theorem State.setCore_sel (s : State) (gc : Nat) (x : Core) : (s.setCore gc x).sel = s.sel := rfl
@[simp] theorem State.onCore_sel (s : State) (gc : Nat) (f : Core → Core) : (s.onCore gc f).sel = s.sel := rfl
@[simp] theorem State.setCore_agenda (s : State) (gc : Nat) (x : Core) : (s.setCore gc x).agenda = s.agenda := rfl
@[simp] theorem State.onCore_agenda (s : State) (gc : Nat) (f : Core → Core) : (s.onCore gc f).agenda = s.agenda := rfl
@[simp] theorem State.setCore_ctx (s : State) (gc : Nat) (x : Core) (j : Nat) : (s.setCore gc x).ctx j = s.ctx j := rfl
@[simp] theorem State.onCore_ctx (s : State) (gc : Nat) (f : Core → Core) (j : Nat) : (s.onCore gc f).ctx j = s.ctx j := rfl
@[simp] theorem State.setCore_clu (s : State) (gc : Nat) (x : Core) (j : Nat) : (s.setCore gc x).clu j = s.clu j := rfl
@[simp] theorem State.onCore_clu (s : State) (gc : Nat) (f : Core → Core) (j : Nat) : (s.onCore gc f).clu j = s.clu j := rfl
@[simp] theorem State.setCore_die (s : State) (gc : Nat) (x : Core) (j : Nat) : (s.setCore gc x).die j = s.die j := rfl
@[simp] theorem State.onCore_die (s : State) (gc : Nat) (f : Core → Core) (j : Nat) : (s.onCore gc f).die j = s.die j := rfl
@[simp] theorem State.setCore_mod (s : State) (gc : Nat) (x : Core) (j : Nat) : (s.setCore gc x).mod j = s.mod j := rfl
@[simp] theorem State.onCore_mod (s : State) (gc : Nat) (f : Core → Core) (j : Nat) : (s.onCore gc f).mod j = s.mod j := rfl
@[simp] theorem State.setCore_core (s : State) (gc : Nat) (x : Core) (j : Nat) :
    (s.setCore gc x).core j = if j = gc then x else s.core j := by simp [State.setCore, State.core]
@[simp] theorem State.onCore_core (s : State) (gc : Nat) (f : Core → Core) (j : Nat) :
    (s.onCore gc f).core j = if j = gc then f (s.core gc) else s.core j := by simp [State.onCore]

/-! ### Updates of the table `clus` -/

@[simp] theorem State.setClu_mem (s : State) (cl : Nat) (x : Cluster) : (s.setClu cl x).mem = s.mem := rfl
@[simp] theorem State.onClu_mem (s : State) (cl : Nat) (f : Cluster → Cluster) : (s.onClu cl f).mem = s.mem := rfl
@[simp] theorem State.setClu_poison (s : State) (cl : Nat) (x : Cluster) : (s.setClu cl x).poison = s.poison := rfl
@[simp] theorem State.onClu_poison (s : State) (cl : Nat) (f : Cluster → Cluster) : (s.onClu cl f).poison = s.poison := rfl
@[simp] theorem State.setClu_badWords (s : State) (cl : Nat) (x : Cluster) : (s.setClu cl x).badWords = s.badWords := rfl
@[simp] theorem State.onClu_badWords (s : State) (cl : Nat) (f : Cluster → Cluster) : (s.onClu cl f).badWords = s.badWords := rfl
@[simp] theorem State.setClu_tags (s : State) (cl : Nat) (x : Cluster) : (s.setClu cl x).tags = s.tags := rfl
@[simp] theorem State.onClu_tags (s : State) (cl : Nat) (f : Cluster → Cluster) : (s.onClu cl f).tags = s.tags := rfl
@[simp] theorem State.setClu_ahead (s : State) (cl : Nat) (x : Cluster) : (s.setClu cl x).ahead = s.ahead := rfl
@[simp] theorem State.onClu_ahead (s : State) (cl : Nat) (f : Cluster → Cluster) : (s.onClu cl f).ahead = s.ahead := rfl
@[simp] theorem State.setClu_ctxs (s : State) (cl : Nat) (x : Cluster) : (s.setClu cl x).ctxs = s.ctxs := rfl
@[simp] theorem State.onClu_ctxs (s : State) (cl : Nat) (f : Cluster → Cluster) : (s.onClu cl f).ctxs = s.ctxs := rfl
@[simp] theorem State.setClu_cores (s : State) (cl : Nat) (x : Cluster) : (s.setClu cl x).cores = s.cores := rfl
@[simp] theorem State.onClu_cores (s : State) (cl : Nat) (f : Cluster → Cluster) : (s.onClu cl f).cores = s.cores := rfl
@[simp] theorem State.setClu_dies (s : State) (cl : Nat) (x : Cluster) : (s.setClu cl x).dies = s.dies := rfl
@[simp] theorem State.onClu_dies (s : State) (cl : Nat) (f : Cluster → Cluster) : (s.onClu cl f).dies = s.dies := rfl
@[simp] theorem State.setClu_mods (s : State) (cl : Nat) (x : Cluster) : (s.setClu cl x).mods = s.mods := rfl
@[simp] theorem State.onClu_mods (s : State) (cl : Nat) (f : Cluster → Cluster) : (s.onClu cl f).mods = s.mods := rfl
@[simp] theorem State.setClu_ovf (s : State) (cl : Nat) (x : Cluster) : (s.setClu cl x).ovf = s.ovf := rfl
@[simp] theorem State.onClu_ovf (s : State) (cl : Nat) (f : Cluster → Cluster) : (s.onClu cl f).ovf = s.ovf := rfl
@[simp] theorem State.setClu_present (s : State) (cl : Nat) (x : Cluster) : (s.setClu cl x).present = s.present := rfl
@[simp] theorem State.onClu_present (s : State) (cl : Nat) (f : Cluster → Cluster) : (s.onClu cl f).present = s.present := rfl
@[simp] theorem State.setClu_wq (s : State) (cl : Nat) (x : Cluster) : (s.setClu cl x).wq = s.wq := rfl
@[simp] theorem State.onClu_wq (s : State) (cl : Nat) (f : Cluster → Cluster) : (s.onClu cl f).wq = s.wq := rfl
@[simp] theorem State.setClu_net (s : State) (cl : Nat) (x : Cluster) : (s.setClu cl x).net = s.net := rfl
@[simp] theorem State.onClu_net (s : State) (cl : Nat) (f : Cluster → Cluster) : (s.onClu cl f).net = s.net := rfl
@[simp] theorem State.setClu_results (s : State) (cl : Nat) (x : Cluster) : (s.setClu cl x).results = s.results := rfl
@[simp] theorem State.onClu_results (s : State) (cl : Nat) (f : Cluster → Cluster) : (s.onClu cl f).results = s.results := rfl
@[simp] theorem State.setClu_engines (s : State) (cl : Nat) (x : Cluster) : (s.setClu cl x).engines = s.engines := rfl
@[simp] theorem State.onClu_engines (s : State) (cl : Nat) (f : Cluster → Cluster) : (s.onClu cl f).engines = s.engines := rfl
@[simp] theorem State.setClu_pbounce (s : State) (cl : Nat) (x : Cluster) : (s.setClu cl x).pbounce = s.pbounce := rfl
@[simp] theorem State.onClu_pbounce (s : State) (cl : Nat) (f : Cluster → Cluster) : (s.onClu cl f).pbounce = s.pbounce := rfl
@[simp] theorem State.setClu_admits (s : State) (cl : Nat) (x : Cluster) : (s.setClu cl x).admits = s.admits := rfl
@[simp] theorem State.onClu_admits (s : State) (cl : Nat) (f : Cluster → Cluster) : (s.onClu cl f).admits = s.admits := rfl
@[simp] theorem State.setClu_now (s : State) (cl : Nat) (x : Cluster) : (s.setClu cl x).now = s.now := rfl
@[simp] theorem State.onClu_now (s : State) (cl : Nat) (f : Cluster → Cluster) : (s.onClu cl f).now = s.now := rfl
@[simp] theorem State.setClu_freeCtr (s : State) (cl : Nat) (x : Cluster) : (s.setClu cl x).freeCtr = s.freeCtr := rfl
@[simp] theorem State.onClu_freeCtr (s : State) (cl : Nat) (f : Cluster → Cluster) : (s.onClu cl f).freeCtr = s.freeCtr := rfl
@[simp] theorem State.setClu_uid (s : State) (cl : Nat) (x : Cluster) : (s.setClu cl x).uid = s.uid := rfl
@[simp] theorem State.onClu_uid (s : State) (cl : Nat) (f : Cluster → Cluster) : (s.onClu cl f).uid = s.uid := rfl
@[simp] theorem State.setClu_cur (s : State) (cl : Nat) (x : Cluster) : (s.setClu cl x).cur = s.cur := rfl
@[simp] theorem State.onClu_cur (s : State) (cl : Nat) (f : Cluster → Cluster) : (s.onClu cl f).cur = s.cur := rfl
@[simp] theorem State.setClu_sel (s : State) (cl : Nat) (x : Cluster) : (s.setClu cl x).sel = s.sel := rfl
@[simp] theorem State.onClu_sel (s : State) (cl : Nat) (f : Cluster → Cluster) : (s.onClu cl f).sel = s.sel := rfl
@[simp] theorem State.setClu_agenda (s : State) (cl : Nat) (x : Cluster) : (s.setClu cl x).agenda = s.agenda := rfl
@[simp] theorem State.onClu_agenda (s : State) (cl : Nat) (f : Cluster → Cluster) : (s.onClu cl f).agenda = s.agenda := rfl
@[simp] theorem State.setClu_ctx (s : State) (cl : Nat) (x : Cluster) (j : Nat) : (s.setClu cl x).ctx j = s.ctx j := rfl
@[simp] theorem State.onClu_ctx (s : State) (cl : Nat) (f : Cluster → Cluster) (j : Nat) : (s.onClu cl f).ctx j = s.ctx j := rfl
@[simp] theorem State.setClu_core (s : State) (cl : Nat) (x : Cluster) (j : Nat) : (s.setClu cl x).core j = s.core j := rfl
@[simp] theorem State.onClu_core (s : State) (cl : Nat) (f : Cluster → Cluster) (j : Nat) : (s.onClu cl f).core j = s.core j := rfl
@[simp] theorem State.setClu_die (s : State) (cl : Nat) (x : Cluster) (j : Nat) : (s.setClu cl x).die j = s.die j := rfl
@[simp] theorem State.onClu_die (s : State) (cl : Nat) (f : Cluster → Cluster) (j : Nat) : (s.onClu cl f).die j = s.die j := rfl
@[simp] theorem State.setClu_mod (s : State) (cl : Nat) (x : Cluster) (j : Nat) : (s.setClu cl x).mod j = s.mod j := rfl
@[simp] theorem State.onClu_mod (s : State) (cl : Nat) (f : Cluster → Cluster) (j : Nat) : (s.onClu cl f).mod j = s.mod j := rfl
@[simp] theorem State.setClu_clu (s : State) (cl : Nat) (x : Cluster) (j : Nat) :
    (s.setClu cl x).clu j = if j = cl then x else s.clu j := by simp [State.setClu, State.clu]
@[simp] theorem State.onClu_clu (s : State) (cl : Nat) (f : Cluster → Cluster) (j : Nat) :
    (s.onClu cl f).clu j = if j = cl then f (s.clu cl) else s.clu j := by simp [State.onClu]

/-! ### Updates of the table `dies` -/

@[simp] theorem State.setDie_mem (s : State) (d : Nat) (x : Die) : (s.setDie d x).mem = s.mem := rfl
@[simp] theorem State.onDie_mem (s : State) (d : Nat) (f : Die → Die) : (s.onDie d f).mem = s.mem := rfl
@[simp] theorem State.setDie_poison (s : State) (d : Nat) (x : Die) : (s.setDie d x).poison = s.poison := rfl
@[simp] theorem State.onDie_poison (s : State) (d : Nat) (f : Die → Die) : (s.onDie d f).poison = s.poison := rfl
@[simp] theorem State.setDie_badWords (s : State) (d : Nat) (x : Die) : (s.setDie d x).badWords = s.badWords := rfl
@[simp] theorem State.onDie_badWords (s : State) (d : Nat) (f : Die → Die) : (s.onDie d f).badWords = s.badWords := rfl
@[simp] theorem State.setDie_tags (s : State) (d : Nat) (x : Die) : (s.setDie d x).tags = s.tags := rfl
@[simp] theorem State.onDie_tags (s : State) (d : Nat) (f : Die → Die) : (s.onDie d f).tags = s.tags := rfl
@[simp] theorem State.setDie_ahead (s : State) (d : Nat) (x : Die) : (s.setDie d x).ahead = s.ahead := rfl
@[simp] theorem State.onDie_ahead (s : State) (d : Nat) (f : Die → Die) : (s.onDie d f).ahead = s.ahead := rfl
@[simp] theorem State.setDie_ctxs (s : State) (d : Nat) (x : Die) : (s.setDie d x).ctxs = s.ctxs := rfl
@[simp] theorem State.onDie_ctxs (s : State) (d : Nat) (f : Die → Die) : (s.onDie d f).ctxs = s.ctxs := rfl
@[simp] theorem State.setDie_cores (s : State) (d : Nat) (x : Die) : (s.setDie d x).cores = s.cores := rfl
@[simp] theorem State.onDie_cores (s : State) (d : Nat) (f : Die → Die) : (s.onDie d f).cores = s.cores := rfl
@[simp] theorem State.setDie_clus (s : State) (d : Nat) (x : Die) : (s.setDie d x).clus = s.clus := rfl
@[simp] theorem State.onDie_clus (s : State) (d : Nat) (f : Die → Die) : (s.onDie d f).clus = s.clus := rfl
@[simp] theorem State.setDie_mods (s : State) (d : Nat) (x : Die) : (s.setDie d x).mods = s.mods := rfl
@[simp] theorem State.onDie_mods (s : State) (d : Nat) (f : Die → Die) : (s.onDie d f).mods = s.mods := rfl
@[simp] theorem State.setDie_ovf (s : State) (d : Nat) (x : Die) : (s.setDie d x).ovf = s.ovf := rfl
@[simp] theorem State.onDie_ovf (s : State) (d : Nat) (f : Die → Die) : (s.onDie d f).ovf = s.ovf := rfl
@[simp] theorem State.setDie_present (s : State) (d : Nat) (x : Die) : (s.setDie d x).present = s.present := rfl
@[simp] theorem State.onDie_present (s : State) (d : Nat) (f : Die → Die) : (s.onDie d f).present = s.present := rfl
@[simp] theorem State.setDie_wq (s : State) (d : Nat) (x : Die) : (s.setDie d x).wq = s.wq := rfl
@[simp] theorem State.onDie_wq (s : State) (d : Nat) (f : Die → Die) : (s.onDie d f).wq = s.wq := rfl
@[simp] theorem State.setDie_net (s : State) (d : Nat) (x : Die) : (s.setDie d x).net = s.net := rfl
@[simp] theorem State.onDie_net (s : State) (d : Nat) (f : Die → Die) : (s.onDie d f).net = s.net := rfl
@[simp] theorem State.setDie_results (s : State) (d : Nat) (x : Die) : (s.setDie d x).results = s.results := rfl
@[simp] theorem State.onDie_results (s : State) (d : Nat) (f : Die → Die) : (s.onDie d f).results = s.results := rfl
@[simp] theorem State.setDie_engines (s : State) (d : Nat) (x : Die) : (s.setDie d x).engines = s.engines := rfl
@[simp] theorem State.onDie_engines (s : State) (d : Nat) (f : Die → Die) : (s.onDie d f).engines = s.engines := rfl
@[simp] theorem State.setDie_pbounce (s : State) (d : Nat) (x : Die) : (s.setDie d x).pbounce = s.pbounce := rfl
@[simp] theorem State.onDie_pbounce (s : State) (d : Nat) (f : Die → Die) : (s.onDie d f).pbounce = s.pbounce := rfl
@[simp] theorem State.setDie_admits (s : State) (d : Nat) (x : Die) : (s.setDie d x).admits = s.admits := rfl
@[simp] theorem State.onDie_admits (s : State) (d : Nat) (f : Die → Die) : (s.onDie d f).admits = s.admits := rfl
@[simp] theorem State.setDie_now (s : State) (d : Nat) (x : Die) : (s.setDie d x).now = s.now := rfl
@[simp] theorem State.onDie_now (s : State) (d : Nat) (f : Die → Die) : (s.onDie d f).now = s.now := rfl
@[simp] theorem State.setDie_freeCtr (s : State) (d : Nat) (x : Die) : (s.setDie d x).freeCtr = s.freeCtr := rfl
@[simp] theorem State.onDie_freeCtr (s : State) (d : Nat) (f : Die → Die) : (s.onDie d f).freeCtr = s.freeCtr := rfl
@[simp] theorem State.setDie_uid (s : State) (d : Nat) (x : Die) : (s.setDie d x).uid = s.uid := rfl
@[simp] theorem State.onDie_uid (s : State) (d : Nat) (f : Die → Die) : (s.onDie d f).uid = s.uid := rfl
@[simp] theorem State.setDie_cur (s : State) (d : Nat) (x : Die) : (s.setDie d x).cur = s.cur := rfl
@[simp] theorem State.onDie_cur (s : State) (d : Nat) (f : Die → Die) : (s.onDie d f).cur = s.cur := rfl
@[simp] theorem State.setDie_sel (s : State) (d : Nat) (x : Die) : (s.setDie d x).sel = s.sel := rfl
@[simp] theorem State.onDie_sel (s : State) (d : Nat) (f : Die → Die) : (s.onDie d f).sel = s.sel := rfl
@[simp] theorem State.setDie_agenda (s : State) (d : Nat) (x : Die) : (s.setDie d x).agenda = s.agenda := rfl
@[simp] theorem State.onDie_agenda (s : State) (d : Nat) (f : Die → Die) : (s.onDie d f).agenda = s.agenda := rfl
@[simp] theorem State.setDie_ctx (s : State) (d : Nat) (x : Die) (j : Nat) : (s.setDie d x).ctx j = s.ctx j := rfl
@[simp] theorem State.onDie_ctx (s : State) (d : Nat) (f : Die → Die) (j : Nat) : (s.onDie d f).ctx j = s.ctx j := rfl
@[simp] theorem State.setDie_core (s : State) (d : Nat) (x : Die) (j : Nat) : (s.setDie d x).core j = s.core j := rfl
@[simp] theorem State.onDie_core (s : State) (d : Nat) (f : Die → Die) (j : Nat) : (s.onDie d f).core j = s.core j := rfl
@[simp] theorem State.setDie_clu (s : State) (d : Nat) (x : Die) (j : Nat) : (s.setDie d x).clu j = s.clu j := rfl
@[simp] theorem State.onDie_clu (s : State) (d : Nat) (f : Die → Die) (j : Nat) : (s.onDie d f).clu j = s.clu j := rfl
@[simp] theorem State.setDie_mod (s : State) (d : Nat) (x : Die) (j : Nat) : (s.setDie d x).mod j = s.mod j := rfl
@[simp] theorem State.onDie_mod (s : State) (d : Nat) (f : Die → Die) (j : Nat) : (s.onDie d f).mod j = s.mod j := rfl
@[simp] theorem State.setDie_die (s : State) (d : Nat) (x : Die) (j : Nat) :
    (s.setDie d x).die j = if j = d then x else s.die j := by simp [State.setDie, State.die]
@[simp] theorem State.onDie_die (s : State) (d : Nat) (f : Die → Die) (j : Nat) :
    (s.onDie d f).die j = if j = d then f (s.die d) else s.die j := by simp [State.onDie]

/-! ### Updates of the table `mods` -/

@[simp] theorem State.setMod_mem (s : State) (m : Nat) (x : Module) : (s.setMod m x).mem = s.mem := rfl
@[simp] theorem State.onMod_mem (s : State) (m : Nat) (f : Module → Module) : (s.onMod m f).mem = s.mem := rfl
@[simp] theorem State.setMod_poison (s : State) (m : Nat) (x : Module) : (s.setMod m x).poison = s.poison := rfl
@[simp] theorem State.onMod_poison (s : State) (m : Nat) (f : Module → Module) : (s.onMod m f).poison = s.poison := rfl
@[simp] theorem State.setMod_badWords (s : State) (m : Nat) (x : Module) : (s.setMod m x).badWords = s.badWords := rfl
@[simp] theorem State.onMod_badWords (s : State) (m : Nat) (f : Module → Module) : (s.onMod m f).badWords = s.badWords := rfl
@[simp] theorem State.setMod_tags (s : State) (m : Nat) (x : Module) : (s.setMod m x).tags = s.tags := rfl
@[simp] theorem State.onMod_tags (s : State) (m : Nat) (f : Module → Module) : (s.onMod m f).tags = s.tags := rfl
@[simp] theorem State.setMod_ahead (s : State) (m : Nat) (x : Module) : (s.setMod m x).ahead = s.ahead := rfl
@[simp] theorem State.onMod_ahead (s : State) (m : Nat) (f : Module → Module) : (s.onMod m f).ahead = s.ahead := rfl
@[simp] theorem State.setMod_ctxs (s : State) (m : Nat) (x : Module) : (s.setMod m x).ctxs = s.ctxs := rfl
@[simp] theorem State.onMod_ctxs (s : State) (m : Nat) (f : Module → Module) : (s.onMod m f).ctxs = s.ctxs := rfl
@[simp] theorem State.setMod_cores (s : State) (m : Nat) (x : Module) : (s.setMod m x).cores = s.cores := rfl
@[simp] theorem State.onMod_cores (s : State) (m : Nat) (f : Module → Module) : (s.onMod m f).cores = s.cores := rfl
@[simp] theorem State.setMod_clus (s : State) (m : Nat) (x : Module) : (s.setMod m x).clus = s.clus := rfl
@[simp] theorem State.onMod_clus (s : State) (m : Nat) (f : Module → Module) : (s.onMod m f).clus = s.clus := rfl
@[simp] theorem State.setMod_dies (s : State) (m : Nat) (x : Module) : (s.setMod m x).dies = s.dies := rfl
@[simp] theorem State.onMod_dies (s : State) (m : Nat) (f : Module → Module) : (s.onMod m f).dies = s.dies := rfl
@[simp] theorem State.setMod_ovf (s : State) (m : Nat) (x : Module) : (s.setMod m x).ovf = s.ovf := rfl
@[simp] theorem State.onMod_ovf (s : State) (m : Nat) (f : Module → Module) : (s.onMod m f).ovf = s.ovf := rfl
@[simp] theorem State.setMod_present (s : State) (m : Nat) (x : Module) : (s.setMod m x).present = s.present := rfl
@[simp] theorem State.onMod_present (s : State) (m : Nat) (f : Module → Module) : (s.onMod m f).present = s.present := rfl
@[simp] theorem State.setMod_wq (s : State) (m : Nat) (x : Module) : (s.setMod m x).wq = s.wq := rfl
@[simp] theorem State.onMod_wq (s : State) (m : Nat) (f : Module → Module) : (s.onMod m f).wq = s.wq := rfl
@[simp] theorem State.setMod_net (s : State) (m : Nat) (x : Module) : (s.setMod m x).net = s.net := rfl
@[simp] theorem State.onMod_net (s : State) (m : Nat) (f : Module → Module) : (s.onMod m f).net = s.net := rfl
@[simp] theorem State.setMod_results (s : State) (m : Nat) (x : Module) : (s.setMod m x).results = s.results := rfl
@[simp] theorem State.onMod_results (s : State) (m : Nat) (f : Module → Module) : (s.onMod m f).results = s.results := rfl
@[simp] theorem State.setMod_engines (s : State) (m : Nat) (x : Module) : (s.setMod m x).engines = s.engines := rfl
@[simp] theorem State.onMod_engines (s : State) (m : Nat) (f : Module → Module) : (s.onMod m f).engines = s.engines := rfl
@[simp] theorem State.setMod_pbounce (s : State) (m : Nat) (x : Module) : (s.setMod m x).pbounce = s.pbounce := rfl
@[simp] theorem State.onMod_pbounce (s : State) (m : Nat) (f : Module → Module) : (s.onMod m f).pbounce = s.pbounce := rfl
@[simp] theorem State.setMod_admits (s : State) (m : Nat) (x : Module) : (s.setMod m x).admits = s.admits := rfl
@[simp] theorem State.onMod_admits (s : State) (m : Nat) (f : Module → Module) : (s.onMod m f).admits = s.admits := rfl
@[simp] theorem State.setMod_now (s : State) (m : Nat) (x : Module) : (s.setMod m x).now = s.now := rfl
@[simp] theorem State.onMod_now (s : State) (m : Nat) (f : Module → Module) : (s.onMod m f).now = s.now := rfl
@[simp] theorem State.setMod_freeCtr (s : State) (m : Nat) (x : Module) : (s.setMod m x).freeCtr = s.freeCtr := rfl
@[simp] theorem State.onMod_freeCtr (s : State) (m : Nat) (f : Module → Module) : (s.onMod m f).freeCtr = s.freeCtr := rfl
@[simp] theorem State.setMod_uid (s : State) (m : Nat) (x : Module) : (s.setMod m x).uid = s.uid := rfl
@[simp] theorem State.onMod_uid (s : State) (m : Nat) (f : Module → Module) : (s.onMod m f).uid = s.uid := rfl
@[simp] theorem State.setMod_cur (s : State) (m : Nat) (x : Module) : (s.setMod m x).cur = s.cur := rfl
@[simp] theorem State.onMod_cur (s : State) (m : Nat) (f : Module → Module) : (s.onMod m f).cur = s.cur := rfl
@[simp] theorem State.setMod_sel (s : State) (m : Nat) (x : Module) : (s.setMod m x).sel = s.sel := rfl
@[simp] theorem State.onMod_sel (s : State) (m : Nat) (f : Module → Module) : (s.onMod m f).sel = s.sel := rfl
@[simp] theorem State.setMod_agenda (s : State) (m : Nat) (x : Module) : (s.setMod m x).agenda = s.agenda := rfl
@[simp] theorem State.onMod_agenda (s : State) (m : Nat) (f : Module → Module) : (s.onMod m f).agenda = s.agenda := rfl
@[simp] theorem State.setMod_ctx (s : State) (m : Nat) (x : Module) (j : Nat) : (s.setMod m x).ctx j = s.ctx j := rfl
@[simp] theorem State.onMod_ctx (s : State) (m : Nat) (f : Module → Module) (j : Nat) : (s.onMod m f).ctx j = s.ctx j := rfl
@[simp] theorem State.setMod_core (s : State) (m : Nat) (x : Module) (j : Nat) : (s.setMod m x).core j = s.core j := rfl
@[simp] theorem State.onMod_core (s : State) (m : Nat) (f : Module → Module) (j : Nat) : (s.onMod m f).core j = s.core j := rfl
@[simp] theorem State.setMod_clu (s : State) (m : Nat) (x : Module) (j : Nat) : (s.setMod m x).clu j = s.clu j := rfl
@[simp] theorem State.onMod_clu (s : State) (m : Nat) (f : Module → Module) (j : Nat) : (s.onMod m f).clu j = s.clu j := rfl
@[simp] theorem State.setMod_die (s : State) (m : Nat) (x : Module) (j : Nat) : (s.setMod m x).die j = s.die j := rfl
@[simp] theorem State.onMod_die (s : State) (m : Nat) (f : Module → Module) (j : Nat) : (s.onMod m f).die j = s.die j := rfl
@[simp] theorem State.setMod_mod (s : State) (m : Nat) (x : Module) (j : Nat) :
    (s.setMod m x).mod j = if j = m then x else s.mod j := by simp [State.setMod, State.mod]
@[simp] theorem State.onMod_mod (s : State) (m : Nat) (f : Module → Module) (j : Nat) :
    (s.onMod m f).mod j = if j = m then f (s.mod m) else s.mod j := by simp [State.onMod]

/-! ### Fresh names and single bytes -/

@[simp] theorem State.fresh_mem (s : State) : s.fresh.mem = s.mem := rfl
@[simp] theorem State.fresh_poison (s : State) : s.fresh.poison = s.poison := rfl
@[simp] theorem State.fresh_badWords (s : State) : s.fresh.badWords = s.badWords := rfl
@[simp] theorem State.fresh_tags (s : State) : s.fresh.tags = s.tags := rfl
@[simp] theorem State.fresh_ahead (s : State) : s.fresh.ahead = s.ahead := rfl
@[simp] theorem State.fresh_ctxs (s : State) : s.fresh.ctxs = s.ctxs := rfl
@[simp] theorem State.fresh_cores (s : State) : s.fresh.cores = s.cores := rfl
@[simp] theorem State.fresh_clus (s : State) : s.fresh.clus = s.clus := rfl
@[simp] theorem State.fresh_dies (s : State) : s.fresh.dies = s.dies := rfl
@[simp] theorem State.fresh_mods (s : State) : s.fresh.mods = s.mods := rfl
@[simp] theorem State.fresh_ovf (s : State) : s.fresh.ovf = s.ovf := rfl
@[simp] theorem State.fresh_present (s : State) : s.fresh.present = s.present := rfl
@[simp] theorem State.fresh_wq (s : State) : s.fresh.wq = s.wq := rfl
@[simp] theorem State.fresh_net (s : State) : s.fresh.net = s.net := rfl
@[simp] theorem State.fresh_results (s : State) : s.fresh.results = s.results := rfl
@[simp] theorem State.fresh_engines (s : State) : s.fresh.engines = s.engines := rfl
@[simp] theorem State.fresh_pbounce (s : State) : s.fresh.pbounce = s.pbounce := rfl
@[simp] theorem State.fresh_admits (s : State) : s.fresh.admits = s.admits := rfl
@[simp] theorem State.fresh_now (s : State) : s.fresh.now = s.now := rfl
@[simp] theorem State.fresh_freeCtr (s : State) : s.fresh.freeCtr = s.freeCtr := rfl
@[simp] theorem State.fresh_cur (s : State) : s.fresh.cur = s.cur := rfl
@[simp] theorem State.fresh_sel (s : State) : s.fresh.sel = s.sel := rfl
@[simp] theorem State.fresh_agenda (s : State) : s.fresh.agenda = s.agenda := rfl
@[simp] theorem State.fresh_uid (s : State) : s.fresh.uid = s.uid + 1 := rfl
@[simp] theorem State.wrByte_poison (s : State) (pa : Nat) (b : Byte) : (s.wrByte pa b).poison = s.poison := rfl
@[simp] theorem State.wrByte_badWords (s : State) (pa : Nat) (b : Byte) : (s.wrByte pa b).badWords = s.badWords := rfl
@[simp] theorem State.wrByte_tags (s : State) (pa : Nat) (b : Byte) : (s.wrByte pa b).tags = s.tags := rfl
@[simp] theorem State.wrByte_ahead (s : State) (pa : Nat) (b : Byte) : (s.wrByte pa b).ahead = s.ahead := rfl
@[simp] theorem State.wrByte_ctxs (s : State) (pa : Nat) (b : Byte) : (s.wrByte pa b).ctxs = s.ctxs := rfl
@[simp] theorem State.wrByte_cores (s : State) (pa : Nat) (b : Byte) : (s.wrByte pa b).cores = s.cores := rfl
@[simp] theorem State.wrByte_clus (s : State) (pa : Nat) (b : Byte) : (s.wrByte pa b).clus = s.clus := rfl
@[simp] theorem State.wrByte_dies (s : State) (pa : Nat) (b : Byte) : (s.wrByte pa b).dies = s.dies := rfl
@[simp] theorem State.wrByte_mods (s : State) (pa : Nat) (b : Byte) : (s.wrByte pa b).mods = s.mods := rfl
@[simp] theorem State.wrByte_ovf (s : State) (pa : Nat) (b : Byte) : (s.wrByte pa b).ovf = s.ovf := rfl
@[simp] theorem State.wrByte_present (s : State) (pa : Nat) (b : Byte) : (s.wrByte pa b).present = s.present := rfl
@[simp] theorem State.wrByte_wq (s : State) (pa : Nat) (b : Byte) : (s.wrByte pa b).wq = s.wq := rfl
@[simp] theorem State.wrByte_net (s : State) (pa : Nat) (b : Byte) : (s.wrByte pa b).net = s.net := rfl
@[simp] theorem State.wrByte_results (s : State) (pa : Nat) (b : Byte) : (s.wrByte pa b).results = s.results := rfl
@[simp] theorem State.wrByte_engines (s : State) (pa : Nat) (b : Byte) : (s.wrByte pa b).engines = s.engines := rfl
@[simp] theorem State.wrByte_pbounce (s : State) (pa : Nat) (b : Byte) : (s.wrByte pa b).pbounce = s.pbounce := rfl
@[simp] theorem State.wrByte_admits (s : State) (pa : Nat) (b : Byte) : (s.wrByte pa b).admits = s.admits := rfl
@[simp] theorem State.wrByte_now (s : State) (pa : Nat) (b : Byte) : (s.wrByte pa b).now = s.now := rfl
@[simp] theorem State.wrByte_freeCtr (s : State) (pa : Nat) (b : Byte) : (s.wrByte pa b).freeCtr = s.freeCtr := rfl
@[simp] theorem State.wrByte_uid (s : State) (pa : Nat) (b : Byte) : (s.wrByte pa b).uid = s.uid := rfl
@[simp] theorem State.wrByte_cur (s : State) (pa : Nat) (b : Byte) : (s.wrByte pa b).cur = s.cur := rfl
@[simp] theorem State.wrByte_sel (s : State) (pa : Nat) (b : Byte) : (s.wrByte pa b).sel = s.sel := rfl
@[simp] theorem State.wrByte_agenda (s : State) (pa : Nat) (b : Byte) : (s.wrByte pa b).agenda = s.agenda := rfl
@[simp] theorem State.wrByte_mem (s : State) (pa : Nat) (b : Byte) : (s.wrByte pa b).mem = FMap.put 0 s.mem pa b := rfl
@[simp] theorem State.fresh_ctx (s : State) (j : Nat) : s.fresh.ctx j = s.ctx j := rfl
@[simp] theorem State.wrByte_ctx (s : State) (pa : Nat) (b : Byte) (j : Nat) : (s.wrByte pa b).ctx j = s.ctx j := rfl
@[simp] theorem State.fresh_core (s : State) (j : Nat) : s.fresh.core j = s.core j := rfl
@[simp] theorem State.wrByte_core (s : State) (pa : Nat) (b : Byte) (j : Nat) : (s.wrByte pa b).core j = s.core j := rfl
@[simp] theorem State.fresh_clu (s : State) (j : Nat) : s.fresh.clu j = s.clu j := rfl
@[simp] theorem State.wrByte_clu (s : State) (pa : Nat) (b : Byte) (j : Nat) : (s.wrByte pa b).clu j = s.clu j := rfl
@[simp] theorem State.fresh_die (s : State) (j : Nat) : s.fresh.die j = s.die j := rfl
@[simp] theorem State.wrByte_die (s : State) (pa : Nat) (b : Byte) (j : Nat) : (s.wrByte pa b).die j = s.die j := rfl
@[simp] theorem State.fresh_mod (s : State) (j : Nat) : s.fresh.mod j = s.mod j := rfl
@[simp] theorem State.wrByte_mod (s : State) (pa : Nat) (b : Byte) (j : Nat) : (s.wrByte pa b).mod j = s.mod j := rfl

/-! ### Registers of a context -/

@[simp] theorem Ctx.setSreg_vregs (c : Ctx) (k : Nat) (v : Word) : (c.setSreg k v).vregs = c.vregs := rfl
@[simp] theorem Ctx.setSreg_mregs (c : Ctx) (k : Nat) (v : Word) : (c.setSreg k v).mregs = c.mregs := rfl
@[simp] theorem Ctx.setSreg_bregs (c : Ctx) (k : Nat) (v : Word) : (c.setSreg k v).bregs = c.bregs := rfl
@[simp] theorem Ctx.setSreg_pc (c : Ctx) (k : Nat) (v : Word) : (c.setSreg k v).pc = c.pc := rfl
@[simp] theorem Ctx.setSreg_npc (c : Ctx) (k : Nat) (v : Word) : (c.setSreg k v).npc = c.npc := rfl
@[simp] theorem Ctx.setSreg_part (c : Ctx) (k : Nat) (v : Word) : (c.setSreg k v).part = c.part := rfl
@[simp] theorem Ctx.setSreg_aid (c : Ctx) (k : Nat) (v : Word) : (c.setSreg k v).aid = c.aid := rfl
@[simp] theorem Ctx.setSreg_slot (c : Ctx) (k : Nat) (v : Word) : (c.setSreg k v).slot = c.slot := rfl
@[simp] theorem Ctx.setSreg_rule (c : Ctx) (k : Nat) (v : Word) : (c.setSreg k v).rule = c.rule := rfl
@[simp] theorem Ctx.setSreg_nmsg (c : Ctx) (k : Nat) (v : Word) : (c.setSreg k v).nmsg = c.nmsg := rfl
@[simp] theorem Ctx.setSreg_gidx (c : Ctx) (k : Nat) (v : Word) : (c.setSreg k v).gidx = c.gidx := rfl
@[simp] theorem Ctx.setSreg_sbase (c : Ctx) (k : Nat) (v : Word) : (c.setSreg k v).sbase = c.sbase := rfl
@[simp] theorem Ctx.setSreg_ssize (c : Ctx) (k : Nat) (v : Word) : (c.setSreg k v).ssize = c.ssize := rfl
@[simp] theorem Ctx.setSreg_fcsr (c : Ctx) (k : Nat) (v : Word) : (c.setSreg k v).fcsr = c.fcsr := rfl
@[simp] theorem Ctx.setSreg_ocLd (c : Ctx) (k : Nat) (v : Word) : (c.setSreg k v).ocLd = c.ocLd := rfl
@[simp] theorem Ctx.setSreg_ocSt (c : Ctx) (k : Nat) (v : Word) : (c.setSreg k v).ocSt = c.ocSt := rfl
@[simp] theorem Ctx.setSreg_ocCp (c : Ctx) (k : Nat) (v : Word) : (c.setSreg k v).ocCp = c.ocCp := rfl
@[simp] theorem Ctx.setSreg_ocTl (c : Ctx) (k : Nat) (v : Word) : (c.setSreg k v).ocTl = c.ocTl := rfl
@[simp] theorem Ctx.setSreg_yreq (c : Ctx) (k : Nat) (v : Word) : (c.setSreg k v).yreq = c.yreq := rfl
@[simp] theorem Ctx.setSreg_lmask (c : Ctx) (k : Nat) (v : Word) : (c.setSreg k v).lmask = c.lmask := rfl
@[simp] theorem Ctx.setSreg_fsyn (c : Ctx) (k : Nat) (v : Word) : (c.setSreg k v).fsyn = c.fsyn := rfl
@[simp] theorem Ctx.setSreg_fva (c : Ctx) (k : Nat) (v : Word) : (c.setSreg k v).fva = c.fva := rfl
@[simp] theorem Ctx.setSreg_fpc (c : Ctx) (k : Nat) (v : Word) : (c.setSreg k v).fpc = c.fpc := rfl
@[simp] theorem Ctx.setSreg_fmsg (c : Ctx) (k : Nat) (v : Word) : (c.setSreg k v).fmsg = c.fmsg := rfl
@[simp] theorem Ctx.setSreg_kind (c : Ctx) (k : Nat) (v : Word) : (c.setSreg k v).kind = c.kind := rfl
@[simp] theorem Ctx.setSreg_pool (c : Ctx) (k : Nat) (v : Word) : (c.setSreg k v).pool = c.pool := rfl
@[simp] theorem Ctx.setSreg_budget (c : Ctx) (k : Nat) (v : Word) : (c.setSreg k v).budget = c.budget := rfl
@[simp] theorem Ctx.setSreg_tYield (c : Ctx) (k : Nat) (v : Word) : (c.setSreg k v).tYield = c.tYield := rfl
@[simp] theorem Ctx.setSreg_tKill (c : Ctx) (k : Nat) (v : Word) : (c.setSreg k v).tKill = c.tKill := rfl
@[simp] theorem Ctx.setSreg_tFence (c : Ctx) (k : Nat) (v : Word) : (c.setSreg k v).tFence = c.tFence := rfl
@[simp] theorem Ctx.setSreg_cycles (c : Ctx) (k : Nat) (v : Word) : (c.setSreg k v).cycles = c.cycles := rfl
@[simp] theorem Ctx.setSreg_pktB (c : Ctx) (k : Nat) (v : Word) : (c.setSreg k v).pktB = c.pktB := rfl
@[simp] theorem Ctx.setSreg_deqB (c : Ctx) (k : Nat) (v : Word) : (c.setSreg k v).deqB = c.deqB := rfl
@[simp] theorem Ctx.setSreg_done1 (c : Ctx) (k : Nat) (v : Word) : (c.setSreg k v).done1 = c.done1 := rfl
@[simp] theorem Ctx.setSreg_phase (c : Ctx) (k : Nat) (v : Word) : (c.setSreg k v).phase = c.phase := rfl
@[simp] theorem Ctx.setSreg_gang (c : Ctx) (k : Nat) (v : Word) : (c.setSreg k v).gang = c.gang := rfl
@[simp] theorem Ctx.setSreg_fid (c : Ctx) (k : Nat) (v : Word) : (c.setSreg k v).fid = c.fid := rfl
@[simp] theorem Ctx.setSreg_icnt (c : Ctx) (k : Nat) (v : Word) : (c.setSreg k v).icnt = c.icnt := rfl
@[simp] theorem Ctx.setSreg_parkP (c : Ctx) (k : Nat) (v : Word) : (c.setSreg k v).parkP = c.parkP := rfl
@[simp] theorem Ctx.setSreg_parkV (c : Ctx) (k : Nat) (v : Word) : (c.setSreg k v).parkV = c.parkV := rfl
@[simp] theorem Ctx.setSreg_log (c : Ctx) (k : Nat) (v : Word) : (c.setSreg k v).log = c.log := rfl
@[simp] theorem Ctx.setSreg_slots (c : Ctx) (k : Nat) (v : Word) : (c.setSreg k v).slots = c.slots := rfl
@[simp] theorem Ctx.setSreg_written (c : Ctx) (k : Nat) (v : Word) : (c.setSreg k v).written = c.written := rfl
@[simp] theorem Ctx.setSreg_msgs (c : Ctx) (k : Nat) (v : Word) : (c.setSreg k v).msgs = c.msgs := rfl
@[simp] theorem Ctx.setSreg_retEnt (c : Ctx) (k : Nat) (v : Word) : (c.setSreg k v).retEnt = c.retEnt := rfl
@[simp] theorem Ctx.setSreg_loads (c : Ctx) (k : Nat) (v : Word) : (c.setSreg k v).loads = c.loads := rfl
@[simp] theorem Ctx.setSreg_xlate (c : Ctx) (k : Nat) (v : Word) : (c.setSreg k v).xlate = c.xlate := rfl
@[simp] theorem Ctx.setSreg_imprec (c : Ctx) (k : Nat) (v : Word) : (c.setSreg k v).imprec = c.imprec := rfl
@[simp] theorem Ctx.setSreg_pub (c : Ctx) (k : Nat) (v : Word) : (c.setSreg k v).pub = c.pub := rfl
@[simp] theorem Ctx.setSreg_pubLo (c : Ctx) (k : Nat) (v : Word) : (c.setSreg k v).pubLo = c.pubLo := rfl
@[simp] theorem Ctx.setSreg_cellDst (c : Ctx) (k : Nat) (v : Word) : (c.setSreg k v).cellDst = c.cellDst := rfl
@[simp] theorem Ctx.setSreg_from_ (c : Ctx) (k : Nat) (v : Word) : (c.setSreg k v).from_ = c.from_ := rfl
@[simp] theorem Ctx.setSreg_owed (c : Ctx) (k : Nat) (v : Word) : (c.setSreg k v).owed = c.owed := rfl
@[simp] theorem Ctx.setVreg_sregs (c : Ctx) (k : Nat) (v : VWord) : (c.setVreg k v).sregs = c.sregs := rfl
@[simp] theorem Ctx.setVreg_mregs (c : Ctx) (k : Nat) (v : VWord) : (c.setVreg k v).mregs = c.mregs := rfl
@[simp] theorem Ctx.setVreg_bregs (c : Ctx) (k : Nat) (v : VWord) : (c.setVreg k v).bregs = c.bregs := rfl
@[simp] theorem Ctx.setVreg_pc (c : Ctx) (k : Nat) (v : VWord) : (c.setVreg k v).pc = c.pc := rfl
@[simp] theorem Ctx.setVreg_npc (c : Ctx) (k : Nat) (v : VWord) : (c.setVreg k v).npc = c.npc := rfl
@[simp] theorem Ctx.setVreg_part (c : Ctx) (k : Nat) (v : VWord) : (c.setVreg k v).part = c.part := rfl
@[simp] theorem Ctx.setVreg_aid (c : Ctx) (k : Nat) (v : VWord) : (c.setVreg k v).aid = c.aid := rfl
@[simp] theorem Ctx.setVreg_slot (c : Ctx) (k : Nat) (v : VWord) : (c.setVreg k v).slot = c.slot := rfl
@[simp] theorem Ctx.setVreg_rule (c : Ctx) (k : Nat) (v : VWord) : (c.setVreg k v).rule = c.rule := rfl
@[simp] theorem Ctx.setVreg_nmsg (c : Ctx) (k : Nat) (v : VWord) : (c.setVreg k v).nmsg = c.nmsg := rfl
@[simp] theorem Ctx.setVreg_gidx (c : Ctx) (k : Nat) (v : VWord) : (c.setVreg k v).gidx = c.gidx := rfl
@[simp] theorem Ctx.setVreg_sbase (c : Ctx) (k : Nat) (v : VWord) : (c.setVreg k v).sbase = c.sbase := rfl
@[simp] theorem Ctx.setVreg_ssize (c : Ctx) (k : Nat) (v : VWord) : (c.setVreg k v).ssize = c.ssize := rfl
@[simp] theorem Ctx.setVreg_fcsr (c : Ctx) (k : Nat) (v : VWord) : (c.setVreg k v).fcsr = c.fcsr := rfl
@[simp] theorem Ctx.setVreg_ocLd (c : Ctx) (k : Nat) (v : VWord) : (c.setVreg k v).ocLd = c.ocLd := rfl
@[simp] theorem Ctx.setVreg_ocSt (c : Ctx) (k : Nat) (v : VWord) : (c.setVreg k v).ocSt = c.ocSt := rfl
@[simp] theorem Ctx.setVreg_ocCp (c : Ctx) (k : Nat) (v : VWord) : (c.setVreg k v).ocCp = c.ocCp := rfl
@[simp] theorem Ctx.setVreg_ocTl (c : Ctx) (k : Nat) (v : VWord) : (c.setVreg k v).ocTl = c.ocTl := rfl
@[simp] theorem Ctx.setVreg_yreq (c : Ctx) (k : Nat) (v : VWord) : (c.setVreg k v).yreq = c.yreq := rfl
@[simp] theorem Ctx.setVreg_lmask (c : Ctx) (k : Nat) (v : VWord) : (c.setVreg k v).lmask = c.lmask := rfl
@[simp] theorem Ctx.setVreg_fsyn (c : Ctx) (k : Nat) (v : VWord) : (c.setVreg k v).fsyn = c.fsyn := rfl
@[simp] theorem Ctx.setVreg_fva (c : Ctx) (k : Nat) (v : VWord) : (c.setVreg k v).fva = c.fva := rfl
@[simp] theorem Ctx.setVreg_fpc (c : Ctx) (k : Nat) (v : VWord) : (c.setVreg k v).fpc = c.fpc := rfl
@[simp] theorem Ctx.setVreg_fmsg (c : Ctx) (k : Nat) (v : VWord) : (c.setVreg k v).fmsg = c.fmsg := rfl
@[simp] theorem Ctx.setVreg_kind (c : Ctx) (k : Nat) (v : VWord) : (c.setVreg k v).kind = c.kind := rfl
@[simp] theorem Ctx.setVreg_pool (c : Ctx) (k : Nat) (v : VWord) : (c.setVreg k v).pool = c.pool := rfl
@[simp] theorem Ctx.setVreg_budget (c : Ctx) (k : Nat) (v : VWord) : (c.setVreg k v).budget = c.budget := rfl
@[simp] theorem Ctx.setVreg_tYield (c : Ctx) (k : Nat) (v : VWord) : (c.setVreg k v).tYield = c.tYield := rfl
@[simp] theorem Ctx.setVreg_tKill (c : Ctx) (k : Nat) (v : VWord) : (c.setVreg k v).tKill = c.tKill := rfl
@[simp] theorem Ctx.setVreg_tFence (c : Ctx) (k : Nat) (v : VWord) : (c.setVreg k v).tFence = c.tFence := rfl
@[simp] theorem Ctx.setVreg_cycles (c : Ctx) (k : Nat) (v : VWord) : (c.setVreg k v).cycles = c.cycles := rfl
@[simp] theorem Ctx.setVreg_pktB (c : Ctx) (k : Nat) (v : VWord) : (c.setVreg k v).pktB = c.pktB := rfl
@[simp] theorem Ctx.setVreg_deqB (c : Ctx) (k : Nat) (v : VWord) : (c.setVreg k v).deqB = c.deqB := rfl
@[simp] theorem Ctx.setVreg_done1 (c : Ctx) (k : Nat) (v : VWord) : (c.setVreg k v).done1 = c.done1 := rfl
@[simp] theorem Ctx.setVreg_phase (c : Ctx) (k : Nat) (v : VWord) : (c.setVreg k v).phase = c.phase := rfl
@[simp] theorem Ctx.setVreg_gang (c : Ctx) (k : Nat) (v : VWord) : (c.setVreg k v).gang = c.gang := rfl
@[simp] theorem Ctx.setVreg_fid (c : Ctx) (k : Nat) (v : VWord) : (c.setVreg k v).fid = c.fid := rfl
@[simp] theorem Ctx.setVreg_icnt (c : Ctx) (k : Nat) (v : VWord) : (c.setVreg k v).icnt = c.icnt := rfl
@[simp] theorem Ctx.setVreg_parkP (c : Ctx) (k : Nat) (v : VWord) : (c.setVreg k v).parkP = c.parkP := rfl
@[simp] theorem Ctx.setVreg_parkV (c : Ctx) (k : Nat) (v : VWord) : (c.setVreg k v).parkV = c.parkV := rfl
@[simp] theorem Ctx.setVreg_log (c : Ctx) (k : Nat) (v : VWord) : (c.setVreg k v).log = c.log := rfl
@[simp] theorem Ctx.setVreg_slots (c : Ctx) (k : Nat) (v : VWord) : (c.setVreg k v).slots = c.slots := rfl
@[simp] theorem Ctx.setVreg_written (c : Ctx) (k : Nat) (v : VWord) : (c.setVreg k v).written = c.written := rfl
@[simp] theorem Ctx.setVreg_msgs (c : Ctx) (k : Nat) (v : VWord) : (c.setVreg k v).msgs = c.msgs := rfl
@[simp] theorem Ctx.setVreg_retEnt (c : Ctx) (k : Nat) (v : VWord) : (c.setVreg k v).retEnt = c.retEnt := rfl
@[simp] theorem Ctx.setVreg_loads (c : Ctx) (k : Nat) (v : VWord) : (c.setVreg k v).loads = c.loads := rfl
@[simp] theorem Ctx.setVreg_xlate (c : Ctx) (k : Nat) (v : VWord) : (c.setVreg k v).xlate = c.xlate := rfl
@[simp] theorem Ctx.setVreg_imprec (c : Ctx) (k : Nat) (v : VWord) : (c.setVreg k v).imprec = c.imprec := rfl
@[simp] theorem Ctx.setVreg_pub (c : Ctx) (k : Nat) (v : VWord) : (c.setVreg k v).pub = c.pub := rfl
@[simp] theorem Ctx.setVreg_pubLo (c : Ctx) (k : Nat) (v : VWord) : (c.setVreg k v).pubLo = c.pubLo := rfl
@[simp] theorem Ctx.setVreg_cellDst (c : Ctx) (k : Nat) (v : VWord) : (c.setVreg k v).cellDst = c.cellDst := rfl
@[simp] theorem Ctx.setVreg_from_ (c : Ctx) (k : Nat) (v : VWord) : (c.setVreg k v).from_ = c.from_ := rfl
@[simp] theorem Ctx.setVreg_owed (c : Ctx) (k : Nat) (v : VWord) : (c.setVreg k v).owed = c.owed := rfl
@[simp] theorem Ctx.setBreg_sregs (c : Ctx) (k : BReg) (v : Word) : (c.setBreg k v).sregs = c.sregs := rfl
@[simp] theorem Ctx.setBreg_vregs (c : Ctx) (k : BReg) (v : Word) : (c.setBreg k v).vregs = c.vregs := rfl
@[simp] theorem Ctx.setBreg_mregs (c : Ctx) (k : BReg) (v : Word) : (c.setBreg k v).mregs = c.mregs := rfl
@[simp] theorem Ctx.setBreg_pc (c : Ctx) (k : BReg) (v : Word) : (c.setBreg k v).pc = c.pc := rfl
@[simp] theorem Ctx.setBreg_npc (c : Ctx) (k : BReg) (v : Word) : (c.setBreg k v).npc = c.npc := rfl
@[simp] theorem Ctx.setBreg_part (c : Ctx) (k : BReg) (v : Word) : (c.setBreg k v).part = c.part := rfl
@[simp] theorem Ctx.setBreg_aid (c : Ctx) (k : BReg) (v : Word) : (c.setBreg k v).aid = c.aid := rfl
@[simp] theorem Ctx.setBreg_slot (c : Ctx) (k : BReg) (v : Word) : (c.setBreg k v).slot = c.slot := rfl
@[simp] theorem Ctx.setBreg_rule (c : Ctx) (k : BReg) (v : Word) : (c.setBreg k v).rule = c.rule := rfl
@[simp] theorem Ctx.setBreg_nmsg (c : Ctx) (k : BReg) (v : Word) : (c.setBreg k v).nmsg = c.nmsg := rfl
@[simp] theorem Ctx.setBreg_gidx (c : Ctx) (k : BReg) (v : Word) : (c.setBreg k v).gidx = c.gidx := rfl
@[simp] theorem Ctx.setBreg_sbase (c : Ctx) (k : BReg) (v : Word) : (c.setBreg k v).sbase = c.sbase := rfl
@[simp] theorem Ctx.setBreg_ssize (c : Ctx) (k : BReg) (v : Word) : (c.setBreg k v).ssize = c.ssize := rfl
@[simp] theorem Ctx.setBreg_fcsr (c : Ctx) (k : BReg) (v : Word) : (c.setBreg k v).fcsr = c.fcsr := rfl
@[simp] theorem Ctx.setBreg_ocLd (c : Ctx) (k : BReg) (v : Word) : (c.setBreg k v).ocLd = c.ocLd := rfl
@[simp] theorem Ctx.setBreg_ocSt (c : Ctx) (k : BReg) (v : Word) : (c.setBreg k v).ocSt = c.ocSt := rfl
@[simp] theorem Ctx.setBreg_ocCp (c : Ctx) (k : BReg) (v : Word) : (c.setBreg k v).ocCp = c.ocCp := rfl
@[simp] theorem Ctx.setBreg_ocTl (c : Ctx) (k : BReg) (v : Word) : (c.setBreg k v).ocTl = c.ocTl := rfl
@[simp] theorem Ctx.setBreg_yreq (c : Ctx) (k : BReg) (v : Word) : (c.setBreg k v).yreq = c.yreq := rfl
@[simp] theorem Ctx.setBreg_lmask (c : Ctx) (k : BReg) (v : Word) : (c.setBreg k v).lmask = c.lmask := rfl
@[simp] theorem Ctx.setBreg_fsyn (c : Ctx) (k : BReg) (v : Word) : (c.setBreg k v).fsyn = c.fsyn := rfl
@[simp] theorem Ctx.setBreg_fva (c : Ctx) (k : BReg) (v : Word) : (c.setBreg k v).fva = c.fva := rfl
@[simp] theorem Ctx.setBreg_fpc (c : Ctx) (k : BReg) (v : Word) : (c.setBreg k v).fpc = c.fpc := rfl
@[simp] theorem Ctx.setBreg_fmsg (c : Ctx) (k : BReg) (v : Word) : (c.setBreg k v).fmsg = c.fmsg := rfl
@[simp] theorem Ctx.setBreg_kind (c : Ctx) (k : BReg) (v : Word) : (c.setBreg k v).kind = c.kind := rfl
@[simp] theorem Ctx.setBreg_pool (c : Ctx) (k : BReg) (v : Word) : (c.setBreg k v).pool = c.pool := rfl
@[simp] theorem Ctx.setBreg_budget (c : Ctx) (k : BReg) (v : Word) : (c.setBreg k v).budget = c.budget := rfl
@[simp] theorem Ctx.setBreg_tYield (c : Ctx) (k : BReg) (v : Word) : (c.setBreg k v).tYield = c.tYield := rfl
@[simp] theorem Ctx.setBreg_tKill (c : Ctx) (k : BReg) (v : Word) : (c.setBreg k v).tKill = c.tKill := rfl
@[simp] theorem Ctx.setBreg_tFence (c : Ctx) (k : BReg) (v : Word) : (c.setBreg k v).tFence = c.tFence := rfl
@[simp] theorem Ctx.setBreg_cycles (c : Ctx) (k : BReg) (v : Word) : (c.setBreg k v).cycles = c.cycles := rfl
@[simp] theorem Ctx.setBreg_pktB (c : Ctx) (k : BReg) (v : Word) : (c.setBreg k v).pktB = c.pktB := rfl
@[simp] theorem Ctx.setBreg_deqB (c : Ctx) (k : BReg) (v : Word) : (c.setBreg k v).deqB = c.deqB := rfl
@[simp] theorem Ctx.setBreg_done1 (c : Ctx) (k : BReg) (v : Word) : (c.setBreg k v).done1 = c.done1 := rfl
@[simp] theorem Ctx.setBreg_phase (c : Ctx) (k : BReg) (v : Word) : (c.setBreg k v).phase = c.phase := rfl
@[simp] theorem Ctx.setBreg_gang (c : Ctx) (k : BReg) (v : Word) : (c.setBreg k v).gang = c.gang := rfl
@[simp] theorem Ctx.setBreg_fid (c : Ctx) (k : BReg) (v : Word) : (c.setBreg k v).fid = c.fid := rfl
@[simp] theorem Ctx.setBreg_icnt (c : Ctx) (k : BReg) (v : Word) : (c.setBreg k v).icnt = c.icnt := rfl
@[simp] theorem Ctx.setBreg_parkP (c : Ctx) (k : BReg) (v : Word) : (c.setBreg k v).parkP = c.parkP := rfl
@[simp] theorem Ctx.setBreg_parkV (c : Ctx) (k : BReg) (v : Word) : (c.setBreg k v).parkV = c.parkV := rfl
@[simp] theorem Ctx.setBreg_log (c : Ctx) (k : BReg) (v : Word) : (c.setBreg k v).log = c.log := rfl
@[simp] theorem Ctx.setBreg_slots (c : Ctx) (k : BReg) (v : Word) : (c.setBreg k v).slots = c.slots := rfl
@[simp] theorem Ctx.setBreg_written (c : Ctx) (k : BReg) (v : Word) : (c.setBreg k v).written = c.written := rfl
@[simp] theorem Ctx.setBreg_msgs (c : Ctx) (k : BReg) (v : Word) : (c.setBreg k v).msgs = c.msgs := rfl
@[simp] theorem Ctx.setBreg_retEnt (c : Ctx) (k : BReg) (v : Word) : (c.setBreg k v).retEnt = c.retEnt := rfl
@[simp] theorem Ctx.setBreg_loads (c : Ctx) (k : BReg) (v : Word) : (c.setBreg k v).loads = c.loads := rfl
@[simp] theorem Ctx.setBreg_xlate (c : Ctx) (k : BReg) (v : Word) : (c.setBreg k v).xlate = c.xlate := rfl
@[simp] theorem Ctx.setBreg_imprec (c : Ctx) (k : BReg) (v : Word) : (c.setBreg k v).imprec = c.imprec := rfl
@[simp] theorem Ctx.setBreg_pub (c : Ctx) (k : BReg) (v : Word) : (c.setBreg k v).pub = c.pub := rfl
@[simp] theorem Ctx.setBreg_pubLo (c : Ctx) (k : BReg) (v : Word) : (c.setBreg k v).pubLo = c.pubLo := rfl
@[simp] theorem Ctx.setBreg_cellDst (c : Ctx) (k : BReg) (v : Word) : (c.setBreg k v).cellDst = c.cellDst := rfl
@[simp] theorem Ctx.setBreg_from_ (c : Ctx) (k : BReg) (v : Word) : (c.setBreg k v).from_ = c.from_ := rfl
@[simp] theorem Ctx.setBreg_owed (c : Ctx) (k : BReg) (v : Word) : (c.setBreg k v).owed = c.owed := rfl
@[simp] theorem Ctx.raise_sregs (c : Ctx) (n : Nat) : (c.raise n).sregs = c.sregs := rfl
@[simp] theorem Ctx.raise_vregs (c : Ctx) (n : Nat) : (c.raise n).vregs = c.vregs := rfl
@[simp] theorem Ctx.raise_mregs (c : Ctx) (n : Nat) : (c.raise n).mregs = c.mregs := rfl
@[simp] theorem Ctx.raise_bregs (c : Ctx) (n : Nat) : (c.raise n).bregs = c.bregs := rfl
@[simp] theorem Ctx.raise_pc (c : Ctx) (n : Nat) : (c.raise n).pc = c.pc := rfl
@[simp] theorem Ctx.raise_npc (c : Ctx) (n : Nat) : (c.raise n).npc = c.npc := rfl
@[simp] theorem Ctx.raise_part (c : Ctx) (n : Nat) : (c.raise n).part = c.part := rfl
@[simp] theorem Ctx.raise_aid (c : Ctx) (n : Nat) : (c.raise n).aid = c.aid := rfl
@[simp] theorem Ctx.raise_slot (c : Ctx) (n : Nat) : (c.raise n).slot = c.slot := rfl
@[simp] theorem Ctx.raise_rule (c : Ctx) (n : Nat) : (c.raise n).rule = c.rule := rfl
@[simp] theorem Ctx.raise_nmsg (c : Ctx) (n : Nat) : (c.raise n).nmsg = c.nmsg := rfl
@[simp] theorem Ctx.raise_gidx (c : Ctx) (n : Nat) : (c.raise n).gidx = c.gidx := rfl
@[simp] theorem Ctx.raise_sbase (c : Ctx) (n : Nat) : (c.raise n).sbase = c.sbase := rfl
@[simp] theorem Ctx.raise_ssize (c : Ctx) (n : Nat) : (c.raise n).ssize = c.ssize := rfl
@[simp] theorem Ctx.raise_ocLd (c : Ctx) (n : Nat) : (c.raise n).ocLd = c.ocLd := rfl
@[simp] theorem Ctx.raise_ocSt (c : Ctx) (n : Nat) : (c.raise n).ocSt = c.ocSt := rfl
@[simp] theorem Ctx.raise_ocCp (c : Ctx) (n : Nat) : (c.raise n).ocCp = c.ocCp := rfl
@[simp] theorem Ctx.raise_ocTl (c : Ctx) (n : Nat) : (c.raise n).ocTl = c.ocTl := rfl
@[simp] theorem Ctx.raise_yreq (c : Ctx) (n : Nat) : (c.raise n).yreq = c.yreq := rfl
@[simp] theorem Ctx.raise_lmask (c : Ctx) (n : Nat) : (c.raise n).lmask = c.lmask := rfl
@[simp] theorem Ctx.raise_fsyn (c : Ctx) (n : Nat) : (c.raise n).fsyn = c.fsyn := rfl
@[simp] theorem Ctx.raise_fva (c : Ctx) (n : Nat) : (c.raise n).fva = c.fva := rfl
@[simp] theorem Ctx.raise_fpc (c : Ctx) (n : Nat) : (c.raise n).fpc = c.fpc := rfl
@[simp] theorem Ctx.raise_fmsg (c : Ctx) (n : Nat) : (c.raise n).fmsg = c.fmsg := rfl
@[simp] theorem Ctx.raise_kind (c : Ctx) (n : Nat) : (c.raise n).kind = c.kind := rfl
@[simp] theorem Ctx.raise_pool (c : Ctx) (n : Nat) : (c.raise n).pool = c.pool := rfl
@[simp] theorem Ctx.raise_budget (c : Ctx) (n : Nat) : (c.raise n).budget = c.budget := rfl
@[simp] theorem Ctx.raise_tYield (c : Ctx) (n : Nat) : (c.raise n).tYield = c.tYield := rfl
@[simp] theorem Ctx.raise_tKill (c : Ctx) (n : Nat) : (c.raise n).tKill = c.tKill := rfl
@[simp] theorem Ctx.raise_tFence (c : Ctx) (n : Nat) : (c.raise n).tFence = c.tFence := rfl
@[simp] theorem Ctx.raise_cycles (c : Ctx) (n : Nat) : (c.raise n).cycles = c.cycles := rfl
@[simp] theorem Ctx.raise_pktB (c : Ctx) (n : Nat) : (c.raise n).pktB = c.pktB := rfl
@[simp] theorem Ctx.raise_deqB (c : Ctx) (n : Nat) : (c.raise n).deqB = c.deqB := rfl
@[simp] theorem Ctx.raise_done1 (c : Ctx) (n : Nat) : (c.raise n).done1 = c.done1 := rfl
@[simp] theorem Ctx.raise_phase (c : Ctx) (n : Nat) : (c.raise n).phase = c.phase := rfl
@[simp] theorem Ctx.raise_gang (c : Ctx) (n : Nat) : (c.raise n).gang = c.gang := rfl
@[simp] theorem Ctx.raise_fid (c : Ctx) (n : Nat) : (c.raise n).fid = c.fid := rfl
@[simp] theorem Ctx.raise_icnt (c : Ctx) (n : Nat) : (c.raise n).icnt = c.icnt := rfl
@[simp] theorem Ctx.raise_parkP (c : Ctx) (n : Nat) : (c.raise n).parkP = c.parkP := rfl
@[simp] theorem Ctx.raise_parkV (c : Ctx) (n : Nat) : (c.raise n).parkV = c.parkV := rfl
@[simp] theorem Ctx.raise_log (c : Ctx) (n : Nat) : (c.raise n).log = c.log := rfl
@[simp] theorem Ctx.raise_slots (c : Ctx) (n : Nat) : (c.raise n).slots = c.slots := rfl
@[simp] theorem Ctx.raise_written (c : Ctx) (n : Nat) : (c.raise n).written = c.written := rfl
@[simp] theorem Ctx.raise_msgs (c : Ctx) (n : Nat) : (c.raise n).msgs = c.msgs := rfl
@[simp] theorem Ctx.raise_retEnt (c : Ctx) (n : Nat) : (c.raise n).retEnt = c.retEnt := rfl
@[simp] theorem Ctx.raise_loads (c : Ctx) (n : Nat) : (c.raise n).loads = c.loads := rfl
@[simp] theorem Ctx.raise_xlate (c : Ctx) (n : Nat) : (c.raise n).xlate = c.xlate := rfl
@[simp] theorem Ctx.raise_imprec (c : Ctx) (n : Nat) : (c.raise n).imprec = c.imprec := rfl
@[simp] theorem Ctx.raise_pub (c : Ctx) (n : Nat) : (c.raise n).pub = c.pub := rfl
@[simp] theorem Ctx.raise_pubLo (c : Ctx) (n : Nat) : (c.raise n).pubLo = c.pubLo := rfl
@[simp] theorem Ctx.raise_cellDst (c : Ctx) (n : Nat) : (c.raise n).cellDst = c.cellDst := rfl
@[simp] theorem Ctx.raise_from_ (c : Ctx) (n : Nat) : (c.raise n).from_ = c.from_ := rfl
@[simp] theorem Ctx.raise_owed (c : Ctx) (n : Nat) : (c.raise n).owed = c.owed := rfl

end Sys2Proof.Machine
end

