-- ==== Sys2Proof/Laws/Exec.lean ====
section
/-! SUPPORT. How an instruction ends: what `finish`, `each`, `eachCtx` and `once` leave, said once for every instruction. -/

namespace Sys2Proof.Machine

/-! ### The contexts of the current firing -/

theorem State.members_nodup (s : State) (w : Nat) : (s.members w).Nodup := by
  unfold State.members; split <;> simp

theorem State.mem_members_self (s : State) (w : Nat) : w ∈ s.members w := by
  unfold State.members; split <;> simp

/-- The contexts that execute depend on one bit of the leading context. -/
theorem State.members_congr (s t : State) (w : Nat) (h : (s.ctx w).gang = (t.ctx w).gang) : s.members w = t.members w := by
  simp [State.members, h]

/-- Applying a function to a list of different contexts changes those contexts and nothing else. -/
theorem State.foldCtx (l : List Nat) (hl : l.Nodup) (f : Ctx → Ctx) (s : State) :
    (l.foldl (fun s m => s.onCtx m f) s) = { s with ctxs := (l.foldl (fun s m => s.onCtx m f) s).ctxs } ∧
    ∀ j, (l.foldl (fun s m => s.onCtx m f) s).ctx j = if j ∈ l then f (s.ctx j) else s.ctx j := by
  induction l generalizing s with
  | nil => exact ⟨rfl, fun j => by simp⟩
  | cons a l ih =>
    obtain ⟨ha, hl⟩ := List.nodup_cons.1 hl
    obtain ⟨h1, h2⟩ := ih hl (s.onCtx a f)
    refine ⟨by simpa [State.onCtx, State.setCtx] using h1, fun j => ?_⟩
    rw [List.foldl_cons, h2 j]
    by_cases hj : j = a
    · subst hj; simp [ha]
    · by_cases hjl : j ∈ l <;> simp [hj, hjl]

/-- Changes of the contexts alone compose. -/
theorem State.ctxsOnly_trans {s t u : State} (h : t = { s with ctxs := t.ctxs }) (k : u = { t with ctxs := u.ctxs }) :
    u = { s with ctxs := u.ctxs } := by
  generalize t.ctxs = a at h; generalize hb : u.ctxs = b at k ⊢; subst h; exact k

@[simp] theorem Ctx.retired_gang (c : Ctx) : c.retired.gang = c.gang := rfl

/-- Completing an instruction changes the contexts of the firing and nothing else. -/
theorem State.retire_spec (s : State) (w : Nat) :
    s.retire w = { s with ctxs := (s.retire w).ctxs } ∧
    ∀ j, (s.retire w).ctx j = if j ∈ s.members w then (s.ctx j).retired else s.ctx j :=
  State.foldCtx _ (s.members_nodup w) Ctx.retired s

/-- An instruction that changes registers only: it completes, whatever they hold. -/
theorem eachCtx_spec (s : State) (f : Ctx → Ctx) (hg : ∀ c, (f c).gang = c.gang) :
    ∃ t, eachCtx s f = .next t ∧ t = { s with ctxs := t.ctxs } ∧
      ∀ j, t.ctx j = if j ∈ s.members s.cur then (f (s.ctx j)).retired else s.ctx j := by
  obtain ⟨h1, h2⟩ := State.foldCtx _ (s.members_nodup s.cur) f s
  generalize hu : (s.members s.cur).foldl (fun s m => s.onCtx m f) s = u at h1 h2
  have hm : u.members s.cur = s.members s.cur := by
    refine State.members_congr _ _ _ ?_
    rw [h2]; split <;> simp [hg]
  obtain ⟨h3, h4⟩ := u.retire_spec s.cur
  refine ⟨u.retire s.cur, ?_, ?_, fun j => ?_⟩
  · simp only [eachCtx, finish, hu]
  · exact State.ctxsOnly_trans h1 h3
  · rw [h4, hm, h2]; split <;> rfl

/-- A register instruction completes with the effect that its function on one context has. -/
theorem eachCtx_completes (s : State) (f : Ctx → Ctx) (hg : ∀ c, (f c).gang = c.gang) (i : Instr) (P : Ctx → Effect → Prop)
    (hi : exec i s = eachCtx s f) (hP : ∀ c, ∃ e, P c e ∧ e.On c (f c).retired) : Completes i s P := by
  obtain ⟨t, h1, h2, h3⟩ := eachCtx_spec s f hg
  refine ⟨t, hi.trans h1, h2, fun w hw => by simp [h3, hw], fun w hw => ?_⟩
  rw [h3, if_pos hw]; exact hP _

/-- Running a function of the context number on a list of different contexts. -/
theorem eachFrom_onCtx (f : Nat → Ctx → Ctx) (l : List Nat) (hl : l.Nodup) (i : Nat) (s : State) :
    ∃ u, eachFrom (fun k s => .ok (s.onCtx k (f k))) l i s = .ok u ∧ u = { s with ctxs := u.ctxs } ∧
      ∀ j, u.ctx j = if j ∈ l then f j (s.ctx j) else s.ctx j := by
  induction l generalizing s i with
  | nil => exact ⟨s, rfl, rfl, fun j => by simp⟩
  | cons a l ih =>
    obtain ⟨ha, hl⟩ := List.nodup_cons.1 hl
    obtain ⟨u, h1, h2, h3⟩ := ih hl (i + 1) (s.onCtx a (f a))
    refine ⟨u, h1, by simpa [State.onCtx, State.setCtx] using h2, fun j => ?_⟩
    rw [h3]
    by_cases hj : j = a
    · subst hj; simp [ha]
    · by_cases hjl : j ∈ l <;> simp [hj, hjl]

theorem firstWait_onCtx (f : Nat → Ctx → Ctx) (s : State) (l : List Nat) :
    firstWait (fun k s => .ok (s.onCtx k (f k))) s l = none := by
  induction l with
  | nil => rfl
  | cons a l ih => simpa [firstWait] using ih

/-- An instruction that each context executes on its own registers, knowing its number. -/
theorem each_onCtx_spec (s : State) (f : Nat → Ctx → Ctx) (hg : ∀ k c, (f k c).gang = c.gang) :
    ∃ t, each s (fun k s => .ok (s.onCtx k (f k))) = .next t ∧ t = { s with ctxs := t.ctxs } ∧
      ∀ j, t.ctx j = if j ∈ s.members s.cur then (f j (s.ctx j)).retired else s.ctx j := by
  obtain ⟨u, h1, h2, h3⟩ := eachFrom_onCtx f _ (s.members_nodup s.cur) 0 s
  have hm : u.members s.cur = s.members s.cur := by
    refine State.members_congr _ _ _ ?_
    rw [h3]; split <;> simp [hg]
  obtain ⟨h4, h5⟩ := u.retire_spec s.cur
  refine ⟨u.retire s.cur, ?_, State.ctxsOnly_trans h2 h4, fun j => ?_⟩
  · unfold each
    split
    · next m hms =>
      simp only [hms, eachFrom, Except.ok.injEq] at h1
      simp [finish, h1]
    · rw [firstWait_onCtx]; simp [finish, h1]
  · rw [h5, hm, h3]; split <;> rfl

/-! ### Register writes as effects -/

@[simp] theorem Ctx.sreg_setSreg (c : Ctx) (k : Nat) (v : Word) (j : Nat) :
    (c.setSreg k v).sreg j = if j = k then v else c.sreg j := by simp [Ctx.setSreg, Ctx.sreg]
@[simp] theorem Ctx.vreg_setVreg (c : Ctx) (k : Nat) (v : VWord) (j : Nat) :
    (c.setVreg k v).vreg j = if j = k then v else c.vreg j := by simp [Ctx.setVreg, Ctx.vreg]

/-- Reading a list of writes. -/
@[simp] theorem lookup_getD_cons {α : Type} (a : Nat) (v : α) (l : List (Nat × α)) (k : Nat) (x : α) :
    (((a, v) :: l).lookup k).getD x = if k = a then v else (l.lookup k).getD x := by
  by_cases h : k = a
  · simp [List.lookup, h]
  · simp [List.lookup, h, beq_eq_false_iff_ne.2 h]
@[simp] theorem lookup_getD_nil {α : Type} (k : Nat) (x : α) : (([] : List (Nat × α)).lookup k).getD x = x := rfl

/-- A scalar destination changes the registers that `Ctx.writes` lists, and only the table of scalar registers. -/
theorem Ctx.dst_sreg (c : Ctx) (d : Dst) (v : Word) (k : Nat) :
    (c.dst d v).sreg k = ((c.writes d v).lookup k).getD (c.sreg k) := by
  cases d <;> simp [Ctx.dst, Ctx.writes, Ctx.pushZ]

theorem Ctx.dst_eq (c : Ctx) (d : Dst) (v : Word) : c.dst d v = { c with sregs := (c.dst d v).sregs } := by
  cases d <;> rfl

/-- A vector destination changes the registers that `Ctx.vwrites` lists, and only the table of vector registers. -/
theorem Ctx.vdst_vreg (c : Ctx) (d : VDst) (v : VWord) (k : Nat) :
    (c.vdst d v).vreg k = ((c.vwrites d v).lookup k).getD (c.vreg k) := by
  cases d <;> simp [Ctx.vdst, Ctx.vwrites]

theorem Ctx.vdst_eq (c : Ctx) (d : VDst) (v : VWord) : c.vdst d v = { c with vregs := (c.vdst d v).vregs } := by
  cases d <;> rfl

/-- Writing a mask register: m0 stays all ones. -/
theorem Ctx.mask_setMask (c : Ctx) (m n : MReg) (v : Word) :
    (c.setMask m v).mask n = ((mwrites m v).lookup n.val).getD (c.mask n) := by
  unfold Ctx.setMask mwrites
  by_cases hm : m.val = 0
  · simp [hm]
  · by_cases h : n.val = m.val
    · simp [Ctx.mask, hm, h]
    · simp [Ctx.mask, hm, h]

theorem Ctx.setMask_eq (c : Ctx) (m : MReg) (v : Word) : c.setMask m v = { c with mregs := (c.setMask m v).mregs } := by
  unfold Ctx.setMask; split <;> rfl

/-- A scalar result with flags, as an effect. -/
theorem Ctx.result_on (c : Ctx) (d : Dst) (v : Word) (fl : Nat) :
    Effect.On { scalars := c.writes d v, flags := fl } c (c.result d v fl).retired := by
  have h := Ctx.dst_eq c d v
  refine ⟨fun k => ?_, fun k => ?_, fun m => ?_, fun b => ?_, ?_, ?_, ?_⟩
  · exact c.dst_sreg d v k
  all_goals simp only [Ctx.result, Ctx.retired, Ctx.raise]; rw [h]; try rfl

/-- A scalar result without flags, as an effect. -/
theorem Ctx.dst_on (c : Ctx) (d : Dst) (v : Word) : Effect.On { scalars := c.writes d v } c (c.dst d v).retired := by
  have h := c.result_on d v 0
  have : c.result d v 0 = c.dst d v := by rw [Ctx.result, Ctx.raise, Ctx.dst_eq]; simp
  rwa [this] at h

/-- A result that raises no flag. -/
theorem Ctx.dst_eq_result (c : Ctx) (d : Dst) (v : Word) : c.dst d v = c.result d v 0 := by
  rw [Ctx.result, Ctx.raise, Ctx.dst_eq]; simp

theorem Ctx.result_gang (c : Ctx) (d : Dst) (v : Word) (fl : Nat) : (c.result d v fl).gang = c.gang := by
  simp only [Ctx.result, Ctx.raise]; rw [Ctx.dst_eq]

/-- A mask result with flags, as an effect. -/
theorem Ctx.setMask_on (c : Ctx) (m : MReg) (v : Word) (fl : Nat) :
    Effect.On { masks := mwrites m v, flags := fl } c ((c.setMask m v).raise fl).retired := by
  have h := Ctx.setMask_eq c m v
  refine ⟨fun k => ?_, fun k => ?_, fun n => ?_, fun b => ?_, ?_, ?_, ?_⟩
  case refine_3 => exact c.mask_setMask m n v
  all_goals simp only [Ctx.retired, Ctx.raise]; rw [h]; try rfl

/-- A vector result with flags, as an effect. -/
theorem Ctx.vdst_on (c : Ctx) (d : VDst) (v : VWord) (fl : Nat) :
    Effect.On { vectors := c.vwrites d v, flags := fl } c ((c.vdst d v).raise fl).retired := by
  have h := Ctx.vdst_eq c d v
  refine ⟨fun k => ?_, fun k => ?_, fun m => ?_, fun b => ?_, ?_, ?_, ?_⟩
  case refine_2 => exact c.vdst_vreg d v k
  all_goals simp only [Ctx.retired, Ctx.raise]; rw [h]; try rfl

/-! ### Ranges of a command -/

/-- Ranges whose spans are found lie in the address space, so that an epilogue does not stop on them (R168). -/
theorem State.rangesTrap_none {s : State} {w : Nat} {acc : Access} {l : List Range} {sp : List (List Span)}
    (h : s.spansOfAll w acc l = .ok sp) : rangesTrap l = none := by
  induction l generalizing sp with
  | nil => rfl
  | cons r l ih =>
    obtain ⟨va, n⟩ := r
    simp only [State.spansOfAll] at h
    split at h
    · cases h
    next x hx =>
      split at h
      · cases h
      next xs hxs =>
        have hr : ¬ (n ≠ 0 ∧ 2 ^ 55 < va + n) := by
          rintro ⟨hn, hlt⟩
          simp only [State.spansOf, if_neg hn, if_pos hlt] at hx
          split at hx <;> cases hx
        have ht := ih hxs
        simp only [rangesTrap, Option.map_eq_none_iff, List.find?_eq_none] at ht ⊢
        intro y hy
        rcases List.mem_cons.1 hy with rfl | hy
        · simpa using hr
        · exact ht y hy

end Sys2Proof.Machine
end

