-- ==== Sys2Proof/Laws/Lanes.lean ====
section
/-! SUPPORT. Lanes of a register: reading a register that was put together from lanes, and what a merge leaves. -/

namespace Sys2Proof

/-- A list of lanes fits its width. -/
theorem ofLanes_lt (w : Nat) (l : List Nat) : ofLanes w l < 2 ^ (w * l.length) := by
  induction l with
  | nil => simp [ofLanes]
  | cons x l ih =>
    simp only [ofLanes, List.length_cons, Nat.mul_succ, pow_add]
    have h : x % 2 ^ w < 2 ^ w := Nat.mod_lt _ (by positivity)
    calc x % 2 ^ w + 2 ^ w * ofLanes w l < 2 ^ w + 2 ^ w * ofLanes w l := by omega
      _ = 2 ^ w * (ofLanes w l + 1) := by ring
      _ ≤ 2 ^ w * 2 ^ (w * l.length) := Nat.mul_le_mul_left _ ih
      _ = _ := by ring

/-- Lane `i` of a register that was put together from lanes. -/
theorem lane_ofLanes (w : Nat) (l : List Nat) (i : Nat) (h : i < l.length) : lane w i (ofLanes w l) = l[i] % 2 ^ w := by
  induction l generalizing i with
  | nil => simp at h
  | cons x l ih =>
    simp only [lane, Nat.shiftRight_eq_div_pow, ofLanes]
    cases i with
    | zero => simp
    | succ i =>
      have e : x % 2 ^ w + 2 ^ w * ofLanes w l = 2 ^ w * ofLanes w l + x % 2 ^ w := by ring
      have h1 : (x % 2 ^ w + 2 ^ w * ofLanes w l) / 2 ^ w = ofLanes w l := by
        rw [e, Nat.mul_add_div (by positivity), Nat.div_eq_of_lt (Nat.mod_lt _ (by positivity)), add_zero]
      rw [Nat.mul_succ, Nat.add_comm (w * i) w, pow_add, ← Nat.div_div_eq_div_mul, h1]
      have := ih i (by simpa using h)
      simpa [lane, Nat.shiftRight_eq_div_pow] using this

end Sys2Proof

namespace Sys2Proof.Machine

theorem vlane_eq (w i : Nat) (v : VWord) : vlane w i v = elem w i v := by
  simp [vlane, lane, elem, Nat.shiftRight_eq_div_pow]

/-- Activity of an element, for whole bytes. -/
theorem active_eq (mask : Word) (w i : Nat) (h : 8 ≤ w) : active mask w i = elemOn mask w i := by
  have : max 1 (w / 8) = w / 8 := by omega
  simp only [active, this, bit, elemOn, BitVec.getLsbD, Nat.testBit, Nat.shiftRight_eq_div_pow, Nat.one_and_eq_mod_two]
  by_cases h : mask.toNat / 2 ^ (w / 8 * i) % 2 = 1
  · simp [h]
  · have : mask.toNat / 2 ^ (w / 8 * i) % 2 = 0 := by omega
    simp [this]

/-- The flags of a list of results. -/
theorem foldl_flags (l : List (Nat × Nat)) (a k : Nat) :
    (l.foldl (fun a x => orFlags a x.2) a).testBit k = true ↔ a.testBit k = true ∨ ∃ x ∈ l, x.2.testBit k = true := by
  induction l generalizing a with
  | nil => simp
  | cons x l ih =>
    rw [List.foldl_cons, ih]
    simp only [orFlags, Nat.testBit_or, Bool.or_eq_true, List.mem_cons, exists_eq_or_imp]
    tauto

/-- What a merge leaves: lane by lane, and the flags of the active lanes (R125). -/
theorem mergeLanes_spec (w : Nat) (mask : Word) (old : VWord) (f : Nat → Nat × Nat) (hw : 8 ≤ w) :
    (∀ i < 512 / w, elem w i (mergeLanes w mask old f).1 = if elemOn mask w i then (f i).1 % 2 ^ w else elem w i old) ∧
    flagsOf (512 / w) (mergeLanes w mask old f).2 (elemOn mask w) (fun i => (f i).2) := by
  constructor
  · intro i hi
    rw [← vlane_eq, vlane]
    simp only [mergeLanes]
    generalize hl : (List.map (fun x : Nat × Nat => x.1) _) = l
    have hlen : l.length = 512 / w := by rw [← hl]; simp
    have hlt : ofLanes w l < 2 ^ 512 := lt_of_lt_of_le (ofLanes_lt w l)
      (Nat.pow_le_pow_right (by norm_num) (by rw [hlen]; exact Nat.mul_div_le 512 w))
    rw [BitVec.toNat_ofNat, Nat.mod_eq_of_lt hlt, lane_ofLanes _ _ _ (by omega)]
    subst hl
    simp only [List.getElem_map, List.getElem_range, active_eq _ _ _ hw, vlane_eq]
    split
    · rfl
    · simp [elem]
  · intro k
    simp only [mergeLanes, foldl_flags, Nat.zero_testBit, Bool.false_eq_true, false_or, List.mem_map, List.mem_range]
    constructor
    · rintro ⟨x, ⟨i, hi, rfl⟩, hx⟩
      rw [active_eq _ _ _ hw] at hx
      by_cases h : elemOn mask w i = true
      · exact ⟨i, hi, h, by simpa [h] using hx⟩
      · simp [h] at hx
    · rintro ⟨i, hi, h, hx⟩
      exact ⟨_, ⟨i, hi, rfl⟩, by rw [active_eq _ _ _ hw, if_pos h]; exact hx⟩

/-- A vector form that merges by its mask, as an effect on the context. -/
theorem Ctx.vmerge_on (c : Ctx) (d : VDst) (w : Nat) (m : MReg) (f : Nat → Nat × Nat) :
    Effect.On { vectors := c.vwrites d (mergeLanes w (c.mask m) (c.vold d) f).1,
                flags := (mergeLanes w (c.mask m) (c.vold d) f).2 } c (c.vmerge d w m f).retired :=
  c.vdst_on d _ _

theorem Ctx.vmerge_gang (c : Ctx) (d : VDst) (w : Nat) (m : MReg) (f : Nat → Nat × Nat) : (c.vmerge d w m f).gang = c.gang := by
  simp only [Ctx.vmerge, Ctx.raise]; rw [Ctx.vdst_eq]

end Sys2Proof.Machine
end

