-- ==== Sys2Proof/Laws/Memory.lean ====
section
/-! SUPPORT. What memory operations do: a read after a write, and that every operation that writes memory keeps its canonical form
(addresses strictly rising, no listed byte 0). -/

namespace Sys2Proof.Machine

/-! ### Read after write -/

@[simp] theorem State.rdByte_wrByte (s : State) (pa : Nat) (b : Byte) (a : Nat) :
    (s.wrByte pa b).rdByte a = if a = pa then b else s.rdByte a := by
  simp [State.rdByte, State.wrByte]

/-- Reading after a run of bytes is written. -/
theorem State.rdByte_wrBytes (bs : List Byte) : ∀ (s : State) (pa a : Nat),
    (s.wrBytes pa bs).rdByte a = if pa ≤ a ∧ a < pa + bs.length then bs.getD (a - pa) 0 else s.rdByte a := by
  induction bs with
  | nil => intro s pa a; rw [if_neg (by simp)]; rfl
  | cons b bs ih =>
    intro s pa a
    rw [State.wrBytes, ih, State.rdByte_wrByte]
    by_cases h : a = pa
    · subst h
      rw [if_neg (by omega), if_pos rfl, if_pos (by simp)]; simp
    · by_cases k : pa + 1 ≤ a ∧ a < pa + 1 + bs.length
      · rw [if_pos k, if_pos (by simp only [List.length_cons]; omega)]
        have e : a - pa = (a - (pa + 1)) + 1 := by omega
        rw [e]; simp
      · rw [if_neg k, if_neg h, if_neg (by simp only [List.length_cons]; omega)]

/-- A write of bytes changes memory only. -/
theorem State.wrBytes_eq (bs : List Byte) : ∀ (s : State) (pa : Nat), s.wrBytes pa bs = { s with mem := (s.wrBytes pa bs).mem } := by
  induction bs with
  | nil => intro s pa; rfl
  | cons b bs ih =>
    intro s pa
    rw [State.wrBytes, ih (s.wrByte pa b) (pa + 1)]; rfl

theorem leBytes_length (n : Nat) : ∀ v, (leBytes n v).length = n := by
  induction n with
  | zero => intro v; rfl
  | succ n ih => intro v; simp [leBytes, ih]

theorem leNat_leBytes (n : Nat) : ∀ v, leNat (leBytes n v) = v % 256 ^ n := by
  induction n with
  | zero => intro v; simp [leBytes, leNat, Nat.mod_one]
  | succ n ih =>
    intro v
    have e : (256 : Nat) ^ (n + 1) = 256 * 256 ^ n := by rw [Nat.pow_succ, Nat.mul_comm]
    rw [e, Nat.mod_mul]
    simp only [leBytes, leNat, ih, BitVec.toNat_ofNat]

/-- Reading a number back from where it was written. -/
theorem State.rdNat_wrNat (s : State) (pa n v : Nat) : (s.wrNat pa n v).rdNat pa n = v % 256 ^ n := by
  have e : (s.wrNat pa n v).rdBytes pa n = leBytes n v := by
    apply List.ext_getElem
    · simp [State.rdBytes, leBytes_length]
    · intro i h1 h2
      have hi : i < n := by simpa [State.rdBytes] using h1
      simp only [State.rdBytes, List.getElem_map, List.getElem_range, State.wrNat, State.rdByte_wrBytes, leBytes_length]
      rw [if_pos (by omega)]
      simp [h2]
  rw [State.rdNat, e, leNat_leBytes]

/-- A number written elsewhere does not change a byte. -/
theorem State.rdByte_wrNat_ne (s : State) (pa n v a : Nat) (h : a < pa ∨ pa + n ≤ a) : (s.wrNat pa n v).rdByte a = s.rdByte a := by
  rw [State.wrNat, State.rdByte_wrBytes, leBytes_length, if_neg (by omega)]

@[simp] theorem State.rd64_wr64 (s : State) (pa v : Nat) : (s.wr64 pa v).rd64 pa = v % 2 ^ 64 := by
  rw [State.rd64, State.wr64, State.rdNat_wrNat]
  rfl

/-- Words written elsewhere read as before. -/
theorem State.rd64_wr64_ne (s : State) (pa v a : Nat) (h : a + 8 ≤ pa ∨ pa + 8 ≤ a) : (s.wr64 pa v).rd64 a = s.rd64 a := by
  have e : (s.wr64 pa v).rdBytes a 8 = s.rdBytes a 8 := by
    apply List.map_congr_left
    intro i hi
    exact s.rdByte_wrNat_ne pa 8 v (a + i) (by have := List.mem_range.mp hi; omega)
  rw [State.rd64, State.rd64, State.rdNat, State.rdNat, e]

/-! ### Reading a range that is replaced at once -/

theorem get_cellsFrom (bs : List Byte) : ∀ (pa a : Nat),
    FMap.get 0 (cellsFrom pa bs) a = if pa ≤ a ∧ a < pa + bs.length then bs.getD (a - pa) 0 else 0 := by
  induction bs with
  | nil => intro pa a; simp [cellsFrom, FMap.get]
  | cons b bs ih =>
    intro pa a
    have hs : ∀ c : Byte, (if pa + 1 ≤ a ∧ a < pa + 1 + bs.length then bs.getD (a - (pa + 1)) 0 else c) =
        if pa ≤ a ∧ a < pa + (b :: bs).length ∧ a ≠ pa then (b :: bs).getD (a - pa) 0 else c := by
      intro c
      by_cases k : pa + 1 ≤ a ∧ a < pa + 1 + bs.length
      · rw [if_pos k, if_pos (by simp only [List.length_cons]; omega)]
        have e : a - pa = (a - (pa + 1)) + 1 := by omega
        rw [e]; simp
      · rw [if_neg k, if_neg (by simp only [List.length_cons]; omega)]
    simp only [cellsFrom]
    split
    · rename_i h0
      rw [ih, hs]
      by_cases h : a = pa
      · subst h; simp [h0]
      · simp [h]
    · rw [FMap.get, ih]
      by_cases h : a = pa
      · subst h; simp
      · rw [if_neg h, hs]; simp [h]

theorem FMap.get_append {α : Type} (d : α) (m n : FMap α) (i : Nat) (h : ∀ p ∈ m, p.1 ≠ i) :
    FMap.get d (m ++ n) i = FMap.get d n i := by
  induction m with
  | nil => rfl
  | cons p m ih =>
    have hp : i ≠ p.1 := fun e => h p (by simp) e.symm
    simp only [List.cons_append, FMap.get, if_neg hp]
    exact ih (fun q hq => h q (by simp [hq]))

theorem FMap.get_append_left {α : Type} (d : α) (m n : FMap α) (i : Nat) (h : ∀ p ∈ n, p.1 ≠ i) :
    FMap.get d (m ++ n) i = FMap.get d m i := by
  induction m with
  | nil =>
    rw [List.nil_append]
    induction n with
    | nil => rfl
    | cons p n ih =>
      have hp : i ≠ p.1 := fun e => h p (by simp) e.symm
      simp only [FMap.get, if_neg hp]
      exact ih (fun q hq => h q (by simp [hq]))
  | cons p m ih => simp only [List.cons_append, FMap.get, ih]

theorem FMap.get_filter {α : Type} (d : α) (q : Nat → Bool) (m : FMap α) (i : Nat) (h : q i = true) :
    FMap.get d (m.filter (fun c => q c.1)) i = FMap.get d m i := by
  induction m with
  | nil => rfl
  | cons p m ih =>
    obtain ⟨k, v⟩ := p
    by_cases hk : q k = true
    · simp only [List.filter_cons, hk, if_true, FMap.get, ih]
    · have : i ≠ k := fun e => hk (e ▸ h)
      simp only [List.filter_cons, hk, FMap.get, if_neg this]
      simpa using ih

theorem mem_cellsFrom (bs : List Byte) : ∀ (pa : Nat) (p : Host.Cell), p ∈ cellsFrom pa bs →
    pa ≤ p.1 ∧ p.1 < pa + bs.length ∧ p.2 ≠ 0 := by
  induction bs with
  | nil => intro pa p h; simp [cellsFrom] at h
  | cons b bs ih =>
    intro pa p h
    simp only [cellsFrom] at h
    split at h
    · obtain ⟨h1, h2, h3⟩ := ih _ _ h
      exact ⟨by omega, by simp only [List.length_cons]; omega, h3⟩
    · rename_i hb
      rcases List.mem_cons.mp h with rfl | h
      · exact ⟨Nat.le_refl _, by simp, hb⟩
      · obtain ⟨h1, h2, h3⟩ := ih _ _ h
        exact ⟨by omega, by simp only [List.length_cons]; omega, h3⟩

/-- Reading after a range is replaced. -/
theorem State.rdByte_putRange (s : State) (pa : Nat) (bs : List Byte) (a : Nat) :
    (s.putRange pa bs).rdByte a = if pa ≤ a ∧ a < pa + bs.length then bs.getD (a - pa) 0 else s.rdByte a := by
  simp only [State.rdByte, State.putRange]
  by_cases h1 : a < pa
  · rw [if_neg (by omega), List.append_assoc, FMap.get_append_left, FMap.get_filter 0 (fun k => decide (k < pa)) _ _ (by simpa using h1)]
    intro p hp
    rcases List.mem_append.mp hp with h | h
    · have := (mem_cellsFrom _ _ _ h).1; omega
    · have := (List.mem_filter.mp h).2; simp at this; omega
  · by_cases h2 : a < pa + bs.length
    · rw [if_pos ⟨by omega, h2⟩, List.append_assoc, FMap.get_append, FMap.get_append_left, get_cellsFrom, if_pos ⟨by omega, h2⟩]
      · intro p hp; have := (List.mem_filter.mp hp).2; simp at this; omega
      · intro p hp; have := (List.mem_filter.mp hp).2; simp at this; omega
    · rw [if_neg (by omega), FMap.get_append, FMap.get_filter 0 (fun k => decide (pa + bs.length ≤ k)) _ _ (by simp; omega)]
      intro p hp
      rcases List.mem_append.mp hp with h | h
      · have := (List.mem_filter.mp h).2; simp at this; omega
      · have := (mem_cellsFrom _ _ _ h).2.1; omega

/-! ### The canonical form -/

theorem Memory.wf_iff (m : List Host.Cell) : Memory.wf m = true ↔ FMap.sorted m = true ∧ ∀ p ∈ m, p.2 ≠ 0 := FMap.canon_iff 0 m

theorem State.wf_wrByte (s : State) (pa : Nat) (b : Byte) (h : s.Ok) : (s.wrByte pa b).Ok := FMap.canon_put _ _ _ _ h

theorem State.wf_wrBytes (bs : List Byte) : ∀ (s : State) (pa : Nat), s.Ok → (s.wrBytes pa bs).Ok := by
  induction bs with
  | nil => intro s pa h; exact h
  | cons b bs ih => intro s pa h; exact ih _ _ (s.wf_wrByte pa b h)

theorem State.wf_wrNat (s : State) (pa n v : Nat) (h : s.Ok) : (s.wrNat pa n v).Ok := State.wf_wrBytes _ _ _ h
theorem State.wf_wr64 (s : State) (pa v : Nat) (h : s.Ok) : (s.wr64 pa v).Ok := s.wf_wrNat pa 8 v h

theorem FMap.sorted_append {α : Type} (m n : FMap α) (hm : FMap.sorted m = true) (hn : FMap.sorted n = true)
    (h : ∀ p ∈ m, ∀ q ∈ n, p.1 < q.1) : FMap.sorted (m ++ n) = true := by
  induction m with
  | nil => exact hn
  | cons p m ih =>
    rw [FMap.sorted_cons] at hm
    rw [List.cons_append, FMap.sorted_cons]
    refine ⟨fun q hq => ?_, ih hm.2 (fun a ha b hb => h a (by simp [ha]) b hb)⟩
    rcases List.mem_append.mp hq with hq | hq
    · exact hm.1 q hq
    · exact h p (by simp) q hq

theorem FMap.sorted_filter {α : Type} (m : FMap α) (f : Nat × α → Bool) (h : FMap.sorted m = true) :
    FMap.sorted (m.filter f) = true := by
  induction m with
  | nil => rfl
  | cons p m ih =>
    rw [FMap.sorted_cons] at h
    rw [List.filter_cons]
    split
    · rw [FMap.sorted_cons]
      exact ⟨fun q hq => h.1 q (List.mem_of_mem_filter hq), ih h.2⟩
    · exact ih h.2

theorem sorted_cellsFrom (bs : List Byte) : ∀ pa, FMap.sorted (cellsFrom pa bs) = true := by
  induction bs with
  | nil => intro pa; rfl
  | cons b bs ih =>
    intro pa
    simp only [cellsFrom]
    split
    · exact ih _
    · rw [FMap.sorted_cons]
      exact ⟨fun q hq => by have := (mem_cellsFrom _ _ _ hq).1; simp only; omega, ih _⟩

theorem State.wf_putRange (s : State) (pa : Nat) (bs : List Byte) (h : s.Ok) : (s.putRange pa bs).Ok := by
  obtain ⟨hs, hz⟩ := (Memory.wf_iff _).mp h
  refine (Memory.wf_iff _).mpr ⟨?_, ?_⟩
  · refine FMap.sorted_append _ _ (FMap.sorted_append _ _ (FMap.sorted_filter _ _ hs) (sorted_cellsFrom _ _) ?_)
      (FMap.sorted_filter _ _ hs) ?_
    · intro p hp q hq
      have h1 := (List.mem_filter.mp hp).2
      have h2 := (mem_cellsFrom _ _ _ hq).1
      simp at h1; omega
    · intro p hp q hq
      have h2 := (List.mem_filter.mp hq).2
      simp at h2
      rcases List.mem_append.mp hp with hp | hp
      · have h1 := (List.mem_filter.mp hp).2
        simp at h1; omega
      · have h1 := (mem_cellsFrom _ _ _ hp).2.1
        omega
  · intro p hp
    rcases List.mem_append.mp hp with hp | hp
    · rcases List.mem_append.mp hp with hp | hp
      · exact hz p (List.mem_of_mem_filter hp)
      · exact (mem_cellsFrom _ _ _ hp).2.2
    · exact hz p (List.mem_of_mem_filter hp)

theorem State.wf_openBytes (s : State) (pa n : Nat) (h : s.Ok) : (s.openBytes pa n).Ok := s.wf_putRange pa _ h

theorem State.wf_storeByte (s : State) (gc a : Nat) (b : Byte) (h : s.Ok) : (s.storeByte gc a b).Ok := by
  unfold State.storeByte
  exact s.wf_wrByte _ _ h

theorem State.wf_storeBytes (bs : List Byte) : ∀ (s : State) (gc a : Nat), s.Ok → (s.storeBytes gc a bs).Ok := by
  induction bs with
  | nil => intro s gc a h; exact h
  | cons b bs ih => intro s gc a h; exact ih _ _ _ (s.wf_storeByte gc a b h)

/-- Two states with the same memory have the form together. -/
theorem State.Ok.congr {s t : State} (h : s.Ok) (e : t.mem = s.mem) : t.Ok := by
  unfold State.Ok at *; rw [e]; exact h

theorem State.wf_traceOne (s : State) (gc a src : Nat) (eng : Bool) (h : s.Ok) : (s.traceOne gc a src eng).Ok := by
  unfold State.traceOne
  dsimp only
  split
  · exact h
  · split
    · exact h
    · split
      · exact State.wf_wrNat _ _ _ _ h
      · exact h

theorem State.wf_trace (s : State) (gc a n src : Nat) (eng : Bool) (h : s.Ok) : (s.trace gc a n src eng).Ok := by
  unfold State.trace
  split
  · exact h
  · dsimp only
    split
    · exact s.wf_traceOne _ _ _ _ h
    · exact State.wf_traceOne _ _ _ _ _ (s.wf_traceOne _ _ _ _ h)

theorem State.wf_portStore (s : State) (w gc a : Nat) (bs : List Byte) (h : s.Ok) : (s.portStore w gc a bs).Ok :=
  State.wf_trace _ _ _ _ _ _ (State.wf_storeBytes bs s gc a h)

theorem State.coreOverruns_mem (gc : Nat) (l : List Nat) : ∀ s : State, (s.coreOverruns gc l).mem = s.mem := by
  induction l with
  | nil => intro s; rfl
  | cons i l ih => intro s; rw [State.coreOverruns, ih]; rfl

theorem State.sliceOverruns_mem (cl : Nat) (l : List Nat) : ∀ s : State, (s.sliceOverruns cl l).mem = s.mem := by
  induction l with
  | nil => intro s; rfl
  | cons i l ih => intro s; rw [State.sliceOverruns, ih]; rfl

@[simp] theorem State.countPort_mem (s : State) (gc a n : Nat) : (s.countPort gc a n).mem = s.mem := State.coreOverruns_mem _ _ _
@[simp] theorem State.countHome_mem (s : State) (home pa n : Nat) : (s.countHome home pa n).mem = s.mem := State.sliceOverruns_mem _ _ _

theorem State.wf_portWrite (s : State) (r : PortReq) (src gc a : Nat) (bs : List Byte) (eng : Bool) (h : s.Ok) :
    (s.portWrite r src gc a bs eng).Ok := by
  refine State.Ok.congr ?_ (State.countPort_mem _ _ _ _)
  exact State.wf_trace _ _ _ _ _ _ (State.wf_wrBytes bs s _ h)

theorem State.wf_wrPlain (bs : List Byte) : ∀ (s : State) (pa : Nat), s.Ok → (s.wrPlain pa bs).1.Ok := by
  induction bs with
  | nil => intro s pa h; exact h
  | cons b bs ih =>
    intro s pa h
    simp only [State.wrPlain]
    refine ih _ _ ?_
    split
    · exact h
    · exact s.wf_wrByte pa b h

theorem State.wf_wrWords (ws : List Word) : ∀ (s : State) (pa : Nat), s.Ok → (s.wrWords pa ws).Ok := by
  induction ws with
  | nil => intro s pa h; exact h
  | cons w ws ih => intro s pa h; exact ih _ _ (s.wf_wr64 pa w.toNat h)

theorem State.wf_setDesc (s : State) (gc slot k v : Nat) (h : s.Ok) : (s.setDesc gc slot k v).Ok := s.wf_wr64 _ _ h

/-- Taking memory out, as the reset of a module does, keeps the form. -/
theorem Memory.wf_filter (m : List Host.Cell) (f : Host.Cell → Bool) (h : Memory.wf m = true) : Memory.wf (m.filter f) = true := by
  obtain ⟨hs, hz⟩ := (Memory.wf_iff _).mp h
  exact (Memory.wf_iff _).mpr ⟨FMap.sorted_filter _ _ hs, fun p hp => hz p (List.mem_of_mem_filter hp)⟩

/-- The memory after reset has the form. -/
theorem State.reset_ok : State.reset.Ok := by
  show Memory.wf [] = true
  rfl

end Sys2Proof.Machine
end

