-- ==== Sys2Proof/Laws/PerInstr.lean ====
section
/-! SUPPORT. One lemma per instruction: the encoding of a well-formed instruction is a head and a tail of the length that the head asks
for, each a halfword (R42, R43). -/

set_option Elab.async false

namespace Sys2Proof.Laws.Shape

/-- The encoding of a well-formed instruction is a head and the tail that the head asks for, in halfwords. -/
def Statement (i : Instr) : Prop :=
  i.wellFormed = true → ∃ (head : Nat) (tail : List Nat), encode i = head :: tail ∧ tail.length = tailLen head ∧
    ∀ x ∈ head :: tail, x < 65536

theorem shape0 {i : Instr} {op d : Nat} (e : encode i = enc0 op d) (h : op < 128 ∧ d < 128) : Statement i := by
  refine fun _ => ⟨_, _, e, ?_, ?_⟩
  · simp [tailLen_head0 _ _ h.2]
  · simp [headOf]; omega

theorem shape1 {i : Instr} {op d a b f2 : Nat} (e : encode i = enc1 op d a b f2)
    (h : op < 128 ∧ d < 128 ∧ a < 128 ∧ b < 128 ∧ f2 < 4) : Statement i := by
  refine fun _ => ⟨_, _, e, ?_, ?_⟩
  · simp [tailLen_head1 _ _ h.2.1]
  · simp [headOf]; omega

theorem shape2 {i : Instr} {op d a b f2 c f9 : Nat} (e : encode i = enc2 op d a b f2 c f9)
    (h : op < 128 ∧ d < 128 ∧ a < 128 ∧ b < 128 ∧ f2 < 4 ∧ c < 128 ∧ f9 < 512) : Statement i := by
  refine fun _ => ⟨_, _, e, ?_, ?_⟩
  · simp [tailLen_head2 _ _ h.2.1]
  · simp [headOf]; omega

theorem shapeV {i : Instr} {op d a b c : Nat} {t : Ty} {v : Bool} {m : MReg} (e : encode i = encV op d a b c t v m)
    (h : op < 128 ∧ d < 128 ∧ a < 128 ∧ b < 128 ∧ c < 128) : Statement i := by
  have := t.code_lt
  have := m.isLt
  have := v.toNat_lt
  exact shape2 e (by simp only [vf9]; omega)

theorem shape2I {i : Instr} {op d a f9 imm : Nat} (e : encode i = enc2I op d a f9 imm)
    (h : op < 128 ∧ d < 128 ∧ a < 128 ∧ f9 < 512 ∧ imm < 65536) : Statement i := by
  refine fun _ => ⟨_, _, e, ?_, ?_⟩
  · simp [tailLen_head2 _ _ h.2.1]
  · simp [headOf]; omega

theorem shape4 {i : Instr} {op d a b f2 c f9 imm : Nat} (e : encode i = enc4 op d a b f2 c f9 imm)
    (h : op < 128 ∧ d < 128 ∧ a < 128 ∧ b < 128 ∧ f2 < 4 ∧ c < 128 ∧ f9 < 512 ∧ imm < 4294967296) : Statement i := by
  refine fun _ => ⟨_, _, e, ?_, ?_⟩
  · simp [tailLen_head3 _ _ h.2.1]
  · simp [headOf]; omega

theorem shape4L {i : Instr} {op d imm : Nat} (e : encode i = enc4L op d imm)
    (h : op < 128 ∧ d < 128 ∧ imm < 18446744073709551616) : Statement i := by
  refine fun _ => ⟨_, _, e, ?_, ?_⟩
  · simp [tailLen_head3 _ _ h.2.1]
  · simp [headOf]; omega

theorem moduleReset (m : Nat) (b : BootRec) : Statement (.moduleReset m b) := fun h => absurd h (by simp [Instr.wellFormed, Instr.check, Instr.checks, firstFail])
theorem l1Invalidate (core : Nat) (line : Nat) : Statement (.l1Invalidate core line) := fun h => absurd h (by simp [Instr.wellFormed, Instr.check, Instr.checks, firstFail])
theorem loadReturn (w : Nat) (uid : Nat) : Statement (.loadReturn w uid) := fun h => absurd h (by simp [Instr.wellFormed, Instr.check, Instr.checks, firstFail])
theorem walk (cluster : Nat) (uid : Nat) : Statement (.walk cluster uid) := fun h => absurd h (by simp [Instr.wellFormed, Instr.check, Instr.checks, firstFail])
theorem treeCombine (m : Nat) (group : Nat) (seq : BitVec 32) : Statement (.treeCombine m group seq) := fun h => absurd h (by simp [Instr.wellFormed, Instr.check, Instr.checks, firstFail])
theorem spillRefill (cluster : Nat) (part : Nat) : Statement (.spillRefill cluster part) := fun h => absurd h (by simp [Instr.wellFormed, Instr.check, Instr.checks, firstFail])
theorem landingAction (slice : Bool) (unit : Nat) (idx : Nat) : Statement (.landingAction slice unit idx) := fun h => absurd h (by simp [Instr.wellFormed, Instr.check, Instr.checks, firstFail])
theorem landingDeadline (slice : Bool) (unit : Nat) (idx : Nat) : Statement (.landingDeadline slice unit idx) := fun h => absurd h (by simp [Instr.wellFormed, Instr.check, Instr.checks, firstFail])
theorem evictSave (core : Nat) (slot : Nat) : Statement (.evictSave core slot) := fun h => absurd h (by simp [Instr.wellFormed, Instr.check, Instr.checks, firstFail])
theorem backingQueueDrain (core : Nat) (slot : Nat) : Statement (.backingQueueDrain core slot) := fun h => absurd h (by simp [Instr.wellFormed, Instr.check, Instr.checks, firstFail])
theorem dataFrame (m : Nat) (b : List Byte) : Statement (.dataFrame m b) := fun h => absurd h (by simp [Instr.wellFormed, Instr.check, Instr.checks, firstFail])
theorem ackFrame (m : Nat) (b : List Byte) : Statement (.ackFrame m b) := fun h => absurd h (by simp [Instr.wellFormed, Instr.check, Instr.checks, firstFail])
theorem nakFrame (m : Nat) (b : List Byte) : Statement (.nakFrame m b) := fun h => absurd h (by simp [Instr.wellFormed, Instr.check, Instr.checks, firstFail])
theorem retransmitTimeout (m : Nat) (flow : Nat) : Statement (.retransmitTimeout m flow) := fun h => absurd h (by simp [Instr.wellFormed, Instr.check, Instr.checks, firstFail])
theorem ackTimer (m : Nat) (flow : Nat) : Statement (.ackTimer m flow) := fun h => absurd h (by simp [Instr.wellFormed, Instr.check, Instr.checks, firstFail])
theorem flowOpen (m : Nat) (flow : Nat) (part : Nat) (mac : BitVec 48) (timeout : Option Nat) : Statement (.flowOpen m flow part mac timeout) := fun h => absurd h (by simp [Instr.wellFormed, Instr.check, Instr.checks, firstFail])
theorem flowClose (m : Nat) (flow : Nat) : Statement (.flowClose m flow) := fun h => absurd h (by simp [Instr.wellFormed, Instr.check, Instr.checks, firstFail])
theorem flitReceive (m : Nat) (port : Nat) (flit : List Byte) : Statement (.flitReceive m port flit) := fun h => absurd h (by simp [Instr.wellFormed, Instr.check, Instr.checks, firstFail])
theorem linkRetrain (m : Nat) (port : Nat) : Statement (.linkRetrain m port) := fun h => absurd h (by simp [Instr.wellFormed, Instr.check, Instr.checks, firstFail])
theorem linkDown (m : Nat) (port : Nat) : Statement (.linkDown m port) := fun h => absurd h (by simp [Instr.wellFormed, Instr.check, Instr.checks, firstFail])
theorem treeGroupDisable (m : Nat) (group : Nat) : Statement (.treeGroupDisable m group) := fun h => absurd h (by simp [Instr.wellFormed, Instr.check, Instr.checks, firstFail])
theorem leaseQuotaWrite (cluster : Nat) (value : Word) : Statement (.leaseQuotaWrite cluster value) := fun h => absurd h (by simp [Instr.wellFormed, Instr.check, Instr.checks, firstFail])
theorem coreConfigWrite (core : Nat) (value : Word) : Statement (.coreConfigWrite core value) := fun h => absurd h (by simp [Instr.wellFormed, Instr.check, Instr.checks, firstFail])
theorem liftQuotaWrite (cluster : Nat) (part : Nat) (value : Word) : Statement (.liftQuotaWrite cluster part value) := fun h => absurd h (by simp [Instr.wellFormed, Instr.check, Instr.checks, firstFail])
theorem spillDescWrite (cluster : Nat) (part : Nat) (word : Nat) (value : Word) : Statement (.spillDescWrite cluster part word value) := fun h => absurd h (by simp [Instr.wellFormed, Instr.check, Instr.checks, firstFail])
theorem controlRegisterWrite (c : CtlWrite) : Statement (.controlRegisterWrite c) := fun h => absurd h (by simp [Instr.wellFormed, Instr.check, Instr.checks, firstFail])
theorem eccError (site : EccSite) (double : Bool) : Statement (.eccError site double) := fun h => absurd h (by simp [Instr.wellFormed, Instr.check, Instr.checks, firstFail])
theorem addT1 (d : Dst) (a : Src) (b : Src) (n : Bool) (sat : Bool) : Statement (.addT1 d a b n sat) := by
  have := Dst.code_lt d
  have := Src.code_lt a
  have := Src.code_lt b
  have := Bool.toNat_lt n
  have := Bool.toNat_lt sat
  exact shape1 rfl (by simp only [vbits]; omega)
theorem addT2I (d : Dst) (a : Src) (imm : BitVec 16) (n : Bool) (sat : Bool) : Statement (.addT2I d a imm n sat) := by
  have := Dst.code_lt d
  have := Src.code_lt a
  have := imm.isLt
  have := Bool.toNat_lt n
  have := Bool.toNat_lt sat
  exact shape2I rfl (by simp only [vbits]; omega)
theorem addT4 (d : Dst) (a : Src) (imm : BitVec 32) (n : Bool) (sat : Bool) : Statement (.addT4 d a imm n sat) := by
  have := Dst.code_lt d
  have := Src.code_lt a
  have := imm.isLt
  have := Bool.toNat_lt n
  have := Bool.toNat_lt sat
  exact shape4 rfl (by simp only [vbits]; omega)
theorem subT1 (d : Dst) (a : Src) (b : Src) (n : Bool) (sat : Bool) : Statement (.subT1 d a b n sat) := by
  have := Dst.code_lt d
  have := Src.code_lt a
  have := Src.code_lt b
  have := Bool.toNat_lt n
  have := Bool.toNat_lt sat
  exact shape1 rfl (by simp only [vbits]; omega)
theorem subT2I (d : Dst) (a : Src) (imm : BitVec 16) (n : Bool) (sat : Bool) : Statement (.subT2I d a imm n sat) := by
  have := Dst.code_lt d
  have := Src.code_lt a
  have := imm.isLt
  have := Bool.toNat_lt n
  have := Bool.toNat_lt sat
  exact shape2I rfl (by simp only [vbits]; omega)
theorem subT4 (d : Dst) (a : Src) (imm : BitVec 32) (n : Bool) (sat : Bool) : Statement (.subT4 d a imm n sat) := by
  have := Dst.code_lt d
  have := Src.code_lt a
  have := imm.isLt
  have := Bool.toNat_lt n
  have := Bool.toNat_lt sat
  exact shape4 rfl (by simp only [vbits]; omega)
theorem mulT1 (d : Dst) (a : Src) (b : Src) (n : Bool) (sat : Bool) : Statement (.mulT1 d a b n sat) := by
  have := Dst.code_lt d
  have := Src.code_lt a
  have := Src.code_lt b
  have := Bool.toNat_lt n
  have := Bool.toNat_lt sat
  exact shape1 rfl (by simp only [vbits]; omega)
theorem mulT2I (d : Dst) (a : Src) (imm : BitVec 16) (n : Bool) (sat : Bool) : Statement (.mulT2I d a imm n sat) := by
  have := Dst.code_lt d
  have := Src.code_lt a
  have := imm.isLt
  have := Bool.toNat_lt n
  have := Bool.toNat_lt sat
  exact shape2I rfl (by simp only [vbits]; omega)
theorem mulT4 (d : Dst) (a : Src) (imm : BitVec 32) (n : Bool) (sat : Bool) : Statement (.mulT4 d a imm n sat) := by
  have := Dst.code_lt d
  have := Src.code_lt a
  have := imm.isLt
  have := Bool.toNat_lt n
  have := Bool.toNat_lt sat
  exact shape4 rfl (by simp only [vbits]; omega)
theorem mulhT1 (d : Dst) (a : Src) (b : Src) (n : Bool) : Statement (.mulhT1 d a b n) := by
  have := Dst.code_lt d
  have := Src.code_lt a
  have := Src.code_lt b
  have := Bool.toNat_lt n
  exact shape1 rfl (by omega)
theorem mulhT2I (d : Dst) (a : Src) (imm : BitVec 16) (n : Bool) : Statement (.mulhT2I d a imm n) := by
  have := Dst.code_lt d
  have := Src.code_lt a
  have := imm.isLt
  have := Bool.toNat_lt n
  exact shape2I rfl (by omega)
theorem mulhT4 (d : Dst) (a : Src) (imm : BitVec 32) (n : Bool) : Statement (.mulhT4 d a imm n) := by
  have := Dst.code_lt d
  have := Src.code_lt a
  have := imm.isLt
  have := Bool.toNat_lt n
  exact shape4 rfl (by omega)
theorem divT1 (d : Dst) (a : Src) (b : Src) (n : Bool) : Statement (.divT1 d a b n) := by
  have := Dst.code_lt d
  have := Src.code_lt a
  have := Src.code_lt b
  have := Bool.toNat_lt n
  exact shape1 rfl (by omega)
theorem divT2I (d : Dst) (a : Src) (imm : BitVec 16) (n : Bool) : Statement (.divT2I d a imm n) := by
  have := Dst.code_lt d
  have := Src.code_lt a
  have := imm.isLt
  have := Bool.toNat_lt n
  exact shape2I rfl (by omega)
theorem divT4 (d : Dst) (a : Src) (imm : BitVec 32) (n : Bool) : Statement (.divT4 d a imm n) := by
  have := Dst.code_lt d
  have := Src.code_lt a
  have := imm.isLt
  have := Bool.toNat_lt n
  exact shape4 rfl (by omega)
theorem remT1 (d : Dst) (a : Src) (b : Src) (n : Bool) : Statement (.remT1 d a b n) := by
  have := Dst.code_lt d
  have := Src.code_lt a
  have := Src.code_lt b
  have := Bool.toNat_lt n
  exact shape1 rfl (by omega)
theorem remT2I (d : Dst) (a : Src) (imm : BitVec 16) (n : Bool) : Statement (.remT2I d a imm n) := by
  have := Dst.code_lt d
  have := Src.code_lt a
  have := imm.isLt
  have := Bool.toNat_lt n
  exact shape2I rfl (by omega)
theorem remT4 (d : Dst) (a : Src) (imm : BitVec 32) (n : Bool) : Statement (.remT4 d a imm n) := by
  have := Dst.code_lt d
  have := Src.code_lt a
  have := imm.isLt
  have := Bool.toNat_lt n
  exact shape4 rfl (by omega)
theorem andT1 (d : Dst) (a : Src) (b : Src) : Statement (.andT1 d a b) := by
  have := Dst.code_lt d
  have := Src.code_lt a
  have := Src.code_lt b
  exact shape1 rfl (by omega)
theorem andT2I (d : Dst) (a : Src) (imm : BitVec 16) : Statement (.andT2I d a imm) := by
  have := Dst.code_lt d
  have := Src.code_lt a
  have := imm.isLt
  exact shape2I rfl (by omega)
theorem andT4 (d : Dst) (a : Src) (imm : BitVec 32) : Statement (.andT4 d a imm) := by
  have := Dst.code_lt d
  have := Src.code_lt a
  have := imm.isLt
  exact shape4 rfl (by omega)
theorem orT1 (d : Dst) (a : Src) (b : Src) : Statement (.orT1 d a b) := by
  have := Dst.code_lt d
  have := Src.code_lt a
  have := Src.code_lt b
  exact shape1 rfl (by omega)
theorem orT2I (d : Dst) (a : Src) (imm : BitVec 16) : Statement (.orT2I d a imm) := by
  have := Dst.code_lt d
  have := Src.code_lt a
  have := imm.isLt
  exact shape2I rfl (by omega)
theorem orT4 (d : Dst) (a : Src) (imm : BitVec 32) : Statement (.orT4 d a imm) := by
  have := Dst.code_lt d
  have := Src.code_lt a
  have := imm.isLt
  exact shape4 rfl (by omega)
theorem xorT1 (d : Dst) (a : Src) (b : Src) : Statement (.xorT1 d a b) := by
  have := Dst.code_lt d
  have := Src.code_lt a
  have := Src.code_lt b
  exact shape1 rfl (by omega)
theorem xorT2I (d : Dst) (a : Src) (imm : BitVec 16) : Statement (.xorT2I d a imm) := by
  have := Dst.code_lt d
  have := Src.code_lt a
  have := imm.isLt
  exact shape2I rfl (by omega)
theorem xorT4 (d : Dst) (a : Src) (imm : BitVec 32) : Statement (.xorT4 d a imm) := by
  have := Dst.code_lt d
  have := Src.code_lt a
  have := imm.isLt
  exact shape4 rfl (by omega)
theorem andnT1 (d : Dst) (a : Src) (b : Src) : Statement (.andnT1 d a b) := by
  have := Dst.code_lt d
  have := Src.code_lt a
  have := Src.code_lt b
  exact shape1 rfl (by omega)
theorem andnT2I (d : Dst) (a : Src) (imm : BitVec 16) : Statement (.andnT2I d a imm) := by
  have := Dst.code_lt d
  have := Src.code_lt a
  have := imm.isLt
  exact shape2I rfl (by omega)
theorem andnT4 (d : Dst) (a : Src) (imm : BitVec 32) : Statement (.andnT4 d a imm) := by
  have := Dst.code_lt d
  have := Src.code_lt a
  have := imm.isLt
  exact shape4 rfl (by omega)
theorem shlT1 (d : Dst) (a : Src) (b : Src) : Statement (.shlT1 d a b) := by
  have := Dst.code_lt d
  have := Src.code_lt a
  have := Src.code_lt b
  exact shape1 rfl (by omega)
theorem shlT2I (d : Dst) (a : Src) (imm : BitVec 16) : Statement (.shlT2I d a imm) := by
  have := Dst.code_lt d
  have := Src.code_lt a
  have := imm.isLt
  exact shape2I rfl (by omega)
theorem shlT4 (d : Dst) (a : Src) (imm : BitVec 32) : Statement (.shlT4 d a imm) := by
  have := Dst.code_lt d
  have := Src.code_lt a
  have := imm.isLt
  exact shape4 rfl (by omega)
theorem shrT1 (d : Dst) (a : Src) (b : Src) : Statement (.shrT1 d a b) := by
  have := Dst.code_lt d
  have := Src.code_lt a
  have := Src.code_lt b
  exact shape1 rfl (by omega)
theorem shrT2I (d : Dst) (a : Src) (imm : BitVec 16) : Statement (.shrT2I d a imm) := by
  have := Dst.code_lt d
  have := Src.code_lt a
  have := imm.isLt
  exact shape2I rfl (by omega)
theorem shrT4 (d : Dst) (a : Src) (imm : BitVec 32) : Statement (.shrT4 d a imm) := by
  have := Dst.code_lt d
  have := Src.code_lt a
  have := imm.isLt
  exact shape4 rfl (by omega)
theorem shaT1 (d : Dst) (a : Src) (b : Src) : Statement (.shaT1 d a b) := by
  have := Dst.code_lt d
  have := Src.code_lt a
  have := Src.code_lt b
  exact shape1 rfl (by omega)
theorem shaT2I (d : Dst) (a : Src) (imm : BitVec 16) : Statement (.shaT2I d a imm) := by
  have := Dst.code_lt d
  have := Src.code_lt a
  have := imm.isLt
  exact shape2I rfl (by omega)
theorem shaT4 (d : Dst) (a : Src) (imm : BitVec 32) : Statement (.shaT4 d a imm) := by
  have := Dst.code_lt d
  have := Src.code_lt a
  have := imm.isLt
  exact shape4 rfl (by omega)
theorem rolT1 (d : Dst) (a : Src) (b : Src) : Statement (.rolT1 d a b) := by
  have := Dst.code_lt d
  have := Src.code_lt a
  have := Src.code_lt b
  exact shape1 rfl (by omega)
theorem rolT2I (d : Dst) (a : Src) (imm : BitVec 16) : Statement (.rolT2I d a imm) := by
  have := Dst.code_lt d
  have := Src.code_lt a
  have := imm.isLt
  exact shape2I rfl (by omega)
theorem rolT4 (d : Dst) (a : Src) (imm : BitVec 32) : Statement (.rolT4 d a imm) := by
  have := Dst.code_lt d
  have := Src.code_lt a
  have := imm.isLt
  exact shape4 rfl (by omega)
theorem clz (d : Dst) (a : Src) : Statement (.clz d a) := by
  have := Dst.code_lt d
  have := Src.code_lt a
  exact shape1 rfl (by omega)
theorem ctz (d : Dst) (a : Src) : Statement (.ctz d a) := by
  have := Dst.code_lt d
  have := Src.code_lt a
  exact shape1 rfl (by omega)
theorem popc (d : Dst) (a : Src) : Statement (.popc d a) := by
  have := Dst.code_lt d
  have := Src.code_lt a
  exact shape1 rfl (by omega)
theorem minT1 (d : Dst) (a : Src) (b : Src) (n : Bool) : Statement (.minT1 d a b n) := by
  have := Dst.code_lt d
  have := Src.code_lt a
  have := Src.code_lt b
  have := Bool.toNat_lt n
  exact shape1 rfl (by omega)
theorem minT2I (d : Dst) (a : Src) (imm : BitVec 16) (n : Bool) : Statement (.minT2I d a imm n) := by
  have := Dst.code_lt d
  have := Src.code_lt a
  have := imm.isLt
  have := Bool.toNat_lt n
  exact shape2I rfl (by omega)
theorem minT4 (d : Dst) (a : Src) (imm : BitVec 32) (n : Bool) : Statement (.minT4 d a imm n) := by
  have := Dst.code_lt d
  have := Src.code_lt a
  have := imm.isLt
  have := Bool.toNat_lt n
  exact shape4 rfl (by omega)
theorem maxT1 (d : Dst) (a : Src) (b : Src) (n : Bool) : Statement (.maxT1 d a b n) := by
  have := Dst.code_lt d
  have := Src.code_lt a
  have := Src.code_lt b
  have := Bool.toNat_lt n
  exact shape1 rfl (by omega)
theorem maxT2I (d : Dst) (a : Src) (imm : BitVec 16) (n : Bool) : Statement (.maxT2I d a imm n) := by
  have := Dst.code_lt d
  have := Src.code_lt a
  have := imm.isLt
  have := Bool.toNat_lt n
  exact shape2I rfl (by omega)
theorem maxT4 (d : Dst) (a : Src) (imm : BitVec 32) (n : Bool) : Statement (.maxT4 d a imm n) := by
  have := Dst.code_lt d
  have := Src.code_lt a
  have := imm.isLt
  have := Bool.toNat_lt n
  exact shape4 rfl (by omega)
theorem sel (d : Dst) (a : Src) (b : Src) (c : Src) : Statement (.sel d a b c) := by
  have := Dst.code_lt d
  have := Src.code_lt a
  have := Src.code_lt b
  have := Src.code_lt c
  exact shape2 rfl (by omega)
theorem setc (cc : ICond) (d : Dst) (a : Src) (b : Src) : Statement (.setc cc d a b) := by
  have := ICond.code_lt cc
  have := Dst.code_lt d
  have := Src.code_lt a
  have := Src.code_lt b
  exact shape2 rfl (by omega)
theorem mov (d : Dst) (a : Src) : Statement (.mov d a) := by
  have := Dst.code_lt d
  have := Src.code_lt a
  exact shape1 rfl (by omega)
theorem liT2I (d : Dst) (imm : BitVec 16) : Statement (.liT2I d imm) := by
  have := Dst.code_lt d
  have := imm.isLt
  exact shape2I rfl (by omega)
theorem liT4L (d : Dst) (imm : BitVec 64) : Statement (.liT4L d imm) := by
  have := Dst.code_lt d
  have := imm.isLt
  exact shape4L rfl (by omega)
theorem ext (d : Dst) (a : Src) (pos : Fin 64) (len1 : Fin 64) (n : Bool) : Statement (.ext d a pos len1 n) := by
  have := Dst.code_lt d
  have := Src.code_lt a
  have := pos.isLt
  have := len1.isLt
  have := Bool.toNat_lt n
  exact shape2 rfl (by omega)
theorem ins (d : Dst) (a : Src) (pos : Fin 64) (len1 : Fin 64) : Statement (.ins d a pos len1) := by
  have := Dst.code_lt d
  have := Src.code_lt a
  have := pos.isLt
  have := len1.isLt
  exact shape2 rfl (by omega)
theorem fadd (t : FTy) (d : Dst) (a : Src) (b : Src) : Statement (.fadd t d a b) := by
  have := FTy.code_lt t
  have := Dst.code_lt d
  have := Src.code_lt a
  have := Src.code_lt b
  exact shape1 rfl (by omega)
theorem fsub (t : FTy) (d : Dst) (a : Src) (b : Src) : Statement (.fsub t d a b) := by
  have := FTy.code_lt t
  have := Dst.code_lt d
  have := Src.code_lt a
  have := Src.code_lt b
  exact shape1 rfl (by omega)
theorem fmul (t : FTy) (d : Dst) (a : Src) (b : Src) : Statement (.fmul t d a b) := by
  have := FTy.code_lt t
  have := Dst.code_lt d
  have := Src.code_lt a
  have := Src.code_lt b
  exact shape1 rfl (by omega)
theorem fma (t : FTy) (d : Dst) (a : Src) (b : Src) (c : Src) : Statement (.fma t d a b c) := by
  have := FTy.code_lt t
  have := Dst.code_lt d
  have := Src.code_lt a
  have := Src.code_lt b
  have := Src.code_lt c
  exact shape2 rfl (by omega)
theorem fdiv (t : FTy) (d : Dst) (a : Src) (b : Src) : Statement (.fdiv t d a b) := by
  have := FTy.code_lt t
  have := Dst.code_lt d
  have := Src.code_lt a
  have := Src.code_lt b
  exact shape1 rfl (by omega)
theorem fsqrt (t : FTy) (d : Dst) (a : Src) : Statement (.fsqrt t d a) := by
  have := FTy.code_lt t
  have := Dst.code_lt d
  have := Src.code_lt a
  exact shape1 rfl (by omega)
theorem fmin (t : FTy) (d : Dst) (a : Src) (b : Src) : Statement (.fmin t d a b) := by
  have := FTy.code_lt t
  have := Dst.code_lt d
  have := Src.code_lt a
  have := Src.code_lt b
  exact shape1 rfl (by omega)
theorem fmax (t : FTy) (d : Dst) (a : Src) (b : Src) : Statement (.fmax t d a b) := by
  have := FTy.code_lt t
  have := Dst.code_lt d
  have := Src.code_lt a
  have := Src.code_lt b
  exact shape1 rfl (by omega)
theorem fsetc (t : FTy) (cc : FCond) (d : Dst) (a : Src) (b : Src) : Statement (.fsetc t cc d a b) := by
  have := FTy.code_lt t
  have := FCond.code_lt cc
  have := Dst.code_lt d
  have := Src.code_lt a
  have := Src.code_lt b
  exact shape2 rfl (by omega)
theorem fcvt (dt : Ty) (st : Ty) (d : Dst) (a : Src) : Statement (.fcvt dt st d a) := by
  have := Ty.code_lt dt
  have := Ty.code_lt st
  have := Dst.code_lt d
  have := Src.code_lt a
  exact shape2 rfl (by omega)
theorem fclass (t : FTy) (d : Dst) (a : Src) : Statement (.fclass t d a) := by
  have := FTy.code_lt t
  have := Dst.code_lt d
  have := Src.code_lt a
  exact shape1 rfl (by omega)
theorem brT2I (disp : BitVec 16) (idx : Fin 32) : Statement (.brT2I disp idx) := by
  have := disp.isLt
  have := idx.isLt
  exact shape2I rfl (by omega)
theorem brT4 (disp : BitVec 32) (idx : Fin 32) : Statement (.brT4 disp idx) := by
  have := disp.isLt
  have := idx.isLt
  exact shape4 rfl (by omega)
theorem bc (cc : ICond) (a : Src) (b : Src) (disp : BitVec 32) (idx : Fin 32) : Statement (.bc cc a b disp idx) := by
  have := ICond.code_lt cc
  have := Src.code_lt a
  have := Src.code_lt b
  have := disp.isLt
  have := idx.isLt
  exact shape4 rfl (by omega)
theorem callT2I (d : Dst) (disp : BitVec 16) (idx : Fin 32) : Statement (.callT2I d disp idx) := by
  have := Dst.code_lt d
  have := disp.isLt
  have := idx.isLt
  exact shape2I rfl (by omega)
theorem callT4 (d : Dst) (disp : BitVec 32) (idx : Fin 32) : Statement (.callT4 d disp idx) := by
  have := Dst.code_lt d
  have := disp.isLt
  have := idx.isLt
  exact shape4 rfl (by omega)
theorem ret (a : Src) : Statement (.ret a) := by
  have := Src.code_lt a
  exact shape1 rfl (by omega)
theorem jmp (a : Src) : Statement (.jmp a) := by
  have := Src.code_lt a
  exact shape1 rfl (by omega)
theorem loop (d : Dst) (disp : BitVec 16) (idx : Fin 32) : Statement (.loop d disp idx) := by
  have := Dst.code_lt d
  have := disp.isLt
  have := idx.isLt
  exact shape2I rfl (by omega)
theorem vmov (d : VDst) (a : VSrc) (t : Ty) (m : MReg) : Statement (.vmov d a t m) := by
  have := VDst.code_lt d
  have := VSrc.code_lt a
  have := Ty.code_lt t
  have := m.isLt
  exact shapeV rfl (by omega)
theorem vbcast (d : VDst) (a : VSrc) (b : Src) (t : Ty) (m : MReg) : Statement (.vbcast d a b t m) := by
  have := VDst.code_lt d
  have := VSrc.code_lt a
  have := Src.code_lt b
  have := Ty.code_lt t
  have := m.isLt
  exact shapeV rfl (by omega)
theorem vstep (d : VDst) (a : Src) (b : Src) (t : Ty) (sat : Bool) (m : MReg) : Statement (.vstep d a b t sat m) := by
  have := VDst.code_lt d
  have := Src.code_lt a
  have := Src.code_lt b
  have := Ty.code_lt t
  have := Bool.toNat_lt sat
  have := m.isLt
  exact shapeV rfl (by omega)
theorem vadd (d : VDst) (a : VSrc) (b : VSrc) (t : Ty) (sat : Bool) (m : MReg) : Statement (.vadd d a b t sat m) := by
  have := VDst.code_lt d
  have := VSrc.code_lt a
  have := VSrc.code_lt b
  have := Ty.code_lt t
  have := Bool.toNat_lt sat
  have := m.isLt
  exact shapeV rfl (by omega)
theorem vsub (d : VDst) (a : VSrc) (b : VSrc) (t : Ty) (sat : Bool) (m : MReg) : Statement (.vsub d a b t sat m) := by
  have := VDst.code_lt d
  have := VSrc.code_lt a
  have := VSrc.code_lt b
  have := Ty.code_lt t
  have := Bool.toNat_lt sat
  have := m.isLt
  exact shapeV rfl (by omega)
theorem vmul (d : VDst) (a : VSrc) (b : VSrc) (t : Ty) (sat : Bool) (m : MReg) : Statement (.vmul d a b t sat m) := by
  have := VDst.code_lt d
  have := VSrc.code_lt a
  have := VSrc.code_lt b
  have := Ty.code_lt t
  have := Bool.toNat_lt sat
  have := m.isLt
  exact shapeV rfl (by omega)
theorem vfma (d : VDst) (a : VSrc) (b : VSrc) (c : VSrc) (t : Ty) (sat : Bool) (m : MReg) : Statement (.vfma d a b c t sat m) := by
  have := VDst.code_lt d
  have := VSrc.code_lt a
  have := VSrc.code_lt b
  have := VSrc.code_lt c
  have := Ty.code_lt t
  have := Bool.toNat_lt sat
  have := m.isLt
  exact shapeV rfl (by omega)
theorem vmin (d : VDst) (a : VSrc) (b : VSrc) (t : Ty) (m : MReg) : Statement (.vmin d a b t m) := by
  have := VDst.code_lt d
  have := VSrc.code_lt a
  have := VSrc.code_lt b
  have := Ty.code_lt t
  have := m.isLt
  exact shapeV rfl (by omega)
theorem vmax (d : VDst) (a : VSrc) (b : VSrc) (t : Ty) (m : MReg) : Statement (.vmax d a b t m) := by
  have := VDst.code_lt d
  have := VSrc.code_lt a
  have := VSrc.code_lt b
  have := Ty.code_lt t
  have := m.isLt
  exact shapeV rfl (by omega)
theorem vabs (d : VDst) (a : VSrc) (t : Ty) (sat : Bool) (m : MReg) : Statement (.vabs d a t sat m) := by
  have := VDst.code_lt d
  have := VSrc.code_lt a
  have := Ty.code_lt t
  have := Bool.toNat_lt sat
  have := m.isLt
  exact shapeV rfl (by omega)
theorem vand (d : VDst) (a : VSrc) (b : VSrc) (t : Ty) (m : MReg) : Statement (.vand d a b t m) := by
  have := VDst.code_lt d
  have := VSrc.code_lt a
  have := VSrc.code_lt b
  have := Ty.code_lt t
  have := m.isLt
  exact shapeV rfl (by omega)
theorem vor (d : VDst) (a : VSrc) (b : VSrc) (t : Ty) (m : MReg) : Statement (.vor d a b t m) := by
  have := VDst.code_lt d
  have := VSrc.code_lt a
  have := VSrc.code_lt b
  have := Ty.code_lt t
  have := m.isLt
  exact shapeV rfl (by omega)
theorem vxor (d : VDst) (a : VSrc) (b : VSrc) (t : Ty) (m : MReg) : Statement (.vxor d a b t m) := by
  have := VDst.code_lt d
  have := VSrc.code_lt a
  have := VSrc.code_lt b
  have := Ty.code_lt t
  have := m.isLt
  exact shapeV rfl (by omega)
theorem vshl (d : VDst) (a : VSrc) (b : VSrc) (t : Ty) (m : MReg) : Statement (.vshl d a b t m) := by
  have := VDst.code_lt d
  have := VSrc.code_lt a
  have := VSrc.code_lt b
  have := Ty.code_lt t
  have := m.isLt
  exact shapeV rfl (by omega)
theorem vshr (d : VDst) (a : VSrc) (b : VSrc) (t : Ty) (m : MReg) : Statement (.vshr d a b t m) := by
  have := VDst.code_lt d
  have := VSrc.code_lt a
  have := VSrc.code_lt b
  have := Ty.code_lt t
  have := m.isLt
  exact shapeV rfl (by omega)
theorem vsha (d : VDst) (a : VSrc) (b : VSrc) (t : Ty) (m : MReg) : Statement (.vsha d a b t m) := by
  have := VDst.code_lt d
  have := VSrc.code_lt a
  have := VSrc.code_lt b
  have := Ty.code_lt t
  have := m.isLt
  exact shapeV rfl (by omega)
theorem vsetc (cc : Fin 16) (d : MReg) (a : VSrc) (b : VSrc) (t : Ty) (m : MReg) : Statement (.vsetc cc d a b t m) := by
  have := cc.isLt
  have := d.isLt
  have := VSrc.code_lt a
  have := VSrc.code_lt b
  have := Ty.code_lt t
  have := m.isLt
  exact shapeV rfl (by omega)
theorem vsel (d : VDst) (a : VSrc) (b : VSrc) (t : Ty) (m : MReg) : Statement (.vsel d a b t m) := by
  have := VDst.code_lt d
  have := VSrc.code_lt a
  have := VSrc.code_lt b
  have := Ty.code_lt t
  have := m.isLt
  exact shapeV rfl (by omega)
theorem vcvt (d : VDst) (a : VSrc) (dt : Ty) (st : Ty) (part : Fin 8) (m : MReg) : Statement (.vcvt d a dt st part m) := by
  have := VDst.code_lt d
  have := VSrc.code_lt a
  have := Ty.code_lt dt
  have := Ty.code_lt st
  have := part.isLt
  have := m.isLt
  exact shapeV rfl (by omega)
theorem vpack (d : VDst) (a : VSrc) (t : Ty) (part : Fin 8) (m : MReg) : Statement (.vpack d a t part m) := by
  have := VDst.code_lt d
  have := VSrc.code_lt a
  have := Ty.code_lt t
  have := part.isLt
  have := m.isLt
  exact shapeV rfl (by omega)
theorem vunpack (d : VDst) (a : VSrc) (t : Ty) (part : Fin 8) (m : MReg) : Statement (.vunpack d a t part m) := by
  have := VDst.code_lt d
  have := VSrc.code_lt a
  have := Ty.code_lt t
  have := part.isLt
  have := m.isLt
  exact shapeV rfl (by omega)
theorem vperm (d : VDst) (a : VSrc) (b : VSrc) (t : Ty) (m : MReg) : Statement (.vperm d a b t m) := by
  have := VDst.code_lt d
  have := VSrc.code_lt a
  have := VSrc.code_lt b
  have := Ty.code_lt t
  have := m.isLt
  exact shapeV rfl (by omega)
theorem vslide (d : VDst) (a : VSrc) (b : VSrc) (c : Src) (t : Ty) (m : MReg) : Statement (.vslide d a b c t m) := by
  have := VDst.code_lt d
  have := VSrc.code_lt a
  have := VSrc.code_lt b
  have := Src.code_lt c
  have := Ty.code_lt t
  have := m.isLt
  exact shapeV rfl (by omega)
theorem vextr (d : Dst) (a : VSrc) (b : Src) (t : Ty) : Statement (.vextr d a b t) := by
  have := Dst.code_lt d
  have := VSrc.code_lt a
  have := Src.code_lt b
  have := Ty.code_lt t
  exact shapeV rfl (by omega)
theorem vinsr (d : VDst) (a : Src) (b : Src) (t : Ty) : Statement (.vinsr d a b t) := by
  have := VDst.code_lt d
  have := Src.code_lt a
  have := Src.code_lt b
  have := Ty.code_lt t
  exact shapeV rfl (by omega)
theorem vrcp (d : VDst) (a : VSrc) (t : Ty) (m : MReg) : Statement (.vrcp d a t m) := by
  have := VDst.code_lt d
  have := VSrc.code_lt a
  have := Ty.code_lt t
  have := m.isLt
  exact shapeV rfl (by omega)
theorem vrsq (d : VDst) (a : VSrc) (t : Ty) (m : MReg) : Statement (.vrsq d a t m) := by
  have := VDst.code_lt d
  have := VSrc.code_lt a
  have := Ty.code_lt t
  have := m.isLt
  exact shapeV rfl (by omega)
theorem vexp2 (d : VDst) (a : VSrc) (t : Ty) (m : MReg) : Statement (.vexp2 d a t m) := by
  have := VDst.code_lt d
  have := VSrc.code_lt a
  have := Ty.code_lt t
  have := m.isLt
  exact shapeV rfl (by omega)
theorem vlog2 (d : VDst) (a : VSrc) (t : Ty) (m : MReg) : Statement (.vlog2 d a t m) := by
  have := VDst.code_lt d
  have := VSrc.code_lt a
  have := Ty.code_lt t
  have := m.isLt
  exact shapeV rfl (by omega)
theorem vtanh (d : VDst) (a : VSrc) (t : Ty) (m : MReg) : Statement (.vtanh d a t m) := by
  have := VDst.code_lt d
  have := VSrc.code_lt a
  have := Ty.code_lt t
  have := m.isLt
  exact shapeV rfl (by omega)
theorem vdot (d : VDst) (a : VSrc) (b : VSrc) (t : Ty) (sat : Bool) (m : MReg) : Statement (.vdot d a b t sat m) := by
  have := VDst.code_lt d
  have := VSrc.code_lt a
  have := VSrc.code_lt b
  have := Ty.code_lt t
  have := Bool.toNat_lt sat
  have := m.isLt
  exact shapeV rfl (by omega)
theorem vsum (d : VDst) (a : VSrc) (t : Ty) (sat : Bool) (m : MReg) : Statement (.vsum d a t sat m) := by
  have := VDst.code_lt d
  have := VSrc.code_lt a
  have := Ty.code_lt t
  have := Bool.toNat_lt sat
  have := m.isLt
  exact shapeV rfl (by omega)
theorem vrmax (d : VDst) (a : VSrc) (t : Ty) (m : MReg) : Statement (.vrmax d a t m) := by
  have := VDst.code_lt d
  have := VSrc.code_lt a
  have := Ty.code_lt t
  have := m.isLt
  exact shapeV rfl (by omega)
theorem vrmin (d : VDst) (a : VSrc) (t : Ty) (m : MReg) : Statement (.vrmin d a t m) := by
  have := VDst.code_lt d
  have := VSrc.code_lt a
  have := Ty.code_lt t
  have := m.isLt
  exact shapeV rfl (by omega)
theorem vargmax (d : VDst) (ix : Fin 64) (a : VSrc) (t : Ty) (m : MReg) : Statement (.vargmax d ix a t m) := by
  have := VDst.code_lt d
  have := ix.isLt
  have := VSrc.code_lt a
  have := Ty.code_lt t
  have := m.isLt
  exact shapeV rfl (by omega)
theorem vargmin (d : VDst) (ix : Fin 64) (a : VSrc) (t : Ty) (m : MReg) : Statement (.vargmin d ix a t m) := by
  have := VDst.code_lt d
  have := ix.isLt
  have := VSrc.code_lt a
  have := Ty.code_lt t
  have := m.isLt
  exact shapeV rfl (by omega)
theorem vtopk (d : Fin 16) (a : VSrc) (b : Src) (k1 : Fin 16) (t : Ty) (min : Bool) (m : MReg) : Statement (.vtopk d a b k1 t min m) := by
  have := d.isLt
  have := VSrc.code_lt a
  have := Src.code_lt b
  have := k1.isLt
  have := Ty.code_lt t
  have := Bool.toNat_lt min
  have := m.isLt
  exact shapeV rfl (by omega)
theorem vxrd (d : VDst) (a : VSrc) (b : Src) (t : Ty) (m : MReg) : Statement (.vxrd d a b t m) := by
  have := VDst.code_lt d
  have := VSrc.code_lt a
  have := Src.code_lt b
  have := Ty.code_lt t
  have := m.isLt
  exact shapeV rfl (by omega)
theorem mand (a : MReg) (b : MReg) (c : MReg) : Statement (.mand a b c) := by
  have := a.isLt
  have := b.isLt
  have := c.isLt
  exact shape2 rfl (by omega)
theorem mor (a : MReg) (b : MReg) (c : MReg) : Statement (.mor a b c) := by
  have := a.isLt
  have := b.isLt
  have := c.isLt
  exact shape2 rfl (by omega)
theorem mxor (a : MReg) (b : MReg) (c : MReg) : Statement (.mxor a b c) := by
  have := a.isLt
  have := b.isLt
  have := c.isLt
  exact shape2 rfl (by omega)
theorem mnot (a : MReg) (b : MReg) : Statement (.mnot a b) := by
  have := a.isLt
  have := b.isLt
  exact shape2 rfl (by omega)
theorem mcnt (d : Dst) (b : MReg) (t : Ty) : Statement (.mcnt d b t) := by
  have := Dst.code_lt d
  have := b.isLt
  have := Ty.code_lt t
  exact shape2 rfl (by omega)
theorem mfirst (d : Dst) (b : MReg) (t : Ty) : Statement (.mfirst d b t) := by
  have := Dst.code_lt d
  have := b.isLt
  have := Ty.code_lt t
  exact shape2 rfl (by omega)
theorem mlease (d : Dst) (a : Src) (b : Src) (clr : Bool) : Statement (.mlease d a b clr) := by
  have := Dst.code_lt d
  have := Src.code_lt a
  have := Src.code_lt b
  have := Bool.toNat_lt clr
  exact shape2 rfl (by omega)
theorem mfree (a : Src) (b : Src) : Statement (.mfree a b) := by
  have := Src.code_lt a
  have := Src.code_lt b
  exact shape1 rfl (by omega)
theorem mcfg (a : Src) (b : Src) (dfmt : Ty) (rm : RM) (act : Act) (sen : Bool) (ben : Bool) (dshift : BitVec 8) : Statement (.mcfg a b dfmt rm act sen ben dshift) := by
  have := Src.code_lt a
  have := Src.code_lt b
  have := Ty.code_lt dfmt
  have := RM.code_lt rm
  have := Act.code_lt act
  have := Bool.toNat_lt sen
  have := Bool.toNat_lt ben
  have := dshift.isLt
  exact shape4 rfl (by omega)
theorem mloadw (p : Fin 4) (a : Src) (b : Src) : Statement (.mloadw p a b) := by
  have := p.isLt
  have := Src.code_lt a
  have := Src.code_lt b
  exact shape2 rfl (by omega)
theorem mswap (p : Fin 4) : Statement (.mswap p) := by
  have := p.isLt
  exact shape1 rfl (by omega)
theorem mstream (t : Fin 16) (p : Fin 4) (a : Src) (b : Src) (row0 : Fin 128) (n1 : Fin 128) (sat : Bool) : Statement (.mstream t p a b row0 n1 sat) := by
  have := t.isLt
  have := p.isLt
  have := Src.code_lt a
  have := Src.code_lt b
  have := row0.isLt
  have := n1.isLt
  have := Bool.toNat_lt sat
  exact shape4 rfl (by omega)
theorem mepi (k : MKind) (g : Bool) (t : Fin 16) (a : Src) (b : Src) (row0 : Fin 128) (n1 : Fin 128) (ncol1 : Fin 128) : Statement (.mepi k g t a b row0 n1 ncol1) := by
  have := MKind.code_lt k
  have := Bool.toNat_lt g
  have := t.isLt
  have := Src.code_lt a
  have := Src.code_lt b
  have := row0.isLt
  have := n1.isLt
  have := ncol1.isLt
  exact shape4 rfl (by omega)
theorem mzero (t : Fin 16) : Statement (.mzero t) := by
  have := t.isLt
  exact shape1 rfl (by omega)
theorem maccrd (k : TTy) (d : VDst) (b : Src) (t : Fin 16) (m : MReg) : Statement (.maccrd k d b t m) := by
  have := TTy.code_lt k
  have := VDst.code_lt d
  have := Src.code_lt b
  have := t.isLt
  have := m.isLt
  exact shape2 rfl (by omega)
theorem maccwr (k : TTy) (a : VSrc) (b : Src) (t : Fin 16) (m : MReg) : Statement (.maccwr k a b t m) := by
  have := TTy.code_lt k
  have := VSrc.code_lt a
  have := Src.code_lt b
  have := t.isLt
  have := m.isLt
  exact shape2 rfl (by omega)
theorem ldT2 (d : Dst) (a : Src) (c : Option Src) (sc : Fin 4) (t : Option Ty) (sp : MSpace) (pol : Policy) : Statement (.ldT2 d a c sc t sp pol) := by
  have := Dst.code_lt d
  have := Src.code_lt a
  have := indexCode_lt c
  have := sc.isLt
  have := rawCode_lt t
  have := MSpace.code_lt sp
  have := Policy.code_lt pol
  exact shape2 rfl (by simp only [memF9]; omega)
theorem ldT4 (d : Dst) (a : Src) (c : Option Src) (sc : Fin 4) (t : Option Ty) (sp : MSpace) (pol : Policy) (disp : BitVec 32) : Statement (.ldT4 d a c sc t sp pol disp) := by
  have := Dst.code_lt d
  have := Src.code_lt a
  have := indexCode_lt c
  have := sc.isLt
  have := rawCode_lt t
  have := MSpace.code_lt sp
  have := Policy.code_lt pol
  have := disp.isLt
  exact shape4 rfl (by simp only [memF9]; omega)
theorem stT2 (b : Src) (a : Src) (c : Option Src) (sc : Fin 4) (t : Option Ty) (sp : MSpace) (pol : Policy) : Statement (.stT2 b a c sc t sp pol) := by
  have := Src.code_lt b
  have := Src.code_lt a
  have := indexCode_lt c
  have := sc.isLt
  have := rawCode_lt t
  have := MSpace.code_lt sp
  have := Policy.code_lt pol
  exact shape2 rfl (by simp only [memF9]; omega)
theorem stT4 (b : Src) (a : Src) (c : Option Src) (sc : Fin 4) (t : Option Ty) (sp : MSpace) (pol : Policy) (disp : BitVec 32) : Statement (.stT4 b a c sc t sp pol disp) := by
  have := Src.code_lt b
  have := Src.code_lt a
  have := indexCode_lt c
  have := sc.isLt
  have := rawCode_lt t
  have := MSpace.code_lt sp
  have := Policy.code_lt pol
  have := disp.isLt
  exact shape4 rfl (by simp only [memF9]; omega)
theorem ldvT2 (d : VDst) (a : Src) (c : Option Src) (sc : Fin 4) (t : Option Ty) (sp : MSpace) (pol : Policy) (m : MReg) : Statement (.ldvT2 d a c sc t sp pol m) := by
  have := VDst.code_lt d
  have := Src.code_lt a
  have := indexCode_lt c
  have := sc.isLt
  have := rawCode_lt t
  have := MSpace.code_lt sp
  have := Policy.code_lt pol
  have := m.isLt
  exact shape2 rfl (by simp only [memF9]; omega)
theorem ldvT4 (d : VDst) (a : Src) (c : Option Src) (sc : Fin 4) (t : Option Ty) (sp : MSpace) (pol : Policy) (m : MReg) (disp : BitVec 32) : Statement (.ldvT4 d a c sc t sp pol m disp) := by
  have := VDst.code_lt d
  have := Src.code_lt a
  have := indexCode_lt c
  have := sc.isLt
  have := rawCode_lt t
  have := MSpace.code_lt sp
  have := Policy.code_lt pol
  have := m.isLt
  have := disp.isLt
  exact shape4 rfl (by simp only [memF9]; omega)
theorem stvT2 (b : VSrc) (a : Src) (c : Option Src) (sc : Fin 4) (t : Option Ty) (sp : MSpace) (pol : Policy) : Statement (.stvT2 b a c sc t sp pol) := by
  have := VSrc.code_lt b
  have := Src.code_lt a
  have := indexCode_lt c
  have := sc.isLt
  have := rawCode_lt t
  have := MSpace.code_lt sp
  have := Policy.code_lt pol
  exact shape2 rfl (by simp only [memF9]; omega)
theorem stvT4 (b : VSrc) (a : Src) (c : Option Src) (sc : Fin 4) (t : Option Ty) (sp : MSpace) (pol : Policy) (disp : BitVec 32) : Statement (.stvT4 b a c sc t sp pol disp) := by
  have := VSrc.code_lt b
  have := Src.code_lt a
  have := indexCode_lt c
  have := sc.isLt
  have := rawCode_lt t
  have := MSpace.code_lt sp
  have := Policy.code_lt pol
  have := disp.isLt
  exact shape4 rfl (by simp only [memF9]; omega)
theorem ldx (d : VDst) (b : Src) (c : VSrc) (sc : Fin 4) (t : Ty) (sp : MSpace) (pol : Policy) (m : MReg) : Statement (.ldx d b c sc t sp pol m) := by
  have := VDst.code_lt d
  have := Src.code_lt b
  have := VSrc.code_lt c
  have := sc.isLt
  have := rawCode_lt (some t)
  have := Ty.code_lt t
  have := MSpace.code_lt sp
  have := Policy.code_lt pol
  have := m.isLt
  exact shape4 rfl (by simp only [memF9]; omega)
theorem stx (a : VSrc) (b : Src) (c : VSrc) (sc : Fin 4) (t : Ty) (sp : MSpace) (pol : Policy) (m : MReg) : Statement (.stx a b c sc t sp pol m) := by
  have := VSrc.code_lt a
  have := Src.code_lt b
  have := VSrc.code_lt c
  have := sc.isLt
  have := rawCode_lt (some t)
  have := Ty.code_lt t
  have := MSpace.code_lt sp
  have := Policy.code_lt pol
  have := m.isLt
  exact shape4 rfl (by simp only [memF9]; omega)
theorem bld (d : Dst) (k : BReg) (w1 : Fin 64) (inc : Bool) : Statement (.bld d k w1 inc) := by
  have := Dst.code_lt d
  have := k.isLt
  have := w1.isLt
  have := Bool.toNat_lt inc
  exact shape1 rfl (by omega)
theorem bst (a : Src) (k : BReg) (w1 : Fin 64) (inc : Bool) : Statement (.bst a k w1 inc) := by
  have := Src.code_lt a
  have := k.isLt
  have := w1.isLt
  have := Bool.toNat_lt inc
  exact shape1 rfl (by omega)
theorem bmov (k : BReg) (x : BMovArg) : Statement (.bmov k x) := by
  have := k.isLt
  cases x with
  | toB a =>
    have := a.code_lt
    exact shape1 rfl (by omega)
  | fromB d =>
    have := d.code_lt
    exact shape1 rfl (by omega)
theorem amo (op : AmoOp) (t : AmoTy) (sp : MSpace) (sc : Scope) (a : Dst) (b : Src) (c : Src) (disp : BitVec 32) : Statement (.amo op t sp sc a b c disp) := by
  have := AmoOp.code_lt op
  have := AmoTy.code_lt t
  have := MSpace.code_lt sp
  have := Scope.code_lt sc
  have := Dst.code_lt a
  have := Src.code_lt b
  have := Src.code_lt c
  have := disp.isLt
  exact shape4 rfl (by omega)
theorem acas (t : AmoTy) (sp : MSpace) (sc : Scope) (a : Dst) (b : Src) (c : Src) (disp : BitVec 32) : Statement (.acas t sp sc a b c disp) := by
  have := AmoTy.code_lt t
  have := MSpace.code_lt sp
  have := Scope.code_lt sc
  have := Dst.code_lt a
  have := Src.code_lt b
  have := Src.code_lt c
  have := disp.isLt
  exact shape4 rfl (by omega)
theorem pref (l : Option Src) (a : Src) (pol : Policy) : Statement (.pref l a pol) := by
  have := a.code_lt
  have := pol.code_lt
  cases l with
  | none => exact shape2 rfl (by omega)
  | some b =>
    have := b.code_lt
    exact shape2 rfl (by omega)
theorem cinv (a : Src) (b : Src) : Statement (.cinv a b) := by
  have := Src.code_lt a
  have := Src.code_lt b
  exact shape2 rfl (by omega)
theorem rst (sz : RstSize) (a : Src) (b : Src) (c : Src) (disp : BitVec 32) : Statement (.rst sz a b c disp) := by
  have := RstSize.code_lt sz
  have := Src.code_lt a
  have := Src.code_lt b
  have := Src.code_lt c
  have := disp.isLt
  exact shape4 rfl (by omega)
theorem spalloc (guard : Bool) (d : Dst) (b : Src) (c : Fin 64) (bank : Fin 16) (g1 : Fin 16) (ctxOwner : Bool) : Statement (.spalloc guard d b c bank g1 ctxOwner) := by
  have := Bool.toNat_lt guard
  have := Dst.code_lt d
  have := Src.code_lt b
  have := c.isLt
  have := bank.isLt
  have := g1.isLt
  have := Bool.toNat_lt ctxOwner
  exact shape2 rfl (by omega)
theorem spfree (a : Src) : Statement (.spfree a) := by
  have := Src.code_lt a
  exact shape1 rfl (by omega)
theorem bfset (a : Src) (b : Src) : Statement (.bfset a b) := by
  have := Src.code_lt a
  have := Src.code_lt b
  exact shape2 rfl (by omega)
theorem fence (k : FenceKind) (sc : Scope) : Statement (.fence k sc) := by
  have := FenceKind.code_lt k
  have := Scope.code_lt sc
  exact shape1 rfl (by omega)
theorem fencex (sc : Scope) (src : Path) (dst : Path) : Statement (.fencex sc src dst) := by
  have := Scope.code_lt sc
  have := Path.code_lt src
  have := Path.code_lt dst
  exact shape1 rfl (by omega)
theorem oinit (k : CellKind) (sc : CScope) (st : Dst) (a : Src) (w0 : Src) (w1 : Src) : Statement (.oinit k sc st a w0 w1) := by
  have := CellKind.code_lt k
  have := CScope.code_lt sc
  have := Dst.code_lt st
  have := Src.code_lt a
  have := Src.code_lt w0
  have := Src.code_lt w1
  exact shape4 rfl (by omega)
theorem ofree (st : Dst) (a : Src) : Statement (.ofree st a) := by
  have := Dst.code_lt st
  have := Src.code_lt a
  exact shape1 rfl (by omega)
theorem oread (sc : Option CScope) (n : SPair) (b : Src) (mt : Option (Fin 64)) : Statement (.oread sc n b mt) := by
  have := ownScopeCode_lt sc
  have := n.isLt
  have := b.code_lt
  cases mt with
  | none => exact shape2 rfl (by simp only; omega)
  | some r => exact shape2 rfl (by simp only; omega)
theorem cntAdd (sc : Option CScope) (a : Dst) (b : Src) (c : Src) : Statement (.cntAdd sc a b c) := by
  have := ownScopeCode_lt sc
  have := Dst.code_lt a
  have := Src.code_lt b
  have := Src.code_lt c
  exact shape2 rfl (by omega)
theorem cntWait (cc : CntCond) (sc : Option CScope) (wm : WMode) (a : Dst) (b : Src) (c : Src) : Statement (.cntWait cc sc wm a b c) := by
  have := CntCond.code_lt cc
  have := ownScopeCode_lt sc
  have := WMode.code_lt wm
  have := Dst.code_lt a
  have := Src.code_lt b
  have := Src.code_lt c
  exact shape2 rfl (by omega)
theorem barArv (sc : Option CScope) (a : Dst) (b : Src) (c : Src) : Statement (.barArv sc a b c) := by
  have := ownScopeCode_lt sc
  have := Dst.code_lt a
  have := Src.code_lt b
  have := Src.code_lt c
  exact shape2 rfl (by omega)
theorem barExp (sc : Option CScope) (a : Dst) (b : Src) (c : Src) : Statement (.barExp sc a b c) := by
  have := ownScopeCode_lt sc
  have := Dst.code_lt a
  have := Src.code_lt b
  have := Src.code_lt c
  exact shape2 rfl (by omega)
theorem barWait (sc : Option CScope) (wm : WMode) (a : Dst) (b : Src) (c : Src) : Statement (.barWait sc wm a b c) := by
  have := ownScopeCode_lt sc
  have := WMode.code_lt wm
  have := Dst.code_lt a
  have := Src.code_lt b
  have := Src.code_lt c
  exact shape2 rfl (by omega)
theorem lckTake (sc : Option CScope) (wm : WMode) (a : Dst) (b : Src) : Statement (.lckTake sc wm a b) := by
  have := ownScopeCode_lt sc
  have := WMode.code_lt wm
  have := Dst.code_lt a
  have := Src.code_lt b
  exact shape2 rfl (by omega)
theorem lckGive (sc : Option CScope) (a : Dst) (b : Src) : Statement (.lckGive sc a b) := by
  have := ownScopeCode_lt sc
  have := Dst.code_lt a
  have := Src.code_lt b
  exact shape2 rfl (by omega)
theorem qRes (sc : Option CScope) (wm : WMode) (a : Dst) (b : Src) : Statement (.qRes sc wm a b) := by
  have := ownScopeCode_lt sc
  have := WMode.code_lt wm
  have := Dst.code_lt a
  have := Src.code_lt b
  exact shape2 rfl (by omega)
theorem qPub (sc : Option CScope) (tr : Bool) (a : Dst) (b : Src) (c : Src) : Statement (.qPub sc tr a b c) := by
  have := ownScopeCode_lt sc
  have := Bool.toNat_lt tr
  have := Dst.code_lt a
  have := Src.code_lt b
  have := Src.code_lt c
  exact shape2 rfl (by omega)
theorem qAwait (sc : Option CScope) (wm : WMode) (a : Dst) (b : Src) : Statement (.qAwait sc wm a b) := by
  have := ownScopeCode_lt sc
  have := WMode.code_lt wm
  have := Dst.code_lt a
  have := Src.code_lt b
  exact shape2 rfl (by omega)
theorem qRel (sc : Option CScope) (a : Dst) (b : Src) (c : Src) : Statement (.qRel sc a b c) := by
  have := ownScopeCode_lt sc
  have := Dst.code_lt a
  have := Src.code_lt b
  have := Src.code_lt c
  exact shape2 rfl (by omega)
theorem cndWait (sc : Option CScope) (a : Dst) (b : Src) (c : Src) : Statement (.cndWait sc a b c) := by
  have := ownScopeCode_lt sc
  have := Dst.code_lt a
  have := Src.code_lt b
  have := Src.code_lt c
  exact shape2 rfl (by omega)
theorem cndSig (sc : Option CScope) (a : Dst) (b : Src) : Statement (.cndSig sc a b) := by
  have := ownScopeCode_lt sc
  have := Dst.code_lt a
  have := Src.code_lt b
  exact shape2 rfl (by omega)
theorem cndAll (sc : Option CScope) (a : Dst) (b : Src) : Statement (.cndAll sc a b) := by
  have := ownScopeCode_lt sc
  have := Dst.code_lt a
  have := Src.code_lt b
  exact shape2 rfl (by omega)
theorem landArm (st : Dst) (b : Src) (idx : Option Src) : Statement (.landArm st b idx) := by
  have := st.code_lt
  have := b.code_lt
  cases idx with
  | none => exact shape4 rfl (by omega)
  | some c =>
    have := c.code_lt
    exact shape4 rfl (by omega)
theorem landOff (a : Src) (rel : Bool) : Statement (.landOff a rel) := by
  have := Src.code_lt a
  have := Bool.toNat_lt rel
  exact shape1 rfl (by omega)
theorem landRd (n : SPair) (b : Src) : Statement (.landRd n b) := by
  have := n.isLt
  have := Src.code_lt b
  exact shape2 rfl (by omega)
theorem waitc (ld : BitVec 8) (st : BitVec 8) (cp : BitVec 8) (tl : BitVec 8) : Statement (.waitc ld st cp tl) := by
  have := ld.isLt
  have := st.isLt
  have := cp.isLt
  have := tl.isLt
  exact shape4 rfl (by omega)
theorem send (a : Src) (b : Src) (len1 : Fin 16) (nsucc : Fin 16) : Statement (.send a b len1 nsucc) := by
  have := Src.code_lt a
  have := Src.code_lt b
  have := len1.isLt
  have := nsucc.isLt
  exact shape2 rfl (by omega)
theorem sendv (a b c : Src) (vp : Option VSrc) : Statement (.sendv a b c vp) := by
  have := a.code_lt
  have := b.code_lt
  have := c.code_lt
  cases vp with
  | none => exact shape2 rfl (by omega)
  | some v =>
    have := v.code_lt
    exact shape2 rfl (by omega)
theorem sendp (a : Src) (b : Src) (len1 : Fin 16) (nsucc : Fin 16) : Statement (.sendp a b len1 nsucc) := by
  have := Src.code_lt a
  have := Src.code_lt b
  have := len1.isLt
  have := nsucc.isLt
  exact shape2 rfl (by omega)
theorem reply (a : Src) (b : Src) (len1 : Fin 16) (nsucc : Fin 16) (rv : Bool) (rmb : Fin 4) : Statement (.reply a b len1 nsucc rv rmb) := by
  have := Src.code_lt a
  have := Src.code_lt b
  have := len1.isLt
  have := nsucc.isLt
  have := Bool.toNat_lt rv
  have := rmb.isLt
  exact shape2 rfl (by omega)
theorem mpeek (what : Peek) (d : Dst) (b : Src) (c : Src) : Statement (.mpeek what d b c) := by
  have := Peek.code_lt what
  have := Dst.code_lt d
  have := Src.code_lt b
  have := Src.code_lt c
  exact shape2 rfl (by omega)
theorem activate (a : Src) (b : Src) (c : Src) (e : Src) : Statement (.activate a b c e) := by
  have := Src.code_lt a
  have := Src.code_lt b
  have := Src.code_lt c
  have := Src.code_lt e
  exact shape2 rfl (by omega)
theorem cpy (s : Bool) (a : Src) (b : Src) (c : Src) (o : Bool) (dsp : ESpace) (ssp : ESpace) (act : CopyAct) (pol : Policy) (fmt : Option Ty) : Statement (.cpy s a b c o dsp ssp act pol fmt) := by
  have := Bool.toNat_lt s
  have := Src.code_lt a
  have := Src.code_lt b
  have := Src.code_lt c
  have := Bool.toNat_lt o
  have := ESpace.code_lt dsp
  have := ESpace.code_lt ssp
  have := act.kind_lt
  have := act.reg_lt
  have := Policy.code_lt pol
  have := rawCode_lt fmt
  exact shape4 rfl (by omega)
theorem cpy2 (a : Src) (b : Src) (c : Src) (o : Bool) (dsp : ESpace) (ssp : ESpace) (act : CopyAct) (pol : Policy) (fmt : Option Ty) (stride : Src) : Statement (.cpy2 a b c o dsp ssp act pol fmt stride) := by
  have := Src.code_lt a
  have := Src.code_lt b
  have := Src.code_lt c
  have := Bool.toNat_lt o
  have := ESpace.code_lt dsp
  have := ESpace.code_lt ssp
  have := act.kind_lt
  have := act.reg_lt
  have := Policy.code_lt pol
  have := rawCode_lt fmt
  have := Src.code_lt stride
  exact shape4 rfl (by omega)
theorem cpyx (a : Src) (b : Src) (c : Src) (o : Bool) (dsp : ESpace) (ssp : ESpace) (act : CopyAct) (pol : Policy) (fmt : Option Ty) (list : Src) : Statement (.cpyx a b c o dsp ssp act pol fmt list) := by
  have := Src.code_lt a
  have := Src.code_lt b
  have := Src.code_lt c
  have := Bool.toNat_lt o
  have := ESpace.code_lt dsp
  have := ESpace.code_lt ssp
  have := act.kind_lt
  have := act.reg_lt
  have := Policy.code_lt pol
  have := rawCode_lt fmt
  have := Src.code_lt list
  exact shape4 rfl (by omega)
theorem fill (a : Src) (b : Src) (c : Src) (o : Bool) (dsp : ESpace) (act : CopyAct) (pol : Policy) : Statement (.fill a b c o dsp act pol) := by
  have := Src.code_lt a
  have := Src.code_lt b
  have := Src.code_lt c
  have := Bool.toNat_lt o
  have := ESpace.code_lt dsp
  have := act.kind_lt
  have := act.reg_lt
  have := Policy.code_lt pol
  exact shape4 rfl (by omega)
theorem bsel (a : Src) (o : Bool) : Statement (.bsel a o) := by
  have := Src.code_lt a
  have := Bool.toNat_lt o
  exact shape1 rfl (by omega)
theorem tinj (a : Src) : Statement (.tinj a) := by
  have := Src.code_lt a
  exact shape1 rfl (by omega)
theorem text (d : Dst) (a : Src) (tr : Bool) : Statement (.text d a tr) := by
  have := Dst.code_lt d
  have := Src.code_lt a
  have := Bool.toNat_lt tr
  exact shape1 rfl (by omega)
theorem trap (imm : BitVec 16) (a : Src) : Statement (.trap imm a) := by
  have := imm.isLt
  have := Src.code_lt a
  exact shape2I rfl (by omega)
theorem srd (d : Dst) (n : Spr) : Statement (.srd d n) := by
  have := Dst.code_lt d
  have := Spr.code_lt n
  exact shape1 rfl (by omega)
theorem swr (n : Spr) (a : Src) : Statement (.swr n a) := by
  have := Spr.code_lt n
  have := Src.code_lt a
  exact shape1 rfl (by omega)
theorem tlbinv (x : Option (Src × Src)) : Statement (.tlbinv x) := by
  match x with
  | none => exact shape2 rfl (by omega)
  | some (a, b) =>
    have := a.code_lt
    have := b.code_lt
    exact shape2 rfl (by omega)
theorem tlbreplay (x : Option Src) : Statement (.tlbreplay x) := by
  cases x with
  | none => exact shape2 rfl (by omega)
  | some a =>
    have := a.code_lt
    exact shape2 rfl (by omega)
theorem fltpop (n : SPair) : Statement (.fltpop n) := by
  have := n.isLt
  exact shape1 rfl (by omega)
theorem plinv (x : Option Src) : Statement (.plinv x) := by
  cases x with
  | none => exact shape1 rfl (by omega)
  | some a =>
    have := a.code_lt
    exact shape1 rfl (by omega)
theorem admitTeam (d : Dst) (b : Src) (c : Src) (sc : TeamScope) : Statement (.admitTeam d b c sc) := by
  have := Dst.code_lt d
  have := Src.code_lt b
  have := Src.code_lt c
  have := TeamScope.code_lt sc
  exact shape2 rfl (by omega)
theorem evict (d : Dst) (b : Src) : Statement (.evict d b) := by
  have := Dst.code_lt d
  have := Src.code_lt b
  exact shape1 rfl (by omega)
theorem linkRetrained (m : Nat) (port : Nat) : Statement (.linkRetrained m port) := fun h => absurd h (by simp [Instr.wellFormed, Instr.check, Instr.checks, firstFail])
theorem coreMapWrite (core : Nat) (part : Nat) : Statement (.coreMapWrite core part) := fun h => absurd h (by simp [Instr.wellFormed, Instr.check, Instr.checks, firstFail])
theorem partitionTableWrite (m : Nat) (p : Nat) (e : PartEntry) : Statement (.partitionTableWrite m p e) := fun h => absurd h (by simp [Instr.wellFormed, Instr.check, Instr.checks, firstFail])
theorem treeGroupEnable (m : Nat) (group : Nat) (g : TreeGroup) : Statement (.treeGroupEnable m group g) := fun h => absurd h (by simp [Instr.wellFormed, Instr.check, Instr.checks, firstFail])
theorem instructionFetch : Statement (.instructionFetch) := fun h => absurd h (by simp [Instr.wellFormed, Instr.check, Instr.checks, firstFail])
theorem firingChoice : Statement (.firingChoice) := fun h => absurd h (by simp [Instr.wellFormed, Instr.check, Instr.checks, firstFail])
theorem activateArrival : Statement (.activateArrival) := fun h => absurd h (by simp [Instr.wellFormed, Instr.check, Instr.checks, firstFail])
theorem packetArrival : Statement (.packetArrival) := fun h => absurd h (by simp [Instr.wellFormed, Instr.check, Instr.checks, firstFail])
theorem noticeArrival : Statement (.noticeArrival) := fun h => absurd h (by simp [Instr.wellFormed, Instr.check, Instr.checks, firstFail])
theorem refusalResponse : Statement (.refusalResponse) := fun h => absurd h (by simp [Instr.wellFormed, Instr.check, Instr.checks, firstFail])
theorem retryTimer : Statement (.retryTimer) := fun h => absurd h (by simp [Instr.wellFormed, Instr.check, Instr.checks, firstFail])
theorem acceptanceResponse : Statement (.acceptanceResponse) := fun h => absurd h (by simp [Instr.wellFormed, Instr.check, Instr.checks, firstFail])
theorem packetInject : Statement (.packetInject) := fun h => absurd h (by simp [Instr.wellFormed, Instr.check, Instr.checks, firstFail])
theorem homeWrite : Statement (.homeWrite) := fun h => absurd h (by simp [Instr.wellFormed, Instr.check, Instr.checks, firstFail])
theorem stealSweep : Statement (.stealSweep) := fun h => absurd h (by simp [Instr.wellFormed, Instr.check, Instr.checks, firstFail])
theorem stealAnswer : Statement (.stealAnswer) := fun h => absurd h (by simp [Instr.wellFormed, Instr.check, Instr.checks, firstFail])
theorem stealReply : Statement (.stealReply) := fun h => absurd h (by simp [Instr.wellFormed, Instr.check, Instr.checks, firstFail])
theorem yieldTimer : Statement (.yieldTimer) := fun h => absurd h (by simp [Instr.wellFormed, Instr.check, Instr.checks, firstFail])
theorem killTimer : Statement (.killTimer) := fun h => absurd h (by simp [Instr.wellFormed, Instr.check, Instr.checks, firstFail])
theorem fenceTimer : Statement (.fenceTimer) := fun h => absurd h (by simp [Instr.wellFormed, Instr.check, Instr.checks, firstFail])
theorem forecastUpdate : Statement (.forecastUpdate) := fun h => absurd h (by simp [Instr.wellFormed, Instr.check, Instr.checks, firstFail])
theorem impreciseFaultTaken : Statement (.impreciseFaultTaken) := fun h => absurd h (by simp [Instr.wellFormed, Instr.check, Instr.checks, firstFail])
theorem leaseGrant : Statement (.leaseGrant) := fun h => absurd h (by simp [Instr.wellFormed, Instr.check, Instr.checks, firstFail])
theorem leaveGrant : Statement (.leaveGrant) := fun h => absurd h (by simp [Instr.wellFormed, Instr.check, Instr.checks, firstFail])
theorem leaveRelease : Statement (.leaveRelease) := fun h => absurd h (by simp [Instr.wellFormed, Instr.check, Instr.checks, firstFail])
theorem overheatReport : Statement (.overheatReport) := fun h => absurd h (by simp [Instr.wellFormed, Instr.check, Instr.checks, firstFail])
theorem rampWindow : Statement (.rampWindow) := fun h => absurd h (by simp [Instr.wellFormed, Instr.check, Instr.checks, firstFail])
theorem powerForecastRead : Statement (.powerForecastRead) := fun h => absurd h (by simp [Instr.wellFormed, Instr.check, Instr.checks, firstFail])
theorem mloadwRun : Statement (.mloadwRun) := fun h => absurd h (by simp [Instr.wellFormed, Instr.check, Instr.checks, firstFail])
theorem mswapRun : Statement (.mswapRun) := fun h => absurd h (by simp [Instr.wellFormed, Instr.check, Instr.checks, firstFail])
theorem mstreamRun : Statement (.mstreamRun) := fun h => absurd h (by simp [Instr.wellFormed, Instr.check, Instr.checks, firstFail])
theorem mepiRun : Statement (.mepiRun) := fun h => absurd h (by simp [Instr.wellFormed, Instr.check, Instr.checks, firstFail])
theorem arrayCommandComplete : Statement (.arrayCommandComplete) := fun h => absurd h (by simp [Instr.wellFormed, Instr.check, Instr.checks, firstFail])
theorem epilogueStallFence : Statement (.epilogueStallFence) := fun h => absurd h (by simp [Instr.wellFormed, Instr.check, Instr.checks, firstFail])
theorem engineCommandDelivery : Statement (.engineCommandDelivery) := fun h => absurd h (by simp [Instr.wellFormed, Instr.check, Instr.checks, firstFail])
theorem engineRetryTimer : Statement (.engineRetryTimer) := fun h => absurd h (by simp [Instr.wellFormed, Instr.check, Instr.checks, firstFail])
theorem engineCommandStart : Statement (.engineCommandStart) := fun h => absurd h (by simp [Instr.wellFormed, Instr.check, Instr.checks, firstFail])
theorem engineCommandComplete : Statement (.engineCommandComplete) := fun h => absurd h (by simp [Instr.wellFormed, Instr.check, Instr.checks, firstFail])
theorem completionAction : Statement (.completionAction) := fun h => absurd h (by simp [Instr.wellFormed, Instr.check, Instr.checks, firstFail])
theorem treeFetchBack : Statement (.treeFetchBack) := fun h => absurd h (by simp [Instr.wellFormed, Instr.check, Instr.checks, firstFail])
theorem hsuOperation : Statement (.hsuOperation) := fun h => absurd h (by simp [Instr.wellFormed, Instr.check, Instr.checks, firstFail])
theorem spillLineReturn : Statement (.spillLineReturn) := fun h => absurd h (by simp [Instr.wellFormed, Instr.check, Instr.checks, firstFail])
theorem withdrawal : Statement (.withdrawal) := fun h => absurd h (by simp [Instr.wellFormed, Instr.check, Instr.checks, firstFail])
theorem cellResult : Statement (.cellResult) := fun h => absurd h (by simp [Instr.wellFormed, Instr.check, Instr.checks, firstFail])
theorem landingPoolRetry : Statement (.landingPoolRetry) := fun h => absurd h (by simp [Instr.wellFormed, Instr.check, Instr.checks, firstFail])
theorem admitRestore : Statement (.admitRestore) := fun h => absurd h (by simp [Instr.wellFormed, Instr.check, Instr.checks, firstFail])
theorem gangEnter : Statement (.gangEnter) := fun h => absurd h (by simp [Instr.wellFormed, Instr.check, Instr.checks, firstFail])
theorem gangExit : Statement (.gangExit) := fun h => absurd h (by simp [Instr.wellFormed, Instr.check, Instr.checks, firstFail])
theorem perfCounterRead : Statement (.perfCounterRead) := fun h => absurd h (by simp [Instr.wellFormed, Instr.check, Instr.checks, firstFail])
theorem perfCounterWrite : Statement (.perfCounterWrite) := fun h => absurd h (by simp [Instr.wellFormed, Instr.check, Instr.checks, firstFail])
theorem quote : Statement (.quote) := fun h => absurd h (by simp [Instr.wellFormed, Instr.check, Instr.checks, firstFail])
theorem fenceCore : Statement (.fenceCore) := fun h => absurd h (by simp [Instr.wellFormed, Instr.check, Instr.checks, firstFail])
theorem fin : Statement (.fin) := by
  exact shape0 rfl (by omega)
theorem commit : Statement (.commit) := by
  exact shape0 rfl (by omega)
theorem yield : Statement (.yield) := by
  exact shape0 rfl (by omega)
theorem nop : Statement (.nop) := by
  exact shape0 rfl (by omega)
theorem brk : Statement (.brk) := by
  exact shape0 rfl (by omega)
theorem halt : Statement (.halt) := by
  exact shape0 rfl (by omega)
theorem overheatClear : Statement (.overheatClear) := fun h => absurd h (by simp [Instr.wellFormed, Instr.check, Instr.checks, firstFail])

end Sys2Proof.Laws.Shape
end

