-- ==== Sys2Proof/Tests/Slice0.lean ====
section
/-! SUPPORT. Small tests: an ill-formed term for each check, words written out from the encodings of the spec, results that the spec
works out, and for each statement with hypotheses a state and operands that meet them. -/

set_option Elab.async false

namespace Sys2Proof.Tests
open Sys2Proof.Machine

/-- A decidable fact that the kernel evaluates to true. -/
theorem holds_by_check {p : Prop} [Decidable p] (h : decide p = true := by decide +kernel) : p := of_decide_eq_true h

/-! ### Ill-formed terms: one for each check -/

theorem test_ill_discard : (Instr.ins .discard (.s 0) 0 0).check = some .discard := by decide
theorem test_ill_loop_discard : (Instr.loop .discard 0 0).check = some .discard := by decide
theorem test_ill_acas_discard : (Instr.acas .i32 .l .core .discard (.s 0) (.s 1) 0).check = some .discard := by decide
theorem test_ill_type_any : (Instr.vmov (.v 0) (.v 1) .kf4 0).check = some .typeClass := by decide
theorem test_ill_type_arith : (Instr.vadd (.v 0) (.v 1) (.v 2) .f8w false 0).check = some .typeClass := by decide
theorem test_ill_type_int : (Instr.vand (.v 0) (.v 1) (.v 2) .f32 0).check = some .typeClass := by decide
theorem test_ill_type_minmax : (Instr.vmin (.v 0) (.v 1) (.v 2) .kf8 0).check = some .typeClass := by decide
theorem test_ill_type_pack : (Instr.vpack (.v 0) (.v 1) .i8 0 0).check = some .typeClass := by decide
theorem test_ill_type_sfu : (Instr.vrcp (.v 0) (.v 1) .f64 0).check = some .typeClass := by decide
theorem test_ill_type_dot : (Instr.vdot (.v 0) (.v 1) (.v 2) .i32 false 0).check = some .typeClass := by decide
theorem test_ill_type_topk : (Instr.vtopk 0 (.v 1) (.s 2) 3 .f64 false 0).check = some .typeClass := by decide
theorem test_ill_type_mem : (Instr.ldT2 (.s 0) (.s 1) none 0 (some .b1) .l .dflt).check = some .typeClass := by decide
theorem test_ill_sat_float : (Instr.vadd (.v 0) (.v 1) (.v 2) .f32 true 0).check = some .variant := by decide
theorem test_ill_sat_abs : (Instr.vabs (.v 0) (.v 1) .ui8 true 0).check = some .variant := by decide
theorem test_ill_sat_dot : (Instr.vdot (.v 0) (.v 1) (.v 2) .f16 true 0).check = some .variant := by decide
theorem test_ill_condition : (Instr.vsetc 8 1 (.v 0) (.v 1) .f32 0).check = some .condition := by decide
theorem test_ill_part_cvt : (Instr.vcvt (.v 0) (.v 1) .i8 .i32 4 0).check = some .partRange := by decide
theorem test_ill_part_pack : (Instr.vpack (.v 0) (.v 1) .i4 2 0).check = some .partRange := by decide
theorem test_ill_bc_vxrd : (Instr.vxrd (.v 0) (.bc 1) (.s 2) .i8 0).check = some .broadcast := by decide
theorem test_ill_bc_maccwr : (Instr.maccwr .f32 (.bc 1) (.s 2) 0 0).check = some .broadcast := by decide
theorem test_ill_bc_ldx : (Instr.ldx (.v 0) (.s 1) (.bc 2) 0 .i8 .l .dflt 0).check = some .broadcast := by decide
theorem test_ill_bc_sendv : (Instr.sendv (.s 0) (.s 1) (.s 2) (some (.bc 3))).check = some .broadcast := by decide
theorem test_ill_rows_stream : (Instr.mstream 0 0 (.s 0) (.s 1) 1 127 false).check = some .rowRange := by decide
theorem test_ill_rows_epi : (Instr.mepi .f32 false 0 (.s 0) (.s 1) 1 127 0).check = some .rowRange := by decide
theorem test_ill_cols_epi : (Instr.mepi .f64 false 0 (.s 0) (.s 1) 0 127 64).check = some .rowRange := by decide
theorem test_ill_policy : (Instr.ldT2 (.s 0) (.s 1) none 0 (some .i8) .l .keep).check = some .policySpace := by decide
theorem test_ill_raw_load : (Instr.ldT2 (.s 1) (.s 1) none 0 none .l .dflt).check = some .rawPair := by decide
theorem test_ill_raw_store : (Instr.stT4 (.s 3) (.s 1) none 0 none .l .dflt 0).check = some .rawPair := by decide
theorem test_ill_granules : (Instr.spalloc false (.s 0) (.s 1) 2 15 1 false).check = some .granules := by decide
theorem test_ill_path_same : (Instr.fencex .core .tile .tile).check = some .path := by decide
theorem test_ill_path_msg : (Instr.fencex .core .msg .tile).check = some .path := by decide
theorem test_ill_length : (Instr.send (.s 0) (.s 1) 0 0).check = some .packetLength := by decide
theorem test_ill_successors : (Instr.send (.s 0) (.s 1) 1 1).check = some .packetLength := by decide
theorem test_ill_source : (Instr.cpy true (.s 0) (.s 1) (.s 2) false .g .l .none .dflt none).check = some .sourceSpace := by decide
theorem test_ill_event : Instr.leaseGrant.check = some .event := by decide
/-- Values at the edge of each check pass it. -/
theorem test_well_formed_edges : (Instr.mstream 0 0 (.s 0) (.s 1) 1 126 false).wellFormed = true ∧
    (Instr.mepi .f64 false 0 (.s 0) (.s 1) 0 127 63).wellFormed = true ∧ (Instr.vcvt (.v 0) (.v 1) .i8 .i32 3 0).wellFormed = true ∧
    (Instr.send (.s 0) (.s 1) 2 2).wellFormed = true ∧ (Instr.vsetc 8 1 (.v 0) (.v 1) .i32 0).wellFormed = true ∧
    (Instr.fencex .core .copy .msg).wellFormed = true := by decide

/-! ### Words written out from the spec's encodings -/

/-- The line of Table 2.15. -/
def workedLine : List Nat := [0xA003, 0x2F04, 0x02C8, 0xF200] ++ List.replicate 25 0 ++ [0x098C, 0x0000, 0x0064]

theorem test_worked_line_valid : lineValid workedLine = true := by decide
theorem test_worked_line_li : lineInstr workedLine 0 = (0x2F04, [0, 0x64]) ∧
    decodeInstr 0x2F04 [0, 0x64] = .ok (.liT2I (.s 4) 100) := by decide
theorem test_worked_line_add : lineInstr workedLine 1 = (0x02C8, [0x098C]) ∧
    decodeInstr 0x02C8 [0x098C] = .ok (.addT1 .z0 (.s 4) (.imm 3) false false) := by decide
theorem test_worked_line_fin : lineInstr workedLine 2 = (0xF200, []) ∧ decodeInstr 0xF200 [] = .ok .fin := by decide
/-- A line of zeros is no valid line, and a FIN with a tail is an illegal encoding in a valid one (R37, R56). -/
theorem test_bad_lines : lineValid (List.replicate 32 0) = false ∧ lineValid (workedLine.set 3 0xF280) = true ∧
    decodeInstr 0xF280 [0] = .error .form := by decide
theorem test_decode_float : decodeInstr 0x4C85 [0x0818] = .ok (.fmin .f64 (.s 5) (.s 4) (.s 6)) := by decide
theorem test_decode_control : decodeInstr 0x6380 [0x0814, 0x0203, 0xFFFF, 0xFFFF] =
    .ok (.bc .ne (.s 4) (.s 5) 0xFFFFFFFF 3) := by decide
theorem test_decode_vector : decodeInstr 0x7703 [0x0A18, 0x0092] = .ok (.vadd (.v 3) (.v 5) (.v 6) .f32 false 2) := by decide
theorem test_decode_mask : decodeInstr 0xB100 [0x0204, 0x0400] = .ok (.mand 1 1 2) := by decide
theorem test_decode_matrix : decodeInstr 0xC280 [0x0814] = .ok (.mfree (.s 4) (.s 5)) := by decide
theorem test_decode_memory : decodeInstr 0xD107 [0x1000, 0x9830] = .ok (.ldT2 (.s 7) (.s 8) none 0 (some .i64) .l .dflt) := by decide
/-- `fence.clu` and `fence.st.pod` (R216). -/
theorem test_decode_fence : decodeInstr 0xDE86 [0x0400] = .ok (.fence .full .clu) ∧
    decodeInstr 0xDE86 [0x0804] = .ok (.fence .st .pod) ∧ decodeInstr 0xDE86 [0x0A00] = .error .modifier := by decide
/-- `land.arm.l s5, [s6], 3` and `land.rd s8, s5` of the counter worked through in chapter 19. -/
theorem test_decode_landing : decodeInstr 0xED80 [0x0A18, 0xC600, 0, 0] = .ok (.landArm (.s 5) (.s 6) (some (.imm 3))) ∧
    decodeInstr 0xED02 [0x1014, 0] = .ok (.landRd 4 (.s 5)) := by decide
theorem test_decode_cell : decodeInstr 0xE300 [0x0C10, 0x0A00] = .ok (.cntAdd none (.s 6) (.s 4) (.s 5)) := by decide
theorem test_decode_message : decodeInstr 0xF100 [0x0814, 0x0060] = .ok (.send (.s 4) (.s 5) 3 0) := by decide
theorem test_decode_engine : decodeInstr 0xFA81 [0x0800] = .ok (.tinj (.s 4)) := by decide
theorem test_decode_system : decodeInstr 0xFC83 [0x0804] = .ok (.srd (.s 4) .core) := by decide
theorem test_decode_reserved : decodeInstr 0x0000 [] = .error .opcode ∧ decodeInstr 0xFE00 [] = .error .opcode ∧
    decodeInstr 0x02C8 [0x9D8C] = .error .operand ∧ decodeInstr 0x02C9 [0x098C] = .error .operand := by decide

/-! ### Results that the spec works out -/

/-- The conversions worked to the code in chapter 05; flags NX 16, OF 4. -/
theorem test_convert_kf6 : convert 0x3E99999A .f32 0 .kf6 0 .rne = (0x09, 16) ∧ convert 0x40300000 .f32 0 .kf6 0 .rne = (0x16, 16) ∧
    convert 0x40300000 .f32 0 .kf6 0 .rna = (0x16, 16) ∧ convert 0xC0300000 .f32 0 .kf6 0 .rne = (0x36, 16) := by decide +kernel
theorem test_convert_kf8 : convert 0xBF8CCCCD .f32 0 .kf8 0 .rne = (0xC2, 16) ∧ convert 0x459C4000 .f32 0 .kf8 0 .rtz = (0x7F, 20) ∧
    convert 0x453B8000 .f32 0 .kf8 0 .rne = (0x7F, 16) ∧ (convert 0x45200000 .f32 0 .kf8 0 .rne).1 = 0x7E := by decide +kernel
theorem test_convert_f8n : convert 0x43020000 .f32 0 .f8n 0 .rne = (0x78, 20) ∧ convert 0x43020000 .f32 0 .f8n 0 .rtz = (0x77, 20) := by
  decide +kernel
/-- FP32 65,520 into FP16 overflows under RNE and does not under RTZ (chapter 05). -/
theorem test_convert_f16 : convert 0x477FF000 .f32 0 .f16 0 .rne = (0x7C00, 20) ∧ convert 0x477FF000 .f32 0 .f16 0 .rtz = (0x7BFF, 16) := by
  decide +kernel
/-- The FP16 keys +0, NaN, −0 and −∞ in rank order (R102). -/
theorem test_rank : rank true (fromFormat 0 .f16 0) 0 (fromFormat 0x8000 .f16 0) 2 = true ∧
    rank true (fromFormat 0x8000 .f16 0) 2 (fromFormat 0xFC00 .f16 0) 3 = true ∧
    rank true (fromFormat 0xFC00 .f16 0) 3 (fromFormat 0x7E00 .f16 0) 1 = true ∧
    rank false (fromFormat 0xFC00 .f16 0) 3 (fromFormat 0 .f16 0) 0 = true ∧
    rank false (fromFormat 0x8000 .f16 0) 2 (fromFormat 0x7E00 .f16 0) 1 = true := by decide +kernel

/-! ### States and operands that meet the hypotheses of the statements -/

/-- Context 0 of core 0 runs a supervisor's ACTIVATE. -/
def sup : State := State.reset.withLine (lineOfOne 0xFC00 [])
/-- Context 0 of core 0 runs a firing of the user actor in slot 1. -/
def act : State :=
  (sup.onCtx 0 (fun c => { c with kind := .actor, slot := 1, aid := 5, pktB := 2, sregs := [(1, 0x1000), (2, 7)] })).setSched 0 1 { st := .firing }
/-- A gang firing on context 0 of the cores 0 to 3, with different values in s1. -/
def gang : State :=
  [0, 1, 2, 3].foldl (fun s i => s.onCtx (4 * i) (fun c =>
    { c with kind := .actor, slot := 1, phase := .running, gang := true, gidx := i, sregs := FMap.put 0 [] 1 (BitVec.ofNat 64 i) })) sup

theorem witness_IntegerResults : (intForm (.addT1 .z0 (.s 1) (.imm 31) true true)).isSome ∧ (intForm (.divT4 .discard (.o 7) 0 false)).isSome := by
  decide
theorem witness_BitAndMoveResults : ∀ (c : Ctx) (r : Word), (bitForm c r (.ins (.s 63) (.imm 16) 63 63)).isSome := fun _ _ => rfl
theorem witness_FloatResults : ∀ c, (floatForm c (.fma .bf16 .z0 (.s 1) (.z 3) (.imm 0))).isSome := fun _ => rfl
theorem witness_VectorLaneResults : (Instr.vdot .y0 (.v 1) (.bc 2) .i8 true 7).wellFormed = true ∧
    ∀ s w c, (laneForm s w c (.vdot .y0 (.v 1) (.bc 2) .i8 true 7)).isSome := ⟨by decide, fun _ _ _ => rfl⟩
theorem witness_VsetcResult : (Instr.vsetc 11 0 (.v 1) (.y 1) .ui8 1).wellFormed = true ∧
    (Instr.vsetc 7 7 (.v 1) (.bc 2) .kf8 0).wellFormed = true := by decide
theorem witness_VselResult : (Instr.vsel .y0 (.v 1) (.bc 2) .f8n 3).wellFormed = true := by decide
theorem witness_MaskOperations : (Instr.mnot 0 7).wellFormed = true ∧ (∀ c, (maskForm c (.mnot 0 7)).isSome) ∧
    (Instr.mfirst .discard 0 .kf8).wellFormed = true ∧ ∀ c, (maskForm c (.mfirst .discard 0 .kf8)).isSome :=
  ⟨by decide, fun _ => rfl, by decide, fun _ => rfl⟩
theorem witness_VectorConversions : (Instr.vcvt (.v 0) (.v 1) .i8 .f64 7 1).wellFormed = true ∧
    (∀ c, (partForm c (.vcvt (.v 0) (.v 1) .i8 .f64 7 1)).isSome) ∧ (Instr.vunpack .y0 (.v 1) .b1 7 0).wellFormed = true ∧
    ∀ c, (partForm c (.vunpack .y0 (.v 1) .b1 7 0)).isSome := ⟨by decide, fun _ => rfl, by decide, fun _ => rfl⟩
theorem witness_LaneMoves : (Instr.vextr .discard (.v 31) (.imm 15) .f8w).wellFormed = true ∧
    (Instr.vinsr .y0 (.s 0) (.imm 16) .i64).wellFormed = true := by decide
theorem witness_Reductions : (Instr.vsum .y0 (.bc 3) .f16 false 2).wellFormed = true ∧ (Instr.vrmin (.v 1) (.v 2) .kf8 0).wellFormed = true ∧
    (Instr.vargmax (.v 1) 63 (.v 2) .ui16 1).wellFormed = true := by decide
theorem witness_TopK : (Instr.vtopk 15 (.v 4) (.s 6) 15 .f32 true 7).wellFormed = true := by decide
theorem witness_ControlTransfers : (∀ c, (controlForm c (.bc .eq (.s 1) (.imm 1) 0 0)).isSome) ∧
    ∀ w ∈ act.members act.cur, controlChoice (act.ctx w) (.bc .eq (.s 1) (.imm 1) 0 0) =
      controlChoice (act.ctx act.cur) (.bc .eq (.s 1) (.imm 1) 0 0) := ⟨fun _ => rfl, holds_by_check⟩
theorem witness_DivergentBranchesTrap : (∀ c, (controlForm c (.bc .eq (.s 1) (.imm 1) 0 0)).isSome) ∧
    (∃ w ∈ gang.members gang.cur, controlChoice (gang.ctx w) (.bc .eq (.s 1) (.imm 1) 0 0) ≠
      controlChoice (gang.ctx gang.cur) (.bc .eq (.s 1) (.imm 1) 0 0)) ∧
    ∃ w ∈ gang.members gang.cur, controlChoice (gang.ctx w) (.jmp (.s 1)) ≠ controlChoice (gang.ctx gang.cur) (.jmp (.s 1)) :=
  ⟨fun _ => rfl, holds_by_check, holds_by_check⟩
theorem witness_SpecialRegisterReads : ∀ w ∈ sup.members sup.cur, (sup.ctx w).supv = true := by decide +kernel
theorem witness_SpecialRegisterWrites : sup.single ∧ (sup.ctx sup.cur).supv = true ∧ act.single ∧ (act.ctx act.cur).supv = false :=
  ⟨rfl, holds_by_check, rfl, holds_by_check⟩
theorem witness_PrivilegedInstructionsTrap : ∀ w ∈ gang.members gang.cur, (gang.ctx w).supv = false := by decide +kernel
/-- Context 0 runs a task of pool 1. -/
def poolTask : State := act.onCtx 0 (fun c => { c with kind := .pool, slot := 0, aid := 0, pool := 1, msgs := [[0x0000010000000012, 1, 5, 6]] })
/-- The operands of the statement may be those of a page that is not present, a privilege fault and an error of a register. -/
theorem witness_FaultBeforeFirstCommit : ((act.ctx 0).kind = .actor ∧ (act.ctx 0).slot ≠ 0 ∧ (act.ctx 0).done1 = false ∧
      (act.sched (0 / 4) (act.ctx 0).slot).st = .firing ∧ act.pendingFault 0 = none) ∧
    ((poolTask.ctx 0).kind = .pool ∧ (poolTask.ctx 0).done1 = false ∧ (poolTask.ctx 0).gang = false ∧
      (poolTask.ctx 0).msgs = [[0x0000010000000012, 1, 5, 6]]) ∧
    ∀ t ∈ [({ code := 1, cls := 0 } : Trap), { code := 6, cls := 1 }, { code := 0x10, cls := 2 }, { code := 0x10, cls := 2, detail := 2 }],
      t.cls ≤ 2 ∧ (t.cls = 0 → t.code ≠ 0x10) := by decide +kernel
/-- The same firing after its first commit point. -/
def later : State := act.onCtx 0 (fun c => { c with done1 := true })
/-- The same firing with an imprecise fault pending. -/
def late : State := act.onCtx 0 (fun c => { c with imprec := [{ code := 0x10, detail := 2, va := 0, pc := 0, icnt := 0 }] })
theorem witness_FaultAfterFirstCommit : (later.ctx 0).done1 = true ∧ (later.ctx 0).kind = .actor ∧ later.pendingFault 0 = none ∧
    (late.pendingFault 0).isSome := by decide +kernel

/-- A supervisor with an address in s1 and values in s2 and v1. -/
def mem1 : State := sup.onCtx 0 (fun c => { c with sregs := [(1, 0x1000), (2, 0x2000)], bregs := [(1, 0x8003)], vregs := [(1, 0x30)] })
/-- What holds of context 0 holds of every context of a firing that has only that one. -/
theorem only0 {s : State} {P : Nat → Prop} (h : s.members s.cur = [0]) (p : P 0) : ∀ w ∈ s.members s.cur, P w := by
  rw [h]; exact fun w hw => List.mem_singleton.mp hw ▸ p
/-- What holds of each of four contexts holds of every context of their gang. -/
theorem each4 {s : State} {P : Nat → Prop} (h : s.members s.cur = [0, 4, 8, 12]) (p : P 0 ∧ P 4 ∧ P 8 ∧ P 12) :
    ∀ w ∈ s.members s.cur, P w := by
  rw [h]
  intro w hw
  simp only [List.mem_cons, List.not_mem_nil, or_false] at hw
  rcases hw with rfl | rfl | rfl | rfl
  exacts [p.1, p.2.1, p.2.2.1, p.2.2.2]
/-- One byte of memory without an error is clean. -/
theorem clean1 {s : State} {pa hb cls : Nat} (h : s.poisoned pa = false := by decide +kernel) : cleanBytes s [.mem pa hb cls] := by
  intro b hb'
  rw [List.mem_singleton] at hb'
  exact ⟨pa, hb, cls, hb', h⟩
/-- One byte of a scratchpad outside descriptors and state segment is stored at the port. -/
theorem port1 {s : State} {w gc a pa hb cls : Nat} (h : s.region pa = .scratch gc a ∧ (s.ctx w).inState w gc a = false ∧
    ¬ (0xE0000 ≤ a ∧ a < 0xE4000) := by decide +kernel) : portBytes s w [.mem pa hb cls] := by
  intro q hb' cls' h'
  rw [List.mem_singleton] at h'
  cases h'
  exact ⟨gc, a, h⟩
/-- One byte of HBM is logged. -/
theorem logged1 {s : State} {w pa hb cls : Nat} (h : s.region pa = .hbm := by decide +kernel) : loggedBytes s w [.mem pa hb cls] := by
  intro b hb'
  rw [List.mem_singleton] at hb'
  exact ⟨_, _, _, hb', fun gc a h' => by rw [h] at h'; cases h'⟩
/-- One byte in the state segment of the firing's actor is logged. -/
theorem loggedS1 {s : State} {w gc a pa hb cls : Nat} (h : s.region pa = .scratch gc a ∧ (s.ctx w).inState w gc a = true := by decide +kernel) :
    loggedBytes s w [.mem pa hb cls] := by
  intro b hb'
  rw [List.mem_singleton] at hb'
  refine ⟨_, _, _, hb', fun g x h' => ?_⟩
  rw [h.1] at h'
  cases h'
  exact h.2
/-- The gang with an allocation of its actor on each core, whose contexts name different bytes of them in s1. -/
def gangM : State := [0, 1, 2, 3].foldl (fun s i => (s.onCtx (4 * i) (fun c => { c with sregs := [(1, BitVec.ofNat 64 (0x4000 + i))] })).onCore i (fun k =>
  { k with sat := [(0, { guard := false, g := 0, ctx := none, slot := 1, size := 128, base := 0x4000 })] })) gang
/-- The byte that a context of it names. -/
def byteM (w : Nat) : List RByte := [.mem (localPA (w / 4) (0x4000 + w / 4)) 0 0]
/-- A load of one byte from `.l`, of one context and of the gang. -/
def ld1 : Instr := .ldT2 (.s 3) (.s 1) none 0 (some .i8) .l .dflt
theorem witness_LocalLoads : ld1.wellFormed = true ∧ ∀ w ∈ mem1.members mem1.cur,
    (∃ e, loadForm mem1 w (List.replicate 64 0) ld1 e) ∧ memOperand mem1 w ld1 = some ⟨.l, 0x1000, 0, 1, 1, .dflt⟩ ∧
    mem1.resolve w .l 0x1000 0 1 1 .read = .ok (mem1, [.mem (localPA 0 0x1000) 0 0]) ∧ cleanBytes mem1 [.mem (localPA 0 0x1000) 0 0] :=
  ⟨by decide, only0 rfl ⟨⟨_, rfl⟩, rfl, rfl, clean1⟩⟩
theorem witness_LocalLoads_gang : ∀ w ∈ gangM.members gangM.cur, (∃ e, loadForm gangM w (List.replicate 64 0) ld1 e) ∧
    memOperand gangM w ld1 = some ⟨.l, BitVec.ofNat 64 (0x4000 + w / 4), 0, 1, 1, .dflt⟩ ∧
    gangM.resolve w .l (BitVec.ofNat 64 (0x4000 + w / 4)) 0 1 1 .read = .ok (gangM, byteM w) ∧ cleanBytes gangM (byteM w) :=
  each4 (by decide +kernel) ⟨⟨⟨_, rfl⟩, rfl, holds_by_check, clean1⟩, ⟨⟨_, rfl⟩, rfl, holds_by_check, clean1⟩,
    ⟨⟨_, rfl⟩, rfl, holds_by_check, clean1⟩, ⟨_, rfl⟩, rfl, holds_by_check, clean1⟩
/-- The state that an access answers. -/
def got {α : Type} (e : Except Stop (State × α)) : State := match e with | .ok x => x.1 | .error _ => State.reset
/-- What else an access answers. -/
def gotL {α : Type} (d : α) (e : Except Stop (State × α)) : α := match e with | .ok x => x.2 | .error _ => d
/-- The supervisor of `mem1`, whose instruction holds the page of its operand. -/
def mem1h : State := got (mem1.resolveG 0 0x1000 1 1 .read)
def ldv1 : Instr := .ldvT4 (.v 3) (.s 1) none 0 (some .i8) .g .nol1 0 64
theorem witness_GlobalLoadsAreOutstanding : mem1.single ∧ (Instr.ldvT4 (.v 3) (.s 1) none 0 (some .i8) .g .nol1 0 0x7F).wellFormed = true ∧
    (∃ o, memOperand mem1 0 ldv1 = some o ∧ o.sp = .g ∧
      ∃ u l, mem1.resolveG 0 (wrap 64 (o.base.toNat + o.off)) o.n o.align .read = .ok (u, l)) ∧
    ∀ w ∈ mem1h.members mem1h.cur, memOperand mem1h w (.ldT2 (.s 3) (.s 1) none 0 (some .i8) .g .dflt) = some ⟨.g, 0x1000, 0, 1, 1, .dflt⟩ ∧
      mem1h.resolveG w (wrap 64 ((0x1000 : Word).toNat + 0)) 1 1 .read = .ok (mem1h, [.mem 0x1000 4 0]) :=
  ⟨rfl, by decide, ⟨_, rfl, rfl, _, _, rfl⟩, only0 (by decide +kernel) ⟨rfl, holds_by_check⟩⟩
def st1 : Instr := .stT2 (.s 2) (.s 1) none 0 (some .i8) .l .dflt
theorem witness_ScratchpadStores : ∀ w ∈ mem1.members mem1.cur, storeForm mem1 w st1 = some ([0x00], 0) ∧
    memOperand mem1 w st1 = some ⟨.l, 0x1000, 0, 1, 1, .dflt⟩ ∧
    mem1.resolve w .l 0x1000 0 1 1 .write = .ok (mem1, [.mem (localPA 0 0x1000) 0 0]) ∧
    portBytes mem1 w [.mem (localPA 0 0x1000) 0 0] ∧ (mem1.ctx w).loadOverlaps [.mem (localPA 0 0x1000) 0 0] = false :=
  only0 rfl ⟨rfl, rfl, rfl, port1 (gc := 0) (a := 0x1000), rfl⟩
theorem witness_ScratchpadStores_gang : ∀ w ∈ gangM.members gangM.cur, storeForm gangM w st1 = some ([0x00], 0) ∧
    gangM.resolve w .l (BitVec.ofNat 64 (0x4000 + w / 4)) 0 1 1 .write = .ok (gangM, byteM w) ∧
    portBytes gangM w (byteM w) ∧ (gangM.ctx w).loadOverlaps (byteM w) = false :=
  each4 (by decide +kernel) ⟨⟨holds_by_check, holds_by_check, port1 (gc := 0) (a := 0x4000), holds_by_check⟩,
    ⟨holds_by_check, holds_by_check, port1 (gc := 1) (a := 0x4001), holds_by_check⟩,
    ⟨holds_by_check, holds_by_check, port1 (gc := 2) (a := 0x4002), holds_by_check⟩,
    holds_by_check, holds_by_check, port1 (gc := 3) (a := 0x4003), holds_by_check⟩
/-- The actor of `act` with a state segment that holds its operand's byte; with 255 entries in its log too. -/
def seg1 : State := act.onCtx 0 (fun c => { c with sbase := 0, ssize := 0x10000 })
def seg255 : State := seg1.onCtx 0 (fun c => { c with log := List.replicate 255 (.store (seg1.origin 0) 0x2000 0x2000 4 0 .dflt [7]) })
theorem witness_LoggedStores : (∀ w ∈ seg1.members seg1.cur, storeForm seg1 w st1 = some ([0x07], 0) ∧
      memOperand seg1 w st1 = some ⟨.l, 0x1000, 0, 1, 1, .dflt⟩ ∧
      seg1.resolve w .l 0x1000 0 1 1 .write = .ok (seg1, [.mem (localPA 0 0x1000) 0 0]) ∧
      loggedBytes seg1 w [.mem (localPA 0 0x1000) 0 0] ∧ (seg1.ctx w).loadOverlaps [.mem (localPA 0 0x1000) 0 0] = false ∧
      logCount (seg1.ctx w).log + (logEntries seg1 w 0x1000 .dflt [.mem (localPA 0 0x1000) 0 0] [7]).length < 256) ∧
    (seg255.single ∧ seg255.resolve 0 .l 0x1000 0 1 1 .write = .ok (seg255, [.mem (localPA 0 0x1000) 0 0]) ∧
      loggedBytes seg255 0 [.mem (localPA 0 0x1000) 0 0] ∧ (seg255.ctx 0).loadOverlaps [.mem (localPA 0 0x1000) 0 0] = false ∧
      (seg255.ctx 0).pub = false ∧ seg255.pendingFault 0 = none ∧
      (logEntries seg255 0 0x1000 .dflt [.mem (localPA 0 0x1000) 0 0] [7]).length = 1 ∧ logCount (seg255.ctx 0).log = 255) ∧
    ∃ u l, mem1.resolve 0 .g 0x2000 0 1 1 .write = .ok (u, l) ∧ loggedBytes u 0 l ∧
      (u.ctx 0).loadOverlaps l = false ∧ logCount (u.ctx 0).log + (logEntries u 0 0x2000 .dflt l [7]).length < 256 :=
  ⟨only0 rfl ⟨holds_by_check, rfl, holds_by_check, loggedS1 (gc := 0) (a := 0x1000), holds_by_check, holds_by_check⟩,
    ⟨rfl, holds_by_check, loggedS1 (gc := 0) (a := 0x1000), holds_by_check, holds_by_check, holds_by_check, holds_by_check, holds_by_check⟩,
    _, [.mem 0x2000 4 0], rfl, logged1 (by decide +kernel), rfl, holds_by_check⟩
/-- A misaligned address, one beyond the scratchpad, and one that a user may not reach: the clauses do not meet. -/
theorem witness_LocalAddressFaults : mem1.single ∧ act.single ∧
    (∃ o, memOperand mem1 0 (.ldT4 (.s 3) (.imm 1) none 0 (some .i16) .l .dflt 0) = some o ∧ wrap 64 (o.base.toNat + o.off) % o.align ≠ 0) ∧
    (∃ o, memOperand mem1 0 (.ldT4 (.s 3) (.imm 0) none 0 (some .i16) .l .dflt 0x100000) = some o ∧
      wrap 64 (o.base.toNat + o.off) % o.align = 0 ∧ 0x100000 < wrap 64 (o.base.toNat + o.off) + o.n) ∧
    ∃ o, memOperand act 0 (.ldT4 (.s 3) (.imm 0) none 0 (some .i16) .l .dflt 0xFFFFE) = some o ∧
      wrap 64 (o.base.toNat + o.off) % o.align = 0 ∧ wrap 64 (o.base.toNat + o.off) + o.n ≤ 0x100000 ∧
      ∃ k < o.n, localOk (act.ctx 0) (act.core 0) 0 false (wrap 64 (o.base.toNat + o.off) + k) = false :=
  ⟨rfl, rfl, ⟨_, rfl, holds_by_check⟩, ⟨_, rfl, holds_by_check⟩, ⟨_, rfl, holds_by_check⟩⟩
/-- The actor's firing with a wrap-mode allocation of 100 bytes rounded up to 128, at 0x4000. -/
def alloc1 : State := act.onCore 0 (fun k => { k with sat := [(0, { guard := false, g := 0, ctx := none, slot := 1, size := 128, base := 0x4000 })] })
theorem witness_WrapAllocationNeverFaults : ∃ al, alloc1.allocOf 0 0x4000 = some al ∧ al.guard = false ∧ 64 ≤ al.size ∧ (-192 : Int) % (64 : Nat) = 0 ∧
    (alloc1.ctx 0).prefOver ((List.range 64).map (fun i =>
      RByte.mem (localPA (0 / 4) (al.base + ((-192 + (i : Int)) % (2 ^ 7 : Nat)).toNat)) 0 0)) = false := ⟨_, rfl, rfl, by decide, by decide, rfl⟩
theorem witness_BitFields : mem1.single ∧ (∃ l, mem1.resolveBits 0 ((mem1.ctx 0).breg 1) 5 .read = .ok l ∧ cleanBytes mem1 l) ∧
    ∃ l, mem1.resolveBits 0 ((mem1.ctx 0).breg 1) 5 .write = .ok l ∧ cleanBytes mem1 l ∧ portBytes mem1 0 l ∧
      (mem1.ctx 0).loadOverlaps l = false :=
  ⟨rfl, ⟨[.mem (localPA 0 0x1000) 0 0], rfl, clean1⟩, [.mem (localPA 0 0x1000) 0 0], rfl, clean1, port1 (gc := 0) (a := 0x1000), rfl⟩
/-- The actor with its state segment, which stores a field of bits there. -/
def segB : State := seg1.onCtx 0 (fun c => { c with bregs := [(1, 0x8003)] })
theorem witness_BitFields_logged : segB.single ∧ segB.resolveBits 0 ((segB.ctx 0).breg 1) 5 .write = .ok [.mem (localPA 0 0x1000) 0 0] ∧
    cleanBytes segB [.mem (localPA 0 0x1000) 0 0] ∧ loggedBytes segB 0 [.mem (localPA 0 0x1000) 0 0] ∧
    (segB.ctx 0).loadOverlaps [.mem (localPA 0 0x1000) 0 0] = false ∧
    logCount (segB.ctx 0).log + (logEntries segB 0 0x1000 .dflt [.mem (localPA 0 0x1000) 0 0] [7]).length < 256 :=
  ⟨rfl, holds_by_check, clean1, loggedS1 (gc := 0) (a := 0x1000), holds_by_check, holds_by_check⟩
/-- One active lane, lane 0, at an index of 0x30 bytes: a local and a global gather, a local and a global scatter. -/
def lane0 : State := mem1.onCtx 0 (fun c => { c with mregs := [(1, 1)] })
/-- The elements of that access. -/
def elems0 (sp : MSpace) : List Elem := lane0.elems 0 .i8 sp 0x1000 ((lane0.ctx 0).vsrc 32 (.v 1)) 0 1
theorem witness_GatherAndScatter_local : (Instr.ldx (.v 2) (.s 1) (.v 1) 0 .i8 .l .dflt 1).wellFormed = true ∧
    (Instr.stx (.v 2) (.s 1) (.v 1) 0 .i8 .l .dflt 1).wellFormed = true ∧
    ∀ w ∈ lane0.members lane0.cur, (lane0.resolveX w .i8 .l 0x1000 .read (elems0 .l) = .ok (lane0, [[.mem (localPA 0 0x1030) 0 0]]) ∧
        ∀ l ∈ [[RByte.mem (localPA 0 0x1030) 0 0]], cleanBytes lane0 l) ∧
      (lane0.resolveX w .i8 .l 0x1000 .write (elems0 .l) = .ok (lane0, [[.mem (localPA 0 0x1030) 0 0]]) ∧
        (∀ l ∈ [[RByte.mem (localPA 0 0x1030) 0 0]], portBytes lane0 w l ∧ (lane0.ctx w).loadOverlaps l = false) ∧
        ∀ e ∈ elems0 .l, e.width .i8 % 8 = 0) := by
  refine ⟨by decide, by decide, only0 rfl ⟨⟨holds_by_check, fun l hl => ?_⟩, holds_by_check, fun l hl => ?_, holds_by_check⟩⟩ <;>
    rw [List.mem_singleton] at hl <;> subst hl
  · exact clean1
  · exact ⟨port1 (gc := 0) (a := 0x1030), rfl⟩
/-- The same instruction with the page of its base held. -/
def lane0h : State := got (lane0.resolveX 0 .i8 .g 0x1000 .read (elems0 .g))
/-- One active lane of an actor that scatters to its state segment. -/
def laneS : State := seg1.onCtx 0 (fun c => { c with mregs := [(1, 1)], vregs := [(1, 0x30)] })
def elemsS : List Elem := laneS.elems 0 .i8 .l 0x1000 ((laneS.ctx 0).vsrc 32 (.v 1)) 0 1
theorem witness_GatherAndScatter_global : lane0.single ∧ (∃ u ls, lane0.resolveX 0 .i8 .g 0x1000 .read (elems0 .g) = .ok (u, ls)) ∧
    (∀ w ∈ lane0h.members lane0h.cur, lane0h.resolveX w .i8 .g 0x1000 .read (elems0 .g) = .ok (lane0h, [[.mem 0x1030 4 0]])) ∧
    ∃ u ls, lane0.resolveX 0 .i8 .g 0x1000 .write (elems0 .g) = .ok (u, ls) ∧
      ∀ l ∈ ls, loggedBytes u 0 l ∧ (u.ctx 0).loadOverlaps l = false := by
  refine ⟨rfl, ⟨got (lane0.resolveX 0 .i8 .g 0x1000 .read (elems0 .g)), [[.mem 0x1030 4 0]], holds_by_check⟩,
    only0 (by decide +kernel) holds_by_check, got (lane0.resolveX 0 .i8 .g 0x1000 .write (elems0 .g)), [[.mem 0x1030 4 0]], holds_by_check, fun l hl => ?_⟩
  rw [List.mem_singleton] at hl
  subst hl
  exact ⟨logged1, holds_by_check⟩
theorem witness_GatherAndScatter_logged : (Instr.stx (.v 2) (.s 1) (.v 1) 0 .i8 .l .dflt 1).wellFormed = true ∧
    ∀ w ∈ laneS.members laneS.cur, laneS.resolveX w .i8 .l 0x1000 .write elemsS = .ok (laneS, [[.mem (localPA 0 0x1030) 0 0]]) ∧
      (∀ l ∈ [[RByte.mem (localPA 0 0x1030) 0 0]], loggedBytes laneS w l ∧ (laneS.ctx w).loadOverlaps l = false) ∧
      (∀ e ∈ elemsS, e.width .i8 % 8 = 0) ∧ logCount (laneS.ctx w).log + ((elemsS.zip [[RByte.mem (localPA 0 0x1030) 0 0]]).flatMap (fun p =>
        logEntries laneS w (wrap 64 (opOffset .l ((laneS.ctx w).src (.s 1)) p.1.off)) .dflt p.2 (scattered .i8 ((laneS.ctx w).vsrc 8 (.v 2)) p.1).1)).length
          < 256 := by
  refine ⟨by decide, only0 rfl ⟨holds_by_check, fun l hl => ?_, holds_by_check, holds_by_check⟩⟩
  rw [List.mem_singleton] at hl
  subst hl
  exact ⟨loggedS1 (gc := 0) (a := 0x1030), holds_by_check⟩
/-- The four bytes of an AMO at 0x1000. -/
def amoL : List RByte := [.mem 0x1000 4 0, .mem 0x1001 4 0, .mem 0x1002 4 0, .mem 0x1003 4 0]
theorem witness_Atomics : mem1.single ∧ ∃ u, mem1.amoAddr 0 .i32 .g (.s 1) 0 = .ok (u, amoL) ∧ u.mayCommit ∧
    releasable u.committed 0 .pod ∧ u.committed.storeAhead 0 amoL = false ∧ plainBytes u.committed amoL := by
  refine ⟨rfl, got (mem1.amoAddr 0 .i32 .g (.s 1) 0), rfl, .inr holds_by_check,
    ⟨holds_by_check, fun e h => ?_, fun e h => ?_⟩, holds_by_check, fun b hb => ?_⟩
  · have hn : (got (mem1.amoAddr 0 .i32 .g (.s 1) 0)).committed.wq = [] := by decide +kernel
    rw [hn] at h; cases h
  · have hn : (got (mem1.amoAddr 0 .i32 .g (.s 1) 0)).committed.wq = [] := by decide +kernel
    rw [hn] at h; cases h
  · simp only [amoL, List.mem_cons, List.not_mem_nil, or_false] at hb
    rcases hb with h | h | h | h <;> exact ⟨_, _, _, h, holds_by_check, holds_by_check, .inl holds_by_check⟩
/-- A firing with `n` published stores on their way. -/
def manyOut (n : Nat) : State :=
  { mem1 with wq := (List.range n).map (fun i => ⟨i, ⟨0, 0, 0, 0, 0, 0, 0, 0, false, false⟩, .home, 0x2000, 4, 0, .dflt, [7], 0x2000, false, false, 0, 0⟩) }
theorem witness_RemoteStores_count : ∀ n ∈ [254, 255], (manyOut n).single ∧ (manyOut n).mayCommit ∧ (manyOut n).committed.stOut 0 = n := by
  intro n h
  refine ⟨rfl, .inr ?_, ?_⟩ <;> revert n <;> decide +kernel
/-- The limits of the clauses: target 2^19 - 1 and 2^19, address 0xFFFF8 and 0x100000, and a misaligned one. -/
theorem witness_RemoteStores : mem1.single ∧ mem1.pendingFault 0 = none ∧ wrap 64 (((mem1.ctx 0).src (.imm 0)).toNat + (0xFFFF8 : BitVec 32).toInt) % 8 = 0 ∧
    wrap 64 (((mem1.ctx 0).src (.imm 0)).toNat + (0xFFFF8 : BitVec 32).toInt) < 0x100000 ∧
    0x100000 ≤ wrap 64 (((mem1.ctx 0).src (.imm 0)).toNat + (0x100000 : BitVec 32).toInt) ∧
    wrap 64 (((mem1.ctx 0).src (.imm 0)).toNat + (0xFFFFFFFF : BitVec 32).toInt) % 8 ≠ 0 ∧ ((mem1.ctx 0).src (.imm 31)).toNat ≥ 2 ^ 19 :=
  ⟨rfl, holds_by_check, holds_by_check, holds_by_check, holds_by_check, holds_by_check, holds_by_check⟩
/-- A firing that a load, a published store and a copy are outstanding of. -/
def busy : State :=
  let x := mem1.onCtx 0 (fun c => { c with ocLd := 1, loads := [{ uid := 9, dst := .scalar (.s 5) .i8, addrs := [(0x2000, 4, 0)], got := [], pol := .dflt, org := ⟨0, 0, 0, 0, 0, 0, 0, 0, false, false⟩, va := 0x2000 }] })
  { x with wq := [⟨8, ⟨0, 0, 0, 0, 0, 0, 0, 0, false, false⟩, .home, 0x2000, 4, 0, .dflt, [7], 0x2000, false, false, 0, 0⟩] }
theorem witness_FencesAndWaits : (∀ w ∈ mem1.members mem1.cur, ∀ ready add, orderForm mem1 w (.fence .full .pod) = some (ready, add) → ready) ∧
    (∀ w ∈ gang.members gang.cur, ∀ ready add, orderForm gang w (.waitc 0 255 0 0) = some (ready, add) → ready) ∧
    (∃ w ∈ busy.members busy.cur, ∃ ready add, orderForm busy w (.fence .full .pod) = some (ready, add) ∧ ¬ ready) ∧
    (∃ w ∈ busy.members busy.cur, ∃ ready add, orderForm busy w (.waitc 0 255 255 255) = some (ready, add) ∧ ¬ ready) := by
  refine ⟨only0 rfl (fun r a h => ?_), each4 (by decide +kernel) ⟨?_, ?_, ?_, ?_⟩, ⟨0, List.mem_singleton_self _, _, _, rfl, fun h => ?_⟩,
    0, List.mem_singleton_self _, _, _, rfl, fun h => ?_⟩
  · cases h; exact ⟨.inr (.inr rfl), .inr (fun e h => by cases h)⟩
  · rintro _ _ ⟨⟩; exact ⟨.inr holds_by_check, .inl rfl, .inr holds_by_check, .inr holds_by_check⟩
  · rintro _ _ ⟨⟩; exact ⟨.inr holds_by_check, .inl rfl, .inr holds_by_check, .inr holds_by_check⟩
  · rintro _ _ ⟨⟩; exact ⟨.inr holds_by_check, .inl rfl, .inr holds_by_check, .inr holds_by_check⟩
  · rintro _ _ ⟨⟩; exact ⟨.inr holds_by_check, .inl rfl, .inr holds_by_check, .inr holds_by_check⟩
  · have hn : (busy.ctx 0).loads ≠ [] := holds_by_check
    exact h.1.elim (by decide) (fun h => h.elim (by decide) hn)
  · have hn : ¬ ((0 : BitVec 8) = 255 ∨ (busy.ctx 0).ocLd ≤ (0 : BitVec 8).toNat) := holds_by_check
    exact hn h.1
theorem witness_Housekeeping : mem1.single ∧ ((mem1.ctx 0).src (.s 1)).toNat % 64 = 0 ∧ ((mem1.ctx 0).src (.s 2)).toNat % 64 = 0 ∧
    ((mem1.ctx 0).src (.imm 1)).toNat % 64 ≠ 0 ∧
    (∃ u l, mem1.translate 0 0x1000 64 .read = .ok (u, l) ∧ (u.ctx 0).ocLd < 255 ∧ ∃ pa m, u.resolveL 0 0x2000 64 64 true = .ok (.mem pa 0 0 :: m)) ∧
    (∃ x, mem1.peek 0 0x1000 = .ok x) ∧ (∃ u, (mem1.onCore 0 (fun k => { k with tlb := [] })).peek 0 0x1000 = .error (.wait u)) ∧
    (mem1.core 0).tlb.length ≤ 64 ∧ (∀ i < min ((mem1.ctx 0).src (.imm 2)).toNat 4096,
      ∃ x ∈ (mem1.ctx 0).xlate ++ (mem1.core 0).tlb, x.covers (mem1.ctx 0).part (wrap 64 (0x1000 + 64 * i) / 2 ^ 16 * 2 ^ 16) = true) ∧
    (mem1.ctx 0).supv = true ∧ (act.ctx 0).supv = false ∧ act.ownsBank 0 15 = false :=
  ⟨rfl, holds_by_check, holds_by_check, holds_by_check, ⟨_, _, rfl, holds_by_check, _, _, rfl⟩, ⟨_, rfl⟩, ⟨_, rfl⟩, holds_by_check, holds_by_check,
    holds_by_check, holds_by_check, holds_by_check⟩
theorem witness_ScratchpadAllocation : act.single ∧ (∃ al, FMap.find (alloc1.core 0).sat 0 = some al ∧ al.ownedBy (alloc1.ctx 0) 0 = true ∧
    alloc1.loadInto 0 al = false) ∧ FMap.find (alloc1.core 0).sat 31 = none ∧ (alloc1.ctx 0).supv = false ∧
    ∃ al, FMap.find ((alloc1.onCtx 0 (fun c => { c with slot := 2 })).core 0).sat 0 = some al ∧
      al.ownedBy ((alloc1.onCtx 0 (fun c => { c with slot := 2 })).ctx 0) 0 = false :=
  ⟨rfl, ⟨_, rfl, holds_by_check, holds_by_check⟩, rfl, holds_by_check, ⟨_, rfl, holds_by_check⟩⟩

/-- A supervisor with no scheduling of its own and a cell of type `tag` at physical address 0x1000, words 0 and 1 given. -/
def cell (tag w0 w1 : Nat) : State := ((mem1.setTag 0x1000 tag 0).wr64 0x1000 w0).wr64 0x1008 w1
theorem witness_Atomics_waits : ¬ releasable busy 0 .pod ∧ (∃ pa hb cls, RByte.mem pa hb cls ∈ amoL ∧ ((cell 1 3 0).cellTag pa).1 ≠ 0) :=
  ⟨fun h => (holds_by_check : (busy.ctx 0).loads ≠ []) h.1, 0x1000, 4, 0, List.mem_cons_self .., holds_by_check⟩
theorem witness_CellRequests : (∃ q u pa hb, cellAsk (mem1.ctx mem1.cur) (.cntWait .ge (some .clu) .park (.s 3) (.s 1) (.imm 5)) = some q ∧
      mem1.cellAddr mem1.cur q.va = .ok (u, pa, hb) ∧ (¬ ∃ mb, q.mode = .msg mb) ∧ q.rel = false) ∧
    (∃ q u pa hb, cellAsk (mem1.ctx mem1.cur) (.ofree .discard (.s 1)) = some q ∧ mem1.cellAddr mem1.cur q.va = .ok (u, pa, hb) ∧
      (¬ ∃ mb, q.mode = .msg mb) ∧ q.rel = true ∧ u.mayCommit ∧
      u.committed.mayRelease 0 (u.committed.cellScope q.sc pa) = true) ∧
    (∃ q u pa hb, cellAsk (busy.ctx busy.cur) (.ofree .discard (.s 1)) = some q ∧ busy.cellAddr busy.cur q.va = .ok (u, pa, hb) ∧
      q.rel = true ∧ u.mayCommit ∧ u.committed.mayRelease 0 (u.committed.cellScope q.sc pa) = false) ∧
    ∃ u1 u2 u x y lpa lhb pa hb, mem1.cellAddr 0 ((mem1.ctx 0).src (.s 1)) = .ok (u1, x, y) ∧
      u1.cellAddr 0 ((u1.ctx 0).src (.s 2)) = .ok (u2, lpa, lhb) ∧ u2.cellAddr 0 ((u2.ctx 0).src (.s 1)) = .ok (u, pa, hb) ∧
      u.mayCommit ∧ u.committed.mayRelease 0 (u.committed.cellScope (some .clu) pa) = true := by
  refine ⟨⟨_, _, _, _, rfl, rfl, ?_, rfl⟩, ⟨_, _, _, _, rfl, rfl, ?_, rfl, .inr rfl, ?_⟩, ⟨_, _, _, _, rfl, rfl, rfl, .inr rfl, ?_⟩,
    _, _, _, _, _, _, _, _, _, rfl, rfl, rfl, .inr rfl, ?_⟩
  · rintro ⟨_, h⟩; cases h
  · rintro ⟨_, h⟩; cases h
  · decide +kernel
  · decide +kernel
  · decide +kernel
/-- One cell of each type that the statement names; the lock is free, and the queue of 4 entries has room. -/
theorem witness_CellOperations : ((cell 1 3 0).cellTag 0x1000).1 = 1 ∧ (mem1.cellTag 0x1000).1 = 0 ∧
    (((cell 3 0x500000005 0).cellTag 0x1000).1 = 3 ∧ (cell 3 0x500000005 0).cellW 0x1000 0 % 2 ^ 32 = (cell 3 0x500000005 0).cellW 0x1000 0 / 2 ^ 32) ∧
    (∃ w0 w1, ((cell 4 w0 w1).cellTag 0x1000).1 = 4 ∧ idxSub ((cell 4 w0 w1).que 0x1000).rsv ((cell 4 w0 w1).que 0x1000).rel < ((cell 4 w0 w1).que 0x1000).cap) ∧
    ((cell 5 7 0).cellTag 0x1000).1 = 5 ∧ ∃ g, CellAct.tag .cndSig = some g ∧ g ≠ (mem1.cellTag 0x1000).1 :=
  ⟨holds_by_check, holds_by_check, holds_by_check, ⟨0x0002000000000000, 0, holds_by_check⟩, holds_by_check,
    ⟨_, rfl, holds_by_check⟩⟩

/-- A barrier, a taken lock of actor 5, a full queue, an empty one with one index reserved and none published, one with a published index and
one with a claimed index; no waiter stands at any of them. -/
theorem witness_CellOperations_others : ((cell 2 0x100000000 0x100000001).cellTag 0x1000).1 = 2 ∧
    (((cell 3 0x500000006 5).cellTag 0x1000).1 = 3 ∧ (cell 3 0x500000006 5).cellW 0x1000 0 % 2 ^ 32 ≠ (cell 3 0x500000006 5).cellW 0x1000 0 / 2 ^ 32 ∧
      holdsLock ((cell 3 0x500000006 5).cellW 0x1000 1) 5 0 = true ∧ holdsLock ((cell 3 0x500000006 5).cellW 0x1000 1) 6 0 = false) ∧
    (let q := (cell 4 0x0000000000000002 0x0000000000000000).que 0x1000
     ((cell 4 2 0).cellTag 0x1000).1 = 4 ∧ q.cap ≤ idxSub q.rsv q.rel) ∧
    (let q := (cell 4 0x0007000000000041 0).que 0x1000
     q.clm = q.pub ∧ idxSub q.rsv q.pub ≤ idxSub 0x41 q.pub ∧ (64 ≤ idxSub 64 q.pub ∧ idxSub 64 q.pub < idxSub q.rsv q.pub) ∧
      (idxSub 1 q.pub < idxSub q.rsv q.pub ∧ idxSub 1 q.pub < 64 ∧ ((cell 4 0x0007000000000041 0).window 0x1000).testBit (idxSub 1 q.pub) = false) ∧
      (((cell 4 0x0007000000000041 0).setWindow 0x1000 2).window 0x1000).testBit (idxSub 1 q.pub) = true) ∧
    (let q := (cell 4 0x0002000001000001 0).que 0x1000
     q.clm ≠ q.pub) ∧
    (let q := (cell 4 0x0002000001000001 1).que 0x1000
     1 ≤ q.cap ∧ 1 ≤ idxSub q.clm q.rel ∧ ¬ 2 ≤ idxSub q.clm q.rel) ∧
    (((cell 5 7 0).clu 0).lift.map (fun e => e.stamp)).Nodup ∧ (∀ e ∈ ((cell 1 3 0).clu 0).lift, e.cell ≠ 0x1000) := by decide +kernel

/-- The state that an instruction or an event leaves. -/
def ran (i : Instr) (s : State) : State := match exec i s with | .next t => t | _ => State.reset
/-- CNT.ADD of 0x2000 to the counter 3 has gone to its home. -/
def asked : State := ran (.cntAdd none (.s 3) (.s 1) (.s 2)) (cell 1 3 0)
/-- The home has done it. -/
def answered : State := { ran .hsuOperation { asked with sel := 0 } with sel := 1 }
/-- A waiter on the counter of `answered` for the value 5, of partition 0, spilled to ring entry 0 or not. -/
def waiter (spill : Option Nat) : LiftEnt :=
  { stamp := 7, oper := 5, msg := none, w := 0, fid := 0, code := 0, part := 0, cell := 0x1000, aid := 0, lock := 0, eng := none,
    chosen := false, freed := false, spill := spill, org := ⟨0, 0, 0, 0, 0, 0, 0, 0, false, false⟩ }
/-- That waiter at cluster 0, with a wake of the counter pending and a withdrawal of context 0 on the way. -/
def waiting (spill : Option Nat) (wakes : List Nat) (wd : List (Nat × Nat)) : State :=
  ({ answered with sel := 0x1000 } : State).onClu 0 (fun k => { k with lift := [waiter spill], wakes := wakes, withdraw := wd })
theorem witness_CellEvents_operation : ∃ (op : CellOp) (st v i : Nat), asked.cluWith (fun k => k.hsu.any (fun o => decide (o.uid = asked.sel))) = some 0 ∧
    (asked.clu 0).hsu.find? (fun o => decide (o.uid = asked.sel)) = some op ∧ (∀ a ∈ op.cells, a ∉ (asked.clu 0).wakes) ∧
    op.act ≠ .read ∧ (∀ a ∈ op.cells, asked.poisoned a = false) ∧ (∀ mb, op.mode ≠ .msg mb) ∧
    (((asked.onClu 0 (fun k => { k with hsu := k.hsu.filter (fun o => o.uid ≠ op.uid) })).bumpSlice 0 0x21).hsuLine 0 op.pa |>.cellDo 0 op.pa
      op.act false op.org.aid (op.org.w / 4)).2 = .done st v i ∧ ∃ a ∈ op.cells, (asked.setPoison 0x1000).poisoned a = true := by
  refine ⟨_, 0, 0, 0, holds_by_check, rfl, holds_by_check, holds_by_check, holds_by_check, ?_, holds_by_check, holds_by_check⟩
  exact fun mb h => by cases h
/-- An OREAD of the counter 3, a try and a park for the value 5, each at the home. -/
def askedBy (i : Instr) : State := ran i (cell 1 3 0)
theorem witness_CellEvents_kinds : (∃ op, ((askedBy (.oread none 2 (.s 1) none)).clu 0).hsu.find? (fun o => decide (o.uid = 0)) = some op ∧
      op.act = .read ∧ op.mode = .park ∧ (askedBy (.oread none 2 (.s 1) none)).poisoned op.pa = false ∧
      ((askedBy (.oread none 2 (.s 1) none)).setPoison op.pa).poisoned op.pa = true) ∧
    ∀ m ∈ [WMode.try_, .park], let s := askedBy (.cntWait .ge none m (.s 3) (.s 1) (.imm 5))
      ∃ op, (s.clu 0).hsu.find? (fun o => decide (o.uid = s.sel)) = some op ∧ op.act ≠ .read ∧ op.mode = m ∧
        (∀ a ∈ op.cells, s.poisoned a = false) ∧ (∀ a ∈ op.cells, a ∉ (s.clu 0).wakes) ∧
        ((((s.onClu 0 (fun k => { k with hsu := k.hsu.filter (fun o => o.uid ≠ op.uid) })).bumpSlice 0 0x21).hsuLine 0 op.pa).cellDo 0 op.pa op.act false
          op.org.aid (op.org.w / 4)).2 = .wait 0 5 ∧ (s.clu 0).usedBy op.org.part < FMap.get 2 (s.clu 0).quota op.org.part ∧
        (s.ctx op.org.w).gang = false ∧ (s.ctx op.org.w).fid = op.org.fid ∧ (s.ctx op.org.w).phase = .waitCell := by
  refine ⟨⟨_, rfl, holds_by_check, holds_by_check, holds_by_check, holds_by_check⟩, fun m hm => ?_⟩
  simp only [List.mem_cons, List.not_mem_nil, or_false] at hm
  rcases hm with rfl | rfl <;> exact ⟨_, rfl, holds_by_check, holds_by_check, holds_by_check, holds_by_check, holds_by_check, holds_by_check,
    holds_by_check, holds_by_check, holds_by_check⟩
/-- The firing waits for the words of a cell. -/
theorem witness_CellEvents_words : let s : State := { mem1.onCtx 0 (fun c => { c with phase := .waitCell, cellDst := .read 4 none 0x1000 }) with
      results := [⟨0, 0, 0, 1, 3, 1, false⟩] }
    s.results.find? (fun x => decide (x.uid = s.sel)) = some ⟨0, 0, 0, 1, 3, 1, false⟩ ∧ (s.ctx 0).fid = 0 ∧ (s.ctx 0).phase = .waitCell ∧
      (s.ctx 0).gang = false ∧ (s.ctx 0).cellDst = .read 4 none 0x1000 := by decide +kernel
theorem witness_CellEvents_result : ∃ r : CellRes, answered.results.find? (fun x => decide (x.uid = answered.sel)) = some r ∧
    (answered.ctx r.w).fid = r.fid ∧ (answered.ctx r.w).phase = .waitCell ∧ (answered.ctx r.w).gang = false ∧
    (∃ va, (answered.ctx r.w).cellDst = .word (.s 3) va) ∧ r.poison = false ∧ (.s 3 : Dst) ≠ .discard :=
  ⟨_, rfl, holds_by_check, holds_by_check, holds_by_check, ⟨_, rfl⟩, holds_by_check, holds_by_check⟩
/-- A wait whose result is discarded is refused with code 3. -/
def refused3 : State :=
  { mem1.onCtx 0 (fun c => { c with phase := .waitCell, cellDst := .word .discard 0x1000 }) with results := [⟨0, 0, 0, 3, 0, 0, false⟩] }
theorem witness_CellEvents_refusal : refused3.results.find? (fun x => decide (x.uid = refused3.sel)) = some ⟨0, 0, 0, 3, 0, 0, false⟩ ∧
    (refused3.ctx 0).fid = 0 ∧ (refused3.ctx 0).phase = .waitCell ∧ (refused3.ctx 0).gang = false ∧
    (refused3.ctx 0).cellDst = .word .discard 0x1000 := by decide +kernel
theorem witness_CellEvents_lift : (waiting none [0x1000] []).cluWith (fun k => k.wakes.contains 0x1000) = some 0 ∧
    ((waiting none [0x1000] []).clu 0).waiters 0x1000 = [waiter none] ∧ (waiting none [0x1000] []).ready (waiter none) = true ∧
    ((waiting none [0x1000] []).rereadRing 0 (fun _ => true)).clu 0 = (waiting none [0x1000] []).clu 0 ∧
    ((waiter (some 0)).reread (((waiting (some 0) [] []).wrWords (((waiting (some 0) [] []).clu 0).ring 0 |>.addr 0)
      [0x8000_0000_0000_1000, 0, 5, 0]).rdWords (((waiting (some 0) [] []).clu 0).ring 0 |>.addr 0) 4)).isSome = true ∧
    ((waiting (some 0) [] []).clu 0).lift.find? (fun e => decide (e.part = 0) && e.spill.isSome) = some (waiter (some 0)) ∧
    ((waiting (some 0) [] []).clu 0).usedBy 0 < FMap.get 2 ((waiting (some 0) [] []).clu 0).quota 0 := by decide +kernel
theorem witness_CellEvents_withdrawal : let s : State := { waiting none [] [(0, 0)] with sel := 0 }
    s.cluWith (fun k => k.withdraw.any (fun x => decide (x.1 = 0))) = some 0 ∧ (s.clu 0).withdraw.find? (fun x => decide (x.1 = 0)) = some (0, 0) ∧
    (s.clu 0).hsu = [] ∧ (s.clu 0).lift.find? (fun e => decide (e.w = 0) && decide (e.fid = 0) && e.msg.isNone && e.eng.isNone) =
      some (waiter none) ∧ (waiter none).cell ∉ (s.clu 0).wakes := by decide +kernel

/-- An arm image at local 0x1000: 64 completed bytes of a region of 64 bytes at `base`, action 4. -/
def armed (s : State) (base : Nat) : State :=
  ((s.wr64 (localPA 0 0x1000) 0x0200_0000_0000_003F).wr64 (localPA 0 0x1010) base).wr64 (localPA 0 0x1018) 64
/-- The lines of that image. -/
def image64 : List RByte := (List.range 64).map (fun i => .mem (localPA 0 0x1000 + i) 0 0)
theorem witness_LandingInstructions_read : mem1.single ∧ (∃ id, ctrOf 0 ((mem1.ctx 0).src (.imm 0)) = some id ∧ id.slice = false ∧
    (id.slice = false → (mem1.ctx 0).supv = true)) ∧ ∃ id, ctrOf 0 ((mem1.ctx 0).src (.s 2)) = some id ∧ id.slice = true ∧
      (mem1.ctr id).part = (mem1.ctx 0).part ∧ (mem1.ctr id).arm = false := ⟨rfl, ⟨_, rfl, rfl, holds_by_check⟩, _, rfl, rfl, holds_by_check⟩
/-- The image for core counter 3 on the region from 0x2000, and the same with that counter armed, and with a user that does not hold it
beside an actor in slot 2 that does. -/
def armL : State := armed mem1 0x2000
def armL2 : State := armL.setCtr ⟨false, 0, 3⟩ { arm := true }
def armL3 : State := ((armL.onCtx 0 (fun c => { c with kind := .actor, slot := 1, aid := 5 })).wr64 (descPA 0 2 0) 6).wr64 (descPA 0 2 18) 8
/-- The words of the image. -/
def words64 (s : State) : Pkt := wordsOf 8 (s.readBytes 0 image64)
theorem witness_LandingInstructions_image : armL.single ∧ armL.resolveL 0 ((armL.ctx 0).src (.s 1)).toNat 64 64 false = .ok image64 ∧
    armFieldsOk (words64 armL) false = true ∧ (armRec (words64 armL)).base = 0x2000 ∧ (armRec (words64 armL)).length = 64 ∧
    0x2000 / 0x10000 = (0x2000 + 64 - 1) / 0x10000 ∧ 0x2000 + 64 ≤ (armL.core 0).sysBase ∧
    ∃ u q, armL.armAction 0 (words64 armL) (armRec (words64 armL)) = .ok (u, q) :=
  ⟨by unfold State.single; decide +kernel, holds_by_check, holds_by_check, holds_by_check, holds_by_check, holds_by_check,
    holds_by_check, got (armL.armAction 0 (words64 armL) (armRec (words64 armL))), gotL {} (armL.armAction 0 (words64 armL) (armRec (words64 armL))),
    holds_by_check⟩
theorem witness_LandingInstructions_arm : ((armL.ctx 0).supv = true ∧ (armL.ctr ⟨false, 0, 3⟩).arm = false ∧ (armL.ctr ⟨false, 0, 3⟩).owes = false) ∧
    ((armL.setCtr ⟨false, 0, 3⟩ { pend := 1 }).ctr ⟨false, 0, 3⟩).owes = true ∧ (armL2.ctr ⟨false, 0, 3⟩).arm = true ∧ (armL3.ctx 0).supv = false ∧ (armL3.ctx 0).lmask.getLsbD 3 = false ∧ armL3.ctrTaken 0 3 = true := by
  decide +kernel

/-- The image for a slice counter on a region at 0x10000: every counter of the home is free, or all are armed. -/
def armG : State := armed mem1 0x10000
def armG2 : State := armG.onClu (homeOf 0x10000 4) (fun k => { k with land := (List.range 512).map (fun i => (i, { arm := true })) })
theorem witness_LandingInstructions_slice : armFieldsOk (words64 armG) true = true ∧
    (∃ v pa hb, armG.armRegion 0 (armRec (words64 armG)) = .ok (v, pa, hb)) ∧
    ((FMap.get {} (armG.clu (homeOf 0x10000 4)).land 0).arm = false ∧ (FMap.get {} (armG.clu (homeOf 0x10000 4)).land 0).owes = false) ∧
    ∀ i < 512, (FMap.get {} (armG2.clu (homeOf 0x10000 4)).land i).arm = true := by
  refine ⟨holds_by_check, ⟨got (armG.armRegion 0 (armRec (words64 armG))), (gotL (0, 0) (armG.armRegion 0 (armRec (words64 armG)))).1,
    (gotL (0, 0) (armG.armRegion 0 (armRec (words64 armG)))).2, holds_by_check⟩, holds_by_check, holds_by_check⟩
/-- Slice counter 5 of cluster 0 with an action that is due, or a deadline that has passed. -/
def due (r : LandRec) : State := mem1.setCtr ⟨true, 0, 5⟩ r
theorem witness_LandingEvents : ((due { pend := 1, action := 4 }).ctr ⟨true, 0, 5⟩).due 0 = true ∧ ((due { late := 1 }).ctr ⟨true, 0, 5⟩).late = 0 + 1 ∧
    (let s := due { pend := 1, action := 3, len1 := 2, image := 0x1000, oper := 9 }
     (s.ctr ⟨true, 0, 5⟩).action = 3 ∧ (s.ctr ⟨true, 0, 5⟩).pool = false ∧ s.badIn (localPA 0 0x1000) 32 = false) ∧
    (let s := due { pend := 1, action := 1, cell := 0x1000, cellHb := 4 }
     (s.ctr ⟨true, 0, 5⟩).cell ∉ (s.clu (homeOf 0x1000 4)).wakes ∧ s.poisoned 0x1000 = false ∧ s.devOk 0 0 true 0x1000 = true ∧
      (s.setPoison 0x1000).poisoned 0x1000 = true ∧ (s.setPoison 0x1000).devOk 0 0 true 0x1000 = true ∧ s.devOk 0 1 true 0x1000 = false) ∧
    (let s := due { arm := true, deadline := 4, dlAt := some 0 }
     (s.ctr ⟨true, 0, 5⟩).dlAt = some 0 ∧ 0 ≤ s.now ∧ (s.ctr ⟨true, 0, 5⟩).arm = true ∧ (s.ctr ⟨true, 0, 5⟩).fired = false) ∧
    (let s := due { pend := 1, action := 3, pool := true, len1 := 2, image := 0x1000, oper := 9 }
     (s.ctr ⟨true, 0, 5⟩).pool = true ∧ s.badIn (localPA 0 0x1000) 32 = false) := by
  decide +kernel
/-- Pool entry 1 of partition 0 on core 0 is usable, and a task for it waited since clock 0. -/
def retry : State := (mem1.onCore 0 (fun k => { k with plcPool := [(1, (0x10000, 0x8000000000000000))], poolRetry := [(0, 0, 7, none, [0x0000010000000012, 1, 0, 0])] }))
theorem witness_LandingEvents_retry : (retry.core retry.sel).poolRetry = [(0, 0, 7, none, [0x0000010000000012, 1, 0, 0])] ∧
    (retry.poolEnt 0 0 (Pkt.pool [0x0000010000000012, 1, 0, 0])).isSome = true ∧ retry.deqFree 0 ≠ 0 := by decide +kernel
theorem witness_Sends : ∃ q, sendForm (act.ctx 0) (.sendv (.imm 5) (.s 1) (.s 2) none) = some q ∧ q.valid ∧ q.image = none ∧ q.kind ≠ 1 ∧ q.rv = false ∧
    (act.ctx 0).pktB = 1 + 1 ∧ freeSlot (act.ctx 0).slots 0 = some 0 := ⟨_, rfl, by decide, rfl, by decide, holds_by_check, holds_by_check, holds_by_check⟩
/-- A firing that may push one task, and one that may send nothing. -/
def pusher : State := mem1.onCtx 0 (fun c => { c with deqB := 1 })
def spent : State := act.onCtx 0 (fun c => { c with pktB := 0, deqB := 0 })
theorem witness_Sends_task : ∃ q img, sendForm (pusher.ctx 0) (.sendp (.s 2) (.s 1) 1 0) = some q ∧ q.valid ∧ q.image = some 0x1000 ∧
    (∃ l, pusher.resolveL 0 0x1000 (16 * (q.len - 1)) 16 false = .ok l ∧ cleanBytes pusher l ∧ img = wordsOf (2 * (q.len - 1)) (pusher.readBytes 0 l)) ∧
    q.rv = false ∧ q.kind = 1 ∧ (pusher.ctx 0).deqB = 0 + 1 ∧ (spent.ctx 0).pktB = 0 ∧ (spent.ctx 0).deqB = 0 := by
  refine ⟨_, _, rfl, holds_by_check, rfl, ⟨(List.range 16).map (fun i => .mem (localPA 0 0x1000 + i) 0 0), holds_by_check, fun b hb => ?_, rfl⟩,
    holds_by_check, rfl, holds_by_check, holds_by_check, holds_by_check⟩
  obtain ⟨i, hi, rfl⟩ := List.mem_map.mp hb
  exact ⟨_, _, _, rfl, rfl⟩
/-- The word of the header of entry 0 of its mailbox is in error; a FIN that waits with its notices, behind a fault of the engine. -/
def badPeek : State := { ((act.wr64 (descPA 0 1 2) 0x0001_00E7_0000_0201).wr64 (descPA 0 1 6) 0x200) with badWords := [localPA 0 0xE7000 / 8] }
theorem witness_FiringEnds_faults : (∃ a, badPeek.peekAt 0 .hdr ((badPeek.ctx 0).src (.imm 0)).toNat 0 = some a ∧
      badPeek.badWord (localPA 0 a) = true) ∧ (¬ ∃ a, act.peekAt 0 .hdr 0 0 = some a ∧ act.badWord (localPA 0 a) = true) ∧
    late.single ∧ ∃ f, late.pendingFault 0 = some f :=
  ⟨⟨0xE7000, holds_by_check, holds_by_check⟩, fun ⟨a, h, _⟩ => (by
    have hn : act.peekAt 0 .hdr 0 0 = none := holds_by_check
    rw [hn] at h
    cases h), rfl, _, rfl⟩
/-- A firing that is asked to yield, and one of a core whose notice queue is full with a consumed packet that asks for a notice. -/
def yielding : State := act.onCtx 0 (fun c => { c with yreq := true })
def noticed : State := (act.onCtx 0 (fun c => { c with msgs := [[0x1002, 0, 0, 0]] })).onCore 0 (fun k => { k with notq := 32 })
theorem witness_FiringEnds : act.single ∧ act.pendingFault 0 = none ∧ (act.ctx 0).yreq = false ∧ (yielding.ctx 0).yreq = true ∧
    (((act.publish 0).ctx 0).owed.getD (((act.publish 0).ctx 0).msgs.flatMap (noticesOf 5 false))).length ≤
      32 - ((act.publish 0).core 0).notq ∧ (act.ctx 0).kind = .actor ∧
    ((act.publish 0).sched 0 1).st ≠ .leaving := by
  refine ⟨rfl, ?_⟩
  decide +kernel
theorem witness_FiringEnds_full : noticed.single ∧ noticed.pendingFault 0 = none ∧
    32 - ((noticed.publish 0).core 0).notq <
      (((noticed.publish 0).ctx 0).owed.getD (((noticed.publish 0).ctx 0).msgs.flatMap (noticesOf 5 false))).length := by
  refine ⟨rfl, ?_⟩
  decide +kernel

/-- A length in s3. -/
def mem2 : State := mem1.onCtx 0 (fun c => { c with sregs := [(1, 0x1000), (2, 0x2000), (3, 16)] })
/-- CPY of 16 bytes from local 0x2000 to global 0x1000, as the first ranges it resolves to. -/
def cpyI : Instr := .cpy false (.s 1) (.s 2) (.s 3) false .g .l .none .dflt none
/-- The counter of copies is full. -/
def copies : State := mem2.onCtx 0 (fun c => { c with ocCp := 255 })
theorem witness_EngineCommands : ∃ q len u1 u2, copyAsk mem2 0 [] cpyI = some (q, len) ∧ copyReady mem2 0 [] cpyI ∧ (Sys2Proof.Machine.actOf (mem2.ctx 0) q.act).1 = 0 ∧
    q.tooLong = false ∧ q.eng ≠ none ∧ mem2.leavesOf 0 .write (engRanges q.dsp q.a q.drows) = .ok u1 ∧
    u1.leavesOf 0 .read (engRanges (q.ssp.getD .l) q.b q.srows) = .ok u2 ∧ u2.leavesOf 0 .rw [] = .ok u2 ∧
    (u2.engRows 0 q.dsp q.a true q.drows).isOk = true ∧ (u2.engRows 0 (q.ssp.getD .l) q.b false q.srows).isOk = true ∧
    (u2.actAddr 0 0 0).isOk = true ∧ u2.pendingFault 0 = none ∧
    ((u2.publish 0).ctx 0).ocCp < 255 ∧ 255 ≤ ((copies.publish 0).ctx 0).ocCp :=
  ⟨_, _, _, _, rfl, trivial, rfl, holds_by_check, holds_by_check, rfl, rfl, rfl, holds_by_check, holds_by_check, holds_by_check,
    holds_by_check, holds_by_check, holds_by_check⟩
/-- A descriptor of one block of one key of 64 elements at local 0x1000. -/
def bselS : State := mem1.wrWords (localPA 0 0x1000)
  [0x00000020_02D64000, 0x2000, 0x10000, 0x00000001_00000001, 0x20000, 64, 0x30000, 64, 0x00400003_00004000, 0x5000, 0, 0, 0, 0, 0, 0]
/-- Its lines, its words and its ranges. -/
def lineB (n : Nat) : List RByte := (List.range 128).map (fun i => .mem (localPA 0 n + i) 0 0)
def wordsB : Pkt := wordsOf 16 (bselS.readBytes 0 (lineB 0x1000))
def rangesB : List (Nat × Nat) := [(0x10000, 128), (0x20000, 64), (0x30000, 64)]
/-- The state once its ranges are translated. -/
def bselU : State := match bselS.leavesOf 0 .read rangesB with | .ok u => u | .error _ => State.reset
theorem witness_EngineCommands_bsel : bselS.resolveL 0 ((bselS.ctx 0).src (.s 1)).toNat 128 64 false = .ok (lineB 0x1000) ∧
    Pkt.word wordsB 1 % 16 = 0 ∧ (bselS.leavesOf 0 .read rangesB).isOk = true ∧ bselU.bselTrap 0 wordsB 0x1000 = none ∧
    (Pkt.word wordsB 2, (bselOf wordsB).N * (bselOf wordsB).sumBytes) = (0x10000, 128) ∧ (bselOf wordsB).blockBytes = 64 ∧
    bselU.resolveL 0 (Pkt.word wordsB 1) 128 16 false = .ok (lineB 0x2000) ∧
    (∀ x ∈ bselU.bselDests 0 (bselOf wordsB), bselU.slotTrap 0 x.1 x.2 = none) ∧ (bselU.spansOfAll 0 .read rangesB).isOk = true ∧
    bselU.pendingFault 0 = none :=
  ⟨holds_by_check, holds_by_check, holds_by_check, holds_by_check, holds_by_check, holds_by_check, holds_by_check, holds_by_check,
    holds_by_check, holds_by_check⟩
/-- The selection as the engine starts it. -/
def bselE : State := ran (.bsel (.s 1) false) bselS
def bselCmd : BselCmd := ((bselE.engines.head?).bind (fun e => e.bsel)).getD (bselOf wordsB)
theorem witness_EngineEvents_select : (∃ e ∈ bselE.engines, e.bsel = some bselCmd ∧ (bselE.bselRun e bselCmd).isOk = true) ∧
    ∃ l : List Nat, l.length ≤ bselCmd.k ∧ ∀ i, forcedBlock bselCmd i → i ∈ l :=
  ⟨holds_by_check, List.range bselCmd.N, holds_by_check, fun _ h => List.mem_range.mpr h.1⟩
/-- That copy as a command. -/
def e0 : EngCmd :=
  { uid := 0, kind := 0, eng := 1048576, org := ⟨0, 0, 0, 0, 0x10000, 0, 0, 0, false, true⟩, fmt := none, pol := .dflt, o := false, conv := false, sbank := true,
    dbank := false, sw := 8, dw := 8, count := 16, dst := [[⟨4096, 4096, 4, 16, 0, 0, 0x20000000⟩]], src := [[⟨8192, 8796093030400, 0, 16, 0, 0, 0⟩]], pat := 0, act := 0,
    actPa := 0, actHb := 0, actLsz := 0x20000000, actVa := 0, actW := 0, bsel := none, big := false, granted := false, tries := 0, till := 0, phase := .sending,
    order := 0, row := 0, pos := 0, bytes := 0, err := false }
/-- The copy of `cpyI` on its way to its engine. -/
def cmd1 : State := ran cpyI mem2
/-- The same in another phase. -/
def cmdAs (ph : EngSt) (row : Nat) : State := { cmd1 with engines := cmd1.engines.map (fun e => { e with phase := ph, row := row }) }
def cmdE (ph : EngSt) (row : Nat) : EngCmd := { e0 with phase := ph, row := row }
theorem witness_EngineEvents : (∃ e, cmd1.cmd 0 = some e ∧ e.phase = .sending ∧ (∀ x ∈ cmd1.engines, x.sameWay e = true → x.held = true → e.uid ≤ x.uid) ∧
      (cmd1.engines.filter (fun x => decide (x.eng = e.eng) && decide (x.phase = .inbox))).length < 16) ∧
    (∃ e, (cmdAs .backoff 0).cmd 0 = some e ∧ e.phase = .backoff ∧ e.till ≤ (cmdAs .backoff 0).now) ∧
    (∃ e, (cmdAs .inbox 0).cmd 0 = some e ∧ e.phase = .inbox ∧ (cmdAs .inbox 0).ordered e = true ∧ e.big = false ∧ e.bsel = none ∧
      ((cmdAs .inbox 0).engines.filter (fun x => decide (x.eng = e.eng) && x.busy)).length < (engineSize e.eng).2.1) ∧
    (∃ e, (cmdAs .active 1).cmd 0 = some e ∧ e.phase = .active ∧ e.dst.length ≤ e.row ∧ e.act = 0) := by
  refine ⟨⟨cmdE .sending 0, holds_by_check, holds_by_check, holds_by_check, holds_by_check⟩, ⟨cmdE .backoff 0, holds_by_check, holds_by_check, holds_by_check⟩,
    ⟨cmdE .inbox 0, holds_by_check, holds_by_check, holds_by_check, holds_by_check, holds_by_check, holds_by_check⟩,
    cmdE .active 1, holds_by_check, holds_by_check, holds_by_check, holds_by_check⟩
/-- The same with `n` refusals, at an engine whose inbox is full. -/
def crowd (n : Nat) : State :=
  { cmd1 with engines := cmd1.engines.map (fun e => { e with tries := n }) ++ (List.range 32).map (fun i => { e0 with uid := i + 1, phase := .inbox }) }
theorem witness_EngineEvents_refused : ∀ n ∈ [15, 16], (crowd n).cmd 0 = some { e0 with tries := n } ∧
    (∀ x ∈ (crowd n).engines, x.sameWay { e0 with tries := n } = true → x.held = true → 0 ≤ x.uid) ∧
    32 ≤ ((crowd n).engines.filter (fun x => decide (x.eng = e0.eng) && decide (x.phase = .inbox))).length := by decide +kernel
/-- A big command that has leave or not, a selection, and one that an error stopped. -/
def bigAs (g : Bool) (b : Option BselCmd) : EngCmd := { e0 with phase := .inbox, big := true, granted := g, bsel := b }
def bigS (g : Bool) (b : Option BselCmd) : State := { cmd1 with engines := [bigAs g b] }
theorem witness_EngineEvents_big : ∀ g ∈ [true, false], ∀ b ∈ [none, some (bselOf wordsB)], (bigS g b).cmd 0 = some (bigAs g b) ∧
    (∀ x ∈ (bigS g b).engines, x.eng = e0.eng → x.phase = .inbox → (bigAs g b).order ≤ x.order) ∧
    ((bigS g b).engines.filter (fun x => decide (x.eng = e0.eng) && x.busy)).length < (engineSize e0.eng).2.1 ∧
    (bigS g b).ordered (bigAs g b) = true ∧ (bigS g b).asked (dieOf 0) (cmdName 0) (engineWatts (bigAs g b)) = false := by decide +kernel
/-- A copy with an action, one without and one that an error stopped, each with its bytes written; and a selection that replies. -/
def doneAs (act : Nat) (err : Bool) (b : Option BselCmd) : EngCmd := { e0 with phase := .active, row := 1, act := act, err := err, bsel := b }
theorem witness_EngineEvents_done : ∀ act ∈ [0, 2], ∀ err ∈ [true, false], ∀ b ∈ [none, some { bselOf wordsB with rpl := true }],
    let s : State := { cmd1 with engines := [doneAs act err b] }
    s.cmd s.sel = some (doneAs act err b) ∧ (doneAs act err b).dst.length ≤ 1 ∧ (s.ctx 0).fid = 0 ∧ (s.ctx 0).kind ≠ .none := by decide +kernel

/-- The same with an action on the cell at 0x1000, whose counter takes it. -/
def cmdAct : State := { cell 1 3 0 with engines := [{ e0 with phase := .acting, act := 2, actPa := 0x1000, actHb := 4, actVa := 0x1000, actW := 4 }] }
theorem witness_EngineEvents_action : ∃ e v n, cmdAct.cmd 0 = some e ∧ e.phase = .acting ∧ e.actPa ∉ (cmdAct.clu (homeOf e.actPa e.actHb)).wakes ∧
    cmdAct.poisoned e.actPa = false ∧ (cmdAct.setPoison 0x1000).poisoned e.actPa = true ∧ cmdAct.devOk 0 0 true e.actPa = true ∧
    cmdAct.devOk 0 1 true e.actPa = false ∧ e.act = 2 ∧ (cmdAct.actCell (homeOf e.actPa e.actHb) e.actPa (.cntAdd e.actW.toInt)).2 = .done 0 v n :=
  ⟨{ e0 with phase := .acting, act := 2, actPa := 0x1000, actHb := 4, actVa := 0x1000, actW := 4 }, 0, 0, holds_by_check, holds_by_check, holds_by_check, holds_by_check, holds_by_check,
    holds_by_check, holds_by_check, holds_by_check, holds_by_check⟩

/-- Tree group 3 of module 0 with core 0 alone, and a chunk for it (op 0 on I32) at local 0x1000. -/
def treeS : State :=
  (mem1.wr64 (localPA 0 0x1000) 0x0000_0007_0000_2003).onMod 0 (fun m => { m with groups := [(3, ⟨true, false, 0, [0]⟩)] })
theorem witness_TreeOperations : treeS.resolveL 0 0x1000 64 64 false = .ok image64 ∧ treeS.chunkOk 0 (words64 treeS) = true ∧
    (treeS.touchLocal 0 0x1000 image64).pendingFault 0 = none ∧
    (((treeS.touchLocal 0 0x1000 image64).publish 0).core 0).injq.length < 16 ∧ ((treeS.publish 0).core 0).extq = [] := by decide +kernel
/-- The chunk in the tree, whose combination is then full; with its result in the extract queue for TEXT; and with a result that waits. -/
def inTree : State := treeS.onMod 0 (fun m => { m with chunks := [⟨0, 3, 7, 0, words64 treeS, 0⟩] })
def extracted : State := treeS.onCore 0 (fun k => { k with extq := [words64 treeS] })
def outS : State := treeS.onMod 0 (fun m => { m with treeOut := [⟨0, words64 treeS, false, 0⟩] })
theorem witness_TreeOperations_combine : (inTree.treeDrain 0).comboFull 0 3 7 = true ∧ (inTree.treeDrain 0).comboLater 0 3 7 = false ∧
    ((((inTree.treeDrain 0).mod 0).combo 3 7).foldr byCore []) = [⟨0, 3, 7, 0, words64 treeS, 0⟩] ∧ comboBad [⟨0, 3, 7, 0, words64 treeS, 0⟩] = false ∧
    chunkTy (words64 treeS) = some .i32 := by decide +kernel
theorem witness_TreeOperations_result : ((extracted.publish 0).core 0).extq = [words64 treeS] ∧
    ((extracted.publish 0).ctx 0).loadOverlaps image64 = false ∧ (outS.mod outS.sel).treeOut = [] ++ ⟨0, words64 treeS, false, 0⟩ :: [] ∧
    (outS.core (outS.sel * 2048 + 0)).extq.length < 16 ∧ portBytes (extracted.publish 0) 0 image64 := by
  refine ⟨holds_by_check, holds_by_check, holds_by_check, holds_by_check, fun pa hb cls h => ?_⟩
  obtain ⟨i, hi, h⟩ := List.mem_map.mp h
  have hi := List.mem_range.mp hi
  cases h
  have hk : ∀ i < 64, (extracted.publish 0).region (localPA 0 0x1000 + i) = .scratch 0 (0x1000 + i) ∧
    ((extracted.publish 0).ctx 0).inState 0 0 (0x1000 + i) = false := by decide +kernel
  exact ⟨0, 0x1000 + i, (hk i hi).1, (hk i hi).2, by omega⟩
/-- A full inject queue; a spilled result behind a full extract queue, and a spilled chunk, where the tree has a slot. -/
def injFull : State := treeS.onCore 0 (fun k => { k with injq := List.replicate 16 [] })
def outAway : State := (treeS.onMod 0 (fun m => { m with treeOut := [⟨0, words64 treeS, true, 0⟩] })).onCore 0 (fun k => { k with extq := List.replicate 16 [] })
def spilled : State := treeS.onMod 0 (fun m => { m with spillT := [⟨0, 3, 7, 0, words64 treeS, 0⟩] })
theorem witness_TreeOperations_fetchBack (h : 0 < Config.treeSlots) : ((injFull.publish 0).core 0).injq.length = 16 ∧
    (∀ x ∈ (outAway.mod 0).treeOut, 16 ≤ (outAway.core (0 * 2048 + x.core)).extq.length) ∧ (outAway.mod 0).slotFree = true ∧
    (outAway.mod 0).treeOut.find? (fun x => x.away) = some ⟨0, words64 treeS, true, 0⟩ ∧ (spilled.mod 0).treeOut = [] ∧
    (spilled.mod 0).spillT = [⟨0, 3, 7, 0, words64 treeS, 0⟩] ∧ combos (spilled.mod 0).chunks < Config.treeSlots := by
  have e : combos (outAway.mod 0).chunks + outs (outAway.mod 0).treeOut false = 0 := by decide +kernel
  have e2 : combos (spilled.mod 0).chunks = 0 := by decide +kernel
  refine ⟨holds_by_check, holds_by_check, ?_, holds_by_check, holds_by_check, holds_by_check, e2 ▸ h⟩
  unfold Module.slotFree
  rw [e]
  exact decide_eq_true h

/-- An actor with a state segment of one bank that holds tile 2 and pair 1, with a record; its bank 0 is of format I8. -/
def matA : State :=
  let s := act.onCtx 0 (fun c => { c with sbase := 0, ssize := 0x10000, sregs := [(1, 0x1000), (2, 0x2000)] })
  (s.onClu 0 (fun k => { k with tileOwn := [(2, (s.ctx 0).key)], pairOwn := [(1, (s.ctx 0).key)], mrecs := [((s.ctx 0).key, {})] })).onCore 0
    (fun k => { k with bfmt := [(0, 0)] })
/-- The same with the lease. -/
def leased : State := matA.onClu 0 (fun k => { k with holder := some 0 })
theorem witness_MatrixDirectForms : matA.single ∧ matA.pendingFault 0 = none ∧ matA.holdsTile 0 2 = true ∧ matA.committed.tileBusy 0 2 = none ∧
    (matA.ctx 0).kind = .actor ∧ (matA.committed.clu 0).inbox = [] ∧
    (∃ r, FMap.find (matA.clu 0).mrecs (matA.ctx 0).key = some r) ∧ ((matA.ctx 0).src (.s 1)).toNat < 0x100000 ∧ matA.tileTrap 0 2 = none :=
  ⟨rfl, holds_by_check, holds_by_check, holds_by_check, holds_by_check, holds_by_check, ⟨{}, holds_by_check⟩, holds_by_check, holds_by_check⟩
/-- The same with the lease and MSTREAM for tile 2 in the inbox. -/
def tileInUse : State := ran (.mstream 2 1 (.s 1) (.imm 0) 0 3 false) leased
theorem witness_MatrixDirectForms_busy : tileInUse.mayCommit ∧ tileInUse.holdsTile 0 2 = true ∧ (tileInUse.ctx 0).pub = false ∧
    ((tileInUse.committed.clu 0).inbox.find? (fun m => decide (m.key = (tileInUse.committed.ctx 0).key) && decide (m.op.tile? = some 2))).isSome = true :=
  ⟨.inr holds_by_check, holds_by_check, holds_by_check, holds_by_check⟩
theorem witness_MatrixCommands_swap : matA.single ∧ arrayAsk matA matA 0 (.mswap 1) (.swap 1) ∧ (matA.clu 0).holder ≠ some 0 ∧
    (leased.clu 0).holder = some 0 ∧ (leased.clu 0).inbox.length < 64 ∧ (leased.ctx 0).ocTl < 255 ∧ leased.pendingFault 0 = none ∧
    255 ≤ ((leased.onCtx 0 (fun c => { c with ocTl := 255 })).ctx 0).ocTl :=
  ⟨rfl, ⟨rfl, holds_by_check, rfl⟩, holds_by_check, holds_by_check, holds_by_check, holds_by_check, holds_by_check, holds_by_check⟩
/-- The format of that bank as the commands see it. -/
def i8 : BankFmt := { fmt := some .i8, shift := 0, rm := .rne, order := 0 }
theorem witness_MatrixCommands_stream : ∃ op, arrayAsk leased leased 0 (.mstream 2 1 (.s 1) (.imm 0) 0 3 false) op :=
  ⟨_, i8, rfl, holds_by_check, holds_by_check, holds_by_check, holds_by_check, holds_by_check, holds_by_check, rfl⟩
theorem witness_MatrixCommands_load : ∃ op, arrayAsk leased leased 0 (.mloadw 1 (.s 1) (.imm 0)) op :=
  ⟨_, i8, 128, 128, 128, rfl, holds_by_check, holds_by_check, holds_by_check, holds_by_check, holds_by_check,
    holds_by_check, rfl⟩
theorem witness_MatrixCommands_epilogue : ∃ op, arrayAsk leased leased 0 (.mepi .f32 false 2 (.s 1) (.imm 0) 0 0 15) op :=
  ⟨_, holds_by_check, holds_by_check, holds_by_check, holds_by_check, holds_by_check,
    fun _ => ⟨i8, 16, rfl, holds_by_check, rfl⟩, fun h => by cases h⟩
/-- MSWAP of pair 1 in the inbox, with leave for it; and one that has run. -/
def queued : State := (ran (.mswap 1) leased).onClu 0 (fun k => { k with leave := 1000 })
def swapped : State := ran .mswapRun queued
theorem witness_ArrayEvents : (∃ m, queued.readyCmd queued.sel = some m ∧ m.op = .swap 1 ∧
      (queued.clu queued.sel).cmdWatts m.op ≤ (queued.clu queued.sel).leave) ∧
    (∃ m, (swapped.clu swapped.sel).inbox = [m] ∧ m.ran = true) ∧
    (let k := (matA.onClu 0 (fun k => { k with leaseReq := [(0, 9)], leave := 9 })).clu 0
     k.holder = none ∧ k.leaseReq = (0, 9) :: [] ∧ 9 ≤ k.leave) := by
  refine ⟨⟨{ uid := 0, tag := 0, op := .swap 1, org := ⟨0, 0, 5, 0, 0x10000, 0, 1, 0, false, false⟩, ran := false, flags := 0, tFence := 4000000 }, holds_by_check, rfl, holds_by_check⟩,
    ⟨{ uid := 0, tag := 0, op := .swap 1, org := ⟨0, 0, 5, 0, 0x10000, 0, 1, 0, false, false⟩, ran := true, flags := 0, tFence := 4000000 }, holds_by_check, rfl⟩, holds_by_check⟩
/-- MSTREAM, MLOADW and MEPI in the inbox. -/
def queuedAs (i : Instr) : State := (ran i leased).onClu 0 (fun k => { k with leave := 1000, stallT := 4000000 })
theorem witness_ArrayEvents_others :
    ((queuedAs (.mstream 2 1 (.s 1) (.imm 0) 0 3 false)).readyCmd 0).map (fun m => m.op) = some (.stream 2 1 0x1000 128 0 4 false i8) ∧
    ((queuedAs (.mloadw 1 (.s 1) (.imm 0))).readyCmd 0).map (fun m => m.op) = some (.loadw 1 0x1000 128 i8) ∧
    (((queuedAs (.mstream 2 1 (.s 1) (.imm 0) 0 3 false)).die 0).work + 4 * 128 * 128 ≤
      ((queuedAs (.mstream 2 1 (.s 1) (.imm 0) 0 3 false)).die 0).last + windowPeak / 8) ∧
    ((queuedAs (.mepi .f32 false 2 (.s 1) (.imm 0) 0 0 15)).readyCmd 0).map (fun m => (m.op, m.tFence)) =
      some (.epi .f32 false 2 0x1000 16 0 1 16 {} (some i8) [], 4000000) ∧
    (queuedAs (.mepi .f32 false 2 (.s 1) (.imm 0) 0 0 15)).fenceFirst 0 = true := by decide +kernel

theorem witness_SupervisorInstructions : mem1.single ∧ (mem1.ctx 0).supv = true ∧ mem1.storesOut 0 = false ∧ mem1.pendingFault 0 = none ∧
    (mem1.tlbDrop 0 .all).invBusy 0 .all = false ∧ (busy.tlbDrop 0 .all).invBusy 0 .all = true ∧ (mem1.clu 0).insAt ≠ some mem1.now ∧ (mem1.clu 0).popAt ≠ some mem1.now ∧
    ((mem1.publish 0).core 0).notq + (((mem1.publish 0).ctx 0).owed.getD (((mem1.publish 0).ctx 0).msgs.flatMap (noticesOf 0 true))).length ≤ 32 ∧
    busy.storesOut 0 = true ∧ ((mem1.onClu 0 (fun k => { k with insAt := some 0 })).clu 0).insAt = some mem1.now ∧
    ((mem1.onClu 0 (fun k => { k with popAt := some 0 })).clu 0).popAt = some mem1.now :=
  ⟨rfl, holds_by_check, holds_by_check, holds_by_check, holds_by_check, holds_by_check, holds_by_check, holds_by_check, holds_by_check, holds_by_check,
    holds_by_check, holds_by_check⟩
/-- An entry of the fault buffer of cluster 0 for partition 0. -/
def faulty : State := mem1.onClu 0 (fun k => { k with fbuf := [(4, ⟨9, 0, 0x77, 1, true, false, 1, 5, 0, 2⟩)] })
theorem witness_SupervisorInstructions_fltpop : (∃ i e, (i, e) ∈ (faulty.clu 0).fbuf ∧ e.part = (faulty.ctx 0).part ∧
      ∀ y ∈ (faulty.clu 0).fbuf, y.2.part = (faulty.ctx 0).part → y = (i, e) ∨ e.order < y.2.order) ∧ (mem1.clu 0).fbuf = [] :=
  ⟨⟨4, ⟨9, 0, 0x77, 1, true, false, 1, 5, 0, 2⟩, holds_by_check⟩, holds_by_check⟩
/-- Partition 0 owns core 0, whose slot 1 holds the actor of handle 6 with mailbox 0 enabled at 0xE7000 for entries of 2 units; handle 6
is the one member of the team at 0x1000. `st` is the state of its entry. -/
def tab (st : Nat) : State :=
  let s := (mem2.onMod 0 (fun m => { m with parts := [(0, ⟨true, 4, 0x4000, 0x8000, 0, [], 0⟩)], owner := [(0, 0)] })).onCtx 0
    (fun c => { c with sregs := [(1, 0x1000), (2, 6), (3, 1)] })
  ((((s.wr64 0x4030 (st * 2 ^ 62 + 1)).wr64 (localPA 0 0x1000) 6).wr64 (descPA 0 1 0) 0x8000000000000006).wr64 (descPA 0 1 2) 0x0001_00E7_0000_0201).setSched 0 1 { st := .idle }
theorem witness_SupervisorInstructions_evict : (let ent := (tab 1).aptRead 0 0 ((((tab 1).ctx 0).src (.s 2)).toNat % 2 ^ 24)
      ¬ (aptSt ent = 0 ∨ aptHost ent = true ∨ (tab 1).there 0 (aptCore ent / 2048) = false ∨ (tab 1).ownerOf (aptCore ent) ≠ 0) ∧
      ¬ (aptSt ent ≠ 1 ∨ ((tab 1).sched (aptCore ent) (aptSlot ent)).st ≠ .idle) ∧ aptSlot ent = 1) ∧
    (mem1.aptRead 0 0 6 = 0) ∧ aptSt ((tab 2).aptRead 0 0 6) = 2 := by decide +kernel
/-- The state once ADMIT has read its list. -/
def listed (s : State) : State := got (s.teamList 0 (.s 1) (.s 3))
theorem witness_SupervisorInstructions_admit : (∀ a ∈ (tab 1).admits, ¬ (a.w = 0 ∧ a.fid = ((tab 1).ctx 0).fid)) ∧ (tab 1).wq = [] ∧
    (tab 1).teamList 0 (.s 1) (.s 3) = .ok (listed (tab 1), [6]) ∧ (listed (tab 1)).teamOf 0 .clu [6] [] = .ok [(6, 0, 1)] ∧
    ((listed (tab 1)).sched 0 1).st ≠ .absent ∧ (listed (tab 1)).late 0 1 evArrival = false ∧ (listed (tab 2)).teamOf 0 .clu [6] [] = .error (4, 0) ∧
    ((listed ((tab 3).setSched 0 1 { st := .absent })).teamOf 0 .clu [6] [] = .ok [(6, 0, 1)] ∧
      ((listed ((tab 3).setSched 0 1 { st := .absent })).sched 0 1).st = .absent) ∧ (tab 1).late 0 1 evEvict = false := by decide +kernel
/-- The ADMIT of this firing waits for its team, or has its status. -/
def admitting (r : Option (Nat × Nat)) : State := { tab 1 with admits := [⟨0, 0, 0, 0, [(6, 0, 1)], r⟩] }
theorem witness_SupervisorInstructions_pending : ∀ r ∈ [none, some (0, 0)],
    (admitting r).admits.find? (fun a => decide (a.w = 0) && decide (a.fid = ((admitting r).ctx 0).fid)) = some ⟨0, 0, 0, 0, [(6, 0, 1)], r⟩ := by
  decide +kernel
/-- The actor has had an end of a firing in this cycle. -/
def ended : State := (tab 1).setSched 0 1 { st := .idle, event := (0, 9) }
theorem witness_SupervisorInstructions_late : ended.late 0 1 evEvict = true ∧ (ended.sched 0 1).st = .idle ∧ (ended.ctx 0).supv = true := by
  decide +kernel

/-- Context 0 waits, for an access of kind `a`, for the walk of a granule of partition 0, which has the result `r`. -/
def walkAs (a : Nat) (r : Option WalkRes) : WalkReq := { uid := 3, part := 0, gran := 2, reqs := [(0, a, 0x20000, 0)], lvl := 1, base := 0, res := r }
def walker (a : Nat) (r : Option WalkRes) : State :=
  (mem1.onClu 0 (fun k => { k with walks := [walkAs a r] })).onCtx 0 (fun c => { c with phase := .waitWalk })
theorem witness_MemoryEvents_walk : ∀ a ∈ [0, 4], ∀ r ∈ [none, some (.leaf ⟨0, 0, 0x20000, 0x10000, 0x20000, 4, 0, true, true, true, true⟩),
      some (.bad 5), some (.notPresent 2)],
    ((walker a r).clu 0).walks.find? (fun x => decide (x.uid = 3)) = some (walkAs a r) ∧ (walker a r).hasWalker 0 3 = true ∧
      ((walker a r).ctx 0).phase = .waitWalk ∧ ((walker a r).ctx 0).fid = 0 := by decide +kernel
/-- A load of `n` bytes from 0x2000 for `d`. -/
def loadAs (d : LoadDst) (n : Nat) : Load :=
  { uid := 9, dst := d, addrs := (List.range n).map (fun i => (0x2000 + i, 4, 0)), got := [], pol := .dflt, org := ⟨0, 0, 0, 0, 0, 0, 0, 0, false, false⟩, va := 0x2000 }
def loading (d : LoadDst) (n : Nat) : State := mem1.onCtx 0 (fun c => { c with loads := [loadAs d n] })
theorem witness_MemoryEvents_load : ∀ d ∈ [.scalar (.s 5) .i8, .pair 4, .vec (.v 2) 8 [true] 0, .local_ (localPA 0 0x3000)], ∀ n ∈ [8, 9],
    ((loading d n).ctx 0).loads.find? (fun l => decide (l.uid = 9)) = some (loadAs d n) ∧
      ((loading d n).ctx 0).loadAhead 9 (loadAs d n).piece = false ∧ (loadAs d n).piece.length = 8 ∧
      ∀ q ∈ (loadAs d n).addrs, (loading d n).poisoned q.1 = false := by decide +kernel
/-- A published store of `n` bytes that nothing holds back. -/
def storeAs (n : Nat) : Pending := ⟨8, ⟨0, 0, 0, 0, 0, 0, 0, 0, false, false⟩, .home, 0x2000, 4, 0, .dflt, List.replicate n 7, 0x2000, false, false, 0, 0⟩
def stored (n : Nat) : State := { mem1 with sel := 8, wq := [storeAs n] }
theorem witness_MemoryEvents_store : ∀ n ∈ [8, 9], (stored n).wq.find? (fun x => decide (x.uid = (stored n).sel)) = some (storeAs n) ∧
    (stored n).canPerform (storeAs n) = true ∧ (storeAs n).via = .home ∧ (stored n).region (storeAs n).pa = .hbm ∧ (storeAs n).piece = 8 ∧
    (∀ i < (storeAs n).piece, ((stored n).cellTag ((storeAs n).pa + i)).1 = 0) ∧ (∀ x ∈ (stored n).wq, x.via ≠ .seg) ∧
    (∀ x ∈ (stored n).wq, x.ahead (storeAs n) = false) ∧ (stored n).outstanding 0 0 0 = false ∧ (stored n).entered (storeAs n) = true ∧
    ∀ g ∈ (stored n).sharers (homeOf 0x2000 4) (0x2000 / 64), g = 0 := by decide +kernel
theorem witness_MemoryEvents_engine : (∀ x ∈ (cmdAs .active 0).wq, x.uid ≠ (cmdAs .active 0).sel) ∧
    (cmdAs .active 0).cmd (cmdAs .active 0).sel = some (cmdE .active 0) ∧
    ∃ t, (cmdAs .active 0).engStep (cmdE .active 0) = some t :=
  ⟨holds_by_check, holds_by_check, ((cmdAs .active 0).engStep (cmdE .active 0)).getD State.reset, holds_by_check⟩

/-- No address below 0xDC000 of a scratchpad, nor one of HBM like it, lies in a race-trace ring. -/
theorem no_ring {pa : Nat} (h : pa % 2 ^ 20 < 0xDC000) : ¬ inTraceRing pa := by
  rintro ⟨gc, k, hk, rfl⟩
  simp only [localPA] at h
  omega
/-- A row of consecutive addresses that may be written, and one that may be read. -/
theorem row_open {s : State} {e : EngCmd} {d : List Span} {o n va pa hb cls : Nat} (h : ∀ i < n, spanAt d (o + i) = some (va + i, pa + i, hb, cls) ∧
    s.devOk (e.org.w / 4 / 2048) e.org.part true (pa + i) = true ∧ s.skips (pa + i) = false ∧ (pa + i) % 2 ^ 20 < 0xDC000) : rowOpen s e d o n pa :=
  fun i hi => ⟨⟨va + i, hb, cls, (h i hi).1⟩, (h i hi).2.1, (h i hi).2.2.1, no_ring (h i hi).2.2.2⟩
theorem row_clean {s : State} {e : EngCmd} {d : List Span} {o n va pa hb cls : Nat} (h : ∀ i < n, spanAt d (o + i) = some (va + i, pa + i, hb, cls) ∧
    s.devOk (e.org.w / 4 / 2048) e.org.part false (pa + i) = true ∧ s.poisoned (pa + i) = false) : rowClean s e d o n :=
  fun i hi => ⟨va + i, pa + i, hb, cls, h i hi⟩
/-- The copy of 16 bytes at work, and one that converts 16 F32 numbers into a bank of I8. -/
theorem witness_MemoryEvents_move : let s := cmdAs .active 0
    let e := cmdE .active 0
    s.cmd s.sel = some e ∧ e.converts = false ∧ e.bsel = none ∧ e.kind ≠ 3 ∧ 0 < e.rowLen [⟨4096, 4096, 4, 16, 0, 0, 0x20000000⟩] ∧
      spanAt [⟨4096, 4096, 4, 16, 0, 0, 0x20000000⟩] 0 = some (4096, 4096, 4, 0) ∧
      rowOpen s e [⟨4096, 4096, 4, 16, 0, 0, 0x20000000⟩] 0 16 4096 ∧ rowClean s e (e.src.getD 0 []) 0 16 :=
  ⟨holds_by_check, holds_by_check, holds_by_check, holds_by_check, holds_by_check, holds_by_check,
    row_open (va := 4096) (hb := 4) (cls := 0) holds_by_check, row_clean (va := 8192) (pa := 8796093030400) (hb := 0) (cls := 0) holds_by_check⟩
def convS : State :=
  let s := ran (.cpy false (.s 1) (.s 2) (.s 3) false .l .g .none .dflt (some .f32)) (mem2.onCore 0 (fun k => { k with bfmt := [(0, 0)] }))
  { s with engines := s.engines.map (fun e => { e with phase := .active }) }
def convE : EngCmd := (convS.cmd 0).getD e0
theorem witness_MemoryEvents_convert : convS.cmd convS.sel = some convE ∧ convE.phase = .active ∧ convE.converts = true ∧ convE.carry = {} ∧
    convE.dst[0]? = some (convE.dst.getD 0 []) ∧ spanAt (convE.dst.getD 0 []) 0 = some (0x1000, localPA 0 0x1000, 0, 0) ∧
    rowOpen convS convE (convE.dst.getD 0 []) 0 16 (localPA 0 0x1000) ∧ rowClean convS convE (convE.src.getD 0 []) 0 64 ∧
    convS.sideFmt convE.dbank convE.fmt (localPA 0 0x1000) = some (.i8, 0, .rne) ∧ 512 ≤ convE.sourceBits ∧
    ∀ i < 16, ∃ v q h c, spanAt (convE.src.getD 0 []) ((0 + 32 * i) / 8) = some (v, q, h, c) ∧
      convS.sideFmt convE.sbank convE.fmt q = some (.f32, 0, .rne) := by
  refine ⟨holds_by_check, holds_by_check, holds_by_check, holds_by_check, holds_by_check, holds_by_check,
    row_open (va := 0x1000) (hb := 0) (cls := 0) holds_by_check, row_clean (va := 0x2000) (pa := 0x2000) (hb := 4) (cls := 0) holds_by_check,
    holds_by_check, holds_by_check, fun i hi => ⟨0x2000 + 4 * i, 0x2000 + 4 * i, 4, 0, ?_⟩⟩
  exact ⟨(holds_by_check : ∀ i < 16, spanAt (convE.src.getD 0 []) ((0 + 32 * i) / 8) = some (0x2000 + 4 * i, 0x2000 + 4 * i, 4, 0)) i hi,
    (holds_by_check : ∀ i < 16, convS.sideFmt convE.sbank convE.fmt (0x2000 + 4 * i) = some (.f32, 0, .rne)) i hi⟩
/-- A row that is at its end. -/
theorem witness_MemoryEvents_rowEnd : let e := { cmdE .active 0 with pos := 16 }
    e.rowLen [⟨4096, 4096, 4, 16, 0, 0, 0x20000000⟩] ≤ e.pos ∧ e.err = false := by decide +kernel
/-- A store of `n` bytes at the port of the scratchpad of core 0. -/
def portS (n : Nat) : Pending := { storeAs n with via := .port, pa := localPA 0 0x1000 }
theorem witness_MemoryEvents_port : ∀ n ∈ [16, 17], let s : State := { mem1 with sel := 8, wq := [portS n] }
    s.wq.find? (fun x => decide (x.uid = s.sel)) = some (portS n) ∧ s.canPerform (portS n) = true ∧ s.region (portS n).pa = .scratch 0 0x1000 ∧
      0x1000 + (portS n).piece ≤ 0xDC000 ∧ (portS n).piece = 16 ∧ ∀ x ∈ s.wq, x.via ≠ .seg := by decide +kernel

/-- A packet for handle 6 on its way from core 0 in a state of its own. -/
def pkt6 (st : NetSt) : NetPkt :=
  { uid := 0, core := 0, part := 0, w := none, pair := none, p := [headWord 0 2 0 6 false false false, 0, 7, 8], tries := 0, st := st,
    redir := false, gate := {}, nq := false, host := none }
/-- That packet in the network; an ACTIVATE from a supervisor for core 0 instead. -/
def net6 (n : Nat) (st : NetSt) : State := { tab n with net := [pkt6 st] }
def actP (sup : Bool) : NetPkt := { pkt6 .flying with p := [headWord 2 3 0 0 false sup false, 0, 0, 0, 0x10000, 0] }
theorem witness_NetworkEvents_inject : (∃ u, (net6 1 .ready).findDest (pkt6 .ready) = (u, 0x4000000000000001) ∧ (net6 1 .ready).pkt 0 = some (pkt6 .ready) ∧
      (net6 1 .ready).injectable (pkt6 .ready) = true ∧ (net6 1 .ready).turnOf (pkt6 .ready) = true ∧ Pkt.kind (pkt6 .ready).p = 0) ∧
    (aptSt 0x4000000000000001 ≠ 0 ∧ aptHost 0x4000000000000001 = false ∧ (net6 1 .ready).there 0 0 = true ∧ (net6 1 .ready).ownerOf 0 = 0) ∧
    ((net6 0 .ready).findDest (pkt6 .ready)).2 = 0 ∧ (pkt6 .ready).notice = false ∧ (net6 1 (.backoff 0)).pkt 0 = some (pkt6 (.backoff 0)) ∧
    (net6 1 (.bounced 4)).pkt 0 = some (pkt6 (.bounced 4)) :=
  ⟨⟨((net6 1 .ready).findDest (pkt6 .ready)).1, holds_by_check, holds_by_check, holds_by_check, holds_by_check, holds_by_check⟩,
    holds_by_check, holds_by_check, holds_by_check, holds_by_check, holds_by_check⟩
/-- An empty mailbox, a full one, one that is off, one of another length, and entries that are moving or unknown. -/
theorem witness_NetworkEvents_arrive : (net6 1 .flying).pkt 0 = some (pkt6 .flying) ∧ (net6 1 .flying).aptRead 0 0 6 = 0x4000000000000001 ∧
    (net6 1 .flying).backed 0 1 0 = false ∧ ((net6 1 .flying).mbox 0 1 0).en = true ∧ Pkt.units (pkt6 .flying).p = ((net6 1 .flying).mbox 0 1 0).units ∧
    ((net6 1 .flying).mbox 0 1 0).count + ((net6 1 .flying).mbox 0 1 0).rsv < ((net6 1 .flying).mbox 0 1 0).depth ∧
    (net6 1 .flying).mayEnqueue 0 1 ((net6 1 .flying).mbox 0 1 0).prio = true ∧
    (let b := (net6 1 .flying).mbox 0 1 0
     (pkt6 .flying).p.length ≤ 2 * b.units ∧ 0xE4000 ≤ b.entry (b.head + b.count)) ∧
    aptSt ((net6 3 .flying).aptRead 0 0 6) = 3 ∧ ((net6 1 .flying).mbox 0 1 0).en = true ∧ 3 ≠ ((net6 1 .flying).mbox 0 1 0).units ∧
    ((((net6 1 .flying).wr64 (descPA 0 1 6) 0x200).mbox 0 1 0).depth ≤ (((net6 1 .flying).wr64 (descPA 0 1 6) 0x200).mbox 0 1 0).count) ∧
    ((net6 1 .flying).mbox 0 1 1).en = false ∧ aptSt ((net6 2 .flying).aptRead 0 0 6) = 2 ∧ aptSt ((net6 0 .flying).aptRead 0 0 6) = 0 := by
  decide +kernel
theorem witness_NetworkEvents_activate : (let s := { tab 1 with net := [actP true] }
      s.pkt 0 = some (actP true) ∧ Pkt.kind (actP true).p = 2 ∧ Pkt.sup (actP true).p = true ∧ s.ownerOf 0 = 0 ∧ (actP true).patrol = false ∧
        (s.core 0).halted = false ∧ (s.core 0).actq.length < 4 + (if (s.core 0).fenced && !(actP true).patrol then 0 else s.actRoom 0) ∧
        (let t := s.onCore 0 (fun k => { k with halted := true })
         (t.core 0).halted = true ∧ t.ownerOf 0 = 0 ∧ (t.core 0).actq.length < 4 + t.actRoom 0) ∧
        (let t := s.onCore 0 (fun k => { k with actq := List.replicate 8 ⟨0, 0, none, [], 0⟩ })
         4 + t.actRoom 0 ≤ (t.core 0).actq.length ∧ (t.core 0).halted = false) ∧
        (let t := s.onCore 0 (fun k => { k with actq := List.replicate 4 ⟨0, 0, none, [], 0⟩, fenced := true })
         4 + (if (t.core 0).fenced && !(actP true).patrol then 0 else t.actRoom 0) ≤ (t.core 0).actq.length)) ∧
    ({ actP true with host := some 0 } : NetPkt).patrol = true ∧ ¬ ((actP false).host.isSome = true ∨ Pkt.sup (actP false).p = true) ∧
    (net6 1 (.refused 5)).pkt 0 = some (pkt6 (.refused 5)) ∧ (net6 1 .accepted).pkt 0 = some (pkt6 .accepted) := by decide +kernel

/-- The handle 6 is absent and its backing queue has `2 ^ n` entries from `base` on, in the memory of partition 0 or outside it. -/
def away (n base : Nat) : State :=
  ((net6 3 .flying).onMod 0 (fun m => { m with parts := [(0, ⟨true, 4, 0x4000, 0x8000, 0, [(0, 0xFF, true)], 0⟩)] })).wr64 (descPA 0 1 20) (base + n)
/-- In a state that gives partition 0 the first 16 MiB of module 0, with no typed cell, those are open to it. -/
theorem low_open {s : State} (pa n : Nat) (hn : pa + n ≤ 0x1000000) (hs : s.present.contains 0 = true ∧ s.ownerOf 0 = 0 ∧
    (s.partEntry 0 0).valid = true ∧ (s.partEntry 0 0).ranges = [(0, 0xFF, true)] ∧ s.tags = [] := by decide +kernel) : s.openHbm 0 pa n := by
  intro k hk
  have h0 : (pa + k) / 2 ^ 44 = 0 := by omega
  have h1 : (pa + k) % 2 ^ 44 < 0x10000000000 := by omega
  have hr : s.region (pa + k) = .hbm := by simp only [State.region, h0, hs.1, h1, Bool.not_true, if_true]; rfl
  refine ⟨hr, ?_, by simp [State.cellTag, hs.2.2.2.2, FMap.get]⟩
  simp only [State.physOk, hr, hs.2.1, h0, State.hbmOk, hs.2.2.1, hs.2.2.2.1]
  simp [State.reach]
  omega
/-- That packet as an entry of the queue, and the queue of one entry that holds it. -/
def ent6 : BqEnt := ⟨0, 0, none, none, [headWord 0 2 0 6 false false false, 0, 7, 8], false⟩
def full6 : State := ((away 0 0x40000).bqPush 0 1 ent6).1
theorem witness_NetworkEvents_backing : aptSt ((away 2 0x40000).aptRead 0 0 6) = 3 ∧ (away 2 0x40000).bqRoom 0 1 ent6 ∧
    (∀ i < full6.bqSize 0 1, ∃ y ∈ full6.bqHeld 0 1, y.1 = i) ∧ full6.backing 0 1 = [ent6] ∧
    (0 < (away 2 0x1000000000).bqSize 0 1 ∧ (away 2 0x1000000000).bqHeld 0 1 = [] ∧ (away 2 0x1000000000).bqOpen 0 1 0 = false) := by
  exact ⟨holds_by_check, ⟨0, holds_by_check, holds_by_check, fun j h => (by omega), low_open _ _ (by decide +kernel), holds_by_check, holds_by_check,
    holds_by_check, holds_by_check, fun f h => (by cases h), fun k h => (by cases h)⟩, holds_by_check, holds_by_check, holds_by_check⟩

/-- Core 0 with a task on its deque for pool 1, with an ACTIVATE, and with an eligible actor whose rule 0 takes one packet. -/
def tasks : State := (tab 1).onCore 0 (fun k =>
  { k with plcPool := [(1, (0x10000, 0x8000000000000000))], deque := [⟨[0x0000010000000012, 1, 5, 6], 0, 0, none, {}, 0⟩] })
def acts : State := (tab 1).onCore 0 (fun k => { k with actq := [⟨0, 0, none, [headWord 2 3 0 0 false true false, 0, 1, 2, 0x10000, 0], 0⟩] })
def ready : State := ((((tab 1).wr64 (descPA 0 1 10) 0x10000).wr64 (descPA 0 1 11) 0x8000000000000001).wr64 (descPA 0 1 6) 0x200).setSched 0 1 { st := .eligible }
theorem witness_SchedulerEvents_task : ∃ t p, tasks.choose 0 = some (.task t p) ∧ tasks.roomFor 0 p.pkts (tasks.startable 0 false) = some 1 :=
  ⟨⟨[0x0000010000000012, 1, 5, 6], 0, 0, none, {}, 0⟩, ⟨0x10000, false, 0, 0, 0, 0⟩, holds_by_check, holds_by_check⟩
theorem witness_SchedulerEvents_activate : (∃ e, acts.choose 0 = some (.act e)) ∧ acts.startable 0 false = [1, 2, 3] :=
  ⟨⟨⟨0, 0, none, [headWord 2 3 0 0 false true false, 0, 1, 2, 0x10000, 0], 0⟩, holds_by_check⟩, holds_by_check⟩
theorem witness_SchedulerEvents_actor : ready.choose 0 = some (.actor 1 0) ∧ (ready.desc 0 1 0).testBit 62 = false ∧
    ready.roomFor 0 (ready.rule 0 1 0).pkts (ready.startable 0 false) = some 1 := by decide +kernel

/-- Core 0 asks core 1 for a task, with or without its answer; both cores are of partition 0. -/
def steal (ans : Option (Option Task)) : State :=
  (tab 1).onCore 0 (fun k => { k with stealBusy := some 1, stealPkt := ans })
/-- Core 0 has been idle for 64 cycles. -/
def idle : State := { State.reset with now := 300 }
theorem witness_SchedulerEvents_steal : (let k := idle.core idle.sel
      k.halted = false ∧ k.fenced = false ∧ k.stealBusy = none ∧ idle.startable idle.sel false ≠ [] ∧ k.hasWork = false ∧ k.idleAt + 64 ≤ idle.now ∧
        idle.deqFree idle.sel ≠ 0 ∧ k.fcstAt + 256 ≤ idle.now) ∧
    (((steal none).core 0).stealBusy = some 1 ∧ ((steal none).core 0).stealPkt = none) ∧
    (((steal (some none)).core 0).stealPkt = some none ∧ ((steal (some none)).core 0).stealIdx < 126) ∧
    ((steal (some (some ⟨[0x0000010000000012, 1, 5, 6], 0, 0, none, {}, 0⟩))).core 0).stealPkt = some (some ⟨[0x0000010000000012, 1, 5, 6], 0, 0, none, {}, 0⟩) ∧
    126 ≤ (((steal (some none)).onCore 0 (fun k => { k with stealIdx := 126 })).core 0).stealIdx := by
  decide +kernel
/-- Core 1, of the same partition, has a task that its own scheduler does not take in this cycle. -/
def victim1 : State := ((steal none).onMod 0 (fun m => { m with owner := [(0, 0), (1, 0)] })).onCore 1 (fun k =>
  { k with deque := [⟨[0x0000010000000012, 1, 5, 6], 0, 0, none, {}, 0⟩] })
theorem witness_SchedulerEvents_answer : victim1.ownerOf 1 = victim1.ownerOf 0 ∧
    ((victim1.core 1).deque.find? (fun x => x.held.isNone)).filter victim1.taskReady = some ⟨[0x0000010000000012, 1, 5, 6], 0, 0, none, {}, 0⟩ ∧
    victim1.popping 1 ⟨[0x0000010000000012, 1, 5, 6], 0, 0, none, {}, 0⟩ = false := by decide +kernel
/-- A firing past its limits, one that is being killed, one with an imprecise fault due, and a line to fetch. -/
def old (ph : Phase) : State := act.onCtx 0 (fun c => { c with phase := ph, cycles := 99, tYield := 5, tKill := 9, tFence := 12, pc := 0x20000 })
/-- The fault of `late` 48 instructions later. -/
def late48 : State := late.onCtx 0 (fun c => { c with icnt := 48 })
theorem witness_SchedulerEvents_timers : (old .running).sel = 0 ∧ ((old .running).ctx 0).kind ≠ .none ∧ ((old .running).ctx 0).gidx = 0 ∧
    ((old .running).ctx 0).yreq = false ∧ ((old .running).ctx 0).tYield ≤ ((old .running).ctx 0).cycles ∧
    ((old .running).ctx 0).tFence ≤ ((old .running).ctx 0).cycles ∧ ((old .killing).ctx 0).phase = .killing ∧ (old .killing).killBusy 0 = false ∧
    ((late.ctx 0).phase = .running ∧ late48.faultDue 0 = true ∧ (late48.pendingFault 0).isSome = true) ∧
    ((old .running).ctx 0).owed = none ∧ ((old .running).ctx 0).tKill < ((old .running).ctx 0).cycles ∧ ((old .killing).ctx 0).owed = none ∧
    (old .running).fenceFirst 0 = true ∧ (sup.ctx 0).mayIssue = true ∧ (sup.fetch 0).isOk = true := by decide +kernel
/-- What stops a fetch: true for a walk, false for a fault. -/
def stops (s : State) : Option Bool := match s.fetch 0 with | .ok _ => none | .error (.wait _) => some true | .error (.trap _) => some false
theorem witness_SchedulerEvents_fetch : stops (sup.onCore 0 (fun k => { k with tlb := [] })) = some true ∧
    stops (sup.onCtx 0 (fun c => { c with pc := 0x0080_0000_0000_0000 })) = some false := by decide +kernel
/-- A quad that is asked to change its mode. -/
def quad (ctl : BitVec 64) : State := [0, 1, 2, 3].foldl (fun s i => s.onCore i (fun k => { k with sctl := ctl })) State.reset
theorem witness_SchedulerEvents_gang : (quad 1).sel % 4 = 0 ∧ ((quad 1).core 0).sctl.getLsbD 0 = true ∧ ((quad 1).core 0).sctl.getLsbD 1 = !true ∧
    ((quad 2).core 0).sctl.getLsbD 0 = false ∧ ((quad 2).core 0).sctl.getLsbD 1 = !false ∧ (∀ i < 4, ((quad 1).core (0 + i)).fenced = false) ∧
    (∀ i < 4, ((quad 1).ctx (4 * (0 + i) + 3)).phase = .free) ∧ ∀ i < 4, ((quad 2).ctx (4 * (0 + i) + 3)).phase = .free := by
  decide +kernel

/-- The actor of slot 1 in a state of its own, and with a packet in its backing queue. -/
def slot1 (x : ActorSt) : State := (tab 1).setSched 0 1 { st := x }
/-- Its backing queue has one entry at 0x40000 in its partition's memory, which holds the packet `ent6`. -/
def backed1 : State := (({ away 0 0x40000 with net := [] }).setSched 0 1 { st := .idle }).bqPush 0 1 ent6 |>.1
theorem witness_ActorEvents : ((slot1 .leaving).sched 0 1).st = .leaving ∧ (slot1 .leaving).slotRuns 0 1 = false ∧
    (slot1 .leaving).aptPA 0 0 6 = some 0x4030 ∧ (slot1 .leaving).handleOf 0 1 = 6 ∧
    ((slot1 .moving).sched 0 1).st = .moving ∧ (slot1 .moving).slotQueued 0 1 = false ∧ (slot1 .moving).slotEngaged 0 1 = false ∧
    (slot1 .moving).segBusy 0 = false ∧ ((slot1 .moving).core 0).allocsOf 1 = [] := by decide +kernel
theorem witness_ActorEvents_plain : (slot1 .leaving).plainWord 0x4030 := by unfold State.plainWord; decide +kernel
/-- The actor's backing area is at 0x50000 of the partition's memory, behind its placement entry. -/
def saving : State := ({ away 0 0x40000 with net := [] }.setSched 0 1 { st := .moving }).wr64 (descPA 0 1 19) 0x50000
theorem witness_ActorEvents_save : (saving.sched 0 1).st = .moving ∧ saving.slotQueued 0 1 = false ∧ saving.slotEngaged 0 1 = false ∧
    saving.segBusy 0 = false ∧ saving.aptPA 0 0 6 = some 0x4030 ∧ (0x4030 + 8 ≤ saving.backPA 0 1) ∧
    saving.openHbm 0 (saving.backPA 0 1) (saving.backArr 0 1 + (((saving.zeroTiles 0 1).clu (0 / 8)).image (saving.slotKey 0 1)).length) :=
  ⟨holds_by_check, holds_by_check, holds_by_check, holds_by_check, holds_by_check, holds_by_check, low_open _ _ (by decide +kernel)⟩
theorem witness_ActorEvents_drain : (backed1.sched 0 1).st = .idle ∧ backed1.bqHeld 0 1 = [(0, 1, ent6)] ∧ Pkt.kind ent6.p = 0 ∧
    backed1.drainable 0 1 (backed1.bqHeld 0 1) [] = some (0, ent6) ∧ ent6.mb = 0 ∧
    (backed1.mbox 0 1 0).en = true ∧ (backed1.mbox 0 1 0).count + (backed1.mbox 0 1 0).rsv < (backed1.mbox 0 1 0).depth ∧
    (backed1.mbox 0 1 0).units = 2 ∧ (backed1.mbox 0 1 0).depth = 1 ∧ (backed1.mbox 0 1 0).base = 0xE7000 ∧ backed1.openHbm 0 (backed1.bqPA 0 1 0) 320 ∧
    (∀ k < 320, backed1.poisoned (backed1.bqPA 0 1 0 + k) = false) :=
  ⟨holds_by_check, holds_by_check, holds_by_check, holds_by_check, holds_by_check, holds_by_check, holds_by_check, holds_by_check,
    holds_by_check, holds_by_check, low_open _ _ (by decide +kernel), holds_by_check⟩
/-- The team of one member at slot 1 waits for its restore. -/
def restoring : State := { slot1 .admitting with admits := [⟨0, 0, 0, 0, [(6, 0, 1)], none⟩] }
/-- Patrol holds a request of code `n` from partition 0. -/
def asks (n : Word) : State := (tab 1).onMod 0 (fun m => { m with patrol := [⟨0, 0, none, [headWord 0 2 0 0 false true false, 0, n, 0]⟩] })
theorem witness_ActorEvents_restore : restoring.admits.find? (fun a => decide (a.uid = restoring.sel) && a.res.isNone) = some ⟨0, 0, 0, 0, [(6, 0, 1)], none⟩ ∧
    (restoring.restoreTeam [(6, 0, 1)]).isSome = true ∧ (restoring.ctx 0).fid = 0 ∧ (restoring.ctx 0).kind ≠ .none ∧
    restoring.itemsFree 0 1 = true ∧ restoring.records 0 1 = [] ∧ (restoring.sched 0 1).st = .admitting ∧ restoring.ownerOf 0 = 0 ∧
    restoring.aptPA 0 0 6 = some 0x4030 ∧ restoring.region 0x4030 = .hbm ∧ restoring.region 0x4037 = .hbm ∧
    ((asks 4).patrolAsk 0 4).map (fun x => x.1) = some 0 ∧ (asks 4).ownerOf 0 = 0 ∧ (asks 4).fenceFirst 0 = true ∧
    (asks 4).ownerOf 5 ≠ 0 := by decide +kernel

/-- A frame for module 0 of flow 5, and that flow when it is open. -/
def frame (type : Nat) (seq : BitVec 32) (segs : List Seg) : Frame := ⟨0, 7, none, 0x88B5, 0, type, 5, seq, 0, 16, true, segs⟩
def flow5 : State := State.reset.setFlow 0 5 { open_ := true, mac := 7, timeout := 4000, rxNext := 3, unack := [(0, [])], ackDue := some 9 }
/-- A write of 8 bytes to address 0x1000 of the flow's partition. -/
def seg8 : Seg := { stype := 2, tag := 0, rsvOk := true, length := 8, addr := 0x1000, body := [1, 2, 3, 4, 5, 6, 7, 8] }
/-- A data frame of that segment with an 802.1Q tag, as the bytes of Tables 21.1 and 21.2: flow 5, one segment, sequence number 3, window 16. -/
def wireFrame : List Byte :=
  [0, 0, 0, 0, 0, 0] ++ [0, 0, 0, 0, 0, 7] ++ [0x81, 0, 0, 1] ++ [0x88, 0xB5] ++ [5, 0, 0x10, 0, 3, 0, 0, 0] ++ [0, 0, 0, 0, 16, 0, 0, 0] ++
  [0x82, 0, 0, 0, 0, 0, 0, 0] ++ [0, 0x10, 0, 0, 0, 0, 0, 0] ++ [1, 2, 3, 4, 5, 6, 7, 8, 0, 0, 0, 0, 0, 0, 0, 0]
theorem test_wire_frame : readFrame wireFrame = { frame 0 3 [seg8] with vlan := some 1, size := 70 } := by decide +kernel
theorem test_wire_frame_written : frameBytes { frame 0 3 [seg8] with vlan := some 1 } = wireFrame := by decide +kernel
/-- A reserved type, a reserved bit of the flow header and a segment that crosses the end of the frame are malformed. -/
theorem test_wire_frame_malformed : (readFrame (wireFrame.set 20 0x13)).ok = false ∧ (readFrame (wireFrame.set 19 0x10)).ok = false ∧
    (readFrame (wireFrame.set 35 0x01)).ok = false := by decide +kernel
theorem witness_HostEvents_frames : frameFits (frame 0 3 [seg8]) ∧ (readFrame (frameBytes (frame 1 3 []))).type = 1 ∧
    (readFrame (frameBytes (frame 2 3 []))).type = 2 := by
  refine ⟨⟨by decide, by decide, by decide, by decide, by decide, fun g hg => ?_, fun _ => by decide⟩, holds_by_check, holds_by_check⟩
  have h : g = seg8 := List.mem_singleton.mp hg
  subst h
  exact ⟨by decide, by decide, rfl, by decide⟩
theorem witness_HostEvents : (∀ y ∈ [0, 1, 2], let f := readFrame (frameBytes (frame y 3 (if y = 0 then [seg8] else [])))
      f.dstMac = (flow5.mod 0).mac ∧ f.etherType = 0x88B5 ∧ f.size ≤ 9216 ∧ f.flow ≠ 0 ∧ f.ok = true ∧ f.type = y ∧
      (flow5.mod 0).recovery = false ∧ (flow5.flow 0 f.flow).open_ = true ∧ 16 + (f.segs.map segBytes).sum ≤ 9000) ∧
    (let f := readFrame (frameBytes (frame 0 3 [seg8]))
     f.seq.toNat = ((flow5.ackTo 0 5 f.ack.toNat f.window).flow 0 5).rxNext) ∧
    (let f := readFrame (frameBytes (frame 0 4 [seg8]))
     f.seq.toNat ≠ ((flow5.ackTo 0 5 f.ack.toNat f.window).flow 0 5).rxNext) ∧ (flow5.flow 0 5).pend = [] ∧
    (readFrame (frameBytes { frame 0 3 [seg8] with etherType := 0x800 })).etherType ≠ 0x88B5 ∧
    (readFrame (wireFrame.set 20 0x13)).ok = false ∧ (State.reset.flow 0 5).open_ = false ∧
    ((flow5.setFlow 0 5 { open_ := true, timeout := 4000, unack := [(0, [])], tries := 15 }).flow 0 5).tries + 1 = 16 ∧
    (flow5.flow 0 5).unack ≠ [] ∧ (flow5.flow 0 5).sentAt + 4000 ≤ ({ flow5 with now := 5000 } : State).now ∧ (flow5.flow 0 5).tries + 1 ≠ 16 ∧
    (flow5.flow 0 5).ackDue = some 9 ∧ (flow5.flow 0 6).open_ = false := by decide +kernel

/-- Links of module 0 that have failed eight times, and that train. -/
def linked (x : Link) : State := State.reset.onMod 0 (fun m => { m with links := [(2, x)] })
theorem witness_FabricEvents : ((linked {}).link 0 2).trainAt = none ∧ ((linked {}).link 0 2).down = false ∧
    8 ≤ ((linked { fails := 8 }).link 0 2).fails ∧ ((linked { trainAt := some 7 }).link 0 2).trainAt = some 7 ∧
    (linked {}).now ≤ 7 + 4000000 ∧ 7 + 4000000 ≤ ({ linked {} with now := 5000000 } : State).now := by decide +kernel
/-- Module 0 sends what is for module 1 to its port 3; records of a flow and of a route that Patrol takes. -/
def routed1 : State := State.reset.onMod 0 (fun m => { m with routes := [(1, 3)] })
theorem routed1_links (m : Nat) : (routed1.mod m).links = [] := by
  rw [routed1, State.onMod_mod]
  split <;> rfl
theorem witness_FabricEvents_routes : routed1.port 0 1 = some 3 ∧ routed1.linkDown 0 3 = false ∧ (routed1.link 0 3).txSeq < 4096 ∧
    flowRecOk ⟨5, 0, 7, none⟩ = true ∧ flowRecOk ⟨5, 0, 7, some 4000⟩ = true :=
  ⟨holds_by_check, by simp only [State.linkDown, routed1_links]; rfl, holds_by_check, holds_by_check, holds_by_check⟩
/-- A flit for module 0 with sequence number 0, the last of its transfer, and the CRC `c`. -/
def flit (c : BitVec 32) : List Byte := [0, 0, 0, 0x80] ++ leBytes 4 c.toNat ++ List.replicate 56 0
theorem flit_ok (c : BitVec 32) : flitOk (flit c) = true ↔ c = Config.crc32 ([0, 0, 0, 0x80] ++ List.replicate 56 0) := by
  have hh : flitHead (flit c) = 0x80000000 + 2 ^ 32 * c.toNat := by
    have h4 := Sys2Proof.Machine.leNat_leBytes 4 c.toNat
    have hc := c.isLt
    simp only [flitHead, flit, leBytes, List.cons_append, List.nil_append, List.take, leNat] at *
    simp at *
    omega
  have hb : (flit c).take 4 ++ (flit c).drop 8 = [0, 0, 0, 0x80] ++ List.replicate 56 0 := by simp [flit, leBytes]
  have hl : (flit c).length = 64 := by simp [flit, leBytes]
  have hf : bits (flitHead (flit c)) 32 32 = c.toNat := by
    rw [hh, bits, Nat.shiftRight_eq_div_pow]
    have := c.isLt
    omega
  unfold flitOk
  rw [hb, hf, hl]
  simp [BitVec.toNat_inj]
/-- Whatever the CRC is, one such flit agrees with it and another does not. -/
theorem witness_FabricEvents_flits : (∃ c, flitOk (flit c) = true) ∧ ∃ c, flitOk (flit c) = false := by
  refine ⟨⟨_, (flit_ok _).mpr rfl⟩, Config.crc32 ([0, 0, 0, 0x80] ++ List.replicate 56 0) + 1, ?_⟩
  rw [Bool.eq_false_iff]
  intro h
  have h := (flit_ok _).mp h
  generalize Config.crc32 _ = x at h
  bv_omega
/-- Requests to read a counter, write one and quote; a group of module 0 and one that is enabled. -/
theorem witness_PatrolEvents : ((asks 1).patrolAsk 0 1).isSome = true ∧ ((asks 2).patrolAsk 0 2).isSome = true ∧ ((asks 3).patrolAsk 0 3).isSome = true ∧
    ((asks 1).group 0 3).en = false ∧ (treeS.group 0 3).en = true ∧
    (let s := (tab 1).onMod 0 (fun m => { m with parts := [(0, ⟨true, 4, 0x4000, 0x8000, 8, [], 0⟩)] })
     (s.partEntry 0 (s.ownerOf 0)).valid = true ∧ (s.partEntry 0 (s.ownerOf 0)).groups.getLsbD 3 = true) ∧
    (∀ x ∈ (State.reset.mod 0).owner, x.2 ≠ 5) ∧ FMap.get 0xFF (State.reset.mod 0).owner 0 = 0xFF ∧
    (let s := (tab 1).onCore 0 (fun k => { k with fenced := true })
     FMap.get 0xFF (s.mod 0).owner 0 = 0 ∧ (s.core 0).fenced = true) := by decide +kernel
/-- A request for leave that fits, leave that has been idle, and a window that has passed. -/
def powered : State := { State.reset.onDie 0 (fun d => { d with fifo := [(3, 40)] }) with now := 5000 }
theorem witness_PowerAndControlWords : (powered.die powered.sel).fifo = [(3, 40)] ∧ (powered.mod 0).hot = false ∧
    (powered.die 0).leave + (40 - powered.leaveOf 3) ≤ 600 ∧ (powered.die 0).winAt + 4000 ≤ powered.now ∧ (powered.die 0).fcAt + 256 ≤ powered.now ∧
    ((powered.onClu 0 (fun k => { k with leave := 40 })).clu 0).leave ≠ 0 ∧ (act.ctx 0).kind ≠ .none := by decide +kernel

theorem witness_EncodedInstructionsDecode : (Instr.fencex .core .copy .msg).wellFormed = true ∧ (Instr.mepi .f64 false 0 (.s 0) (.s 1) 0 127 63).wellFormed = true ∧
    (Instr.acas .i32 .l .core (.o 7) (.s 0) (.s 1) 31).wellFormed = true := by decide
theorem witness_DecodedInstructionsAreWellFormed : decodeInstr 0xFC83 [0x0804] = .ok (.srd (.s 4) .core) := by decide
/-- The line of Table 2.15 at the PC of a supervisor's context, with its issue listed: it is valid, and its second instruction too. -/
def line : State := (sup.wrBytes 0x10000 (workedLine.flatMap (fun v => [BitVec.ofNat 8 v, BitVec.ofNat 8 (v / 256)]))).onCtx 0 (fun c => { c with pc := 0x10001, sregs := [(4, 100)] })
def lineAt (pc : Word) : State := { line.onCtx 0 (fun c => { c with pc := pc }) with agenda := [.issue 0] }
/-- What a fetch answers. -/
def fetched (pc : Word) : State × List Byte := match (lineAt pc).fetchLine 0 (pc.toNat / 64 * 64) with | .ok x => x | .error _ => (State.reset, [])
theorem witness_StepRunsTheDecodedInstruction_due : (∀ x ∈ (lineAt 0x10001).ctxs, (lineAt 0x10001).fenceDue x.1 = false ∧ (lineAt 0x10001).killDue x.1 = false) ∧
    (∃ x ∈ (old .running).ctxs, (old .running).fenceDue x.1 = true) ∧
    (let s := (old .running).onCtx 0 (fun c => { c with tFence := 200 })
     (∀ x ∈ s.ctxs, s.fenceDue x.1 = false) ∧ ∃ x ∈ s.ctxs, s.killDue x.1 = true) := by decide +kernel
theorem witness_StepRunsTheDecodedInstruction : ((lineAt 0x10001).ctx 0).phase = .running ∧ ((lineAt 0x10001).ctx 0).kind ≠ .none ∧
    ((lineAt 0x10001).ctx 0).gidx = 0 ∧ ((lineAt 0x10001).core 0).issued = [] ∧ (lineAt 0x10001).faultDue 0 = false ∧
    (lineAt 0x10001).yieldDue 0 = false ∧ (lineAt 0x10001).killDue 0 = false ∧
    ((lineAt 0x10001).fetchLine 0 0x10000).isOk = true ∧ lineValid (slotsOf (fetched 0x10001).2) = true ∧
    1 < lineCount (slotsOf (fetched 0x10001).2) ∧ lineCount (slotsOf (fetched 0x10001).2) ≤ 3 ∧
    ∀ m ∈ (fetched 0x10001).1.members 0, ((fetched 0x10001).1.core (m / 4)).usedA = false ∧ (fetched 0x10001).1.stOut m ≤ 255 ∧
      ((fetched 0x10001).1.ctx m).loads = [] := by
  decide +kernel
/-- A line of zeros, an index beyond the count of the line, and a line whose page no TLB holds. -/
theorem witness_StepRunsTheDecodedInstruction_others : lineValid (slotsOf (fetched 0x10040).2) = false ∧
    lineCount (slotsOf (fetched 0x10003).2) ≤ 3 ∧
    (match ((lineAt 0x10001).onCore 0 (fun k => { k with tlb := [] })).fetchLine 0 0x10000 with | .error (.wait _) => true | _ => false) = true := by
  decide +kernel
/-- The step on that line runs `add z0, s4, 3` and gives 103, as chapter 02 says. -/
theorem test_worked_line_step : (match step (lineAt 0x10001) with | .next t => ((t.ctx 0).src (.z 0), (t.ctx 0).pc) | _ => (0, 0)) = (103, 0x10002) := by
  decide +kernel
theorem witness_StepKeepsMemoryCanonical : State.reset.Ok ∧ ∃ t, step { State.reset with agenda := [.tick] } = .next t :=
  ⟨Sys2Proof.Machine.State.reset_ok, _, rfl⟩

/-! ### More results that the spec works out, each one step or one operation -/

/-- The pair and the lanes of the VTOPK of R141. -/
def topk : State := sup.onCtx 0 (fun c => { c with sregs := [(6, 32)], vregs :=
  [(4, BitVec.ofNat 512 (ofLanes 32 ([0x40400000, 0x7FC00000, 0x40C00000, 0x80000000] ++ List.replicate 12 0xBF800000))),
   (8, BitVec.ofNat 512 (ofLanes 32 ([0x40A00000, 0x40400000, 0x40400000, 0] ++ List.replicate 12 0))),
   (9, BitVec.ofNat 512 (ofLanes 32 ([7, 2, 9, 0xFFFFFFFF] ++ List.replicate 12 0xFFFFFFFF)))] })
theorem test_vtopk_word : decodeInstr 0xAD08 [0x0818, 0x0612] = .ok (.vtopk 4 (.v 4) (.s 6) 3 .f32 false 0) := by decide
theorem test_vtopk : (((ran (.vtopk 4 (.v 4) (.s 6) 3 .f32 false 0) topk).ctx 0).vreg 8, ((ran (.vtopk 4 (.v 4) (.s 6) 3 .f32 false 0) topk).ctx 0).vreg 9) =
    (BitVec.ofNat 512 (ofLanes 32 ([0x40C00000, 0x40A00000, 0x40400000, 0x40400000] ++ List.replicate 12 0)),
     BitVec.ofNat 512 (ofLanes 32 ([34, 7, 2, 9] ++ List.replicate 12 0xFFFFFFFF))) := by decide +kernel

/-- The tables of the walk of chapter 16. -/
def tables : State :=
  ((((State.reset.onMod 0 (fun m => { m with parts := [(3, ⟨true, 4, 0, 0, 0, [(0, 0xFFFFFF, true)], 0x500000000⟩)] })).wr64 0x500000008 0x0000000500010003).wr64
    0x500010010 0x0000000500020003).wr64 0x500020018 0x02000012344041C1)
theorem test_walk : (match tables.walk 0 3 0x40040031234 with
    | .leaf l => (l.va, l.pa + (0x40040031234 - l.va), l.size, l.w && l.u && l.r && !l.x, homeOf (l.pa + 0x11234) l.hb)
    | _ => (0, 0, 0, false, 0)) = (0x40040020000, 0x1234411234, 0x20000, true, 16) := by decide +kernel

/-- The barrier phase of Table 17.10, in its home order. -/
theorem test_barrier_phase : (let acts : List CellAct := [.barExp 128, .barArv 1, .barDec 192, .barArv 1, .barExp 128]
    let s := acts.foldl (fun s a => (s.cellDo 0 0x1000 a false 0 0).1) (cell 2 0x0000000200000007 0x0000000200000000)
    (s.cellW 0x1000 0, s.cellW 0x1000 1)) = (0x0000000200000008, 0x0100000200000040) := by decide +kernel

/-- The writes to the region of the counter of chapter 19, in their order, on core 12. -/
def counted : State := [(0x50400, 1024), (0x51000, 512), (0x50000, 1024), (0x50000, 8)].foldl (fun s x => s.countPort 12 x.1 x.2) (State.reset.setCtr ⟨false, 12, 3⟩
  { arm := true, action := 3, total := 2048, base := 0x50000, length := 4096, len1 := 2, image := 0x12040, oper := 0x1000400, notify := 0x3000400, icore := 12, acore := 12 })
theorem test_landing_counter : (counted.ctr ⟨false, 12, 3⟩).word 0 = 0xE1800000000007FF ∧
    (counted.ctr ⟨false, 12, 3⟩).word 1 = 0x0001000000000808 := by decide +kernel
theorem test_landing_overrun : counted.net.map (fun e => (Pkt.kind e.p, Pkt.mb e.p, Pkt.dest e.p, Pkt.word e.p 2, Pkt.word e.p 3)) =
    [(6, 3, 0x400, 0x803, 0x0001000000000808)] := by decide +kernel

end Sys2Proof.Tests
end

/-! ## Instructions that every context of the firing executes: an invariant of `each` -/

namespace Sys2Proof.Machine

/-- Running `f` on contexts one after another keeps what each single run keeps: `Inv done t` says what holds once the contexts `done`
have run. -/
theorem eachFrom_induct {f : Nat → State → Except Stop State} {Inv : List Nat → State → Prop} {l : List Nat}
    (hstep : ∀ done m t, m ∈ l → m ∉ done → Inv done t → ∃ t', f m t = .ok t' ∧ Inv (done ++ [m]) t') :
    ∀ (todo done : List Nat) (i : Nat) (t : State), (∀ m ∈ todo, m ∈ l) → (done ++ todo).Nodup → Inv done t →
      ∃ u, eachFrom f todo i t = .ok u ∧ Inv (done ++ todo) u := by
  intro todo
  induction todo with
  | nil => intro done i t _ _ h; exact ⟨t, rfl, by simpa using h⟩
  | cons m todo ih =>
    intro done i t hl hnd h
    have hm : m ∉ done := fun hmem => (List.nodup_append.1 hnd).2.2 m hmem m (by simp) rfl
    obtain ⟨t', ht', hinv⟩ := hstep done m t (hl m (by simp)) hm h
    obtain ⟨u, hu, hinv'⟩ := ih (done ++ [m]) (i + 1) t' (fun k hk => hl k (by simp [hk])) (by simpa using hnd) hinv
    exact ⟨u, by simp only [eachFrom, ht', hu], by simpa using hinv'⟩

theorem firstWait_eq_none {f : Nat → State → Except Stop State} {s : State} {l : List Nat} (h : ∀ m ∈ l, ∀ t, f m s ≠ .error (.wait t)) :
    firstWait f s l = none := by
  induction l with
  | nil => rfl
  | cons m l ih =>
    unfold firstWait
    split
    · next t ht => exact absurd ht (h m (by simp) t)
    · exact ih fun k hk => h k (by simp [hk])

/-- Where some context waits, each with the state as it is, the instruction leaves the state as it is. -/
theorem firstWait_eq_some {f : Nat → State → Except Stop State} {s : State} {l : List Nat} (hw : ∀ m ∈ l, ∀ t, f m s = .error (.wait t) → t = s)
    (h : ∃ m ∈ l, f m s = .error (.wait s)) : firstWait f s l = some s := by
  induction l with
  | nil => obtain ⟨m, hm, _⟩ := h; cases hm
  | cons m l ih =>
    unfold firstWait
    split
    · next t ht => rw [hw m (by simp) t ht]
    · next hne =>
      refine ih (fun k hk => hw k (by simp [hk])) ?_
      obtain ⟨k, hk, hks⟩ := h
      rcases List.mem_cons.1 hk with rfl | hk
      · exact absurd hks (hne s)
      · exact ⟨k, hk, hks⟩

/-- An instruction that no context of the firing stops completes, with what its single runs keep. -/
theorem each_induct {s : State} {f : Nat → State → Except Stop State} (Inv : List Nat → State → Prop) (h0 : Inv [] s)
    (hstep : ∀ done m t, m ∈ s.members s.cur → m ∉ done → Inv done t → ∃ t', f m t = .ok t' ∧ Inv (done ++ [m]) t') :
    ∃ u, each s f = .next (u.retire s.cur) ∧ Inv (s.members s.cur) u := by
  obtain ⟨u, hu, hinv⟩ := eachFrom_induct hstep (s.members s.cur) [] 0 s (fun _ h => h) (s.members_nodup _) h0
  refine ⟨u, ?_, hinv⟩
  unfold each
  split
  · next m hm =>
    obtain ⟨t', ht', _⟩ := hstep [] m s (by simp [hm]) (by simp) h0
    have : u = t' := by simpa [hm, eachFrom, ht', eq_comm] using hu
    simp only [ht', finish, this]
  · rw [firstWait_eq_none]
    · simp only [hu, finish]
    · intro m hm t ht
      obtain ⟨t', ht', _⟩ := hstep [] m s hm (by simp) h0
      rw [ht'] at ht; cases ht

/-- An instruction waits with the state as it is where one of the contexts waits. -/
theorem each_waits {s : State} {f : Nat → State → Except Stop State} (hw : ∀ m ∈ s.members s.cur, ∀ t, f m s = .error (.wait t) → t = s)
    (h : ∃ m ∈ s.members s.cur, f m s = .error (.wait s)) : each s f = .next s := by
  unfold each
  split
  · next m hm =>
    obtain ⟨k, hk, hks⟩ := h
    rw [hm, List.mem_singleton] at hk
    rw [← hk, hks]; rfl
  · rw [firstWait_eq_some hw h]

/-- The contexts of the firing are the same in a state whose leading context belongs to a gang as it did. -/
theorem State.retire_of_gang {s u : State} (hg : (u.ctx s.cur).gang = (s.ctx s.cur).gang) :
    u.retire s.cur = { u with ctxs := (u.retire s.cur).ctxs } ∧
    ∀ j, (u.retire s.cur).ctx j = if j ∈ s.members s.cur then (u.ctx j).retired else u.ctx j := by
  rw [← State.members_congr _ _ _ hg]
  exact u.retire_spec s.cur

theorem State.single.members {s : State} (h : s.single) : s.members s.cur = [s.cur] := by
  simp only [State.members, show (s.ctx s.cur).gang = false from h, Bool.false_eq_true, if_false]

/-- An instruction of a firing of one context is one run. -/
theorem each_single {s : State} (h : s.single) (f : Nat → State → Except Stop State) : each s f = finish s (f s.cur s) := by
  unfold each; rw [h.members]

end Sys2Proof.Machine

/-! ## Control instructions on which a gang disagrees -/

namespace Sys2Proof.Machine

/-- A number built from four bits, bit `k` worth `2^k`. -/
def bitsOf4 (p : Nat → Bool) : Nat :=
  (if p 0 then 1 else 0) + (if p 1 then 2 else 0) + (if p 2 then 4 else 0) + (if p 3 then 8 else 0)

theorem bitsOf4_lt (p : Nat → Bool) : bitsOf4 p < 16 := by
  unfold bitsOf4; split <;> split <;> split <;> split <;> omega

theorem testBit_bitsOf4 (p : Nat → Bool) : ∀ k < 4, (bitsOf4 p).testBit k = p k := by
  intro k hk
  unfold bitsOf4
  generalize h0 : p 0 = a; generalize h1 : p 1 = b; generalize h2 : p 2 = c; generalize h3 : p 3 = d
  have hp : p k = [a, b, c, d].getD k false := by
    match k, hk with
    | 0, _ => simpa using h0
    | 1, _ => simpa using h1
    | 2, _ => simpa using h2
    | 3, _ => simpa using h3
  rw [hp]; clear hp h0 h1 h2 h3
  revert k a b c d; decide

/-- Only a gang can disagree: its leading context says that it is one. -/
theorem gang_of_disagree {α : Type} {s : State} {f : Ctx → α} (h : ∃ w ∈ s.members s.cur, f (s.ctx w) ≠ f (s.ctx s.cur)) :
    s.members s.cur = [s.cur, s.cur + 4, s.cur + 8, s.cur + 12] := by
  obtain ⟨w, hw, hne⟩ := h
  by_cases hg : (s.ctx s.cur).gang = true
  · simp [State.members, hg]
  · simp only [State.members, hg, Bool.false_eq_true, if_false, List.mem_singleton] at hw
    exact absurd (by rw [hw]) hne

theorem State.diverges_eq_true {α : Type} [DecidableEq α] {s : State} {w : Nat} {f : Ctx → α} :
    s.diverges w f = true ↔ ∃ m ∈ s.members w, f (s.ctx m) ≠ f (s.ctx w) := by
  simp [State.diverges]

/-- The outcomes of a gang, one bit for each core (Table 20.1). -/
theorem State.outcomes_gang {s : State} {w : Nat} (h : s.members w = [w, w + 4, w + 8, w + 12]) (f : Ctx → Bool) :
    s.outcomes w f = bitsOf4 (fun k => f (s.ctx (w + 4 * k))) := by
  simp only [State.outcomes, h, List.foldl_cons, List.foldl_nil, bitsOf4]
  simp only [show (w - w) / 4 = 0 by omega, show (w + 4 - w) / 4 = 1 by omega, show (w + 8 - w) / 4 = 2 by omega,
    show (w + 12 - w) / 4 = 3 by omega, Nat.mul_zero, Nat.add_zero, Nat.mul_one, show 4 * 2 = 8 from rfl, show 4 * 3 = 12 from rfl]
  split <;> split <;> split <;> split <;> rfl

/-- A one-bit choice, written as the word that `controlChoice` gives it. -/
theorem choice_ne_iff (p q : Bool) : ((if p = true then (1 : Word) else 0) ≠ if q = true then 1 else 0) ↔ p ≠ q := by
  revert p q; decide

theorem choice_eq_one (p : Bool) : ((if p = true then (1 : Word) else 0) = 1) ↔ p = true := by revert p; decide

theorem exec_bc (cc : ICond) (a b : Src) (disp : BitVec 32) (idx : Fin 32) (s : State) :
    exec (.bc cc a b disp idx) s = execBc cc a b disp idx s := rfl
theorem exec_ret (a : Src) (s : State) : exec (.ret a) s = execRet a s := rfl
theorem exec_jmp (a : Src) (s : State) : exec (.jmp a) s = execJmp a s := rfl
theorem exec_loop (d : Dst) (disp : BitVec 16) (idx : Fin 32) (s : State) : exec (.loop d disp idx) s = execLoop d disp idx s := rfl

/-- RET and JMP whose contexts name different targets end in the divergence fault. -/
theorem jumpOp_diverges {s : State} {a : Src} (h : ∃ w ∈ s.members s.cur, (s.ctx w).src a ≠ (s.ctx s.cur).src a) :
    jumpOp s a = .next (s.fault s.cur (divergeTrap 0)) := by
  have hd : s.diverges s.cur (fun c => c.src a) = true := State.diverges_eq_true.2 h
  simp only [jumpOp, hd, if_true, finish]

/-- The detail of a divergence fault names the cores whose outcome is true. -/
theorem outcomes_spec {s : State} {f : Ctx → Bool} (h : ∃ w ∈ s.members s.cur, f (s.ctx w) ≠ f (s.ctx s.cur)) :
    s.outcomes s.cur f < 16 ∧ ∀ k < 4, (s.outcomes s.cur f).testBit k =
      decide ((if f (s.ctx (s.cur + 4 * k)) = true then (1 : Word) else 0) = 1) := by
  rw [State.outcomes_gang (gang_of_disagree h)]
  refine ⟨bitsOf4_lt _, fun k hk => ?_⟩
  rw [testBit_bitsOf4 _ k hk]
  simp only [choice_eq_one, Bool.decide_eq_true]

/-- What the contexts hold after LOOP has written its decremented counters. -/
theorem loop_counters (s : State) (d : Dst) :
    let u := (s.members s.cur).foldl (fun s m => s.onCtx m (fun c => c.dst d (c.dstVal d - 1))) s
    u = { s with ctxs := u.ctxs } ∧ (∀ w, w ∉ s.members s.cur → u.ctx w = s.ctx w) ∧
      ∀ w ∈ s.members s.cur, u.ctx w = { s.ctx w with sregs := (u.ctx w).sregs } ∧
        ∀ k, (u.ctx w).sreg k = (((s.ctx w).writes d ((s.ctx w).dstVal d - 1)).lookup k).getD ((s.ctx w).sreg k) := by
  obtain ⟨hframe, hctx⟩ := State.foldCtx _ (s.members_nodup s.cur) (fun c => c.dst d (c.dstVal d - 1)) s
  refine ⟨hframe, fun w hw => by rw [hctx, if_neg hw], fun w hw => ?_⟩
  rw [hctx, if_pos hw]
  exact ⟨Ctx.dst_eq _ _ _, Ctx.dst_sreg _ _ _⟩

/-- Settles O13: the four forms that test agreement, each with its fault; the other control forms make no choice, so that no gang
disagrees on one. -/
theorem divergentBranchesTrap : Obligations.DivergentBranchesTrap := by
  intro i s hform hdiff
  have hi := hform {}
  unfold controlForm at hi
  split at hi
  case h_3 cc a b disp idx =>
    have hd : ∃ w ∈ s.members s.cur, condHolds cc ((s.ctx w).src a) ((s.ctx w).src b) ≠
        condHolds cc ((s.ctx s.cur).src a) ((s.ctx s.cur).src b) := by
      simpa only [controlChoice, choice_ne_iff] using hdiff
    let taken := fun (c : Ctx) => condHolds cc (c.src a) (c.src b)
    refine ⟨s, s.outcomes s.cur taken, rfl, ?_, fun ⟨_, h⟩ => by simp at h, fun _ => outcomes_spec (f := taken) hd⟩
    rw [exec_bc, execBc, if_pos (State.diverges_eq_true.2 hd)]
    rfl
  case h_6 a =>
    refine ⟨s.onCore (s.cur / 4) (fun k => { k with rpred := k.rpred.drop 1 }), 0, ⟨(s.core (s.cur / 4)).rpred.drop 1, rfl⟩, ?_,
      fun _ => rfl, fun h => absurd ⟨a, .inl rfl⟩ h⟩
    rw [exec_ret, execRet, jumpOp_diverges]
    · rfl
    · exact hdiff
  case h_7 a => exact ⟨s, 0, rfl, by rw [exec_jmp, execJmp, jumpOp_diverges hdiff]; rfl, fun _ => rfl, fun h => absurd ⟨a, .inr rfl⟩ h⟩
  case h_8 d disp idx =>
    let taken := fun (c : Ctx) => decide (c.dstVal d - 1 ≠ 0)
    have hc : ∀ c, controlChoice c (.loop d disp idx) = if taken c = true then 1 else 0 := fun c => by
      simp only [controlChoice, taken, decide_eq_true_eq]
    have hd : ∃ w ∈ s.members s.cur, taken (s.ctx w) ≠ taken (s.ctx s.cur) := by
      simpa only [hc, choice_ne_iff] using hdiff
    refine ⟨_, s.outcomes s.cur taken, loop_counters s d, ?_, fun ⟨_, h⟩ => by simp at h, fun _ => ?_⟩
    · rw [exec_loop, execLoop, if_pos (State.diverges_eq_true.2 hd)]
      simp only [finish]
      rw [(loop_counters s d).1]
      rfl
    · simpa only [hc] using outcomes_spec (f := taken) hd
  case h_9 => cases hi
  all_goals obtain ⟨w, _, h⟩ := hdiff; exact absurd rfl h

end Sys2Proof.Machine

/-! ## Fences and waits -/

namespace Sys2Proof.Machine

/-- A store on its way is not performed at a scope, as Table 11.1 words it. -/
theorem stillOut_iff (s : State) (sc : Scope) (w : Nat) (e : Pending) :
    stillOut s w sc e ↔ e.org.w = w ∧ s.unperformed sc e = true := by
  unfold stillOut
  refine and_congr_right fun hw => ?_
  subst hw
  unfold State.unperformed
  cases sc with
  | ctx => simp
  | core =>
    cases hv : e.via with
    | rst => cases hr : s.region e.pa with
      | scratch gc a => simp; exact Iff.rfl
      | _ => simp
    | _ => simp
  | _ => simp

theorem stored_iff (s : State) (w : Nat) (sc : Scope) : s.stored w sc = true ↔ ∀ e ∈ s.wq, ¬ stillOut s w sc e := by
  simp [State.stored, stillOut_iff]

theorem settled_iff (s : State) (w : Nat) (sc : Scope) :
    s.settled w sc = true ↔ (s.ctx w).loads = [] ∧ ∀ e ∈ s.wq, ¬ stillOut s w sc e := by
  rw [State.settled, Bool.and_eq_true, stored_iff, List.isEmpty_iff]

theorem limitOk_iff (n : Nat) (l : BitVec 8) : limitOk n l = true ↔ l = 255 ∨ n ≤ l.toNat := by
  simp [limitOk, ← BitVec.toNat_inj]

/-- What FENCEX waits for: every access of its source path is performed (R221). -/
theorem fencexDone_iff (s : State) (w : Nat) (sc : Scope) (p : Path) :
    (if p = .core then s.settled w sc else s.pathDone w sc p) = true ↔
    (match p with
      | .core => (s.ctx w).loads = [] ∧ ∀ e ∈ s.wq, ¬ stillOut s w sc e
      | .tree => ∀ e ∈ s.wq, e.via = .port → ¬ stillOut s w sc e
      | .tile => ∀ m ∈ (s.clu (w / 4 / 8)).inbox, m.org.w ≠ w
      | .copy => ∀ e ∈ s.engines, e.org.w = w → e.kind = 4
      | .sel => ∀ e ∈ s.engines, e.org.w = w → e.kind ≠ 4
      | _ => True) := by
  cases p with
  | core => simpa using settled_iff s w sc
  | tree => simp [State.pathDone, stillOut_iff]; grind
  | tile => simp [State.pathDone, cluOf, coreOf]
  | _ => simp [State.pathDone, enginePath]

/-- One context of FENCE, FENCEX and WAITC: the marks it puts into its log, and what it waits for. -/
def orderStep : Instr → Nat → State → Except Stop State
  | .fence k sc, w, s =>
    if (decide (k ≠ .st) && decide (sc ≠ .ctx) && !(s.ctx w).loads.isEmpty) || (decide (k ≠ .ld) && !s.stored w sc) then .error (.wait s)
    else if k = .ld ∨ sc = .ctx then .ok s
    else .ok (s.onCtx w (fun c => { c with log := c.log ++ [.mark sc] }))
  | .fencex sc src _, w, s => if (if src = .core then s.settled w sc else s.pathDone w sc src) then .ok s else .error (.wait s)
  | .waitc ld st cp tl, w, s =>
    if limitOk (s.ctx w).ocLd ld && limitOk (s.ctx w).ocSt st && limitOk (s.ctx w).ocCp cp && limitOk (s.ctx w).ocTl tl
    then .ok s else .error (.wait s)
  | _, _, s => .ok s

theorem exec_nop (s : State) : exec .nop s = eachCtx s (fun c => c) := rfl

/-- The forms that wait execute on each context as `orderStep` says. -/
theorem exec_orderForm {i : Instr} {s : State} (h : ∀ w, (orderForm s w i).isSome) : exec i s = each s (orderStep i) := by
  have h0 := h 0
  unfold orderForm at h0
  split at h0
  case h_4 => cases h0
  all_goals rfl

/-- What the contexts of the firing hold once those in `done` have run. -/
def marksPut (s : State) (i : Instr) (done : List Nat) (t : State) : Prop :=
  t = { s with ctxs := t.ctxs } ∧ (∀ w, w ∉ done → t.ctx w = s.ctx w) ∧
    ∀ w ∈ done, ∃ ready add, orderForm s w i = some (ready, add) ∧ t.ctx w = { s.ctx w with log := (s.ctx w).log ++ add }

/-- What a context waits for does not depend on the other contexts. -/
theorem orderForm_congr {s t : State} {i : Instr} {w : Nat} (h : t = { s with ctxs := t.ctxs }) (hc : t.ctx w = s.ctx w) :
    orderForm t w i = orderForm s w i := by
  have hw : t.wq = s.wq := by rw [h]
  have he : t.engines = s.engines := by rw [h]
  have hk : ∀ k, t.clu k = s.clu k := by rw [h]; exact fun _ => rfl
  have hr : t.region = s.region := by rw [h]; rfl
  unfold orderForm
  simp only [stillOut, hc, hw, he, hk, hr]

theorem orderForm_isSome {s : State} {w : Nat} {i : Instr} (h : (orderForm s w i).isSome) :
    (∃ k sc, i = .fence k sc) ∨ (∃ sc src dst, i = .fencex sc src dst) ∨ ∃ ld st cp tl, i = .waitc ld st cp tl := by
  unfold orderForm at h
  split at h
  · exact .inl ⟨_, _, rfl⟩
  · exact .inr (.inl ⟨_, _, _, rfl⟩)
  · exact .inr (.inr ⟨_, _, _, _, rfl⟩)
  · cases h

/-- A context that need not wait puts its marks, and one that must leaves the state as it is. -/
theorem orderStep_spec {s : State} {i : Instr} {w : Nat} {ready : Prop} {add : List LogItem} (h : orderForm s w i = some (ready, add)) :
    (ready → orderStep i w s = .ok (if add = [] then s else s.onCtx w (fun c => { c with log := c.log ++ add }))) ∧
    (¬ ready → orderStep i w s = .error (.wait s)) := by
  rcases orderForm_isSome (h ▸ rfl : (orderForm s w i).isSome) with ⟨k, sc, rfl⟩ | ⟨sc, src, dst, rfl⟩ | ⟨ld, st, cp, tl, rfl⟩
  all_goals
    simp only [orderForm, Option.some.injEq, Prod.mk.injEq] at h
    obtain ⟨rfl, rfl⟩ := h
  · have hb : ((decide (k ≠ .st) && decide (sc ≠ .ctx) && !(s.ctx w).loads.isEmpty) || (decide (k ≠ .ld) && !s.stored w sc)) = false ↔
        (k = .st ∨ sc = .ctx ∨ (s.ctx w).loads = []) ∧ (k = .ld ∨ ∀ e ∈ s.wq, ¬ stillOut s w sc e) := by
      rw [← stored_iff]; simp; tauto
    rw [← hb, Bool.not_eq_false]
    refine ⟨fun hr => ?_, fun hr => by simp only [orderStep, hr, if_true]⟩
    by_cases hk : k = .ld ∨ sc = .ctx
    · rw [if_pos hk, if_pos rfl, orderStep, hr, if_pos hk]; rfl
    · rw [if_neg hk, if_neg (by simp), orderStep, hr, if_neg hk]; rfl
  · rw [orderStep, if_pos rfl]
    have hb : (if src = .core then s.settled w sc else s.pathDone w sc src) = true ↔ _ := fencexDone_iff s w sc src
    exact ⟨fun hr => if_pos (hb.2 hr), fun hr => if_neg (mt hb.1 hr)⟩
  · rw [orderStep, if_pos rfl]
    refine ⟨fun hr => if_pos ?_, fun hr => if_neg ?_⟩ <;> simpa only [Bool.and_eq_true, limitOk_iff, and_assoc] using hr

theorem orderStep_marksPut {s t : State} {i : Instr} {done : List Nat} {m : Nat} (hform : ∀ w, (orderForm s w i).isSome)
    (hready : ∀ w ∈ s.members s.cur, ∀ ready add, orderForm s w i = some (ready, add) → ready) (hm : m ∈ s.members s.cur)
    (hd : m ∉ done) (h : marksPut s i done t) : ∃ t', orderStep i m t = .ok t' ∧ marksPut s i (done ++ [m]) t' := by
  obtain ⟨hframe, hother, hdone⟩ := h
  obtain ⟨⟨ready, add⟩, hf⟩ := Option.isSome_iff_exists.1 (hform m)
  have hft : orderForm t m i = some (ready, add) := by rw [orderForm_congr hframe (hother m hd), hf]
  refine ⟨_, (orderStep_spec hft).1 (hready m hm _ _ hf), ?_⟩
  by_cases ha : add = []
  · rw [if_pos ha]
    refine ⟨hframe, fun w hw => hother w (by simp at hw; exact hw.1), fun w hw => ?_⟩
    rcases List.mem_append.1 hw with hw | hw
    · exact hdone w hw
    · obtain rfl := List.mem_singleton.1 hw
      exact ⟨ready, add, hf, by rw [hother w hd, ha, List.append_nil]⟩
  · rw [if_neg ha]
    refine ⟨State.ctxsOnly_trans hframe rfl, fun w hw => ?_, fun w hw => ?_⟩
    · simp only [List.mem_append, List.mem_singleton, not_or] at hw
      rw [State.onCtx_ctx, if_neg hw.2, hother w hw.1]
    · by_cases hwm : w = m
      · subst hwm
        exact ⟨ready, add, hf, by rw [State.onCtx_ctx, if_pos rfl, hother w hd]⟩
      · have hw' : w ∈ done := by simpa [hwm] using hw
        rw [State.onCtx_ctx, if_neg hwm]
        exact hdone w hw'

/-- A context that an instruction leaves as it is, but that it goes on. -/
theorem retired_on_nothing (c : Ctx) : Effect.On {} c c.retired := by
  refine ⟨fun _ => rfl, fun _ => rfl, fun _ => rfl, fun _ => rfl, ?_, rfl, rfl⟩
  simp [Ctx.retired]

/-- Settles O30: NOP changes no register, and the ordering forms run `orderStep` on each context. -/
theorem fencesAndWaits : Obligations.FencesAndWaits := by
  refine ⟨fun s => ?_, fun i s hform => ⟨fun hready => ?_, fun hblocked => ?_⟩⟩
  · refine eachCtx_completes s (fun c => c) (fun _ => rfl) _ _ (exec_nop s) fun c => ⟨{}, rfl, ?_⟩
    exact retired_on_nothing c
  · obtain ⟨u, hu, hframe, hother, hdone⟩ := each_induct (marksPut s i) (f := orderStep i) (s := s)
      ⟨rfl, fun _ _ => rfl, fun _ h => by cases h⟩ (fun _ _ _ => orderStep_marksPut hform hready)
    have hg : (u.ctx s.cur).gang = (s.ctx s.cur).gang := by
      obtain ⟨_, _, _, hc⟩ := hdone _ (s.mem_members_self _)
      rw [hc]
    obtain ⟨hr, hrc⟩ := State.retire_of_gang hg
    refine ⟨_, (exec_orderForm hform).trans hu, State.ctxsOnly_trans hframe hr, fun w hw => by rw [hrc, if_neg hw, hother w hw],
      fun w hw => ?_⟩
    obtain ⟨ready, add, hf, hc⟩ := hdone w hw
    exact ⟨ready, add, hf, by rw [hrc, if_pos hw, hc]⟩
  · rw [exec_orderForm hform]
    refine each_waits (fun m _ t ht => ?_) ?_
    · obtain ⟨⟨ready, add⟩, hf⟩ := Option.isSome_iff_exists.1 (hform m)
      by_cases hr : ready
      · rw [(orderStep_spec hf).1 hr] at ht; cases ht
      · rw [(orderStep_spec hf).2 hr] at ht; cases ht; rfl
    · obtain ⟨m, hm, ready, add, hf, hr⟩ := hblocked
      exact ⟨m, hm, (orderStep_spec hf).2 hr⟩

end Sys2Proof.Machine

/-! ## How a firing ends: what `freeCtx`, `endFiring`, `abort`, `cutShort`, `park` and a fault notice leave -/

namespace Sys2Proof.Machine

/-! ### Scheduler records, counters and notices -/

@[simp] theorem State.setSched_sched (s : State) (g k : Nat) (x : Sched) (j n : Nat) :
    (s.setSched g k x).sched j n = if j = g ∧ n = k then x else s.sched j n := by
  by_cases hj : j = g
  · subst hj; by_cases hn : n = k <;> simp [State.setSched, State.sched, hn]
  · simp [State.setSched, State.sched, hj]

/-- A scheduler record of a slot is read from its core alone. -/
theorem State.sched_congr {s t : State} {g : Nat} (h : (t.core g).sched = (s.core g).sched) (k : Nat) : t.sched g k = s.sched g k := by
  simp only [State.sched, h]

theorem State.bumpCore_frame (s : State) (g c : Nat) : s.bumpCore g c = { s with cores := (s.bumpCore g c).cores } := by
  unfold State.bumpCore; split <;> rfl

theorem State.bumpCore_core (s : State) (g c j : Nat) : ∃ p, (s.bumpCore g c).core j = { s.core j with pcount := p } := by
  unfold State.bumpCore
  split
  · by_cases hj : j = g
    · subst hj; exact ⟨_, by rw [State.onCore_core, if_pos rfl]⟩
    · exact ⟨(s.core j).pcount, by rw [State.onCore_core, if_neg hj]⟩
  · exact ⟨(s.core j).pcount, rfl⟩

/-! ### Free contexts -/

/-- A context as the end of its firing leaves it (R254, R257, R267). -/
def Ctx.freed (c : Ctx) (now : Nat) : Ctx :=
  { c with
    phase := .free, kind := .none, gang := false, log := [], written := [], imprec := [], xlate := [], pub := false
    slots := c.slots.map (fun x => match x with | .filled _ _ => .free | x => x)
    pktB := 0, deqB := 0, retEnt := false, cellDst := .none, from_ := now + 1, owed := none
    loads := c.loads.filter Load.copies, mark := 0 }

theorem Ctx.freed_slots (c : Ctx) (now n : Nat) (p : Pkt) : Slot.filled n p ∉ (c.freed now).slots := by
  simp only [Ctx.freed, List.mem_map, not_exists, not_and]
  intro x _
  cases x <;> simp

/-- What has changed from `s` to `t` where some contexts have been freed: those contexts, and the allocations of cores. -/
structure Freed (l : List Nat) (s t : State) : Prop where
  frame : ∃ a b, t = { s with ctxs := a, cores := b }
  core : ∀ j, ∃ a, t.core j = { s.core j with sat := a }
  ctx : ∀ j, t.ctx j = if j ∈ l then (s.ctx j).freed s.now else s.ctx j

theorem State.freeCtx_freed (s : State) (w : Nat) : Freed [w] s (s.freeCtx w) where
  frame := ⟨_, _, rfl⟩
  core j := by
    by_cases hj : j = coreOf w
    · subst hj; exact ⟨_, by rw [State.freeCtx, State.onCtx_core, State.freeScratch, State.onCore_core, if_pos rfl]⟩
    · exact ⟨(s.core j).sat, by rw [State.freeCtx, State.onCtx_core, State.freeScratch, State.onCore_core, if_neg hj]⟩
  ctx j := by
    rw [State.freeCtx, State.onCtx_ctx]
    by_cases hj : j = w
    · subst hj; rw [if_pos rfl, if_pos (by simp)]; rfl
    · rw [if_neg hj, if_neg (by simpa using hj)]; rfl

theorem State.freeCtxs_freed (l : List Nat) (hl : l.Nodup) (s : State) : Freed l s (l.foldl (fun s m => s.freeCtx m) s) := by
  induction l generalizing s with
  | nil => exact ⟨⟨_, _, rfl⟩, fun j => ⟨_, rfl⟩, fun j => by simp⟩
  | cons m l ih =>
    obtain ⟨hm, hl⟩ := List.nodup_cons.1 hl
    have h1 := s.freeCtx_freed m
    have h2 := ih hl (s.freeCtx m)
    rw [List.foldl_cons]
    refine ⟨?_, fun j => ?_, fun j => ?_⟩
    · obtain ⟨a, b, h⟩ := h2.frame
      exact ⟨a, b, h⟩
    · obtain ⟨a, ha⟩ := h1.core j
      obtain ⟨b, hb⟩ := h2.core j
      exact ⟨b, by rw [hb, ha]⟩
    · rw [h2.ctx, h1.ctx]
      by_cases hj : j = m
      · subst hj; simp [hm]
      · by_cases hjl : j ∈ l
        · simp only [hjl, hj, List.mem_cons, or_true, if_true, if_false, List.not_mem_nil, or_self]; rfl
        · simp [hjl, hj]

/-! ### The end of a firing -/

/-- What the end of the firing of context `w` leaves (R17): its contexts are free, its actor's slot has recorded the event, and beside
them only allocations and the lease of its cluster's array have changed. -/
structure Ended (w : Nat) (s t : State) : Prop where
  frame : ∃ a b k, t = { s with ctxs := a, cores := b, clus := k }
  core : ∀ j, ∃ a x, t.core j = { s.core j with sat := a, sched := x }
  sched : ∀ j k, ∃ e, t.sched j k = { s.sched j k with event := e }
  ctx : ∀ j, t.ctx j = if j ∈ s.members w then (s.ctx j).freed s.now else s.ctx j

/-- Freeing the contexts of a firing, in a state in which only its actor's slot has recorded an event. -/
theorem ended_of_freed {s u : State} {w : Nat} (hframe : ∃ b, u = { s with cores := b })
    (hcore : ∀ j, ∃ x, u.core j = { s.core j with sched := x }) (hsched : ∀ j k, ∃ e, u.sched j k = { s.sched j k with event := e }) :
    Ended w s ((u.members w).foldl (fun s m => s.freeCtx m) (u.dropLease w)) := by
  obtain ⟨b, rfl⟩ := hframe
  have hf := State.freeCtxs_freed _ (State.members_nodup { s with cores := b } w) (State.dropLease { s with cores := b } w)
  refine ⟨?_, fun j => ?_, fun j k => ?_, hf.ctx⟩
  · obtain ⟨a, b, h⟩ := hf.frame
    exact ⟨a, b, _, h⟩
  · obtain ⟨a, ha⟩ := hf.core j
    obtain ⟨x, hx⟩ := hcore j
    exact ⟨a, x, by rw [ha, State.dropLease, State.onClu_core, hx]⟩
  · obtain ⟨a, ha⟩ := hf.core j
    obtain ⟨e, he⟩ := hsched j k
    exact ⟨e, by rw [← he]; exact State.sched_congr (by rw [ha]; rfl) k⟩

theorem State.happens_core (s : State) (g k n j : Nat) : ∃ x, (s.happens g k n).core j = { s.core j with sched := x } := by
  by_cases hj : j = g
  · subst hj; exact ⟨_, by rw [State.happens, State.setSched, State.onCore_core, if_pos rfl]⟩
  · exact ⟨(s.core j).sched, by rw [State.happens, State.setSched, State.onCore_core, if_neg hj]⟩

theorem State.happens_sched (s : State) (g k n j i : Nat) : ∃ e, (s.happens g k n).sched j i = { s.sched j i with event := e } := by
  rw [State.happens, State.setSched_sched]
  split
  next h => obtain ⟨rfl, rfl⟩ := h; exact ⟨_, rfl⟩
  · exact ⟨(s.sched j i).event, rfl⟩

theorem State.endFiring_ended (s : State) (w : Nat) : Ended w s (s.endFiring w) := by
  by_cases hk : (s.ctx w).kind = .actor
  · simp only [State.endFiring, hk, if_true]
    exact ended_of_freed ⟨_, rfl⟩ (fun j => s.happens_core ..) (fun j k => s.happens_sched ..)
  · simp only [State.endFiring, hk, if_false]
    exact ended_of_freed ⟨_, rfl⟩ (fun j => ⟨_, rfl⟩) (fun j k => ⟨_, rfl⟩)

/-! ### Writes of descriptors -/

theorem State.setDesc_frame (s : State) (g k i v : Nat) : ∃ a, s.setDesc g k i v = { s with mem := a } :=
  ⟨_, State.wrBytes_eq _ s _⟩

theorem State.onMboxes_frame (s : State) (g k : Nat) (f : MBox → MBox) : ∃ a, s.onMboxes g k f = { s with mem := a } := by
  unfold State.onMboxes
  refine List.foldlRecOn (motive := fun t : State => ∃ a, t = { s with mem := a }) _ _ ⟨s.mem, rfl⟩ fun t ht m _ => ?_
  obtain ⟨a, rfl⟩ := ht
  extract_lets b
  split
  · obtain ⟨c, hc⟩ := State.setDesc_frame { s with mem := a } g k (6 + m) ((f b).head % 256 + (f b).count % 512 * 2 ^ 9 + (f b).rsv % 8 * 2 ^ 18)
    exact ⟨c, hc⟩
  · exact ⟨a, rfl⟩

/-! ### Aborts, and firings cut short -/

/-- The state of a slot whose firing is aborted while it is not leaving. -/
def Hold.after (h : Hold) (x : Sched) : Sched :=
  match h with
  | .replay p v => { x with st := .heldReplay, holdP := p, holdV := v }
  | .fault => { x with st := .heldFault }
  | .none => { x with st := .idle }

theorem State.setSched_core (s : State) (g k : Nat) (x : Sched) (j : Nat) : ∃ y, (s.setSched g k x).core j = { s.core j with sched := y } := by
  by_cases hj : j = g
  · subst hj; exact ⟨_, by rw [State.setSched, State.onCore_core, if_pos rfl]⟩
  · exact ⟨(s.core j).sched, by rw [State.setSched, State.onCore_core, if_neg hj]⟩

/-- Scheduler record of one slot rewritten, besides which memory alone may have changed. -/
structure Resched (g k : Nat) (x : Sched) (s t : State) : Prop where
  frame : ∃ a b, t = { s with mem := a, cores := b }
  core : ∀ j, ∃ y, t.core j = { s.core j with sched := y }
  sched : ∀ j n, t.sched j n = if j = g ∧ n = k then x else s.sched j n

theorem State.setSched_resched {s : State} (g k : Nat) (x : Sched) (a : List Host.Cell) :
    Resched g k x s (({ s with mem := a } : State).setSched g k x) :=
  ⟨⟨a, _, rfl⟩, fun j => State.setSched_core { s with mem := a } g k x j, fun j n => State.setSched_sched { s with mem := a } g k x j n⟩

theorem Resched.setDesc {g k : Nat} {x : Sched} {s t : State} (h : Resched g k x s t) (i v : Nat) : Resched g k x s (t.setDesc g k i v) := by
  obtain ⟨a, ha⟩ := t.setDesc_frame g k i v
  obtain ⟨⟨b, c, rfl⟩, hcore, hsched⟩ := h
  rw [ha]
  exact ⟨⟨a, c, rfl⟩, hcore, hsched⟩

/-- What an abort does before the firing ends, for an actor that is not leaving. -/
theorem abort_actor_prepared {s : State} {w : Nat} (h : Hold) (hk : (s.ctx w).kind = .actor)
    (hst : (s.sched (w / 4) (s.ctx w).slot).st = .firing) :
    ∃ u : State, s.abort w h = (u.bumpCore (w / 4) 0x03).endFiring w ∧
      Resched (w / 4) (s.ctx w).slot (h.after (s.sched (w / 4) (s.ctx w).slot)) s u := by
  obtain ⟨a, ha⟩ := s.onMboxes_frame (w / 4) (s.ctx w).slot
    (fun b => { b with head := (b.head + b.depth - b.rsv) % b.depth, count := b.count + b.rsv, rsv := 0 })
  have hr : s.mbReturn (w / 4) (s.ctx w).slot = { s with mem := a } := ha
  have hx : ∀ j k, ({ s with mem := a } : State).sched j k = s.sched j k := fun _ _ => rfl
  have hl : decide (ActorSt.firing = ActorSt.leaving) = false := rfl
  simp only [State.abort, hk, coreOf, hr, hx, hst, hl, Bool.false_eq_true, if_false]
  cases h with
  | replay p v => exact ⟨_, rfl, (State.setSched_resched ..).setDesc ..⟩
  | fault => exact ⟨_, rfl, (State.setSched_resched ..).setDesc ..⟩
  | none => exact ⟨_, rfl, State.setSched_resched ..⟩

/-- What an aborted or an ended firing of an actor leaves: its contexts free, its slot in the given record but for the event, and nothing
published. -/
structure Quit (w : Nat) (x : Sched) (s t : State) : Prop where
  frame : ∃ m a b k, t = { s with mem := m, ctxs := a, cores := b, clus := k }
  core : ∀ j, ∃ a y p, t.core j = { s.core j with sat := a, sched := y, pcount := p }
  sched : ∀ j k, ∃ e, t.sched j k = { (if j = w / 4 ∧ k = (s.ctx w).slot then x else s.sched j k) with event := e }
  ctx : ∀ j, t.ctx j = if j ∈ s.members w then (s.ctx j).freed s.now else s.ctx j

theorem Resched.quit {w : Nat} {x : Sched} {s u t : State} (h : Resched (w / 4) (s.ctx w).slot x s u) {v : State}
    (hv : (∃ b, v = { u with cores := b }) ∧ ∀ j, ∃ p, v.core j = { u.core j with pcount := p }) (he : Ended w v t) : Quit w x s t := by
  obtain ⟨hframe, hcore, hsched⟩ := h
  obtain ⟨hvframe, hvcore⟩ := hv
  have hctx : v.ctx = s.ctx ∧ v.now = s.now ∧ ∃ a b, v = { s with mem := a, cores := b } := by
    obtain ⟨a, b, rfl⟩ := hframe
    obtain ⟨b', rfl⟩ := hvframe
    exact ⟨rfl, rfl, a, b', rfl⟩
  obtain ⟨hctx, hnow, hv⟩ := hctx
  refine ⟨?_, fun j => ?_, fun j k => ?_, fun j => ?_⟩
  · obtain ⟨a, b, rfl⟩ := hv
    obtain ⟨p, q, r, rfl⟩ := he.frame
    exact ⟨a, p, q, r, rfl⟩
  · obtain ⟨y, hy⟩ := hcore j
    obtain ⟨p, hp⟩ := hvcore j
    obtain ⟨c, z, hc⟩ := he.core j
    exact ⟨c, z, p, by rw [hc, hp, hy]⟩
  · obtain ⟨e, hev⟩ := he.sched j k
    obtain ⟨p, hp⟩ := hvcore j
    have hs : v.sched j k = u.sched j k := State.sched_congr (by rw [hp]) k
    exact ⟨e, by rw [hev, hs, hsched j k]⟩
  · rw [he.ctx, hctx, hnow, State.members_congr v s w (by rw [hctx])]

theorem abort_actor {s : State} {w : Nat} (h : Hold) (hk : (s.ctx w).kind = .actor)
    (hst : (s.sched (w / 4) (s.ctx w).slot).st = .firing) :
    Quit w (h.after (s.sched (w / 4) (s.ctx w).slot)) s (s.abort w h) := by
  obtain ⟨u, hu, hr⟩ := abort_actor_prepared h hk hst
  rw [hu]
  exact hr.quit ⟨⟨_, u.bumpCore_frame ..⟩, fun j => u.bumpCore_core ..⟩ (State.endFiring_ended _ w)

theorem cutShort_actor {s : State} {w : Nat} (hk : (s.ctx w).kind = .actor) :
    Quit w { s.sched (w / 4) (s.ctx w).slot with
      st := if (s.sched (w / 4) (s.ctx w).slot).st = .leaving then .leaving else .idle } s (s.cutShort w) := by
  simp only [State.cutShort, hk, if_true]
  exact (State.setSched_resched (s := s) _ _ _ s.mem).quit ⟨⟨_, rfl⟩, fun j => ⟨_, rfl⟩⟩ (State.endFiring_ended _ w)

/-- What a firing cut short leaves, whatever it is of: its contexts free, and beside them cores and the lease of its array. -/
theorem cutShort_spec (s : State) (w : Nat) :
    (∃ a b k, s.cutShort w = { s with ctxs := a, cores := b, clus := k }) ∧
    ∀ j, (s.cutShort w).ctx j = if j ∈ s.members w then (s.ctx j).freed s.now else s.ctx j := by
  by_cases hk : (s.ctx w).kind = .actor
  · simp only [State.cutShort, hk, if_true]
    have he := State.endFiring_ended (s.setSched (coreOf w) (s.ctx w).slot { s.sched (coreOf w) (s.ctx w).slot with
      st := if (s.sched (coreOf w) (s.ctx w).slot).st = .leaving then .leaving else .idle }) w
    obtain ⟨a, b, k, h⟩ := he.frame
    exact ⟨⟨a, b, k, h⟩, he.ctx⟩
  · simp only [State.cutShort, hk, if_false]
    have he := s.endFiring_ended w
    exact ⟨he.frame, he.ctx⟩

end Sys2Proof.Machine

/-! ## Faults before and after the first commit point -/

namespace Sys2Proof.Machine

/-- Parking changes the contexts of the firing and the lease of its cluster's array. -/
theorem park_ctx (s : State) (w part vpn m : Nat) : (s.park w part vpn).ctx m = if m ∈ s.members w then
      { s.ctx m with phase := .parked, parkP := part, parkV := vpn, xlate := [] } else s.ctx m :=
  (State.foldCtx _ (s.members_nodup w) (fun c =>
    { c with phase := .parked, parkP := part, parkV := vpn, xlate := [] }) (s.dropLease w)).2 m

/-! ### Notices -/

/-- A notice changes no context and no core. -/
@[simp] theorem State.faultNotice_ctx (s : State) (gc part : Nat) (patrol eng : Bool) (aid fsyn va pc fmsg w6 w7 j : Nat) :
    (s.faultNotice gc part patrol eng aid fsyn va pc fmsg w6 w7).ctx j = s.ctx j := by
  cases patrol <;> rfl
@[simp] theorem State.faultNotice_core (s : State) (gc part : Nat) (patrol eng : Bool) (aid fsyn va pc fmsg w6 w7 j : Nat) :
    (s.faultNotice gc part patrol eng aid fsyn va pc fmsg w6 w7).core j = s.core j := by
  cases patrol <;> rfl
@[simp] theorem State.faultNotice_sched (s : State) (gc part : Nat) (patrol eng : Bool) (aid fsyn va pc fmsg w6 w7 j k : Nat) :
    (s.faultNotice gc part patrol eng aid fsyn va pc fmsg w6 w7).sched j k = s.sched j k := by
  cases patrol <;> rfl

/-- The first word of a fault notice: kind 7, 4 units, mailbox 3 (R385). -/
theorem headWord_notice (d : Nat) (r : Pkt) : Pkt.kind (headWord 7 4 3 d false false false :: r) = 7 ∧
    Pkt.units (headWord 7 4 3 d false false false :: r) = 4 ∧ Pkt.mb (headWord 7 4 3 d false false false :: r) = 3 := by
  have hw : (headWord 7 4 3 d false false false).toNat % 2 ^ 16 = 884 := by
    simp only [headWord, Bool.false_eq_true, if_false, BitVec.toNat_ofNat]
    omega
  simp only [Pkt.kind, Pkt.units, Pkt.mb, Pkt.word, List.getD_cons_zero, bits, unitsOf, Nat.shiftRight_eq_div_pow]
  refine ⟨by omega, ?_, by omega⟩
  rw [if_neg (by omega)]
  omega

/-- A flag at bit `k` of a word. -/
theorem flag_eq (b : Bool) (k : Nat) : (if b = true then 2 ^ k else 0) = b.toNat * 2 ^ k := by cases b <;> simp

/-- A flag read back. -/
theorem decide_toNat (b : Bool) : decide (b.toNat = 1) = b := by cases b <;> rfl

/-- The twelve fields of a sum laid out as Table 20.2 lays out `%fsyn`. -/
theorem fsyn_layout (d m c l p g q x v h k e : Nat) (hm : m ≤ 1) (hc : c < 8) (hl : l < 4) (hp : p ≤ 1) (hg : g ≤ 1) (hq : q < 4) (hx : x < 4)
    (hv : v ≤ 1) (hh : h ≤ 1) (hk : k < 4) (he : e < 256) :
    let y := d * 2 ^ 32 + m * 2 ^ 27 + c * 2 ^ 24 + l * 2 ^ 22 + p * 2 ^ 21 + g * 2 ^ 20 + q * 2 ^ 18 + x * 2 ^ 16 + v * 2 ^ 11 + h * 2 ^ 10 +
      k * 2 ^ 8 + e
    y / 2 ^ 0 % 2 ^ 8 = e ∧ y / 2 ^ 8 % 2 ^ 2 = k ∧ y / 2 ^ 10 % 2 = h ∧ y / 2 ^ 11 % 2 = v ∧ y / 2 ^ 16 % 2 ^ 2 = x ∧ y / 2 ^ 18 % 2 ^ 2 = q ∧
    y / 2 ^ 20 % 2 = g ∧ y / 2 ^ 21 % 2 = p ∧ y / 2 ^ 22 % 2 ^ 2 = l ∧ y / 2 ^ 24 % 2 ^ 3 = c ∧ y / 2 ^ 27 % 2 = m ∧
    y / 2 ^ 32 % 2 ^ 32 = d % 2 ^ 32 := by
  intro y
  refine ⟨?_, ?_, ?_, ?_, ?_, ?_, ?_, ?_, ?_, ?_, ?_, ?_⟩ <;> omega

/-- The fields of `%fsyn` (Table 20.2). -/
theorem fsynOf_fields (t : Trap) (part gang : Bool) (ctx : Nat) (supv held : Bool) :
    let x := fsynOf t part gang ctx supv held
    bits x 0 8 = t.code % 256 ∧ bits x 8 2 = t.cls % 4 ∧ bit x 10 = held ∧ bit x 11 = supv ∧
    bits x 16 2 = ctx % 4 ∧ bits x 18 2 = t.gcore % 4 ∧ bit x 20 = gang ∧ bit x 21 = part ∧
    bits x 22 2 = t.lvl % 4 ∧ bits x 24 3 = t.cause % 8 ∧ bit x 27 = t.mult ∧ bits x 32 32 = t.detail % 2 ^ 32 := by
  have hlt : ∀ n k, 0 < k → n % k < k := fun n k h => Nat.mod_lt n h
  obtain ⟨h1, h2, h3, h4, h5, h6, h7, h8, h9, h10, h11, h12⟩ := fsyn_layout (t.detail % 2 ^ 32) t.mult.toNat (t.cause % 8) (t.lvl % 4)
    part.toNat gang.toNat (t.gcore % 4) (ctx % 4) supv.toNat held.toNat (t.cls % 4) (t.code % 2 ^ 8) (Bool.toNat_le _) (hlt _ 8 (by omega))
    (hlt _ 4 (by omega)) (Bool.toNat_le _) (Bool.toNat_le _) (hlt _ 4 (by omega)) (hlt _ 4 (by omega)) (Bool.toNat_le _) (Bool.toNat_le _)
    (hlt _ 4 (by omega)) (hlt _ 256 (by omega))
  simp only [bits, bit, fsynOf, flag_eq, Nat.shiftRight_eq_div_pow]
  exact ⟨h1, h2, by rw [h3, decide_toNat], by rw [h4, decide_toNat], h5, h6, by rw [h7, decide_toNat], by rw [h8, decide_toNat], h9, h10,
    by rw [h11, decide_toNat], by rw [h12, Nat.mod_mod]⟩

/-! ### Taking a fault -/

theorem State.fault_of_none {s : State} {w : Nat} (h : s.pendingFault w = none) (t : Trap) : s.fault w t = s.takeTrap w t := by
  simp only [State.fault, h, Option.getD_none]

theorem State.fault_of_some {s : State} {w : Nat} {p : Trap} (h : s.pendingFault w = some p) (t : Trap) : s.fault w t = s.takeTrap w p := by
  simp only [State.fault, h, Option.getD_some]

/-- The state in which the notice of a fault is sent: the firing parked, cut short or aborted (R20). -/
def State.faulted (s : State) (w : Nat) (t : Trap) : State :=
  if t.cls = 0 then
    (if (s.ctx w).done1 then s.park w (s.ctx w).part (bits t.va.toNat 16 39)
      else s.abort w (.replay (s.ctx w).part (bits t.va.toNat 16 39)))
  else if (s.ctx w).done1 then s.cutShort w
  else s.abort w (if t.soft then .none else .fault)

/-- Taking a fault ends or parks the firing and sends one notice. -/
theorem State.takeTrap_eq (s : State) (w : Nat) (t : Trap) : s.takeTrap w t =
    (s.faulted w t).faultNotice (w / 4) (s.ctx w).part (s.ctx w).supv false (s.ctx w).aid
      (fsynOf t (s.ctx w).done1 (s.ctx w).gang (w % 4) (s.ctx w).supv (t.holds (s.ctx w))) t.va.toNat (t.pc.getD (s.ctx w).pc).toNat
      ((s.ctx w).msgIdAt 0) (notice6 (w / 4 + t.gcore) (s.ctx w).noticeSlot 0 (s.ctx w).nmsg) (if t.cls = 2 then (s.ctx w).pc.toNat else 0) := rfl

/-- What becomes of a firing that faults before its first commit point (R267, R382). -/
def Trap.hold (t : Trap) (part : Nat) : Hold :=
  if t.cls = 0 then .replay part (bits t.va.toNat 16 39) else if t.soft then .none else .fault

theorem State.faulted_of_not_done {s : State} {w : Nat} (h : (s.ctx w).done1 = false) (t : Trap) :
    s.faulted w t = s.abort w (t.hold (s.ctx w).part) := by
  simp only [State.faulted, Trap.hold, h, Bool.false_eq_true, if_false]
  split <;> rfl

/-- Settles O19: a parked firing is the park of its contexts, and a firing cut short is quit with its slot Idle. -/
theorem faultAfterFirstCommit : Obligations.FaultAfterFirstCommit := by
  refine ⟨fun s w t hd hn hc m => ?_, fun s w t hk hd hn hc => ?_, fun s w t p hp => ?_⟩
  · rw [State.fault_of_none hn, State.takeTrap_eq, State.faultNotice_ctx, State.faulted, if_pos hc, if_pos hd, park_ctx]
  · have hc0 : t.cls ≠ 0 := by rw [hc]; exact Nat.one_ne_zero
    have hq := cutShort_actor (s := s) (w := w) hk
    simp only [State.fault_of_none hn, State.takeTrap_eq, State.faulted, if_neg hc0, hd, if_true, State.faultNotice_ctx,
      State.faultNotice_sched]
    refine ⟨fun m hm => ?_, ?_⟩
    · rw [hq.ctx, if_pos hm]; exact ⟨rfl, rfl, rfl⟩
    · obtain ⟨e, he⟩ := hq.sched (w / 4) (s.ctx w).slot
      rw [he, if_pos ⟨rfl, rfl⟩]
  · rw [State.fault_of_some hp, State.fault_of_some hp]

/-! ### Aborted tasks -/

theorem State.wrWords_frame (ws : Pkt) : ∀ (s : State) (pa : Nat), ∃ a b, s.wrWords pa ws = { s with mem := a, badWords := b } := by
  induction ws with
  | nil => exact fun s _ => ⟨s.mem, s.badWords, rfl⟩
  | cons x ws ih =>
    intro s pa
    obtain ⟨a, b, h⟩ := ih ((s.wr64 pa x.toNat).heal pa 8) (pa + 8)
    have hw : s.wr64 pa x.toNat = { s with mem := (s.wr64 pa x.toNat).mem } := State.wrBytes_eq _ s pa
    refine ⟨a, b, ?_⟩
    rw [State.wrWords, h, hw]; rfl

theorem State.grant_core (s : State) (g a n : Nat) (r : PortReq) (j : Nat) : ∃ p, (s.grant g a n r).core j = { s.core j with subPtr := p } := by
  by_cases hj : j = g
  · subst hj; exact ⟨_, by rw [State.grant, State.onCore_core, if_pos rfl]⟩
  · exact ⟨(s.core j).subPtr, by rw [State.grant, State.onCore_core, if_neg hj]⟩

/-- A packet that the message path writes: memory and port pointers alone change. -/
theorem State.putPkt_frame (s : State) (gc a : Nat) (p : Pkt) :
    ∃ m b, s.putPkt gc a p = { s with mem := m, badWords := b, cores := (s.putPkt gc a p).cores } := by
  obtain ⟨m, b, hw⟩ := s.wrWords_frame p (localPA gc a)
  exact ⟨m, b, by rw [State.putPkt, hw]; rfl⟩

theorem State.putPkt_core (s : State) (gc a : Nat) (p : Pkt) (j : Nat) : ∃ q, (s.putPkt gc a p).core j = { s.core j with subPtr := q } := by
  obtain ⟨m, b, hw⟩ := s.wrWords_frame p (localPA gc a)
  obtain ⟨q, hq⟩ := (s.wrWords (localPA gc a) p).grant_core gc a (8 * p.length) reqMsg j
  exact ⟨q, by rw [State.putPkt, hq, hw]; rfl⟩

/-- A task put on the top of a deque: memory, port pointers and that deque alone change. -/
theorem State.pushTop_frame (s : State) (gc : Nat) (p : Pkt) (push from_ : Nat) (held : Option (Nat × Nat)) :
    ∃ a b c, s.pushTop gc p push from_ held = { s with mem := a, badWords := b, cores := c } := by
  obtain ⟨m, b, h⟩ := s.putPkt_frame gc (deqLocal (s.deqIndex gc)) p
  exact ⟨m, b, (s.pushTop gc p push from_ held).cores, by rw [State.pushTop, h]; rfl⟩

theorem State.pushTop_deque (s : State) (gc : Nat) (p : Pkt) (push from_ : Nat) (held : Option (Nat × Nat)) :
    ((s.pushTop gc p push from_ held).core gc).deque =
      { p := p, idx := s.deqIndex gc, push := push, held := held, from_ := from_ } :: (s.core gc).deque := by
  obtain ⟨q, hq⟩ := s.putPkt_core gc (deqLocal (s.deqIndex gc)) p gc
  rw [State.pushTop, State.onCore_core, if_pos rfl, hq]

/-- What an abort of a pool firing leaves: the context free, and its packet on the top of the deque where it returns (R261). -/
theorem abort_pool {s : State} {w : Nat} {p : Pkt} (h : Hold) (hk : (s.ctx w).kind = .pool) (hp : (s.ctx w).msgs = [p]) :
    (∀ j, (s.abort w h).ctx j = if j ∈ s.members w then (s.ctx j).freed s.now else s.ctx j) ∧
    ((s.abort w h).core (w / 4)).deque = (match h with
      | .replay part v => [{ p := p, idx := s.deqIndex (w / 4), push := s.now, held := some (part, v), from_ := s.now + 1 }]
      | .none => [{ p := p, idx := s.deqIndex (w / 4), push := s.now, held := none, from_ := s.now + 1 }]
      | .fault => []) ++ (s.core (w / 4)).deque := by
  have key : ∀ u : State, (∃ a b c, u = { s with mem := a, badWords := b, cores := c }) →
      (∀ j, ((u.bumpCore (w / 4) 3).endFiring w).ctx j = if j ∈ s.members w then (s.ctx j).freed s.now else s.ctx j) ∧
      (((u.bumpCore (w / 4) 3).endFiring w).core (w / 4)).deque = (u.core (w / 4)).deque := by
    rintro u ⟨a, b, c, rfl⟩
    have he := State.endFiring_ended (State.bumpCore { s with mem := a, badWords := b, cores := c } (w / 4) 3) w
    obtain ⟨q, hq⟩ := State.bumpCore_core { s with mem := a, badWords := b, cores := c } (w / 4) 3 (w / 4)
    obtain ⟨x, y, hx⟩ := he.core (w / 4)
    refine ⟨fun j => ?_, by rw [hx, hq]⟩
    have hb := State.bumpCore_frame { s with mem := a, badWords := b, cores := c } (w / 4) 3
    rw [he.ctx, hb]; rfl
  simp only [State.abort, hk, coreOf]
  cases h with
  | replay part v =>
    simp only [State.returnTask, hp, coreOf]
    obtain ⟨h1, h2⟩ := key _ (s.pushTop_frame (w / 4) p s.now (s.now + 1) (some (part, v)))
    exact ⟨h1, by rw [h2, State.pushTop_deque]; rfl⟩
  | none =>
    simp only [State.returnTask, hp, coreOf]
    obtain ⟨h1, h2⟩ := key _ (s.pushTop_frame (w / 4) p s.now (s.now + 1) none)
    exact ⟨h1, by rw [h2, State.pushTop_deque]; rfl⟩
  | fault =>
    obtain ⟨h1, h2⟩ := key s ⟨_, _, _, rfl⟩
    exact ⟨h1, h2⟩

theorem Trap.soft_iff (t : Trap) : t.soft = true ↔ t.code = 0x10 ∧ t.detail % 256 ≠ 2 := by
  simp [Trap.soft]

/-- The bits of an address that name its page, as Table 20.2 takes them. -/
theorem page_bits (x : Nat) : bits x 16 39 = x / 2 ^ 16 % 2 ^ 39 := by rw [bits, Nat.shiftRight_eq_div_pow]

/-- A pool task that faults before its first commit point. -/
theorem pool_fault {s : State} {w : Nat} {t : Trap} {p : Pkt} (hk : (s.ctx w).kind = .pool) (hd : (s.ctx w).done1 = false)
    (hg : (s.ctx w).gang = false) (hp : (s.ctx w).msgs = [p]) :
    let u := s.takeTrap w t
    let q := (s.core (w / 4)).deque
    (u.ctx w).phase = .free ∧ (u.ctx w).kind = .none ∧ (u.ctx w).log = [] ∧ (u.ctx w).written = [] ∧ (∀ m, m ≠ w → u.ctx m = s.ctx m) ∧
    (t.cls = 0 → ∃ x : Task, (u.core (w / 4)).deque = x :: q ∧ x.p = p ∧ x.held = some ((s.ctx w).part, t.va.toNat / 2 ^ 16 % 2 ^ 39)) ∧
    (t.cls ≠ 0 → t.code = 0x10 → t.detail % 256 ≠ 2 → ∃ x : Task, (u.core (w / 4)).deque = x :: q ∧ x.p = p ∧ x.held = none ∧
      x.from_ = s.now + 1) ∧
    (t.cls ≠ 0 → ¬ (t.code = 0x10 ∧ t.detail % 256 ≠ 2) → (u.core (w / 4)).deque = q) := by
  intro u q
  obtain ⟨hctx, hdeq⟩ := abort_pool (t.hold (s.ctx w).part) hk hp
  have hm : s.members w = [w] := by simp [State.members, hg]
  have hu : ∀ j, u.ctx j = if j = w then (s.ctx j).freed s.now else s.ctx j := fun j => by
    simp only [u, State.takeTrap_eq, State.faulted_of_not_done hd, State.faultNotice_ctx, hctx, hm, List.mem_singleton]
  have hq : (u.core (w / 4)).deque = ((s.abort w (t.hold (s.ctx w).part)).core (w / 4)).deque := by
    simp only [u, State.takeTrap_eq, State.faulted_of_not_done hd, State.faultNotice_core]
  have hw := hu w
  rw [if_pos rfl] at hw
  rw [hq, hdeq, hw, ← Trap.soft_iff, ← page_bits]
  refine ⟨rfl, rfl, rfl, rfl, fun m hm => by rw [hu, if_neg hm], fun h0 => ?_, fun h0 h1 h2 => ?_, fun h0 hs => ?_⟩
  · rw [Trap.hold, if_pos h0]; exact ⟨_, rfl, rfl, rfl⟩
  · rw [Trap.hold, if_neg h0, if_pos (t.soft_iff.2 ⟨h1, h2⟩)]; exact ⟨_, rfl, rfl, rfl, rfl⟩
  · rw [Trap.hold, if_neg h0, if_neg hs]; rfl

/-! ### Aborted firings of actors -/

theorem Ctx.msgIdAt_zero (c : Ctx) : c.msgIdAt 0 = (match c.msgs with | p :: _ => Pkt.msgId p | [] => 0) := by
  rw [Ctx.msgIdAt]
  cases c.msgs <;> rfl

/-- The notice of a fault of a firing that holds no supervisor's slot, before its first commit point. -/
theorem fault_notice {s : State} {w : Nat} {t : Trap} {v : State} (hd : (s.ctx w).done1 = false) (hc : t.cls ≤ 2)
    (held : Bool) (gc n6 : Nat) :
    ∃ (e : NetPkt) (fsyn : Nat) (w0 w6 : Word),
      (v.faultNotice gc (s.ctx w).part false false (s.ctx w).aid
        (fsynOf t (s.ctx w).done1 (s.ctx w).gang (w % 4) false held) t.va.toNat (t.pc.getD (s.ctx w).pc).toNat
        ((s.ctx w).msgIdAt 0) n6 (if t.cls = 2 then (s.ctx w).pc.toNat else 0)).net = v.net ++ [e] ∧
      e.core = gc ∧ e.part = (s.ctx w).part ∧ e.redir = true ∧
      e.p = [w0, BitVec.ofNat 64 (s.ctx w).aid, BitVec.ofNat 64 fsyn, t.va, t.pc.getD (s.ctx w).pc,
        BitVec.ofNat 64 (match (s.ctx w).msgs with | p :: _ => Pkt.msgId p | [] => 0), w6, if t.cls = 2 then (s.ctx w).pc else 0] ∧
      Pkt.kind e.p = 7 ∧ Pkt.units e.p = 4 ∧ Pkt.mb e.p = 3 ∧
      bits fsyn 0 8 = t.code % 256 ∧ bits fsyn 8 2 = t.cls ∧ bit fsyn 10 = held ∧ bit fsyn 11 = false ∧
      bits fsyn 16 2 = w % 4 ∧ bits fsyn 18 2 = t.gcore % 4 ∧ bit fsyn 20 = (s.ctx w).gang ∧ bit fsyn 21 = false ∧
      bits fsyn 22 2 = t.lvl % 4 ∧ bits fsyn 24 3 = t.cause % 8 ∧ bit fsyn 27 = t.mult ∧ bits fsyn 32 32 = t.detail % 2 ^ 32 := by
  obtain ⟨f0, f8, f10, f11, f16, f18, f20, f21, f22, f24, f27, f32⟩ := fsynOf_fields t (s.ctx w).done1 (s.ctx w).gang (w % 4) false held
  obtain ⟨hkind, hunits, hmb⟩ := headWord_notice (v.supHandle gc) [BitVec.ofNat 64 (s.ctx w).aid,
    BitVec.ofNat 64 (fsynOf t (s.ctx w).done1 (s.ctx w).gang (w % 4) false held), BitVec.ofNat 64 t.va.toNat,
    BitVec.ofNat 64 (t.pc.getD (s.ctx w).pc).toNat, BitVec.ofNat 64 ((s.ctx w).msgIdAt 0), BitVec.ofNat 64 n6,
    BitVec.ofNat 64 (if t.cls = 2 then (s.ctx w).pc.toNat else 0)]
  refine ⟨_, fsynOf t (s.ctx w).done1 (s.ctx w).gang (w % 4) false held, headWord 7 4 3 (v.supHandle gc) false false false,
    BitVec.ofNat 64 n6, rfl, rfl, rfl, rfl, ?_, hkind, hunits, hmb, f0, by rw [f8, Nat.mod_eq_of_lt (by omega)], f10, f11,
    by rw [f16, Nat.mod_mod], f18, f20, by rw [f21, hd], f22, f24, f27, f32⟩
  by_cases h2 : t.cls = 2 <;> simp [Ctx.msgIdAt_zero, h2]

/-- Settles O18: the abort that a fault takes leaves what `Quit` says for an actor and `abort_pool` for a task, and its notice is laid out by
`fsynOf`. -/
theorem faultBeforeFirstCommit : Obligations.FaultBeforeFirstCommit := by
  refine ⟨fun s w t h => State.fault_of_none h t, fun s w t p hk hd hg hp => pool_fault hk hd hg hp,
    fun s w t hk hslot hd hst hcls hcode => ?_⟩
  have hq := abort_actor (t.hold (s.ctx w).part) hk hst
  have hsupv : (s.ctx w).supv = false := by simp [Ctx.supv, hk, hslot]
  have hholds : t.holds (s.ctx w) = !t.soft := by simp [Trap.holds, hd, hk]
  have hframe : ∃ m a b k, s.faulted w t = { s with mem := m, ctxs := a, cores := b, clus := k } := by
    rw [State.faulted_of_not_done hd]; exact hq.frame
  simp only [State.takeTrap_eq, State.faultNotice_ctx, State.faultNotice_sched, ← Trap.soft_iff, ← page_bits, hsupv]
  refine ⟨fun m hm => ?_, fun m hm => ?_, ?_, ?_, ?_, fun h0 => ?_, ?_⟩
  · rw [State.faulted_of_not_done hd, hq.ctx, if_pos hm]
    exact ⟨rfl, rfl, rfl, rfl, Ctx.freed_slots _ _⟩
  · rw [State.faulted_of_not_done hd, hq.ctx, if_neg hm]
  · obtain ⟨m, a, b, k, h⟩ := hframe
    rw [h]; rfl
  · obtain ⟨m, a, b, k, h⟩ := hframe
    rw [h]; rfl
  · obtain ⟨e, he⟩ := hq.sched (w / 4) (s.ctx w).slot
    rw [State.faulted_of_not_done hd, he, if_pos ⟨rfl, rfl⟩, Trap.hold]
    split
    · rfl
    · split <;> rfl
  · obtain ⟨e, he⟩ := hq.sched (w / 4) (s.ctx w).slot
    rw [State.faulted_of_not_done hd, he, if_pos ⟨rfl, rfl⟩, Trap.hold, if_pos h0]
    exact ⟨rfl, rfl⟩
  · obtain ⟨m, a, b, k, h⟩ := hframe
    have hnet : (s.faulted w t).net = s.net := by rw [h]
    have hheld : decide (¬ t.soft = true) = t.holds (s.ctx w) := by rw [hholds]; cases t.soft <;> rfl
    rw [hheld, ← hnet]
    exact fault_notice hd hcls _ _ _

end Sys2Proof.Machine

/-! ## Bookkeeping: what caches, directories, counters, port pointers and writes of bytes leave unchanged -/

namespace Sys2Proof.Machine

/-! ### Cores and clusters that differ in bookkeeping alone -/

/-- A core that differs from `c` in its L1, its copies of tables, its counters, its port pointers and its race trace alone. -/
def Core.Like (c d : Core) : Prop :=
  ∃ l1 pcount subPtr plc plcPool raceW raceSeq,
    d = { c with l1 := l1, pcount := pcount, subPtr := subPtr, plc := plc, plcPool := plcPool, raceW := raceW, raceSeq := raceSeq }

theorem Core.Like.refl (c : Core) : c.Like c := ⟨_, _, _, _, _, _, _, rfl⟩

theorem Core.Like.trans {c d e : Core} (h : c.Like d) (k : d.Like e) : c.Like e := by
  obtain ⟨_, _, _, _, _, _, _, rfl⟩ := h
  obtain ⟨_, _, _, _, _, _, _, rfl⟩ := k
  exact ⟨_, _, _, _, _, _, _, rfl⟩

/-- A cluster that differs from `k` in its slice, its directory and its counters alone. -/
def Cluster.Like (k l : Cluster) : Prop := ∃ slice dir pcount, l = { k with slice := slice, dir := dir, pcount := pcount }

theorem Cluster.Like.refl (k : Cluster) : k.Like k := ⟨_, _, _, rfl⟩

theorem Cluster.Like.trans {k l m : Cluster} (h : k.Like l) (i : l.Like m) : k.Like m := by
  obtain ⟨_, _, _, rfl⟩ := h
  obtain ⟨_, _, _, rfl⟩ := i
  exact ⟨_, _, _, rfl⟩

/-! ### States that differ in bookkeeping alone -/

/-- A state that differs from `s` in the bookkeeping of its cores and clusters and in the overflow directory alone. -/
structure State.Like (s t : State) : Prop where
  frame : ∃ a b c, t = { s with cores := a, clus := b, ovf := c }
  core : ∀ j, (s.core j).Like (t.core j)
  clu : ∀ j, (s.clu j).Like (t.clu j)

theorem State.Like.refl (s : State) : s.Like s := ⟨⟨_, _, _, rfl⟩, fun _ => .refl _, fun _ => .refl _⟩

theorem State.Like.trans {s t u : State} (h : s.Like t) (k : t.Like u) : s.Like u := by
  refine ⟨?_, fun j => (h.core j).trans (k.core j), fun j => (h.clu j).trans (k.clu j)⟩
  obtain ⟨a, b, c, rfl⟩ := h.frame
  obtain ⟨a', b', c', rfl⟩ := k.frame
  exact ⟨a', b', c', rfl⟩

theorem State.Like.onCore (s : State) (g : Nat) (f : Core → Core) (h : (s.core g).Like (f (s.core g))) : s.Like (s.onCore g f) := by
  refine ⟨⟨_, _, _, rfl⟩, fun j => ?_, fun j => .refl _⟩
  rw [State.onCore_core]
  split
  · next hj => subst hj; exact h
  · exact .refl _

theorem State.Like.onClu (s : State) (g : Nat) (f : Cluster → Cluster) (h : (s.clu g).Like (f (s.clu g))) : s.Like (s.onClu g f) := by
  refine ⟨⟨_, _, _, rfl⟩, fun j => .refl _, fun j => ?_⟩
  rw [State.onClu_clu]
  split
  · next hj => subst hj; exact h
  · exact .refl _

theorem State.Like.setOvf (s : State) (home i : Nat) (e : Option OvfEnt) : s.Like (s.setOvf home i e) :=
  ⟨⟨_, _, _, rfl⟩, fun _ => .refl _, fun _ => .refl _⟩

theorem State.Like.setDir (s : State) (home line : Nat) (e : DirEnt) : s.Like (s.setDir home line e) := .onClu s _ _ ⟨_, _, _, rfl⟩

theorem State.Like.bumpCore (s : State) (g c : Nat) : s.Like (s.bumpCore g c) := by
  unfold State.bumpCore
  split
  · exact .onCore s _ _ ⟨_, _, _, _, _, _, _, rfl⟩
  · exact .refl s

theorem State.Like.bumpSlice (s : State) (g c : Nat) : s.Like (s.bumpSlice g c) := by
  unfold State.bumpSlice
  split
  · exact .onClu s _ _ ⟨_, _, _, rfl⟩
  · exact .refl s

theorem State.Like.dropL1s (line : Nat) (l : List Nat) : ∀ s : State, s.Like (s.dropL1s line l) := by
  induction l with
  | nil => exact fun s => .refl s
  | cons g l ih => exact fun s => (State.Like.onCore s g _ ⟨_, _, _, _, _, _, _, rfl⟩).trans (ih _)

theorem State.Like.dropSharers (s : State) (home line : Nat) (p : Nat → Bool) : s.Like (s.dropSharers home line p) := by
  simp only [State.dropSharers]
  split
  · exact .setDir ..
  · split
    · exact (State.Like.setOvf ..).trans (.setDir ..)
    · exact .setOvf ..

theorem State.Like.invalidate (s : State) (home line : Nat) (e : Option Nat) : s.Like (s.invalidate home line e) := by
  simp only [State.invalidate]
  split
  · exact .refl s
  · exact (State.Like.dropL1s ..).trans (.dropSharers ..)

theorem State.Like.setClu (s : State) (g : Nat) (k : Cluster) (h : (s.clu g).Like k) : s.Like (s.setClu g k) := .onClu s g (fun _ => k) h

theorem State.Like.ite {s t u : State} {c : Prop} [Decidable c] (h : s.Like t) (k : s.Like u) : s.Like (if c then t else u) := by
  split
  · exact h
  · exact k

theorem State.Like.touchSlice (s : State) (home line : Nat) (pol : Policy) : s.Like (s.touchSlice home line pol) := by
  simp only [State.touchSlice]
  have h1 := State.Like.setClu s home { s.clu home with
    slice := FMap.put [] (s.clu home).slice (line % 8192) (touchSet 16 8 pol (FMap.get [] (s.clu home).slice (line % 8192)) line) } ⟨_, _, _, rfl⟩
  split
  · exact (State.Like.ite h1 (h1.trans (.bumpSlice ..))).trans (.invalidate ..)
  · exact .ite h1 (h1.trans (.bumpSlice ..))

theorem State.Like.tableTouch (s : State) (pa : Nat) : s.Like (s.tableTouch pa) := .touchSlice ..

theorem State.Like.poolKeep (s : State) (gc part id : Nat) : s.Like (s.poolKeep gc part id) := by
  simp only [State.poolKeep]
  split
  · refine State.Like.trans ?_ (.onCore _ _ _ ⟨_, _, _, _, _, _, _, rfl⟩)
    split
    · exact .refl s
    · exact .tableTouch ..
  · exact .refl s

theorem State.Like.grant (s : State) (g a n : Nat) (r : PortReq) : s.Like (s.grant g a n r) := .onCore _ _ _ ⟨_, _, _, _, _, _, _, rfl⟩

theorem State.Like.l1Store (s : State) (g pa : Nat) (pol : Policy) : s.Like (s.l1Store g pa pol) := by
  refine .onCore _ _ _ ?_
  split
  · exact ⟨_, _, _, _, _, _, _, rfl⟩
  · exact .refl _

/-! ### States that differ in bytes and bookkeeping alone -/

/-- A state that differs from `s` in bytes of memory, healed words and bookkeeping alone. -/
structure State.Wrote (s t : State) : Prop where
  frame : ∃ m w a b c, t = { s with mem := m, badWords := w, cores := a, clus := b, ovf := c }
  core : ∀ j, (s.core j).Like (t.core j)
  clu : ∀ j, (s.clu j).Like (t.clu j)

theorem State.Like.wrote {s t : State} (h : s.Like t) : s.Wrote t := by
  refine ⟨?_, h.core, h.clu⟩
  obtain ⟨a, b, c, h⟩ := h.frame
  exact ⟨_, _, a, b, c, h⟩

theorem State.Wrote.refl (s : State) : s.Wrote s := (State.Like.refl s).wrote

theorem State.Wrote.trans {s t u : State} (h : s.Wrote t) (k : t.Wrote u) : s.Wrote u := by
  refine ⟨?_, fun j => (h.core j).trans (k.core j), fun j => (h.clu j).trans (k.clu j)⟩
  obtain ⟨m, w, a, b, c, rfl⟩ := h.frame
  obtain ⟨m', w', a', b', c', rfl⟩ := k.frame
  exact ⟨m', w', a', b', c', rfl⟩

theorem State.Wrote.of_eq {s t : State} (h : ∃ m w, t = { s with mem := m, badWords := w }) : s.Wrote t := by
  obtain ⟨m, w, rfl⟩ := h
  exact ⟨⟨m, w, _, _, _, rfl⟩, fun _ => .refl _, fun _ => .refl _⟩

theorem State.Wrote.wrByte (s : State) (pa : Nat) (b : Byte) : s.Wrote (s.wrByte pa b) := .of_eq ⟨_, _, rfl⟩

theorem State.Wrote.wrBytes (s : State) (pa : Nat) (bs : List Byte) : s.Wrote (s.wrBytes pa bs) := .of_eq ⟨_, _, State.wrBytes_eq bs s pa⟩

theorem State.Wrote.wrNat (s : State) (pa n v : Nat) : s.Wrote (s.wrNat pa n v) := .wrBytes ..

theorem State.Wrote.setDesc (s : State) (g k i v : Nat) : s.Wrote (s.setDesc g k i v) := .wrBytes ..

theorem State.Wrote.heal (s : State) (pa n : Nat) : s.Wrote (s.heal pa n) := .of_eq ⟨_, _, rfl⟩

theorem State.Wrote.wrWords (s : State) (pa : Nat) (ws : Pkt) : s.Wrote (s.wrWords pa ws) := .of_eq (s.wrWords_frame ws pa)

theorem State.Wrote.putPkt (s : State) (gc a : Nat) (p : Pkt) : s.Wrote (s.putPkt gc a p) := (State.Wrote.wrWords ..).trans (State.Like.grant ..).wrote

theorem State.Wrote.onMboxes (s : State) (g k : Nat) (f : MBox → MBox) : s.Wrote (s.onMboxes g k f) := by
  obtain ⟨a, h⟩ := s.onMboxes_frame g k f
  exact .of_eq ⟨a, _, h⟩

theorem State.Wrote.storeBytes (gc : Nat) (bs : List Byte) : ∀ (s : State) (a : Nat), s.Wrote (s.storeBytes gc a bs) := by
  induction bs with
  | nil => exact fun s _ => .refl s
  | cons b bs ih => exact fun s a => (State.Wrote.wrByte ..).trans (ih _ _)

theorem State.Wrote.traceOne (s : State) (gc a src : Nat) (eng : Bool) : s.Wrote (s.traceOne gc a src eng) := by
  simp only [State.traceOne]
  split
  · exact .refl s
  · split
    · exact (State.Like.onCore s gc (fun _ => _) ⟨_, _, _, _, _, _, _, rfl⟩).wrote
    · split
      · exact (State.Like.onCore s gc (fun _ => _) ⟨_, _, _, _, _, _, _, rfl⟩).wrote.trans (.wrNat ..)
      · exact (State.Like.onCore s gc (fun _ => _) ⟨_, _, _, _, _, _, _, rfl⟩).wrote

theorem State.Wrote.trace (s : State) (gc a n src : Nat) (eng : Bool) : s.Wrote (s.trace gc a n src eng) := by
  simp only [State.trace]
  split
  · exact .refl s
  · split
    · exact .traceOne ..
    · exact (State.Wrote.traceOne ..).trans (.traceOne ..)

theorem State.Wrote.portStore (s : State) (w gc a : Nat) (bs : List Byte) : s.Wrote (s.portStore w gc a bs) :=
  (((State.Wrote.storeBytes ..).trans (.heal ..)).trans (State.Like.grant ..).wrote).trans (.trace ..)

theorem State.Wrote.ctx {s t : State} (h : s.Wrote t) : t.ctx = s.ctx := by obtain ⟨_, _, _, _, _, rfl⟩ := h.frame; rfl
theorem State.Wrote.now {s t : State} (h : s.Wrote t) : t.now = s.now := by obtain ⟨_, _, _, _, _, rfl⟩ := h.frame; rfl
theorem State.Wrote.wq {s t : State} (h : s.Wrote t) : t.wq = s.wq := by obtain ⟨_, _, _, _, _, rfl⟩ := h.frame; rfl
theorem State.Wrote.net {s t : State} (h : s.Wrote t) : t.net = s.net := by obtain ⟨_, _, _, _, _, rfl⟩ := h.frame; rfl
theorem State.Wrote.uid {s t : State} (h : s.Wrote t) : t.uid = s.uid := by obtain ⟨_, _, _, _, _, rfl⟩ := h.frame; rfl

end Sys2Proof.Machine

/-! ## Publication: what a commit point leaves of the contexts (R19, R214) -/

namespace Sys2Proof.Machine

/-- A context that differs from `c` in what publication changes alone: its log and the marks of it, its sends, the `st` counter, and the
first commit point. -/
def Ctx.Pub (c d : Ctx) : Prop :=
  ∃ pubLo log mark ocSt slots written pub done1 retEnt, d = { c with
    pubLo := pubLo, log := log, mark := mark, ocSt := ocSt, slots := slots, written := written, pub := pub, done1 := done1, retEnt := retEnt }

theorem Ctx.Pub.refl (c : Ctx) : c.Pub c := ⟨_, _, _, _, _, _, _, _, _, rfl⟩

theorem Ctx.Pub.trans {c d e : Ctx} (h : c.Pub d) (k : d.Pub e) : c.Pub e := by
  obtain ⟨_, _, _, _, _, _, _, _, _, rfl⟩ := h
  obtain ⟨_, _, _, _, _, _, _, _, _, rfl⟩ := k
  exact ⟨_, _, _, _, _, _, _, _, _, rfl⟩

/-- Every context of `t` is as in `s`, but for what publication changes. -/
structure State.Pub (s t : State) : Prop where
  ctx : ∀ j, (s.ctx j).Pub (t.ctx j)

theorem State.Pub.refl (s : State) : s.Pub s := ⟨fun _ => .refl _⟩

theorem State.Pub.trans {s t u : State} (h : s.Pub t) (k : t.Pub u) : s.Pub u := ⟨fun j => (h.ctx j).trans (k.ctx j)⟩

theorem State.Pub.of_ctx {s t : State} (h : t.ctx = s.ctx) : s.Pub t := ⟨fun j => by rw [h]; exact .refl _⟩

theorem State.Pub.onCtx (s : State) (w : Nat) (f : Ctx → Ctx) (h : (s.ctx w).Pub (f (s.ctx w))) : s.Pub (s.onCtx w f) := by
  refine ⟨fun j => ?_⟩
  rw [State.onCtx_ctx]
  split
  · next hj => subst hj; exact h
  · exact .refl _

theorem State.Pub.ite {s t u : State} {c : Prop} [Decidable c] (h : s.Pub t) (k : s.Pub u) : s.Pub (if c then t else u) := by
  split
  · exact h
  · exact k

/-! ### Stores of a log -/

theorem State.Pub.sendStore (s : State) (e : Pending) : s.Pub (s.sendStore e) := by
  have h := State.Pub.onCtx { s with wq := s.wq ++ [{ e with uid := s.uid }] } e.org.w
    (fun c => { c with ocSt := min 255 (State.stOut { s with wq := s.wq ++ [{ e with uid := s.uid }] } e.org.w) })
    ⟨_, _, _, _, _, _, _, _, _, rfl⟩
  exact ⟨h.ctx⟩

theorem State.Pub.pubStore (s : State) (w grp : Nat) (org : Origin) (pa hb cls : Nat) (pol : Policy) (bs : List Byte) :
    s.Pub (s.pubStore w grp org pa hb cls pol bs) := by
  simp only [State.pubStore]
  split
  · exact .ite (.sendStore ..) (.of_ctx (State.Wrote.portStore ..).ctx)
  · exact (State.Pub.of_ctx (State.Like.l1Store ..).wrote.ctx).trans (.sendStore ..)

theorem State.Pub.pubLog (w : Nat) (l : List LogItem) : ∀ s : State, s.Pub (s.pubLog w l) := by
  induction l with
  | nil => exact .refl
  | cons x l ih =>
    intro s
    cases x with
    | store org va pa hb cls pol bs => exact (State.Pub.pubStore ..).trans (ih _)
    | mark sc => exact State.Pub.trans (.ite (.onCtx _ _ _ ⟨_, _, _, _, _, _, _, _, _, rfl⟩) (.refl s)) (ih _)

theorem State.Pub.pubCtx (s : State) (w : Nat) : s.Pub (s.pubCtx w) :=
  (State.Pub.pubLog w _ s).trans (.onCtx _ _ _ ⟨_, _, _, _, _, _, _, _, _, rfl⟩)

theorem State.pubCtx_log (s : State) (w : Nat) : ((s.pubCtx w).ctx w).log = [] := by
  rw [State.pubCtx, State.onCtx_ctx, if_pos rfl]

/-! ### Sends -/

theorem State.nextSeq_ctx (s : State) (w : Nat) : (s.nextSeq w).1.ctx = s.ctx := by
  simp only [State.nextSeq]
  split
  · rfl
  · exact (State.Wrote.setDesc ..).ctx

theorem State.pubSend_ctx (s : State) (w uid : Nat) (p : Pkt) : (s.pubSend w uid p).ctx = s.ctx := s.nextSeq_ctx w

theorem State.pubTask_ctx (s : State) (w idx : Nat) (p : Pkt) : (s.pubTask w idx p).ctx = s.ctx := by
  simp only [State.pubTask]
  split
  · exact ((State.Wrote.putPkt ..).ctx.trans (State.Like.poolKeep ..).wrote.ctx).trans (s.nextSeq_ctx w)
  · exact s.nextSeq_ctx w

/-- Publishing sends changes no context. -/
theorem State.pubSends_ctx (w : Nat) (l : List (Nat × Option Nat × Pkt)) : ∀ s : State, (s.pubSends w l).ctx = s.ctx := by
  induction l with
  | nil => exact fun _ => rfl
  | cons x l ih =>
    intro s
    obtain ⟨u, i, p⟩ := x
    cases i with
    | none => exact (ih _).trans (s.pubSend_ctx ..)
    | some i => exact (ih _).trans (s.pubTask_ctx ..)

/-! ### The commit point -/

/-- The first commit point changes two fields of the leading context. -/
theorem State.firstCommit_ctx (s : State) (w : Nat) : ∀ j, ∃ d r, (s.firstCommit w).ctx j = { s.ctx j with done1 := d, retEnt := r } := by
  intro j
  simp only [State.firstCommit]
  split
  · exact ⟨_, _, rfl⟩
  · have hc : (if (s.ctx w).kind = .actor then s.mbRelease (coreOf w) (s.ctx w).slot else s).ctx = s.ctx := by
      split
      · exact (State.Wrote.onMboxes ..).ctx
      · rfl
    rw [State.onCtx_ctx, hc]
    split
    · next hj => subst hj; exact ⟨_, _, rfl⟩
    · exact ⟨_, _, rfl⟩

/-- Publication keeps of every context all but what `Ctx.Pub` names. -/
theorem State.Pub.publish (s : State) (w : Nat) : s.Pub (s.publish w) := by
  simp only [State.publish]
  have h1 : s.Pub (if (s.ctx w).pub then s else s.onCtx w (fun c => { c with pubLo := s.uid })) :=
    .ite (.refl s) (.onCtx _ _ _ ⟨_, _, _, _, _, _, _, _, _, rfl⟩)
  generalize (if (s.ctx w).pub then s else s.onCtx w (fun c => { c with pubLo := s.uid })) = u at h1 ⊢
  have h2 : s.Pub ((u.members w).foldl (fun s m => s.pubCtx m) u) :=
    List.foldlRecOn (motive := fun t => s.Pub t) _ _ h1 fun t ht m _ => ht.trans (.pubCtx t m)
  generalize (u.members w).foldl (fun s m => s.pubCtx m) u = v at h2 ⊢
  have h3 := h2.trans (.of_ctx (State.pubSends_ctx w (v.ctx w).unpublished v))
  generalize v.pubSends w (v.ctx w).unpublished = x at h3 ⊢
  have h4 : s.Pub (if (x.ctx w).pub then x else x.bumpCore (coreOf w) 0x04) := .ite h3 (h3.trans (.of_ctx (State.Like.bumpCore ..).wrote.ctx))
  generalize (if (x.ctx w).pub then x else x.bumpCore (coreOf w) 0x04) = y at h4 ⊢
  have h5 := h4.trans (.onCtx y w (fun c => { c with slots := c.slots.map Slot.sent?, written := [], pub := true })
    ⟨_, _, _, _, _, _, _, _, _, rfl⟩)
  refine h5.trans ⟨fun j => ?_⟩
  obtain ⟨d, r, h⟩ := State.firstCommit_ctx (y.onCtx w (fun c => { c with slots := c.slots.map Slot.sent?, written := [], pub := true })) w j
  rw [h]
  exact ⟨_, _, _, _, _, _, _, _, _, rfl⟩

theorem Slot.sent?_ne (k : Slot) (u : Nat) (p : Pkt) : k.sent? ≠ .filled u p := by cases k <;> simp [Slot.sent?]

/-- A firing of one context has nothing left to publish behind its commit point. -/
theorem State.publish_empties {s : State} {w : Nat} (hg : (s.ctx w).gang = false) :
    ((s.publish w).ctx w).log = [] ∧ (∀ k ∈ ((s.publish w).ctx w).slots, ∀ u p, k ≠ .filled u p) ∧ ((s.publish w).ctx w).pub = true ∧
      ((s.publish w).ctx w).written = [] := by
  simp only [State.publish]
  have h1 : ((if (s.ctx w).pub then s else s.onCtx w (fun c => { c with pubLo := s.uid })).ctx w).gang = false := by
    split
    · exact hg
    · rw [State.onCtx_ctx, if_pos rfl]; exact hg
  generalize (if (s.ctx w).pub then s else s.onCtx w (fun c => { c with pubLo := s.uid })) = u at h1 ⊢
  have hm : u.members w = [w] := by simp [State.members, h1]
  simp only [hm, List.foldl_cons, List.foldl_nil]
  have h2 := u.pubCtx_log w
  generalize u.pubCtx w = v at h2 ⊢
  rw [← State.pubSends_ctx w (v.ctx w).unpublished v] at h2
  generalize v.pubSends w (v.ctx w).unpublished = x at h2 ⊢
  have h3 : ((if (x.ctx w).pub then x else x.bumpCore (coreOf w) 0x04).ctx w).log = [] := by
    split
    · exact h2
    · rw [(State.Like.bumpCore ..).wrote.ctx]; exact h2
  generalize (if (x.ctx w).pub then x else x.bumpCore (coreOf w) 0x04) = y at h3 ⊢
  obtain ⟨d, r, h⟩ := State.firstCommit_ctx (y.onCtx w (fun c => { c with slots := c.slots.map Slot.sent?, written := [], pub := true })) w w
  rw [h, State.onCtx_ctx, if_pos rfl]
  refine ⟨h3, fun k hk u p => ?_, rfl, rfl⟩
  obtain ⟨k', _, rfl⟩ := List.mem_map.1 hk
  exact k'.sent?_ne u p

/-! ### Committing -/

theorem State.Pub.committed (s : State) : s.Pub s.committed := .ite (.refl s) (.publish s s.cur)

theorem State.Pub.gang {s t : State} (h : s.Pub t) (j : Nat) : (t.ctx j).gang = (s.ctx j).gang := by
  obtain ⟨_, _, _, _, _, _, _, _, _, e⟩ := h.ctx j
  rw [e]

/-- A commit point that no imprecise fault takes the place of publishes once. -/
theorem State.commit_eq {s : State} (h : s.mayCommit) : s.commit s.cur = .ok s.committed := by
  unfold State.commit State.committed
  split
  · rfl
  · next hp =>
    rcases h with h | h
    · exact absurd h hp
    · rw [h]

/-- Completing an instruction of a firing of one context changes that context alone. -/
theorem State.retire_single {s : State} {w : Nat} (h : (s.ctx w).gang = false) : s.retire w = s.after w id := by
  unfold State.retire
  rw [State.members, h]
  rfl

end Sys2Proof.Machine

/-! ## MPEEK, COMMIT, FIN and YIELD -/

namespace Sys2Proof.Machine

theorem exec_mpeek (what : Peek) (d : Dst) (b e : Src) (s : State) : exec (.mpeek what d b e) s = execMpeek what d b e s := rfl
theorem exec_commit (s : State) : exec .commit s = finish s (s.commit s.cur) := rfl
theorem exec_fin (s : State) : exec .fin s = finish s (finOp s.cur s) := rfl
theorem exec_yield (s : State) : exec .yield s = finish s (if (s.ctx s.cur).yreq then finOp s.cur s else .ok s) := rfl

/-! ### MPEEK -/

/-- An imprecise fault recorded against the instruction in progress is the last of its context (R382). -/
theorem State.note_eq {s : State} {w : Nat} (hk : (s.ctx w).kind ≠ .none) (code detail : Nat) (va : Word) :
    ∃ f : Imprecise, s.note w code detail va = s.onCtx w (fun c => { c with imprec := c.imprec ++ [f] }) ∧ f.code = code ∧ f.detail = detail :=
  ⟨{ code := code, detail := detail, va := va, pc := (s.ctx w).pc, icnt := (s.ctx w).icnt,
     order := ((s.members (w - 4 * (s.ctx w).gidx)).map (fun m => (s.ctx m).imprec.length)).sum },
   by rw [State.note, State.imprecise, if_pos ⟨rfl, hk⟩]; rfl, rfl, rfl⟩

/-- Context `w` may peek into mailbox `mb` of its actor (R247). -/
def State.peeks (s : State) (w mb : Nat) : Prop :=
  (s.ctx w).kind = .actor ∧ mb ≤ 3 ∧ (s.mbox (w / 4) (s.ctx w).slot mb).en = true

theorem localPA_add (gc a k : Nat) : localPA gc (a + k) = localPA gc a + k := by unfold localPA; omega

theorem not_peeks (s : State) (w mb : Nat) :
    (3 < mb ∨ (s.ctx w).kind ≠ .actor ∨ (s.mbox (w / 4) (s.ctx w).slot mb).en = false) ↔ ¬ s.peeks w mb := by
  unfold State.peeks
  generalize s.mbox (w / 4) (s.ctx w).slot mb = m
  simp only [not_and_or, Nat.not_le, ne_eq, Bool.not_eq_true]
  tauto

theorem not_peeks_or (s : State) (w mb pos : Nat) :
    (3 < mb ∨ (s.ctx w).kind ≠ .actor ∨ (s.mbox (w / 4) (s.ctx w).slot mb).en = false ∨ (s.mbox (w / 4) (s.ctx w).slot mb).count ≤ pos) ↔
      ¬ (s.peeks w mb ∧ pos < (s.mbox (w / 4) (s.ctx w).slot mb).count) := by
  rw [not_and_or, ← not_peeks, Nat.not_lt, or_assoc, or_assoc]

theorem peekAt_eq (s : State) (w : Nat) (what : Peek) (mb pos : Nat) [Decidable (s.peeks w mb)] : s.peekAt w what mb pos =
    (peekWord what).bind (fun k => if s.peeks w mb ∧ pos < (s.mbox (w / 4) (s.ctx w).slot mb).count then
      some ((s.mbox (w / 4) (s.ctx w).slot mb).entry ((s.mbox (w / 4) (s.ctx w).slot mb).head + pos) + 8 * k) else none) := by
  simp only [State.peekAt, coreOf]
  have hd := not_peeks_or s w mb pos
  cases peekWord what with
  | none => rfl
  | some k =>
    rw [Option.bind_some]
    by_cases h : s.peeks w mb ∧ pos < (s.mbox (w / 4) (s.ctx w).slot mb).count
    · rw [if_pos h]; exact if_neg fun hn => hd.1 hn h
    · rw [if_neg h]; exact if_pos (hd.2 h)

/-- A word that MPEEK reads is one of an actor's mailbox. -/
theorem peekAt_kind {s : State} {w mb pos a : Nat} {what : Peek} (h : s.peekAt w what mb pos = some a) : (s.ctx w).kind = .actor := by
  classical
  rw [peekAt_eq, Option.bind_eq_some_iff] at h
  obtain ⟨k, _, hk⟩ := h
  split at hk
  · next hp => exact hp.1.1
  · cases hk

theorem readWord_of_good {s : State} {w : Nat} {at_ : Option Nat}
    (h : ¬ ∃ a, at_ = some a ∧ s.badWord (localPA (w / 4) a) = true) : s.readWord w at_ = s := by
  cases at_ with
  | none => rfl
  | some a =>
    have ha : s.badWord (localPA (coreOf w) a) = false := by
      rw [Bool.eq_false_iff]; exact fun hb => h ⟨a, rfl, hb⟩
    simp only [State.readWord, ha, Bool.false_eq_true, if_false]

/-- The count that MPEEK reads, 0 where there is no mailbox. -/
theorem peekMb_cnt (s : State) (w mb pos : Nat) [Decidable (s.peeks w mb)] :
    s.peekMb w .cnt mb pos = BitVec.ofNat 64 (if s.peeks w mb then (s.mbox (w / 4) (s.ctx w).slot mb).count else 0) := by
  have hd := not_peeks s w mb
  simp only [State.peekMb, coreOf]
  by_cases h : s.peeks w mb
  · rw [if_pos h]; exact if_neg fun hn => hd.1 hn h
  · rw [if_neg h]; exact if_pos (hd.2 h)

/-- The word of an entry that MPEEK reads, 0 where there is no entry. -/
theorem peekMb_word (s : State) (w mb pos : Nat) {what : Peek} {k : Nat} (hk : peekWord what = some k) [Decidable (s.peeks w mb)] :
    s.peekMb w what mb pos = BitVec.ofNat 64 (if s.peeks w mb ∧ pos < (s.mbox (w / 4) (s.ctx w).slot mb).count then
      s.rd64 (localPA (w / 4) ((s.mbox (w / 4) (s.ctx w).slot mb).entry ((s.mbox (w / 4) (s.ctx w).slot mb).head + pos)) + 8 * k) else 0) := by
  have hp : s.peekMb w what mb pos = (match s.peekAt w what mb pos with
      | some a => BitVec.ofNat 64 (s.rd64 (localPA (coreOf w) a))
      | none => 0) := by
    cases what with
    | cnt => cases hk
    | _ => rfl
  rw [hp, peekAt_eq, hk, Option.bind_some]
  split
  · next hs =>
    split at hs
    · next hc =>
      obtain rfl := Option.some.inj hs
      rw [if_pos hc, coreOf, localPA_add]
    · cases hs
  · next hs =>
    split at hs
    · cases hs
    · next hc => rw [if_neg hc]; rfl

/-- The value of MPEEK: the count, or a word of the entry, or 0 where there is none (R247). -/
theorem peekMb_value (s : State) (w : Nat) (what : Peek) (mb pos : Nat) :
    let m := s.mbox (w / 4) (s.ctx w).slot mb
    let at_ := localPA (w / 4) (m.entry (m.head + pos))
    ∃ v, s.peekMb w what mb pos = BitVec.ofNat 64 v ∧ (¬ s.peeks w mb → v = 0) ∧ (s.peeks w mb → what = .cnt → v = m.count) ∧
      (s.peeks w mb → what ≠ .cnt → m.count ≤ pos → v = 0) ∧ (s.peeks w mb → pos < m.count → what = .hdr → v = s.rd64 at_) ∧
      (s.peeks w mb → pos < m.count → what = .arg0 → v = s.rd64 (at_ + 16)) ∧
      (s.peeks w mb → pos < m.count → what = .arg1 → v = s.rd64 (at_ + 24)) := by
  classical
  intro m at_
  have hword : ∀ k, peekWord what = some k → ∃ v, s.peekMb w what mb pos = BitVec.ofNat 64 v ∧ (¬ s.peeks w mb → v = 0) ∧
      (s.peeks w mb → m.count ≤ pos → v = 0) ∧ (s.peeks w mb → pos < m.count → v = s.rd64 (at_ + 8 * k)) := fun k hk =>
    ⟨_, peekMb_word s w mb pos hk, fun h => if_neg fun hc => h hc.1, fun _ h => if_neg fun hc => absurd hc.2 (Nat.not_lt.2 h),
      fun h hc => if_pos ⟨h, hc⟩⟩
  cases what with
  | cnt =>
    exact ⟨_, peekMb_cnt s w mb pos, fun h => if_neg h, fun h _ => if_pos h, fun _ h => absurd rfl h, fun _ _ h => (nomatch h),
      fun _ _ h => (nomatch h), fun _ _ h => (nomatch h)⟩
  | hdr =>
    obtain ⟨v, hv, h0, h1, h2⟩ := hword 0 rfl
    rw [Nat.mul_zero, Nat.add_zero] at h2
    exact ⟨v, hv, h0, fun _ h => (nomatch h), fun h _ => h1 h, fun h hc _ => h2 h hc, fun _ _ h => (nomatch h), fun _ _ h => (nomatch h)⟩
  | arg0 =>
    obtain ⟨v, hv, h0, h1, h2⟩ := hword 2 rfl
    exact ⟨v, hv, h0, fun _ h => (nomatch h), fun h _ => h1 h, fun _ _ h => (nomatch h), fun h hc _ => h2 h hc, fun _ _ h => (nomatch h)⟩
  | arg1 =>
    obtain ⟨v, hv, h0, h1, h2⟩ := hword 3 rfl
    exact ⟨v, hv, h0, fun _ h => (nomatch h), fun h _ => h1 h, fun _ _ h => (nomatch h), fun _ _ h => (nomatch h), fun h hc _ => h2 h hc⟩

/-- MPEEK on a state whose word is good or bad: every context of the firing gets the value that the lead core reads. -/
theorem mpeek_completes (what : Peek) (d : Dst) (b e : Src) (s : State)
    (hgood : ¬ ∃ a, s.peekAt s.cur what ((s.ctx s.cur).src b).toNat ((s.ctx s.cur).src e).toNat = some a ∧
      s.badWord (localPA (s.cur / 4) a) = true) :
    Completes (.mpeek what d b e) s (fun k x =>
      x = { scalars := k.writes d (s.peekMb s.cur what ((s.ctx s.cur).src b).toNat ((s.ctx s.cur).src e).toNat) }) := by
  refine eachCtx_completes s _ (fun c => ?_) _ _ (by rw [exec_mpeek, execMpeek, readWord_of_good hgood]) fun c => ⟨_, rfl, Ctx.dst_on c d _⟩
  rw [Ctx.dst_eq]

theorem mpeek_bad (what : Peek) (d : Dst) (b e : Src) (s : State)
    (hbad : ∃ a, s.peekAt s.cur what ((s.ctx s.cur).src b).toNat ((s.ctx s.cur).src e).toNat = some a ∧
      s.badWord (localPA (s.cur / 4) a) = true) :
    ∃ (t : State) (f : Imprecise), exec (.mpeek what d b e) s = .next t ∧ (t.ctx s.cur).imprec = (s.ctx s.cur).imprec ++ [f] ∧
      f.code = 0x10 ∧ f.detail = 2 := by
  obtain ⟨a, ha, hb⟩ := hbad
  have hk : (s.ctx s.cur).kind ≠ .none := by rw [peekAt_kind ha]; simp
  obtain ⟨f, hf, hcode, hdetail⟩ := State.note_eq hk 0x10 2 (BitVec.ofNat 64 a)
  have hread : s.readWord s.cur (some a) = s.onCtx s.cur (fun c => { c with imprec := c.imprec ++ [f] }) := by
    have hb' : s.badWord (localPA (coreOf s.cur) a) = true := hb
    simp only [State.readWord, hb', if_true, hf]
  obtain ⟨t, ht, _, hctx⟩ := eachCtx_spec (s.onCtx s.cur (fun c => { c with imprec := c.imprec ++ [f] }))
    (fun c => c.dst d (s.peekMb s.cur what ((s.ctx s.cur).src b).toNat ((s.ctx s.cur).src e).toNat))
    (fun c => by rw [Ctx.dst_eq])
  refine ⟨t, f, ?_, ?_, hcode, hdetail⟩
  · rw [exec_mpeek, execMpeek, ← ht, ← hread, ha]
  · have hcur := hctx s.cur
    rw [State.onCtx_cur, if_pos (State.mem_members_self _ _), Ctx.dst_eq, State.onCtx_ctx, if_pos rfl] at hcur
    rw [hcur]; rfl

/-! ### Completion notices -/

/-- Queueing notices adds their packets to the network interface of the core, and changes beside it the core's count of them. -/
theorem queueNotices_spec (w : Nat) (l : List Pkt) : ∀ s : State,
    (∃ c n u, s.queueNotices w l = { s with cores := c, net := n, uid := u }) ∧
    (s.queueNotices w l).net.map (fun e => e.p) = s.net.map (fun e => e.p) ++ l ∧
    ∀ j, ∃ n, (s.queueNotices w l).core j = { s.core j with notq := n } := by
  induction l with
  | nil => exact fun s => ⟨⟨_, _, _, rfl⟩, by simp [State.queueNotices], fun _ => ⟨_, rfl⟩⟩
  | cons p l ih =>
    intro s
    obtain ⟨⟨c, n, u, h⟩, hnet, hcore⟩ := ih (State.fresh { s.onCore (coreOf w) (fun k => { k with notq := k.notq + 1 }) with
      net := s.net ++ [{ uid := s.uid, core := coreOf w, part := (s.ctx w).part, w := none, pair := none, p := p, tries := 0,
                         st := .ready, redir := false, gate := s.gateNow w, nq := true, host := none }] })
    refine ⟨⟨c, n, u, h⟩, hnet.trans (by simp), fun j => ?_⟩
    obtain ⟨q, hq⟩ := hcore j
    have h1 : ∃ q, (s.onCore (coreOf w) (fun k => { k with notq := k.notq + 1 })).core j = { s.core j with notq := q } := by
      rw [State.onCore_core]
      split
      · next hj => subst hj; exact ⟨_, rfl⟩
      · exact ⟨_, rfl⟩
    obtain ⟨r, hr⟩ := h1
    refine ⟨q, hq.trans ?_⟩
    change { (s.onCore (coreOf w) (fun k => { k with notq := k.notq + 1 })).core j with notq := q } = _
    rw [hr]

/-! ### FIN -/

/-- FIN behind its commit point. -/
theorem finOp_eq {s : State} (h : s.pendingFault s.cur = none) : finOp s.cur s =
    (let p := s.committed
     let ns := (p.ctx s.cur).owes
     let room := 32 - (p.core (s.cur / 4)).notq
     let q := p.queueNotices s.cur (ns.take room)
     if room < ns.length then .error (.wait (q.onCtx s.cur (fun c => { c with owed := some (ns.drop room) }))) else .ok (q.cutShort s.cur)) := by
  simp only [finOp, h, State.commit_eq (.inr h)]
  rfl

/-- The end of a firing by FIN, once its notices are queued (R244). -/
theorem fin_ends {p : State} {w : Nat} (hg : (p.ctx w).gang = false) (ns : List Pkt) :
    let t := ((p.queueNotices w ns).cutShort w).retire w
    (t.ctx w).phase = .free ∧ (t.ctx w).kind = .none ∧ (t.ctx w).log = [] ∧
      ((p.ctx w).kind = .actor → (p.sched (w / 4) (p.ctx w).slot).st ≠ .leaving → (t.sched (w / 4) (p.ctx w).slot).st = .idle) ∧
      t.net.map (fun e => e.p) = p.net.map (fun e => e.p) ++ ns ∧ t.mem = p.mem ∧ ∀ j, j ≠ w → t.ctx j = p.ctx j := by
  obtain ⟨⟨c, n, u, hq⟩, hnet, hcore⟩ := queueNotices_spec w ns p
  have hctx : (p.queueNotices w ns).ctx = p.ctx := by rw [hq]; rfl
  have hsched : ∀ k, (p.queueNotices w ns).sched (w / 4) k = p.sched (w / 4) k := fun k => by
    obtain ⟨m, hm⟩ := hcore (w / 4)
    exact State.sched_congr (by rw [hm]) k
  have hmem : (p.queueNotices w ns).mem = p.mem := by rw [hq]
  generalize p.queueNotices w ns = v at hnet hctx hsched hmem ⊢
  intro t
  have hm : v.members w = [w] := by simp [State.members, hctx, hg]
  obtain ⟨⟨a, b, k, hframe⟩, hcut⟩ := cutShort_spec v w
  simp only [hm, List.mem_singleton, hctx] at hcut
  have hret : t = (v.cutShort w).after w id := State.retire_single (by rw [hcut, if_pos rfl]; rfl)
  have hw : t.ctx w = ((p.ctx w).freed v.now).retired := by rw [hret, State.after, State.onCtx_ctx, if_pos rfl, hcut, if_pos rfl]; rfl
  rw [hw]
  refine ⟨rfl, rfl, rfl, fun hk hst => ?_, ?_, ?_, fun j hj => ?_⟩
  · rw [← hctx] at hk hst ⊢
    obtain ⟨e, he⟩ := (cutShort_actor hk).sched (w / 4) (v.ctx w).slot
    rw [hret, State.after]
    change ((v.cutShort w).sched (w / 4) (v.ctx w).slot).st = .idle
    rw [he, if_pos ⟨rfl, rfl⟩]
    exact if_neg (by rw [hsched]; exact hst)
  · rw [hret, State.after, State.onCtx_net, hframe, ← hnet]
  · rw [hret, State.after, State.onCtx_mem, hframe, ← hmem]
  · rw [hret, State.after, State.onCtx_ctx, if_neg hj, hcut, if_neg hj]

theorem committed_gang {s : State} (h : s.single) : (s.committed.ctx s.cur).gang = false := by
  rw [(State.Pub.committed s).gang]; exact h

/-- Settles O39, form by form. -/
theorem firingEnds : Obligations.FiringEnds := by
  refine ⟨fun what d b e s => ⟨fun hbad => mpeek_bad what d b e s hbad, fun hgood => ?_⟩, fun s hs hc => ⟨?_, ?_, ?_⟩,
    fun s f _ hf => ?_, fun s hs hn => ⟨fun hroom i hi => ?_, fun hroom => ?_⟩, fun s hs hy => ?_⟩
  · obtain ⟨v, hv, habs, hcnt, hnone, hhdr, harg0, harg1⟩ :=
      peekMb_value s s.cur what ((s.ctx s.cur).src b).toNat ((s.ctx s.cur).src e).toNat
    obtain ⟨t, ht, hframe, hother, hctx⟩ := mpeek_completes what d b e s hgood
    refine ⟨t, ht, hframe, hother, fun w hw => ?_⟩
    obtain ⟨x, hx, hon⟩ := hctx w hw
    exact ⟨x, ⟨v, by rw [hx, hv], habs, hcnt, hnone, hhdr, harg0, harg1⟩, hon⟩
  · rw [exec_commit, State.commit_eq hc, finish, State.retire_single (committed_gang hs)]
  · exact (State.publish_empties hs).1
  · exact (State.publish_empties hs).2.1
  · simp only [exec_fin, finOp, hf, finish]
  · have hfin : exec .fin s = .next (((s.committed.queueNotices s.cur (s.committed.ctx s.cur).owes).cutShort s.cur).retire s.cur) := by
      have hlt : ¬ 32 - (s.committed.core (s.cur / 4)).notq < (s.committed.ctx s.cur).owes.length := Nat.not_lt.2 hroom
      simp only [exec_fin, finOp_eq hn, if_neg hlt, finish, List.take_of_length_le (Nat.not_lt.1 hlt)]
    have hyield : exec i s = exec .fin s := by
      rcases hi with rfl | ⟨rfl, hy⟩
      · rfl
      · rw [exec_yield, if_pos hy, exec_fin]
    exact ⟨_, hyield.trans hfin, fin_ends (committed_gang hs) _⟩
  · have hlt : 32 - (s.committed.core (s.cur / 4)).notq < (s.committed.ctx s.cur).owes.length := hroom
    obtain ⟨⟨c, n, u, hq⟩, hnet, _⟩ := queueNotices_spec s.cur ((s.committed.ctx s.cur).owes.take (32 - (s.committed.core (s.cur / 4)).notq))
      s.committed
    have hwait : exec .fin s = .next ((s.committed.queueNotices s.cur
        ((s.committed.ctx s.cur).owes.take (32 - (s.committed.core (s.cur / 4)).notq))).onCtx s.cur
          (fun c => { c with owed := some ((s.committed.ctx s.cur).owes.drop (32 - (s.committed.core (s.cur / 4)).notq)) })) := by
      rw [exec_fin, finOp_eq hn]; exact congrArg (finish s) (if_pos hlt)
    refine ⟨_, hwait, ?_, ?_, ?_, fun w hw => ?_⟩
    · rw [State.onCtx_ctx, if_pos rfl, hq]; rfl
    · exact hnet
    · rw [State.onCtx_mem, hq]
    · rw [State.onCtx_ctx, if_neg hw, hq]; rfl
  · rw [exec_yield, hy, if_neg (by simp), finish, State.retire_single hs]

end Sys2Proof.Machine

/-! ## Memory operands: what resolving and reading them depends on -/

namespace Sys2Proof.Machine

/-! ### States that look alike to one context's local path -/

/-- `t` is as `s` to the local path of context `w`: contexts, queued stores, names and grant pointers of ports may differ, but not context
`w` itself. -/
structure Near (w : Nat) (s t : State) : Prop where
  frame : ∃ a b c d, t = { s with ctxs := a, cores := b, wq := c, uid := d }
  core : ∀ g, ∃ p, t.core g = { s.core g with subPtr := p }
  ctx : t.ctx w = s.ctx w

theorem Near.refl (w : Nat) (s : State) : Near w s s := ⟨⟨_, _, _, _, rfl⟩, fun _ => ⟨_, rfl⟩, rfl⟩

namespace Near

variable {w : Nat} {s t : State}

theorem mem (h : Near w s t) : t.mem = s.mem := by obtain ⟨_, _, _, _, rfl⟩ := h.frame; rfl
theorem region (h : Near w s t) : t.region = s.region := by obtain ⟨_, _, _, _, rfl⟩ := h.frame; rfl
theorem poisoned (h : Near w s t) : t.poisoned = s.poisoned := by obtain ⟨_, _, _, _, rfl⟩ := h.frame; rfl
theorem badWord (h : Near w s t) : t.badWord = s.badWord := by obtain ⟨_, _, _, _, rfl⟩ := h.frame; rfl
theorem origin (h : Near w s t) : t.origin w = s.origin w := by simp only [State.origin, h.ctx]
theorem sat (h : Near w s t) (g : Nat) : (t.core g).sat = (s.core g).sat := by obtain ⟨p, hp⟩ := h.core g; rw [hp]
theorem bank (h : Near w s t) (g k : Nat) : (t.core g).bank k = (s.core g).bank k := by obtain ⟨p, hp⟩ := h.core g; rw [hp]; rfl
theorem localCore (h : Near w s t) (a : Nat) : t.localCore w a = s.localCore w a := by simp only [State.localCore, h.ctx]

theorem localOk (h : Near w s t) (g x : Nat) (wr : Bool) (a : Nat) :
    localOk (t.ctx w) (t.core g) x wr a = localOk (s.ctx w) (s.core g) x wr a := by
  obtain ⟨p, hp⟩ := h.core g
  rw [hp, h.ctx]; rfl

theorem allocOf (h : Near w s t) (base : Word) : t.allocOf w base = s.allocOf w base := by
  simp only [State.allocOf, h.ctx, h.sat]

theorem bankOf (h : Near w s t) (sp : MSpace) (base : Word) (off : Int) : t.bankOf w sp base off = s.bankOf w sp base off := by
  simp only [State.bankOf, h.localCore, h.allocOf]

theorem bankFmt (h : Near w s t) (ty : Option Ty) (sp : MSpace) (base : Word) (off : Int) :
    t.bankFmt w ty sp base off = s.bankFmt w ty sp base off := by
  simp only [State.bankFmt, h.bankOf, h.bank]

/-- Local bytes whose copies are complete, resolved again. -/
theorem whenCopied (h : Near w s t) {l l' : List RByte} (hs : s.whenCopied w l = .ok l') : t.whenCopied w l = .ok l' := by
  unfold State.whenCopied at hs ⊢
  rw [h.ctx]
  split at hs
  · cases hs
  · next hc => rw [if_neg hc]; exact hs

theorem resolveL (h : Near w s t) {a n al : Nat} {wr : Bool} {l : List RByte} (hs : s.resolveL w a n al wr = .ok l) :
    t.resolveL w a n al wr = .ok l := by
  simp only [State.resolveL, h.localOk, h.localCore] at hs ⊢
  split at hs
  · cases hs
  · next h1 =>
    rw [if_neg h1]
    split at hs
    · cases hs
    · next h2 =>
      rw [if_neg h2]
      split at hs
      · cases hs
      · exact h.whenCopied hs

theorem resolveA (h : Near w s t) {base : Word} {o : Int} {n al : Nat} {l : List RByte} (hs : s.resolveA w base o n al = .ok l) :
    t.resolveA w base o n al = .ok l := by
  simp only [State.resolveA, h.allocOf] at hs ⊢
  split at hs
  · cases hs
  · next h1 =>
    rw [if_neg h1]
    split at hs
    · cases hs
    · split at hs
      · exact h.whenCopied hs
      · cases hs

/-- A local operand resolves in `t` as it does in `s`, and leaves the state as it is. -/
theorem resolve (h : Near w s t) {sp : MSpace} (hsp : sp ≠ .g) {base : Word} {off : Int} {n al : Nat} {acc : Access} {u : State}
    {l : List RByte} (hs : s.resolve w sp base off n al acc = .ok (u, l)) : t.resolve w sp base off n al acc = .ok (t, l) := by
  cases sp with
  | g => exact absurd rfl hsp
  | l =>
    simp only [State.resolve] at hs ⊢
    split at hs
    · next l' hl => cases hs; rw [h.resolveL hl]
    · cases hs
  | a =>
    simp only [State.resolve] at hs ⊢
    split at hs
    · next l' hl => cases hs; rw [h.resolveA hl]
    · cases hs

end Near


/-! ### Bytes as a context reads them -/

/-- Two states that hold the same memory and the same control blocks. -/
structure Alike (s t : State) : Prop where
  mem : t.mem = s.mem
  present : t.present = s.present
  core : ∀ g, ∃ p, t.core g = { s.core g with subPtr := p }
  clu : ∀ j, t.clu j = s.clu j

theorem Near.alike {w : Nat} {s t : State} (h : Near w s t) : Alike s t := by
  refine ⟨h.mem, ?_, h.core, ?_⟩
  · obtain ⟨_, _, _, _, rfl⟩ := h.frame; rfl
  · obtain ⟨_, _, _, _, rfl⟩ := h.frame; exact fun _ => rfl

namespace Alike

variable {s t : State}

theorem region (h : Alike s t) : t.region = s.region := by funext pa; simp only [State.region, h.present]

theorem rdByte (h : Alike s t) : t.rdByte = s.rdByte := by funext pa; simp only [State.rdByte, h.mem]

theorem ctlWord (h : Alike s t) (cl off : Nat) : t.ctlWord cl off = s.ctlWord cl off := by
  obtain ⟨p, hp⟩ := h.core (8 * cl + (off - 0x40) / 8)
  simp only [State.ctlWord, h.clu, hp]

theorem onClu (h : Alike s t) (cl : Nat) (f : Cluster → Cluster) : Alike (s.onClu cl f) (t.onClu cl f) :=
  ⟨h.mem, h.present, h.core, fun j => by simp only [State.onClu_clu, h.clu]⟩

theorem writeCfg (h : Alike s t) (gc v : Nat) : Alike (s.writeCfg gc v) (t.writeCfg gc v) := by
  obtain ⟨p, hp⟩ := h.core gc
  have hu : (t.core gc).userResident = (s.core gc).userResident := by rw [hp]; rfl
  simp only [State.writeCfg, hu]
  split
  · refine ⟨h.mem, h.present, fun g => ?_, h.clu⟩
    obtain ⟨q, hq⟩ := h.core g
    simp only [State.onCore_core]
    split
    · next hg => subst hg; exact ⟨q, by rw [hq]⟩
    · exact ⟨q, hq⟩
  · exact h

theorem writeCtl (h : Alike s t) (cl off v : Nat) : Alike (s.writeCtl cl off v) (t.writeCtl cl off v) := by
  unfold State.writeCtl
  split
  · exact h.onClu ..
  · split
    · exact h.writeCfg ..
    · split
      · exact h.onClu ..
      · split
        · exact h.onClu ..
        · exact h

theorem storeCtl (n : Nat) : ∀ {s t : State} (_ : Alike s t) (cl off : Nat) (bs : List Byte), Alike (s.storeCtl cl off n bs) (t.storeCtl cl off n bs) := by
  induction n with
  | zero => exact fun h _ _ _ => h
  | succ n ih =>
    intro s t h cl off bs
    cases bs with
    | nil => exact h
    | cons b bs =>
      simp only [State.storeCtl, h.ctlWord]
      exact ih (h.writeCtl ..) ..

theorem rdAny (h : Alike s t) (pa : Nat) : t.rdAny pa = s.rdAny pa := by
  simp only [State.rdAny, h.region, h.ctlWord, h.rdByte]

theorem portByte (h : Alike s t) (gc a : Nat) (x b : Byte) : t.portByte gc a x b = s.portByte gc a x b := by
  obtain ⟨p, hp⟩ := h.core gc
  simp only [State.portByte, hp]

/-- What stores on their way make of the control blocks is alike in alike states. -/
theorem foldCtl (q : Stores) : ∀ {s t : State}, Alike s t →
    Alike (q.foldl (fun s x => match s.region x.1 with | .ctl cl off => s.storeCtl cl off 9 x.2 | _ => s) s)
      (q.foldl (fun s x => match s.region x.1 with | .ctl cl off => s.storeCtl cl off 9 x.2 | _ => s) t) := by
  induction q with
  | nil => exact fun h => h
  | cons x q ih =>
    intro s t h
    simp only [List.foldl_cons, h.region]
    refine ih ?_
    split
    · exact storeCtl 9 h ..
    · exact h

theorem byteWith (h : Alike s t) (q : Stores) (pa : Nat) : t.byteWith q pa = s.byteWith q pa := by
  unfold State.byteWith
  rw [h.region, h.rdByte]
  split
  · exact (h.foldCtl q).rdAny pa
  · simp only [h.portByte]
  · rfl

end Alike

/-- A context reads the same bytes while no store has been queued. -/
theorem Near.readBytes {w : Nat} {s t : State} (h : Near w s t) (hq : t.wq = s.wq) (l : List RByte) : t.readBytes w l = s.readBytes w l := by
  have hb : ∀ pa, t.ownByte w pa = s.ownByte w pa := fun pa => by
    simp only [State.ownByte, State.coreStores, State.storesOf, State.entered, hq, h.ctx, h.alike.byteWith]
  simp only [State.readBytes, hb]

end Sys2Proof.Machine

/-! ## LD and LDV -/

namespace Sys2Proof.Machine

/-! ### Instructions that change single contexts and some shared parts -/

/-- An instruction whose single runs change their own context, as `Q` says of it, and shared parts, as `F` says: it completes, and each
context then goes on. -/
theorem each_frame {s : State} {f : Nat → State → Except Stop State} (F : State → Prop) (Q : Nat → Ctx → Prop) (h0 : F s)
    (hgang : ∀ m ∈ s.members s.cur, ∀ c, Q m c → c.gang = (s.ctx m).gang)
    (hstep : ∀ m ∈ s.members s.cur, ∀ t, F t → t.ctx m = s.ctx m →
      ∃ t', f m t = .ok t' ∧ F t' ∧ (∀ j, j ≠ m → t'.ctx j = t.ctx j) ∧ Q m (t'.ctx m)) :
    ∃ u v, each s f = .next v ∧ F u ∧ v = { u with ctxs := v.ctxs } ∧ (∀ w, w ∉ s.members s.cur → v.ctx w = s.ctx w) ∧
      ∀ w ∈ s.members s.cur, Q w (u.ctx w) ∧ v.ctx w = (u.ctx w).retired := by
  obtain ⟨u, hu, hF, hother, hdone⟩ := each_induct (s := s) (f := f)
    (fun done t => F t ∧ (∀ j, j ∉ done → t.ctx j = s.ctx j) ∧ ∀ j ∈ done, Q j (t.ctx j))
    ⟨h0, fun _ _ => rfl, fun _ h => by cases h⟩ (fun done m t hm hd ⟨hF, hother, hdone⟩ => by
      obtain ⟨t', ht', hF', hk, hq⟩ := hstep m hm t hF (hother m hd)
      refine ⟨t', ht', hF', fun j hj => ?_, fun j hj => ?_⟩
      · simp only [List.mem_append, List.mem_singleton, not_or] at hj
        rw [hk j hj.2, hother j hj.1]
      · by_cases hjm : j = m
        · subst hjm; exact hq
        · rw [hk j hjm]; exact hdone j (by simpa [hjm] using hj))
  have hg : (u.ctx s.cur).gang = (s.ctx s.cur).gang := hgang _ (s.mem_members_self _) _ (hdone _ (s.mem_members_self _))
  obtain ⟨hr, hrc⟩ := State.retire_of_gang hg
  exact ⟨u, _, hu, hF, hr, fun w hw => by rw [hrc, if_neg hw, hother w hw], fun w hw => ⟨hdone w hw, by rw [hrc, if_pos hw]⟩⟩

/-- What is left of a state whose contexts and grant pointers may have changed. -/
structure Granted (s t : State) : Prop where
  frame : ∃ a b, t = { s with ctxs := a, cores := b }
  core : ∀ g, ∃ p, t.core g = { s.core g with subPtr := p }

theorem Granted.refl (s : State) : Granted s s := ⟨⟨_, _, rfl⟩, fun _ => ⟨_, rfl⟩⟩

theorem Granted.near {w : Nat} {s t : State} (h : Granted s t) (hc : t.ctx w = s.ctx w) : Near w s t ∧ t.wq = s.wq := by
  obtain ⟨⟨a, b, rfl⟩, hcore⟩ := h
  exact ⟨⟨⟨a, b, _, _, rfl⟩, hcore, hc⟩, rfl⟩

theorem Granted.onCtx {s t : State} (h : Granted s t) (w : Nat) (f : Ctx → Ctx) : Granted s (t.onCtx w f) := by
  obtain ⟨⟨a, b, rfl⟩, hcore⟩ := h
  exact ⟨⟨_, b, rfl⟩, hcore⟩

/-- The grants of a local read move grant pointers alone. -/
theorem Granted.grantRead {s : State} (w : Nat) (l : List RByte) : ∀ (t : State) (p : Option Nat), Granted s t →
    Granted s (t.grantRead w l p) ∧ (t.grantRead w l p).ctx = t.ctx := by
  induction l with
  | nil => exact fun t _ h => ⟨h, rfl⟩
  | cons b l ih =>
    intro t p h
    cases b with
    | guard _ _ => exact ih t p h
    | mem pa hb cls =>
      unfold State.grantRead
      split
      · exact ih t p h
      · split
        next gc a _ =>
          refine ih _ _ ?_
          obtain ⟨⟨x, y, rfl⟩, hcore⟩ := h
          refine ⟨⟨x, _, rfl⟩, fun g => ?_⟩
          obtain ⟨q, hq⟩ := State.grant_core { s with ctxs := x, cores := y } gc a 1 (w % 4) g
          obtain ⟨r, hr⟩ := hcore g
          exact ⟨q, by rw [hq, hr]⟩
        · exact ih t p h

/-! ### Reading local bytes -/

theorem firstGuard_of_clean {s : State} {l : List RByte} (h : cleanBytes s l) : ∀ i, firstGuard l i = none := by
  induction l with
  | nil => exact fun _ => rfl
  | cons b l ih =>
    obtain ⟨pa, hb, cls, rfl, _⟩ := h b (by simp)
    exact fun i => ih (fun x hx => h x (by simp [hx])) (i + 1)

/-- A read of clean bytes records nothing but the grants of the ports. -/
theorem touchLocal_of_clean {w : Nat} {s t : State} (h : Near w s t) {l : List RByte} (hc : cleanBytes s l) (o : Int) :
    t.touchLocal w o l = t.grantRead w l none := by
  have hp : ∀ b ∈ l, ∃ pa hb cls, b = .mem pa hb cls ∧ t.poisoned pa = false ∧ t.badWord pa = false := fun b hb => by
    obtain ⟨pa, x, y, rfl, hx⟩ := hc b hb
    refine ⟨pa, x, y, rfl, by rw [h.poisoned, hx], ?_⟩
    rw [h.badWord]
    simp only [State.poisoned, Bool.or_eq_false_iff] at hx
    exact hx.2
  have h1 : ¬ l.any (fun b => match b with | .mem pa _ _ => t.badWord pa | .guard _ _ => false) := by
    simp only [List.any_eq_true, not_exists, not_and]
    intro b hb
    obtain ⟨pa, x, y, rfl, _, h2⟩ := hp b hb
    simp [h2]
  have h2 : ¬ l.any (fun b => match b with | .mem pa _ _ => t.poisoned pa | .guard _ _ => false) := by
    simp only [List.any_eq_true, not_exists, not_and]
    intro b hb
    obtain ⟨pa, x, y, rfl, h2, _⟩ := hp b hb
    simp [h2]
  have hq : t.touchPoison w (BitVec.ofInt 64 o) l = t := by
    unfold State.touchPoison
    exact (if_neg h1).trans (if_neg h2)
  simp only [State.touchLocal, State.touchGuard, firstGuard_of_clean hc, hq]

/-- Register writes of a `.raw` LD, as an effect (R195). -/
theorem Ctx.pair_on (c : Ctx) (n : Nat) (x y : Word) :
    Effect.On { scalars := [(n, x), (n + 1, y)] } c ((c.setSreg n x).setSreg (n + 1) y).retired := by
  refine ⟨fun k => ?_, fun _ => rfl, fun _ => rfl, fun _ => rfl, ?_, rfl, rfl⟩
  · change ((c.setSreg n x).setSreg (n + 1) y).sreg k = _
    by_cases h : k = n
    · subst h; simp
    · simp [h]
  · simp [Ctx.retired, Ctx.setSreg]

/-- Types that memory instructions move have lanes of whole bytes (R195, R197). -/
theorem width_of_isAny {t : Ty} (h : t.isAny = true) : 8 ≤ t.width := by revert h; cases t <;> decide

/-- What an LDV leaves of its register, lane by lane, and its flags (R197). -/
theorem mergeLanesTo_spec (n w : Nat) (mask : Word) (old : VWord) (f : Nat → Nat × Nat) (hw : 8 ≤ w) :
    (∀ i < 512 / w, elem w i (ldvMerge.mergeLanesTo n w mask old f).1 =
      if i < n ∧ elemOn mask w i = true then (f i).1 % 2 ^ w else elem w i old) ∧
    flagsOf (512 / w) (ldvMerge.mergeLanesTo n w mask old f).2 (fun i => decide (i < n) && elemOn mask w i) (fun i => (f i).2) := by
  constructor
  · intro i hi
    rw [← vlane_eq, vlane]
    simp only [ldvMerge.mergeLanesTo]
    generalize hl : (List.map (fun x : Nat × Nat => x.1) _) = l
    have hlen : l.length = 512 / w := by rw [← hl]; simp
    have hlt : ofLanes w l < 2 ^ 512 := lt_of_lt_of_le (ofLanes_lt w l)
      (Nat.pow_le_pow_right (by norm_num) (by rw [hlen]; exact Nat.mul_div_le 512 w))
    rw [BitVec.toNat_ofNat, Nat.mod_eq_of_lt hlt, lane_ofLanes _ _ _ (by omega)]
    subst hl
    simp only [List.getElem_map, List.getElem_range, active_eq _ _ _ hw, Bool.and_eq_true, decide_eq_true_eq]
    split
    · rfl
    · change vlane w i old % 2 ^ w = _
      rw [vlane_eq]; simp [elem]
  · intro k
    simp only [ldvMerge.mergeLanesTo, foldl_flags, Nat.zero_testBit, Bool.false_eq_true, false_or, List.mem_map, List.mem_range]
    constructor
    · rintro ⟨x, ⟨i, hi, rfl⟩, hx⟩
      rw [active_eq _ _ _ hw] at hx
      by_cases h : (decide (i < n) && elemOn mask w i) = true
      · exact ⟨i, hi, h, by simpa only [h, if_true] using hx⟩
      · simp [h] at hx
    · rintro ⟨i, hi, h, hx⟩
      exact ⟨_, ⟨i, hi, rfl⟩, by rw [active_eq _ _ _ hw, if_pos h]; exact hx⟩

end Sys2Proof.Machine

/-! ## LD and LDV: the forms (O20) -/

namespace Sys2Proof.Machine

/-! ### The two forms of a load -/

/-- `i` is an LD with these fields, with or without a displacement. -/
structure IsLd (i : Instr) (d : Dst) (a : Src) (ix : Option Src) (sc : Fin 4) (ty : Option Ty) (sp : MSpace) (pol : Policy) (D : Int) :
    Prop where
  exec : ∀ s, Machine.exec i s = each s (ldOp d a ix sc ty sp pol D)
  operand : ∀ s w, memOperand s w i =
    some ⟨sp, (s.ctx w).src a, (s.ctx w).offset ix (scaleS sc) D, (ldSize ty).1, (ldSize ty).2, pol⟩
  form : ∀ s w bs e, loadForm s w bs i e ↔ loadForm.scalar s w bs d ty e
  names : ∀ c x l, (ty.isSome ∨ ∃ n, d = .s n) → (x.dst = ldDst d ty ∧ x.addrs.map (fun p => p.1) = l.filterMap RByte.pa?) → loadNames c i x l

/-- `i` is an LDV with these fields, with or without a displacement. -/
structure IsLdv (i : Instr) (d : VDst) (a : Src) (ix : Option Src) (sc : Fin 4) (ty : Option Ty) (sp : MSpace) (pol : Policy) (m : MReg)
    (D : Int) : Prop where
  exec : ∀ s, Machine.exec i s = each s (ldvOp d a ix sc ty sp pol m D)
  operand : ∀ s w, memOperand s w i =
    let off := (s.ctx w).offset ix (scaleV sc) D
    let n := vecSize ty (s.bankFmt w ty sp ((s.ctx w).src a) off)
    some ⟨sp, (s.ctx w).src a, off, n, alignOf n, pol⟩
  form : ∀ s w bs e, loadForm s w bs i e ↔ loadForm.vector s w bs d ty sp ((s.ctx w).src a) ((s.ctx w).offset ix (scaleV sc) D) m e
  names : ∀ c x l, loadNames c i x l ↔ vectorLoad c x l d ty m
  type : ∀ t, ty = some t → t.isAny = true

/-- The operand of a scalar access as the instruction resolves it. -/
theorem memOperand_scalar (s : State) (w : Nat) (a : Src) (ix : Option Src) (sc : Fin 4) (ty : Option Ty) (sp : MSpace) (pol : Policy) (D : Int) :
    memOperand.scalar s w a ix sc ty sp pol D =
      some ⟨sp, (s.ctx w).src a, (s.ctx w).offset ix (scaleS sc) D, (ldSize ty).1, (ldSize ty).2, pol⟩ := by
  have hs : scalarSize ty = ldSize ty := by cases ty <;> rfl
  simp only [memOperand.scalar, hs, Ctx.offset, scaleS]
  push_cast
  rfl

/-- The operand of a vector access as the instruction resolves it. -/
theorem memOperand_vector (s : State) (w : Nat) (a : Src) (ix : Option Src) (sc : Fin 4) (ty : Option Ty) (sp : MSpace) (pol : Policy) (D : Int) :
    memOperand.vector s w a ix sc ty sp pol D =
      let off := (s.ctx w).offset ix (scaleV sc) D
      let n := vecSize ty (s.bankFmt w ty sp ((s.ctx w).src a) off)
      some ⟨sp, (s.ctx w).src a, off, n, alignOf n, pol⟩ := by
  have ho : ((s.ctx w).srcOr0 ix).toInt * (if sc.val = 0 then 1 else 8 * 2 ^ sc.val) + D = (s.ctx w).offset ix (scaleV sc) D := by
    simp only [Ctx.offset, scaleV]
    push_cast
    rfl
  simp only [memOperand.vector, ho]

/-- An instruction that passes its checks passes the type check of a memory operand. -/
theorem isAny_of_checks {t : Ty} {sp : MSpace} {pol : Policy} {l : List (Bool × Reject)}
    (h : firstFail (memChecks (some t) sp pol ++ l) = none) : t.isAny = true := by
  by_contra hn
  simp [memChecks, firstFail, hn] at h

/-- A load is an LD or an LDV. -/
theorem load_cases {i : Instr} (hw : i.wellFormed = true) {s : State} {w : Nat} {bs : List Byte} {e : Effect} (h : loadForm s w bs i e) :
    (∃ d a ix sc ty sp pol D, IsLd i d a ix sc ty sp pol D) ∨ ∃ d a ix sc ty sp pol m D, IsLdv i d a ix sc ty sp pol m D := by
  unfold loadForm at h
  split at h
  · next d a ix sc ty sp pol =>
    refine .inl ⟨d, a, ix, sc, ty, sp, pol, 0, fun _ => rfl, fun s w => memOperand_scalar .., fun _ _ _ _ => Iff.rfl, fun c x l hd hx => ?_⟩
    cases ty with
    | some y => exact hx
    | none => cases d with
      | s n => exact hx
      | _ => simp at hd
  · next d a ix sc ty sp pol disp =>
    refine .inl ⟨d, a, ix, sc, ty, sp, pol, disp.toInt, fun _ => rfl, fun s w => memOperand_scalar .., fun _ _ _ _ => Iff.rfl, fun c x l hd hx => ?_⟩
    cases ty with
    | some y => exact hx
    | none => cases d with
      | s n => exact hx
      | _ => simp at hd
  · next d a ix sc ty sp pol m =>
    refine .inr ⟨d, a, ix, sc, ty, sp, pol, m, 0, fun _ => rfl, fun s w => memOperand_vector .., fun _ _ _ _ => Iff.rfl,
      fun _ _ _ => Iff.rfl, fun t ht => ?_⟩
    subst ht
    exact isAny_of_checks (l := []) (of_decide_eq_true hw)
  · next d a ix sc ty sp pol m disp =>
    refine .inr ⟨d, a, ix, sc, ty, sp, pol, m, disp.toInt, fun _ => rfl, fun s w => memOperand_vector .., fun _ _ _ _ => Iff.rfl,
      fun _ _ _ => Iff.rfl, fun t ht => ?_⟩
    subst ht
    exact isAny_of_checks (l := []) (of_decide_eq_true hw)
  · exact h.elim

/-! ### Loads from local memory -/

/-- Single runs that leave their context as `g` says and move grant pointers alone make a read that completes. -/
theorem reading_completes {i : Instr} {s : State} {f : Nat → State → Except Stop State} (g : Nat → Ctx) (P : Nat → Effect → Prop)
    (he : exec i s = each s f)
    (hstep : ∀ m ∈ s.members s.cur, ∀ t, Granted s t → t.ctx m = s.ctx m →
      ∃ u, f m t = .ok (u.onCtx m (fun _ => g m)) ∧ Granted s u ∧ u.ctx = t.ctx)
    (hP : ∀ m ∈ s.members s.cur, ∃ e, P m e ∧ e.On (s.ctx m) (g m).retired) : CompletesReading i s P := by
  have hgang : ∀ m ∈ s.members s.cur, ∀ c, c = g m → c.gang = (s.ctx m).gang := by
    rintro m hm _ rfl
    obtain ⟨e, _, _, _, _, _, _, _, hrest⟩ := hP m hm
    have := congrArg Ctx.gang hrest
    exact this
  obtain ⟨u, v, hv, hF, hu, hother, hmem⟩ := each_frame (s := s) (f := f) (Granted s) (fun m c => c = g m) (Granted.refl s) hgang
    (fun m hm t hF hc => by
      obtain ⟨u, hf, hG, hk⟩ := hstep m hm t hF hc
      exact ⟨_, hf, hG.onCtx m _, fun j hj => by rw [State.onCtx_ctx, if_neg hj, hk], by simp⟩)
  refine ⟨v, he.trans hv, ?_, ?_, hother, fun w hw => ?_⟩
  · obtain ⟨⟨a, b, rfl⟩, _⟩ := hF
    rw [hu]
  · obtain ⟨_, hcore⟩ := hF
    rw [hu]; exact hcore
  · obtain ⟨hq, hr⟩ := hmem w hw
    obtain ⟨e, hPe, hOn⟩ := hP w hw
    exact ⟨e, hPe, by rw [hr, hq]; exact hOn⟩

/-- What an LD writes is an effect that its form admits (R195). -/
theorem ldResult_on {s : State} {w : Nat} {d : Dst} {ty : Option Ty} {bs : List Byte} {e : Effect} (h : loadForm.scalar s w bs d ty e)
    (bs' : List Byte) : ∃ e', loadForm.scalar s w bs' d ty e' ∧ e'.On (s.ctx w) ((s.ctx w).ldResult d ty bs').retired := by
  cases ty with
  | some t => exact ⟨_, rfl, Ctx.dst_on ..⟩
  | none => cases d with
    | s n => exact ⟨_, rfl, Ctx.pair_on ..⟩
    | _ => exact h.elim

/-- What an LDV writes is an effect that its form admits (R197). -/
theorem ldvMerge_on {s : State} {w : Nat} {d : VDst} {ty : Option Ty} {sp : MSpace} {base : Word} {off : Int} {m : MReg}
    (hty : ∀ t, ty = some t → t.isAny = true) (bs : List Byte) :
    ∃ e, loadForm.vector s w bs d ty sp base off m e ∧
      let r := ldvMerge ty (s.bankFmt w ty sp base off) (s.ctx w).rm ((s.ctx w).mask m) ((s.ctx w).vold d) bs
      e.On (s.ctx w) (((s.ctx w).vdst d r.1).raise r.2).retired := by
  unfold loadForm.vector
  cases ty with
  | none =>
    obtain ⟨h1, h2⟩ := mergeLanesTo_spec (512 / 8) 8 ((s.ctx w).mask m) ((s.ctx w).vold d) (fun i => (lane 8 i (leNat bs), 0)) le_rfl
    refine ⟨_, ⟨_, _, _, _, ⟨rfl, ?_⟩, h1, h2, rfl⟩, Ctx.vdst_on ..⟩
    funext i
    simp only [lane, Nat.shiftRight_eq_div_pow]
  | some t =>
    have hw := width_of_isAny (hty t rfl)
    generalize s.bankFmt w (some t) sp base off = fmt
    cases fmt with
    | none =>
      obtain ⟨h1, h2⟩ := mergeLanesTo_spec (512 / t.width) t.width ((s.ctx w).mask m) ((s.ctx w).vold d)
        (fun i => (lane t.width i (leNat bs), 0)) hw
      refine ⟨_, ⟨_, _, _, _, ⟨rfl, ?_⟩, h1, h2, rfl⟩, Ctx.vdst_on ..⟩
      funext i
      simp only [lane, Nat.shiftRight_eq_div_pow]
    | some k =>
      obtain ⟨h1, h2⟩ := mergeLanesTo_spec (convCount t k) t.width ((s.ctx w).mask m) ((s.ctx w).vold d)
        (fun i => fromBank k t (s.ctx w).rm (bits (leNat bs) (bankWidth k * i) (bankWidth k))) hw
      refine ⟨_, ⟨_, _, _, _, ⟨rfl, ?_⟩, h1, h2, rfl⟩, Ctx.vdst_on ..⟩
      funext i
      simp only [bits, Nat.shiftRight_eq_div_pow]

theorem ldOp_local {s t : State} {w : Nat} {d : Dst} {a : Src} {ix : Option Src} {sc : Fin 4} {ty : Option Ty} {sp : MSpace} {pol : Policy}
    {D : Int} {l : List RByte} (hG : Granted s t) (hc : t.ctx w = s.ctx w) (hsp : sp ≠ .g)
    (hr : s.resolve w sp ((s.ctx w).src a) ((s.ctx w).offset ix (scaleS sc) D) (ldSize ty).1 (ldSize ty).2 .read = .ok (s, l))
    (hl : cleanBytes s l) :
    ldOp d a ix sc ty sp pol D w t = .ok ((t.grantRead w l none).onCtx w (fun _ => (s.ctx w).ldResult d ty (s.readBytes w l))) := by
  obtain ⟨hN, hq⟩ := hG.near hc
  have hk := (Granted.grantRead w l t none hG).2
  simp only [ldOp, hc, hN.resolve hsp hr, if_neg hsp, touchLocal_of_clean hN hl, hN.readBytes hq]
  rw [State.onCtx, State.onCtx, hk, hc]

theorem ldvOp_local {s t : State} {w : Nat} {d : VDst} {a : Src} {ix : Option Src} {sc : Fin 4} {ty : Option Ty} {sp : MSpace} {pol : Policy}
    {m : MReg} {D : Int} {l : List RByte} (hG : Granted s t) (hc : t.ctx w = s.ctx w) (hsp : sp ≠ .g)
    (hr : let off := (s.ctx w).offset ix (scaleV sc) D
      let n := vecSize ty (s.bankFmt w ty sp ((s.ctx w).src a) off)
      s.resolve w sp ((s.ctx w).src a) off n (alignOf n) .read = .ok (s, l))
    (hl : cleanBytes s l) :
    ldvOp d a ix sc ty sp pol m D w t = .ok ((t.grantRead w l none).onCtx w (fun _ =>
      let r := ldvMerge ty (s.bankFmt w ty sp ((s.ctx w).src a) ((s.ctx w).offset ix (scaleV sc) D)) (s.ctx w).rm ((s.ctx w).mask m)
        ((s.ctx w).vold d) (s.readBytes w l)
      ((s.ctx w).vdst d r.1).raise r.2)) := by
  obtain ⟨hN, hq⟩ := hG.near hc
  have hk := (Granted.grantRead w l t none hG).2
  simp only [ldvOp, hc, hN.bankFmt, hN.resolve hsp hr, if_neg hsp, touchLocal_of_clean hN hl, hN.readBytes hq]
  rw [State.onCtx, State.onCtx, hk, hc]

/-- Settles O20: the local path of each context reads the same bytes whatever the others of its gang have been granted. -/
theorem localLoads : Obligations.LocalLoads := by
  intro i s o l hwf h
  obtain ⟨⟨e, he⟩, _⟩ := h _ (s.mem_members_self _)
  rcases load_cases hwf he with ⟨d, a, ix, sc, ty, sp, pol, D, hi⟩ | ⟨d, a, ix, sc, ty, sp, pol, m, D, hi⟩
  · refine reading_completes (fun w => (s.ctx w).ldResult d ty (s.readBytes w (l w))) _ (hi.exec s) (fun w hw t hG hc => ?_) (fun w hw => ?_)
    · obtain ⟨_, ho, hsp, hr, hl⟩ := h w hw
      rw [hi.operand] at ho
      injection ho with ho
      rw [← ho] at hsp hr
      exact ⟨_, ldOp_local hG hc hsp hr hl, Granted.grantRead w _ t none hG⟩
    · obtain ⟨⟨e, he⟩, _⟩ := h w hw
      obtain ⟨e', h1, h2⟩ := ldResult_on ((hi.form ..).1 he) (s.readBytes w (l w))
      exact ⟨e', (hi.form ..).2 h1, h2⟩
  · refine reading_completes (fun w =>
      let r := ldvMerge ty (s.bankFmt w ty sp ((s.ctx w).src a) ((s.ctx w).offset ix (scaleV sc) D)) (s.ctx w).rm ((s.ctx w).mask m)
        ((s.ctx w).vold d) (s.readBytes w (l w))
      ((s.ctx w).vdst d r.1).raise r.2) _ (hi.exec s) (fun w hw t hG hc => ?_) (fun w hw => ?_)
    · obtain ⟨_, ho, hsp, hr, hl⟩ := h w hw
      rw [hi.operand] at ho
      injection ho with ho
      rw [← ho] at hsp hr
      exact ⟨_, ldvOp_local hG hc hsp hr hl, Granted.grantRead w _ t none hG⟩
    · obtain ⟨e', h1, h2⟩ := ldvMerge_on (s := s) (w := w) (d := d) (sp := sp) (base := (s.ctx w).src a)
        (off := (s.ctx w).offset ix (scaleV sc) D) (m := m) hi.type (s.readBytes w (l w))
      exact ⟨e', (hi.form ..).2 h1, h2⟩

end Sys2Proof.Machine

/-! ## Global loads (O21) -/

namespace Sys2Proof.Machine

/-! ### Translation in states that differ in other contexts -/

/-- `t` is as `s` but for the contexts other than `w` and the names given out. -/
structure Sim (w : Nat) (s t : State) : Prop where
  frame : ∃ a d, t = { s with ctxs := a, uid := d }
  ctx : t.ctx w = s.ctx w

/-- From `s` to `t` nothing of other contexts and no name has changed. -/
structure Apart (w : Nat) (s t : State) : Prop where
  uid : t.uid = s.uid
  others : ∀ j, j ≠ w → t.ctx j = s.ctx j

theorem Apart.refl (w : Nat) (s : State) : Apart w s s := ⟨rfl, fun _ _ => rfl⟩

theorem Apart.trans {w : Nat} {s t u : State} (h : Apart w s t) (k : Apart w t u) : Apart w s u :=
  ⟨k.uid.trans h.uid, fun j hj => (k.others j hj).trans (h.others j hj)⟩

namespace Sim

variable {w : Nat} {s t : State}

theorem near (h : Sim w s t) : Near w s t := by
  obtain ⟨a, d, rfl⟩ := h.frame
  exact ⟨⟨a, _, _, d, rfl⟩, fun _ => ⟨_, rfl⟩, h.ctx⟩

theorem onCore (h : Sim w s t) (g : Nat) (f : Core → Core) : Sim w (s.onCore g f) (t.onCore g f) := by
  obtain ⟨a, d, rfl⟩ := h.frame
  exact ⟨⟨a, d, rfl⟩, h.ctx⟩

theorem onClu (h : Sim w s t) (g : Nat) (f : Cluster → Cluster) : Sim w (s.onClu g f) (t.onClu g f) := by
  obtain ⟨a, d, rfl⟩ := h.frame
  exact ⟨⟨a, d, rfl⟩, h.ctx⟩

theorem onCtx (h : Sim w s t) (f : Ctx → Ctx) : Sim w (s.onCtx w f) (t.onCtx w f) := by
  have hc : (t.onCtx w f).ctx w = (s.onCtx w f).ctx w := by rw [State.onCtx_ctx, State.onCtx_ctx, if_pos rfl, if_pos rfl, h.ctx]
  obtain ⟨a, d, rfl⟩ := h.frame
  exact ⟨⟨_, d, rfl⟩, hc⟩

/-- An address looked up for the context finds the same leaf. -/
theorem lookup (h : Sim w s t) (va : Nat) :
    (t.lookup w va).2 = (s.lookup w va).2 ∧ Sim w (s.lookup w va).1 (t.lookup w va).1 ∧ Apart w t (t.lookup w va).1 := by
  have hcore : ∀ g, t.core g = s.core g := by obtain ⟨a, d, rfl⟩ := h.frame; exact fun _ => rfl
  have hclu : ∀ g, t.clu g = s.clu g := by obtain ⟨a, d, rfl⟩ := h.frame; exact fun _ => rfl
  simp only [State.lookup, h.ctx, hcore, hclu]
  split
  · exact ⟨rfl, h, Apart.refl ..⟩
  · split
    · next l _ => exact ⟨rfl, h.onCore (coreOf w) (fun k => k.tlbAdd l), rfl, fun _ _ => rfl⟩
    · split
      · next l _ =>
        exact ⟨rfl, (h.onClu (cluOf (coreOf w)) (fun k => k.tlbAdd va l)).onCore (coreOf w) (fun k => k.tlbAdd l), rfl, fun _ _ => rfl⟩
      · exact ⟨rfl, h, Apart.refl ..⟩

theorem leaves (acc : Access) (va : Nat) (gs : List Nat) : ∀ {s t : State}, Sim w s t → ∀ {s' : State} {ls : List Leaf},
    s.leaves w acc va gs = .ok (s', ls) → ∃ t', t.leaves w acc va gs = .ok (t', ls) ∧ Sim w s' t' ∧ Apart w t t' := by
  induction gs with
  | nil =>
    intro s t h s' ls hs
    cases hs
    exact ⟨t, rfl, h, Apart.refl ..⟩
  | cons g gs ih =>
    intro s t h s' ls hs
    obtain ⟨h2, h1, hA⟩ := h.lookup g
    simp only [State.leaves] at hs ⊢
    split at hs
    · next s1 l hl =>
      rw [hl] at h2 h1
      rw [show t.lookup w g = ((t.lookup w g).1, some l) from Prod.ext rfl h2]
      have hS := h1.onCtx (fun c => { c with xlate := if c.xlate.contains l then c.xlate else l :: c.xlate })
      split at hs
      · next s3 ls' hs3 =>
        cases hs
        obtain ⟨t', ht', hS', hA'⟩ := ih hS hs3
        have hk : Apart w (t.lookup w g).1 ((t.lookup w g).1.onCtx w
            (fun c => { c with xlate := if c.xlate.contains l then c.xlate else l :: c.xlate })) :=
          ⟨rfl, fun j hj => by rw [State.onCtx_ctx, if_neg hj]⟩
        exact ⟨t', by simp only [ht'], hS', hA.trans (hk.trans hA')⟩
      · cases hs
    · cases hs

theorem routed (h : Sim w s t) (n : Nat) : ∀ m d, t.routed n m d = s.routed n m d := by
  have hm : t.mod = s.mod := by obtain ⟨a, d, rfl⟩ := h.frame; rfl
  have hl : t.linkDown = s.linkDown := by funext m p; simp only [State.linkDown, hm]
  induction n with
  | zero => exact fun _ _ => rfl
  | succ n ih => intro m d; simp only [State.routed, ih, hm, hl]

theorem corePhysOk (h : Sim w s t) (wr : Bool) (pa : Nat) : t.corePhysOk w wr pa = s.corePhysOk w wr pa := by
  have hr : t.reach = s.reach := by funext m d; simp only [State.reach, h.routed]
  have hh : t.hbmOk = s.hbmOk := by obtain ⟨a, d, rfl⟩ := h.frame; rfl
  have ho : t.ownerOf = s.ownerOf := by obtain ⟨a, d, rfl⟩ := h.frame; rfl
  simp only [State.corePhysOk, h.ctx, hr, hh, ho, h.near.region]

theorem deniedAt (h : Sim w s t) (wr : Bool) (pa n : Nat) : t.deniedAt w wr pa n = s.deniedAt w wr pa n := by
  simp only [State.deniedAt, h.corePhysOk, h.near.region]

theorem leafFault (h : Sim w s t) (va n : Nat) (acc : Access) (l : List (Nat × Leaf)) : t.leafFault w va n acc l = s.leafFault w va n acc l := by
  induction l with
  | nil => rfl
  | cons x l ih => simp only [State.leafFault, h.ctx, h.deniedAt, ih]

theorem translate (h : Sim w s t) {va n : Nat} {acc : Access} {s' : State} {l : List RByte} (hs : s.translate w va n acc = .ok (s', l)) :
    ∃ t', t.translate w va n acc = .ok (t', l) ∧ Sim w s' t' ∧ Apart w t t' := by
  simp only [State.translate] at hs ⊢
  split at hs
  · cases hs
  next hva =>
    rw [if_neg hva]
    split at hs
    · cases hs
    next s1 ls hl =>
      obtain ⟨t1, ht, hS, hA⟩ := leaves acc va _ h hl
      split at hs
      · cases hs
      next hf =>
        split at hs
        · cases hs
        next hn =>
          cases hs
          exact ⟨t1, by simp only [ht, hS.leafFault, hf, if_neg hn, hS.ctx], hS, hA⟩

theorem resolveG (h : Sim w s t) {va n al : Nat} {acc : Access} {s' : State} {l : List RByte} (hs : s.resolveG w va n al acc = .ok (s', l)) :
    ∃ t', t.resolveG w va n al acc = .ok (t', l) ∧ Sim w s' t' ∧ Apart w t t' := by
  unfold State.resolveG at hs ⊢
  split at hs
  · cases hs
  next ha => rw [if_neg ha]; exact h.translate hs

/-- An operand of any space that resolves in `s` resolves alike in `t`. -/
theorem resolve (h : Sim w s t) {sp : MSpace} {base : Word} {off : Int} {n al : Nat} {acc : Access} {s' : State} {l : List RByte}
    (hs : s.resolve w sp base off n al acc = .ok (s', l)) : ∃ t', t.resolve w sp base off n al acc = .ok (t', l) ∧ Sim w s' t' ∧ Apart w t t' := by
  by_cases hsp : sp = .g
  · subst hsp; exact h.resolveG hs
  · have hl : s' = s := by
      have := (Near.refl w s).resolve hsp hs
      rw [hs] at this
      cases this; rfl
    subst hl
    exact ⟨t, h.near.resolve hsp hs, h, Apart.refl ..⟩

end Sim

/-! ### What translation changes -/

/-- `t` is `s` after addresses of context `w` were looked up: translations held, and TLBs of its core and cluster in their order of use. -/
structure Looked (w : Nat) (s t : State) : Prop where
  frame : ∃ a b c, t = { s with ctxs := a, cores := b, clus := c }
  ctx : ∃ x, t.ctx w = { s.ctx w with xlate := x }
  others : ∀ j, j ≠ w → t.ctx j = s.ctx j

namespace Looked

variable {w : Nat} {s t u : State}

theorem refl (w : Nat) (s : State) : Looked w s s := ⟨⟨_, _, _, rfl⟩, ⟨_, rfl⟩, fun _ _ => rfl⟩

theorem trans (h : Looked w s t) (k : Looked w t u) : Looked w s u := by
  refine ⟨?_, ?_, fun j hj => (k.others j hj).trans (h.others j hj)⟩
  · obtain ⟨_, _, _, rfl⟩ := h.frame
    obtain ⟨a, b, c, rfl⟩ := k.frame
    exact ⟨a, b, c, rfl⟩
  · obtain ⟨x, hx⟩ := h.ctx
    obtain ⟨y, hy⟩ := k.ctx
    exact ⟨y, by rw [hy, hx]⟩

theorem lookup (w : Nat) (s : State) (va : Nat) : Looked w s (s.lookup w va).1 := by
  simp only [State.lookup]
  split
  · exact refl ..
  · split
    · exact ⟨⟨_, _, _, rfl⟩, ⟨_, rfl⟩, fun _ _ => rfl⟩
    · split
      · exact ⟨⟨_, _, _, rfl⟩, ⟨_, rfl⟩, fun _ _ => rfl⟩
      · exact refl ..

theorem hold (w : Nat) (s : State) (f : Ctx → List Leaf) : Looked w s (s.onCtx w (fun c => { c with xlate := f c })) :=
  ⟨⟨_, _, _, rfl⟩, ⟨f (s.ctx w), by rw [State.onCtx_ctx, if_pos rfl]⟩, fun j hj => by rw [State.onCtx_ctx, if_neg hj]⟩

theorem leaves (acc : Access) (va : Nat) (gs : List Nat) : ∀ {s s' : State} {ls : List Leaf},
    s.leaves w acc va gs = .ok (s', ls) → Looked w s s' := by
  induction gs with
  | nil => intro s s' ls h; cases h; exact refl ..
  | cons g gs ih =>
    intro s s' ls h
    simp only [State.leaves] at h
    split at h
    · next s1 l hl =>
      have h1 := lookup w s g
      rw [hl] at h1
      split at h
      · next s3 ls' hs3 =>
        cases h
        exact (h1.trans (hold w s1 _)).trans (ih hs3)
      · cases h
    · cases h

theorem translate {va n : Nat} {acc : Access} {s' : State} {l : List RByte} (h : s.translate w va n acc = .ok (s', l)) : Looked w s s' := by
  simp only [State.translate] at h
  split at h
  · cases h
  · split at h
    · cases h
    next s1 ls hl =>
      split at h
      · cases h
      · split at h
        · cases h
        · cases h; exact leaves acc va _ hl

theorem resolve {sp : MSpace} {base : Word} {off : Int} {n al : Nat} {acc : Access} {s' : State} {l : List RByte}
    (h : s.resolve w sp base off n al acc = .ok (s', l)) : Looked w s s' := by
  by_cases hsp : sp = .g
  · subst hsp
    simp only [State.resolve, State.resolveG] at h
    split at h
    · cases h
    · exact translate h
  · have := (Near.refl w s).resolve hsp h
    rw [h] at this
    cases this
    exact refl ..

theorem cur (h : Looked w s t) : t.cur = s.cur := by obtain ⟨_, _, _, rfl⟩ := h.frame; rfl

end Looked

/-! ### Outstanding loads -/

/-- The load that a global access leaves. -/
def newLoad (s : State) (w : Nat) (dst : LoadDst) (l : List RByte) (pol : Policy) (va : Word) : Load :=
  { uid := s.uid, dst := dst, got := [], pol := pol, org := s.origin w, va := va
    addrs := l.filterMap (fun b => match b with | .mem pa hb cls => some (pa, hb, effClass cls pol) | .guard _ _ => none) }

theorem State.addLoad_eq (s : State) (w : Nat) (dst : LoadDst) (l : List RByte) (pol : Policy) (va : Word) :
    s.addLoad w dst l pol va = (s.onCtx w (fun c => { c with loads := c.loads ++ [newLoad s w dst l pol va] })).fresh := rfl

@[simp] theorem newLoad_addrs (s : State) (w : Nat) (dst : LoadDst) (l : List RByte) (pol : Policy) (va : Word) :
    (newLoad s w dst l pol va).addrs.map (fun p => p.1) = l.filterMap RByte.pa? := by
  unfold newLoad
  rw [List.map_filterMap]
  refine List.filterMap_congr fun b _ => ?_
  cases b <;> rfl

/-- Single runs that leave an outstanding load each make an instruction that leaves one on every context. -/
theorem loads_added {i : Instr} {s : State} {f : Nat → State → Except Stop State} (P : Nat → Load → Prop) (he : exec i s = each s f)
    (hstep : ∀ m ∈ s.members s.cur, ∀ t, Sim m s t → ∃ t' dst l pol va, f m t = .ok (t'.addLoad m dst l pol va) ∧ Sim m s t' ∧ Apart m t t' ∧
      P m (newLoad t' m dst l pol va)) :
    ∃ t, exec i s = .next t ∧ loadsAdded s t P := by
  obtain ⟨u, v, hv, ⟨a, d, hF⟩, hu, hother, hmem⟩ := each_frame (s := s) (f := f) (fun t => ∃ a d, t = { s with ctxs := a, uid := d })
    (fun w c => ∃ x, P w x ∧ x.org = s.origin w ∧ c = { s.ctx w with loads := (s.ctx w).loads ++ [x] }) ⟨_, _, rfl⟩
    (fun m _ c ⟨x, _, _, hc⟩ => by rw [hc]) (fun m hm t hF hc => by
      obtain ⟨t', dst, l, pol, va, hf, hS, hA, hP⟩ := hstep m hm t ⟨hF, hc⟩
      obtain ⟨a, d, hF'⟩ := hS.frame
      refine ⟨_, hf, ⟨_, _, by rw [State.addLoad_eq, hF']; rfl⟩, fun j hj => ?_, _, hP, hS.near.origin, ?_⟩
      · rw [State.addLoad_eq, State.fresh_ctx, State.onCtx_ctx, if_neg hj, hA.others j hj]
      · rw [State.addLoad_eq, State.fresh_ctx, State.onCtx_ctx, if_pos rfl, hS.ctx])
  refine ⟨v, he.trans hv, ?_, hother, fun w hw => ?_⟩
  · rw [hu, hF]
  · obtain ⟨⟨x, hP, horg, hq⟩, hr⟩ := hmem w hw
    exact ⟨x, hP, horg, by rw [hr, hq]⟩

/-- A single run that leaves an outstanding load, in a firing of one context. -/
theorem load_added {i : Instr} {s u : State} {f : Nat → State → Except Stop State} (h1 : s.single) (he : exec i s = each s f)
    {dst : LoadDst} {l : List RByte} {pol : Policy} {va : Word} (hL : Looked s.cur s u) (hf : f s.cur s = .ok (u.addLoad s.cur dst l pol va)) :
    exec i s = .next ((u.onCtx s.cur (fun c => { c with loads := c.loads ++ [newLoad u s.cur dst l pol va] })).fresh.after s.cur id) := by
  obtain ⟨x, hx⟩ := hL.ctx
  have hg : (((u.onCtx s.cur (fun c => { c with loads := c.loads ++ [newLoad u s.cur dst l pol va] })).fresh).ctx s.cur).gang = false := by
    rw [State.fresh_ctx, State.onCtx_ctx, if_pos rfl, hx]; exact h1
  rw [he, each_single h1, hf, State.addLoad_eq]
  exact congrArg _ (State.retire_single hg)

/-- The bytes of the active lanes hold only bytes of the operand; a context with other translations has the same. -/
theorem vectorLoad_new (c : Ctx) (s : State) (w : Nat) (d : VDst) (ty : Option Ty) (m : MReg) (l : List RByte) (pol : Policy) (va : Word) :
    vectorLoad c (newLoad s w (.vec d (rawWidth ty) ((List.range (512 / rawWidth ty)).map (fun i => active (c.mask m) (rawWidth ty) i)) (c.vold d))
      (activeBytes (rawWidth ty) (c.mask m) l) pol va) l d ty m :=
  ⟨rfl, newLoad_addrs ..⟩

/-- The operand of an access is the same in states that are alike to the context. -/
theorem Near.memOperand {w : Nat} {s t : State} (h : Near w s t) (i : Instr) : Machine.memOperand t w i = Machine.memOperand s w i := by
  have hv : ∀ a ix sc ty sp pol D, memOperand.vector t w a ix sc ty sp pol D = memOperand.vector s w a ix sc ty sp pol D :=
    fun a ix sc ty sp pol D => by simp only [memOperand.vector, h.ctx, h.bankFmt]
  have hs : ∀ a ix sc ty sp pol D, memOperand.scalar t w a ix sc ty sp pol D = memOperand.scalar s w a ix sc ty sp pol D :=
    fun a ix sc ty sp pol D => by simp only [memOperand.scalar, h.ctx]
  unfold Machine.memOperand
  split <;> simp only [hv, hs]

/-- A global LD or LDV leaves a load that names its destination and its bytes. -/
theorem load_global {i : Instr} (hwf : i.wellFormed = true) {s : State} {w₀ : Nat} (he : ∃ e, loadForm s w₀ (List.replicate 64 0) i e) :
    ∃ f, (∀ s, exec i s = each s f) ∧ ∀ w t t' o l, memOperand t w i = some o → o.sp = .g →
      t.resolveG w (wrap 64 (o.base.toNat + o.off)) o.n o.align .read = .ok (t', l) →
      ∃ dst l' va, f w t = .ok (t'.addLoad w dst l' o.pol va) ∧
        ∀ c, (∃ x, c = { t.ctx w with xlate := x }) → loadNames c i (newLoad t' w dst l' o.pol va) l := by
  obtain ⟨e, he⟩ := he
  rcases load_cases hwf he with ⟨d, a, ix, sc, ty, sp, pol, D, hi⟩ | ⟨d, a, ix, sc, ty, sp, pol, m, D, hi⟩
  · refine ⟨_, hi.exec, fun w t t' o l ho hsp hr => ?_⟩
    rw [hi.operand] at ho
    cases ho
    subst hsp
    have hd : ty.isSome ∨ ∃ n, d = .s n := by
      have := (hi.form ..).1 he
      unfold loadForm.scalar at this
      split at this
      · exact .inl rfl
      · exact .inr ⟨_, rfl⟩
      · exact this.elim
    refine ⟨ldDst d ty, l, BitVec.ofInt 64 (opOffset .g ((t.ctx w).src a) ((t.ctx w).offset ix (scaleS sc) D)), ?_,
      fun c _ => hi.names c _ l hd ⟨rfl, newLoad_addrs ..⟩⟩
    simp only [ldOp, State.resolve, hr, if_pos]
  · refine ⟨_, hi.exec, fun w t t' o l ho hsp hr => ?_⟩
    rw [hi.operand] at ho
    cases ho
    subst hsp
    refine ⟨.vec d (rawWidth ty) ((List.range (512 / rawWidth ty)).map (fun i => active ((t.ctx w).mask m) (rawWidth ty) i)) ((t.ctx w).vold d),
      activeBytes (rawWidth ty) ((t.ctx w).mask m) l, BitVec.ofInt 64 (opOffset .g ((t.ctx w).src a) ((t.ctx w).offset ix (scaleV sc) D)),
      ?_, ?_⟩
    · simp only [ldvOp, State.resolve, hr, if_pos]
    · rintro c ⟨x, rfl⟩
      exact (hi.names ..).2 (vectorLoad_new ..)

/-- Settles O21: a context translates the same in every state that differs from the first in other contexts alone. -/
theorem globalLoadsAreOutstanding : Obligations.GlobalLoadsAreOutstanding := by
  refine ⟨fun i s o l hwf h => ?_, fun i s u o l h1 hwf he ho hsp hr => ?_⟩
  · obtain ⟨f, hf, hstep⟩ := load_global hwf (h _ (s.mem_members_self _)).1
    refine loads_added _ (hf s) fun m hm t hS => ?_
    obtain ⟨_, ho, hsp, hr⟩ := h m hm
    obtain ⟨t', ht, hS', hA⟩ := hS.resolveG hr
    obtain ⟨dst, l', va, h1, h2⟩ := hstep m t t' (o m) (l m) ((hS.near.memOperand i).trans ho) hsp ht
    exact ⟨t', dst, l', _, va, h1, hS', hA, h2 _ ⟨(s.ctx m).xlate, by rw [hS.ctx]⟩⟩
  · obtain ⟨f, hf, hstep⟩ := load_global hwf he
    obtain ⟨dst, l', va, h2, h3⟩ := hstep s.cur s u o l ho hsp hr
    have hL : Looked s.cur s u := Looked.resolve (sp := .g) hr
    refine ⟨_, newLoad u s.cur dst l' o.pol va, load_added h1 (hf s) hL h2, ?_, rfl, h3 _ hL.ctx, rfl, rfl, rfl, fun w hw => ?_, ?_⟩
    · simp [State.after, Ctx.retired]
    · simp [State.after, hw]
    · simp [State.after, Ctx.retired]

end Sys2Proof.Machine

/-! ## Stores: what storing resolved bytes does to the log and to the ports -/

namespace Sys2Proof.Machine

/-! ### Runs of bytes -/

/-- Bytes with their addresses, from `pa` on. -/
def cellsAt (pa : Nat) (bs : List Byte) : List (Nat × Byte) := (List.range bs.length).map (fun i => (pa + i, bs.getD i 0))

theorem Pending.cells_eq (e : Pending) : e.cells = cellsAt e.pa e.bytes := rfl

theorem cellsAt_cons (pa : Nat) (b : Byte) (bs : List Byte) : cellsAt pa (b :: bs) = (pa, b) :: cellsAt (pa + 1) bs := by
  simp [cellsAt, List.range_succ_eq_map, Nat.add_assoc, Nat.add_comm 1]

/-- Each run of an access begins at one of its bytes, and is not empty. -/
theorem runsOf_mem (z : List (RByte × Byte)) : ∀ va, ∀ r ∈ runsOf va z, r.bytes ≠ [] ∧ ∃ hb cls b, (RByte.mem r.pa hb cls, b) ∈ z := by
  induction z with
  | nil => exact fun _ _ h => by cases h
  | cons x z ih =>
    intro va r hr
    have hrest : r ∈ runsOf (va + 1) z → r.bytes ≠ [] ∧ ∃ hb cls b, (RByte.mem r.pa hb cls, b) ∈ x :: z := fun h => by
      obtain ⟨hne, hb, cls, c, hm⟩ := ih (va + 1) r h
      exact ⟨hne, hb, cls, c, List.mem_cons_of_mem _ hm⟩
    obtain ⟨y, b⟩ := x
    cases y with
    | guard k o => exact hrest hr
    | mem pa hb cls =>
      simp only [runsOf] at hr
      split at hr
      · next y l hy =>
        rw [hy] at hrest
        split at hr
        · rcases List.mem_cons.1 hr with rfl | hr
          · exact ⟨by simp, hb, cls, b, by simp⟩
          · exact hrest (List.mem_cons_of_mem _ hr)
        · rcases List.mem_cons.1 hr with rfl | hr
          · exact ⟨by simp, hb, cls, b, by simp⟩
          · exact hrest hr
      · rw [List.mem_singleton] at hr
        subst hr
        exact ⟨by simp, hb, cls, b, by simp⟩

/-- The runs of an access hold its bytes in order, each at its address. -/
theorem runsOf_flatMap (z : List (RByte × Byte)) : ∀ va,
    (runsOf va z).flatMap (fun r => cellsAt r.pa r.bytes) = z.filterMap (fun x => x.1.pa?.map (fun pa => (pa, x.2))) := by
  induction z with
  | nil => exact fun _ => rfl
  | cons x z ih =>
    intro va
    have hz := ih (va + 1)
    obtain ⟨y, b⟩ := x
    cases y with
    | guard k o => exact hz
    | mem pa hb cls =>
      change _ = (pa, b) :: z.filterMap (fun x => x.1.pa?.map (fun pa => (pa, x.2)))
      rw [← hz]
      simp only [runsOf]
      split
      · next y l hy =>
        rw [hy]
        split
        · next hc => simp [cellsAt_cons, hc.1]
        · simp [cellsAt]
      · next hy => rw [hy]; simp [cellsAt]

theorem runsOf_start {va : Nat} {l : List RByte} {bs : List Byte} {r : Run} (h : r ∈ runsOf va (l.zip bs)) :
    r.bytes ≠ [] ∧ ∃ hb cls, RByte.mem r.pa hb cls ∈ l := by
  obtain ⟨hne, hb, cls, b, hm⟩ := runsOf_mem (l.zip bs) va r h
  exact ⟨hne, hb, cls, (List.of_mem_zip hm).1⟩

theorem runsOf_cells (va : Nat) (l : List RByte) (bs : List Byte) :
    (runsOf va (l.zip bs)).flatMap (fun r => cellsAt r.pa r.bytes) = cellsOf l bs :=
  runsOf_flatMap (l.zip bs) va

/-! ### Stores into the log -/

/-- A context with entries behind those of its log. -/
def Ctx.logged (c : Ctx) (new : List LogItem) : Ctx := { c with log := c.log ++ new }

/-- From `s` to `t` context `w` has got these entries in its log, and nothing else has changed. -/
structure Logged (w : Nat) (s t : State) (new : List LogItem) : Prop where
  frame : ∃ a, t = { s with ctxs := a }
  others : ∀ j, j ≠ w → t.ctx j = s.ctx j
  own : t.ctx w = (s.ctx w).logged new

namespace Logged

variable {w : Nat} {s t u : State} {new new' : List LogItem}

theorem refl (w : Nat) (s : State) : Logged w s s [] := ⟨⟨_, rfl⟩, fun _ _ => rfl, by simp [Ctx.logged]⟩

theorem trans (h : Logged w s t new) (k : Logged w t u new') : Logged w s u (new ++ new') := by
  refine ⟨?_, fun j hj => (k.others j hj).trans (h.others j hj), by rw [k.own, h.own]; simp [Ctx.logged]⟩
  obtain ⟨_, rfl⟩ := h.frame
  obtain ⟨a, rfl⟩ := k.frame
  exact ⟨a, rfl⟩

theorem onCtx (w : Nat) (s : State) (new : List LogItem) : Logged w s (s.onCtx w (fun c => c.logged new)) new :=
  ⟨⟨_, rfl⟩, fun j hj => by rw [State.onCtx_ctx, if_neg hj], by rw [State.onCtx_ctx, if_pos rfl]⟩

theorem origin (h : Logged w s t new) : t.origin w = s.origin w := by
  simp only [State.origin, h.own]
  rfl

theorem region (h : Logged w s t new) : t.region = s.region := by obtain ⟨_, rfl⟩ := h.frame; rfl

theorem logEntries (h : Logged w s t new) (va : Nat) (pol : Policy) (l : List RByte) (bs : List Byte) :
    Machine.logEntries t w va pol l bs = Machine.logEntries s w va pol l bs := by
  simp only [Machine.logEntries, h.origin]

theorem loggedBytes (h : Logged w s t new) {l : List RByte} (hl : Machine.loggedBytes s w l) : Machine.loggedBytes t w l := by
  unfold Machine.loggedBytes
  rw [h.region, h.own]
  exact hl

end Logged

/-- The entry that a run of bytes makes. -/
def State.logItem (s : State) (w : Nat) (pol : Policy) (r : Run) : LogItem := .store (s.origin w) r.va r.pa r.hb r.cls pol r.bytes

theorem logEntries_eq (s : State) (w va : Nat) (pol : Policy) (l : List RByte) (bs : List Byte) :
    logEntries s w va pol l bs = (runsOf va (l.zip bs)).map (s.logItem w pol) := rfl

theorem State.logStore_eq (s : State) (w : Nat) (pol : Policy) (r : Run) :
    s.logStore w pol r = if logCount ((s.ctx w).log ++ [s.logItem w pol r]) < 256 then .ok (s.onCtx w (fun c => c.logged [s.logItem w pol r]))
      else (s.onCtx w (fun c => c.logged [s.logItem w pol r])).commit s.cur := by
  unfold State.logStore
  simp only [State.onCtx_ctx, if_pos]
  rfl

theorem logCount_append (a b : List LogItem) : logCount (a ++ b) = logCount a + logCount b := by
  simp [logCount]

theorem logCount_logItem (s : State) (w : Nat) (pol : Policy) (l : List Run) : logCount (l.map (s.logItem w pol)) = l.length := by
  induction l with
  | nil => rfl
  | cons r l ih =>
    rw [List.map_cons, List.length_cons, ← ih, Nat.add_comm]
    exact logCount_append [s.logItem w pol r] _

/-- A run is logged: it begins in global memory or in the state segment. -/
def State.logs (s : State) (w : Nat) (r : Run) : Prop := ∀ gc a, s.region r.pa = .scratch gc a → (s.ctx w).inState w gc a = true

/-- Storing one run that is logged. -/
theorem State.storeRuns_cons_log {s t : State} {w : Nat} {pol : Policy} {r : Run} (h : s.logs w r) (ht : s.logStore w pol r = .ok t)
    (l : List Run) : s.storeRuns w pol (r :: l) = t.storeRuns w pol l := by
  rw [State.storeRuns]
  split
  · next gc a hr => simp only [h gc a hr, if_true, ht]
  · simp only [ht]

/-- Runs that are logged while there is room become entries, in order. -/
theorem State.storeRuns_logged {w : Nat} {pol : Policy} (l : List Run) : ∀ {s : State}, (∀ r ∈ l, s.logs w r) →
    logCount (s.ctx w).log + l.length < 256 →
    ∃ t, s.storeRuns w pol l = .ok t ∧ Logged w s t (l.map (s.logItem w pol)) := by
  induction l with
  | nil => exact fun {s} _ _ => ⟨s, rfl, Logged.refl ..⟩
  | cons r l ih =>
    intro s hl hn
    have h1 := Logged.onCtx w s [s.logItem w pol r]
    generalize hu : s.onCtx w (fun c => c.logged [s.logItem w pol r]) = u at h1
    have hlen : logCount (u.ctx w).log + l.length < 256 := by
      rw [h1.own]
      simp only [Ctx.logged, logCount_append, List.length_cons] at hn ⊢
      have : logCount [s.logItem w pol r] = 1 := rfl
      omega
    obtain ⟨t, ht, h2⟩ := ih (s := u) (fun x hx gc a => by
      rw [h1.region, h1.own]
      exact hl x (List.mem_cons_of_mem _ hx) gc a) hlen
    refine ⟨t, ?_, ?_⟩
    · have hc : logCount ((s.ctx w).log ++ [s.logItem w pol r]) < 256 := by
        have := congrArg (fun c => logCount c.log) h1.own
        simp only [Ctx.logged] at this
        omega
      have hr : s.logStore w pol r = .ok u := by rw [State.logStore_eq, if_pos hc, hu]
      rw [State.storeRuns_cons_log (hl r (by simp)) hr]
      exact ht
    · have hi : u.logItem w pol = s.logItem w pol := by funext x; simp only [State.logItem, h1.origin]
      rw [hi] at h2
      exact h1.trans h2

theorem touchGuard_of_logged {s : State} {w : Nat} {l : List RByte} (h : loggedBytes s w l) (t : State) (o : Int) : t.touchGuard w o l = t := by
  have hg : ∀ (l : List RByte), (∀ b ∈ l, ∃ pa hb cls, b = .mem pa hb cls) → ∀ i, firstGuard l i = none := by
    intro l
    induction l with
    | nil => exact fun _ _ => rfl
    | cons b l ih =>
      intro h i
      obtain ⟨pa, hb, cls, rfl⟩ := h b (by simp)
      exact ih (fun x hx => h x (List.mem_cons_of_mem _ hx)) (i + 1)
  unfold State.touchGuard
  rw [hg l (fun b hb => by obtain ⟨pa, x, y, hx, _⟩ := h b hb; exact ⟨pa, x, y, hx⟩)]

theorem runs_logs {s : State} {w va : Nat} {l : List RByte} {bs : List Byte} (h : loggedBytes s w l) : ∀ r ∈ runsOf va (l.zip bs), s.logs w r := by
  intro r hr gc a hra
  obtain ⟨_, hb, cls, hm⟩ := runsOf_start hr
  obtain ⟨pa, x, y, hx, hin⟩ := h _ hm
  cases hx
  exact hin gc a hra

/-- Bytes of global memory or of the state segment are logged, while there is room (R195, R196). -/
theorem State.storeAt_logged {s : State} {w : Nat} {o : Int} {l : List RByte} {pol : Policy} {bs : List Byte} (hl : loggedBytes s w l)
    (ho : (s.ctx w).loadOverlaps l = false) (hn : logCount (s.ctx w).log + (logEntries s w (wrap 64 o) pol l bs).length < 256) :
    ∃ t, s.storeAt w o l pol bs = .ok t ∧ Logged w s t (logEntries s w (wrap 64 o) pol l bs) := by
  rw [logEntries_eq, List.length_map] at hn
  obtain ⟨t, ht, hL⟩ := State.storeRuns_logged (pol := pol) _ (runs_logs hl) hn
  refine ⟨t, ?_, hL⟩
  rw [State.storeAt, ho, touchGuard_of_logged hl]
  exact ht

end Sys2Proof.Machine

/-! ## LoggedStores (O23): the forms of a store -/

namespace Sys2Proof.Machine

/-! ### The forms of a store -/

/-- From `u` to `v` context `w` has got flags, and nothing else has changed. -/
structure Raised (w fl : Nat) (u v : State) : Prop where
  frame : ∃ a, v = { u with ctxs := a }
  others : ∀ j, j ≠ w → v.ctx j = u.ctx j
  own : v.ctx w = (u.ctx w).raise fl

theorem Ctx.raise_zero (c : Ctx) : c.raise 0 = c := by simp [Ctx.raise]

theorem Raised.none (w : Nat) (u : State) : Raised w 0 u u := ⟨⟨_, rfl⟩, fun _ _ => rfl, (Ctx.raise_zero _).symm⟩

theorem Raised.onCtx (w fl : Nat) (u : State) : Raised w fl u (u.onCtx w (fun c => c.raise fl)) :=
  ⟨⟨_, rfl⟩, fun j hj => by rw [State.onCtx_ctx, if_neg hj], by rw [State.onCtx_ctx, if_pos rfl]⟩

/-- What the single runs `f` of a store do once its operand resolves: its bytes are stored, and the flags of its conversion raised. -/
def Stores_ (i : Instr) (f : Nat → State → Except Stop State) : Prop :=
  ∀ w s t o l bs fl, storeForm s w i = some (bs, fl) → memOperand s w i = some o →
    s.resolve w o.sp o.base o.off o.n o.align .write = .ok (t, l) →
    (∀ e, t.storeAt w (opOffset o.sp o.base o.off) l o.pol bs = .error e → f w s = .error e) ∧
    ∀ u, t.storeAt w (opOffset o.sp o.base o.off) l o.pol bs = .ok u → ∃ v, f w s = .ok v ∧ Raised w fl u v

theorem stOp_stores {i : Instr} (b a : Src) (ix : Option Src) (sc : Fin 4) (ty : Option Ty) (sp : MSpace) (pol : Policy) (D : Int)
    (hf : ∀ s w, storeForm s w i = some (storeForm.scalar s w b ty, 0)) (ho : ∀ s w, memOperand s w i = memOperand.scalar s w a ix sc ty sp pol D) :
    Stores_ i (stOp b a ix sc ty sp pol D) := by
  intro w s t o l bs fl h1 h2 hr
  rw [hf] at h1
  rw [ho, memOperand_scalar] at h2
  cases h1
  cases h2
  have hop : stOp b a ix sc ty sp pol D w s =
      t.storeAt w (opOffset sp ((s.ctx w).src a) ((s.ctx w).offset ix (scaleS sc) D)) l pol (storeForm.scalar s w b ty) := by
    simp only [stOp, hr]
    congr 1
  exact ⟨fun e he => hop.trans he, fun u hu => ⟨u, hop.trans hu, Raised.none ..⟩⟩

theorem stvOp_stores {i : Instr} (b : VSrc) (a : Src) (ix : Option Src) (sc : Fin 4) (ty : Option Ty) (sp : MSpace) (pol : Policy) (D : Int)
    (hf : ∀ s w, storeForm s w i =
      some (storeForm.vector s w b ty (s.bankFmt w ty sp ((s.ctx w).src a) ((s.ctx w).offset ix (scaleV sc) D))))
    (ho : ∀ s w, memOperand s w i = memOperand.vector s w a ix sc ty sp pol D) : Stores_ i (stvOp b a ix sc ty sp pol D) := by
  intro w s t o l bs fl h1 h2 hr
  rw [hf] at h1
  rw [ho, memOperand_vector] at h2
  cases h2
  have hv : storeForm.vector s w b ty (s.bankFmt w ty sp ((s.ctx w).src a) ((s.ctx w).offset ix (scaleV sc) D)) =
      stvBytes ty (s.bankFmt w ty sp ((s.ctx w).src a) ((s.ctx w).offset ix (scaleV sc) D)) ((s.ctx w).vsrc (rawWidth ty) b) := by
    cases ty <;> rfl
  rw [hv] at h1
  simp only [stvOp, hr, Option.some.inj h1]
  exact ⟨fun e he => by rw [he], fun u hu => ⟨_, by rw [hu], Raised.onCtx ..⟩⟩

/-- An instruction with the form of a store is an ST or an STV. -/
theorem store_cases {i : Instr} {s : State} {w : Nat} {x : List Byte × Nat} (h : storeForm s w i = some x) :
    ∃ f, (∀ s, exec i s = each s f) ∧ Stores_ i f := by
  unfold storeForm at h
  split at h
  · exact ⟨_, fun _ => rfl, stOp_stores _ _ _ _ _ _ _ _ (fun _ _ => rfl) (fun _ _ => rfl)⟩
  · exact ⟨_, fun _ => rfl, stOp_stores _ _ _ _ _ _ _ _ (fun _ _ => rfl) (fun _ _ => rfl)⟩
  · exact ⟨_, fun _ => rfl, stvOp_stores _ _ _ _ _ _ _ _ (fun _ _ => rfl) (fun _ _ => rfl)⟩
  · exact ⟨_, fun _ => rfl, stvOp_stores _ _ _ _ _ _ _ _ (fun _ _ => rfl) (fun _ _ => rfl)⟩
  · cases h

/-- What a store stores is the same in states that are alike to its context. -/
theorem Near.storeForm {w : Nat} {s t : State} (h : Near w s t) (i : Instr) : Machine.storeForm t w i = Machine.storeForm s w i := by
  have hs : ∀ b ty, storeForm.scalar t w b ty = storeForm.scalar s w b ty := fun b ty => by
    unfold storeForm.scalar; rw [h.ctx]
  have hv : ∀ b ty fmt, storeForm.vector t w b ty fmt = storeForm.vector s w b ty fmt := fun b ty fmt => by
    unfold storeForm.vector; rw [h.ctx]
  unfold Machine.storeForm
  split <;> simp only [hs, hv, h.bankFmt, h.ctx]

/-! ### Stores to the log -/

theorem Raised.ctxs {w fl : Nat} {u v : State} (h : Raised w fl u v) : v = { u with ctxs := v.ctxs } := by
  obtain ⟨_, rfl⟩ := h.frame; rfl

/-- Single runs that add entries and flags to their own context make an instruction that does so on each. -/
theorem logs_added {i : Instr} {s : State} {f : Nat → State → Except Stop State} (P : Nat → List LogItem → Nat → Prop) (he : exec i s = each s f)
    (hstep : ∀ m ∈ s.members s.cur, ∀ t, (∃ a, t = { s with ctxs := a }) → t.ctx m = s.ctx m → ∃ t' u v new fl,
      f m t = .ok v ∧ Sim m s t' ∧ Apart m t t' ∧ Logged m t' u new ∧ Raised m fl u v ∧ P m new fl) :
    ∃ t, exec i s = .next t ∧ t = { s with ctxs := t.ctxs } ∧ (∀ w, w ∉ s.members s.cur → t.ctx w = s.ctx w) ∧
      ∀ w ∈ s.members s.cur, ∃ new fl, P w new fl ∧ t.ctx w = (((s.ctx w).logged new).raise fl).retired := by
  obtain ⟨u, v, hv, ⟨a, hF⟩, hu, hother, hmem⟩ := each_frame (s := s) (f := f) (fun t => ∃ a, t = { s with ctxs := a })
    (fun w c => ∃ new fl, P w new fl ∧ c = ((s.ctx w).logged new).raise fl) ⟨_, rfl⟩
    (fun m _ c ⟨new, fl, _, hc⟩ => by rw [hc]; rfl) (fun m hm t hF hc => by
      obtain ⟨t', u, v, new, fl, hf, hS, hA, hL, hR, hP⟩ := hstep m hm t hF hc
      refine ⟨v, hf, ?_, fun j hj => ?_, new, fl, hP, ?_⟩
      · obtain ⟨a, rfl⟩ := hF
        obtain ⟨b, d, rfl⟩ := hS.frame
        obtain ⟨e, rfl⟩ := hL.frame
        obtain ⟨g, rfl⟩ := hR.frame
        have := hA.uid
        simp only at this
        subst this
        exact ⟨g, rfl⟩
      · rw [hR.others j hj, hL.others j hj, hA.others j hj]
      · rw [hR.own, hL.own, hS.ctx])
  refine ⟨v, he.trans hv, by rw [hu, hF], hother, fun w hw => ?_⟩
  obtain ⟨⟨new, fl, hP, hq⟩, hr⟩ := hmem w hw
  exact ⟨new, fl, hP, by rw [hr, hq]⟩

/-- A single run that changes its own context alone, behind translation, in a firing of one context. -/
theorem single_run {i : Instr} {s v : State} {f : Nat → State → Except Stop State} (h1 : s.single) (he : exec i s = each s f)
    (hf : f s.cur s = .ok v) (hg : (v.ctx s.cur).gang = (s.ctx s.cur).gang) :
    exec i s = .next (v.after s.cur id) := by
  rw [he, each_single h1, hf]
  exact congrArg _ (State.retire_single (hg.trans h1))

theorem loggedStores_single {i : Instr} {s u : State} {o : MemOperand} {l : List RByte} {bs : List Byte} {fl : Nat} (h1 : s.single)
    (hf : storeForm s s.cur i = some (bs, fl)) (ho : memOperand s s.cur i = some o)
    (hr : s.resolve s.cur o.sp o.base o.off o.n o.align .write = .ok (u, l)) {v : State}
    (hv : u.storeAt s.cur (opOffset o.sp o.base o.off) l o.pol bs = .ok v) (hg : (v.ctx s.cur).gang = (s.ctx s.cur).gang) :
    ∃ t, exec i s = .next (t.after s.cur id) ∧ Raised s.cur fl v t := by
  obtain ⟨f, he, hst⟩ := store_cases hf
  obtain ⟨t, ht, hR⟩ := (hst s.cur s u o l bs fl hf ho hr).2 v hv
  exact ⟨t, single_run h1 (he s) ht (by rw [hR.own]; exact hg), hR⟩

theorem Near.loggedBytes {w : Nat} {s t : State} (h : Near w s t) {l : List RByte} (hl : Machine.loggedBytes s w l) : Machine.loggedBytes t w l := by
  unfold Machine.loggedBytes
  rw [h.region, h.ctx]
  exact hl

theorem Near.logEntries {w : Nat} {s t : State} (h : Near w s t) (va : Nat) (pol : Policy) (l : List RByte) (bs : List Byte) :
    Machine.logEntries t w va pol l bs = Machine.logEntries s w va pol l bs := by
  simp only [Machine.logEntries, h.origin]

/-- Entries in the log leave the pending imprecise faults as they are. -/
theorem Logged.pendingFault {w : Nat} {s t : State} {new : List LogItem} (h : Logged w s t new) : t.pendingFault w = s.pendingFault w := by
  have hi : ∀ m, (t.ctx m).imprec = (s.ctx m).imprec := fun m => by
    by_cases hm : m = w
    · rw [hm, h.own]; rfl
    · rw [h.others m hm]
  simp only [State.pendingFault, hi, State.members_congr t s w (by rw [h.own]; rfl)]

/-- The entry that fills the log publishes it (R19, R196). -/
theorem State.storeAt_fills {u : State} {o : Int} {l : List RByte} {pol : Policy} {bs : List Byte} (hl : loggedBytes u u.cur l)
    (hov : (u.ctx u.cur).loadOverlaps l = false) (hpub : (u.ctx u.cur).pub = false) (hpend : u.pendingFault u.cur = none)
    (hone : (logEntries u u.cur (wrap 64 o) pol l bs).length = 1) (hcount : logCount (u.ctx u.cur).log = 255) :
    u.storeAt u.cur o l pol bs =
      .ok ((u.onCtx u.cur (fun c => c.logged (logEntries u u.cur (wrap 64 o) pol l bs))).publish u.cur) := by
  rw [logEntries_eq] at hone ⊢
  have hruns := runs_logs (va := wrap 64 o) (bs := bs) hl
  rw [List.length_map, List.length_eq_one_iff] at hone
  obtain ⟨r, hr⟩ := hone
  rw [hr] at hruns ⊢
  have hL := Logged.onCtx u.cur u [u.logItem u.cur pol r]
  have hc : ¬ logCount ((u.ctx u.cur).log ++ [u.logItem u.cur pol r]) < 256 := by
    have : logCount [u.logItem u.cur pol r] = 1 := rfl
    rw [logCount_append]
    omega
  have hcommit : (u.onCtx u.cur (fun c => c.logged [u.logItem u.cur pol r])).commit u.cur =
      .ok ((u.onCtx u.cur (fun c => c.logged [u.logItem u.cur pol r])).publish u.cur) := by
    have hp : ¬ ((u.onCtx u.cur (fun c => c.logged [u.logItem u.cur pol r])).ctx u.cur).pub = true := by
      rw [hL.own]; simp [Ctx.logged, hpub]
    rw [State.commit, if_neg hp, hL.pendingFault, hpend]
  have hlog : u.logStore u.cur pol r = .ok ((u.onCtx u.cur (fun c => c.logged [u.logItem u.cur pol r])).publish u.cur) := by
    rw [State.logStore_eq, if_neg hc, hcommit]
  rw [State.storeAt, hov, touchGuard_of_logged hl, hr, if_neg Bool.false_ne_true, State.storeRuns_cons_log (hruns r (by simp)) hlog]
  rfl

/-- What publication keeps of a context. -/
theorem Ctx.Pub.keeps {c d : Ctx} (h : c.Pub d) : d.gang = c.gang ∧ d.npc = c.npc ∧ d.icnt = c.icnt ∧ d.fcsr = c.fcsr := by
  obtain ⟨_, _, _, _, _, _, _, _, _, rfl⟩ := h
  exact ⟨rfl, rfl, rfl, rfl⟩

/-- A store, in a firing of one context, that has published its log as state `v`. -/
theorem store_fills_log {i : Instr} {s u v : State} {o : MemOperand} {l : List RByte} {bs : List Byte} {fl : Nat} {new : List LogItem}
    (h1 : s.single) (hf : storeForm s s.cur i = some (bs, fl)) (ho : memOperand s s.cur i = some o)
    (hr : s.resolve s.cur o.sp o.base o.off o.n o.align .write = .ok (u, l))
    (hv : u.storeAt s.cur (opOffset o.sp o.base o.off) l o.pol bs = .ok v) (hP : (u.onCtx s.cur (fun c => c.logged new)).Pub v)
    (hempty : (v.ctx s.cur).log = []) :
    ∃ t, exec i s = .next t ∧ t = { v with ctxs := t.ctxs } ∧ (∀ w, w ≠ s.cur → t.ctx w = v.ctx w) ∧ (t.ctx s.cur).log = [] ∧
      t.ctx s.cur = { v.ctx s.cur with pc := (u.ctx s.cur).npc, xlate := [], icnt := (u.ctx s.cur).icnt + 1, pub := false,
                                       fcsr := (u.ctx s.cur).fcsr ||| BitVec.ofNat 32 (fl % 64 * 2 ^ 8) } := by
  obtain ⟨x, hx⟩ := (Looked.resolve hr).ctx
  have hP := hP.ctx s.cur
  rw [State.onCtx_ctx, if_pos rfl] at hP
  obtain ⟨hgang, hnpc, hicnt, hfcsr⟩ := hP.keeps
  have hug : (u.ctx s.cur).gang = (s.ctx s.cur).gang := by rw [hx]
  obtain ⟨t, ht, hR⟩ := loggedStores_single h1 hf ho hr hv (hgang.trans hug)
  refine ⟨_, ht, ?_, fun w hw => ?_, ?_, ?_⟩
  · obtain ⟨_, rfl⟩ := hR.frame; rfl
  · rw [State.after, State.onCtx_ctx, if_neg hw, hR.others w hw]
  · rw [State.after, State.onCtx_ctx, if_pos rfl]
    change (t.ctx s.cur).log = []
    rw [hR.own]
    exact hempty
  · rw [State.after, State.onCtx_ctx, if_pos rfl, hR.own]
    simp only [id, Ctx.retired, Ctx.raise, hnpc, hicnt, hfcsr]
    rfl

/-- Settles O23: a store of logged bytes appends its runs to the log of its context, and fills it at the 256th. -/
theorem loggedStores : Obligations.LoggedStores := by
  refine ⟨fun i s o l bs fl _ h => ?_, fun i s u o l bs fl h1 _ hf ho hr hl hov hpub hpend hone hcount => ?_,
    fun i s u o l bs fl h1 _ hf ho hr hl hov hn => ?_⟩
  · obtain ⟨f, he, hst⟩ := store_cases (h _ (s.mem_members_self _)).1
    obtain ⟨t, ht, hfr, hoth, hm⟩ := logs_added (fun w new n => new = logEntries s w (o w).va (o w).pol (l w) (bs w) ∧ n = fl w) (he s)
      (fun m hm t hF hc => by
        obtain ⟨hf, ho, hsp, hr, hl, hov, hn⟩ := h m hm
        have hS : Sim m s t := ⟨by obtain ⟨a, rfl⟩ := hF; exact ⟨a, _, rfl⟩, hc⟩
        have hN := hS.near
        obtain ⟨u, hu, hL⟩ := State.storeAt_logged (o := opOffset (o m).sp (o m).base (o m).off) (pol := (o m).pol) (bs := bs m) (hN.loggedBytes hl)
          (by rw [hc]; exact hov) (by rw [hc, hN.logEntries]; exact hn)
        obtain ⟨v, hv, hR⟩ := (hst m t t (o m) (l m) (bs m) (fl m) ((hN.storeForm i).trans hf) ((hN.memOperand i).trans ho) (hN.resolve hsp hr)).2 u hu
        exact ⟨t, u, v, _, _, hv, hS, Apart.refl .., hL, hR, hN.logEntries .., rfl⟩)
    refine ⟨t, ht, hfr, hoth, fun w hw => ?_⟩
    obtain ⟨_, _, ⟨rfl, rfl⟩, hw⟩ := hm w hw
    exact hw
  · have hLk := Looked.resolve hr
    have hcur := hLk.cur
    rw [← hcur] at hl hov hpub hpend hone hcount
    have hv := State.storeAt_fills hl hov hpub hpend hone hcount
    rw [hcur] at hv
    obtain ⟨x, hx⟩ := hLk.ctx
    have hg : ((u.onCtx s.cur (fun c => c.logged (logEntries u s.cur o.va o.pol l bs))).ctx s.cur).gang = false := by
      rw [State.onCtx_ctx, if_pos rfl, hx]; exact h1
    exact store_fills_log h1 hf ho hr hv (State.Pub.publish ..) (State.publish_empties hg).1
  · have hLk := Looked.resolve hr
    obtain ⟨x, hx⟩ := hLk.ctx
    obtain ⟨v, hv, hL⟩ := State.storeAt_logged (o := opOffset o.sp o.base o.off) (pol := o.pol) (bs := bs) hl hov hn
    obtain ⟨t, ht, hR⟩ := loggedStores_single h1 hf ho hr hv (by rw [hL.own, hx]; rfl)
    refine ⟨_, ht, ?_, fun w hw => ?_, ?_⟩
    · obtain ⟨_, rfl⟩ := hL.frame
      obtain ⟨_, rfl⟩ := hR.frame
      rfl
    · rw [State.after, State.onCtx_ctx, if_neg hw, hR.others w hw, hL.others w hw]
    · rw [State.after, State.onCtx_ctx, if_pos rfl, hR.own, hL.own]
      rfl

end Sys2Proof.Machine

/-! ## ScratchpadStores (O22) -/

namespace Sys2Proof.Machine

/-! ### Stores to ports -/

/-- Stores on their way to ports, named from `n` on. -/
structure PortQueue (q : List Pending) (n : Nat) : Prop where
  uids : q.map (fun e => e.uid) = (List.range q.length).map (fun k => n + k)
  port : ∀ e ∈ q, e.via = .port ∧ e.bytes ≠ []

theorem PortQueue.nil (n : Nat) : PortQueue [] n := ⟨rfl, fun _ h => by cases h⟩

theorem PortQueue.append {p q : List Pending} {n : Nat} (hp : PortQueue p n) (hq : PortQueue q (n + p.length)) : PortQueue (p ++ q) n := by
  refine ⟨?_, fun e he => ?_⟩
  · rw [List.map_append, hp.uids, hq.uids, List.length_append, List.range_add, List.map_append, List.map_map]
    congr 1
    refine List.map_congr_left fun k _ => ?_
    simp only [Function.comp_apply]
    omega
  · rcases List.mem_append.1 he with he | he
    · exact hp.port e he
    · exact hq.port e he

/-- Stores to ports are not counted in `st` (R376). -/
theorem PortQueue.uncounted {q : List Pending} {n : Nat} (h : PortQueue q n) {e : Pending} (he : e ∈ q) : e.counted = false := by
  simp [Pending.counted, (h.port e he).1]

/-- What the stores write, each byte with its address and its origin. -/
def queueCells (q : List Pending) : List (Origin × Nat × Byte) := q.flatMap (fun e => e.cells.map (fun x => (e.org, x)))

theorem queueCells_append (p q : List Pending) : queueCells (p ++ q) = queueCells p ++ queueCells q := List.flatMap_append

/-- From `s` to `t` context `w` has sent these bytes to ports, and recorded imprecise faults. -/
structure PortSent (w : Nat) (s t : State) (cells : List (Nat × Byte)) : Prop where
  frame : ∃ q a, t = { s with wq := s.wq ++ q, ctxs := a, uid := s.uid + q.length } ∧ PortQueue q s.uid ∧
    queueCells q = cells.map (fun x => (s.origin w, x))
  others : ∀ j, j ≠ w → t.ctx j = s.ctx j
  own : ∃ f oc, t.ctx w = { s.ctx w with ocSt := oc, imprec := (s.ctx w).imprec ++ f } ∧ (oc = (s.ctx w).ocSt ∨ oc = min 255 (s.stOut w))

/-- Queued stores to ports leave the count of a context as it is. -/
theorem State.stOut_port {s : State} {q : List Pending} {n : Nat} (hq : PortQueue q n) (a : FMap Ctx) (d w : Nat)
    (hf : (State.ctx { s with wq := s.wq ++ q, ctxs := a, uid := d } w).fid = (s.ctx w).fid) :
    State.stOut { s with wq := s.wq ++ q, ctxs := a, uid := d } w = s.stOut w := by
  simp only [State.stOut, hf, List.filter_append, List.length_append]
  have : q.filter (fun e => e.counted && decide (e.org.w = w) && decide (e.org.fid = (s.ctx w).fid)) = [] := by
    rw [List.filter_eq_nil_iff]
    intro e he
    simp [hq.uncounted he]
  rw [this]; simp

namespace PortSent

variable {w : Nat} {s t u : State} {cells cells' : List (Nat × Byte)}

theorem refl (w : Nat) (s : State) : PortSent w s s [] :=
  ⟨⟨[], s.ctxs, by simp, PortQueue.nil _, rfl⟩, fun _ _ => rfl, [], (s.ctx w).ocSt, by simp, .inl rfl⟩

theorem origin (h : PortSent w s t cells) : t.origin w = s.origin w := by
  obtain ⟨f, oc, hc, _⟩ := h.own
  simp only [State.origin, hc]
  rfl

theorem stOut (h : PortSent w s t cells) : t.stOut w = s.stOut w := by
  obtain ⟨f, oc, hc, _⟩ := h.own
  obtain ⟨q, a, rfl, hq, _⟩ := h.frame
  exact State.stOut_port hq a _ w (by rw [hc])

theorem region (h : PortSent w s t cells) : t.region = s.region := by obtain ⟨q, a, rfl, _⟩ := h.frame; rfl

theorem trans (h : PortSent w s t cells) (k : PortSent w t u cells') : PortSent w s u (cells ++ cells') := by
  refine ⟨?_, fun j hj => (k.others j hj).trans (h.others j hj), ?_⟩
  · have ho := h.origin
    obtain ⟨q', b, hu, hq', hc'⟩ := k.frame
    obtain ⟨q, a, ht, hq, hc⟩ := h.frame
    rw [ho] at hc'
    have hid : t.uid = s.uid + q.length := by rw [ht]
    rw [hid] at hq'
    refine ⟨q ++ q', b, ?_, hq.append hq', by rw [queueCells_append, hc, hc', List.map_append]⟩
    subst ht
    rw [hu]
    simp [Nat.add_assoc]
  · have hs := h.stOut
    obtain ⟨f, oc, hc, hoc⟩ := h.own
    obtain ⟨f', oc', hc', hoc'⟩ := k.own
    refine ⟨f ++ f', oc', by rw [hc', hc]; simp, ?_⟩
    rcases hoc' with rfl | rfl
    · rw [hc]; exact hoc
    · rw [hs]; exact .inr rfl

/-- An imprecise fault recorded against the instruction in progress. -/
theorem note (w : Nat) (s : State) (code detail : Nat) (va : Word) : PortSent w s (s.note w code detail va) [] := by
  by_cases hk : (s.ctx w).kind = .none
  · have : s.note w code detail va = s := by
      rw [State.note, State.imprecise, if_neg (by rintro ⟨_, h⟩; exact h hk)]
    rw [this]; exact refl w s
  · obtain ⟨f, hf, _⟩ := State.note_eq hk code detail va
    rw [hf]
    exact ⟨⟨[], _, by rw [List.append_nil]; rfl, PortQueue.nil _, rfl⟩, fun j hj => by rw [State.onCtx_ctx, if_neg hj], [f], (s.ctx w).ocSt,
      by rw [State.onCtx_ctx, if_pos rfl], .inl rfl⟩

theorem touchGuard (w : Nat) (s : State) (o : Int) (l : List RByte) : PortSent w s (s.touchGuard w o l) [] := by
  unfold State.touchGuard
  split
  · exact note ..
  · exact refl ..

/-- A store sent to a port. -/
theorem sendStore (w : Nat) (s : State) (pa hb cls : Nat) (pol : Policy) (bs : List Byte) (hbs : bs ≠ []) :
    PortSent w s (s.sendStore (pendingOf (s.origin w) .port pa hb cls pol bs 0 0)) (cellsAt pa bs) := by
  have hq : PortQueue [{ pendingOf (s.origin w) .port pa hb cls pol bs 0 0 with uid := s.uid }] s.uid :=
    ⟨rfl, fun e he => by rw [List.mem_singleton] at he; subst he; exact ⟨rfl, hbs⟩⟩
  have hst := State.stOut_port hq s.ctxs s.uid w rfl
  refine ⟨⟨_, _, rfl, hq, by simp [queueCells]; rfl⟩, fun j hj => ?_, [], min 255 (s.stOut w), ?_, .inr rfl⟩
  · rw [State.sendStore, State.fresh_ctx, State.countSt, State.onCtx_ctx, if_neg (by exact hj)]
    rfl
  · rw [State.sendStore, State.fresh_ctx, State.countSt, State.onCtx_ctx, if_pos (by rfl)]
    rw [List.append_nil, ← hst]
    rfl

end PortSent

/-- A run that is sent to a port: it begins in a scratchpad, outside the state segment. -/
def State.ports (s : State) (w : Nat) (r : Run) : Prop :=
  r.bytes ≠ [] ∧ ∃ gc a, s.region r.pa = .scratch gc a ∧ (s.ctx w).inState w gc a = false

/-- Runs sent to ports, in order. -/
theorem State.storeRuns_port {w : Nat} {pol : Policy} (l : List Run) : ∀ {s : State}, (∀ r ∈ l, s.ports w r) →
    ∃ t, s.storeRuns w pol l = .ok t ∧ PortSent w s t (l.flatMap (fun r => cellsAt r.pa r.bytes)) := by
  induction l with
  | nil => exact fun {s} _ => ⟨s, rfl, PortSent.refl ..⟩
  | cons r l ih =>
    intro s hl
    obtain ⟨hne, gc, a, hr, hin⟩ := hl r (by simp)
    have h1 := PortSent.sendStore w s r.pa r.hb r.cls pol r.bytes hne
    generalize hu : s.sendStore (pendingOf (s.origin w) .port r.pa r.hb r.cls pol r.bytes 0 0) = u at h1
    obtain ⟨t, ht, h2⟩ := ih (s := u) (fun x hx => by
      obtain ⟨hne, gc, a, hr, hin⟩ := hl x (List.mem_cons_of_mem _ hx)
      refine ⟨hne, gc, a, by rw [h1.region, hr], ?_⟩
      obtain ⟨f, oc, hc, _⟩ := h1.own
      rw [hc]; exact hin)
    refine ⟨t, ?_, h1.trans h2⟩
    rw [State.storeRuns, hr]
    simp only [hin, hu]
    exact ht

/-- Bytes of scratchpads outside the state segment are sent to their ports (R215). -/
theorem State.storeAt_port {s : State} {w : Nat} {o : Int} {l : List RByte} {pol : Policy} {bs : List Byte} (hl : portBytes s w l)
    (hov : (s.ctx w).loadOverlaps l = false) : ∃ t, s.storeAt w o l pol bs = .ok t ∧ PortSent w s t (cellsOf l bs) := by
  have h1 := PortSent.touchGuard w s o l
  obtain ⟨t, ht, h2⟩ := State.storeRuns_port (w := w) (pol := pol) (runsOf (wrap 64 o) (l.zip bs)) (s := s.touchGuard w o l) (fun r hr => by
    obtain ⟨hne, hb, cls, hm⟩ := runsOf_start hr
    obtain ⟨gc, a, hreg, hin, _⟩ := hl _ _ _ hm
    refine ⟨hne, gc, a, by rw [h1.region, hreg], ?_⟩
    obtain ⟨f, oc, hc, _⟩ := h1.own
    rw [hc]; exact hin)
  rw [runsOf_cells] at h2
  exact ⟨t, by rw [State.storeAt, hov]; exact ht, h1.trans h2⟩

/-! ### Port stores of every context of a firing -/

/-- Each of some contexts has sent bytes to ports: as `sentToPort` says it, with the names given out, and each context as `X` has it. -/
structure AllSent (s t : State) (sent : List (Nat × List (Nat × Byte))) (X : Nat → Ctx → Prop) : Prop where
  frame : ∃ q a, t = { s with wq := s.wq ++ q, ctxs := a, uid := s.uid + q.length } ∧ PortQueue q s.uid ∧
    queueCells q = sent.flatMap (fun y => y.2.map (fun x => (s.origin y.1, x)))
  others : ∀ m, m ∉ sent.map (fun y => y.1) → t.ctx m = s.ctx m
  own : ∀ m ∈ sent.map (fun y => y.1), X m (t.ctx m) ∧ ((t.ctx m).ocSt = (s.ctx m).ocSt ∨ (t.ctx m).ocSt = min 255 (s.stOut m))

theorem AllSent.refl (s : State) (X : Nat → Ctx → Prop) : AllSent s s [] X :=
  ⟨⟨[], s.ctxs, by simp, PortQueue.nil _, rfl⟩, fun _ _ => rfl, fun _ h => by cases h⟩

/-- One more context sends its bytes, and raises flags. -/
theorem AllSent.snoc {s t u v : State} {sent : List (Nat × List (Nat × Byte))} {X : Nat → Ctx → Prop} (h : AllSent s t sent X) {w : Nat}
    (hw : w ∉ sent.map (fun y => y.1)) {cells : List (Nat × Byte)} (k : PortSent w t u cells) {fl : Nat} (hR : Raised w fl u v)
    (hX : X w (v.ctx w)) : AllSent s v (sent ++ [(w, cells)]) X := by
  have hc := h.others w hw
  have horg : t.origin w = s.origin w := by simp only [State.origin, hc]
  have hst : t.stOut w = s.stOut w := by
    obtain ⟨q, a, rfl, hq, _⟩ := h.frame
    exact State.stOut_port hq a _ w (by rw [hc])
  refine ⟨?_, fun m hm => ?_, fun m hm => ?_⟩
  · obtain ⟨q, a, rfl, hq, hcells⟩ := h.frame
    obtain ⟨q', b, rfl, hq', hcells'⟩ := k.frame
    obtain ⟨e, rfl⟩ := hR.frame
    rw [horg] at hcells'
    refine ⟨q ++ q', e, ?_, hq.append hq', ?_⟩
    · simp [Nat.add_assoc]
    · rw [queueCells_append, hcells, hcells']
      simp
  · simp only [List.map_append, List.mem_append, List.map_cons, List.map_nil, List.mem_singleton, not_or] at hm
    rw [hR.others m hm.2, k.others m hm.2, h.others m hm.1]
  · by_cases hmw : m = w
    · subst hmw
      refine ⟨hX, ?_⟩
      obtain ⟨f, oc, hoc, hor⟩ := k.own
      rw [hR.own, hoc, ← hst, ← hc]
      exact hor
    · have hm' : m ∈ sent.map (fun y => y.1) := by simpa [hmw] using hm
      rw [hR.others m hmw, k.others m hmw]
      exact h.own m hm'

/-- A context that has sent stores to ports: its count of stores, the imprecise faults behind those it had, and its flags. -/
def Ctx.sent (c : Ctx) (oc : Nat) (f : List Imprecise) (fl : Nat) : Ctx :=
  { c with ocSt := oc, imprec := c.imprec ++ f, fcsr := c.fcsr ||| BitVec.ofNat 32 (fl % 64 * 2 ^ 8) }

/-- Single runs that each send bytes to ports make an instruction that sends those of each context, in order. -/
theorem ports_sent {i : Instr} {s : State} {f : Nat → State → Except Stop State} (cells : Nat → List (Nat × Byte)) (P : Nat → Nat → Prop)
    (he : exec i s = each s f)
    (hstep : ∀ m ∈ s.members s.cur, ∀ t, Near m s t → ∃ u v fl, f m t = .ok v ∧ PortSent m t u (cells m) ∧ Raised m fl u v ∧ P m fl) :
    ∃ t, exec i s = .next t ∧ sentToPort s t ((s.members s.cur).map (fun w => (w, cells w))) ∧
      ∀ w ∈ s.members s.cur, ∃ fl f, P w fl ∧ t.ctx w = ((s.ctx w).sent (t.ctx w).ocSt f fl).retired := by
  obtain ⟨u, hu, hS⟩ := each_induct (s := s) (f := f) (fun done t => AllSent s t (done.map (fun w => (w, cells w)))
    (fun w c => ∃ fl f, P w fl ∧ c = (s.ctx w).sent c.ocSt f fl)) (AllSent.refl ..) (fun done m t hm hd h => by
      have hd' : m ∉ (done.map (fun w => (w, cells w))).map (fun y => y.1) := by simpa using hd
      have hc := h.others m hd'
      have hN : Near m s t := by
        obtain ⟨q, a, rfl, _⟩ := h.frame
        exact ⟨⟨a, _, _, _, rfl⟩, fun _ => ⟨_, rfl⟩, hc⟩
      obtain ⟨u, v, fl, hf, hP, hR, hfl⟩ := hstep m hm t hN
      refine ⟨v, hf, ?_⟩
      rw [List.map_append]
      refine h.snoc hd' hP hR ⟨fl, ?_⟩
      obtain ⟨g, oc, hoc, _⟩ := hP.own
      refine ⟨g, hfl, ?_⟩
      rw [hR.own, hoc, hc]
      rfl)
  have hmem : ((s.members s.cur).map (fun w => (w, cells w))).map (fun y => y.1) = s.members s.cur := by
    rw [List.map_map]; exact List.map_id _
  have hown := fun w (hw : w ∈ s.members s.cur) => hS.own w (by rw [hmem]; exact hw)
  have hg : (u.ctx s.cur).gang = (s.ctx s.cur).gang := by
    obtain ⟨⟨fl, f, _, hc⟩, _⟩ := hown _ (s.mem_members_self _)
    rw [hc]
    rfl
  obtain ⟨hr, hrc⟩ := State.retire_of_gang hg
  refine ⟨_, he.trans hu, ⟨?_, ?_, fun m hm => ?_, fun m hm => ?_⟩, fun w hw => ?_⟩
  · obtain ⟨q, a, hq, hQ, hcells⟩ := hS.frame
    exact ⟨q, by rw [hr, hq], hQ.uids, hQ.port, hcells⟩
  · obtain ⟨q, a, hq, _⟩ := hS.frame
    generalize u.retire s.cur = v at hr ⊢
    generalize v.ctxs = x at hr ⊢
    rw [hr, hq]
  · rw [hmem] at hm
    rw [hrc, if_neg hm, hS.others m (by rw [hmem]; exact hm)]
  · rw [hmem] at hm
    rw [hrc, if_pos hm]
    exact (hown m hm).2
  · obtain ⟨⟨fl, f, hP, hc⟩, _⟩ := hown w hw
    refine ⟨fl, f, hP, ?_⟩
    rw [hrc, if_pos hw]
    exact congrArg Ctx.retired hc

end Sys2Proof.Machine

/-! ## ScratchpadStores (O22): a context reads what it has sent to a port -/

namespace Sys2Proof.Machine

/-! ### Stores as single bytes -/

/-- A store over a byte, seen byte by byte. -/
theorem foldl_cellsAt (g : Byte → Byte → Byte) (pa : Nat) (bs : List Byte) : ∀ (a : Nat) (b : Byte),
    (cellsAt a bs).foldl (fun b y => if y.1 = pa then g b y.2 else b) b =
      if a ≤ pa ∧ pa < a + bs.length then g b (bs.getD (pa - a) 0) else b := by
  induction bs with
  | nil =>
    intro a b
    rw [if_neg (by simp)]; rfl
  | cons x bs ih =>
    intro a b
    rw [cellsAt_cons, List.foldl_cons, ih]
    by_cases h : a = pa
    · subst h
      rw [if_pos rfl, if_neg (by omega), if_pos (by simp)]
      simp
    · rw [if_neg h]
      by_cases h1 : a + 1 ≤ pa ∧ pa < a + 1 + bs.length
      · rw [if_pos h1, if_pos (by simp only [List.length_cons]; omega), show pa - a = pa - (a + 1) + 1 by omega, List.getD_cons_succ]
      · rw [if_neg h1, if_neg (by simp only [List.length_cons]; omega)]

/-- Stores in order over a byte, seen byte by byte. -/
theorem foldl_stores (g : Byte → Byte → Byte) (pa : Nat) (q : List Pending) : ∀ b : Byte,
    (q.map (fun e => (e.pa, e.bytes))).foldl (fun b x => if x.1 ≤ pa ∧ pa < x.1 + x.2.length then g b (x.2.getD (pa - x.1) 0) else b) b =
      (q.flatMap Pending.cells).foldl (fun b y => if y.1 = pa then g b y.2 else b) b := by
  induction q with
  | nil => exact fun _ => rfl
  | cons e q ih =>
    intro b
    rw [List.map_cons, List.foldl_cons, ih, List.flatMap_cons, List.foldl_append, Pending.cells_eq, foldl_cellsAt]

/-- Bytes written in order leave the last one at each address. -/
theorem foldl_cellsOf (l : List RByte) (bs : List Byte) (pa : Nat) (old : Byte) :
    (cellsOf l bs).foldl (fun b y => if y.1 = pa then y.2 else b) old = byteAfter l bs pa old := by
  unfold cellsOf byteAfter
  induction l.zip bs using List.reverseRecOn with
  | nil => rfl
  | append_singleton z x ih =>
    rw [List.filterMap_append, List.foldl_append, ih, List.reverse_append, List.reverse_singleton, List.singleton_append, List.find?_cons]
    obtain ⟨y, b⟩ := x
    cases y with
    | guard k o => rfl
    | mem a hb cls =>
      by_cases h : a = pa
      · subst h; simp [RByte.pa?]
      · simp [RByte.pa?, h]

/-! ### The stores of one context among those of all -/

/-- The bytes of the stores of context `w`. -/
theorem flatMap_cells_of (w : Nat) (q : List Pending) :
    ((queueCells q).filter (fun x => decide (x.1.w = w))).map (fun x => x.2) = (q.filter (fun e => decide (e.org.w = w))).flatMap Pending.cells := by
  induction q with
  | nil => rfl
  | cons e q ih =>
    have hc : queueCells (e :: q) = e.cells.map (fun x => (e.org, x)) ++ queueCells q := rfl
    rw [hc, List.filter_append, List.map_append, ih, List.filter_cons]
    by_cases h : e.org.w = w
    · have : (e.cells.map (fun x => (e.org, x))).filter (fun x => decide (x.1.w = w)) = e.cells.map (fun x => (e.org, x)) := by
        rw [List.filter_eq_self]
        intro x hx
        obtain ⟨y, _, rfl⟩ := List.mem_map.1 hx
        simp [h]
      simp [this, h]
    · have : (e.cells.map (fun x => (e.org, x))).filter (fun x => decide (x.1.w = w)) = [] := by
        rw [List.filter_eq_nil_iff]
        intro x hx
        obtain ⟨y, _, rfl⟩ := List.mem_map.1 hx
        simp [h]
      simp [this, h]

/-- The bytes that one of several contexts has sent. -/
theorem flatMap_sent_of (s : State) (cells : Nat → List (Nat × Byte)) (w : Nat) (ms : List Nat) (hn : ms.Nodup) :
    ((((ms.map (fun w => (w, cells w))).flatMap (fun y => y.2.map (fun x => (s.origin y.1, x)))).filter (fun x => decide (x.1.w = w))).map
      (fun x => x.2)) = if w ∈ ms then cells w else [] := by
  induction ms with
  | nil => rfl
  | cons m ms ih =>
    obtain ⟨hm, hn⟩ := List.nodup_cons.1 hn
    rw [List.map_cons, List.flatMap_cons, List.filter_append, List.map_append, ih hn]
    by_cases h : m = w
    · subst h
      have : ((cells m).map (fun x => (s.origin m, x))).filter (fun x => decide (x.1.w = m)) = (cells m).map (fun x => (s.origin m, x)) := by
        rw [List.filter_eq_self]
        intro x hx
        obtain ⟨y, _, rfl⟩ := List.mem_map.1 hx
        simp [State.origin]
      simp [this, hm]
    · have : ((cells m).map (fun x => (s.origin m, x))).filter (fun x => decide (x.1.w = w)) = [] := by
        rw [List.filter_eq_nil_iff]
        intro x hx
        obtain ⟨y, _, rfl⟩ := List.mem_map.1 hx
        simp [State.origin, h]
      simp [this, Ne.symm h]

/-! ### Bytes behind further stores -/

theorem State.writeCfg_present (s : State) (gc v : Nat) : (s.writeCfg gc v).present = s.present := by
  simp only [State.writeCfg]
  split <;> rfl

theorem State.writeCtl_present (s : State) (cl off v : Nat) : (s.writeCtl cl off v).present = s.present := by
  unfold State.writeCtl
  split
  · rfl
  · split
    · exact s.writeCfg_present ..
    · split
      · rfl
      · split <;> rfl

theorem State.storeCtl_present (n : Nat) : ∀ (s : State) (cl off : Nat) (bs : List Byte), (s.storeCtl cl off n bs).present = s.present := by
  induction n with
  | zero => exact fun _ _ _ _ => rfl
  | succ n ih =>
    intro s cl off bs
    cases bs with
    | nil => rfl
    | cons b bs => simp only [State.storeCtl, ih, State.writeCtl_present]

/-- A store into a control block, as `State.byteWith` makes it. -/
def State.ctlStep (s : State) (x : Nat × List Byte) : State := match s.region x.1 with | .ctl cl off => s.storeCtl cl off 9 x.2 | _ => s

theorem State.ctlStep_present (s : State) (x : Nat × List Byte) : (s.ctlStep x).present = s.present := by
  unfold State.ctlStep
  split
  · exact State.storeCtl_present ..
  · rfl

theorem State.foldl_ctlStep_present (q : Stores) : ∀ s : State, (q.foldl State.ctlStep s).present = s.present := by
  induction q with
  | nil => exact fun _ => rfl
  | cons x q ih => intro s; rw [List.foldl_cons, ih, State.ctlStep_present]

/-- Stores to scratchpads leave the control blocks as they are. -/
theorem State.foldl_ctlStep_scratch {s : State} (q : Stores) (hq : ∀ x ∈ q, ∃ gc a, s.region x.1 = .scratch gc a) :
    ∀ t : State, t.present = s.present → q.foldl State.ctlStep t = t := by
  induction q with
  | nil => exact fun _ _ => rfl
  | cons x q ih =>
    intro t ht
    have hr : t.region = s.region := by funext pa; simp only [State.region, ht]
    obtain ⟨gc, a, hx⟩ := hq x (by simp)
    have hs : t.ctlStep x = t := by unfold State.ctlStep; rw [hr, hx]
    rw [List.foldl_cons, hs]
    exact ih (fun y hy => hq y (List.mem_cons_of_mem _ hy)) t ht

/-- Stores that miss a byte leave it as it is. -/
theorem foldl_stores_miss (pa : Nat) (g : Byte → Nat × List Byte → Byte) (q : Stores) (h : ∀ x ∈ q, pa < x.1 ∨ x.1 + x.2.length ≤ pa) :
    ∀ b : Byte, q.foldl (fun b x => if x.1 ≤ pa ∧ pa < x.1 + x.2.length then g b x else b) b = b := by
  induction q with
  | nil => exact fun _ => rfl
  | cons x q ih =>
    intro b
    have := h x (by simp)
    rw [List.foldl_cons, if_neg (by omega)]
    exact ih (fun y hy => h y (List.mem_cons_of_mem _ hy)) b

/-- Bytes written at an address, as they are, in the order of the list. -/
theorem foldl_cells_congr {pa : Nat} {g : Byte → Byte → Byte} (cells : List (Nat × Byte)) (h : ∀ y ∈ cells, y.1 = pa → ∀ b, g b y.2 = y.2) :
    ∀ b : Byte, cells.foldl (fun b y => if y.1 = pa then g b y.2 else b) b = cells.foldl (fun b y => if y.1 = pa then y.2 else b) b := by
  induction cells with
  | nil => exact fun _ => rfl
  | cons y cells ih =>
    intro b
    rw [List.foldl_cons, List.foldl_cons, ih (fun z hz => h z (List.mem_cons_of_mem _ hz))]
    by_cases hy : y.1 = pa
    · rw [if_pos hy, if_pos hy, h y (by simp) hy]
    · rw [if_neg hy, if_neg hy]

/-- Bytes at other addresses leave a byte as it is. -/
theorem foldl_cells_miss {pa : Nat} (cells : List (Nat × Byte)) (h : ∀ y ∈ cells, y.1 ≠ pa) :
    ∀ b : Byte, cells.foldl (fun b y => if y.1 = pa then y.2 else b) b = b := by
  induction cells with
  | nil => exact fun _ => rfl
  | cons y cells ih =>
    intro b
    rw [List.foldl_cons, if_neg (h y (by simp))]
    exact ih (fun z hz => h z (List.mem_cons_of_mem _ hz)) b

/-- A byte behind stores to scratchpads, outside their descriptors, in the middle of others, none of which follow that write it. -/
theorem State.byteWith_port {s : State} {pre post : Stores} {q : List Pending} {pa : Nat}
    (hq : ∀ e ∈ q, ∃ gc a, s.region e.pa = .scratch gc a)
    (hcells : ∀ y ∈ q.flatMap Pending.cells, y.1 = pa → ∃ gc a, s.region pa = .scratch gc a ∧ ¬ (0xE0000 ≤ a ∧ a < 0xE4000))
    (hpost : ∀ x ∈ post, pa < x.1 ∨ x.1 + x.2.length ≤ pa) :
    s.byteWith (pre ++ q.map (fun e => (e.pa, e.bytes)) ++ post) pa =
      (q.flatMap Pending.cells).foldl (fun b y => if y.1 = pa then y.2 else b) (s.byteWith (pre ++ post) pa) := by
  unfold State.byteWith
  split
  · next cl off hr =>
    have hmiss : ∀ y ∈ q.flatMap Pending.cells, y.1 ≠ pa := fun y hy he => by
      obtain ⟨gc, a, h, _⟩ := hcells y hy he
      rw [hr] at h; cases h
    rw [foldl_cells_miss _ hmiss]
    change (List.foldl State.ctlStep s _).rdAny pa = (List.foldl State.ctlStep s _).rdAny pa
    rw [List.foldl_append, List.foldl_append, List.foldl_append, State.foldl_ctlStep_scratch (s := s) _ (fun x hx => by
      obtain ⟨e, he, rfl⟩ := List.mem_map.1 hx
      exact hq e he) _ (State.foldl_ctlStep_present ..)]
  · next gc a hr =>
    rw [List.foldl_append, List.foldl_append, List.foldl_append,
      foldl_stores_miss pa (fun b x => s.portByte gc a b (x.2.getD (pa - x.1) 0)) post hpost,
      foldl_stores_miss pa (fun b x => s.portByte gc a b (x.2.getD (pa - x.1) 0)) post hpost, foldl_stores]
    refine foldl_cells_congr _ (fun y hy he b => ?_) _
    obtain ⟨gc', a', h, hd⟩ := hcells y hy he
    rw [hr] at h
    cases h
    exact if_neg hd
  · rw [List.foldl_append, List.foldl_append, List.foldl_append, foldl_stores_miss pa (fun _ x => x.2.getD (pa - x.1) 0) post hpost,
      foldl_stores_miss pa (fun _ x => x.2.getD (pa - x.1) 0) post hpost]
    exact foldl_stores (fun _ x => x) pa q _

/-! ### What a context reads behind the stores of its firing -/

theorem State.storesOf_append {s t : State} {q : List Pending} (h : t.wq = s.wq ++ q) (p : Pending → Bool) :
    t.storesOf p = s.storesOf p ++ (q.filter p).map (fun e => (e.pa, e.bytes)) := by
  rw [State.storesOf, h, List.filter_append, List.map_append]
  rfl

/-- Stores to ports are none of the core's outbound queue. -/
theorem State.coreStores_port {s t : State} {q : List Pending} (h : t.wq = s.wq ++ q) {n : Nat} (hq : PortQueue q n) (gc : Nat) :
    t.coreStores gc = s.coreStores gc := by
  have he : t.entered = s.entered := by
    funext e
    have : q.filter (fun x => x.counted && decide (x.org.w = e.org.w) && decide (x.org.fid = e.org.fid) && decide (x.uid < e.uid)) = [] := by
      rw [List.filter_eq_nil_iff]
      intro x hx
      simp [hq.uncounted hx]
    simp only [State.entered, h, List.filter_append, this, List.append_nil]
  have hnil : q.filter (fun e => decide (coreOf e.org.w = gc) && decide (e.via = .home) && s.entered e) = [] := by
    rw [List.filter_eq_nil_iff]
    intro e he
    simp [(hq.port e he).1]
  rw [State.coreStores, he, State.storesOf_append h, hnil]
  simp [State.coreStores]

/-- A context reads the bytes that it has sent to ports as stored (R213, R215). -/
theorem State.ownByte_sent {s t : State} {w : Nat} {q : List Pending} (hwq : t.wq = s.wq ++ q) {n : Nat} (hq : PortQueue q n)
    (hA : Alike s t) (hlog : (t.ctx w).log = (s.ctx w).log) {cells : List (Nat × Byte)}
    (hcells : (q.filter (fun e => decide (e.org.w = w))).flatMap Pending.cells = cells)
    (hport : ∀ y ∈ cells, ∃ gc a, s.region y.1 = .scratch gc a ∧ ¬ (0xE0000 ≤ a ∧ a < 0xE4000)) {pa : Nat} (hpa : notLogged s w pa) :
    t.ownByte w pa = cells.foldl (fun b y => if y.1 = pa then y.2 else b) (s.ownByte w pa) := by
  have hf : q.filter (fun e => decide (e.org.w = w) && decide (e.via ≠ .rst)) = q.filter (fun e => decide (e.org.w = w)) :=
    List.filter_congr fun e he => by simp [(hq.port e he).1]
  rw [State.ownByte, State.ownByte, hA.byteWith, State.coreStores_port hwq hq, State.storesOf_append hwq, hf, hlog, ← List.append_assoc]
  subst hcells
  refine State.byteWith_port (fun e he => ?_) (fun y hy he => ?_) hpa
  · obtain ⟨heq, hew⟩ := List.mem_filter.1 he
    have hne := (hq.port e heq).2
    have hm : (e.pa, e.bytes.getD 0 0) ∈ (q.filter (fun e => decide (e.org.w = w))).flatMap Pending.cells :=
      List.mem_flatMap.2 ⟨e, he, List.mem_map.2 ⟨0, by simpa [List.length_pos_iff] using hne, rfl⟩⟩
    obtain ⟨gc, a, hr, _⟩ := hport _ hm
    exact ⟨gc, a, hr⟩
  · subst he; exact hport y hy

/-- Bytes that lie where they can be stored at a port. -/
theorem portBytes.cells {s : State} {w : Nat} {l : List RByte} (h : portBytes s w l) (bs : List Byte) :
    ∀ y ∈ cellsOf l bs, ∃ gc a, s.region y.1 = .scratch gc a ∧ ¬ (0xE0000 ≤ a ∧ a < 0xE4000) := by
  intro y hy
  obtain ⟨⟨x, b⟩, hx, hxy⟩ := List.mem_filterMap.1 hy
  cases x with
  | guard k o => cases hxy
  | mem pa hb cls =>
    cases hxy
    obtain ⟨gc, a, hr, _, hd⟩ := h _ _ _ (List.of_mem_zip hx).1
    exact ⟨gc, a, hr, hd⟩

theorem Near.portBytes {w : Nat} {s t : State} (h : Near w s t) {l : List RByte} (hl : Machine.portBytes s w l) : Machine.portBytes t w l := by
  unfold Machine.portBytes
  rw [h.region, h.ctx]
  exact hl

/-- Settles O22: the runs of each context are queued in order, and each context reads its own. -/
theorem scratchpadStores : Obligations.ScratchpadStores := by
  intro i s o l bs fl _ h
  obtain ⟨f, he, hst⟩ := store_cases (h _ (s.mem_members_self _)).1
  obtain ⟨t, ht, hsent, hm⟩ := ports_sent (fun w => cellsOf (l w) (bs w)) (fun w n => n = fl w) (he s) (fun m hm t hN => by
    obtain ⟨hf, ho, hsp, hr, hl, hov⟩ := h m hm
    obtain ⟨u, hu, hP⟩ := State.storeAt_port (o := opOffset (o m).sp (o m).base (o m).off) (pol := (o m).pol) (bs := bs m) (hN.portBytes hl)
      (by rw [hN.ctx]; exact hov)
    obtain ⟨v, hv, hR⟩ := (hst m t t (o m) (l m) (bs m) (fl m) ((hN.storeForm i).trans hf) ((hN.memOperand i).trans ho) (hN.resolve hsp hr)).2 u hu
    exact ⟨u, v, _, hv, hP, hR, rfl⟩)
  refine ⟨t, ht, hsent, fun w hw => ?_⟩
  obtain ⟨_, f, rfl, hc⟩ := hm w hw
  obtain ⟨⟨q, hwq, huid, hport, hcells⟩, hframe, _, _⟩ := hsent
  obtain ⟨_, _, _, _, hl, _⟩ := h w hw
  refine ⟨fun pa hpa => ?_, f, hc⟩
  have hown : (q.filter (fun e => decide (e.org.w = w))).flatMap Pending.cells = cellsOf (l w) (bs w) := by
    have := flatMap_sent_of s (fun w => cellsOf (l w) (bs w)) w _ (s.members_nodup s.cur)
    rw [if_pos hw, ← hcells] at this
    rw [← flatMap_cells_of]
    exact this
  have hA : Alike s t := by
    generalize t.wq = a at hframe
    generalize t.ctxs = b at hframe
    generalize t.uid = c at hframe
    subst hframe
    exact ⟨rfl, rfl, fun _ => ⟨_, rfl⟩, fun _ => rfl⟩
  rw [State.ownByte_sent hwq ⟨huid, hport⟩ hA (by rw [hc]; rfl) hown (hl.cells _) hpa, foldl_cellsOf]

end Sys2Proof.Machine

/-! ## LDX and STX: their elements -/

namespace Sys2Proof.Machine

/-! ### Lanes set one by one -/

/-- Bits put into a number, as a sum of what lies above, in and below them. -/
theorem setBits_eq (x lo w v : Nat) : setBits x lo w v = 2 ^ lo * (2 ^ w * (x / 2 ^ lo / 2 ^ w) + v % 2 ^ w) + x % 2 ^ lo := by
  have h1 := Nat.div_add_mod x (2 ^ lo)
  have h2 := Nat.div_add_mod (x / 2 ^ lo) (2 ^ w)
  simp only [setBits, bits, Nat.shiftRight_eq_div_pow]
  have h3 : x = 2 ^ lo * (2 ^ w * (x / 2 ^ lo / 2 ^ w)) + x / 2 ^ lo % 2 ^ w * 2 ^ lo + x % 2 ^ lo := by
    calc x = 2 ^ lo * (x / 2 ^ lo) + x % 2 ^ lo := h1.symm
      _ = 2 ^ lo * (2 ^ w * (x / 2 ^ lo / 2 ^ w) + x / 2 ^ lo % 2 ^ w) + x % 2 ^ lo := by rw [h2]
      _ = _ := by ring
  generalize x / 2 ^ lo % 2 ^ w * 2 ^ lo = m at h3 ⊢
  have h4 : x - m = 2 ^ lo * (2 ^ w * (x / 2 ^ lo / 2 ^ w)) + x % 2 ^ lo := by omega
  rw [h4]; ring

/-- A lane after another, or the same, has been set. -/
theorem lane_setBits (w i j x v : Nat) : lane w i (setBits x (w * j) w v) = if i = j then v % 2 ^ w else lane w i x := by
  have hP : 0 < 2 ^ (w * j) := by positivity
  have hr : x % 2 ^ (w * j) < 2 ^ (w * j) := Nat.mod_lt _ hP
  have hdiv : setBits x (w * j) w v / 2 ^ (w * j) = 2 ^ w * (x / 2 ^ (w * j) / 2 ^ w) + v % 2 ^ w := by
    rw [setBits_eq, Nat.mul_add_div hP, Nat.div_eq_of_lt hr, add_zero]
  simp only [lane, Nat.shiftRight_eq_div_pow]
  rcases Nat.lt_trichotomy i j with h | h | h
  · rw [if_neg (by omega)]
    have hp : 2 ^ (w * j) = 2 ^ (w * i) * (2 ^ w * 2 ^ (w * (j - i - 1))) := by
      rw [← pow_add, ← pow_add]
      congr 1
      calc w * j = w * (i + (1 + (j - i - 1))) := by congr 1; omega
        _ = _ := by ring
    have hlow : ∀ y, (2 ^ (w * j) * y + x % 2 ^ (w * j)) / 2 ^ (w * i) % 2 ^ w = x % 2 ^ (w * j) / 2 ^ (w * i) % 2 ^ w := fun y => by
      rw [hp, Nat.mul_assoc, Nat.mul_add_div (by positivity), Nat.mul_assoc, Nat.mul_add_mod]
    conv_rhs => rw [← Nat.div_add_mod x (2 ^ (w * j)), hlow]
    rw [setBits_eq, hlow]
  · subst h
    rw [if_pos rfl, hdiv, Nat.mul_add_mod, Nat.mod_mod]
  · rw [if_neg (by omega)]
    have hp : 2 ^ (w * i) = 2 ^ (w * j) * (2 ^ w * 2 ^ (w * (i - j - 1))) := by
      rw [← pow_add, ← pow_add]
      congr 1
      calc w * i = w * (j + (1 + (i - j - 1))) := by congr 1; omega
        _ = _ := by ring
    rw [hp, ← Nat.div_div_eq_div_mul, ← Nat.div_div_eq_div_mul, ← Nat.div_div_eq_div_mul, ← Nat.div_div_eq_div_mul, hdiv,
      Nat.mul_add_div (by positivity), Nat.div_eq_of_lt (Nat.mod_lt v (by positivity)), add_zero]

/-- A lane of a register is a lane of the number it is made of. -/
theorem elem_ofNat {w i : Nat} (x : Nat) (h : w * i + w ≤ 512) : elem w i (BitVec.ofNat 512 x) = lane w i x := by
  have hp : 2 ^ 512 = 2 ^ (w * i) * (2 ^ w * 2 ^ (512 - (w * i + w))) := by
    rw [← pow_add, ← pow_add]
    congr 1; omega
  simp only [elem, lane, BitVec.toNat_ofNat, Nat.shiftRight_eq_div_pow]
  rw [hp, Nat.mod_mul_right_div_self, Nat.mod_mul_right_mod]

/-- Lanes set one by one, each once. -/
theorem lane_foldl_setBits (w : Nat) (rs : List (Nat × Nat × Nat)) (hn : (rs.map (fun r => r.1)).Nodup) (x : Nat) :
    (∀ r ∈ rs, lane w r.1 (rs.foldl (fun x r => setBits x (w * r.1) w r.2.1) x) = r.2.1 % 2 ^ w) ∧
    ∀ i, (∀ r ∈ rs, r.1 ≠ i) → lane w i (rs.foldl (fun x r => setBits x (w * r.1) w r.2.1) x) = lane w i x := by
  induction rs using List.reverseRecOn with
  | nil => exact ⟨fun _ h => (List.not_mem_nil h).elim, fun _ _ => rfl⟩
  | append_singleton rs r ih =>
    rw [List.map_append, List.nodup_append] at hn
    obtain ⟨hn, _, hd⟩ := hn
    obtain ⟨h1, h2⟩ := ih hn
    simp only [List.foldl_append, List.foldl_cons, List.foldl_nil, List.mem_append, List.mem_singleton]
    refine ⟨?_, fun i hi => ?_⟩
    · rintro y (hy | rfl)
      · rw [lane_setBits, if_neg (hd _ (List.mem_map_of_mem hy) _ (by simp)), h1 y hy]
      · rw [lane_setBits, if_pos rfl]
    · rw [lane_setBits, if_neg (fun e => hi r (.inr rfl) e.symm), h2 i (fun y hy => hi y (.inl hy))]

/-- The flags of a list of lane results. -/
theorem foldl_orFlags {α : Type} (g : α → Nat) (l : List α) (a k : Nat) :
    (l.foldl (fun a x => orFlags a (g x)) a).testBit k = true ↔ a.testBit k = true ∨ ∃ x ∈ l, (g x).testBit k = true := by
  induction l generalizing a with
  | nil => simp
  | cons x l ih =>
    rw [List.foldl_cons, ih]
    simp only [orFlags, Nat.testBit_or, Bool.or_eq_true, List.mem_cons, exists_eq_or_imp, or_assoc]

/-! ### The elements of an LDX or STX -/

/-- A list made from numbers, each entry naming its number, names no number twice. -/
theorem map_filterMap_sublist {α : Type} (f : Nat → Option α) (g : α → Nat) (h : ∀ i x, f i = some x → g x = i) (l : List Nat) :
    ((l.filterMap f).map g).Sublist l := by
  induction l with
  | nil => exact .slnil
  | cons i l ih =>
    rw [List.filterMap_cons]
    split
    · exact ih.cons i
    · next x hx => rw [List.map_cons, h i x hx]; exact ih.cons_cons i

/-- The lanes of the elements are below 16 and the lanes of the register, each once (R198); an element of whole bytes begins at a byte. -/
theorem elems_spec (s : State) (w : Nat) (t : Ty) (sp : MSpace) (base : Word) (ix : VWord) (sc : Fin 4) (mask : Word) :
    ((s.elems w t sp base ix sc mask).map (fun e => e.lane)).Nodup ∧
    ∀ e ∈ s.elems w t sp base ix sc mask, e.lane < 512 / t.width ∧ (e.width t % 8 = 0 → e.bit = 0) := by
  unfold State.elems
  constructor
  · refine (map_filterMap_sublist _ _ (fun i x hx => ?_) _).nodup List.nodup_range
    simp only at hx
    split at hx
    · split at hx <;> cases hx <;> rfl
    · cases hx
  · intro e he
    obtain ⟨i, hi, hx⟩ := List.mem_filterMap.1 he
    rw [List.mem_range] at hi
    simp only at hx
    split at hx
    · split at hx
      · cases hx
        refine ⟨by simp only; omega, fun hw => ?_⟩
        simp only [Elem.width] at hw
        simp only
        rw [Int.toNat_eq_zero]
        refine le_of_eq (Int.emod_eq_zero_of_dvd (Dvd.dvd.mul_left ?_ _))
        exact Int.natCast_dvd_natCast.2 (Nat.dvd_of_mod_eq_zero hw)
      · cases hx
        exact ⟨by simp only; omega, fun _ => rfl⟩
    · cases hx

end Sys2Proof.Machine

/-! ## LDX and STX: resolving and storing their elements -/

namespace Sys2Proof.Machine

/-! ### Resolving elements -/

theorem Near.elems {w : Nat} {s t : State} (h : Near w s t) (ty : Ty) (sp : MSpace) (base : Word) (ix : VWord) (sc : Fin 4) (mask : Word) :
    t.elems w ty sp base ix sc mask = s.elems w ty sp base ix sc mask := by
  simp only [State.elems, h.bankFmt]

theorem Near.elemBytes {w : Nat} {s t : State} (h : Near w s t) {ty : Ty} {sp : MSpace} (hsp : sp ≠ .g) {base : Word} {acc : Access}
    (es : List Elem) : ∀ {u : State} {ls : List (List RByte)}, s.elemBytes w ty sp base acc es = .ok (u, ls) →
    u = s ∧ t.elemBytes w ty sp base acc es = .ok (t, ls) := by
  induction es with
  | nil => intro u ls hs; cases hs; exact ⟨rfl, rfl⟩
  | cons e es ih =>
    intro u ls hs
    unfold State.elemBytes at hs ⊢
    split at hs
    · cases hs
    next s1 l hl =>
      have h1 := (Near.refl w s).resolve hsp hl
      rw [hl] at h1
      cases h1
      split at hs
      · cases hs
      next s2 ls' hls =>
        cases hs
        obtain ⟨rfl, ht⟩ := ih hls
        exact ⟨rfl, by simp only [h.resolve hsp hl, ht]⟩

/-- Elements of a local operand resolve alike, and leave the state as it is. -/
theorem Near.resolveX {w : Nat} {s t u : State} (h : Near w s t) {ty : Ty} {sp : MSpace} (hsp : sp ≠ .g) {base : Word} {acc : Access}
    {es : List Elem} {ls : List (List RByte)} (hs : s.resolveX w ty sp base acc es = .ok (u, ls)) :
    t.resolveX w ty sp base acc es = .ok (t, ls) := by
  unfold State.resolveX at hs ⊢
  split at hs
  · cases hs
  next hm =>
    rw [if_neg hsp] at hs ⊢
    exact (h.elemBytes hsp es hs).2

theorem Sim.elemLeaves {w : Nat} {ty : Ty} {base : Word} {acc : Access} (es : List Elem) : ∀ {s t : State}, Sim w s t → ∀ {s' : State},
    s.elemLeaves w ty base acc es = .ok s' → ∃ t', t.elemLeaves w ty base acc es = .ok t' ∧ Sim w s' t' ∧ Apart w t t' := by
  induction es with
  | nil => intro s t h s' hs; cases hs; exact ⟨t, rfl, h, Apart.refl ..⟩
  | cons e es ih =>
    intro s t h s' hs
    simp only [State.elemLeaves] at hs ⊢
    split at hs
    next hva =>
      split at hs
      next s1 ls hl =>
        obtain ⟨t1, ht1, h1, hA⟩ := Sim.leaves acc _ _ h hl
        obtain ⟨t2, ht2, h2, hA2⟩ := ih h1 hs
        exact ⟨t2, by simp only [if_pos hva, ht1, ht2], h2, hA.trans hA2⟩
      · cases hs
    next hva =>
      rw [if_neg hva]
      exact ih h hs

theorem Sim.elemBytes {w : Nat} {ty : Ty} {sp : MSpace} {base : Word} {acc : Access} (es : List Elem) : ∀ {s t : State}, Sim w s t →
    ∀ {s' : State} {ls : List (List RByte)}, s.elemBytes w ty sp base acc es = .ok (s', ls) →
    ∃ t', t.elemBytes w ty sp base acc es = .ok (t', ls) ∧ Sim w s' t' ∧ Apart w t t' := by
  induction es with
  | nil => intro s t h s' ls hs; cases hs; exact ⟨t, rfl, h, Apart.refl ..⟩
  | cons e es ih =>
    intro s t h s' ls hs
    unfold State.elemBytes at hs ⊢
    split at hs
    · cases hs
    next s1 l hl =>
      obtain ⟨t1, ht1, h1, hA⟩ := h.resolve hl
      split at hs
      · cases hs
      next s2 ls' hls =>
        cases hs
        obtain ⟨t2, ht2, h2, hA2⟩ := ih h1 hls
        exact ⟨t2, by simp only [ht1, ht2], h2, hA.trans hA2⟩

/-- Elements of any operand resolve alike in states that differ in other contexts. -/
theorem Sim.resolveX {w : Nat} {s t : State} (h : Sim w s t) {ty : Ty} {sp : MSpace} {base : Word} {acc : Access} {es : List Elem} {s' : State}
    {ls : List (List RByte)} (hs : s.resolveX w ty sp base acc es = .ok (s', ls)) :
    ∃ t', t.resolveX w ty sp base acc es = .ok (t', ls) ∧ Sim w s' t' ∧ Apart w t t' := by
  unfold State.resolveX at hs ⊢
  split at hs
  · cases hs
  next hm =>
    split at hs
    next hsp =>
      rw [if_pos hsp]
      split at hs
      · cases hs
      next s1 hl =>
        obtain ⟨t1, ht1, h1, hA⟩ := Sim.elemLeaves es h hl
        obtain ⟨t2, ht2, h2, hA2⟩ := Sim.elemBytes es h1 hs
        exact ⟨t2, by simp only [ht1, ht2], h2, hA.trans hA2⟩
    next hsp =>
      rw [if_neg hsp]
      exact Sim.elemBytes es h hs

theorem Looked.elemLeaves {w : Nat} {ty : Ty} {base : Word} {acc : Access} (es : List Elem) : ∀ {s s' : State},
    s.elemLeaves w ty base acc es = .ok s' → Looked w s s' := by
  induction es with
  | nil => intro s s' h; cases h; exact refl ..
  | cons e es ih =>
    intro s s' h
    simp only [State.elemLeaves] at h
    split at h
    · split at h
      next s1 ls hl => exact (Looked.leaves acc _ _ hl).trans (ih h)
      · cases h
    · exact ih h

/-- What resolving elements looks up, and how many bytes each has. -/
theorem elemBytes_spec {w : Nat} {ty : Ty} {sp : MSpace} {base : Word} {acc : Access} (es : List Elem) : ∀ {s s' : State}
    {ls : List (List RByte)}, s.elemBytes w ty sp base acc es = .ok (s', ls) → Looked w s s' ∧ ls.length = es.length := by
  induction es with
  | nil => intro s s' ls h; cases h; exact ⟨Looked.refl .., rfl⟩
  | cons e es ih =>
    intro s s' ls h
    unfold State.elemBytes at h
    split at h
    · cases h
    next s1 l hl =>
      split at h
      · cases h
      next s2 ls' hls =>
        cases h
        obtain ⟨h1, h2⟩ := ih hls
        exact ⟨(Looked.resolve hl).trans h1, by simp [h2]⟩

theorem resolveX_spec {w : Nat} {s s' : State} {ty : Ty} {sp : MSpace} {base : Word} {acc : Access} {es : List Elem} {ls : List (List RByte)}
    (h : s.resolveX w ty sp base acc es = .ok (s', ls)) : Looked w s s' ∧ ls.length = es.length := by
  unfold State.resolveX at h
  split at h
  · cases h
  · split at h
    · split at h
      · cases h
      next s1 hl =>
        obtain ⟨h1, h2⟩ := elemBytes_spec es h
        exact ⟨(Looked.elemLeaves es hl).trans h1, h2⟩
    · exact elemBytes_spec es h

/-! ### Bytes of a local element -/

theorem whenCopied_ok {s : State} {w : Nat} {l l' : List RByte} (h : s.whenCopied w l = .ok l') : l' = l := by
  unfold State.whenCopied at h
  split at h
  · cases h
  · cases h; rfl

theorem mapM_option_length {α β : Type} (f : α → Option β) (l : List α) : ∀ {l' : List β}, l.mapM f = some l' → l'.length = l.length := by
  induction l with
  | nil => intro l' h; cases h; rfl
  | cons x l ih =>
    intro l' h
    rw [List.mapM_cons] at h
    obtain ⟨y, _, h⟩ := Option.bind_eq_some_iff.1 h
    obtain ⟨ys, hys, h⟩ := Option.bind_eq_some_iff.1 h
    cases h
    simp [ih hys]

/-- A local operand has as many bytes as it asks for. -/
theorem resolve_length {s u : State} {w : Nat} {sp : MSpace} (hsp : sp ≠ .g) {base : Word} {off : Int} {n al : Nat} {acc : Access}
    {l : List RByte} (h : s.resolve w sp base off n al acc = .ok (u, l)) : l.length = n := by
  cases sp with
  | g => exact absurd rfl hsp
  | l =>
    simp only [State.resolve, State.resolveL] at h
    split at h
    next l' hl =>
      cases h
      split at hl
      · cases hl
      · split at hl
        · cases hl
        · split at hl
          · cases hl
          · rw [whenCopied_ok hl]; simp
    · cases h
  | a =>
    simp only [State.resolve, State.resolveA] at h
    split at h
    next l' hl =>
      cases h
      split at hl
      · cases hl
      · split at hl
        · cases hl
        · split at hl
          next bs hbs =>
            rw [whenCopied_ok hl]
            simpa using mapM_option_length _ _ hbs
          · cases hl
    · cases h

theorem elemBytes_length {w : Nat} {ty : Ty} {sp : MSpace} (hsp : sp ≠ .g) {base : Word} {acc : Access} (es : List Elem) :
    ∀ {s s' : State} {ls : List (List RByte)}, s.elemBytes w ty sp base acc es = .ok (s', ls) → ∀ p ∈ es.zip ls, p.2.length = p.1.size ty := by
  induction es with
  | nil => intro s s' ls _ p hp; cases hp
  | cons e es ih =>
    intro s s' ls h
    unfold State.elemBytes at h
    split at h
    · cases h
    next s1 l hl =>
      split at h
      · cases h
      next s2 ls' hls =>
        cases h
        intro p hp
        rcases List.mem_cons.1 hp with rfl | hp
        · exact resolve_length hsp hl
        · exact ih hls p hp

end Sys2Proof.Machine

/-! ## GatherAndScatter (O27) -/

namespace Sys2Proof.Machine

theorem exec_ldx (d : VDst) (b : Src) (ix : VSrc) (sc : Fin 4) (t : Ty) (sp : MSpace) (pol : Policy) (m : MReg) (s : State) :
    exec (.ldx d b ix sc t sp pol m) s = each s (ldxOp d b ix sc t sp pol m) := rfl

theorem exec_stx (a : VSrc) (b : Src) (ix : VSrc) (sc : Fin 4) (t : Ty) (sp : MSpace) (pol : Policy) (m : MReg) (s : State) :
    exec (.stx a b ix sc t sp pol m) s = each s (stxOp a b ix sc t sp pol m) := rfl

/-- The elements that an LDX or STX of context `w` names. -/
def State.elemsOf (s : State) (w : Nat) (b : Src) (ix : VSrc) (sc : Fin 4) (t : Ty) (sp : MSpace) (m : MReg) : List Elem :=
  s.elems w t sp ((s.ctx w).src b) ((s.ctx w).vsrc 32 ix) sc ((s.ctx w).mask m)

theorem Near.elemsOf {w : Nat} {s t : State} (h : Near w s t) (b : Src) (ix : VSrc) (sc : Fin 4) (ty : Ty) (sp : MSpace) (m : MReg) :
    t.elemsOf w b ix sc ty sp m = s.elemsOf w b ix sc ty sp m := by
  simp only [State.elemsOf, h.ctx, h.elems]

/-! ### Gathers from local memory -/

/-- What a gather makes of an element: its bits, converted where its bank has a format (R198). -/
def State.gathered (s : State) (w : Nat) (t : Ty) (p : Elem × List RByte) : Nat × Nat :=
  let x := leNat (s.readBytes w p.2) / 2 ^ p.1.bit % 2 ^ p.1.width t
  match p.1.fmt with | some k => fromBank k t (s.ctx w).rm x | none => (x, 0)

theorem gatherLanes_eq (s : State) (w : Nat) (t : Ty) (l : List (Elem × List RByte)) :
    s.gatherLanes w t (s.ctx w).rm l = l.map (fun p => (p.1.lane, s.gathered w t p)) := by
  induction l with
  | nil => rfl
  | cons p l ih =>
    obtain ⟨e, bs⟩ := p
    rw [State.gatherLanes, ih, List.map_cons]
    congr 1
    cases hf : e.fmt <;> simp only [State.gathered, hf, bits, Nat.shiftRight_eq_div_pow]

/-- The register and the flags of a gather. -/
def gatherResult (t : Ty) (old : VWord) (rs : List (Nat × Nat × Nat)) : VWord × Nat :=
  (BitVec.ofNat 512 (rs.foldl (fun x r => setBits x (t.width * r.1) t.width r.2.1) old.toNat), rs.foldl (fun a r => orFlags a r.2.2) 0)

/-- What a gather leaves: each lane of its elements, the other lanes, and the flags (R198). -/
theorem gatherResult_spec {t : Ty} (old : VWord) {es : List Elem} {ls : List (List RByte)} (hlen : ls.length = es.length)
    (hn : (es.map (fun e => e.lane)).Nodup) (hlane : ∀ e ∈ es, e.lane < 512 / t.width) (get : Elem × List RByte → Nat × Nat) :
    let r := gatherResult t old ((es.zip ls).map (fun p => (p.1.lane, get p)))
    (∀ p ∈ es.zip ls, elem t.width p.1.lane r.1 = (get p).1 % 2 ^ t.width) ∧
    (∀ i < 512 / t.width, (∀ x ∈ es, x.lane ≠ i) → elem t.width i r.1 = elem t.width i old) ∧
    ∀ k, r.2.testBit k = true ↔ ∃ p ∈ es.zip ls, (get p).2.testBit k = true := by
  have hfst : (es.zip ls).map Prod.fst = es := List.map_fst_zip hlen.ge
  have hn' : (((es.zip ls).map (fun p => (p.1.lane, get p))).map (fun r => r.1)).Nodup := by
    have he : ((es.zip ls).map (fun p => (p.1.lane, get p))).map (fun r => r.1) = ((es.zip ls).map Prod.fst).map (fun e => e.lane) := by
      rw [List.map_map, List.map_map]; rfl
    rw [he, hfst]
    exact hn
  obtain ⟨h1, h2⟩ := lane_foldl_setBits t.width _ hn' old.toNat
  have hfit : ∀ i < 512 / t.width, t.width * i + t.width ≤ 512 := fun i hi => by
    calc t.width * i + t.width = t.width * (i + 1) := by ring
      _ ≤ t.width * (512 / t.width) := Nat.mul_le_mul_left _ hi
      _ ≤ 512 := Nat.mul_div_le 512 _
  refine ⟨fun p hp => ?_, fun i hi hne => ?_, fun k => ?_⟩
  · rw [gatherResult, elem_ofNat _ (hfit _ (hlane _ (List.of_mem_zip hp).1))]
    exact h1 _ (List.mem_map_of_mem hp)
  · rw [gatherResult, elem_ofNat _ (hfit i hi), h2 i (fun r hr => ?_)]
    · simp [lane, elem, Nat.shiftRight_eq_div_pow]
    · obtain ⟨p, hp, rfl⟩ := List.mem_map.1 hr
      exact hne _ (List.of_mem_zip hp).1
  · have hf := foldl_orFlags (fun r : Nat × Nat × Nat => r.2.2) ((es.zip ls).map (fun p => (p.1.lane, get p))) 0 k
    simp only [Nat.zero_testBit, Bool.false_eq_true, false_or, List.mem_map, exists_exists_and_eq_and] at hf
    exact hf

/-- The reads of elements in clean bytes move grant pointers alone. -/
theorem touchElems_granted {s : State} {w : Nat} (sp : MSpace) (base : Word) (l : List (Elem × List RByte)) :
    ∀ {t : State}, Granted s t → t.ctx w = s.ctx w → (∀ p ∈ l, cleanBytes s p.2) →
    Granted s (t.touchElems w sp base l) ∧ (t.touchElems w sp base l).ctx = t.ctx := by
  induction l with
  | nil => exact fun h _ _ => ⟨h, rfl⟩
  | cons p l ih =>
    intro t h hc hl
    obtain ⟨e, bs⟩ := p
    rw [State.touchElems, touchLocal_of_clean (h.near hc).1 (hl (e, bs) (by simp))]
    obtain ⟨h1, h2⟩ := Granted.grantRead w bs t none h
    obtain ⟨h3, h4⟩ := ih h1 (by rw [h2, hc]) (fun p hp => hl p (List.mem_cons_of_mem _ hp))
    exact ⟨h3, by rw [h4, h2]⟩

theorem ldxOp_local {s t : State} {w : Nat} (d : VDst) {b : Src} {ix : VSrc} {sc : Fin 4} {ty : Ty} {sp : MSpace} (pol : Policy) {m : MReg}
    {ls : List (List RByte)} (hG : Granted s t) (hc : t.ctx w = s.ctx w) (hsp : sp ≠ .g)
    (hr : s.resolveX w ty sp ((s.ctx w).src b) .read (s.elemsOf w b ix sc ty sp m) = .ok (s, ls)) (hl : ∀ l ∈ ls, cleanBytes s l) :
    let es := s.elemsOf w b ix sc ty sp m
    let r := gatherResult ty ((s.ctx w).vold d) ((es.zip ls).map (fun p => (p.1.lane, s.gathered w ty p)))
    ldxOp d b ix sc ty sp pol m w t =
      .ok ((t.touchElems w sp ((s.ctx w).src b) (es.zip ls)).onCtx w (fun _ => ((s.ctx w).vdst d r.1).raise r.2)) := by
  obtain ⟨hN, hq⟩ := hG.near hc
  have hes : t.elems w ty sp ((s.ctx w).src b) ((s.ctx w).vsrc 32 ix) sc ((s.ctx w).mask m) = s.elemsOf w b ix sc ty sp m := hN.elems ..
  have hg : t.gatherLanes w ty (s.ctx w).rm ((s.elemsOf w b ix sc ty sp m).zip ls) =
      ((s.elemsOf w b ix sc ty sp m).zip ls).map (fun p => (p.1.lane, s.gathered w ty p)) := by
    rw [← hc, gatherLanes_eq]
    simp only [State.gathered, hc, hN.readBytes hq]
  have hk := (touchElems_granted (w := w) sp ((s.ctx w).src b) ((s.elemsOf w b ix sc ty sp m).zip ls) hG hc
    (fun p hp => hl _ (List.of_mem_zip hp).2)).2
  simp only [ldxOp, hc, hes, hN.resolveX hsp hr, if_neg hsp, hg]
  rw [State.onCtx, State.onCtx, hk, hc]
  rfl

theorem gather_local (d : VDst) (b : Src) (ix : VSrc) (sc : Fin 4) (t : Ty) (sp : MSpace) (pol : Policy) (m : MReg) (s : State)
    (ls : Nat → List (List RByte)) (hsp : sp ≠ .g)
    (h : ∀ w ∈ s.members s.cur, s.resolveX w t sp ((s.ctx w).src b) .read (s.elemsOf w b ix sc t sp m) = .ok (s, ls w) ∧
      ∀ l ∈ ls w, cleanBytes s l) :
    CompletesReading (.ldx d b ix sc t sp pol m) s (fun w e => ∃ (v : VWord) (fl : Nat),
      (∀ p ∈ (s.elemsOf w b ix sc t sp m).zip (ls w), elem t.width p.1.lane v = (s.gathered w t p).1 % 2 ^ t.width) ∧
      (∀ i < 512 / t.width, (∀ x ∈ s.elemsOf w b ix sc t sp m, x.lane ≠ i) → elem t.width i v = elem t.width i ((s.ctx w).vold d)) ∧
      (∀ k, fl.testBit k = true ↔ ∃ p ∈ (s.elemsOf w b ix sc t sp m).zip (ls w), (s.gathered w t p).2.testBit k = true) ∧
      e = { vectors := (s.ctx w).vwrites d v, flags := fl }) := by
  refine reading_completes (fun w =>
    let r := gatherResult t ((s.ctx w).vold d) (((s.elemsOf w b ix sc t sp m).zip (ls w)).map (fun p => (p.1.lane, s.gathered w t p)))
    ((s.ctx w).vdst d r.1).raise r.2) _ (exec_ldx ..) (fun w hw τ hG hc => ?_) (fun w hw => ?_)
  · obtain ⟨hr, hl⟩ := h w hw
    exact ⟨_, ldxOp_local d pol hG hc hsp hr hl, touchElems_granted _ _ _ hG hc (fun p hp => hl _ (List.of_mem_zip hp).2)⟩
  · obtain ⟨hr, _⟩ := h w hw
    obtain ⟨hn, hlane⟩ := elems_spec s w t sp ((s.ctx w).src b) ((s.ctx w).vsrc 32 ix) sc ((s.ctx w).mask m)
    obtain ⟨h1, h2, h3⟩ := gatherResult_spec ((s.ctx w).vold d) (resolveX_spec hr).2 hn (fun e he => (hlane e he).1) (s.gathered w t)
    exact ⟨_, ⟨_, _, h1, h2, h3, rfl⟩, Ctx.vdst_on ..⟩

/-! ### Gathers from global memory -/

/-- The lanes that a global gather writes (R198). -/
def gatherDst (c : Ctx) (d : VDst) (t : Ty) (m : MReg) : LoadDst :=
  .vec d t.width ((List.range (512 / t.width)).map (fun i => decide (i < 16) && active (c.mask m) t.width i)) (c.vold d)

theorem ldxOp_global {s u : State} {w : Nat} (d : VDst) {b : Src} {ix : VSrc} {sc : Fin 4} {ty : Ty} (pol : Policy) {m : MReg}
    {ls : List (List RByte)} (hr : s.resolveX w ty .g ((s.ctx w).src b) .read (s.elemsOf w b ix sc ty .g m) = .ok (u, ls)) :
    ldxOp d b ix sc ty .g pol m w s = .ok (u.addLoad w (gatherDst (s.ctx w) d ty m) ls.flatten pol ((s.ctx w).src b)) := by
  unfold State.elemsOf at hr
  simp only [ldxOp, hr, if_pos]
  rfl

theorem gather_global (d : VDst) (b : Src) (ix : VSrc) (sc : Fin 4) (t : Ty) (pol : Policy) (m : MReg) (s : State) (ls : Nat → List (List RByte))
    (h : ∀ w ∈ s.members s.cur, s.resolveX w t .g ((s.ctx w).src b) .read (s.elemsOf w b ix sc t .g m) = .ok (s, ls w)) :
    ∃ v, exec (.ldx d b ix sc t .g pol m) s = .next v ∧ loadsAdded s v (fun w x =>
      x.addrs.map (fun p => p.1) = (ls w).flatten.filterMap RByte.pa? ∧ x.dst = gatherDst (s.ctx w) d t m) := by
  refine loads_added _ (exec_ldx ..) fun w hw τ hS => ?_
  obtain ⟨τ', hτ, hS', hA⟩ := hS.resolveX (h w hw)
  rw [← hS.near.elemsOf, ← hS.ctx] at hτ
  refine ⟨τ', _, _, _, _, ldxOp_global d pol hτ, hS', hA, newLoad_addrs .., ?_⟩
  rw [hS.ctx]; rfl

theorem gather_global_single (d : VDst) (b : Src) (ix : VSrc) (sc : Fin 4) (t : Ty) (pol : Policy) (m : MReg) (s u : State)
    (ls : List (List RByte)) (h1 : s.single)
    (hr : s.resolveX s.cur t .g ((s.ctx s.cur).src b) .read (s.elemsOf s.cur b ix sc t .g m) = .ok (u, ls)) :
    ∃ (v : State) (x : Load), exec (.ldx d b ix sc t .g pol m) s = .next v ∧ (v.ctx s.cur).loads = (u.ctx s.cur).loads ++ [x] ∧
      x.addrs.map (fun p => p.1) = ls.flatten.filterMap RByte.pa? ∧ x.org = u.origin s.cur ∧ x.dst = gatherDst (s.ctx s.cur) d t m ∧
      v = { u with ctxs := v.ctxs, uid := v.uid } ∧ (∀ w, w ≠ s.cur → v.ctx w = u.ctx w) ∧
      v.ctx s.cur = ({ u.ctx s.cur with loads := (v.ctx s.cur).loads } : Ctx).retired := by
  have hL := (resolveX_spec hr).1
  refine ⟨_, newLoad u s.cur (gatherDst (s.ctx s.cur) d t m) ls.flatten pol ((s.ctx s.cur).src b), load_added h1 (exec_ldx ..) hL (ldxOp_global d pol hr), ?_, newLoad_addrs .., rfl, rfl, rfl, fun w hw => ?_, ?_⟩
  · simp [State.after, Ctx.retired]
  · simp [State.after, hw]
  · simp [State.after, Ctx.retired]

end Sys2Proof.Machine

/-! ## GatherAndScatter (O27): scatters -/

namespace Sys2Proof.Machine

/-! ### One element -/

theorem leBytes_mod (n : Nat) : ∀ x, leBytes n (x % 256 ^ n) = leBytes n x := by
  induction n with
  | zero => exact fun _ => rfl
  | succ n ih =>
    intro x
    rw [leBytes, leBytes, pow_succ', Nat.mod_mul_right_div_self, ih]
    congr 1
    apply BitVec.eq_of_toNat_eq
    simp only [BitVec.toNat_ofNat]
    exact Nat.mod_mul_right_mod x 256 (256 ^ n)

/-- An element of whole bytes replaces all that lies where it is stored. -/
theorem leBytes_setBits {w : Nat} (hw : w % 8 = 0) (x v : Nat) : leBytes (w / 8) (setBits x 0 w v) = leBytes (w / 8) v := by
  have hp : 256 ^ (w / 8) = 2 ^ w := by
    rw [show (256 : Nat) = 2 ^ 8 by norm_num, ← pow_mul]
    congr 1; omega
  have h := lane_setBits w 0 0 x v
  simp only [lane, Nat.mul_zero, Nat.shiftRight_zero, if_true] at h
  rw [← leBytes_mod, hp, h, ← hp, leBytes_mod]

/-- A scattered element of whole bytes. -/
structure Whole (t : Ty) (e : Elem) : Prop where
  width : e.width t % 8 = 0
  bit : e.bit = 0

theorem Whole.size {t : Ty} {e : Elem} (h : Whole t e) : e.size t = e.width t / 8 := by
  have := h.width
  simp only [Elem.size, h.bit, ceilDiv]
  omega

theorem scattered_length (t : Ty) (v : VWord) (e : Elem) : (scattered t v e).1.length = e.width t / 8 := leBytes_length _ _

theorem scatterOne_whole {s u : State} {w : Nat} {t : Ty} {sp : MSpace} {pol : Policy} {base : Word} {v : VWord} {e : Elem} {l : List RByte}
    (h : Whole t e) (hu : s.storeAt w (opOffset sp base e.off) l pol (scattered t v e).1 = .ok u) :
    s.scatterOne w t sp pol base v e l = .ok (u, (scattered t v e).2) := by
  have hx : lane t.width e.lane v.toNat = elem t.width e.lane v := by simp [lane, elem, Nat.shiftRight_eq_div_pow]
  unfold scattered at hu ⊢
  cases hf : e.fmt with
  | none =>
    simp only [hf] at hu
    simp only [State.scatterOne, hx, if_pos h.width, h.size, h.bit, leBytes_setBits h.width, hf, hu]
  | some f =>
    simp only [hf] at hu
    simp only [State.scatterOne, hx, if_pos h.width, h.size, h.bit, leBytes_setBits h.width, hf, hu]

/-! ### Elements in lane order -/

/-- The flags of scattered elements. -/
def scatterFlags (t : Ty) (v : VWord) (es : List (Elem × List RByte)) (fl : Nat) : Nat :=
  es.foldl (fun a p => orFlags a (scattered t v p.1).2) fl

theorem scatterFlags_spec {t : Ty} {v : VWord} {es : List Elem} {ls : List (List RByte)} (hlen : ls.length = es.length) (k : Nat) :
    (scatterFlags t v (es.zip ls) 0).testBit k = true ↔ ∃ e ∈ es, (scattered t v e).2.testBit k = true := by
  have hf := foldl_orFlags (fun p : Elem × List RByte => (scattered t v p.1).2) (es.zip ls) 0 k
  simp only [Nat.zero_testBit, Bool.false_eq_true, false_or] at hf
  rw [scatterFlags, hf]
  have hfst : (es.zip ls).map Prod.fst = es := List.map_fst_zip hlen.ge
  constructor
  · rintro ⟨p, hp, h⟩
    exact ⟨p.1, (List.of_mem_zip hp).1, h⟩
  · rintro ⟨e, he, h⟩
    rw [← hfst] at he
    obtain ⟨p, hp, rfl⟩ := List.mem_map.1 he
    exact ⟨p, hp, h⟩

/-- Elements that lie where they can be stored at ports are sent there in lane order. -/
theorem scatter_port {w : Nat} {t : Ty} {sp : MSpace} {pol : Policy} {base : Word} {v : VWord} (z : List (Elem × List RByte)) :
    ∀ {s : State} (fl : Nat), (∀ p ∈ z, Whole t p.1 ∧ portBytes s w p.2 ∧ (s.ctx w).loadOverlaps p.2 = false) →
    ∃ u, s.scatter w t sp pol base v z fl = .ok (u, scatterFlags t v z fl) ∧
      PortSent w s u (z.flatMap (fun p => cellsOf p.2 (scattered t v p.1).1)) := by
  induction z with
  | nil => exact fun {s} fl _ => ⟨s, rfl, PortSent.refl ..⟩
  | cons p z ih =>
    intro s fl h
    obtain ⟨e, l⟩ := p
    obtain ⟨hw, hl, hov⟩ := h (e, l) (by simp)
    obtain ⟨s1, h1, hP⟩ := State.storeAt_port (o := opOffset sp base e.off) (pol := pol) (bs := (scattered t v e).1) hl hov
    obtain ⟨u, hu, hQ⟩ := ih (s := s1) (orFlags fl (scattered t v e).2) (fun p hp => by
      obtain ⟨hw, hl, hov⟩ := h p (List.mem_cons_of_mem _ hp)
      obtain ⟨f, oc, hc, _⟩ := hP.own
      refine ⟨hw, ?_, by rw [hc]; exact hov⟩
      unfold portBytes
      rw [hP.region, hc]
      exact hl)
    exact ⟨u, by simp only [State.scatter, scatterOne_whole hw h1, hu]; rfl, hP.trans hQ⟩

/-- Elements of logged bytes become entries in lane order, while there is room. -/
theorem scatter_logged {w : Nat} {t : Ty} {sp : MSpace} {pol : Policy} {base : Word} {v : VWord} (z : List (Elem × List RByte)) :
    ∀ {s : State} (fl : Nat), (∀ p ∈ z, Whole t p.1 ∧ loggedBytes s w p.2 ∧ (s.ctx w).loadOverlaps p.2 = false) →
    logCount (s.ctx w).log + (z.flatMap (fun p => logEntries s w (wrap 64 (opOffset sp base p.1.off)) pol p.2 (scattered t v p.1).1)).length < 256 →
    ∃ u, s.scatter w t sp pol base v z fl = .ok (u, scatterFlags t v z fl) ∧
      Logged w s u (z.flatMap (fun p => logEntries s w (wrap 64 (opOffset sp base p.1.off)) pol p.2 (scattered t v p.1).1)) := by
  induction z with
  | nil => exact fun {s} fl _ _ => ⟨s, rfl, Logged.refl ..⟩
  | cons p z ih =>
    intro s fl h hn
    obtain ⟨e, l⟩ := p
    obtain ⟨hw, hl, hov⟩ : Whole t e ∧ loggedBytes s w l ∧ (s.ctx w).loadOverlaps l = false := h (e, l) (by simp)
    rw [List.flatMap_cons, List.length_append] at hn
    obtain ⟨s1, h1, hL⟩ := State.storeAt_logged (o := opOffset sp base e.off) (pol := pol) (bs := (scattered t v e).1) hl hov (by
      simp only at hn
      omega)
    have hcount : logCount (s1.ctx w).log = logCount (s.ctx w).log +
        (logEntries s w (wrap 64 (opOffset sp base e.off)) pol l (scattered t v e).1).length := by
      rw [hL.own]
      simp only [Ctx.logged, logCount_append, logEntries_eq, logCount_logItem, List.length_map]
    have hent : ∀ va bs l, logEntries s1 w va pol l bs = logEntries s w va pol l bs := fun va bs l => hL.logEntries ..
    obtain ⟨u, hu, hM⟩ := ih (s := s1) (orFlags fl (scattered t v e).2) (fun p hp => by
      obtain ⟨hw, hl, hov⟩ := h p (List.mem_cons_of_mem _ hp)
      exact ⟨hw, hL.loggedBytes hl, by rw [hL.own]; exact hov⟩) (by
      simp only [hent, hcount]
      simp only at hn
      omega)
    simp only [hent] at hM
    exact ⟨u, by simp only [State.scatter, scatterOne_whole hw h1, hu]; rfl, hL.trans hM⟩

/-- The bytes of each element, one behind the other. -/
theorem cellsOf_flatten (g : Elem → List Byte) : ∀ (es : List Elem) (ls : List (List RByte)), ls.length = es.length →
    (∀ p ∈ es.zip ls, p.2.length = (g p.1).length) → (es.zip ls).flatMap (fun p => cellsOf p.2 (g p.1)) = cellsOf ls.flatten (es.flatMap g)
  | [], [], _, _ => rfl
  | [], _ :: _, h, _ => by simp at h
  | _ :: _, [], h, _ => by simp at h
  | e :: es, l :: ls, h, hp => by
    have hl : l.length = (g e).length := hp (e, l) (by simp)
    rw [List.zip_cons_cons, List.flatMap_cons, cellsOf_flatten g es ls (by simpa using h) (fun p h => hp p (List.mem_cons_of_mem _ h)),
      List.flatten_cons, List.flatMap_cons]
    simp only [cellsOf, List.zip_append hl, List.filterMap_append]

/-- An STX whose elements resolve, and that no load stands in the way of, stores them and raises their flags. -/
theorem stxOp_eq {s u v : State} {w : Nat} {a : VSrc} {b : Src} {ix : VSrc} {sc : Fin 4} {t : Ty} {sp : MSpace} {pol : Policy} {m : MReg}
    {ls : List (List RByte)} {fl : Nat} (hr : s.resolveX w t sp ((s.ctx w).src b) .write (s.elemsOf w b ix sc t sp m) = .ok (u, ls))
    (hov : ∀ l ∈ ls, (u.ctx w).loadOverlaps l = false)
    (hv : u.scatter w t sp pol ((s.ctx w).src b) ((s.ctx w).vsrc t.width a) ((s.elemsOf w b ix sc t sp m).zip ls) 0 = .ok (v, fl)) :
    stxOp a b ix sc t sp pol m w s = .ok (v.onCtx w (fun c => c.raise fl)) := by
  have hany : ls.any (fun l => (u.ctx w).loadOverlaps l) = false := by
    rw [List.any_eq_false]
    intro l hl
    simp [hov l hl]
  unfold State.elemsOf at hr hv
  simp only [stxOp, hr, hany, Bool.false_eq_true, if_false, hv]

theorem elemsOf_whole {s : State} {w : Nat} {b : Src} {ix : VSrc} {sc : Fin 4} {t : Ty} {sp : MSpace} {m : MReg}
    (h : ∀ e ∈ s.elemsOf w b ix sc t sp m, e.width t % 8 = 0) : ∀ e ∈ s.elemsOf w b ix sc t sp m, Whole t e :=
  fun e he => ⟨h e he, ((elems_spec ..).2 e he).2 (h e he)⟩

/-! ### Scatters -/

theorem scatter_to_ports (a : VSrc) (b : Src) (ix : VSrc) (sc : Fin 4) (t : Ty) (sp : MSpace) (pol : Policy) (m : MReg) (s : State)
    (ls : Nat → List (List RByte)) (hsp : sp ≠ .g)
    (h : ∀ w ∈ s.members s.cur, s.resolveX w t sp ((s.ctx w).src b) .write (s.elemsOf w b ix sc t sp m) = .ok (s, ls w) ∧
      (∀ l ∈ ls w, portBytes s w l ∧ (s.ctx w).loadOverlaps l = false) ∧ ∀ e ∈ s.elemsOf w b ix sc t sp m, e.width t % 8 = 0) :
    ∃ v, exec (.stx a b ix sc t sp pol m) s = .next v ∧
      sentToPort s v ((s.members s.cur).map (fun w =>
        (w, cellsOf (ls w).flatten ((s.elemsOf w b ix sc t sp m).flatMap (fun e => (scattered t ((s.ctx w).vsrc t.width a) e).1))))) ∧
      ∀ w ∈ s.members s.cur, ∃ (fl : Nat) (f : List Imprecise),
        (∀ k, fl.testBit k = true ↔ ∃ e ∈ s.elemsOf w b ix sc t sp m, (scattered t ((s.ctx w).vsrc t.width a) e).2.testBit k = true) ∧
        v.ctx w = ((s.ctx w).sent (v.ctx w).ocSt f fl).retired := by
  refine ports_sent _ _ (exec_stx ..) fun w hw τ hN => ?_
  obtain ⟨hr, hl, he⟩ := h w hw
  have hlen := (resolveX_spec hr).2
  have hwhole := elemsOf_whole he
  obtain ⟨u, hu, hP⟩ := scatter_port (sp := sp) (pol := pol) (base := (s.ctx w).src b) (v := (s.ctx w).vsrc t.width a) (s := τ) (w := w)
    ((s.elemsOf w b ix sc t sp m).zip (ls w)) 0 (fun p hp => by
      obtain ⟨h1, h2⟩ := hl _ (List.of_mem_zip hp).2
      exact ⟨hwhole _ (List.of_mem_zip hp).1, hN.portBytes h1, by rw [hN.ctx]; exact h2⟩)
  have hr' := hN.resolveX hsp hr
  rw [← hN.elemsOf, ← hN.ctx] at hr' hu
  refine ⟨u, _, _, stxOp_eq hr' (fun l h => by rw [hN.ctx]; exact (hl l h).2) hu, ?_, Raised.onCtx .., ?_⟩
  · have hsize : ∀ p ∈ (s.elemsOf w b ix sc t sp m).zip (ls w), p.2.length = p.1.size t := by
      unfold State.resolveX at hr
      split at hr
      · cases hr
      · rw [if_neg hsp] at hr
        exact elemBytes_length hsp _ hr
    rw [← cellsOf_flatten _ _ _ hlen (fun p hp => by rw [hsize p hp, (hwhole _ (List.of_mem_zip hp).1).size, scattered_length])]
    exact hP
  · rw [hN.elemsOf, hN.ctx]
    exact fun k => scatterFlags_spec hlen k

theorem scatter_to_log (a : VSrc) (b : Src) (ix : VSrc) (sc : Fin 4) (t : Ty) (sp : MSpace) (pol : Policy) (m : MReg) (s : State)
    (ls : Nat → List (List RByte)) (new : Nat → List LogItem)
    (hnew : ∀ w, new w = ((s.elemsOf w b ix sc t sp m).zip (ls w)).flatMap (fun p =>
      logEntries s w (wrap 64 (opOffset sp ((s.ctx w).src b) p.1.off)) pol p.2 (scattered t ((s.ctx w).vsrc t.width a) p.1).1))
    (h : ∀ w ∈ s.members s.cur, s.resolveX w t sp ((s.ctx w).src b) .write (s.elemsOf w b ix sc t sp m) = .ok (s, ls w) ∧
      (∀ l ∈ ls w, loggedBytes s w l ∧ (s.ctx w).loadOverlaps l = false) ∧ (∀ e ∈ s.elemsOf w b ix sc t sp m, e.width t % 8 = 0) ∧
      logCount (s.ctx w).log + (new w).length < 256) :
    ∃ v, exec (.stx a b ix sc t sp pol m) s = .next v ∧ v = { s with ctxs := v.ctxs } ∧
      (∀ w, w ∉ s.members s.cur → v.ctx w = s.ctx w) ∧
      ∀ w ∈ s.members s.cur, ∃ fl : Nat,
        (∀ k, fl.testBit k = true ↔ ∃ e ∈ s.elemsOf w b ix sc t sp m, (scattered t ((s.ctx w).vsrc t.width a) e).2.testBit k = true) ∧
        v.ctx w = (((s.ctx w).logged (new w)).raise fl).retired := by
  obtain ⟨v, hv, hf, ho, hm⟩ := logs_added (fun w n fl => n = new w ∧
    ∀ k, fl.testBit k = true ↔ ∃ e ∈ s.elemsOf w b ix sc t sp m, (scattered t ((s.ctx w).vsrc t.width a) e).2.testBit k = true)
    (exec_stx a b ix sc t sp pol m s) (fun w hw τ hF hc => by
      obtain ⟨hr, hl, he, hn⟩ := h w hw
      have hlen := (resolveX_spec hr).2
      have hwhole := elemsOf_whole he
      have hS : Sim w s τ := ⟨by obtain ⟨x, rfl⟩ := hF; exact ⟨x, _, rfl⟩, hc⟩
      obtain ⟨τ', hτ, hS', hA⟩ := hS.resolveX hr
      have hN := hS'.near
      have hent : ∀ va bs l, logEntries τ' w va pol l bs = logEntries s w va pol l bs := fun va bs l => hN.logEntries ..
      rw [hnew] at hn
      obtain ⟨u, hu, hL⟩ := scatter_logged (sp := sp) (pol := pol) (base := (s.ctx w).src b) (v := (s.ctx w).vsrc t.width a) (s := τ') (w := w)
        ((s.elemsOf w b ix sc t sp m).zip (ls w)) 0 (fun p hp => by
          obtain ⟨h1, h2⟩ := hl _ (List.of_mem_zip hp).2
          exact ⟨hwhole _ (List.of_mem_zip hp).1, hN.loggedBytes h1, by rw [hN.ctx]; exact h2⟩) (by
          simp only [hent, hN.ctx]; exact hn)
      simp only [hent] at hL
      rw [← hS.near.elemsOf, ← hS.ctx] at hτ hu
      refine ⟨τ', u, _, _, _, stxOp_eq hτ (fun l h => by rw [hN.ctx]; exact (hl l h).2) hu, hS', hA, hL, Raised.onCtx .., (hnew w).symm, ?_⟩
      rw [hS.near.elemsOf, hS.ctx]
      exact fun k => scatterFlags_spec hlen k)
  refine ⟨v, hv, hf, ho, fun w hw => ?_⟩
  obtain ⟨_, fl, ⟨rfl, hfl⟩, hc⟩ := hm w hw
  exact ⟨fl, hfl, hc⟩

theorem scatter_to_log_single (a : VSrc) (b : Src) (ix : VSrc) (sc : Fin 4) (t : Ty) (sp : MSpace) (pol : Policy) (m : MReg) (s u : State)
    (ls : List (List RByte)) (h1 : s.single) (new : List LogItem)
    (hnew : new = ((s.elemsOf s.cur b ix sc t sp m).zip ls).flatMap (fun p =>
      logEntries u s.cur (wrap 64 (opOffset sp ((s.ctx s.cur).src b) p.1.off)) pol p.2 (scattered t ((s.ctx s.cur).vsrc t.width a) p.1).1))
    (hr : s.resolveX s.cur t sp ((s.ctx s.cur).src b) .write (s.elemsOf s.cur b ix sc t sp m) = .ok (u, ls))
    (hl : ∀ l ∈ ls, loggedBytes u s.cur l ∧ (u.ctx s.cur).loadOverlaps l = false) (he : ∀ e ∈ s.elemsOf s.cur b ix sc t sp m, e.width t % 8 = 0)
    (hn : logCount (u.ctx s.cur).log + new.length < 256) :
    ∃ (v : State) (fl : Nat), exec (.stx a b ix sc t sp pol m) s = .next v ∧ v = { u with ctxs := v.ctxs } ∧
      (∀ w, w ≠ s.cur → v.ctx w = u.ctx w) ∧
      (∀ k, fl.testBit k = true ↔ ∃ e ∈ s.elemsOf s.cur b ix sc t sp m, (scattered t ((s.ctx s.cur).vsrc t.width a) e).2.testBit k = true) ∧
      v.ctx s.cur = ({ u.ctx s.cur with log := (u.ctx s.cur).log ++ new,
                                        fcsr := (s.ctx s.cur).fcsr ||| BitVec.ofNat 32 (fl % 64 * 2 ^ 8) } : Ctx).retired := by
  obtain ⟨hLk, hlen⟩ := resolveX_spec hr
  obtain ⟨x, hx⟩ := hLk.ctx
  have hwhole := elemsOf_whole he
  subst hnew
  obtain ⟨v, hv, hL⟩ := scatter_logged (sp := sp) (pol := pol) (base := (s.ctx s.cur).src b) (v := (s.ctx s.cur).vsrc t.width a) (s := u)
    (w := s.cur) ((s.elemsOf s.cur b ix sc t sp m).zip ls) 0 (fun p hp => by
      obtain ⟨h1, h2⟩ := hl _ (List.of_mem_zip hp).2
      exact ⟨hwhole _ (List.of_mem_zip hp).1, h1, h2⟩) hn
  have hop := stxOp_eq (a := a) hr (fun l h => (hl l h).2) hv
  have hR := Raised.onCtx s.cur (scatterFlags t ((s.ctx s.cur).vsrc t.width a) ((s.elemsOf s.cur b ix sc t sp m).zip ls) 0) v
  generalize v.onCtx s.cur _ = y at hop hR
  have hfc : (u.ctx s.cur).fcsr = (s.ctx s.cur).fcsr := by rw [hx]
  have hg : (y.ctx s.cur).gang = (s.ctx s.cur).gang := by rw [hR.own, hL.own, hx]; rfl
  refine ⟨_, _, single_run h1 (exec_stx ..) hop hg, ?_, fun w hw => ?_, scatterFlags_spec hlen, ?_⟩
  · obtain ⟨_, rfl⟩ := hL.frame
    obtain ⟨_, rfl⟩ := hR.frame
    rfl
  · rw [State.after, State.onCtx_ctx, if_neg hw, hR.others w hw, hL.others w hw]
  · rw [State.after, State.onCtx_ctx, if_pos rfl, hR.own, hL.own, ← hfc]
    rfl

/-- Settles O27: gathers merge the lanes of their elements, and scatters store the elements one by one in lane order. -/
theorem gatherAndScatter : Obligations.GatherAndScatter :=
  ⟨fun d b ix sc t sp pol m s ls _ hsp h => gather_local d b ix sc t sp pol m s ls hsp h,
   fun d b ix sc t pol m s ls _ h => gather_global d b ix sc t pol m s ls h,
   fun d b ix sc t pol m s u ls h1 _ hr => gather_global_single d b ix sc t pol m s u ls h1 hr,
   fun a b ix sc t sp pol m s ls _ hsp h => scatter_to_ports a b ix sc t sp pol m s ls hsp h,
   fun a b ix sc t sp pol m s ls _ h => scatter_to_log a b ix sc t sp pol m s ls _ (fun _ => rfl) h,
   fun a b ix sc t sp pol m s u ls h1 _ hr hl he hn => scatter_to_log_single a b ix sc t sp pol m s u ls h1 _ rfl hr hl he hn⟩

end Sys2Proof.Machine

/-! ## Counterexamples of the events

The statements about events range over every state, those with ill-formed tables too. Each refutation gives a concrete state and evaluates
the event in it. -/

namespace Sys2Proof.Machine

/-- The state that an instruction or event leaves, where it completes. -/
def after (i : Instr) (s : State) : Option State :=
  match exec i s with
  | .next t => some t
  | _ => none

theorem after_of_exec {i : Instr} {s t : State} (h : exec i s = .next t) : after i s = some t := by
  simp only [after, h]

/-- What the model evaluates in the state after an event holds of the state that a statement names there. -/
theorem value_after {α : Type} {f : State → α} {i : Instr} {s t : State} {v : α} (hv : (after i s).map f = some v)
    (h : exec i s = .next t) : f t = v := by
  rw [after_of_exec h] at hv
  exact Option.some.inj hv

/-! ### A packet that bears the fresh name -/

/-- A message to handle 1 that bears the name 0, which is also the fresh name of `clashState`. -/
def clashPkt : NetPkt :=
  { uid := 0, core := 0, part := 0, w := none, pair := none, p := [BitVec.ofNat 64 (2 + 2 ^ 16), 0], tries := 0, st := .flying
    redir := false, gate := {}, nq := false, host := none }

/-- Handle 1 is absent (its placement word at address 8 has st = 3), and its backing queue of one free entry lies outside the partition. -/
def clashState : State :=
  { mem := [(15, 0xC0)]
    mods := [(0, { parts := [(0, { valid := true, aptsz := 1, apt := 0, pool := 0, groups := 0, ranges := [], root := 0 })] })]
    net := [clashPkt] }

/-- The notice of the denied write bears the packet's name, so the refusal overwrites the notice as well as the packet: the newest packet of the
network is a message. -/
theorem clash_last_kind :
    (after .packetArrival clashState).map (fun t => t.net.getLast?.map (fun n => Pkt.kind n.p)) = some (some 0) := by
  decide +kernel

/-- Refutes O48: where the packet that arrives bears the name that the next new packet takes, the refusal of a denied backing queue overwrites
the engine-error notice. -/
theorem not_networkEvents : ¬ Obligations.NetworkEvents := by
  unfold Obligations.NetworkEvents
  intro h
  obtain ⟨-, -, harrive, -⟩ := h
  obtain ⟨-, -, -, hback, -⟩ := harrive clashState clashPkt (by decide +kernel) rfl rfl (.inl (by decide +kernel))
  obtain ⟨-, -, hdenied⟩ := hback (by decide +kernel) (.inl (by decide +kernel))
  obtain ⟨t, n, ht, -, hlast, hkind, -⟩ :=
    hdenied 0 (by decide +kernel) (by decide +kernel) (fun j hj => absurd hj (Nat.not_lt_zero j)) (by decide +kernel)
  have hmsg := value_after clash_last_kind ht
  rw [hlast] at hmsg
  have hzero : Pkt.kind n.p = 0 := Option.some.inj hmsg
  exact absurd (hkind.symm.trans hzero) (by decide)

end Sys2Proof.Machine

/-! ## A scheduler record of slot 64 -/

namespace Sys2Proof.Machine

/-- Core 0 has an eligible actor in slot 64, whose descriptor begins at the local address 0xE4000, behind the 64 descriptors. Its rule 0 takes
one packet each of mailbox 0, at 0, and of mailbox 1, at 0xE4030: the state word of mailbox 0 itself. -/
def slot64State : State :=
  { mem :=
      [(0x80000000000 + 0xE4010, 0x01), (0x80000000000 + 0xE4011, 0x01),
       (0x80000000000 + 0xE4018, 0x01), (0x80000000000 + 0xE4019, 0x01), (0x80000000000 + 0xE401B, 0x03), (0x80000000000 + 0xE401C, 0xE4),
       (0x80000000000 + 0xE4031, 0x02), (0x80000000000 + 0xE4039, 0x02),
       (0x80000000000 + 0xE4058, 0x11), (0x80000000000 + 0xE405F, 0x80)]
    cores := [(0, { sched := [(64, { st := .eligible })] })] }

/-- The packets that lie at the heads of the mailboxes which a rule names, before any is taken. -/
def State.headPackets (s : State) (gc slot : Nat) (ru : Rule) : List Pkt :=
  [0, 1, 2, 3].flatMap (fun m => (List.range (ru.count m)).map (fun i => let b := s.mbox gc slot m
    s.rdWords (localPA gc (b.entry (b.head + i))) (2 * b.units)))

/-- The firing's second packet holds the state word of mailbox 0 as the take of the first one left it. -/
theorem slot64_msgs :
    (after .firingChoice slot64State).map (fun t => (t.ctx 0).msgs) = some [[0, 0], [0x40000, 0x200]] := by
  decide +kernel

theorem slot64_headPackets :
    slot64State.headPackets 0 64 (slot64State.rule 0 64 0) = [[0, 0], [0x200, 0x200]] := by
  decide +kernel

/-- Refutes O49: a scheduler record of slot 64 has its descriptor where mailbox entries may lie, and taking a packet of mailbox 0 then changes the
packet of mailbox 1 before the firing consumes it. -/
theorem not_schedulerEvents : ¬ Obligations.SchedulerEvents := by
  unfold Obligations.SchedulerEvents
  intro h
  obtain ⟨-, hstart, -⟩ := h
  obtain ⟨-, hactor, -⟩ := hstart slot64State (.actor 64 0) (by decide +kernel)
  obtain ⟨u, ps, hu, hctx, hps, -⟩ := hactor 64 0 0 rfl (by decide +kernel)
  have hmsgs : (u.ctx 0).msgs = ps := by
    obtain ⟨-, -, -, -, -, -, hm, -⟩ := hctx 0 (by decide +kernel)
    exact hm
  have hheads : ps = slot64State.headPackets 0 64 (slot64State.rule 0 64 0) := hps (by decide +kernel)
  have htaken : (u.ctx 0).msgs = [[0, 0], [0x40000, 0x200]] := value_after slot64_msgs hu
  rw [hmsgs, hheads, slot64_headPackets] at htaken
  exact absurd htaken (by decide)

end Sys2Proof.Machine

/-! ## An admission that names one slot by two handles -/

namespace Sys2Proof.Machine

/-- An admission of the handles 1 and 2, both of slot 1 of core 0; no placement word is written yet. -/
def twinAdmission : Admission := { uid := 0, w := 0, fid := 0, part := 0, team := [(1, 0, 1), (2, 0, 1)], res := none }

/-- Slot 1 of core 0 is admitting for `twinAdmission`. -/
def twinState : State :=
  { cores := [(0, { sched := [(1, { st := .admitting })] })]
    mods := [(0, { owner := [(0, 0)]
                   parts := [(0, { valid := true, aptsz := 2, apt := 0, pool := 0, groups := 0, ranges := [], root := 0 })] })]
    admits := [twinAdmission] }

/-- The placement words of both handles are plain words in HBM. -/
theorem twin_aptPA_plain {h q : Nat} (hh : h = 1 ∨ h = 2) (hq : twinState.aptPA 0 0 h = some q) :
    twinState.plainWord q ∧ twinState.region q = .hbm ∧ twinState.region (q + 7) = .hbm := by
  have hpa : q = 8 * h := by
    rcases hh with rfl | rfl
    · exact (Option.some.inj hq).symm
    · exact (Option.some.inj hq).symm
  subst hpa
  refine ⟨fun k _ => rfl, ?_⟩
  rcases hh with rfl | rfl
  · decide +kernel
  · decide +kernel

/-- The first member takes the slot's place, and the second is resident by then: its placement word stays 0. -/
theorem twin_second_place : (after .admitRestore twinState).map (fun t => t.rd64 16) = some 0 := by
  decide +kernel

/-- Refutes O50: where two handles of a team name one slot, the first takes it, and the placement entry of the second does not become
resident. -/
theorem not_actorEvents : ¬ Obligations.ActorEvents := by
  unfold Obligations.ActorEvents
  intro h
  obtain ⟨-, -, hadmit, -⟩ := h
  obtain ⟨hteam, -⟩ := hadmit twinState twinAdmission (by decide +kernel)
  obtain ⟨u, hu⟩ := Option.isSome_iff_exists.mp (show (twinState.restoreTeam twinAdmission.team).isSome = true by decide +kernel)
  obtain ⟨t, ht, -, hplaces, -⟩ := hteam u hu
  have hmembers : ∀ x ∈ twinAdmission.team, x.2.1 / 2048 = 0 ∧ twinState.ownerOf x.2.1 = 0 ∧ x.2.2 < 64 ∧
      ∀ q, twinState.aptPA 0 0 x.1 = some q → twinState.plainWord q ∧ twinState.region q = .hbm ∧ twinState.region (q + 7) = .hbm := by
    intro x hx
    rcases List.mem_pair.mp hx with rfl | rfl
    · exact ⟨rfl, by decide +kernel, by decide, fun q hq => twin_aptPA_plain (.inl rfl) hq⟩
    · exact ⟨rfl, by decide +kernel, by decide, fun q hq => twin_aptPA_plain (.inr rfl) hq⟩
  have hplace : t.rd64 16 / 2 ^ 62 % 4 = 1 :=
    hplaces 0 0 hmembers (2, 0, 1) (List.mem_pair.mpr (.inr rfl)) (by decide +kernel) 16 (by decide +kernel)
  rw [value_after twin_second_place ht] at hplace
  exact absurd hplace (by decide)

end Sys2Proof.Machine

/-! ## What the decoder accepts -/

namespace Sys2Proof

/-- A decoded instruction has passed its checks. -/
theorem decodeInstr_eq_ok {head : Nat} {tail : List Nat} {i : Instr} (h : decodeInstr head tail = .ok i) :
    decodeFields (fieldsOf head tail) = .ok i ∧ i.wellFormed = true := by
  unfold decodeInstr at h
  cases hd : decodeFields (fieldsOf head tail) with
  | error r => rw [hd] at h; cases h
  | ok j =>
    cases hc : j.check with
    | some r => simp [hd, hc, bind, Except.bind, throw, throwThe, MonadExceptOf.throw] at h
    | none =>
      have hj : j = i := by simpa [hd, hc, bind, Except.bind, pure, Except.pure] using h
      subst hj
      exact ⟨rfl, decide_eq_true hc⟩

/-- The opcodes at both ends of the map are reserved (R51). -/
theorem decodeFields_reserved {f : Fields} (h : f.op = 0x00 ∨ f.op = 0x7F) : decodeFields f = .error .opcode := by
  obtain ⟨op, tl, d, h0, h1, h2, h3⟩ := f
  rcases h with rfl | rfl
  · rfl
  · rfl

/-- Only an event has no halfwords: every other arm of the encoder begins with a head. -/
theorem checks_of_encode_eq_nil {i : Instr} (h : encode i = []) : i.checks = [(false, .event)] := by
  unfold encode at h
  split at h
  all_goals cases h
  all_goals rfl

theorem encode_ne_nil {i : Instr} (h : i.wellFormed = true) : encode i ≠ [] := by
  intro hn
  simp [Instr.wellFormed, Instr.check, checks_of_encode_eq_nil hn, firstFail] at h

/-- Settles O56: the decoder ends with the checks of a well-formed instruction, and its map leaves the two reserved opcodes out. -/
theorem decodedInstructionsAreWellFormed : Obligations.DecodedInstructionsAreWellFormed := by
  intro head tail i h
  obtain ⟨hf, hwf⟩ := decodeInstr_eq_ok h
  have hop : ¬ ((fieldsOf head tail).op = 0x00 ∨ (fieldsOf head tail).op = 0x7F) := fun hr => by
    rw [decodeFields_reserved hr] at hf; cases hf
  exact ⟨hwf, fun h0 => hop (.inl h0), fun h7 => hop (.inr h7), encode_ne_nil hwf⟩

end Sys2Proof

/-! ## Privileged instructions in user mode -/

namespace Sys2Proof.Machine

theorem State.members_eq_cons (s : State) (w : Nat) : ∃ l, s.members w = w :: l := by
  unfold State.members; split
  · exact ⟨_, rfl⟩
  · exact ⟨_, rfl⟩

/-- An instruction on which every context of the firing faults ends in the fault of the leading context. -/
theorem each_traps {s : State} {f : Nat → State → Except Stop State} (t : Nat → Trap) (hg : (t s.cur).gcore = 0)
    (h : ∀ m ∈ s.members s.cur, f m s = .error (.trap (t m))) : each s f = .next (s.fault s.cur (t s.cur)) := by
  obtain ⟨l, hl⟩ := s.members_eq_cons s.cur
  have hcur := h _ (s.mem_members_self _)
  have hlead : ({ t s.cur with gcore := 0 } : Trap) = t s.cur := by rw [← hg]
  unfold each
  split
  · next m hm =>
    obtain rfl : s.cur = m := by rw [hm] at hl; exact (List.cons.inj hl).1.symm
    simp only [hcur, finish]
  · rw [firstWait_eq_none fun m hm u hu => by rw [h m hm] at hu; cases hu]
    simp only [hl, eachFrom, hcur, finish, hlead]

theorem privileged_user {s : State} {w head : Nat} {f : Nat → State → Except Stop State} (hu : (s.ctx w).supv = false) :
    privileged head f w s = .error (.trap (privTrap head (s.ctx w).pc)) := by
  simp only [privileged, hu, Bool.false_eq_true, if_false]

/-- A privileged instruction that every context of a user firing executes (R55). -/
theorem each_privileged {s : State} {head : Nat} {f : Nat → State → Except Stop State} (hu : ∀ w ∈ s.members s.cur, (s.ctx w).supv = false) :
    each s (privileged head f) = .next (s.fault s.cur (privTrap head (s.ctx s.cur).pc)) :=
  each_traps (fun w => privTrap head (s.ctx w).pc) rfl fun w hw => privileged_user (hu w hw)

/-- A privileged instruction that a user firing issues once (R55). -/
theorem once_privileged {s : State} {head : Nat} {f : Nat → State → Except Stop State} (hu : ∀ w ∈ s.members s.cur, (s.ctx w).supv = false) :
    once s (privileged head f) = .next (s.fault s.cur (privTrap head (s.ctx s.cur).pc)) := by
  rw [once, privileged_user (hu _ (s.mem_members_self _))]; rfl

theorem sprSup_eq_true {n : Spr} : sprSup n = true ↔ n = .fsyn ∨ n = .fva ∨ n = .fpc ∨ n = .fmsg ∨ n = .sctl ∨ ∃ k, n = .bud k := by
  cases n <;> simp [sprSup]

theorem exec_srd (d : Dst) (n : Spr) (s : State) : exec (.srd d n) s = execSrd d n s := rfl
theorem exec_swr (n : Spr) (a : Src) (s : State) : exec (.swr n a) s = execSwr n a s := rfl

theorem srd_user {s : State} {d : Dst} {n : Spr} (hn : sprSup n = true) (hu : ∀ w ∈ s.members s.cur, (s.ctx w).supv = false) :
    exec (.srd d n) s = .next (s.fault s.cur (privTrap 0xFC83 (s.ctx s.cur).pc)) := by
  rw [exec_srd, execSrd]
  exact each_traps (fun w => privTrap 0xFC83 (s.ctx w).pc) rfl fun w hw => if_pos (by simp [hn, hu w hw])

theorem swr_user {s : State} {n : Spr} {a : Src} (hn : n ≠ .fcsr) (hu : ∀ w ∈ s.members s.cur, (s.ctx w).supv = false) :
    exec (.swr n a) s = .next (s.fault s.cur (privTrap 0xFC84 (s.ctx s.cur).pc)) := by
  rw [exec_swr, execSwr]
  exact each_traps (fun w => privTrap 0xFC84 (s.ctx w).pc) rfl fun w hw => if_pos (by simp [hn, hu w hw])

/-- Settles O16: SRD and SWR test the mode for the registers that they guard, and the others are `privileged`, in every context or once. -/
theorem privilegedInstructionsTrap : Obligations.PrivilegedInstructionsTrap := by
  intro i s head hu hi
  split at hi
  case h_1 d n => obtain ⟨hn, rfl⟩ := hi; exact srd_user (sprSup_eq_true.2 hn) hu
  case h_2 n a => obtain ⟨hn, rfl⟩ := hi; exact swr_user hn hu
  case h_3 => subst hi; exact once_privileged hu
  case h_4 => subst hi; exact each_privileged hu
  case h_5 => subst hi; exact each_privileged hu
  case h_6 => subst hi; exact each_privileged hu
  case h_7 => subst hi; exact each_privileged hu
  case h_8 => subst hi; exact each_privileged hu
  case h_9 => subst hi; exact each_privileged hu
  case h_10 => subst hi; exact once_privileged hu
  case h_11 => exact hi.elim

end Sys2Proof.Machine

/-! ## Control instructions on which the contexts of the firing agree -/

namespace Sys2Proof.Machine

/-- The target that the model computes is the one that R39 words. -/
theorem branchTarget_eq (c : Ctx) (disp : Int) (idx : Fin 32) : branchTarget c.pc disp idx = c.target disp idx.val := by
  have hline : BitVec.ofNat 64 (c.pc.toNat / 64 * 64) = c.pc - c.pc % 64 := by
    apply BitVec.eq_of_toNat_eq
    have hmod : (c.pc % 64).toNat = c.pc.toNat % 64 := BitVec.toNat_umod
    have hle : c.pc % 64 ≤ c.pc := by rw [BitVec.le_def, hmod]; exact Nat.mod_le _ _
    rw [BitVec.toNat_sub_of_le hle, hmod, BitVec.toNat_ofNat]
    omega
  rw [branchTarget, Ctx.target, BitVec.ofInt_add, BitVec.ofInt_add, BitVec.ofInt_mul, BitVec.ofInt_natCast, BitVec.ofInt_natCast, hline]
  rfl

/-- The state differs in return predictors only (R119). -/
def PredictorOnly (s u : State) : Prop :=
  u = { s with cores := u.cores } ∧ ∀ g, ∃ l, u.core g = { s.core g with rpred := l }

theorem PredictorOnly.refl (s : State) : PredictorOnly s s := ⟨rfl, fun g => ⟨(s.core g).rpred, rfl⟩⟩

theorem PredictorOnly.onCore (s : State) (gc : Nat) (f : List Word → List Word) :
    PredictorOnly s (s.onCore gc (fun k => { k with rpred := f k.rpred })) := by
  refine ⟨rfl, fun g => ?_⟩
  rw [State.onCore_core]
  split
  · next h => subst h; exact ⟨_, rfl⟩
  · exact ⟨(s.core g).rpred, rfl⟩

@[simp] theorem Ctx.dst_goto_gang (c : Ctx) (d : Dst) (v t : Word) : ((c.dst d v).goto t).gang = c.gang := by
  rw [Ctx.dst_eq]; rfl

/-- A context that writes a link or a counter and goes to a target. -/
theorem Ctx.dst_goto_on (c : Ctx) (d : Dst) (v t : Word) :
    Effect.On { scalars := c.writes d v, target := some t } c ((c.dst d v).goto t).retired := by
  obtain ⟨hs, hv, hm, hb, hf, -, -⟩ := c.dst_on d v
  refine ⟨hs, hv, hm, hb, hf, rfl, ?_⟩
  rw [Ctx.dst_eq]; rfl

/-- The instruction writes and goes, on each context of the firing, as `controlForm` says, and changes nothing else but return predictors. -/
def Transfers (i : Instr) (s : State) : Prop :=
  ∃ t, exec i s = .next t ∧ t = { s with ctxs := t.ctxs, cores := t.cores } ∧
    (∀ g, ∃ l, t.core g = { s.core g with rpred := l }) ∧
    (∀ w, w ∉ s.members s.cur → t.ctx w = s.ctx w) ∧
    ∀ w ∈ s.members s.cur, ∃ l next, controlForm (s.ctx w) i = some (l, next) ∧
      Effect.On { scalars := l, target := some next } (s.ctx w) (t.ctx w)

/-- A control form whose run on a context writes one destination and goes to its target completes. -/
theorem control_completes {i : Instr} {s u : State} {f : Ctx → Ctx} (hp : PredictorOnly s u) (he : exec i s = eachCtx u f)
    (hf : ∀ c, ∃ d v next, controlForm c i = some (c.writes d v, next) ∧ f c = (c.dst d v).goto next) :
    Transfers i s := by
  have hg : ∀ c, (f c).gang = c.gang := fun c => by
    obtain ⟨d, v, next, -, h⟩ := hf c
    rw [h, Ctx.dst_goto_gang]
  obtain ⟨t, ht, hframe, hctx⟩ := eachCtx_spec u f hg
  obtain ⟨hcores, hpred⟩ := hp
  have hsame : ∀ w, u.ctx w = s.ctx w := fun w => by rw [hcores]; rfl
  have hmem : u.members u.cur = s.members s.cur := by rw [hcores]; rfl
  refine ⟨t, he.trans ht, ?_, fun g => ?_, fun w hw => ?_, fun w hw => ?_⟩
  · rw [hframe, hcores]
  · rw [hframe]; exact hpred g
  · rw [hctx, hmem, if_neg hw, hsame]
  · obtain ⟨d, v, next, hform, h⟩ := hf (s.ctx w)
    refine ⟨_, next, hform, ?_⟩
    rw [hctx, hmem, if_pos hw, hsame, h]
    exact Ctx.dst_goto_on ..

theorem exec_brT2I (disp : BitVec 16) (idx : Fin 32) (s : State) : exec (.brT2I disp idx) s = execBrT2I disp idx s := rfl
theorem exec_brT4 (disp : BitVec 32) (idx : Fin 32) (s : State) : exec (.brT4 disp idx) s = execBrT4 disp idx s := rfl
theorem exec_callT2I (d : Dst) (disp : BitVec 16) (idx : Fin 32) (s : State) : exec (.callT2I d disp idx) s = callOp s d disp.toInt idx := rfl
theorem exec_callT4 (d : Dst) (disp : BitVec 32) (idx : Fin 32) (s : State) : exec (.callT4 d disp idx) s = callOp s d disp.toInt idx := rfl

theorem State.diverges_eq_false {α : Type} [DecidableEq α] {s : State} {w : Nat} {f : Ctx → α}
    (h : ∀ m ∈ s.members w, f (s.ctx m) = f (s.ctx w)) : s.diverges w f = false := by
  rw [← Bool.not_eq_true, State.diverges_eq_true]
  rintro ⟨m, hm, hne⟩
  exact hne (h m hm)

/-- Contexts that choose alike, as `controlChoice` writes an outcome, do not diverge on it. -/
theorem diverges_of_choice {s : State} {p : Ctx → Bool}
    (h : ∀ m ∈ s.members s.cur, (if p (s.ctx m) = true then (1 : Word) else 0) = if p (s.ctx s.cur) = true then 1 else 0) :
    s.diverges s.cur p = false :=
  State.diverges_eq_false fun m hm => not_not.1 fun hne => (choice_ne_iff _ _).2 hne (h m hm)

theorem jumpOp_agrees {s : State} {a : Src} (h : ∀ m ∈ s.members s.cur, (s.ctx m).src a = (s.ctx s.cur).src a) :
    jumpOp s a = eachCtx s (fun c => c.goto (c.src a)) := by
  rw [jumpOp, State.diverges_eq_false h]; rfl

/-- A conditional transfer goes to one of two targets. -/
theorem Ctx.goto_ite (c : Ctx) (p : Prop) [Decidable p] (t : Word) : (if p then c.goto t else c) = c.goto (if p then t else c.npc) := by
  split <;> rfl

theorem callOp_completes {i : Instr} {s : State} {d : Dst} {disp : Int} {idx : Fin 32} (he : exec i s = callOp s d disp idx)
    (hf : ∀ c, controlForm c i = some (c.writes d c.npc, c.target disp idx.val)) :
    Transfers i s :=
  control_completes (PredictorOnly.onCore s (coreOf s.cur) fun l => ((s.ctx s.cur).npc :: l).take 8) he fun c =>
    ⟨d, c.npc, _, hf c, by rw [branchTarget_eq]⟩

/-- Settles O12: BR and CALL always go, and the forms that choose go where every context of the firing chooses the same. -/
theorem controlTransfers : Obligations.ControlTransfers := by
  intro i s hform hagree
  have hi := hform {}
  unfold controlForm at hi
  split at hi
  case h_1 disp idx =>
    exact control_completes (PredictorOnly.refl s) (exec_brT2I disp idx s) fun c => ⟨.discard, 0, _, rfl, by rw [branchTarget_eq]; rfl⟩
  case h_2 disp idx =>
    exact control_completes (PredictorOnly.refl s) (exec_brT4 disp idx s) fun c => ⟨.discard, 0, _, rfl, by rw [branchTarget_eq]; rfl⟩
  case h_3 cc a b disp idx =>
    have hd : s.diverges s.cur (fun c => condHolds cc (c.src a) (c.src b)) = false := diverges_of_choice hagree
    have he : exec (.bc cc a b disp idx) s = eachCtx s fun c =>
        if condHolds cc (c.src a) (c.src b) then c.goto (branchTarget c.pc disp.toInt idx) else c := by
      rw [exec_bc, execBc, hd]; rfl
    exact control_completes (PredictorOnly.refl s) he fun c => ⟨.discard, 0, _, rfl, by rw [Ctx.goto_ite, branchTarget_eq]; rfl⟩
  case h_4 d disp idx => exact callOp_completes (exec_callT2I d disp idx s) fun c => rfl
  case h_5 d disp idx => exact callOp_completes (exec_callT4 d disp idx s) fun c => rfl
  case h_6 a =>
    have he : exec (.ret a) s = eachCtx (s.onCore (coreOf s.cur) (fun k => { k with rpred := k.rpred.drop 1 })) fun c => c.goto (c.src a) := by
      rw [exec_ret, execRet]
      exact jumpOp_agrees hagree
    exact control_completes (PredictorOnly.onCore _ _ (·.drop 1)) he fun c => ⟨.discard, 0, _, rfl, rfl⟩
  case h_7 a =>
    exact control_completes (PredictorOnly.refl s) ((exec_jmp a s).trans (jumpOp_agrees hagree)) fun c => ⟨.discard, 0, _, rfl, rfl⟩
  case h_8 d disp idx =>
    have hd : s.diverges s.cur (fun c => decide (c.dstVal d - 1 ≠ 0)) = false :=
      diverges_of_choice fun m hm => by simpa only [controlChoice, decide_eq_true_eq] using hagree m hm
    have he : exec (.loop d disp idx) s = eachCtx s fun c =>
        if decide (c.dstVal d - 1 ≠ 0) then (c.dst d (c.dstVal d - 1)).goto (branchTarget c.pc disp.toInt idx)
        else c.dst d (c.dstVal d - 1) := by
      rw [exec_loop, execLoop, hd]; rfl
    refine control_completes (PredictorOnly.refl s) he fun c => ⟨d, c.dstVal d - 1, _, rfl, ?_⟩
    have hnpc : (c.dst d (c.dstVal d - 1)).npc = c.npc := by rw [Ctx.dst_eq]
    rw [Ctx.goto_ite, branchTarget_eq, hnpc]
    simp only [decide_eq_true_eq]
  case h_9 => cases hi

end Sys2Proof.Machine

/-! ## Two writes of one record -/

namespace Sys2Proof

variable {α : Type}

theorem FMap.erase_of_find_none (m : FMap α) (i : Nat) (h : FMap.find m i = none) : FMap.erase m i = m := by
  induction m with
  | nil => rfl
  | cons p m ih =>
    obtain ⟨k, v⟩ := p
    have hk : i ≠ k := by rintro rfl; simp [FMap.find] at h
    rw [FMap.find, if_neg hk] at h
    rw [FMap.erase, if_neg hk, ih h]

theorem FMap.erase_insert (m : FMap α) (i : Nat) (x : α) (h : FMap.find m i = none) : FMap.erase (FMap.insert m i x) i = m := by
  induction m with
  | nil => simp [FMap.insert, FMap.erase]
  | cons p m ih =>
    obtain ⟨k, v⟩ := p
    have hm := FMap.erase_of_find_none _ _ h
    have hk : i ≠ k := by rintro rfl; simp [FMap.find] at h
    rw [FMap.find, if_neg hk] at h
    rw [FMap.insert]
    split
    · rw [FMap.erase, if_pos rfl, hm]
    · rw [FMap.erase, if_neg hk, ih h]

/-- Of two writes of one record the second remains. -/
theorem FMap.set_set (m : FMap α) (i : Nat) (x y : α) : FMap.set (FMap.set m i x) i y = FMap.set m i y := by
  rw [FMap.set, FMap.set, FMap.erase_insert _ _ _ (by simp), FMap.set]

end Sys2Proof

/-! ## Bits of numbers, and the end of an instruction of one context -/

namespace Sys2Proof.Machine

theorem testBit_bits (x lo w j : Nat) : (bits x lo w).testBit j = (decide (j < w) && x.testBit (lo + j)) := by
  rw [bits, Nat.testBit_mod_two_pow, Nat.testBit_shiftRight]

/-- A bit of a field, by its place in the number. -/
theorem testBit_bits_sub {x lo w j : Nat} (h : lo ≤ j) : (bits x lo w).testBit (j - lo) = (decide (j < lo + w) && x.testBit j) := by
  rw [testBit_bits, Nat.add_sub_cancel' h]
  congr 2
  exact propext (by omega)

theorem bit_eq_testBit (x i : Nat) : bit x i = x.testBit i := by
  rw [bit, Nat.testBit_eq_decide_div_mod_eq, Nat.shiftRight_eq_div_pow]

theorem bits_lt (x lo w : Nat) : bits x lo w < 2 ^ w := Nat.mod_lt _ (by positivity)

/-- Bits put into a number, one by one. -/
theorem testBit_setBits (x lo w v j : Nat) :
    (setBits x lo w v).testBit j = if lo ≤ j ∧ j < lo + w then v.testBit (j - lo) else x.testBit j := by
  have hlow : x % 2 ^ lo < 2 ^ lo := Nat.mod_lt _ (by positivity)
  have hv : v % 2 ^ w < 2 ^ w := Nat.mod_lt _ (by positivity)
  rw [setBits_eq, Nat.testBit_two_pow_mul_add _ hlow, Nat.testBit_two_pow_mul_add _ hv]
  by_cases h1 : j < lo
  · rw [if_pos h1, if_neg (by omega), Nat.testBit_mod_two_pow, decide_eq_true h1, Bool.true_and]
  rw [if_neg h1]
  by_cases h2 : j - lo < w
  · rw [if_pos h2, if_pos (by omega), Nat.testBit_mod_two_pow, decide_eq_true h2, Bool.true_and]
  · rw [if_neg h2, if_neg (by omega), Nat.testBit_div_two_pow, Nat.testBit_div_two_pow]
    congr 1
    omega

/-- Changing a context as its instruction completes, in one update or in two. -/
theorem State.after_onCtx (s : State) (w : Nat) (f : Ctx → Ctx) : (s.onCtx w f).after w id = s.after w f := by
  have hctx : (s.onCtx w f).ctx w = f (s.ctx w) := by rw [State.onCtx_ctx, if_pos rfl]
  simp only [State.after, id]
  rw [State.onCtx, hctx]
  simp only [State.onCtx, State.setCtx, FMap.set_set]

end Sys2Proof.Machine

/-! ## SRD and SWR: special registers (O14, O15) -/

namespace Sys2Proof.Machine

/-! ### Reads -/

/-- Single runs that replace their own context make an instruction that replaces each context of the firing. -/
theorem each_replaces {i : Instr} {s : State} {f : Nat → State → Except Stop State} (g : Nat → Ctx) (he : exec i s = each s f)
    (hgang : ∀ w ∈ s.members s.cur, (g w).gang = (s.ctx w).gang)
    (hstep : ∀ w ∈ s.members s.cur, ∀ t, t = { s with ctxs := t.ctxs } → t.ctx w = s.ctx w → f w t = .ok (t.onCtx w (fun _ => g w))) :
    ∃ t, exec i s = .next t ∧ t = { s with ctxs := t.ctxs } ∧ (∀ w, w ∉ s.members s.cur → t.ctx w = s.ctx w) ∧
      ∀ w ∈ s.members s.cur, t.ctx w = (g w).retired := by
  obtain ⟨u, t, ht, hF, hu, hother, hmem⟩ := each_frame (s := s) (f := f) (fun t => t = { s with ctxs := t.ctxs }) (fun w c => c = g w) rfl
    (fun w hw c hc => by rw [hc, hgang w hw]) (fun w hw t hF hc =>
      ⟨_, hstep w hw t hF hc, State.ctxsOnly_trans hF rfl, fun j hj => by rw [State.onCtx_ctx, if_neg hj], by rw [State.onCtx_ctx, if_pos rfl]⟩)
  refine ⟨t, he.trans ht, State.ctxsOnly_trans hF hu, hother, fun w hw => ?_⟩
  obtain ⟨hg, hr⟩ := hmem w hw
  rw [hr, hg]

/-- The number that SRD reads is the value that Table 4.2 words. -/
theorem State.sprVal_eq (s : State) (w : Nat) (n : Spr) : BitVec.ofNat 64 (s.sprVal w n) = specialValue s w n := by
  cases n with
  | oc =>
    simp only [State.sprVal, specialValue, Ctx.oc]
    congr 1
    ring
  | yreq =>
    simp only [State.sprVal, specialValue]
    split <;> rfl
  | lmask | fsyn | fva | fpc | fmsg | sctl | bud => exact BitVec.ofNat_toNat ..
  | fcsr | bfmt => exact BitVec.ofNat_toNat ..
  | _ => rfl

/-- A special register depends on its own context and on what contexts do not change. -/
theorem specialValue_congr {s t : State} {w : Nat} (h : t = { s with ctxs := t.ctxs }) (hc : t.ctx w = s.ctx w) (n : Spr) :
    specialValue t w n = specialValue s w n := by
  have hcore : ∀ k, t.core k = s.core k := by rw [h]; exact fun _ => rfl
  have hmod : ∀ m, t.mod m = s.mod m := by rw [h]; exact fun _ => rfl
  have hnow : t.now = s.now := by rw [h]
  simp only [specialValue, hc, hcore, hmod, hnow]

/-- Settles O14: where the mode allows it, SRD writes the register's value in each context. -/
theorem specialRegisterReads : Obligations.SpecialRegisterReads := by
  intro d n s hsup
  have hmode : ∀ w ∈ s.members s.cur, (sprSup n && !(s.ctx w).supv) = false := fun w hw => by
    cases hn : sprSup n with
    | false => rfl
    | true => rw [hsup (sprSup_eq_true.1 hn) w hw]; rfl
  obtain ⟨t, ht, hframe, hother, hmem⟩ := each_replaces (fun w => (s.ctx w).dst d (specialValue s w n)) (exec_srd d n s)
    (fun w _ => by rw [Ctx.dst_eq_result, Ctx.result_gang])
    (fun w hw u hu hc => by
      rw [State.sprVal_eq, specialValue_congr hu hc, hc, hmode w hw]
      simp only [State.onCtx, hc]
      rfl)
  exact ⟨t, ht, hframe, hother, fun w hw => by rw [hmem w hw]; exact Ctx.dst_on ..⟩

/-! ### Writes -/

/-- What SWR leaves in `%fcsr` is what R75 words. -/
theorem fcsrWrite_spec (old : BitVec 32) (v : Word) : fcsrAfter old (fcsrWrite old v) v := by
  intro k hk
  have hmode : bits v.toNat 0 3 = v.toNat % 8 := rfl
  simp only [fcsrWrite, BitVec.getLsbD_ofNat, decide_eq_true hk, Bool.true_and, ← hmode]
  generalize hm : (if bits v.toNat 0 3 ≤ 4 then bits v.toNat 0 3 else bits old.toNat 0 3) = m
  have hbit : ∀ j, m.testBit j = (decide (j < 3) && if bits v.toNat 0 3 ≤ 4 then v.getLsbD j else old.getLsbD j) := fun j => by
    subst hm
    split
    · rw [testBit_bits, Nat.zero_add, BitVec.getLsbD]
    · rw [testBit_bits, Nat.zero_add, BitVec.getLsbD]
  have hlt : m < 2 ^ 8 := by
    subst hm
    split <;> exact (bits_lt _ 0 3).trans (by norm_num)
  rw [Nat.mul_comm, Nat.testBit_two_pow_mul_add _ hlt]
  by_cases h8 : k < 8
  · rw [if_pos h8, hbit, if_neg (show ¬ (8 ≤ k ∧ k ≤ 13) by omega)]
    by_cases h2 : k ≤ 2
    · rw [if_pos h2, decide_eq_true (by omega), Bool.true_and]
    · rw [if_neg h2, decide_eq_false (by omega), Bool.false_and]
  · rw [if_neg h8, testBit_bits_sub (by omega), if_neg (show ¬ k ≤ 2 by omega)]
    by_cases h13 : k ≤ 13
    · rw [if_pos ⟨by omega, h13⟩, decide_eq_true (by omega), Bool.true_and, BitVec.getLsbD]
    · rw [if_neg (by omega), decide_eq_false (by omega), Bool.false_and]

/-- What SWR leaves in `%sctl`, bit by bit (Table 4.9). -/
theorem getLsbD_sctlWrite (lead : Bool) (old v : Word) {j : Nat} (hj : j < 64) :
    (sctlWrite lead old v).getLsbD j = if 16 ≤ j ∧ j < 32 ∨ j = 2 ∨ j = 3 then v.getLsbD j else if j = 1 then old.getLsbD 1
      else if j = 0 then (if lead then v.getLsbD 0 else old.getLsbD 0) else false := by
  generalize hg : (if lead then bits v.toNat 0 1 else bits old.toNat 0 1) = g
  have hgang : g.testBit 0 = if lead then v.getLsbD 0 else old.getLsbD 0 := by
    subst hg
    split <;> exact testBit_bits _ 0 1 0
  have h0 : g < 2 ^ 1 := by subst hg; split <;> exact bits_lt _ 0 1
  have h1 := bits_lt old.toNat 1 1
  have h2 := bits_lt v.toNat 2 2
  have hx : sctlWrite lead old v = BitVec.ofNat 64
      (2 ^ 16 * bits v.toNat 16 16 + (2 ^ 2 * bits v.toNat 2 2 + (2 ^ 1 * bits old.toNat 1 1 + g))) := by
    rw [sctlWrite, hg]
    congr 1
    ring
  have hone : 2 ^ 1 * bits old.toNat 1 1 + g < 2 ^ 2 := by omega
  have htwo : 2 ^ 2 * bits v.toNat 2 2 + (2 ^ 1 * bits old.toNat 1 1 + g) < 2 ^ 16 := by omega
  rw [hx, BitVec.getLsbD_ofNat, decide_eq_true hj, Bool.true_and, Nat.testBit_two_pow_mul_add _ htwo, Nat.testBit_two_pow_mul_add _ hone,
    Nat.testBit_two_pow_mul_add _ h0]
  by_cases h16 : 16 ≤ j
  · rw [if_neg (by omega), testBit_bits_sub h16]
    by_cases h32 : j < 32
    · rw [if_pos (.inl ⟨h16, h32⟩), decide_eq_true (by omega), Bool.true_and, BitVec.getLsbD]
    · rw [if_neg (by omega), if_neg (by omega), if_neg (by omega), decide_eq_false (by omega), Bool.false_and]
  rw [if_pos (by omega)]
  by_cases hfield : 2 ≤ j
  · rw [if_neg (by omega), testBit_bits_sub hfield]
    by_cases h4 : j < 4
    · rw [if_pos (by omega), decide_eq_true (by omega), Bool.true_and, BitVec.getLsbD]
    · rw [if_neg (by omega), if_neg (by omega), if_neg (by omega), decide_eq_false (by omega), Bool.false_and]
  obtain rfl | rfl : j = 0 ∨ j = 1 := by omega
  · exact hgang
  · exact testBit_bits _ 1 1 0

/-- In a firing of one context whose mode allows it, SWR writes the register by its rule. -/
theorem swr_single {n : Spr} {a : Src} {s : State} (h1 : s.single) (hsup : n ≠ .fcsr → (s.ctx s.cur).supv = true)
    (hg : ((s.sprPut s.cur n ((s.ctx s.cur).src a)).ctx s.cur).gang = (s.ctx s.cur).gang) :
    exec (.swr n a) s = .next ((s.sprPut s.cur n ((s.ctx s.cur).src a)).after s.cur id) := by
  refine single_run h1 (exec_swr n a s) (if_neg ?_) hg
  simpa using hsup

/-- `%bud` after a write, with its limits as R77 words them. -/
theorem Core.putBud_eq (c : Core) (k : Nat) (v : Word) : c.putBud k v =
    if v.toNat % 2 ^ 21 ≤ v.toNat / 2 ^ 21 % 2 ^ 21 ∧ v.toNat / 2 ^ 21 % 2 ^ 21 ≤ v.toNat / 2 ^ 42 % 2 ^ 21
    then { c with bud := FMap.put budReset c.bud k (BitVec.ofNat 64 (v.toNat % 2 ^ 63)) } else c := by
  simp only [Core.putBud, budYield, budKill, budFence, bits, Nat.shiftRight_eq_div_pow, pow_zero, Nat.div_one]

/-- `%sctl` and the sequence of the race trace after a write (R80, R224). -/
theorem Core.putSctl_eq (c : Core) (lead : Bool) (v : Word) : c.putSctl lead v =
    { c with sctl := sctlWrite lead c.sctl v
             raceSeq := if v.getLsbD 2 = true ∧ c.sctl.getLsbD 2 = false then 0 else c.raceSeq } := by
  simp only [Core.putSctl, bit_eq_testBit, BitVec.getLsbD, Bool.and_eq_true, Bool.not_eq_true']

/-- Settles O15: each register is written by its rule, in the context for `%fcsr` and in the core for `%sctl` and `%bud`. -/
theorem specialRegisterWrites : Obligations.SpecialRegisterWrites := by
  intro n a s h1 hsup v k
  have hlead : ∀ gc, leadOf gc = gc ↔ gc % 4 = 0 := fun gc => by rw [leadOf]; omega
  refine ⟨_, swr_single h1 hsup ?_, ?_, ?_, ?_, ?_⟩
  · cases n with
    | fcsr => rw [State.sprPut, State.onCtx_ctx, if_pos rfl]
    | _ => rfl
  · rintro rfl
    exact ⟨_, fcsrWrite_spec _ v, State.after_onCtx ..⟩
  · rintro rfl
    refine ⟨sctlWrite (decide (leadOf (s.cur / 4) = s.cur / 4)) k.sctl v, _, fun j hj => ?_, rfl, ?_⟩
    · simp only [getLsbD_sctlWrite _ _ _ hj, decide_eq_true_eq, hlead]
    · simp only [State.sprPut, Core.putSctl_eq]
      rfl
  · rintro i rfl
    simp only [State.sprPut, Core.putBud_eq]
    rfl
  · intro hf hs hb
    cases n with
    | fcsr => exact absurd rfl hf
    | sctl => exact absurd rfl hs
    | bud i => exact absurd rfl (hb i)
    | _ => rfl

end Sys2Proof.Machine

/-! ## The state after reset (O60) -/

namespace Sys2Proof.Machine

@[simp] theorem State.reset_ctx (w : Nat) : State.reset.ctx w = {} := rfl
@[simp] theorem State.reset_core (gc : Nat) : State.reset.core gc = {} := rfl
@[simp] theorem State.reset_clu (cl : Nat) : State.reset.clu cl = {} := rfl
@[simp] theorem State.reset_mod (m : Nat) : State.reset.mod m = {} := rfl

/-- No core has an owner before Patrol writes the core map (R299). -/
@[simp] theorem State.reset_ownerOf (gc : Nat) : State.reset.ownerOf gc = 0xFF := by
  rw [State.ownerOf, State.coreOff, State.reset_mod]; rfl

/-- The Partition Table is empty before Patrol writes it (R307). -/
theorem State.reset_partEntry (m p : Nat) : (State.reset.partEntry m p).valid = false := by
  rw [State.partEntry, State.reset_mod]; rfl

theorem Ctx.default_mask (m : MReg) : Ctx.mask {} m = if m = 0 then BitVec.allOnes 64 else 0 :=
  if_congr Fin.val_eq_zero_iff rfl rfl

/-- Settles O60: every table of `State.reset` is empty, so each unit is in its reset condition. -/
theorem resetState : Obligations.ResetState := by
  refine ⟨rfl, rfl, ?bytes, rfl, ?modules, State.reset_ownerOf, ?contexts, ?cores, ?clusters, rfl, rfl, rfl, rfl, rfl⟩
  case bytes => exact fun pa => ⟨rfl, rfl, rfl⟩
  case modules =>
    intro m
    rw [State.reset_mod]
    exact ⟨rfl, rfl, State.reset_partEntry m⟩
  case contexts =>
    intro w
    rw [State.reset_ctx]
    exact ⟨rfl, rfl, rfl, rfl, rfl, fun k => ⟨rfl, rfl⟩, fun b => rfl, Ctx.default_mask⟩
  case cores =>
    intro gc
    rw [State.reset_core]
    exact ⟨rfl, rfl, fun k => rfl, fun k => rfl, rfl, rfl, rfl⟩
  case clusters =>
    intro cl p
    rw [State.reset_clu]
    exact ⟨rfl, rfl, rfl, rfl⟩

end Sys2Proof.Machine

/-! ## BLD, BST and BMOV: bit fields (O26) -/

namespace Sys2Proof.Machine

/-! ### Bit-address registers -/

/-- A post-increment adds to bits 22 to 0, modulo 2^23, and keeps the bits above (R72). -/
theorem bitStep_spec (r : Word) (n : Nat) :
    (bitStep r n).toNat % 2 ^ 23 = (r.toNat + n) % 2 ^ 23 ∧ (bitStep r n).toNat / 2 ^ 23 = r.toNat / 2 ^ 23 := by
  have hr := r.isLt
  have hx : setBits r.toNat 0 23 (bits r.toNat 0 23 + n) = 2 ^ 23 * (r.toNat / 2 ^ 23) + (r.toNat + n) % 2 ^ 23 := by
    rw [setBits_eq]
    simp only [bits, Nat.shiftRight_zero, pow_zero, Nat.div_one, Nat.mod_one, one_mul, add_zero, Nat.mod_add_mod]
  rw [bitStep, BitVec.toNat_ofNat, hx]
  omega

@[simp] theorem Ctx.breg_setBreg (c : Ctx) (k j : BReg) (v : Word) : (c.setBreg k v).breg j = if j.val = k.val then v else c.breg j := by
  simp [Ctx.setBreg, Ctx.breg]

theorem Ctx.dst_breg (c : Ctx) (d : Dst) (v : Word) (k : BReg) : (c.dst d v).breg k = c.breg k := by
  rw [Ctx.dst_eq]; rfl

/-- A scalar result and a new bit address, as an effect. -/
theorem Ctx.dst_setBreg_on (c : Ctx) (d : Dst) (v : Word) (k : BReg) (r : Word) :
    Effect.On { scalars := c.writes d v, bits := [(k.val, r)] } c ((c.dst d v).setBreg k r).retired := by
  obtain ⟨hs, hv, hm, hb, hf, hpc, hrest⟩ := c.dst_on d v
  refine ⟨hs, hv, hm, fun b => ?_, hf, hpc, ?_⟩
  · change ((c.dst d v).setBreg k r).breg b = _
    rw [Ctx.breg_setBreg, Ctx.dst_breg, lookup_getD_cons, lookup_getD_nil]
  · rw [Ctx.dst_eq]; rfl

/-- Bit-address registers that a post-increment writes (R72). -/
def Ctx.bitWrites (c : Ctx) (k : BReg) (n : Nat) (inc : Bool) : List (Nat × Word) := if inc then [(k.val, bitStep (c.breg k) n)] else []

/-- A scalar result and a post-increment, as an effect. -/
theorem Ctx.dst_bitInc_on (c : Ctx) (d : Dst) (v : Word) (k : BReg) (n : Nat) (inc : Bool) :
    Effect.On { scalars := c.writes d v, bits := c.bitWrites k n inc } c
      ((c.dst d v).bitInc k n inc).retired := by
  cases inc with
  | false => exact c.dst_on d v
  | true =>
    have hinc : (c.dst d v).bitInc k n true = (c.dst d v).setBreg k (bitStep (c.breg k) n) := by rw [← c.dst_breg d v k]; rfl
    rw [hinc]
    exact c.dst_setBreg_on d v k _

/-- A post-increment, as an effect. -/
theorem Ctx.bitInc_on (c : Ctx) (k : BReg) (n : Nat) (inc : Bool) :
    Effect.On { bits := c.bitWrites k n inc } c (c.bitInc k n inc).retired :=
  c.dst_bitInc_on .discard 0 k n inc

theorem Ctx.bitInc_gang (c : Ctx) (k : BReg) (n : Nat) (inc : Bool) : (c.bitInc k n inc).gang = c.gang := by
  unfold Ctx.bitInc; split <;> rfl

theorem Ctx.bitInc_ocSt (c : Ctx) (k : BReg) (n : Nat) (inc : Bool) : (c.bitInc k n inc).retired.ocSt = c.ocSt := by
  unfold Ctx.bitInc; split <;> rfl

/-! ### BMOV -/

theorem exec_bmov (k : BReg) (x : BMovArg) (s : State) : exec (.bmov k x) s = execBmov k x s := rfl

theorem bmov_toB (k : BReg) (a : Src) (s : State) : Completes (.bmov k (.toB a)) s (fun c e => e = { bits := [(k.val, c.src a)] }) :=
  eachCtx_completes s (fun c => c.setBreg k (c.src a)) (fun _ => rfl) _ _ (exec_bmov k _ s) fun c =>
    ⟨_, rfl, c.dst_setBreg_on .discard 0 k _⟩

theorem bmov_fromB (k : BReg) (d : Dst) (s : State) :
    Completes (.bmov k (.fromB d)) s (fun c e => e = { scalars := c.writes d (c.breg k) }) :=
  eachCtx_completes s (fun c => c.dst d (c.breg k)) (fun c => by rw [Ctx.dst_eq_result, Ctx.result_gang]) _ _ (exec_bmov k _ s) fun c =>
    ⟨_, rfl, c.dst_on ..⟩

/-! ### BLD -/

theorem exec_bld (d : Dst) (k : BReg) (w1 : Fin 64) (inc : Bool) (s : State) : exec (.bld d k w1 inc) s = execBld d k w1 inc s := rfl

theorem Near.resolveBits {w : Nat} {s t : State} (h : Near w s t) {r : Word} {n : Nat} {acc : Access} {l : List RByte}
    (hs : s.resolveBits w r n acc = .ok l) : t.resolveBits w r n acc = .ok l := by
  unfold State.resolveBits at hs ⊢
  split at hs
  · cases hs
  · next hok =>
    rw [if_neg hok]
    dsimp only at hs ⊢
    split at hs
    · next hl => rw [if_pos hl]; exact h.resolveL hs
    · next ha => rw [if_neg ha]; exact h.resolveA hs

/-- BLD in a firing of one context reads its field from clean bytes. -/
theorem bld_reads {d : Dst} {k : BReg} {w1 : Fin 64} {inc : Bool} {s : State} {l : List RByte} (h1 : s.single)
    (hr : s.resolveBits s.cur ((s.ctx s.cur).breg k) (w1.val + 1) .read = .ok l) (hl : cleanBytes s l) :
    CompletesReading (.bld d k w1 inc) s (fun _ e =>
      e = { scalars := (s.ctx s.cur).writes d
              (BitVec.ofNat 64 (bits (leNat (s.readBytes s.cur l)) (bitBit ((s.ctx s.cur).breg k)) (w1.val + 1))),
            bits := (s.ctx s.cur).bitWrites k (w1.val + 1) inc }) := by
  refine reading_completes (fun _ => ((s.ctx s.cur).dst d (BitVec.ofNat 64
    (bits (leNat (s.readBytes s.cur l)) (bitBit ((s.ctx s.cur).breg k)) (w1.val + 1)))).bitInc k (w1.val + 1) inc) _ (exec_bld d k w1 inc s)
    (fun m hm t hG hc => ?_) (fun m hm => ?_)
  all_goals obtain rfl : m = s.cur := by simpa [h1.members] using hm
  · obtain ⟨hN, hq⟩ := hG.near hc
    obtain ⟨hG', hk⟩ := Granted.grantRead s.cur l t none hG
    refine ⟨t.grantRead s.cur l none, ?_, hG', hk⟩
    simp only [hc, hN.resolveBits hr, touchLocal_of_clean hN hl, hN.readBytes hq]
    rw [State.onCtx, State.onCtx, hk, hc]
  · exact ⟨_, rfl, Ctx.dst_bitInc_on ..⟩

/-! ### BST -/

theorem exec_bst (a : Src) (k : BReg) (w1 : Fin 64) (inc : Bool) (s : State) : exec (.bst a k w1 inc) s = execBst a k w1 inc s := rfl

/-- A read of clean bytes meets no poison and no bad word. -/
theorem touchPoison_of_clean {s : State} {l : List RByte} (h : cleanBytes s l) (w : Nat) (va : Word) : s.touchPoison w va l = s := by
  have hbytes : ∀ b ∈ l, ∃ pa hb cls, b = .mem pa hb cls ∧ s.poisoned pa = false ∧ s.badWord pa = false := fun b hb => by
    obtain ⟨pa, x, y, rfl, hp⟩ := h b hb
    exact ⟨pa, x, y, rfl, hp, (Bool.or_eq_false_iff.1 hp).2⟩
  unfold State.touchPoison
  rw [if_neg, if_neg]
  all_goals
    simp only [List.any_eq_true, not_exists, not_and]
    intro b hb
    obtain ⟨pa, x, y, rfl, hp, hw⟩ := hbytes b hb
    simp [hp, hw]

theorem touchGuard_of_clean {s : State} {l : List RByte} (h : cleanBytes s l) (w : Nat) (o : Int) : s.touchGuard w o l = s := by
  rw [State.touchGuard, firstGuard_of_clean h]

/-- A store sent to a port counts as stores do, and records nothing else in its context. -/
theorem State.sendStore_ctx (s : State) (e : Pending) (j : Nat) :
    ∃ oc, (s.sendStore e).ctx j = { s.ctx j with ocSt := oc } := by
  rw [State.sendStore, State.fresh_ctx, State.countSt, State.onCtx_ctx]
  split
  · next h => subst h; exact ⟨_, rfl⟩
  · exact ⟨(s.ctx j).ocSt, rfl⟩

/-- Of a context whose runs of bytes are sent to ports only the count of stores changes. -/
theorem State.storeRuns_port_ctx {w : Nat} {pol : Policy} (l : List Run) : ∀ {s t : State}, (∀ r ∈ l, s.ports w r) →
    s.storeRuns w pol l = .ok t → ∃ oc, t.ctx w = { s.ctx w with ocSt := oc } := by
  induction l with
  | nil => rintro s t - ht; cases ht; exact ⟨_, rfl⟩
  | cons r l ih =>
    intro s t hl ht
    obtain ⟨hne, gc, a, hr, hin⟩ := hl r (by simp)
    have hu := State.sendStore_ctx s (pendingOf (s.origin w) .port r.pa r.hb r.cls pol r.bytes 0 0) w
    have hreg := (PortSent.sendStore w s r.pa r.hb r.cls pol r.bytes hne).region
    rw [State.storeRuns, hr] at ht
    simp only [hin, Bool.false_eq_true, if_false] at ht
    generalize s.sendStore (pendingOf (s.origin w) .port r.pa r.hb r.cls pol r.bytes 0 0) = u at ht hu hreg
    obtain ⟨oc, hoc⟩ := hu
    obtain ⟨oc', hoc'⟩ := ih (fun x hx => by
      obtain ⟨hne, gc, a, hr, hin⟩ := hl x (List.mem_cons_of_mem _ hx)
      exact ⟨hne, gc, a, by rw [hreg, hr], by rw [hoc]; exact hin⟩) ht
    exact ⟨oc', by rw [hoc', hoc]⟩

/-- Bytes of scratchpads outside the state segment make runs that are sent to ports. -/
theorem runs_ports {s : State} {w va : Nat} {l : List RByte} {bs : List Byte} (h : portBytes s w l) : ∀ r ∈ runsOf va (l.zip bs), s.ports w r := by
  intro r hr
  obtain ⟨hne, hb, cls, hm⟩ := runsOf_start hr
  obtain ⟨gc, a, hreg, hin, _⟩ := h _ _ _ hm
  exact ⟨hne, gc, a, hreg, hin⟩

/-- A store of clean bytes to ports changes nothing in its context but the count of stores. -/
theorem State.storeAt_port_clean {s : State} {w : Nat} {o : Int} {l : List RByte} {pol : Policy} {bs : List Byte} (hc : cleanBytes s l)
    (hl : portBytes s w l) (hov : (s.ctx w).loadOverlaps l = false) :
    ∃ t oc, s.storeAt w o l pol bs = .ok t ∧ PortSent w s t (cellsOf l bs) ∧ t.ctx w = { s.ctx w with ocSt := oc } := by
  obtain ⟨t, ht, hP⟩ := State.storeAt_port (o := o) (pol := pol) (bs := bs) hl hov
  have hruns : s.storeRuns w pol (runsOf (wrap 64 o) (l.zip bs)) = .ok t := by
    rw [← ht, State.storeAt, hov, touchGuard_of_clean hc]; rfl
  obtain ⟨oc, hoc⟩ := State.storeRuns_port_ctx _ (runs_ports hl) hruns
  exact ⟨t, oc, ht, hP, hoc⟩

/-- Stores sent to ports by an instruction of one context that then goes on. -/
theorem PortSent.sentToPort_after {w : Nat} {s u : State} {cells : List (Nat × Byte)} (h : PortSent w s u cells) {f : Ctx → Ctx}
    (hf : ∀ c, (f c).ocSt = c.ocSt) : sentToPort s (u.after w f) [(w, cells)] := by
  obtain ⟨f', oc, hc, hoc⟩ := h.own
  obtain ⟨q, a, rfl, hq, hcells⟩ := h.frame
  refine ⟨⟨q, rfl, hq.uids, hq.port, ?_⟩, rfl, fun m hm => ?_, fun m hm => ?_⟩
  · rw [List.flatMap_singleton]; exact hcells
  · have hmw : m ≠ w := by simpa using hm
    rw [State.after, State.onCtx_ctx, if_neg hmw, h.others m hmw]
  · obtain rfl : m = w := by simpa using hm
    rw [State.after, State.onCtx_ctx, if_pos rfl, show (Ctx.retired _).ocSt = _ from hf _, hc]
    exact hoc

/-- The bytes that BST stores: the field put into the bytes that it has read (R200). -/
def mergedBytes (s : State) (w : Nat) (l : List RByte) (k : BReg) (n : Nat) (a : Src) : Nat :=
  setBits (leNat (s.readBytes w l)) (bitBit ((s.ctx w).breg k)) n ((s.ctx w).src a).toNat

theorem testBit_mergedBytes (s : State) (w : Nat) (l : List RByte) (k : BReg) (n : Nat) (a : Src) (j : Nat) :
    (mergedBytes s w l k n a).testBit j =
      if ((s.ctx w).breg k).toNat % 8 ≤ j ∧ j < ((s.ctx w).breg k).toNat % 8 + n
      then ((s.ctx w).src a).getLsbD (j - ((s.ctx w).breg k).toNat % 8) else (leNat (s.readBytes w l)).testBit j :=
  testBit_setBits ..

section

variable {a : Src} {k : BReg} {w1 : Fin 64} {inc : Bool} {s : State} {l : List RByte} (h1 : s.single)
  (hr : s.resolveBits s.cur ((s.ctx s.cur).breg k) (w1.val + 1) .write = .ok l) (hl : cleanBytes s l)
  (hov : (s.ctx s.cur).loadOverlaps l = false)

include h1 hr hl hov

/-- BST in a firing of one context, once its merged bytes are stored. -/
theorem bst_stores {u : State}
    (hu : s.storeAt s.cur (bitByte ((s.ctx s.cur).breg k)) l .dflt (leBytes l.length (mergedBytes s s.cur l k (w1.val + 1) a)) = .ok u)
    (hg : (u.ctx s.cur).gang = (s.ctx s.cur).gang) :
    exec (.bst a k w1 inc) s = .next (u.after s.cur (fun c => c.bitInc k (w1.val + 1) inc)) := by
  rw [← State.after_onCtx]
  refine single_run h1 (exec_bst a k w1 inc s) ?_ ?_
  · simp only [hr, hov, touchPoison_of_clean hl, Bool.false_eq_true, if_false]
    rw [mergedBytes] at hu
    rw [hu]
  · rw [State.onCtx_ctx, if_pos rfl, Ctx.bitInc_gang, hg]

/-- BST of a field outside the state segment and the descriptors sends its merged bytes to the port (R200, R215). -/
theorem bst_to_port (hp : portBytes s s.cur l) :
    ∃ t, exec (.bst a k w1 inc) s = .next t ∧
      sentToPort s t [(s.cur, cellsOf l (leBytes l.length (mergedBytes s s.cur l k (w1.val + 1) a)))] ∧
      Effect.On { bits := (s.ctx s.cur).bitWrites k (w1.val + 1) inc }
        { s.ctx s.cur with ocSt := (t.ctx s.cur).ocSt } (t.ctx s.cur) := by
  obtain ⟨u, oc, hu, hP, hc⟩ := State.storeAt_port_clean (o := bitByte ((s.ctx s.cur).breg k)) (pol := .dflt)
    (bs := leBytes l.length (mergedBytes s s.cur l k (w1.val + 1) a)) hl hp hov
  refine ⟨_, bst_stores h1 hr hl hov hu (by rw [hc]), hP.sentToPort_after fun c => Ctx.bitInc_ocSt .., ?_⟩
  have hOn := (u.ctx s.cur).bitInc_on k (w1.val + 1) inc
  have hoc := (u.ctx s.cur).bitInc_ocSt k (w1.val + 1) inc
  rw [State.after, State.onCtx_ctx, if_pos rfl, hoc]
  rw [hc] at hOn ⊢
  exact hOn

/-- BST of a field in the state segment puts its merged bytes into the log, while there is room (R195, R200). -/
theorem bst_to_log (hlog : loggedBytes s s.cur l) {new : List LogItem}
    (hnew : new = logEntries s s.cur (((s.ctx s.cur).breg k).toNat / 8 % 2 ^ 20) .dflt l
      (leBytes l.length (mergedBytes s s.cur l k (w1.val + 1) a)))
    (hn : logCount (s.ctx s.cur).log + new.length < 256) :
    ∃ t, exec (.bst a k w1 inc) s = .next t ∧ t = { s with ctxs := t.ctxs } ∧ (∀ w, w ≠ s.cur → t.ctx w = s.ctx w) ∧
      Effect.On { bits := (s.ctx s.cur).bitWrites k (w1.val + 1) inc }
        { s.ctx s.cur with log := (s.ctx s.cur).log ++ new } (t.ctx s.cur) := by
  have hva : wrap 64 (bitByte ((s.ctx s.cur).breg k)) = ((s.ctx s.cur).breg k).toNat / 8 % 2 ^ 20 := by
    rw [wrap, bitByte, bits, Nat.shiftRight_eq_div_pow]
    omega
  rw [← hva] at hnew
  subst hnew
  obtain ⟨u, hu, hL⟩ := State.storeAt_logged (o := bitByte ((s.ctx s.cur).breg k)) (pol := .dflt) hlog hov hn
  refine ⟨_, bst_stores h1 hr hl hov hu (by rw [hL.own]; rfl), ?_, fun w hw => ?_, ?_⟩
  · obtain ⟨_, rfl⟩ := hL.frame
    rfl
  · rw [State.after, State.onCtx_ctx, if_neg hw, hL.others w hw]
  · have hOn := (u.ctx s.cur).bitInc_on k (w1.val + 1) inc
    rw [State.after, State.onCtx_ctx, if_pos rfl]
    rw [hL.own] at hOn ⊢
    exact hOn

end

/-- Settles O26: BLD and BST read and merge one field of the bytes that their bit address resolves to, and all three forms write bit-address
registers as `bitStep` and BMOV's copy say. -/
theorem bitFields : Obligations.BitFields := by
  refine ⟨fun d k w1 inc s l h1 hr hl => ?_, fun a k w1 inc s l h1 hr hl hp hov => ?_, ?_,
    fun k a s => bmov_toB k a s, fun k d s => bmov_fromB k d s⟩
  · obtain ⟨t, ht, hframe, hcore, hother, hmem⟩ := bld_reads (d := d) (inc := inc) h1 hr hl
    refine ⟨t, ht, hframe, hcore, hother, fun w hw => ?_⟩
    obtain ⟨e, rfl, hOn⟩ := hmem w hw
    refine ⟨_, ⟨_, fun _ => bitStep_spec .., ?_⟩, hOn⟩
    rw [bits, Nat.shiftRight_eq_div_pow]
    rfl
  · obtain ⟨t, ht, hsent, hOn⟩ := bst_to_port (a := a) (inc := inc) h1 hr hl hov hp
    exact ⟨t, _, _, ht, testBit_mergedBytes s s.cur l k _ a, hsent, bitStep_spec .., hOn⟩
  · intro a k w1 inc s l h1 c hr hl hlog hov
    have hbits := testBit_mergedBytes s s.cur l k (w1.val + 1) a
    obtain ⟨hlow, hhigh⟩ := bitStep_spec (c.breg k) (w1.val + 1)
    by_cases hn : logCount c.log + (logEntries s s.cur ((c.breg k).toNat / 8 % 2 ^ 20) .dflt l
        (leBytes l.length (mergedBytes s s.cur l k (w1.val + 1) a))).length < 256
    · obtain ⟨t, ht⟩ := bst_to_log (inc := inc) h1 hr hl hov hlog rfl hn
      exact ⟨t, _, _, hbits, hlow, hhigh, fun _ => ht⟩
    · exact ⟨s, _, _, hbits, hlow, hhigh, fun h => absurd h hn⟩

end Sys2Proof.Machine

/-! ## Two-operand integer forms (O1) -/

namespace Sys2Proof.Machine

/-! ### Results -/

theorem intVal_eq_numOf : intVal = numOf := rfl

theorem numOf_injective (n : Bool) : Function.Injective (numOf n) := by
  intro x y h
  cases n with
  | true => exact BitVec.eq_of_toNat_eq (Int.ofNat_inj.1 h)
  | false => exact BitVec.toInt_inj.1 h

theorem toNat_ofInt_word (v : Int) : ((BitVec.ofInt 64 v).toNat : Int) = v % 2 ^ 64 := by
  rw [BitVec.toNat_ofInt]
  exact Int.toNat_of_nonneg (Int.emod_nonneg _ (by norm_num))

/-- A word holds every value of its range, unsigned or signed. -/
theorem numOf_ofInt {n : Bool} {v : Int} (hlo : (if n then 0 else -2 ^ 63) ≤ v) (hhi : v ≤ if n then 2 ^ 64 - 1 else 2 ^ 63 - 1) :
    numOf n (BitVec.ofInt 64 v) = v := by
  cases n with
  | true =>
    simp only [if_true] at hlo hhi
    rw [numOf, if_pos rfl, toNat_ofInt_word]
    omega
  | false =>
    simp only [Bool.false_eq_true, if_false] at hlo hhi
    rw [numOf, if_neg Bool.false_ne_true, BitVec.toInt_ofInt]
    exact Int.bmod_eq_of_le (by omega) (by omega)

/-- The model clips and flags as R106 words it. -/
theorem clipInt_exactly (n sat : Bool) (v : Int) : exactly n sat v (BitVec.ofInt 64 (clipInt n sat v).1) (clipInt n sat v).2 := by
  have hrange : (if n then 0 else -2 ^ 63 : Int) ≤ if n then 2 ^ 64 - 1 else 2 ^ 63 - 1 := by cases n <;> norm_num
  have hlo := numOf_ofInt le_rfl hrange
  have hhi := numOf_ofInt hrange le_rfl
  simp only [exactly, clipInt, Bool.and_eq_true, decide_eq_true_eq]
  by_cases hbelow : sat = true ∧ v < if n then 0 else -2 ^ 63
  · simp only [if_pos hbelow]
    exact ⟨hlo, rfl⟩
  by_cases habove : sat = true ∧ (if n then 2 ^ 64 - 1 else 2 ^ 63 - 1) < v
  · simp only [if_neg hbelow, if_pos habove]
    exact ⟨hhi, rfl⟩
  · simp only [if_neg hbelow, if_neg habove]
    exact ⟨toNat_ofInt_word v, trivial⟩

theorem toNat_shl64 (x y : Word) : (shl64 x y).toNat = x.toNat * 2 ^ y.toNat % 2 ^ 64 := by
  unfold shl64
  split
  · rw [BitVec.toNat_shiftLeft, Nat.shiftLeft_eq]
  next h => exact (Nat.mod_eq_zero_of_dvd (dvd_mul_of_dvd_right (pow_dvd_pow 2 (Nat.not_lt.1 h)) _)).symm

theorem toNat_shr64 (x y : Word) : (shr64 x y).toNat = x.toNat / 2 ^ y.toNat := by
  unfold shr64
  split
  · rw [BitVec.toNat_ushiftRight, Nat.shiftRight_eq_div_pow]
  next h => exact (Nat.div_eq_of_lt (x.isLt.trans_le (Nat.pow_le_pow_right two_pos (Nat.not_lt.1 h)))).symm

/-- SHA divides and rounds down; from 63 places on nothing but the sign is left. -/
theorem toInt_sha64 (x y : Word) : (sha64 x y).toInt = x.toInt / 2 ^ y.toNat := by
  rw [sha64, BitVec.toInt_sshiftRight, Int.shiftRight_eq_div_pow]
  by_cases h : y.toNat ≤ 63
  · rw [min_eq_left h]; norm_cast
  · have hpow : (2 : Int) ^ 63 ≤ 2 ^ y.toNat := pow_le_pow_right₀ (by norm_num) (by omega)
    have hlo := BitVec.le_toInt x
    have hhi := BitVec.toInt_lt (x := x)
    rw [min_eq_right (by omega)]
    generalize (2 : Int) ^ y.toNat = p at hpow
    norm_num at hlo hhi hpow ⊢
    rcases lt_or_ge x.toInt 0 with hneg | hpos
    · rw [Int.ediv_eq_neg_one_of_neg_of_le hneg (by omega), Int.ediv_eq_neg_one_of_neg_of_le hneg (by omega)]
    · rw [Int.ediv_eq_zero_of_lt hpos (by omega), Int.ediv_eq_zero_of_lt hpos (by omega)]

theorem getLsbD_rol64 (x y : Word) {i : Nat} (hi : i < 64) : (rol64 x y).getLsbD ((i + y.toNat) % 64) = x.getLsbD i := by
  rw [rol64, BitVec.getLsbD_rotateLeft, Nat.mod_mod]
  by_cases h : i + y.toNat % 64 < 64
  · rw [decide_eq_false (by omega), decide_eq_true (Nat.mod_lt _ (by norm_num)), cond_false, Bool.true_and]
    congr 1; omega
  · rw [decide_eq_true (by omega), cond_true]
    congr 1; omega

/-! ### Forms -/

/-- What the model does on a context for an operation with its two operands. -/
def IntOp.run (op : IntOp) (n sat : Bool) (d : Dst) (x y : Word) (c : Ctx) : Ctx :=
  match op with
  | .add => c.arith (· + ·) n sat d x y
  | .sub => c.arith (· - ·) n sat d x y
  | .mul => c.arith (· * ·) n sat d x y
  | .mulh => c.mulHigh n d x y
  | .div => c.divide n d x y
  | .rem => c.remain n d x y
  | .and => c.dst d (x &&& y)
  | .or => c.dst d (x ||| y)
  | .xor => c.dst d (x ^^^ y)
  | .andn => c.dst d (andn64 x y)
  | .shl => c.dst d (shl64 x y)
  | .shr => c.dst d (shr64 x y)
  | .sha => c.dst d (sha64 x y)
  | .rol => c.dst d (rol64 x y)
  | .min => c.pick false n d x y
  | .max => c.pick true n d x y

/-- Every form of Table 6.2 runs its operation on its operands, an immediate sign-extended. -/
theorem exec_intForm {i : Instr} {f : IntForm} (h : intForm i = some f) (s : State) :
    exec i s = eachCtx s fun c => f.op.run f.n f.sat f.d (c.src f.a) (f.b.val c) c := by
  unfold intForm at h
  split at h <;> cases h <;> rfl

/-- The word and the flags that the model writes are those of Table 6.2. -/
theorem IntOp.run_gives (op : IntOp) (n sat : Bool) (d : Dst) (x y : Word) (c : Ctx) :
    ∃ r fl, op.gives n sat x y r fl ∧ op.run n sat d x y c = c.result d r fl := by
  have unflagged {r : Word} (h : op.gives n sat x y r 0) (hrun : op.run n sat d x y c = c.dst d r) :
      ∃ r fl, op.gives n sat x y r fl ∧ op.run n sat d x y c = c.result d r fl := ⟨r, 0, h, hrun.trans (c.dst_eq_result d r)⟩
  cases op with
  | add | sub | mul => exact ⟨_, _, clipInt_exactly n sat _, rfl⟩
  | mulh =>
    refine unflagged ⟨?_, rfl⟩ rfl
    rw [toNat_ofInt_word, Int.fdiv_eq_ediv_of_nonneg _ (by norm_num), intVal_eq_numOf]
  | div | rem =>
    by_cases hy : y = 0
    · exact ⟨_, fDZ, by rw [gives, if_pos hy]; exact ⟨rfl, rfl⟩, if_pos hy⟩
    · exact unflagged (by rw [gives, if_neg hy]; exact ⟨toNat_ofInt_word _, rfl⟩) (if_neg hy)
  | and | or | xor | andn => exact unflagged ⟨rfl, rfl⟩ rfl
  | shl => exact unflagged ⟨toNat_shl64 x y, rfl⟩ rfl
  | shr => exact unflagged ⟨toNat_shr64 x y, rfl⟩ rfl
  | sha => exact unflagged ⟨toInt_sha64 x y, rfl⟩ rfl
  | rol => exact unflagged ⟨fun i hi => getLsbD_rol64 x y hi, rfl⟩ rfl
  | min =>
    refine unflagged (r := if decide (numOf n x < numOf n y) = false then y else x) ⟨?_, rfl⟩ rfl
    rcases lt_trichotomy (numOf n x) (numOf n y) with hlt | heq | hgt
    · rw [decide_eq_true hlt, if_neg (by decide), if_neg hlt.le.not_gt]
    · rw [numOf_injective n heq, if_neg (lt_irrefl _), ite_self]
    · rw [decide_eq_false hgt.le.not_gt, if_pos rfl, if_pos hgt]
  | max =>
    exact unflagged (r := if decide (numOf n x < numOf n y) = true then y else x) ⟨if_congr decide_eq_true_iff rfl rfl, rfl⟩ rfl

/-- Settles O1: every form runs its operation on each context, and what that writes is the result of Table 6.2 and its flags. -/
theorem integerResults : Obligations.IntegerResults := by
  intro i f s hform
  refine eachCtx_completes s _ (fun c => ?_) i _ (exec_intForm hform s) fun c => ?_
  all_goals obtain ⟨r, fl, hgives, hrun⟩ := f.op.run_gives f.n f.sat f.d (c.src f.a) (f.b.val c) c
  · rw [hrun, Ctx.result_gang]
  · rw [hrun]; exact ⟨_, ⟨r, fl, hgives, rfl⟩, c.result_on f.d r fl⟩

end Sys2Proof.Machine

/-! ## Bit counts, choices, moves and bit fields (O2) -/

namespace Sys2Proof.Machine

/-! ### Counting bits (R108) -/

/-- A count of bits fits its word. -/
theorem toNat_ofNat_count {k : Nat} (h : k ≤ 64) : (BitVec.ofNat 64 k).toNat = k := by
  rw [BitVec.toNat_ofNat]; omega

theorem leadingZeros_eq {x : Word} {k : Nat} (h : x.toNat < 2 ^ k) :
    leadingZeros x k = if x = 0 then k else k - 1 - Nat.log2 x.toNat := by
  induction k with
  | zero => simp [leadingZeros]
  | succ k ih =>
    rw [leadingZeros]
    cases hb : x.getLsbD k with
    | true =>
      have hge : 2 ^ k ≤ x.toNat := Nat.ge_two_pow_of_testBit hb
      have hx : x.toNat ≠ 0 := ((Nat.two_pow_pos k).trans_le hge).ne'
      rw [if_pos rfl, if_neg (fun h0 => hx (by rw [h0]; rfl)), (Nat.log2_eq_iff hx).2 ⟨hge, h⟩]
      omega
    | false =>
      have hlt : x.toNat < 2 ^ k := Nat.lt_pow_two_of_testBit _ fun j hj => by
        rcases hj.eq_or_lt with rfl | hj
        · exact hb
        · exact Nat.testBit_eq_false_of_lt (h.trans_le (Nat.pow_le_pow_right two_pos hj))
      rw [if_neg Bool.false_ne_true, ih hlt]
      split
      · omega
      next hx =>
        have := (Nat.log2_lt (fun h0 => hx (BitVec.eq_of_toNat_eq h0))).2 hlt
        omega

theorem toNat_leadingZeros (x : Word) :
    (BitVec.ofNat 64 (leadingZeros x 64)).toNat = if x = 0 then 64 else 63 - Nat.log2 x.toNat := by
  rw [leadingZeros_eq x.isLt, toNat_ofNat_count]
  split <;> omega

/-- Where a power of two divides a number, the next one does just when the bit at its place is 0. -/
theorem two_pow_succ_dvd_iff {x i : Nat} (h : 2 ^ i ∣ x) : 2 ^ (i + 1) ∣ x ↔ x.testBit i = false := by
  obtain ⟨q, rfl⟩ := h
  rw [pow_succ, Nat.mul_dvd_mul_iff_left (by positivity), Nat.testBit_eq_decide_div_mod_eq, Nat.mul_div_cancel_left _ (by positivity)]
  simp [Nat.dvd_iff_mod_eq_zero]

/-- The count from bit `i` on, with no 1 below it: the greatest power of two that divides a word other than 0. -/
theorem trailingZeros_spec {x : Word} {k i : Nat} (hk : k + i = 64) (hi : 2 ^ i ∣ x.toNat) :
    if x = 0 then i + trailingZeros x k i = 64
    else 2 ^ (i + trailingZeros x k i) ∣ x.toNat ∧ ¬ 2 ^ (i + trailingZeros x k i + 1) ∣ x.toNat := by
  induction k generalizing i with
  | zero =>
    have hx : x = 0 := BitVec.eq_of_toNat_eq (Nat.eq_zero_of_dvd_of_lt (by simpa [show i = 64 by omega] using hi) x.isLt)
    rw [if_pos hx, trailingZeros]; omega
  | succ k ih =>
    have hnext := two_pow_succ_dvd_iff hi
    rw [trailingZeros]
    cases hb : x.getLsbD i with
    | true =>
      have hnot : ¬ 2 ^ (i + 1) ∣ x.toNat := fun hd => by rw [BitVec.getLsbD, hnext.1 hd] at hb; cases hb
      rw [if_neg (fun h0 => hnot (by rw [h0]; exact dvd_zero _)), if_pos rfl]
      exact ⟨hi, hnot⟩
    | false =>
      rw [if_neg Bool.false_ne_true, ← Nat.add_assoc]
      exact ih (by omega) (hnext.2 hb)

theorem trailingZeros_le (x : Word) (k i : Nat) : trailingZeros x k i ≤ k := by
  induction k generalizing i with
  | zero => exact le_rfl
  | succ k ih =>
    have := ih (i + 1)
    rw [trailingZeros]; split <;> omega

theorem toNat_trailingZeros (x : Word) :
    if x = 0 then (BitVec.ofNat 64 (trailingZeros x 64 0)).toNat = 64
    else 2 ^ (BitVec.ofNat 64 (trailingZeros x 64 0)).toNat ∣ x.toNat ∧
      ¬ 2 ^ ((BitVec.ofNat 64 (trailingZeros x 64 0)).toNat + 1) ∣ x.toNat := by
  rw [toNat_ofNat_count (trailingZeros_le x 64 0), ← Nat.zero_add (trailingZeros x 64 0)]
  exact trailingZeros_spec rfl (one_dvd _)

theorem oneBits_eq (x : Word) (k : Nat) : oneBits x k = ((List.range k).filter (fun j => x.getLsbD j)).length := by
  induction k with
  | zero => rfl
  | succ k ih =>
    rw [oneBits, ih, List.range_succ, List.filter_append, List.length_append, Nat.add_comm]
    congr 1
    cases h : x.getLsbD k <;> simp [h]

theorem toNat_oneBits (x : Word) :
    (BitVec.ofNat 64 (oneBits x 64)).toNat = ((List.range 64).filter (fun j => x.getLsbD j)).length := by
  have hle := List.length_filter_le (fun j => x.getLsbD j) (List.range 64)
  rw [List.length_range] at hle
  rw [oneBits_eq, toNat_ofNat_count hle]

/-! ### Conditions (Table 2.7) -/

theorem and_eq_zero_iff_no_common_bit (x y : Word) : x &&& y = 0 ↔ ∀ k : Nat, ¬ (x.getLsbD k = true ∧ y.getLsbD k = true) := by
  refine BitVec.zero_iff_eq_false.trans (forall_congr' fun k => ?_)
  rw [BitVec.getLsbD_and, ← Bool.and_eq_true, Bool.not_eq_true]

theorem condHolds_iff (cc : ICond) (x y : Word) : condHolds cc x y = true ↔ ICond.means cc x y := by
  have hcommon := and_eq_zero_iff_no_common_bit x y
  cases cc with
  | any => exact decide_eq_true_iff.trans ((not_congr hcommon).trans not_forall_not)
  | none => exact decide_eq_true_iff.trans hcommon
  | _ => exact decide_eq_true_iff

/-! ### Bit fields (R111) -/

theorem signed_eq_bmod {w : Nat} (hw : 0 < w) (x : Nat) : signed w x = Int.bmod x (2 ^ w) := by
  obtain ⟨w, rfl⟩ := Nat.exists_eq_succ_of_ne_zero hw.ne'
  have hdouble : 2 ^ (w + 1) = 2 * 2 ^ w := pow_succ' 2 w
  have hint : (2 ^ (w + 1) : Int) = ((2 * 2 ^ w : Nat) : Int) := by rw [← hdouble]; norm_cast
  simp only [Int.bmod, signed, Nat.succ_eq_add_one, Nat.add_sub_cancel, hint, hdouble]
  generalize 2 ^ w = p
  rw [← Int.natCast_emod]
  split <;> split <;> omega

theorem toNat_extractField (x : Word) (pos len1 : Fin 64) :
    (extractField x pos len1 true).toNat = x.toNat / 2 ^ pos.val % 2 ^ min (len1.val + 1) (64 - pos.val) := by
  rw [extractField, if_pos rfl, BitVec.toNat_ofNat, Nat.shiftRight_eq_div_pow]
  exact Nat.mod_eq_of_lt ((Nat.mod_le _ _).trans_lt ((Nat.div_le_self ..).trans_lt x.isLt))

theorem toInt_extractField (x : Word) (pos len1 : Fin 64) :
    (extractField x pos len1 false).toInt = Int.bmod (x.toNat / 2 ^ pos.val : Nat) (2 ^ min (len1.val + 1) (64 - pos.val)) := by
  have hl : 0 < fieldLen pos len1 := by unfold fieldLen; omega
  have hle : 2 ^ fieldLen pos len1 ≤ 2 ^ 64 := Nat.pow_le_pow_right two_pos (by unfold fieldLen; omega)
  have hlo := Int.le_bmod (x := (x.toNat / 2 ^ pos.val : Nat)) (Nat.two_pow_pos (fieldLen pos len1))
  have hhi := Int.bmod_lt (x := (x.toNat / 2 ^ pos.val : Nat)) (Nat.two_pow_pos (fieldLen pos len1))
  rw [extractField, if_neg Bool.false_ne_true, BitVec.toInt_ofInt, Nat.shiftRight_eq_div_pow, signed_eq_bmod hl, Int.natCast_emod,
    Int.emod_bmod]
  exact Int.bmod_eq_of_le (by omega) (by omega)

theorem getLsbD_insertField (old x : Word) (pos len1 : Fin 64) {k : Nat} (hk : k < 64) :
    (insertField old x pos len1).getLsbD k =
      if pos.val ≤ k ∧ k < pos.val + (len1.val + 1) then x.getLsbD (k - pos.val) else old.getLsbD k := by
  have hmask : (BitVec.ofNat 64 ((2 ^ fieldLen pos len1 - 1) * 2 ^ pos.val)).getLsbD k =
      decide (pos.val ≤ k ∧ k < pos.val + (len1.val + 1)) := by
    rw [BitVec.getLsbD_ofNat, Nat.testBit_mul_two_pow, Nat.testBit_two_pow_sub_one, fieldLen]
    simp only [Bool.and_eq_decide, decide_eq_true_eq]
    congr 1
    exact propext (by omega)
  simp only [insertField, BitVec.getLsbD_or, BitVec.getLsbD_and, BitVec.getLsbD_not, hmask, BitVec.getLsbD_shiftLeft]
  by_cases h : pos.val ≤ k ∧ k < pos.val + (len1.val + 1) <;> simp [h, hk]

/-! ### Forms -/

/-- Every bit-counting, choosing and moving form writes a value that depends on its context alone, the one that chapter 06 gives. -/
theorem exec_bitForm {i : Instr} (h : ∀ (c : Ctx) (r : Word), (bitForm c r i).isSome) :
    ∃ (d : Dst) (v : Ctx → Word), (∀ s, exec i s = eachCtx s fun c => c.dst d (v c)) ∧
      ∀ c, ∃ P, bitForm c (v c) i = some (d, P) ∧ P := by
  have hi := h {} 0
  unfold bitForm at hi
  split at hi
  case h_1 d a => exact ⟨d, _, fun _ => rfl, fun c => ⟨_, rfl, toNat_leadingZeros _⟩⟩
  case h_2 d a => exact ⟨d, _, fun _ => rfl, fun c => ⟨_, rfl, toNat_trailingZeros _⟩⟩
  case h_3 d a => exact ⟨d, _, fun _ => rfl, fun c => ⟨_, rfl, toNat_oneBits _⟩⟩
  case h_4 d a b e => exact ⟨d, _, fun _ => rfl, fun c => ⟨_, rfl, fun hne => if_pos hne, fun h0 => if_neg (not_not.2 h0)⟩⟩
  case h_5 cc d a b =>
    refine ⟨d, _, fun _ => rfl, fun c => ⟨_, rfl, fun hc => ?_, fun hc => ?_⟩⟩
    · rw [boolWord, if_pos ((condHolds_iff ..).2 hc)]
    · rw [boolWord, if_neg (mt (condHolds_iff ..).1 hc)]
  case h_6 d a => exact ⟨d, _, fun _ => rfl, fun c => ⟨_, rfl, rfl⟩⟩
  case h_7 d v => exact ⟨d, _, fun _ => rfl, fun c => ⟨_, rfl, BitVec.toInt_signExtend_of_le (by norm_num)⟩⟩
  case h_8 d v => exact ⟨d, _, fun _ => rfl, fun c => ⟨_, rfl, rfl⟩⟩
  case h_9 d a pos len1 n =>
    refine ⟨d, _, fun _ => rfl, fun c => ⟨_, rfl, ?_⟩⟩
    cases n with
    | true => exact toNat_extractField ..
    | false => exact toInt_extractField ..
  case h_10 d a pos len1 => exact ⟨d, _, fun _ => rfl, fun c => ⟨_, rfl, fun k hk => getLsbD_insertField _ _ _ _ hk⟩⟩
  case h_11 => cases hi

/-- Settles O2: each form writes its value on each context, and raises no flag. -/
theorem bitAndMoveResults : Obligations.BitAndMoveResults := by
  intro i s hform
  obtain ⟨d, v, hexec, hval⟩ := exec_bitForm hform
  exact eachCtx_completes s _ (fun c => by rw [Ctx.dst_eq_result, Ctx.result_gang]) i _ (hexec s)
    fun c => ⟨_, ⟨v c, d, hval c, rfl⟩, c.dst_on d (v c)⟩

end Sys2Proof.Machine

/-! ## Scalar floating-point forms (O3) -/

namespace Sys2Proof.Machine

/-- Every scalar floating-point form writes its result and raises its flags; FCLASS (`h_11`) raises none. -/
theorem exec_floatForm {i : Instr} (h : ∀ c, (floatForm c i).isSome) :
    ∃ (d : Dst) (r : Ctx → Word) (fl : Ctx → Nat), (∀ s, exec i s = eachCtx s fun c => c.result d (r c) (fl c)) ∧
      ∀ c, floatForm c i = some (d, r c, fl c) := by
  have hi := h {}
  unfold floatForm at hi
  split at hi
  case h_11 t d a => exact ⟨d, _, _, fun s => congrArg (eachCtx s) (funext fun c => c.dst_eq_result d _), fun c => rfl⟩
  case h_12 => cases hi
  all_goals exact ⟨_, _, _, fun _ => rfl, fun _ => rfl⟩

/-- FCLASS sets the one bit of the class of its code (Table 6.9). -/
theorem fClass_one_bit (t : FTy) (code : Nat) : ∃ k < 10, fClass t.ty code = 2 ^ k := by
  obtain ⟨f, hf⟩ : ∃ f, ieeeOf t.ty = some f := by cases t <;> exact ⟨_, rfl⟩
  simp only [fClass, hf]
  cases fromIeee f code with
  | nan sig => cases sig <;> exact ⟨_, by norm_num, rfl⟩
  | inf neg => cases neg <;> exact ⟨_, by norm_num, rfl⟩
  | num neg m e =>
    dsimp only
    split
    · cases neg <;> exact ⟨_, by norm_num, rfl⟩
    split
    · cases neg <;> exact ⟨_, by norm_num, rfl⟩
    · cases neg <;> exact ⟨_, by norm_num, rfl⟩

/-- Settles O3: each form writes its result and raises its flags on each context, and FCLASS names one class for every code. -/
theorem floatResults : Obligations.FloatResults := by
  refine ⟨fun i s hform => ?_, fClass_one_bit⟩
  obtain ⟨d, r, fl, hexec, hval⟩ := exec_floatForm hform
  exact eachCtx_completes s _ (fun c => c.result_gang ..) i _ (hexec s)
    fun c => ⟨_, ⟨d, r c, fl c, hval c, rfl⟩, c.result_on d (r c) (fl c)⟩

end Sys2Proof.Machine

/-! ## Lane-wise vector forms (O4) -/

namespace Sys2Proof

/-! ### The type check of an instruction -/

theorem firstFail_eq_none_iff (l : List (Bool × Reject)) : firstFail l = none ↔ ∀ x ∈ l, x.1 = true := by
  induction l with
  | nil => simp [firstFail]
  | cons x l ih =>
    obtain ⟨ok, r⟩ := x
    cases ok with
    | true => simpa [firstFail] using ih
    | false => simp [firstFail]

theorem Instr.check_passes {i : Instr} (h : i.wellFormed = true) {ok : Bool} {r : Reject} (hx : (ok, r) ∈ i.checks) : ok = true :=
  (firstFail_eq_none_iff _).1 (of_decide_eq_true h) _ hx

theorem isAny_of_isInt {t : Ty} (h : t.isInt = true) : t.isAny = true := by revert h; cases t <;> decide

theorem isAny_of_intFlt {t : Ty} (h : t.intFlt = true) : t.isAny = true := by revert h; cases t <;> decide

theorem isAny_of_sfuOk {t : Ty} (h : sfuOk t = true) : t.isAny = true := by revert h; cases t <;> decide

end Sys2Proof

namespace Sys2Proof.Machine

/-! ### Executing with registers only -/

theorem eachFrom_ok (f : Ctx → Ctx) (l : List Nat) (i : Nat) (s : State) :
    eachFrom (fun k s => .ok (s.onCtx k f)) l i s = .ok (l.foldl (fun s k => s.onCtx k f) s) := by
  induction l generalizing i s with
  | nil => rfl
  | cons k l ih => exact ih (i + 1) (s.onCtx k f)

/-- What no context can stop may run context by context. -/
theorem eachCtx_eq_each (s : State) (f : Ctx → Ctx) : eachCtx s f = each s (fun k s => .ok (s.onCtx k f)) := by
  unfold each eachCtx
  split
  · next m hm => rw [hm]; rfl
  · rw [firstWait_onCtx (fun _ => f), eachFrom_ok]

/-! ### Lanes -/

theorem vlane_lt (w i : Nat) (v : VWord) : vlane w i v < 2 ^ w := Nat.mod_lt _ (by positivity)

theorem ofLanes_congr {w : Nat} {l k : List Nat} (h : l.map (· % 2 ^ w) = k.map (· % 2 ^ w)) : ofLanes w l = ofLanes w k := by
  induction l generalizing k with
  | nil => rw [List.map_eq_nil_iff.1 h.symm]
  | cons x l ih =>
    cases k with
    | nil => cases h
    | cons y k =>
      obtain ⟨hxy, hlk⟩ := List.cons.inj h
      simp only [ofLanes]
      rw [show x % 2 ^ w = y % 2 ^ w from hxy, ih hlk]

/-- A merge sees only the low bits of a lane's code. -/
theorem mergeLanes_congr {w : Nat} {f g : Nat → Nat × Nat} (h : ∀ i, (f i).1 % 2 ^ w = (g i).1 % 2 ^ w ∧ (f i).2 = (g i).2)
    (mask : Word) (old : VWord) : mergeLanes w mask old f = mergeLanes w mask old g := by
  simp only [mergeLanes, List.map_map, List.foldl_map]
  congr 2
  · refine ofLanes_congr ?_
    simp only [List.map_map]
    refine List.map_congr_left fun i _ => ?_
    simp only [Function.comp_apply]
    split
    · exact (h i).1
    · rfl
  · funext a i
    split
    · rw [(h i).2]
    · rfl

theorem Ctx.vmerge_congr (c : Ctx) {d : VDst} {w : Nat} {m : MReg} {f g : Nat → Nat × Nat}
    (h : ∀ i, (f i).1 % 2 ^ w = (g i).1 % 2 ^ w ∧ (f i).2 = (g i).2) : c.vmerge d w m f = c.vmerge d w m g := by
  simp only [Ctx.vmerge, mergeLanes_congr h]

/-! ### Shifts of a lane (R128) -/

theorem laneShl_mod (w x k : Nat) : laneShl w x k % 2 ^ w = x * 2 ^ k % 2 ^ w := by
  unfold laneShl
  split
  · exact Nat.mod_mod _ _
  · next h => rw [Nat.zero_mod, Nat.mod_eq_zero_of_dvd (dvd_mul_of_dvd_right (pow_dvd_pow 2 (Nat.not_lt.1 h)) x)]

theorem laneShr_eq {w x : Nat} (hx : x < 2 ^ w) (k : Nat) : laneShr w x k = x / 2 ^ k := by
  unfold laneShr
  split
  · rfl
  · next h => exact (Nat.div_eq_of_lt (hx.trans_le (Nat.pow_le_pow_right two_pos (Nat.not_lt.1 h)))).symm

theorem signed_bounds (w x : Nat) : -2 ^ w ≤ signed w x ∧ signed w x < 2 ^ w := by
  have hlt : ((x % 2 ^ w : Nat) : Int) < 2 ^ w := by exact_mod_cast Nat.mod_lt x (by positivity)
  simp only [signed]
  split <;> omega

/-- From `w` places on nothing but the sign is left. -/
theorem laneSha_eq (w x k : Nat) : laneSha w x k = (signed w x / 2 ^ k % 2 ^ w).toNat := by
  rw [laneSha, wrap, Int.fdiv_eq_ediv_of_nonneg _ (by positivity)]
  rcases le_total k w with h | h
  · rw [min_eq_left h]
  · have hpow : (2 : Int) ^ w ≤ 2 ^ k := pow_le_pow_right₀ (by norm_num) h
    obtain ⟨hlo, hhi⟩ := signed_bounds w x
    rw [min_eq_right h]
    rcases lt_or_ge (signed w x) 0 with hneg | hpos
    · rw [Int.ediv_eq_neg_one_of_neg_of_le hneg (by omega), Int.ediv_eq_neg_one_of_neg_of_le hneg (by omega)]
    · rw [Int.ediv_eq_zero_of_lt hpos (by omega), Int.ediv_eq_zero_of_lt hpos (by omega)]

/-! ### Forms -/

/-- A context after a lane-wise form. -/
def LaneForm.run (g : LaneForm) (c : Ctx) : Ctx := c.vmerge g.d g.w g.m g.f

/-- Context `w` after a lane-wise instruction. -/
def laneRun (s : State) (i : Instr) (w : Nat) (c : Ctx) : Ctx := (laneForm s w c i).elim c (fun g => g.run c)

theorem laneRun_gang (s : State) (i : Instr) (w : Nat) (c : Ctx) : (laneRun s i w c).gang = c.gang := by
  unfold laneRun
  cases laneForm s w c i with
  | none => rfl
  | some g => exact c.vmerge_gang ..

theorem dotAcc_width (t : Ty) : (dotAcc t).width = if t = .f64 then 64 else 32 := by
  cases t <;> rfl

/-- Every lane-wise form merges, on each context, the lanes that `laneForm` names. -/
theorem exec_laneForm {i : Instr} {s : State} (h : ∀ w c, (laneForm s w c i).isSome) :
    exec i s = each s (fun k s' => .ok (s'.onCtx k (laneRun s i k))) := by
  have onEach (f : Ctx → Ctx) (hexec : exec i s = eachCtx s f) (hf : ∀ k c, f c = laneRun s i k c) :
      exec i s = each s (fun k s' => .ok (s'.onCtx k (laneRun s i k))) := by
    rw [hexec, eachCtx_eq_each]
    congr 1; funext k s'; rw [funext (hf k)]
  have hi := h 0 {}
  unfold laneForm at hi
  split at hi
  case h_3 => rfl
  case h_14 d a b t m => exact onEach _ rfl fun _ c => c.vmerge_congr fun l => ⟨laneShl_mod .., rfl⟩
  case h_15 d a b t m =>
    exact onEach _ rfl fun _ c => c.vmerge_congr fun l => ⟨congrArg (· % 2 ^ t.width) (laneShr_eq (vlane_lt ..) _), rfl⟩
  case h_16 d a b t m =>
    exact onEach _ rfl fun _ c => c.vmerge_congr fun l => ⟨congrArg (· % 2 ^ t.width) (laneSha_eq ..), rfl⟩
  case h_24 d a b t sat m =>
    refine onEach _ rfl fun _ c => ?_
    simp only [dotAcc_width, vlane_eq]
    rfl
  case h_25 => rfl
  case h_26 => cases hi
  all_goals exact onEach _ rfl fun _ _ => rfl

/-- The lanes of a well-formed form are of whole bytes. -/
theorem laneForm_width {i : Instr} {s : State} {w : Nat} {c : Ctx} {g : LaneForm} (hwf : i.wellFormed = true)
    (hg : laneForm s w c i = some g) : 8 ≤ g.w := by
  have hcheck {ok : Bool} {r : Reject} (hx : (ok, r) ∈ i.checks) : ok = true := i.check_passes hwf hx
  unfold laneForm at hg
  split at hg <;> cases hg
  case h_24 => dsimp only; split <;> norm_num
  case h_1 | h_2 | h_17 | h_18 | h_25 => exact width_of_isAny (hcheck List.mem_cons_self)
  case h_11 | h_12 | h_13 | h_14 | h_15 | h_16 => exact width_of_isAny (isAny_of_isInt (hcheck List.mem_cons_self))
  case h_19 | h_20 | h_21 | h_22 | h_23 => exact width_of_isAny (isAny_of_sfuOk (hcheck List.mem_cons_self))
  all_goals exact width_of_isAny (isAny_of_intFlt (hcheck List.mem_cons_self))

theorem LaneForm.run_gives {g : LaneForm} (hw : 8 ≤ g.w) (c : Ctx) :
    ∃ v fl, g.gives c v fl ∧ Effect.On { vectors := c.vwrites g.d v, flags := fl } c (g.run c).retired :=
  ⟨_, _, mergeLanes_spec g.w (c.mask g.m) (c.vold g.d) g.f hw, c.vmerge_on ..⟩

/-- Settles O4: each context merges the lanes of its form into its destination. -/
theorem vectorLaneResults : Obligations.VectorLaneResults := by
  intro i s hwf hform
  obtain ⟨t, hexec, hframe, hctx⟩ := each_onCtx_spec s (laneRun s i) (laneRun_gang s i)
  refine ⟨t, (exec_laneForm hform).trans hexec, hframe, fun w hw => by rw [hctx, if_neg hw], fun w hw => ?_⟩
  obtain ⟨g, hg⟩ := Option.isSome_iff_exists.1 (hform w (s.ctx w))
  obtain ⟨v, fl, hgives, hon⟩ := LaneForm.run_gives (laneForm_width hwf hg) (s.ctx w)
  refine ⟨g, v, fl, hg, hgives, ?_⟩
  rw [hctx, if_pos hw, laneRun, hg]
  exact hon

end Sys2Proof.Machine

/-! ## VSETC, VSEL, the mask instructions and the lane moves (O5, O6, O7, O9) -/

namespace Sys2Proof.Machine

/-! ### Effects that raise no flag -/

theorem Ctx.vdst_on_unflagged (c : Ctx) (d : VDst) (v : VWord) : Effect.On { vectors := c.vwrites d v } c (c.vdst d v).retired := by
  simpa only [Ctx.raise_zero] using c.vdst_on d v 0

theorem Ctx.setMask_on_unflagged (c : Ctx) (m : MReg) (v : Word) : Effect.On { masks := mwrites m v } c (c.setMask m v).retired := by
  simpa only [Ctx.raise_zero] using c.setMask_on m v 0

theorem Ctx.vdst_gang (c : Ctx) (d : VDst) (v : VWord) : (c.vdst d v).gang = c.gang := by rw [Ctx.vdst_eq]

theorem Ctx.setMask_gang (c : Ctx) (m : MReg) (v : Word) : (c.setMask m v).gang = c.gang := by rw [Ctx.setMask_eq]

theorem Ctx.dst_gang (c : Ctx) (d : Dst) (v : Word) : (c.dst d v).gang = c.gang := by rw [Ctx.dst_eq]

/-! ### Masks from lane outcomes (R71) -/

/-- Outcomes of elements of `p` bits, put together: bit `j` is the outcome of the element that it belongs to. -/
theorem testBit_sum_runs {p : Nat} (hp : 0 < p) (on : Nat → Bool) (n j : Nat) :
    (((List.range n).map (fun i => if on i then (2 ^ p - 1) * 2 ^ (p * i) else 0)).sum).testBit j = (decide (j < p * n) && on (j / p)) := by
  induction n generalizing j with
  | zero => simp
  | succ n ih =>
    rw [List.range_succ, List.map_append, List.sum_append, List.map_singleton, List.sum_singleton]
    generalize (List.map (fun i => if on i then (2 ^ p - 1) * 2 ^ (p * i) else 0) (List.range n)).sum = x at ih ⊢
    have hx : x < 2 ^ (p * n) := Nat.lt_pow_two_of_testBit x fun k hk => by rw [ih, decide_eq_false (by omega), Bool.false_and]
    have hsum : x + (if on n then (2 ^ p - 1) * 2 ^ (p * n) else 0) = 2 ^ (p * n) * (if on n then 2 ^ p - 1 else 0) + x := by
      split <;> ring
    have hrun (k : Nat) : (if on n then 2 ^ p - 1 else 0).testBit k = (decide (k < p) && on n) := by cases on n <;> simp
    rw [hsum, Nat.testBit_two_pow_mul_add _ hx, Nat.mul_succ, hrun]
    rcases lt_or_ge j (p * n) with hlow | hlow
    · rw [if_pos hlow, ih, decide_eq_true hlow, decide_eq_true (by omega)]
    obtain ⟨k, rfl⟩ := Nat.exists_eq_add_of_le hlow
    rw [if_neg hlow.not_gt, Nat.add_sub_cancel_left, Nat.mul_add_div hp]
    rcases lt_or_ge k p with hk | hk
    · rw [Nat.div_eq_of_lt hk, Nat.add_zero, decide_eq_true hk, decide_eq_true (by omega)]
    · rw [decide_eq_false hk.not_gt, decide_eq_false (by omega), Bool.false_and, Bool.false_and]

/-- The flags that active elements raise, collected in order. -/
theorem flagsOf_foldl {n : Nat} {on : Nat → Bool} {f : Nat → Nat} {r : Nat → Nat × Nat}
    (h : ∀ i, (r i).2 = if on i then f i else 0) :
    flagsOf n (((List.range n).map r).foldl (fun a x => orFlags a x.2) 0) on f := by
  intro k
  simp only [foldl_flags, Nat.zero_testBit, Bool.false_eq_true, false_or, List.mem_map, List.mem_range, exists_exists_and_eq_and, h]
  refine exists_congr fun i => and_congr_right fun _ => ?_
  cases on i <;> simp

/-- A type's lanes fill the register, and their bytes the mask. -/
theorem lane_bytes {t : Ty} (h : t.isAny = true) :
    0 < t.width / 8 ∧ max 1 (t.width / 8) = t.width / 8 ∧ t.width / 8 * (512 / t.width) = 64 := by
  revert h; cases t <;> decide

/-- Settles O5: an element's mask bits are a run of its outcome, and an inactive element has outcome 0 and raises no flag. -/
theorem vsetcResult : Obligations.VsetcResult := by
  intro cc d a b t m s hwf
  have hany : t.isAny = true := Instr.check_passes hwf List.mem_cons_self
  obtain ⟨hp, hmax, hfill⟩ := lane_bytes hany
  have hactive (c : Ctx) (i : Nat) : active (c.mask m) t.width i = elemOn (c.mask m) t.width i := active_eq _ _ _ (width_of_isAny hany)
  refine eachCtx_completes s _ (fun c => by rw [Ctx.raise_gang, Ctx.setMask_gang]) _ _ rfl
    fun c => ⟨_, ⟨_, _, fun j hj => ?_, flagsOf_foldl fun i => ?_, rfl⟩, c.setMask_on d _ _⟩
  · have hbits (i : Nat) : (if active (c.mask m) t.width i then
        (maskBits t.width i (laneSetc t cc (c.vl t a i) (c.vl t b i)).1, (laneSetc t cc (c.vl t a i) (c.vl t b i)).2) else (0, 0)).1 =
        if elemOn (c.mask m) t.width i && (laneSetc t cc (c.vl t a i) (c.vl t b i)).1
        then (2 ^ (t.width / 8) - 1) * 2 ^ (t.width / 8 * i) else 0 := by
      rw [hactive]
      cases elemOn (c.mask m) t.width i <;> simp [maskBits, hmax]
    simp only [List.map_map, Function.comp_def, hbits, laneCount]
    rw [BitVec.getLsbD_ofNat, testBit_sum_runs hp, hfill, decide_eq_true hj, Bool.true_and, Bool.true_and]
  · rw [hactive]
    cases elemOn (c.mask m) t.width i <;> rfl

theorem Ctx.vl_eq (c : Ctx) (t : Ty) (a : VSrc) (i : Nat) : c.vl t a i = elem t.width i (c.vsrc t.width a) := vlane_eq ..

/-- Settles O6: a merge of the lanes of a into b. -/
theorem vselResult : Obligations.VselResult := by
  intro d a b t m s hwf
  refine eachCtx_completes s _ (fun c => c.vdst_gang d _) _ _ rfl fun c => ⟨_, ⟨_, fun i hi => ?_, rfl⟩, c.vdst_on_unflagged d _⟩
  obtain ⟨hlanes, -⟩ := mergeLanes_spec t.width (c.mask m) (c.vsrc t.width b) (fun i => (c.vl t a i, 0))
    (width_of_isAny (Instr.check_passes hwf List.mem_cons_self))
  rw [hlanes i hi, show (c.vl t a i, 0).1 % 2 ^ t.width = c.vl t a i from Nat.mod_eq_of_lt (vlane_lt ..), c.vl_eq t b]

/-- Settles O7: the forms write a mask (`h_1` to `h_4`), or a scalar over the active lanes. -/
theorem maskOperations : Obligations.MaskOperations := by
  intro i s hwf hform
  have hactive {t : Ty} (h : (t.isAny, Reject.typeClass) ∈ i.checks) (mask : Word) : active mask t.width = elemOn mask t.width :=
    funext fun k => active_eq mask t.width k (width_of_isAny (Instr.check_passes hwf h))
  have hi := hform {}
  unfold maskForm at hi
  split at hi
  case h_5 d b t | h_6 d b t =>
    refine eachCtx_completes s _ (fun c => c.dst_gang d _) _ _ rfl fun c => ⟨_, ?_, c.dst_on d _⟩
    rw [hactive List.mem_cons_self]; rfl
  case h_7 => cases hi
  all_goals exact eachCtx_completes s _ (fun c => c.setMask_gang _ _) _ _ rfl fun c => ⟨_, rfl, c.setMask_on_unflagged _ _⟩

/-! ### Lane moves -/

/-- A lane of a register, seen in its number. -/
theorem lane_toNat (w i : Nat) (v : VWord) : lane w i v.toNat = elem w i v := vlane_eq w i v

theorem lane_fits {w i : Nat} (hi : i < 512 / w) : w * i + w ≤ 512 :=
  calc w * i + w = w * (i + 1) := by ring
    _ ≤ w * (512 / w) := Nat.mul_le_mul_left _ hi
    _ ≤ 512 := Nat.mul_div_le 512 _

theorem Ctx.vput_gang (c : Ctx) (d : VDst) (r : Nat × Nat) : (c.vput d r).gang = c.gang := by
  rw [Ctx.vput, Ctx.raise_gang, Ctx.vdst_gang]

theorem Ctx.vput_on (c : Ctx) (d : VDst) (r : Nat × Nat) :
    Effect.On { vectors := c.vwrites d (BitVec.ofNat 512 r.1), flags := r.2 } c (c.vput d r).retired :=
  c.vdst_on d _ _

/-- Settles O9: VEXTR writes the scalar that it reads, and VINSR sets one lane of the number that its destination holds. -/
theorem laneMoves : Obligations.LaneMoves := by
  refine ⟨fun d a b t s _ => ?_, fun d a b t s _ => ?_⟩
  · refine eachCtx_completes s _ (fun c => c.dst_gang d _) _ _ rfl fun c => ⟨_, ?_, c.dst_on d _⟩
    rw [Ctx.vl_eq]; rfl
  · refine eachCtx_completes s _ (fun c => c.vput_gang d _) _ _ rfl fun c => ⟨_, ⟨_, fun i hi => ?_, rfl⟩, c.vput_on d _⟩
    rw [elem_ofNat _ (lane_fits hi), lane_setBits, lane_toNat]; rfl

end Sys2Proof.Machine

/-! ## Vector conversions (O8) -/

namespace Sys2Proof.Machine

/-! ### Elements put into a register -/

/-- The bits that `putElems` leaves: those of an element that has a result come from it, all others stay. -/
theorem testBit_putElems {w : Nat} (hw : 0 < w) (f : Nat → Option (Nat × Nat)) (n lo : Nat) (acc : Nat × Nat) (j : Nat) :
    (putElems w f n lo acc).1.testBit j =
      if lo ≤ j ∧ j < lo + w * n then (f ((j - lo) / w)).elim (acc.1.testBit j) (fun r => r.1.testBit ((j - lo) % w))
      else acc.1.testBit j := by
  induction n with
  | zero => rw [if_neg (by omega)]; rfl
  | succ n ih =>
    have hlast (hlo : lo + w * n ≤ j) (hhi : j < lo + w * n + w) : (j - lo) / w = n ∧ (j - lo) % w = j - (lo + w * n) := by
      have hj : j - lo = w * n + (j - (lo + w * n)) := by omega
      rw [hj, Nat.mul_add_div hw, Nat.mul_add_mod, Nat.div_eq_of_lt (by omega), Nat.mod_eq_of_lt (by omega)]
      exact ⟨rfl, rfl⟩
    rw [Nat.mul_succ, putElems]
    by_cases hin : lo + w * n ≤ j ∧ j < lo + w * n + w
    · obtain ⟨hdiv, hmod⟩ := hlast hin.1 hin.2
      rw [if_pos (by omega), hdiv, hmod]
      cases f n with
      | some r => simp only [testBit_setBits, if_pos hin]; rfl
      | none => simp only [ih, if_neg (show ¬ (lo ≤ j ∧ j < lo + w * n) by omega)]; rfl
    · have hiff : (lo ≤ j ∧ j < lo + (w * n + w)) ↔ (lo ≤ j ∧ j < lo + w * n) := by omega
      rw [if_congr hiff rfl rfl, ← ih]
      cases f n with
      | some r => simp only [testBit_setBits, if_neg hin]
      | none => rfl

/-- A bit of element `i` after `putElems`. -/
theorem testBit_putElems_elem {w n i j : Nat} (f : Nat → Option (Nat × Nat)) (lo : Nat) (acc : Nat × Nat) (hi : i < n) (hj : j < w) :
    (putElems w f n lo acc).1.testBit (lo + w * i + j) = (f i).elim (acc.1.testBit (lo + w * i + j)) (fun r => r.1.testBit j) := by
  have hw : 0 < w := by omega
  have hmul : w * (i + 1) ≤ w * n := Nat.mul_le_mul_left _ hi
  rw [Nat.mul_succ] at hmul
  rw [testBit_putElems hw, if_pos (by omega), Nat.add_assoc, Nat.add_sub_cancel_left, Nat.mul_add_div hw, Nat.mul_add_mod,
    Nat.div_eq_of_lt hj, Nat.mod_eq_of_lt hj, Nat.add_zero]

/-- The flags that `putElems` collects. -/
theorem putElems_flags (w : Nat) (f : Nat → Option (Nat × Nat)) (n lo : Nat) (acc : Nat × Nat) (k : Nat) :
    (putElems w f n lo acc).2.testBit k = true ↔ acc.2.testBit k = true ∨ ∃ i < n, ∃ r, f i = some r ∧ r.2.testBit k = true := by
  induction n with
  | zero => simp [putElems]
  | succ n ih =>
    rw [putElems, Nat.exists_lt_succ_right, ← or_assoc, ← ih]
    cases f n with
    | some r => simp [orFlags]
    | none => simp

/-! ### Forms -/

/-- A register with the active elements of a conversion put into it, and their flags. -/
def PartForm.result (g : PartForm) (c : Ctx) : Nat × Nat :=
  putElems g.dw (fun i => if elemOn (c.mask g.m) g.mw i then some (g.f i) else none) g.n g.lo ((c.vold g.d).toNat, 0)

/-- A context after a converting instruction. -/
def partRun (i : Instr) (c : Ctx) : Ctx := (partForm c i).elim c (fun g => c.vput g.d (g.result c))

theorem partRun_gang (i : Instr) (c : Ctx) : (partRun i c).gang = c.gang := by
  unfold partRun
  cases partForm c i with
  | none => rfl
  | some g => exact c.vput_gang ..

/-- A part that lies in the register, of elements of at least one bit. -/
structure PartForm.Fits (g : PartForm) : Prop where
  wide : 0 < g.dw
  inside : g.lo + g.dw * g.n ≤ 512

/-- What a conversion leaves of its destination, and its flags. -/
theorem PartForm.result_gives {g : PartForm} (h : g.Fits) (c : Ctx) : g.gives c (BitVec.ofNat 512 (g.result c).1) (g.result c).2 := by
  refine ⟨fun i hi => ?_, fun k hk hout => ?_, fun k => ?_⟩
  · refine Nat.eq_of_testBit_eq fun j => ?_
    rw [Nat.testBit_mod_two_pow, Nat.testBit_div_two_pow, Nat.add_comm j, BitVec.testBit_toNat, BitVec.getLsbD_ofNat]
    by_cases hj : j < g.dw
    · have hpos : g.lo + g.dw * i + j < 512 := by
        have hmul : g.dw * (i + 1) ≤ g.dw * g.n := Nat.mul_le_mul_left _ hi
        have hinside := h.inside
        rw [Nat.mul_succ] at hmul
        omega
      rw [decide_eq_true hj, decide_eq_true hpos, Bool.true_and, Bool.true_and, result, testBit_putElems_elem _ _ _ hi hj]
      split
      · simp [hj]
      · simp [hj, Nat.testBit_div_two_pow, Nat.add_comm]
    · rw [decide_eq_false hj, Bool.false_and]
      split <;> rw [Nat.testBit_mod_two_pow, decide_eq_false hj, Bool.false_and]
  · rw [BitVec.getLsbD_ofNat, decide_eq_true hk, Bool.true_and, result, testBit_putElems h.wide, if_neg hout]; rfl
  · simp only [result, putElems_flags, Nat.zero_testBit, Bool.false_eq_true, false_or, Option.ite_none_right_eq_some]
    exact exists_congr fun i => and_congr_right fun _ =>
      ⟨fun ⟨r, ⟨hon, hr⟩, hk⟩ => ⟨hon, by cases hr; exact hk⟩, fun ⟨hon, hk⟩ => ⟨_, ⟨hon, rfl⟩, hk⟩⟩

/-- The elements of a VCVT part lie in the register, whichever of the two types is the wider (R134). -/
theorem vcvt_fits {dt st : Ty} {p : Nat} (hp : p < cvtParts dt st) :
    (if st.width ≤ dt.width then 0 else dt.width * (p * (512 / max dt.width st.width))) +
      dt.width * (512 / max dt.width st.width) ≤ 512 := by
  split
  next h =>
    rw [max_eq_left h, Nat.zero_add]
    exact Nat.mul_div_le 512 _
  next h =>
    rw [not_le] at h
    rw [cvtParts, max_eq_right h.le, min_eq_left h.le] at hp
    rw [max_eq_right h.le]
    calc dt.width * (p * (512 / st.width)) + dt.width * (512 / st.width) = dt.width * (p + 1) * (512 / st.width) := by ring
      _ ≤ dt.width * (st.width / dt.width) * (512 / st.width) := Nat.mul_le_mul_right _ (Nat.mul_le_mul_left _ hp)
      _ ≤ st.width * (512 / st.width) := Nat.mul_le_mul_right _ (Nat.mul_div_le ..)
      _ ≤ 512 := Nat.mul_div_le 512 _

/-- The part of a packing lies in the register (Table 7.3). -/
theorem vpack_fits {t : Ty} {p : Nat} (hp : p < packParts t) : 64 * t.width * p + t.width * 64 ≤ 512 := by
  cases t <;> simp only [packParts, Ty.width] at hp ⊢ <;> omega

theorem width_pos (t : Ty) : 0 < t.width := by cases t <;> decide

theorem partForm_fits {i : Instr} {c : Ctx} {g : PartForm} (hwf : i.wellFormed = true) (hg : partForm c i = some g) : g.Fits := by
  have hcheck {ok : Bool} {r : Reject} (hx : (ok, r) ∈ i.checks) : ok = true := i.check_passes hwf hx
  unfold partForm at hg
  split at hg <;> cases hg
  case h_1 d a dt st p m => exact ⟨width_pos dt, vcvt_fits (of_decide_eq_true (hcheck (List.mem_cons_of_mem _ List.mem_cons_self)))⟩
  case h_2 d a t p m => exact ⟨width_pos t, vpack_fits (of_decide_eq_true (hcheck (List.mem_cons_of_mem _ List.mem_cons_self)))⟩
  case h_3 d a t p m => exact ⟨by norm_num, by norm_num⟩

/-- Every converting form puts, on each context, the elements that `partForm` names. -/
theorem exec_partForm {i : Instr} (hwf : i.wellFormed = true) (h : ∀ c, (partForm c i).isSome) (s : State) :
    exec i s = eachCtx s (partRun i) := by
  have hi := h {}
  unfold partForm at hi
  split at hi
  case h_1 d a dt st p m =>
    have hany : (dt.isAny && st.isAny) = true := Instr.check_passes hwf List.mem_cons_self
    have hw : 8 ≤ max dt.width st.width := (width_of_isAny (Bool.and_eq_true_iff.1 hany).1).trans (le_max_left ..)
    refine congrArg (eachCtx s) (funext fun c => ?_)
    simp only [partRun, partForm, PartForm.result, Option.elim_some, active_eq _ _ _ hw, vlane_eq]
    split <;> rfl
  case h_2 d a t p m =>
    refine congrArg (eachCtx s) (funext fun c => ?_)
    simp only [partRun, partForm, PartForm.result, Option.elim_some, active_eq _ _ _ (le_refl 8), vlane_eq]
  case h_3 d a t p m =>
    refine congrArg (eachCtx s) (funext fun c => ?_)
    simp only [partRun, partForm, PartForm.result, Option.elim_some, active_eq _ _ _ (le_refl 8), bits, Nat.shiftRight_eq_div_pow]
  case h_4 => cases hi

/-- Settles O8: each context puts the converted elements of its part into its destination. -/
theorem vectorConversions : Obligations.VectorConversions := by
  intro i s hwf hform
  refine eachCtx_completes s _ (partRun_gang i) i _ (exec_partForm hwf hform s) fun c => ?_
  obtain ⟨g, hg⟩ := Option.isSome_iff_exists.1 (hform c)
  refine ⟨_, ⟨g, _, _, hg, g.result_gives (partForm_fits hwf hg) c, rfl⟩, ?_⟩
  rw [partRun, hg]
  exact c.vput_on g.d (g.result c)

end Sys2Proof.Machine

/-! ## Rank order, and the reductions (O10) -/

namespace Sys2Proof.Machine

/-! ### The order of keys (R102) -/

/-- The magnitude of a finite number. -/
def magnitude (m : Nat) (e : Int) : ℚ := m * 2 ^ e

/-- The value of a finite number. -/
def signedValue (s : Bool) (m : Nat) (e : Int) : ℚ := if s then -magnitude m e else magnitude m e

theorem cmpMag_eq (m n : Nat) (e k : Int) : cmpMag m e n k = cmp (magnitude m e) (magnitude n k) := by
  have hpos : (0 : ℚ) < 2 ^ min e k := by positivity
  have scaled (x : Nat) {f : Int} (hf : min e k ≤ f) : ((x * pow2 (f - min e k) : Nat) : ℚ) * 2 ^ min e k = magnitude x f := by
    rw [Nat.cast_mul, pow2, Nat.cast_pow, Nat.cast_ofNat, ← zpow_natCast, Int.toNat_of_nonneg (by omega), zpow_sub₀ (by norm_num),
      mul_assoc, div_mul_cancel₀ _ hpos.ne', magnitude]
  rw [cmpMag, ← cmp_eq_compare, ← (Nat.strictMono_cast (α := ℚ)).cmp_map_eq, ← cmp_mul_pos_right hpos, scaled m (min_le_left _ _),
    scaled n (min_le_right _ _)]

theorem magnitude_nonneg (m : Nat) (e : Int) : 0 ≤ magnitude m e := by unfold magnitude; positivity

theorem magnitude_eq_zero_iff (m : Nat) (e : Int) : magnitude m e = 0 ↔ m = 0 := by
  simp [magnitude, zpow_ne_zero e (two_ne_zero (α := ℚ))]

/-- The order of two signed numbers, decided as the model does: zeros are equal, then come the signs, then the magnitudes. -/
theorem cmp_signed (s t : Bool) {a b : ℚ} (ha : 0 ≤ a) (hb : 0 ≤ b) :
    (if a = 0 ∧ b = 0 then Ordering.eq
    else if a = 0 then (if t then .gt else .lt)
    else if b = 0 then (if s then .lt else .gt)
    else if s ≠ t then (if s then .lt else .gt)
    else if s then cmp b a else cmp a b) = cmp (if s then -a else a) (if t then -b else b) := by
  unfold cmp cmpUsing
  cases s with
  | true => grind
  | false => grind

theorem cmpVal_num (s t : Bool) (m n : Nat) (e k : Int) :
    cmpVal (.num s m e) (.num t n k) = cmp (signedValue s m e) (signedValue t n k) := by
  rw [signedValue, signedValue, ← cmp_signed s t (magnitude_nonneg m e) (magnitude_nonneg n k)]
  simp only [cmpVal, cmpMag_eq, magnitude_eq_zero_iff]

/-- A key at an index, in an order in which what ranks first is least: NaN behind everything else, of two infinities the one that ranks
first before all numbers, and equal keys by index. -/
def rankKey (isMax : Bool) (i : Nat) : FV → ℕ ×ₗ ℚ ×ₗ ℕ
  | .nan _ => toLex (3, toLex (0, i))
  | .inf s => toLex (if s = isMax then 2 else 0, toLex (0, i))
  | .num s m e => toLex (1, toLex (if isMax then -signedValue s m e else signedValue s m e, i))

/-- Two numbers rank by their values, in the direction of the ranking, and equal values by index. -/
theorem rank_num_iff (isMax : Bool) (s t : Bool) (m n : Nat) (e k : Int) (i j : Nat) :
    rank isMax (.num s m e) i (.num t n k) j = true ↔
      rankKey isMax i (.num s m e) < rankKey isMax j (.num t n k) := by
  simp only [rank, FV.isNaN, Bool.false_eq_true, Bool.and_self, if_false, cmpVal_num, rankKey, Prod.Lex.toLex_lt_toLex, lt_irrefl, false_or,
    true_and]
  rcases lt_trichotomy (signedValue s m e) (signedValue t n k) with h | h | h
  · rw [(cmp_eq_lt_iff _ _).2 h]
    cases isMax <;> simp [h, h.not_gt, h.ne]
  · rw [(cmp_eq_eq_iff _ _).2 h, h]
    simp
  · rw [(cmp_eq_gt_iff _ _).2 h]
    cases isMax <;> simp [h, h.not_gt, h.ne']

/-- Ranking above is coming before in the order of `rankKey`. -/
theorem rank_iff (isMax : Bool) (x y : FV) (i j : Nat) : rank isMax x i y j = true ↔ rankKey isMax i x < rankKey isMax j y := by
  cases x with
  | nan sx =>
    cases y with
    | nan sy => simp [rank, rankKey, FV.isNaN, Prod.Lex.toLex_lt_toLex]
    | inf t => cases t <;> cases isMax <;> simp [rank, rankKey, FV.isNaN, Prod.Lex.toLex_lt_toLex]
    | num t n k => simp [rank, rankKey, FV.isNaN, Prod.Lex.toLex_lt_toLex]
  | inf s =>
    cases y with
    | nan sy => cases s <;> cases isMax <;> simp [rank, rankKey, FV.isNaN, Prod.Lex.toLex_lt_toLex]
    | inf t => cases s <;> cases t <;> cases isMax <;> simp [rank, rankKey, FV.isNaN, cmpVal, Prod.Lex.toLex_lt_toLex]
    | num t n k => cases s <;> cases isMax <;> simp [rank, rankKey, FV.isNaN, cmpVal, Prod.Lex.toLex_lt_toLex]
  | num s m e =>
    cases y with
    | nan sy => simp [rank, rankKey, FV.isNaN, Prod.Lex.toLex_lt_toLex]
    | inf t => cases t <;> cases isMax <;> simp [rank, rankKey, FV.isNaN, cmpVal, Prod.Lex.toLex_lt_toLex]
    | num t n k => exact rank_num_iff ..

theorem rank_eq_false_iff (isMax : Bool) (x y : FV) (i j : Nat) :
    rank isMax x i y j = false ↔ rankKey isMax j y ≤ rankKey isMax i x := by
  rw [← Bool.not_eq_true, rank_iff, not_lt]

/-- Keys at different indices differ, whatever their values. -/
theorem rankKey_ne (isMax : Bool) (x y : FV) {i j : Nat} (h : i ≠ j) : rankKey isMax i x ≠ rankKey isMax j y := by
  have hindex (z : FV) (n : Nat) : (ofLex (ofLex (rankKey isMax n z)).2).2 = n := by cases z <;> rfl
  exact fun he => h (by rw [← hindex x i, he, hindex])

/-! ### The active lanes of a firing (R143) -/

/-- Choosing the active elements of a list and computing on them, at once or one after the other. -/
theorem filterMap_active {α : Type} {mask : Word} {w : Nat} (hw : 8 ≤ w) (f : Nat → α) (l : List Nat) :
    l.filterMap (fun i => if active mask w i then some (f i) else none) = (l.filter (elemOn mask w)).map f := by
  simp only [active_eq _ _ _ hw]
  induction l with
  | nil => rfl
  | cons i l ih =>
    rw [List.filterMap_cons, List.filter_cons, ih]
    cases elemOn mask w i <;> rfl

theorem activeLanes_eq (s : State) {t : Ty} (h : t.isAny = true) (a : VSrc) (m : MReg) :
    s.activeLanes s.cur t a m = s.gangLanes t a m := by
  simp only [State.activeLanes, State.gangLanes, filterMap_active (width_of_isAny h), laneCount]

/-- A core of the firing, by its place in it. -/
theorem State.mem_members_eq {s : State} {w k : Nat} (h : k ∈ s.members w) : k = w + 4 * ((k - w) / 4) := by
  unfold State.members at h
  split at h
  · simp only [List.mem_cons, List.not_mem_nil, or_false] at h; omega
  · simp only [List.mem_singleton] at h; omega

/-- No gang lane has two codes. -/
theorem gangLanes_unique {s : State} {t : Ty} {a : VSrc} {m : MReg} {x y : Nat × Nat} (hx : x ∈ s.gangLanes t a m)
    (hy : y ∈ s.gangLanes t a m) (h : x.1 = y.1) : x = y := by
  simp only [State.gangLanes, List.mem_flatMap, List.mem_map, List.mem_filter, List.mem_range] at hx hy
  obtain ⟨k, hk, i, ⟨hi, -⟩, rfl⟩ := hx
  obtain ⟨k', hk', i', ⟨hi', -⟩, rfl⟩ := hy
  simp only at h
  have hpos : 0 < 512 / t.width := by omega
  have hlane : i = i' := by
    have := congrArg (· % (512 / t.width)) h
    simpa [Nat.mul_add_mod, Nat.mod_eq_of_lt, hi, hi'] using this
  have hcore : (k - s.cur) / 4 = (k' - s.cur) / 4 := by
    have := congrArg (· / (512 / t.width)) h
    simpa [Nat.mul_add_div hpos, Nat.div_eq_of_lt, hi, hi'] using this
  have hk : k = k' := by rw [State.mem_members_eq hk, State.mem_members_eq hk', hcore]
  rw [hk, hlane]

/-! ### The first-ranked lane (R140) -/

/-- The place of a gang lane in the ranking. -/
def laneKey (t : Ty) (isMax : Bool) (x : Nat × Nat) : ℕ ×ₗ ℚ ×ₗ ℕ := rankKey isMax x.1 (fromFormat x.2 t 0)

/-- Of some lanes the best one comes before none of them in rank order. -/
theorem bestLane_spec (t : Ty) (isMax : Bool) {xs : List (Nat × Nat)} (h : xs ≠ []) :
    ∃ x, bestLane t isMax xs = some x ∧ x ∈ xs ∧ ∀ y ∈ xs, laneKey t isMax x ≤ laneKey t isMax y := by
  induction xs with
  | nil => exact absurd rfl h
  | cons x xs ih =>
    rcases eq_or_ne xs [] with rfl | hne
    · exact ⟨x, rfl, List.mem_cons_self, fun y hy => by rw [List.mem_singleton.1 hy]⟩
    obtain ⟨y, hy, hmem, hleast⟩ := ih hne
    by_cases hr : rank isMax (fromFormat y.2 t 0) y.1 (fromFormat x.2 t 0) x.1 = true
    · refine ⟨y, by rw [bestLane, hy]; exact if_pos hr, List.mem_cons_of_mem _ hmem, List.forall_mem_cons.2 ⟨?_, hleast⟩⟩
      exact ((rank_iff ..).1 hr).le
    · refine ⟨x, by rw [bestLane, hy]; exact if_neg hr, List.mem_cons_self, List.forall_mem_cons.2 ⟨le_rfl, fun z hz => ?_⟩⟩
      exact ((rank_eq_false_iff ..).1 (Bool.not_eq_true _ ▸ hr)).trans (hleast z hz)

theorem ranksFirst_of_least {s : State} {t : Ty} {isMax : Bool} {a : VSrc} {m : MReg} {x : Nat × Nat} (hx : x ∈ s.gangLanes t a m)
    (h : ∀ y ∈ s.gangLanes t a m, laneKey t isMax x ≤ laneKey t isMax y) : ranksFirst t isMax (s.gangLanes t a m) x := by
  refine ⟨hx, fun y hy hne => (rank_iff ..).2 ((h y hy).lt_of_ne (rankKey_ne _ _ _ fun he => hne ?_))⟩
  exact gangLanes_unique hy hx he.symm

/-- A vector result and a scalar, as an effect. -/
theorem Ctx.vdst_setSreg_on (c : Ctx) (d : VDst) (v : VWord) (k : Nat) (n : Word) :
    Effect.On { vectors := c.vwrites d v, scalars := [(k, n)] } c ((c.vdst d v).setSreg k n).retired := by
  obtain ⟨hs, hv, hm, hb, hf, hpc, -⟩ := c.vdst_on_unflagged d v
  refine ⟨fun j => ?_, hv, hm, hb, hf, hpc, ?_⟩
  · change ((c.vdst d v).setSreg k n).sreg j = _
    rw [Ctx.sreg_setSreg, lookup_getD_cons, lookup_getD_nil]
    exact if_congr Iff.rfl rfl (hs j)
  · rw [Ctx.vdst_eq]; rfl

/-- A vector result and, where an index register is named, a scalar. -/
def Ctx.vdstIndex (c : Ctx) (d : VDst) (ix : Option (Fin 64)) (v : VWord) (n : Word) : Ctx :=
  ix.elim (c.vdst d v) (fun k => (c.vdst d v).setSreg k.val n)

theorem Ctx.vdstIndex_gang (c : Ctx) (d : VDst) (ix : Option (Fin 64)) (v : VWord) (n : Word) : (c.vdstIndex d ix v n).gang = c.gang := by
  cases ix with
  | none => exact c.vdst_gang d v
  | some k => exact c.vdst_gang d v

/-- Code and index of the first-ranked of some lanes: 0 and all ones where there is none. -/
def rankedResult (t : Ty) (isMax : Bool) (xs : List (Nat × Nat)) (v : Nat) (n : Word) : Prop :=
  (xs = [] → v = 0 ∧ n = BitVec.allOnes 64) ∧ (xs ≠ [] → ∃ g, ranksFirst t isMax xs (g, v) ∧ n = BitVec.ofNat 64 g)

/-- A ranking reduction writes the first-ranked of the active lanes of the firing. -/
theorem rankOp_eq (s : State) (isMax : Bool) (d : VDst) (ix : Option (Fin 64)) (a : VSrc) {t : Ty} (h : t.isAny = true) (m : MReg) :
    ∃ v n, rankedResult t isMax (s.gangLanes t a m) v n ∧
      rankOp s isMax d ix a t m = eachCtx s (fun c => c.vdstIndex d ix (BitVec.ofNat 512 v) n) := by
  have hrun (best : Option (Nat × Nat)) (hb : bestLane t isMax (s.gangLanes t a m) = best) :
      rankOp s isMax d ix a t m = eachCtx s (fun c => c.vdstIndex d ix (BitVec.ofNat 512 (best.elim 0 (fun x => x.2)))
        (best.elim (BitVec.allOnes 64) (fun x => BitVec.ofNat 64 x.1))) := by
    simp only [rankOp, activeLanes_eq s h, hb]
    cases best <;> cases ix <;> rfl
  rcases eq_or_ne (s.gangLanes t a m) [] with hl | hl
  · exact ⟨0, BitVec.allOnes 64, ⟨fun _ => ⟨rfl, rfl⟩, fun hne => absurd hl hne⟩, hrun none (by rw [hl]; rfl)⟩
  · obtain ⟨x, hx, hmem, hleast⟩ := bestLane_spec t isMax hl
    have hfirst := ranksFirst_of_least hmem hleast
    exact ⟨x.2, BitVec.ofNat 64 x.1, ⟨fun he => absurd he hl, fun _ => ⟨x.1, hfirst, rfl⟩⟩, hrun (some x) hx⟩

/-- Settles O10: VSUM writes the sum of the active lanes, and the ranking forms run `rankOp`. -/
theorem reductions : Obligations.Reductions := by
  refine ⟨fun d a t sat m s hwf => ?_, fun isMax d ix a t m s i hi hwf => ?_⟩
  · have hany : t.isAny = true := isAny_of_intFlt (Instr.check_passes hwf List.mem_cons_self)
    refine eachCtx_completes s _ (fun c => c.vput_gang d _) _ _ rfl fun c => ⟨_, rfl, ?_⟩
    rw [← activeLanes_eq s hany]
    exact c.vput_on d _
  · have hform : t.isAny = true ∧ exec i s = rankOp s isMax d ix a t m := by
      subst hi
      cases ix with
      | none => cases isMax <;> exact ⟨Instr.check_passes hwf List.mem_cons_self, rfl⟩
      | some k => cases isMax <;> exact ⟨Instr.check_passes hwf List.mem_cons_self, rfl⟩
    obtain ⟨hany, hexec⟩ := hform
    obtain ⟨v, n, ⟨hnone, hsome⟩, hrun⟩ := rankOp_eq s isMax d ix a hany m
    refine eachCtx_completes s _ (fun c => c.vdstIndex_gang ..) i _ (hexec.trans hrun) fun c => ⟨_, ⟨v, n, hnone, hsome, rfl⟩, ?_⟩
    cases ix with
    | none => exact c.vdst_on_unflagged d _
    | some k => exact c.vdst_setSreg_on d _ k.val n

end Sys2Proof.Machine

/-! ## VTOPK (O11) -/

namespace Sys2Proof.Machine

/-! ### Candidates in rank order -/

/-- The place of a candidate, a code and an index, in the ranking. -/
def candKey (t : Ty) (isMax : Bool) (x : Cand) : ℕ ×ₗ ℚ ×ₗ ℕ := rankKey isMax x.2 (fromFormat x.1 t 0)

/-- The candidates in rank order. -/
def rankCands (t : Ty) (isMax : Bool) (xs : List Cand) : List Cand := xs.foldl (fun l x => insertCand t isMax x l) []

theorem insertCand_perm (t : Ty) (isMax : Bool) (x : Cand) (l : List Cand) : (insertCand t isMax x l).Perm (x :: l) := by
  induction l with
  | nil => exact .refl _
  | cons y l ih =>
    unfold insertCand
    split
    · exact .refl _
    · exact (ih.cons y).trans (.swap x y l)

theorem insertCand_sorted {t : Ty} {isMax : Bool} (x : Cand) {l : List Cand}
    (h : l.Pairwise (fun y z => candKey t isMax y ≤ candKey t isMax z)) :
    (insertCand t isMax x l).Pairwise (fun y z => candKey t isMax y ≤ candKey t isMax z) := by
  induction l with
  | nil => exact List.pairwise_singleton _ _
  | cons y l ih =>
    obtain ⟨hy, hl⟩ := List.pairwise_cons.1 h
    unfold insertCand
    split
    next hr =>
      have hxy : candKey t isMax x ≤ candKey t isMax y := ((rank_iff ..).1 hr).le
      exact List.pairwise_cons.2 ⟨List.forall_mem_cons.2 ⟨hxy, fun z hz => hxy.trans (hy z hz)⟩, h⟩
    next hr =>
      have hyx : candKey t isMax y ≤ candKey t isMax x := (rank_eq_false_iff ..).1 (Bool.not_eq_true _ ▸ hr)
      refine List.pairwise_cons.2 ⟨fun z hz => ?_, ih hl⟩
      rcases List.mem_cons.1 ((insertCand_perm ..).mem_iff.1 hz) with rfl | hz
      · exact hyx
      · exact hy z hz

theorem rankCands_spec (t : Ty) (isMax : Bool) (xs : List Cand) :
    (rankCands t isMax xs).Perm xs ∧ (rankCands t isMax xs).Pairwise (fun y z => candKey t isMax y ≤ candKey t isMax z) := by
  induction xs using List.reverseRecOn with
  | nil => exact ⟨.refl _, .nil⟩
  | append_singleton xs x ih =>
    obtain ⟨hperm, hsorted⟩ := ih
    have hlast : rankCands t isMax (xs ++ [x]) = insertCand t isMax x (rankCands t isMax xs) := List.foldl_concat ..
    rw [hlast]
    exact ⟨(insertCand_perm ..).trans ((hperm.cons x).trans (List.perm_append_singleton x xs).symm), insertCand_sorted x hsorted⟩

/-! ### The pair of registers -/

/-- Lane `i` of a register that was put together from lanes; beyond them it holds 0. -/
theorem lane_ofLanes_getD (w : Nat) (l : List Nat) (i : Nat) : lane w i (ofLanes w l) = l.getD i 0 % 2 ^ w := by
  rcases lt_or_ge i l.length with h | h
  · rw [lane_ofLanes _ _ _ h, List.getD_eq_getElem _ _ h]
  · have hlt : ofLanes w l < 2 ^ (w * i) := (ofLanes_lt w l).trans_le (Nat.pow_le_pow_right two_pos (Nat.mul_le_mul_left _ h))
    rw [lane, Nat.shiftRight_eq_div_pow, Nat.div_eq_of_lt hlt, List.getD_eq_default _ _ h]

/-- Value lanes of the entries of a pair. -/
def entryKeys (t : Ty) (r : List Cand) : VWord := BitVec.ofNat 512 (ofLanes t.width (r.map (fun x => x.1)))

/-- Index lanes of the entries of a pair, the others empty. -/
def entryIndices (r : List Cand) : VWord :=
  BitVec.ofNat 512 (ofLanes 32 (r.map (fun x => x.2) ++ List.replicate (16 - r.length) 0xFFFFFFFF))

theorem elem_entryKeys {t : Ty} {n : Nat} (hn : n < 512 / t.width) (r : List Cand) :
    elem t.width n (entryKeys t r) = (r.getD n (0, 0)).1 % 2 ^ t.width := by
  rw [entryKeys, elem_ofNat _ (lane_fits hn), lane_ofLanes_getD, ← List.getD_map (f := fun x : Cand => x.1)]

theorem elem_entryIndices {n : Nat} (hn : n < 16) (r : List Cand) :
    elem 32 n (entryIndices r) = if n < r.length then (r.getD n (0, 0)).2 % 2 ^ 32 else 0xFFFFFFFF := by
  rw [entryIndices, elem_ofNat _ (lane_fits (w := 32) hn), lane_ofLanes_getD]
  split
  next h => rw [List.getD_append _ _ _ _ (by simpa using h), ← List.getD_map (f := fun x : Cand => x.2)]
  next h => rw [List.getD_append_right _ _ _ _ (by simpa using h), List.getD_replicate _ (by rw [List.length_map]; omega)]; rfl

/-- Two vector registers written one after the other, as an effect. -/
theorem Ctx.setVreg_pair_on (c : Ctx) (j : Nat) (x y : VWord) :
    Effect.On { vectors := [(j, x), (j + 1, y)] } c ((c.setVreg j x).setVreg (j + 1) y).retired := by
  refine ⟨fun _ => rfl, fun k => ?_, fun _ => rfl, fun _ => rfl, ?_, rfl, rfl⟩
  · change ((c.setVreg j x).setVreg (j + 1) y).vreg k = _
    by_cases h : k = j
    · subst h; simp
    · simp [h]
  · simp [Ctx.retired, Ctx.setVreg]

/-! ### The instruction -/

/-- The entries of a pair below `k` that are not empty. -/
def State.oldCands (s : State) (d : Fin 16) (k : Nat) (t : Ty) : List Cand :=
  ((List.range k).map (fun n => (elem t.width n ((s.ctx s.cur).vreg (2 * d.val)),
    elem 32 n ((s.ctx s.cur).vreg (2 * d.val + 1))))).filter (fun x => x.2 ≠ 0xFFFFFFFF)

/-- The active ones of lanes 0 to 15 of a source on every core of the firing. -/
def State.newCands (s : State) (a : VSrc) (b : Src) (t : Ty) (m : MReg) : List Cand :=
  (s.members s.cur).flatMap (fun w => ((List.range 16).filter (elemOn ((s.ctx w).mask m) t.width)).map (fun i =>
    ((s.ctx w).vl t a i, (((s.ctx w).src b).toNat + 16 * ((w - s.cur) / 4) + i) % 2 ^ 32)))

theorem exec_vtopk (d : Fin 16) (a : VSrc) (b : Src) (k1 : Fin 16) {t : Ty} (h : t.isAny = true) (least : Bool) (m : MReg) (s : State) :
    exec (.vtopk d a b k1 t least m) s =
      let r := (rankCands t (!least) (s.oldCands d (k1.val + 1) t ++ s.newCands a b t m)).take (k1.val + 1)
      eachCtx s (fun c => (c.setVreg (2 * d.val) (entryKeys t r)).setVreg (2 * d.val + 1) (entryIndices r)) := by
  simp only [State.oldCands, State.newCands, ← filterMap_active (width_of_isAny h), ← vlane_eq]
  rfl

/-- Candidates fit their lanes. -/
theorem cands_lt {s : State} {d : Fin 16} {k : Nat} {a : VSrc} {b : Src} {t : Ty} {m : MReg} {x : Cand}
    (hx : x ∈ s.oldCands d k t ++ s.newCands a b t m) : x.1 < 2 ^ t.width ∧ x.2 < 2 ^ 32 := by
  have hmod (y w : Nat) : y % 2 ^ w < 2 ^ w := Nat.mod_lt _ (by positivity)
  rcases List.mem_append.1 hx with hx | hx
  · obtain ⟨n, -, rfl⟩ := List.mem_map.1 (List.mem_filter.1 hx).1
    exact ⟨hmod .., hmod ..⟩
  · obtain ⟨w, -, hx⟩ := List.mem_flatMap.1 hx
    obtain ⟨n, -, rfl⟩ := List.mem_map.1 hx
    exact ⟨vlane_lt .., hmod ..⟩

/-- Settles O11: the pair gets the first k of the candidates in rank order, which insertion makes. -/
theorem topK : Obligations.TopK := by
  intro d a b k1 t least m s hwf
  have htype : (t.isAny && decide (t.width ≤ 32)) = true := Instr.check_passes hwf List.mem_cons_self
  obtain ⟨hany, hwidth⟩ := Bool.and_eq_true_iff.1 htype
  obtain ⟨hperm, hsorted⟩ := rankCands_spec t (!least) (s.oldCands d (k1.val + 1) t ++ s.newCands a b t m)
  have hlt {x : Cand} (hx : x ∈ rankCands t (!least) (s.oldCands d (k1.val + 1) t ++ s.newCands a b t m)) := cands_lt (hperm.mem_iff.1 hx)
  have hexec := exec_vtopk d a b k1 hany least m s
  generalize rankCands t (!least) (s.oldCands d (k1.val + 1) t ++ s.newCands a b t m) = l at hperm hsorted hlt hexec
  have hlanes : 16 ≤ 512 / t.width := (Nat.le_div_iff_mul_le (width_pos t)).2 (by have := of_decide_eq_true hwidth; omega)
  refine eachCtx_completes s _ ?_ _ _ hexec fun c => ⟨_, ⟨l, _, _, hperm, ?_, fun n hn hlen => ?_, fun n hlen hn => ?_,
    fun n hn hlen => ?_, rfl⟩, c.setVreg_pair_on ..⟩
  · exact fun c => rfl
  · exact hsorted.imp fun h => (rank_eq_false_iff ..).2 h
  · have hl : n < l.length := hlen.trans_le (min_le_right _ _)
    have htake : (l.take (k1.val + 1)).getD n (0, 0) = l.getD n (0, 0) := by
      rw [List.getD_eq_getElem _ _ (by rwa [List.length_take]), List.getElem_take, List.getD_eq_getElem]
    obtain ⟨hcode, hindex⟩ := hlt (x := l.getD n (0, 0)) (by rw [List.getD_eq_getElem _ _ hl]; exact List.getElem_mem hl)
    rw [elem_entryKeys (hn.trans_le hlanes), elem_entryIndices hn, if_pos (by rwa [List.length_take]), htake, Nat.mod_eq_of_lt hcode,
      Nat.mod_eq_of_lt hindex]
  · rw [elem_entryKeys hn, List.getD_eq_default _ _ (by rwa [List.length_take]), Nat.zero_mod]
  · rw [elem_entryIndices hn, if_neg (not_lt.2 (by rwa [List.length_take]))]

end Sys2Proof.Machine

/-! ## Behind a commit point -/

namespace Sys2Proof.Machine

/-! ### Publication leaves the turn to the context that has it -/

theorem State.Wrote.cur {s t : State} (h : s.Wrote t) : t.cur = s.cur := by obtain ⟨_, _, _, _, _, rfl⟩ := h.frame; rfl

theorem State.pubStore_cur (s : State) (w grp : Nat) (org : Origin) (pa hb cls : Nat) (pol : Policy) (bs : List Byte) :
    (s.pubStore w grp org pa hb cls pol bs).cur = s.cur := by
  simp only [State.pubStore]
  split
  · split
    · rfl
    · exact (State.Wrote.portStore ..).cur
  · exact (State.Like.l1Store s (coreOf w) pa pol).wrote.cur

theorem State.pubLog_cur (w : Nat) (l : List LogItem) : ∀ s : State, (s.pubLog w l).cur = s.cur := by
  induction l with
  | nil => exact fun _ => rfl
  | cons x l ih =>
    intro s
    cases x with
    | store org va pa hb cls pol bs => exact (ih _).trans (s.pubStore_cur ..)
    | mark sc =>
      refine (ih _).trans ?_
      split <;> rfl

theorem State.nextSeq_cur (s : State) (w : Nat) : (s.nextSeq w).1.cur = s.cur := by
  simp only [State.nextSeq]
  split
  · rfl
  · exact (State.Wrote.setDesc ..).cur

theorem State.pubTask_cur (s : State) (w idx : Nat) (p : Pkt) : (s.pubTask w idx p).cur = s.cur := by
  simp only [State.pubTask]
  split
  · exact ((State.Wrote.putPkt ..).cur.trans (State.Like.poolKeep (s.nextSeq w).1 ..).wrote.cur).trans (s.nextSeq_cur w)
  · exact s.nextSeq_cur w

theorem State.pubSends_cur (w : Nat) (l : List (Nat × Option Nat × Pkt)) : ∀ s : State, (s.pubSends w l).cur = s.cur := by
  induction l with
  | nil => exact fun _ => rfl
  | cons x l ih =>
    intro s
    obtain ⟨u, i, p⟩ := x
    cases i with
    | none => exact (ih _).trans (s.nextSeq_cur w)
    | some i => exact (ih _).trans (s.pubTask_cur ..)

theorem State.firstCommit_cur (s : State) (w : Nat) : (s.firstCommit w).cur = s.cur := by
  simp only [State.firstCommit]
  split
  · rfl
  · rw [State.onCtx_cur]
    split
    · exact (State.Wrote.onMboxes ..).cur
    · rfl

theorem State.firstCommit_done1 (s : State) (w : Nat) : ((s.firstCommit w).ctx w).done1 = true := by
  simp only [State.firstCommit]
  split
  · next h => exact h
  · rw [State.onCtx_ctx, if_pos rfl]

theorem State.publish_cur (s : State) (w : Nat) : (s.publish w).cur = s.cur := by
  simp only [State.publish]
  have h1 : (if (s.ctx w).pub then s else s.onCtx w (fun c => { c with pubLo := s.uid })).cur = s.cur := by split <;> rfl
  generalize (if (s.ctx w).pub then s else s.onCtx w (fun c => { c with pubLo := s.uid })) = u at h1 ⊢
  have h2 : ((u.members w).foldl (fun s m => s.pubCtx m) u).cur = s.cur :=
    List.foldlRecOn (motive := fun t : State => t.cur = s.cur) _ _ h1 fun t ht m _ => (t.pubLog_cur m _).trans ht
  generalize (u.members w).foldl (fun s m => s.pubCtx m) u = v at h2 ⊢
  have h3 := (State.pubSends_cur w (v.ctx w).unpublished v).trans h2
  generalize v.pubSends w (v.ctx w).unpublished = x at h3 ⊢
  rw [State.firstCommit_cur, State.onCtx_cur]
  split
  · exact h3
  · exact (State.Like.bumpCore ..).wrote.cur.trans h3

@[simp] theorem State.committed_cur (s : State) : s.committed.cur = s.cur := by
  unfold State.committed
  split
  · rfl
  · exact s.publish_cur s.cur

/-- A publication is past the first commit point (R20). -/
theorem State.publish_done1 (s : State) (w : Nat) : ((s.publish w).ctx w).done1 = true := by
  unfold State.publish
  exact State.firstCommit_done1 _ w

/-! ### Instructions of one context that commit -/

theorem State.after_ctx (s : State) (w : Nat) (f : Ctx → Ctx) (j : Nat) :
    (s.after w f).ctx j = if j = w then (f (s.ctx w)).retired else s.ctx j := s.onCtx_ctx ..

theorem finish_single {s v : State} (h : (v.ctx s.cur).gang = false) : finish s (.ok v) = .next (v.after s.cur id) :=
  congrArg Host.Outcome.next (State.retire_single h)

/-- An instruction that commits, and changes nothing of the contexts beside, completes with them as its publication leaves them. -/
theorem finish_committed {s v : State} (hs : s.single) (hv : v.ctx = s.committed.ctx) :
    ∃ t, finish s (.ok v) = .next t ∧ t.clu = v.clu ∧ t.mem = v.mem ∧ t.ctx s.cur = (s.committed.ctx s.cur).retired ∧
      ∀ w, w ≠ s.cur → t.ctx w = s.committed.ctx w := by
  refine ⟨_, finish_single (by rw [hv]; exact committed_gang hs), rfl, rfl, ?_, fun w hw => ?_⟩
  · rw [State.after_ctx, if_pos rfl, hv]; rfl
  · rw [State.after_ctx, if_neg hw, hv]

end Sys2Proof.Machine

/-! ## Items of the matrix array: tiles, pairs and records (R147, R151, R158, R159) -/

namespace Sys2Proof.Machine

theorem mem_maskList {n m i : Nat} : i ∈ maskList n m ↔ i < n ∧ m.testBit i = true := by
  rw [maskList, List.mem_filter, List.mem_range, bit_eq_testBit]

theorem maskList_toNat (n : Nat) (v : Word) : maskList n v.toNat = (List.range n).filter (fun i => v.getLsbD i) :=
  List.filter_congr fun _ _ => bit_eq_testBit ..

/-! ### Elements of tiles -/

theorem Cluster.tileAt_setTile (k : Cluster) (t i v u j : Nat) :
    (k.setTile t i v).tileAt u j = if u = t ∧ j = i then v % 2 ^ 32 else k.tileAt u j := by
  simp only [Cluster.tileAt, Cluster.setTile, FMap.get_put]
  by_cases hu : u = t
  · subst hu; simp [FMap.get_put]
  · simp [hu]

/-- An erased tile reads 0. -/
theorem tileAt_erase (k : Cluster) (t u j : Nat) :
    ({ k with tiles := FMap.erase k.tiles t } : Cluster).tileAt u j = if u = t then 0 else k.tileAt u j := by
  simp only [Cluster.tileAt, FMap.get_erase]
  split <;> rfl

/-- What the active elements of a group put into a tile. -/
theorem Cluster.tileAt_putGroup (c : Ctx) (t base : Nat) (m : MReg) (v : VWord) (l : List Nat) : ∀ (k : Cluster) (u j : Nat),
    (k.putGroup c t base m v l).tileAt u j =
      if u = t ∧ base ≤ j ∧ j - base ∈ l ∧ elemOn (c.mask m) 32 (j - base) = true then elem 32 (j - base) v else k.tileAt u j := by
  induction l with
  | nil => intro k u j; simp [Cluster.putGroup]
  | cons i l ih =>
    intro k u j
    have hlane : lane 32 i v.toNat % 2 ^ 32 = elem 32 i v := by rw [lane_toNat, elem, Nat.mod_mod]
    rw [Cluster.putGroup, ih, active_eq _ _ _ (by norm_num)]
    by_cases hj : j = base + i
    · subst hj
      simp only [Nat.le_add_right, Nat.add_sub_cancel_left, true_and, List.mem_cons, true_or]
      by_cases hon : elemOn (c.mask m) 32 i = true
      · simp only [hon, if_true, and_true, Cluster.tileAt_setTile, hlane]
        by_cases hu : u = t <;> simp [hu]
      · simp [hon]
    · have hne : base ≤ j → j - base ≠ i := by omega
      have hk : (if elemOn (c.mask m) 32 i = true then k.setTile t (base + i) (lane 32 i v.toNat) else k).tileAt u j = k.tileAt u j := by
        split
        · rw [Cluster.tileAt_setTile, if_neg fun h => hj h.2]
        · rfl
      rw [hk]
      refine if_congr ?_ rfl rfl
      simp only [List.mem_cons]
      constructor
      · exact fun ⟨h1, h2, h3, h4⟩ => ⟨h1, h2, .inr h3, h4⟩
      · exact fun ⟨h1, h2, h3, h4⟩ => ⟨h1, h2, h3.resolve_left (hne h2), h4⟩

/-! ### Items given -/

/-- The array once an actor is given tiles and pairs. -/
def Cluster.give (k : Cluster) (key : Nat) (ts ps : List Nat) : Cluster :=
  ps.foldl (fun k i => k.givePair key i) (ts.foldl (fun k i => k.giveTile key i) k)

theorem giveTiles_spec (key : Nat) (ts : List Nat) : ∀ k : Cluster,
    let k' := ts.foldl (fun k i => k.giveTile key i) k
    k'.pairOwn = k.pairOwn ∧ (∀ i, FMap.find k'.tileOwn i = if i ∈ ts then some key else FMap.find k.tileOwn i) ∧
      ∀ i n, k'.tileAt i n = if i ∈ ts then 0 else k.tileAt i n := by
  induction ts with
  | nil => exact fun k => ⟨rfl, fun i => by simp, fun i n => by simp⟩
  | cons t ts ih =>
    intro k
    obtain ⟨hpair, hown, hat⟩ := ih (k.giveTile key t)
    refine ⟨hpair, fun i => ?_, fun i n => ?_⟩
    · rw [List.foldl_cons, hown]
      by_cases hi : i = t <;> simp [Cluster.giveTile, hi]
    · rw [List.foldl_cons, hat]
      have h := tileAt_erase k t i n
      by_cases hi : i = t
      · simp only [hi, List.mem_cons, true_or, if_true] at h ⊢
        split
        · rfl
        · exact h
      · simp only [hi, List.mem_cons, false_or, if_false] at h ⊢
        exact congrArg _ h

theorem givePairs_spec (key : Nat) (ps : List Nat) : ∀ k : Cluster,
    let k' := ps.foldl (fun k i => k.givePair key i) k
    k'.tileOwn = k.tileOwn ∧ k'.tiles = k.tiles ∧ (∀ i, FMap.find k'.pairOwn i = if i ∈ ps then some key else FMap.find k.pairOwn i) ∧
      ∀ n, k'.tagOf n = if n / 2 ∈ ps then (.i8, 0) else k.tagOf n := by
  induction ps with
  | nil => exact fun k => ⟨rfl, rfl, fun i => by simp, fun n => by simp⟩
  | cons p ps ih =>
    intro k
    obtain ⟨hown, htiles, hpair, htag⟩ := ih (k.givePair key p)
    have h (n : Nat) : (k.givePair key p).tagOf n = if n / 2 = p then (.i8, 0) else k.tagOf n := by
      have hn : n / 2 = p ↔ n = 2 * p + 1 ∨ n = 2 * p := by omega
      simp only [Cluster.givePair, Cluster.tagOf, FMap.get_set, hn]
      split
      · next h => simp [h]
      · next h => simp [h]
    refine ⟨hown, htiles, fun i => ?_, fun n => ?_⟩
    · rw [List.foldl_cons, hpair]
      by_cases hi : i = p <;> simp [Cluster.givePair, hi]
    · rw [List.foldl_cons, htag, h]
      by_cases hn : n / 2 = p <;> simp [hn]

/-- What the array of an actor gives back after the items are given. -/
theorem Cluster.give_reads (k : Cluster) (key : Nat) (ts ps : List Nat) :
    (∀ i, FMap.find (k.give key ts ps).tileOwn i = if i ∈ ts then some key else FMap.find k.tileOwn i) ∧
      (∀ i, FMap.find (k.give key ts ps).pairOwn i = if i ∈ ps then some key else FMap.find k.pairOwn i) ∧
      (∀ i n, (k.give key ts ps).tileAt i n = if i ∈ ts then 0 else k.tileAt i n) ∧
      ∀ n, n / 2 ∈ ps → (k.give key ts ps).tagOf n = (.i8, 0) := by
  obtain ⟨hpair, hown, hat⟩ := giveTiles_spec key ts k
  obtain ⟨hown', htiles', hpair', htag'⟩ := givePairs_spec key ps (ts.foldl (fun k i => k.giveTile key i) k)
  refine ⟨fun i => ?_, fun i => ?_, fun i n => ?_, fun n hn => ?_⟩
  · rw [Cluster.give, hown', hown]
  · rw [Cluster.give, hpair', hpair]
  · rw [Cluster.give, Cluster.tileAt, htiles']; exact hat i n
  · rw [Cluster.give, htag', if_pos hn]

/-- `l` has the items of `k`: their owners, the contents of its tiles and the tags of its planes. -/
structure Cluster.SameItems (k l : Cluster) : Prop where
  tileOwn : l.tileOwn = k.tileOwn
  pairOwn : l.pairOwn = k.pairOwn
  tileAt : l.tileAt = k.tileAt
  tagOf : l.tagOf = k.tagOf

theorem Cluster.SameItems.refl (k : Cluster) : k.SameItems k := ⟨rfl, rfl, rfl, rfl⟩

theorem Cluster.SameItems.trans {k l m : Cluster} (h : k.SameItems l) (i : l.SameItems m) : k.SameItems m :=
  ⟨i.tileOwn.trans h.tileOwn, i.pairOwn.trans h.pairOwn, i.tileAt.trans h.tileAt, i.tagOf.trans h.tagOf⟩

/-- Records are kept apart from the items. -/
theorem Cluster.tidyRec_sameItems (k : Cluster) (key : Nat) : k.SameItems (k.tidyRec key) := by
  unfold Cluster.tidyRec
  split
  · exact ⟨rfl, rfl, rfl, rfl⟩
  · split
    · exact .refl k
    · exact ⟨rfl, rfl, rfl, rfl⟩

theorem Cluster.clearFlags_sameItems (k : Cluster) (key : Nat) : k.SameItems (k.clearFlags key) := by
  unfold Cluster.clearFlags
  split
  · exact ⟨rfl, rfl, rfl, rfl⟩
  · exact .refl k

theorem State.noteItems_frame (s : State) (gc slot cl key : Nat) :
    ∃ a, s.noteItems gc slot cl key = { s with mem := a } := State.setDesc_frame ..

/-! ### Items freed -/

theorem dropTiles_spec (ts : List Nat) : ∀ k : Cluster,
    (ts.foldl (fun k i => k.dropTile i) k).pairOwn = k.pairOwn ∧
      ∀ i, FMap.find (ts.foldl (fun k i => k.dropTile i) k).tileOwn i = if i ∈ ts then none else FMap.find k.tileOwn i := by
  induction ts with
  | nil => exact fun k => ⟨rfl, fun i => by simp⟩
  | cons t ts ih =>
    intro k
    obtain ⟨hpair, hown⟩ := ih (k.dropTile t)
    refine ⟨hpair, fun i => ?_⟩
    rw [List.foldl_cons, hown]
    by_cases hi : i = t <;> simp [Cluster.dropTile, hi]

theorem dropPairs_spec (ps : List Nat) : ∀ k : Cluster,
    (ps.foldl (fun k i => k.dropPair i) k).tileOwn = k.tileOwn ∧
      ∀ i, FMap.find (ps.foldl (fun k i => k.dropPair i) k).pairOwn i = if i ∈ ps then none else FMap.find k.pairOwn i := by
  induction ps with
  | nil => exact fun k => ⟨rfl, fun i => by simp⟩
  | cons p ps ih =>
    intro k
    obtain ⟨hown, hpair⟩ := ih (k.dropPair p)
    refine ⟨hown, fun i => ?_⟩
    rw [List.foldl_cons, hpair]
    by_cases hi : i = p <;> simp [Cluster.dropPair, hi]

end Sys2Proof.Machine

/-! ## MLEASE, MFREE, MCFG, MZERO, MACCRD and MACCWR (O43) -/

namespace Sys2Proof.Machine

theorem exec_mlease (d : Dst) (a b : Src) (clr : Bool) (s : State) : exec (.mlease d a b clr) s = execMlease d a b clr s := rfl
theorem exec_mfree (a b : Src) (s : State) : exec (.mfree a b) s = execMfree a b s := rfl
theorem exec_mcfg (a b : Src) (ty : Ty) (rm : RM) (act : Act) (sen ben : Bool) (sh : BitVec 8) (s : State) :
    exec (.mcfg a b ty rm act sen ben sh) s = execMcfg a b ty rm act sen ben sh s := rfl
theorem exec_mzero (n : Fin 16) (s : State) : exec (.mzero n) s = execMzero n s := rfl
theorem exec_maccrd (k : TTy) (d : VDst) (b : Src) (n : Fin 16) (m : MReg) (s : State) :
    exec (.maccrd k d b n m) s = execMaccrd k d b n m s := rfl
theorem exec_maccwr (k : TTy) (a : VSrc) (b : Src) (n : Fin 16) (m : MReg) (s : State) :
    exec (.maccwr k a b n m) s = execMaccwr k a b n m s := rfl

/-! ### MLEASE (R158) -/

/-- An item of an ownership table is another actor's. -/
theorem other_iff (own : FMap Nat) (key i : Nat) :
    ((FMap.find own i).isSome && !decide (FMap.find own i = some key)) = true ↔ ∃ o, FMap.find own i = some o ∧ o ≠ key := by
  cases FMap.find own i <;> simp

/-- Some item that is asked for is another actor's. -/
def Cluster.taken (k : Cluster) (key : Nat) (t p : List Nat) : Prop :=
  (∃ i ∈ t, ∃ o, FMap.find k.tileOwn i = some o ∧ o ≠ key) ∨ (∃ i ∈ p, ∃ o, FMap.find k.pairOwn i = some o ∧ o ≠ key)

/-- The items of a list that the actor has not yet. -/
def newItems (own : FMap Nat) (key : Nat) (l : List Nat) : List Nat := l.filter (fun i => !decide (FMap.find own i = some key))

/-- The three answers of an MLEASE of an actor. -/
theorem Cluster.lease_eq (k : Cluster) (key tq pq : Nat) (t p : List Nat) [Decidable (k.taken key t p)] : k.lease key tq pq t p =
    if k.taken key t p then (1, k)
    else if tq < (k.tilesOf key).length + (newItems k.tileOwn key t).length ∨ pq < (k.pairsOf key).length + (newItems k.pairOwn key p).length
    then (2, k)
    else (0, (k.give key (newItems k.tileOwn key t) (newItems k.pairOwn key p)).tidyRec key) := by
  have h : (t.any (fun i => (FMap.find k.tileOwn i).isSome && !decide (FMap.find k.tileOwn i = some key)) ||
      p.any (fun i => (FMap.find k.pairOwn i).isSome && !decide (FMap.find k.pairOwn i = some key))) = true ↔ k.taken key t p := by
    simp only [Bool.or_eq_true, List.any_eq_true, other_iff, Cluster.taken]
  exact if_congr h rfl rfl

/-- What MLEASE at the direct port leaves: the array of the status, but for its records, and the descriptor. -/
theorem mleaseDo_actor (s : State) (w : Nat) (a b : Word) (clr : Bool) (hk : (s.ctx w).kind = .actor) :
    let r := (s.clu (w / 4 / 8)).lease (s.ctx w).key (s.desc (w / 4) (s.ctx w).slot 1 / 2 ^ 4 % 2 ^ 5)
      (s.desc (w / 4) (s.ctx w).slot 1 / 2 ^ 9 % 2 ^ 3) (maskList 16 a.toNat) (maskList 4 b.toNat)
    (s.mleaseDo w a b clr).1 % 2 ^ 8 = r.1 % 2 ^ 8 ∧ (s.mleaseDo w a b clr).2.ctx = s.ctx ∧
      r.2.SameItems ((s.mleaseDo w a b clr).2.clu (w / 4 / 8)) := by
  intro r
  have hbits : (s.clu (w / 4 / 8)).lease (s.ctx w).key (bits (s.desc (w / 4) (s.ctx w).slot 1) 4 5)
      (bits (s.desc (w / 4) (s.ctx w).slot 1) 9 3) (maskList 16 a.toNat) (maskList 4 b.toNat) = r := by
    rw [bits, bits, Nat.shiftRight_eq_div_pow, Nat.shiftRight_eq_div_pow]
  simp only [State.mleaseDo, hk, ne_eq, not_true, if_false, coreOf, cluOf, hbits]
  obtain ⟨m, hm⟩ := State.noteItems_frame (s.setClu (w / 4 / 8) (if clr = true then r.2.clearFlags (s.ctx w).key else r.2)) (w / 4)
    (s.ctx w).slot (w / 4 / 8) (s.ctx w).key
  rw [hm]
  refine ⟨by omega, rfl, ?_⟩
  change r.2.SameItems ((s.setClu (w / 4 / 8) _).clu (w / 4 / 8))
  rw [State.setClu_clu, if_pos rfl]
  split
  · exact r.2.clearFlags_sameItems _
  · exact .refl _

theorem mleaseDo_other (s : State) (w : Nat) (a b : Word) (clr : Bool) (hk : (s.ctx w).kind ≠ .actor) : s.mleaseDo w a b clr = (3, s) :=
  if_pos hk

theorem mleaseDo_ctx (s : State) (w : Nat) (a b : Word) (clr : Bool) : (s.mleaseDo w a b clr).2.ctx = s.ctx := by
  by_cases hk : (s.ctx w).kind = .actor
  · exact (mleaseDo_actor s w a b clr hk).2.1
  · rw [mleaseDo_other s w a b clr hk]

/-- MLEASE completes with the status word in its destination. -/
theorem mlease_completes (d : Dst) (a b : Src) (clr : Bool) {s : State} (hs : s.single) (hc : s.mayCommit) :
    let r := s.committed.mleaseDo s.cur ((s.committed.ctx s.cur).src a) ((s.committed.ctx s.cur).src b) clr
    exec (.mlease d a b clr) s = .next (r.2.after s.cur (fun c => c.dst d (BitVec.ofNat 64 r.1))) := by
  intro r
  have hctx : r.2.ctx = s.committed.ctx := mleaseDo_ctx ..
  have hg : (r.2.ctx s.cur).gang = false := by rw [hctx]; exact committed_gang hs
  have hall (f : Ctx → Ctx) : r.2.toAll s.cur f = r.2.onCtx s.cur f := by rw [State.toAll, State.members, hg]; rfl
  have hexec : exec (.mlease d a b clr) s = finish s (.ok (r.2.toAll s.cur (fun c => c.dst d (BitVec.ofNat 64 r.1)))) := by
    rw [exec_mlease, execMlease, once, State.commit_eq hc]
  rw [hexec, hall, finish_single, State.after_onCtx]
  rw [State.onCtx_ctx, if_pos rfl, Ctx.dst_gang, hg]

theorem mem_newItems {own : FMap Nat} {key i : Nat} {l : List Nat} : i ∈ newItems own key l ↔ i ∈ l ∧ FMap.find own i ≠ some key := by
  simp [newItems, List.mem_filter]

theorem newItems_maskList (own : FMap Nat) (key n : Nat) (v : Word) : newItems own key (maskList n v.toNat) =
    (List.range n).filter (fun i => v.getLsbD i && decide (FMap.find own i ≠ some key)) := by
  rw [newItems, maskList_toNat, List.filter_filter]
  refine List.filter_congr fun i _ => ?_
  rw [Bool.and_comm]; simp

/-- What an actor that is given all it asks for has then (R158). -/
theorem give_spec {k l : Cluster} {key : Nat} {t p : List Nat}
    (hl : ((k.give key (newItems k.tileOwn key t) (newItems k.pairOwn key p)).tidyRec key).SameItems l) :
    (∀ i ∈ t, FMap.find l.tileOwn i = some key) ∧ (∀ i ∈ p, FMap.find l.pairOwn i = some key) ∧
      (∀ i, i ∉ t → FMap.find l.tileOwn i = FMap.find k.tileOwn i ∧ ∀ n, l.tileAt i n = k.tileAt i n) ∧
      (∀ i ∈ newItems k.tileOwn key t, ∀ n, l.tileAt i n = 0) ∧
      ∀ i ∈ newItems k.pairOwn key p, l.tagOf (2 * i) = (.i8, 0) ∧ l.tagOf (2 * i + 1) = (.i8, 0) := by
  obtain ⟨hown, hpair, htile, htag⟩ := k.give_reads key (newItems k.tileOwn key t) (newItems k.pairOwn key p)
  have hsame := (k.give key (newItems k.tileOwn key t) (newItems k.pairOwn key p)).tidyRec_sameItems key |>.trans hl
  rw [hsame.tileOwn, hsame.pairOwn, hsame.tileAt, hsame.tagOf]
  refine ⟨fun i hi => ?_, fun i hi => ?_, fun i hi => ?_, fun i hi n => ?_, fun i hi => ⟨htag _ ?_, htag _ ?_⟩⟩
  · rw [hown]
    split
    · rfl
    · next h => exact not_not.1 fun hne => h (mem_newItems.2 ⟨hi, hne⟩)
  · rw [hpair]
    split
    · rfl
    · next h => exact not_not.1 fun hne => h (mem_newItems.2 ⟨hi, hne⟩)
  · have hnot : i ∉ newItems k.tileOwn key t := fun h => hi (mem_newItems.1 h).1
    rw [hown, if_neg hnot]
    exact ⟨rfl, fun n => by rw [htile, if_neg hnot]⟩
  · rw [htile, if_pos hi]
  · rwa [Nat.mul_div_cancel_left _ (by norm_num)]
  · rwa [show (2 * i + 1) / 2 = i by omega]

/-- The status of an actor's MLEASE, and the array that it leaves (R158). -/
theorem mlease_status {s : State} {w : Nat} (a b : Word) (clr : Bool) (hk : (s.ctx w).kind = .actor) :
    let k := s.clu (w / 4 / 8)
    let key := (s.ctx w).key
    let newT := newItems k.tileOwn key (maskList 16 a.toNat)
    let newP := newItems k.pairOwn key (maskList 4 b.toNat)
    let many := s.desc (w / 4) (s.ctx w).slot 1 / 2 ^ 4 % 2 ^ 5 < (k.tilesOf key).length + newT.length ∨
      s.desc (w / 4) (s.ctx w).slot 1 / 2 ^ 9 % 2 ^ 3 < (k.pairsOf key).length + newP.length
    let v := (s.mleaseDo w a b clr).1
    let k' := (s.mleaseDo w a b clr).2.clu (w / 4 / 8)
    (k.taken key (maskList 16 a.toNat) (maskList 4 b.toNat) → v % 2 ^ 8 = 1 ∧ k.SameItems k') ∧
      (¬ k.taken key (maskList 16 a.toNat) (maskList 4 b.toNat) → many → v % 2 ^ 8 = 2 ∧ k.SameItems k') ∧
      (¬ k.taken key (maskList 16 a.toNat) (maskList 4 b.toNat) → ¬ many → v % 2 ^ 8 = 0 ∧
        ((k.give key newT newP).tidyRec key).SameItems k') := by
  classical
  intro k key newT newP many v k'
  obtain ⟨hv, -, hsame⟩ := mleaseDo_actor s w a b clr hk
  rw [Cluster.lease_eq] at hv hsame
  refine ⟨fun ht => ?_, fun ht hm => ?_, fun ht hm => ?_⟩
  · rw [if_pos ht] at hv hsame
    exact ⟨hv, hsame⟩
  · rw [if_neg ht, if_pos hm] at hv hsame
    exact ⟨hv, hsame⟩
  · rw [if_neg ht, if_neg hm] at hv hsame
    exact ⟨hv, hsame⟩

/-! ### MFREE (R159) -/

/-- The array of an actor that has freed tiles and pairs. -/
def Cluster.free (k : Cluster) (ts ps : List Nat) : Cluster := ps.foldl (fun k i => k.dropPair i) (ts.foldl (fun k i => k.dropTile i) k)

theorem Cluster.free_owners (k : Cluster) (ts ps : List Nat) :
    (∀ i, FMap.find (k.free ts ps).tileOwn i = if i ∈ ts then none else FMap.find k.tileOwn i) ∧
      ∀ i, FMap.find (k.free ts ps).pairOwn i = if i ∈ ps then none else FMap.find k.pairOwn i := by
  obtain ⟨hpair, hown⟩ := dropTiles_spec ts k
  obtain ⟨hown', hpair'⟩ := dropPairs_spec ps (ts.foldl (fun k i => k.dropTile i) k)
  exact ⟨fun i => by rw [Cluster.free, hown', hown], fun i => by rw [Cluster.free, hpair', hpair]⟩

/-- The items named in a mask that pass a test, from the list of the set bits. -/
theorem filter_maskList (n : Nat) (v : Word) (q : Nat → Bool) :
    (maskList n v.toNat).filter q = (List.range n).filter (fun i => v.getLsbD i && q i) := by
  rw [maskList_toNat, List.filter_filter]
  exact List.filter_congr fun i _ => Bool.and_comm ..

/-- MFREE of items that no queued command of the actor names frees them, behind its commit point. -/
theorem mfree_frees {a b : Src} {s : State} (hc : s.mayCommit) (hk : (s.ctx s.cur).kind = .actor) :
    let p := s.committed
    let c := s.ctx s.cur
    let ts := (List.range 16).filter (fun i => (c.src a).getLsbD i && p.holdsTile s.cur i)
    let ps := (List.range 4).filter (fun i => (c.src b).getLsbD i && p.holdsPair s.cur i)
    (∀ m ∈ (p.clu (s.cur / 4 / 8)).inbox, m.key = c.key → m.names ts ps = false) →
    ∃ v, exec (.mfree a b) s = finish s (.ok v) ∧ v.ctx = p.ctx ∧
      (v.clu (s.cur / 4 / 8)).tileOwn = ((p.clu (s.cur / 4 / 8)).free ts ps).tileOwn ∧
      (v.clu (s.cur / 4 / 8)).pairOwn = ((p.clu (s.cur / 4 / 8)).free ts ps).pairOwn := by
  intro p c ts ps hn
  have hactor : ¬ ((s.ctx s.cur).kind ≠ .actor ∧
      (maskList 16 ((s.ctx s.cur).src a).toNat ≠ [] ∨ maskList 4 ((s.ctx s.cur).src b).toNat ≠ [])) :=
    fun h => h.1 hk
  have hidle : ¬ ((p.clu (s.cur / 4 / 8)).inbox.any (fun m => decide (m.key = c.key) && m.names ts ps)) = true := by
    rw [List.any_eq_true]
    rintro ⟨m, hm, h⟩
    obtain ⟨hkey, hnames⟩ := Bool.and_eq_true_iff.1 h
    rw [hn m hm (of_decide_eq_true hkey)] at hnames
    cases hnames
  by_cases hempty : ts = [] ∧ ps = []
  · refine ⟨p, ?_, rfl, ?_, ?_⟩
    · simp only [exec_mfree, execMfree, once, if_neg hactor, State.commit_eq hc, filter_maskList, coreOf, cluOf]
      rw [if_neg hidle, if_pos hempty]
    · rw [hempty.1, hempty.2]; rfl
    · rw [hempty.1, hempty.2]; rfl
  · obtain ⟨mem, hmem⟩ := State.noteItems_frame (p.setClu (s.cur / 4 / 8) (((p.clu (s.cur / 4 / 8)).free ts ps).tidyRec c.key)) (s.cur / 4)
      c.slot (s.cur / 4 / 8) c.key
    have hclu : ((p.setClu (s.cur / 4 / 8) (((p.clu (s.cur / 4 / 8)).free ts ps).tidyRec c.key)).noteItems (s.cur / 4) c.slot
        (s.cur / 4 / 8) c.key).clu (s.cur / 4 / 8) = ((p.clu (s.cur / 4 / 8)).free ts ps).tidyRec c.key := by
      rw [hmem]
      exact (State.setClu_clu ..).trans (if_pos rfl)
    have hsame := ((p.clu (s.cur / 4 / 8)).free ts ps).tidyRec_sameItems c.key
    refine ⟨_, ?_, ?_, by rw [hclu, hsame.tileOwn], by rw [hclu, hsame.pairOwn]⟩
    · simp only [exec_mfree, execMfree, once, if_neg hactor, State.commit_eq hc, filter_maskList, coreOf, cluOf]
      rw [if_neg hidle, if_neg hempty]; rfl
    · rw [hmem]; rfl

/-! ### MCFG (R151) -/

/-- A form that changes the array alone, behind its commit point. -/
theorem array_completes {i : Instr} {s : State} {g : Cluster → Cluster} (hs : s.single)
    (hi : exec i s = finish s (.ok (s.committed.onClu (s.cur / 4 / 8) g))) :
    ∃ u, exec i s = .next u ∧ u.clu (s.cur / 4 / 8) = g (s.committed.clu (s.cur / 4 / 8)) ∧ u.mem = s.committed.mem ∧
      u.ctx s.cur = (s.committed.ctx s.cur).retired ∧ ∀ w, w ≠ s.cur → u.ctx w = s.committed.ctx w := by
  obtain ⟨u, hu, hclu, hmem, hcur, hother⟩ := finish_committed (v := s.committed.onClu (s.cur / 4 / 8) g) hs rfl
  exact ⟨u, hi.trans hu, by rw [hclu, State.onClu_clu, if_pos rfl], hmem, hcur, hother⟩

/-- The record that MCFG writes keeps the flag word of the actor. -/
theorem mcfg_writes {a b : Src} {ty : Ty} {rm : RM} {act : Act} {sen ben : Bool} {sh : BitVec 8} {s : State} {r : MRec} (hc : s.mayCommit)
    (hk : (s.ctx s.cur).kind = .actor) (hr : FMap.find (s.clu (s.cur / 4 / 8)).mrecs (s.ctx s.cur).key = some r)
    (ha : ((s.ctx s.cur).src a).toNat < 0x100000) (hb : ((s.ctx s.cur).src b).toNat < 0x100000) :
    exec (.mcfg a b ty rm act sen ben sh) s = finish s (.ok (s.committed.onClu (s.cur / 4 / 8) (fun k =>
      { k with
        mrecs := FMap.set k.mrecs (s.ctx s.cur).key
          { dfmt := ty, rm := rm, act := act, sen := sen, ben := ben, dshift := sh.toInt, scale := ((s.ctx s.cur).src a).toNat,
            bias := ((s.ctx s.cur).src b).toNat, flags := (FMap.get {} k.mrecs (s.ctx s.cur).key).flags } }))) := by
  simp only [exec_mcfg, execMcfg, once, if_pos hk, coreOf, cluOf, hr, if_neg (Nat.not_le.2 ha), if_neg (Nat.not_le.2 hb), State.commit_eq hc]

/-! ### Direct access to a tile (R166, R167) -/

/-- A direct access to a tile that the actor holds, behind its commit point. -/
theorem directTile_held {s : State} {t : Nat} {f : Nat → State → State} (hc : s.mayCommit) (ht : s.holdsTile s.cur t = true) :
    directTile t f s = match s.committed.tileBusy s.cur t with
      | some x => .next (s.committed.fault s.cur x)
      | none => finish s (.ok (f s.cur s.committed)) := by
  simp only [directTile, ht, Bool.not_true, Bool.false_eq_true, if_false, State.commit_eq hc]
  cases s.committed.tileBusy s.cur t with
  | none => simp only [finish, State.committed_cur]
  | some x => simp only [finish, State.committed_cur]

theorem tileBusy_of_find {s : State} {w t : Nat} {m : MCmd}
    (h : (s.clu (w / 4 / 8)).inbox.find? (fun m => decide (m.key = (s.ctx w).key) && decide (m.op.tile? = some t)) = some m) :
    s.tileBusy w t = some { code := 8, cls := 1, detail := t + m.tag * 2 ^ 16 } := by
  simp only [State.tileBusy, coreOf, cluOf, h]

theorem groupBase_eq (v : Word) (g : Nat) : groupBase v g = v.toNat % 128 * 128 + 16 * ((v.toNat / 2 ^ 7 % 8 + g) % 8) := by
  simp only [groupBase, bits, Nat.shiftRight_eq_div_pow]
  norm_num

/-- A form that writes a tile at the direct port. -/
theorem exec_tileWrite {i : Instr} {n : Fin 16} (h : i = .mzero n ∨ ∃ k a b x, i = .maccwr k a b n x) (s : State) :
    ∃ f, exec i s = directTile n.val f s := by
  rcases h with rfl | ⟨k, a, b, x, rfl⟩
  · exact ⟨_, exec_mzero n s⟩
  · exact ⟨_, exec_maccwr k a b n x s⟩

/-- MZERO and MACCWR of a tile that a queued command names trap, past the commit point (R155, R167). -/
theorem tileWrite_busy {i : Instr} {n : Fin 16} {s : State} {m : MCmd} (hi : i = .mzero n ∨ ∃ k a b x, i = .maccwr k a b n x)
    (hc : s.mayCommit) (ht : s.holdsTile s.cur n.val = true)
    (hm : (s.committed.clu (s.cur / 4 / 8)).inbox.find?
      (fun m => decide (m.key = (s.committed.ctx s.cur).key) && decide (m.op.tile? = some n.val)) = some m) :
    exec i s = .next (s.committed.fault s.cur { code := 8, cls := 1, detail := n.val + m.tag * 2 ^ 16 }) := by
  obtain ⟨f, hf⟩ := exec_tileWrite hi s
  rw [hf, directTile_held hc ht, tileBusy_of_find hm]

/-- A form that writes a tile which no queued command names completes, behind its commit point. -/
theorem tileWrite_completes {i : Instr} {t : Nat} {f : Nat → State → State} {s : State} (hi : exec i s = directTile t f s) (hs : s.single)
    (hc : s.mayCommit) (ht : s.holdsTile s.cur t = true) (hn : s.committed.tileBusy s.cur t = none) {g : Cluster → Cluster}
    (hf : f s.cur s.committed = s.committed.onClu (s.cur / 4 / 8) g) :
    ∃ u, exec i s = .next u ∧ u.clu (s.cur / 4 / 8) = g (s.committed.clu (s.cur / 4 / 8)) ∧ u.mem = s.committed.mem ∧
      u.ctx s.cur = (s.committed.ctx s.cur).retired ∧ ∀ w, w ≠ s.cur → u.ctx w = s.committed.ctx w :=
  array_completes hs (by rw [hi, directTile_held hc ht, hn, hf])

/-- The state that the elements of MACCWR make, in a firing of one context. -/
theorem maccwr_writes (a : VSrc) (b : Src) (t : Nat) (m : MReg) {s : State} {w : Nat} (hg : (s.ctx w).gang = false) :
    ((s.members w).foldl (fun s x =>
      let c := s.ctx x
      s.onClu (cluOf (coreOf w)) (fun k => k.putGroup c t (groupBase (c.src b) c.gidx) m (c.vsrc 32 a) (List.range 16))) s) =
      s.onClu (w / 4 / 8) (fun k =>
        k.putGroup (s.ctx w) t (groupBase ((s.ctx w).src b) (s.ctx w).gidx) m ((s.ctx w).vsrc 32 a) (List.range 16)) := by
  rw [State.members, hg]; rfl

/-- A merge of lanes that raise no flag raises none. -/
theorem mergeLanes_unflagged (w : Nat) (mask : Word) (old : VWord) (f : Nat → Nat) (hw : 8 ≤ w) :
    (mergeLanes w mask old (fun i => (f i, 0))).2 = 0 := by
  obtain ⟨-, hflags⟩ := mergeLanes_spec w mask old (fun i => (f i, 0)) hw
  refine Nat.eq_of_testBit_eq fun k => ?_
  rw [Nat.zero_testBit, Bool.eq_false_iff]
  intro h
  obtain ⟨i, -, -, hi⟩ := (hflags k).1 h
  rw [Nat.zero_testBit] at hi
  cases hi

theorem maccrd_completes (k : TTy) (d : VDst) (b : Src) (n : Fin 16) (m : MReg) {s : State} (ht : s.tileTrap s.cur n.val = none) :
    Completes (.maccrd k d b n m) s (fun c e => ∃ v : VWord, e = { vectors := c.vwrites d v } ∧ ∀ i < 16, elem 32 i v =
      if elemOn (c.mask m) 32 i then (s.clu (s.cur / 4 / 8)).tileAt n.val
        ((c.src b).toNat % 128 * 128 + 16 * (((c.src b).toNat / 2 ^ 7 % 8 + c.gidx) % 8) + i) % 2 ^ 32
      else elem 32 i (c.vold d)) := by
  refine eachCtx_completes s _ (fun c => c.vmerge_gang d _ _ _) _ _ (by rw [exec_maccrd, execMaccrd, ht]) fun c => ?_
  refine ⟨_, ⟨(mergeLanes 32 (c.mask m) (c.vold d)
    (fun i => ((s.clu (cluOf (coreOf s.cur))).tileAt n.val (groupBase (c.src b) c.gidx + i), 0))).1, rfl, fun i hi => ?_⟩, ?_⟩
  · rw [(mergeLanes_spec 32 _ _ _ (by norm_num)).1 i hi, groupBase_eq]; rfl
  · have h := c.vmerge_on d 32 m (fun i => ((s.clu (cluOf (coreOf s.cur))).tileAt n.val (groupBase (c.src b) c.gidx + i), 0))
    rwa [mergeLanes_unflagged _ _ _ _ (by norm_num)] at h

/-- Settles O43, form by form. -/
theorem matrixDirectForms : Obligations.MatrixDirectForms := by
  refine ⟨fun d a b clr s hs hc => ?_, fun a b s hs hc hk hn => ?_, fun a b ty rm act sen ben sh s r hs hc hk hr ha hb => ?_,
    fun i n s m hi hc ht hm => ⟨tileWrite_busy hi hc ht hm, fun hp => ?_⟩, fun n s hs hc ht hn => ?_,
    fun k a b n m s hs hc ht hn => ?_, fun k d b n m s ht => maccrd_completes k d b n m ht⟩
  · intro p c k q askT askP others newT newP many
    have hT (i : Nat) : i ∈ maskList 16 (c.src a).toNat ↔ askT i := mem_maskList
    have hP (i : Nat) : i ∈ maskList 4 (c.src b).toNat ↔ askP i := mem_maskList
    have hothers : k.taken c.key (maskList 16 (c.src a).toNat) (maskList 4 (c.src b).toNat) ↔ others := by
      simp only [Cluster.taken, hT, hP, others]
    have hnewT : newItems k.tileOwn c.key (maskList 16 (c.src a).toNat) = newT := newItems_maskList ..
    have hnewP : newItems k.pairOwn c.key (maskList 4 (c.src b).toNat) = newP := newItems_maskList ..
    have hstatus (hk : c.kind = .actor) := mlease_status (s := p) (w := s.cur) (c.src a) (c.src b) clr hk
    refine ⟨_, (p.mleaseDo s.cur (c.src a) (c.src b) clr).1, mlease_completes d a b clr hs hc, ?_, fun w hw => ?_,
      fun hk => ?_, fun hk ho => ?_, fun hk ho hm => ?_, fun hk hom => ?_, fun hk ho hm => ?_⟩
    · rw [State.after_ctx, if_pos rfl, mleaseDo_ctx]; exact Ctx.dst_on ..
    · rw [State.after_ctx, if_neg hw, mleaseDo_ctx]
    · rw [mleaseDo_other _ _ _ _ _ hk]; exact ⟨rfl, rfl⟩
    all_goals
      obtain ⟨htaken, hmany, hgiven⟩ := hstatus hk
      rw [hnewT, hnewP] at hmany
    · exact (htaken (hothers.2 ho)).1
    · exact (hmany (mt hothers.1 ho) hm).1
    · have hsame : k.SameItems ((p.mleaseDo s.cur (c.src a) (c.src b) clr).2.clu (s.cur / 4 / 8)) := by
        by_cases ho : others
        · exact (htaken (hothers.2 ho)).2
        · exact (hmany (mt hothers.1 ho) (hom.resolve_left ho)).2
      exact ⟨hsame.tileOwn, hsame.pairOwn⟩
    · obtain ⟨hv, hsame⟩ := hgiven (mt hothers.1 ho) (by rw [hnewT, hnewP]; exact hm)
      obtain ⟨hgivenT, hgivenP, hkept, hzero, htag⟩ := give_spec hsame
      rw [hnewT] at hzero
      rw [hnewP] at htag
      exact ⟨hv, fun i hi => hgivenT i ((hT i).2 hi), fun i hi => hgivenP i ((hP i).2 hi),
        fun i hi => hkept i (mt (hT i).1 hi), hzero, htag⟩
  · obtain ⟨v, hv, hctx, htile, hpair⟩ := mfree_frees hc hk hn
    obtain ⟨t, ht, hclu, -, hcur, hother⟩ := finish_committed hs hctx
    obtain ⟨htiles, hpairs⟩ := (s.committed.clu (s.cur / 4 / 8)).free_owners _ _
    exact ⟨t, hv.trans ht, hcur, hother, fun i => by rw [hclu, htile, htiles], fun i => by rw [hclu, hpair, hpairs]⟩
  · obtain ⟨t, ht, hclu, hmem, hcur, hother⟩ :=
      array_completes hs (mcfg_writes (ty := ty) (rm := rm) (act := act) (sen := sen) (ben := ben) (sh := sh) hc hk hr ha hb)
    have hrec (n : Nat) := (congrArg (fun k => FMap.find k.mrecs n) hclu).trans (FMap.find_set ..)
    refine ⟨t, _, ht, (hrec _).trans (if_pos rfl), rfl, rfl, rfl, rfl, rfl, rfl, rfl, rfl, rfl,
      fun n hn => (hrec n).trans (if_neg hn), hmem, hcur, hother⟩
  · have hcom : s.committed = s.publish s.cur := if_neg (by rw [hp]; simp)
    rw [hcom]; exact s.publish_done1 s.cur
  · obtain ⟨t, he, hclu, hmem, hcur, hother⟩ := tileWrite_completes (exec_mzero n s) hs hc ht hn rfl
    refine ⟨t, he, fun i => ?_, fun j hj i => ?_, hmem, hcur, hother⟩
    · rw [hclu, tileAt_erase, if_pos rfl]
    · rw [hclu, tileAt_erase, if_neg hj]
  · obtain ⟨t, he, hclu, hmem, hcur, hother⟩ := tileWrite_completes (exec_maccwr k a b n m s) hs hc ht hn
      (maccwr_writes a b n.val m (committed_gang hs))
    have hat := Cluster.tileAt_putGroup (s.committed.ctx s.cur) n.val
      (groupBase ((s.committed.ctx s.cur).src b) (s.committed.ctx s.cur).gidx) m ((s.committed.ctx s.cur).vsrc 32 a) (List.range 16)
      (s.committed.clu (s.cur / 4 / 8))
    rw [← hclu, groupBase_eq] at hat
    refine ⟨t, he, fun i hi => ?_, fun j i hout => ?_, hmem, hcur, hother⟩
    · rw [hat, Nat.add_sub_cancel_left]
      simp [hi]
    · rw [hat, if_neg]
      rintro ⟨hj, hle, hmem, -⟩
      have := List.mem_range.1 hmem
      exact hout ⟨hj, hle, by omega⟩

end Sys2Proof.Machine

/-! ## MLOADW, MSWAP, MSTREAM and MEPI (O44) -/

namespace Sys2Proof.Machine

theorem exec_mloadw (p : Fin 4) (a b : Src) (s : State) : exec (.mloadw p a b) s = execMloadw p a b s := rfl
theorem exec_mswap (p : Fin 4) (s : State) : exec (.mswap p) s = execMswap p s := rfl
theorem exec_mstream (t : Fin 16) (p : Fin 4) (a b : Src) (row0 n1 : Fin 128) (sat : Bool) (s : State) :
    exec (.mstream t p a b row0 n1 sat) s = execMstream t p a b row0 n1 sat s := rfl
theorem exec_mepi (k : MKind) (g : Bool) (t : Fin 16) (a b : Src) (row0 n1 ncol1 : Fin 128) (s : State) :
    exec (.mepi k g t a b row0 n1 ncol1) s = execMepi k g t a b row0 n1 ncol1 s := rfl

/-! ### What entering the inbox does (R149, R154, R155) -/

/-- The firing of context `w` asks its array for the lease, for the command `op`. -/
def State.asksLease (u : State) (w : Nat) (op : MOp) : State :=
  let k := u.clu (w / 4 / 8)
  (u.setClu (w / 4 / 8) { k with leaseReq := k.leaseReq ++ [(w, k.cmdWatts op)] }).onCtx w (fun c => { c with phase := .lease })

/-- The command that an inbox takes for `op`. -/
def State.command (p : State) (w tag : Nat) (op : MOp) : MCmd :=
  { uid := p.uid, tag := tag, op := op, org := p.origin w, ran := false, flags := 0, tFence := (p.ctx w).tFence }

/-- The command `op` is in the inbox. -/
def State.withCommand (p : State) (w tag : Nat) (op : MOp) : State :=
  let k := p.clu (w / 4 / 8)
  let left := k.leaseLeft - 1
  let k' := { k with
    inbox := k.inbox ++ [p.command w tag op], mtag := (k.mtag + 1) % 65536, leaseLeft := left, holder := if left = 0 then none else k.holder }
  ((p.setClu (w / 4 / 8) k').onCtx w (fun c => { c with ocTl := c.ocTl + 1 })).fresh

theorem enqueue_asks {u : State} {w : Nat} (op : MOp) (h : (u.clu (w / 4 / 8)).holder ≠ some w) :
    u.enqueue w op = .error (.wait (u.asksLease w op)) := if_pos h

theorem enqueue_waits {u : State} {w : Nat} (op : MOp) (h : (u.clu (w / 4 / 8)).holder = some w)
    (hfull : 64 ≤ (u.clu (w / 4 / 8)).inbox.length ∨ 255 ≤ (u.ctx w).ocTl) : u.enqueue w op = .error (.wait u) :=
  (if_neg (not_not.2 h)).trans (if_pos hfull)

theorem enqueue_enters {u p : State} {w : Nat} (op : MOp) (h : (u.clu (w / 4 / 8)).holder = some w)
    (hin : (u.clu (w / 4 / 8)).inbox.length < 64) (htl : (u.ctx w).ocTl < 255) (hc : u.commit w = .ok p) :
    u.enqueue w op = .ok (p.withCommand w (u.clu (w / 4 / 8)).mtag op) := by
  have hfull : ¬ (64 ≤ (u.clu (w / 4 / 8)).inbox.length ∨ 255 ≤ (u.ctx w).ocTl) := by omega
  refine (if_neg (not_not.2 h)).trans ((if_neg hfull).trans ?_)
  rw [hc]; rfl

theorem State.asksLease_ctx (u : State) (w : Nat) (op : MOp) : (u.asksLease w op).ctx w = { u.ctx w with phase := .lease } := by
  rw [State.asksLease, State.onCtx_ctx, if_pos rfl]; rfl

theorem State.asksLease_leaseReq (u : State) (w : Nat) (op : MOp) : ((u.asksLease w op).clu (w / 4 / 8)).leaseReq =
    (u.clu (w / 4 / 8)).leaseReq ++ [(w, (u.clu (w / 4 / 8)).cmdWatts op)] := by
  rw [State.asksLease, State.onCtx_clu, State.setClu_clu, if_pos rfl]

theorem State.withCommand_ctx (p : State) (w tag : Nat) (op : MOp) (j : Nat) :
    (p.withCommand w tag op).ctx j = if j = w then { p.ctx w with ocTl := (p.ctx w).ocTl + 1 } else p.ctx j := by
  rw [State.withCommand, State.fresh_ctx, State.onCtx_ctx]; rfl

theorem State.withCommand_inbox (p : State) (w tag : Nat) (op : MOp) : ((p.withCommand w tag op).clu (w / 4 / 8)).inbox =
    (p.clu (w / 4 / 8)).inbox ++ [p.command w tag op] := by
  rw [State.withCommand, State.fresh_clu, State.onCtx_clu, State.setClu_clu, if_pos rfl]

/-! ### The forms reach the inbox -/

theorem strideTrap_none {a b : Word} (ha : a.toNat % 16 = 0) (hb : b.toNat % 16 = 0) : strideTrap a b = none := by
  rw [strideTrap, if_neg (not_not.2 ha), if_neg (not_not.2 hb)]

/-- The rows of MSTREAM are 16 bytes for each bit of an element (R162). -/
theorem rowBytes_stream (w : Nat) : rowBytes w 128 = 16 * w := by rw [rowBytes, ceilDiv]; omega

theorem strideOr_stream (v w : Nat) : strideOr v (16 * w) = if v = 0 then 16 * w else v := by
  have h : roundUp (16 * w) 16 = 16 * w := by rw [roundUp]; omega
  rw [strideOr, h]

theorem mloadw_enqueues {s u : State} {p : Fin 4} {a b : Src} {op : MOp} (h : arrayAsk s u s.cur (.mloadw p a b) op) :
    exec (.mloadw p a b) s = finish s (u.enqueue s.cur op) := by
  obtain ⟨bf, n, len, st, rfl, hpair, ha, hb, hbank, hrows, hbad, rfl⟩ := h
  simp only [exec_mloadw, execMloadw, once, hpair, strideTrap_none ha hb, hbank, hrows, hbad]
  rfl

theorem mswap_enqueues {s u : State} {p : Fin 4} {op : MOp} (h : arrayAsk s u s.cur (.mswap p) op) :
    exec (.mswap p) s = finish s (u.enqueue s.cur op) := by
  obtain ⟨rfl, hpair, rfl⟩ := h
  simp only [exec_mswap, execMswap, once, hpair]
  rfl

theorem mstream_enqueues {s u : State} {t : Fin 16} {p : Fin 4} {a b : Src} {row0 n1 : Fin 128} {sat : Bool} {op : MOp}
    (h : arrayAsk s u s.cur (.mstream t p a b row0 n1 sat) op) :
    exec (.mstream t p a b row0 n1 sat) s = finish s (u.enqueue s.cur op) := by
  obtain ⟨bf, rfl, htile, hpair, ha, hb, hbank, hbad, rfl⟩ := h
  simp only [exec_mstream, execMstream, once, htile, hpair, strideTrap_none ha hb, hbank, rowBytes_stream, strideOr_stream, hbad]
  rfl

theorem mepi_enqueues {s u : State} {k : MKind} {g : Bool} {t : Fin 16} {a b : Src} {row0 n1 ncol1 : Fin 128} {op : MOp}
    (h : arrayAsk s u s.cur (.mepi k g t a b row0 n1 ncol1) op) :
    exec (.mepi k g t a b row0 n1 ncol1) s = finish s (u.enqueue s.cur op) := by
  obtain ⟨htile, ha, hb, hvec, hbad, hlocal, hglobal⟩ := h
  have hfind : (FMap.get {} (s.clu (s.cur / 4 / 8)).mrecs (s.ctx s.cur).key).vectors.find? (fun v => decide (v % 16 ≠ 0)) = none := by
    rw [List.find?_eq_none]
    exact fun v hv => by simp [hvec v hv]
  have hnone : ((FMap.get {} (s.clu (s.cur / 4 / 8)).mrecs (s.ctx s.cur).key).vectors.map
      (fun v => (v, s.rowsBad s.cur v false [(v, (ncol1.val + 1) * vecBytes k)]))).filterMap (fun v => v.2) = [] := by
    rw [List.filterMap_map, List.filterMap_eq_nil_iff]
    exact fun v hv => hbad v hv
  cases g with
  | false =>
    obtain ⟨bf, st, rfl, hepi, rfl⟩ := hlocal rfl
    simp only [exec_mepi, execMepi, once, htile, strideTrap_none ha hb, coreOf, cluOf, hfind, hepi, hnone]
    rfl
  | true =>
    obtain ⟨st, sp, rfl, hleaves, hspans, rfl⟩ := hglobal rfl
    have hrange := State.rangesTrap_none hspans
    simp only [exec_mepi, execMepi, once, htile, strideTrap_none ha hb, coreOf, cluOf, hfind, if_true, hnone, hrange, hleaves, hspans]
    rfl

theorem Looked.leavesOf {w : Nat} {acc : Access} (l : List Range) : ∀ {s u : State}, s.leavesOf w acc l = .ok u → Looked w s u := by
  induction l with
  | nil => intro s u h; cases h; exact .refl ..
  | cons r l ih =>
    obtain ⟨va, n⟩ := r
    intro s u h
    simp only [State.leavesOf] at h
    split at h
    · exact ih h
    · split at h
      · cases h
      · next hl => exact (Looked.leaves acc va _ hl).trans (ih h)

/-- The state in which a matrix command is asked for is the given one, but for translations. -/
theorem arrayAsk_looked {s u : State} {w : Nat} {i : Instr} {op : MOp} (h : arrayAsk s u w i op) : Looked w s u := by
  cases i with
  | mloadw p a b => obtain ⟨_, _, _, _, rfl, -⟩ := h; exact .refl ..
  | mswap p => obtain ⟨rfl, -⟩ := h; exact .refl ..
  | mstream t p a b row0 n1 sat => obtain ⟨_, rfl, -⟩ := h; exact .refl ..
  | mepi k g t a b row0 n1 ncol1 =>
    obtain ⟨-, -, -, -, -, hlocal, hglobal⟩ := h
    cases g with
    | false => obtain ⟨_, _, rfl, -⟩ := hlocal rfl; exact .refl ..
    | true => obtain ⟨_, _, _, hleaves, -⟩ := hglobal rfl; exact Looked.leavesOf _ hleaves
  | _ => exact h.elim

theorem arrayAsk_enqueues {s u : State} {i : Instr} {op : MOp} (h : arrayAsk s u s.cur i op) :
    exec i s = finish s (u.enqueue s.cur op) := by
  cases i with
  | mloadw p a b => exact mloadw_enqueues h
  | mswap p => exact mswap_enqueues h
  | mstream t p a b row0 n1 sat => exact mstream_enqueues h
  | mepi k g t a b row0 n1 ncol1 => exact mepi_enqueues h
  | _ => exact h.elim

/-- Settles O44: every form reaches the inbox with its command, and the inbox answers. -/
theorem matrixCommands : Obligations.MatrixCommands := by
  intro i op s u hs hask k
  have hexec := arrayAsk_enqueues hask
  have hlook := arrayAsk_looked hask
  have hu : u.single := by
    obtain ⟨x, hx⟩ := hlook.ctx
    rw [State.single, hlook.cur, hx]; exact hs
  refine ⟨fun hno => ?_, fun hyes hfull => ?_, fun hyes hin htl hc => ?_⟩
  · rw [enqueue_asks op hno] at hexec
    exact ⟨_, hexec, u.asksLease_ctx s.cur op, u.asksLease_leaseReq s.cur op, rfl⟩
  · rw [enqueue_waits op hyes hfull] at hexec
    exact hexec
  · intro p
    have hcommit : u.commit s.cur = .ok p := hlook.cur ▸ State.commit_eq hc
    have hgang : ((p.withCommand s.cur k.mtag op).ctx s.cur).gang = false := by
      rw [State.withCommand_ctx, if_pos rfl]
      exact hlook.cur ▸ committed_gang hu
    rw [enqueue_enters op hyes hin htl hcommit, finish_single hgang] at hexec
    have hctx (j : Nat) := ((p.withCommand s.cur k.mtag op).after_ctx s.cur id j)
    refine ⟨_, p.command s.cur k.mtag op, hexec, p.withCommand_inbox s.cur k.mtag op, rfl, rfl, rfl, ?_, rfl, ?_, ?_, fun w hw => ?_⟩
    · rw [hctx, if_pos rfl, State.withCommand_ctx, if_pos rfl]; rfl
    · rw [hctx, if_pos rfl, State.withCommand_ctx, if_pos rfl]; rfl
    · rw [hctx, if_pos rfl, State.withCommand_ctx, if_pos rfl]; rfl
    · rw [hctx, if_neg hw, State.withCommand_ctx, if_neg hw]

end Sys2Proof.Machine

/-! ## What the writes of an epilogue leave of the tiles (R163, R165) -/

namespace Sys2Proof.Machine

/-- The tiles of every array are as they were. -/
structure State.TilesKept (s t : State) : Prop where
  tiles : ∀ cl, (t.clu cl).tiles = (s.clu cl).tiles

namespace State.TilesKept

variable {s t u : State}

theorem refl (s : State) : s.TilesKept s := ⟨fun _ => rfl⟩
theorem trans (h : s.TilesKept t) (k : t.TilesKept u) : s.TilesKept u :=
  ⟨fun cl => (k.tiles cl).trans (h.tiles cl)⟩
theorem of_clus (h : t.clus = s.clus) : s.TilesKept t := ⟨fun cl => by rw [State.clu, State.clu, h]⟩

theorem of_wrote (h : s.Wrote t) : s.TilesKept t := by
  refine ⟨fun cl => ?_⟩
  obtain ⟨_, _, _, hcl⟩ := h.clu cl
  rw [hcl]

theorem onClu (s : State) (cl : Nat) (f : Cluster → Cluster) (h : (f (s.clu cl)).tiles = (s.clu cl).tiles) : s.TilesKept (s.onClu cl f) := by
  refine ⟨fun j => ?_⟩
  rw [State.onClu_clu]
  split
  · next hj => rw [hj]; exact h
  · rfl

theorem landNotice (s : State) (r : LandRec) (sl : Bool) (u i e : Nat) : s.TilesKept (s.landNotice r sl u i e) := of_clus rfl
theorem clearPoison (s : State) (pa : Nat) : s.TilesKept (s.clearPoison pa) := of_clus rfl

theorem sliceOverruns (cl : Nat) (l : List Nat) : ∀ s : State, s.TilesKept (s.sliceOverruns cl l) := by
  induction l with
  | nil => exact refl
  | cons i l ih =>
    intro s
    rw [State.sliceOverruns]
    exact .trans (landNotice ..) (ih _)

theorem coreOverruns (gc : Nat) (l : List Nat) : ∀ s : State, s.TilesKept (s.coreOverruns gc l) := by
  induction l with
  | nil => exact refl
  | cons i l ih =>
    intro s
    rw [State.coreOverruns]
    exact .trans (landNotice ..) (ih _)

theorem portWrite (s : State) (r : PortReq) (src gc a : Nat) (bs : List Byte) (eng : Bool) :
    s.TilesKept (s.portWrite r src gc a bs eng) := by
  have hw : s.Wrote ((((s.wrBytes (localPA gc a) bs).heal (localPA gc a) bs.length).grant gc a bs.length r).trace gc a bs.length src eng) :=
    (((Wrote.wrBytes s _ bs).trans (.heal ..)).trans (Like.grant ..).wrote).trans (.trace ..)
  exact ((of_wrote hw).trans (of_clus (State.onCore_clus ..))).trans (coreOverruns ..)

theorem dropSlice (s : State) (home line : Nat) : s.TilesKept (s.dropSlice home line) := by
  rw [State.dropSlice]
  exact onClu _ _ _ rfl

theorem atHome (s : State) (home line cls : Nat) (pol : Policy) (write : Bool) : s.TilesKept (s.atHome home line cls pol write) := by
  simp only [State.atHome]
  split
  · exact of_wrote (Like.touchSlice ..).wrote
  · split
    · exact (of_wrote (Like.invalidate ..).wrote).trans (dropSlice ..)
    · exact refl s

theorem countHome (s : State) (home pa n : Nat) : s.TilesKept (s.countHome home pa n) := (onClu s _ _ rfl).trans (sliceOverruns ..)

theorem writeCells (home : Nat) (l : List (Nat × List Byte)) : ∀ s : State, s.TilesKept (s.writeCells home l).1 := by
  induction l with
  | nil => exact refl
  | cons x l ih =>
    intro s
    simp only [State.writeCells]
    split
    · exact ih s
    · exact ((of_wrote (Wrote.wrBytes ..)).trans (countHome ..)).trans (ih _)

theorem devWrite (s : State) (r : PortReq) (src pa hb cls : Nat) (pol : Policy) (bs : List Byte) :
    s.TilesKept (s.devWrite r src pa hb cls pol bs).1 := by
  simp only [State.devWrite]
  split
  · exact portWrite ..
  · have hhome := (of_wrote (Like.invalidate s (homeOf pa hb) (pa / 64) none).wrote).trans
      (atHome _ (homeOf pa hb) (pa / 64) (effClass cls pol) pol true)
    split
    · exact (hhome.trans (clearPoison ..)).trans (writeCells ..)
    · exact hhome.trans (writeCells ..)

theorem flush (r : PortReq) (src : Nat) (pol : Policy) (s : State) (run : List (Nat × Nat × Nat × Nat × Byte)) (skip : Option Nat) :
    s.TilesKept (State.writeSpans.flush r src pol s run skip).1 := by
  simp only [State.writeSpans.flush]
  split
  · exact refl s
  · exact devWrite ..

theorem writeGo (r : PortReq) (src part : Nat) (pol : Policy) (sp : List Span) (bs : List Byte) : ∀ (s : State) (i : Nat)
    (run : List (Nat × Nat × Nat × Nat × Byte)) (skip : Option Nat) (n k : Nat),
    s.TilesKept (State.writeSpans.go r src part pol sp s i run bs skip n k).s := by
  induction bs with
  | nil => exact fun s i run skip n k => flush ..
  | cons b bs ih =>
    intro s i run skip n k
    simp only [State.writeSpans.go]
    split
    · exact flush ..
    · split
      · exact flush ..
      · split
        · exact ih ..
        · split
          · exact ih ..
          · exact (flush ..).trans (ih ..)

theorem writeSpans (s : State) (r : PortReq) (src part : Nat) (pol : Policy) (sp : List Span) (i : Nat) (bs : List Byte) :
    s.TilesKept (s.writeSpans r src part pol sp i bs).s := writeGo ..

theorem lateFault (s : State) (o : Origin) (past : Bool) (t : Trap) (pc : Nat) : s.TilesKept (s.lateFault o past t pc) := by
  simp only [State.lateFault, State.faultNotice]
  split <;> exact of_clus rfl

theorem imprecise (s : State) (o : Origin) (code detail : Nat) (va : Word) : s.TilesKept (s.imprecise o code detail va).1 := by
  simp only [State.imprecise]
  split <;> exact of_clus rfl

theorem blame (s : State) (o : Origin) (code detail : Nat) (va : Word) : s.TilesKept (s.blame o code detail va) := by
  simp only [State.blame]
  split
  · exact imprecise ..
  · exact lateFault ..

theorem engineFault (s : State) (o : Origin) (op fn cause : Nat) (va : Word) : s.TilesKept (s.engineFault o op fn cause va) := by
  simp only [State.engineFault]
  split
  · exact imprecise ..
  · exact lateFault ..

theorem epiWrite (m : MCmd) (l : List (List Span × List Byte)) : ∀ s : State, s.TilesKept (s.epiWrite m l) := by
  induction l with
  | nil => exact refl
  | cons x l ih =>
    obtain ⟨sp, bs⟩ := x
    intro s
    simp only [State.epiWrite]
    have hspans := writeSpans s reqTile (coreOf m.org.w) m.org.part .dflt sp 0 bs
    generalize s.writeSpans reqTile (coreOf m.org.w) m.org.part .dflt sp 0 bs = r at hspans ⊢
    have hskip : r.s.TilesKept (match r.skip with | some va => r.s.blame m.org 0x13 0 (BitVec.ofNat 64 va) | none => r.s) := by
      split
      · exact blame ..
      · exact refl _
    split
    · exact (hspans.trans hskip).trans (engineFault ..)
    · exact (hspans.trans hskip).trans (ih _)

end State.TilesKept

end Sys2Proof.Machine

/-! ## The events of the array (O45) -/

namespace Sys2Proof.Machine

theorem exec_leaseGrant (s : State) : exec .leaseGrant s = execLeaseGrant s := rfl
theorem exec_mloadwRun (s : State) : exec .mloadwRun s = execMloadwRun s := rfl
theorem exec_mswapRun (s : State) : exec .mswapRun s = execMswapRun s := rfl
theorem exec_mstreamRun (s : State) : exec .mstreamRun s = execMstreamRun s := rfl
theorem exec_mepiRun (s : State) : exec .mepiRun s = execMepiRun s := rfl
theorem exec_arrayCommandComplete (s : State) : exec .arrayCommandComplete s = execArrayCommandComplete s := rfl
theorem exec_epilogueStallFence (s : State) : exec .epilogueStallFence s = execEpilogueStallFence s := rfl

/-- LEASE_GRANT gives the lease to the oldest request whose leave is held. -/
theorem leaseGrant_gives {s : State} {w watts : Nat} {r : List (Nat × Nat)} (hfree : (s.clu s.sel).holder = none)
    (hreq : (s.clu s.sel).leaseReq = (w, watts) :: r) (hle : watts ≤ (s.clu s.sel).leave) :
    exec .leaseGrant s = .next ((s.setClu s.sel { s.clu s.sel with
      leaseReq := r, holder := some w, leaseLeft := if (s.clu s.sel).leaseQ = 0 then 1024 else (s.clu s.sel).leaseQ }).onCtx w
        (fun c => { c with phase := if c.phase = .lease then Phase.running else c.phase })) := by
  simp only [exec_leaseGrant, execLeaseGrant, hfree, hreq, if_neg (Nat.not_lt.2 hle)]

/-! ### A command that runs (R154, R407) -/

theorem Cluster.ranCmd_ran (k : Cluster) (uid fl : Nat) : ∀ x ∈ (k.ranCmd uid fl).inbox, x.uid = uid → x.ran = true := by
  intro x hx hu
  obtain ⟨y, -, rfl⟩ := List.mem_map.1 hx
  by_cases h : y.uid = uid
  · rw [if_pos h]
  · rw [if_neg h] at hu
    exact absurd hu h

@[simp] theorem Cluster.ranCmd_planes (k : Cluster) (uid fl : Nat) : (k.ranCmd uid fl).planes = k.planes := rfl
@[simp] theorem Cluster.ranCmd_psel (k : Cluster) (uid fl : Nat) : (k.ranCmd uid fl).psel = k.psel := rfl
@[simp] theorem Cluster.ranCmd_tiles (k : Cluster) (uid fl : Nat) : (k.ranCmd uid fl).tiles = k.tiles := rfl
@[simp] theorem Cluster.ranCmd_tagOf (k : Cluster) (uid fl : Nat) : (k.ranCmd uid fl).tagOf = k.tagOf := rfl
@[simp] theorem Cluster.ranCmd_tileAt (k : Cluster) (uid fl : Nat) : (k.ranCmd uid fl).tileAt = k.tileAt := rfl
@[simp] theorem Cluster.ranCmd_activePlane (k : Cluster) (uid fl : Nat) : (k.ranCmd uid fl).activePlane = k.activePlane := rfl

/-- The next command runs with what it does, once leave for it is held: its array is `k` then, but for the inbox. -/
theorem State.runCmd_runs {s v : State} {cl fl : Nat} {m : MCmd} {f : MCmd → Option (State × Nat)} {k : Cluster}
    {mem : List Host.Cell} (hm : s.readyCmd cl = some m) (hle : (s.clu cl).cmdWatts m.op ≤ (s.clu cl).leave) (hv : v.clu cl = k)
    (hmem : v.mem = mem) (hf : f m = some (v, fl)) :
    ∃ t, s.runCmd cl f = .next t ∧ (∀ x ∈ (t.clu cl).inbox, x.uid = m.uid → x.ran = true) ∧
      t.clu cl = k.ranCmd m.uid fl ∧ t.mem = mem := by
  have hclu : (v.onClu cl (fun k => k.ranCmd m.uid fl)).clu cl = k.ranCmd m.uid fl := by rw [State.onClu_clu, if_pos rfl, hv]
  refine ⟨v.onClu cl (fun k => k.ranCmd m.uid fl), ?_, ?_, hclu, hmem⟩
  · simp only [State.runCmd, hm, hf, if_neg (Nat.not_lt.2 hle)]
  · rw [hclu]
    exact Cluster.ranCmd_ran _ _ _

/-! ### MLOADW (R161) -/

/-- A table of the indices below `n` that a function gives a value. -/
theorem FMap.get_filterMap_range {α : Type} (d : α) {f : Nat → Option (Nat × α)} (hf : ∀ i p, f i = some p → p.1 = i) (n i : Nat) :
    FMap.get d ((List.range n).filterMap f) i = if i < n then ((f i).map Prod.snd).getD d else d := by
  induction n with
  | zero => rfl
  | succ n ih =>
    rw [List.range_succ, List.filterMap_append]
    by_cases hi : i = n
    · subst hi
      rw [FMap.get_append, if_pos (Nat.lt_succ_self i)]
      · rcases hp : f i with _ | ⟨k, v⟩
        · simp [hp, FMap.get]
        · have hk : k = i := hf i _ hp
          simp [hp, FMap.get, hk]
      · intro p hp
        obtain ⟨k, hk, he⟩ := List.mem_filterMap.1 hp
        rw [hf k p he]
        exact (List.mem_range.1 hk).ne
    · rw [FMap.get_append_left, ih]
      · exact if_congr (by omega) rfl rfl
      · intro p hp
        obtain ⟨k, hk, he⟩ := List.mem_filterMap.1 hp
        rw [hf k p he, List.mem_singleton.1 hk]
        exact fun h => hi h.symm

/-- Element (x, j) of the block that an MLOADW decodes (R161). -/
theorem State.weightBlock_get (s : State) (gc src stride : Nat) (t : Ty) (order : Nat) {x j : Nat} (hx : x < 128) (hj : j < 128) :
    FMap.get 0 (s.weightBlock gc src stride t order) (128 * x + j) =
      if j < colsOf t then s.bitsAt gc src (loadwBit t order stride x j) t.width else 0 := by
  have hdiv : (128 * x + j) / 128 = x := by omega
  have hmod : (128 * x + j) % 128 = j := by omega
  rw [State.weightBlock, FMap.get_filterMap_range, if_pos (by omega), hdiv, hmod]
  · by_cases hc : j < colsOf t
    · by_cases h0 : s.bitsAt gc src (loadwBit t order stride x j) t.width = 0 <;> simp [hc, h0]
    · simp [hc]
  · intro i p hp
    dsimp only at hp
    split at hp
    · cases hp; rfl
    · cases hp

/-- The shadow plane of a pair holds a block, under a tag. -/
def Cluster.loaded (k : Cluster) (p : Nat) (blk : FMap Nat) (tag : Ty × Int) : Cluster :=
  { k with planes := FMap.put [] k.planes (k.shadowPlane p) blk, ptag := FMap.set k.ptag (k.shadowPlane p) tag }

theorem Cluster.loaded_plane (k : Cluster) (p : Nat) (blk : FMap Nat) (tag : Ty × Int) (n : Nat) :
    FMap.get [] (k.loaded p blk tag).planes n = if n = k.shadowPlane p then blk else FMap.get [] k.planes n := FMap.get_put ..

theorem Cluster.loaded_tag (k : Cluster) (p : Nat) (blk : FMap Nat) (tag : Ty × Int) (n : Nat) :
    (k.loaded p blk tag).tagOf n = if n = k.shadowPlane p then tag else k.tagOf n := FMap.get_set ..

theorem Cluster.loaded_psel (k : Cluster) (p : Nat) (blk : FMap Nat) (tag : Ty × Int) : (k.loaded p blk tag).psel = k.psel := rfl
theorem Cluster.loaded_tiles (k : Cluster) (p : Nat) (blk : FMap Nat) (tag : Ty × Int) : (k.loaded p blk tag).tiles = k.tiles := rfl

theorem mloadw_runs {s : State} {m : MCmd} {p src stride : Nat} {b : BankFmt} (hm : s.readyCmd s.sel = some m)
    (hle : (s.clu s.sel).cmdWatts m.op ≤ (s.clu s.sel).leave) (hop : m.op = .loadw p src stride b) :
    ∃ t, exec .mloadwRun s = .next t ∧ (∀ x ∈ (t.clu s.sel).inbox, x.uid = m.uid → x.ran = true) ∧
      t.clu s.sel = ((s.clu s.sel).loaded p (s.weightBlock (m.org.w / 4) src stride (b.fmt.getD .i8) b.order)
        (b.fmt.getD .i8, b.shift)).ranCmd m.uid 0 ∧ t.mem = s.mem := by
  rw [exec_mloadwRun, execMloadwRun]
  exact State.runCmd_runs (v := s.onClu s.sel (fun k => k.loaded p _ _)) hm hle (by rw [State.onClu_clu, if_pos rfl]) rfl (by rw [hop]; rfl)

/-- The planes of a pair are swapped. -/
def Cluster.swapped (k : Cluster) (p : Nat) : Cluster := { k with psel := FMap.put false k.psel p (!FMap.get false k.psel p) }

theorem Cluster.swapped_activePlane (k : Cluster) (p n : Nat) :
    (k.swapped p).activePlane n = if n = p then k.shadowPlane p else k.activePlane n := by
  simp only [Cluster.swapped, Cluster.activePlane, Cluster.shadowPlane, FMap.get_put]
  by_cases h : n = p
  · subst h
    cases FMap.get false k.psel n <;> simp
  · simp [h]

theorem mswap_runs {s : State} {m : MCmd} {p : Nat} (hm : s.readyCmd s.sel = some m)
    (hle : (s.clu s.sel).cmdWatts m.op ≤ (s.clu s.sel).leave) (hop : m.op = .swap p) :
    ∃ t, exec .mswapRun s = .next t ∧ (∀ x ∈ (t.clu s.sel).inbox, x.uid = m.uid → x.ran = true) ∧
      t.clu s.sel = ((s.clu s.sel).swapped p).ranCmd m.uid 0 ∧ t.mem = s.mem := by
  rw [exec_mswapRun, execMswapRun]
  exact State.runCmd_runs (v := s.onClu s.sel (fun k => k.swapped p)) hm hle (by rw [State.onClu_clu, if_pos rfl]) rfl (by rw [hop]; rfl)

/-! ### MSTREAM (R162) -/

/-- The last of the elements of a row that column `j` accumulates in. -/
def AccKind.last : AccKind → Nat → Nat
  | .f64, j => 2 * j + 1
  | _, j => j

/-- The array differs from `k` in its tiles alone. -/
def Cluster.TilesOnly (k l : Cluster) : Prop := ∃ ts, l = { k with tiles := ts }

theorem Cluster.TilesOnly.trans {k l m : Cluster} (h : k.TilesOnly l) (i : l.TilesOnly m) : k.TilesOnly m := by
  obtain ⟨_, rfl⟩ := h
  obtain ⟨_, rfl⟩ := i
  exact ⟨_, rfl⟩

theorem Cluster.setTile_tilesOnly (c : Cluster) (t i v : Nat) : c.TilesOnly (c.setTile t i v) := ⟨_, rfl⟩

theorem Cluster.accOne_tilesOnly (c : Cluster) (k : AccKind) (sat : Bool) (t row j : Nat) (xs ws : List FV) :
    c.TilesOnly (c.accOne k sat t row j xs ws).1 := by
  cases k with
  | f64 => exact (c.setTile_tilesOnly ..).trans (Cluster.setTile_tilesOnly ..)
  | i32 => exact c.setTile_tilesOnly ..
  | f32 w => exact c.setTile_tilesOnly ..

theorem Cluster.accRow_tilesOnly (k : AccKind) (sat : Bool) (t row : Nat) (xs : List FV) (l : List (Nat × List FV)) :
    ∀ (c : Cluster) (fl : Nat), c.TilesOnly (c.accRow k sat t row xs l fl).1 := by
  induction l with
  | nil => exact fun c fl => ⟨_, rfl⟩
  | cons x l ih => exact fun c fl => (c.accOne_tilesOnly ..).trans (ih _ _)

theorem Cluster.accRows_tilesOnly (k : AccKind) (sat : Bool) (t : Nat) (cols l : List (Nat × List FV)) :
    ∀ (c : Cluster) (fl : Nat), c.TilesOnly (c.accRows k sat t cols l fl).1 := by
  induction l with
  | nil => exact fun c fl => ⟨_, rfl⟩
  | cons x l ih => exact fun c fl => (Cluster.accRow_tilesOnly ..).trans (ih _ _)

/-- One accumulation leaves what lies outside its row. -/
theorem Cluster.accOne_outside (c : Cluster) {k : AccKind} (sat : Bool) {t row j : Nat} (xs ws : List FV) (hj : k.last j < 128) {x e : Nat}
    (h : x ≠ t ∨ ¬ (128 * row ≤ e ∧ e < 128 * row + 128)) : (c.accOne k sat t row j xs ws).1.tileAt x e = c.tileAt x e := by
  have hne (i : Nat) (hi : i < 128) : ¬ (x = t ∧ e = 128 * row + i) := by omega
  cases k with
  | f64 =>
    simp only [AccKind.last] at hj
    simp only [Cluster.accOne, Cluster.tileAt_setTile]
    have hlow : ¬ (x = t ∧ e = 128 * row + 2 * j) := by omega
    have hhigh : ¬ (x = t ∧ e = 128 * row + 2 * j + 1) := by omega
    rw [if_neg hhigh, if_neg hlow]
  | i32 => simp only [Cluster.accOne, Cluster.tileAt_setTile]; rw [if_neg (hne j hj)]
  | f32 w => simp only [Cluster.accOne, Cluster.tileAt_setTile]; rw [if_neg (hne j hj)]

theorem Cluster.accRow_outside {k : AccKind} (sat : Bool) {t row : Nat} (xs : List FV) {x e : Nat}
    (h : x ≠ t ∨ ¬ (128 * row ≤ e ∧ e < 128 * row + 128)) (l : List (Nat × List FV)) :
    ∀ (c : Cluster) (fl : Nat), (∀ p ∈ l, k.last p.1 < 128) → (c.accRow k sat t row xs l fl).1.tileAt x e = c.tileAt x e := by
  induction l with
  | nil => exact fun _ _ _ => rfl
  | cons p l ih =>
    intro c fl hl
    obtain ⟨hp, hl⟩ := List.forall_mem_cons.1 hl
    exact (ih _ _ hl).trans (c.accOne_outside sat xs p.2 hp h)

theorem Cluster.accRows_outside {k : AccKind} (sat : Bool) {t : Nat} {cols : List (Nat × List FV)} (hcols : ∀ p ∈ cols, k.last p.1 < 128)
    {x e : Nat} (l : List (Nat × List FV)) : ∀ (c : Cluster) (fl : Nat),
    (∀ r ∈ l, x ≠ t ∨ ¬ (128 * r.1 ≤ e ∧ e < 128 * r.1 + 128)) → (c.accRows k sat t cols l fl).1.tileAt x e = c.tileAt x e := by
  induction l with
  | nil => exact fun _ _ _ => rfl
  | cons r l ih =>
    intro c fl hl
    obtain ⟨hr, hl⟩ := List.forall_mem_cons.1 hl
    exact (ih _ _ hl).trans (Cluster.accRow_outside sat r.2 hr cols c fl hcols)

/-- Outside FP64, one accumulation changes one element. -/
theorem Cluster.accOne_element (c : Cluster) {k : AccKind} (hk : k ≠ .f64) (sat : Bool) (t row j : Nat) (xs ws : List FV) (x e : Nat) :
    (c.accOne k sat t row j xs ws).1.tileAt x e = if x = t ∧ e = 128 * row + j
      then (accumulate k sat (c.tileAt t (128 * row + j)) (List.zipWith termMul xs ws)).1 % 2 ^ 32 else c.tileAt x e := by
  cases k with
  | f64 => exact absurd rfl hk
  | i32 => exact c.tileAt_setTile ..
  | f32 w => exact c.tileAt_setTile ..

/-- Outside FP64, the columns of a row that are not named keep their elements. -/
theorem Cluster.accRow_other {k : AccKind} (hk : k ≠ .f64) (sat : Bool) {t row : Nat} (xs : List FV) {j : Nat} (l : List (Nat × List FV)) :
    ∀ (c : Cluster) (fl : Nat), j ∉ l.map Prod.fst →
    (c.accRow k sat t row xs l fl).1.tileAt t (128 * row + j) = c.tileAt t (128 * row + j) := by
  induction l with
  | nil => exact fun _ _ _ => rfl
  | cons p l ih =>
    intro c fl hj
    obtain ⟨hp, hl⟩ := not_or.1 (mt List.mem_cons.2 hj)
    refine (ih _ _ hl).trans ((c.accOne_element hk ..).trans (if_neg ?_))
    rintro ⟨-, he⟩
    exact hp (Nat.add_left_cancel he)

/-- Outside FP64, each named column of a row accumulates once, from the element as it was. -/
theorem Cluster.accRow_column {k : AccKind} (hk : k ≠ .f64) (sat : Bool) {t row : Nat} (xs : List FV) {j : Nat} {ws : List FV}
    (l : List (Nat × List FV)) : ∀ (c : Cluster) (fl : Nat), (l.map Prod.fst).Nodup → (j, ws) ∈ l →
    (c.accRow k sat t row xs l fl).1.tileAt t (128 * row + j) =
      (accumulate k sat (c.tileAt t (128 * row + j)) (List.zipWith termMul xs ws)).1 % 2 ^ 32 := by
  induction l with
  | nil => exact fun _ _ _ h => absurd h List.not_mem_nil
  | cons p l ih =>
    intro c fl hnd hmem
    obtain ⟨hp, hnd⟩ := List.nodup_cons.1 hnd
    rcases List.mem_cons.1 hmem with rfl | hmem
    · exact (Cluster.accRow_other hk sat xs l _ _ hp).trans ((c.accOne_element hk ..).trans (if_pos ⟨rfl, rfl⟩))
    · have hne : j ≠ p.1 := fun h => hp (h ▸ List.mem_map.2 ⟨_, hmem, rfl⟩)
      refine (ih _ _ hnd hmem).trans ?_
      rw [c.accOne_element hk, if_neg]
      rintro ⟨-, he⟩
      exact hne (Nat.add_left_cancel he)

/-- Outside FP64, each element of the named rows and columns accumulates once, from the element as it was. -/
theorem Cluster.accRows_element {k : AccKind} (hk : k ≠ .f64) (sat : Bool) {t : Nat} {cols : List (Nat × List FV)}
    (hcols : ∀ p ∈ cols, p.1 < 128) (hnd : (cols.map Prod.fst).Nodup) {j row : Nat} {ws xs : List FV} (hj : (j, ws) ∈ cols)
    (l : List (Nat × List FV)) : ∀ (c : Cluster) (fl : Nat), (l.map Prod.fst).Nodup → (row, xs) ∈ l →
    (c.accRows k sat t cols l fl).1.tileAt t (128 * row + j) =
      (accumulate k sat (c.tileAt t (128 * row + j)) (List.zipWith termMul xs ws)).1 % 2 ^ 32 := by
  have hlast (p : Nat × List FV) (hp : p ∈ cols) : k.last p.1 < 128 := by
    cases k with
    | f64 => exact absurd rfl hk
    | i32 => exact hcols p hp
    | f32 w => exact hcols p hp
  have hj128 : j < 128 := hcols _ hj
  induction l with
  | nil => exact fun _ _ _ h => absurd h List.not_mem_nil
  | cons r l ih =>
    intro c fl hrows hmem
    obtain ⟨hr, hrows⟩ := List.nodup_cons.1 hrows
    rcases List.mem_cons.1 hmem with rfl | hmem
    · refine (Cluster.accRows_outside sat hlast l _ _ fun y hy => ?_).trans (Cluster.accRow_column hk sat xs cols c fl hnd hj)
      have : y.1 ≠ row := fun h => hr (h ▸ List.mem_map.2 ⟨_, hy, rfl⟩)
      omega
    · have hne : row ≠ r.1 := fun h => hr (h ▸ List.mem_map.2 ⟨_, hmem, rfl⟩)
      refine (ih _ _ hrows hmem).trans ?_
      rw [Cluster.accRow_outside sat r.2 (by omega) cols c fl hlast]

theorem colsOf_le (t : Ty) : colsOf t ≤ 128 := by
  unfold colsOf
  split
  · exact le_rfl
  · split <;> norm_num

/-- The columns of an MSTREAM fit their row. -/
theorem accKind_last {a : Ty} {sa : Int} {b : Ty} {sb : Int} {j : Nat} (hj : j < colsOf b) : (accKind a sa b sb).last j < 128 := by
  unfold accKind
  split
  · next h =>
    rw [h.2] at hj
    have : colsOf .f64 = 32 := rfl
    simp only [AccKind.last]
    omega
  · have := colsOf_le b
    split <;> simp only [AccKind.last] <;> omega

/-- The array that an MSTREAM leaves. -/
def Cluster.streamed (c : Cluster) (s : State) (gc t p src stride row0 n : Nat) (sat : Bool) (b : BankFmt) : Cluster × Nat :=
  let pl := c.activePlane p
  c.accRows (accKind (b.fmt.getD .i8) b.shift (c.tagOf pl).1 (c.tagOf pl).2) sat t
    ((List.range (colsOf (c.tagOf pl).1)).map (fun j => (j, c.weightCol pl j)))
    ((List.range n).map (fun q => (row0 + q, s.actRow gc (src + q * stride) (b.fmt.getD .i8) b.shift))) 0

theorem mstream_runs {s : State} {m : MCmd} {t p src stride row0 n : Nat} {sat : Bool} {b : BankFmt} (hm : s.readyCmd s.sel = some m)
    (hle : (s.clu s.sel).cmdWatts m.op ≤ (s.clu s.sel).leave) (hop : m.op = .stream t p src stride row0 n sat b)
    (hramp : (s.die (s.sel / 32)).work + n * 128 * colsOf ((s.clu s.sel).tagOf ((s.clu s.sel).activePlane p)).1 ≤
      (s.die (s.sel / 32)).last + windowPeak / 8) :
    ∃ v, exec .mstreamRun s = .next v ∧ (∀ x ∈ (v.clu s.sel).inbox, x.uid = m.uid → x.ran = true) ∧
      v.clu s.sel = ((s.clu s.sel).streamed s (m.org.w / 4) t p src stride row0 n sat b).1.ranCmd m.uid
        ((s.clu s.sel).streamed s (m.org.w / 4) t p src stride row0 n sat b).2 ∧ v.mem = s.mem := by
  have hmacs (k : AccKind) (c : Nat) : streamMacs k n c = n * 128 * c := by cases k <;> rfl
  rw [exec_mstreamRun, execMstreamRun]
  exact State.runCmd_runs
    (v := (s.setClu s.sel ((s.clu s.sel).streamed s (m.org.w / 4) t p src stride row0 n sat b).1).onDie (s.sel / 32)
      (fun x => { x with work := x.work + n * 128 * colsOf ((s.clu s.sel).tagOf ((s.clu s.sel).activePlane p)).1 }))
    hm hle (by rw [State.onDie_clu, State.setClu_clu, if_pos rfl]) rfl (by
      rw [hop]
      simp only [dieOfClu, hmacs, if_neg (Nat.not_lt.2 hramp)]
      rfl)

theorem Cluster.streamed_element (c : Cluster) (s : State) (gc t p src stride row0 : Nat) {n : Nat} (sat : Bool) (b : BankFmt) {q j : Nat}
    (hq : q < n) (hj : j < colsOf (c.tagOf (c.activePlane p)).1)
    (hk : accKind (b.fmt.getD .i8) b.shift (c.tagOf (c.activePlane p)).1 (c.tagOf (c.activePlane p)).2 ≠ .f64) :
    (c.streamed s gc t p src stride row0 n sat b).1.tileAt t (128 * (row0 + q) + j) =
      (accumulate (accKind (b.fmt.getD .i8) b.shift (c.tagOf (c.activePlane p)).1 (c.tagOf (c.activePlane p)).2) sat
        (c.tileAt t (128 * (row0 + q) + j)) (List.zipWith termMul (s.actRow gc (src + q * stride) (b.fmt.getD .i8) b.shift)
          (c.weightCol (c.activePlane p) j))).1 % 2 ^ 32 := by
  refine Cluster.accRows_element hk sat (fun x hx => ?_) ?_ (List.mem_map.2 ⟨j, List.mem_range.2 hj, rfl⟩) _ c 0 ?_
    (List.mem_map.2 ⟨q, List.mem_range.2 hq, rfl⟩)
  · obtain ⟨i, hi, rfl⟩ := List.mem_map.1 hx
    exact (List.mem_range.1 hi).trans_le (colsOf_le _)
  · rw [List.map_map]
    exact List.nodup_range.map fun _ _ h => h
  · rw [List.map_map]
    exact List.nodup_range.map fun _ _ h => Nat.add_left_cancel h

theorem Cluster.streamed_outside (c : Cluster) (s : State) (gc t p src stride row0 n : Nat) (sat : Bool) (b : BankFmt) {x e : Nat}
    (h : x ≠ t ∨ ∀ q < n, ¬ (128 * (row0 + q) ≤ e ∧ e < 128 * (row0 + q) + 128)) :
    (c.streamed s gc t p src stride row0 n sat b).1.tileAt x e = c.tileAt x e := by
  refine Cluster.accRows_outside sat (fun y hy => ?_) _ c 0 fun y hy => ?_
  · obtain ⟨i, hi, rfl⟩ := List.mem_map.1 hy
    exact accKind_last (List.mem_range.1 hi)
  · obtain ⟨q, hq, rfl⟩ := List.mem_map.1 hy
    exact h.imp_right fun h => h q (List.mem_range.1 hq)

/-! ### MEPI (R163 to R165) -/

/-- The stall timer starts over. -/
def Cluster.unstalled (k : Cluster) : Cluster := { k with stallT := 0 }

theorem mepi_runs {s : State} {m : MCmd} {kd : MKind} {g : Bool} {t dst stride row0 n nc : Nat} {cfg : MRec} {bank : Option BankFmt}
    {sp : List (List Span)} (hm : s.readyCmd s.sel = some m) (hle : (s.clu s.sel).cmdWatts m.op ≤ (s.clu s.sel).leave)
    (hop : m.op = .epi kd g t dst stride row0 n nc cfg bank sp) :
    let rows := (List.range n).map (fun q => s.epiRow s.sel (m.org.w / 4) kd t (row0 + q) nc cfg bank)
    ∃ v, exec .mepiRun s = .next v ∧ (∀ x ∈ (v.clu s.sel).inbox, x.uid = m.uid → x.ran = true) ∧
      v.clu s.sel = ((s.epiWrite m ((m.op.epiRows (m.org.w / 4)).zip (rows.map (fun r => r.1)))).clu s.sel).unstalled.ranCmd m.uid
        (rows.foldl (fun a r => orFlags a r.2) 0) ∧
      v.mem = (s.epiWrite m ((m.op.epiRows (m.org.w / 4)).zip (rows.map (fun r => r.1)))).mem := by
  intro rows
  rw [exec_mepiRun, execMepiRun]
  exact State.runCmd_runs
    (v := (s.epiWrite m ((m.op.epiRows (m.org.w / 4)).zip (rows.map (fun r => r.1)))).onClu s.sel Cluster.unstalled)
    hm hle (by rw [State.onClu_clu, if_pos rfl]) rfl (by rw [hop]; rfl)

/-! ### Completion and the fence of a stalled epilogue (R154, R158, R170) -/

theorem arrayCommand_completes {s : State} {m : MCmd} {r : List MCmd} (hin : (s.clu s.sel).inbox = m :: r) (hran : m.ran = true) :
    exec .arrayCommandComplete s = .next ((s.setClu s.sel { s.clu s.sel with
      inbox := r
      mrecs := match FMap.find (s.clu s.sel).mrecs m.key with
        | some x => FMap.set (s.clu s.sel).mrecs m.key { x with flags := orFlags x.flags m.flags }
        | none => (s.clu s.sel).mrecs
      leaveIdle := if r = [] then s.now else (s.clu s.sel).leaveIdle }).onCtx m.org.w
        (fun c => if c.fid = m.org.fid ∧ c.kind ≠ .none then { c with ocTl := c.ocTl - 1 } else c)) := by
  simp only [exec_arrayCommandComplete, execArrayCommandComplete, hin, hran]
  rfl

/-- A stalled epilogue is out of the inbox, and its tile is zero. -/
def State.epilogueDropped (s : State) (m : MCmd) (t : Nat) : State :=
  (s.onClu s.sel (fun k =>
    let r := k.inbox.filter (fun x => decide (x.uid ≠ m.uid))
    { k with
      inbox := r, leaveIdle := if r = [] then s.now else k.leaveIdle, tiles := FMap.erase k.tiles t, zeroT := t :: k.zeroT
      stallT := 0 })).onCtx m.org.w (fun c => if c.fid = m.org.fid ∧ c.kind ≠ .none then { c with ocTl := c.ocTl - 1 } else c)

theorem epilogue_dropped {s : State} {m : MCmd} {kd : MKind} {g : Bool} {t dst stride row0 n nc : Nat} {cfg : MRec} {bank : Option BankFmt}
    {sp : List (List Span)} (hm : s.readyCmd s.sel = some m) (hop : m.op = .epi kd g t dst stride row0 n nc cfg bank sp)
    (hstall : m.tFence ≤ (s.clu s.sel).stallT) (hfirst : s.fenceFirst (m.org.w / 4) = true) :
    exec .epilogueStallFence s = .next (((s.epilogueDropped m t).coreFence (m.org.w / 4)).lateFault m.org true
      { code := 0x26, cls := 3, detail := t + m.tag * 2 ^ 16, va := BitVec.ofNat 64 dst } 0) := by
  have hdue : ¬ (decide ((s.clu s.sel).stallT < m.tFence) || !s.fenceFirst (coreOf m.org.w)) = true := by
    rw [coreOf, hfirst, decide_eq_false (Nat.not_lt.2 hstall)]
    exact Bool.false_ne_true
  simp only [exec_epilogueStallFence, execEpilogueStallFence, hm, hop, MOp.tile?, if_neg hdue]
  rfl

theorem State.epilogueDropped_clu (s : State) (m : MCmd) (t : Nat) :
    ((s.epilogueDropped m t).clu s.sel).inbox = (s.clu s.sel).inbox.filter (fun x => decide (x.uid ≠ m.uid)) ∧
      (∀ i, ((s.epilogueDropped m t).clu s.sel).tileAt t i = 0) ∧ t ∈ ((s.epilogueDropped m t).clu s.sel).zeroT := by
  rw [State.epilogueDropped, State.onCtx_clu, State.onClu_clu, if_pos rfl]
  exact ⟨rfl, fun i => (tileAt_erase ..).trans (if_pos rfl), List.mem_cons_self⟩

/-- Settles O45, event by event. -/
theorem arrayEvents : Obligations.ArrayEvents := by
  refine ⟨fun s w watts r => ?_, fun s m hm hle => ?_, fun s m r hin hran => ?_,
    fun s m kd g t dst stride row0 n nc cfg bank sp hm hop hstall hfirst => ?_⟩
  · intro k hfree hreq hle
    refine ⟨_, leaseGrant_gives hfree hreq hle, ?_, ?_, ?_, fun hphase => ?_, rfl⟩
    · rw [State.onCtx_clu, State.setClu_clu, if_pos rfl]
    · rw [State.onCtx_clu, State.setClu_clu, if_pos rfl]
    · rw [State.onCtx_clu, State.setClu_clu, if_pos rfl]
    · rw [State.onCtx_ctx, if_pos rfl, State.setClu_ctx, if_pos hphase]
  · intro k gc ran
    refine ⟨fun p src stride b hop => ?_, fun p hop => ?_, fun t p src stride row0 n sat b hop => ?_,
      fun kd g t dst stride row0 n nc cfg bank sp hop => ?_⟩
    · obtain ⟨t, ht, hran, hclu, hmem⟩ := mloadw_runs hm hle hop
      refine ⟨t, ht, hran, ?_, fun x j hx hj => ?_, fun i hi => ⟨?_, ?_⟩, 
        by rw [hclu, Cluster.ranCmd_psel, Cluster.loaded_psel], by rw [hclu, Cluster.ranCmd_tiles, Cluster.loaded_tiles], hmem⟩
      · rw [hclu, Cluster.ranCmd_tagOf, Cluster.loaded_tag, if_pos rfl]
      · rw [hclu, Cluster.ranCmd_planes, Cluster.loaded_plane, if_pos rfl, State.weightBlock_get _ _ _ _ _ _ hx hj]
      · rw [hclu, Cluster.ranCmd_planes, Cluster.loaded_plane, if_neg hi]
      · rw [hclu, Cluster.ranCmd_tagOf, Cluster.loaded_tag, if_neg hi]
    · obtain ⟨t, ht, hran, hclu, hmem⟩ := mswap_runs hm hle hop
      refine ⟨t, ht, hran, ?_, fun i hi => ?_, by rw [hclu]; rfl, hmem⟩
      · rw [hclu, Cluster.ranCmd_activePlane, Cluster.swapped_activePlane, if_pos rfl]
      · rw [hclu, Cluster.ranCmd_activePlane, Cluster.swapped_activePlane, if_neg hi]
    · intro ta pl kind cols hramp
      obtain ⟨v, hv, hran, hclu, hmem⟩ := mstream_runs hm hle hop hramp
      obtain ⟨ts, hts⟩ : k.TilesOnly (k.streamed s gc t p src stride row0 n sat b).1 := Cluster.accRows_tilesOnly ..
      refine ⟨v, hv, hran, hmem, ?_, fun q hq j hj hk => ?_, fun x e hout => ?_⟩
      · rw [hclu, Cluster.ranCmd_planes, hts]
      · rw [hclu, Cluster.ranCmd_tileAt]
        exact k.streamed_element s gc t p src stride row0 sat b hq hj hk
      · rw [hclu, Cluster.ranCmd_tileAt]
        exact k.streamed_outside s gc t p src stride row0 n sat b hout
    · intro rows
      obtain ⟨v, hv, hran, hclu, hmem⟩ := mepi_runs hm hle hop
      exact ⟨v, hv, hran, hmem, (congrArg Cluster.tiles hclu).trans ((State.TilesKept.epiWrite ..).tiles s.sel)⟩
  · refine ⟨_, arrayCommand_completes hin hran, ?_, rfl, fun x hx => ?_, fun hfid hkind => ?_, fun w hw => ?_⟩
    · rw [State.onCtx_clu, State.setClu_clu, if_pos rfl]
    · refine ⟨{ x with flags := orFlags x.flags m.flags }, ?_, rfl, rfl⟩
      rw [State.onCtx_clu, State.setClu_clu, if_pos rfl]
      simp only [hx]
      exact (FMap.find_set ..).trans (if_pos rfl)
    · rw [State.onCtx_ctx, if_pos rfl, State.setClu_ctx, if_pos ⟨hfid, hkind⟩]
    · rw [State.onCtx_ctx, if_neg hw, State.setClu_ctx]
  · obtain ⟨hinbox, htile, hzero⟩ := s.epilogueDropped_clu m t
    refine ⟨s.epilogueDropped m t, fun x hx => ?_, htile, hzero, rfl, rfl, epilogue_dropped hm hop hstall hfirst⟩
    rw [hinbox] at hx
    exact of_decide_eq_true (List.mem_filter.1 hx).2

end Sys2Proof.Machine

/-! ## Leave, the ramp limiter and the forecast (R407 to R409) -/

namespace Sys2Proof.Machine

theorem exec_leaveGrant (s : State) : exec .leaveGrant s = execLeaveGrant s := rfl
theorem exec_leaveRelease (s : State) : exec .leaveRelease s = execLeaveRelease s := rfl
theorem exec_overheatReport (s : State) : exec .overheatReport s = execOverheatReport s := rfl
theorem exec_overheatClear (s : State) : exec .overheatClear s = execOverheatClear s := rfl
theorem exec_rampWindow (s : State) : exec .rampWindow s = execRampWindow s := rfl
theorem exec_powerForecastRead (s : State) : exec .powerForecastRead s = execPowerForecastRead s := rfl

/-- The die of a grant: the request is out of the queue, and charged what its holder has not yet. -/
def State.charged (s : State) (name watts : Nat) (r : List (Nat × Nat)) : State :=
  s.onDie s.sel (fun x => { x with fifo := r, leave := x.leave + (watts - s.leaveOf name) })

/-- LEAVE_GRANT grants the oldest request that fits: to an array, or to the engine command of that name. -/
theorem leaveGrant_grants {s : State} {name watts : Nat} {r : List (Nat × Nat)} (hreq : (s.die s.sel).fifo = (name, watts) :: r)
    (hcold : (s.mod (s.sel / 8)).hot = false) (hfits : (s.die s.sel).leave + (watts - s.leaveOf name) ≤ 600) :
    exec .leaveGrant s = if name < 2 ^ 32 then
      .next ((s.charged name watts r).onClu name (fun k => { k with leave := max k.leave watts, leaveIdle := s.now }))
    else .next { s.charged name watts r with
      engines := s.engines.map (fun e => if cmdName e.uid = name then { e with granted := true } else e) } := by
  have hfree : ¬ ((s.mod (modOfDie s.sel)).hot = true ∨ 600 < (s.die s.sel).leave + (watts - s.leaveOf name)) := by
    rw [modOfDie, hcold]
    rintro (h | h)
    · cases h
    · omega
  rw [exec_leaveGrant, execLeaveGrant, hreq]
  exact if_neg hfree

theorem State.charged_die (s : State) (name watts : Nat) (r : List (Nat × Nat)) : (s.charged name watts r).die s.sel =
    { s.die s.sel with fifo := r, leave := (s.die s.sel).leave + (watts - s.leaveOf name) } := by
  rw [State.charged, State.onDie_die, if_pos rfl]

theorem granted_named {es : List EngCmd} {name : Nat} :
    ∀ e ∈ es.map (fun e => if cmdName e.uid = name then { e with granted := true } else e), cmdName e.uid = name → e.granted = true := by
  intro e he hn
  obtain ⟨x, -, rfl⟩ := List.mem_map.1 he
  by_cases h : cmdName x.uid = name
  · rw [if_pos h]
  · rw [if_neg h] at hn
    exact absurd hn h

theorem leaveRelease_releases {s : State} (hleave : (s.clu s.sel).leave ≠ 0) (hin : (s.clu s.sel).inbox = [])
    (hidle : (s.clu s.sel).leaveIdle + 4000 ≤ s.now) :
    exec .leaveRelease s = .next ((s.setClu s.sel { s.clu s.sel with leave := 0 }).onDie (s.sel / 32)
      (fun x => { x with leave := x.leave - (s.clu s.sel).leave })) := by
  have h : ¬ ((s.clu s.sel).leave = 0 ∨ (s.clu s.sel).inbox ≠ [] ∨ s.now < (s.clu s.sel).leaveIdle + 4000) := by
    rintro (h | h | h)
    · exact hleave h
    · exact h hin
    · omega
  rw [exec_leaveRelease, execLeaveRelease]
  exact if_neg h

/-- The die after a window of the ramp limiter (R408). -/
def Die.windowed (x : Die) (now : Nat) : Die :=
  let low := x.last - windowPeak / 8
  let dummy := decide (x.work < low) && decide (x.dummy < 2)
  { x with last := if dummy then low else x.work, work := 0, dummy := if dummy then x.dummy + 1 else 0, winAt := now }

theorem rampWindow_ends {s : State} (h : (s.die s.sel).winAt + 4000 ≤ s.now) :
    exec .rampWindow s = .next (s.setDie s.sel ((s.die s.sel).windowed s.now)) := by
  rw [exec_rampWindow, execRampWindow]
  exact if_neg (Nat.not_lt.2 h)

/-- The activity falls by no more than P / 8 in a window, unless two windows ran dummies before. -/
theorem Die.windowed_last (x : Die) (now : Nat) : x.last ≤ (x.windowed now).last + windowPeak / 8 ∨ 2 ≤ x.dummy := by
  simp only [Die.windowed]
  generalize windowPeak / 8 = p
  by_cases hw : x.work < x.last - p
  · by_cases hd : x.dummy < 2
    · simp only [hw, hd, decide_true, Bool.and_self, if_true]
      omega
    · exact .inr (Nat.not_lt.1 hd)
  · simp only [hw, decide_false, Bool.false_and, Bool.false_eq_true, if_false]
    omega

/-- A running sum over a range is the sum of its terms. -/
theorem foldl_add_eq_sum (f : Nat → Nat) (n : Nat) : (List.range n).foldl (fun a i => a + f i) 0 = ((List.range n).map f).sum := by
  rw [List.sum_eq_foldl, List.foldl_map]

theorem powerForecast_reads {s : State} (h : (s.die s.sel).fcAt + 256 ≤ s.now) :
    exec .powerForecastRead s = .next (s.setDie s.sel { s.die s.sel with
      fcAt := s.now, fcast := ((List.range 256).map (fun i => (s.core (s.sel * 256 + i)).fcst)).sum }) := by
  rw [exec_powerForecastRead, execPowerForecastRead, foldl_add_eq_sum]
  exact if_neg (Nat.not_lt.2 h)

end Sys2Proof.Machine

/-! ## The control words of a slice (R150, R187, R343, R344) -/

namespace Sys2Proof.Machine

theorem exec_leaseQuotaWrite (c : Nat) (v : Word) (s : State) : exec (.leaseQuotaWrite c v) s = .next (s.writeLeaseQ c v.toNat) := rfl
theorem exec_coreConfigWrite (c : Nat) (v : Word) (s : State) : exec (.coreConfigWrite c v) s = .next (s.writeCfg c v.toNat) := rfl
theorem exec_controlRegisterWrite (x : CtlWrite) (s : State) :
    exec (.controlRegisterWrite x) s = .next (s.writeCtl x.cluster (x.offset / 8 * 8) x.value.toNat) := rfl

theorem exec_liftQuotaWrite {p : Nat} (hp : p < 64) (c : Nat) (v : Word) (s : State) :
    exec (.liftQuotaWrite c p v) s = .next (s.writeQuota c p v.toNat) := if_neg (Nat.not_le.2 hp)

theorem exec_spillDescWrite {p : Nat} (hp : p < 64) (c j : Nat) (v : Word) (s : State) :
    exec (.spillDescWrite c p j v) s = .next (s.writeSpill c p j v.toNat) := if_neg (Nat.not_le.2 hp)

theorem State.writeCfg_frame (s : State) (g v : Nat) : s.writeCfg g v = { s with cores := (s.writeCfg g v).cores } := by
  simp only [State.writeCfg]
  split <;> rfl

theorem State.writeCfg_floor (s : State) (g v : Nat) : ((s.writeCfg g v).core g).sbfloor =
    if 8 ≤ v % 16 ∧ v % 16 ≤ 14 ∧ (s.core g).userResident = false then v % 16 else (s.core g).sbfloor := by
  simp only [State.writeCfg]
  split
  · rw [State.onCore_core, if_pos rfl]
  · rfl

/-! ### Lift-line quotas (R343) -/

/-- A slice whose quota of partition `p` is `q`. -/
def Cluster.withQuota (k : Cluster) (p q : Nat) : Cluster := { k with quota := FMap.put 2 k.quota p q }

theorem State.writeQuota_quota (s : State) (c p v : Nat) : ((s.writeQuota c p v).clu c).quota =
    if ((s.clu c).withQuota p (max 2 (v % 8192))).quotaSum ≤ 4096 then FMap.put 2 (s.clu c).quota p (max 2 (v % 8192))
    else (s.clu c).quota := by
  rw [State.writeQuota, State.onClu_clu, if_pos rfl]
  exact apply_ite Cluster.quota ..

/-- A sum in which one term is set rises by no more than the term. -/
theorem sum_update_le (f : Nat → Nat) (p q n : Nat) :
    ((List.range n).map (fun i => if i = p then q else f i)).sum ≤ ((List.range n).map f).sum + if p < n then q else 0 := by
  induction n with
  | zero => simp
  | succ n ih =>
    simp only [List.range_succ, List.map_append, List.sum_append, List.map_singleton, List.sum_singleton]
    split at ih <;> split <;> split <;> omega

/-- A new quota adds no more than itself to the sum. -/
theorem Cluster.quotaSum_withQuota (k : Cluster) (p q : Nat) : (k.withQuota p q).quotaSum ≤ k.quotaSum + q := by
  have hset : (List.range 64).map (fun i => FMap.get 2 (k.withQuota p q).quota i) =
      (List.range 64).map (fun i => if i = p then q else FMap.get 2 k.quota i) := List.map_congr_left fun i _ => FMap.get_put ..
  have hle := sum_update_le (FMap.get 2 k.quota) p q 64
  rw [Cluster.quotaSum, Cluster.quotaSum, foldl_add_eq_sum, foldl_add_eq_sum, hset]
  split at hle <;> omega

/-! ### Spill descriptions (R344) -/

theorem State.writeSpill_base (s : State) (c p : Nat) (v : Word) :
    (FMap.get {} ((s.writeSpill c p 0 v.toNat).clu c).spill p) = { FMap.get {} (s.clu c).spill p with
      v := v.getLsbD 63
      base := if (FMap.get {} (s.clu c).spill p).live = 0 then v.toNat / 2 ^ 6 % 2 ^ 46 * 64 else (FMap.get {} (s.clu c).spill p).base } := by
  rw [State.writeSpill, State.onClu_clu, if_pos rfl]
  simp only [FMap.get_set, if_true, bit_eq_testBit, bits, Nat.shiftRight_eq_div_pow]
  rfl

theorem State.writeSpill_size (s : State) (c p : Nat) {j : Nat} (hj : j ≠ 0) (v : Nat) :
    (FMap.get {} ((s.writeSpill c p j v).clu c).spill p).lsz =
      if j = 1 ∧ (FMap.get {} (s.clu c).spill p).live = 0 ∧ 4 ≤ v % 32 ∧ v % 32 ≤ 20 then v % 32
      else (FMap.get {} (s.clu c).spill p).lsz := by
  rw [State.writeSpill, State.onClu_clu, if_pos rfl]
  simp only [FMap.get_set, if_true]
  match j with
  | 0 => exact absurd rfl hj
  | 1 => simp only [true_and]; exact apply_ite SpillDesc.lsz ..
  | j + 2 => exact (if_neg fun h => absurd h.1 (by omega)).symm

/-! ### Writes of a control block (R187) -/

theorem State.writeCtl_frame (s : State) (c off v : Nat) :
    (s.writeCtl c off v).mem = s.mem ∧ (s.writeCtl c off v).ctxs = s.ctxs ∧ (s.writeCtl c off v).net = s.net := by
  unfold State.writeCtl
  split
  · exact ⟨rfl, rfl, rfl⟩
  · split
    · rw [State.writeCfg_frame]; exact ⟨rfl, rfl, rfl⟩
    · split
      · exact ⟨rfl, rfl, rfl⟩
      · split <;> exact ⟨rfl, rfl, rfl⟩

theorem State.writeCtl_leaseQ (s : State) (c v : Nat) {off : Nat} (h : off = 0) :
    s.writeCtl c off v = s.writeLeaseQ c v := if_pos h

/-- A reserved offset is no control word. -/
theorem State.writeCtl_reserved (s : State) (c v : Nat) {off : Nat} (h : 0x20800 ≤ off ∨ (0x2000 ≤ off ∧ off < 0x20000)) :
    s.writeCtl c off v = s := by
  unfold State.writeCtl
  rw [if_neg (by omega), if_neg (by omega), if_neg (by omega), if_neg (by omega)]

end Sys2Proof.Machine

/-! ## Soft errors, and the events of the power manager and the control words (O54) -/

namespace Sys2Proof.Machine

theorem exec_eccError (x : EccSite) (d : Bool) (s : State) : exec (.eccError x d) s = execEccError x d s := rfl

/-! ### Errors that are counted (R379) -/

/-- A counted event reaches each of the counters that select it, once. -/
theorem bump_get (sel cnt : FMap Nat) (code : Nat) {i : Nat} (hi : i < 16) : FMap.get 0 (bump sel cnt code) i =
    if FMap.get 0 sel i = code then (FMap.get 0 cnt i + 1) % 2 ^ 48 else FMap.get 0 cnt i := by
  have h (n : Nat) : FMap.get 0 ((List.range n).foldl (fun m i =>
      if FMap.get 0 sel i = code then FMap.put 0 m i ((FMap.get 0 m i + 1) % 2 ^ 48) else m) cnt) i =
      if i < n ∧ FMap.get 0 sel i = code then (FMap.get 0 cnt i + 1) % 2 ^ 48 else FMap.get 0 cnt i := by
    induction n with
    | zero => rfl
    | succ n ih =>
      rw [List.range_succ, List.foldl_append, List.foldl_cons, List.foldl_nil]
      by_cases hn : i = n
      · subst hn
        rw [if_neg (by omega)] at ih
        by_cases hc : FMap.get 0 sel i = code
        · rw [if_pos hc, FMap.get_put, if_pos rfl, ih, if_pos ⟨Nat.lt_succ_self i, hc⟩]
        · rw [if_neg hc, ih, if_neg fun h => hc h.2]
      · have hlt : (i < n + 1 ∧ FMap.get 0 sel i = code) ↔ (i < n ∧ FMap.get 0 sel i = code) := by omega
        rw [if_congr hlt rfl rfl]
        split
        · rw [FMap.get_put, if_neg hn, ih]
        · exact ih
  rw [bump, h 16]
  exact if_congr (and_iff_right hi) rfl rfl

theorem State.bumpCore_counted (s : State) (g code : Nat) {i : Nat} (hi : i < 16) :
    FMap.get 0 ((s.bumpCore g code).core g).pcount i = (s.core g).counted code i := by
  rw [State.bumpCore, Core.counted, bit_eq_testBit]
  change _ = if (s.core g).sctl.toNat.testBit 3 = true ∧ _ then _ else _
  by_cases he : (s.core g).sctl.toNat.testBit 3 = true
  · rw [if_pos he, State.onCore_core, if_pos rfl]
    exact (bump_get _ _ _ hi).trans (if_congr (and_iff_right he).symm rfl rfl)
  · rw [if_neg he, if_neg fun h => he h.1]

theorem State.bumpSlice_counted (s : State) (g code : Nat) {i : Nat} (hi : i < 16) :
    FMap.get 0 ((s.bumpSlice g code).clu g).pcount i = (s.clu g).counted code i := by
  rw [State.bumpSlice, Cluster.counted]
  by_cases he : (s.clu g).penable = true
  · rw [if_pos he, State.onClu_clu, if_pos rfl]
    exact (bump_get _ _ _ hi).trans (if_congr (and_iff_right he).symm rfl rfl)
  · rw [if_neg he, if_neg fun h => he h.1]

theorem State.bumpSlice_frame (s : State) (g c : Nat) : s.bumpSlice g c = { s with clus := (s.bumpSlice g c).clus } := by
  unfold State.bumpSlice; split <;> rfl

theorem State.bumpCore_core_self (s : State) (g c : Nat) :
    (s.bumpCore g c).core g = { s.core g with pcount := ((s.bumpCore g c).core g).pcount } := by
  obtain ⟨p, hp⟩ := s.bumpCore_core g c g
  rw [hp]

theorem State.bumpCore_core_other (s : State) (g c : Nat) {j : Nat} (hj : j ≠ g) : (s.bumpCore g c).core j = s.core j := by
  unfold State.bumpCore
  split
  · rw [State.onCore_core, if_neg hj]
  · rfl

/-- The places whose corrected errors a core counts. -/
theorem eccError_core {w a : Nat} {x : EccSite} (s : State)
    (hx : x = .scratchCore w a ∨ x = .file w a ∨ x = .logOrSend w ∨ (w / 4 % 8 = 0 ∧ x = .tile (w / 32) a)) :
    exec (.eccError x false) s = .next (s.bumpCore (w / 4) 0x08) := by
  rcases hx with rfl | rfl | rfl | ⟨hw, rfl⟩
  · rfl
  · rfl
  · rfl
  · have hcore : 8 * (w / 32) = w / 4 := by omega
    rw [← hcore]; rfl

theorem eccError_slice {a : Nat} {x : EccSite} (s : State) (hx : x = .slice a ∨ x = .cellMeta a) :
    exec (.eccError x false) s = .next (s.bumpSlice (homeOf a hbPhys) 0x26) := by
  rcases hx with rfl | rfl <;> rfl

/-! ### Cached copies that are dropped -/

theorem Core.dropL1_inL1 (c : Core) (n : Nat) : (c.dropL1 n).inL1 n = false := by
  rw [Core.inL1, Core.dropL1, FMap.get_mapVal _ _ _ _ rfl, List.any_eq_false]
  intro x hx
  have := of_decide_eq_true (List.mem_filter.1 hx).2
  simpa using this

/-! ### Lines that are poisoned (R184, R340) -/

theorem State.Like.poison {s t : State} (h : s.Like t) : t.poison = s.poison := by obtain ⟨_, _, _, rfl⟩ := h.frame; rfl

theorem State.atHome_poison (s : State) (home line cls : Nat) (pol : Policy) (write : Bool) :
    (s.atHome home line cls pol write).poison = s.poison := by
  simp only [State.atHome]
  split
  · exact (State.Like.touchSlice ..).poison
  · split
    · exact (State.onClu_poison ..).trans (State.Like.invalidate ..).poison
    · rfl

theorem State.wrPlain_poison (bs : List Byte) : ∀ (s : State) (pa : Nat), (s.wrPlain pa bs).1.poison = s.poison := by
  induction bs with
  | nil => exact fun _ _ => rfl
  | cons b bs ih =>
    intro s pa
    refine (ih _ _).trans ?_
    split <;> rfl

theorem State.faultNotice_poison (s : State) (gc part : Nat) (patrol eng : Bool) (aid fsyn va pc fmsg w6 w7 : Nat) :
    (s.faultNotice gc part patrol eng aid fsyn va pc fmsg w6 w7).poison = s.poison := by
  simp only [State.faultNotice]
  split <;> rfl

theorem State.ringWrite_poison (s : State) (cl p a : Nat) (ws : Pkt) : (s.ringWrite cl p a ws).poison = s.poison := by
  simp only [State.ringWrite]
  split
  · exact (State.wrPlain_poison ..).trans (State.atHome_poison ..)
  · exact s.faultNotice_poison ..

theorem State.ringClear_poison (s : State) (cl : Nat) (e : LiftEnt) : (s.ringClear cl e).poison = s.poison := by
  simp only [State.ringClear]
  split
  · rfl
  · exact State.ringWrite_poison ..

theorem State.engFinish_poison (s : State) (e : EngCmd) : (s.engFinish e).poison = s.poison := by
  simp only [State.engFinish]
  split <;> rfl

/-- An action that is over with status 0 leaves the poison. -/
theorem State.actionOver_poison (s : State) (u : Nat) : (s.actionOver u 0).poison = s.poison := by
  simp only [State.actionOver, if_true]
  split
  · rfl
  · exact s.engFinish_poison _

theorem State.waiterLost_poison (s : State) (e : LiftEnt) : (s.waiterLost e).poison = s.poison := by
  simp only [State.waiterLost]
  split
  · exact (State.actionOver_poison ..).trans (s.faultNotice_poison ..)
  · exact s.faultNotice_poison ..

theorem State.poisonLine_poison (s : State) (pa : Nat) : (s.poisonLine pa).poison = (s.setPoison pa).poison := by
  simp only [State.poisonLine]
  refine List.foldlRecOn (motive := fun t : State => t.poison = (s.setPoison pa).poison) _ _ rfl fun t ht x _ => ?_
  rw [State.waiterLost_poison, State.onClu_poison, State.ringClear_poison, ht]

theorem State.setPoison_poisoned (s : State) (pa : Nat) : pa / 64 ∈ (s.setPoison pa).poison := by
  unfold State.setPoison
  split
  · next h => exact List.contains_iff_mem.1 h
  · exact List.mem_cons_self

theorem State.poisonLine_poisoned (s : State) (pa : Nat) : (s.poisonLine pa).poisoned pa = true := by
  rw [State.poisoned, State.poisonLine_poison, Bool.or_eq_true]
  exact .inl (List.contains_iff_mem.2 (s.setPoison_poisoned pa))

/-- Where no waiter is parked on the line, poisoning it changes nothing else. -/
theorem State.poisonLine_free {s : State} {pa : Nat} (h : ∀ k ∈ s.clus, ∀ e ∈ k.2.lift, e.cell / 64 ≠ pa / 64) :
    s.poisonLine pa = s.setPoison pa := by
  have hclus : (s.setPoison pa).clus = s.clus := by unfold State.setPoison; split <;> rfl
  have hnone : (s.setPoison pa).clus.flatMap
      (fun x => (x.2.lift.filter (fun e => decide (e.cell / 64 = pa / 64))).map (fun e => (x.1, e))) = [] := by
    rw [hclus, List.flatMap_eq_nil_iff]
    intro k hk
    rw [List.map_eq_nil_iff, List.filter_eq_nil_iff]
    exact fun e he hc => h k hk e he (of_decide_eq_true hc)
  simp only [State.poisonLine, hnone, List.foldl_nil]

theorem State.setPoison_mem (s : State) (pa : Nat) : (s.setPoison pa).mem = s.mem := by
  unfold State.setPoison
  split <;> rfl

/-! ### Words that are marked, and counters that are disarmed (Table 20.3) -/

theorem State.markBad_badWord (s : State) (pa : Nat) : (s.markBad pa).badWord pa = true := by
  change List.contains (if s.badWord pa then s.badWords else pa / 8 :: s.badWords) (pa / 8) = true
  by_cases h : s.badWord pa = true
  · rw [if_pos h]; exact h
  · rw [if_neg h]; exact List.contains_iff_mem.2 List.mem_cons_self

/-- The imprecise fault that an error in what a firing reads is recorded as. -/
theorem eccFault_notes {s : State} {w : Nat} (hk : (s.ctx w).kind ≠ .none) (row : Nat) (va : Word) :
    ∃ f : Imprecise, s.eccFault w row va = .next (s.onCtx w (fun c => { c with imprec := c.imprec ++ [f] })) ∧
      f.code = 0x10 ∧ f.detail = row ∧ f.va = va :=
  ⟨{ code := 0x10, detail := row, va := va, pc := (s.ctx w).pc, icnt := (s.ctx w).icnt
     order := ((s.members (w - 4 * (s.ctx w).gidx)).map (fun m => (s.ctx m).imprec.length)).sum },
   by rw [State.eccFault, if_neg hk, State.note, State.imprecise, if_pos ⟨rfl, hk⟩]; rfl, rfl, rfl, rfl⟩

theorem State.setCtr_ctr (s : State) (id : CtrId) (r : LandRec) : (s.setCtr id r).ctr id = r := by
  simp only [State.setCtr, State.ctr]
  split
  · rw [State.onClu_clu, if_pos rfl]; exact (FMap.get_set ..).trans (if_pos rfl)
  · rw [State.onCore_core, if_pos rfl]; exact (FMap.get_set ..).trans (if_pos rfl)

theorem State.setCtr_mem (s : State) (id : CtrId) (r : LandRec) : (s.setCtr id r).mem = s.mem := by
  simp only [State.setCtr]
  split <;> rfl

/-- A notice that goes to a core's supervisor changes no counter. -/
theorem State.lateNotice_ctr (s : State) (gc part aid : Nat) (eng : Bool) (t : Trap) (pc fmsg : Nat) (id : CtrId) :
    (s.lateNotice gc part aid eng t pc fmsg).ctr id = s.ctr id := rfl

theorem eccLanding_disarms (s : State) (id : CtrId) : ((s.eccLanding id).ctr id).arm = false ∧ (s.eccLanding id).mem = s.mem := by
  rw [State.eccLanding, State.lateNotice_ctr, State.setCtr_ctr]
  exact ⟨rfl, State.setCtr_mem ..⟩

/-- Settles O54, event by event. -/
theorem powerAndControlWords : Obligations.PowerAndControlWords := by
  refine ⟨fun s => ?_, fun s c p v => ⟨?_, ?_, fun hp => ?_, fun hp => ?_, fun hp j hj => ?_, fun off => ?_, ?_, fun off hoff => ?_⟩,
    fun s w g a n => ⟨fun x hx => ?_, fun x hx => ?_, fun d => ?_, fun d => ?_, fun d => ?_, fun d => ?_, ?_, fun hk => ?_,
      fun hk => ?_, ?_⟩⟩
  · intro d
    refine ⟨fun name watts r hreq hcold hfits => ?_, fun hleave hin hidle => ?_, ?_, ?_, fun h => ?_, fun h => ?_⟩
    · have hexec := leaveGrant_grants hreq hcold hfits
      have hdie := s.charged_die name watts r
      by_cases hn : name < 2 ^ 32
      · rw [if_pos hn] at hexec
        refine ⟨_, hexec, congrArg Die.fifo hdie, congrArg Die.leave hdie, fun _ => ?_, fun _ _ _ => .inr hn⟩
        rw [State.onClu_clu, if_pos rfl]; rfl
      · rw [if_neg hn] at hexec
        exact ⟨_, hexec, congrArg Die.fifo hdie, congrArg Die.leave hdie, fun h => absurd h hn,
          fun e he hname => .inl (granted_named e he hname)⟩
    · refine ⟨_, leaveRelease_releases hleave hin hidle, ?_, ?_⟩
      · rw [State.onDie_clu, State.setClu_clu, if_pos rfl]
      · rw [State.onDie_die, if_pos rfl]; rfl
    · exact ⟨_, exec_overheatReport s, rfl, by rw [State.onMod_mod, if_pos rfl]⟩
    · exact ⟨_, exec_overheatClear s, rfl, by rw [State.onMod_mod, if_pos rfl]⟩
    · refine ⟨_, rampWindow_ends h, rfl, ?_, ?_, ?_⟩ <;> rw [State.setDie_die, if_pos rfl]
      · rfl
      · rfl
      · exact d.windowed_last s.now
    · exact ⟨_, powerForecast_reads h, rfl, by rw [State.setDie_die, if_pos rfl]⟩
  · refine ⟨_, exec_leaseQuotaWrite c v s, rfl, ?_⟩
    rw [State.writeLeaseQ, State.onClu_clu, if_pos rfl]
  · exact ⟨_, exec_coreConfigWrite c v s, s.writeCfg_frame c _, s.writeCfg_floor c _⟩
  · refine ⟨_, exec_liftQuotaWrite hp c v s, rfl, fun k hk => ?_, ?_, fun hsum => ?_⟩ <;> rw [State.writeQuota_quota]
    · split
      · rw [FMap.get_put, if_neg hk]
      · rfl
    · split
      · exact .inl ((FMap.get_put ..).trans (if_pos rfl))
      · exact .inr rfl
    · rw [if_pos ((Cluster.quotaSum_withQuota ..).trans hsum), FMap.get_put, if_pos rfl]
  · refine ⟨_, exec_spillDescWrite hp c 0 v s, rfl, ?_, fun hlive => ?_⟩ <;> rw [State.writeSpill_base]
    exact if_pos hlive
  · exact ⟨_, exec_spillDescWrite hp c j v s, rfl, s.writeSpill_size c p hj v.toNat⟩
  · exact ⟨_, exec_controlRegisterWrite _ s, s.writeCtl_frame ..⟩
  · exact congrArg Host.Outcome.next (s.writeCtl_leaseQ c v.toNat (by norm_num))
  · exact congrArg Host.Outcome.next (s.writeCtl_reserved c v.toNat (by dsimp only; omega))
  · exact ⟨_, eccError_core s hx, s.bumpCore_frame .., fun i hi => s.bumpCore_counted _ _ hi, s.bumpCore_core_self ..,
      fun k hk => s.bumpCore_core_other _ _ hk⟩
  · exact ⟨_, eccError_slice s hx, s.bumpSlice_frame .., fun i hi => s.bumpSlice_counted _ _ hi⟩
  · refine ⟨_, exec_eccError _ d s, ?_, rfl⟩
    rw [State.onCore_core, if_pos rfl]
    exact (FMap.find_erase ..).trans (if_pos rfl)
  · refine ⟨_, exec_eccError _ d s, rfl, ?_⟩
    rw [State.onCore_core, if_pos rfl]
    exact Core.dropL1_inL1 ..
  · exact ⟨_, exec_eccError _ d s, rfl⟩
  · refine ⟨_, exec_eccError _ d s, ?_, rfl⟩
    rw [State.onCore_core, if_pos rfl]
    exact (FMap.find_erase ..).trans (if_pos rfl)
  · exact ⟨_, exec_eccError _ true s, s.poisonLine_poisoned a, fun h => by rw [State.poisonLine_free h, State.setPoison_mem]⟩
  · obtain ⟨f, hf, hcode, hdetail, hva⟩ := eccFault_notes hk 0 (BitVec.ofNat 64 n)
    exact ⟨_, hf, rfl, f, by rw [State.onCtx_ctx, if_pos rfl], hcode, hdetail, hva⟩
  · obtain ⟨f, hf, hcode, hdetail, hva⟩ := eccFault_notes (s := s.markBad (localPA (w / 4) a)) hk 2 (BitVec.ofNat 64 a)
    exact ⟨_, hf, s.markBad_badWord _, f, by rw [State.onCtx_ctx, if_pos rfl]; rfl, hcode, hdetail, hva⟩
  · exact ⟨_, exec_eccError _ true s, eccLanding_disarms s ⟨true, g, n⟩⟩

end Sys2Proof.Machine

/-! ## Memory keeps its canonical form (O59): what a turn may come to -/

namespace Sys2Proof.Machine

/-- An instruction that stops leaves memory in its form. -/
def Stop.Ok : Stop → Prop
  | .trap _ => True
  | .wait t => t.Ok

/-- Whatever an instruction comes to, memory has its form: `P` says so of a result, and a wait goes on from a state of the form. -/
def Kept {α : Type} (P : α → Prop) : Except Stop α → Prop
  | .ok a => P a
  | .error e => e.Ok

/-- What a turn comes to has the form, where it is a next state. -/
def Safe : Host.Outcome State Fault Refusal → Prop
  | .next t => t.Ok
  | _ => True

/-- A state that is there has the form. -/
def Maybe : Option State → Prop
  | some t => t.Ok
  | none => True

section
variable {s t : State} {α : Type}

theorem State.Ok.ite {c : Prop} [Decidable c] (h : s.Ok) (k : t.Ok) : (if c then s else t).Ok := by
  split
  · exact h
  · exact k

theorem State.Ok.ite1 {p q : State × α} {c : Prop} [Decidable c] (h : p.1.Ok) (k : q.1.Ok) : (if c then p else q).1.Ok := by
  split
  · exact h
  · exact k

theorem State.Ok.foldl {f : State → α → State} {l : List α} (h : s.Ok) (k : ∀ t a, t.Ok → (f t a).Ok) : (l.foldl f s).Ok :=
  List.foldlRecOn l f h fun t ht a _ => k t a ht

theorem State.Ok.fst {p : State × α} {a : α} (h : p.1.Ok) (e : p = (t, a)) : t.Ok := by subst e; exact h

theorem Kept.result {P : α → Prop} {r : Except Stop α} {a : α} (h : Kept P r) (e : r = .ok a) : P a := by subst e; exact h

theorem Kept.stop {P : α → Prop} {r : Except Stop α} {x : Stop} (h : Kept P r) (e : r = .error x) : x.Ok := by subst e; exact h

theorem Kept.state {r : Except Stop (State × α)} {a : α} (h : Kept (fun x => x.1.Ok) r) (e : r = .ok (t, a)) : t.Ok := h.result e

theorem Kept.wait {P : α → Prop} {r : Except Stop α} (h : Kept P r) (e : r = .error (.wait t)) : t.Ok := h.stop e

theorem Maybe.state {r : Option State} (h : Maybe r) (e : r = some t) : t.Ok := by subst e; exact h

theorem Safe.state {o : Host.Outcome State Fault Refusal} (h : Safe o) (e : o = .next t) : t.Ok := by subst e; exact h

end

end Sys2Proof.Machine

/-! ## Memory keeps its canonical form (O59): one lemma per operation -/

namespace Sys2Proof.Machine

section
variable {s t : State}

/-! ### Parts of the state, bytes, caches -/

theorem State.Ok.setCtx {w c} (h : s.Ok) : (s.setCtx w c).Ok :=
  .congr h rfl

theorem State.Ok.setCore {gc c} (h : s.Ok) : (s.setCore gc c).Ok :=
  .congr h rfl

theorem State.Ok.setClu {cl c} (h : s.Ok) : (s.setClu cl c).Ok :=
  .congr h rfl

theorem State.Ok.setDie {d x} (h : s.Ok) : (s.setDie d x).Ok :=
  .congr h rfl

theorem State.Ok.setMod {m x} (h : s.Ok) : (s.setMod m x).Ok :=
  .congr h rfl

theorem State.Ok.onCtx {w f} (h : s.Ok) : (s.onCtx w f).Ok :=
  .setCtx h

theorem State.Ok.onCore {gc f} (h : s.Ok) : (s.onCore gc f).Ok :=
  .setCore h

theorem State.Ok.onClu {cl f} (h : s.Ok) : (s.onClu cl f).Ok :=
  .setClu h

theorem State.Ok.onDie {d f} (h : s.Ok) : (s.onDie d f).Ok :=
  .setDie h

theorem State.Ok.onMod {m f} (h : s.Ok) : (s.onMod m f).Ok :=
  .setMod h

theorem State.Ok.fresh (h : s.Ok) : s.fresh.Ok :=
  .congr h rfl

theorem State.Ok.bumpCore {gc code} (h : s.Ok) : (s.bumpCore gc code).Ok :=
  .ite (.onCore h) h

theorem State.Ok.bumpSlice {cl code} (h : s.Ok) : (s.bumpSlice cl code).Ok :=
  .ite (.onClu h) h

theorem State.Ok.wrByte {pa b} (h : s.Ok) : (s.wrByte pa b).Ok :=
  s.wf_wrByte pa b h

theorem State.Ok.wrBytes {pa bs} (h : s.Ok) : (s.wrBytes pa bs).Ok :=
  State.wf_wrBytes bs s pa h

theorem State.Ok.wrNat {pa n v} (h : s.Ok) : (s.wrNat pa n v).Ok :=
  .wrBytes h

theorem State.Ok.wr64 {pa v} (h : s.Ok) : (s.wr64 pa v).Ok :=
  .wrNat h

theorem State.Ok.putRange {pa bs} (h : s.Ok) : (s.putRange pa bs).Ok :=
  s.wf_putRange pa bs h

theorem State.Ok.openBytes {pa n} (h : s.Ok) : (s.openBytes pa n).Ok :=
  .congr (.putRange h) rfl

theorem State.Ok.heal {pa n} (h : s.Ok) : (s.heal pa n).Ok :=
  .congr h rfl

theorem State.Ok.setPoison {pa} (h : s.Ok) : (s.setPoison pa).Ok :=
  .ite h (.congr h rfl)

theorem State.Ok.clearPoison {pa} (h : s.Ok) : (s.clearPoison pa).Ok :=
  .congr h rfl

theorem State.Ok.wrPlain {pa l} (h : s.Ok) : (s.wrPlain pa l).1.Ok := by
  induction l generalizing s pa with
  | nil =>
    exact h
  | cons b l ih =>
    unfold State.wrPlain
    dsimp only
    exact ih (.ite h (.wrByte h))

theorem State.Ok.dropL1s {line l} (h : s.Ok) : (s.dropL1s line l).Ok := by
  induction l generalizing s with
  | nil =>
    exact h
  | cons b l ih =>
    unfold State.dropL1s
    exact ih (.onCore h)

theorem State.Ok.setOvf {home i e} (h : s.Ok) : (s.setOvf home i e).Ok :=
  .congr h rfl

theorem State.Ok.setDir {home line e} (h : s.Ok) : (s.setDir home line e).Ok :=
  .onClu h

theorem State.Ok.addSharer {home line gc} (h : s.Ok) : Maybe (s.addSharer home line gc) := by
  unfold State.addSharer
  dsimp only
  split
  · exact .setOvf h
  · split
    · exact h
    · split
      · exact .setDir h
      · split
        · exact .setDir (.setOvf h)
        · trivial

theorem State.Ok.dropSharers {home line p} (h : s.Ok) : (s.dropSharers home line p).Ok := by
  unfold State.dropSharers
  dsimp only
  split
  · exact .setDir h
  · exact .ite (.setDir (.setOvf h)) (.setOvf h)

theorem State.Ok.invalidate {home line except0} (h : s.Ok) : (s.invalidate home line except0).Ok :=
  .ite h (.dropSharers (.dropL1s h))

theorem State.Ok.touchSlice {home line pol} (h : s.Ok) : (s.touchSlice home line pol).Ok := by
  unfold State.touchSlice
  dsimp only
  split
  · exact .invalidate (.ite (.setClu h) (.bumpSlice (.setClu h)))
  · exact .ite (.setClu h) (.bumpSlice (.setClu h))

theorem State.Ok.dropSlice {home line} (h : s.Ok) : (s.dropSlice home line).Ok :=
  .onClu h

theorem State.Ok.atHome {home line cls pol write} (h : s.Ok) : (s.atHome home line cls pol write).Ok :=
  .ite (.touchSlice h) (.ite (.dropSlice (.invalidate h)) h)

theorem State.Ok.loadFill {gc pa hb cls pol} (h : s.Ok) : (s.loadFill gc pa hb cls pol).Ok := by
  unfold State.loadFill
  dsimp only
  split
  · exact .onCore h
  · split
    · split
      · next e2 => exact .onCore (((State.Ok.addSharer (.bumpCore (.atHome h)))).state e2)
      · exact .bumpCore (.atHome h)
    · exact .atHome h

/-! ### Counters, traces and stores at the ports -/

theorem State.Ok.emit {gc part sup p} (h : s.Ok) : (s.emit gc part sup p).Ok :=
  .congr h rfl

theorem State.Ok.landNotice {r slice unit0 idx event} (h : s.Ok) : (s.landNotice r slice unit0 idx event).Ok :=
  .emit h

theorem State.Ok.coreOverruns {gc l} (h : s.Ok) : (s.coreOverruns gc l).Ok := by
  induction l generalizing s with
  | nil =>
    exact h
  | cons b l ih =>
    unfold State.coreOverruns
    exact ih (.landNotice h)

theorem State.Ok.sliceOverruns {cl l} (h : s.Ok) : (s.sliceOverruns cl l).Ok := by
  induction l generalizing s with
  | nil =>
    exact h
  | cons b l ih =>
    unfold State.sliceOverruns
    exact ih (.landNotice h)

theorem State.Ok.countPort {gc a n} (h : s.Ok) : (s.countPort gc a n).Ok :=
  .coreOverruns (.onCore h)

theorem State.Ok.countHome {home pa n} (h : s.Ok) : (s.countHome home pa n).Ok :=
  .sliceOverruns (.onClu h)

theorem State.Ok.traceOne {gc a src eng} (h : s.Ok) : (s.traceOne gc a src eng).Ok := by
  unfold State.traceOne
  dsimp only
  split
  · exact h
  · split
    · exact .setCore h
    · exact .ite (.wrNat (.setCore h)) (.setCore h)

theorem State.Ok.trace {gc a n src eng} (h : s.Ok) : (s.trace gc a n src eng).Ok :=
  .ite h (.ite (.traceOne h) (.traceOne (.traceOne h)))

theorem State.Ok.storeByte {gc a b} (h : s.Ok) : (s.storeByte gc a b).Ok :=
  .wrByte h

theorem State.Ok.storeBytes {gc a l} (h : s.Ok) : (s.storeBytes gc a l).Ok := by
  induction l generalizing s a with
  | nil =>
    exact h
  | cons b l ih =>
    unfold State.storeBytes
    exact ih (.storeByte h)

theorem State.Ok.grant {gc a n r} (h : s.Ok) : (s.grant gc a n r).Ok :=
  .onCore h

theorem State.Ok.portStore {w gc a bs} (h : s.Ok) : (s.portStore w gc a bs).Ok :=
  .trace (.grant (.heal (.storeBytes h)))

theorem State.Ok.portWrite {r src gc a bs eng} (h : s.Ok) : (s.portWrite r src gc a bs eng).Ok :=
  .countPort (.trace (.grant (.heal (.wrBytes h))))

theorem State.Ok.writeLeaseQ {cl v} (h : s.Ok) : (s.writeLeaseQ cl v).Ok :=
  .onClu h

theorem State.Ok.writeCfg {gc v} (h : s.Ok) : (s.writeCfg gc v).Ok :=
  .ite (.onCore h) h

theorem State.Ok.writeQuota {cl p v} (h : s.Ok) : (s.writeQuota cl p v).Ok :=
  .onClu h

theorem State.Ok.writeSpill {cl p j v} (h : s.Ok) : (s.writeSpill cl p j v).Ok :=
  .onClu h

theorem State.Ok.writeCtl {cl off v} (h : s.Ok) : (s.writeCtl cl off v).Ok :=
  .ite (.writeLeaseQ h) (.ite (.writeCfg h) (.ite (.writeQuota h) (.ite (.writeSpill h) h)))

theorem State.Ok.storeCtl {cl off n bs} (h : s.Ok) : (s.storeCtl cl off n bs).Ok := by
  induction n generalizing s off bs with
  | zero => exact h
  | succ n ih =>
    cases bs with
    | nil => exact h
    | cons b bs => exact ih h.writeCtl

/-! ### Translation, queues and tables -/

theorem State.Ok.lookup {w va} (h : s.Ok) : (s.lookup w va).1.Ok := by
  unfold State.lookup
  dsimp only
  split
  · exact h
  · split
    · exact .onCore h
    · split
      · exact .onCore (.onClu h)
      · exact h

theorem State.Ok.startWalk {w va a} (h : s.Ok) : (s.startWalk w va a).Ok :=
  .ite (.setClu (.onCtx h)) (.fresh (.setClu (.onCtx h)))

theorem State.Ok.faultInsert {w va lvl a} (h : s.Ok) : (s.faultInsert w va lvl a).Ok := by
  unfold State.faultInsert
  dsimp only
  split
  · exact .setClu h
  · split
    · exact .setClu h
    · exact .setClu h

theorem State.Ok.wrWords {pa l} (h : s.Ok) : (s.wrWords pa l).Ok := by
  induction l generalizing s pa with
  | nil =>
    exact h
  | cons b l ih =>
    unfold State.wrWords
    exact ih (.heal (.wr64 h))

theorem State.Ok.putPkt {gc a p} (h : s.Ok) : (s.putPkt gc a p).Ok :=
  .grant (.wrWords h)

theorem State.Ok.setDesc {gc slot k0 v} (h : s.Ok) : (s.setDesc gc slot k0 v).Ok :=
  .wr64 h

theorem State.Ok.setSched {gc slot x} (h : s.Ok) : (s.setSched gc slot x).Ok :=
  .onCore h

theorem State.Ok.happens {gc slot n} (h : s.Ok) : (s.happens gc slot n).Ok :=
  .setSched h

theorem State.Ok.setMbox {gc slot m b} (h : s.Ok) : (s.setMbox gc slot m b).Ok :=
  .setDesc h

theorem State.Ok.mbPut {gc slot m p} (h : s.Ok) : (s.mbPut gc slot m p).Ok :=
  .setMbox (.putPkt h)

theorem State.Ok.mbTake {gc slot m n} (h : s.Ok) : (s.mbTake gc slot m n).1.Ok :=
  .setMbox h

theorem State.Ok.onMboxes {gc slot f} (h : s.Ok) : (s.onMboxes gc slot f).Ok :=
  .foldl h fun _ _ h1 => .ite (.setMbox h1) h1

theorem State.Ok.mbRelease {gc slot} (h : s.Ok) : (s.mbRelease gc slot).Ok :=
  .onMboxes h

theorem State.Ok.mbReturn {gc slot} (h : s.Ok) : (s.mbReturn gc slot).Ok :=
  .onMboxes h

theorem State.Ok.tableTouch {pa} (h : s.Ok) : (s.tableTouch pa).Ok :=
  .touchSlice h

theorem State.Ok.aptTouch {m part h0} (h : s.Ok) : (s.aptTouch m part h0).Ok := by
  unfold State.aptTouch
  split
  · exact .tableTouch h
  · exact h

theorem State.Ok.place {gc part h0} (h : s.Ok) : (s.place gc part h0).1.Ok := by
  unfold State.place
  dsimp only
  split
  · exact h
  · split
    · exact .onCore (.aptTouch h)
    · exact .aptTouch h

theorem State.Ok.dropPlace {part h0} (h : s.Ok) : (s.dropPlace part h0).Ok :=
  .foldl h fun _ _ h2 => .onCore h2

theorem State.Ok.setPlace {m part h0 st} (h : s.Ok) : (s.setPlace m part h0 st).Ok := by
  unfold State.setPlace
  dsimp only
  split
  · exact .dropPlace (State.Ok.wrPlain (.touchSlice (.invalidate h)))
  · exact h

theorem State.Ok.poolKeep {gc part id} (h : s.Ok) : (s.poolKeep gc part id).Ok :=
  .ite (.onCore (.ite h (.tableTouch h))) h

theorem State.Ok.countSt {w} (h : s.Ok) : (s.countSt w).Ok :=
  .onCtx h

/-! ### What a commit publishes -/

theorem State.Ok.sendStore {e} (h : s.Ok) : (s.sendStore e).Ok :=
  .fresh (.countSt (.congr h rfl))

theorem State.Ok.l1Store {gc pa pol} (h : s.Ok) : (s.l1Store gc pa pol).Ok :=
  .onCore h

theorem State.Ok.pubStore {w grp org pa hb cls pol bs} (h : s.Ok) : (s.pubStore w grp org pa hb cls pol bs).Ok := by
  unfold State.pubStore
  dsimp only
  split
  · exact .ite (.sendStore h) (.portStore h)
  · exact .sendStore (.l1Store h)

theorem State.Ok.pubLog {w l} (h : s.Ok) : (s.pubLog w l).Ok := by
  induction l generalizing s with
  | nil => exact h
  | cons x l ih =>
    cases x with
    | store => exact ih h.pubStore
    | mark => exact ih (.ite h h)

theorem State.Ok.pubCtx {w} (h : s.Ok) : (s.pubCtx w).Ok :=
  .onCtx (.pubLog h)

theorem State.Ok.nextSeq {w} (h : s.Ok) : (s.nextSeq w).1.Ok := by
  unfold State.nextSeq
  dsimp only
  split
  · exact .setCore h
  · exact .setDesc h

theorem State.Ok.pubSend {w uid p} (h : s.Ok) : (s.pubSend w uid p).Ok :=
  .congr h.nextSeq rfl

theorem State.Ok.pubTask {w idx p} (h : s.Ok) : (s.pubTask w idx p).Ok := by
  unfold State.pubTask
  dsimp only
  split
  · exact .onCore (.putPkt (.poolKeep h.nextSeq))
  · exact .congr h.nextSeq rfl

theorem State.Ok.pubSends {w l} (h : s.Ok) : (s.pubSends w l).Ok := by
  induction l generalizing s with
  | nil => exact h
  | cons x l ih =>
    obtain ⟨_, _ | _, _⟩ := x
    · exact ih h.pubSend
    · exact ih h.pubTask

theorem State.Ok.firstCommit {w} (h : s.Ok) : (s.firstCommit w).Ok :=
  .ite h (.onCtx (.ite (.mbRelease h) h))

theorem State.Ok.publish {w} (h : s.Ok) : (s.publish w).Ok :=
  .firstCommit (.onCtx (.ite (.pubSends (.foldl (.ite h (.onCtx h)) fun _ _ h1 => .pubCtx h1)) (.bumpCore (.pubSends (.foldl (.ite h (.onCtx h)) fun _ _ h1 => .pubCtx h1)))))

theorem State.Ok.commit {w} (h : s.Ok) : Kept State.Ok (s.commit w) := by
  unfold State.commit
  split
  · exact h
  · split
    · trivial
    · exact State.Ok.publish h

/-! ### Faults and the end of a firing -/

theorem State.Ok.record {w f} (h : s.Ok) : (s.record w f).Ok :=
  .onCtx h

theorem State.Ok.imprecise {o code detail va} (h : s.Ok) : (s.imprecise o code detail va).1.Ok := by
  unfold State.imprecise
  dsimp only
  split
  · exact .record h
  · exact h

theorem State.Ok.faultNotice {gc part patrol eng aid fsyn va pc fmsg w6 w7} (h : s.Ok) : (s.faultNotice gc part patrol eng aid fsyn va pc fmsg w6 w7).Ok :=
  .ite (.onMod h) (.emit h)

theorem State.Ok.dropLease {w} (h : s.Ok) : (s.dropLease w).Ok :=
  .onClu h

theorem State.Ok.freeScratch {w} (h : s.Ok) : (s.freeScratch w).Ok :=
  .onCore h

theorem State.Ok.freeCtx {w} (h : s.Ok) : (s.freeCtx w).Ok :=
  .onCtx (.freeScratch h)

theorem State.Ok.endFiring {w} (h : s.Ok) : (s.endFiring w).Ok :=
  .foldl (.dropLease (.ite (.happens h) h)) fun _ _ h1 => .freeCtx h1

theorem State.Ok.pushTop {gc p push from0 held} (h : s.Ok) : (s.pushTop gc p push from0 held).Ok :=
  .onCore (.putPkt h)

theorem State.Ok.returnTask {w held} (h : s.Ok) : (s.returnTask w held).Ok := by
  unfold State.returnTask
  split
  · exact h
  · exact .pushTop h

theorem State.Ok.abort {w h0} (h : s.Ok) : (s.abort w h0).Ok := by
  unfold State.abort
  dsimp only
  refine .endFiring ?_
  refine .bumpCore ?_
  split
  · split
    · exact .setDesc (.setSched (.mbReturn h))
    · exact .setDesc (.setSched (.mbReturn h))
    · exact .setSched (.mbReturn h)
  · split
    · exact .returnTask h
    · exact .returnTask h
    · exact h
  · exact h

theorem State.Ok.cutShort {w} (h : s.Ok) : (s.cutShort w).Ok :=
  .endFiring (.ite (.setSched h) h)

theorem State.Ok.park {w part vpn} (h : s.Ok) : (s.park w part vpn).Ok :=
  .foldl (.dropLease h) fun _ _ h1 => .onCtx h1

theorem State.Ok.takeTrap {w t} (h : s.Ok) : (s.takeTrap w t).Ok :=
  .faultNotice (.ite (.ite (.park h) (.abort h)) (.ite (.cutShort h) (.abort h)))

theorem State.Ok.fault {w t} (h : s.Ok) : (s.fault w t).Ok :=
  .takeTrap h

theorem State.Ok.retire {w} (h : s.Ok) : (s.retire w).Ok :=
  .foldl h fun _ _ h1 => .onCtx h1

theorem State.Ok.finish {r} (h : s.Ok) (k : Kept State.Ok r) : Safe (finish s r) := by
  unfold Machine.finish
  split
  · exact State.Ok.retire k
  · exact State.Ok.fault h
  · exact k

/-! ### Instructions of a gang -/

theorem State.Ok.eachFrom {f l i} (h : s.Ok) (hf : ∀ w t, t.Ok → Kept State.Ok (f w t)) : Kept State.Ok (eachFrom f l i s) := by
  induction l generalizing s i with
  | nil => exact h
  | cons m l ih =>
    unfold Machine.eachFrom
    split
    · next e => exact ih ((hf m s h).result e)
    · trivial
    · next e => exact (hf m s h).wait e

theorem State.Ok.firstWait {f l} (h : s.Ok) (hf : ∀ w t, t.Ok → Kept State.Ok (f w t)) : Maybe (firstWait f s l) := by
  induction l with
  | nil => trivial
  | cons m l ih =>
    unfold Machine.firstWait
    split
    · next e => exact (hf m s h).wait e
    · exact ih

theorem State.Ok.each {f} (h : s.Ok) (hf : ∀ w t, t.Ok → Kept State.Ok (f w t)) : Safe (each s f) := by
  unfold Machine.each
  split
  · exact h.finish (hf _ s h)
  · split
    · next e => exact (h.firstWait hf).state e
    · exact h.finish (h.eachFrom hf)

theorem State.Ok.eachCtx {f} (h : s.Ok) : Safe (eachCtx s f) :=
  h.finish (State.Ok.foldl h fun _ _ h1 => .onCtx h1)

theorem State.Ok.once {f} (h : s.Ok) (hf : ∀ w t, t.Ok → Kept State.Ok (f w t)) : Safe (once s f) :=
  h.finish (hf _ s h)

theorem Kept.privileged {head f w} (h : Kept State.Ok (f w s)) : Kept State.Ok (privileged head f w s) := by
  unfold Machine.privileged
  split
  · exact h
  · trivial

/-! ### Resolving an access -/

theorem State.Ok.whenCopied {w l} (h : s.Ok) : Kept (fun _ => True) (s.whenCopied w l) := by
  unfold State.whenCopied
  split
  · exact h
  · trivial

theorem State.Ok.resolveL {w a n align write} (h : s.Ok) : Kept (fun _ => True) (s.resolveL w a n align write) := by
  unfold State.resolveL
  dsimp only
  split
  · trivial
  · split
    · trivial
    · split
      · trivial
      · exact h.whenCopied

theorem State.Ok.resolveA {w base o n align} (h : s.Ok) : Kept (fun _ => True) (s.resolveA w base o n align) := by
  unfold State.resolveA
  split
  · trivial
  · split
    · trivial
    · split
      · exact h.whenCopied
      · trivial

theorem State.Ok.leaves {w a va l} (h : s.Ok) : Kept (fun x => x.1.Ok) (s.leaves w a va l) := by
  induction l generalizing s with
  | nil =>
    exact h
  | cons b l ih =>
    unfold State.leaves
    dsimp only
    split
    · next e =>
        have k := h.lookup.fst e
        split
        · next e1 => exact ((ih (.onCtx k)).state e1)
        · next e1 => exact (ih (.onCtx k)).stop e1
    · next e => exact State.Ok.startWalk (h.lookup.fst e)

theorem State.Ok.translate {w va n a} (h : s.Ok) : Kept (fun x => x.1.Ok) (s.translate w va n a) := by
  unfold State.translate
  dsimp only
  split
  · trivial
  · split
    · next e1 => exact h.leaves.stop e1
    · next e1 =>
        have k := h.leaves.state e1
        split
        · trivial
        · split
          · trivial
          · exact k

theorem State.Ok.resolveG {w va n align a} (h : s.Ok) : Kept (fun x => x.1.Ok) (s.resolveG w va n align a) := by
  unfold State.resolveG
  split
  · trivial
  · exact h.translate

theorem State.Ok.resolve {w sp base off n align a} (h : s.Ok) : Kept (fun x => x.1.Ok) (s.resolve w sp base off n align a) := by
  unfold State.resolve
  split
  · split
    · exact h
    · next e => exact h.resolveL.stop e
  · split
    · exact h
    · next e => exact h.resolveA.stop e
  · exact h.resolveG

theorem State.Ok.note {w code detail va} (h : s.Ok) : (s.note w code detail va).Ok :=
  h.imprecise

theorem State.Ok.touchPoison {w va l} (h : s.Ok) : (s.touchPoison w va l).Ok :=
  .ite (.note h) (.ite (.note h) h)

theorem State.Ok.readWord {w at0} (h : s.Ok) : (s.readWord w at0).Ok := by
  unfold State.readWord
  split
  · exact .ite (.note h) h
  · exact h

theorem State.Ok.fetchHome {x} (h : s.Ok) : (s.fetchHome x).Ok := by
  unfold State.fetchHome
  split
  · split
    · exact .atHome h
    · exact h
  · exact h

theorem State.Ok.fetchLine {w va} (h : s.Ok) : Kept (fun x => x.1.Ok) (s.fetchLine w va) := by
  unfold State.fetchLine
  dsimp only
  split
  · next e => exact h.translate.stop e
  · next e =>
      have k := h.translate.state e
      split
      · exact k
      · exact State.Ok.touchPoison (.onCore (.fetchHome k))

theorem State.Ok.fetch {w} (h : s.Ok) : Kept (fun x => x.1.Ok) (s.fetch w) := by
  unfold State.fetch
  dsimp only
  split
  · trivial
  · next e => exact (h.fetchLine.wait e)
  · next e =>
      have k := h.fetchLine.state e
      split
      · trivial
      · split
        · trivial
        · split
          · trivial
          · exact State.Ok.foldl k fun _ _ h1 => .onCtx h1

theorem State.Ok.touchGuard {w o l} (h : s.Ok) : (s.touchGuard w o l).Ok := by
  unfold State.touchGuard
  split
  · exact .note h
  · exact h

theorem State.Ok.grantRead {w l p} (h : s.Ok) : (s.grantRead w l p).Ok := by
  induction l generalizing s p with
  | nil => exact h
  | cons b l ih =>
    cases b with
    | guard => exact ih h
    | mem =>
      unfold State.grantRead
      split
      · exact ih h
      · split
        · exact ih h
        · exact ih h

theorem State.Ok.touchLocal {w o l} (h : s.Ok) : (s.touchLocal w o l).Ok :=
  .grantRead (.touchPoison (.touchGuard h))

/-! ### Loads and stores -/

theorem State.Ok.logStore {w pol r} (h : s.Ok) : Kept State.Ok (s.logStore w pol r) := by
  unfold State.logStore
  dsimp only
  split
  · exact State.Ok.onCtx h
  · exact State.Ok.commit (.onCtx h)

theorem State.Ok.storeRuns {w pol l} (h : s.Ok) : Kept State.Ok (s.storeRuns w pol l) := by
  induction l generalizing s with
  | nil =>
    exact h
  | cons b l ih =>
    unfold State.storeRuns
    split
    · split
      · split
        · next e2 => exact ih (h.logStore.result e2)
        · next e2 => exact h.logStore.stop e2
      · exact ih (.sendStore h)
    · split
      · next e1 => exact ih (h.logStore.result e1)
      · next e1 => exact h.logStore.stop e1

theorem State.Ok.storeAt {w o l pol bs} (h : s.Ok) : Kept State.Ok (s.storeAt w o l pol bs) := by
  unfold State.storeAt
  split
  · exact h
  · exact State.Ok.storeRuns (.touchGuard h)

theorem State.Ok.addLoad {w dst l pol va} (h : s.Ok) : (s.addLoad w dst l pol va).Ok :=
  .fresh (.onCtx h)

theorem State.Ok.ldOp {d a idx sc t sp pol disp w} (h : s.Ok) : Kept State.Ok (ldOp d a idx sc t sp pol disp w s) := by
  unfold Machine.ldOp
  dsimp only
  split
  · next e => exact h.resolve.stop e
  · next e =>
      have k1 := h.resolve.state e
      split
      · exact State.Ok.addLoad k1
      · exact State.Ok.onCtx (.touchLocal k1)

theorem State.Ok.stOp {b a idx sc t sp pol disp w} (h : s.Ok) : Kept State.Ok (stOp b a idx sc t sp pol disp w s) := by
  unfold Machine.stOp
  dsimp only
  split
  · next e => exact h.resolve.stop e
  · next e => exact (h.resolve.state e).storeAt

theorem State.Ok.ldvOp {d a idx sc t sp pol m disp w} (h : s.Ok) : Kept State.Ok (ldvOp d a idx sc t sp pol m disp w s) := by
  unfold Machine.ldvOp
  dsimp only
  split
  · next e => exact h.resolve.stop e
  · next e =>
      have k1 := h.resolve.state e
      split
      · exact State.Ok.addLoad k1
      · exact State.Ok.onCtx (.touchLocal k1)

theorem State.Ok.stvOp {b a idx sc t sp pol disp w} (h : s.Ok) : Kept State.Ok (stvOp b a idx sc t sp pol disp w s) := by
  unfold Machine.stvOp
  dsimp only
  split
  · next e => exact h.resolve.stop e
  · next e =>
      have k1 := h.resolve.state e
      split
      · next e1 => exact k1.storeAt.stop e1
      · next e1 => exact State.Ok.onCtx (k1.storeAt.result e1)

theorem State.Ok.elemLeaves {w t base acc l} (h : s.Ok) : Kept State.Ok (s.elemLeaves w t base acc l) := by
  induction l generalizing s with
  | nil =>
    exact h
  | cons b l ih =>
    unfold State.elemLeaves
    dsimp only
    split
    · split
      · next e1 => exact ih (h.leaves.state e1)
      · next e1 => exact h.leaves.stop e1
    · exact ih h

theorem State.Ok.elemBytes {w t sp base acc l} (h : s.Ok) : Kept (fun x => x.1.Ok) (s.elemBytes w t sp base acc l) := by
  induction l generalizing s with
  | nil =>
    exact h
  | cons b l ih =>
    unfold State.elemBytes
    split
    · next e => exact h.resolve.stop e
    · next e =>
        have k1 := h.resolve.state e
        split
        · next e1 => exact (ih k1).stop e1
        · next e1 => exact ((ih k1).state e1)

theorem State.Ok.resolveX {w t sp base acc es} (h : s.Ok) : Kept (fun x => x.1.Ok) (s.resolveX w t sp base acc es) := by
  unfold State.resolveX
  split
  · trivial
  · split
    · split
      · next e2 => exact h.elemLeaves.stop e2
      · next e2 => exact (h.elemLeaves.result e2).elemBytes
    · exact h.elemBytes

theorem State.Ok.touchElems {w sp base l} (h : s.Ok) : (s.touchElems w sp base l).Ok := by
  induction l generalizing s with
  | nil =>
    exact h
  | cons b l ih =>
    unfold State.touchElems
    exact ih (.touchLocal h)

theorem State.Ok.ldxOp {d b ix sc t sp pol m w} (h : s.Ok) : Kept State.Ok (ldxOp d b ix sc t sp pol m w s) := by
  unfold Machine.ldxOp
  dsimp only
  split
  · next e => exact h.resolveX.stop e
  · next e =>
      have k1 := h.resolveX.state e
      split
      · exact State.Ok.addLoad k1
      · exact State.Ok.onCtx (.touchElems k1)

theorem State.Ok.scatterOne {w t sp pol base v e l} (h : s.Ok) : Kept (fun x => x.1.Ok) (s.scatterOne w t sp pol base v e l) := by
  unfold State.scatterOne
  dsimp only
  split
  · next e1 => exact ((State.Ok.storeAt (.ite h (.touchPoison h)))).stop e1
  · next e1 => exact (((State.Ok.storeAt (.ite h (.touchPoison h)))).result e1)

theorem State.Ok.scatter {w t sp pol base v l x} (h : s.Ok) : Kept (fun x => x.1.Ok) (s.scatter w t sp pol base v l x) := by
  induction l generalizing s x with
  | nil =>
    exact h
  | cons b l ih =>
    unfold State.scatter
    split
    · next e => exact h.scatterOne.stop e
    · next e => exact ih (h.scatterOne.state e)

theorem State.Ok.stxOp {a b ix sc t sp pol m w} (h : s.Ok) : Kept State.Ok (stxOp a b ix sc t sp pol m w s) := by
  unfold Machine.stxOp
  dsimp only
  split
  · next e => exact h.resolveX.stop e
  · next e =>
      have k1 := h.resolveX.state e
      split
      · exact k1
      · split
        · next e2 => exact k1.scatter.stop e2
        · next e2 => exact State.Ok.onCtx (k1.scatter.state e2)

theorem State.Ok.resolveBits {w r n acc} (h : s.Ok) : Kept (fun _ => True) (s.resolveBits w r n acc) := by
  unfold State.resolveBits
  dsimp only
  split
  · trivial
  · split
    · exact h.resolveL
    · exact h.resolveA

theorem State.Ok.execBld {d k0 w1 inc} (h : s.Ok) : Safe (execBld d k0 w1 inc s) := by
  unfold Machine.execBld
  dsimp only
  refine State.Ok.each h fun w t k => ?_
  split
  · next e => exact k.resolveBits.stop e
  · exact State.Ok.onCtx (.touchLocal k)

theorem State.Ok.execBst {a k0 w1 inc} (h : s.Ok) : Safe (execBst a k0 w1 inc s) := by
  unfold Machine.execBst
  dsimp only
  refine State.Ok.each h fun w t k => ?_
  split
  · next e => exact k.resolveBits.stop e
  · split
    · exact k
    · split
      · next e2 => exact (State.Ok.storeAt (.touchPoison k)).stop e2
      · next e2 => exact State.Ok.onCtx ((State.Ok.storeAt (.touchPoison k)).result e2)

/-! ### Atomic operations, fences and hints -/

theorem State.Ok.amoAddr {w t sp c disp} (h : s.Ok) : Kept (fun x => x.1.Ok) (s.amoAddr w t sp c disp) :=
  h.resolve

theorem State.Ok.amoPrep {t sp sc c disp w} (h : s.Ok) : Kept (fun x => x.1.Ok) (amoPrep t sp sc c disp w s) := by
  unfold Machine.amoPrep
  split
  · next e => exact h.amoAddr.stop e
  · next e =>
      have k1 := h.amoAddr.state e
      split
      · next e1 => exact k1.commit.stop e1
      · next e1 =>
          have k2 := k1.commit.result e1
          split
          · exact k2
          · exact k2

theorem State.Ok.performRuns {w l} (h : s.Ok) : (s.performRuns w l).Ok := by
  induction l generalizing s with
  | nil =>
    exact h
  | cons b l ih =>
    unfold State.performRuns
    dsimp only
    refine ih ?_
    split
    · exact .portStore h
    · exact .storeCtl h
    · exact .wrBytes (.atHome (.invalidate h))

theorem State.Ok.touchRuns {l} (h : s.Ok) : (s.touchRuns l).Ok := by
  induction l generalizing s with
  | nil =>
    exact h
  | cons b l ih =>
    unfold State.touchRuns
    refine ih ?_
    split
    · exact .atHome h
    · exact h

theorem State.Ok.amoDo {t a va o f w l} (h : s.Ok) : (amoDo t a va o f w s l).Ok := by
  unfold Machine.amoDo
  dsimp only
  split
  · exact .note h
  · refine .onCtx ?_
    split
    · exact .performRuns (.touchRuns (.touchPoison (.touchGuard h)))
    · exact .touchRuns (.touchPoison (.touchGuard h))

theorem State.Ok.amoOp {t sp sc a c disp f w} (h : s.Ok) : Kept State.Ok (amoOp t sp sc a c disp f w s) := by
  unfold Machine.amoOp
  dsimp only
  split
  · next e => exact h.amoPrep.stop e
  · next e => exact State.Ok.amoDo (h.amoPrep.state e)

theorem State.Ok.rstOp {sz a b c disp w} (h : s.Ok) : Kept State.Ok (rstOp sz a b c disp w s) := by
  unfold Machine.rstOp
  dsimp only
  split
  · trivial
  · split
    · trivial
    · split
      · trivial
      · split
        · next e3 => exact h.commit.stop e3
        · next e3 =>
            have k := h.commit.result e3
            split
            · exact k
            · exact State.Ok.sendStore k

theorem State.Ok.execFence {k0 sc} (h : s.Ok) : Safe (execFence k0 sc s) := by
  unfold Machine.execFence
  dsimp only
  refine State.Ok.each h fun w t k => ?_
  split
  · exact k
  · split
    · exact k
    · exact State.Ok.onCtx k

theorem State.Ok.execFencex {sc src dst} (h : s.Ok) : Safe (execFencex sc src dst s) := by
  unfold Machine.execFencex
  refine State.Ok.each h fun w t k => ?_
  split
  · split
    · exact k
    · exact k
  · split
    · exact k
    · exact k

theorem State.Ok.peek {w va} (h : s.Ok) : Kept (fun x => x.1.Ok) (s.peek w va) := by
  unfold State.peek
  split
  · exact h
  · split
    · next e1 => exact (h.leaves.state e1)
    · next e1 => exact (h.leaves.state e1)
    · next e1 => exact h.leaves.stop e1

theorem State.Ok.prefLine {pol va w} (h : s.Ok) : Kept State.Ok (prefLine pol va w s) := by
  unfold Machine.prefLine
  dsimp only
  split
  · next e => exact h.peek.stop e
  · next e => exact (h.peek.state e)
  · next e =>
      have k := h.peek.state e
      split
      · exact k
      · exact State.Ok.loadFill k

theorem State.Ok.prefLocal {b a pol w} (h : s.Ok) : Kept State.Ok (prefLocal b a pol w s) := by
  unfold Machine.prefLocal
  dsimp only
  split
  · trivial
  · split
    · trivial
    · split
      · next e2 => exact h.translate.stop e2
      · next e2 =>
          have k := h.translate.state e2
          split
          · next e3 => exact k.resolveL.stop e3
          · split
            · exact k
            · exact State.Ok.onCtx (.addLoad k)

theorem State.Ok.execPref {l a pol} (h : s.Ok) : Safe (execPref l a pol s) := by
  unfold Machine.execPref
  refine State.Ok.each h fun w t k => ?_
  split
  · exact k.prefLine
  · exact k.prefLocal

theorem State.Ok.cinvLine {w va} (h : s.Ok) : Kept State.Ok (cinvLine w s va) := by
  unfold Machine.cinvLine
  dsimp only
  split
  · next e => exact h.peek.stop e
  · next e => exact (h.peek.state e)
  · next e =>
      have k := h.peek.state e
      split
      · exact State.Ok.dropSharers (.onCore k)
      · exact k

theorem State.Ok.cinvLines {w l} (h : s.Ok) : Kept State.Ok (cinvLines w l s) := by
  induction l generalizing s with
  | nil =>
    exact h
  | cons b l ih =>
    unfold Machine.cinvLines
    split
    · next e => exact ih (h.cinvLine.result e)
    · next e => exact h.cinvLine.stop e

/-! ### Allocations -/

theorem State.Ok.spallocDo {w guard size bank g ctxOwner} (h : s.Ok) : (s.spallocDo w guard size bank g ctxOwner).1.Ok := by
  unfold State.spallocDo
  dsimp only
  split
  · split
    · split
      · exact h
      · split
        · exact h
        · split
          · exact h
          · split
            · exact h
            · exact .openBytes (.setCore h)
    · split
      · exact h
      · split
        · exact h
        · split
          · exact h
          · split
            · exact h
            · exact .openBytes (.setCore h)
  · split
    · split
      · exact h
      · split
        · exact h
        · split
          · exact h
          · split
            · exact h
            · exact .openBytes (.setCore h)
    · split
      · exact h
      · split
        · exact h
        · split
          · exact h
          · split
            · exact h
            · exact .openBytes (.setCore h)

theorem State.Ok.execSpfree {a} (h : s.Ok) : Safe (execSpfree a s) := by
  unfold Machine.execSpfree
  dsimp only
  refine State.Ok.each h fun w t k => ?_
  split
  · split
    · exact k
    · trivial
  · split
    · trivial
    · split
      · exact k
      · exact State.Ok.onCore k

theorem State.Ok.execBfset {a b} (h : s.Ok) : Safe (execBfset a b s) := by
  unfold Machine.execBfset
  dsimp only
  refine State.Ok.each h fun w t k => ?_
  split
  · trivial
  · exact State.Ok.onCore k

/-! ### Load returns and walks -/

theorem State.Ok.lateNotice {gc part aid eng t pc fmsg} (h : s.Ok) : (s.lateNotice gc part aid eng t pc fmsg).Ok :=
  .faultNotice h

theorem State.Ok.lateFault {o past t pc} (h : s.Ok) : (s.lateFault o past t pc).Ok :=
  .faultNotice h

theorem State.Ok.blame {o code detail va} (h : s.Ok) : (s.blame o code detail va).Ok :=
  .ite h.imprecise (.lateFault h)

theorem State.Ok.bindLoad {w l bs} (h : s.Ok) : (s.bindLoad w l bs).Ok := by
  unfold State.bindLoad
  split
  · exact .onCtx h
  · exact .onCtx h
  · exact .onCtx h
  · exact .sendStore h

theorem State.Ok.fillLines {gc pol l} (h : s.Ok) : (s.fillLines gc pol l).Ok := by
  induction l generalizing s with
  | nil =>
    exact h
  | cons b l ih =>
    unfold State.fillLines
    exact ih (.loadFill h)

theorem State.Ok.endLoad {w l} (h : s.Ok) : (s.endLoad w l).Ok :=
  .onCtx (.bindLoad (.fillLines (.ite (.blame h) h)))

theorem State.Ok.execLoadReturn {w uid} (h : s.Ok) : Safe (execLoadReturn w uid s) := by
  unfold Machine.execLoadReturn
  dsimp only
  split
  · trivial
  · split
    · trivial
    · split
      · exact .onCtx h
      · exact .endLoad h

theorem State.Ok.answerWalk {w fid l} (h : s.Ok) : (s.answerWalk w fid l).Ok :=
  .ite (.ite (.onCore (.onCtx h)) (.onCtx h)) h

theorem State.Ok.missWalk {part gran w fid a va lvl} (h : s.Ok) : (s.missWalk part gran w fid a va lvl).Ok :=
  .ite (.answerWalk h) (.ite (.fault (.onCtx (.faultInsert h))) h)

theorem State.Ok.walkRead {cluster x} (h : s.Ok) : (s.walkRead cluster x).Ok :=
  .onClu (.ite (.touchSlice h) h)

theorem State.Ok.walkEnd {cluster x r} (h : s.Ok) : (s.walkEnd cluster x r).Ok := by
  unfold State.walkEnd
  dsimp only
  split
  · exact .foldl (.onClu (.onClu h)) fun _ _ h1 => .answerWalk h1
  · exact .foldl (.onClu h) fun _ _ h1 => .answerWalk h1
  · exact .foldl (.onClu h) fun _ _ h1 => .missWalk h1

theorem State.Ok.execWalk {cluster uid} (h : s.Ok) : Safe (execWalk cluster uid s) := by
  unfold Machine.execWalk
  split
  · trivial
  · split
    · trivial
    · split
      · exact .walkRead h
      · exact .walkEnd h

theorem State.Ok.execL1Invalidate {core line} (h : s.Ok) : Safe (execL1Invalidate core line s) :=
  .foldl (.onCore h) fun _ _ h1 => .dropSharers h1

/-! ### Published stores -/

theorem State.Ok.engineFault {o op fn cause va} (h : s.Ok) : (s.engineFault o op fn cause va).Ok :=
  .ite h.imprecise (.lateFault h)

theorem State.Ok.performRst {e} (h : s.Ok) : (s.performRst e).Ok := by
  unfold State.performRst
  split
  · exact .ite (.portWrite h) (.engineFault h)
  · exact .engineFault h

theorem State.Ok.performStore {e bs} (h : s.Ok) : (s.performStore e bs).1.Ok := by
  unfold State.performStore
  dsimp only
  split
  · exact .portStore h
  · exact .storeCtl h
  · exact State.Ok.wrPlain (.ite (.atHome h) h)
  · exact h

theorem State.Ok.freeDrained {w} (h : s.Ok) : (s.freeDrained w).Ok :=
  .ite h (.onCore h)

theorem State.Ok.storeDone {e} (h : s.Ok) : (s.storeDone e).Ok := by
  unfold State.storeDone
  dsimp only
  split
  · exact .freeDrained (.onCtx (.ite (.blame (.ite (.clearPoison (.congr h rfl)) (.congr h rfl))) (.ite (.clearPoison (.congr h rfl)) (.congr h rfl))))
  · exact .countSt (.ite (.blame (.ite (.clearPoison (.congr h rfl)) (.congr h rfl))) (.ite (.clearPoison (.congr h rfl)) (.congr h rfl)))

theorem State.Ok.storeStep {e} (h : s.Ok) : (s.storeStep e).Ok := by
  unfold State.storeStep
  dsimp only
  split
  · exact .storeDone (.performRst h)
  · exact .ite (.storeDone h.performStore) (.congr h.performStore rfl)

theorem State.Ok.drainSegs {l} (h : s.Ok) : (s.drainSegs l).Ok := by
  induction l generalizing s with
  | nil =>
    exact h
  | cons b l ih =>
    unfold State.drainSegs
    exact ih (.ite (.storeDone h.performStore) h)

theorem State.Ok.storeNow {uid} (h : s.Ok) : Maybe (s.storeNow uid) := by
  unfold State.storeNow
  dsimp only
  split
  · trivial
  · split
    · exact .drainSegs (.storeStep h)
    · trivial

/-! ### Writes of an engine over spans -/

theorem State.Ok.leavesOf {w acc l} (h : s.Ok) : Kept State.Ok (s.leavesOf w acc l) := by
  induction l generalizing s with
  | nil =>
    exact h
  | cons b l ih =>
    unfold State.leavesOf
    split
    · exact ih h
    · split
      · next e1 => exact h.leaves.stop e1
      · next e1 => exact ih (h.leaves.state e1)

theorem State.Ok.spansOf {w acc va n} (_ : s.Ok) : Kept (fun _ => True) (s.spansOf w acc va n) := by
  unfold State.spansOf
  split
  · trivial
  · split
    · trivial
    · split
      · trivial
      · split
        · trivial
        · trivial

theorem State.Ok.spansOfAll {w acc l} (h : s.Ok) : Kept (fun _ => True) (s.spansOfAll w acc l) := by
  induction l generalizing s with
  | nil =>
    trivial
  | cons b l ih =>
    unfold State.spansOfAll
    split
    · next e => exact h.spansOf.stop e
    · split
      · next e1 => exact (ih h).stop e1
      · trivial

theorem State.Ok.writeCells {home l} (h : s.Ok) : (s.writeCells home l).1.Ok := by
  induction l generalizing s with
  | nil =>
    exact h
  | cons b l ih =>
    unfold State.writeCells
    split
    · exact ih h
    · exact ih (.countHome (.wrBytes h))

theorem State.Ok.devWrite {r src pa hb cls pol bs} (h : s.Ok) : (s.devWrite r src pa hb cls pol bs).1.Ok := by
  unfold State.devWrite
  dsimp only
  split
  · exact .portWrite h
  · exact State.Ok.writeCells (.ite (.clearPoison (.atHome (.invalidate h))) (.atHome (.invalidate h)))

theorem State.Ok.flush {r src pol run skip} (h : s.Ok) : (State.writeSpans.flush r src pol s run skip).1.Ok := by
  unfold State.writeSpans.flush
  split
  · exact h
  · exact .devWrite h

theorem State.Ok.writeSpansGo {r src part pol sp i run bs skip n k} (h : s.Ok) :
    (State.writeSpans.go r src part pol sp s i run bs skip n k).s.Ok := by
  induction bs generalizing s i run skip n k with
  | nil => exact h.flush
  | cons b bs ih =>
    unfold State.writeSpans.go
    dsimp only
    split
    · exact h.flush
    · split
      · exact h.flush
      · split
        · exact ih h
        · split
          · exact ih h
          · exact ih h.flush

theorem State.Ok.writeSpans {r src part pol sp i bs} (h : s.Ok) : (s.writeSpans r src part pol sp i bs).s.Ok :=
  h.writeSpansGo

theorem State.Ok.touchLines {pol l x} (h : s.Ok) : (s.touchLines pol l x).Ok := by
  induction l generalizing s x with
  | nil =>
    exact h
  | cons b l ih =>
    unfold State.touchLines
    split
    · exact ih h
    · split
      · exact ih (.atHome h)
      · exact ih h

theorem State.Ok.touchRead {pol sp i n} (h : s.Ok) : (s.touchRead pol sp i n).Ok :=
  .touchLines h

theorem State.Ok.noteItems {gc slot cl key} (h : s.Ok) : (s.noteItems gc slot cl key).Ok :=
  .setDesc h

/-! ### Array instructions and events -/

theorem State.Ok.mleaseDo {w a b clr} (h : s.Ok) : (s.mleaseDo w a b clr).2.Ok := by
  unfold State.mleaseDo
  dsimp only
  split
  · exact h
  · exact .noteItems (.setClu h)

theorem State.Ok.toAll {w f} (h : s.Ok) : (s.toAll w f).Ok :=
  .foldl h fun _ _ h1 => .onCtx h1

theorem State.Ok.execMlease {d a b clr} (h : s.Ok) : Safe (execMlease d a b clr s) := by
  unfold Machine.execMlease
  dsimp only
  refine State.Ok.once h fun w t k => ?_
  split
  · next e => exact k.commit.stop e
  · next e => exact State.Ok.toAll (k.commit.result e).mleaseDo

theorem State.Ok.execMfree {a b} (h : s.Ok) : Safe (execMfree a b s) := by
  unfold Machine.execMfree
  dsimp only
  refine State.Ok.once h fun w t k => ?_
  split
  · trivial
  · split
    · next e1 => exact k.commit.stop e1
    · next e1 =>
        have k1 := k.commit.result e1
        split
        · exact k1
        · split
          · exact k1
          · exact State.Ok.noteItems (.setClu k1)

theorem State.Ok.execMcfg {a b dfmt rm act sen ben dshift} (h : s.Ok) : Safe (execMcfg a b dfmt rm act sen ben dshift s) := by
  unfold Machine.execMcfg
  dsimp only
  refine State.Ok.once h fun w t k => ?_
  split
  · trivial
  · split
    · trivial
    · split
      · trivial
      · split
        · next e3 => exact k.commit.stop e3
        · next e3 => exact State.Ok.onClu (k.commit.result e3)

theorem State.Ok.enqueue {w op} (h : s.Ok) : Kept State.Ok (s.enqueue w op) := by
  unfold State.enqueue
  dsimp only
  split
  · exact State.Ok.onCtx (.setClu h)
  · split
    · exact h
    · split
      · next e2 => exact h.commit.stop e2
      · next e2 => exact State.Ok.fresh (.onCtx (.setClu (h.commit.result e2)))

theorem State.Ok.sourceBank {w a} (_ : s.Ok) : Kept (fun _ => True) (s.sourceBank w a) := by
  unfold State.sourceBank
  dsimp only
  split
  · trivial
  · split
    · trivial
    · trivial

theorem State.Ok.execMloadw {p a b} (h : s.Ok) : Safe (execMloadw p a b s) := by
  unfold Machine.execMloadw
  dsimp only
  refine State.Ok.once h fun w t k => ?_
  split
  · trivial
  · split
    · trivial
    · split
      · next e2 => exact k.sourceBank.stop e2
      · split
        · trivial
        · exact k.enqueue

theorem State.Ok.execMswap {p} (h : s.Ok) : Safe (execMswap p s) := by
  unfold Machine.execMswap
  refine State.Ok.once h fun w t k => ?_
  split
  · trivial
  · exact k.enqueue

theorem State.Ok.execMstream {t p a b row0 n1 sat} (h : s.Ok) : Safe (execMstream t p a b row0 n1 sat s) := by
  unfold Machine.execMstream
  dsimp only
  refine State.Ok.once h fun w t k => ?_
  split
  · trivial
  · split
    · trivial
    · split
      · trivial
      · split
        · next e3 => exact k.sourceBank.stop e3
        · split
          · trivial
          · exact k.enqueue

theorem State.Ok.epiLocal {w cfg a stride n ncol} (_ : s.Ok) : Kept (fun _ => True) (s.epiLocal w cfg a stride n ncol) := by
  unfold State.epiLocal
  dsimp only
  split
  · trivial
  · split
    · trivial
    · trivial

/-- A stop that a page not present comes before. -/
theorem State.Ok.missing {w l e} (h : s.Ok) (k : Stop.Ok e) : Stop.Ok (s.missing w l e) := by
  unfold State.missing
  dsimp only
  split
  · next e => exact h.leavesOf.stop e
  · next e =>
    split
    · next e' => exact (State.Ok.spansOfAll (h.leavesOf.result e)).stop e'
    · exact k

theorem State.Ok.execMepi {k g t a b row0 n ncol} (h : s.Ok) : Safe (execMepi k g t a b row0 n ncol s) := by
  unfold Machine.execMepi
  refine State.Ok.once h fun w t k => ?_
  dsimp only
  split
  · trivial
  · split
    · trivial
    · trivial
    · split
      · next e =>
        split at e
        · cases e
        · exact k.epiLocal.stop e
      · split
        · trivial
        · split
          · split
            · trivial
            · next e => exact k.missing (k.leavesOf.stop e)
            · next e =>
              have k1 := k.leavesOf.result e
              split
              · next e' => exact k1.spansOfAll.stop e'
              · exact k1.enqueue
          · exact k.enqueue

theorem State.Ok.directTile {t f} (h : s.Ok) (hf : ∀ w u, u.Ok → (f w u).Ok) : Safe (directTile t f s) := by
  unfold Machine.directTile
  dsimp only
  split
  · exact h.finish trivial
  · split
    · next e => exact h.finish (h.commit.stop e)
    · next e =>
      have k := h.commit.result e
      split
      · exact k.finish trivial
      · exact k.finish (hf _ _ k)

theorem State.Ok.execMaccrd {k0 d b t m} (h : s.Ok) : Safe (execMaccrd k0 d b t m s) := by
  unfold Machine.execMaccrd
  dsimp only
  split
  · exact h.finish trivial
  · exact h.eachCtx

theorem State.Ok.askLeave {d name watts} (h : s.Ok) : (s.askLeave d name watts).Ok :=
  .ite h h

theorem State.Ok.runCmd {cl f} (h : s.Ok) (hf : ∀ m r, f m = some r → r.1.Ok) : Safe (s.runCmd cl f) := by
  unfold State.runCmd
  dsimp only
  split
  · trivial
  · split
    · trivial
    · next e =>
      split
      · split
        · trivial
        · exact State.Ok.askLeave h
      · exact hf _ _ e

theorem State.Ok.execLeaveGrant (h : s.Ok) : Safe (execLeaveGrant s) := by
  unfold Machine.execLeaveGrant
  dsimp only
  split
  · trivial
  · split
    · trivial
    · split
      · exact .onClu (.onDie h)
      · exact .congr h rfl

theorem State.Ok.execLeaveRelease (h : s.Ok) : Safe (execLeaveRelease s) := by
  unfold Machine.execLeaveRelease
  dsimp only
  split
  · trivial
  · exact .onDie (.setClu h)

theorem State.Ok.execOverheatReport (h : s.Ok) : Safe (execOverheatReport s) :=
  .onMod h

theorem State.Ok.execOverheatClear (h : s.Ok) : Safe (execOverheatClear s) :=
  .onMod h

theorem State.Ok.execRampWindow (h : s.Ok) : Safe (execRampWindow s) := by
  unfold Machine.execRampWindow
  dsimp only
  split
  · trivial
  · exact .setDie h

theorem State.Ok.execPowerForecastRead (h : s.Ok) : Safe (execPowerForecastRead s) := by
  unfold Machine.execPowerForecastRead
  dsimp only
  split
  · trivial
  · exact .setDie h

theorem State.Ok.execLeaseGrant (h : s.Ok) : Safe (execLeaseGrant s) := by
  unfold Machine.execLeaseGrant
  dsimp only
  split
  · split
    · split
      · trivial
      · exact .askLeave h
    · exact .onCtx (.setClu h)
  · trivial

theorem State.Ok.execMloadwRun (h : s.Ok) : Safe (execMloadwRun s) := by
  refine h.runCmd fun m r e => ?_
  split at e
  · cases e; exact h
  · cases e

theorem State.Ok.execMswapRun (h : s.Ok) : Safe (execMswapRun s) := by
  refine h.runCmd fun m r e => ?_
  split at e
  · cases e; exact h
  · cases e

theorem State.Ok.execMstreamRun (h : s.Ok) : Safe (execMstreamRun s) := by
  refine h.runCmd fun m r e => ?_
  split at e
  · dsimp only at e
    split at e
    · cases e
    · cases e; exact h
  · cases e

theorem State.Ok.epiWrite {m l} (h : s.Ok) : (s.epiWrite m l).Ok := by
  induction l generalizing s with
  | nil =>
    exact h
  | cons b l ih =>
    unfold State.epiWrite
    dsimp only
    split
    · refine .engineFault ?_
      split
      · exact .blame h.writeSpans
      · exact h.writeSpans
    · refine ih ?_
      split
      · exact .blame h.writeSpans
      · exact h.writeSpans

theorem State.Ok.execMepiRun (h : s.Ok) : Safe (execMepiRun s) := by
  refine h.runCmd fun m r e => ?_
  split at e
  · cases e; exact State.Ok.epiWrite h
  · cases e

theorem State.Ok.execArrayCommandComplete (h : s.Ok) : Safe (execArrayCommandComplete s) := by
  unfold Machine.execArrayCommandComplete
  dsimp only
  split
  · trivial
  · split
    · trivial
    · exact .onCtx (.setClu h)

/-! ### Cells and the backing queue -/

theorem State.Ok.backErr {gc fn x} (h : s.Ok) : (s.backErr gc fn x).Ok := by
  unfold State.backErr
  split
  · exact .lateNotice h
  · exact h

theorem State.Ok.backWrite {m part pa n bs} (h : s.Ok) : (s.backWrite m part pa n bs).Ok := by
  induction n generalizing s pa bs with
  | zero => exact h
  | succ n ih =>
    cases bs with
    | nil => exact h
    | cons b bs =>
      have k {l a} : (((s.invalidate l a none).touchSlice l a .dflt).wrPlain pa ((b :: bs).take (64 - pa % 64))).1.Ok := .wrPlain h.invalidate.touchSlice
      exact ih (.ite (.ite k k) h)

theorem State.Ok.backPut {gc pa bs} (h : s.Ok) : (s.backPut gc pa bs).Ok :=
  .backErr (.backWrite h)

theorem State.Ok.backRead {gc pa n} (h : s.Ok) : (s.backRead gc pa n).Ok :=
  .backErr (.foldl h fun _ _ h1 => .ite (.touchSlice h1) h1)

theorem State.Ok.bqPush {gc slot b} (h : s.Ok) : (s.bqPush gc slot b).1.Ok := by
  unfold State.bqPush
  dsimp only
  split
  · exact h
  · exact .backPut h

theorem State.Ok.bqTake {gc slot i} (h : s.Ok) : (s.bqTake gc slot i).Ok :=
  .backPut (.backRead h)

theorem State.Ok.askCell {w home dst op} (h : s.Ok) : (s.askCell w home dst op).Ok :=
  .foldl (.onCtx (.fresh (.onClu h))) fun _ _ h2 => .onCtx h2

theorem State.Ok.cellAddr {w va} (h : s.Ok) : Kept (fun x => x.1.Ok) (s.cellAddr w va) := by
  unfold State.cellAddr
  split
  · next e => exact h.resolveG.stop e
  · next e =>
      have k := h.resolveG.state e
      split
      · exact k
      · trivial
  · trivial

theorem State.Ok.cellForm {rel sc mode dst va act w} (h : s.Ok) : Kept State.Ok (cellForm rel sc mode dst va act w s) := by
  unfold Machine.cellForm
  dsimp only
  split
  · next e => exact h.cellAddr.stop e
  · next e =>
      have k := h.cellAddr.state e
      split
      · trivial
      · split
        · split
          · next e3 => exact k.commit.stop e3
          · next e3 => exact State.Ok.ite (.askCell (k.commit.result e3)) (k.commit.result e3)
        · exact State.Ok.askCell k

theorem State.Ok.cellOp1 {rel sc mode a b act} (h : s.Ok) : Safe (cellOp1 rel sc mode a b act s) :=
  State.Ok.once h fun _ _ k => k.cellForm

theorem State.Ok.cndWaitOp {sc a b c w} (h : s.Ok) : Kept State.Ok (cndWaitOp sc a b c w s) := by
  unfold Machine.cndWaitOp
  split
  · next e => exact h.cellAddr.stop e
  · next e =>
      have k := h.cellAddr.state e
      split
      · next e1 => exact k.cellAddr.stop e1
      · next e1 => exact (k.cellAddr.state e1).cellForm

theorem State.Ok.setCell {pa w0 w1} (h : s.Ok) : (s.setCell pa w0 w1).Ok :=
  .wr64 (.wr64 h)

theorem State.Ok.setTag {pa tag sc} (h : s.Ok) : (s.setTag pa tag sc).Ok :=
  .congr h rfl

theorem State.Ok.setWindow {pa v} (h : s.Ok) : (s.setWindow pa v).Ok :=
  .congr h rfl

theorem State.Ok.hsuLine {cl pa} (h : s.Ok) : (s.hsuLine cl pa).Ok :=
  .touchSlice (.invalidate h)

theorem State.Ok.countWaiters {cl pa} (h : s.Ok) : (s.countWaiters cl pa).Ok :=
  .ite (.wr64 (.invalidate h)) h

theorem State.Ok.cntAdd {pa n} (h : s.Ok) : (s.cntAdd pa n).Ok :=
  .setCell h

theorem State.Ok.barTest {pa} (h : s.Ok) : (s.barTest pa).Ok :=
  .ite (.setCell h) h

theorem State.Ok.barBytes {pa n} (h : s.Ok) : (s.barBytes pa n).Ok :=
  .barTest (.setCell h)

theorem State.Ok.barArrive {pa n} (h : s.Ok) : (s.barArrive pa n).Ok :=
  .barTest (.setCell h)

theorem State.Ok.lckServe {pa} (h : s.Ok) : (s.lckServe pa).Ok :=
  .setCell h

theorem State.Ok.lckTicket {pa} (h : s.Ok) : (s.lckTicket pa).1.Ok :=
  .wr64 h

theorem State.Ok.lckHold {pa aid gc} (h : s.Ok) : (s.lckHold pa aid gc).Ok :=
  .wr64 h

theorem State.Ok.qPub {pa i} (h : s.Ok) : (s.qPub pa i).1.Ok :=
  .ite1 h (.ite1 h (.ite1 h (.wr64 (.setWindow h))))

theorem State.Ok.qRes {pa} (h : s.Ok) : (s.qRes pa).1.Ok :=
  .ite1 (.wr64 h) h

theorem State.Ok.qAwait {pa} (h : s.Ok) : (s.qAwait pa).1.Ok := by
  unfold State.qAwait
  dsimp only
  split
  · exact .wr64 h
  · exact h

theorem State.Ok.qRel {pa n} (h : s.Ok) : (s.qRel pa n).1.Ok := by
  unfold State.qRel
  dsimp only
  split
  · exact h
  · exact .wr64 h

theorem State.Ok.cellInit {cl pa k0 sc w0 w1} (h : s.Ok) : (s.cellInit cl pa k0 sc w0 w1).1.Ok := by
  unfold State.cellInit
  split
  · exact h
  · split
    · exact h
    · exact .setCell (.setWindow (.setTag h))

theorem State.Ok.cndChoose {cl pa all} (h : s.Ok) : (s.cndChoose cl pa all).1.Ok :=
  .setClu (.wr64 h)

theorem State.Ok.cellDo {cl pa act tr aid gc} (h : s.Ok) : (s.cellDo cl pa act tr aid gc).1.Ok := by
  unfold State.cellDo
  dsimp only
  split
  · exact h
  · split
    · exact h.cellInit
    · split
      · exact h
      · exact .onClu (.setTag h)
    · exact h
    · exact .cntAdd h
    · split
      · split
        · exact h
        · exact h
      · split
        · exact h
        · exact h
      · split
        · exact h
        · exact h
    · split
      · exact h
      · exact .barArrive h
    · split
      · exact h
      · exact .barBytes h
    · exact .barBytes h
    · split
      · exact h
      · exact h
    · split
      · exact .lckHold h.lckTicket
      · exact h
    · split
      · exact h
      · exact .lckServe h
    · exact h.qRes
    · exact h.qPub
    · exact h.qAwait
    · exact h.qRel
    · split
      · exact h
      · split
        · exact h
        · split
          · exact h
          · exact h
    · exact h.cndChoose
    · exact h.cndChoose

theorem State.Ok.spillDenied {cl p a} (h : s.Ok) : (s.spillDenied cl p a).Ok :=
  .lateNotice h

theorem State.Ok.ringWrite {cl p a ws} (h : s.Ok) : (s.ringWrite cl p a ws).Ok :=
  .ite (State.Ok.wrPlain (.atHome h)) (.spillDenied h)

theorem State.Ok.liftPark {cl e} (h : s.Ok) : (s.liftPark cl e).1.Ok := by
  unfold State.liftPark
  dsimp only
  split
  · exact .bumpSlice (.setClu h)
  · split
    · exact h
    · split
      · exact .spillDenied h
      · exact .bumpSlice (.bumpSlice (.ringWrite (.setClu h)))

theorem State.Ok.ringClear {cl e} (h : s.Ok) : (s.ringClear cl e).Ok := by
  unfold State.ringClear
  dsimp only
  split
  · exact h
  · exact .ringWrite (.setClu h)

theorem State.Ok.liftDrop {cl e} (h : s.Ok) : (s.liftDrop cl e).Ok :=
  .countWaiters (.onClu (.ringClear h))

theorem State.Ok.liftPut {cl e} (h : s.Ok) : (s.liftPut cl e).Ok := by
  unfold State.liftPut
  dsimp only
  split
  · exact .ringWrite (.onClu h)
  · exact .onClu h

/-! ### What a home sends back -/

theorem State.Ok.sendRes {w fid res w0 w1 poison} (h : s.Ok) : (s.sendRes w fid res w0 w1 poison).Ok :=
  .congr h rfl

theorem State.Ok.wakeNotice {gc part dest cell res} (h : s.Ok) : (s.wakeNotice gc part dest cell res).Ok :=
  .emit h

theorem State.Ok.engFinish {e} (h : s.Ok) : (s.engFinish e).Ok :=
  .ite (.onDie (.onCtx (.congr h rfl))) (.congr h rfl)

theorem State.Ok.engError {e cause va} (h : s.Ok) : (s.engError e cause va).Ok :=
  .engineFault h

theorem State.Ok.actionOver {uid status} (h : s.Ok) : (s.actionOver uid status).Ok := by
  unfold State.actionOver
  split
  · exact h
  · exact .engFinish (.ite h (.engineFault h))

theorem State.Ok.deliver {e status value index} (h : s.Ok) : (s.deliver e status value index).Ok := by
  unfold State.deliver
  dsimp only
  split
  · exact .actionOver h
  · exact .wakeNotice h
  · exact .sendRes h

theorem State.Ok.wakeOne {cl e} (h : s.Ok) : (s.wakeOne cl e).Ok := by
  unfold State.wakeOne
  dsimp only
  split
  · exact .deliver (.liftDrop (.hsuLine h))
  · split
    · exact .deliver (.liftDrop (.hsuLine h))
    · exact .deliver (.lckHold (.liftDrop (.hsuLine h)))
    · exact .deliver (.lckHold (.liftDrop (.hsuLine h)))
    · exact .deliver (State.Ok.qRes (.liftDrop (.hsuLine h)))
    · exact .deliver (State.Ok.qAwait (.liftDrop (.hsuLine h)))
    · exact .deliver (State.Ok.qPub (.liftDrop (.hsuLine h)))
    · exact .ite (.sendRes (.liftDrop (.hsuLine (.hsuLine h)))) (.ite (.deliver (.lckHold (.liftDrop (State.Ok.lckTicket (.hsuLine (.hsuLine h)))))) (.liftPut (State.Ok.lckTicket (.hsuLine (.hsuLine h)))))
    · exact .deliver (.liftDrop (.hsuLine h))

theorem State.Ok.wakeAll {cl pa line n} (h : s.Ok) : (s.wakeAll cl pa line n).Ok := by
  induction n generalizing s with
  | zero => exact h
  | succ n ih =>
    unfold State.wakeAll
    dsimp only
    split
    · exact h
    · split
      · exact h
      · exact ih h.wakeOne

theorem State.Ok.testWaiters {cl pa line} (h : s.Ok) : (s.testWaiters cl pa line).Ok :=
  .wakeAll h

theorem State.Ok.parkLift {op : CellOp} (k : s.Ok) : State.Ok (match op.mode with
    | .msg _ => (s, some 2)
    | _ =>
      let c := s.ctx op.org.w
      if c.fid = op.org.fid ∧ c.phase = .waitCell then
        ((s.dropLease op.org.w).toAll op.org.w (fun c => { c with phase := .lifted }), none)
      else (s, none) : State × Option Nat).1 := by
  split
  · exact k
  · exact .ite1 (.toAll (.dropLease k)) k

theorem State.Ok.parkOp {cl op code oper} (h : s.Ok) : (s.parkOp cl op code oper).1.Ok := by
  unfold State.parkOp
  refine .ite1 h.liftPark (.parkLift ?_)
  have k := State.Ok.countWaiters (cl := cl) (pa := op.pa) (h.liftPark (cl := cl) (e := op.entry code oper))
  split
  · exact k.lckTicket
  · exact .testWaiters (.lckServe (.hsuLine k))
  · exact k

theorem State.Ok.hsuDo {cl op} (h : s.Ok) : (s.hsuDo cl op).Ok := by
  unfold State.hsuDo
  dsimp only
  split
  · split
    · exact .sendRes (.touchSlice h)
    · split
      · refine .testWaiters ?_
        split
        · exact .ite (.sendRes (.wakeNotice (State.Ok.cellDo (.touchSlice h)))) (.sendRes (State.Ok.cellDo (.touchSlice h)))
        · exact .sendRes (State.Ok.cellDo (.touchSlice h))
      · split
        · exact .sendRes (.touchSlice h)
        · split
          · exact .sendRes (State.Ok.parkOp (.touchSlice h))
          · exact State.Ok.parkOp (.touchSlice h)
  · split
    · exact .sendRes (.hsuLine h)
    · split
      · refine .testWaiters ?_
        split
        · exact .ite (.sendRes (.wakeNotice (State.Ok.cellDo (.hsuLine h)))) (.sendRes (State.Ok.cellDo (.hsuLine h)))
        · exact .sendRes (State.Ok.cellDo (.hsuLine h))
      · split
        · exact .sendRes (.hsuLine h)
        · split
          · exact .sendRes (State.Ok.parkOp (.hsuLine h))
          · exact State.Ok.parkOp (.hsuLine h)

theorem State.Ok.execHsuOperation (h : s.Ok) : Safe (execHsuOperation s) := by
  unfold Machine.execHsuOperation
  dsimp only
  split
  · trivial
  · split
    · trivial
    · split
      · trivial
      · exact .hsuDo (.bumpSlice (.onClu h))

theorem State.Ok.rereadRing {cl p} (h : s.Ok) : (s.rereadRing cl p).Ok :=
  .foldl (.onClu h) fun _ _ h1 => .spillDenied h1

theorem State.Ok.execSpillLineReturn (h : s.Ok) : Safe (execSpillLineReturn s) := by
  unfold Machine.execSpillLineReturn
  dsimp only
  split
  · trivial
  · split
    · exact .testWaiters h
    · exact .testWaiters (.rereadRing h)

theorem State.Ok.execSpillRefill {cluster part} (h : s.Ok) : Safe (execSpillRefill cluster part s) := by
  unfold Machine.execSpillRefill
  dsimp only
  split
  · trivial
  · split
    · trivial
    · split
      · exact .liftDrop h
      · exact .countWaiters (.liftPut (.ringClear h))

theorem State.Ok.withdrawEnt {cl e} (h : s.Ok) : (s.withdrawEnt cl e).Ok :=
  .ite (.testWaiters (.foldl (.wr64 (.hsuLine (.liftDrop h))) fun _ _ h1 => .liftPut h1)) (.liftDrop h)

theorem State.Ok.waiterLost {e} (h : s.Ok) : (s.waiterLost e).Ok := by
  unfold State.waiterLost
  dsimp only
  split
  · exact .actionOver (.lateFault h)
  · exact .lateFault h

theorem State.Ok.poisonLine {pa} (h : s.Ok) : (s.poisonLine pa).Ok :=
  .foldl (.setPoison h) fun _ _ h1 => .waiterLost (.onClu (.ringClear h1))

theorem State.Ok.execWithdrawal (h : s.Ok) : Safe (execWithdrawal s) := by
  unfold Machine.execWithdrawal
  dsimp only
  split
  · trivial
  · split
    · trivial
    · split
      · trivial
      · split
        · split
          · trivial
          · exact .withdrawEnt (.onClu h)
        · exact .onClu h

theorem State.Ok.askWithdraw {w} (h : s.Ok) : (s.askWithdraw w).Ok := by
  unfold State.askWithdraw
  dsimp only
  split
  · exact .onClu h
  · exact h

theorem State.Ok.execCellResult (h : s.Ok) : Safe (execCellResult s) := by
  unfold Machine.execCellResult
  dsimp only
  split
  · trivial
  · split
    · exact .congr h rfl
    · split
      · exact .fault (.toAll (.congr h rfl))
      · exact .retire (.toAll (.ite (.note (.toAll (.congr h rfl))) (.toAll (.congr h rfl))))

/-! ### Messages -/

theorem State.Ok.image {w addr len} (h : s.Ok) : Kept (fun x => x.1.Ok) (s.image w addr len) := by
  unfold State.image
  split
  · next e => exact h.resolveL.stop e
  · exact State.Ok.touchLocal h

theorem State.Ok.fillSlot {w p} (h : s.Ok) : Kept State.Ok (s.fillSlot w p) := by
  unfold State.fillSlot
  dsimp only
  split
  · exact State.Ok.fresh (.onCtx (.putPkt h))
  · trivial

theorem State.Ok.fillTask {w p} (h : s.Ok) : Kept State.Ok (s.fillTask w p) := by
  unfold State.fillTask
  dsimp only
  split
  · exact State.Ok.fresh (.onCtx (.putPkt h))
  · trivial

theorem State.Ok.execSend {a b len1 nsucc} (h : s.Ok) : Safe (execSend a b len1 nsucc s) := by
  unfold Machine.execSend
  dsimp only
  refine State.Ok.once h fun w t k => ?_
  split
  · next e => exact k.image.stop e
  · next e =>
      have k1 := k.image.state e
      split
      · trivial
      · exact k1.fillSlot

theorem State.Ok.execSendv {a b c vp} (h : s.Ok) : Safe (execSendv a b c vp s) := by
  unfold Machine.execSendv
  dsimp only
  refine State.Ok.once h fun w t k => ?_
  split
  · trivial
  · exact k.fillSlot

theorem State.Ok.execSendp {a b len1 nsucc} (h : s.Ok) : Safe (execSendp a b len1 nsucc s) := by
  unfold Machine.execSendp
  dsimp only
  refine State.Ok.once h fun w t k => ?_
  split
  · next e => exact k.image.stop e
  · next e =>
      have k1 := k.image.state e
      split
      · trivial
      · exact k1.fillTask

theorem State.Ok.execReply {a b len1 nsucc rv rmb} (h : s.Ok) : Safe (execReply a b len1 nsucc rv rmb s) := by
  unfold Machine.execReply
  dsimp only
  refine State.Ok.once h fun w t k => ?_
  split
  · next e => exact k.image.stop e
  · next e =>
      have k1 := k.image.state e
      split
      · split
        · trivial
        · exact k1.fillSlot
      · split
        · trivial
        · exact k1.fillSlot

theorem State.Ok.execActivate {a b c e} (h : s.Ok) : Safe (execActivate a b c e s) := by
  unfold Machine.execActivate
  dsimp only
  refine State.Ok.once h fun w t k => ?_
  refine Kept.privileged ?_
  split
  · trivial
  · exact k.fillSlot

theorem State.Ok.queueNotices {w l} (h : s.Ok) : (s.queueNotices w l).Ok := by
  induction l generalizing s with
  | nil =>
    exact h
  | cons b l ih =>
    unfold State.queueNotices
    dsimp only
    exact ih (.fresh (.congr h rfl))

theorem State.Ok.finOp {w} (h : s.Ok) : Kept State.Ok (finOp w s) := by
  unfold Machine.finOp
  dsimp only
  split
  · next e =>
    split at e
    · cases e; trivial
    · exact h.commit.stop e
  · next e =>
    split at e
    · cases e
    · have k := h.commit.result e
      split
      · exact k.queueNotices
      · exact State.Ok.cutShort k.queueNotices

theorem State.Ok.execYield (h : s.Ok) : Safe (execYield s) := by
  unfold Machine.execYield
  refine State.Ok.once h fun w t k => ?_
  split
  · exact k.finOp
  · exact k

theorem State.Ok.execMpeek {what d b c} (h : s.Ok) : Safe (execMpeek what d b c s) :=
  State.Ok.eachCtx (.readWord h)

/-! ### Landing counters -/

theorem State.Ok.setCtr {c r} (h : s.Ok) : (s.setCtr c r).Ok :=
  .ite (.onClu h) (.onCore h)

theorem State.Ok.markCtr {w i} (h : s.Ok) : (s.markCtr w i).Ok :=
  .ite (.setDesc (.foldl h fun _ _ h1 => .onCtx h1)) (.foldl h fun _ _ h1 => .onCtx h1)

theorem State.Ok.releaseCtr {w i} (h : s.Ok) : (s.releaseCtr w i).Ok :=
  .foldl (.foldl h fun _ _ h1 => .ite (.setDesc h1) h1) fun _ _ h1 => .ite (.onCtx h1) h1

theorem State.Ok.armRegion {w r} (h : s.Ok) : Kept (fun x => x.1.Ok) (s.armRegion w r) := by
  unfold State.armRegion
  dsimp only
  split
  · next e => exact h.translate.stop e
  · next e =>
      have k := h.translate.state e
      split
      · trivial
      · split
        · trivial
        · exact k
  · trivial

theorem State.Ok.armAction {w p r} (h : s.Ok) : Kept (fun x => x.1.Ok) (s.armAction w p r) := by
  unfold State.armAction
  dsimp only
  split
  · split
    · trivial
    · split
      · next e2 => exact h.cellAddr.stop e2
      · next e2 => exact (h.cellAddr.state e2)
  · split
    · split
      · trivial
      · split
        · split
          · trivial
          · exact h
        · split
          · trivial
          · exact h
    · exact h

theorem State.Ok.armCore {w i r} (h : s.Ok) : Kept (fun x => x.1.Ok) (s.armCore w i r) := by
  unfold State.armCore
  dsimp only
  split
  · exact h
  · split
    · exact State.Ok.ite h (.markCtr h)
    · split
      · exact h
      · exact State.Ok.setCtr (.ite h (.markCtr h))

theorem State.Ok.armSlice {w hb r x} (h : s.Ok) (e : s.armSlice w hb r = x) : Kept (fun x => x.1.Ok) x := by
  subst e
  unfold State.armSlice
  dsimp only
  split
  · exact State.Ok.congr h rfl
  · split
    · exact h
    · exact State.Ok.setCtr h

theorem State.Ok.armDone {w va l} {st : Dst} {x : Except Stop (State × Nat)} : Kept (fun y => y.1.Ok) x → Kept State.Ok (match x with
    | .error e => .error e
    | .ok (s, v) => .ok ((s.touchLocal w va l).onCtx w fun c => c.dst st (BitVec.ofNat 64 v))) := by
  intro k
  cases x with
  | error e => exact k
  | ok r => exact State.Ok.onCtx (.touchLocal k)

theorem State.Ok.landArmOp {st b idx w} (h : s.Ok) : Kept State.Ok (landArmOp st b idx w s) := by
  fun_cases Machine.landArmOp st b idx w s
  · next e => exact h.resolveL.stop e
  · trivial
  · trivial
  · trivial
  · next e _ => exact h.armAction.stop e
  · next e _ => exact State.Ok.armDone (State.Ok.armCore (h.armAction.state e))
  · next e _ => exact h.armRegion.stop e
  · next e _ e1 _ => exact (h.armRegion.state e).armAction.stop e1
  · generalize e2 : State.armSlice _ _ _ _ = x
    next e _ _ e1 _ => exact State.Ok.armDone (((h.armRegion.state e).armAction.state e1).armSlice e2)

theorem State.Ok.execLandOff {a rel} (h : s.Ok) : Safe (execLandOff a rel s) := by
  unfold Machine.execLandOff
  dsimp only
  refine State.Ok.each h fun w t k => ?_
  split
  · trivial
  · split
    · trivial
    · exact State.Ok.ite (.releaseCtr (.ite (.setCtr k) k)) (.ite (.setCtr k) k)

theorem State.Ok.execLandRd {n b} (h : s.Ok) : Safe (execLandRd n b s) := by
  unfold Machine.execLandRd
  dsimp only
  refine State.Ok.each h fun w t k => ?_
  split
  · trivial
  · split
    · trivial
    · exact State.Ok.onCtx k

theorem State.Ok.execWaitc {ld st cp tl} (h : s.Ok) : Safe (execWaitc ld st cp tl s) := by
  unfold Machine.execWaitc
  dsimp only
  refine State.Ok.each h fun w t k => ?_
  split
  · exact k
  · exact k

theorem State.Ok.landError {r cause va} (h : s.Ok) : (s.landError r cause va).Ok :=
  .lateNotice h

theorem State.Ok.actCell {home pa act} (h : s.Ok) : (s.actCell home pa act).1.Ok :=
  State.Ok.cellDo (.bumpSlice (.hsuLine h))

theorem State.Ok.newSeq {pair p} (h : s.Ok) : (s.newSeq pair p).1.Ok := by
  unfold State.newSeq
  split
  · exact .congr h rfl
  · exact h

theorem State.Ok.putTask {gc p} (h : s.Ok) : (s.putTask gc p).Ok :=
  .onCore (.putPkt h)

theorem State.Ok.landTask {gc part key r p} (h : s.Ok) : (s.landTask gc part key r p).Ok :=
  .ite (.congr h rfl) (.ite (.onCore h) (.putTask h))

theorem State.Ok.landAct {id r} (h : s.Ok) : (s.landAct id r).Ok := by
  unfold State.landAct
  dsimp only
  split
  · exact .ite (.landError h) (.ite (.landError h) (.testWaiters (.ite h.actCell (.landError h.actCell))))
  · exact .ite (.landError h) (.ite (.landError h) (.testWaiters (.ite h.actCell (.landError h.actCell))))
  · exact .ite (.landError h) (.ite (.landTask h) (.congr h.newSeq rfl))
  · exact .landNotice h
  · exact h

theorem State.Ok.execLandingAction {slice unit idx} (h : s.Ok) : Safe (execLandingAction slice unit idx s) := by
  unfold Machine.execLandingAction
  dsimp only
  split
  · trivial
  · split
    · trivial
    · exact .landAct (.ite (.bumpSlice (.setCtr h)) (.bumpCore (.setCtr h)))

theorem State.Ok.execLandingDeadline {slice unit idx} (h : s.Ok) : Safe (execLandingDeadline slice unit idx s) := by
  unfold Machine.execLandingDeadline
  dsimp only
  split
  · trivial
  · exact .landNotice (.setCtr h)

theorem State.Ok.execLandingPoolRetry (h : s.Ok) : Safe (execLandingPoolRetry s) := by
  unfold Machine.execLandingPoolRetry
  split
  · trivial
  · split
    · trivial
    · exact .landTask (.onCore h)

/-! ### Engine commands -/

theorem State.Ok.rowL {w write a n} (_ : s.Ok) : Kept (fun _ => True) (s.rowL w write a n) := by
  unfold State.rowL
  dsimp only
  split
  · trivial
  · trivial

theorem State.Ok.rowA {w base o n} (_ : s.Ok) : Kept (fun _ => True) (s.rowA w base o n) := by
  unfold State.rowA
  dsimp only
  split
  · trivial
  · split
    · split
      · trivial
      · trivial
    · split
      · trivial
      · trivial

theorem rowX_kept {x n} : Kept (fun _ => True) (rowX x n) := by
  unfold rowX
  dsimp only
  split
  · trivial
  · trivial

theorem State.Ok.engRow {w sp base write o n} (h : s.Ok) : Kept (fun _ => True) (s.engRow w sp base write o n) := by
  unfold State.engRow
  split
  · trivial
  · split
    · exact h.rowL
    · exact h.rowA
    · exact rowX_kept
    · exact h.spansOf

theorem State.Ok.engRows {w sp base write l} (h : s.Ok) : Kept (fun _ => True) (s.engRows w sp base write l) := by
  induction l generalizing s with
  | nil =>
    trivial
  | cons b l ih =>
    unfold State.engRows
    split
    · next e => exact h.engRow.stop e
    · split
      · next e1 => exact (ih h).stop e1
      · trivial

theorem State.Ok.actAddr {w act va} (h : s.Ok) : Kept (fun _ => True) (s.actAddr w act va) := by
  unfold State.actAddr
  split
  · trivial
  · split
    · next e1 => exact h.spansOf.stop e1
    · split
      · trivial
      · trivial
    · trivial

theorem State.Ok.handOver {w mk} (h : s.Ok) : Kept State.Ok (s.handOver w mk) := by
  unfold State.handOver
  dsimp only
  split
  · next e => exact h.commit.stop e
  · next e =>
      have k := h.commit.result e
      split
      · exact k
      · exact State.Ok.fresh (.onCtx (.congr k rfl))

theorem State.Ok.copyIssue {q lenVa w} (h : s.Ok) : Kept State.Ok (copyIssue q lenVa w s) := by
  unfold Machine.copyIssue
  dsimp only
  split
  · trivial
  · split
    · next e1 => exact h.leavesOf.stop e1
    · next e1 =>
        have k := h.leavesOf.result e1
        split
        · next e2 => exact k.leavesOf.stop e2
        · next e2 =>
            have k1 := k.leavesOf.result e2
            split
            · next e3 => exact k1.leavesOf.stop e3
            · next e3 =>
                have k2 := k1.leavesOf.result e3
                split
                · trivial
                · split
                  · trivial
                  · split
                    · next e6 => exact k2.engRows.stop e6
                    · split
                      · next e7 =>
                          split at e7
                          · exact k2.engRows.stop e7
                          · cases e7
                      · split
                        · trivial
                        · split
                          · next e9 => exact k2.actAddr.stop e9
                          · exact k2.handOver

theorem Kept.readAtIssue {w va l r} (h : Kept State.Ok r) : Kept State.Ok (readAtIssue w va l r) := by
  unfold Machine.readAtIssue
  split
  · exact State.Ok.touchLocal h
  · exact h

theorem State.Ok.execCpyx {a b c o dsp ssp act pol fmt list} (h : s.Ok) : Safe (execCpyx a b c o dsp ssp act pol fmt list s) := by
  unfold Machine.execCpyx
  dsimp only
  refine State.Ok.once h fun w t k => ?_
  split
  · split
    · trivial
    · exact k.copyIssue
  · next e1 => exact k.resolveL.stop e1
  · exact Kept.readAtIssue (k.copyIssue)

theorem State.Ok.bselOp {a o w} (h : s.Ok) : Kept State.Ok (bselOp a o w s) := by
  unfold Machine.bselOp
  dsimp only
  split
  · next e => exact h.resolveL.stop e
  · split
    · trivial
    · split
      · next e2 => exact h.leavesOf.stop e2
      · next e2 =>
          have k := h.leavesOf.result e2
          split
          · trivial
          · split
            · next e4 => exact k.resolveL.stop e4
            · split
              · trivial
              · split
                · next e6 => exact k.spansOfAll.stop e6
                · exact Kept.readAtIssue (Kept.readAtIssue (k.handOver))

theorem State.Ok.setTotal {gc idx rows} (h : s.Ok) : (s.setTotal gc idx rows).1.Ok := by
  unfold State.setTotal
  dsimp only
  split
  · exact h
  · split
    · exact h
    · exact .ite (.landNotice (.setCtr h)) (.setCtr h)

theorem State.Ok.setCmd {e} (h : s.Ok) : (s.setCmd e).Ok :=
  .congr h rfl

theorem State.Ok.abandon {e} (h : s.Ok) : (s.abandon e).Ok :=
  .engFinish (.engError h)

theorem State.Ok.execEngineCommandDelivery (h : s.Ok) : Safe (execEngineCommandDelivery s) := by
  unfold Machine.execEngineCommandDelivery
  dsimp only
  split
  · trivial
  · split
    · trivial
    · split
      · exact .fresh (.setCmd h)
      · split
        · exact .foldl (.bumpCore h) fun _ _ h1 => .abandon h1
        · exact .setCmd (.bumpCore h)

theorem State.Ok.execEngineRetryTimer (h : s.Ok) : Safe (execEngineRetryTimer s) := by
  unfold Machine.execEngineRetryTimer
  split
  · trivial
  · split
    · trivial
    · exact .setCmd h

theorem State.Ok.stopCmd {e cause va} (h : s.Ok) : (s.stopCmd e cause va).Ok :=
  .engError (.setCmd h)

theorem State.Ok.bselRun {e f b} (h : s.Ok) (k : s.bselRun e b = .ok (t, f)) : t.Ok := by
  unfold State.bselRun at k
  dsimp only at k
  split at k
  · cases k
  · split at k
    · cases k; exact h.touchRead
    · split at k
      · cases k; exact h.touchRead.setTotal
      · cases k

theorem State.Ok.startCmd {e} (h : s.Ok) : (s.startCmd e).Ok := by
  unfold State.startCmd
  dsimp only
  split
  · exact h
  · split
    · next e => exact .setCmd (h.bselRun e)
    · exact h.stopCmd

theorem State.Ok.execEngineCommandStart (h : s.Ok) : Safe (execEngineCommandStart s) := by
  unfold Machine.execEngineCommandStart
  dsimp only
  split
  · trivial
  · split
    · trivial
    · split
      · split
        · trivial
        · exact .askLeave h
      · exact .startCmd h

theorem State.Ok.spreadPoison {d x l} (h : s.Ok) : (s.spreadPoison d x l).Ok := by
  induction l generalizing s x with
  | nil =>
    exact h
  | cons b l ih =>
    unfold State.spreadPoison
    dsimp only
    refine ih ?_
    split
    · split
      · exact .poisonLine h
      · exact h
    · exact h

theorem State.Ok.putPiece {e d o p} (h : s.Ok) : (s.putPiece e d o p).Ok := by
  unfold State.putPiece
  dsimp only
  split
  · refine .stopCmd ?_
    split
    · exact .engError (.ite (State.Ok.writeSpans (.touchRead h)) (.spreadPoison (State.Ok.writeSpans (.touchRead h))))
    · exact .ite (State.Ok.writeSpans (.touchRead h)) (.spreadPoison (State.Ok.writeSpans (.touchRead h)))
  · refine .stopCmd ?_
    split
    · exact .engError (.ite (State.Ok.writeSpans (.touchRead h)) (.spreadPoison (State.Ok.writeSpans (.touchRead h))))
    · exact .ite (State.Ok.writeSpans (.touchRead h)) (.spreadPoison (State.Ok.writeSpans (.touchRead h)))
  · refine .stopCmd ?_
    split
    · exact .engError (.ite (State.Ok.writeSpans (.touchRead h)) (.spreadPoison (State.Ok.writeSpans (.touchRead h))))
    · exact .ite (State.Ok.writeSpans (.touchRead h)) (.spreadPoison (State.Ok.writeSpans (.touchRead h)))
  · refine .setCmd ?_
    split
    · exact .engError (.ite (State.Ok.writeSpans (.touchRead h)) (.spreadPoison (State.Ok.writeSpans (.touchRead h))))
    · exact .ite (State.Ok.writeSpans (.touchRead h)) (.spreadPoison (State.Ok.writeSpans (.touchRead h)))

theorem State.Ok.engStep {e} (h : s.Ok) : Maybe (s.engStep e) := by
  unfold State.engStep
  dsimp only
  split
  · trivial
  · split
    · trivial
    · split
      · exact .setCmd h
      · split
        · exact .putPiece h
        · exact .putPiece h

theorem State.Ok.execHomeWrite (h : s.Ok) : Safe (execHomeWrite s) := by
  unfold Machine.execHomeWrite
  split
  · next e => exact h.storeNow.state e
  · split
    · next e =>
      obtain ⟨_, -, e⟩ := Option.bind_eq_some_iff.1 e
      exact h.engStep.state e
    · trivial

theorem State.Ok.bselReply {e b} (h : s.Ok) : (s.bselReply e b).Ok :=
  .emit h

theorem State.Ok.execEngineCommandComplete (h : s.Ok) : Safe (execEngineCommandComplete s) := by
  unfold Machine.execEngineCommandComplete
  split
  · trivial
  · split
    · trivial
    · split
      · exact .engFinish h
      · split
        · exact .setCmd h
        · split
          · exact .ite (.bselReply (.engFinish h)) (.engFinish h)
          · exact .engFinish h

theorem State.Ok.execCompletionAction (h : s.Ok) : Safe (execCompletionAction s) := by
  unfold Machine.execCompletionAction
  dsimp only
  split
  · trivial
  · split
    · trivial
    · split
      · exact .engFinish (.engineFault h)
      · split
        · exact .engFinish (.engineFault h)
        · split
          · exact .testWaiters (.actionOver h.actCell)
          · split
            · exact .setCmd (State.Ok.liftPark h.actCell)
            · exact .actionOver (State.Ok.liftPark h.actCell)

/-! ### Trees -/

theorem State.Ok.execTinj {a} (h : s.Ok) : Safe (execTinj a s) := by
  unfold Machine.execTinj
  dsimp only
  refine State.Ok.once h fun w t k => ?_
  split
  · next e => exact k.resolveL.stop e
  · split
    · trivial
    · split
      · next e2 => exact (State.Ok.commit (.touchLocal k)).stop e2
      · next e2 =>
          have k1 := (State.Ok.commit (.touchLocal k)).result e2
          split
          · exact k1
          · exact State.Ok.onCore k1

theorem State.Ok.execText {d a tr} (h : s.Ok) : Safe (execText d a tr s) := by
  unfold Machine.execText
  refine State.Ok.once h fun w t k => ?_
  split
  · next e => exact k.resolveL.stop e
  · split
    · next e1 => exact k.commit.stop e1
    · next e1 =>
        have k1 := k.commit.result e1
        split
        · split
          · exact State.Ok.toAll k1
          · exact k1
        · split
          · next e3 => exact k1.storeAt.stop e3
          · next e3 => exact State.Ok.toAll (.onCore (k1.storeAt.result e3))

theorem State.Ok.treeDenied {gc i} (h : s.Ok) : (s.treeDenied gc i).Ok :=
  .lateNotice h

theorem State.Ok.treePut {gc i p} (h : s.Ok) : (s.treePut gc i p).1.Ok := by
  unfold State.treePut
  dsimp only
  split
  · exact State.Ok.wrPlain (.atHome h)
  · exact .treeDenied h

theorem State.Ok.treeLost {m l} (h : s.Ok) : (s.treeLost m l).Ok :=
  .foldl h fun _ _ h1 => .ite h1 (.treeDenied h1)

theorem State.Ok.resultHead {g seq l} (h : s.Ok) : (s.resultHead g seq l).1.Ok :=
  .congr h rfl

theorem State.Ok.hold {m core p} (h : s.Ok) : (s.hold m core p).Ok := by
  unfold State.hold
  dsimp only
  split
  · exact .onMod h
  · exact .ite (.onMod h) (.ite (.onMod h.treePut) h.treePut)

theorem State.Ok.treeDeliver {m core p} (h : s.Ok) : (s.treeDeliver m core p).Ok :=
  .ite (.onCore h) (.hold h)

theorem State.Ok.treeNotice {m g seq} (h : s.Ok) : (s.treeNotice m g seq).Ok :=
  .lateNotice h

theorem State.Ok.combine {m g seq err} (h : s.Ok) : (s.combine m g seq err).Ok :=
  .ite (.treeNotice (.foldl (.onMod (State.Ok.resultHead (.treeLost h))) fun _ _ h1 => .treeDeliver h1)) (.foldl (.onMod (State.Ok.resultHead (.treeLost h))) fun _ _ h1 => .treeDeliver h1)

theorem State.Ok.putChunk {m c away} (h : s.Ok) : (s.putChunk m c away).Ok :=
  .ite (.ite (.onMod h.treePut) h.treePut) (.onMod h)

theorem State.Ok.drainInj {m gc n} (h : s.Ok) : (s.drainInj m gc n).Ok := by
  induction n generalizing s with
  | zero => exact h
  | succ n ih =>
    unfold State.drainInj
    dsimp only
    split
    · exact h
    · split
      · exact h
      · exact ih h.putChunk

theorem State.Ok.treeDrain {m} (h : s.Ok) : (s.treeDrain m).Ok :=
  .foldl h fun _ _ h1 => .drainInj h1

theorem State.Ok.execTreeCombine {m group seq} (h : s.Ok) : Safe (execTreeCombine m group seq s) := by
  unfold Machine.execTreeCombine
  dsimp only
  split
  · exact .combine (.treeDrain h)
  · split
    · exact .treeDrain h
    · trivial

theorem State.Ok.flushOut {m l} (h : s.Ok) : (s.flushOut m l).Ok := by
  induction l generalizing s with
  | nil =>
    exact h
  | cons b l ih =>
    unfold State.flushOut
    exact ih (.treeDeliver h)

theorem State.Ok.execTreeFetchBack (h : s.Ok) : Safe (execTreeFetchBack s) := by
  unfold Machine.execTreeFetchBack
  dsimp only
  split
  · exact .flushOut (.onMod h)
  · split
    · trivial
    · split
      · exact .ite (.onMod h) (.treeDenied (.onMod h))
      · trivial
      · exact .treeLost (.onMod h)

theorem State.Ok.execTreeGroupEnable {m group g} (h : s.Ok) : Safe (execTreeGroupEnable m group g s) := by
  unfold Machine.execTreeGroupEnable
  split
  · exact h
  · exact .onMod h

theorem State.Ok.execTreeGroupDisable {m group} (h : s.Ok) : Safe (execTreeGroupDisable m group s) := by
  unfold Machine.execTreeGroupDisable
  dsimp only
  split
  · exact h
  · exact .onMod (.foldl (.treeDrain h) fun _ _ h1 => .combine h1)

/-! ### Supervisor instructions -/

theorem State.Ok.execTrap {imm a} (h : s.Ok) : Safe (execTrap imm a s) := by
  unfold Machine.execTrap
  refine State.Ok.each h fun w t k => ?_
  trivial

theorem State.Ok.execBrk (h : s.Ok) : Safe (execBrk s) := by
  unfold Machine.execBrk
  refine State.Ok.each h fun w t k => ?_
  trivial

theorem State.Ok.execSrd {d n} (h : s.Ok) : Safe (execSrd d n s) := by
  unfold Machine.execSrd
  refine State.Ok.each h fun w t k => ?_
  split
  · trivial
  · exact State.Ok.onCtx k

theorem State.Ok.sprPut {w n v} (h : s.Ok) : (s.sprPut w n v).Ok := by
  unfold State.sprPut
  dsimp only
  split
  · exact .onCtx h
  · exact .onCore h
  · exact .onCore h
  · exact h

theorem State.Ok.execSwr {n a} (h : s.Ok) : Safe (execSwr n a s) := by
  unfold Machine.execSwr
  refine State.Ok.each h fun w t k => ?_
  split
  · trivial
  · exact State.Ok.sprPut k

theorem State.Ok.execHalt (h : s.Ok) : Safe (execHalt s) := by
  unfold Machine.execHalt
  dsimp only
  refine State.Ok.once h fun w t k => ?_
  refine Kept.privileged ?_
  split
  · next e => exact k.finOp.stop e
  · next e => exact State.Ok.faultNotice (.onCore (k.finOp.result e))

theorem State.Ok.tlbDrop {part r} (h : s.Ok) : (s.tlbDrop part r).Ok :=
  .congr h rfl

theorem State.Ok.execTlbinv {x} (h : s.Ok) : Safe (execTlbinv x s) := by
  unfold Machine.execTlbinv
  dsimp only
  refine State.Ok.each h fun w t k => ?_
  refine Kept.privileged ?_
  split
  · exact k
  · split
    · split
      · exact State.Ok.tlbDrop k
      · exact State.Ok.tlbDrop k
    · split
      · exact State.Ok.tlbDrop k
      · exact State.Ok.tlbDrop k

theorem State.Ok.replayCore {part vpn gc} (h : s.Ok) : (s.replayCore part vpn gc).Ok :=
  .foldl (.setCore h) fun _ _ h1 => .setDesc h1

theorem State.Ok.replayCtx {part vpn gc} (h : s.Ok) : (s.replayCtx part vpn gc).Ok :=
  .foldl h fun _ _ h1 => .ite (.setCtx h1) h1

theorem State.Ok.replay {cl part vpn} (h : s.Ok) : (s.replay cl part vpn).Ok := by
  unfold State.replay
  exact .onClu (.foldl h fun _ _ h => .replayCtx (.replayCore h))

theorem State.Ok.execTlbreplay {x} (h : s.Ok) : Safe (execTlbreplay x s) := by
  unfold Machine.execTlbreplay
  dsimp only
  refine State.Ok.each h fun w t k => ?_
  refine Kept.privileged ?_
  split
  · exact k
  · exact State.Ok.replay k

theorem State.Ok.execFltpop {n} (h : s.Ok) : Safe (execFltpop n s) := by
  unfold Machine.execFltpop
  dsimp only
  refine State.Ok.each h fun w t k => ?_
  refine Kept.privileged ?_
  split
  · exact k
  · split
    · exact State.Ok.onCtx (.setClu k)
    · exact State.Ok.onCtx (.setClu k)

theorem State.Ok.execPlinv {x} (h : s.Ok) : Safe (execPlinv x s) := by
  unfold Machine.execPlinv
  dsimp only
  refine State.Ok.each h fun w t k => ?_
  refine Kept.privileged ?_
  split
  · exact k
  · split
    · exact State.Ok.dropPlace k
    · exact State.Ok.foldl k fun _ _ h1 => .onCore h1

/-! ### The start of a firing -/

theorem State.Ok.writeWindow {gc x ps} (h : s.Ok) : (s.writeWindow gc x ps).Ok :=
  .foldl h fun _ _ h1 => .putPkt h1

theorem State.Ok.startOn {w a bud} (h : s.Ok) : (s.startOn w a bud).Ok :=
  .setCtx (.writeWindow h)

theorem State.Ok.consume {gc slot r} (h : s.Ok) : (s.consume gc slot r).1.Ok := by
  refine List.foldlRecOn (motive := fun (x : State × List Pkt) => x.1.Ok) _ _ h fun x hx m _ => ?_
  split
  · exact hx
  · exact State.Ok.mbTake hx

theorem State.Ok.startActor {gc slot k0 x} (h : s.Ok) : (s.startActor gc slot k0 x).Ok :=
  .fresh (.readWord (.ite (.foldl (.startOn (.setSched h.consume)) fun _ _ h1 => .startOn h1) (.startOn (.setSched h.consume))))

theorem State.Ok.startTask {gc t p x} (h : s.Ok) : (s.startTask gc t p x).Ok :=
  .fresh (.startOn (.onCore (.poolKeep h)))

theorem State.Ok.startAct {gc p x} (h : s.Ok) : (s.startAct gc p x).Ok :=
  .fresh (.startOn h)

theorem State.Ok.startCand {gc c} (h : s.Ok) : (s.startCand gc c).Ok := by
  unfold State.startCand
  dsimp only
  split
  · split
    · exact .startAct (.onCore (.bumpCore (.onCore h)))
    · exact .bumpCore (.onCore h)
  · split
    · exact .startActor (.bumpCore (.onCore h))
    · exact .bumpCore (.onCore h)
  · split
    · exact .startTask (.bumpCore (.onCore h))
    · exact .bumpCore (.onCore h)

theorem State.Ok.execFiringChoice (h : s.Ok) : Safe (execFiringChoice s) := by
  unfold Machine.execFiringChoice
  split
  · exact .startCand h
  · trivial

theorem State.Ok.execStealSweep (h : s.Ok) : Safe (execStealSweep s) := by
  unfold Machine.execStealSweep
  dsimp only
  split
  · trivial
  · exact .setCore h

theorem State.Ok.execStealAnswer (h : s.Ok) : Safe (execStealAnswer s) := by
  unfold Machine.execStealAnswer
  dsimp only
  split
  · split
    · split
      · trivial
      · show State.Ok _
        refine .onCore ?_
        split
        · exact .onCore h
        · exact h
    · split
      · trivial
      · exact .onCore h
  · trivial

theorem State.Ok.execStealReply (h : s.Ok) : Safe (execStealReply s) := by
  unfold Machine.execStealReply
  dsimp only
  split
  · show State.Ok _
    split
    · exact .startCand (.pushTop (.bumpCore (.setCore h)))
    · exact .pushTop (.bumpCore (.setCore h))
  · split
    · exact .setCore h
    · exact .setCore h
  · trivial

theorem State.Ok.execForecastUpdate (h : s.Ok) : Safe (execForecastUpdate s) := by
  unfold Machine.execForecastUpdate
  dsimp only
  split
  · trivial
  · exact .setCore h

theorem State.Ok.execYieldTimer (h : s.Ok) : Safe (execYieldTimer s) := by
  unfold Machine.execYieldTimer
  dsimp only
  split
  · trivial
  · exact .foldl (.ite (.onCore h) h) fun _ _ h1 => .onCtx h1

theorem State.Ok.setGact {lead on} (h : s.Ok) : (s.setGact lead on).Ok :=
  .foldl h fun _ _ h1 => .onCore h1

theorem State.Ok.execGangEnter (h : s.Ok) : Safe (execGangEnter s) := by
  unfold Machine.execGangEnter
  dsimp only
  split
  · trivial
  · exact .setGact h

theorem State.Ok.execGangExit (h : s.Ok) : Safe (execGangExit s) := by
  unfold Machine.execGangExit
  dsimp only
  split
  · trivial
  · exact .setGact h

theorem State.Ok.execInstructionFetch (h : s.Ok) : Safe (execInstructionFetch s) := by
  unfold Machine.execInstructionFetch
  split
  · trivial
  · split
    · next e1 => exact (h.fetch.state e1)
    · exact .fault h
    · next e1 => exact (h.fetch.wait e1)

theorem State.Ok.execImpreciseFaultTaken (h : s.Ok) : Safe (execImpreciseFaultTaken s) := by
  unfold Machine.execImpreciseFaultTaken
  split
  · trivial
  · split
    · exact .takeTrap h
    · trivial

/-! ### Flows and links -/

theorem State.Ok.setFlow {m f x} (h : s.Ok) : (s.setFlow m f x).Ok :=
  .onMod h

theorem State.Ok.pushFrame {m f type seq segs} (h : s.Ok) : (s.pushFrame m f type seq segs).Ok :=
  .setFlow (.onMod h)

theorem State.Ok.sendSeg {m f g} (h : s.Ok) : (s.sendSeg m f g).Ok :=
  .setFlow (.pushFrame h)

theorem State.Ok.flushPend {m f l} (h : s.Ok) : (s.flushPend m f l).Ok := by
  induction l generalizing s with
  | nil =>
    exact .setFlow h
  | cons b l ih =>
    unfold State.flushPend
    dsimp only
    exact .ite (ih (.sendSeg h)) (.setFlow h)

theorem State.Ok.queueSeg {m f g} (h : s.Ok) : (s.queueSeg m f g).Ok :=
  .ite (.flushPend h) h

theorem State.Ok.patrolReply {m e status v} (h : s.Ok) : (s.patrolReply m e status v).Ok :=
  .ite (.onMod h) (.ite (.emit h) h)

theorem State.Ok.patrolArrive {m e} (h : s.Ok) : (s.patrolArrive m e).Ok :=
  .ite h (.ite (.patrolReply h) (.onMod h))

theorem State.Ok.setLink {m port x} (h : s.Ok) : (s.setLink m port x).Ok :=
  .onMod h

theorem State.Ok.putFlit {m port vc dst src last body} (h : s.Ok) : (s.putFlit m port vc dst src last body).Ok :=
  .onMod (.setLink h)

theorem State.Ok.putFlits {m port vc dst l} (h : s.Ok) : (s.putFlits m port vc dst l).Ok := by
  induction l generalizing s with
  | nil =>
    exact h
  | cons b l ih =>
    unfold State.putFlits
    exact ih (.putFlit h)

theorem State.Ok.sendFlits {m d patrol p} (h : s.Ok) : (s.sendFlits m d patrol p).Ok := by
  unfold State.sendFlits
  split
  · exact h
  · split
    · exact h
    · exact .putFlits h

theorem State.Ok.flitTake {m b} (h : s.Ok) : (s.flitTake m b).Ok := by
  unfold State.flitTake
  dsimp only
  split
  · exact h
  · split
    · split
      · exact h
      · exact .ite h (.putFlit h)
    · exact .onMod h

theorem State.Ok.resendFlits {m port n} (h : s.Ok) : (s.resendFlits m port n).Ok :=
  .onMod h

theorem State.Ok.execFlitReceive {m port flit} (h : s.Ok) : Safe (execFlitReceive m port flit s) := by
  unfold Machine.execFlitReceive
  dsimp only
  split
  · trivial
  · split
    · exact .resendFlits (.setLink h)
    · split
      · exact h
      · exact .flitTake (.setLink h)

theorem State.Ok.execLinkRetrain {m port} (h : s.Ok) : Safe (execLinkRetrain m port s) := by
  unfold Machine.execLinkRetrain
  dsimp only
  split
  · trivial
  · exact .setLink h

theorem State.Ok.execLinkDown {m port} (h : s.Ok) : Safe (execLinkDown m port s) := by
  unfold Machine.execLinkDown
  dsimp only
  split
  · trivial
  · split
    · trivial
    · exact .setLink h

theorem State.Ok.execLinkRetrained {m port} (h : s.Ok) : Safe (execLinkRetrained m port s) := by
  unfold Machine.execLinkRetrained
  dsimp only
  split
  · trivial
  · split
    · trivial
    · exact .setLink h

/-! ### Packets -/

theorem State.Ok.setPkt {e} (h : s.Ok) : (s.setPkt e).Ok :=
  .congr h rfl

theorem State.Ok.freeSent {e} (h : s.Ok) : (s.freeSent e).Ok := by
  unfold State.freeSent
  split
  · exact .onCtx h
  · exact h

theorem State.Ok.dropPkt {e} (h : s.Ok) : (s.dropPkt e).Ok :=
  .freeSent (.congr h rfl)

theorem State.Ok.sendBounce {e reason} (h : s.Ok) : (s.sendBounce e reason).Ok := by
  unfold State.sendBounce
  dsimp only
  split
  · exact .ite (.onMod h) (.queueSeg h)
  · exact .ite (.emit h) (.emit h)

theorem State.Ok.bounceOne {e reason} (h : s.Ok) : (s.bounceOne e reason).Ok := by
  unfold State.bounceOne
  dsimp only
  split
  · exact .landError (.sendBounce (.dropPkt h))
  · exact .sendBounce (.dropPkt h)

theorem State.Ok.bounce {e reason} (h : s.Ok) : (s.bounce e reason).Ok := by
  unfold State.bounce
  dsimp only
  split
  · exact .bounceOne h
  · exact .congr (.foldl (.bounceOne h) fun _ _ h1 => .bounceOne h1) rfl

theorem State.Ok.findDest {e} (h : s.Ok) : (s.findDest e).1.Ok := by
  unfold State.findDest
  split
  · exact .aptTouch h
  · exact h.place

theorem State.Ok.toHost {e ent} (h : s.Ok) : (s.toHost e ent).Ok := by
  unfold State.toHost
  split
  · exact .patrolArrive (.setPkt h)
  · split
    · exact .ite h h.bounce
    · exact h
    · next e =>
      unfold State.flowSend at e
      dsimp only at e
      split at e
      · cases e
      · split at e
        · cases e
        · cases e; exact .setPkt (.congr h rfl)

theorem State.Ok.fly {e d} (h : s.Ok) : (s.fly e d).Ok :=
  .setPkt (.sendFlits h)

theorem State.Ok.netSend {e} (h : s.Ok) : (s.netSend e).Ok :=
  .ite (.setPkt h) (.ite (.ite (.fly h) (.bounce h)) (.ite (.ite (.setPkt h.findDest) (.bounce h.findDest)) (.ite (.toHost h.findDest) (.ite (.ite (.setPkt h.findDest) (.bounce h.findDest)) (.ite (.ite (.setPkt h.findDest) (.bounce h.findDest)) (.fly h.findDest))))))

theorem State.Ok.execPacketInject (h : s.Ok) : Safe (execPacketInject s) := by
  unfold Machine.execPacketInject
  dsimp only
  split
  · trivial
  · split
    · exact .bounce h
    · split
      · trivial
      · exact .netSend (.ite (.onCore h) h)
    · trivial

theorem State.Ok.append {e gc slot p} (h : s.Ok) : (s.append e gc slot p).Ok := by
  unfold State.append
  exact .ite (.setPkt h.bqPush) (.setPkt h.bqPush)

theorem State.Ok.enqueuePkt {gc slot m p} (h : s.Ok) : (s.enqueuePkt gc slot m p).Ok :=
  .onCore (.happens (.mbPut h))

theorem State.Ok.execPacketArrival (h : s.Ok) : Safe (execPacketArrival s) := by
  fun_cases Machine.execPacketArrival s
  · trivial
  · trivial
  · exact h.bounce
  · exact h.toHost
  · exact h.setPkt
  · exact h.append
  · exact h.bounce
  · exact h.bounce
  · exact h.setPkt
  · trivial
  · exact State.Ok.enqueuePkt h.setPkt

theorem State.Ok.noticeToSup {e} (h : s.Ok) : Safe (s.noticeToSup e) := by
  unfold State.noticeToSup
  dsimp only
  split
  · exact .append h
  · split
    · exact .setPkt h
    · split
      · exact .setPkt h
      · split
        · trivial
        · exact .enqueuePkt (.setPkt h)

theorem State.Ok.execNoticeArrival (h : s.Ok) : Safe (execNoticeArrival s) := by
  fun_cases Machine.execNoticeArrival s
  · trivial
  · trivial
  · exact h.noticeToSup
  · exact h.setPkt
  · exact h.toHost
  · exact h.setPkt
  · exact h.append
  · exact h.setPkt
  · exact h.setPkt
  · trivial
  · exact State.Ok.enqueuePkt h.setPkt

theorem State.Ok.execActivateArrival (h : s.Ok) : Safe (execActivateArrival s) := by
  unfold Machine.execActivateArrival
  dsimp only
  split
  · trivial
  · split
    · trivial
    · split
      · exact .lateNotice (.setPkt h)
      · split
        · exact .bounce h
        · split
          · split
            · split
              · exact .setPkt h
              · exact .setPkt (.setCore h)
            · split
              · exact .setPkt h
              · exact .setPkt (.setCore h)
          · split
            · split
              · exact .setPkt h
              · exact .setPkt (.setCore h)
            · split
              · exact .setPkt h
              · exact .setPkt (.setCore h)

theorem State.Ok.execRefusalResponse (h : s.Ok) : Safe (execRefusalResponse s) := by
  unfold Machine.execRefusalResponse
  dsimp only
  split
  · trivial
  · split
    · split
      · split
        · exact .setPkt h
        · split
          · exact .setPkt h
          · exact .bounce h
      · split
        · exact .setPkt (.bumpCore h)
        · split
          · exact .setPkt (.bumpCore h)
          · exact .bounce (.bumpCore h)
    · trivial

theorem State.Ok.execRetryTimer (h : s.Ok) : Safe (execRetryTimer s) := by
  unfold Machine.execRetryTimer
  split
  · trivial
  · split
    · split
      · trivial
      · exact .netSend h
    · trivial

theorem State.Ok.execAcceptanceResponse (h : s.Ok) : Safe (execAcceptanceResponse s) := by
  unfold Machine.execAcceptanceResponse
  split
  · trivial
  · split
    · exact .dropPkt h
    · trivial

/-! ### Evicting and restoring -/

theorem State.Ok.saveArea {gc slot} (h : s.Ok) : (s.saveArea gc slot).Ok :=
  .backPut (.backPut (.foldl (.backPut (.backPut h)) fun _ _ h1 => .backPut h1))

theorem State.Ok.release {gc slot} (h : s.Ok) : (s.release gc slot).Ok :=
  .onCore (.onClu h)

theorem State.Ok.zeroTiles {gc slot} (h : s.Ok) : (s.zeroTiles gc slot).Ok :=
  .onClu h

theorem State.Ok.saveActor {gc slot} (h : s.Ok) : (s.saveActor gc slot).Ok := by
  unfold State.saveActor
  exact .setPlace (.setSched (.setDesc (.onMboxes (.release (.saveArea (.zeroTiles h))))))

theorem State.Ok.execEvictSave {core slot} (h : s.Ok) : Safe (execEvictSave core slot s) := by
  unfold Machine.execEvictSave
  dsimp only
  split
  · split
    · trivial
    · exact .setPlace (.setSched h)
  · split
    · trivial
    · exact .saveActor h
  · trivial

theorem State.Ok.clearHold {gc slot} (h : s.Ok) : (s.clearHold gc slot).Ok :=
  .ite h (.ite (.setSched (.setDesc h)) (.setDesc h))

theorem State.Ok.admitStart {w team} (h : s.Ok) : (s.admitStart w team).Ok :=
  .fresh (.congr (.foldl h fun _ _ h1 => .ite (.setPlace (.setSched h1)) h1) rfl)

theorem State.Ok.teamList {w b c} (h : s.Ok) : Kept (fun x => x.1.Ok) (s.teamList w b c) := by
  unfold State.teamList
  dsimp only
  split
  · trivial
  · split
    · trivial
    · split
      · next e2 => exact h.resolveL.stop e2
      · split
        · trivial
        · exact State.Ok.touchLocal h

theorem State.Ok.execAdmitTeam {d b c sc} (h : s.Ok) : Safe (execAdmitTeam d b c sc s) := by
  unfold Machine.execAdmitTeam
  refine State.Ok.each h fun w t k => ?_
  refine Kept.privileged ?_
  split
  · split
    · exact k
    · exact State.Ok.onCtx (.congr k rfl)
  · split
    · exact k
    · split
      · next e2 => exact k.teamList.stop e2
      · next e2 =>
          have k1 := k.teamList.state e2
          split
          · exact State.Ok.onCtx k1
          · split
            · exact State.Ok.admitStart k1
            · exact State.Ok.onCtx (.foldl k1 fun _ _ h1 => .clearHold h1)

theorem State.Ok.leave {gc slot} (h : s.Ok) : (s.leave gc slot).Ok :=
  .foldl (.setSched h) fun _ _ h1 => .ite (.toAll h1) h1

theorem State.Ok.execEvict {d b} (h : s.Ok) : Safe (execEvict d b s) := by
  unfold Machine.execEvict
  dsimp only
  refine State.Ok.each h fun w t k => ?_
  refine Kept.privileged ?_
  split
  · exact k
  · exact State.Ok.onCtx (.ite (.leave k) k)

theorem State.Ok.drainOne {gc slot i b} (h : s.Ok) : (s.drainOne gc slot i b).Ok :=
  .ite (.ite (.fresh (.congr (.bqTake h) rfl)) (.mbPut (.bqTake h))) (.ite (.bounce (.fresh (.bqTake h))) (.ite (.bounce (.fresh (.bqTake h))) (.mbPut (.bqTake h))))

theorem State.Ok.drainAll {gc slot n} (h : s.Ok) : (s.drainAll gc slot n).Ok := by
  induction n generalizing s with
  | zero => exact h
  | succ n ih =>
    unfold State.drainAll
    split
    · exact ih h.drainOne
    · exact h

theorem State.Ok.execBackingQueueDrain {core slot} (h : s.Ok) : Safe (execBackingQueueDrain core slot s) := by
  unfold Machine.execBackingQueueDrain
  dsimp only
  split
  · trivial
  · split
    · exact .drainOne h
    · trivial

theorem State.Ok.restoreAllocs {gc slot l} (h : s.Ok) : Maybe (s.restoreAllocs gc slot l) := by
  induction l generalizing s with
  | nil =>
    exact h
  | cons b l ih =>
    unfold State.restoreAllocs
    dsimp only
    split
    · exact ih (.openBytes (.setCore h))
    · trivial

theorem State.Ok.loadBfmt {gc slot} (h : s.Ok) : (s.loadBfmt gc slot).Ok :=
  .onCore h

theorem State.Ok.restore {gc slot} (h : s.Ok) : Maybe (s.restore gc slot) := by
  unfold State.restore
  dsimp only
  split
  · trivial
  · split
    · trivial
    · next e1 => exact .drainAll (.loadBfmt (.ite (.onClu (.ite (.foldl (.putRange (((State.Ok.restoreAllocs (.ite (.backRead (.backRead (.backRead (.backRead h)))) (.backRead h)))).state e1)) fun _ _ h1 => .putRange h1) (.onMboxes (.putRange (((State.Ok.restoreAllocs (.ite (.backRead (.backRead (.backRead (.backRead h)))) (.backRead h)))).state e1))))) (.ite (.foldl (.putRange (((State.Ok.restoreAllocs (.ite (.backRead (.backRead (.backRead (.backRead h)))) (.backRead h)))).state e1)) fun _ _ h1 => .putRange h1) (.onMboxes (.putRange (((State.Ok.restoreAllocs (.ite (.backRead (.backRead (.backRead (.backRead h)))) (.backRead h)))).state e1))))))

theorem State.Ok.restoreTeam {l} (h : s.Ok) : Maybe (s.restoreTeam l) := by
  induction l generalizing s with
  | nil =>
    exact h
  | cons b l ih =>
    unfold State.restoreTeam
    split
    · split
      · next e1 => exact ih (h.restore.state e1)
      · trivial
    · exact ih h

theorem State.Ok.seat {x} (h : s.Ok) : (s.seat x).Ok :=
  .ite (.setPlace (.setSched h)) (.clearHold h)

theorem State.Ok.execAdmitRestore (h : s.Ok) : Safe (execAdmitRestore s) := by
  unfold Machine.execAdmitRestore
  dsimp only
  split
  · trivial
  · split
    · trivial
    · next e1 => exact .congr (.foldl (h.restoreTeam.state e1) fun _ _ h1 => .seat h1) rfl

/-! ### Control transfer -/

theorem State.Ok.callOp {d disp idx} (h : s.Ok) : Safe (callOp s d disp idx) :=
  State.Ok.eachCtx (.onCore h)

theorem State.Ok.jumpOp {a} (h : s.Ok) : Safe (jumpOp s a) := by
  unfold Machine.jumpOp
  split
  · exact h.finish trivial
  · exact h.eachCtx

theorem State.Ok.execBc {cc a b disp idx} (h : s.Ok) : Safe (execBc cc a b disp idx s) := by
  unfold Machine.execBc
  dsimp only
  split
  · exact h.finish trivial
  · exact h.eachCtx

theorem State.Ok.execRet {a} (h : s.Ok) : Safe (execRet a s) :=
  State.Ok.jumpOp (.onCore h)

theorem State.Ok.execLoop {d disp idx} (h : s.Ok) : Safe (execLoop d disp idx s) := by
  unfold Machine.execLoop
  dsimp only
  split
  · exact (State.Ok.foldl h fun _ _ h1 => .onCtx h1).finish trivial
  · exact h.eachCtx

/-! ### Kills and fences -/

theorem State.Ok.killNotice {w i} (h : s.Ok) : (s.killNotice w i).Ok :=
  .faultNotice h

theorem State.Ok.killNotices {w} (h : s.Ok) : (s.killNotices w).Ok :=
  .foldl h fun _ _ h1 => .killNotice h1

theorem State.Ok.killStart {w} (h : s.Ok) : (s.killStart w).Ok :=
  .foldl (.dropLease h) fun _ _ h1 => .onCtx (.askWithdraw h1)

theorem State.Ok.killEnd {w} (h : s.Ok) : (s.killEnd w).Ok :=
  .cutShort (.bumpCore (.ite (.mbRelease (.killNotices h)) (.killNotices h)))

theorem State.Ok.execKillTimer (h : s.Ok) : Safe (execKillTimer s) := by
  unfold Machine.execKillTimer
  dsimp only
  split
  · trivial
  · split
    · exact .killStart h
    · split
      · trivial
      · exact .killEnd h

theorem State.Ok.fenceGang {w lead} (h : s.Ok) : (s.fenceGang w lead).Ok :=
  .foldl h fun _ _ h1 => .faultNotice h1

theorem State.Ok.fenceFirings {gc} (h : s.Ok) : (s.fenceFirings gc).Ok :=
  .foldl h fun _ _ h1 => .ite h1 (.cutShort (.ite (.mbRelease (.ite (.foldl h1 fun _ _ h2 => .askWithdraw h2) (.fenceGang (.foldl h1 fun _ _ h2 => .askWithdraw h2)))) (.ite (.foldl h1 fun _ _ h2 => .askWithdraw h2) (.fenceGang (.foldl h1 fun _ _ h2 => .askWithdraw h2)))))

theorem State.Ok.fenceNet {gc} (h : s.Ok) : (s.fenceNet gc).Ok :=
  .foldl (.congr h rfl) fun _ _ h1 => .onCtx h1

theorem State.Ok.fenceActs {gc} (h : s.Ok) : (s.fenceActs gc).Ok :=
  .foldl (.onCore h) fun _ _ h1 => .sendBounce (.fresh h1)

theorem State.Ok.fenceActor {gc slot n} (h : s.Ok) : (s.fenceActor gc slot n).Ok :=
  .ite (.setPlace (.setSched (.faultNotice h))) (.ite (.setPlace (.setSched (.faultNotice h))) (.saveActor (.setPlace (.setSched (.faultNotice h)))))

theorem State.Ok.fenceActors {gc} (h : s.Ok) : (s.fenceActors gc).Ok :=
  .ite (.faultNotice h) (.foldl h fun _ _ h1 => .fenceActor h1)

theorem State.Ok.dropCore {gc} (h : s.Ok) : (s.dropCore gc).Ok :=
  .foldl h fun _ _ h1 => .foldl h1 fun _ _ h2 => .dropSharers h2

theorem State.Ok.fenceReset {gc} (h : s.Ok) : (s.fenceReset gc).Ok :=
  .congr (.foldl (.onCore (.dropCore h)) fun _ _ h1 => .onCore h1) rfl

theorem State.Ok.coreFence {gc} (h : s.Ok) : (s.coreFence gc).Ok :=
  .fenceReset (.fenceActors (.fenceActs (.fenceNet (.fenceFirings h))))

theorem State.Ok.execFenceTimer (h : s.Ok) : Safe (execFenceTimer s) := by
  unfold Machine.execFenceTimer
  split
  · exact .coreFence h
  · trivial

theorem State.Ok.execEpilogueStallFence (h : s.Ok) : Safe (execEpilogueStallFence s) := by
  unfold Machine.execEpilogueStallFence
  dsimp only
  split
  · trivial
  · split
    · split
      · trivial
      · exact .lateFault (.coreFence (.onCtx (.onClu h)))
    · trivial

theorem State.Ok.patrolDone {m i} (h : s.Ok) : (s.patrolDone m i).Ok :=
  .onMod h

theorem State.Ok.execFenceCore (h : s.Ok) : Safe (execFenceCore s) := by
  unfold Machine.execFenceCore
  dsimp only
  split
  · trivial
  · split
    · exact .patrolReply (.patrolDone h)
    · split
      · trivial
      · exact .patrolReply (.coreFence (.patrolDone h))

/-! ### Frames from the host -/

theorem State.Ok.frameBad {m} (h : s.Ok) : (s.frameBad m).Ok :=
  .onMod h

theorem State.Ok.ackTo {m f ack window} (h : s.Ok) : (s.ackTo m f ack window).Ok :=
  .flushPend (.setFlow h)

theorem State.Ok.resend {m f} (h : s.Ok) : (s.resend m f).Ok :=
  .setFlow (.foldl h fun _ _ h1 => .pushFrame h1)

theorem State.Ok.maybeNewSeq {o : Option (Nat × Nat)} {p : Pkt} (h : s.Ok) : (match o with | some k => s.newSeq k p | none => (s, p)).1.Ok := by
  cases o with
  | none => exact h
  | some k => exact h.newSeq

theorem State.Ok.hostSend {m f part p} (h : s.Ok) : (s.hostSend m f part p).Ok := by
  unfold State.hostSend
  extract_lets x p s1 pair y e
  have k1 : s1.Ok := .ite h (.setFlow h)
  have k : y.1.Ok := k1.maybeNewSeq
  exact .congr k rfl

theorem State.Ok.hostPort {gc a bs} (h : s.Ok) : (s.hostPort gc a bs).Ok :=
  .countPort (.grant (.heal (.wrBytes h)))

theorem State.Ok.walkTouch {m part va n lvl base} (h : s.Ok) : (s.walkTouch m part va n lvl base).Ok := by
  induction n generalizing s lvl base with
  | zero => exact h
  | succ n ih =>
    have k {c : Bool} {l a} : (if c then s.touchSlice l a .dflt else s).Ok := .ite h.touchSlice h
    unfold State.walkTouch
    dsimp only
    split
    · exact k
    · exact ih k

theorem State.Ok.hostWalks {m part va n} (h : s.Ok) : (s.hostWalks m part va n).Ok :=
  .ite h (.foldl h fun _ _ h1 => .walkTouch h1)

theorem State.Ok.segEffect {m f part g} (h : s.Ok) : (s.segEffect m f part g).1.Ok := by
  unfold State.segEffect
  dsimp only
  split
  · exact h
  · split
    · split
      · exact h
      · exact .hostSend h
    · split
      · exact h
      · split
        · exact h
        · exact .hostPort h
    · split
      · exact .hostWalks h
      · split
        · exact .hostWalks h
        · exact State.Ok.writeSpans (.hostWalks h)
    · split
      · exact .hostWalks h
      · split
        · exact .touchRead (.hostWalks h)
        · split
          · exact .touchRead (.hostWalks h)
          · exact .queueSeg (.touchRead (.hostWalks h))

theorem State.Ok.segsDo {m f part x l} (h : s.Ok) : (s.segsDo m f part x l).Ok := by
  induction l generalizing s x with
  | nil =>
    exact h
  | cons b l ih =>
    unfold State.segsDo
    dsimp only
    refine ih ?_
    split
    · exact .queueSeg h.segEffect
    · exact h.segEffect

theorem State.Ok.manage {m p} (h : s.Ok) : (s.manage m p).Ok :=
  .ite h (.ite (.ite h (.congr h rfl)) (.patrolArrive h))

theorem State.Ok.execDataFrame {m b} (h : s.Ok) : Safe (execDataFrame m b s) := by
  unfold Machine.execDataFrame
  dsimp only
  split
  · exact .frameBad h
  · split
    · trivial
    · split
      · exact h
      · split
        · exact .frameBad h
        · split
          · exact .segsDo (.setFlow (.ackTo h))
          · split
            · exact .pushFrame (.ackTo h)
            · exact .pushFrame (.ackTo h)

theorem State.Ok.execAckFrame {m b} (h : s.Ok) : Safe (execAckFrame m b s) := by
  unfold Machine.execAckFrame
  dsimp only
  split
  · exact .frameBad h
  · split
    · trivial
    · split
      · exact h
      · split
        · exact .frameBad h
        · exact .ackTo h

theorem State.Ok.execNakFrame {m b} (h : s.Ok) : Safe (execNakFrame m b s) := by
  unfold Machine.execNakFrame
  dsimp only
  split
  · exact .frameBad h
  · split
    · trivial
    · split
      · exact h
      · split
        · exact .frameBad h
        · exact .resend (.ackTo h)

theorem State.Ok.failFlow {m f} (h : s.Ok) : (s.failFlow m f).Ok :=
  .onMod (.foldl (.setFlow h) fun _ _ h1 => .ite h1 (.ite (.setPkt h1) (.bounce h1)))

theorem State.Ok.execRetransmitTimeout {m flow} (h : s.Ok) : Safe (execRetransmitTimeout m flow s) := by
  unfold Machine.execRetransmitTimeout
  dsimp only
  split
  · trivial
  · split
    · exact .failFlow h
    · exact .resend (.setFlow h)

theorem State.Ok.execAckTimer {m flow} (h : s.Ok) : Safe (execAckTimer m flow s) := by
  unfold Machine.execAckTimer
  dsimp only
  split
  · trivial
  · split
    · trivial
    · exact .pushFrame h

theorem State.Ok.execFlowOpen {m flow part mac timeout} (h : s.Ok) : Safe (execFlowOpen m flow part mac timeout s) := by
  unfold Machine.execFlowOpen
  dsimp only
  split
  · trivial
  · exact .setFlow h

theorem State.Ok.execFlowClose {m flow} (h : s.Ok) : Safe (execFlowClose m flow s) := by
  unfold Machine.execFlowClose
  dsimp only
  split
  · trivial
  · exact .setFlow h

/-! ### Resets and control writes -/

theorem State.Ok.wipe {m} (h : s.Ok) : (s.wipe m).Ok :=
  Memory.wf_filter s.mem (fun c => !ofModule m c.1) h

theorem State.Ok.bootCore {m k0 core} (h : s.Ok) : (s.bootCore m k0 core).Ok :=
  .congr h rfl

theorem State.Ok.bootKernel {m k0} (h : s.Ok) : (s.bootKernel m k0).Ok :=
  .foldl (.putRange h) fun _ _ h1 => .bootCore h1

theorem State.Ok.execModuleReset {m b} (h : s.Ok) : Safe (execModuleReset m b s) := by
  unfold Machine.execModuleReset
  dsimp only
  split
  · trivial
  · split
    · exact .setMod (.congr (.wipe h) rfl)
    · exact .foldl (.setMod (.congr (.wipe h) rfl)) fun _ _ h1 => .bootKernel h1

theorem State.Ok.execCoreMapWrite {core part} (h : s.Ok) : Safe (execCoreMapWrite core part s) := by
  unfold Machine.execCoreMapWrite
  dsimp only
  split
  · trivial
  · exact .onCore (.onMod h)

theorem State.Ok.execPartitionTableWrite {m p e} (h : s.Ok) : Safe (execPartitionTableWrite m p e s) := by
  unfold Machine.execPartitionTableWrite
  split
  · trivial
  · exact .onMod h

theorem State.Ok.perfPut {i v} (h : s.Ok) : (s.perfPut i v).Ok :=
  .ite (.onClu h) (.onCore h)

theorem State.Ok.execPerfCounterRead (h : s.Ok) : Safe (execPerfCounterRead s) := by
  unfold Machine.execPerfCounterRead
  dsimp only
  split
  · trivial
  · split
    · exact .patrolReply (.patrolDone h)
    · exact .patrolReply (.patrolDone h)

theorem State.Ok.execPerfCounterWrite (h : s.Ok) : Safe (execPerfCounterWrite s) := by
  unfold Machine.execPerfCounterWrite
  dsimp only
  split
  · trivial
  · split
    · exact .patrolReply (.perfPut (.patrolDone h))
    · exact .patrolReply (.patrolDone h)

theorem State.Ok.execQuote (h : s.Ok) : Safe (execQuote s) := by
  unfold Machine.execQuote
  dsimp only
  split
  · trivial
  · exact .patrolReply (.backWrite (.patrolDone h))

theorem State.Ok.execLeaseQuotaWrite {cluster value} (h : s.Ok) : Safe (execLeaseQuotaWrite cluster value s) :=
  .writeLeaseQ h

theorem State.Ok.execCoreConfigWrite {core value} (h : s.Ok) : Safe (execCoreConfigWrite core value s) :=
  .writeCfg h

theorem State.Ok.execLiftQuotaWrite {cluster part value} (h : s.Ok) : Safe (execLiftQuotaWrite cluster part value s) := by
  unfold Machine.execLiftQuotaWrite
  split
  · trivial
  · exact .writeQuota h

theorem State.Ok.execSpillDescWrite {cluster part word value} (h : s.Ok) : Safe (execSpillDescWrite cluster part word value s) := by
  unfold Machine.execSpillDescWrite
  split
  · trivial
  · exact .writeSpill h

theorem State.Ok.execControlRegisterWrite {c} (h : s.Ok) : Safe (execControlRegisterWrite c s) :=
  .writeCtl h

/-! ### Errors of the storage -/

theorem State.Ok.eccFault {w row va} (h : s.Ok) : Safe (s.eccFault w row va) := by
  unfold State.eccFault
  split
  · trivial
  · exact .note h

theorem State.Ok.eccLog {w} (h : s.Ok) : Safe (s.eccLog w) := by
  unfold State.eccLog
  dsimp only
  split
  · trivial
  · exact .record h

theorem State.Ok.eccItem {cl item} (h : s.Ok) : Safe (s.eccItem cl item) := by
  fun_cases State.eccItem s cl item
  · trivial
  · exact h.note
  · trivial
  · exact h.faultNotice

theorem State.Ok.eccLift {cl stamp} (h : s.Ok) : Safe (s.eccLift cl stamp) := by
  unfold State.eccLift
  split
  · trivial
  · exact .waiterLost (.withdrawEnt h)

theorem State.Ok.eccLanding {id} (h : s.Ok) : (s.eccLanding id).Ok :=
  .lateNotice (.setCtr h)

theorem State.Ok.markBad {pa} (h : s.Ok) : (s.markBad pa).Ok :=
  .congr h rfl

theorem State.Ok.execEccError {site double} (h : s.Ok) : Safe (execEccError site double s) := by
  unfold Machine.execEccError
  split
  · split
    · exact h.eccFault
    · exact .bumpCore h
  · split
    · exact h.eccItem
    · exact .bumpCore h
  · exact h.eccFault
  · split
    · exact State.Ok.eccFault (.markBad h)
    · exact .bumpCore h
  · split
    · trivial
    · split
      · exact .markBad h
      · exact .bumpCore h
  · split
    · exact h.eccLog
    · exact .bumpCore h
  · exact .onCore h
  · exact .onCore h
  · exact .onClu h
  · exact .onCore h
  · exact .onCore h
  · split
    · exact .poisonLine h
    · exact .bumpSlice h
  · split
    · exact .poisonLine h
    · exact .bumpSlice h
  · split
    · exact h.eccLift
    · exact .bumpSlice h
  · split
    · exact .eccLanding h
    · exact .ite (.bumpSlice h) (.bumpCore h)

/-- Every instruction and every event keeps the form of memory. -/
theorem State.Ok.exec {i} (h : s.Ok) : Safe (exec i s) := by
  unfold Machine.exec
  split
  any_goals exact h.eachCtx -- the instructions that change registers alone
  · exact h.execModuleReset
  · exact h.execL1Invalidate
  · exact h.execLoadReturn
  · exact h.execWalk
  · exact h.execTreeCombine
  · exact h.execSpillRefill
  · exact h.execLandingAction
  · exact h.execLandingDeadline
  · exact h.execEvictSave
  · exact h.execBackingQueueDrain
  · exact h.execDataFrame
  · exact h.execAckFrame
  · exact h.execNakFrame
  · exact h.execRetransmitTimeout
  · exact h.execAckTimer
  · exact h.execFlowOpen
  · exact h.execFlowClose
  · exact h.execFlitReceive
  · exact h.execLinkRetrain
  · exact h.execLinkDown
  · exact h.execTreeGroupDisable
  · exact h.execLeaseQuotaWrite
  · exact h.execCoreConfigWrite
  · exact h.execLiftQuotaWrite
  · exact h.execSpillDescWrite
  · exact h.execControlRegisterWrite
  · exact h.execEccError
  · exact h.execBc
  · exact h.callOp
  · exact h.callOp
  · exact h.execRet
  · exact h.jumpOp
  · exact h.execLoop
  · exact State.Ok.each h fun _ _ k => State.Ok.onCtx k
  · exact State.Ok.each h fun _ _ k => State.Ok.onCtx k
  · exact h.execMlease
  · exact h.execMfree
  · exact h.execMcfg
  · exact h.execMloadw
  · exact h.execMswap
  · exact h.execMstream
  · exact h.execMepi
  · exact h.directTile fun _ _ k => k
  · exact h.execMaccrd
  · exact h.directTile fun _ _ k => .foldl k fun _ _ h => h
  · exact State.Ok.each h fun _ _ k => k.ldOp
  · exact State.Ok.each h fun _ _ k => k.ldOp
  · exact State.Ok.each h fun _ _ k => k.stOp
  · exact State.Ok.each h fun _ _ k => k.stOp
  · exact State.Ok.each h fun _ _ k => k.ldvOp
  · exact State.Ok.each h fun _ _ k => k.ldvOp
  · exact State.Ok.each h fun _ _ k => k.stvOp
  · exact State.Ok.each h fun _ _ k => k.stvOp
  · exact State.Ok.each h fun _ _ k => k.ldxOp
  · exact State.Ok.each h fun _ _ k => k.stxOp
  · exact h.execBld
  · exact h.execBst
  · exact State.Ok.each h fun _ _ k => k.amoOp
  · exact State.Ok.each h fun _ _ k => k.amoOp
  · exact h.execPref
  · exact State.Ok.each h fun _ _ k => k.cinvLines
  · exact State.Ok.each h fun _ _ k => k.rstOp
  · exact State.Ok.each h fun _ _ k => State.Ok.onCtx k.spallocDo
  · exact h.execSpfree
  · exact h.execBfset
  · exact h.execFence
  · exact h.execFencex
  · exact h.cellOp1
  · exact h.cellOp1
  · exact State.Ok.once h fun _ _ k => k.cellForm
  · exact h.cellOp1
  · exact h.cellOp1
  · exact h.cellOp1
  · exact h.cellOp1
  · exact h.cellOp1
  · exact h.cellOp1
  · exact h.cellOp1
  · exact h.cellOp1
  · exact h.cellOp1
  · exact h.cellOp1
  · exact h.cellOp1
  · exact State.Ok.once h fun _ _ k => k.cndWaitOp
  · exact h.cellOp1
  · exact h.cellOp1
  · exact State.Ok.each h fun _ _ k => k.landArmOp
  · exact h.execLandOff
  · exact h.execLandRd
  · exact h.execWaitc
  · exact h.execSend
  · exact h.execSendv
  · exact h.execSendp
  · exact h.execReply
  · exact h.execMpeek
  · exact h.execActivate
  · exact State.Ok.once h fun _ _ k => k.copyIssue
  · exact State.Ok.once h fun _ _ k => k.copyIssue
  · exact h.execCpyx
  · exact State.Ok.once h fun _ _ k => k.copyIssue
  · exact State.Ok.once h fun _ _ k => k.bselOp
  · exact h.execTinj
  · exact h.execText
  · exact h.execTrap
  · exact h.execSrd
  · exact h.execSwr
  · exact h.execTlbinv
  · exact h.execTlbreplay
  · exact h.execFltpop
  · exact h.execPlinv
  · exact h.execAdmitTeam
  · exact h.execEvict
  · exact h.execLinkRetrained
  · exact h.execCoreMapWrite
  · exact h.execPartitionTableWrite
  · exact h.execTreeGroupEnable
  · exact h.execInstructionFetch
  · exact h.execFiringChoice
  · exact h.execActivateArrival
  · exact h.execPacketArrival
  · exact h.execNoticeArrival
  · exact h.execRefusalResponse
  · exact h.execRetryTimer
  · exact h.execAcceptanceResponse
  · exact h.execPacketInject
  · exact h.execHomeWrite
  · exact h.execStealSweep
  · exact h.execStealAnswer
  · exact h.execStealReply
  · exact h.execYieldTimer
  · exact h.execKillTimer
  · exact h.execFenceTimer
  · exact h.execForecastUpdate
  · exact h.execImpreciseFaultTaken
  · exact h.execLeaseGrant
  · exact h.execLeaveGrant
  · exact h.execLeaveRelease
  · exact h.execOverheatReport
  · exact h.execRampWindow
  · exact h.execPowerForecastRead
  · exact h.execMloadwRun
  · exact h.execMswapRun
  · exact h.execMstreamRun
  · exact h.execMepiRun
  · exact h.execArrayCommandComplete
  · exact h.execEpilogueStallFence
  · exact h.execEngineCommandDelivery
  · exact h.execEngineRetryTimer
  · exact h.execEngineCommandStart
  · exact h.execEngineCommandComplete
  · exact h.execCompletionAction
  · exact h.execTreeFetchBack
  · exact h.execHsuOperation
  · exact h.execSpillLineReturn
  · exact h.execWithdrawal
  · exact h.execCellResult
  · exact h.execLandingPoolRetry
  · exact h.execAdmitRestore
  · exact h.execGangEnter
  · exact h.execGangExit
  · exact h.execPerfCounterRead
  · exact h.execPerfCounterWrite
  · exact h.execQuote
  · exact h.execFenceCore
  · exact State.Ok.once h fun _ _ k => k.finOp
  · exact State.Ok.once h fun _ _ k => k.commit
  · exact h.execYield
  · exact h.execBrk
  · exact h.execHalt
  · exact h.execOverheatClear

/-! ### A step -/

theorem State.Ok.took {b ms} (h : s.Ok) : (s.took b ms).Ok :=
  .foldl h fun _ _ h1 => .onCore h1

theorem State.Ok.settle {w b} (k : t.Ok) : (s.settle w b t).Ok :=
  .ite k k.took

theorem State.Ok.tick (h : s.Ok) : s.tick.Ok :=
  .congr h rfl

theorem State.Ok.issue {w} (h : s.Ok) : (match s.issue w with | .ok r => r.1.Ok | .error o => Safe o) := by
  fun_cases State.issue s w
  · trivial
  · exact h.takeTrap
  · exact h.fault
  · next e => exact h.fetch.wait e
  · trivial
  · next e _ _ _ _ => exact State.Ok.onCore (h.fetch.state e)
  · next e _ _ _ _ => exact .congr (.foldl (.onCore (h.fetch.state e)) fun _ _ h => .onCtx h) rfl

theorem State.Ok.issued {w r} (h : s.Ok) (e : s.issue w = .ok r) : r.1.Ok := by
  have k := h.issue (w := w)
  rw [e] at k
  exact k

theorem State.Ok.notIssued {w o} (h : s.Ok) (e : s.issue w = .error o) : Safe o := by
  have k := h.issue (w := w)
  rw [e] at k
  exact k

theorem State.Ok.stepTurn {u} (h : s.Ok) : Safe (stepTurn s u) := by
  unfold Machine.stepTurn
  split
  · trivial
  · split
    · exact h.tick
    · exact State.Ok.exec (.congr h rfl)
    · exact h.manage
    · split
      · next e =>
        split
        · next e1 => exact .settle ((State.Ok.exec (h.issued e)).state e1)
        · exact State.Ok.exec (h.issued e)
      · next e => exact h.notIssued e

theorem State.Ok.firstTurn {l o} (h : s.Ok) (e : firstTurn s l = some o) : Safe o := by
  induction l with
  | nil => cases e
  | cons u l ih =>
    unfold Machine.firstTurn at e
    split at e
    · exact ih e
    · cases e; exact h.stepTurn

theorem State.Ok.ownStep (h : s.Ok) : Safe s.ownStep := by
  unfold State.ownStep
  split
  · next e => exact h.firstTurn e
  · exact h.tick

theorem State.Ok.step (h : s.Ok) : Safe (step s) := by
  unfold Machine.step
  split
  · exact State.Ok.stepTurn (.congr h rfl)
  · exact h.ownStep

end

/-- Settles O59: no operation of the model writes memory but through `Memory.put`, and every turn is made of them. -/
theorem stepKeepsMemoryCanonical : Obligations.StepKeepsMemoryCanonical :=
  fun _ _ h e => (State.Ok.step h).state e

end Sys2Proof.Machine

/-! ## Wrap-mode allocations (O25) -/

namespace Sys2Proof.Machine

/-- The exponent of the reserved size of a wrap-mode allocation of `z` bytes. -/
def wrapLog (z : Nat) : Nat := if z ≤ 64 then 6 else Nat.log2 (z - 1) + 1

theorem Alloc.reserved_of_wrap {al : Alloc} (h : al.guard = false) : al.reserved = 2 ^ wrapLog al.size := by
  unfold Alloc.reserved wrapLog
  rw [h]
  split
  · contradiction
  · split
    · rfl
    · rfl

theorem le_two_pow_wrapLog (z : Nat) : z ≤ 2 ^ wrapLog z := by
  unfold wrapLog
  split
  · assumption
  · have : z - 1 < 2 ^ (Nat.log2 (z - 1) + 1) := Nat.lt_log2_self
    omega

/-- From 64 bytes up, no smaller power of two holds them. -/
theorem wrapLog_le {z j : Nat} (hz : 64 ≤ z) (h : z ≤ 2 ^ j) : wrapLog z ≤ j := by
  unfold wrapLog
  split
  · by_contra hj
    have : 2 ^ j ≤ 2 ^ 5 := Nat.pow_le_pow_right (by decide) (by omega)
    omega
  · exact (Nat.log2_lt (by omega)).2 (by omega)

theorem Alloc.byteAt_of_wrap {al : Alloc} {gc : Nat} {o : Int} (h : al.guard = false) :
    al.byteAt gc o = some (.mem (localPA gc (al.base + (o % (2 ^ wrapLog al.size : Nat)).toNat)) 0 0) := by
  unfold Alloc.byteAt
  rw [h, al.reserved_of_wrap h]
  rfl

theorem mapM_some {α β : Type} (l : List α) (f : α → β) : l.mapM (fun a => some (f a)) = some (l.map f) :=
  List.mapM_pure

/-- An access to a wrap-mode allocation comes down to whether a PREF.l holds its bytes. -/
theorem State.resolveA_of_wrap {s : State} {w n align : Nat} {base : Word} {o : Int} {al : Alloc} (ha : s.allocOf w base = some al)
    (hg : al.guard = false) (ho : o % align = 0) : s.resolveA w base o n align = s.whenCopied w
      ((List.range n).map fun (i : Nat) => RByte.mem (localPA (w / 4) (al.base + ((o + (i : Int)) % (2 ^ wrapLog al.size : Nat)).toNat)) 0 0) := by
  unfold State.resolveA
  rw [if_neg (not_not_intro ho), ha]
  simp only [Alloc.byteAt_of_wrap hg]
  rw [mapM_some]
  rfl

/-- Settles O25: the reserved size is `2 ^ wrapLog z`, and every byte of the allocation has a place modulo it. -/
theorem wrapAllocationNeverFaults : Obligations.WrapAllocationNeverFaults := by
  intro s w base o n align al ha hg hz ho
  refine ⟨wrapLog al.size, le_two_pow_wrapLog _, fun j => wrapLog_le hz, al.reserved_of_wrap hg, ?_⟩
  rw [State.resolveA_of_wrap ha hg ho]
  simp only [List.bind_eq_flatMap, List.pure_def, ← List.map_eq_flatMap, List.map_map, Function.comp_def]
  unfold State.whenCopied
  constructor
  · intro hp
    rw [hp]
    rfl
  · intro t
    split
    · nofun
    · nofun

end Sys2Proof.Machine

/-! ## A reply word wider than its field (O41) -/

namespace Sys2Proof.Machine

/-- A selection of no block whose reply word is 2^32, where Table 14.4 gives it 26 bits. -/
def wideBsel : BselCmd :=
  { rpl := true, land := none, trail := 0, kvfmt := .i8, ben := false, sfmt := .i8, qfmt := .i8, dim := 64, k := 1, query := [], L := 1, N := 0
    kstride := 0, vstride := 0, slot := 0, vdst := 0, kdst := 0, list := 0, force := 0, reply := 2 ^ 32, sums := [], ks := [], vs := [], sel := []
    flags := 0 }

/-- The command of that selection, with every row written. -/
def wideCmd : EngCmd :=
  { uid := 0, kind := 4, eng := 0, org := ⟨0, 0, 0, 0, 0, 0, 0, 0, false, false⟩, fmt := none, pol := .dflt, o := false, conv := false
    sbank := false, dbank := false, sw := 8, dw := 8, count := 0, dst := [], src := [], pat := 0, act := 0, actPa := 0, actHb := 0, actVa := 0
    actW := 0, bsel := some wideBsel, big := false, granted := false, tries := 0, till := 0, phase := .active, order := 0, row := 0, pos := 0
    bytes := 0, err := false }

/-- The engine reply goes to handle 1: the mailbox number 2^8 of the reply word runs into the handle behind it in the header. -/
theorem wideReply_dest :
    (after .engineCommandComplete { engines := [wideCmd] }).map (fun t => t.net.getLast?.map (fun n => Pkt.dest n.p)) = some (some 1) := by
  decide +kernel

/-- Refutes O41: a selection whose reply word is 2^32 replies to handle 1, and not to handle 0 that the low 24 bits of the word name. -/
theorem not_engineEvents : ¬ Obligations.EngineEvents := by
  unfold Obligations.EngineEvents
  intro h
  obtain ⟨-, -, -, -, hcomplete, -⟩ := h
  obtain ⟨-, hend⟩ := hcomplete { engines := [wideCmd] } wideCmd rfl rfl (.inr (Nat.zero_le _))
  obtain ⟨t, ht, -, -, -, hreply⟩ := hend (.inr rfl)
  obtain ⟨x, hnet, -, hdest, -⟩ := hreply wideBsel rfl rfl rfl
  have hlast := value_after wideReply_dest ht
  rw [hnet, List.getLast?_concat] at hlast
  have hone : Pkt.dest x.p = 1 := Option.some.inj hlast
  exact absurd (hdest.symm.trans hone) (by decide)

end Sys2Proof.Machine

/-! ## A walk (O47): what leaves the walks of the clusters as they are -/

namespace Sys2Proof.Machine

/-- The walks of every cluster are as they were. -/
structure State.WalksKept (s t : State) : Prop where
  walks : ∀ cl, (t.clu cl).walks = (s.clu cl).walks

namespace State.WalksKept

variable {s t u : State}

theorem refl (s : State) : s.WalksKept s := ⟨fun _ => rfl⟩
theorem trans (h : s.WalksKept t) (k : t.WalksKept u) : s.WalksKept u := ⟨fun cl => (k.walks cl).trans (h.walks cl)⟩
theorem of_clus (h : t.clus = s.clus) : s.WalksKept t := ⟨fun cl => by rw [State.clu, State.clu, h]⟩

theorem of_wrote (h : s.Wrote t) : s.WalksKept t := by
  refine ⟨fun cl => ?_⟩
  obtain ⟨_, _, _, hcl⟩ := h.clu cl
  rw [hcl]

theorem of_like (h : s.Like t) : s.WalksKept t := of_wrote h.wrote

theorem onClu (s : State) (cl : Nat) (f : Cluster → Cluster) (h : (f (s.clu cl)).walks = (s.clu cl).walks) : s.WalksKept (s.onClu cl f) := by
  refine ⟨fun j => ?_⟩
  rw [State.onClu_clu]
  split
  · next hj => rw [hj]; exact h
  · rfl

theorem setClu (s : State) (cl : Nat) (k : Cluster) (h : k.walks = (s.clu cl).walks) : s.WalksKept (s.setClu cl k) := onClu s cl (fun _ => k) h

theorem ite {c : Prop} [Decidable c] (h : s.WalksKept t) (k : s.WalksKept u) : s.WalksKept (if c then t else u) := by
  split
  · exact h
  · exact k

theorem foldl {α : Type} {f : State → α → State} (hf : ∀ (t : State) a, t.WalksKept (f t a)) (l : List α) : ∀ s : State, s.WalksKept (l.foldl f s) := by
  induction l with
  | nil => exact refl
  | cons a l ih => exact fun s => (hf s a).trans (ih _)

theorem dropLease (s : State) (w : Nat) : s.WalksKept (s.dropLease w) := onClu s _ _ rfl

theorem setSched (s : State) (gc slot : Nat) (x : Sched) : s.WalksKept (s.setSched gc slot x) := of_clus rfl

theorem onCtx (s : State) (w : Nat) (f : Ctx → Ctx) : s.WalksKept (s.onCtx w f) := of_clus rfl

theorem freeCtx (s : State) (w : Nat) : s.WalksKept (s.freeCtx w) := of_clus rfl

theorem endFiring (s : State) (w : Nat) : s.WalksKept (s.endFiring w) := by
  simp only [State.endFiring]
  refine .trans ?_ ((dropLease ..).trans (foldl (fun t m => freeCtx t m) _ _))
  exact ite (setSched ..) (refl s)

theorem returnTask (s : State) (w : Nat) (held : Option (Nat × Nat)) : s.WalksKept (s.returnTask w held) := by
  unfold State.returnTask
  split
  · exact refl s
  · exact (of_wrote (Wrote.putPkt ..)).trans (of_clus rfl)

theorem abort (s : State) (w : Nat) (h : Hold) : s.WalksKept (s.abort w h) := by
  refine .trans ?_ ((of_like (Like.bumpCore ..)).trans (endFiring ..))
  split
  · have hm : s.WalksKept (s.mbReturn (coreOf w) (s.ctx w).slot) := of_wrote (Wrote.onMboxes ..)
    refine hm.trans ?_
    split
    · exact (setSched ..).trans (of_wrote (Wrote.setDesc ..))
    · exact (setSched ..).trans (of_wrote (Wrote.setDesc ..))
    · exact setSched ..
  · split
    · exact returnTask ..
    · exact returnTask ..
    · exact refl s
  · exact refl s

theorem cutShort (s : State) (w : Nat) : s.WalksKept (s.cutShort w) := by
  refine .trans ?_ (endFiring ..)
  exact ite (setSched ..) (refl s)

theorem park (s : State) (w part vpn : Nat) : s.WalksKept (s.park w part vpn) :=
  (dropLease s w).trans (foldl (fun t m => onCtx t m _) _ _)

theorem faultNotice (s : State) (gc part : Nat) (patrol eng : Bool) (aid fsyn va pc fmsg w6 w7 : Nat) :
    s.WalksKept (s.faultNotice gc part patrol eng aid fsyn va pc fmsg w6 w7) := ite (of_clus rfl) (of_clus rfl)

theorem takeTrap (s : State) (w : Nat) (t : Trap) : s.WalksKept (s.takeTrap w t) := by
  refine .trans ?_ (faultNotice ..)
  exact ite (ite (park ..) (abort ..)) (ite (cutShort ..) (abort ..))

theorem fault (s : State) (w : Nat) (t : Trap) : s.WalksKept (s.fault w t) := takeTrap ..

theorem faultInsert (s : State) (w va lvl a : Nat) : s.WalksKept (s.faultInsert w va lvl a) := by
  simp only [State.faultInsert]
  split
  · exact setClu _ _ _ rfl
  · split
    · exact setClu _ _ _ rfl
    · exact setClu _ _ _ rfl

theorem answerWalk (s : State) (w fid : Nat) (l : Leaf) : s.WalksKept (s.answerWalk w fid l) :=
  ite (ite (of_clus rfl) (of_clus rfl)) (refl s)

theorem missWalk (s : State) (part gran w fid a va lvl : Nat) : s.WalksKept (s.missWalk part gran w fid a va lvl) :=
by
  unfold State.missWalk
  refine ite (answerWalk ..) (ite ?_ (refl s))
  have hrun : s.WalksKept ((s.faultInsert w va lvl a).onCtx w fun c => { c with phase := .running }) := (faultInsert ..).trans (of_clus rfl)
  exact hrun.trans (fault ..)

end State.WalksKept

/-! ### The end of a walk -/

theorem State.faultInsert_clus (s : State) (w va lvl a : Nat) : ∃ k, s.faultInsert w va lvl a = s.setClu (cluOf (coreOf w)) k := by
  simp only [State.faultInsert]
  split
  · exact ⟨_, rfl⟩
  · split
    · exact ⟨_, rfl⟩
    · exact ⟨_, rfl⟩

/-- No walk of the name is left in its cluster. -/
theorem State.walkEnd_walks (s : State) (cl : Nat) (x : WalkReq) (r : WalkRes) : ∀ y ∈ ((s.walkEnd cl x r).clu cl).walks, y.uid ≠ x.uid := by
  have hdrop : ∀ y ∈ ((s.onClu cl (fun k => { k with walks := k.walks.filter (fun y => y.uid ≠ x.uid) })).clu cl).walks, y.uid ≠ x.uid := by
    intro y hy
    rw [State.onClu_clu, if_pos rfl] at hy
    simpa using (List.mem_filter.1 hy).2
  suffices h : (s.onClu cl (fun k => { k with walks := k.walks.filter (fun y => y.uid ≠ x.uid) })).WalksKept (s.walkEnd cl x r) by
    rw [h.walks]; exact hdrop
  unfold State.walkEnd
  split
  · exact (State.WalksKept.onClu _ _ _ rfl).trans (.foldl (fun _ _ => .answerWalk ..) _ _)
  · exact .foldl (fun _ _ => .answerWalk ..) _ _
  · exact .foldl (fun _ _ => .missWalk ..) _ _

section
variable {s : State} {w fid : Nat}

/-- What a requester that still waits gets. -/
theorem State.answerWalk_ctx (hw : s.waits w fid = true) (l : Leaf) (v : Nat) :
    (s.answerWalk w fid l).ctx v = if v = w then { s.ctx w with xlate := l :: (s.ctx w).xlate, phase := .running } else s.ctx v := by
  unfold State.answerWalk
  rw [if_pos hw]
  split
  · rw [State.onCore_ctx, State.onCtx_ctx]
  · rw [State.onCtx_ctx]

theorem State.answerWalk_frame (s : State) (w fid : Nat) (l : Leaf) :
    (s.answerWalk w fid l).mem = s.mem ∧ (s.answerWalk w fid l).net = s.net := by
  unfold State.answerWalk
  split
  · split
    · exact ⟨rfl, rfl⟩
    · exact ⟨rfl, rfl⟩
  · exact ⟨rfl, rfl⟩

/-- A requester of an access of its own takes the fault of a page that is not present. -/
theorem State.missWalk_faults (hw : s.waits w fid = true) (part gran : Nat) {a : Nat} (ha : a ≠ 4) (va lvl : Nat) :
    ∃ u : State, u.mem = s.mem ∧ u.net = s.net ∧ s.missWalk part gran w fid a va lvl = u.fault (w - 4 * (s.ctx w).gidx)
      { code := 1, cls := 0, lvl := lvl, gcore := (s.ctx w).gidx, va := BitVec.ofNat 64 va } := by
  obtain ⟨k, hk⟩ := s.faultInsert_clus w va lvl a
  refine ⟨(s.faultInsert w va lvl a).onCtx w (fun c => { c with phase := .running }), ?_, ?_, ?_⟩
  · rw [hk]; rfl
  · rw [hk]; rfl
  · unfold State.missWalk
    rw [if_neg ha, if_pos hw]

end

/-! ### The reads of a walk -/

/-- A walk reads one entry: its walker keeps its name and its requesters, and holds the result or goes one level down. -/
theorem State.walkRead_walks {s : State} {cl : Nat} {x : WalkReq} (hx : x ∈ (s.clu cl).walks) (hres : x.res = none) :
    ∃ y ∈ ((s.walkRead cl x).clu cl).walks, y.uid = x.uid ∧ y.reqs = x.reqs ∧
      match s.walkStep (cl / 256) x.part (x.gran * 2 ^ 16) x.lvl x.base with
      | .inl r => y.res = some r
      | .inr b => y.res = none ∧ y.lvl = x.lvl + 1 ∧ y.base = b := by
  simp only [State.walkRead]
  generalize s.walkStep (cl / 256) x.part (x.gran * 2 ^ 16) x.lvl x.base = r
  have hkept : s.WalksKept (if s.physOk (cl / 256) x.part false (s.ptAddr (cl / 256) x.part (x.gran * 2 ^ 16) x.lvl x.base) = true then
      s.touchSlice (homeOf (s.ptAddr (cl / 256) x.part (x.gran * 2 ^ 16) x.lvl x.base) hbPhys)
        (s.ptAddr (cl / 256) x.part (x.gran * 2 ^ 16) x.lvl x.base / 64) .dflt else s) :=
    .ite (.of_like (State.Like.touchSlice ..)) (.refl s)
  rw [State.onClu_clu, if_pos rfl]
  dsimp only
  rw [hkept.walks]
  refine ⟨_, List.mem_map.2 ⟨x, hx, if_pos rfl⟩, ?_⟩
  cases r with
  | inl r => exact ⟨rfl, rfl, rfl⟩
  | inr b => exact ⟨rfl, rfl, hres, rfl, rfl⟩

theorem State.walkRead_frame (s : State) (cl : Nat) (x : WalkReq) :
    ∃ a b c, s.walkRead cl x = { s with clus := a, cores := b, ovf := c } := by
  have hlike : s.Like (if s.physOk (cl / 256) x.part false (s.ptAddr (cl / 256) x.part (x.gran * 2 ^ 16) x.lvl x.base) = true then
      s.touchSlice (homeOf (s.ptAddr (cl / 256) x.part (x.gran * 2 ^ 16) x.lvl x.base) hbPhys)
        (s.ptAddr (cl / 256) x.part (x.gran * 2 ^ 16) x.lvl x.base / 64) .dflt else s) := .ite (.touchSlice ..) (.refl s)
  obtain ⟨a, b, c, h⟩ := hlike.frame
  simp only [State.walkRead]
  rw [h]
  exact ⟨_, _, _, rfl⟩

/-! ### The event -/

section
variable {s : State} {cl uid : Nat} {x : WalkReq}

theorem exec_walk_reads (hx : (s.clu cl).walks.find? (fun x => decide (x.uid = uid)) = some x) (hw : s.hasWalker cl uid = true)
    (hres : x.res = none) : exec (.walk cl uid) s = .next (s.walkRead cl x) := by
  simp only [exec, execWalk, hx, hw, hres, Bool.not_true, Bool.false_eq_true, if_false]

theorem exec_walk_ends {r : WalkRes} (hx : (s.clu cl).walks.find? (fun x => decide (x.uid = uid)) = some x)
    (hw : s.hasWalker cl uid = true) (hres : x.res = some r) : exec (.walk cl uid) s = .next (s.walkEnd cl x r) := by
  simp only [exec, execWalk, hx, hw, hres, Bool.not_true, Bool.false_eq_true, if_false]

/-- What the only requester of a walk gets that still waits. -/
theorem State.walkEnd_one {r : WalkRes} {w a va fid : Nat} (hreqs : x.reqs = [(w, a, va, fid)]) (hphase : (s.ctx w).phase = .waitWalk)
    (hfid : (s.ctx w).fid = fid) : let t := s.walkEnd cl x r
    (∀ l, r = .leaf l → t.ctx w = { s.ctx w with xlate := l :: (s.ctx w).xlate, phase := .running } ∧ t.mem = s.mem ∧
      ∀ v, v ≠ w → t.ctx v = s.ctx v) ∧
    (∀ k, r = .bad k → t.mem = s.mem ∧ (t.ctx w).phase = .running ∧ ∃ l, l.bad = k ∧ (t.ctx w).xlate = l :: (s.ctx w).xlate) ∧
    (∀ lvl, r = .notPresent lvl → a = 4 → t.mem = s.mem ∧ t.net = s.net ∧ (t.ctx w).phase = .running) ∧
    (∀ lvl, r = .notPresent lvl → a ≠ 4 → ∃ u : State, u.mem = s.mem ∧ u.net = s.net ∧
      t = u.fault (w - 4 * (s.ctx w).gidx)
        { code := 1, cls := 0, lvl := lvl, gcore := (s.ctx w).gidx, va := BitVec.ofNat 64 va }) := by
  have hwaits : ∀ (f g : Cluster → Cluster), ((s.onClu cl f).onClu cl g).waits w fid = true ∧ (s.onClu cl f).waits w fid = true := by
    intro f g
    simp [State.waits, hphase, hfid]
  refine ⟨fun l hr => ?_, fun k hr => ?_, fun lvl hr ha => ?_, fun lvl hr ha => ?_⟩
  · subst hr
    simp only [State.walkEnd, hreqs, List.foldl_cons, List.foldl_nil]
    refine ⟨?_, (State.answerWalk_frame ..).1, fun v hv => ?_⟩
    · rw [State.answerWalk_ctx (hwaits _ _).1, if_pos rfl]; rfl
    · rw [State.answerWalk_ctx (hwaits _ _).1, if_neg hv]; rfl
  · subst hr
    simp only [State.walkEnd, hreqs, List.foldl_cons, List.foldl_nil]
    rw [State.answerWalk_ctx (hwaits _ id).2, if_pos rfl]
    exact ⟨(State.answerWalk_frame ..).1, rfl, _, rfl, rfl⟩
  · subst hr
    simp only [State.walkEnd, hreqs, List.foldl_cons, List.foldl_nil, State.missWalk, if_pos ha]
    rw [State.answerWalk_ctx (hwaits _ id).2, if_pos rfl]
    exact ⟨(State.answerWalk_frame ..).1, (State.answerWalk_frame ..).2, rfl⟩
  · subst hr
    simp only [State.walkEnd, hreqs, List.foldl_cons, List.foldl_nil]
    exact State.missWalk_faults (hwaits _ id).2 x.part x.gran ha va lvl

end

end Sys2Proof.Machine

/-! ## L1_INVALIDATE (O47): a line leaves an L1, and its core the sharers of the line -/

namespace Sys2Proof.Machine

theorem FMap.mem_set_same {α : Type} {m : FMap α} {i : Nat} {x v : α} (h : (i, v) ∈ FMap.set m i x) : v = x := by
  rcases (FMap.mem_insert _ _ _ _).1 h with h | h
  · exact (Prod.mk.inj h).2
  · exact absurd rfl ((FMap.mem_erase _ _ _).1 h).2

theorem State.ovfEnt_setOvf (s : State) (home i : Nat) (e : Option OvfEnt) (cl j : Nat) :
    (s.setOvf home i e).ovfEnt cl j = if cl / 16 = home / 16 ∧ j = i then e.getD ⟨0, [], []⟩ else s.ovfEnt cl j := by
  simp only [State.setOvf, State.ovfEnt, FMap.get_put]
  by_cases hcl : cl / 16 = home / 16
  · cases e with
    | none => simp [hcl]
    | some e => simp [hcl]
  · simp [hcl]

theorem State.dirEnt_setOvf (s : State) (home i : Nat) (e : Option OvfEnt) : (s.setOvf home i e).dirEnt = s.dirEnt := rfl

theorem State.dirEnt_setDir (s : State) (home line : Nat) (e : DirEnt) (cl k : Nat) :
    (s.setDir home line e).dirEnt cl k = if cl = home ∧ k = line then e else s.dirEnt cl k := by
  simp only [State.setDir, State.dirEnt, State.onClu_clu]
  by_cases hcl : cl = home
  · subst hcl; simp [FMap.get_put]
  · simp [hcl]

section
variable (s : State) (home line : Nat) (p : Nat → Bool)

@[simp] theorem State.dropSharers_cores : (s.dropSharers home line p).cores = s.cores := by
  simp only [State.dropSharers]
  split
  · rfl
  · split
    · rfl
    · rfl

theorem State.dropSharers_frame : ∃ b c, s.dropSharers home line p = { s with clus := b, ovf := c } := by
  simp only [State.dropSharers]
  split
  · exact ⟨_, _, rfl⟩
  · split
    · exact ⟨_, _, rfl⟩
    · exact ⟨_, _, rfl⟩

/-- Only the entry of the line at its home changes. -/
theorem State.dropSharers_dirEnt {cl k : Nat} (h : ¬ (cl = home ∧ k = line)) : (s.dropSharers home line p).dirEnt cl k = s.dirEnt cl k := by
  simp only [State.dropSharers]
  split
  · rw [State.dirEnt_setDir, if_neg h]
  · split
    · rw [State.dirEnt_setDir, if_neg h]; rfl
    · rfl

/-- An overflow entry gains no core. -/
theorem State.dropSharers_ovfEnt {cl i g : Nat} (h : g ∈ ((s.dropSharers home line p).ovfEnt cl i).cores) : g ∈ (s.ovfEnt cl i).cores := by
  simp only [State.dropSharers] at h
  split at h
  · exact h
  · next j _ =>
    split at h
    · change g ∈ ((s.setOvf home j none).ovfEnt cl i).cores at h
      rw [State.ovfEnt_setOvf] at h
      split at h
      · nomatch h
      · exact h
    · rw [State.ovfEnt_setOvf] at h
      split at h
      · next hi =>
        obtain ⟨hcl, rfl⟩ := hi
        have : s.ovfEnt cl i = s.ovfEnt home i := by simp only [State.ovfEnt, hcl]
        rw [this]
        exact (List.mem_filter.1 h).1
      · exact h

end

/-- No copy of the line in the L1 of the core. -/
def State.L1Free (s : State) (g line : Nat) : Prop := ∀ x ∈ s.cores, x.1 = g → x.2.inL1 line = false

theorem State.L1Free.dropL1 (s : State) (g line : Nat) : (s.onCore g (fun c => c.dropL1 line)).L1Free g line := by
  rintro ⟨j, c⟩ hx rfl
  rw [FMap.mem_set_same hx]
  exact Core.dropL1_inL1 ..

/-- A core without a copy of a line shares it by a pointer or by its own entry in the overflow directory alone. -/
theorem State.not_mem_sharers {s : State} {g line : Nat} (hfree : s.L1Free g line) (cl : Nat) :
    g ∉ s.sharers cl line ↔ match (s.dirEnt cl line).ovf with
      | none => g ∉ (s.dirEnt cl line).ptrs
      | some i => g ∉ (s.ovfEnt cl i).cores := by
  simp only [State.sharers]
  cases (s.dirEnt cl line).ovf with
  | none => rfl
  | some i =>
    dsimp only
    rw [List.mem_append, not_or]
    refine and_iff_left fun hm => ?_
    obtain ⟨x, hx, hg⟩ := List.mem_map.1 hm
    obtain ⟨hxs, hin⟩ := List.mem_filter.1 hx
    rw [hfree x hxs hg] at hin
    simp at hin

section
variable {s : State} {g line : Nat} (hfree : s.L1Free g line)
include hfree

theorem State.L1Free.dropSharers (home : Nat) (p : Nat → Bool) : (s.dropSharers home line p).L1Free g line := by
  unfold State.L1Free
  rw [State.dropSharers_cores]
  exact hfree

/-- The home drops the core. -/
theorem State.dropSharers_drops (home : Nat) : g ∉ (s.dropSharers home line (fun x => decide (x = g))).sharers home line := by
  rw [State.not_mem_sharers (hfree.dropSharers _ _)]
  simp only [State.dropSharers]
  cases hov : (s.dirEnt home line).ovf with
  | none => simp [State.dirEnt_setDir]
  | some i =>
    dsimp only
    split_ifs
    · simp [State.dirEnt_setDir]
    · rw [State.dirEnt_setOvf, hov]
      simp [State.ovfEnt_setOvf]

/-- A home that does not list the core does not list it after another home has dropped sharers. -/
theorem State.dropSharers_keeps {cl : Nat} (home : Nat) (h : g ∉ s.sharers cl line) :
    g ∉ (s.dropSharers home line (fun x => decide (x = g))).sharers cl line := by
  by_cases hcl : cl = home
  · subst hcl; exact State.dropSharers_drops hfree cl
  · rw [State.not_mem_sharers hfree] at h
    rw [State.not_mem_sharers (hfree.dropSharers _ _), State.dropSharers_dirEnt _ _ _ _ (fun hc => hcl hc.1)]
    cases hov : (s.dirEnt cl line).ovf with
    | none => rw [hov] at h; exact h
    | some i => rw [hov] at h; exact fun hm => h (State.dropSharers_ovfEnt _ _ _ _ hm)

end

/-- The homes of a list drop a core one after the other. -/
def State.dropAt (s : State) (l : FMap Cluster) (line g : Nat) : State :=
  l.foldl (fun s k => s.dropSharers k.1 line (fun x => decide (x = g))) s

theorem exec_l1Invalidate (s : State) (g line : Nat) :
    exec (.l1Invalidate g line) s = .next ((s.onCore g (fun c => c.dropL1 line)).dropAt s.clus line g) := rfl

section
variable (line g : Nat) (l : FMap Cluster)

theorem State.dropAt_cores : ∀ s : State, (s.dropAt l line g).cores = s.cores := by
  induction l with
  | nil => exact fun s => rfl
  | cons k l ih => exact fun s => (ih _).trans (s.dropSharers_cores ..)

theorem State.dropAt_frame : ∀ s : State, ∃ b c, s.dropAt l line g = { s with clus := b, ovf := c } := by
  induction l with
  | nil => exact fun s => ⟨_, _, rfl⟩
  | cons k l ih =>
    intro s
    obtain ⟨b, c, h⟩ := s.dropSharers_frame k.1 line (fun x => decide (x = g))
    obtain ⟨b', c', h'⟩ := ih (s.dropSharers k.1 line (fun x => decide (x = g)))
    exact ⟨b', c', h'.trans (by rw [h])⟩

theorem State.dropAt_dirEnt {cl k : Nat} (hk : k ≠ line) : ∀ s : State, (s.dropAt l line g).dirEnt cl k = s.dirEnt cl k := by
  induction l with
  | nil => exact fun s => rfl
  | cons x l ih => exact fun s => (ih _).trans (s.dropSharers_dirEnt _ _ _ fun h => hk h.2)

variable {line g}

theorem State.dropAt_keeps {cl : Nat} : ∀ s : State, s.L1Free g line → g ∉ s.sharers cl line → g ∉ (s.dropAt l line g).sharers cl line := by
  induction l with
  | nil => exact fun s _ h => h
  | cons k l ih => exact fun s hfree h => ih _ (hfree.dropSharers _ _) (State.dropSharers_keeps hfree _ h)

theorem State.dropAt_drops {cl : Nat} (hcl : cl ∈ l.map (fun k => k.1)) :
    ∀ s : State, s.L1Free g line → g ∉ (s.dropAt l line g).sharers cl line := by
  induction l with
  | nil => nomatch hcl
  | cons k l ih =>
    intro s hfree
    rcases List.mem_cons.1 hcl with rfl | hcl
    · exact State.dropAt_keeps l _ (hfree.dropSharers _ _) (State.dropSharers_drops hfree _)
    · exact ih hcl _ (hfree.dropSharers _ _)

end

theorem FMap.get_of_not_listed {α : Type} {d : α} {m : FMap α} {i : Nat} (h : i ∉ m.map (fun k => k.1)) : FMap.get d m i = d := by
  induction m with
  | nil => rfl
  | cons p m ih =>
    obtain ⟨k, v⟩ := p
    rw [List.map_cons, List.mem_cons, not_or] at h
    rw [FMap.get, if_neg h.1]
    exact ih h.2

/-- After an invalidation no home lists the core as a sharer of the line. -/
theorem State.l1Invalidate_sharers (s : State) (g line cl : Nat) :
    g ∉ ((s.onCore g (fun c => c.dropL1 line)).dropAt s.clus line g).sharers cl line := by
  have hfree := State.L1Free.dropL1 s g line
  by_cases hcl : cl ∈ s.clus.map (fun k => k.1)
  · exact State.dropAt_drops _ hcl _ hfree
  · refine State.dropAt_keeps _ _ hfree ?_
    have hdir : (s.onCore g (fun c => c.dropL1 line)).dirEnt cl line = {} := by
      simp only [State.dirEnt, State.clu, State.onCore_clus, FMap.get_of_not_listed hcl]
      rfl
    rw [State.not_mem_sharers hfree, hdir]
    exact List.not_mem_nil

/-- O47, L1_INVALIDATE. -/
theorem memoryEvents_l1Invalidate (s : State) (g line : Nat) :
    ∃ t, exec (.l1Invalidate g line) s = .next t ∧ (t.core g).inL1 line = false ∧ (∀ cl, g ∉ t.sharers cl line) ∧
      (∀ cl k, k ≠ line → t.dirEnt cl k = s.dirEnt cl k) ∧ t = { s with cores := t.cores, clus := t.clus, ovf := t.ovf } := by
  refine ⟨_, exec_l1Invalidate s g line, ?_, fun cl => s.l1Invalidate_sharers g line cl, fun cl k hk => ?_, ?_⟩
  · have hcore (t u : State) (h : t.cores = u.cores) : t.core g = u.core g := by rw [State.core, State.core, h]
    rw [hcore _ _ (State.dropAt_cores line g s.clus _), State.onCore_core, if_pos rfl]
    exact Core.dropL1_inL1 ..
  · rw [State.dropAt_dirEnt line g _ hk]; rfl
  · obtain ⟨b, c, h⟩ := State.dropAt_frame line g s.clus (s.onCore g (fun c => c.dropL1 line))
    rw [h]
    rfl

end Sys2Proof.Machine

/-! ## Caches and reports (O47): what an access at a home and a report of an error leave unchanged -/

namespace Sys2Proof.Machine

theorem State.Like.dropSlice (s : State) (home line : Nat) : s.Like (s.dropSlice home line) := by
  rw [State.dropSlice]
  exact .onClu _ _ _ ⟨_, _, _, rfl⟩

theorem State.Like.atHome (s : State) (home line cls : Nat) (pol : Policy) (write : Bool) : s.Like (s.atHome home line cls pol write) :=
  .ite (.touchSlice ..) (.ite ((State.Like.invalidate ..).trans (.dropSlice ..)) (.refl s))

theorem State.Like.addSharer {s t : State} {home line gc : Nat} (h : s.addSharer home line gc = some t) : s.Like t := by
  simp only [State.addSharer] at h
  split at h
  · cases h; exact .setOvf ..
  · split at h
    · cases h; exact .refl s
    · split at h
      · cases h; exact .setDir ..
      · split at h
        · cases h; exact (State.Like.setOvf ..).trans (.setDir ..)
        · cases h

theorem State.Like.loadFill (s : State) (gc pa hb cls : Nat) (pol : Policy) : s.Like (s.loadFill gc pa hb cls pol) := by
  have hl1 (t : State) (g : List (Nat × Nat) → List (Nat × Nat)) (i : Nat) :
      t.Like (t.onCore gc (fun c => { c with l1 := FMap.put [] c.l1 i (g (FMap.get [] c.l1 i)) })) :=
    .onCore _ _ _ ⟨_, _, _, _, _, _, _, rfl⟩
  simp only [State.loadFill]
  split
  · exact hl1 s (touchSet 4 2 pol · (pa / 64)) _
  · refine (State.Like.atHome s ..).trans (.ite ?_ (.refl _))
    refine (State.Like.bumpCore _ gc 0x07).trans ?_
    split
    · next h => exact (State.Like.addSharer h).trans (hl1 _ (touchSet 4 2 pol · (pa / 64)) _)
    · exact .refl _

theorem State.Like.fillLines (gc : Nat) (pol : Policy) (l : List (Nat × Nat × Nat)) : ∀ s : State, s.Like (s.fillLines gc pol l) := by
  induction l with
  | nil => exact fun s => .refl s
  | cons x l ih => exact fun s => (State.Like.loadFill ..).trans (ih _)

theorem State.Like.touchLines (pol : Policy) (l : List (Nat × Nat × Nat × Nat)) : ∀ (s : State) (last : Option Nat), s.Like (s.touchLines pol l last) := by
  induction l with
  | nil => exact fun s _ => .refl s
  | cons x l ih =>
    intro s last
    obtain ⟨_, pa, hb, cls⟩ := x
    rw [State.touchLines]
    split
    · exact ih _ _
    · split
      · exact (State.Like.atHome ..).trans (ih _ _)
      · exact ih _ _

theorem State.Like.touchRead (s : State) (pol : Policy) (sp : List Span) (i n : Nat) : s.Like (s.touchRead pol sp i n) := .touchLines ..

theorem State.Like.mem {s t : State} (h : s.Like t) : t.mem = s.mem := by obtain ⟨_, _, _, rfl⟩ := h.frame; rfl
theorem State.Like.ctxs {s t : State} (h : s.Like t) : t.ctxs = s.ctxs := by obtain ⟨_, _, _, rfl⟩ := h.frame; rfl
theorem State.Like.tags {s t : State} (h : s.Like t) : t.tags = s.tags := by obtain ⟨_, _, _, rfl⟩ := h.frame; rfl
theorem State.Like.engines {s t : State} (h : s.Like t) : t.engines = s.engines := by obtain ⟨_, _, _, rfl⟩ := h.frame; rfl

/-! ### Reports -/

/-- A state that differs from `s` in what a report of an error adds: a packet, a notice, a mark of an imprecise fault. -/
structure State.Reported (s t : State) : Prop where
  mem : t.mem = s.mem
  wq : t.wq = s.wq
  loads : ∀ w, (t.ctx w).loads = (s.ctx w).loads

namespace State.Reported

variable {s t u : State}

theorem refl (s : State) : s.Reported s := ⟨rfl, rfl, fun _ => rfl⟩

theorem ite {c : Prop} [Decidable c] (h : s.Reported t) (k : s.Reported u) : s.Reported (if c then t else u) := by
  split
  · exact h
  · exact k

theorem faultNotice (s : State) (gc part : Nat) (patrol eng : Bool) (aid fsyn va pc fmsg w6 w7 : Nat) :
    s.Reported (s.faultNotice gc part patrol eng aid fsyn va pc fmsg w6 w7) := ite ⟨rfl, rfl, fun _ => rfl⟩ ⟨rfl, rfl, fun _ => rfl⟩

theorem lateFault (s : State) (o : Origin) (past : Bool) (t : Trap) (pc : Nat) : s.Reported (s.lateFault o past t pc) := faultNotice ..

theorem record (s : State) (w : Nat) (f : Imprecise) : s.Reported (s.record w f) := by
  refine ⟨rfl, rfl, fun v => ?_⟩
  rw [State.record, State.onCtx_ctx]
  split
  · next hv => rw [hv]
  · rfl

theorem imprecise (s : State) (o : Origin) (code detail : Nat) (va : Word) : s.Reported (s.imprecise o code detail va).1 := by
  simp only [State.imprecise]
  split
  · exact record ..
  · exact refl s

theorem blame (s : State) (o : Origin) (code detail : Nat) (va : Word) : s.Reported (s.blame o code detail va) :=
  ite (imprecise ..) (lateFault ..)

end State.Reported

end Sys2Proof.Machine

/-! ## LOAD_RETURN (O47) -/

namespace Sys2Proof.Machine

@[simp] theorem Ctx.dst_loads (c : Ctx) (d : Dst) (v : Word) : (c.dst d v).loads = c.loads := by rw [Ctx.dst_eq]

@[simp] theorem Ctx.vdst_loads (c : Ctx) (d : VDst) (v : VWord) : (c.vdst d v).loads = c.loads := by rw [Ctx.vdst_eq]

/-- The loads of a context after a change of it that keeps them. -/
theorem State.onCtx_loads (s : State) (w : Nat) (f : Ctx → Ctx) (h : (f (s.ctx w)).loads = (s.ctx w).loads) (v : Nat) :
    ((s.onCtx w f).ctx v).loads = (s.ctx v).loads := by
  rw [State.onCtx_ctx]
  split
  · next hv => rw [hv, h]
  · rfl

theorem State.sendStore_ctx_ne (s : State) (e : Pending) {v : Nat} (h : v ≠ e.org.w) : (s.sendStore e).ctx v = s.ctx v := by
  change ((State.countSt _ _).ctx v) = _
  rw [State.countSt, State.onCtx_ctx, if_neg h]
  rfl

/-- The value of a load goes to its context, or into the queue of stores. -/
theorem State.bindLoad_frame (s : State) (w : Nat) (l : Load) (bs : List Byte) :
    (s.bindLoad w l bs).mem = s.mem ∧ ∀ v, ((s.bindLoad w l bs).ctx v).loads = (s.ctx v).loads := by
  unfold State.bindLoad
  split
  · exact ⟨rfl, State.onCtx_loads _ _ _ (Ctx.dst_loads ..)⟩
  · exact ⟨rfl, State.onCtx_loads _ _ _ rfl⟩
  · exact ⟨rfl, State.onCtx_loads _ _ _ (Ctx.vdst_loads ..)⟩
  · refine ⟨rfl, fun v => ?_⟩
    obtain ⟨n, h⟩ := s.sendStore_ctx (pendingOf l.org .pref _ 0 0 .dflt bs 0 0) v
    rw [h]

/-- The last piece: the load is outstanding no more, and memory is as it was. -/
theorem State.endLoad_frame (s : State) (w : Nat) (l : Load) :
    (s.endLoad w l).mem = s.mem ∧ ((s.endLoad w l).ctx w).loads = (s.ctx w).loads.filter (fun x => decide (x.uid ≠ l.uid)) := by
  have hrep : s.Reported (if (l.addrs.any fun p => s.poisoned p.1) = true then s.blame l.org 0x11 0 l.va else s) :=
    .ite (.blame ..) (.refl s)
  unfold State.endLoad
  generalize (if (l.addrs.any fun p => s.poisoned p.1) = true then s.blame l.org 0x11 0 l.va else s) = u at hrep ⊢
  have hfill := State.Like.fillLines (coreOf w) l.pol (loadLines l.addrs) u
  obtain ⟨hmem, hloads⟩ := State.bindLoad_frame (u.fillLines (coreOf w) l.pol (loadLines l.addrs)) w l l.got
  constructor
  · rw [State.onCtx_mem, hmem, hfill.mem, hrep.mem]
  · rw [State.onCtx_ctx, if_pos rfl]
    dsimp only
    rw [hloads, hfill.wrote.ctx, hrep.loads]

section
variable {s : State} {w uid : Nat} {l : Load}

theorem exec_loadReturn_piece (hl : (s.ctx w).loads.find? (fun l => decide (l.uid = uid)) = some l) (hahead : (s.ctx w).loadAhead uid l.piece = false)
    (hlen : (l.got ++ l.piece.map (fun p => s.loadByte w l p.1)).length < l.addrs.length) :
    exec (.loadReturn w uid) s = .next (s.onCtx w (fun c => { c with
      loads := c.loads.map (fun x => if x.uid = uid then { l with got := l.got ++ l.piece.map (fun p => s.loadByte w l p.1) } else x) })) := by
  simp only [exec, execLoadReturn, hl, hahead, Bool.false_eq_true, if_false, if_pos hlen]

theorem exec_loadReturn_last (hl : (s.ctx w).loads.find? (fun l => decide (l.uid = uid)) = some l) (hahead : (s.ctx w).loadAhead uid l.piece = false)
    (hlen : l.addrs.length ≤ (l.got ++ l.piece.map (fun p => s.loadByte w l p.1)).length) :
    exec (.loadReturn w uid) s = .next (s.endLoad w { l with got := l.got ++ l.piece.map (fun p => s.loadByte w l p.1) }) := by
  simp only [exec, execLoadReturn, hl, hahead, Bool.false_eq_true, if_false, if_neg (Nat.not_lt.2 hlen)]

/-- A load of clean lines fills the caches and binds its value. -/
theorem State.endLoad_clean (h : ∀ p ∈ l.addrs, s.poisoned p.1 = false) :
    s.endLoad w l = ((s.fillLines (coreOf w) l.pol (loadLines l.addrs)).bindLoad w l l.got).onCtx w
      (fun c => { c with loads := c.loads.filter (fun x => x.uid ≠ l.uid) }) := by
  have hany : (l.addrs.any fun p => s.poisoned p.1) = false := List.any_eq_false.2 fun p hp => by rw [h p hp]; decide
  simp only [State.endLoad, hany, Bool.false_eq_true, if_false]

/-- What the last piece of a load of clean lines does, by its destination. -/
theorem State.endLoad_binds (h : ∀ p ∈ l.addrs, s.poisoned p.1 = false) : let t := s.endLoad w l
    let left := (s.ctx w).loads.filter (fun x => decide (x.uid ≠ l.uid))
    (∀ v, v ≠ w → v ≠ l.org.w → t.ctx v = s.ctx v) ∧
    (∀ d ty, l.dst = .scalar d ty → t.ctx w = { (s.ctx w).dst d (extend ty (leNat l.got)) with loads := left } ∧ t.wq = s.wq) ∧
    (∀ n, l.dst = .pair n → (t.ctx w).sreg n = BitVec.ofNat 64 (leNat (l.got.take 8)) ∧
      (t.ctx w).sreg (n + 1) = BitVec.ofNat 64 (leNat (l.got.drop 8)) ∧ t.wq = s.wq) ∧
    (∀ d k act old, l.dst = .vec d k act old → t.wq = s.wq ∧ ∃ v, (∀ r, (t.ctx w).vreg r =
      (((s.ctx w).vwrites d v).lookup r).getD ((s.ctx w).vreg r)) ∧
      v = BitVec.ofNat 512 (ofLanes k (fillLanes k old.toNat act 0 l.got))) ∧
    (∀ pa, l.dst = .local_ pa → ∃ e, t.wq = s.wq ++ [e] ∧ e.via = .pref ∧ e.org = l.org ∧ e.pa = pa ∧ e.bytes = l.got) := by
  dsimp only
  rw [State.endLoad_clean h]
  have hfill := State.Like.fillLines (coreOf w) l.pol (loadLines l.addrs) s
  have hctx := hfill.wrote.ctx
  have hwq := hfill.wrote.wq
  generalize s.fillLines (coreOf w) l.pol (loadLines l.addrs) = u at hctx hwq ⊢
  have hreg (f : Ctx → Ctx) : (((u.onCtx w f).onCtx w (fun c => { c with loads := c.loads.filter (fun x => x.uid ≠ l.uid) })).ctx w) =
      { f (s.ctx w) with loads := (f (s.ctx w)).loads.filter (fun x => x.uid ≠ l.uid) } := by
    rw [State.onCtx_ctx, if_pos rfl, State.onCtx_ctx, if_pos rfl, hctx]
  refine ⟨fun v hv ho => ?_, fun d ty hd => ?_, fun n hd => ?_, fun d k act old hd => ?_, fun pa hd => ?_⟩
  · rw [State.onCtx_ctx, if_neg hv, ← hctx]
    unfold State.bindLoad
    split
    · rw [State.onCtx_ctx, if_neg hv]
    · rw [State.onCtx_ctx, if_neg hv]
    · rw [State.onCtx_ctx, if_neg hv]
    · exact u.sendStore_ctx_ne _ ho
  · simp only [State.bindLoad, hd]
    refine ⟨(hreg _).trans ?_, hwq⟩
    rw [Ctx.dst_loads]
  · simp only [State.bindLoad, hd]
    rw [hreg]
    exact ⟨by simp [Ctx.sreg, Ctx.setSreg], by simp [Ctx.sreg, Ctx.setSreg], hwq⟩
  · simp only [State.bindLoad, hd]
    rw [hreg]
    exact ⟨hwq, _, fun r => Ctx.vdst_vreg (s.ctx w) d _ r, rfl⟩
  · simp only [State.bindLoad, hd]
    exact ⟨_, congrArg (· ++ _) hwq, rfl, rfl, rfl, rfl⟩

end

/-- O47, LOAD_RETURN. -/
theorem memoryEvents_loadReturn (s : State) (w uid : Nat) (l : Load) (hl : (s.ctx w).loads.find? (fun l => decide (l.uid = uid)) = some l)
    (hahead : (s.ctx w).loadAhead uid l.piece = false) :
    let bs := l.got ++ l.piece.map (fun p => s.loadByte w l p.1)
    let left := (s.ctx w).loads.filter (fun x => decide (x.uid ≠ uid))
    (bs.length < l.addrs.length → ∃ t, exec (.loadReturn w uid) s = .next t ∧ t = { s with ctxs := t.ctxs } ∧
      (∀ v, v ≠ w → t.ctx v = s.ctx v) ∧
      t.ctx w = { s.ctx w with loads := (s.ctx w).loads.map (fun x => if x.uid = uid then { l with got := bs } else x) }) ∧
    (l.addrs.length ≤ bs.length → ∃ t, exec (.loadReturn w uid) s = .next t ∧ (t.ctx w).loads = left ∧ t.mem = s.mem) ∧
    (l.addrs.length ≤ bs.length → (∀ p ∈ l.addrs, s.poisoned p.1 = false) →
      ∃ t, exec (.loadReturn w uid) s = .next t ∧ (∀ v, v ≠ w → v ≠ l.org.w → t.ctx v = s.ctx v) ∧
      (∀ d ty, l.dst = .scalar d ty → t.ctx w = { (s.ctx w).dst d (extend ty (leNat bs)) with loads := left } ∧ t.wq = s.wq) ∧
      (∀ n, l.dst = .pair n → (t.ctx w).sreg n = BitVec.ofNat 64 (leNat (bs.take 8)) ∧
        (t.ctx w).sreg (n + 1) = BitVec.ofNat 64 (leNat (bs.drop 8)) ∧ t.wq = s.wq) ∧
      (∀ d k act old, l.dst = .vec d k act old → t.wq = s.wq ∧ ∃ v, (∀ r, (t.ctx w).vreg r =
        (((s.ctx w).vwrites d v).lookup r).getD ((s.ctx w).vreg r)) ∧
        v = BitVec.ofNat 512 (ofLanes k (fillLanes k old.toNat act 0 bs))) ∧
      (∀ pa, l.dst = .local_ pa → ∃ e, t.wq = s.wq ++ [e] ∧ e.via = .pref ∧ e.org = l.org ∧ e.pa = pa ∧ e.bytes = bs)) := by
  obtain rfl : l.uid = uid := of_decide_eq_true (List.find?_some hl :)
  intro bs left
  refine ⟨fun hlen => ?_, fun hlen => ?_, fun hlen hclean => ?_⟩
  · refine ⟨_, exec_loadReturn_piece hl hahead hlen, rfl, fun v hv => ?_, ?_⟩
    · rw [State.onCtx_ctx, if_neg hv]
    · rw [State.onCtx_ctx, if_pos rfl]
  · obtain ⟨hmem, hloads⟩ := s.endLoad_frame w { l with got := bs }
    exact ⟨_, exec_loadReturn_last hl hahead hlen, hloads, hmem⟩
  · exact ⟨_, exec_loadReturn_last hl hahead hlen, State.endLoad_binds (l := { l with got := bs }) hclean⟩

end Sys2Proof.Machine

/-! ## Bytes at a scratchpad port (O47) -/

namespace Sys2Proof.Machine

/-- Where a byte of a scratchpad lies (R187). -/
theorem State.region_scratch {s : State} {pa gc a : Nat} (h : s.region pa = .scratch gc a) : pa = localPA gc a ∧ a < 2 ^ 20 := by
  simp only [State.region] at h
  split at h
  · cases h
  · split at h
    · cases h
    · split at h
      · next hs =>
        cases h
        unfold localPA
        omega
      · split at h
        · cases h
        · cases h

theorem State.rdByte_congr {s t : State} (h : t.mem = s.mem) : t.rdByte = s.rdByte := by
  funext a
  rw [State.rdByte, State.rdByte, h]

theorem State.rdByte_traceOne (s : State) (gc a src : Nat) (eng : Bool) {x : Nat} (hx : ¬ inTraceRing x) :
    (s.traceOne gc a src eng).rdByte x = s.rdByte x := by
  simp only [State.traceOne]
  split
  · rfl
  · split
    · rfl
    · split
      · refine (State.rdByte_wrNat_ne _ _ _ _ _ ?_).trans rfl
        by_contra hin
        refine hx ⟨gc, x - localPA gc 0xDC000, ?_, ?_⟩
        · rw [localPA_add] at hin
          have := Nat.mod_lt (s.core gc).raceSeq (y := 1024) (by decide)
          omega
        · rw [localPA_add] at hin ⊢
          omega
      · rfl

theorem State.rdByte_trace (s : State) (gc a n src : Nat) (eng : Bool) {x : Nat} (hx : ¬ inTraceRing x) :
    (s.trace gc a n src eng).rdByte x = s.rdByte x := by
  simp only [State.trace]
  split
  · rfl
  · split
    · exact State.rdByte_traceOne _ _ _ _ _ hx
    · rw [State.rdByte_traceOne _ _ _ _ _ hx, State.rdByte_traceOne _ _ _ _ _ hx]

/-- Below the descriptors a store leaves the bytes that it has. -/
theorem State.storeBytes_below (gc : Nat) (bs : List Byte) : ∀ (s : State) (a : Nat), a + bs.length ≤ 0xE0000 →
    s.storeBytes gc a bs = s.wrBytes (localPA gc a) bs := by
  induction bs with
  | nil => exact fun _ _ _ => rfl
  | cons b bs ih =>
    intro s a h
    rw [List.length_cons] at h
    have hbyte : s.storeByte gc a b = s.wrByte (localPA gc a) b := by
      rw [State.storeByte, State.portByte, if_neg (by omega)]
    rw [State.storeBytes, State.wrBytes, hbyte, ih _ _ (by omega), localPA_add]

/-- The bytes of a run, in memory and away from the trace rings. -/
theorem wroteBytes_wrBytes (s : State) (pa : Nat) (bs : List Byte) : wroteBytes s (s.wrBytes pa bs) pa bs.length (fun i => bs.getD i 0) :=
  fun a _ => s.rdByte_wrBytes bs pa a

theorem wroteBytes.congr {s t u : State} {pa n : Nat} {f : Nat → Byte} (h : wroteBytes s t pa n f)
    (k : ∀ x, ¬ inTraceRing x → u.rdByte x = t.rdByte x) : wroteBytes s u pa n f :=
  fun a ha => (k a ha).trans (h a ha)

theorem wroteBytes.from {s t u : State} {pa n : Nat} {f : Nat → Byte} (h : wroteBytes t u pa n f) (k : t.mem = s.mem) : wroteBytes s u pa n f := by
  intro a ha
  rw [h a ha, State.rdByte_congr k]

theorem wroteBytes.bytes {s t : State} {pa n : Nat} {f g : Nat → Byte} (h : wroteBytes s t pa n f) (k : ∀ i < n, f i = g i) : wroteBytes s t pa n g := by
  intro a ha
  rw [h a ha]
  split
  · next hin => exact k _ (by omega)
  · rfl

/-- A store of a context at a port, below the trace ring. -/
theorem wroteBytes_portStore (s : State) (w gc a : Nat) (bs : List Byte) (h : a + bs.length ≤ 0xDC000) :
    wroteBytes s (s.portStore w gc a bs) (localPA gc a) bs.length (fun i => bs.getD i 0) := by
  refine (wroteBytes_wrBytes s (localPA gc a) bs).congr fun x hx => ?_
  rw [State.portStore, State.rdByte_trace _ _ _ _ _ _ hx, State.storeBytes_below _ _ _ _ (by omega)]
  rfl

end Sys2Proof.Machine

/-! ## HOME_WRITE of a store (O47) -/

namespace Sys2Proof.Machine

/-! ### Stores of state segments that wait -/

theorem State.drainSegs_of_none (l : List Pending) : ∀ s : State, (∀ x ∈ l, x.via ≠ .seg) → s.drainSegs l = s := by
  induction l with
  | nil => exact fun _ _ => rfl
  | cons e l ih =>
    intro s h
    rw [State.drainSegs, if_neg fun hc => h e List.mem_cons_self hc.1]
    exact ih s fun x hx => h x (List.mem_cons_of_mem _ hx)

theorem exec_homeWrite_store {s : State} {e : Pending} (he : s.wq.find? (fun x => decide (x.uid = s.sel)) = some e) (hp : s.canPerform e = true) :
    exec .homeWrite s = .next ((s.storeStep e).drainSegs (s.storeStep e).wq) := by
  simp only [exec, execHomeWrite, State.storeNow, he, hp, if_true]

/-- Where no store of a state segment waits, HOME_WRITE is one step of its store. -/
theorem exec_homeWrite_step {s : State} {e : Pending} (he : s.wq.find? (fun x => decide (x.uid = s.sel)) = some e) (hp : s.canPerform e = true)
    (hseg : ∀ x ∈ (s.storeStep e).wq, x.via ≠ .seg) : exec .homeWrite s = .next (s.storeStep e) := by
  rw [exec_homeWrite_store he hp, State.drainSegs_of_none _ _ hseg]

/-! ### One step of a store -/

/-- The bytes of the next piece of a store. -/
def Pending.now (e : Pending) : List Byte := e.bytes.take e.piece

/-- A store behind its next piece; `skipped` says that a typed cell refused bytes of the piece. -/
def Pending.later (e : Pending) (skipped : Bool) : Pending :=
  { e with pa := e.pa + e.piece, bytes := e.bytes.drop e.piece, typed := e.typed || skipped }

theorem Pending.piece_le (e : Pending) : e.piece ≤ e.bytes.length := Nat.min_le_left _ _

theorem Pending.now_length (e : Pending) : e.now.length = e.piece := by
  rw [Pending.now, List.length_take, Nat.min_eq_left e.piece_le]

theorem Pending.now_getD (e : Pending) {i : Nat} (h : i < e.piece) : e.now.getD i 0 = e.bytes.getD i 0 := by
  rw [Pending.now, List.getD_eq_getElem?_getD, List.getElem?_take_of_lt h, ← List.getD_eq_getElem?_getD]

section
variable {s : State} {e : Pending}

theorem State.storeStep_more (hv : e.via ≠ .rst) (h : e.piece < e.bytes.length) :
    s.storeStep e = { (s.performStore e e.now).1 with
      wq := (s.performStore e e.now).1.wq.map (fun x => if x.uid = e.uid then e.later (s.performStore e e.now).2 else x) } := by
  unfold State.storeStep
  split
  · next hr => exact absurd hr hv
  · have hne : e.bytes.drop e.piece ≠ [] := by
      rw [Ne, List.drop_eq_nil_iff]; omega
    dsimp only
    rw [if_neg hne]
    rfl

theorem State.storeStep_last (hv : e.via ≠ .rst) (h : e.bytes.length ≤ e.piece) :
    s.storeStep e = (s.performStore e e.now).1.storeDone (e.later (s.performStore e e.now).2) := by
  unfold State.storeStep
  split
  · next hr => exact absurd hr hv
  · have heq : e.bytes.drop e.piece = [] := List.drop_eq_nil_iff.2 h
    dsimp only
    rw [if_pos heq]
    rfl

/-- What the end of a store leaves of memory and of the queue. -/
theorem State.storeDone_frame (s : State) (e : Pending) : (s.storeDone e).mem = s.mem ∧ (s.storeDone e).wq = s.wq.filter (fun x => decide (x.uid ≠ e.uid)) := by
  have hrep (u : State) : u.Reported (if e.typed = true then u.blame e.org 0x13 0 (BitVec.ofNat 64 e.at_) else u) := .ite (.blame ..) (.refl u)
  have hpoison (u : State) (c : Prop) [Decidable c] : (if c then u.clearPoison e.at_ else u).mem = u.mem ∧ (if c then u.clearPoison e.at_ else u).wq = u.wq := by
    split
    · exact ⟨rfl, rfl⟩
    · exact ⟨rfl, rfl⟩
  have hfree (u : State) (w : Nat) : (u.freeDrained w).mem = u.mem ∧ (u.freeDrained w).wq = u.wq := by
    unfold State.freeDrained
    split
    · exact ⟨rfl, rfl⟩
    · exact ⟨rfl, rfl⟩
  unfold State.storeDone
  extract_lets a b c
  have hb := hpoison a ((e.full && decide (e.via = .home)) = true)
  have hc := hrep b
  have hab : c.mem = s.mem ∧ c.wq = s.wq.filter (fun x => decide (x.uid ≠ e.uid)) := ⟨hc.mem.trans hb.1, hc.wq.trans hb.2⟩
  split
  · exact ⟨(hfree ..).1.trans hab.1, (hfree ..).2.trans hab.2⟩
  · exact hab

/-- The queue after a step: the store behind its piece in its place, or the store gone. -/
theorem State.storeStep_wq (hv : e.via ≠ .rst) (hwq : (s.performStore e e.now).1.wq = s.wq) : (s.storeStep e).wq =
    if e.piece < e.bytes.length then s.wq.map (fun x => if x.uid = e.uid then e.later (s.performStore e e.now).2 else x)
    else s.wq.filter (fun x => decide (x.uid ≠ e.uid)) := by
  split
  · next h => rw [State.storeStep_more hv h, ← hwq]
  · next h =>
    rw [State.storeStep_last hv (Nat.not_lt.1 h), (State.storeDone_frame ..).2, hwq]
    rfl

theorem State.storeStep_mem (hv : e.via ≠ .rst) : (s.storeStep e).mem = (s.performStore e e.now).1.mem := by
  by_cases h : e.piece < e.bytes.length
  · rw [State.storeStep_more hv h]
  · rw [State.storeStep_last hv (Nat.not_lt.1 h), (State.storeDone_frame ..).1]

/-- A step of a store adds no store of a state segment. -/
theorem State.storeStep_no_seg (hv : e.via ≠ .rst) (hs : e.via ≠ .seg) (hwq : (s.performStore e e.now).1.wq = s.wq) (h : ∀ x ∈ s.wq, x.via ≠ .seg) :
    ∀ x ∈ (s.storeStep e).wq, x.via ≠ .seg := by
  rw [State.storeStep_wq hv hwq]
  intro x hx
  split at hx
  · obtain ⟨y, hy, rfl⟩ := List.mem_map.1 hx
    split
    · exact hs
    · exact h y hy
  · exact h x (List.mem_filter.1 hx).1

/-- With a piece to come the store waits behind its piece. -/
theorem State.storeStep_waits (hv : e.via ≠ .rst) (hwq : (s.performStore e e.now).1.wq = s.wq) (he : e ∈ s.wq) (h : e.piece < e.bytes.length) :
    ∃ y ∈ (s.storeStep e).wq, y.uid = e.uid ∧ y.pa = e.pa + e.piece ∧ y.bytes = e.bytes.drop e.piece := by
  rw [State.storeStep_wq hv hwq, if_pos h]
  exact ⟨_, List.mem_map.2 ⟨e, he, if_pos rfl⟩, rfl, rfl, rfl⟩

/-- With its last piece the store leaves the queue. -/
theorem State.storeStep_leaves (hv : e.via ≠ .rst) (hwq : (s.performStore e e.now).1.wq = s.wq) (h : e.bytes.length ≤ e.piece) :
    ∀ x ∈ (s.storeStep e).wq, x ∈ s.wq ∧ x.uid ≠ e.uid := by
  rw [State.storeStep_wq hv hwq, if_neg (Nat.not_lt.2 h)]
  intro x hx
  obtain ⟨hx, hne⟩ := List.mem_filter.1 hx
  exact ⟨hx, of_decide_eq_true hne⟩

end

/-! ### A store at its home -/

theorem State.wrPlain_of_plain (bs : List Byte) : ∀ (s : State) (pa : Nat), (∀ i < bs.length, (s.cellTag (pa + i)).1 = 0) →
    s.wrPlain pa bs = (s.wrBytes pa bs, false) := by
  induction bs with
  | nil => exact fun _ _ _ => rfl
  | cons b bs ih =>
    intro s pa h
    have h0 : (s.cellTag pa).1 = 0 := h 0 (by simp)
    have hrest := ih (s.wrByte pa b) (pa + 1) fun i hi => by
      have := h (i + 1) (by simpa using hi)
      rwa [← Nat.add_assoc, Nat.add_right_comm] at this
    simp only [State.wrPlain, h0, ne_eq, not_true_eq_false, if_false, hrest, decide_false, Bool.or_false]
    rfl

section
variable {s : State} {e : Pending}

/-- A piece of a store to cells without a type is written at the home, whose caches follow. -/
theorem State.performStore_hbm (hr : s.region e.pa = .hbm) (htag : ∀ i < e.piece, (s.cellTag (e.pa + i)).1 = 0) :
    ∃ u, s.Like u ∧ s.performStore e e.now = (u.wrBytes e.pa e.now, false) := by
  have hlike : s.Like (if e.pa = e.at_ then s.atHome (homeOf e.pa e.hb) (e.pa / 64) (effClass e.cls e.pol) e.pol true else s) :=
    .ite (.atHome ..) (.refl s)
  refine ⟨_, hlike, ?_⟩
  simp only [State.performStore, hr]
  refine State.wrPlain_of_plain _ _ _ fun i hi => ?_
  rw [State.cellTag, hlike.tags]
  exact htag i (e.now_length ▸ hi)

/-- The `st` counter of a context after a store of its own is done. -/
theorem State.countSt_ctx (s : State) (w : Nat) : (∀ v, v ≠ w → (s.countSt w).ctx v = s.ctx v) ∧
    (s.countSt w).ctx w = { s.ctx w with ocSt := min 255 ((s.countSt w).stOut w) } := by
  have hself : (s.countSt w).ctx w = { s.ctx w with ocSt := min 255 (s.stOut w) } := by
    rw [State.countSt, State.onCtx_ctx, if_pos rfl]
  have hout : (s.countSt w).stOut w = s.stOut w := by rw [State.stOut, hself]; rfl
  refine ⟨fun v hv => ?_, by rw [hself, hout]⟩
  rw [State.countSt, State.onCtx_ctx, if_neg hv]

theorem State.storeDone_home (hv : e.via = .home) (ht : e.typed = false) (u : State) :
    (∀ w, w ≠ e.org.w → (u.storeDone e).ctx w = u.ctx w) ∧
    (u.storeDone e).ctx e.org.w = { u.ctx e.org.w with ocSt := min 255 ((u.storeDone e).stOut e.org.w) } := by
  have hdone : ∃ v : State, v.ctx = u.ctx ∧ u.storeDone e = v.countSt e.org.w := by
    simp only [State.storeDone, hv, ht, Bool.false_eq_true, if_false]
    refine ⟨_, ?_, rfl⟩
    split
    · rfl
    · rfl
  obtain ⟨v, hctx, h⟩ := hdone
  rw [h, ← hctx]
  exact v.countSt_ctx e.org.w

end

/-- O47, HOME_WRITE of a store at its home. -/
theorem memoryEvents_home {s : State} {e : Pending} (he : s.wq.find? (fun x => decide (x.uid = s.sel)) = some e) (hp : s.canPerform e = true)
    (hv : e.via = .home) (hr : s.region e.pa = .hbm) (htag : ∀ i < e.piece, (s.cellTag (e.pa + i)).1 = 0) (hseg : ∀ x ∈ s.wq, x.via ≠ .seg) :
    ∃ t, exec .homeWrite s = .next t ∧ (∀ i, (h : i < e.bytes.length) → i < e.piece → t.rdByte (e.pa + i) = e.bytes[i]) ∧
      (∀ x, ¬ (e.pa ≤ x ∧ x < e.pa + e.piece) → t.rdByte x = s.rdByte x) ∧
      (e.piece < e.bytes.length → t.ctxs = s.ctxs ∧ ∃ y ∈ t.wq, y.uid = s.sel ∧ y.pa = e.pa + e.piece ∧ y.bytes = e.bytes.drop e.piece) ∧
      (e.bytes.length ≤ e.piece → e.typed = false → (∀ x ∈ t.wq, x ∈ s.wq ∧ x.uid ≠ s.sel) ∧ (∀ w, w ≠ e.org.w → t.ctx w = s.ctx w) ∧
        t.ctx e.org.w = { s.ctx e.org.w with ocSt := min 255 (t.stOut e.org.w) }) := by
  have huid : e.uid = s.sel := of_decide_eq_true (List.find?_some he :)
  have hmem : e ∈ s.wq := List.mem_of_find?_eq_some he
  have hrst : e.via ≠ .rst := by rw [hv]; decide
  have hns : e.via ≠ .seg := by rw [hv]; decide
  obtain ⟨u, hu, hperf⟩ := State.performStore_hbm hr htag
  have hwrote : u.Wrote (u.wrBytes e.pa e.now) := .wrBytes ..
  have hwq : (s.performStore e e.now).1.wq = s.wq := by rw [hperf, hwrote.wq, hu.wrote.wq]
  have hrd (x : Nat) : (s.storeStep e).rdByte x = if e.pa ≤ x ∧ x < e.pa + e.piece then e.now.getD (x - e.pa) 0 else s.rdByte x := by
    rw [State.rdByte_congr (State.storeStep_mem hrst), hperf, State.rdByte_wrBytes, e.now_length, State.rdByte_congr hu.mem]
  refine ⟨_, exec_homeWrite_step he hp (State.storeStep_no_seg hrst hns hwq hseg), fun i hi hpi => ?_, fun x hx => ?_, fun hmore => ?_, fun hlast ht => ?_⟩
  · rw [hrd, if_pos (by omega), Nat.add_sub_cancel_left, e.now_getD hpi, List.getD_eq_getElem _ _ hi]
  · rw [hrd, if_neg hx]
  · refine ⟨?_, huid ▸ State.storeStep_waits hrst hwq hmem hmore⟩
    rw [State.storeStep_more hrst hmore, hperf]
    exact (congrArg State.ctxs (State.wrBytes_eq _ _ _)).trans hu.ctxs
  · refine ⟨huid ▸ State.storeStep_leaves hrst hwq hlast, ?_⟩
    rw [State.storeStep_last hrst hlast, hperf]
    have hdone := State.storeDone_home (e := e.later false) hv (by rw [Pending.later, ht]; rfl) (u.wrBytes e.pa e.now)
    rw [hwrote.ctx, hu.wrote.ctx] at hdone
    exact hdone

/-- O47: a store at a home that nothing holds back may be performed. -/
theorem memoryEvents_canPerform {s : State} {e : Pending} (hv : e.via = .home) (hahead : ∀ x ∈ s.wq, x.ahead e = false)
    (hout : s.outstanding e.org.w e.after e.grp = false) (hent : s.entered e = true)
    (hsh : ∀ g ∈ s.sharers (homeOf e.pa e.hb) (e.pa / 64), g = e.org.w / 4) : s.canPerform e = true := by
  have hany : s.wq.any (fun x => x.ahead e) = false := List.any_eq_false.2 fun x hx => by rw [hahead x hx]; decide
  have hall : (s.sharers (homeOf e.pa e.hb) (e.pa / 64)).all (fun g => decide (g = coreOf e.org.w)) = true :=
    List.all_eq_true.2 fun g hg => decide_eq_true (hsh g hg)
  simp only [State.canPerform, hany, hv, hout, hent, hall, Bool.not_false, Bool.and_self]

/-- O47, HOME_WRITE of a store at a port. -/
theorem memoryEvents_port {s : State} {e : Pending} {gc a : Nat} (he : s.wq.find? (fun x => decide (x.uid = s.sel)) = some e)
    (hp : s.canPerform e = true) (hv : e.via = .port ∨ e.via = .pref) (hr : s.region e.pa = .scratch gc a) (ha : a + e.piece ≤ 0xDC000)
    (hseg : ∀ x ∈ s.wq, x.via ≠ .seg) :
    ∃ t, exec .homeWrite s = .next t ∧ wroteBytes s t e.pa e.piece (fun i => e.bytes.getD i 0) ∧
      (e.piece < e.bytes.length → ∃ y ∈ t.wq, y.uid = s.sel ∧ y.pa = e.pa + e.piece ∧ y.bytes = e.bytes.drop e.piece) ∧
      (e.bytes.length ≤ e.piece → ∀ x ∈ t.wq, x ∈ s.wq ∧ x.uid ≠ s.sel) := by
  have huid : e.uid = s.sel := of_decide_eq_true (List.find?_some he :)
  have hmem : e ∈ s.wq := List.mem_of_find?_eq_some he
  have hrst : e.via ≠ .rst := by rcases hv with h | h <;> simp [h]
  have hns : e.via ≠ .seg := by rcases hv with h | h <;> simp [h]
  have hperf : s.performStore e e.now = (s.portStore e.org.w gc a e.now, false) := by simp only [State.performStore, hr]
  have hwq : (s.performStore e e.now).1.wq = s.wq := by rw [hperf, (State.Wrote.portStore ..).wq]
  refine ⟨_, exec_homeWrite_step he hp (State.storeStep_no_seg hrst hns hwq hseg), ?_,
    fun hmore => huid ▸ State.storeStep_waits hrst hwq hmem hmore, fun hlast => huid ▸ State.storeStep_leaves hrst hwq hlast⟩
  have hport := wroteBytes_portStore s e.org.w gc a e.now (by rw [e.now_length]; exact ha)
  rw [← (State.region_scratch hr).1, e.now_length] at hport
  refine (hport.bytes fun i hi => e.now_getD hi).congr fun x _ => ?_
  rw [State.rdByte_congr (State.storeStep_mem hrst), hperf]

end Sys2Proof.Machine

/-! ## A write of an engine within one line (O47) -/

namespace Sys2Proof.Machine

/-! ### What the checks of an access rest on -/

theorem State.reach_congr {s t : State} (h : t.mods = s.mods) : t.reach = s.reach := by
  have hmod : t.mod = s.mod := by funext m; rw [State.mod, State.mod, h]
  have hrouted : ∀ n m d, t.routed n m d = s.routed n m d := by
    intro n
    induction n with
    | zero => exact fun m d => rfl
    | succ n ih => intro m d; simp only [State.routed, State.linkDown, hmod, ih]
  funext m d
  rw [State.reach, State.reach, hrouted]

section
variable {s t : State} (h : s.Like t)
include h

theorem State.Like.region : t.region = s.region := by
  obtain ⟨_, _, _, h⟩ := h.frame
  funext pa
  simp only [State.region, h]

theorem State.Like.skips : t.skips = s.skips := by
  funext pa
  rw [State.skips, State.skips, h.region, State.cellTag, State.cellTag, h.tags]

theorem State.Like.devOk : t.devOk = s.devOk := by
  have hmods : t.mods = s.mods := by obtain ⟨_, _, _, h⟩ := h.frame; rw [h]
  have hmod : t.mod = s.mod := by funext m; rw [State.mod, State.mod, hmods]
  have hbase (gc : Nat) : (t.core gc).sysBase = (s.core gc).sysBase := by
    obtain ⟨_, _, _, _, _, _, _, hc⟩ := h.core gc
    rw [hc]; rfl
  have hoff : t.coreOff = s.coreOff := by funext gc; simp only [State.coreOff, hmod]
  have howner : t.ownerOf = s.ownerOf := by funext gc; simp only [State.ownerOf, hoff, hmod]
  have hhbm : t.hbmOk = s.hbmOk := by funext m part write pa; simp only [State.hbmOk, State.partEntry, hmod]
  funext m part write pa
  simp only [State.devOk, State.reach_congr hmods, h.region, howner, hhbm, hbase]

theorem State.Like.rowOpen {e : EngCmd} {d : List Span} {o n pa : Nat} (k : rowOpen s e d o n pa) : Machine.rowOpen t e d o n pa := by
  intro i hi
  rw [h.devOk, h.skips]
  exact k i hi

end

/-! ### Counters that watch a write (R365) -/

/-- A state that differs from `s` in its landing counters and in packets alone, as one that a counted write leaves. -/
structure State.Counted (s t : State) : Prop where
  mem : t.mem = s.mem
  tags : t.tags = s.tags
  engines : t.engines = s.engines

theorem State.Counted.trans {s t u : State} (h : s.Counted t) (k : t.Counted u) : s.Counted u :=
  ⟨k.mem.trans h.mem, k.tags.trans h.tags, k.engines.trans h.engines⟩

theorem State.Counted.coreOverruns (gc : Nat) (l : List Nat) : ∀ s : State, s.Counted (s.coreOverruns gc l) := by
  induction l with
  | nil => exact fun _ => ⟨rfl, rfl, rfl⟩
  | cons i l ih => exact fun s => State.Counted.trans (t := s.landNotice _ false gc i 2) ⟨rfl, rfl, rfl⟩ (ih _)

theorem State.Counted.sliceOverruns (cl : Nat) (l : List Nat) : ∀ s : State, s.Counted (s.sliceOverruns cl l) := by
  induction l with
  | nil => exact fun _ => ⟨rfl, rfl, rfl⟩
  | cons i l ih => exact fun s => State.Counted.trans (t := s.landNotice _ true cl i 2) ⟨rfl, rfl, rfl⟩ (ih _)

theorem State.Counted.countPort (s : State) (gc a n : Nat) : s.Counted (s.countPort gc a n) :=
  State.Counted.trans (t := s.onCore gc _) ⟨rfl, rfl, rfl⟩ (.coreOverruns ..)

theorem State.Counted.countHome (s : State) (home pa n : Nat) : s.Counted (s.countHome home pa n) :=
  State.Counted.trans (t := s.onClu home _) ⟨rfl, rfl, rfl⟩ (.sliceOverruns ..)

theorem State.Wrote.engines {s t : State} (h : s.Wrote t) : t.engines = s.engines := by obtain ⟨_, _, _, _, _, rfl⟩ := h.frame; rfl

/-! ### A write at a port -/

theorem wroteBytes_portWrite (s : State) (r : PortReq) (src gc a : Nat) (bs : List Byte) (eng : Bool) :
    wroteBytes s (s.portWrite r src gc a bs eng) (localPA gc a) bs.length (fun i => bs.getD i 0) := by
  refine (wroteBytes_wrBytes s (localPA gc a) bs).congr fun x hx => ?_
  rw [State.portWrite, State.rdByte_congr (State.Counted.countPort ..).mem, State.rdByte_trace _ _ _ _ _ _ hx]
  rfl

theorem State.portWrite_engines (s : State) (r : PortReq) (src gc a : Nat) (bs : List Byte) (eng : Bool) :
    (s.portWrite r src gc a bs eng).engines = s.engines := by
  have hw : s.Wrote ((((s.wrBytes (localPA gc a) bs).heal (localPA gc a) bs.length).grant gc a bs.length r).trace gc a bs.length src eng) :=
    (((State.Wrote.wrBytes s _ bs).trans (.heal ..)).trans (State.Like.grant ..).wrote).trans (.trace ..)
  exact (State.Counted.countPort ..).engines.trans hw.engines

/-! ### A write at a home, cell by cell -/

/-- Runs of bytes written one after the other. -/
def State.wrRuns (s : State) (l : List (Nat × List Byte)) : State := l.foldl (fun s r => s.wrBytes r.1 r.2) s

theorem State.wrByte_wrBytes (s : State) (pa : Nat) (b : Byte) (bs : List Byte) : (s.wrByte pa b).wrBytes (pa + 1) bs = s.wrBytes pa (b :: bs) := rfl

/-- The runs cut at cells begin at the first address, and hold the bytes in order. -/
theorem cellRuns_first (pa : Nat) (b : Byte) (bs : List Byte) : ∃ l r, cellRuns pa (b :: bs) = (pa, l) :: r := by
  rw [cellRuns]
  split
  · split
    · exact ⟨_, _, rfl⟩
    · exact ⟨_, _, rfl⟩
  · exact ⟨_, _, rfl⟩

theorem State.wrRuns_cellRuns (bs : List Byte) : ∀ (s : State) (pa : Nat), s.wrRuns (cellRuns pa bs) = s.wrBytes pa bs := by
  induction bs with
  | nil => exact fun _ _ => rfl
  | cons b bs ih =>
    intro s pa
    rw [← State.wrByte_wrBytes, ← ih, cellRuns]
    cases bs with
    | nil => rfl
    | cons c bs =>
      obtain ⟨l, r, h⟩ := cellRuns_first (pa + 1) c bs
      rw [h]
      dsimp only
      split
      · rfl
      · rfl

theorem cellRuns_mem (bs : List Byte) : ∀ (pa : Nat), ∀ r ∈ cellRuns pa bs, ∃ i < bs.length, r.1 = pa + i := by
  induction bs with
  | nil => intro pa r hr; nomatch hr
  | cons b bs ih =>
    intro pa r hr
    rw [List.length_cons]
    have hlater : ∀ r ∈ cellRuns (pa + 1) bs, ∃ i < bs.length + 1, r.1 = pa + i := by
      intro r hr
      obtain ⟨i, hi, h⟩ := ih (pa + 1) r hr
      exact ⟨i + 1, by omega, by omega⟩
    rw [cellRuns] at hr
    generalize cellRuns (pa + 1) bs = q at hr hlater
    split at hr
    · next a l q =>
      split at hr
      · rcases List.mem_cons.1 hr with rfl | hr
        · exact ⟨0, by omega, rfl⟩
        · exact hlater r (List.mem_cons_of_mem _ hr)
      · rcases List.mem_cons.1 hr with rfl | hr
        · exact ⟨0, by omega, rfl⟩
        · exact hlater r hr
    · rcases List.mem_cons.1 hr with rfl | hr
      · exact ⟨0, by omega, rfl⟩
      · nomatch hr

theorem State.wrRuns_congr (l : List (Nat × List Byte)) : ∀ {s t : State}, t.rdByte = s.rdByte → (t.wrRuns l).rdByte = (s.wrRuns l).rdByte := by
  induction l with
  | nil => exact fun h => h
  | cons x l ih =>
    intro s t h
    refine ih (s := s.wrBytes x.1 x.2) (t := t.wrBytes x.1 x.2) ?_
    funext a
    rw [State.rdByte_wrBytes, State.rdByte_wrBytes, h]

/-- Runs of cells without a type are all written. -/
theorem State.writeCells_plain (home : Nat) (l : List (Nat × List Byte)) : ∀ s : State, (∀ r ∈ l, (s.cellTag r.1).1 = 0) →
    (s.writeCells home l).2 = none ∧ (s.writeCells home l).1.engines = s.engines ∧ (s.writeCells home l).1.rdByte = (s.wrRuns l).rdByte := by
  induction l with
  | nil => exact fun _ _ => ⟨rfl, rfl, rfl⟩
  | cons x l ih =>
    intro s h
    obtain ⟨pa, bs⟩ := x
    have hc : (s.wrBytes pa bs).Counted ((s.wrBytes pa bs).countHome home pa bs.length) := .countHome ..
    have htags : ((s.wrBytes pa bs).countHome home pa bs.length).tags = s.tags := by rw [hc.tags, State.wrBytes_eq]
    have hengines : ((s.wrBytes pa bs).countHome home pa bs.length).engines = s.engines := by rw [hc.engines, State.wrBytes_eq]
    have h0 : (s.cellTag pa).1 = 0 := h _ List.mem_cons_self
    obtain ⟨hskip, heng, hrd⟩ := ih ((s.wrBytes pa bs).countHome home pa bs.length) fun r hr => by
      rw [State.cellTag, htags]
      exact h r (List.mem_cons_of_mem _ hr)
    rw [State.writeCells, if_neg (not_not_intro h0)]
    exact ⟨hskip, heng.trans hengines, hrd.trans (State.wrRuns_congr l (State.rdByte_congr hc.mem))⟩

/-- A line lies in a scratchpad as a whole. -/
theorem State.region_line {s : State} {pa pb gc a : Nat} (h : s.region pb = .scratch gc a) (hl : pa / 64 = pb / 64) :
    ∃ gc' a', s.region pa = .scratch gc' a' := by
  simp only [State.region] at h
  split at h
  · cases h
  · next hp =>
    split at h
    · cases h
    · split at h
      · next hs =>
        refine ⟨pa / 2 ^ 44 * 2048 + (pa % 2 ^ 44 - 0x80000000000) / 2 ^ 20, pa % 2 ^ 44 % 2 ^ 20, ?_⟩
        have hm : pa / 2 ^ 44 = pb / 2 ^ 44 := by omega
        simp only [State.region]
        rw [if_neg (by rw [hm]; exact hp), if_neg (by omega), if_pos (by omega)]
      · split at h
        · cases h
        · cases h

/-- A write of a device within one line, to bytes that it does not skip. -/
theorem State.devWrite_open (s : State) (r : PortReq) (src pa hb cls : Nat) (pol : Policy) (bs : List Byte)
    (h : ∀ i < bs.length, s.skips (pa + i) = false) (hl : pa % 64 + bs.length ≤ 64) :
    (s.devWrite r src pa hb cls pol bs).2 = none ∧ (s.devWrite r src pa hb cls pol bs).1.engines = s.engines ∧
      wroteBytes s (s.devWrite r src pa hb cls pol bs).1 pa bs.length (fun i => bs.getD i 0) := by
  unfold State.devWrite
  split
  · next gc a hr =>
    refine ⟨rfl, State.portWrite_engines .., ?_⟩
    rw [(State.region_scratch hr).1]
    exact wroteBytes_portWrite s r src gc a bs true
  · next hns =>
    have hlike : s.Like ((s.invalidate (homeOf pa hb) (pa / 64) none).atHome (homeOf pa hb) (pa / 64) (effClass cls pol) pol true) :=
      (State.Like.invalidate ..).trans (.atHome ..)
    dsimp only
    generalize (s.invalidate (homeOf pa hb) (pa / 64) none).atHome (homeOf pa hb) (pa / 64) (effClass cls pol) pol true = u at hlike ⊢
    have hcount : s.Counted (if bs.length = 64 then u.clearPoison pa else u) := by
      split
      · exact ⟨hlike.mem, hlike.tags, hlike.engines⟩
      · exact ⟨hlike.mem, hlike.tags, hlike.engines⟩
    generalize (if bs.length = 64 then u.clearPoison pa else u) = v at hcount ⊢
    have htag : ∀ x ∈ cellRuns pa bs, (v.cellTag x.1).1 = 0 := by
      intro x hx
      obtain ⟨i, hi, hxi⟩ := cellRuns_mem bs pa x hx
      have hskip := h i hi
      rw [State.cellTag, hcount.tags, hxi]
      unfold State.skips at hskip
      split at hskip
      · next hs =>
        obtain ⟨gc, a, hpa⟩ := State.region_line (pa := pa) hs (by omega)
        exact absurd hpa (hns gc a)
      · change (s.cellTag (pa + i)).1 = 0
        simpa using hskip
    obtain ⟨hskip, heng, hrd⟩ := State.writeCells_plain (homeOf pa hb) _ v htag
    refine ⟨hskip, heng.trans hcount.engines, ?_⟩
    refine wroteBytes.from (t := v) ((wroteBytes_wrBytes v pa bs).congr fun x _ => ?_) hcount.mem
    rw [hrd, State.wrRuns_cellRuns]

/-! ### A write over spans that stays within one line (R276) -/

section
variable {r : PortReq} {src part : Nat} {pol : Policy} {sp : List Span}

theorem State.flush_first {s : State} {run : List (Nat × Nat × Nat × Nat × Byte)} {va pa hb cls : Nat} {b : Byte}
    (h : run.reverse.head? = some (va, pa, hb, cls, b)) (hw : (s.devWrite r src pa hb cls pol (run.reverse.map (fun y => y.2.2.2.2))).2 = none) :
    State.writeSpans.flush r src pol s run none = ((s.devWrite r src pa hb cls pol (run.reverse.map (fun y => y.2.2.2.2))).1, none) := by
  unfold State.writeSpans.flush
  cases hr : run.reverse with
  | nil => rw [hr] at h; nomatch h
  | cons x l =>
    rw [hr] at h hw
    obtain rfl : x = (va, pa, hb, cls, b) := Option.some.inj h
    rw [List.map_cons] at hw ⊢
    dsimp only
    rw [hw]

/-- The bytes of a line that are open gather in one run. -/
theorem State.writeSpans_go (s : State) (bs : List Byte) : ∀ (i n k vb pb hb cb : Nat) (b : Byte) (rest : List (Nat × Nat × Nat × Nat × Byte)),
    (∀ j < bs.length, (∃ va hb cls, spanAt sp (i + j) = some (va, pb + 1 + j, hb, cls)) ∧ s.devOk (modOf src) part true (pb + 1 + j) = true ∧
      s.skips (pb + 1 + j) = false) → pb % 64 + 1 + bs.length ≤ 64 →
    ∃ run, run.reverse.head? = ((vb, pb, hb, cb, b) :: rest).reverse.head? ∧
      run.reverse.map (fun y => y.2.2.2.2) = ((vb, pb, hb, cb, b) :: rest).reverse.map (fun y => y.2.2.2.2) ++ bs ∧
      State.writeSpans.go r src part pol sp s i ((vb, pb, hb, cb, b) :: rest) bs none n k =
        ⟨(State.writeSpans.flush r src pol s run none).1, n + bs.length, k + bs.length, (State.writeSpans.flush r src pol s run none).2, none⟩ := by
  induction bs with
  | nil =>
    intro i n k vb pb hb cb b rest _ _
    exact ⟨_, rfl, (List.append_nil _).symm, rfl⟩
  | cons c bs ih =>
    intro i n k vb pb hb cb b rest h hl
    rw [List.length_cons] at h hl
    obtain ⟨⟨va, hc, cc, hsp⟩, hok, hskip⟩ := h 0 (by omega)
    simp only [Nat.add_zero] at hsp hok hskip
    obtain ⟨run, hhead, hbytes, hgo⟩ := ih (i + 1) (n + 1) (k + 1) va (pb + 1) hc cc c ((vb, pb, hb, cb, b) :: rest) (fun j hj => by
      have hj1 := h (j + 1) (by omega)
      rwa [← Nat.add_assoc, Nat.add_right_comm i j 1, ← Nat.add_assoc, Nat.add_right_comm (pb + 1) j 1] at hj1) (by omega)
    refine ⟨run, ?_, ?_, ?_⟩
    · rw [hhead, List.reverse_cons, List.head?_append_of_ne_nil _ (by simp)]
    · rw [hbytes, List.reverse_cons, List.map_append, List.append_assoc]; rfl
    · rw [State.writeSpans.go]
      simp only [hsp, hok, hskip, Bool.not_true, Bool.false_eq_true, if_false]
      rw [if_pos ⟨trivial, by omega⟩, hgo, List.length_cons]
      simp only [Nat.add_assoc, Nat.add_comm 1]

/-- A write of bytes that lie one behind the other in one line, each of which the agent may write and none of which it skips. -/
theorem State.writeSpans_open (s : State) (i pa : Nat) (bs : List Byte) (hne : bs ≠ [])
    (h : ∀ j < bs.length, (∃ va hb cls, spanAt sp (i + j) = some (va, pa + j, hb, cls)) ∧ s.devOk (modOf src) part true (pa + j) = true ∧
      s.skips (pa + j) = false) (hl : pa % 64 + bs.length ≤ 64) :
    ∃ u, s.writeSpans r src part pol sp i bs = ⟨u, bs.length, bs.length, none, none⟩ ∧ u.engines = s.engines ∧
      wroteBytes s u pa bs.length (fun i => bs.getD i 0) := by
  obtain ⟨c, cs, rfl⟩ := List.exists_cons_of_ne_nil hne
  obtain ⟨⟨va, hb, cls, hsp⟩, hok, hskip⟩ := h 0 (by simp)
  simp only [Nat.add_zero] at hsp hok hskip
  rw [List.length_cons] at hl h
  obtain ⟨run, hhead, hbytes, hgo⟩ := State.writeSpans_go (r := r) (src := src) (part := part) (pol := pol) (sp := sp) s cs (i + 1) 1 1 va pa hb cls c []
    (fun j hj => by
      have hj1 := h (j + 1) (by omega)
      rwa [← Nat.add_assoc, Nat.add_right_comm i j 1, ← Nat.add_assoc, Nat.add_right_comm pa j 1] at hj1) (by omega)
  have hbytes' : run.reverse.map (fun y => y.2.2.2.2) = c :: cs := hbytes
  obtain ⟨hnone, heng, hwrote⟩ := s.devWrite_open r src pa hb cls pol (c :: cs) (fun j hj => (h j (by simpa using hj)).2.2) (by simpa using hl)
  have hflush := State.flush_first (s := s) (r := r) (src := src) (pol := pol) (run := run) hhead (by rw [hbytes']; exact hnone)
  refine ⟨_, ?_, heng, hwrote⟩
  rw [State.writeSpans, State.writeSpans.go]
  simp only [hsp, hok, hskip, Bool.not_true, Bool.false_eq_true, if_false]
  rw [hgo, hflush, hbytes', List.length_cons, Nat.add_comm 1]

end

end Sys2Proof.Machine

/-! ## HOME_WRITE of an engine command (O47) -/

namespace Sys2Proof.Machine

/-! ### The table of commands -/

theorem State.setCmd_find {s : State} {x f : EngCmd} (h : s.cmd f.uid = some x) : (s.setCmd f).cmd f.uid = some f := by
  have hcomp : (fun e : EngCmd => decide (e.uid = f.uid)) ∘ (fun x => if x.uid = f.uid then f else x) = fun e => decide (e.uid = f.uid) := by
    funext e
    simp only [Function.comp]
    split
    · next he => simp [he]
    · rfl
  have huid : x.uid = f.uid := of_decide_eq_true (List.find?_some h :)
  rw [State.cmd] at h
  rw [State.cmd, State.setCmd, List.find?_map, hcomp, h]
  exact congrArg some (if_pos huid)

theorem State.setCmd_find_ne {s : State} {f : EngCmd} {n : Nat} (hn : n ≠ f.uid) : (s.setCmd f).cmd n = s.cmd n := by
  have hcomp : (fun e : EngCmd => decide (e.uid = n)) ∘ (fun x => if x.uid = f.uid then f else x) = fun e => decide (e.uid = n) := by
    funext e
    simp only [Function.comp]
    split
    · next he => simp [he]
    · rfl
  rw [State.cmd, State.setCmd, List.find?_map, hcomp, ← State.cmd]
  cases h : s.cmd n with
  | none => rfl
  | some x =>
    have huid : x.uid = n := of_decide_eq_true (List.find?_some h :)
    exact congrArg some (if_neg (huid ▸ hn))

theorem exec_homeWrite_engine {s t : State} {e : EngCmd} (hwq : ∀ x ∈ s.wq, x.uid ≠ s.sel) (he : s.cmd s.sel = some e) (h : s.engStep e = some t) :
    exec .homeWrite s = .next t := by
  have hnone : s.storeNow s.sel = none := by
    rw [State.storeNow, List.find?_eq_none.2 fun x hx => by simpa using hwq x hx]
  simp only [exec, execHomeWrite, hnone, he, Option.bind_some, h]

section
variable {s : State} {e : EngCmd} {d : List Span}

theorem State.engStep_next (hp : e.phase = .active) (herr : e.err = false) (hd : e.dst[e.row]? = some d) (h : e.rowLen d ≤ e.pos) :
    s.engStep e = some (s.setCmd { e with row := e.row + 1, pos := 0, sbit := 0, carry := {} }) := by
  simp only [State.engStep, hp, herr, hd, ne_eq, not_true_eq_false, Bool.false_eq_true, or_self, if_false, if_pos h]

theorem State.engStep_raw {va pa hb cls : Nat} (hp : e.phase = .active) (herr : e.err = false) (hd : e.dst[e.row]? = some d) (h : e.pos < e.rowLen d)
    (hs : spanAt d e.pos = some (va, pa, hb, cls)) (hc : e.converts = false) :
    s.engStep e = some (s.putPiece e d e.pos (s.rawPiece e (e.src.getD e.row []) (min (e.rowLen d - e.pos) (64 - pa % 64)))) := by
  simp only [State.engStep, hp, herr, hd, ne_eq, not_true_eq_false, Bool.false_eq_true, or_self, if_false, if_neg (Nat.not_le.2 h), hs,
    Option.elim_some, hc]

theorem State.engStep_conv {va pa hb cls : Nat} (hp : e.phase = .active) (herr : e.err = false) (hd : e.dst[e.row]? = some d) (h : e.pos < e.rowLen d)
    (hs : spanAt d e.pos = some (va, pa, hb, cls)) (hc : e.converts = true) :
    s.engStep e = some (s.putPiece e d e.pos (s.convPiece e d (e.src.getD e.row [])
      (min (e.rowLen d - e.pos) (if e.dbank = true then 16 - pa % 16 else 64 - pa % 64)))) := by
  simp only [State.engStep, hp, herr, hd, ne_eq, not_true_eq_false, Bool.false_eq_true, or_self, if_false, if_neg (Nat.not_le.2 h), hs,
    Option.elim_some, hc, if_true]

/-! ### A piece of clean bytes to open places -/

theorem State.spreadPoison_clean (d : List Span) (l : List (Byte × Bool)) : ∀ (s : State) (o : Nat), (∀ x ∈ l, x.2 = false) → s.spreadPoison d o l = s := by
  induction l with
  | nil => exact fun _ _ _ => rfl
  | cons x l ih =>
    intro s o h
    obtain ⟨b, p⟩ := x
    obtain rfl : p = false := h _ List.mem_cons_self
    rw [State.spreadPoison, if_neg (by decide)]
    exact ih _ _ fun y hy => h y (List.mem_cons_of_mem _ hy)

/-- The command behind a piece of `n` bytes. -/
def EngCmd.behind (e : EngCmd) (p : Piece) : EngCmd :=
  { e with pos := e.pos + p.units, sbit := p.sbit, carry := p.carry, bytes := e.bytes + p.bytes.length }

/-- A piece without a poisoned byte goes where its row is open, and the command moves on. -/
theorem State.putPiece_open {o pa : Nat} {p : Piece} (hne : p.bytes ≠ []) (hopen : rowOpen s e d o p.bytes.length pa)
    (hl : pa % 64 + p.bytes.length ≤ 64) (hclean : ∀ x ∈ p.bytes, x.2 = false) (hden : p.denied = false) :
    ∃ u, s.putPiece e d o p = u.setCmd (e.behind p) ∧ u.engines = s.engines ∧
      wroteBytes s u pa p.bytes.length (fun i => (p.bytes.getD i (0, false)).1) := by
  have hpoison : p.bytes.findIdx? (fun x => x.2) = none := List.findIdx?_eq_none_iff.2 hclean
  have hite (bank : Prop) [Decidable bank] : (if bank then p.bytes.findIdx? (fun x => x.2) else none) = none := by
    split
    · exact hpoison
    · rfl
  simp only [State.putPiece, hite, hden]
  generalize (if e.eng < 2 ^ 20 then Policy.dflt else e.pol) = pol
  have hlike := State.Like.touchRead s pol (e.src.getD e.row []) p.reads.1 p.reads.2
  have hlen : (p.bytes.map (fun x => x.1)).length = p.bytes.length := List.length_map _
  obtain ⟨u, hw, heng, hwrote⟩ := State.writeSpans_open (r := if e.kind = 4 then reqSel else reqCopy) (src := coreOf e.org.w) (part := e.org.part)
    (pol := pol) (sp := d) (s.touchRead pol (e.src.getD e.row []) p.reads.1 p.reads.2) o pa (p.bytes.map (fun x => x.1))
    (by simpa using hne) (fun j hj => by
      obtain ⟨hsp, hok, hskip, -⟩ := hlike.rowOpen hopen j (hlen ▸ hj)
      exact ⟨hsp, hok, hskip⟩) (hlen ▸ hl)
  rw [hw]
  refine ⟨u, ?_, heng.trans hlike.engines, ?_⟩
  · have hspread (n : Nat) (bank : Prop) [Decidable bank] : (if bank then u else u.spreadPoison d o (p.bytes.take n)) = u := by
      rw [State.spreadPoison_clean _ _ _ _ fun x hx => hclean x (List.mem_of_mem_take hx), ite_self]
    simp only [hspread, hlen]
    rfl
  · rw [hlen] at hwrote
    refine (hwrote.from hlike.mem).bytes fun i _ => ?_
    rw [List.getD_eq_getElem?_getD, List.getElem?_map, List.getD_eq_getElem?_getD]
    cases p.bytes[i]? with
    | none => rfl
    | some x => rfl

/-! ### Reading a clean source -/

/-- Bytes of a clean source are read as they are. -/
theorem State.readSpans_clean {sp : List Span} {o n : Nat} (h : rowClean s e sp o n) : ∃ pa : Nat → Nat, (∀ k < n, s.poisoned (pa k) = false) ∧
    s.readSpans (modOf (coreOf e.org.w)) e.org.part sp o n = ((List.range n).map (fun k => (sourceByte s sp (o + k), pa k)), false) := by
  refine ⟨fun k => ((spanAt sp (o + k)).getD (0, 0, 0, 0)).2.1, fun k hk => ?_, ?_⟩
  · obtain ⟨va, pa, hb, cls, hs, -, hp⟩ := h k hk
    simp only [hs, Option.getD_some]
    exact hp
  · have hps : (List.range n).filterMap (fun k => spanAt sp (o + k)) = (List.range n).map (fun k => (spanAt sp (o + k)).getD (0, 0, 0, 0)) := by
      rw [← List.filterMap_eq_map]
      refine List.filterMap_congr fun k hk => ?_
      obtain ⟨va, pa, hb, cls, hs, -, -⟩ := h k (List.mem_range.1 hk)
      simp only [Function.comp, hs, Option.getD_some]
    have hok : ((List.range n).map (fun k => (spanAt sp (o + k)).getD (0, 0, 0, 0))).takeWhile
        (fun p => s.devOk (modOf (coreOf e.org.w)) e.org.part false p.2.1) = (List.range n).map (fun k => (spanAt sp (o + k)).getD (0, 0, 0, 0)) := by
      refine List.takeWhile_eq_self_iff.2 fun x hx => ?_
      obtain ⟨k, hk, rfl⟩ := List.mem_map.1 hx
      obtain ⟨va, pa, hb, cls, hs, hd, -⟩ := h k (List.mem_range.1 hk)
      rw [hs]; exact hd
    simp only [State.readSpans, hps, hok, List.length_map, List.length_range, Nat.lt_irrefl, decide_false, List.map_map, Prod.mk.injEq, and_true]
    refine List.map_congr_left fun k hk => ?_
    obtain ⟨va, pa, hb, cls, hs, -, -⟩ := h k (List.mem_range.1 hk)
    simp only [Function.comp, sourceByte, hs]
    rfl

/-! ### A row that moves unchanged -/

theorem flatMap_range_eight (g : Nat → List Byte) (hg : ∀ r, (g r).length = 8) (k : Nat) :
    (List.range k).flatMap g = (List.range (8 * k)).map (fun i => (g (i / 8)).getD (i % 8) 0) := by
  induction k with
  | zero => rfl
  | succ k ih =>
    have hlast : (List.range 8).map (fun j => (g k).getD j 0) = g k := by
      refine List.ext_getElem (by simp [hg]) fun j h1 h2 => ?_
      rw [List.getElem_map, List.getElem_range, List.getD_eq_getElem _ _ h2]
    rw [List.range_succ, List.flatMap_append, ih, Nat.mul_succ, List.range_add, List.map_append, List.map_map, List.flatMap_singleton]
    refine congrArg _ (hlast.symm.trans (List.map_congr_left fun j hj => ?_))
    have := List.mem_range.1 hj
    simp only [Function.comp]
    rw [show (8 * k + j) / 8 = k by omega, show (8 * k + j) % 8 = j by omega]

theorem take_drop_map_range {α : Type} (f : Nat → α) (m o n : Nat) (h : o + n ≤ m) :
    (((List.range m).map f).drop o).take n = (List.range n).map (fun i => f (o + i)) := by
  refine List.ext_getElem (by simp; omega) fun j h1 h2 => ?_
  simp

/-- A piece that moves unchanged holds the bytes of the row. -/
theorem State.rawPiece_eq {n : Nat} (hkind : e.bsel = none ∨ e.isList = true) (hn : e.pos + n ≤ e.rowLen d)
    (hclean : e.bsel = none → e.kind ≠ 3 → rowClean s e (e.src.getD e.row []) e.pos n) :
    ∃ r, s.rawPiece e (e.src.getD e.row []) n =
      { bytes := (List.range n).map (fun i => (engByte s e (e.pos + i), false)), units := n, denied := false, reads := r } := by
  cases hb : e.bsel with
  | some b =>
    have hlist : e.isList = true := hkind.resolve_left (by rw [hb]; nofun)
    have hlen : e.pos + n ≤ 8 * b.k := by
      refine hn.trans ?_
      rw [EngCmd.rowLen, hlist, hb]
      split
      · exact Nat.zero_le _
      · exact Nat.le_refl _
    have hbytes : b.listBytes = (List.range (8 * b.k)).map (engByte s e) := by
      rw [BselCmd.listBytes, flatMap_range_eight _ fun r => ?_]
      · refine List.map_congr_left fun i _ => ?_
        rw [engByte, hb]
      · split
        · rw [List.length_append, leBytes_length, leBytes_length]
        · rw [leBytes_length]
    refine ⟨(0, 0), ?_⟩
    rw [State.rawPiece, hb]
    dsimp only
    rw [hbytes, take_drop_map_range _ _ _ _ hlen, List.map_map]
    rfl
  | none =>
    by_cases h3 : e.kind = 3
    · refine ⟨(0, 0), ?_⟩
      simp only [State.rawPiece, hb, if_pos h3, engByte]
    · obtain ⟨pa, hp, hr⟩ := State.readSpans_clean (hclean hb h3)
      refine ⟨(e.pos, n), ?_⟩
      simp only [State.rawPiece, hb, if_neg h3, hr, List.map_map, engByte, List.length_map, List.length_range, Piece.mk.injEq, and_true]
      refine List.map_congr_left fun k hk => ?_
      simp only [Function.comp, hp k (List.mem_range.1 hk)]

end

end Sys2Proof.Machine

/-! ## HOME_WRITE of a row that converts (O47) -/

namespace Sys2Proof.Machine

/-! ### Bytes and bits of a number -/

theorem leNat_lt (l : List Byte) : leNat l < 2 ^ (8 * l.length) := by
  induction l with
  | nil => exact Nat.one_pos
  | cons b l ih =>
    have hb : b.toNat < 256 := b.isLt
    rw [List.length_cons, Nat.mul_succ, Nat.pow_add, leNat]
    omega

theorem leNat_append (l m : List Byte) : leNat (l ++ m) = leNat l + 2 ^ (8 * l.length) * leNat m := by
  induction l with
  | nil => simp [leNat]
  | cons b l ih =>
    rw [List.cons_append, leNat, leNat, ih, List.length_cons, Nat.mul_succ, Nat.pow_add]
    ring

/-- The bytes `q` to `q + m - 1` of a number. -/
theorem leNat_part (f : Nat → Byte) {N q m : Nat} (h : q + m ≤ N) :
    leNat ((List.range N).map f) / 2 ^ (8 * q) % 2 ^ (8 * m) = leNat ((List.range m).map (fun j => f (q + j))) := by
  obtain ⟨r, rfl⟩ := Nat.exists_eq_add_of_le h
  have hq := leNat_lt ((List.range q).map f)
  have hm := leNat_lt ((List.range m).map (fun j => f (q + j)))
  simp only [List.length_map, List.length_range] at hq hm
  rw [List.range_add, List.map_append, leNat_append, List.range_add, List.map_append, leNat_append]
  simp only [List.length_map, List.length_range, List.map_map, List.length_append, Function.comp_def]
  rw [Nat.mul_add, Nat.pow_add, Nat.mul_assoc, Nat.add_assoc, ← Nat.mul_add, Nat.add_mul_div_left _ _ (by positivity), Nat.div_eq_of_lt hq, Nat.zero_add,
    Nat.add_mul_mod_self_left, Nat.mod_eq_of_lt hm]

/-- Bits of the low part of a number. -/
theorem bits_mod {x r w M : Nat} (h : r + w ≤ M) : bits (x % 2 ^ M) r w = x / 2 ^ r % 2 ^ w := by
  refine Nat.eq_of_testBit_eq fun j => ?_
  rw [testBit_bits, Nat.testBit_mod_two_pow, Nat.testBit_mod_two_pow, Nat.testBit_div_two_pow]
  by_cases hj : j < w
  · rw [decide_eq_true hj, decide_eq_true (show r + j < M by omega), Nat.add_comm r j]; rfl
  · rw [decide_eq_false hj, Bool.false_and, Bool.false_and]

theorem bytes_of_bits (n : Nat) : ∀ v, (List.range n).map (fun i => BitVec.ofNat 8 (bits v (8 * i) 8)) = leBytes n v := by
  induction n with
  | zero => exact fun _ => rfl
  | succ n ih =>
    intro v
    have h0 : BitVec.ofNat 8 (bits v 0 8) = BitVec.ofNat 8 v := by
      apply BitVec.eq_of_toNat_eq
      simp [bits]
    rw [List.range_succ_eq_map, List.map_cons, List.map_map, leBytes, ← ih, Nat.mul_zero, h0]
    refine congrArg _ (List.map_congr_left fun i _ => ?_)
    simp only [Function.comp, bits, Nat.shiftRight_eq_div_pow]
    rw [Nat.mul_succ, Nat.add_comm, Nat.pow_add, Nat.div_div_eq_div_mul]

/-! ### Chunks of one width -/

section
variable {w : Nat} {l : List Chunk} (hw : ∀ c ∈ l, c.width = w ∧ c.val < 2 ^ w)
include hw

theorem chunkBits_lt : chunkBits l < 2 ^ (w * l.length) := by
  induction l with
  | nil => exact Nat.one_pos
  | cons c l ih =>
    obtain ⟨hc, hv⟩ := hw c List.mem_cons_self
    have hl := ih fun x hx => hw x (List.mem_cons_of_mem _ hx)
    rw [chunkBits, hc, List.length_cons, Nat.mul_succ, Nat.add_comm, Nat.add_comm (w * l.length), Nat.pow_add]
    calc 2 ^ w * chunkBits l + c.val < 2 ^ w * chunkBits l + 2 ^ w := by omega
      _ = 2 ^ w * (chunkBits l + 1) := by ring
      _ ≤ 2 ^ w * 2 ^ (w * l.length) := Nat.mul_le_mul_left _ hl

/-- A chunk of some that lie one behind the other. -/
theorem chunkBits_get {i : Nat} (hi : i < l.length) : chunkBits l / 2 ^ (w * i) % 2 ^ w = l[i].val := by
  induction l generalizing i with
  | nil => nomatch hi
  | cons c l ih =>
    obtain ⟨hc, hv⟩ := hw c List.mem_cons_self
    rw [chunkBits, hc]
    cases i with
    | zero => rw [Nat.mul_zero, Nat.pow_zero, Nat.div_one, Nat.add_mul_mod_self_left, Nat.mod_eq_of_lt hv]; rfl
    | succ i =>
      rw [Nat.mul_succ, Nat.add_comm (w * i), Nat.pow_add, ← Nat.div_div_eq_div_mul, Nat.add_mul_div_left _ _ (by positivity), Nat.div_eq_of_lt hv,
        Nat.zero_add]
      exact ih (fun x hx => hw x (List.mem_cons_of_mem _ hx)) (by simpa using hi)

theorem chunk_widths : (l.map (fun c => c.width)).sum = w * l.length := by
  rw [List.map_congr_left fun c hc => (hw c hc).1, List.map_const', List.sum_replicate, smul_eq_mul, Nat.mul_comm]

end

theorem chunkBad_clean (lo hi : Nat) (l : List Chunk) : ∀ o, (∀ c ∈ l, c.bad = false) → chunkBad lo hi o l = false := by
  induction l with
  | nil => exact fun _ _ => rfl
  | cons c l ih =>
    intro o h
    rw [chunkBad, h c List.mem_cons_self, ih _ fun x hx => h x (List.mem_cons_of_mem _ hx)]
    rfl

/-! ### The elements of a piece (R278) -/

/-- The code of an element of format `a` in format `b`. -/
def convCode (a b : Ty × Int × RM) (x : Nat) : Nat := (convert x a.1 a.2.1 b.1 b.2.1 b.2.2).1 % 2 ^ b.1.width

section
variable {s : State} {e : EngCmd} {sp : List Span} {a b : Ty × Int × RM}

/-- The chunk of an element that lies whole in a clean part of the source. -/
theorem State.chunkAt_element {sb lo N : Nat} (hend : sb + a.1.width ≤ e.sourceBits) (hlo : 8 * lo ≤ sb) (hN : sb + a.1.width ≤ 8 * N)
    (hclean : rowClean s e sp lo (N - lo)) (hfmt : ∃ v q h c, spanAt sp (sb / 8) = some (v, q, h, c) ∧ s.sideFmt e.sbank e.fmt q = some a) :
    s.chunkAt e (some b) sp sb =
      (some ⟨convCode a b (leNat ((List.range N).map (sourceByte s sp)) / 2 ^ sb % 2 ^ a.1.width), b.1.width, a.1.width, false⟩, false) := by
  obtain ⟨v, q, h, c, hsp, hside⟩ := hfmt
  have hwidth : 0 < a.1.width := by cases a.1 <;> decide
  have hm : sb / 8 + ceilDiv (sb % 8 + a.1.width) 8 ≤ N := by unfold ceilDiv; omega
  have hcover : sb % 8 + a.1.width ≤ 8 * ceilDiv (sb % 8 + a.1.width) 8 := by unfold ceilDiv; omega
  obtain ⟨pa, hp, hread⟩ := State.readSpans_clean (s := s) (e := e) (sp := sp) (o := sb / 8) (n := ceilDiv (sb % 8 + a.1.width) 8) fun i hi => by
    have hpart := hclean (sb / 8 - lo + i) (by omega)
    rwa [show lo + (sb / 8 - lo + i) = sb / 8 + i by omega] at hpart
  have hbad : ((List.range (ceilDiv (sb % 8 + a.1.width) 8)).map (fun k => (sourceByte s sp (sb / 8 + k), pa k))).any (fun y => s.poisoned y.2) = false := by
    refine List.any_eq_false.2 fun y hy => ?_
    obtain ⟨k, hk, rfl⟩ := List.mem_map.1 hy
    rw [hp k (List.mem_range.1 hk)]
    decide
  have hcode : bits (leNat ((List.range (ceilDiv (sb % 8 + a.1.width) 8)).map (fun k => sourceByte s sp (sb / 8 + k)))) (sb % 8) a.1.width =
      leNat ((List.range N).map (sourceByte s sp)) / 2 ^ sb % 2 ^ a.1.width := by
    rw [← leNat_part (sourceByte s sp) hm, bits_mod hcover, Nat.div_div_eq_div_mul, ← Nat.pow_add, Nat.div_add_mod]
  simp only [State.chunkAt, hsp, Option.elim_some, hside, if_neg (Nat.not_lt.2 hend), hread, Bool.false_eq_true, if_false, hbad, List.map_map,
    Function.comp_def, hcode]
  rfl

/-- Elements are taken until they fill the piece. -/
theorem State.chunks_elements {df : Option (Ty × Int × RM)} {wa wb : Nat} (hwb : 0 < wb) (c : Nat → Chunk) (k : Nat) : ∀ (fuel sb i : Nat), k ≤ fuel →
    (∀ j < k, s.chunkAt e df sp (sb + wa * j) = (some (c (i + j)), false) ∧ (c (i + j)).width = wb ∧ (c (i + j)).from_ = wa) →
    s.chunks e df sp fuel sb (wb * k) = ((List.range k).map (fun j => c (i + j)), false) := by
  induction k with
  | zero =>
    intro fuel sb i _ _
    cases fuel with
    | zero => rfl
    | succ fuel => rfl
  | succ k ih =>
    intro fuel sb i hf h
    obtain ⟨fuel, rfl⟩ := Nat.exists_eq_succ_of_ne_zero (show fuel ≠ 0 by omega)
    obtain ⟨hat, hcw, hcf⟩ := h 0 (by omega)
    rw [Nat.mul_zero, Nat.add_zero] at hat
    have hrest := ih fuel (sb + wa) (i + 1) (by omega) fun j hj => by
      have hj1 := h (j + 1) (by omega)
      rwa [Nat.mul_succ, Nat.add_comm (wa * j), ← Nat.add_assoc, Nat.add_comm j 1, ← Nat.add_assoc] at hj1
    have hneed : wb * (k + 1) ≠ 0 := Nat.mul_ne_zero (by omega) (by omega)
    simp only [Nat.add_zero] at hat hcw hcf
    rw [State.chunks, if_neg hneed, hat]
    dsimp only
    rw [hcw, hcf, Nat.mul_succ, Nat.add_sub_cancel, hrest, List.range_succ_eq_map, List.map_cons, List.map_map]
    simp only [Function.comp_def, Nat.add_zero, Nat.succ_eq_add_one, Nat.add_assoc, Nat.add_comm 1]

/-- The chunk of element `i` of a piece. -/
def elementChunk (a b : Ty × Int × RM) (source sbit i : Nat) : Chunk :=
  ⟨convCode a b (source / 2 ^ (sbit + a.1.width * i) % 2 ^ a.1.width), b.1.width, a.1.width, false⟩

/-- A piece of `k` elements that fill its bytes. -/
theorem State.convPiece_eq {d : List Span} {n k : Nat} (hcarry : e.carry = {}) (hfill : 8 * n = b.1.width * k)
    (hdf : s.sideFmt e.dbank e.fmt ((spanAt d e.pos).elim 0 (fun x => x.2.1)) = some b) (hend : e.sbit + a.1.width * k ≤ e.sourceBits)
    (hclean : rowClean s e sp (e.sbit / 8) ((e.sbit + a.1.width * k + 7) / 8 - e.sbit / 8))
    (hfmt : ∀ i < k, ∃ v q h c, spanAt sp ((e.sbit + a.1.width * i) / 8) = some (v, q, h, c) ∧ s.sideFmt e.sbank e.fmt q = some a) :
    let source := leNat ((List.range ((e.sbit + a.1.width * k + 7) / 8)).map (sourceByte s sp))
    let v := chunkBits ((List.range k).map (elementChunk a b source e.sbit))
    ∃ r, s.convPiece e d sp n = { bytes := (List.range n).map (fun i => (BitVec.ofNat 8 (bits v (8 * i) 8), false)), units := n, denied := false
                                  reads := r, sbit := e.sbit + a.1.width * k, carry := {} } := by
  intro source v
  have hwidth : 0 < b.1.width := by cases b.1 <;> decide
  have hk : k ≤ 8 * n := hfill ▸ Nat.le_mul_of_pos_left k hwidth
  have hchunks : s.chunks e (some b) sp (8 * n) e.sbit (8 * n) = ((List.range k).map (elementChunk a b source e.sbit), false) := by
    have h := State.chunks_elements (s := s) (e := e) (sp := sp) (df := some b) (wa := a.1.width) hwidth (elementChunk a b source e.sbit) k (8 * n) e.sbit 0 hk
      fun j hj => by
        have hle : a.1.width * (j + 1) ≤ a.1.width * k := Nat.mul_le_mul_left _ hj
        rw [Nat.mul_succ] at hle
        rw [Nat.zero_add]
        exact ⟨State.chunkAt_element (by omega) (by omega) (by omega) hclean (hfmt j hj), rfl, rfl⟩
    rw [← hfill] at h
    simpa only [Nat.zero_add] using h
  have hall : ∀ c ∈ (List.range k).map (elementChunk a b source e.sbit), c.width = b.1.width ∧ c.val < 2 ^ b.1.width := by
    intro c hc
    obtain ⟨i, -, rfl⟩ := List.mem_map.1 hc
    exact ⟨rfl, Nat.mod_lt _ (by positivity)⟩
  have hgood : ∀ c ∈ ({} : Chunk) :: (List.range k).map (elementChunk a b source e.sbit), c.bad = false := by
    intro c hc
    rcases List.mem_cons.1 hc with rfl | hc
    · rfl
    · obtain ⟨i, -, rfl⟩ := List.mem_map.1 hc
      rfl
  have hgot : ((({} : Chunk) :: (List.range k).map (elementChunk a b source e.sbit)).map (fun c => c.width)).sum = 8 * n := by
    rw [List.map_cons, List.sum_cons, chunk_widths hall, List.length_map, List.length_range, hfill, Nat.zero_add]
  have hbits : chunkBits (({} : Chunk) :: (List.range k).map (elementChunk a b source e.sbit)) = v := by
    rw [chunkBits, Nat.zero_add, Nat.pow_zero, Nat.one_mul]
  have hsum : (((List.range k).map (elementChunk a b source e.sbit)).map (fun c => c.from_)).sum = a.1.width * k := by
    have hfrom : ∀ c ∈ (List.range k).map (elementChunk a b source e.sbit), c.from_ = a.1.width := by
      intro c hc
      obtain ⟨i, -, rfl⟩ := List.mem_map.1 hc
      rfl
    rw [List.map_congr_left hfrom, List.map_const', List.sum_replicate, List.length_map, List.length_range, smul_eq_mul, Nat.mul_comm]
  have hv : v / 2 ^ (8 * n) = 0 := by
    refine Nat.div_eq_of_lt ?_
    have := chunkBits_lt hall
    rwa [List.length_map, List.length_range, ← hfill] at this
  have hlast : ((({} : Chunk) :: (List.range k).map (elementChunk a b source e.sbit)).getLast?).elim false (fun c => c.bad) = false := by
    cases hl : (({} : Chunk) :: (List.range k).map (elementChunk a b source e.sbit)).getLast? with
    | none => rfl
    | some c => exact hgood c (List.mem_of_getLast? hl)
  have hneed : 8 * n - ({} : Chunk).width = 8 * n := Nat.sub_zero _
  refine ⟨(e.sbit / 8, ceilDiv (e.sbit + a.1.width * k) 8 - e.sbit / 8), ?_⟩
  simp only [State.convPiece, hcarry, hdf, hneed, hchunks, hgot, hbits, hsum, hv, hlast, Nat.le_refl, decide_true, if_true, Bool.not_true,
    Bool.false_and, Nat.sub_self, chunkBad_clean _ _ _ _ hgood]

/-- The bytes of the piece, read back as one number, hold the elements one behind the other. -/
theorem convPiece_elements {n k source sbit : Nat} (hfill : 8 * n = b.1.width * k) {i : Nat} (hi : i < k) :
    leNat ((List.range n).map (fun i => BitVec.ofNat 8 (bits (chunkBits ((List.range k).map (elementChunk a b source sbit))) (8 * i) 8))) /
      2 ^ (b.1.width * i) % 2 ^ b.1.width = convCode a b (source / 2 ^ (sbit + a.1.width * i) % 2 ^ a.1.width) := by
  have hall : ∀ c ∈ (List.range k).map (elementChunk a b source sbit), c.width = b.1.width ∧ c.val < 2 ^ b.1.width := by
    intro c hc
    obtain ⟨i, -, rfl⟩ := List.mem_map.1 hc
    exact ⟨rfl, Nat.mod_lt _ (by positivity)⟩
  have hlt := chunkBits_lt hall
  rw [List.length_map, List.length_range, ← hfill] at hlt
  rw [bytes_of_bits, leNat_leBytes, show (256 : Nat) = 2 ^ 8 from rfl, ← Nat.pow_mul, Nat.mod_eq_of_lt hlt, chunkBits_get hall (by simpa using hi),
    List.getElem_map, List.getElem_range]
  rfl

end

end Sys2Proof.Machine

/-! ## WALK, L1_INVALIDATE, LOAD_RETURN and HOME_WRITE (O47) -/

namespace Sys2Proof.Machine

section
variable {s : State} {e : EngCmd} {d : List Span} {va pa hb cls : Nat} (hwq : ∀ x ∈ s.wq, x.uid ≠ s.sel) (he : s.cmd s.sel = some e)
  (hp : e.phase = .active) (herr : e.err = false) (hd : e.dst[e.row]? = some d)
include hwq he hp herr hd

/-- O47, HOME_WRITE behind the last byte of a row. -/
theorem memoryEvents_rowEnd (h : e.rowLen d ≤ e.pos) : ∃ t, exec .homeWrite s = .next t ∧ t = { s with engines := t.engines } ∧
    t.cmd s.sel = some { e with row := e.row + 1, pos := 0, sbit := 0, carry := {} } ∧ ∀ n, n ≠ s.sel → t.cmd n = s.cmd n := by
  have huid : e.uid = s.sel := of_decide_eq_true (List.find?_some he :)
  rw [← huid] at he
  refine ⟨_, exec_homeWrite_engine hwq (huid ▸ he) (State.engStep_next hp herr hd h), rfl, ?_, fun n hn => ?_⟩
  · rw [← huid]
    exact State.setCmd_find (f := { e with row := e.row + 1, pos := 0, sbit := 0, carry := {} }) he
  · exact State.setCmd_find_ne (huid ▸ hn)

omit hp herr hd in
/-- A piece that the command writes whole. -/
theorem memoryEvents_piece {p : Piece} {n : Nat} {f : Nat → Byte} (hstep : s.engStep e = some (s.putPiece e d e.pos p)) (hn : 0 < n)
    (hopen : rowOpen s e d e.pos n pa) (hl : pa % 64 + n ≤ 64) (hbytes : p.bytes = (List.range n).map (fun i => (f i, false))) (hden : p.denied = false) :
    ∃ t, exec .homeWrite s = .next t ∧ wroteBytes s t pa n f ∧
      t.cmd s.sel = some { e with pos := e.pos + p.units, sbit := p.sbit, carry := p.carry, bytes := e.bytes + n } := by
  have huid : e.uid = s.sel := of_decide_eq_true (List.find?_some he :)
  have hlen : p.bytes.length = n := by rw [hbytes, List.length_map, List.length_range]
  obtain ⟨u, hput, heng, hwrote⟩ := State.putPiece_open (s := s) (e := e) (d := d) (o := e.pos) (pa := pa) (p := p)
    (List.ne_nil_of_length_pos (hlen ▸ hn)) (hlen ▸ hopen) (hlen ▸ hl) (by rw [hbytes]; intro x hx; obtain ⟨i, -, rfl⟩ := List.mem_map.1 hx; rfl) hden
  have hu : u.cmd e.uid = some e := by rw [State.cmd, heng, huid]; exact he
  rw [hlen] at hwrote
  refine ⟨_, exec_homeWrite_engine hwq he hstep, ?_, ?_⟩
  · rw [hput]
    refine (hwrote.congr fun x _ => rfl).bytes fun i hi => ?_
    rw [hbytes, List.getD_eq_getElem _ _ (by simpa using hi), List.getElem_map, List.getElem_range]
  · rw [hput, ← huid, ← hlen]
    exact State.setCmd_find (f := e.behind p) hu

/-- O47, HOME_WRITE of bytes that move unchanged. -/
theorem memoryEvents_raw (h : e.pos < e.rowLen d) (hs : spanAt d e.pos = some (va, pa, hb, cls)) (hc : e.converts = false)
    (hkind : e.bsel = none ∨ e.isList = true) : let n := min (e.rowLen d - e.pos) (64 - pa % 64)
    rowOpen s e d e.pos n pa → (e.bsel = none → e.kind ≠ 3 → rowClean s e (e.src.getD e.row []) e.pos n) →
    ∃ t, exec .homeWrite s = .next t ∧ wroteBytes s t pa n (fun i => engByte s e (e.pos + i)) ∧
      t.cmd s.sel = some { e with pos := e.pos + n, sbit := 0, carry := {}, bytes := e.bytes + n } := by
  intro n hopen hclean
  obtain ⟨r, hraw⟩ := State.rawPiece_eq (d := d) (n := n) hkind (by omega) hclean
  have hstep := State.engStep_raw (s := s) hp herr hd h hs hc
  rw [show min (e.rowLen d - e.pos) (64 - pa % 64) = n from rfl, hraw] at hstep
  exact memoryEvents_piece hwq he hstep (by omega) hopen (by omega) rfl rfl

/-- O47, HOME_WRITE of elements that convert. -/
theorem memoryEvents_convert (h : e.pos < e.rowLen d) (hs : spanAt d e.pos = some (va, pa, hb, cls)) {k : Nat} {a b : Ty × Int × RM}
    (hc : e.converts = true) (hcarry : e.carry = {}) :
    let sp := e.src.getD e.row []
    let n := min (e.rowLen d - e.pos) (if e.dbank then 16 - pa % 16 else 64 - pa % 64)
    let end_ := e.sbit + a.1.width * k
    let source := leNat ((List.range ((end_ + 7) / 8)).map (fun j => sourceByte s sp j))
    rowOpen s e d e.pos n pa → rowClean s e sp (e.sbit / 8) ((end_ + 7) / 8 - e.sbit / 8) → 8 * n = b.1.width * k →
    s.sideFmt e.dbank e.fmt pa = some b → end_ ≤ e.sourceBits →
    (∀ i < k, ∃ v q h c, spanAt sp ((e.sbit + a.1.width * i) / 8) = some (v, q, h, c) ∧ s.sideFmt e.sbank e.fmt q = some a) →
    ∃ t, exec .homeWrite s = .next t ∧
      (∃ f, wroteBytes s t pa n f ∧ ∀ i < k, leNat ((List.range n).map f) / 2 ^ (b.1.width * i) % 2 ^ b.1.width =
        (convert (source / 2 ^ (e.sbit + a.1.width * i) % 2 ^ a.1.width) a.1 a.2.1 b.1 b.2.1 b.2.2).1 % 2 ^ b.1.width) ∧
      t.cmd s.sel = some { e with pos := e.pos + n, sbit := end_, carry := {}, bytes := e.bytes + n } := by
  intro sp n end_ source hopen hclean hfill hdf hend hfmt
  obtain ⟨r, hconv⟩ := State.convPiece_eq (d := d) (n := n) hcarry hfill (by rw [hs]; exact hdf) hend hclean hfmt
  have hstep := State.engStep_conv (s := s) hp herr hd h hs hc
  rw [show min (e.rowLen d - e.pos) (if e.dbank = true then 16 - pa % 16 else 64 - pa % 64) = n from rfl, hconv] at hstep
  have hline : 0 < n ∧ pa % 64 + n ≤ 64 := by
    simp only [n]
    split
    · omega
    · omega
  obtain ⟨t, ht, hwrote, hcmd⟩ := memoryEvents_piece hwq he hstep hline.1 hopen hline.2 rfl rfl
  exact ⟨t, ht, ⟨_, hwrote, fun i hi => convPiece_elements hfill hi⟩, hcmd⟩

end

/-- O47, WALK. -/
theorem memoryEvents_walk {s : State} {cl uid : Nat} {x : WalkReq} (hx : (s.clu cl).walks.find? (fun x => decide (x.uid = uid)) = some x)
    (hw : s.hasWalker cl uid = true) :
    (x.res = none → ∃ t, exec (.walk cl uid) s = .next t ∧ t = { s with clus := t.clus, cores := t.cores, ovf := t.ovf } ∧
      ∃ y ∈ (t.clu cl).walks, y.uid = uid ∧ y.reqs = x.reqs ∧
        match s.walkStep (cl / 256) x.part (x.gran * 2 ^ 16) x.lvl x.base with
        | .inl r => y.res = some r
        | .inr b => y.res = none ∧ y.lvl = x.lvl + 1 ∧ y.base = b) ∧
    (∀ r, x.res = some r → ∃ t, exec (.walk cl uid) s = .next t ∧ (∀ y ∈ (t.clu cl).walks, y.uid ≠ uid) ∧
      ∀ w a va fid, x.reqs = [(w, a, va, fid)] → (s.ctx w).phase = .waitWalk → (s.ctx w).fid = fid →
        (∀ l, r = .leaf l → t.ctx w = { s.ctx w with xlate := l :: (s.ctx w).xlate, phase := .running } ∧ t.mem = s.mem ∧
          ∀ v, v ≠ w → t.ctx v = s.ctx v) ∧
        (∀ k, r = .bad k → t.mem = s.mem ∧ (t.ctx w).phase = .running ∧ ∃ l, l.bad = k ∧ (t.ctx w).xlate = l :: (s.ctx w).xlate) ∧
        (∀ lvl, r = .notPresent lvl → a = 4 → t.mem = s.mem ∧ t.net = s.net ∧ (t.ctx w).phase = .running) ∧
        (∀ lvl, r = .notPresent lvl → a ≠ 4 → ∃ u : State, u.mem = s.mem ∧ u.net = s.net ∧
          t = u.fault (w - 4 * (s.ctx w).gidx)
            { code := 1, cls := 0, lvl := lvl, gcore := (s.ctx w).gidx, va := BitVec.ofNat 64 va })) := by
  obtain rfl : x.uid = uid := of_decide_eq_true (List.find?_some hx :)
  refine ⟨fun hres => ?_, fun r hres => ?_⟩
  · refine ⟨_, exec_walk_reads hx hw hres, ?_, State.walkRead_walks (List.mem_of_find?_eq_some hx) hres⟩
    obtain ⟨a, b, c, h⟩ := s.walkRead_frame cl x
    rw [h]
  · exact ⟨_, exec_walk_ends hx hw hres, s.walkEnd_walks cl x r, fun w a va fid hreqs hphase hfid => State.walkEnd_one hreqs hphase hfid⟩

/-- Settles O47: one lemma for each event and, of HOME_WRITE, for each thing that can be due (a store, a store at a port, the end of a row, bytes
that move unchanged, elements that convert). -/
theorem memoryEvents : Obligations.MemoryEvents := by
  refine ⟨fun s cl uid x hx hw => memoryEvents_walk hx hw, memoryEvents_l1Invalidate, memoryEvents_loadReturn, fun s e he hp => ?_,
    fun s e hv hahead hout hent hsh => memoryEvents_canPerform hv hahead hout hent hsh,
    fun s e gc a he hp hv hr ha hseg => memoryEvents_port he hp hv hr ha hseg, fun s e d va pa hb cls hwq he hp herr hd => ?_⟩
  · exact ⟨⟨_, exec_homeWrite_store he hp⟩, fun hv hr htag hseg => memoryEvents_home he hp hv hr htag hseg⟩
  · refine ⟨memoryEvents_rowEnd hwq he hp herr hd, fun h hs => ⟨fun hc hkind => memoryEvents_raw hwq he hp herr hd h hs hc hkind, fun k a b hc hcarry => ?_⟩⟩
    exact memoryEvents_convert hwq he hp herr hd h hs hc hcarry

end Sys2Proof.Machine

/-! ## Faults of local operands (O24) -/

namespace Sys2Proof.Machine

/-! ### A local operand that does not resolve -/

theorem State.resolveL_misaligned {s : State} {w a n align : Nat} {write : Bool} (h : a % align ≠ 0) :
    s.resolveL w a n align write = .error (.trap (alignTrap (BitVec.ofNat 64 a))) := by
  simp only [State.resolveL, if_pos h]

theorem State.resolveL_beyond {s : State} {w a n align : Nat} {write : Bool} (h : a % align = 0) (hn : 0x100000 < a + n) :
    s.resolveL w a n align write = .error (.trap (permTrap 3 (BitVec.ofNat 64 a))) := by
  simp only [State.resolveL, if_neg (not_not_intro h), if_pos hn]

theorem State.resolveL_denied {s : State} {w a n align : Nat} {write : Bool} (h : a % align = 0) (hn : a + n ≤ 0x100000)
    (hk : ∃ k < n, localOk (s.ctx w) (s.core (w / 4)) (w % 4) write (a + k) = false) :
    s.resolveL w a n align write = .error (.trap (permTrap 1 (BitVec.ofNat 64 a))) := by
  obtain ⟨k, hk, hbad⟩ := hk
  have hsome : ((List.range n).find? (fun i => !localOk (s.ctx w) (s.core (coreOf w)) (w % 4) write (a + i))).isSome :=
    List.find?_isSome.2 ⟨k, List.mem_range.2 hk, by rw [coreOf, hbad]; rfl⟩
  obtain ⟨j, hj⟩ := Option.isSome_iff_exists.1 hsome
  simp only [State.resolveL, if_neg (not_not_intro h), if_neg (not_lt.2 hn), hj]

/-! ### The access of LD, ST, LDV and STV -/

/-- The instruction is an ST or an STV. -/
def storesBytes : Instr → Bool
  | .stT2 .. | .stT4 .. | .stvT2 .. | .stvT4 .. => true
  | _ => false

/-- The single runs `f` of an instruction resolve its operand first, for the access `acc`: what stops that stops them. -/
def ResolvesFirst (i : Instr) (f : Nat → State → Except Stop State) (acc : Access) : Prop :=
  ∀ s w o e, memOperand s w i = some o → s.resolve w o.sp o.base o.off o.n o.align acc = .error e → f w s = .error e

section
variable {i : Instr} {a : Src} {ix : Option Src} {sc : Fin 4} {ty : Option Ty} {sp : MSpace} {pol : Policy} {D : Int}

section
variable (ho : ∀ s w, memOperand s w i = memOperand.scalar s w a ix sc ty sp pol D)
include ho

theorem ldOp_resolvesFirst (d : Dst) : ResolvesFirst i (ldOp d a ix sc ty sp pol D) .read := by
  intro s w o e h hr
  rw [ho, memOperand_scalar] at h
  cases h
  simp only [ldOp, hr]

theorem stOp_resolvesFirst (b : Src) : ResolvesFirst i (stOp b a ix sc ty sp pol D) .write := by
  intro s w o e h hr
  rw [ho, memOperand_scalar] at h
  cases h
  simp only [stOp, hr]

end

section
variable (ho : ∀ s w, memOperand s w i = memOperand.vector s w a ix sc ty sp pol D)
include ho

theorem ldvOp_resolvesFirst (d : VDst) (m : MReg) : ResolvesFirst i (ldvOp d a ix sc ty sp pol m D) .read := by
  intro s w o e h hr
  rw [ho, memOperand_vector] at h
  cases h
  simp only [ldvOp, hr]

theorem stvOp_resolvesFirst (b : VSrc) : ResolvesFirst i (stvOp b a ix sc ty sp pol D) .write := by
  intro s w o e h hr
  rw [ho, memOperand_vector] at h
  cases h
  simp only [stvOp, hr]

end

end

/-- An instruction with a memory operand is an LD, ST, LDV or STV, and resolves the operand first: for writing where it stores. -/
theorem memOperand_cases {i : Instr} {s : State} {w : Nat} {o : MemOperand} (h : memOperand s w i = some o) :
    ∃ f acc, (∀ s, exec i s = each s f) ∧ ResolvesFirst i f acc ∧ acc.writes = storesBytes i := by
  unfold memOperand at h
  split at h
  · exact ⟨_, .read, fun _ => rfl, ldOp_resolvesFirst (fun _ _ => rfl) _, rfl⟩
  · exact ⟨_, .read, fun _ => rfl, ldOp_resolvesFirst (fun _ _ => rfl) _, rfl⟩
  · exact ⟨_, .write, fun _ => rfl, stOp_resolvesFirst (fun _ _ => rfl) _, rfl⟩
  · exact ⟨_, .write, fun _ => rfl, stOp_resolvesFirst (fun _ _ => rfl) _, rfl⟩
  · exact ⟨_, .read, fun _ => rfl, ldvOp_resolvesFirst (fun _ _ => rfl) _ _, rfl⟩
  · exact ⟨_, .read, fun _ => rfl, ldvOp_resolvesFirst (fun _ _ => rfl) _ _, rfl⟩
  · exact ⟨_, .write, fun _ => rfl, stvOp_resolvesFirst (fun _ _ => rfl) _, rfl⟩
  · exact ⟨_, .write, fun _ => rfl, stvOp_resolvesFirst (fun _ _ => rfl) _, rfl⟩
  · cases h

/-- A local operand that does not resolve for its access is the fault of the instruction. -/
theorem local_access_traps {i : Instr} {s : State} {o : MemOperand} {t : Trap} (h1 : s.single) (ho : memOperand s s.cur i = some o)
    (hsp : o.sp = .l)
    (ht : s.resolveL s.cur (wrap 64 (o.base.toNat + o.off)) o.n o.align (storesBytes i) = .error (.trap t)) :
    exec i s = .next (s.fault s.cur t) := by
  obtain ⟨f, acc, hf, hfirst, hacc⟩ := memOperand_cases ho
  have hr : s.resolve s.cur o.sp o.base o.off o.n o.align acc = .error (.trap t) := by
    simp only [hsp, State.resolve, hacc, ht]
  rw [hf, each_single h1, hfirst s s.cur o _ ho hr, finish]

/-- Settles O24: what the local path answers for an operand it refuses, and that every access resolves its operand first. -/
theorem localAddressFaults : Obligations.LocalAddressFaults := by
  intro i s o h1 ho hsp
  refine ⟨fun ha => ?_, fun ha hn => ?_, fun ha hn hk => ?_⟩
  · exact local_access_traps h1 ho hsp (State.resolveL_misaligned ha)
  · exact local_access_traps h1 ho hsp (State.resolveL_beyond ha hn)
  · exact local_access_traps h1 ho hsp (State.resolveL_denied ha hn hk)

end Sys2Proof.Machine

/-! ## RST (O29) -/

namespace Sys2Proof.Machine

theorem exec_rst (sz : RstSize) (a b c : Src) (disp : BitVec 32) (s : State) : exec (.rst sz a b c disp) s = each s (rstOp sz a b c disp) := rfl

/-! ### The first name of a publication -/

theorem State.pubStore_pubLo (s : State) (w grp : Nat) (org : Origin) (pa hb cls : Nat) (pol : Policy) (bs : List Byte) (j : Nat) :
    ((s.pubStore w grp org pa hb cls pol bs).ctx j).pubLo = (s.ctx j).pubLo := by
  have hsend (t : State) (e : Pending) : ((t.sendStore e).ctx j).pubLo = (t.ctx j).pubLo := by
    obtain ⟨oc, h⟩ := t.sendStore_ctx e j
    rw [h]
  simp only [State.pubStore]
  split
  · split
    · exact hsend ..
    · rw [(State.Wrote.portStore ..).ctx]
  · exact hsend ..

theorem State.pubLog_pubLo (w : Nat) (l : List LogItem) (j : Nat) : ∀ s : State, ((s.pubLog w l).ctx j).pubLo = (s.ctx j).pubLo := by
  induction l with
  | nil => exact fun _ => rfl
  | cons x l ih =>
    intro s
    cases x with
    | store org va pa hb cls pol bs => exact (ih _).trans (s.pubStore_pubLo ..)
    | mark sc =>
      refine (ih _).trans ?_
      split
      · rw [State.onCtx_ctx]
        split
        · next h => rw [h]
        · rfl
      · rfl

theorem State.pubCtx_pubLo (s : State) (w j : Nat) : ((s.pubCtx w).ctx j).pubLo = (s.ctx j).pubLo := by
  rw [State.pubCtx, State.onCtx_ctx]
  split
  · next h => rw [h]; exact s.pubLog_pubLo ..
  · exact s.pubLog_pubLo ..

/-- A publication keeps in its leading context the first name that it gives out (R19). -/
theorem State.publish_pubLo (s : State) (w : Nat) : ((s.publish w).ctx w).pubLo = if (s.ctx w).pub then (s.ctx w).pubLo else s.uid := by
  simp only [State.publish]
  have h1 : ((if (s.ctx w).pub then s else s.onCtx w (fun c => { c with pubLo := s.uid })).ctx w).pubLo =
      if (s.ctx w).pub then (s.ctx w).pubLo else s.uid := by
    split
    · rfl
    · rw [State.onCtx_ctx, if_pos rfl]
  generalize (if (s.ctx w).pub then s else s.onCtx w (fun c => { c with pubLo := s.uid })) = u at h1 ⊢
  rw [← h1]
  have h2 : (((u.members w).foldl (fun s m => s.pubCtx m) u).ctx w).pubLo = (u.ctx w).pubLo :=
    List.foldlRecOn (motive := fun t : State => (t.ctx w).pubLo = (u.ctx w).pubLo) _ _ rfl fun t ht m _ => (t.pubCtx_pubLo m w).trans ht
  generalize (u.members w).foldl (fun s m => s.pubCtx m) u = v at h2 ⊢
  obtain ⟨d, r, h⟩ := State.firstCommit_ctx (((if ((v.pubSends w (v.ctx w).unpublished).ctx w).pub then v.pubSends w (v.ctx w).unpublished
    else (v.pubSends w (v.ctx w).unpublished).bumpCore (coreOf w) 0x04)).onCtx w
      (fun c => { c with slots := c.slots.map Slot.sent?, written := [], pub := true })) w w
  rw [h, State.onCtx_ctx, if_pos rfl, ← h2]
  dsimp only
  split
  · rw [State.pubSends_ctx]
  · rw [(State.Like.bumpCore ..).wrote.ctx, State.pubSends_ctx]

theorem State.committed_pubLo (s : State) :
    (s.committed.ctx s.cur).pubLo = if (s.ctx s.cur).pub then (s.ctx s.cur).pubLo else s.uid := by
  by_cases h : (s.ctx s.cur).pub
  · rw [State.committed, if_pos h, if_pos h]
  · rw [State.committed, if_neg h, State.publish_pubLo]

theorem Ctx.Pub.sregs {c d : Ctx} (h : c.Pub d) : d.sregs = c.sregs := by
  obtain ⟨_, _, _, _, _, _, _, _, _, rfl⟩ := h
  rfl

/-! ### A store sent to a target core -/

/-- A counted store of the firing on context `w` raises what `st` counts by one (R376). -/
theorem State.stOut_snoc (s : State) (w : Nat) {e : Pending} (hc : e.counted = true) (hw : e.org.w = w) (hf : e.org.fid = (s.ctx w).fid) :
    State.stOut { s with wq := s.wq ++ [e] } w = s.stOut w + 1 := by
  have hctx : State.ctx { s with wq := s.wq ++ [e] } w = s.ctx w := rfl
  simp [State.stOut, hctx, List.filter_append, hc, hw, hf]

/-- What sending a counted store leaves: it is the last in the queue, under a new name, and counted. -/
theorem State.sendStore_counted (s : State) (w : Nat) {e : Pending} (hc : e.counted = true) (hw : e.org.w = w) (hf : e.org.fid = (s.ctx w).fid) :
    s.sendStore e = ({ s with wq := s.wq ++ [{ e with uid := s.uid }] }.onCtx w (fun c => { c with ocSt := min 255 (s.stOut w + 1) })).fresh := by
  have hout := s.stOut_snoc w (e := { e with uid := s.uid }) hc hw hf
  rw [State.sendStore, State.countSt, hw, hout]

theorem localPA_target {x : Nat} (h : x < 2 ^ 19) (a : Nat) :
    localPA (bits x 11 8 * 2048 + bits x 0 11) a = x / 2 ^ 11 * 2 ^ 44 + 0x80000000000 + x % 2 ^ 11 * 0x100000 + a := by
  simp only [localPA, bits, Nat.shiftRight_eq_div_pow]
  omega

section
variable (sz : RstSize) (a b ea : Src) (disp : BitVec 32) (s : State)

/-- Address of an RST in the target's scratchpad (R190, R202). -/
def rstAddr : Nat := wrap 64 (((s.ctx s.cur).src ea).toNat + disp.toInt)

/-- The store that an RST of the current context sends: the low bytes of `b` to its address on the target core, behind its commit point. -/
def rstStore : Pending :=
  { pendingOf (s.committed.origin s.cur) .rst (localPA (bits ((s.ctx s.cur).src a).toNat 11 8 * 2048 + bits ((s.ctx s.cur).src a).toNat 0 11)
      (rstAddr ea disp s)) 0 0 .dflt (leBytes sz.bytes ((s.ctx s.cur).src b).toNat) (s.committed.ctx s.cur).pubLo s.committed.uid with
    uid := s.committed.uid }

end

section
variable {sz : RstSize} {a b ea : Src} {disp : BitVec 32} {s : State}

theorem rst_misaligned (h1 : s.single) (h : rstAddr ea disp s % sz.bytes ≠ 0) :
    exec (.rst sz a b ea disp) s = .next (s.fault s.cur (alignTrap (BitVec.ofNat 64 (rstAddr ea disp s)))) := by
  have hop : rstOp sz a b ea disp s.cur s = .error (.trap (alignTrap (BitVec.ofNat 64 (rstAddr ea disp s)))) := if_pos h
  rw [exec_rst, each_single h1, hop, finish]

variable (h : rstAddr ea disp s % sz.bytes = 0)
include h

theorem rst_bad_target (h1 : s.single) (ht : 2 ^ 19 ≤ ((s.ctx s.cur).src a).toNat) :
    exec (.rst sz a b ea disp) s = .next (s.fault s.cur (permTrap 3 ((s.ctx s.cur).src a))) := by
  have hd : ((s.ctx s.cur).src a).toNat / 2 ^ 19 ≠ 0 := by omega
  have hop : rstOp sz a b ea disp s.cur s = .error (.trap (permTrap 3 ((s.ctx s.cur).src a))) :=
    (if_neg (not_not_intro h)).trans (if_pos hd)
  rw [exec_rst, each_single h1, hop, finish]

variable (ht : ((s.ctx s.cur).src a).toNat < 2 ^ 19)
include ht

theorem rst_beyond (h1 : s.single) (hea : 0x100000 ≤ rstAddr ea disp s) :
    exec (.rst sz a b ea disp) s = .next (s.fault s.cur (permTrap 3 (BitVec.ofNat 64 (rstAddr ea disp s)))) := by
  have hd : ¬ ((s.ctx s.cur).src a).toNat / 2 ^ 19 ≠ 0 := by omega
  have hop : rstOp sz a b ea disp s.cur s = .error (.trap (permTrap 3 (BitVec.ofNat 64 (rstAddr ea disp s)))) :=
    ((if_neg (not_not_intro h)).trans (if_neg hd)).trans (if_pos hea)
  rw [exec_rst, each_single h1, hop, finish]

variable (hea : rstAddr ea disp s < 0x100000) (hc : s.mayCommit)
include hea hc

/-- An RST whose operands it may take: behind its commit point it waits while `st` is 255, and else sends its store (R376). -/
theorem rstOp_commits : rstOp sz a b ea disp s.cur s =
    if 255 ≤ s.committed.stOut s.cur then .error (.wait s.committed) else .ok (s.committed.sendStore (rstStore sz a b ea disp s)) := by
  have hd : ¬ ((s.ctx s.cur).src a).toNat / 2 ^ 19 ≠ 0 := by omega
  refine ((if_neg (not_not_intro h)).trans (if_neg hd)).trans ((if_neg (not_le.2 hea)).trans ?_)
  simp only [State.commit_eq hc, State.committed_cur]
  rfl

theorem rst_waits (h1 : s.single) (hout : 255 ≤ s.committed.stOut s.cur) : exec (.rst sz a b ea disp) s = .next s.committed := by
  rw [exec_rst, each_single h1, rstOp_commits h ht hea hc, if_pos hout, finish]

/-- An RST completes with its store on the way, behind the stores of its commit point. -/
theorem rst_sends (h1 : s.single) (hout : s.committed.stOut s.cur < 255) :
    ∃ t, exec (.rst sz a b ea disp) s = .next t ∧ t.mem = s.committed.mem ∧ t.wq = s.committed.wq ++ [rstStore sz a b ea disp s] ∧
      t.ctx s.cur = ({ s.committed.ctx s.cur with ocSt := s.committed.stOut s.cur + 1 } : Ctx).retired ∧
      ∀ w, w ≠ s.cur → t.ctx w = s.committed.ctx w := by
  have hsend := s.committed.sendStore_counted s.cur (e := rstStore sz a b ea disp s) rfl rfl rfl
  rw [show min 255 (s.committed.stOut s.cur + 1) = s.committed.stOut s.cur + 1 by omega] at hsend
  have hctx : ∀ j, (s.committed.sendStore (rstStore sz a b ea disp s)).ctx j =
      if j = s.cur then { s.committed.ctx s.cur with ocSt := s.committed.stOut s.cur + 1 } else s.committed.ctx j := fun j => by
    rw [hsend, State.fresh_ctx, State.onCtx_ctx]; rfl
  refine ⟨(s.committed.sendStore (rstStore sz a b ea disp s)).after s.cur id, ?_, rfl, rfl, ?_, fun w hw => ?_⟩
  · rw [exec_rst, each_single h1, rstOp_commits h ht hea hc, if_neg (not_le.2 hout), finish_single]
    rw [hctx, if_pos rfl]
    exact committed_gang h1
  · rw [State.after_ctx, if_pos rfl, hctx, if_pos rfl]; rfl
  · rw [State.after_ctx, if_neg hw, hctx, if_neg hw]

end

/-- Settles O29: the operands that RST refuses, its commit point, and the one store it sends. -/
theorem remoteStores : Obligations.RemoteStores := by
  intro sz a b ea disp s h1 c target addr n
  have hn : n = sz.bytes := by cases sz <;> rfl
  rw [hn]
  refine ⟨rst_misaligned h1, fun h ht => rst_bad_target h h1 ht, fun h ht hea => rst_beyond h ht h1 hea,
    fun h ht hea hc => ⟨fun hout => ?_, rst_waits h ht hea hc h1⟩⟩
  obtain ⟨t, ht', hmem, hwq, hown, hother⟩ := rst_sends (b := b) h ht hea hc h1 hout
  have hpub := (State.Pub.committed s).ctx s.cur
  obtain ⟨-, hnpc, -, -⟩ := hpub.keeps
  refine ⟨t, _, ht', hwq, rfl, localPA_target ht addr, rfl, s.committed_pubLo, rfl, rfl, hmem, ?_, ?_, ?_, hother⟩
  · rw [hown]; rfl
  · rw [hown]; exact hpub.sregs
  · rw [hown]; exact hnpc

end Sys2Proof.Machine

/-! ## SPALLOC and SPFREE (O32) -/

namespace Sys2Proof.Machine

theorem exec_spalloc (guard : Bool) (d : Dst) (b : Src) (r : Fin 64) (bank g1 : Fin 16) (ctxOwner : Bool) (s : State) :
    exec (.spalloc guard d b r bank g1 ctxOwner) s = execSpalloc guard d b r bank g1 ctxOwner s := rfl

theorem exec_spfree (a : Src) (s : State) : exec (.spfree a) s = execSpfree a s := rfl

/-! ### What SPALLOC answers -/

/-- The allocation that an SPALLOC of context `w` asks for, its base left open (R206). -/
def State.askedAlloc (s : State) (w : Nat) (guard : Bool) (size g : Nat) (ctxOwner : Bool) : Alloc :=
  { guard := guard, g := if guard then g else 0, ctx := if ctxOwner then some (w % 4) else none
    slot := if ctxOwner then 0 else (s.ctx w).slot, size := (size + 63) / 64 * 64, base := 0 }

/-- An SPALLOC asks for a size or a bank that no allocation has (R206). -/
def State.badAsk (s : State) (w : Nat) (al : Alloc) (bank : Nat) : Prop :=
  al.size < 64 ∨ 65536 < al.size ∨ 65536 < al.reserved ∨ (bank ≠ 15 ∧ (s.core (w / 4)).sbfloor ≤ bank)

/-- The user region of an allocation lies behind its lower guard (R179). -/
theorem State.askedAlloc_userBase (s : State) (w : Nat) (guard : Bool) (size g : Nat) (ctxOwner : Bool) (base : Nat) :
    ({ s.askedAlloc w guard size g ctxOwner with base := base } : Alloc).userBase = base + if guard then 64 * g else 0 := by
  cases guard with
  | true => rfl
  | false => rfl

/-- The banks that an SPALLOC searches. -/
def State.askedBanks (s : State) (w bank : Nat) : List Nat := if bank = 15 then List.range (s.core (w / 4)).sbfloor else [bank]

/-- The state in which entry `e` of the table of context `w`'s core holds `al`, the user bytes of the allocation left open. -/
def State.allocated (s : State) (w e : Nat) (al : Alloc) : State :=
  (s.setCore (w / 4) { s.core (w / 4) with sat := FMap.set (s.core (w / 4)).sat e al }).openBytes (localPA (w / 4) al.userBase) al.userLen

/-- What SPALLOC answers: an entry and its address where all it asks for is there, and else the status of something that is not (R206). -/
theorem State.spallocDo_cases (s : State) (w : Nat) (guard : Bool) (size bank g : Nat) (ctxOwner : Bool) :
    let al := s.askedAlloc w guard size g ctxOwner
    (∃ e base, ¬ s.badAsk w al bank ∧ (ctxOwner = true ∨ (s.ctx w).kind = .actor) ∧ (s.core (w / 4)).freeAlloc = some e ∧
      s.findBank (w / 4) al.reserved (s.askedBanks w bank) = some base ∧
      s.spallocDo w guard size bank g ctxOwner =
        (s.allocated w e { al with base := base }, 0, some (e, ({ al with base := base } : Alloc).userBase))) ∨
    ∃ status, s.spallocDo w guard size bank g ctxOwner = (s, status, none) ∧
      (status = 3 ∧ s.badAsk w al bank ∨ status = 4 ∧ ctxOwner = false ∧ (s.ctx w).kind ≠ .actor ∨
       status = 1 ∧ (s.core (w / 4)).freeAlloc = none ∨ status = 2 ∧ s.findBank (w / 4) al.reserved (s.askedBanks w bank) = none) := by
  intro al
  by_cases hbad : s.badAsk w al bank
  · exact .inr ⟨3, if_pos hbad, .inl ⟨rfl, hbad⟩⟩
  by_cases hown : ctxOwner = true ∨ (s.ctx w).kind = .actor
  · have hno : ¬ (!ctxOwner && decide ((s.ctx w).kind ≠ .actor)) = true := by
      rcases hown with h | h
      · simp [h]
      · simp [h]
    have hdo : s.spallocDo w guard size bank g ctxOwner =
        match (s.core (w / 4)).freeAlloc with
        | none => (s, 1, none)
        | some e => match s.findBank (w / 4) al.reserved (s.askedBanks w bank) with
          | none => (s, 2, none)
          | some base => (s.allocated w e { al with base := base }, 0, some (e, ({ al with base := base } : Alloc).userBase)) :=
      (if_neg hbad).trans (if_neg hno)
    rw [hdo]
    cases hfree : (s.core (w / 4)).freeAlloc with
    | none => exact .inr ⟨1, rfl, .inr (.inr (.inl ⟨rfl, rfl⟩))⟩
    | some e =>
      cases hbank : s.findBank (w / 4) al.reserved (s.askedBanks w bank) with
      | none => exact .inr ⟨2, rfl, .inr (.inr (.inr ⟨rfl, rfl⟩))⟩
      | some base => exact .inl ⟨e, base, hbad, hown, rfl, rfl, rfl⟩
  · obtain ⟨hctx, hkind⟩ := not_or.1 hown
    have hctx : ctxOwner = false := by simpa using hctx
    have hno : (!ctxOwner && decide ((s.ctx w).kind ≠ .actor)) = true := by simp [hctx, hkind]
    exact .inr ⟨4, (if_neg hbad).trans (if_pos hno), .inr (.inl ⟨rfl, hctx, hkind⟩)⟩

/-- The registers of an SPALLOC: handle and address of the entry it got, or the status and address 0 (R206). -/
def Ctx.spResult (c : Ctx) (d : Dst) (r : Fin 64) (status : Nat) : Option (Nat × Nat) → Ctx
  | some (e, a) => (c.dst d (BitVec.ofNat 64 (e * 2 ^ 59))).setSreg r.val (BitVec.ofNat 64 a)
  | none => (c.dst d (BitVec.ofNat 64 status)).setSreg r.val 0

theorem Ctx.spResult_gang (c : Ctx) (d : Dst) (r : Fin 64) (status : Nat) (x : Option (Nat × Nat)) : (c.spResult d r status x).gang = c.gang := by
  unfold Ctx.spResult
  split
  · rw [Ctx.dst_eq]; rfl
  · rw [Ctx.dst_eq]; rfl

/-- SPALLOC completes, whatever the allocation answers. -/
theorem spalloc_completes {guard : Bool} {d : Dst} {b : Src} {r : Fin 64} {bank g1 : Fin 16} {ctxOwner : Bool} {s u : State} {status : Nat}
    {x : Option (Nat × Nat)} (h1 : s.single)
    (hdo : s.spallocDo s.cur guard ((s.ctx s.cur).src b).toNat bank.val (g1.val + 1) ctxOwner = (u, status, x)) (hctx : u.ctx s.cur = s.ctx s.cur) :
    exec (.spalloc guard d b r bank g1 ctxOwner) s = .next (u.after s.cur (fun c => c.spResult d r status x)) := by
  rw [exec_spalloc, execSpalloc, each_single h1]
  dsimp only
  rw [hdo]
  have hrun : finish s (.ok (u.onCtx s.cur (fun c => c.spResult d r status x))) = _ := finish_single (by
    rw [State.onCtx_ctx, if_pos rfl, Ctx.spResult_gang, hctx]; exact h1)
  rw [State.after_onCtx] at hrun
  exact hrun

/-! ### SPFREE -/

/-- The top five bits of a handle are its entry (R206). -/
theorem handle_entry (h : Word) : bits h.toNat 59 5 = h.toNat / 2 ^ 59 := by
  have := h.isLt
  rw [bits, Nat.shiftRight_eq_div_pow]
  omega

section
variable {a : Src} {s : State} {al : Alloc} (h1 : s.single)
include h1

theorem spfree_none (hfind : FMap.find (s.core (s.cur / 4)).sat (((s.ctx s.cur).src a).toNat / 2 ^ 59) = none) : exec (.spfree a) s =
    if (s.ctx s.cur).supv then .next (s.after s.cur id) else .next (s.fault s.cur (permTrap 2 ((s.ctx s.cur).src a))) := by
  simp only [exec_spfree, execSpfree, each_single h1, handle_entry, coreOf, hfind]
  split
  · exact finish_single h1
  · rfl

variable (hfind : FMap.find (s.core (s.cur / 4)).sat (((s.ctx s.cur).src a).toNat / 2 ^ 59) = some al)
include hfind

theorem spfree_refused (hsup : (s.ctx s.cur).supv = false) (hown : al.ownedBy (s.ctx s.cur) (s.cur % 4) = false) :
    exec (.spfree a) s = .next (s.fault s.cur (permTrap 2 ((s.ctx s.cur).src a))) := by
  simp only [exec_spfree, execSpfree, each_single h1, handle_entry, coreOf, hfind, hsup, hown, Bool.or_self, Bool.not_false, if_true, finish]

/-- SPFREE of an entry that the firing may free waits for its local loads, and then removes it. -/
theorem spfree_allowed (hown : (s.ctx s.cur).supv = true ∨ al.ownedBy (s.ctx s.cur) (s.cur % 4) = true) : exec (.spfree a) s =
    if s.loadInto s.cur al then .next s
    else .next ((s.onCore (s.cur / 4) (fun k => { k with sat := FMap.erase k.sat (((s.ctx s.cur).src a).toNat / 2 ^ 59) })).after s.cur id) := by
  have hok : (!((s.ctx s.cur).supv || al.ownedBy (s.ctx s.cur) (s.cur % 4))) = false := by
    rw [Bool.not_eq_false', Bool.or_eq_true]; exact hown
  simp only [exec_spfree, execSpfree, each_single h1, handle_entry, coreOf, hfind, hok, Bool.false_eq_true, if_false]
  split
  · rfl
  · exact finish_single h1

end

/-! ### The obligation -/

/-- The lowest invalid entry of the table. -/
theorem Core.freeAlloc_eq_some {k : Core} {e : Nat} (h : k.freeAlloc = some e) :
    FMap.find k.sat e = none ∧ e < 32 ∧ ∀ j < e, (FMap.find k.sat j).isSome := by
  obtain ⟨hnone, hlt, hbelow⟩ := List.find?_range_eq_some.1 h
  exact ⟨by simpa using hnone, by simpa using hlt, fun j hj => by simpa [Option.isSome_iff_ne_none] using hbelow j hj⟩

theorem Core.freeAlloc_eq_none {k : Core} (h : k.freeAlloc = none) : ∀ j < 32, (FMap.find k.sat j).isSome := by
  intro j hj
  have := List.find?_eq_none.1 h j (List.mem_range.2 hj)
  simpa [Option.isSome_iff_ne_none] using this

/-- An allocation leaves the bytes outside its user region. -/
theorem State.rdByte_allocated (s : State) (w e : Nat) (al : Alloc) {pa : Nat}
    (h : ¬ (localPA (w / 4) al.userBase ≤ pa ∧ pa < localPA (w / 4) al.userBase + al.userLen)) :
    (s.allocated w e al).rdByte pa = s.rdByte pa := by
  refine (State.rdByte_putRange ..).trans (if_neg ?_)
  rwa [List.length_map, List.length_range]

theorem State.allocated_sat (s : State) (w e : Nat) (al : Alloc) :
    ((s.allocated w e al).core (w / 4)).sat = FMap.set (s.core (w / 4)).sat e al :=
  congrArg Core.sat ((s.setCore_core ..).trans (if_pos rfl))

/-- Settles O32: what SPALLOC answers, and what SPFREE finds at the entry of its handle. -/
theorem scratchpadAllocation : Obligations.ScratchpadAllocation := by
  refine ⟨fun guard d b r bank g1 ctxOwner s h1 => ?_, fun a s h1 => ⟨fun al hfind hown hload => ?_, fun hsup hnot => ?_, fun hfind hsup => ?_,
    fun al hfind hown hload => ?_⟩⟩
  · intro c k z al badSize
    have h15 : bank = 15 ↔ bank.val = 15 := Fin.ext_iff
    have hbanks : s.askedBanks s.cur bank.val = if bank = 15 then List.range k.sbfloor else [bank.val] := by
      simp only [State.askedBanks, h15]; rfl
    have hbad : s.badAsk s.cur al bank.val ↔ badSize := by
      simp only [State.badAsk, badSize, ne_eq, h15]; rfl
    rcases s.spallocDo_cases s.cur guard (c.src b).toNat bank.val (g1.val + 1) ctxOwner with
      ⟨e, base, hok, hown, hfree, hbank, hdo⟩ | ⟨status, hdo, hwhy⟩
    · obtain ⟨hnone, hlt, hbelow⟩ := Core.freeAlloc_eq_some hfree
      refine ⟨_, spalloc_completes h1 hdo rfl, fun w hw => ?_, rfl, rfl, .inl ⟨e, base, mt hbad.2 hok, hown, hnone, hlt, hbelow, ?_, ?_, fun j hj => ?_,
        fun pa hpa => ?_, ?_⟩⟩
      · rw [State.after_ctx, if_neg hw]; rfl
      · rw [← hbanks]; exact hbank
      · change FMap.find ((s.allocated s.cur e _).core (s.cur / 4)).sat e = _
        rw [State.allocated_sat, FMap.find_set, if_pos rfl]; rfl
      · change FMap.find ((s.allocated s.cur e _).core (s.cur / 4)).sat j = _
        rw [State.allocated_sat, FMap.find_set, if_neg hj]
      · refine State.rdByte_allocated s s.cur e _ ?_
        rw [State.askedAlloc_userBase]
        exact hpa
      · rw [State.after_ctx, if_pos rfl, State.askedAlloc_userBase]; rfl
    · refine ⟨_, spalloc_completes h1 hdo rfl, fun w hw => ?_, rfl, rfl, .inr ⟨status, rfl, ?_, ?_⟩⟩
      · rw [State.after_ctx, if_neg hw]
      · rw [State.after_ctx, if_pos rfl]; rfl
      · rw [← hbanks, ← hbad]
        exact hwhy.imp id (Or.imp id (Or.imp (And.imp id Core.freeAlloc_eq_none) id))
  · rw [spfree_allowed h1 hfind hown, hload]; rfl
  · cases hfind : FMap.find (s.core (s.cur / 4)).sat (((s.ctx s.cur).src a).toNat / 2 ^ 59) with
    | none => rw [spfree_none h1 hfind, hsup]; rfl
    | some al => exact spfree_refused h1 hfind hsup (hnot al hfind)
  · rw [spfree_none h1 hfind, hsup]; rfl
  · rw [spfree_allowed h1 hfind hown, hload]; rfl

end Sys2Proof.Machine

/-! ## What a request that never faults changes: translations, caches and directories (O31) -/

namespace Sys2Proof.Machine

/-! ### States that differ in one context's translations, and in cores, clusters and the overflow directory -/

/-- From `s` to `t` the translations that context `w` holds, cores, clusters and the overflow directory may have changed, and nothing else. -/
structure Touched (w : Nat) (s t : State) : Prop where
  frame : ∃ a b c d, t = { s with ctxs := a, cores := b, clus := c, ovf := d }
  ctx : ∃ x, t.ctx w = { s.ctx w with xlate := x }
  others : ∀ j, j ≠ w → t.ctx j = s.ctx j

namespace Touched

variable {w : Nat} {s t u : State}

theorem trans (h : Touched w s t) (k : Touched w t u) : Touched w s u := by
  refine ⟨?_, ?_, fun j hj => (k.others j hj).trans (h.others j hj)⟩
  · obtain ⟨_, _, _, _, rfl⟩ := h.frame
    obtain ⟨a, b, c, d, rfl⟩ := k.frame
    exact ⟨a, b, c, d, rfl⟩
  · obtain ⟨x, hx⟩ := h.ctx
    obtain ⟨y, hy⟩ := k.ctx
    exact ⟨y, by rw [hy, hx]⟩

theorem of_units {b : FMap Core} {c : FMap Cluster} {d : FMap (FMap OvfEnt)} (w : Nat) (s : State) :
    Touched w s { s with cores := b, clus := c, ovf := d } :=
  ⟨⟨_, _, _, _, rfl⟩, ⟨_, rfl⟩, fun _ _ => rfl⟩

theorem refl (w : Nat) (s : State) : Touched w s s := of_units w s

theorem hold (w : Nat) (s : State) (f : Ctx → List Leaf) : Touched w s (s.onCtx w (fun c => { c with xlate := f c })) :=
  ⟨⟨_, _, _, _, rfl⟩, ⟨f (s.ctx w), by rw [State.onCtx_ctx, if_pos rfl]⟩, fun j hj => by rw [State.onCtx_ctx, if_neg hj]⟩

/-- Behind the instruction nothing of its translations is left. -/
theorem retired (h : Touched w s t) : (t.ctx w).retired = (s.ctx w).retired := by
  obtain ⟨x, hx⟩ := h.ctx
  rw [hx]; rfl

theorem gang (h : Touched w s t) : (t.ctx w).gang = (s.ctx w).gang := by
  obtain ⟨x, hx⟩ := h.ctx
  rw [hx]

theorem part (h : Touched w s t) : (t.ctx w).part = (s.ctx w).part := by
  obtain ⟨x, hx⟩ := h.ctx
  rw [hx]

theorem supv (h : Touched w s t) : (t.ctx w).supv = (s.ctx w).supv := by
  obtain ⟨x, hx⟩ := h.ctx
  rw [hx]; rfl

/-- The rights of a core path to a physical address stay (R189). -/
theorem corePhysOk (h : Touched w s t) : t.corePhysOk w = s.corePhysOk w := by
  obtain ⟨_, _, _, _, hf⟩ := h.frame
  have hmods : t.mods = s.mods := by rw [hf]
  have hregion : t.region = s.region := by rw [hf]; rfl
  have hhbm : t.hbmOk = s.hbmOk := by rw [hf]; rfl
  have howner : t.ownerOf = s.ownerOf := by rw [hf]; rfl
  funext write pa
  simp only [State.corePhysOk, h.part, h.supv, State.reach_congr hmods, hregion, hhbm, howner]

/-- An instruction of one context that leaves such a state completes with its context retired. -/
theorem finishes (h : Touched s.cur s t) (h1 : s.single) : ∃ v, finish s (.ok t) = .next v ∧
    v = { s with ctxs := v.ctxs, cores := v.cores, clus := v.clus, ovf := v.ovf } ∧ (∀ j, j ≠ s.cur → v.ctx j = s.ctx j) ∧
    v.ctx s.cur = (s.ctx s.cur).retired ∧ v.core = t.core := by
  refine ⟨t.after s.cur id, finish_single (h.gang.trans h1), ?_, fun j hj => ?_, ?_, rfl⟩
  · obtain ⟨_, _, _, _, hf⟩ := h.frame
    rw [hf]; rfl
  · rw [State.after_ctx, if_neg hj, h.others j hj]
  · rw [State.after_ctx, if_pos rfl]
    exact h.retired

end Touched

/-! ### Looking up one address -/

/-- The state in which context `w` holds a leaf for its instruction. -/
def State.holding (s : State) (w : Nat) (l : Leaf) : State :=
  s.onCtx w (fun c => { c with xlate := if c.xlate.contains l then c.xlate else l :: c.xlate })

theorem State.peek_beyond {s : State} {w va : Nat} (h : 2 ^ 55 ≤ va) : s.peek w va = .ok (s, none) := by
  rw [State.peek, if_pos h]

theorem State.peek_hit {s t : State} {w va : Nat} {l : Leaf} (h : va < 2 ^ 55) (hl : s.lookup w (va / 2 ^ 16 * 2 ^ 16) = (t, some l)) :
    s.peek w va = .ok (t.holding w l, if l.bad = 0 then some l else none) := by
  simp only [State.peek, if_neg (not_le.2 h), State.leaves, hl]
  rfl

theorem State.peek_miss {s t : State} {w va : Nat} (h : va < 2 ^ 55) (hl : s.lookup w (va / 2 ^ 16 * 2 ^ 16) = (t, none)) :
    s.peek w va = .error (.wait (t.startWalk w (max va (va / 2 ^ 16 * 2 ^ 16)) .quiet)) := by
  simp only [State.peek, if_neg (not_le.2 h), State.leaves, hl]

theorem State.startWalk_phase (s : State) (w va : Nat) (a : Access) : ((s.startWalk w va a).ctx w).phase = .waitWalk := by
  simp only [State.startWalk]
  split
  · rw [State.setClu_ctx, State.onCtx_ctx, if_pos rfl]
  · rw [State.fresh_ctx, State.setClu_ctx, State.onCtx_ctx, if_pos rfl]

/-- Looking an address up changes TLBs alone. -/
theorem Touched.lookup (w : Nat) (s : State) (va : Nat) : Touched w s (s.lookup w va).1 := by
  obtain ⟨⟨_, _, _, hf⟩, hctx, hothers⟩ := Looked.lookup w s va
  exact ⟨⟨_, _, _, _, hf⟩, hctx, hothers⟩

theorem State.lookup_core (s : State) (w va g : Nat) : ∃ x, (s.lookup w va).1.core g = { s.core g with tlb := x } := by
  have hadd (t : State) (ht : t.core = s.core) (l : Leaf) : ∃ x, (t.onCore (coreOf w) (fun k => k.tlbAdd l)).core g = { s.core g with tlb := x } := by
    rw [State.onCore_core, ht]
    split
    · next h => exact ⟨_, by rw [h]; rfl⟩
    · exact ⟨_, rfl⟩
  simp only [State.lookup]
  split
  · exact ⟨_, rfl⟩
  · split
    · exact hadd s rfl _
    · split
      · exact hadd _ rfl _
      · exact ⟨_, rfl⟩

end Sys2Proof.Machine

/-! ## PREF without `.l` (O31) -/

namespace Sys2Proof.Machine

/-! ### What a fill changes -/

/-- As `Touched`, and of the cores the TLB, the L1 and the counters alone. -/
structure Cached (w : Nat) (s t : State) : Prop extends Touched w s t where
  core : ∀ g, ∃ x y z, t.core g = { s.core g with tlb := x, l1 := y, pcount := z }

namespace Cached

variable {w : Nat} {s t u : State}

theorem trans (h : Cached w s t) (k : Cached w t u) : Cached w s u := by
  refine ⟨h.toTouched.trans k.toTouched, fun g => ?_⟩
  obtain ⟨_, _, _, hg⟩ := h.core g
  obtain ⟨x, y, z, kg⟩ := k.core g
  exact ⟨x, y, z, by rw [kg, hg]⟩

/-- Clusters and the overflow directory are no part of a core. -/
theorem of_frame (h : ∃ c d, t = { s with clus := c, ovf := d }) : Cached w s t := by
  obtain ⟨c, d, rfl⟩ := h
  exact ⟨.of_units w s, fun _ => ⟨_, _, _, rfl⟩⟩

theorem refl (w : Nat) (s : State) : Cached w s s := of_frame ⟨_, _, rfl⟩

theorem onCore (w : Nat) (s : State) (g : Nat) (f : Core → Core) (h : ∃ x y z, f (s.core g) = { s.core g with tlb := x, l1 := y, pcount := z }) :
    Cached w s (s.onCore g f) := by
  refine ⟨.of_units w s, fun j => ?_⟩
  rw [State.onCore_core]
  split
  · next hj => rw [hj]; exact h
  · exact ⟨_, _, _, rfl⟩

theorem bumpCore (s : State) (g c : Nat) : Cached w s (s.bumpCore g c) := by
  unfold State.bumpCore
  split
  · exact onCore w s _ _ ⟨_, _, _, rfl⟩
  · exact refl w s

theorem dropL1s (line : Nat) (l : List Nat) : ∀ s : State, Cached w s (s.dropL1s line l) := by
  induction l with
  | nil => exact refl w
  | cons g l ih => exact fun s => (onCore w s g _ ⟨_, _, _, rfl⟩).trans (ih _)

end Cached

theorem State.addSharer_frame {s t : State} {home line gc : Nat} (h : s.addSharer home line gc = some t) :
    ∃ c d, t = { s with clus := c, ovf := d } := by
  simp only [State.addSharer] at h
  split at h
  · cases h; exact ⟨_, _, rfl⟩
  · split at h
    · cases h; exact ⟨_, _, rfl⟩
    · split at h
      · cases h; exact ⟨_, _, rfl⟩
      · split at h
        · cases h; exact ⟨_, _, rfl⟩
        · cases h

namespace Cached

variable {w : Nat}

theorem invalidate (s : State) (home line : Nat) (e : Option Nat) : Cached w s (s.invalidate home line e) := by
  simp only [State.invalidate]
  split
  · exact refl w s
  · exact (dropL1s ..).trans (of_frame (State.dropSharers_frame ..))

theorem touchSlice (s : State) (home line : Nat) (pol : Policy) : Cached w s (s.touchSlice home line pol) := by
  simp only [State.touchSlice]
  have hset (k : Cluster) : Cached w s (s.setClu home k) := of_frame ⟨_, _, rfl⟩
  have hbump (t : State) : Cached w t (t.bumpSlice home 0x24) := by
    exact of_frame ⟨_, _, t.bumpSlice_frame home 0x24⟩
  have hcount (k : Cluster) (c : Prop) [Decidable c] : Cached w s (if c then s.setClu home k else (s.setClu home k).bumpSlice home 0x24) := by
    split
    · exact hset k
    · exact (hset k).trans (hbump _)
  split
  · exact (hcount ..).trans (invalidate ..)
  · exact hcount ..

theorem atHome (s : State) (home line cls : Nat) (pol : Policy) (write : Bool) : Cached w s (s.atHome home line cls pol write) := by
  unfold State.atHome
  split
  · exact touchSlice ..
  · split
    · exact (invalidate ..).trans (of_frame ⟨_, _, rfl⟩)
    · exact refl w s

theorem loadFill (s : State) (gc pa hb cls : Nat) (pol : Policy) : Cached w s (s.loadFill gc pa hb cls pol) := by
  have hl1 (t : State) (g : List (Nat × Nat) → List (Nat × Nat)) (i : Nat) :
      Cached w t (t.onCore gc (fun c => { c with l1 := FMap.put [] c.l1 i (g (FMap.get [] c.l1 i)) })) :=
    onCore w _ _ _ ⟨_, _, _, rfl⟩
  simp only [State.loadFill]
  split
  · exact hl1 s (touchSet 4 2 pol · (pa / 64)) _
  · refine (atHome s (homeOf pa hb) (pa / 64) cls pol false).trans ?_
    split
    · refine (bumpCore _ gc 0x07).trans ?_
      split
      · next h => exact (of_frame (State.addSharer_frame h)).trans (hl1 _ (touchSet 4 2 pol · (pa / 64)) _)
      · exact refl ..
    · exact refl ..

theorem hold (w : Nat) (s : State) (f : Ctx → List Leaf) : Cached w s (s.onCtx w (fun c => { c with xlate := f c })) :=
  ⟨.hold w s f, fun _ => ⟨_, _, _, rfl⟩⟩

theorem lookup (w : Nat) (s : State) (va : Nat) : Cached w s (s.lookup w va).1 := by
  refine ⟨.lookup w s va, fun g => ?_⟩
  obtain ⟨x, hx⟩ := s.lookup_core w va g
  exact ⟨x, _, _, hx⟩

end Cached

/-! ### A request without a fault -/

/-- An address that is looked up without a fault is found, or out of range, or waits for a walk. -/
theorem State.peek_cases (s : State) (w va : Nat) :
    (∃ t o, s.peek w va = .ok (t, o) ∧ Cached w s t) ∨ ∃ t, s.peek w va = .error (.wait t) ∧ (t.ctx w).phase = .waitWalk := by
  by_cases h : 2 ^ 55 ≤ va
  · exact .inl ⟨s, none, State.peek_beyond h, .refl w s⟩
  have hva : va < 2 ^ 55 := not_le.1 h
  have hlook := Cached.lookup w s (va / 2 ^ 16 * 2 ^ 16)
  rcases hl : s.lookup w (va / 2 ^ 16 * 2 ^ 16) with ⟨t, l⟩
  rw [hl] at hlook
  cases l with
  | none => exact .inr ⟨_, State.peek_miss hva hl, State.startWalk_phase ..⟩
  | some l => exact .inl ⟨_, _, State.peek_hit hva hl, hlook.trans (.hold w t _)⟩

theorem prefLine_ok {pol : Policy} {va w : Nat} {s t : State} {o : Option Leaf} (h : s.peek w va = .ok (t, o)) :
    ∃ u, prefLine pol va w s = .ok u ∧ Cached w t u := by
  cases o with
  | none => exact ⟨t, by simp only [prefLine, h], .refl w t⟩
  | some l =>
    simp only [prefLine, h]
    split
    · exact ⟨t, rfl, .refl w t⟩
    · exact ⟨_, rfl, .loadFill ..⟩

theorem pref_single {l : Option Src} {a : Src} {pol : Policy} {s : State} (h1 : s.single) : exec (.pref l a pol) s =
    finish s (match l with | none => prefLine pol ((s.ctx s.cur).src a).toNat s.cur s | some b => prefLocal b a pol s.cur s) := by
  cases l with
  | none => exact each_single h1 fun w s => prefLine pol ((s.ctx w).src a).toNat w s
  | some b => exact each_single h1 (prefLocal b a pol)

/-- PREF without `.l` completes with what it looked up and filled, or waits for a walk; it never faults (R204). -/
theorem housekeeping_pref (a : Src) (pol : Policy) (s : State) (h1 : s.single) :
    let r := s.peek s.cur ((s.ctx s.cur).src a).toNat
    (∀ x, r = .ok x →
      ∃ t, exec (.pref none a pol) s = .next t ∧ t = { s with ctxs := t.ctxs, cores := t.cores, clus := t.clus, ovf := t.ovf } ∧
        (∀ w, w ≠ s.cur → t.ctx w = s.ctx w) ∧ t.ctx s.cur = (s.ctx s.cur).retired ∧
        ∀ g, t.core g = { s.core g with tlb := (t.core g).tlb, l1 := (t.core g).l1, pcount := (t.core g).pcount }) ∧
    (∀ u, r = .error (.wait u) → exec (.pref none a pol) s = .next u ∧ (u.ctx s.cur).phase = .waitWalk) ∧
    ∀ x, r ≠ .error (.trap x) := by
  intro r
  rcases s.peek_cases s.cur ((s.ctx s.cur).src a).toNat with ⟨t, o, hr, ht⟩ | ⟨t, hr, ht⟩
  · have hr' : r = .ok (t, o) := hr
    rw [hr']
    refine ⟨fun x _ => ?_, nofun, nofun⟩
    obtain ⟨u, hu, hfill⟩ := prefLine_ok (pol := pol) hr
    have hall := ht.trans hfill
    obtain ⟨v, hv, hframe, hother, hown, hcore⟩ := hall.finishes h1
    refine ⟨v, ?_, hframe, hother, hown, fun g => ?_⟩
    · rw [pref_single h1]
      dsimp only
      rw [hu, hv]
    · obtain ⟨x, y, z, hg⟩ := hall.core g
      rw [hcore, hg]
  · have hr' : r = .error (.wait t) := hr
    rw [hr']
    refine ⟨nofun, fun u hu => ?_, nofun⟩
    cases hu
    refine ⟨?_, ht⟩
    rw [pref_single h1]
    simp only [prefLine, hr, finish]

end Sys2Proof.Machine

/-! ## PREF.l (O31) -/

namespace Sys2Proof.Machine

/-- Of two addresses that are no multiples of 64 PREF.l reports the first (R204). -/
theorem housekeeping_pref_misaligned (b a : Src) (pol : Policy) (s : State) (h1 : s.single)
    (h : ((s.ctx s.cur).src a).toNat % 64 ≠ 0 ∨ ((s.ctx s.cur).src b).toNat % 64 ≠ 0) :
    let bad := if ((s.ctx s.cur).src a).toNat % 64 ≠ 0 then (s.ctx s.cur).src a else (s.ctx s.cur).src b
    exec (.pref (some b) a pol) s = .next (s.fault s.cur { code := 7, cls := 1, va := bad }) := by
  intro bad
  have hop : prefLocal b a pol s.cur s = .error (.trap (alignTrap bad)) := by
    by_cases ha : ((s.ctx s.cur).src a).toNat % 64 ≠ 0
    · simp only [prefLocal, bad, if_pos ha]
    · simp only [prefLocal, bad, if_neg ha, if_pos (h.resolve_left ha)]
  rw [pref_single h1]
  dsimp only
  rw [hop]
  rfl

/-- PREF.l of addresses that resolve leaves an outstanding copy of the line, and counts it (R204). -/
theorem housekeeping_pref_copies (b a : Src) (pol : Policy) (s u : State) (l m : List RByte) (pa : Nat) (h1 : s.single)
    (ha : ((s.ctx s.cur).src a).toNat % 64 = 0) (hb : ((s.ctx s.cur).src b).toNat % 64 = 0)
    (hl : s.translate s.cur ((s.ctx s.cur).src a).toNat 64 .read = .ok (u, l))
    (hm : u.resolveL s.cur ((s.ctx s.cur).src b).toNat 64 64 true = .ok (.mem pa 0 0 :: m)) (hld : (u.ctx s.cur).ocLd < 255) :
    ∃ (t : State) (x : Load), exec (.pref (some b) a pol) s = .next t ∧
      x.dst = .local_ pa ∧ x.addrs.map (fun p => p.1) = l.filterMap RByte.pa? ∧ x.pol = pol ∧ x.got = [] ∧ x.org = u.origin s.cur ∧
      t = { u with ctxs := t.ctxs, uid := u.uid + 1 } ∧ (∀ w, w ≠ s.cur → t.ctx w = u.ctx w) ∧
      t.ctx s.cur = ({ u.ctx s.cur with loads := (u.ctx s.cur).loads ++ [x], ocLd := (u.ctx s.cur).ocLd + 1 } : Ctx).retired := by
  have hop : prefLocal b a pol s.cur s =
      .ok ((u.addLoad s.cur (.local_ pa) l pol ((s.ctx s.cur).src a)).onCtx s.cur (fun c => { c with ocLd := c.ocLd + 1 })) := by
    simp only [prefLocal, if_neg (not_not_intro ha), if_neg (not_not_intro hb), hl, hm, if_neg (not_le.2 hld)]
  obtain ⟨y, hy⟩ := (Looked.translate hl).ctx
  have hg : (u.ctx s.cur).gang = false := (congrArg Ctx.gang hy).trans h1
  refine ⟨((u.addLoad s.cur (.local_ pa) l pol ((s.ctx s.cur).src a)).onCtx s.cur (fun c => { c with ocLd := c.ocLd + 1 })).after s.cur id,
    newLoad u s.cur (.local_ pa) l pol ((s.ctx s.cur).src a), ?_, rfl, newLoad_addrs .., rfl, rfl, rfl, rfl, fun w hw => ?_, ?_⟩
  · rw [pref_single h1]
    dsimp only
    rw [hop, finish_single]
    rw [State.onCtx_ctx, if_pos rfl, State.addLoad_eq, State.fresh_ctx, State.onCtx_ctx, if_pos rfl]
    exact hg
  · rw [State.after_ctx, if_neg hw, State.onCtx_ctx, if_neg hw, State.addLoad_eq, State.fresh_ctx, State.onCtx_ctx, if_neg hw]
  · rw [State.after_ctx, if_pos rfl, State.onCtx_ctx, if_pos rfl, State.addLoad_eq, State.fresh_ctx, State.onCtx_ctx, if_pos rfl]
    rfl

end Sys2Proof.Machine

/-! ## BFSET (O31) -/

namespace Sys2Proof.Machine

theorem exec_bfset (a b : Src) (s : State) : exec (.bfset a b) s = execBfset a b s := rfl

/-- A value that BFSET accepts, field by field (R208). -/
theorem bfmtOk_iff {v : Nat} (hv : v < 2 ^ 32) : bfmtOk v = true ↔
    v / 2 ^ 24 = 0 ∧ v / 2 ^ 10 % 2 ^ 6 = 0 ∧ (v % 32 ≤ 20 ∨ v % 32 = 31) ∧ v / 2 ^ 5 % 8 ≤ 4 ∧ v / 2 ^ 8 % 4 ≠ 3 := by
  have htop : v / 2 ^ 24 % 2 ^ 8 = v / 2 ^ 24 := by omega
  simp only [bfmtOk, bits, Nat.shiftRight_eq_div_pow, htop, Bool.and_eq_true, Bool.or_eq_true, decide_eq_true_eq, and_assoc]
  rfl

/-- The firing may not set the format of bank `k` to `v` (R208). -/
def State.bfsetRefused (s : State) (k v : Nat) : Prop :=
  15 < k ∨ bfmtOk v = false ∨ ((s.ctx s.cur).supv = false ∧ s.ownsBank s.cur k = false)

section
variable {a b : Src} {s : State} (h1 : s.single)
include h1

theorem bfset_refused (h : s.bfsetRefused ((s.ctx s.cur).src a).toNat (((s.ctx s.cur).src b).toNat % 2 ^ 32)) :
    exec (.bfset a b) s = .next (s.fault s.cur (permTrap 7 ((s.ctx s.cur).src b))) := by
  rw [exec_bfset, execBfset, each_single h1]
  exact congrArg (finish s) (if_pos h)

theorem bfset_completes (h : ¬ s.bfsetRefused ((s.ctx s.cur).src a).toNat (((s.ctx s.cur).src b).toNat % 2 ^ 32)) :
    exec (.bfset a b) s = .next ((s.onCore (s.cur / 4) (fun x => { x with
      bfmt := FMap.put 0x1F x.bfmt ((s.ctx s.cur).src a).toNat (BitVec.ofNat 32 (((s.ctx s.cur).src b).toNat % 2 ^ 32)) })).after s.cur id) := by
  rw [exec_bfset, execBfset, each_single h1]
  exact (congrArg (finish s) (if_neg h)).trans (finish_single h1)

end

/-- BFSET writes the format register of a bank, or takes the permission fault (R208). -/
theorem housekeeping_bfset (a b : Src) (s : State) (h1 : s.single) :
    let c := s.ctx s.cur
    let k := (c.src a).toNat
    let v := (c.src b).toNat % 2 ^ 32
    let valid := k ≤ 15 ∧ v / 2 ^ 24 = 0 ∧ v / 2 ^ 10 % 2 ^ 6 = 0 ∧ (v % 32 ≤ 20 ∨ v % 32 = 31) ∧ v / 2 ^ 5 % 8 ≤ 4 ∧ v / 2 ^ 8 % 4 ≠ 3
    (valid → c.supv = true ∨ s.ownsBank s.cur k = true → exec (.bfset a b) s =
      .next ((s.onCore (s.cur / 4) (fun x => { x with bfmt := FMap.put 0x1F x.bfmt k (BitVec.ofNat 32 v) })).after s.cur id)) ∧
    (¬ valid → exec (.bfset a b) s = .next (s.fault s.cur { code := 2, cls := 1, detail := 7, va := c.src b })) ∧
    (c.supv = false → s.ownsBank s.cur k = false →
      exec (.bfset a b) s = .next (s.fault s.cur { code := 2, cls := 1, detail := 7, va := c.src b })) := by
  intro c k v valid
  have hvalid : valid ↔ k ≤ 15 ∧ bfmtOk v = true := by rw [bfmtOk_iff (Nat.mod_lt _ (by positivity))]
  refine ⟨fun hv hown => bfset_completes h1 ?_, fun hv => bfset_refused h1 ?_, fun hsup hown => bfset_refused h1 (.inr (.inr ⟨hsup, hown⟩))⟩
  · obtain ⟨hk, hok⟩ := hvalid.1 hv
    rintro (hlt | hbad | ⟨hsup, hnot⟩)
    · exact absurd hk (not_le.2 hlt)
    · rw [hok] at hbad; nomatch hbad
    · rcases hown with h | h
      · rw [hsup] at h; nomatch h
      · rw [hnot] at h; nomatch h
  · by_cases hk : k ≤ 15
    · exact .inr (.inl (Bool.eq_false_iff.2 fun hok => hv (hvalid.2 ⟨hk, hok⟩)))
    · exact .inl (not_le.1 hk)

end Sys2Proof.Machine

/-! ## CINV (O31) -/

namespace Sys2Proof.Machine

theorem exec_cinv (a b : Src) (s : State) : exec (.cinv a b) s = execCinv a b s := rfl

/-! ### Leaves and lines near a context -/

/-- The leaves that context `w` finds without asking further than the L1 TLB of its core (R318). -/
def State.nearLeaves (s : State) (w : Nat) : List Leaf := (s.ctx w).xlate ++ (s.core (w / 4)).tlb

/-- No copy of a line is in the L1 or in the fetch buffer of the core of context `w`. -/
def State.lineGone (s : State) (w line : Nat) : Prop :=
  FMap.find (s.core (w / 4)).ibuf line = none ∧ (s.core (w / 4)).inL1 line = false

theorem mem_toFront {x l : Leaf} {ls : List Leaf} (hl : l ∈ ls) : x ∈ toFront l ls ↔ x ∈ ls := by
  by_cases h : x = l
  · subst h; simp [toFront, hl]
  · simp [toFront, h]

theorem length_toFront {l : Leaf} {ls : List Leaf} (hl : l ∈ ls) : (toFront l ls).length ≤ ls.length := by
  have hlt : (ls.filter (fun x => decide (x ≠ l))).length < ls.length :=
    List.length_filter_lt_length_iff_exists.2 ⟨l, hl, by simp⟩
  exact hlt

/-- Dropping a line brings no other back. -/
theorem Core.dropL1_keeps {c : Core} {k : Nat} (line : Nat) (h : c.inL1 k = false) : (c.dropL1 line).inL1 k = false := by
  rw [Core.inL1, List.any_eq_false] at h
  rw [Core.inL1, Core.dropL1, FMap.get_mapVal _ _ _ _ rfl, List.any_eq_false]
  exact fun x hx => h x (List.mem_filter.1 hx).1

/-- From `s` to `t` context `w` has looked leaves up near it, and its core has lost lines; nothing else has changed. -/
structure Swept (w : Nat) (s t : State) : Prop extends Touched w s t where
  cores : ∀ g, g ≠ w / 4 → t.core g = s.core g
  own : ∃ x y z, t.core (w / 4) = { s.core (w / 4) with tlb := x, l1 := y, ibuf := z }
  leaves : ∀ x, x ∈ t.nearLeaves w ↔ x ∈ s.nearLeaves w
  small : (t.core (w / 4)).tlb.length ≤ 64
  gone : ∀ line, s.lineGone w line → t.lineGone w line

namespace Swept

variable {w : Nat} {s t u : State}

theorem refl (h : (s.core (w / 4)).tlb.length ≤ 64) : Swept w s s :=
  ⟨.refl w s, fun _ _ => rfl, ⟨_, _, _, rfl⟩, fun _ => Iff.rfl, h, fun _ h => h⟩

theorem trans (h : Swept w s t) (k : Swept w t u) : Swept w s u := by
  refine ⟨h.toTouched.trans k.toTouched, fun g hg => (k.cores g hg).trans (h.cores g hg), ?_, fun x => (k.leaves x).trans (h.leaves x), k.small,
    fun line hl => k.gone line (h.gone line hl)⟩
  obtain ⟨_, _, _, ho⟩ := h.own
  obtain ⟨x, y, z, ko⟩ := k.own
  exact ⟨x, y, z, by rw [ko, ho]⟩

/-- A leaf of the L1 TLB moves to its front. -/
theorem tlbAdd {l : Leaf} (hs : (s.core (w / 4)).tlb.length ≤ 64) (hl : l ∈ (s.core (w / 4)).tlb) :
    Swept w s (s.onCore (w / 4) (fun k => k.tlbAdd l)) := by
  have hlen := (length_toFront hl).trans hs
  have htake : (toFront l (s.core (w / 4)).tlb).take 64 = toFront l (s.core (w / 4)).tlb := List.take_of_length_le hlen
  have hcore : (s.onCore (w / 4) (fun k => k.tlbAdd l)).core (w / 4) = { s.core (w / 4) with tlb := toFront l (s.core (w / 4)).tlb } := by
    rw [State.onCore_core, if_pos rfl, Core.tlbAdd, htake]
  refine ⟨.of_units w s, fun g hg => by rw [State.onCore_core, if_neg hg], ⟨_, _, _, hcore⟩, fun x => ?_, ?_, fun line h => ?_⟩
  · rw [State.nearLeaves, State.nearLeaves, hcore, List.mem_append, List.mem_append, mem_toFront hl]; rfl
  · rw [hcore]; exact hlen
  · rw [State.lineGone, hcore]; exact h

/-- A leaf near the context is held for the instruction. -/
theorem holding {l : Leaf} (hs : (s.core (w / 4)).tlb.length ≤ 64) (hl : l ∈ s.nearLeaves w) : Swept w s (s.holding w l) := by
  refine ⟨.hold w s _, fun _ _ => rfl, ⟨_, _, _, rfl⟩, fun x => ?_, hs, fun _ h => h⟩
  have hctx : (s.holding w l).nearLeaves w = (if (s.ctx w).xlate.contains l then (s.ctx w).xlate else l :: (s.ctx w).xlate) ++ (s.core (w / 4)).tlb := by
    rw [State.nearLeaves, State.holding, State.onCtx_ctx, if_pos rfl]; rfl
  rw [hctx]
  split
  · exact Iff.rfl
  · rw [List.cons_append, List.mem_cons]
    exact or_iff_right_of_imp fun h => h ▸ hl

/-- A line leaves the L1 and the fetch buffer, and its home drops the sharer. -/
theorem drops (hs : (s.core (w / 4)).tlb.length ≤ 64) (home line : Nat) (p : Nat → Bool) :
    let t := (s.onCore (w / 4) (fun c => { c.dropL1 line with ibuf := FMap.erase c.ibuf line })).dropSharers home line p
    Swept w s t ∧ t.lineGone w line := by
  intro t
  obtain ⟨_, _, hframe⟩ := State.dropSharers_frame (s.onCore (w / 4) (fun c => { c.dropL1 line with ibuf := FMap.erase c.ibuf line })) home line p
  have hcores : t.core = (s.onCore (w / 4) (fun c => { c.dropL1 line with ibuf := FMap.erase c.ibuf line })).core := by
    rw [show t = _ from hframe]; rfl
  have hcore : t.core (w / 4) = { (s.core (w / 4)).dropL1 line with ibuf := FMap.erase (s.core (w / 4)).ibuf line } := by
    rw [hcores, State.onCore_core, if_pos rfl]
  have hin (k : Nat) : (t.core (w / 4)).inL1 k = ((s.core (w / 4)).dropL1 line).inL1 k := by rw [hcore]; rfl
  have htouched : Touched w s t := by
    rw [show t = _ from hframe]; exact .of_units w s
  refine ⟨⟨htouched, fun g hg => by rw [hcores, State.onCore_core, if_neg hg], ⟨_, _, _, hcore⟩, fun x => ?_, ?_, fun k h => ⟨?_, ?_⟩⟩, ?_, ?_⟩
  · have hctx : t.ctx w = s.ctx w := by rw [show t = _ from hframe]; rfl
    rw [State.nearLeaves, State.nearLeaves, hctx, hcore]; rfl
  · rw [hcore]; exact hs
  · rw [hcore, FMap.find_erase, h.1]; simp
  · rw [hin, Core.dropL1_keeps line h.2]
  · rw [hcore, FMap.find_erase, if_pos rfl]
  · rw [hin, Core.dropL1_inL1]

end Swept

/-! ### Lines in order -/

/-- The address has a leaf near context `w`. -/
def State.near (s : State) (w va : Nat) : Prop :=
  ∃ x ∈ s.nearLeaves w, x.covers (s.ctx w).part (va / 2 ^ 16 * 2 ^ 16) = true

/-- The line of an address is gone from the core of context `w`, where it is on a present page that the core may reach. -/
def State.lineSwept (s t : State) (w va : Nat) : Prop :=
  ∃ x ∈ s.nearLeaves w, x.covers (s.ctx w).part (va / 2 ^ 16 * 2 ^ 16) = true ∧
    (x.bad = 0 → s.corePhysOk w false (x.phys va) = true → t.lineGone w (x.phys va / 64))

section
variable {w : Nat} {s t u : State}

theorem Swept.near (h : Swept w s t) {va : Nat} (hn : s.near w va) : t.near w va := by
  obtain ⟨x, hx, hc⟩ := hn
  exact ⟨x, (h.leaves x).2 hx, by rw [h.part]; exact hc⟩

/-- An address with a leaf near the context is found there. -/
theorem State.lookup_near {va : Nat} (hs : (s.core (w / 4)).tlb.length ≤ 64) (h : ∃ x ∈ s.nearLeaves w, x.covers (s.ctx w).part va = true) :
    ∃ t l, s.lookup w va = (t, some l) ∧ l ∈ s.nearLeaves w ∧ l.covers (s.ctx w).part va = true ∧ Swept w s t := by
  simp only [State.lookup, coreOf]
  split
  · next l hl => exact ⟨s, l, rfl, List.mem_append_left _ (List.mem_of_find?_eq_some hl), (List.find?_some hl :), .refl hs⟩
  · next hnone =>
    split
    · next l hl =>
      have hmem := List.mem_of_find?_eq_some hl
      exact ⟨_, l, rfl, List.mem_append_right _ hmem, (List.find?_some hl :), .tlbAdd hs hmem⟩
    · next hnone' =>
      obtain ⟨x, hx, hc⟩ := h
      rcases List.mem_append.1 hx with hx | hx
      · exact absurd hc (List.find?_eq_none.1 hnone x hx)
      · exact absurd hc (List.find?_eq_none.1 hnone' x hx)

/-- One line of a CINV. -/
theorem cinvLine_sweeps {va : Nat} (hs : (s.core (w / 4)).tlb.length ≤ 64) (hn : va < 2 ^ 55 → s.near w va) :
    ∃ t, cinvLine w s va = .ok t ∧ Swept w s t ∧ (va < 2 ^ 55 → s.lineSwept t w va) := by
  by_cases hva : va < 2 ^ 55
  · obtain ⟨t, l, hl, hmem, hc, ht⟩ := State.lookup_near hs (hn hva)
    have hhold := ht.trans (.holding ht.small ((ht.leaves l).2 hmem))
    simp only [cinvLine, State.peek_hit hva hl]
    by_cases hbad : l.bad = 0
    · simp only [if_pos hbad]
      split
      · obtain ⟨hdrop, hgone⟩ := Swept.drops hhold.small (homeOf (l.phys va) l.hb) (l.phys va / 64) (fun g => decide (g = w / 4))
        exact ⟨_, rfl, hhold.trans hdrop, fun _ => ⟨l, hmem, hc, fun _ _ => hgone⟩⟩
      · next hno =>
        refine ⟨_, rfl, hhold, fun _ => ⟨l, hmem, hc, fun _ hok => absurd ?_ hno⟩⟩
        rw [hhold.corePhysOk]; exact hok
    · simp only [if_neg hbad]
      exact ⟨_, rfl, hhold, fun _ => ⟨l, hmem, hc, fun h => absurd h hbad⟩⟩
  · simp only [cinvLine, State.peek_beyond (not_lt.1 hva)]
    exact ⟨s, rfl, .refl hs, fun h => absurd h hva⟩

/-- The lines of a CINV, one after the other: none that is gone comes back. -/
theorem cinvLines_sweep (l : List Nat) : ∀ {s : State}, (s.core (w / 4)).tlb.length ≤ 64 → (∀ va ∈ l, va < 2 ^ 55 → s.near w va) →
    ∃ t, cinvLines w l s = .ok t ∧ Swept w s t ∧ ∀ va ∈ l, va < 2 ^ 55 → s.lineSwept t w va := by
  induction l with
  | nil => exact fun hs _ => ⟨_, rfl, .refl hs, fun _ h => nomatch h⟩
  | cons a l ih =>
    intro s hs hn
    obtain ⟨t, ht, hst, hline⟩ := cinvLine_sweeps hs (hn a List.mem_cons_self)
    obtain ⟨u, hu, htu, hrest⟩ := ih hst.small fun va hva hlt => hst.near (hn va (List.mem_cons_of_mem _ hva) hlt)
    refine ⟨u, by simp only [cinvLines, ht, hu], hst.trans htu, fun va hva hlt => ?_⟩
    rcases List.mem_cons.1 hva with rfl | hva
    · obtain ⟨x, hx, hc, hgone⟩ := hline hlt
      exact ⟨x, hx, hc, fun hbad hok => htu.gone _ (hgone hbad hok)⟩
    · obtain ⟨x, hx, hc, hgone⟩ := hrest va hva hlt
      refine ⟨x, (hst.leaves x).1 hx, by rw [← hst.part]; exact hc, fun hbad hok => hgone hbad ?_⟩
      rw [hst.corePhysOk]; exact hok

end

/-- CINV completes where every page is near the context, and its lines are gone (R205). -/
theorem housekeeping_cinv (a b : Src) (s : State) (h1 : s.single) :
    let c := s.ctx s.cur
    let k := s.core (s.cur / 4)
    let line := fun (i : Nat) => wrap 64 ((c.src a).toNat / 64 * 64 + 64 * i)
    k.tlb.length ≤ 64 →
    (∀ i < min (c.src b).toNat 4096, line i < 2 ^ 55 → ∃ x ∈ c.xlate ++ k.tlb, x.covers c.part (line i / 2 ^ 16 * 2 ^ 16) = true) →
    ∃ t, exec (.cinv a b) s = .next t ∧ t = { s with ctxs := t.ctxs, cores := t.cores, clus := t.clus, ovf := t.ovf } ∧
      (∀ w, w ≠ s.cur → t.ctx w = s.ctx w) ∧ t.ctx s.cur = c.retired ∧ (∀ g, g ≠ s.cur / 4 → t.core g = s.core g) ∧
      t.core (s.cur / 4) = { k with tlb := (t.core (s.cur / 4)).tlb, l1 := (t.core (s.cur / 4)).l1, ibuf := (t.core (s.cur / 4)).ibuf } ∧
      ∀ i < min (c.src b).toNat 4096, line i < 2 ^ 55 →
        ∃ x ∈ c.xlate ++ k.tlb, x.covers c.part (line i / 2 ^ 16 * 2 ^ 16) = true ∧
          (x.bad = 0 → s.corePhysOk s.cur false (x.phys (line i)) = true →
            FMap.find (t.core (s.cur / 4)).ibuf (x.phys (line i) / 64) = none ∧
            (t.core (s.cur / 4)).inL1 (x.phys (line i) / 64) = false) := by
  intro c k line hs hn
  obtain ⟨t, ht, hswept, hlines⟩ := cinvLines_sweep ((List.range (min (c.src b).toNat 4096)).map line) hs fun va hva => by
    obtain ⟨i, hi, rfl⟩ := List.mem_map.1 hva
    exact hn i (List.mem_range.1 hi)
  obtain ⟨v, hv, hframe, hother, hown, hcore⟩ := hswept.finishes h1
  refine ⟨v, ?_, hframe, hother, hown, fun g hg => ?_, ?_, fun i hi hlt => ?_⟩
  · rw [exec_cinv, execCinv, each_single h1]
    exact (congrArg (finish s) ht).trans hv
  · rw [hcore, hswept.cores g hg]
  · obtain ⟨x, y, z, ho⟩ := hswept.own
    rw [hcore, ho]
  · rw [hcore]
    exact hlines (line i) (List.mem_map.2 ⟨i, List.mem_range.2 hi, rfl⟩) hlt

/-- Settles O31: one lemma for each form, and for PREF.l one for its fault and one for its copy. -/
theorem housekeeping : Obligations.Housekeeping :=
  ⟨housekeeping_pref, housekeeping_pref_copies, housekeeping_pref_misaligned, housekeeping_cinv, housekeeping_bfset⟩

end Sys2Proof.Machine

/-! ## Runs of bytes performed now (O28) -/

namespace Sys2Proof.Machine

theorem State.Wrote.region {s t : State} (h : s.Wrote t) : t.region = s.region := by
  obtain ⟨_, _, _, _, _, hf⟩ := h.frame
  funext pa
  simp only [State.region, hf]

/-- Away from the descriptors a store leaves the bytes that it has. -/
theorem State.storeBytes_plain (gc : Nat) (bs : List Byte) : ∀ (s : State) (a : Nat), (∀ i < bs.length, ¬ (0xE0000 ≤ a + i ∧ a + i < 0xE4000)) →
    s.storeBytes gc a bs = s.wrBytes (localPA gc a) bs := by
  induction bs with
  | nil => exact fun _ _ _ => rfl
  | cons b bs ih =>
    intro s a h
    have hbyte : s.storeByte gc a b = s.wrByte (localPA gc a) b := by
      rw [State.storeByte, State.portByte, if_neg (by simpa using h 0 (by simp))]
    have hrest : ∀ i < bs.length, ¬ (0xE0000 ≤ a + 1 + i ∧ a + 1 + i < 0xE4000) := fun i hi => by
      have := h (i + 1) (by simpa using hi)
      omega
    rw [State.storeBytes, State.wrBytes, hbyte, ih _ _ hrest, localPA_add]

/-- The runs of an access lie each in one granule (R196). -/
theorem runsOf_line (z : List (RByte × Byte)) : ∀ va, ∀ r ∈ runsOf va z, r.pa % 64 + r.bytes.length ≤ 64 := by
  induction z with
  | nil => exact fun _ _ h => nomatch h
  | cons x z ih =>
    intro va r hr
    have hrest := ih (va + 1)
    obtain ⟨y, b⟩ := x
    cases y with
    | guard k o => exact hrest r hr
    | mem pa hb cls =>
      have hone : pa % 64 + [b].length ≤ 64 := by rw [List.length_singleton]; omega
      simp only [runsOf] at hr
      split at hr
      · next y l hy =>
        rw [hy] at hrest
        split at hr
        · next hc =>
          rcases List.mem_cons.1 hr with rfl | hr
          · have := hrest y List.mem_cons_self
            simp only [List.length_cons]
            omega
          · exact hrest r (List.mem_cons_of_mem _ hr)
        · rcases List.mem_cons.1 hr with rfl | hr
          · exact hone
          · exact hrest r hr
      · rw [List.mem_singleton] at hr
        subst hr
        exact hone

/-- A run within one granule that begins in HBM, or in a scratchpad outside the descriptors. -/
structure State.PlainRun (s : State) (r : Run) : Prop where
  line : r.pa % 64 + r.bytes.length ≤ 64
  starts : s.region r.pa = .hbm ∨ ∃ gc a, s.region r.pa = .scratch gc a ∧ ¬ (0xE0000 ≤ a ∧ a < 0xE4000)

/-- A run performed at its home or at its port is written, and caches, grants and traces follow. -/
theorem State.performRuns_cons {s : State} {w : Nat} {r : Run} (h : s.PlainRun r) (l : List Run) :
    ∃ t, s.performRuns w (r :: l) = t.performRuns w l ∧ s.Wrote t ∧ wroteBytes s t r.pa r.bytes.length (fun i => r.bytes.getD i 0) := by
  rcases h.starts with hr | ⟨gc, a, hr, ha⟩
  · refine ⟨_, by simp only [State.performRuns, hr]; rfl, ?_, ?_⟩
    · exact ((State.Like.invalidate ..).trans (.atHome ..)).wrote.trans (.wrBytes ..)
    · exact (wroteBytes_wrBytes _ r.pa r.bytes).from ((State.Like.invalidate ..).trans (.atHome ..)).mem
  · obtain ⟨hpa, -⟩ := State.region_scratch hr
    have hfar : ∀ i < r.bytes.length, ¬ (0xE0000 ≤ a + i ∧ a + i < 0xE4000) := by
      intro i hi
      have hline := h.line
      rw [hpa, localPA] at hline
      omega
    refine ⟨_, by simp only [State.performRuns, hr]; rfl, .portStore .., ?_⟩
    refine (wroteBytes_wrBytes s r.pa r.bytes).congr fun x hx => ?_
    rw [State.portStore, State.rdByte_trace _ _ _ _ _ _ hx, hpa, ← State.storeBytes_plain gc r.bytes s a hfar]
    rfl

/-- Runs performed in order leave at each address the last byte that they hold for it. -/
theorem State.performRuns_spec {w : Nat} (l : List Run) : ∀ {s : State}, (∀ r ∈ l, s.PlainRun r) →
    s.Wrote (s.performRuns w l) ∧ ∀ pa, ¬ inTraceRing pa → (s.performRuns w l).rdByte pa =
      (l.flatMap (fun r => cellsAt r.pa r.bytes)).foldl (fun b y => if y.1 = pa then y.2 else b) (s.rdByte pa) := by
  induction l with
  | nil => exact fun _ => ⟨.refl _, fun _ _ => rfl⟩
  | cons r l ih =>
    intro s h
    obtain ⟨t, ht, hwrote, hbytes⟩ := State.performRuns_cons (w := w) (h r List.mem_cons_self) l
    obtain ⟨hrest, hrd⟩ := ih (s := t) fun x hx => by
      obtain ⟨hline, hstart⟩ := h x (List.mem_cons_of_mem _ hx)
      exact ⟨hline, by rw [hwrote.region]; exact hstart⟩
    rw [ht]
    refine ⟨hwrote.trans hrest, fun pa hpa => ?_⟩
    rw [hrd pa hpa, hbytes pa hpa, List.flatMap_cons, List.foldl_append, foldl_cellsAt (fun _ y => y)]

theorem State.Like.touchRuns (l : List Run) : ∀ s : State, s.Like (s.touchRuns l) := by
  induction l with
  | nil => exact .refl
  | cons r l ih =>
    intro s
    refine State.Like.trans ?_ (ih _)
    split
    · exact .atHome ..
    · exact .refl s

/-! ### Bytes of a plain operand -/

section
variable {s : State} {l : List RByte} (h : plainBytes s l)
include h

theorem plainBytes.clean : cleanBytes s l := by
  intro b hb
  obtain ⟨pa, x, y, rfl, hp, -⟩ := h b hb
  exact ⟨pa, x, y, rfl, hp⟩

theorem plainBytes.typedAt : s.typedAt l = false := by
  refine List.any_eq_false.2 fun b hb => ?_
  obtain ⟨pa, x, y, rfl, -, ht, -⟩ := h b hb
  simp [ht]

theorem plainBytes.runs {t : State} (k : s.Like t) (va : Nat) (bs : List Byte) : ∀ r ∈ runsOf va (l.zip bs), t.PlainRun r := by
  intro r hr
  obtain ⟨-, hb, cls, hm⟩ := runsOf_start hr
  obtain ⟨pa, x, y, he, -, -, hreg⟩ := h _ hm
  cases he
  exact ⟨runsOf_line _ _ r hr, by rw [k.region]; exact hreg⟩

/-- The home of a plain byte holds what memory holds. -/
theorem plainBytes.homeBytes_getElem {i : Nat} {pa : Nat} (hi : i < l.length) (hpa : l[i].pa? = some pa) :
    (s.homeBytes l)[i]'(by rwa [State.homeBytes, List.length_map]) = s.rdByte pa := by
  obtain ⟨q, x, y, he, -, -, hreg⟩ := h l[i] (List.getElem_mem hi)
  rw [he] at hpa
  cases hpa
  simp only [State.homeBytes, List.getElem_map, he, State.rdAny]
  rcases hreg with hr | ⟨gc, a, hr, -⟩
  · rw [hr]
  · rw [hr]

end

end Sys2Proof.Machine

/-! ## AMO and ACAS (O28) -/

namespace Sys2Proof.Machine

/-! ### Bytes written back -/

theorem leBytes_leNat (bs : List Byte) : leBytes bs.length (leNat bs) = bs := by
  induction bs with
  | nil => rfl
  | cons b bs ih =>
    have hb := b.isLt
    have hlow : BitVec.ofNat 8 (b.toNat + 256 * leNat bs) = b := by
      apply BitVec.eq_of_toNat_eq
      rw [BitVec.toNat_ofNat]
      omega
    have hrest : (b.toNat + 256 * leNat bs) / 256 = leNat bs := by omega
    rw [List.length_cons, leNat, leBytes, hlow, hrest, ih]

/-- Bytes that are there already change nothing. -/
theorem byteAfter_same {l : List RByte} {bs : List Byte} {pa : Nat} {old : Byte} (h : ∀ x ∈ l.zip bs, x.1.pa? = some pa → x.2 = old) :
    byteAfter l bs pa old = old := by
  unfold byteAfter
  split
  · next x hx => exact h x (List.mem_reverse.1 (List.mem_of_find?_eq_some hx)) (of_decide_eq_true (List.find?_some hx :))
  · rfl

theorem plainBytes.byteAfter_old {s : State} {l : List RByte} (h : plainBytes s l) (pa : Nat) :
    byteAfter l (leBytes l.length (leNat (s.homeBytes l))) pa (s.rdByte pa) = s.rdByte pa := by
  have hlen : (s.homeBytes l).length = l.length := by rw [State.homeBytes, List.length_map]
  refine byteAfter_same fun x hx hpa => ?_
  rw [← hlen, leBytes_leNat] at hx
  obtain ⟨i, hi, rfl⟩ := List.mem_iff_getElem.1 hx
  rw [List.getElem_zip] at hpa ⊢
  exact h.homeBytes_getElem _ hpa

theorem translate_length {s u : State} {w va n : Nat} {acc : Access} {l : List RByte} (h : s.translate w va n acc = .ok (u, l)) : l.length = n := by
  simp only [State.translate] at h
  split at h
  · cases h
  · split at h
    · cases h
    · split at h
      · cases h
      · split at h
        · cases h
        · cases h
          rw [List.length_map, List.length_range]

/-- An operand has as many bytes as it asks for. -/
theorem resolve_length_any {s u : State} {w : Nat} {sp : MSpace} {base : Word} {off : Int} {n al : Nat} {acc : Access}
    {l : List RByte} (h : s.resolve w sp base off n al acc = .ok (u, l)) : l.length = n := by
  by_cases hsp : sp = .g
  · subst hsp
    simp only [State.resolve, State.resolveG] at h
    split at h
    · cases h
    · exact translate_length h
  · exact resolve_length hsp h

/-! ### The waits of an atomic -/

/-- An atomic waits as a release does, with the stores of its core (R217, R218). -/
theorem mayRelease_iff (s : State) (sc : Scope) : s.mayRelease s.cur sc = true ↔ releasable s s.cur sc := by
  have hpub (e : Pending) : e.published = true ↔ e.via = .home ∨ e.via = .seg := by simp [Pending.published]
  rw [State.mayRelease, Bool.and_eq_true, settled_iff, releasable, and_assoc]
  refine and_congr_right fun _ => and_congr_right fun _ => ?_
  simp only [Bool.not_eq_true', List.any_eq_false, Bool.and_eq_true, not_and, hpub, List.any_eq_true, decide_eq_true_eq, stillOut_iff, true_and,
    and_imp]
  exact Iff.rfl

section
variable {s u : State} {t : AmoTy} {sp : MSpace} {sc : Scope} {ea : Src} {disp : BitVec 32} {l : List RByte}

/-- Behind its operand and its commit point an atomic acts, or waits (R201, R213, R218). -/
theorem amoPrep_eq (hu : s.amoAddr s.cur t sp ea disp = .ok (u, l)) (hc : u.mayCommit) [Decidable (releasable u.committed s.cur sc)] :
    amoPrep t sp sc ea disp s.cur s =
      if releasable u.committed s.cur sc ∧ u.committed.storeAhead s.cur l = false then .ok (u.committed, l) else .error (.wait u.committed) := by
  have hcur : u.cur = s.cur := (Looked.resolve hu).cur
  have hcommit : u.commit u.cur = .ok u.committed := State.commit_eq hc
  have hrel := mayRelease_iff u.committed sc
  rw [State.committed_cur, hcur] at hrel
  simp only [amoPrep, hu, hcommit, Bool.and_eq_true, hrel, Bool.not_eq_true']

/-- What the operand and the commit point of an atomic leave of the firing. -/
theorem amo_committed_gang (h1 : s.single) (hu : s.amoAddr s.cur t sp ea disp = .ok (u, l)) : (u.committed.ctx s.cur).gang = false := by
  have hlook := Looked.resolve hu
  obtain ⟨x, hx⟩ := hlook.ctx
  have hgang : u.single := by
    rw [State.single, hlook.cur, hx]; exact h1
  have := committed_gang hgang
  rwa [hlook.cur] at this

end

/-! ### What an atomic does -/

/-- The new value of an AMO, or of an ACAS that matches, from the old one (R201). -/
def atomicNew (op : Option AmoOp) (t : AmoTy) (a : Dst) (b : Src) (k : Ctx) (old : Nat) : Option Nat :=
  match op with
  | some o => some (amoNew o t old ((k.src b).toNat % 2 ^ t.width))
  | none => if old = (k.dstVal a).toNat % 2 ^ t.width then some ((k.src b).toNat % 2 ^ t.width) else none

theorem exec_atomic (op : Option AmoOp) (t : AmoTy) (sp : MSpace) (sc : Scope) (a : Dst) (b ea : Src) (disp : BitVec 32) (s : State) :
    exec (match op with | some o => .amo o t sp sc a b ea disp | none => .acas t sp sc a b ea disp) s =
      each s (amoOp t sp sc a ea disp (atomicNew op t a b)) := by
  cases op with
  | some o => rfl
  | none => rfl

/-- The value that an atomic leaves, as R201 words it. -/
theorem atomicNew_getD (op : Option AmoOp) (t : AmoTy) (a : Dst) (b : Src) (k : Ctx) (old : Nat) :
    let x := (k.src b).toNat % 2 ^ t.width
    let new := (atomicNew op t a b k old).getD old
    match op with
    | some .add => new = (old + x) % 2 ^ t.width
    | some .and => new = old &&& x
    | some .or => new = old ||| x
    | some .xor => new = old ^^^ x
    | some .min => new = (if fromInt t.ty x < fromInt t.ty old then x else old)
    | some .max => new = (if fromInt t.ty old < fromInt t.ty x then x else old)
    | some .swap => new = x
    | none => new = if old = (k.dstVal a).toNat % 2 ^ t.width then x else old := by
  intro x new
  have hkeep (p q : Int) : (if p ≤ q then old else x) = if q < p then x else old := by
    rw [← ite_not]; simp only [not_le]
  cases op with
  | none =>
    simp only [new, atomicNew]
    split
    · rfl
    · rfl
  | some o =>
    cases o with
    | min => exact hkeep ..
    | max => exact hkeep ..
    | _ => rfl

/-- An atomic on plain bytes writes the new value, and the old one to its destination. -/
theorem amoDo_plain {s : State} {t : AmoTy} {a : Dst} {va : Word} {o : Int} {f : Nat → Option Nat} {w : Nat} {l : List RByte}
    (h : plainBytes s l) (hlen : l.length = t.width / 8) :
    ∃ u, amoDo t a va o f w s l = u.onCtx w (fun c => c.dst a (extend t.ty (leNat (s.homeBytes l)))) ∧ s.Wrote u ∧
      ∀ pa, ¬ inTraceRing pa → u.rdByte pa =
        byteAfter l (leBytes (t.width / 8) ((f (leNat (s.homeBytes l))).getD (leNat (s.homeBytes l)))) pa (s.rdByte pa) := by
  simp only [amoDo, h.typedAt, Bool.false_eq_true, if_false, touchGuard_of_clean h.clean, touchPoison_of_clean h.clean]
  have htouch := State.Like.touchRuns (runsOf va.toNat (l.zip (leBytes (t.width / 8) (leNat (s.homeBytes l))))) s
  refine ⟨_, rfl, ?_⟩
  cases f (leNat (s.homeBytes l)) with
  | none =>
    refine ⟨htouch.wrote, fun pa _ => ?_⟩
    have hold := h.byteAfter_old pa
    rw [hlen] at hold
    rw [Option.getD_none, hold]
    exact congrFun (State.rdByte_congr htouch.mem) pa
  | some x =>
    obtain ⟨hwrote, hbytes⟩ := State.performRuns_spec (w := w) _ (h.runs htouch va.toNat (leBytes (t.width / 8) x))
    refine ⟨htouch.wrote.trans hwrote, fun pa hpa => ?_⟩
    rw [hbytes pa hpa, runsOf_cells, foldl_cellsOf, State.rdByte_congr htouch.mem, Option.getD_some]

/-- An imprecise fault recorded against the instruction in progress, where a firing is there to take it (R382). -/
theorem State.note_spec (s : State) (w code detail : Nat) (va : Word) : ∃ f : Imprecise, f.code = code ∧
    s.note w code detail va = { s with ctxs := (s.note w code detail va).ctxs } ∧ (∀ j, j ≠ w → (s.note w code detail va).ctx j = s.ctx j) ∧
    (s.note w code detail va).ctx w = { s.ctx w with imprec := (s.ctx w).imprec ++ if (s.ctx w).kind = .none then [] else [f] } := by
  by_cases hk : (s.ctx w).kind = .none
  · have hnote : s.note w code detail va = s := by
      rw [State.note, State.imprecise, if_neg fun h => h.2 hk]
    refine ⟨{ code := code, detail := 0, va := 0, pc := 0, icnt := 0 }, rfl, by rw [hnote], fun j _ => by rw [hnote], ?_⟩
    rw [hnote, if_pos hk, List.append_nil]
  · obtain ⟨f, hf, hcode, -⟩ := State.note_eq hk code detail va
    refine ⟨f, hcode, by rw [hf]; rfl, fun j hj => by rw [hf, State.onCtx_ctx, if_neg hj], ?_⟩
    rw [hf, State.onCtx_ctx, if_pos rfl, if_neg hk]

end Sys2Proof.Machine

namespace Sys2Proof.Machine

/-- Some byte of the operand lies in a typed cell. -/
theorem State.typedAt_of_cell {s : State} {l : List RByte} (h : ∃ pa hb cls, .mem pa hb cls ∈ l ∧ (s.cellTag pa).1 ≠ 0) : s.typedAt l = true := by
  obtain ⟨pa, hb, cls, hm, ht⟩ := h
  exact List.any_eq_true.2 ⟨_, hm, decide_eq_true ht⟩

section
variable {t : AmoTy} {sp : MSpace} {sc : Scope} {a : Dst} {ea : Src} {disp : BitVec 32} {f : Ctx → Nat → Option Nat} {s u : State} {l : List RByte}
  (h1 : s.single) (hu : s.amoAddr s.cur t sp ea disp = .ok (u, l)) (hc : u.mayCommit)
include h1 hu hc

/-- While an earlier access is on its way an atomic waits, its log published (R218). -/
theorem each_amoOp_waits (hw : ¬ releasable u.committed s.cur sc ∨ u.committed.storeAhead s.cur l = true) :
    each s (amoOp t sp sc a ea disp f) = .next u.committed := by
  classical
  have hnot : ¬ (releasable u.committed s.cur sc ∧ u.committed.storeAhead s.cur l = false) := fun ⟨hr, ha⟩ =>
    hw.elim (· hr) (fun h => by rw [ha] at h; cases h)
  rw [each_single h1, amoOp, amoPrep_eq hu hc, if_neg hnot]
  rfl

/-- Released, an atomic acts at the point that its log is published. -/
theorem each_amoOp_acts (hr : releasable u.committed s.cur sc) (ha : u.committed.storeAhead s.cur l = false) :
    ∃ (va : Word) (o : Int), each s (amoOp t sp sc a ea disp f) =
      finish s (.ok (amoDo t a va o (f (u.committed.ctx s.cur)) s.cur u.committed l)) := by
  classical
  rw [each_single h1, amoOp, amoPrep_eq hu hc, if_pos ⟨hr, ha⟩]
  exact ⟨_, _, rfl⟩

/-- On a typed cell an atomic records the imprecise fault 0x13 and does nothing else (R201). -/
theorem each_amoOp_typed (hr : releasable u.committed s.cur sc) (ha : u.committed.storeAhead s.cur l = false)
    (ht : u.committed.typedAt l = true) :
    ∃ (r : State) (g : Imprecise), each s (amoOp t sp sc a ea disp f) = .next r ∧ g.code = 0x13 ∧ r = { u.committed with ctxs := r.ctxs } ∧
      (∀ w, w ≠ s.cur → r.ctx w = u.committed.ctx w) ∧
      r.ctx s.cur = ({ u.committed.ctx s.cur with imprec := (u.committed.ctx s.cur).imprec ++
        if (u.committed.ctx s.cur).kind = .none then [] else [g] } : Ctx).retired := by
  obtain ⟨va, o, hacts⟩ := each_amoOp_acts (f := f) (a := a) h1 hu hc hr ha
  obtain ⟨g, hcode, hframe, hother, hown⟩ := State.note_spec u.committed s.cur 0x13 0 va
  have hgang : ((u.committed.note s.cur 0x13 0 va).ctx s.cur).gang = false := by
    rw [hown]; exact amo_committed_gang h1 hu
  refine ⟨(u.committed.note s.cur 0x13 0 va).after s.cur id, g, ?_, hcode, ?_, fun w hw => ?_, ?_⟩
  · rw [hacts, amoDo, if_pos ht]
    exact finish_single hgang
  · rw [State.after, State.onCtx, State.setCtx, hframe]
  · rw [State.after_ctx, if_neg hw, hother w hw]
  · rw [State.after_ctx, if_pos rfl, hown]
    rfl

/-- On bytes that keep to the rule an atomic writes the new value, and the old one to its destination (R201). -/
theorem each_amoOp_plain (hr : releasable u.committed s.cur sc) (ha : u.committed.storeAhead s.cur l = false)
    (hp : plainBytes u.committed l) :
    let old := leNat (u.committed.homeBytes l)
    ∃ r : State, each s (amoOp t sp sc a ea disp f) = .next r ∧
      (∀ pa, ¬ inTraceRing pa → r.rdByte pa =
        byteAfter l (leBytes (t.width / 8) ((f (u.committed.ctx s.cur) old).getD old)) pa (u.committed.rdByte pa)) ∧
      (∀ w, w ≠ s.cur → r.ctx w = u.committed.ctx w) ∧
      r.ctx s.cur = ((u.committed.ctx s.cur).dst a (extend t.ty old)).retired := by
  intro old
  obtain ⟨va, o, hacts⟩ := each_amoOp_acts (f := f) (a := a) h1 hu hc hr ha
  obtain ⟨x, hdo, hwrote, hbytes⟩ := amoDo_plain (t := t) (a := a) (va := va) (o := o) (f := f (u.committed.ctx s.cur)) (w := s.cur) hp
    (resolve_length_any hu)
  have hgang : ((x.onCtx s.cur (fun c => c.dst a (extend t.ty old))).ctx s.cur).gang = false := by
    rw [State.onCtx_ctx, if_pos rfl, Ctx.dst_eq, hwrote.ctx]
    exact amo_committed_gang h1 hu
  refine ⟨x.after s.cur (fun c => c.dst a (extend t.ty old)), ?_, hbytes, fun w hw => ?_, ?_⟩
  · rw [hacts, hdo, finish_single hgang, State.after_onCtx]
  · rw [State.after_ctx, if_neg hw, hwrote.ctx]
  · rw [State.after_ctx, if_pos rfl, hwrote.ctx]

end

/-- Settles O28: behind its commit point an atomic waits, records the fault of a typed cell, or reads and writes its bytes. -/
theorem atomics : Obligations.Atomics := by
  intro i t sp sc a b ea disp op s u l h1 hi hu hc v c old x
  have hexec : exec i s = each s (amoOp t sp sc a ea disp (atomicNew op t a b)) := by
    rw [hi]
    exact exec_atomic ..
  rw [hexec]
  refine ⟨each_amoOp_waits h1 hu hc, fun hr ha ht => each_amoOp_typed h1 hu hc hr ha (State.typedAt_of_cell ht), fun hr ha hp => ?_⟩
  obtain ⟨r, hnext, hbytes, hother, hown⟩ := each_amoOp_plain (a := a) (f := atomicNew op t a b) h1 hu hc hr ha hp
  refine ⟨r, _, hnext, atomicNew_getD op t a b c old, hbytes, hother, ?_⟩
  rw [hown]
  exact Ctx.dst_on c a _

end Sys2Proof.Machine
